-- ==== Sys2Proof/Word.lean ====
section
/-!
DEFINITION. The word types of the KA-41 and their plainest arithmetic (spec 00 R9, 05 R95, R98).
-/
namespace Sys2Proof

/-- A byte. -/
abbrev Byte := BitVec 8
/-- A scalar register, a buffer pointer or one entry of a witness: 64 bits (05 R95). -/
abbrev Word := BitVec 64
/-- A slot of a bundle: 32 bits (04 R78). -/
abbrev SlotWord := BitVec 32
/-- A program counter: a byte offset into the code section (04 R73). -/
abbrev Pc := BitVec 32
/-- A vector register: 64 lanes of 32 bits, lane n at bits [32n+31:32n] (05 R95, R98). -/
abbrev VReg := BitVec 2048
/-- A witness register: entry 0 in bits [63:0], entry 1 in bits [127:64] (12 R264). -/
abbrev Witness := BitVec 128
/-- The six sticky flags in the layout of SR.FPST: SF NX UF OF DZ NV from bit 5 to bit 0 (02 R49). -/
abbrev Flags := BitVec 6

/-- The bit range x[hi:lo] of a natural number, as the spec writes it (00 R9). -/
def bits (x hi lo : Nat) : Nat := (x / 2 ^ lo) % 2 ^ (hi + 1 - lo)

/-- Little-endian value of a list of bytes: the least significant byte comes first (00 R9). -/
def leNat : List Byte → Nat
  | [] => 0
  | b :: bs => b.toNat + 256 * leNat bs

/-- The n low bytes of a number, least significant first (00 R9). -/
def toLe : Nat → Nat → List Byte
  | 0, _ => []
  | n + 1, x => BitVec.ofNat 8 x :: toLe n (x / 256)

/-- Signed reading of the low n bits of a number (02 R38). -/
def sint (n x : Nat) : Int :=
  let y := x % 2 ^ n
  if 2 * y < 2 ^ n then (y : Int) else (y : Int) - 2 ^ n

/-- The two's-complement bits of an integer in n bits (02 R38). -/
def wrapInt (n : Nat) (i : Int) : Nat := (i % (2 ^ n : Int)).toNat

end Sys2Proof
end

