-- ==== Sys2Proof/Config.lean ====
section
/-!
DEFINITION. What the manual leaves open or an implementation fixes: free values, opaque constants
with no body, so that nothing in Lean can prove a value of one.
-/
namespace Sys2Proof.Config

/-- Which of the agents that could act next does so (12 R263: accesses of different agents are
ordered only by witnesses, queues and waits). Applied to the step counter; log 1. -/
opaque choose : Nat → Nat

/-- Which member of a permitted set an UNSPECIFIED read gives (00 R11): the step counter, then a
key that names the read, the register and the byte. Log 5. -/
opaque pick : Nat → Nat → Nat

/-- A free 64-bit value for an UNSPECIFIED word: the step counter and a key (log 5). -/
opaque freeWord : Nat → Nat → BitVec 64

/-- Whether power-up phase n keeps its bound and, of 2 to 4, succeeds (15 R336; log 6). -/
opaque phaseOk : Nat → Bool

/-- Cores and clusters that firmware finds failing in power-up phase 3 (15 R336; log 6). -/
opaque failingCores : List Nat
/-- Clusters that firmware disables in power-up phase 3 (15 R336; log 6). -/
opaque failingClusters : BitVec 48
/-- Pseudo-channels that firmware retires in power-up phase 3, as (stack, channel) (15 R336; log 6). -/
opaque failingChannels : List (Nat × Nat)

/-- Whether the board carries CXL memory in place of the LP tier (15 R329; log 6). -/
opaque cxlBoard : Bool
/-- The bytes of the CXL memory of a board that carries one (00 R1, R4; log 39). -/
opaque cxlBytes : Nat

/-- The sign of the difference -0 - (-0), of which the manual states nothing (02 R37; log 47). -/
opaque minusZeroDiff : Bool

/-- The firmware image of the board (15 R338; log 18). -/
opaque firmwareImage : List Byte
/-- The Ed25519 signature that the image carries (15 R338; log 18). -/
opaque firmwareSignature : BitVec 512
/-- The public half of the release key fused into the boot ROM (15 R338; log 18). -/
opaque releaseKey : BitVec 256
/-- The Ed25519 secret of the device key, derived at phase 1 from a fused secret (15 R339; log 18). -/
opaque deviceSecret : BitVec 256
/-- The revision number reported by attestation (15 R339; log 18). -/
opaque revision : BitVec 16
/-- The keyed hash that seals an engine queue image (14 R319; log 18). -/
opaque sealOf : List Byte → BitVec 64
/-- How a section of a fatal-error dump lays out the words of device state that it holds (15 R335; log 18). -/
opaque dumpLayout : Nat → List Nat → List Byte
/-- Clock cycles since power-up at the step counter (15 R335; log 11). -/
opaque clockCycles : Nat → BitVec 64

end Sys2Proof.Config
end

