-- ==== Sys2Proof/Machine/Flags.lean ====
section
/-!
DEFINITION. Number formats, rounding, conversions, the flags that each raises, the block formats and the
transcendental functions (02 R34 to R48; 06 R139 to R142; 07 R147, R158).
-/
namespace Sys2Proof.Machine

/-! ### Flags (02 R49) -/

/-- Invalid. -/
abbrev fNV : Flags := 1
/-- Division by zero. -/
abbrev fDZ : Flags := 2
/-- Overflow. -/
abbrev fOF : Flags := 4
/-- Underflow. -/
abbrev fUF : Flags := 8
/-- Inexact. -/
abbrev fNX : Flags := 16
/-- SPECIAL_FLUSH. -/
abbrev fSF : Flags := 32

/-- A flag raised under a condition. -/
def flagIf (b : Bool) (f : Flags) : Flags := if b then f else 0

/-! ### Floating-point formats (02 R35, R36) -/

/-- A format: its width, fraction bits and bias, and whether it has infinities. -/
structure FFmt where
  w : Nat
  f : Nat
  bias : Nat
  hasInf : Bool
deriving DecidableEq, Repr

/-- The formats by their codes (02 R34, R35). -/
abbrev F32 : FFmt := ⟨32, 23, 127, true⟩
/-- FP64. -/
abbrev F64 : FFmt := ⟨64, 52, 1023, true⟩
/-- FP16. -/
abbrev F16 : FFmt := ⟨16, 10, 15, true⟩
/-- BF16. -/
abbrev BF16 : FFmt := ⟨16, 7, 127, true⟩
/-- E4M3. -/
abbrev E4M3 : FFmt := ⟨8, 3, 7, false⟩
/-- E5M2. -/
abbrev E5M2 : FFmt := ⟨8, 2, 15, true⟩

/-- The format of a code 0 to 5 (02 R34). -/
def ffmt (code : Nat) : FFmt :=
  match code with
  | 0 => F32 | 1 => F64 | 2 => F16 | 3 => BF16 | 4 => E4M3 | _ => E5M2

/-- The all-ones exponent field. -/
def FFmt.emax (t : FFmt) : Nat := 2 ^ (t.w - 1 - t.f) - 1
/-- The exponent of the grid of subnormals: 1 - B - F (02 R36). -/
def FFmt.qmin (t : FFmt) : Int := 1 - (t.bias : Int) - t.f
/-- The canonical NaN (02 R35). -/
def FFmt.nan (t : FFmt) : Nat := 2 ^ (t.w - 1) - 1
/-- Infinity, sign 0. -/
def FFmt.inf (t : FFmt) : Nat := t.emax * 2 ^ t.f
/-- The bits of the largest finite value (02 R35, R36). -/
def FFmt.largest (t : FFmt) : Nat := if t.hasInf then t.inf - 1 else t.nan - 1
/-- The sign bit. -/
def FFmt.sign (t : FFmt) (neg : Bool) : Nat := if neg then 2 ^ (t.w - 1) else 0

/-- An exact value: a NaN, quiet or signalling; an infinity; or (-1)^neg * m * 2^e (02 R36, R37). -/
inductive FVal where
  | nan (sig : Bool)
  | inf (neg : Bool)
  | fin (neg : Bool) (m : Nat) (e : Int)
deriving DecidableEq, Repr

/-- Decodes the low bits of a number in a format (02 R36). -/
def FFmt.decode (t : FFmt) (x : Nat) : FVal :=
  let x := x % 2 ^ t.w
  let neg := decide (2 ^ (t.w - 1) ≤ x)
  let e := x / 2 ^ t.f % (t.emax + 1)
  let f := x % 2 ^ t.f
  if e = t.emax ∧ (t.hasInf ∨ f = 2 ^ t.f - 1) then
    if f = 0 then .inf neg else .nan (decide (f < 2 ^ (t.f - 1)))
  else if e = 0 then .fin neg f t.qmin
  else .fin neg (2 ^ t.f + f) (t.qmin + (e : Int) - 1)

/-- A zero of either sign. -/
def FVal.isZero : FVal → Bool
  | .fin _ m _ => decide (m = 0)
  | _ => false
/-- The sign of a value. -/
def FVal.neg : FVal → Bool
  | .nan _ => false
  | .inf n => n
  | .fin n _ _ => n
/-- A NaN. -/
def FVal.isNan : FVal → Bool
  | .nan _ => true
  | _ => false
/-- A signalling NaN. -/
def FVal.isSnan : FVal → Bool
  | .nan b => b
  | _ => false
/-- The value with its sign flipped. -/
def FVal.flip : FVal → FVal
  | .nan b => .nan b
  | .inf n => .inf (!n)
  | .fin n m e => .fin (!n) m e

/-- A flushed operand: a subnormal read as zero of its sign (02 R40). -/
def FFmt.decodeFlush (t : FFmt) (fz : Bool) (x : Nat) : FVal :=
  match t.decode x with
  | .fin n m e => if fz && decide (m < 2 ^ t.f) then .fin n 0 e else .fin n m e
  | v => v

/-! ### Rounding (02 R39, R40, R42) -/

/-- m * 2^e as a multiple of 2^q, to nearest with ties to even, and whether that is exact. -/
def rne (m : Nat) (e q : Int) : Nat × Bool :=
  if q ≤ e then (m * 2 ^ (e - q).toNat, true)
  else
    let d := 2 ^ (q - e).toNat
    let r := m % d
    let k := m / d
    (if d < 2 * r ∨ (2 * r = d ∧ k % 2 = 1) then k + 1 else k, decide (r = 0))

/-- m * 2^e as a multiple of 2^q, toward zero, and whether that is exact. -/
def rtz (m : Nat) (e q : Int) : Nat × Bool :=
  if q ≤ e then (m * 2 ^ (e - q).toNat, true)
  else (m / 2 ^ (q - e).toNat, decide (m % 2 ^ (q - e).toNat = 0))

/-- Rounds an exact value to a format: its bits and the flags (02 R39, R40, R42). A format without
infinities saturates finite values and gives its NaN for an infinity. -/
def FFmt.round (t : FFmt) (fz : Bool) : FVal → Nat × Flags
  | .nan sig => (t.nan, flagIf sig fNV)
  | .inf neg => if t.hasInf then (t.sign neg + t.inf, 0) else (t.nan, fNV)
  | .fin neg m e =>
    if m = 0 then (t.sign neg, 0) else
    -- the grid of the value's binade, exponent unbounded, and the format's own grid
    let qu : Int := (Nat.log2 m : Int) + e - t.f
    let q := max qu t.qmin
    let r := rne m e q
    let code := ((q - t.qmin).toNat * 2 ^ t.f) + r.1
    if t.largest < code then
      (t.sign neg + (if t.hasInf then t.inf else t.largest), fOF ||| fNX)
    else
      -- tiny: below the smallest normal after rounding with the exponent unbounded
      let ru := rne m e qu
      let tiny := decide (qu < t.qmin) && !(decide (qu + 1 = t.qmin) && decide (ru.1 = 2 ^ (t.f + 1)))
      if fz && tiny then (t.sign neg, fUF ||| fNX)
      else (t.sign neg + code, flagIf (!r.2) fNX ||| flagIf (tiny && !r.2) fUF)

/-! ### Exact arithmetic (02 R37, R39) -/

/-- Invalid for signalling operands (02 R37). -/
def snan (vs : List FVal) : Flags := flagIf (vs.any FVal.isSnan) fNV

/-- The signed integer that a finite value is at an exponent not above its own. -/
def scaled (neg : Bool) (m : Nat) (e q : Int) : Int :=
  let x : Int := (m * 2 ^ (e - q).toNat : Nat)
  if neg then -x else x

/-- The lowest exponent among finite values. -/
def lowExp : List FVal → Int
  | [] => 0
  | [.fin _ _ e] => e
  | .fin _ _ e :: vs => min e (lowExp vs)
  | _ :: vs => lowExp vs

/-- The exact sum of a list of values, which is empty only for a sum of nothing (02 R37: an exact zero
is -0 only when every term is -0). -/
def FVal.sum (vs : List FVal) : FVal × Flags :=
  let fl := snan vs
  if vs.any FVal.isNan then (.nan false, fl)
  else
    let p := vs.contains (.inf false)
    let n := vs.contains (.inf true)
    if p && n then (.nan false, fNV)
    else if p || n then (.inf n, 0)
    else
      let q := lowExp vs
      let t : Int := (vs.map fun v => match v with | .fin s m e => scaled s m e q | _ => 0).sum
      if t = 0 then (.fin (vs.all FVal.neg) 0 0, 0) else (.fin (decide (t < 0)) t.natAbs q, 0)

/-- The exact product (02 R37). -/
def FVal.mul (a b : FVal) : FVal × Flags :=
  if a.isNan || b.isNan then (.nan false, snan [a, b])
  else match a, b with
    | .fin n m e, .fin n' m' e' => (.fin (n != n') (m * m') (e + e'), 0)
    | a, b => if a.isZero || b.isZero then (.nan false, fNV) else (.inf (a.neg != b.neg), 0)

/-- An operation rounded once: its bits and its flags. -/
def FFmt.done (t : FFmt) (fz : Bool) (r : FVal × Flags) : Nat × Flags :=
  let x := t.round fz r.1
  (x.1, r.2 ||| x.2)

/-- a + b. -/
def FFmt.add (t : FFmt) (fz : Bool) (a b : Nat) : Nat × Flags :=
  t.done fz (FVal.sum [t.decodeFlush fz a, t.decodeFlush fz b])
/-- The exact difference: one of zero is +0 unless both operands are -0, and then of either sign (02 R37;
log 47). -/
def FVal.diff (x y : FVal) : FVal × Flags :=
  match FVal.sum [x, y.flip] with
  | (.fin _ 0 e, fl) => (.fin (x.isZero && x.neg && y.isZero && y.neg && Config.minusZeroDiff) 0 e, fl)
  | r => r
/-- a - b. -/
def FFmt.sub (t : FFmt) (fz : Bool) (a b : Nat) : Nat × Flags :=
  t.done fz (FVal.diff (t.decodeFlush fz a) (t.decodeFlush fz b))
/-- a * b. -/
def FFmt.mul (t : FFmt) (fz : Bool) (a b : Nat) : Nat × Flags :=
  t.done fz ((t.decodeFlush fz a).mul (t.decodeFlush fz b))
/-- a * b + c, rounded once. -/
def FFmt.fma (t : FFmt) (fz : Bool) (a b c : Nat) : Nat × Flags :=
  let p := (t.decodeFlush fz a).mul (t.decodeFlush fz b)
  let c := t.decodeFlush fz c
  let r := FVal.sum [p.1, c]
  t.done fz (r.1, p.2 ||| r.2)

/-! ### Order: minimum, maximum, comparison, class (06 R139, R140, R142; 07 R147) -/

/-- a < b for values that are no NaN. -/
def FVal.lt : FVal → FVal → Bool
  | .inf n, .inf n' => n && !n'
  | .inf n, _ => n
  | _, .inf n' => !n'
  | .fin n m e, .fin n' m' e' =>
    let q := min e e'
    decide (scaled n m e q < scaled n' m' e' q)
  | _, _ => false

/-- a before b with -0 less than +0 (06 R139). -/
def FVal.before (a b : FVal) : Bool := a.lt b || (a.isZero && b.isZero && a.neg && !b.neg)

/-- The bits of an operand as it is returned: under a flush a subnormal is zero of its sign (07 R147). -/
def FFmt.self (t : FFmt) (fz : Bool) (x : Nat) : Nat :=
  match t.decodeFlush fz x with
  | .fin n 0 _ => t.sign n
  | _ => x % 2 ^ t.w

/-- Minimum or maximum; `np` propagates NaNs (06 R139, 07 R147). -/
def FFmt.minmax (t : FFmt) (fz np isMax : Bool) (a b : Nat) : Nat × Flags :=
  let x := t.decodeFlush fz a
  let y := t.decodeFlush fz b
  let fl := snan [x, y]
  if x.isNan || y.isNan then
    if np || (x.isNan && y.isNan) then (t.nan, fl)
    else (t.self fz (if x.isNan then b else a), fl)
  else
    let first := if isMax then y.before x else x.before y
    (t.self fz (if first then a else b), fl)

/-- Condition codes 0 EQ, 1 LT, 2 LE, 3 UN (06 R140). -/
def FFmt.compare (t : FFmt) (cc : Nat) (a b : Nat) : Bool × Flags :=
  let x := t.decode a
  let y := t.decode b
  if x.isNan || y.isNan then
    (decide (cc = 3), if cc = 1 ∨ cc = 2 then fNV else snan [x, y])
  else
    (match cc with
      | 0 => !x.lt y && !y.lt x
      | 1 => x.lt y
      | 2 => !y.lt x
      | _ => false, 0)

/-- The one-hot class word (06 R142). -/
def FFmt.classOf (t : FFmt) (x : Nat) : Nat :=
  match t.decode x with
  | .nan sig => if sig then 2 ^ 8 else 2 ^ 9
  | .inf n => if n then 2 ^ 0 else 2 ^ 7
  | .fin n m _ =>
    let k := if m = 0 then 4 else if m < 2 ^ t.f then 5 else 6
    2 ^ (if n then 7 - k else k)

/-! ### Conversions (02 R41, R42) -/

/-- The width of an integer format code (02 R34). -/
def intWidth (code : Nat) : Nat := match code with | 6 => 8 | 7 => 32 | _ => 64
/-- An integer format code. -/
def isIntFmt (code : Nat) : Bool := decide (6 ≤ code ∧ code ≤ 8)
/-- The width of a format code's element. -/
def elemWidth (code : Nat) : Nat := if isIntFmt code then intWidth code else (ffmt code).w

/-- The least value of an integer reading (02 R38). -/
def intMin (code : Nat) (u : Bool) : Int := if u then 0 else -(2 ^ (intWidth code - 1) : Int)
/-- The greatest value of an integer reading. -/
def intMax (code : Nat) (u : Bool) : Int :=
  if u then 2 ^ intWidth code - 1 else 2 ^ (intWidth code - 1) - 1

/-- A value clamped to an integer reading, Invalid when it is clamped. -/
def clampInt (code : Nat) (u : Bool) (i : Int) : Int × Flags :=
  if i < intMin code u then (intMin code u, fNV)
  else if intMax code u < i then (intMax code u, fNV) else (i, 0)

/-- The exact integer nearest to a finite value, ties to even, or toward zero, and whether exact. -/
def toInteger (tz neg : Bool) (m : Nat) (e : Int) : Int × Bool :=
  let r := if tz then rtz m e 0 else rne m e 0
  (if neg then -(r.1 : Int) else r.1, r.2)

/-- A floating-point value converted to an integer reading (02 R42 Q); a negative value to an unsigned
reading gives 0 and raises Invalid, one that rounds to 0 included (R41). -/
def FVal.toInt (code : Nat) (u tz : Bool) : FVal → Int × Flags
  | .nan _ => (0, fNV)
  | .inf n => (if n then intMin code u else intMax code u, fNV)
  | .fin n m e =>
    if u && n && decide (m ≠ 0) then (0, fNV) else
    let r := toInteger tz n m e
    let c := clampInt code u r.1
    (c.1, if c.2 ≠ 0 then c.2 else flagIf (!r.2) fNX)

/-- The value of a source element in any format; `u` reads an integer as unsigned. -/
def srcVal (code : Nat) (u : Bool) (x : Nat) : FVal :=
  if isIntFmt code then
    let i : Int := if u then (x % 2 ^ intWidth code : Nat) else sint (intWidth code) x
    .fin (decide (i < 0)) i.natAbs 0
  else (ffmt code).decode x

/-- A conversion between two formats that are not LB formats: the element's bits and the flags (02 R41,
R42). -/
def convert (src dst : Nat) (su du tz : Bool) (x : Nat) : Nat × Flags :=
  let v := srcVal src su x
  if isIntFmt dst then
    let w := intWidth dst
    if isIntFmt src then
      match v with
      | .fin n m _ => let r := clampInt dst du (if n then -(m : Int) else m); (wrapInt w r.1, r.2)
      | _ => (0, 0)
    else let r := v.toInt dst du tz; (wrapInt w r.1, r.2)
  else (ffmt dst).round false v

/-! ### Lencia block formats (02 R43 to R47) -/

/-- Magnitude bits of an LB format code: 9 LB7, 10 LB4, 11 LB2. -/
def lbBits (code : Nat) : Nat := match code with | 9 => 7 | 10 => 4 | _ => 2
/-- The bytes of a block. -/
def lbSize (code : Nat) : Nat := 2 + 2 * (lbBits code + 1)

/-- The identity permutation table (02 R47). -/
def idTable : Nat := 0xFEDCBA9876543210
/-- Entry j of a permutation table. -/
def tableAt (p j : Nat) : Nat := p / 2 ^ (4 * j) % 16
/-- A table is a permutation of 0 to 15 (02 R47). -/
def tableOk (p : Nat) : Bool := (List.range 16).all fun k => (List.range 16).any fun j => decide (tableAt p j = k)

/-- The exact value of element j of a block (02 R44). -/
def lbElem (m block j : Nat) : FVal :=
  let e := block % 256
  let mu := block / 2 ^ (8 + j / 2) % 2
  let fld := block / 2 ^ (16 + j * (m + 1)) % 2 ^ (m + 1)
  let mag := fld % 2 ^ m
  let s := decide (2 ^ m ≤ fld)
  if e ≠ 0xFF then .fin s mag ((e : Int) - 127 - mu - ((m : Int) - 1))
  else if block / 256 % 256 = 0 ∧ mag = 2 ^ m - 1 then .inf s
  else if block / 256 % 256 = 0 ∧ mag = 0 then .fin s 0 0
  else .nan false

/-- The 16 FP32 values that a block decodes to, exactly (02 R44). -/
def lbDecode (m block : Nat) : List Nat := (List.range 16).map fun j => (F32.round false (lbElem m block j)).1

/-- floor(log2) of a finite non-zero magnitude. -/
def floorLog (m : Nat) (e : Int) : Int := (Nat.log2 m : Int) + e
/-- m * 2^e / 2^q to the nearest integer, ties to even. -/
def roundScaled (m : Nat) (e q : Int) : Nat := (rne m e q).1

/-- The magnitude of a finite value at a scale. -/
def FVal.mag (q : Int) : FVal → Nat
  | .fin _ m e => roundScaled m e q
  | _ => 0

/-- Whether the magnitude of a exceeds that of b. -/
def FVal.absLt (a b : FVal) : Bool :=
  match a, b with
  | .fin _ m e, .fin _ m' e' => (FVal.fin false m e).lt (.fin false m' e')
  | _, _ => false
/-- The value of larger magnitude. -/
def FVal.absMax (a b : FVal) : FVal := if a.absLt b then b else a

/-- E of a block of finite values (02 R45). -/
def lbExp (m : Nat) (ys : List FVal) : Nat :=
  match ys.foldl FVal.absMax (.fin false 0 0) with
  | .fin _ a e =>
    if a = 0 then 0 else
    let E : Int := max 0 (floorLog a e + 127)
    let E := if E ≤ 254 ∧ 2 ^ m - 1 < roundScaled a e (E - 127 - ((m : Int) - 1)) then E + 1 else E
    (min E 254).toNat
  | _ => 0

/-- mu of a pair of a block of finite values (02 R45). -/
def lbMu (m E : Nat) (a b : FVal) : Nat :=
  if (a.absMax b).mag ((E : Int) - 128 - ((m : Int) - 1)) ≤ 2 ^ m - 1 then 1 else 0

/-- The bytes of a block from its E, U and (s, M) fields (02 R43). -/
def lbPack (m E U : Nat) (fs : List (Bool × Nat)) : Nat :=
  E + U * 256 + (fs.zip (List.range 16)).foldl (fun x f =>
    x + (f.1.2 + (if f.1.1 then 2 ^ m else 0)) * 2 ^ (16 + f.2 * (m + 1))) 0

/-- Quantises 16 exact values, read in the order of a table, into a block, with its flags (02 R45, R46). -/
def quantise (m table : Nat) (xs : List FVal) : Nat × Flags :=
  let ys := (List.range 16).map fun j => xs.getD (tableAt table j) (.fin false 0 0)
  let mmax := 2 ^ m - 1
  if ys.any FVal.isNan then
    (lbPack m 0xFF 0xFF (ys.map fun _ => (false, mmax)), snan ys ||| flagIf (ys.any fun y => !y.isNan) fSF)
  else if ys.any fun y => match y with | .inf _ => true | _ => false then
    (lbPack m 0xFF 0 (ys.map fun y => (y.neg, match y with | .inf _ => mmax | _ => 0)),
      flagIf (ys.any fun y => match y with | .fin _ a _ => decide (a ≠ 0) | _ => false) fSF)
  else
    let E := lbExp m ys
    let y (j : Nat) : FVal := ys.getD j (.fin false 0 0)
    let mus := (List.range 8).map fun i => lbMu m E (y (2 * i)) (y (2 * i + 1))
    let q (j : Nat) : Int := (E : Int) - 127 - mus.getD (j / 2) 0 - ((m : Int) - 1)
    let raw := (List.range 16).map fun j => (y j).mag (q j)
    let block := lbPack m E ((mus.zip (List.range 8)).foldl (fun u p => u + p.1 * 2 ^ p.2) 0)
      ((List.range 16).map fun j => ((y j).neg, min (raw.getD j 0) mmax))
    let diff (j : Nat) : Bool := let a := lbElem m block j; a.lt (y j) || (y j).lt a
    let any (p : Nat → Bool) : Bool := (List.range 16).any p
    (block, flagIf (any fun j => decide (mmax < raw.getD j 0)) fOF |||
      flagIf (any fun j => decide (raw.getD j 0 = 0) && !(y j).isZero) fUF ||| flagIf (any diff) fNX)

/-! ### Correctly rounded functions on FP32 (07 R158; log 25) -/

/-- The integer square root, bit by bit from bit n - 1 down. -/
def isqrt (x : Nat) : Nat → Nat → Nat
  | 0, r => r
  | n + 1, r => isqrt x n (if (r + 2 ^ n) * (r + 2 ^ n) ≤ x then r + 2 ^ n else r)

/-- 1/x of a finite non-zero value, to 64 bits past its first with a sticky bit. -/
def recip (n : Bool) (m : Nat) (e : Int) : FVal :=
  let k := Nat.log2 m + 65
  .fin n (2 * (2 ^ k / m) + if 2 ^ k % m = 0 then 0 else 1) (-(k : Int) - e - 1)

/-- 1/sqrt x of a finite positive value, likewise. -/
def recipSqrt (m : Nat) (e : Int) : FVal :=
  let m := if e % 2 = 0 then m else 2 * m
  let e := if e % 2 = 0 then e else e - 1
  let k := Nat.log2 m + 65
  let r := isqrt (2 ^ (2 * k) / m) (k + 1) 0
  .fin false (2 * r + if r * r * m = 2 ^ (2 * k) then 0 else 1) (-(k : Int) - e / 2 - 1)

/-- ln 2 at 256 fraction bits, rounded down: the sum of 1 / (k 2^k). -/
def ln2 : Nat := ((List.range 260).map fun k => 2 ^ 256 / ((k + 1) * 2 ^ (k + 1))).sum

/-- The terms of exp from term k on, at 256 fraction bits. -/
def expTerms (z : Nat) : Nat → Nat → Nat → Nat
  | 0, _, _ => 0
  | n + 1, k, t => t + expTerms z n (k + 1) (t * z / 2 ^ 256 / (k + 1))

/-- 2^x of a finite value: exact for an integer, else rounded down at 256 bits with a sticky bit. -/
def exp2Val (n : Bool) (m : Nat) (e : Int) : FVal :=
  -- x at 256 fraction bits, exact for every FP32 value below 2^9 in magnitude
  let x : Int := if 512 ≤ (rtz m e 0).1 then (if n then -(512 * 2 ^ 256) else 512 * 2 ^ 256)
    else scaled n (rtz m e (-256)).1 (-256) (-256)
  let i := x / 2 ^ 256
  let f := (x % 2 ^ 256).toNat
  if f = 0 then .fin false 1 i
  else .fin false (2 * expTerms (f * ln2 / 2 ^ 256) 80 0 (2 ^ 256) + 1) (i - 257)

/-- n fraction bits of log2 of x / 2^320, where x / 2^320 is in [1, 2), by repeated squaring. -/
def logBits (x : Nat) : Nat → Nat → Nat
  | 0, acc => acc
  | n + 1, acc =>
    let y := x * x / 2 ^ 320
    if 2 ^ 321 ≤ y then logBits (y / 2) n (2 * acc + 1) else logBits y n (2 * acc)

/-- log2 of a finite positive value: exact for a power of two, else rounded down at 128 fraction bits
with a sticky bit. -/
def log2Val (m : Nat) (e : Int) : FVal :=
  let k := Nat.log2 m
  let i := (k : Int) + e
  if m = 2 ^ k then .fin (decide (i < 0)) i.natAbs 0
  else
    let v : Int := i * 2 ^ 128 + logBits (m * 2 ^ 320 / 2 ^ k) 128 0
    -- the exact value lies strictly between v and v + 1
    if 0 ≤ v then .fin false (2 * v.natAbs + 1) (-129)
    else .fin true (2 * (v.natAbs - 1) + 1) (-129)

/-- VRCP, VRSQ, VEXP2 and VLOG2 (0 to 3) of one FP32 element (07 R158). -/
def transcend (op x : Nat) : Nat × Flags :=
  match F32.decode x with
  | .nan sig => (F32.nan, flagIf sig fNV)
  | .inf n => match op with
    | 0 => (F32.sign n, 0)
    | 1 => if n then (F32.nan, fNV) else (0, 0)
    | 2 => if n then (0, 0) else (F32.inf, 0)
    | _ => if n then (F32.nan, fNV) else (F32.inf, 0)
  | .fin n m e =>
    if m = 0 then match op with
      | 0 | 1 => (F32.sign n + F32.inf, fDZ)
      | 2 => (0x3F800000, 0)
      | _ => (F32.sign true + F32.inf, fDZ)
    else match op with
      | 0 => F32.round false (recip n m e)
      | 1 => if n then (F32.nan, fNV) else F32.round false (recipSqrt m e)
      | 2 => F32.round false (exp2Val n m e)
      | _ => if n then (F32.nan, fNV) else F32.round false (log2Val m e)

end Sys2Proof.Machine
end

