-- ==== Sys2Proof/Syntax.lean ====
section
/-!
DEFINITION. The syntax of the KA-41: one constructor of `Instr` for every row of the table of
operations and events (spec/opcode_table.json). The first 209 are slots of a bundle, with the fields
of their words (04 R78, R79; 06 R117; 09 R194; 11 R243; 13 R287; 14 R326); the others are the events
by which the device acts on its own or from outside, each with the operation or message it performs.
-/
namespace Sys2Proof

/-- What every slot but IMM carries (04 R78, R82): the guard register number, the read-port lane and
the values of the IMM slots that extend it. The stop bit frames the bundle and is no part of it. -/
structure Hdr where
  g : BitVec 3
  l : BitVec 2
  x : List (BitVec 20)
deriving DecidableEq, Repr

/-- The trap causes of 14 R306, without CAUSE 0, which is no cause. -/
inductive Cause where
  | illegalOp | illegalBundle | fetchBounds | bufBounds | bufRights | bufOwner | xlate
  | underwait | tokenFault | witPoison | witFuture | rasFull | rasEmpty | brk | swtrap
  | runOverrun | chainFrozen | linkLost | xQueueFull | cancel | eccUncorr | gangDesync | viewConflict
deriving DecidableEq, Repr

/-- A write of a result to the parts of a register that its instruction writes (04 R90). Registers
64 to 71 of the scalar file, 8 and 9 of the predicate file and 32 and 33 of the token file are the
handler bank (14 R308). -/
inductive Write where
  | s (r : Nat) (v : Word)
  | v (r : Nat) (mask val : VReg)
  | p (n : Nat) (b : Bool)
  | m (n : Nat) (mask val : BitVec 64)
  | w (n : Nat) (mask val : Witness)
  | fpst (f : Flags)
deriving DecidableEq, Repr

/-- The fault a posting delivers (05 R108): its cause and the offset of its fault record. -/
structure PFault where
  cause : Cause
  frec : BitVec 48
deriving DecidableEq, Repr

/-- A tokened operation that has been performed or has failed: what it lands and posts (05 R107, R108). -/
structure Completion where
  core : Nat
  recPa : Nat
  post : Option Nat
  writes : List Write
  fault : Option PFault
deriving DecidableEq, Repr

/-- The atomic operations of 13 R293. -/
inductive AtomOp where
  | add | and | or | xor | min | max | minu | maxu | swp | cas | addf | maxf | minf
deriving DecidableEq, Repr

/-- What an access at a memory port does (09 R199 to R206, 13 R293), or a tokened operation that touches
no memory and goes the same way: a WMRG that overflows, with the entry it keeps and the rest (13 R290), a
WCHK (13 R291), an EST (09 R217). -/
inductive AccOp where
  | load (sz : Nat)
  | vload
  | store
  | atomic (op : AtomOp) (w64 nr np : Bool) (cmp : Word)
  | flush (scope : Nat) (inv : Bool)
  | pref (level : Nat)
  | merge (keep : Word) (rest : List Word)
  | check (e0 e1 : Word)
  | est (eng : Nat)
deriving DecidableEq, Repr

/-- One contiguous piece of an access: its lane, pointer, size in bytes and data to store. -/
structure Part where
  lane : Nat
  ptr : Word
  size : Nat
  data : Nat
deriving DecidableEq, Repr

/-- The order key of a batched atomic (12 R276). -/
structure BatchKey where
  launch : Nat
  interval : Nat
  unit : Nat
  member : Nat
  elem : Nat
deriving DecidableEq, Repr

/-- A lane of an access that failed: what its fault record says of it (14 R311). -/
structure Failing where
  lane : Nat
  ptr : Word
  cause : Cause
  detail : Nat
  wit : Word
  source : Nat
deriving DecidableEq, Repr

/-- A tokened memory access between its issue and its completion (09 R196, R197, R201; 13 R294).
`parts` are still to be performed, `got` holds by lane what has been read, or for a store the ranges
(key, size) written, `bad` the lanes that failed. `whole`: the lanes are one access. `seq` is the number
of the access as a store of its core, 0 for a load. `fr`: issued in handler mode (14 R309). `sent`: it
waits for a lender (08 R175). `obj`, `osize`: the code object at index 0xFFF6 (01 R32). `entries` are the words of
the buffer-table entries that it was checked by, by index (01 R33). -/
structure Access where
  id : Nat
  core : Nat
  recPa : Nat
  recPtr : Word
  job : Nat
  pc : Pc
  slot : Nat
  op : AccOp
  whole : Bool
  parts : List Part
  got : List (Nat × Nat)
  bad : List Failing
  dst : Nat
  wi : List Word
  seq : Nat
  scope : Nat
  post : Option Nat
  key : Option BatchKey
  obj : Word
  osize : Nat
  fr : Bool
  sent : Bool
  entries : List (Nat × List Nat)
deriving DecidableEq, Repr

/-- A SPAWN after its issue (06 R124); `owed` are the stores of the spawner before it, as (agent,
number). -/
structure SpawnOp where
  core : Nat
  recPa : Nat
  job : Nat
  launch : Nat
  slotPtr : Word
  arg0 : Word
  entry : Nat
  rank : Nat
  unit : Nat
  interval : Nat
  cobj : BitVec 16
  launchIx : BitVec 16
  strict : Bool
  debug : Bool
  owed : List (Nat × Nat)
  pc : Pc
  slot : Nat
  post : Option Nat
deriving DecidableEq, Repr

/-- The entry of a store on its way to every agent (12 R266 to R268): the ranges (place, size) that it has written,
which its core's caches have still to write back (08 R179), the entries that a marker replaces, what it posts within
its scope, how far it is (0 issued, 1 visible to its own agent, 2 to its cluster, 3 to every agent), and its number
among the accesses. -/
structure Ripe where
  dev : BitVec 14
  agent : Nat
  seq : Nat
  core : Nat
  bytes : List (Nat × Nat)
  wi : List Word
  post : Option Completion
  scope : Nat
  level : Nat
  id : Nat
deriving DecidableEq, Repr

/-- Who waits for the response to a peer access (08 R175): the tokened access of a number, a copy
engine, the end of an engine's command of a number, or a bundle that stalls for it under a key of
`Pipe.reply`. -/
inductive PeerWho where
  | access (id : Nat)
  | engine (eng : Nat)
  | ending (eng id : Nat)
  | stalled (core : Nat) (key : Nat)
deriving DecidableEq, Repr

/-- What a peer access asks of the lender (08 R175). -/
inductive PeerKind where
  | read | write | atomic (op : AtomOp) (w64 np : Bool) (cmp : Word)
deriving DecidableEq, Repr

/-- A peer access on its way to the lender (08 R175): its pieces as (offset, size, data). A batched atomic
carries its key, its number and the borrower's frontier of its launch (12 R276). -/
structure PeerReq where
  src : BitVec 14
  gix : Nat
  epoch : BitVec 32
  pieces : List (Nat × Nat × Nat)
  kind : PeerKind
  tenant : BitVec 16
  lease : Nat
  who : PeerWho
  batch : Option (BatchKey × Nat × Option Nat)
deriving DecidableEq, Repr

/-- The lender's report (08 R175), with what each piece read. -/
inductive PeerResult where
  | performed (data : List Nat)
  | refused
  | failed (cause : Cause)
deriving DecidableEq, Repr

/-- A lender's report on its way to the borrower (08 R175). -/
structure PeerResp where
  lease : Nat
  who : PeerWho
  res : PeerResult
deriving DecidableEq, Repr

/-- A message of a chain instance (10 R224, R225, R227): announcement, hop arrival, acknowledgement,
freeze or cancel. Every message carries (chN, INST, digest, sender index). -/
structure ChainMsg where
  job : Nat
  ch : BitVec 10
  inst : BitVec 16
  digest : BitVec 64
  sender : Nat
  target : Nat
  apos : Nat
  fmt64 : Bool
  vals : List Word
deriving DecidableEq, Repr

/-- The requests that an instance's arbiter serves in order of arrival (11 R242). -/
inductive ArbKind where
  | freeze (cause : Cause) (link : Option (Nat × Nat)) | note (state : Nat) | splice (core slot recPa : Nat) | thaw
  | cancel
deriving DecidableEq, Repr

/-- A request to an arbiter, or its reply on the way back to the requesting core (11 R242). -/
structure ArbReq where
  job : Nat
  ch : BitVec 10
  inst : BitVec 16
  digest : BitVec 64
  kind : ArbKind
  idx : Nat
  core : Nat
  key : Nat
  src : BitVec 14
  reply : Option Word
deriving DecidableEq, Repr

/-- A node of a tree description (12 R279). -/
structure TreeNode where
  dev : BitVec 14
  core : Nat
  parent : Nat
  cpos : Nat
deriving DecidableEq, Repr

/-- A tree description (12 R279). -/
structure TreeDesc where
  tid : BitVec 16
  op : Nat
  fmt : Nat
  len : Nat
  tmo : Nat
  nodes : List TreeNode
deriving DecidableEq, Repr

/-- A node's own contribution on its way to its router (13 R296). -/
structure Contribution where
  desc : TreeDesc
  digest : BitVec 64
  node : Nat
  vals : List Word
  done : Completion
deriving DecidableEq, Repr

/-- A packet from a router to its parent's router (12 R280, R281). -/
structure TreePacket where
  tid : BitVec 16
  digest : BitVec 64
  round : Nat
  parent : Nat
  child : Nat
  core : Nat
  vals : List Word
  miss : BitVec 64
deriving DecidableEq, Repr

/-- An RPRCV waiting for a round's result (13 R297). -/
structure Receive where
  order : Nat
  tid : BitVec 16
  len : Nat
  fmt : Nat
  vd : Nat
  sd : Nat
  done : Completion
deriving DecidableEq, Repr

/-- A packet of a ring collective on its way to the next rank (12 R283, 18 R348), through the lease of
PEER (13 R300): the digest exchange (no step) or a step's chunk with the offsets of its elements through
PEER. -/
structure RingPacket where
  src : BitVec 14
  eng : Nat
  lease : Nat
  gix : Nat
  epoch : BitVec 32
  tenant : BitVec 16
  cid : BitVec 16
  seq : BitVec 16
  digest : BitVec 64
  step : Option Nat
  offs : List Nat
  data : List Byte
deriving DecidableEq, Repr

/-- A message about a collective run: an abort request or decision, a commit, a mismatch notice
(12 R283 to R286, 13 R302). `pass` counts passes of the decision round the ring, `wrote` gathers the
bit of 12 R286, `waiter` is the ABRT that waits at the origin; `noted`: the rank that holds the message has
recorded its SEQ already. -/
structure CollMsg where
  tenant : BitVec 16
  cid : BitVec 16
  seq : BitVec 16
  origin : BitVec 14
  pass : Nat
  wrote : Bool
  code : Nat
  waiter : Option Completion
  dst : Nat
  noted : Bool
deriving DecidableEq, Repr

/-- A packet that was not acknowledged within the retry limit (15 R341). -/
inductive LostPacket where
  | peer (who : PeerWho) (lease : Nat)
  | hop (m : ChainMsg)
  | ring (tenant cid seq : BitVec 16)
  | arbiter (r : ArbReq)
  | device (dev : BitVec 14)
deriving DecidableEq, Repr

/-- Where a check value fails (15 R332, R333): a line of memory, that line in a core's L1, in a cluster's cache or
in a core's instruction cache, a buffer or the egress store of an engine, a tokened access on the mesh, a line of a
core's A-space (0) or W-space (1), a link slot or the arrival buffer of its link, a register of a core's file (0 s,
1 v, 2 w). -/
inductive BadPlace where
  | line (pa : Nat)
  | cached (core pa : Nat)
  | shared (cluster pa : Nat)
  | code (core pa : Nat)
  | engine (eng : Nat)
  | egress (eng : Nat)
  | flight (id : Nat)
  | scratch (core space line : Nat)
  | slot (core k : Nat)
  | arrival (core k : Nat)
  | reg (core file r : Nat)
deriving DecidableEq, Repr

/-- One row of the table of operations and events each (spec/opcode_table.json). -/
inductive Instr where
  /-- R118. Branches to PC plus a signed 17-bit slot offset when its guard is true. -/
  | br (hd : Hdr) (h : BitVec 1) (o : BitVec 17)
  /-- R119. Branches to the program counter held in a scalar register. -/
  | bri (hd : Hdr) (a : BitVec 6)
  /-- R118. Pushes the return PC on the return-address store and branches by a signed 17-bit offset. -/
  | call (hd : Hdr) (h : BitVec 1) (o : BitVec 17)
  /-- R119. Pushes the return PC and branches to the PC held in a scalar register. -/
  | calli (hd : Hdr) (a : BitVec 6)
  /-- R119. Pops the top of the return-address store and branches to it. -/
  | ret (hd : Hdr)
  /-- R120. Ends the current stretch at a yield bundle and lets the scheduler keep or switch the continuation. -/
  | yield (hd : Hdr) (y : BitVec 16)
  /-- R122. Makes n empty issued cycles after its bundle. -/
  | dly (hd : Hdr) (n : BitVec 16)
  /-- R121. Gives up the core at a yield bundle, the continuation becoming READY at once. -/
  | susp (hd : Hdr) (y : BitVec 16)
  /-- R123. Retires the continuation after raising LIC and draining its results, postings, accesses and open links. -/
  | exit (hd : Hdr)
  /-- R124. Creates one free continuation of the spawner's launch in a FREE record slot, asynchronously, posting a token. -/
  | spawn (hd : Hdr) (a b : BitVec 6) (t : BitVec 5)
  /-- R125. Stalls until a token reaches an immediate threshold, trapping if a covered fault posted. -/
  | wtk (hd : Hdr) (t : BitVec 5) (h : BitVec 12)
  /-- R125. Stalls until a token reaches a threshold held in a scalar register. -/
  | wtkRf1 (hd : Hdr) (t : BitVec 5) (a : BitVec 6)
  /-- R125. Waits on a token with an immediate threshold, suspending the continuation when the wait is not satisfied at issue. -/
  | wtks (hd : Hdr) (t : BitVec 5) (h : BitVec 12)
  /-- R125. Suspending token wait whose threshold is held in a scalar register. -/
  | wtksRf1 (hd : Hdr) (t : BitVec 5) (a : BitVec 6)
  /-- R126. Stalls each gang member until every member has released the gang's wired-AND segment. -/
  | sync (hd : Hdr)
  /-- R127. Traps SWTRAP with a 16-bit code after every other slot of its bundle takes effect. -/
  | swtrap (hd : Hdr) (c : BitVec 16)
  /-- R324. Traps BRK with its tag before the bundle's issue checks when debug is on, and ILLEGAL_OP otherwise. -/
  | brk (hd : Hdr) (t : BitVec 18)
  /-- R118. Decrements a scalar counter and branches by a signed 11-bit offset while it is not zero. -/
  | bdnz (hd : Hdr) (h : BitVec 1) (c : BitVec 6) (o : BitVec 11)
  /-- R128. Writes the 64-bit wrapping sum of two scalars. -/
  | add (hd : Hdr) (d a b : BitVec 6)
  /-- R128. Adds a signed immediate to a scalar. -/
  | addi (hd : Hdr) (d a i : BitVec 6)
  /-- R128. Writes the wrapping difference of two scalars. -/
  | sub (hd : Hdr) (d a b : BitVec 6)
  /-- R128. Writes the low 64 bits of the product of two scalars. -/
  | mul (hd : Hdr) (d a b : BitVec 6)
  /-- R128. Writes the high 64 bits of the signed 128-bit product. -/
  | mulh (hd : Hdr) (d a b : BitVec 6)
  /-- R128. Writes the high 64 bits of the unsigned 128-bit product. -/
  | mulhu (hd : Hdr) (d a b : BitVec 6)
  /-- R130. Divides signed scalars toward zero, posting a token with the result. -/
  | div (hd : Hdr) (d a b : BitVec 6)
  /-- R130. Divides unsigned scalars, posting a token with the result. -/
  | divu (hd : Hdr) (d a b : BitVec 6)
  /-- R130. Writes the signed remainder, posting a token. -/
  | rem (hd : Hdr) (d a b : BitVec 6)
  /-- R130. Writes the unsigned remainder, posting a token. -/
  | remu (hd : Hdr) (d a b : BitVec 6)
  /-- R128. Writes the bitwise AND of two scalars. -/
  | and_ (hd : Hdr) (d a b : BitVec 6)
  /-- R128. ANDs a scalar with a signed immediate. -/
  | andi (hd : Hdr) (d a i : BitVec 6)
  /-- R128. Writes the bitwise OR of two scalars. -/
  | or_ (hd : Hdr) (d a b : BitVec 6)
  /-- R128. ORs a scalar with a signed immediate. -/
  | ori (hd : Hdr) (d a i : BitVec 6)
  /-- R128. Writes the bitwise exclusive OR of two scalars. -/
  | xor_ (hd : Hdr) (d a b : BitVec 6)
  /-- R128. Exclusive-ORs a scalar with a signed immediate. -/
  | xori (hd : Hdr) (d a i : BitVec 6)
  /-- R128. Shifts a scalar left by a register amount. -/
  | shl (hd : Hdr) (d a b : BitVec 6)
  /-- R128. Shifts a scalar left by an unsigned immediate. -/
  | shli (hd : Hdr) (d a i : BitVec 6)
  /-- R128. Shifts a scalar right with zero fill by a register amount. -/
  | shr (hd : Hdr) (d a b : BitVec 6)
  /-- R128. Shifts a scalar right with zero fill by an immediate. -/
  | shri (hd : Hdr) (d a i : BitVec 6)
  /-- R128. Shifts a scalar right arithmetically by a register amount. -/
  | sra (hd : Hdr) (d a b : BitVec 6)
  /-- R128. Shifts a scalar right arithmetically by an immediate. -/
  | srai (hd : Hdr) (d a i : BitVec 6)
  /-- R128. Writes the signed minimum of two scalars. -/
  | min (hd : Hdr) (d a b : BitVec 6)
  /-- R128. Writes the signed maximum of two scalars. -/
  | max (hd : Hdr) (d a b : BitVec 6)
  /-- R128. Writes the unsigned minimum of two scalars. -/
  | minu (hd : Hdr) (d a b : BitVec 6)
  /-- R128. Writes the unsigned maximum of two scalars. -/
  | maxu (hd : Hdr) (d a b : BitVec 6)
  /-- R128. Writes the signed saturating sum of two scalars. -/
  | adds (hd : Hdr) (d a b : BitVec 6)
  /-- R128. Writes the signed saturating difference of two scalars. -/
  | subs (hd : Hdr) (d a b : BitVec 6)
  /-- R128. Counts the leading zero bits of a scalar. -/
  | clz (hd : Hdr) (d a : BitVec 6)
  /-- R128. Counts the set bits of a scalar. -/
  | popc (hd : Hdr) (d a : BitVec 6)
  /-- R129. Writes a sign-extended immediate to a scalar. -/
  | movi (hd : Hdr) (d : BitVec 6) (i : BitVec 12)
  /-- R131. Selects one of two scalars by the predicate that its guard field names. -/
  | sel (hd : Hdr) (d a b : BitVec 6)
  /-- R132. Forms a buffer pointer from an index and an offset. -/
  | bptr (hd : Hdr) (d a b : BitVec 6)
  /-- R132. Adds to a buffer pointer's offset modulo 2^48, keeping its index. -/
  | bpadd (hd : Hdr) (d a b : BitVec 6)
  /-- R133. Writes a predicate pair telling whether an access through a pointer would pass the buffer checks. -/
  | bpchk (hd : Hdr) (p x : BitVec 2) (a b : BitVec 6)
  /-- R134. Extracts a bit field and sign-extends it. -/
  | bfx (hd : Hdr) (d a : BitVec 6)
  /-- R134. Extracts a bit field and zero-extends it. -/
  | bfxu (hd : Hdr) (d a : BitVec 6)
  /-- R134. Inserts a bit field into a scalar. -/
  | bfi (hd : Hdr) (d a b : BitVec 6)
  /-- R135. Compares two scalars and writes a predicate pair. -/
  | cmp (hd : Hdr) (p : BitVec 2) (c : BitVec 4) (a b : BitVec 6)
  /-- R135. Compares a scalar with an immediate and writes a predicate pair. -/
  | cmpi (hd : Hdr) (p : BitVec 2) (c : BitVec 4) (a i : BitVec 6)
  /-- R136. Combines two predicates by a 4-bit truth table. -/
  | plog (hd : Hdr) (d a b : BitVec 3) (f : BitVec 4)
  /-- R137. Moves the predicate file into a scalar register. -/
  | pmovTos (hd : Hdr) (d : BitVec 6)
  /-- R137. Loads predicates p2 to p7 from a scalar register. -/
  | pmovFroms (hd : Hdr) (a : BitVec 6)
  /-- R290. Merges two witness registers, resolving an overflow by a marker when a token is named. -/
  | wmrg (hd : Hdr) (d a b : BitVec 6)
  /-- R289. Writes a scalar into one entry of a witness register. -/
  | wmovTow (hd : Hdr) (d a : BitVec 6) (e : BitVec 1)
  /-- R289. Copies one witness entry into a scalar register. -/
  | wmovTos (hd : Hdr) (d a : BitVec 6) (e : BitVec 1)
  /-- R289. Copies both entries of one witness register to another. -/
  | wmov (hd : Hdr) (d a : BitVec 6)
  /-- R289. Empties both entries of a witness register. -/
  | wnull (hd : Hdr) (d : BitVec 6)
  /-- R138. Adds two FP32 scalars, rounded once. -/
  | faddF32 (hd : Hdr) (d a b : BitVec 6)
  /-- R138. Adds two FP64 scalars, rounded once. -/
  | faddF64 (hd : Hdr) (d a b : BitVec 6)
  /-- R138. Subtracts FP32 scalars. -/
  | fsubF32 (hd : Hdr) (d a b : BitVec 6)
  /-- R138. Subtracts FP64 scalars. -/
  | fsubF64 (hd : Hdr) (d a b : BitVec 6)
  /-- R138. Multiplies FP32 scalars. -/
  | fmulF32 (hd : Hdr) (d a b : BitVec 6)
  /-- R138. Multiplies FP64 scalars. -/
  | fmulF64 (hd : Hdr) (d a b : BitVec 6)
  /-- R138. Fused multiply-add of FP32 scalars into the destination. -/
  | ffmaF32 (hd : Hdr) (d a b : BitVec 6)
  /-- R138. Fused multiply-add of FP64 scalars into the destination. -/
  | ffmaF64 (hd : Hdr) (d a b : BitVec 6)
  /-- R139. Returns the smaller FP32 operand with NaN-ignoring rules. -/
  | fminF32 (hd : Hdr) (d a b : BitVec 6)
  /-- R139. Returns the smaller FP64 operand with NaN-ignoring rules. -/
  | fminF64 (hd : Hdr) (d a b : BitVec 6)
  /-- R139. Returns the larger FP32 operand with NaN-ignoring rules. -/
  | fmaxF32 (hd : Hdr) (d a b : BitVec 6)
  /-- R139. Returns the larger FP64 operand with NaN-ignoring rules. -/
  | fmaxF64 (hd : Hdr) (d a b : BitVec 6)
  /-- R140. Compares two FP scalars and writes a predicate pair. -/
  | fcmp (hd : Hdr) (p : BitVec 2) (c : BitVec 3) (f : BitVec 1) (a b : BitVec 6)
  /-- R141. Converts a scalar between two formats named in its IMM slot. -/
  | fcvt (hd : Hdr) (d a : BitVec 6)
  /-- R142. Writes a one-hot class word for an FP scalar. -/
  | fcls (hd : Hdr) (d a : BitVec 6) (f : BitVec 1)
  /-- R199. Loads 1 to 8 bytes into a scalar by the local or tokened path. -/
  | ld (hd : Hdr) (d a : BitVec 6) (s : BitVec 3)
  /-- R199. Stores 1 to 8 bytes of a scalar and gives a witness. -/
  | st (hd : Hdr) (d a : BitVec 6) (s : BitVec 2)
  /-- R200. Loads the selected lanes of a vector from consecutive words. -/
  | vld (hd : Hdr) (d a : BitVec 6)
  /-- R200. Stores the selected lanes of a vector to consecutive words. -/
  | vst (hd : Hdr) (d a : BitVec 6)
  /-- R200. Loads vector lanes at a scalar stride on the tokened path. -/
  | vlds (hd : Hdr) (d a b : BitVec 6)
  /-- R200. Stores vector lanes at a scalar stride on the tokened path. -/
  | vsts (hd : Hdr) (d a b : BitVec 6)
  /-- R200. Gathers vector lanes from per-lane offsets. -/
  | vgth (hd : Hdr) (d a b : BitVec 6)
  /-- R200. Scatters vector lanes to per-lane offsets in increasing lane order. -/
  | vsct (hd : Hdr) (d a b : BitVec 6)
  /-- R203. Writes the bank format register of one scratchpad bank. -/
  | fmt (hd : Hdr) (k a b : BitVec 6)
  /-- R204. Merges a witness register into the continuation's view. -/
  | vjoin (hd : Hdr) (w : BitVec 4)
  /-- R204. Empties the continuation's view. -/
  | vjoinClr (hd : Hdr)
  /-- R205. Writes back, and optionally drops, the core's L1 lines of a range to the level of its scope. -/
  | cflush (hd : Hdr) (n a : BitVec 6) (v : BitVec 1)
  /-- R206. Prefetches 1 to 64 lines into a cache level without effect on values. -/
  | pref (hd : Hdr) (n a : BitVec 6) (v : BitVec 2)
  /-- R207. Binds a stream register to a stream descriptor. -/
  | sbind (hd : Hdr) (q : BitVec 3) (a : BitVec 6) (w : BitVec 4)
  /-- R207. Unbinds a stream register. -/
  | sbindU (hd : Hdr) (q : BitVec 3)
  /-- R202. Stores the exact 16-byte image of a token after its postings in flight. -/
  | tksv (hd : Hdr) (t : BitVec 5) (a : BitVec 6)
  /-- R202. Loads a token's image, replacing the token after its postings in flight. -/
  | tkld (hd : Hdr) (t : BitVec 5) (a : BitVec 6)
  /-- R293. Atomically adds to a memory word at its port. -/
  | aadd (hd : Hdr) (d a b : BitVec 6)
  /-- R293. Atomically ANDs a memory word. -/
  | aand (hd : Hdr) (d a b : BitVec 6)
  /-- R293. Atomically ORs a memory word. -/
  | aor (hd : Hdr) (d a b : BitVec 6)
  /-- R293. Atomically exclusive-ORs a memory word. -/
  | axor (hd : Hdr) (d a b : BitVec 6)
  /-- R293. Atomic signed minimum of a memory word. -/
  | amin (hd : Hdr) (d a b : BitVec 6)
  /-- R293. Atomic signed maximum of a memory word. -/
  | amax (hd : Hdr) (d a b : BitVec 6)
  /-- R293. Atomic unsigned minimum of a memory word. -/
  | aminu (hd : Hdr) (d a b : BitVec 6)
  /-- R293. Atomic unsigned maximum of a memory word. -/
  | amaxu (hd : Hdr) (d a b : BitVec 6)
  /-- R293. Atomically swaps a memory word. -/
  | aswp (hd : Hdr) (d a b : BitVec 6)
  /-- R293. Atomic compare-and-swap of a memory word. -/
  | acas (hd : Hdr) (d a b : BitVec 6)
  /-- R293. Atomic FP add to a memory word, rounded once. -/
  | aaddf (hd : Hdr) (d a b : BitVec 6)
  /-- R293. Atomic FP maximum of a memory word. -/
  | amaxf (hd : Hdr) (d a b : BitVec 6)
  /-- R293. Atomic FP minimum of a memory word. -/
  | aminf (hd : Hdr) (d a b : BitVec 6)
  /-- R291. Reports the state of each entry of a witness register without waiting. -/
  | wchk (hd : Hdr) (d a : BitVec 6)
  /-- R292. Stalls until every entry of a witness register is ripe. -/
  | wwait (hd : Hdr) (a : BitVec 6)
  /-- R292. Suspends the continuation until every entry of a witness register is ripe. -/
  | wwaitS (hd : Hdr) (a : BitVec 6)
  /-- R146. Adds 32-bit integer lanes. -/
  | vaddI32 (hd : Hdr) (d a b : BitVec 6)
  /-- R146. Subtracts 32-bit integer lanes. -/
  | vsubI32 (hd : Hdr) (d a b : BitVec 6)
  /-- R146. Multiplies 32-bit integer lanes, low half. -/
  | vmulI32 (hd : Hdr) (d a b : BitVec 6)
  /-- R146. Signed minimum of integer lanes. -/
  | vminI32 (hd : Hdr) (d a b : BitVec 6)
  /-- R146. Signed maximum of integer lanes. -/
  | vmaxI32 (hd : Hdr) (d a b : BitVec 6)
  /-- R146. Unsigned minimum of integer lanes. -/
  | vminu (hd : Hdr) (d a b : BitVec 6)
  /-- R146. Unsigned maximum of integer lanes. -/
  | vmaxu (hd : Hdr) (d a b : BitVec 6)
  /-- R146. Bitwise AND of vector lanes. -/
  | vand (hd : Hdr) (d a b : BitVec 6)
  /-- R146. Bitwise OR of vector lanes. -/
  | vor (hd : Hdr) (d a b : BitVec 6)
  /-- R146. Bitwise exclusive OR of vector lanes. -/
  | vxor (hd : Hdr) (d a b : BitVec 6)
  /-- R146. Shifts vector lanes left. -/
  | vshl (hd : Hdr) (d a b : BitVec 6)
  /-- R146. Shifts vector lanes right with zero fill. -/
  | vshr (hd : Hdr) (d a b : BitVec 6)
  /-- R146. Shifts vector lanes right arithmetically. -/
  | vsra (hd : Hdr) (d a b : BitVec 6)
  /-- R148. Compares signed integer lanes into a mask pair. -/
  | vcmpI32 (hd : Hdr) (p : BitVec 2) (c : BitVec 4) (a b : BitVec 6)
  /-- R148. Compares unsigned integer lanes into a mask pair. -/
  | vcmpu (hd : Hdr) (p : BitVec 2) (c : BitVec 4) (a b : BitVec 6)
  /-- R146. Signed saturating add of integer lanes. -/
  | vaddsI32 (hd : Hdr) (d a b : BitVec 6)
  /-- R146. Adds FP32 lanes. -/
  | vaddF32 (hd : Hdr) (d a b : BitVec 6)
  /-- R146. Subtracts FP32 lanes. -/
  | vsubF32 (hd : Hdr) (d a b : BitVec 6)
  /-- R146. Multiplies FP32 lanes. -/
  | vmulF32 (hd : Hdr) (d a b : BitVec 6)
  /-- R146. Fused multiply-add of FP32 lanes into the destination. -/
  | vfmaF32 (hd : Hdr) (d a b : BitVec 6)
  /-- R147. Minimum of FP32 lanes under the NaN rule its modifier names. -/
  | vminF32 (hd : Hdr) (d a b : BitVec 6)
  /-- R147. Maximum of FP32 lanes under the NaN rule its modifier names. -/
  | vmaxF32 (hd : Hdr) (d a b : BitVec 6)
  /-- R148. Compares FP32 lanes into a mask pair. -/
  | vcmpF32 (hd : Hdr) (p : BitVec 2) (c : BitVec 4) (a b : BitVec 6)
  /-- R149. Converts vector elements between formats, one part of a narrowing or widening. -/
  | vcvt (hd : Hdr) (d a : BitVec 6)
  /-- R146. Adds FP64 elements. -/
  | vaddF64 (hd : Hdr) (d a b : BitVec 6)
  /-- R146. Subtracts FP64 elements. -/
  | vsubF64 (hd : Hdr) (d a b : BitVec 6)
  /-- R146. Multiplies FP64 elements. -/
  | vmulF64 (hd : Hdr) (d a b : BitVec 6)
  /-- R146. Fused multiply-add of FP64 elements. -/
  | vfmaF64 (hd : Hdr) (d a b : BitVec 6)
  /-- R147. Minimum of FP64 elements. -/
  | vminF64 (hd : Hdr) (d a b : BitVec 6)
  /-- R147. Maximum of FP64 elements. -/
  | vmaxF64 (hd : Hdr) (d a b : BitVec 6)
  /-- R148. Compares FP64 elements into a mask pair. -/
  | vcmpF64 (hd : Hdr) (p : BitVec 2) (c : BitVec 4) (a b : BitVec 6)
  /-- R146. Adds BF16 elements. -/
  | vaddBf16 (hd : Hdr) (d a b : BitVec 6)
  /-- R146. Multiplies BF16 elements. -/
  | vmulBf16 (hd : Hdr) (d a b : BitVec 6)
  /-- R146. Fused multiply-add of BF16 elements. -/
  | vfmaBf16 (hd : Hdr) (d a b : BitVec 6)
  /-- R146. Adds FP16 elements. -/
  | vaddF16 (hd : Hdr) (d a b : BitVec 6)
  /-- R146. Multiplies FP16 elements. -/
  | vmulF16 (hd : Hdr) (d a b : BitVec 6)
  /-- R146. Fused multiply-add of FP16 elements. -/
  | vfmaF16 (hd : Hdr) (d a b : BitVec 6)
  /-- R150. Combines two lane masks by a truth table. -/
  | vmlog (hd : Hdr) (d a b : BitVec 3) (f : BitVec 4)
  /-- R151. Moves a lane mask into a scalar. -/
  | vmmovTos (hd : Hdr) (d a : BitVec 6)
  /-- R151. Loads a lane mask from a scalar. -/
  | vmmovFroms (hd : Hdr) (d a : BitVec 6)
  /-- R152. Selects lanes of two vectors by the mask its guard field names. -/
  | vsel (hd : Hdr) (d a b : BitVec 6)
  /-- R153. Permutes lanes by per-lane indices. -/
  | vperm (hd : Hdr) (d a b : BitVec 6)
  /-- R154. Zips, unzips or rotates the lanes of two vectors. -/
  | vshuf (hd : Hdr) (d a b : BitVec 6)
  /-- R153. Broadcasts a scalar to every lane or 64-bit element. -/
  | vbcst (hd : Hdr) (d a : BitVec 6) (w : BitVec 1)
  /-- R153. Extracts one lane or lane pair into a scalar. -/
  | vext (hd : Hdr) (d a i : BitVec 6)
  /-- R153. Inserts a scalar into one lane or lane pair. -/
  | vins (hd : Hdr) (d a i : BitVec 6)
  /-- R153. Copies a vector. -/
  | vmov (hd : Hdr) (d a : BitVec 6)
  /-- R153. Writes an index sequence into the lanes. -/
  | vidx (hd : Hdr) (d a i : BitVec 6)
  /-- R155. Sums FP32 lanes in a fixed pairwise tree into a scalar. -/
  | vrsumF32 (hd : Hdr) (d a : BitVec 6)
  /-- R155. Sums FP64 elements in a fixed pairwise tree into a scalar. -/
  | vrsumF64 (hd : Hdr) (d a : BitVec 6)
  /-- R155. Sums signed integer lanes exactly into a scalar. -/
  | vrsumI32 (hd : Hdr) (d a : BitVec 6)
  /-- R156. Reduces the selected elements to their maximum in a scalar. -/
  | vrmax (hd : Hdr) (d a : BitVec 6) (f : BitVec 4) (u n : BitVec 1)
  /-- R156. Reduces the selected elements to their minimum in a scalar. -/
  | vrmin (hd : Hdr) (d a : BitVec 6) (f : BitVec 4) (u n : BitVec 1)
  /-- R157. Forms inclusive FP32 prefix sums in lane order. -/
  | vscanF32 (hd : Hdr) (d a : BitVec 6)
  /-- R158. Correctly rounded reciprocal of FP32 lanes. -/
  | vrcp (hd : Hdr) (d a : BitVec 6)
  /-- R158. Correctly rounded reciprocal square root of FP32 lanes. -/
  | vrsq (hd : Hdr) (d a : BitVec 6)
  /-- R158. Correctly rounded 2^x of FP32 lanes. -/
  | vexp2 (hd : Hdr) (d a : BitVec 6)
  /-- R158. Correctly rounded log2 of FP32 lanes. -/
  | vlog2 (hd : Hdr) (d a : BitVec 6)
  /-- R159. Quantises 64 FP32 lanes into four LB blocks through a permutation table. -/
  | vqnt (hd : Hdr) (d a b : BitVec 6)
  /-- R160. Decodes four LB blocks into FP32 lanes through a permutation table. -/
  | vdqt (hd : Hdr) (d a b : BitVec 6)
  /-- R161. Fills lanes with counter-based random values from a key and counter. -/
  | vrnd (hd : Hdr) (d a b : BitVec 6)
  /-- R246. Counts and queues one matrix contribution into a link. -/
  | mxa (hd : Hdr) (k : BitVec 4) (a b : BitVec 6)
  /-- R248. Queues a matrix contribution whose left rows are gathered through an index list. -/
  | mxg (hd : Hdr) (k : BitVec 4) (a b : BitVec 6)
  /-- R245. Queues a matrix contribution with a column-major left operand. -/
  | mxt (hd : Hdr) (k : BitVec 4) (a b : BitVec 6)
  /-- R224. Opens a link by binding a hop-table index to a link slot and announcing it. -/
  | chb (hd : Hdr) (k : BitVec 4) (a : BitVec 6)
  /-- R257. Queues the close of the chain whose tail its slot holds. -/
  | chc (hd : Hdr) (k : BitVec 4) (a b : BitVec 6)
  /-- R256. Returns the chain query word of one link of the current instance. -/
  | chq (hd : Hdr) (d a : BitVec 6)
  /-- R253. Splices a quick link for a FAULTED or LOST index through the arbiter. -/
  | chs (hd : Hdr) (k : BitVec 4) (a : BitVec 6)
  /-- R258. Freezes the current instance of a chain through its arbiter. -/
  | chf (hd : Hdr) (c : BitVec 10)
  /-- R259. Thaws the current instance through its arbiter and reports the outcome. -/
  | cht (hd : Hdr) (d : BitVec 6) (c : BitVec 10)
  /-- R258. Cancels the current instance of a chain through its arbiter. -/
  | chx (hd : Hdr) (c : BitVec 10)
  /-- R255. Queues a snapshot read of a link into a scratchpad. -/
  | lkrd (hd : Hdr) (d : BitVec 6) (k : BitVec 4) (a : BitVec 6)
  /-- R254. Queues a load of a link's starting value from a scratchpad. -/
  | lkld (hd : Hdr) (k : BitVec 4) (a : BitVec 6)
  /-- R254. Queues the setting of a link's starting value to +0. -/
  | lkz (hd : Hdr) (k : BitVec 4)
  /-- R251. Writes an edge mask from a scalar. -/
  | ems (hd : Hdr) (y : BitVec 1) (n : BitVec 2) (a : BitVec 6)
  /-- R251. Writes an edge mask of the low cnt bits set. -/
  | emsN (hd : Hdr) (y : BitVec 1) (n : BitVec 2) (c : BitVec 6)
  /-- R208. Enters a copy command into an engine queue after checking its descriptor. -/
  | cpy (hd : Hdr) (e : BitVec 4) (a : BitVec 6)
  /-- R212. Enters a reducing copy command into an engine queue. -/
  | cpyr (hd : Hdr) (e : BitVec 4) (a : BitVec 6)
  /-- R299. Enters a ring collective run into an engine queue after checking its loop-nest record. -/
  | coll (hd : Hdr) (e : BitVec 4) (a : BitVec 6)
  /-- R302. Sends an abort of a collective run toward its arbiter and reports whether it took effect. -/
  | abrt (hd : Hdr) (d a : BitVec 6)
  /-- R215. Places a trigger on a memory word at the tail of an engine queue. -/
  | arm (hd : Hdr) (e : BitVec 4) (a b : BitVec 6)
  /-- R216. Enters a publish of a range from a buffer's shadow into the buffer. -/
  | pub (hd : Hdr) (e : BitVec 4) (a b : BitVec 6)
  /-- R296. Sends a node's contribution for one round of a mesh reduction tree. -/
  | rpsnd (hd : Hdr) (j a b : BitVec 6)
  /-- R297. Receives one round's result and missing-contributor mask at a tree's root. -/
  | rprcv (hd : Hdr) (d a b : BitVec 6)
  /-- R217. Reads an engine's queue and egress state into a scalar. -/
  | est (hd : Hdr) (d : BitVec 6) (e : BitVec 4) (t : BitVec 5)
  /-- R326. Reads a system register into a scalar. -/
  | srrd (hd : Hdr) (d : BitVec 6) (r : BitVec 10)
  /-- R326. Writes a scalar into a system register. -/
  | srwr (hd : Hdr) (r : BitVec 10) (a : BitVec 6)
  /-- R310. Leaves handler mode and acts on SR.HACT: resume, switch, freeze or retire. -/
  | eret (hd : Hdr)
  /-- R310. Leaves handler mode, substituting SR.SUBSLOT for a BRK slot on the resumed fetch. -/
  | eretS (hd : Hdr)
  /-- R326. Waits for the continuation's stores and drops instruction-cache lines of a range within a scope. -/
  | icinv (hd : Hdr) (c : BitVec 2) (a b : BitVec 6)
  /-- R320. Holds an engine and writes images of the job's queue entries. -/
  | eqrd (hd : Hdr) (d : BitVec 6) (e : BitVec 4) (a : BitVec 6)
  /-- R321. Rebuilds the job's entries of a held engine from images and releases it. -/
  | eqwr (hd : Hdr) (e : BitVec 4) (a b : BitVec 6)
  /-- R326. Stalls until every port and lender uses the job's current buffer-table and lease entries. -/
  | btinv (hd : Hdr)
  /-- R326. Stalls until no cached translation of the tenant remains for a range. -/
  | tlbinv (hd : Hdr) (a b : BitVec 6)
  /-- R82. Extends the immediate or control fields of the slot before it. -/
  | imm (val : BitVec 20)
  /-- R85. Fetches a bundle and runs the framing, decode and overrun checks before its slots issue. -/
  | bundleIssue
  /-- R322. The issued-cycle count of a stretch reaches its stated run and the continuation freezes. -/
  | runOverrun
  /-- R233. A link still open MOLC + 1 issued cycles after its CHB cancels the chains and freezes the continuation. -/
  | molcExpiry
  /-- R90. A fixed-latency result lands in its destination at its due cycle. -/
  | resultLanding
  /-- R314. A tokened operation in flight at a switch lands its result and post into the frame. -/
  | remoteCompletion (c : Completion)
  /-- R317. A core takes the first dispatchable record, checks it and restores its saved state. -/
  | dispatch (core : Nat)
  /-- R67. A gang takes GSIZE idle cores of its cluster at once when they become available. -/
  | gangDispatch (recPa : Nat)
  /-- R125. A WAITING record whose token or witness wait is satisfied becomes READY on its cluster. -/
  | suspendedWaitSatisfied (recPa : Nat)
  /-- R278. The gang restarts all members on the first cycle its wired-AND segment is wholly released. -/
  | gangSyncRelease (core : Nat)
  /-- R123. After the retirement drain ends the record is written RETIRED with its RSTAT. -/
  | exitDrainComplete (core : Nat)
  /-- R330. Once a retired continuation's stores have ripened and commands ended, its launch COUNT is decremented. -/
  | retirementDecrement (recPa : Nat)
  /-- R124. After issue, SPAWN reads the record slot, counts the launch, writes the frame's LIC and the READY record, and posts. -/
  | spawnRecordWrite (p : SpawnOp)
  /-- R107. A tokened operation completes or fails and posts its token in issue order. -/
  | tokenedOperationComplete (c : Completion)
  /-- R267. A witness entry becomes ripe once every store of its cover set is visible within its scope. -/
  | entryRipens (r : Ripe)
  /-- R162. A tokened access reaches its memory port and is performed there. -/
  | memoryPortAccess (a : Access)
  /-- R168. A page-table walk completes, installing a translation or failing with XLATE. -/
  | pageWalk (tenant tier va : Nat)
  /-- R169. The controller finishes zeroing a page marked Z and clears Z before the translation is installed. -/
  | pageZeroing (tenant tier va : Nat)
  /-- R294. An atomic is performed at its port, returning the old value and ripening its entry. -/
  | atomicPerform (a : Access)
  /-- R276. Once the launch frontier passes an interval, its batched atomics are performed in key order. -/
  | batchPerform (a : Access)
  /-- R187. A stream element fetched ahead of the head arrives. -/
  | streamElementFetch (core q : Nat)
  /-- R171. A stack at critical temperature is forced into self-refresh and its requests wait. -/
  | selfRefreshEnter (stack : Nat)
  /-- R171. A stack leaves self-refresh and its held requests are performed in queue order. -/
  | selfRefreshExit (stack : Nat)
  /-- R172. A row's activation count reaches 4,096 and the controller refreshes its neighbours. -/
  | rowBackOff (stack : Nat)
  /-- R175. A borrower's access reaches the lender's port and is refused, failed or performed. -/
  | peerAccess (p : PeerReq)
  /-- R175. A lender's refusal, failure or performed report reaches the borrower. -/
  | peerResponse (p : PeerResp)
  /-- R341. A link packet unacknowledged after 16 retransmissions or 2^20 cycles is lost. -/
  | retryLimit (p : LostPacket)
  /-- R211. A CPY at the head of its queue observes its witnesses and copies row by row. -/
  | copyPerform (eng : Nat)
  /-- R212. A CPYR at the head of its queue combines each element into its destination. -/
  | reduceCopyPerform (eng : Nat)
  /-- R216. A PUB at the head of its queue copies its range from the shadow in 64-byte segments. -/
  | publishPerform (eng : Nat)
  /-- R215. An armed trigger's word reaches its threshold and releases the commands behind it. -/
  | triggerMet (eng : Nat)
  /-- R189. A command's last source byte has been copied and its source-free token posts. -/
  | sourceFree (eng : Nat)
  /-- R213. A command's destination accepts every byte, word 0x38 is written, its token posts and witness ripens. -/
  | delivered (eng : Nat)
  /-- R300. A collective at the head of its queue checks its sequence, exchanges digests and starts its ring. -/
  | collectiveRun (eng : Nat)
  /-- R283. A step packet of a ring collective arrives and is combined or copied. -/
  | collectiveStep (p : RingPacket)
  /-- R284. The arbiter commits a run and each rank publishes its shadow and ends DONE. -/
  | commit (m : CollMsg)
  /-- R302. An abort message travels rank by rank toward the arbiter and is decided there. -/
  | abortRequest (m : CollMsg)
  /-- R285. The arbiter's abort decision reaches a rank, which ends its runs of that CID ABORTED. -/
  | abortDecision (m : CollMsg)
  /-- R283. A mismatch notice reaches a rank, which ends its run MISMATCH. -/
  | mismatchNotice (m : CollMsg)
  /-- R225. A chain binding announcement arrives and is placed, or freezes the instance on mismatch. -/
  | announcement (m : ChainMsg)
  /-- R227. A link's value arrives at its successor, is placed at APOS and acknowledged. -/
  | hopArrival (m : ChainMsg)
  /-- R227. A successor's acknowledgement moves the sending link from SENT to SPENT. -/
  | acknowledgement (m : ChainMsg)
  /-- R246. A queued matrix contribution at the head reads its operands and adds its product into the link. -/
  | contributionApply (core : Nat)
  /-- R231. A queued CHC writes the scaled, rounded tile and retires every link of the instance. -/
  | chainClose (core : Nat)
  /-- R255. A queued LKRD writes a link snapshot and its step count. -/
  | linkSnapshot (core : Nat)
  /-- R254. A queued LKLD replaces the link's starting value with a tile. -/
  | startingValueLoad (core : Nat)
  /-- R254. A queued LKZ sets the link's starting value to +0. -/
  | startingValueZero (core : Nat)
  /-- R242. A freeze, splice, thaw or cancel reaches the instance's arbiter and acts in arrival order. -/
  | arbiterRequest (r : ArbReq)
  /-- R235. A link learns by message that its instance has frozen. -/
  | chainFreezeMessage (m : ChainMsg)
  /-- R240. A cancel reaches a link's core and the link becomes RETIRED. -/
  | chainCancelMessage (m : ChainMsg)
  /-- R280. A router takes its node's own contribution, starting a round and its timer. -/
  | routerTakesContribution (c : Contribution)
  /-- R280. A child's packet reaches a router and is combined in CPOS order when the round is complete. -/
  | reductionPacket (p : TreePacket)
  /-- R281. A router's round timer expires and it sends the inputs present with MISS. -/
  | treeTimeout (tid node round : Nat)
  /-- R297. A round's result at the root is delivered to the oldest waiting RPRCV. -/
  | roundResultReceive (r : Receive)
  /-- R333. A line's check value fails on verification and is reported by where it was met. -/
  | checkValueFailure (w : BadPlace)
  /-- R331. A running continuation of a cancelled launch is stopped at its next bundle boundary and retired CANCEL. -/
  | cancelStop (core : Nat)
  /-- R54. A SUBMIT entry is checked and, if accepted, the job takes its clusters and starts. -/
  | submit
  /-- R54. A CANCEL entry names a job by JOBPA and cancels it, or reports NO_JOB. -/
  | cancel
  /-- R52. The device writes a response entry once the response ring has room and advances the indices. -/
  | responseWrite
  /-- R52. An accepted write of SQSIZE while both rings are empty resets all four ring indices. -/
  | sqsize (v : Word)
  /-- R52. A write to a host register without behaviour of its own is accepted or discarded and counted refused. -/
  | hostRegisterWrite (off : Nat) (v : Word)
  /-- R312. Starts a forced pre-emption of a launch's running continuations. -/
  | prq (v : Word)
  /-- R318. Makes a FROZEN record READY with AGE 0 unless its launch's cancel is requested. -/
  | resume (v : Word)
  /-- R331. Sets CREQ on a level record of a running job and propagates the cancel to its children. -/
  | lcancel (v : Word)
  /-- R339. Fills an attestation buffer with measurement, key and signature and marks it complete. -/
  | attreq (v : Word)
  /-- R23. A companion-processor write reaches device memory, bytes of live records being discarded. -/
  | onlimirWrite (addr : Nat) (data : List Byte)
  /-- R193. At the start of a 2,048-cycle frame, written slot-table and MODE settings take effect. -/
  | slotTableFrameStart (die : Nat)
  /-- R68. Firmware retires a physical core, substituting the spare or disabling the index, at its occupant's next yield. -/
  | coreRetire (core : Nat)
  /-- R177. Firmware begins retiring a pseudo-channel, holding its new requests at the ports. -/
  | channelRetireHold (stack chan : Nat)
  /-- R178. After in-flight requests complete, new interleaves are written, lines migrated and held requests replayed. -/
  | channelMigration (stack chan : Nat)
  /-- R336. Reset starts the power-up sequence. -/
  | reset
  /-- R338. The boot ROM verifies the firmware signature, records the measurement and derives the device key. -/
  | firmwareSignatureVerify (ok : Bool)
  /-- R336. Clock calibration and memory and link training complete, ending phase 2. -/
  | selfCalibration (ok : Bool)
  /-- R336. Firmware retires failing channels, cores and clusters, ending phase 3. -/
  | memoryInitialisation (ok : Bool)
  /-- R336. All HBM4E is zeroed with checks formed, ending phase 4. -/
  | hbmZeroing (ok : Bool)
  /-- R336. Scheduler and tables are cleared and READY is set. -/
  | schedulerClear
  /-- R337. A 2 MiB LP-tier region finishes zeroing and accesses waiting on it proceed. -/
  | lpRegionZeroed
  /-- R337. Zeroing of the LP tier ends and LPZ is set. -/
  | lpTierZeroingComplete
  /-- R334. A fatal error sets FATAL and FAILCODE, stops issue and clears READY. -/
  | fatalError (code : Nat)
  /-- R335. Firmware finishes writing the device state to the dump region and sets DUMPED. -/
  | dump
  /-- R343. The package's measured power, averaged over the last 1 ms into PNOW, approaches PCAP or the TDP, and the cores take stall cycles. -/
  | pnowApproachingCap (pnow : BitVec 16)
  /-- R323. A core whose temperature calls for it takes thermal stall cycles, which count toward no stated run, slice, watchdog or MOLC timer. -/
  | thermalStall (core : Nat)
deriving DecidableEq, Repr

/-- The events of the table as the device holds them in flight or takes them from outside: the same
rows and payloads as the last 81 constructors of `Instr`. -/
inductive Event where
  | bundleIssue
  | runOverrun
  | molcExpiry
  | resultLanding
  | remoteCompletion (c : Completion)
  | dispatch (core : Nat)
  | gangDispatch (recPa : Nat)
  | suspendedWaitSatisfied (recPa : Nat)
  | gangSyncRelease (core : Nat)
  | exitDrainComplete (core : Nat)
  | retirementDecrement (recPa : Nat)
  | spawnRecordWrite (p : SpawnOp)
  | tokenedOperationComplete (c : Completion)
  | entryRipens (r : Ripe)
  | memoryPortAccess (a : Access)
  | pageWalk (tenant tier va : Nat)
  | pageZeroing (tenant tier va : Nat)
  | atomicPerform (a : Access)
  | batchPerform (a : Access)
  | streamElementFetch (core q : Nat)
  | selfRefreshEnter (stack : Nat)
  | selfRefreshExit (stack : Nat)
  | rowBackOff (stack : Nat)
  | peerAccess (p : PeerReq)
  | peerResponse (p : PeerResp)
  | retryLimit (p : LostPacket)
  | copyPerform (eng : Nat)
  | reduceCopyPerform (eng : Nat)
  | publishPerform (eng : Nat)
  | triggerMet (eng : Nat)
  | sourceFree (eng : Nat)
  | delivered (eng : Nat)
  | collectiveRun (eng : Nat)
  | collectiveStep (p : RingPacket)
  | commit (m : CollMsg)
  | abortRequest (m : CollMsg)
  | abortDecision (m : CollMsg)
  | mismatchNotice (m : CollMsg)
  | announcement (m : ChainMsg)
  | hopArrival (m : ChainMsg)
  | acknowledgement (m : ChainMsg)
  | contributionApply (core : Nat)
  | chainClose (core : Nat)
  | linkSnapshot (core : Nat)
  | startingValueLoad (core : Nat)
  | startingValueZero (core : Nat)
  | arbiterRequest (r : ArbReq)
  | chainFreezeMessage (m : ChainMsg)
  | chainCancelMessage (m : ChainMsg)
  | routerTakesContribution (c : Contribution)
  | reductionPacket (p : TreePacket)
  | treeTimeout (tid node round : Nat)
  | roundResultReceive (r : Receive)
  | checkValueFailure (w : BadPlace)
  | cancelStop (core : Nat)
  | submit
  | cancel
  | responseWrite
  | sqsize (v : Word)
  | hostRegisterWrite (off : Nat) (v : Word)
  | prq (v : Word)
  | resume (v : Word)
  | lcancel (v : Word)
  | attreq (v : Word)
  | onlimirWrite (addr : Nat) (data : List Byte)
  | slotTableFrameStart (die : Nat)
  | coreRetire (core : Nat)
  | channelRetireHold (stack chan : Nat)
  | channelMigration (stack chan : Nat)
  | reset
  | firmwareSignatureVerify (ok : Bool)
  | selfCalibration (ok : Bool)
  | memoryInitialisation (ok : Bool)
  | hbmZeroing (ok : Bool)
  | schedulerClear
  | lpRegionZeroed
  | lpTierZeroingComplete
  | fatalError (code : Nat)
  | dump
  | pnowApproachingCap (pnow : BitVec 16)
  | thermalStall (core : Nat)
deriving DecidableEq, Repr

end Sys2Proof
end

