-- ==== Sys2Proof/WellFormed.lean ====
section
/-!
DEFINITION. Which slots are well formed: the checks of decode that need no state (04 R78, R79, R82,
R85 order 4, R77 cases 4, 5 and 7), one per kind of field.
-/
namespace Sys2Proof

/-- The six units in bundle order, and the slots that occupy none (04 R76, R77). -/
inductive Unit' where
  | s | m | v | x | e | b | none
deriving DecidableEq, Repr

/-- The unit of an opcode, unassigned code points included (04 R76, R91). -/
def unitOf (opc : Nat) : Unit' :=
  if opc = 0x0F then .none
  else if opc < 0x20 then .b else if opc < 0x60 then .s else if opc < 0x80 then .m
  else if opc < 0xC0 then .v else if opc < 0xE0 then .x else if opc < 0xF0 then .e
  else if opc < 0xFE then .b else .none

/-- A field that names one of n registers. -/
abbrev below (n : Nat) {k : Nat} (f : BitVec k) : Bool := decide (f.toNat < n)

/-- The value of the IMM slots: IMM2 above IMM1 (04 R82). -/
def Hdr.imm (h : Hdr) : Nat :=
  match h.x with
  | [] => 0
  | [a] => a.toNat
  | a :: b :: _ => b.toNat * 2 ^ 20 + a.toNat

/-- The bits that the IMM slots give their value (04 R82). -/
def Hdr.immBits (h : Hdr) : Nat := 20 * h.x.length

/-- The first IMM slot, the control slot where an instruction has one (09 R195). -/
def Hdr.c (h : Hdr) : Nat := match h.x with | [] => 0 | a :: _ => a.toNat
/-- The second IMM slot (09 R195, R209). -/
def Hdr.c2 (h : Hdr) : Nat := match h.x with | _ :: b :: _ => b.toNat | _ => 0

/-- A short immediate stands only without IMM slots (04 R82). -/
def Hdr.shortOk {k : Nat} (h : Hdr) (f : BitVec k) : Bool := h.x.isEmpty || decide (f = 0)

/-- TE = 0 needs TOK = 0 (09 R195, 11 R244, 13 R288). -/
def tokOk (c : Nat) : Bool := decide (bits c 14 14 = 1 ∨ bits c 19 15 = 0)
/-- TE of a control, token, matrix, close or transfer slot. -/
def teSet (c : Nat) : Bool := decide (bits c 14 14 = 1)
/-- The control slot of 09 R195. -/
def ctlOk (c : Nat) : Bool := tokOk c && decide (bits c 3 0 = 0)
/-- A control slot of a load: WO and SC are 0 (09 R195). -/
def ctlLoadOk (c : Nat) : Bool := ctlOk c && decide (bits c 9 4 = 0)
/-- The token slot of 13 R288. -/
def tokenSlotOk (c : Nat) : Bool := tokOk c && decide (bits c 13 0 = 0)
/-- The atomic control slot of 13 R288; `np` where NP is permitted, `cas` for ACAS (13 R293). -/
def atomicOk (h : Hdr) (d : BitVec 6) (np cas : Bool) : Bool :=
  teSet h.c && decide (bits h.c 0 0 = 0) && (np || decide (bits h.c 1 1 = 0)) &&
    (cas || decide (bits h.c 3 3 = 0) || decide (d = 0))

/-- The width of a format code's element in bits; 0 for the LB formats and the reserved codes (02 R34). -/
def fmtWidth (f : Nat) : Nat :=
  match f with
  | 0 => 32 | 1 => 64 | 2 => 16 | 3 => 16 | 4 => 8 | 5 => 8 | 6 => 8 | 7 => 32 | 8 => 64 | _ => 0
/-- An integer format code (02 R34). -/
def fmtIsInt (f : Nat) : Bool := decide (6 ≤ f ∧ f ≤ 8)

/-- The checks of a conversion's IMM slot (06 R141, 07 R149). -/
def cvtOk (c : Nat) : Bool :=
  let src := bits c 3 0; let dst := bits c 7 4
  decide (src ≠ dst) && decide (src < 9) && decide (dst < 9) &&
    (decide (bits c 8 8 = 0) || fmtIsInt src) && (decide (bits c 9 9 = 0) || fmtIsInt dst) &&
    (decide (bits c 10 10 = 0) || (fmtIsInt dst && !fmtIsInt src))

/-- The ratio of the wider to the narrower element of a VCVT (07 R149). -/
def cvtRatio (c : Nat) : Nat :=
  let ws := fmtWidth (bits c 3 0); let wd := fmtWidth (bits c 7 4)
  max ws wd / min ws wd

/-- The modifier slot on FP arithmetic (07 R145): NP is not permitted. -/
def modArithOk (h : Hdr) : Bool := decide (bits h.c 19 2 = 0)
/-- The modifier slot on VMIN and VMAX (07 R145): NB is not permitted. -/
def modMinMaxOk (h : Hdr) : Bool := decide (bits h.c 19 3 = 0) && decide (bits h.c 1 1 = 0)
/-- The IMM slot of a vector shift (07 R146). -/
def shiftOk (h : Hdr) (b : BitVec 6) : Bool := h.shortOk b && decide (bits h.c 19 5 = 0)
/-- The W64 slot of VEXT and VINS (07 R153). -/
def laneOk (h : Hdr) (i : BitVec 6) : Bool :=
  decide (bits h.c 19 1 = 0) && (decide (bits h.c 0 0 = 0) || decide (i.toNat % 2 = 0))
/-- The fields of VRMAX and VRMIN (07 R156). -/
def vrOk (f : BitVec 4) (u n : BitVec 1) : Bool :=
  decide (f = 0 ∨ f = 1 ∨ f = 7) && (decide (u = 0) || decide (f = 7)) &&
    (decide (n = 0) || decide (f ≠ 7))
/-- The IMM slot of VQNT and VDQT (07 R159, R160). -/
def lbSlotOk (h : Hdr) : Bool := decide (9 ≤ h.c ∧ h.c ≤ 11)
/-- The IMM slot of BFX, BFXU and BFI (06 R134). -/
def fieldOk (h : Hdr) : Bool :=
  decide (bits h.c 19 13 = 0) && decide (1 ≤ bits h.c 12 6) && decide (bits h.c 12 6 ≤ 64) &&
    decide (bits h.c 5 0 + bits h.c 12 6 ≤ 64)
/-- The IMM slot of a WTK or WTKS with RF 0 (06 R125). -/
def waitOk (hd : Hdr) (thr : BitVec 12) : Bool := hd.shortOk thr && decide (bits hd.c 19 16 = 0)

/-- The fewest and the most IMM slots a slot accepts; (0, 2) for BRK, which takes those of the slot
it displaces (04 R77, R82; 06 R117, R128 to R141; 07 R145 to R159; 09 R194; 11 R243; 13 R287). -/
def Instr.immRange : Instr → Nat × Nat
  | .brk .. | .addi .. | .andi .. | .ori .. | .xori .. | .movi .. | .cmpi .. | .bpadd .. | .bpchk .. => (0, 2)
  | .spawn .. => (2, 2)
  | .wtk .. | .wtks .. | .wmrg .. | .arm .. | .lkz .. | .pref .. | .tksv .. | .tkld ..
  | .vshl .. | .vshr .. | .vsra .. | .vext .. | .vins ..
  | .vaddF32 .. | .vsubF32 .. | .vmulF32 .. | .vfmaF32 .. | .vminF32 .. | .vmaxF32 ..
  | .vaddF64 .. | .vsubF64 .. | .vmulF64 .. | .vfmaF64 .. | .vminF64 .. | .vmaxF64 ..
  | .vaddBf16 .. | .vmulBf16 .. | .vfmaBf16 .. | .vaddF16 .. | .vmulF16 .. | .vfmaF16 .. => (0, 1)
  | .div .. | .divu .. | .rem .. | .remu .. | .bfx .. | .bfxu .. | .bfi .. | .fcvt .. | .vcvt ..
  | .vshuf .. | .vqnt .. | .vdqt .. | .wchk .. | .coll .. | .abrt .. | .rpsnd .. | .rprcv .. | .pub ..
  | .mxa .. | .mxg .. | .mxt .. | .chb .. | .chs .. | .chc .. | .lkrd .. | .lkld .. => (1, 1)
  | .ld .. | .st .. | .vld .. | .vst .. | .vlds .. | .vsts .. | .vgth .. | .vsct .. | .cflush ..
  | .cpy .. | .cpyr .. | .aadd .. | .aand .. | .aor .. | .axor .. | .amin .. | .amax .. | .aminu ..
  | .amaxu .. | .aswp .. | .acas .. | .aaddf .. | .amaxf .. | .aminf .. => (1, 2)
  | _ => (0, 0)

/-- A number that the table of system registers lists and marks U (14 R328). -/
def srUser (r : Nat) : Bool :=
  decide (r ≤ 6) || decide (r = 8) || decide (r = 9) || decide (0x80 ≤ r ∧ r ≤ 0x9F) ||
    decide (0x100 ≤ r ∧ r ≤ 0x140) || decide (0x150 ≤ r ∧ r ≤ 0x15B)

/-- A number that the table of system registers lists (14 R328). -/
def srListed (r : Nat) : Bool :=
  srUser r || decide (0x10 ≤ r ∧ r ≤ 0x1B) || decide (0x20 ≤ r ∧ r ≤ 0x3F) || decide (0x40 ≤ r ∧ r ≤ 0x4A)

/-- The decode checks on the operand fields and IMM values of a slot that need no state; a slot that
fails one traps ILLEGAL_OP (04 R79, R82 and each instruction's description). -/
def Instr.legal : Instr → Bool
  | .brk hd _ => decide (hd.g = 0)
  | .bdnz _ _ c _ => decide (c ≠ 0)
  | .dly _ n => decide (n ≠ 0)
  | .wtk hd _ h | .wtks hd _ h => waitOk hd h
  | .addi hd _ _ i | .andi hd _ _ i | .ori hd _ _ i | .xori hd _ _ i => hd.shortOk i
  | .movi hd _ i => hd.shortOk i
  | .div hd _ _ _ | .divu hd _ _ _ | .rem hd _ _ _ | .remu hd _ _ _ => decide (bits hd.c 19 5 = 0)
  | .bpadd hd _ _ b => hd.shortOk b
  | .bpchk hd p _ _ b => decide (p ≠ 0) && hd.shortOk b
  | .bfx hd _ _ | .bfxu hd _ _ => fieldOk hd
  | .bfi hd _ _ _ => fieldOk hd
  | .cmp _ p c _ _ => decide (p ≠ 0) && below 6 c
  | .cmpi hd p c _ i => decide (p ≠ 0) && below 6 c && hd.shortOk i
  | .fcmp _ p c _ _ _ => decide (p ≠ 0) && below 4 c
  | .fcvt hd _ _ => decide (bits hd.c 19 11 = 0) && cvtOk hd.c
  | .wmrg hd d a b => below 16 d && below 16 a && below 16 b && (hd.x.isEmpty || tokenSlotOk hd.c)
  | .wmovTow _ d _ _ => below 16 d
  | .wmovTos _ _ a _ => below 16 a
  | .wmov _ d a => below 16 d && below 16 a
  | .wnull _ d => below 16 d
  | .ld hd _ _ s => decide (s ≠ 7) && ctlLoadOk hd.c
  | .st hd _ _ _ => ctlOk hd.c
  | .vld hd d _ => below 48 d && ctlLoadOk hd.c
  | .vst hd _ _ => ctlOk hd.c
  | .vlds hd d _ _ | .vgth hd d _ _ => below 48 d && ctlLoadOk hd.c && teSet hd.c
  | .vsts hd _ _ _ | .vsct hd _ _ _ => ctlOk hd.c && teSet hd.c
  | .cflush hd _ _ _ | .pub hd _ _ _ => ctlOk hd.c && teSet hd.c
  | .fmt _ k _ _ => below 48 k
  | .pref _ _ _ v => decide (v ≠ 3)
  | .aadd hd d _ _ | .aand hd d _ _ | .aor hd d _ _ | .axor hd d _ _ | .amin hd d _ _
  | .amax hd d _ _ | .aminu hd d _ _ | .amaxu hd d _ _ | .aswp hd d _ _ | .aaddf hd d _ _ =>
      atomicOk hd d false false
  | .acas hd d _ _ => atomicOk hd d false true
  | .amaxf hd d _ _ | .aminf hd d _ _ => atomicOk hd d true false
  | .wchk hd _ a => below 16 a && tokenSlotOk hd.c && teSet hd.c
  | .wwait _ a | .wwaitS _ a => below 16 a
  | .vaddI32 _ d _ _ | .vsubI32 _ d _ _ | .vmulI32 _ d _ _ | .vminI32 _ d _ _ | .vmaxI32 _ d _ _
  | .vminu _ d _ _ | .vmaxu _ d _ _ | .vand _ d _ _ | .vor _ d _ _ | .vxor _ d _ _
  | .vaddsI32 _ d _ _ | .vsel _ d _ _ | .vperm _ d _ _ | .vrnd _ d _ _ => below 48 d
  | .vshl hd d _ b | .vshr hd d _ b | .vsra hd d _ b => below 48 d && shiftOk hd b
  | .vaddF32 hd d _ _ | .vsubF32 hd d _ _ | .vmulF32 hd d _ _ | .vfmaF32 hd d _ _
  | .vaddF64 hd d _ _ | .vsubF64 hd d _ _ | .vmulF64 hd d _ _ | .vfmaF64 hd d _ _
  | .vaddBf16 hd d _ _ | .vmulBf16 hd d _ _ | .vfmaBf16 hd d _ _
  | .vaddF16 hd d _ _ | .vmulF16 hd d _ _ | .vfmaF16 hd d _ _ => below 48 d && modArithOk hd
  | .vminF32 hd d _ _ | .vmaxF32 hd d _ _ | .vminF64 hd d _ _ | .vmaxF64 hd d _ _ =>
      below 48 d && modMinMaxOk hd
  | .vcmpI32 _ p c _ _ | .vcmpu _ p c _ _ | .vcmpF32 _ p c _ _ | .vcmpF64 _ p c _ _ =>
      decide (p ≠ 0) && below 4 c
  | .vcvt hd d _ => below 48 d && decide (bits hd.c 19 14 = 0) && cvtOk hd.c &&
      decide (bits hd.c 13 11 < cvtRatio hd.c)
  | .vmmovTos _ _ a => below 8 a
  | .vmmovFroms _ d _ => below 8 d
  | .vshuf hd d _ _ => below 48 d && decide (bits hd.c 4 4 = 0) && decide (bits hd.c 19 11 = 0) &&
      decide (bits hd.c 3 0 ≤ 4) && (decide (bits hd.c 3 0 = 4) || decide (bits hd.c 10 5 = 0))
  | .vbcst _ d _ _ => below 48 d
  | .vext hd _ _ i => laneOk hd i
  | .vins hd d _ i => below 48 d && laneOk hd i
  | .vmov _ d _ | .vrcp _ d _ | .vrsq _ d _ | .vexp2 _ d _ | .vlog2 _ d _ | .vscanF32 _ d _ => below 48 d
  | .vidx _ d _ _ => below 48 d
  | .vrmax _ _ _ f u n | .vrmin _ _ _ f u n => vrOk f u n
  | .vqnt hd d _ _ | .vdqt hd d _ _ => below 48 d && lbSlotOk hd
  | .mxa hd _ _ _ | .mxg hd _ _ _ | .mxt hd _ _ _ | .chc hd _ _ _ => tokOk hd.c
  | .chb hd _ _ | .chs hd _ _ => decide (bits hd.c 3 0 = 0)
  | .lkrd hd _ _ _ => teSet hd.c && decide (bits hd.c 11 0 = 0)
  | .lkld hd _ _ => tokOk hd.c && decide (bits hd.c 7 0 = 0)
  | .lkz hd _ => tokOk hd.c && decide (bits hd.c 11 0 = 0)
  | .emsN _ y _ c => decide (c.toNat ≤ if y = 0 then 48 else 32)
  | .cpy hd _ _ | .cpyr hd _ _ => ctlOk hd.c && decide (bits hd.c2 13 0 = 0)
  | .coll hd _ _ => ctlOk hd.c
  | .arm hd _ _ _ => ctlOk hd.c && decide (bits hd.c 13 4 = 0)
  | .abrt hd _ _ => tokenSlotOk hd.c && teSet hd.c
  | .rpsnd hd _ _ _ => tokenSlotOk hd.c && decide (hd.l ≠ 2)
  | .rprcv hd d _ _ => below 48 d && tokenSlotOk hd.c && teSet hd.c
  | .icinv _ c _ _ => decide (c ≠ 3)
  | .srrd _ _ r | .srwr _ r _ => srListed r.toNat
  | _ => true

/-- The M slots that read the vector file (09 R194), which take lane 0 or 1 (04 R77 case 7). -/
def Instr.readsVectorM : Instr → Bool
  | .vst .. | .vsts .. | .vgth .. | .vsct .. => true
  | _ => false

end Sys2Proof
end

