-- ==== Sys2Proof/Decode.lean ====
section
/-!
DEFINITION. Decoding: from slot words to a bundle of slots, with the checks of framing and decode in
the order of 04 R85, and the encoder of one slot. An encoding that the manual does not assign is
rejected by name.
-/
namespace Sys2Proof

/-- Why a sequence of slot words is no bundle (04 R77, R79, R82, R85, R91). -/
inductive DecodeErr where
  | noStop          -- case 1: eight slots and no stop bit
  | unitCount       -- case 2: a unit holds more slots than it takes
  | unitOrder       -- case 3: a slot stands after a slot of a later unit
  | immPlace        -- case 4: an IMM slot first, or one too many for its owner
  | immMissing      -- case 5: a required IMM slot is missing
  | portClash       -- case 6: two slots over-subscribe a read port
  | laneTwo         -- case 7: lane 2 on a slot of the vector file
  | badSlot         -- order 4: lane 3, an unassigned or reserved encoding, a field out of range
  | brkGuard        -- 14 R324: a BRK with a guard, or a second BRK
deriving DecidableEq, Repr

/-- The trap cause of a rejection (04 R85). -/
def DecodeErr.cause : DecodeErr → Cause
  | .badSlot | .brkGuard => .illegalOp
  | _ => .illegalBundle

/-- The opcode of a slot (04 R91); 0xFE, which is never assigned, for an event. -/
def Instr.opc : Instr → BitVec 8
  | .imm _ => 0xFF
  | .br .. => 0x01
  | .bri .. => 0x02
  | .call .. => 0x03
  | .calli .. => 0x04
  | .ret .. => 0x05
  | .yield .. => 0x06
  | .dly .. => 0x07
  | .susp .. => 0x08
  | .exit .. => 0x09
  | .spawn .. => 0x0A
  | .wtk .. => 0x0B
  | .wtkRf1 .. => 0x0B
  | .wtks .. => 0x0C
  | .wtksRf1 .. => 0x0C
  | .sync .. => 0x0D
  | .swtrap .. => 0x0E
  | .brk .. => 0x0F
  | .bdnz .. => 0x10
  | .add .. => 0x20
  | .addi .. => 0x21
  | .sub .. => 0x22
  | .mul .. => 0x23
  | .mulh .. => 0x24
  | .mulhu .. => 0x25
  | .div .. => 0x26
  | .divu .. => 0x27
  | .rem .. => 0x28
  | .remu .. => 0x29
  | .and_ .. => 0x2A
  | .andi .. => 0x2B
  | .or_ .. => 0x2C
  | .ori .. => 0x2D
  | .xor_ .. => 0x2E
  | .xori .. => 0x2F
  | .shl .. => 0x30
  | .shli .. => 0x31
  | .shr .. => 0x32
  | .shri .. => 0x33
  | .sra .. => 0x34
  | .srai .. => 0x35
  | .min .. => 0x36
  | .max .. => 0x37
  | .minu .. => 0x38
  | .maxu .. => 0x39
  | .adds .. => 0x3A
  | .subs .. => 0x3B
  | .clz .. => 0x3C
  | .popc .. => 0x3D
  | .movi .. => 0x3E
  | .sel .. => 0x3F
  | .bptr .. => 0x40
  | .bpadd .. => 0x41
  | .bpchk .. => 0x42
  | .bfx .. => 0x43
  | .bfxu .. => 0x44
  | .bfi .. => 0x45
  | .cmp .. => 0x46
  | .cmpi .. => 0x47
  | .plog .. => 0x48
  | .pmovTos .. => 0x49
  | .pmovFroms .. => 0x49
  | .wmrg .. => 0x4A
  | .wmovTow .. => 0x4B
  | .wmovTos .. => 0x4B
  | .wmov .. => 0x4B
  | .wnull .. => 0x4C
  | .faddF32 .. => 0x50
  | .faddF64 .. => 0x51
  | .fsubF32 .. => 0x52
  | .fsubF64 .. => 0x53
  | .fmulF32 .. => 0x54
  | .fmulF64 .. => 0x55
  | .ffmaF32 .. => 0x56
  | .ffmaF64 .. => 0x57
  | .fminF32 .. => 0x58
  | .fminF64 .. => 0x59
  | .fmaxF32 .. => 0x5A
  | .fmaxF64 .. => 0x5B
  | .fcmp .. => 0x5C
  | .fcvt .. => 0x5D
  | .fcls .. => 0x5E
  | .ld .. => 0x60
  | .st .. => 0x61
  | .vld .. => 0x62
  | .vst .. => 0x63
  | .vlds .. => 0x64
  | .vsts .. => 0x65
  | .vgth .. => 0x66
  | .vsct .. => 0x67
  | .fmt .. => 0x68
  | .vjoin .. => 0x69
  | .vjoinClr .. => 0x69
  | .cflush .. => 0x6A
  | .pref .. => 0x6B
  | .sbind .. => 0x6C
  | .sbindU .. => 0x6C
  | .tksv .. => 0x6D
  | .tkld .. => 0x6E
  | .aadd .. => 0x6F
  | .aand .. => 0x70
  | .aor .. => 0x71
  | .axor .. => 0x72
  | .amin .. => 0x73
  | .amax .. => 0x74
  | .aminu .. => 0x75
  | .amaxu .. => 0x76
  | .aswp .. => 0x77
  | .acas .. => 0x78
  | .aaddf .. => 0x79
  | .amaxf .. => 0x7A
  | .aminf .. => 0x7B
  | .wchk .. => 0x7E
  | .wwait .. => 0x7F
  | .wwaitS .. => 0x7F
  | .vaddI32 .. => 0x80
  | .vsubI32 .. => 0x81
  | .vmulI32 .. => 0x82
  | .vminI32 .. => 0x83
  | .vmaxI32 .. => 0x84
  | .vminu .. => 0x85
  | .vmaxu .. => 0x86
  | .vand .. => 0x87
  | .vor .. => 0x88
  | .vxor .. => 0x89
  | .vshl .. => 0x8A
  | .vshr .. => 0x8B
  | .vsra .. => 0x8C
  | .vcmpI32 .. => 0x8D
  | .vcmpu .. => 0x8E
  | .vaddsI32 .. => 0x8F
  | .vaddF32 .. => 0x90
  | .vsubF32 .. => 0x91
  | .vmulF32 .. => 0x92
  | .vfmaF32 .. => 0x93
  | .vminF32 .. => 0x94
  | .vmaxF32 .. => 0x95
  | .vcmpF32 .. => 0x96
  | .vcvt .. => 0x97
  | .vaddF64 .. => 0x98
  | .vsubF64 .. => 0x99
  | .vmulF64 .. => 0x9A
  | .vfmaF64 .. => 0x9B
  | .vminF64 .. => 0x9C
  | .vmaxF64 .. => 0x9D
  | .vcmpF64 .. => 0x9E
  | .vaddBf16 .. => 0xA0
  | .vmulBf16 .. => 0xA1
  | .vfmaBf16 .. => 0xA2
  | .vaddF16 .. => 0xA3
  | .vmulF16 .. => 0xA4
  | .vfmaF16 .. => 0xA5
  | .vmlog .. => 0xA6
  | .vmmovTos .. => 0xA7
  | .vmmovFroms .. => 0xA7
  | .vsel .. => 0xA8
  | .vperm .. => 0xA9
  | .vshuf .. => 0xAA
  | .vbcst .. => 0xAB
  | .vext .. => 0xAC
  | .vins .. => 0xAD
  | .vmov .. => 0xAE
  | .vidx .. => 0xAF
  | .vrsumF32 .. => 0xB0
  | .vrsumF64 .. => 0xB1
  | .vrsumI32 .. => 0xB2
  | .vrmax .. => 0xB3
  | .vrmin .. => 0xB4
  | .vscanF32 .. => 0xB5
  | .vrcp .. => 0xB6
  | .vrsq .. => 0xB7
  | .vexp2 .. => 0xB8
  | .vlog2 .. => 0xB9
  | .vqnt .. => 0xBA
  | .vdqt .. => 0xBB
  | .vrnd .. => 0xBC
  | .mxa .. => 0xC0
  | .mxg .. => 0xC1
  | .mxt .. => 0xC2
  | .chb .. => 0xC3
  | .chc .. => 0xC4
  | .chq .. => 0xC5
  | .chs .. => 0xC6
  | .chf .. => 0xC7
  | .cht .. => 0xC8
  | .chx .. => 0xC9
  | .lkrd .. => 0xCA
  | .lkld .. => 0xCB
  | .lkz .. => 0xCC
  | .ems .. => 0xCD
  | .emsN .. => 0xCD
  | .cpy .. => 0xE0
  | .cpyr .. => 0xE1
  | .coll .. => 0xE2
  | .abrt .. => 0xE3
  | .arm .. => 0xE4
  | .pub .. => 0xE5
  | .rpsnd .. => 0xE6
  | .rprcv .. => 0xE7
  | .est .. => 0xE8
  | .srrd .. => 0xF0
  | .srwr .. => 0xF1
  | .eret .. => 0xF2
  | .eretS .. => 0xF2
  | .icinv .. => 0xF3
  | .eqrd .. => 0xF4
  | .eqwr .. => 0xF5
  | .btinv .. => 0xF6
  | .tlbinv .. => 0xF7
  | _ => 0xFE

/-- The fields that every slot but IMM carries; empty for IMM and the events. -/
def Instr.hdr : Instr → Hdr
  | .br hd _ _ => hd
  | .bri hd _ => hd
  | .call hd _ _ => hd
  | .calli hd _ => hd
  | .ret hd => hd
  | .yield hd _ => hd
  | .dly hd _ => hd
  | .susp hd _ => hd
  | .exit hd => hd
  | .spawn hd _ _ _ => hd
  | .wtk hd _ _ => hd
  | .wtkRf1 hd _ _ => hd
  | .wtks hd _ _ => hd
  | .wtksRf1 hd _ _ => hd
  | .sync hd => hd
  | .swtrap hd _ => hd
  | .brk hd _ => hd
  | .bdnz hd _ _ _ => hd
  | .add hd _ _ _ => hd
  | .addi hd _ _ _ => hd
  | .sub hd _ _ _ => hd
  | .mul hd _ _ _ => hd
  | .mulh hd _ _ _ => hd
  | .mulhu hd _ _ _ => hd
  | .div hd _ _ _ => hd
  | .divu hd _ _ _ => hd
  | .rem hd _ _ _ => hd
  | .remu hd _ _ _ => hd
  | .and_ hd _ _ _ => hd
  | .andi hd _ _ _ => hd
  | .or_ hd _ _ _ => hd
  | .ori hd _ _ _ => hd
  | .xor_ hd _ _ _ => hd
  | .xori hd _ _ _ => hd
  | .shl hd _ _ _ => hd
  | .shli hd _ _ _ => hd
  | .shr hd _ _ _ => hd
  | .shri hd _ _ _ => hd
  | .sra hd _ _ _ => hd
  | .srai hd _ _ _ => hd
  | .min hd _ _ _ => hd
  | .max hd _ _ _ => hd
  | .minu hd _ _ _ => hd
  | .maxu hd _ _ _ => hd
  | .adds hd _ _ _ => hd
  | .subs hd _ _ _ => hd
  | .clz hd _ _ => hd
  | .popc hd _ _ => hd
  | .movi hd _ _ => hd
  | .sel hd _ _ _ => hd
  | .bptr hd _ _ _ => hd
  | .bpadd hd _ _ _ => hd
  | .bpchk hd _ _ _ _ => hd
  | .bfx hd _ _ => hd
  | .bfxu hd _ _ => hd
  | .bfi hd _ _ _ => hd
  | .cmp hd _ _ _ _ => hd
  | .cmpi hd _ _ _ _ => hd
  | .plog hd _ _ _ _ => hd
  | .pmovTos hd _ => hd
  | .pmovFroms hd _ => hd
  | .wmrg hd _ _ _ => hd
  | .wmovTow hd _ _ _ => hd
  | .wmovTos hd _ _ _ => hd
  | .wmov hd _ _ => hd
  | .wnull hd _ => hd
  | .faddF32 hd _ _ _ => hd
  | .faddF64 hd _ _ _ => hd
  | .fsubF32 hd _ _ _ => hd
  | .fsubF64 hd _ _ _ => hd
  | .fmulF32 hd _ _ _ => hd
  | .fmulF64 hd _ _ _ => hd
  | .ffmaF32 hd _ _ _ => hd
  | .ffmaF64 hd _ _ _ => hd
  | .fminF32 hd _ _ _ => hd
  | .fminF64 hd _ _ _ => hd
  | .fmaxF32 hd _ _ _ => hd
  | .fmaxF64 hd _ _ _ => hd
  | .fcmp hd _ _ _ _ _ => hd
  | .fcvt hd _ _ => hd
  | .fcls hd _ _ _ => hd
  | .ld hd _ _ _ => hd
  | .st hd _ _ _ => hd
  | .vld hd _ _ => hd
  | .vst hd _ _ => hd
  | .vlds hd _ _ _ => hd
  | .vsts hd _ _ _ => hd
  | .vgth hd _ _ _ => hd
  | .vsct hd _ _ _ => hd
  | .fmt hd _ _ _ => hd
  | .vjoin hd _ => hd
  | .vjoinClr hd => hd
  | .cflush hd _ _ _ => hd
  | .pref hd _ _ _ => hd
  | .sbind hd _ _ _ => hd
  | .sbindU hd _ => hd
  | .tksv hd _ _ => hd
  | .tkld hd _ _ => hd
  | .aadd hd _ _ _ => hd
  | .aand hd _ _ _ => hd
  | .aor hd _ _ _ => hd
  | .axor hd _ _ _ => hd
  | .amin hd _ _ _ => hd
  | .amax hd _ _ _ => hd
  | .aminu hd _ _ _ => hd
  | .amaxu hd _ _ _ => hd
  | .aswp hd _ _ _ => hd
  | .acas hd _ _ _ => hd
  | .aaddf hd _ _ _ => hd
  | .amaxf hd _ _ _ => hd
  | .aminf hd _ _ _ => hd
  | .wchk hd _ _ => hd
  | .wwait hd _ => hd
  | .wwaitS hd _ => hd
  | .vaddI32 hd _ _ _ => hd
  | .vsubI32 hd _ _ _ => hd
  | .vmulI32 hd _ _ _ => hd
  | .vminI32 hd _ _ _ => hd
  | .vmaxI32 hd _ _ _ => hd
  | .vminu hd _ _ _ => hd
  | .vmaxu hd _ _ _ => hd
  | .vand hd _ _ _ => hd
  | .vor hd _ _ _ => hd
  | .vxor hd _ _ _ => hd
  | .vshl hd _ _ _ => hd
  | .vshr hd _ _ _ => hd
  | .vsra hd _ _ _ => hd
  | .vcmpI32 hd _ _ _ _ => hd
  | .vcmpu hd _ _ _ _ => hd
  | .vaddsI32 hd _ _ _ => hd
  | .vaddF32 hd _ _ _ => hd
  | .vsubF32 hd _ _ _ => hd
  | .vmulF32 hd _ _ _ => hd
  | .vfmaF32 hd _ _ _ => hd
  | .vminF32 hd _ _ _ => hd
  | .vmaxF32 hd _ _ _ => hd
  | .vcmpF32 hd _ _ _ _ => hd
  | .vcvt hd _ _ => hd
  | .vaddF64 hd _ _ _ => hd
  | .vsubF64 hd _ _ _ => hd
  | .vmulF64 hd _ _ _ => hd
  | .vfmaF64 hd _ _ _ => hd
  | .vminF64 hd _ _ _ => hd
  | .vmaxF64 hd _ _ _ => hd
  | .vcmpF64 hd _ _ _ _ => hd
  | .vaddBf16 hd _ _ _ => hd
  | .vmulBf16 hd _ _ _ => hd
  | .vfmaBf16 hd _ _ _ => hd
  | .vaddF16 hd _ _ _ => hd
  | .vmulF16 hd _ _ _ => hd
  | .vfmaF16 hd _ _ _ => hd
  | .vmlog hd _ _ _ _ => hd
  | .vmmovTos hd _ _ => hd
  | .vmmovFroms hd _ _ => hd
  | .vsel hd _ _ _ => hd
  | .vperm hd _ _ _ => hd
  | .vshuf hd _ _ _ => hd
  | .vbcst hd _ _ _ => hd
  | .vext hd _ _ _ => hd
  | .vins hd _ _ _ => hd
  | .vmov hd _ _ => hd
  | .vidx hd _ _ _ => hd
  | .vrsumF32 hd _ _ => hd
  | .vrsumF64 hd _ _ => hd
  | .vrsumI32 hd _ _ => hd
  | .vrmax hd _ _ _ _ _ => hd
  | .vrmin hd _ _ _ _ _ => hd
  | .vscanF32 hd _ _ => hd
  | .vrcp hd _ _ => hd
  | .vrsq hd _ _ => hd
  | .vexp2 hd _ _ => hd
  | .vlog2 hd _ _ => hd
  | .vqnt hd _ _ _ => hd
  | .vdqt hd _ _ _ => hd
  | .vrnd hd _ _ _ => hd
  | .mxa hd _ _ _ => hd
  | .mxg hd _ _ _ => hd
  | .mxt hd _ _ _ => hd
  | .chb hd _ _ => hd
  | .chc hd _ _ _ => hd
  | .chq hd _ _ => hd
  | .chs hd _ _ => hd
  | .chf hd _ => hd
  | .cht hd _ _ => hd
  | .chx hd _ => hd
  | .lkrd hd _ _ _ => hd
  | .lkld hd _ _ => hd
  | .lkz hd _ => hd
  | .ems hd _ _ _ => hd
  | .emsN hd _ _ _ => hd
  | .cpy hd _ _ => hd
  | .cpyr hd _ _ => hd
  | .coll hd _ _ => hd
  | .abrt hd _ _ => hd
  | .arm hd _ _ _ => hd
  | .pub hd _ _ _ => hd
  | .rpsnd hd _ _ _ => hd
  | .rprcv hd _ _ _ => hd
  | .est hd _ _ _ => hd
  | .srrd hd _ _ => hd
  | .srwr hd _ _ => hd
  | .eret hd => hd
  | .eretS hd => hd
  | .icinv hd _ _ _ => hd
  | .eqrd hd _ _ _ => hd
  | .eqwr hd _ _ _ => hd
  | .btinv hd => hd
  | .tlbinv hd _ _ => hd
  | _ => ⟨0, 0, []⟩

/-- OPERANDS of a slot, laid out as its row of the encoding tables gives (06 R117, 04 R79, 09 R194, 11 R243, 13 R287, 14 R326). -/
def Instr.ops : Instr → BitVec 18
  | .br _ h o => h ++ o
  | .bri _ a => 0#6 ++ a ++ 0#6
  | .call _ h o => h ++ o
  | .calli _ a => 0#6 ++ a ++ 0#6
  | .ret _ => 0#18
  | .yield _ y => 0#2 ++ y
  | .dly _ n => 0#2 ++ n
  | .susp _ y => 0#2 ++ y
  | .exit _ => 0#18
  | .spawn _ a b t => a ++ b ++ 0#1 ++ t
  | .wtk _ t h => t ++ 0#1 ++ h
  | .wtkRf1 _ t a => t ++ 1#1 ++ a ++ 0#6
  | .wtks _ t h => t ++ 0#1 ++ h
  | .wtksRf1 _ t a => t ++ 1#1 ++ a ++ 0#6
  | .sync _ => 0#18
  | .swtrap _ c => 0#2 ++ c
  | .brk _ t => t
  | .bdnz _ h c o => h ++ c ++ o
  | .add _ d a b => d ++ a ++ b
  | .addi _ d a i => d ++ a ++ i
  | .sub _ d a b => d ++ a ++ b
  | .mul _ d a b => d ++ a ++ b
  | .mulh _ d a b => d ++ a ++ b
  | .mulhu _ d a b => d ++ a ++ b
  | .div _ d a b => d ++ a ++ b
  | .divu _ d a b => d ++ a ++ b
  | .rem _ d a b => d ++ a ++ b
  | .remu _ d a b => d ++ a ++ b
  | .and_ _ d a b => d ++ a ++ b
  | .andi _ d a i => d ++ a ++ i
  | .or_ _ d a b => d ++ a ++ b
  | .ori _ d a i => d ++ a ++ i
  | .xor_ _ d a b => d ++ a ++ b
  | .xori _ d a i => d ++ a ++ i
  | .shl _ d a b => d ++ a ++ b
  | .shli _ d a i => d ++ a ++ i
  | .shr _ d a b => d ++ a ++ b
  | .shri _ d a i => d ++ a ++ i
  | .sra _ d a b => d ++ a ++ b
  | .srai _ d a i => d ++ a ++ i
  | .min _ d a b => d ++ a ++ b
  | .max _ d a b => d ++ a ++ b
  | .minu _ d a b => d ++ a ++ b
  | .maxu _ d a b => d ++ a ++ b
  | .adds _ d a b => d ++ a ++ b
  | .subs _ d a b => d ++ a ++ b
  | .clz _ d a => d ++ a ++ 0#6
  | .popc _ d a => d ++ a ++ 0#6
  | .movi _ d i => d ++ i
  | .sel _ d a b => d ++ a ++ b
  | .bptr _ d a b => d ++ a ++ b
  | .bpadd _ d a b => d ++ a ++ b
  | .bpchk _ p x a b => p ++ x ++ 0#2 ++ a ++ b
  | .bfx _ d a => d ++ a ++ 0#6
  | .bfxu _ d a => d ++ a ++ 0#6
  | .bfi _ d a b => d ++ a ++ b
  | .cmp _ p c a b => p ++ c ++ a ++ b
  | .cmpi _ p c a i => p ++ c ++ a ++ i
  | .plog _ d a b f => d ++ a ++ b ++ f ++ 0#5
  | .pmovTos _ d => d ++ 0#12
  | .pmovFroms _ a => 0#6 ++ a ++ 1#6
  | .wmrg _ d a b => d ++ a ++ b
  | .wmovTow _ d a e => d ++ a ++ 0#2 ++ e ++ 0#3
  | .wmovTos _ d a e => d ++ a ++ 1#2 ++ e ++ 0#3
  | .wmov _ d a => d ++ a ++ 32#6
  | .wnull _ d => d ++ 0#12
  | .faddF32 _ d a b => d ++ a ++ b
  | .faddF64 _ d a b => d ++ a ++ b
  | .fsubF32 _ d a b => d ++ a ++ b
  | .fsubF64 _ d a b => d ++ a ++ b
  | .fmulF32 _ d a b => d ++ a ++ b
  | .fmulF64 _ d a b => d ++ a ++ b
  | .ffmaF32 _ d a b => d ++ a ++ b
  | .ffmaF64 _ d a b => d ++ a ++ b
  | .fminF32 _ d a b => d ++ a ++ b
  | .fminF64 _ d a b => d ++ a ++ b
  | .fmaxF32 _ d a b => d ++ a ++ b
  | .fmaxF64 _ d a b => d ++ a ++ b
  | .fcmp _ p c f a b => p ++ c ++ f ++ a ++ b
  | .fcvt _ d a => d ++ a ++ 0#6
  | .fcls _ d a f => d ++ a ++ 0#5 ++ f
  | .ld _ d a s => d ++ a ++ s ++ 0#3
  | .st _ d a s => d ++ a ++ s ++ 0#4
  | .vld _ d a => d ++ a ++ 0#6
  | .vst _ d a => d ++ a ++ 0#6
  | .vlds _ d a b => d ++ a ++ b
  | .vsts _ d a b => d ++ a ++ b
  | .vgth _ d a b => d ++ a ++ b
  | .vsct _ d a b => d ++ a ++ b
  | .fmt _ k a b => k ++ a ++ b
  | .vjoin _ w => 0#8 ++ w ++ 0#6
  | .vjoinClr _ => 1#18
  | .cflush _ n a v => n ++ a ++ 0#5 ++ v
  | .pref _ n a v => n ++ a ++ 0#4 ++ v
  | .sbind _ q a w => q ++ 0#3 ++ a ++ w ++ 0#2
  | .sbindU _ q => q ++ 16384#15
  | .tksv _ t a => t ++ 0#1 ++ a ++ 0#6
  | .tkld _ t a => t ++ 0#1 ++ a ++ 0#6
  | .aadd _ d a b => d ++ a ++ b
  | .aand _ d a b => d ++ a ++ b
  | .aor _ d a b => d ++ a ++ b
  | .axor _ d a b => d ++ a ++ b
  | .amin _ d a b => d ++ a ++ b
  | .amax _ d a b => d ++ a ++ b
  | .aminu _ d a b => d ++ a ++ b
  | .amaxu _ d a b => d ++ a ++ b
  | .aswp _ d a b => d ++ a ++ b
  | .acas _ d a b => d ++ a ++ b
  | .aaddf _ d a b => d ++ a ++ b
  | .amaxf _ d a b => d ++ a ++ b
  | .aminf _ d a b => d ++ a ++ b
  | .wchk _ d a => d ++ a ++ 0#6
  | .wwait _ a => 0#6 ++ a ++ 0#6
  | .wwaitS _ a => 0#6 ++ a ++ 1#6
  | .vaddI32 _ d a b => d ++ a ++ b
  | .vsubI32 _ d a b => d ++ a ++ b
  | .vmulI32 _ d a b => d ++ a ++ b
  | .vminI32 _ d a b => d ++ a ++ b
  | .vmaxI32 _ d a b => d ++ a ++ b
  | .vminu _ d a b => d ++ a ++ b
  | .vmaxu _ d a b => d ++ a ++ b
  | .vand _ d a b => d ++ a ++ b
  | .vor _ d a b => d ++ a ++ b
  | .vxor _ d a b => d ++ a ++ b
  | .vshl _ d a b => d ++ a ++ b
  | .vshr _ d a b => d ++ a ++ b
  | .vsra _ d a b => d ++ a ++ b
  | .vcmpI32 _ p c a b => p ++ c ++ a ++ b
  | .vcmpu _ p c a b => p ++ c ++ a ++ b
  | .vaddsI32 _ d a b => d ++ a ++ b
  | .vaddF32 _ d a b => d ++ a ++ b
  | .vsubF32 _ d a b => d ++ a ++ b
  | .vmulF32 _ d a b => d ++ a ++ b
  | .vfmaF32 _ d a b => d ++ a ++ b
  | .vminF32 _ d a b => d ++ a ++ b
  | .vmaxF32 _ d a b => d ++ a ++ b
  | .vcmpF32 _ p c a b => p ++ c ++ a ++ b
  | .vcvt _ d a => d ++ a ++ 0#6
  | .vaddF64 _ d a b => d ++ a ++ b
  | .vsubF64 _ d a b => d ++ a ++ b
  | .vmulF64 _ d a b => d ++ a ++ b
  | .vfmaF64 _ d a b => d ++ a ++ b
  | .vminF64 _ d a b => d ++ a ++ b
  | .vmaxF64 _ d a b => d ++ a ++ b
  | .vcmpF64 _ p c a b => p ++ c ++ a ++ b
  | .vaddBf16 _ d a b => d ++ a ++ b
  | .vmulBf16 _ d a b => d ++ a ++ b
  | .vfmaBf16 _ d a b => d ++ a ++ b
  | .vaddF16 _ d a b => d ++ a ++ b
  | .vmulF16 _ d a b => d ++ a ++ b
  | .vfmaF16 _ d a b => d ++ a ++ b
  | .vmlog _ d a b f => d ++ a ++ b ++ f ++ 0#5
  | .vmmovTos _ d a => d ++ a ++ 0#6
  | .vmmovFroms _ d a => d ++ a ++ 1#6
  | .vsel _ d a b => d ++ a ++ b
  | .vperm _ d a b => d ++ a ++ b
  | .vshuf _ d a b => d ++ a ++ b
  | .vbcst _ d a w => d ++ a ++ 0#5 ++ w
  | .vext _ d a i => d ++ a ++ i
  | .vins _ d a i => d ++ a ++ i
  | .vmov _ d a => d ++ a ++ 0#6
  | .vidx _ d a i => d ++ a ++ i
  | .vrsumF32 _ d a => d ++ a ++ 0#6
  | .vrsumF64 _ d a => d ++ a ++ 0#6
  | .vrsumI32 _ d a => d ++ a ++ 0#6
  | .vrmax _ d a f u n => d ++ a ++ f ++ u ++ n
  | .vrmin _ d a f u n => d ++ a ++ f ++ u ++ n
  | .vscanF32 _ d a => d ++ a ++ 0#6
  | .vrcp _ d a => d ++ a ++ 0#6
  | .vrsq _ d a => d ++ a ++ 0#6
  | .vexp2 _ d a => d ++ a ++ 0#6
  | .vlog2 _ d a => d ++ a ++ 0#6
  | .vqnt _ d a b => d ++ a ++ b
  | .vdqt _ d a b => d ++ a ++ b
  | .vrnd _ d a b => d ++ a ++ b
  | .mxa _ k a b => k ++ a ++ b ++ 0#2
  | .mxg _ k a b => k ++ a ++ b ++ 0#2
  | .mxt _ k a b => k ++ a ++ b ++ 0#2
  | .chb _ k a => k ++ 0#2 ++ a ++ 0#6
  | .chc _ k a b => k ++ a ++ b ++ 0#2
  | .chq _ d a => d ++ a ++ 0#6
  | .chs _ k a => k ++ 0#2 ++ a ++ 0#6
  | .chf _ c => c ++ 0#8
  | .cht _ d c => d ++ c ++ 0#2
  | .chx _ c => c ++ 0#8
  | .lkrd _ d k a => d ++ k ++ a ++ 0#2
  | .lkld _ k a => k ++ 0#2 ++ a ++ 0#6
  | .lkz _ k => k ++ 0#14
  | .ems _ y n a => y ++ n ++ 0#3 ++ a ++ 0#6
  | .emsN _ y n c => y ++ n ++ 256#9 ++ c
  | .cpy _ e a => e ++ 0#2 ++ a ++ 0#6
  | .cpyr _ e a => e ++ 0#2 ++ a ++ 0#6
  | .coll _ e a => e ++ 0#2 ++ a ++ 0#6
  | .abrt _ d a => d ++ a ++ 0#6
  | .arm _ e a b => e ++ 0#2 ++ a ++ b
  | .pub _ e a b => e ++ 0#2 ++ a ++ b
  | .rpsnd _ j a b => j ++ a ++ b
  | .rprcv _ d a b => d ++ a ++ b
  | .est _ d e t => d ++ e ++ 0#3 ++ t
  | .srrd _ d r => d ++ r ++ 0#2
  | .srwr _ r a => r ++ a ++ 0#2
  | .eret _ => 0#18
  | .eretS _ => 1#18
  | .icinv _ c a b => 0#4 ++ c ++ a ++ b
  | .eqrd _ d e a => d ++ e ++ a ++ 0#2
  | .eqwr _ e a b => e ++ 0#2 ++ a ++ b
  | .btinv _ => 0#18
  | .tlbinv _ a b => 0#6 ++ a ++ b
  | _ => 0

/-- The slot that an opcode, the common fields and OPERANDS encode: none for an unassigned code point
and where a reserved bit is not zero (04 R79, R91). -/
def decodeOps (opc : BitVec 8) (hd : Hdr) (o : BitVec 18) : Option Instr :=
  match opc.toNat with
  | 0x01 => some (.br hd (o.extractLsb' 17 1) (o.extractLsb' 0 17))
  | 0x02 => if o &&& 0x3F03F#18 = 0x00000#18 then some (.bri hd (o.extractLsb' 6 6)) else none
  | 0x03 => some (.call hd (o.extractLsb' 17 1) (o.extractLsb' 0 17))
  | 0x04 => if o &&& 0x3F03F#18 = 0x00000#18 then some (.calli hd (o.extractLsb' 6 6)) else none
  | 0x05 => if o &&& 0x3FFFF#18 = 0x00000#18 then some (.ret hd) else none
  | 0x06 => if o &&& 0x30000#18 = 0x00000#18 then some (.yield hd (o.extractLsb' 0 16)) else none
  | 0x07 => if o &&& 0x30000#18 = 0x00000#18 then some (.dly hd (o.extractLsb' 0 16)) else none
  | 0x08 => if o &&& 0x30000#18 = 0x00000#18 then some (.susp hd (o.extractLsb' 0 16)) else none
  | 0x09 => if o &&& 0x3FFFF#18 = 0x00000#18 then some (.exit hd) else none
  | 0x0A => if o &&& 0x00020#18 = 0x00000#18 then some (.spawn hd (o.extractLsb' 12 6) (o.extractLsb' 6 6) (o.extractLsb' 0 5)) else none
  | 0x0B => if o &&& 0x01000#18 = 0x00000#18 then some (.wtk hd (o.extractLsb' 13 5) (o.extractLsb' 0 12)) else if o &&& 0x0103F#18 = 0x01000#18 then some (.wtkRf1 hd (o.extractLsb' 13 5) (o.extractLsb' 6 6)) else none
  | 0x0C => if o &&& 0x01000#18 = 0x00000#18 then some (.wtks hd (o.extractLsb' 13 5) (o.extractLsb' 0 12)) else if o &&& 0x0103F#18 = 0x01000#18 then some (.wtksRf1 hd (o.extractLsb' 13 5) (o.extractLsb' 6 6)) else none
  | 0x0D => if o &&& 0x3FFFF#18 = 0x00000#18 then some (.sync hd) else none
  | 0x0E => if o &&& 0x30000#18 = 0x00000#18 then some (.swtrap hd (o.extractLsb' 0 16)) else none
  | 0x0F => some (.brk hd (o.extractLsb' 0 18))
  | 0x10 => some (.bdnz hd (o.extractLsb' 17 1) (o.extractLsb' 11 6) (o.extractLsb' 0 11))
  | 0x20 => some (.add hd (o.extractLsb' 12 6) (o.extractLsb' 6 6) (o.extractLsb' 0 6))
  | 0x21 => some (.addi hd (o.extractLsb' 12 6) (o.extractLsb' 6 6) (o.extractLsb' 0 6))
  | 0x22 => some (.sub hd (o.extractLsb' 12 6) (o.extractLsb' 6 6) (o.extractLsb' 0 6))
  | 0x23 => some (.mul hd (o.extractLsb' 12 6) (o.extractLsb' 6 6) (o.extractLsb' 0 6))
  | 0x24 => some (.mulh hd (o.extractLsb' 12 6) (o.extractLsb' 6 6) (o.extractLsb' 0 6))
  | 0x25 => some (.mulhu hd (o.extractLsb' 12 6) (o.extractLsb' 6 6) (o.extractLsb' 0 6))
  | 0x26 => some (.div hd (o.extractLsb' 12 6) (o.extractLsb' 6 6) (o.extractLsb' 0 6))
  | 0x27 => some (.divu hd (o.extractLsb' 12 6) (o.extractLsb' 6 6) (o.extractLsb' 0 6))
  | 0x28 => some (.rem hd (o.extractLsb' 12 6) (o.extractLsb' 6 6) (o.extractLsb' 0 6))
  | 0x29 => some (.remu hd (o.extractLsb' 12 6) (o.extractLsb' 6 6) (o.extractLsb' 0 6))
  | 0x2A => some (.and_ hd (o.extractLsb' 12 6) (o.extractLsb' 6 6) (o.extractLsb' 0 6))
  | 0x2B => some (.andi hd (o.extractLsb' 12 6) (o.extractLsb' 6 6) (o.extractLsb' 0 6))
  | 0x2C => some (.or_ hd (o.extractLsb' 12 6) (o.extractLsb' 6 6) (o.extractLsb' 0 6))
  | 0x2D => some (.ori hd (o.extractLsb' 12 6) (o.extractLsb' 6 6) (o.extractLsb' 0 6))
  | 0x2E => some (.xor_ hd (o.extractLsb' 12 6) (o.extractLsb' 6 6) (o.extractLsb' 0 6))
  | 0x2F => some (.xori hd (o.extractLsb' 12 6) (o.extractLsb' 6 6) (o.extractLsb' 0 6))
  | 0x30 => some (.shl hd (o.extractLsb' 12 6) (o.extractLsb' 6 6) (o.extractLsb' 0 6))
  | 0x31 => some (.shli hd (o.extractLsb' 12 6) (o.extractLsb' 6 6) (o.extractLsb' 0 6))
  | 0x32 => some (.shr hd (o.extractLsb' 12 6) (o.extractLsb' 6 6) (o.extractLsb' 0 6))
  | 0x33 => some (.shri hd (o.extractLsb' 12 6) (o.extractLsb' 6 6) (o.extractLsb' 0 6))
  | 0x34 => some (.sra hd (o.extractLsb' 12 6) (o.extractLsb' 6 6) (o.extractLsb' 0 6))
  | 0x35 => some (.srai hd (o.extractLsb' 12 6) (o.extractLsb' 6 6) (o.extractLsb' 0 6))
  | 0x36 => some (.min hd (o.extractLsb' 12 6) (o.extractLsb' 6 6) (o.extractLsb' 0 6))
  | 0x37 => some (.max hd (o.extractLsb' 12 6) (o.extractLsb' 6 6) (o.extractLsb' 0 6))
  | 0x38 => some (.minu hd (o.extractLsb' 12 6) (o.extractLsb' 6 6) (o.extractLsb' 0 6))
  | 0x39 => some (.maxu hd (o.extractLsb' 12 6) (o.extractLsb' 6 6) (o.extractLsb' 0 6))
  | 0x3A => some (.adds hd (o.extractLsb' 12 6) (o.extractLsb' 6 6) (o.extractLsb' 0 6))
  | 0x3B => some (.subs hd (o.extractLsb' 12 6) (o.extractLsb' 6 6) (o.extractLsb' 0 6))
  | 0x3C => if o &&& 0x0003F#18 = 0x00000#18 then some (.clz hd (o.extractLsb' 12 6) (o.extractLsb' 6 6)) else none
  | 0x3D => if o &&& 0x0003F#18 = 0x00000#18 then some (.popc hd (o.extractLsb' 12 6) (o.extractLsb' 6 6)) else none
  | 0x3E => some (.movi hd (o.extractLsb' 12 6) (o.extractLsb' 0 12))
  | 0x3F => some (.sel hd (o.extractLsb' 12 6) (o.extractLsb' 6 6) (o.extractLsb' 0 6))
  | 0x40 => some (.bptr hd (o.extractLsb' 12 6) (o.extractLsb' 6 6) (o.extractLsb' 0 6))
  | 0x41 => some (.bpadd hd (o.extractLsb' 12 6) (o.extractLsb' 6 6) (o.extractLsb' 0 6))
  | 0x42 => if o &&& 0x03000#18 = 0x00000#18 then some (.bpchk hd (o.extractLsb' 16 2) (o.extractLsb' 14 2) (o.extractLsb' 6 6) (o.extractLsb' 0 6)) else none
  | 0x43 => if o &&& 0x0003F#18 = 0x00000#18 then some (.bfx hd (o.extractLsb' 12 6) (o.extractLsb' 6 6)) else none
  | 0x44 => if o &&& 0x0003F#18 = 0x00000#18 then some (.bfxu hd (o.extractLsb' 12 6) (o.extractLsb' 6 6)) else none
  | 0x45 => some (.bfi hd (o.extractLsb' 12 6) (o.extractLsb' 6 6) (o.extractLsb' 0 6))
  | 0x46 => some (.cmp hd (o.extractLsb' 16 2) (o.extractLsb' 12 4) (o.extractLsb' 6 6) (o.extractLsb' 0 6))
  | 0x47 => some (.cmpi hd (o.extractLsb' 16 2) (o.extractLsb' 12 4) (o.extractLsb' 6 6) (o.extractLsb' 0 6))
  | 0x48 => if o &&& 0x0001F#18 = 0x00000#18 then some (.plog hd (o.extractLsb' 15 3) (o.extractLsb' 12 3) (o.extractLsb' 9 3) (o.extractLsb' 5 4)) else none
  | 0x49 => if o &&& 0x00FFF#18 = 0x00000#18 then some (.pmovTos hd (o.extractLsb' 12 6)) else if o &&& 0x3F03F#18 = 0x00001#18 then some (.pmovFroms hd (o.extractLsb' 6 6)) else none
  | 0x4A => some (.wmrg hd (o.extractLsb' 12 6) (o.extractLsb' 6 6) (o.extractLsb' 0 6))
  | 0x4B => if o &&& 0x00037#18 = 0x00000#18 then some (.wmovTow hd (o.extractLsb' 12 6) (o.extractLsb' 6 6) (o.extractLsb' 3 1)) else if o &&& 0x00037#18 = 0x00010#18 then some (.wmovTos hd (o.extractLsb' 12 6) (o.extractLsb' 6 6) (o.extractLsb' 3 1)) else if o &&& 0x0003F#18 = 0x00020#18 then some (.wmov hd (o.extractLsb' 12 6) (o.extractLsb' 6 6)) else none
  | 0x4C => if o &&& 0x00FFF#18 = 0x00000#18 then some (.wnull hd (o.extractLsb' 12 6)) else none
  | 0x50 => some (.faddF32 hd (o.extractLsb' 12 6) (o.extractLsb' 6 6) (o.extractLsb' 0 6))
  | 0x51 => some (.faddF64 hd (o.extractLsb' 12 6) (o.extractLsb' 6 6) (o.extractLsb' 0 6))
  | 0x52 => some (.fsubF32 hd (o.extractLsb' 12 6) (o.extractLsb' 6 6) (o.extractLsb' 0 6))
  | 0x53 => some (.fsubF64 hd (o.extractLsb' 12 6) (o.extractLsb' 6 6) (o.extractLsb' 0 6))
  | 0x54 => some (.fmulF32 hd (o.extractLsb' 12 6) (o.extractLsb' 6 6) (o.extractLsb' 0 6))
  | 0x55 => some (.fmulF64 hd (o.extractLsb' 12 6) (o.extractLsb' 6 6) (o.extractLsb' 0 6))
  | 0x56 => some (.ffmaF32 hd (o.extractLsb' 12 6) (o.extractLsb' 6 6) (o.extractLsb' 0 6))
  | 0x57 => some (.ffmaF64 hd (o.extractLsb' 12 6) (o.extractLsb' 6 6) (o.extractLsb' 0 6))
  | 0x58 => some (.fminF32 hd (o.extractLsb' 12 6) (o.extractLsb' 6 6) (o.extractLsb' 0 6))
  | 0x59 => some (.fminF64 hd (o.extractLsb' 12 6) (o.extractLsb' 6 6) (o.extractLsb' 0 6))
  | 0x5A => some (.fmaxF32 hd (o.extractLsb' 12 6) (o.extractLsb' 6 6) (o.extractLsb' 0 6))
  | 0x5B => some (.fmaxF64 hd (o.extractLsb' 12 6) (o.extractLsb' 6 6) (o.extractLsb' 0 6))
  | 0x5C => some (.fcmp hd (o.extractLsb' 16 2) (o.extractLsb' 13 3) (o.extractLsb' 12 1) (o.extractLsb' 6 6) (o.extractLsb' 0 6))
  | 0x5D => if o &&& 0x0003F#18 = 0x00000#18 then some (.fcvt hd (o.extractLsb' 12 6) (o.extractLsb' 6 6)) else none
  | 0x5E => if o &&& 0x0003E#18 = 0x00000#18 then some (.fcls hd (o.extractLsb' 12 6) (o.extractLsb' 6 6) (o.extractLsb' 0 1)) else none
  | 0x60 => if o &&& 0x00007#18 = 0x00000#18 then some (.ld hd (o.extractLsb' 12 6) (o.extractLsb' 6 6) (o.extractLsb' 3 3)) else none
  | 0x61 => if o &&& 0x0000F#18 = 0x00000#18 then some (.st hd (o.extractLsb' 12 6) (o.extractLsb' 6 6) (o.extractLsb' 4 2)) else none
  | 0x62 => if o &&& 0x0003F#18 = 0x00000#18 then some (.vld hd (o.extractLsb' 12 6) (o.extractLsb' 6 6)) else none
  | 0x63 => if o &&& 0x0003F#18 = 0x00000#18 then some (.vst hd (o.extractLsb' 12 6) (o.extractLsb' 6 6)) else none
  | 0x64 => some (.vlds hd (o.extractLsb' 12 6) (o.extractLsb' 6 6) (o.extractLsb' 0 6))
  | 0x65 => some (.vsts hd (o.extractLsb' 12 6) (o.extractLsb' 6 6) (o.extractLsb' 0 6))
  | 0x66 => some (.vgth hd (o.extractLsb' 12 6) (o.extractLsb' 6 6) (o.extractLsb' 0 6))
  | 0x67 => some (.vsct hd (o.extractLsb' 12 6) (o.extractLsb' 6 6) (o.extractLsb' 0 6))
  | 0x68 => some (.fmt hd (o.extractLsb' 12 6) (o.extractLsb' 6 6) (o.extractLsb' 0 6))
  | 0x69 => if o &&& 0x3FC3F#18 = 0x00000#18 then some (.vjoin hd (o.extractLsb' 6 4)) else if o &&& 0x3FFFF#18 = 0x00001#18 then some (.vjoinClr hd) else none
  | 0x6A => if o &&& 0x0003E#18 = 0x00000#18 then some (.cflush hd (o.extractLsb' 12 6) (o.extractLsb' 6 6) (o.extractLsb' 0 1)) else none
  | 0x6B => if o &&& 0x0003C#18 = 0x00000#18 then some (.pref hd (o.extractLsb' 12 6) (o.extractLsb' 6 6) (o.extractLsb' 0 2)) else none
  | 0x6C => if o &&& 0x07003#18 = 0x00000#18 then some (.sbind hd (o.extractLsb' 15 3) (o.extractLsb' 6 6) (o.extractLsb' 2 4)) else if o &&& 0x07FFF#18 = 0x04000#18 then some (.sbindU hd (o.extractLsb' 15 3)) else none
  | 0x6D => if o &&& 0x0103F#18 = 0x00000#18 then some (.tksv hd (o.extractLsb' 13 5) (o.extractLsb' 6 6)) else none
  | 0x6E => if o &&& 0x0103F#18 = 0x00000#18 then some (.tkld hd (o.extractLsb' 13 5) (o.extractLsb' 6 6)) else none
  | 0x6F => some (.aadd hd (o.extractLsb' 12 6) (o.extractLsb' 6 6) (o.extractLsb' 0 6))
  | 0x70 => some (.aand hd (o.extractLsb' 12 6) (o.extractLsb' 6 6) (o.extractLsb' 0 6))
  | 0x71 => some (.aor hd (o.extractLsb' 12 6) (o.extractLsb' 6 6) (o.extractLsb' 0 6))
  | 0x72 => some (.axor hd (o.extractLsb' 12 6) (o.extractLsb' 6 6) (o.extractLsb' 0 6))
  | 0x73 => some (.amin hd (o.extractLsb' 12 6) (o.extractLsb' 6 6) (o.extractLsb' 0 6))
  | 0x74 => some (.amax hd (o.extractLsb' 12 6) (o.extractLsb' 6 6) (o.extractLsb' 0 6))
  | 0x75 => some (.aminu hd (o.extractLsb' 12 6) (o.extractLsb' 6 6) (o.extractLsb' 0 6))
  | 0x76 => some (.amaxu hd (o.extractLsb' 12 6) (o.extractLsb' 6 6) (o.extractLsb' 0 6))
  | 0x77 => some (.aswp hd (o.extractLsb' 12 6) (o.extractLsb' 6 6) (o.extractLsb' 0 6))
  | 0x78 => some (.acas hd (o.extractLsb' 12 6) (o.extractLsb' 6 6) (o.extractLsb' 0 6))
  | 0x79 => some (.aaddf hd (o.extractLsb' 12 6) (o.extractLsb' 6 6) (o.extractLsb' 0 6))
  | 0x7A => some (.amaxf hd (o.extractLsb' 12 6) (o.extractLsb' 6 6) (o.extractLsb' 0 6))
  | 0x7B => some (.aminf hd (o.extractLsb' 12 6) (o.extractLsb' 6 6) (o.extractLsb' 0 6))
  | 0x7E => if o &&& 0x0003F#18 = 0x00000#18 then some (.wchk hd (o.extractLsb' 12 6) (o.extractLsb' 6 6)) else none
  | 0x7F => if o &&& 0x3F03F#18 = 0x00000#18 then some (.wwait hd (o.extractLsb' 6 6)) else if o &&& 0x3F03F#18 = 0x00001#18 then some (.wwaitS hd (o.extractLsb' 6 6)) else none
  | 0x80 => some (.vaddI32 hd (o.extractLsb' 12 6) (o.extractLsb' 6 6) (o.extractLsb' 0 6))
  | 0x81 => some (.vsubI32 hd (o.extractLsb' 12 6) (o.extractLsb' 6 6) (o.extractLsb' 0 6))
  | 0x82 => some (.vmulI32 hd (o.extractLsb' 12 6) (o.extractLsb' 6 6) (o.extractLsb' 0 6))
  | 0x83 => some (.vminI32 hd (o.extractLsb' 12 6) (o.extractLsb' 6 6) (o.extractLsb' 0 6))
  | 0x84 => some (.vmaxI32 hd (o.extractLsb' 12 6) (o.extractLsb' 6 6) (o.extractLsb' 0 6))
  | 0x85 => some (.vminu hd (o.extractLsb' 12 6) (o.extractLsb' 6 6) (o.extractLsb' 0 6))
  | 0x86 => some (.vmaxu hd (o.extractLsb' 12 6) (o.extractLsb' 6 6) (o.extractLsb' 0 6))
  | 0x87 => some (.vand hd (o.extractLsb' 12 6) (o.extractLsb' 6 6) (o.extractLsb' 0 6))
  | 0x88 => some (.vor hd (o.extractLsb' 12 6) (o.extractLsb' 6 6) (o.extractLsb' 0 6))
  | 0x89 => some (.vxor hd (o.extractLsb' 12 6) (o.extractLsb' 6 6) (o.extractLsb' 0 6))
  | 0x8A => some (.vshl hd (o.extractLsb' 12 6) (o.extractLsb' 6 6) (o.extractLsb' 0 6))
  | 0x8B => some (.vshr hd (o.extractLsb' 12 6) (o.extractLsb' 6 6) (o.extractLsb' 0 6))
  | 0x8C => some (.vsra hd (o.extractLsb' 12 6) (o.extractLsb' 6 6) (o.extractLsb' 0 6))
  | 0x8D => some (.vcmpI32 hd (o.extractLsb' 16 2) (o.extractLsb' 12 4) (o.extractLsb' 6 6) (o.extractLsb' 0 6))
  | 0x8E => some (.vcmpu hd (o.extractLsb' 16 2) (o.extractLsb' 12 4) (o.extractLsb' 6 6) (o.extractLsb' 0 6))
  | 0x8F => some (.vaddsI32 hd (o.extractLsb' 12 6) (o.extractLsb' 6 6) (o.extractLsb' 0 6))
  | 0x90 => some (.vaddF32 hd (o.extractLsb' 12 6) (o.extractLsb' 6 6) (o.extractLsb' 0 6))
  | 0x91 => some (.vsubF32 hd (o.extractLsb' 12 6) (o.extractLsb' 6 6) (o.extractLsb' 0 6))
  | 0x92 => some (.vmulF32 hd (o.extractLsb' 12 6) (o.extractLsb' 6 6) (o.extractLsb' 0 6))
  | 0x93 => some (.vfmaF32 hd (o.extractLsb' 12 6) (o.extractLsb' 6 6) (o.extractLsb' 0 6))
  | 0x94 => some (.vminF32 hd (o.extractLsb' 12 6) (o.extractLsb' 6 6) (o.extractLsb' 0 6))
  | 0x95 => some (.vmaxF32 hd (o.extractLsb' 12 6) (o.extractLsb' 6 6) (o.extractLsb' 0 6))
  | 0x96 => some (.vcmpF32 hd (o.extractLsb' 16 2) (o.extractLsb' 12 4) (o.extractLsb' 6 6) (o.extractLsb' 0 6))
  | 0x97 => if o &&& 0x0003F#18 = 0x00000#18 then some (.vcvt hd (o.extractLsb' 12 6) (o.extractLsb' 6 6)) else none
  | 0x98 => some (.vaddF64 hd (o.extractLsb' 12 6) (o.extractLsb' 6 6) (o.extractLsb' 0 6))
  | 0x99 => some (.vsubF64 hd (o.extractLsb' 12 6) (o.extractLsb' 6 6) (o.extractLsb' 0 6))
  | 0x9A => some (.vmulF64 hd (o.extractLsb' 12 6) (o.extractLsb' 6 6) (o.extractLsb' 0 6))
  | 0x9B => some (.vfmaF64 hd (o.extractLsb' 12 6) (o.extractLsb' 6 6) (o.extractLsb' 0 6))
  | 0x9C => some (.vminF64 hd (o.extractLsb' 12 6) (o.extractLsb' 6 6) (o.extractLsb' 0 6))
  | 0x9D => some (.vmaxF64 hd (o.extractLsb' 12 6) (o.extractLsb' 6 6) (o.extractLsb' 0 6))
  | 0x9E => some (.vcmpF64 hd (o.extractLsb' 16 2) (o.extractLsb' 12 4) (o.extractLsb' 6 6) (o.extractLsb' 0 6))
  | 0xA0 => some (.vaddBf16 hd (o.extractLsb' 12 6) (o.extractLsb' 6 6) (o.extractLsb' 0 6))
  | 0xA1 => some (.vmulBf16 hd (o.extractLsb' 12 6) (o.extractLsb' 6 6) (o.extractLsb' 0 6))
  | 0xA2 => some (.vfmaBf16 hd (o.extractLsb' 12 6) (o.extractLsb' 6 6) (o.extractLsb' 0 6))
  | 0xA3 => some (.vaddF16 hd (o.extractLsb' 12 6) (o.extractLsb' 6 6) (o.extractLsb' 0 6))
  | 0xA4 => some (.vmulF16 hd (o.extractLsb' 12 6) (o.extractLsb' 6 6) (o.extractLsb' 0 6))
  | 0xA5 => some (.vfmaF16 hd (o.extractLsb' 12 6) (o.extractLsb' 6 6) (o.extractLsb' 0 6))
  | 0xA6 => if o &&& 0x0001F#18 = 0x00000#18 then some (.vmlog hd (o.extractLsb' 15 3) (o.extractLsb' 12 3) (o.extractLsb' 9 3) (o.extractLsb' 5 4)) else none
  | 0xA7 => if o &&& 0x0003F#18 = 0x00000#18 then some (.vmmovTos hd (o.extractLsb' 12 6) (o.extractLsb' 6 6)) else if o &&& 0x0003F#18 = 0x00001#18 then some (.vmmovFroms hd (o.extractLsb' 12 6) (o.extractLsb' 6 6)) else none
  | 0xA8 => some (.vsel hd (o.extractLsb' 12 6) (o.extractLsb' 6 6) (o.extractLsb' 0 6))
  | 0xA9 => some (.vperm hd (o.extractLsb' 12 6) (o.extractLsb' 6 6) (o.extractLsb' 0 6))
  | 0xAA => some (.vshuf hd (o.extractLsb' 12 6) (o.extractLsb' 6 6) (o.extractLsb' 0 6))
  | 0xAB => if o &&& 0x0003E#18 = 0x00000#18 then some (.vbcst hd (o.extractLsb' 12 6) (o.extractLsb' 6 6) (o.extractLsb' 0 1)) else none
  | 0xAC => some (.vext hd (o.extractLsb' 12 6) (o.extractLsb' 6 6) (o.extractLsb' 0 6))
  | 0xAD => some (.vins hd (o.extractLsb' 12 6) (o.extractLsb' 6 6) (o.extractLsb' 0 6))
  | 0xAE => if o &&& 0x0003F#18 = 0x00000#18 then some (.vmov hd (o.extractLsb' 12 6) (o.extractLsb' 6 6)) else none
  | 0xAF => some (.vidx hd (o.extractLsb' 12 6) (o.extractLsb' 6 6) (o.extractLsb' 0 6))
  | 0xB0 => if o &&& 0x0003F#18 = 0x00000#18 then some (.vrsumF32 hd (o.extractLsb' 12 6) (o.extractLsb' 6 6)) else none
  | 0xB1 => if o &&& 0x0003F#18 = 0x00000#18 then some (.vrsumF64 hd (o.extractLsb' 12 6) (o.extractLsb' 6 6)) else none
  | 0xB2 => if o &&& 0x0003F#18 = 0x00000#18 then some (.vrsumI32 hd (o.extractLsb' 12 6) (o.extractLsb' 6 6)) else none
  | 0xB3 => some (.vrmax hd (o.extractLsb' 12 6) (o.extractLsb' 6 6) (o.extractLsb' 2 4) (o.extractLsb' 1 1) (o.extractLsb' 0 1))
  | 0xB4 => some (.vrmin hd (o.extractLsb' 12 6) (o.extractLsb' 6 6) (o.extractLsb' 2 4) (o.extractLsb' 1 1) (o.extractLsb' 0 1))
  | 0xB5 => if o &&& 0x0003F#18 = 0x00000#18 then some (.vscanF32 hd (o.extractLsb' 12 6) (o.extractLsb' 6 6)) else none
  | 0xB6 => if o &&& 0x0003F#18 = 0x00000#18 then some (.vrcp hd (o.extractLsb' 12 6) (o.extractLsb' 6 6)) else none
  | 0xB7 => if o &&& 0x0003F#18 = 0x00000#18 then some (.vrsq hd (o.extractLsb' 12 6) (o.extractLsb' 6 6)) else none
  | 0xB8 => if o &&& 0x0003F#18 = 0x00000#18 then some (.vexp2 hd (o.extractLsb' 12 6) (o.extractLsb' 6 6)) else none
  | 0xB9 => if o &&& 0x0003F#18 = 0x00000#18 then some (.vlog2 hd (o.extractLsb' 12 6) (o.extractLsb' 6 6)) else none
  | 0xBA => some (.vqnt hd (o.extractLsb' 12 6) (o.extractLsb' 6 6) (o.extractLsb' 0 6))
  | 0xBB => some (.vdqt hd (o.extractLsb' 12 6) (o.extractLsb' 6 6) (o.extractLsb' 0 6))
  | 0xBC => some (.vrnd hd (o.extractLsb' 12 6) (o.extractLsb' 6 6) (o.extractLsb' 0 6))
  | 0xC0 => if o &&& 0x00003#18 = 0x00000#18 then some (.mxa hd (o.extractLsb' 14 4) (o.extractLsb' 8 6) (o.extractLsb' 2 6)) else none
  | 0xC1 => if o &&& 0x00003#18 = 0x00000#18 then some (.mxg hd (o.extractLsb' 14 4) (o.extractLsb' 8 6) (o.extractLsb' 2 6)) else none
  | 0xC2 => if o &&& 0x00003#18 = 0x00000#18 then some (.mxt hd (o.extractLsb' 14 4) (o.extractLsb' 8 6) (o.extractLsb' 2 6)) else none
  | 0xC3 => if o &&& 0x0303F#18 = 0x00000#18 then some (.chb hd (o.extractLsb' 14 4) (o.extractLsb' 6 6)) else none
  | 0xC4 => if o &&& 0x00003#18 = 0x00000#18 then some (.chc hd (o.extractLsb' 14 4) (o.extractLsb' 8 6) (o.extractLsb' 2 6)) else none
  | 0xC5 => if o &&& 0x0003F#18 = 0x00000#18 then some (.chq hd (o.extractLsb' 12 6) (o.extractLsb' 6 6)) else none
  | 0xC6 => if o &&& 0x0303F#18 = 0x00000#18 then some (.chs hd (o.extractLsb' 14 4) (o.extractLsb' 6 6)) else none
  | 0xC7 => if o &&& 0x000FF#18 = 0x00000#18 then some (.chf hd (o.extractLsb' 8 10)) else none
  | 0xC8 => if o &&& 0x00003#18 = 0x00000#18 then some (.cht hd (o.extractLsb' 12 6) (o.extractLsb' 2 10)) else none
  | 0xC9 => if o &&& 0x000FF#18 = 0x00000#18 then some (.chx hd (o.extractLsb' 8 10)) else none
  | 0xCA => if o &&& 0x00003#18 = 0x00000#18 then some (.lkrd hd (o.extractLsb' 12 6) (o.extractLsb' 8 4) (o.extractLsb' 2 6)) else none
  | 0xCB => if o &&& 0x0303F#18 = 0x00000#18 then some (.lkld hd (o.extractLsb' 14 4) (o.extractLsb' 6 6)) else none
  | 0xCC => if o &&& 0x03FFF#18 = 0x00000#18 then some (.lkz hd (o.extractLsb' 14 4)) else none
  | 0xCD => if o &&& 0x0703F#18 = 0x00000#18 then some (.ems hd (o.extractLsb' 17 1) (o.extractLsb' 15 2) (o.extractLsb' 6 6)) else if o &&& 0x07FC0#18 = 0x04000#18 then some (.emsN hd (o.extractLsb' 17 1) (o.extractLsb' 15 2) (o.extractLsb' 0 6)) else none
  | 0xE0 => if o &&& 0x0303F#18 = 0x00000#18 then some (.cpy hd (o.extractLsb' 14 4) (o.extractLsb' 6 6)) else none
  | 0xE1 => if o &&& 0x0303F#18 = 0x00000#18 then some (.cpyr hd (o.extractLsb' 14 4) (o.extractLsb' 6 6)) else none
  | 0xE2 => if o &&& 0x0303F#18 = 0x00000#18 then some (.coll hd (o.extractLsb' 14 4) (o.extractLsb' 6 6)) else none
  | 0xE3 => if o &&& 0x0003F#18 = 0x00000#18 then some (.abrt hd (o.extractLsb' 12 6) (o.extractLsb' 6 6)) else none
  | 0xE4 => if o &&& 0x03000#18 = 0x00000#18 then some (.arm hd (o.extractLsb' 14 4) (o.extractLsb' 6 6) (o.extractLsb' 0 6)) else none
  | 0xE5 => if o &&& 0x03000#18 = 0x00000#18 then some (.pub hd (o.extractLsb' 14 4) (o.extractLsb' 6 6) (o.extractLsb' 0 6)) else none
  | 0xE6 => some (.rpsnd hd (o.extractLsb' 12 6) (o.extractLsb' 6 6) (o.extractLsb' 0 6))
  | 0xE7 => some (.rprcv hd (o.extractLsb' 12 6) (o.extractLsb' 6 6) (o.extractLsb' 0 6))
  | 0xE8 => if o &&& 0x000E0#18 = 0x00000#18 then some (.est hd (o.extractLsb' 12 6) (o.extractLsb' 8 4) (o.extractLsb' 0 5)) else none
  | 0xF0 => if o &&& 0x00003#18 = 0x00000#18 then some (.srrd hd (o.extractLsb' 12 6) (o.extractLsb' 2 10)) else none
  | 0xF1 => if o &&& 0x00003#18 = 0x00000#18 then some (.srwr hd (o.extractLsb' 8 10) (o.extractLsb' 2 6)) else none
  | 0xF2 => if o &&& 0x3FFFF#18 = 0x00000#18 then some (.eret hd) else if o &&& 0x3FFFF#18 = 0x00001#18 then some (.eretS hd) else none
  | 0xF3 => if o &&& 0x3C000#18 = 0x00000#18 then some (.icinv hd (o.extractLsb' 12 2) (o.extractLsb' 6 6) (o.extractLsb' 0 6)) else none
  | 0xF4 => if o &&& 0x00003#18 = 0x00000#18 then some (.eqrd hd (o.extractLsb' 12 6) (o.extractLsb' 8 4) (o.extractLsb' 2 6)) else none
  | 0xF5 => if o &&& 0x03000#18 = 0x00000#18 then some (.eqwr hd (o.extractLsb' 14 4) (o.extractLsb' 6 6) (o.extractLsb' 0 6)) else none
  | 0xF6 => if o &&& 0x3FFFF#18 = 0x00000#18 then some (.btinv hd) else none
  | 0xF7 => if o &&& 0x3F000#18 = 0x00000#18 then some (.tlbinv hd (o.extractLsb' 6 6) (o.extractLsb' 0 6)) else none
  | _ => none

/-- The guard field, the lane and the operands of a slot word (04 R78). -/
structure Raw where
  g : BitVec 3
  opc : BitVec 8
  l : BitVec 2
  ops : BitVec 18
deriving DecidableEq, Repr

/-- The fields of a slot word; the stop bit is read by `stopBit`. -/
def Raw.ofWord (w : SlotWord) : Raw :=
  ⟨w.extractLsb' 28 3, w.extractLsb' 20 8, w.extractLsb' 18 2, w.extractLsb' 0 18⟩

/-- STOP, bit 31 of a slot word. -/
def stopBit (w : SlotWord) : Bool := w.getLsbD 31

/-- The opcode of IMM (04 R82). -/
def isImm (w : SlotWord) : Bool := w.extractLsb' 20 8 = 0xFF#8

/-- IMMVAL of an IMM slot. -/
def immVal (w : SlotWord) : BitVec 20 := w.extractLsb' 0 20

/-- The word of a slot that is no IMM slot (04 R78). -/
def Raw.word (r : Raw) (stop : Bool) : SlotWord :=
  BitVec.ofBool stop ++ r.g ++ r.opc ++ r.l ++ r.ops

/-- The word of an IMM slot (04 R82). -/
def immWord (v : BitVec 20) (stop : Bool) : SlotWord := BitVec.ofBool stop ++ 0#3 ++ 0xFF#8 ++ v

/-- The words of IMM slots, the stop bit on the last. -/
def immWords : List (BitVec 20) → List SlotWord
  | [] => []
  | [v] => [immWord v true]
  | v :: vs => immWord v false :: immWords vs

/-- The encoder: the words of the bundle that holds one slot and its IMM slots (04 R78, R82). -/
def encode (i : Instr) : List SlotWord :=
  match i with
  | .imm v => [immWord v true]
  | i => Raw.word ⟨i.hdr.g, i.opc, i.hdr.l, i.ops⟩ i.hdr.x.isEmpty :: immWords i.hdr.x

/-- A slot of a bundle with its position, counted with the IMM slots, its IMM values, and the positions
of its IMM slots whose guard field is not zero. -/
structure RawSlot where
  pos : Nat
  raw : Raw
  x : List (BitVec 20)
  guarded : List Nat
deriving DecidableEq, Repr

/-- The instruction that a slot decodes to, whatever its operand values. -/
def RawSlot.instr? (r : RawSlot) : Option Instr := decodeOps r.raw.opc ⟨r.raw.g, r.raw.l, r.x⟩ r.raw.ops

/-- The IMM slots that an opcode accepts: for the waits RF decides (06 R117). -/
def RawSlot.immRange (r : RawSlot) : Nat × Nat :=
  let o := if r.raw.opc = 0x0B#8 ∨ r.raw.opc = 0x0C#8 then r.raw.ops &&& 0x01000#18 else 0#18
  match decodeOps r.raw.opc ⟨r.raw.g, r.raw.l, r.x⟩ o with
  | some i => i.immRange
  | none => (0, 0)

/-- The words of a bundle: from the first through the one whose stop bit is set (04 R73). -/
def takeBundle : Nat → List SlotWord → Option (List SlotWord)
  | 0, _ => none
  | _ + 1, [] => none
  | n + 1, w :: ws => if stopBit w then some [w] else (takeBundle n ws).map (w :: ·)

/-- The words that stand before the next slot that is no IMM slot. -/
def spanImm : List SlotWord → List SlotWord × List SlotWord
  | [] => ([], [])
  | w :: ws => if isImm w then ((w :: (spanImm ws).1), (spanImm ws).2) else ([], w :: ws)

/-- The positions of the IMM slots whose [30:28] is not zero; the first stands at `pos` (04 R82). -/
def guardedImms (pos : Nat) (ws : List SlotWord) : List Nat :=
  ((ws.zipIdx pos).filter fun p => p.1.extractLsb' 28 3 ≠ 0#3).map (·.2)

/-- The slots of a bundle with their IMM values (04 R82); structural on `fuel`, the bundle's length. -/
def groupSlots : Nat → Nat → List SlotWord → List RawSlot
  | 0, _, _ => []
  | _ + 1, _, [] => []
  | fuel + 1, pos, w :: ws =>
    let p := spanImm ws
    ⟨pos, Raw.ofWord w, p.1.map immVal, guardedImms (pos + 1) p.1⟩ ::
      groupSlots fuel (pos + 1 + p.1.length) p.2

/-- How many slots each unit takes (04 R76). -/
def unitMax : Unit' → Nat
  | .s | .v => 2
  | .none => 8
  | _ => 1

/-- The place of a unit in unit order (04 R76). -/
def unitRank : Unit' → Nat
  | .s => 1 | .m => 2 | .v => 3 | .x => 4 | .e => 5 | .b => 6 | .none => 0

/-- The unit of a slot. -/
def RawSlot.unit (r : RawSlot) : Unit' := unitOf r.raw.opc.toNat

/-- Case 2 of 04 R77: the position of the first slot beyond its unit's count. -/
def overUnit (rs : List RawSlot) : Option Nat :=
  (rs.find? fun r => r.unit ≠ .none ∧
    unitMax r.unit < (rs.filter fun q => q.pos ≤ r.pos ∧ q.unit = r.unit).length).map (·.pos)

/-- Case 3 of 04 R77: the position of the first slot after a slot of a later unit. -/
def outOfOrder (rs : List RawSlot) : Option Nat :=
  (rs.find? fun r => r.unit ≠ .none ∧
    (rs.any fun q => q.pos < r.pos ∧ unitRank r.unit < unitRank q.unit)).map (·.pos)

/-- Case 4 of 04 R77: the position of the first IMM slot that is one more than its owner accepts. -/
def surplusImm (rs : List RawSlot) : Option Nat :=
  (rs.find? fun r => r.immRange.2 < r.x.length).map fun r => r.pos + 1 + r.immRange.2

/-- Case 5 of 04 R77: the first slot that lacks a required IMM slot. -/
def missingImm (rs : List RawSlot) : Option Nat :=
  (rs.find? fun r => r.x.length < r.immRange.1).map (·.pos)

/-- A six-bit operand field of a slot. -/
def RawSlot.f (r : RawSlot) (lo : Nat) : Nat := (r.raw.ops.extractLsb' lo 6).toNat

/-- One read of a slot: of the vector file or the scalar file, as its first (0) or second (1) source. -/
structure PortRead where
  vec : Bool
  ord : Nat
  reg : Nat
deriving DecidableEq, Repr

/-- The register sources of a slot by its opcode (04 R83; 06 R117; 07 R143; 09 R194; 11 R243; 13
R287; 14 R326). A source that IMM slots replace is not read. The vector source of RPSND is its second
source, on port 2n + 1, as the worked bundle of 17 R346 reads it (DEDUCED, log 14). -/
def RawSlot.reads (r : RawSlot) : List PortRead :=
  let s (ord lo : Nat) : PortRead := ⟨false, ord, r.f lo⟩
  let v (ord lo : Nat) : PortRead := ⟨true, ord, r.f lo⟩
  let opc := r.raw.opc.toNat
  let none' := r.x.isEmpty
  let o := r.raw.ops
  if opc ∈ [0x02, 0x04] then [s 0 6]
  else if opc = 0x0A then [s 0 12, s 1 6]
  else if opc ∈ [0x0B, 0x0C] then if o.getLsbD 12 then [s 0 6] else []
  else if opc = 0x10 then [s 0 11]
  else if opc ∈ [0x3E, 0x48, 0x4A, 0x4C, 0x69, 0x7E, 0x7F, 0xA6, 0xC7, 0xC8, 0xC9, 0xCC, 0xE8] then []
  else if opc ∈ [0x41, 0x42] then if none' then [s 0 6, s 1 0] else [s 0 6]
  else if opc = 0x49 then if o.getLsbD 0 then [s 0 6] else []
  else if opc = 0x4B then if o &&& 0x30#18 = 0#18 then [s 0 6] else []
  else if opc ∈ [0x21, 0x2B, 0x2D, 0x2F, 0x31, 0x33, 0x35, 0x3C, 0x3D, 0x43, 0x44, 0x47, 0x5D, 0x5E] then [s 0 6]
  else if 0x20 ≤ opc ∧ opc < 0x5F ∧ ¬(0x4D ≤ opc ∧ opc ≤ 0x4F) then [s 0 6, s 1 0]
  else if opc ∈ [0x60, 0x62, 0x6B, 0x6C, 0x6D, 0x6E] then [s 0 6]
  else if opc ∈ [0x61, 0x6A] then [s 0 6, s 1 12]
  else if opc = 0x63 then [s 0 6, v 0 12]
  else if opc ∈ [0x64, 0x68] then [s 0 6, s 1 0]
  else if opc = 0x65 then [s 0 6, s 1 0, v 0 12]
  else if opc = 0x66 then [s 0 6, v 0 0]
  else if opc = 0x67 then [s 0 6, v 0 12, v 1 0]
  else if 0x6F ≤ opc ∧ opc ≤ 0x7B then [s 0 6, s 1 0]
  else if opc ∈ [0x8A, 0x8B, 0x8C] then if none' then [v 0 6, v 1 0] else [v 0 6]
  else if opc = 0xA7 then if o.getLsbD 0 then [s 0 6] else []
  else if opc ∈ [0xAB, 0xAD, 0xAF] then [s 0 6]
  else if opc ∈ [0x97, 0xAC, 0xAE] ∨ (0xB0 ≤ opc ∧ opc ≤ 0xB9) then [v 0 6]
  else if opc ∈ [0xBA, 0xBB] then [v 0 6, s 1 0]
  else if opc = 0xBC then [s 0 6, s 1 0]
  else if 0x80 ≤ opc ∧ opc < 0xBD ∧ opc ≠ 0x9F then [v 0 6, v 1 0]
  else if opc ∈ [0xC0, 0xC1, 0xC2, 0xC4] then [s 0 8, s 1 2]
  else if opc ∈ [0xC3, 0xC5, 0xC6, 0xCB] then [s 0 6]
  else if opc = 0xCA then [s 0 2]
  else if opc = 0xCD then if o.getLsbD 14 then [] else [s 0 6]
  else if opc ∈ [0xE0, 0xE1, 0xE2, 0xE3, 0xE7] then [s 0 6]
  else if opc ∈ [0xE4, 0xE5] then [s 0 6, s 1 0]
  else if opc = 0xE6 then [s 0 6, v 1 0]
  else if opc ∈ [0xF1, 0xF4] then [s 0 2]
  else if opc ∈ [0xF3, 0xF5, 0xF7] then [s 0 6, s 1 0]
  else []

/-- The (file, port, register) that a slot reads through; s0, the stream registers and lane 3 use no
port (04 R83). -/
def RawSlot.ports (r : RawSlot) : List (Bool × Nat × Nat) :=
  if r.raw.l = 3#2 then [] else
  (r.reads.filter fun p => if p.vec then decide (p.reg < 48) else decide (p.reg ≠ 0)).map fun p =>
    (p.vec, 2 * r.raw.l.toNat + p.ord, p.reg)

/-- Two slots clash when both read through one port and name different registers (04 R83). -/
def portsClash (a b : RawSlot) : Bool :=
  a.ports.any fun p => b.ports.any fun q => decide (p.1 = q.1 ∧ p.2.1 = q.2.1 ∧ p.2.2 ≠ q.2.2)

/-- Case 6 of 04 R77: the positions of every slot that over-subscribes a port. -/
def clashing (rs : List RawSlot) : List Nat :=
  (rs.filter fun r => rs.any fun q => decide (q.pos ≠ r.pos) && portsClash r q).map (·.pos)

/-- Case 7 of 04 R77: lane 2 on a V slot, or on an M slot that reads the vector file. -/
def laneTwo (rs : List RawSlot) : List Nat :=
  (rs.filter fun r => decide (r.raw.l = 2#2) &&
    (decide (r.unit = .v) || decide (r.raw.opc.toNat ∈ [0x63, 0x65, 0x66, 0x67]))).map (·.pos)

/-- A slot itself passes the checks of order 4 of 04 R85 that need no state. -/
def RawSlot.sound (r : RawSlot) : Bool :=
  decide (r.raw.l ≠ 3#2) && match r.instr? with | some i => i.legal | none => false

/-- A slot and its IMM slots pass the checks of order 4 of 04 R85 that need no state. -/
def RawSlot.decodes (r : RawSlot) : Bool := r.guarded.isEmpty && r.sound

/-- The positions that fail those checks: the slot's own and its IMM slots' (04 R82, R85). -/
def RawSlot.unsound (r : RawSlot) : List Nat := (if r.sound then [] else [r.pos]) ++ r.guarded

/-- The BRK slots of a bundle. -/
def brks (rs : List RawSlot) : List Nat := (rs.filter fun r => decide (r.raw.opc = 0x0F#8)).map (·.pos)

/-- The mask whose bit k is set for each position k listed (04 R85). -/
def posMask (ps : List Nat) : BitVec 8 := ps.foldl (fun m k => m ||| (1#8 <<< k)) 0#8

/-- The bundle that a list of slot words, stop bit on the last, decodes to: its slots with their
positions, or the first check that fails and the FMASK it sets (04 R77 cases 2 to 7, R85 order 3
and 4; 14 R324 for BRK). -/
def decodeBundle (ws : List SlotWord) : Except (DecodeErr × BitVec 8) (List (Nat × Instr)) :=
  let rs := groupSlots ws.length 0 ws
  match overUnit rs with
  | some p => .error (.unitCount, posMask [p])
  | none => match outOfOrder rs with
  | some p => .error (.unitOrder, posMask [p])
  | none => match (if (ws.head?.map isImm).getD true then some 0 else surplusImm rs) with
  | some p => .error (.immPlace, posMask [p])
  | none => match missingImm rs with
  | some p => .error (.immMissing, posMask [p])
  | none =>
    if clashing rs ≠ [] then .error (.portClash, posMask (clashing rs))
    else if laneTwo rs ≠ [] then .error (.laneTwo, posMask (laneTwo rs))
    else if 2 ≤ (brks rs).length ∧ (rs.all fun r => decide (r.raw.opc = 0x0F#8) || r.decodes) then
      .error (.brkGuard, posMask (rs.flatMap (·.unsound) ++ brks rs))
    else if (rs.all RawSlot.decodes) = false then
      .error (.badSlot, posMask (rs.flatMap (·.unsound) ++
        if 2 ≤ (brks rs).length then brks rs else []))
    else .ok (rs.filterMap fun r => r.instr?.map fun i => (r.pos, i))

/-- The decoder on one instruction: the slot that a bundle of one slot and its IMM slots holds. An
IMM slot alone decodes to IMM; as a bundle it has no owner (04 R82). -/
def decode (ws : List SlotWord) : Option Instr :=
  match ws with
  | [w] => if isImm w ∧ w.extractLsb' 28 3 = 0#3 then some (.imm (immVal w)) else
    match decodeBundle ws with
    | .ok [(_, i)] => some i
    | _ => none
  | ws => match decodeBundle ws with
    | .ok [(_, i)] => some i
    | _ => none

/-- A slot that decode accepts as a bundle of its own: the right number of IMM slots, a lane that its
files have, and every field in range. -/
def Instr.wf (i : Instr) : Bool :=
  match i with
  | .imm _ => true
  | i => decide (i.opc ≠ 0xFE) && decide (i.immRange.1 ≤ i.hdr.x.length) &&
    decide (i.hdr.x.length ≤ i.immRange.2) && decide (i.hdr.l ≠ 3) &&
    !(decide (i.hdr.l = 2) && (decide (unitOf i.opc.toNat = .v) || i.readsVectorM)) && i.legal

/-- The words of the table's row w (spec/opcode_table.json): its word with the stop bit as framing,
and the IMM slots that its instruction requires, their IMMVAL 0 (log 7). -/
def tableWords (w : Nat) : List SlotWord :=
  let v := BitVec.ofNat 32 w
  let r : RawSlot := ⟨0, Raw.ofWord v, [], []⟩
  if isImm v then [v ||| 0x80000000#32] else
  let n := if r.raw.opc = 0x0F#8 then 0 else r.immRange.1
  if n = 0 then [v ||| 0x80000000#32] else (v &&& 0x7FFFFFFF#32) :: immWords (List.replicate n 0)

/-- The instruction that the decoder reads from a row's word. Where the row's word with every open bit 0 is
no well-formed slot (a field of 0 is reserved there, so a bundle of it traps ILLEGAL_OP), the row's
instruction with those fields is read without the checks of form (log 7). -/
def decodeTableWord (nbits w : Nat) : Option Instr :=
  if nbits = 32 then
    match decode (tableWords w) with
    | some i => some i
    | none =>
      let v := BitVec.ofNat 32 w
      decodeOps (v.extractLsb' 20 8)
        ⟨v.extractLsb' 28 3, v.extractLsb' 18 2, (tableWords w).tail.map immVal⟩ (v.extractLsb' 0 18)
  else none

end Sys2Proof
end

