-- ==== Sys2Proof/Machine/Crc.lean ====
section
/-!
DEFINITION. The CRC-32C of RFC 3720, the check value of every 64-byte line (15 R332).
-/
namespace Sys2Proof.Machine

/-- So many shifts of the register by one bit, the polynomial reflected. -/
def crcBits (r : BitVec 32) : Nat → BitVec 32
  | 0 => r
  | n + 1 => crcBits (if r.getLsbD 0 then (r >>> 1) ^^^ 0x82F63B78#32 else r >>> 1) n

/-- The CRC-32C of bytes in address order. -/
def crc32c (bs : List Byte) : BitVec 32 :=
  ~~~ (bs.foldl (fun r b => crcBits (r ^^^ b.setWidth 32) 8) 0xFFFFFFFF#32)

end Sys2Proof.Machine
end

