-- ==== Sys2Proof/Machine/State.lean ====
section
/-!
DEFINITION. The state of one KA-41 device as plain data: everything the manual gives the machine, with
the value of each piece right after reset (15 R336; log 2 and log 3 where the manual states none).
A `key` is a byte address over the four memory tiers: tier t, physical address p is t * 2^52 + p
(00 R4, 08 R167): 0 HBM4E, 1 LP tier, 2 CXL, 3 companion memory.
-/
namespace Sys2Proof.Machine

/-- Why the machine stops. No meaning of this model raises one: every trap and every failed access of
the manual has an effect that the manual describes. The type is the interface's; it is safe. -/
inductive Fault where
  /-- Raised by nothing (safe). -/
  | none
deriving DecidableEq, Repr

/-- Why an instruction has no meaning here. -/
inductive Refusal where
  /-- The arm of `exec` has no meaning yet (safe). -/
  | notModelled (mnemonic : String)
deriving DecidableEq, Repr

/-- A completion token (05 R106). -/
structure Token where
  count : BitVec 16
  fcnt : BitVec 16
  xl : Bool
  f : Bool
  frec : BitVec 48
deriving DecidableEq, Repr

/-- A bank format register (08 R183): bits [9:0] of word 0 and PTAB. -/
structure BankFmt where
  word : BitVec 10
  ptab : Word
deriving DecidableEq, Repr

/-- A stream element fetched ahead of the head (08 R187): its value, or what it will trap with: cause,
DETAIL and SOURCE of its fault record (14 R311). -/
structure Fetched where
  elem : Nat
  val : VReg
  bad : Option (Cause × Nat × Nat)
deriving DecidableEq, Repr

/-- The binding of a stream register (05 R100, 08 R186, R187); `asked` is the key of the request that it
has made of a lender. -/
structure Stream where
  desc : List Word
  head : Nat
  wit : Witness
  ahead : List Fetched
  asked : Option Nat
deriving DecidableEq, Repr

/-- A register of the scalar (0), vector (1) or witness (2) file (05 R111). -/
structure Dst where
  file : Nat
  reg : Nat
deriving DecidableEq, Repr

/-- A strict mark: register, token, cover value (05 R111). -/
structure Mark where
  dst : Dst
  tok : Nat
  cover : BitVec 16
deriving DecidableEq, Repr

/-- A posting in flight (05 R107), or with `image` the write of a token's image that stands among them
in issue order (R110). `clash`: the other results, in order, that have landed since its issue on a
destination of it with no wait between, with the parts of each that no later one has written (05 R112). -/
structure Posting where
  id : Nat
  tok : Nat
  cover : BitVec 16
  dst : List Dst
  ready : Bool
  writes : List Write
  fault : Option PFault
  clash : List Write
  image : Option Token
deriving DecidableEq, Repr

/-- A tokened result that has landed but that no completed wait covers yet (05 R112). -/
structure Soft where
  tok : Nat
  cover : BitVec 16
  dst : List Dst
  writes : List Write
  clash : List Write
deriving DecidableEq, Repr

/-- A fixed-latency result in flight (04 R89, R90). `amb`: the tokened results of its register that a
wait has covered since its slot issued, with the parts of each that no later result has written (05 R112).
`bad`: its check value fails (14 R305). -/
structure Landing where
  due : Nat
  write : Write
  amb : List Write
  bad : Option Word
deriving DecidableEq, Repr

/-- One link of a chain instance that this device holds (10 R222, R227, R237). `started` is the issued
cycle of its CHB (R233); `acked`: the successor has acknowledged its value (R227); `gen` counts the splices of its
index, so that an entry queued for an earlier binding is known (R238, R241). A link with COUNT 0
and no predecessors counts in `issued` the bundles that have ended since its CHB (11 R252). -/
structure Link where
  idx : Nat
  state : Nat
  core : Nat
  slot : Nat
  recPa : Nat
  isOpen : Bool
  issued : Nat
  applied : Nat
  arrived : Nat
  acked : Bool
  spl : Bool
  flags : Flags
  cause : Nat
  started : Nat
  arrivals : List (Nat × Bool × List Word)
  gen : Nat
deriving DecidableEq, Repr

/-- A chain instance (10 R222 to R242): its hop table's words, its chain state, the links bound on
this device, the messages held in the hop port, what the arbiter has been told of links of other
devices: a link state, 8 for one spliced since the last thaw, 13 for one LOST whose value its successor had; and
the last word that each link of another device has announced, bits [61:0] of R237 (log 10). -/
structure Chain where
  job : Nat
  ch : BitVec 10
  inst : BitVec 16
  digest : BitVec 64
  table : List Word
  state : Nat
  links : List Link
  held : List Event
  reported : List (Nat × Nat)
  words : List (Nat × Word)
deriving DecidableEq, Repr

/-- An entry of an X queue (10 R219): the slot with the values, masks and bank formats sampled at its
issue (10 R221, 09 R203). `id` numbers it among the accesses; `seq` is a close's store number, `gen` the binding of its link (10 R238). -/
structure XEntry where
  id : Nat
  instr : Instr
  a : Word
  b : Word
  x : BitVec 48
  y : BitVec 32
  fmts : List BankFmt
  recPa : Nat
  post : Option Nat
  wi : List Word
  seq : Nat
  ch : BitVec 10
  inst : BitVec 16
  idx : Nat
  pc : Pc
  slot : Nat
  gen : Nat
deriving DecidableEq, Repr

/-- An entry of the entry table (01 R15). -/
structure Entry where
  pc : Nat
  run : Nat
  gmax : Nat
  lix : Nat
deriving DecidableEq, Repr

/-- An entry of the yield table (01 R16). -/
structure Yield where
  off : Nat
  run : Nat
  lix : Nat
deriving DecidableEq, Repr

/-- What validation keeps of a code object (01 R13 to R18; log 17): where it lies, its sizes,
latencies, MOLC and tables, a liveness entry as the number of its 26 bytes. -/
structure ObjInfo where
  ptr : Word
  flags : Nat
  osize : Nat
  codeoff : Nat
  codelen : Nat
  molc : Nat
  lat : List Nat
  entries : List Entry
  yields : List Yield
  lives : List Nat
deriving DecidableEq, Repr

/-- An object of no bytes: what a core holds before its first dispatch (log 2). -/
def ObjInfo.none : ObjInfo := ⟨0, 0, 0, 0, 0, 0, List.replicate 16 1, [], [], []⟩

/-- The registers of a continuation (05 R95 to R114). The scalar, predicate and token files go on with
the handler bank (14 R308): s56 to s63 as 64 to 71, p6 and p7 as bits 8 and 9, t30 and t31 as 32, 33. -/
structure Regs where
  s : Vector Word 72
  v : Vector VReg 48
  p : BitVec 10
  m : Vector (BitVec 64) 8
  w : Vector Witness 16
  t : Vector Token 34
  x : Vector (BitVec 48) 4
  y : Vector (BitVec 32) 4
  q : Vector (Option Stream) 8
  fmt : Vector BankFmt 48
  fpst : Flags
  view : Witness
  ras : Vector (BitVec 32) 32
  rascnt : Nat
  rasn : BitVec 8
  marks : List Mark
deriving DecidableEq, Repr

/-- The system registers that a trap writes or a handler owns (14 R328), the substituted slot word
waiting for one fetch (14 R310), and of a trap with cause XLATE the level at which the walk failed and the
pointer of the access, which a freeze that the handler chooses reports (14 R311). -/
structure Sys where
  cause : BitVec 6
  epc : Pc
  fmask : BitVec 8
  tval : Word
  frec : BitVec 48
  hreason : BitVec 2
  gmask : BitVec 24
  hact : BitVec 8
  subslot : BitVec 32
  dbg : Bool
  armed : Option SlotWord
  xl : Option (Nat × Word)
deriving DecidableEq, Repr

/-- What a core is doing (03 R63, 06 R123, R126, 12 R278). -/
inductive Phase where
  | idle | running | draining | sync
deriving DecidableEq, Repr

/-- How the issue of the last bundle or slot ended, a MODEL field (log 5): with effect, with effect at a
yield that kept its core, with none because it waits, in a trap, off its core. -/
inductive Status where
  | ok | yielded | stalled | trapped | left
deriving DecidableEq, Repr

/-- The continuation a core runs (01 R20, R24, R26; 14 R328): its record, job and launch, the fields of
the record that issue uses, its code object and the job's handler object, and the counts of issued
cycles: of the stretch, since dispatch, and over the lifetime (LIC); `wsc` is the widest scope of the
stores issued since dispatch, or observed by its loads (12 R271; log 12), `rstat` and `rcause` what a drain will retire it with, `rise`
the LIC to which an event of 12 R275 raises it, which a stalled wait has already reached (R277; log 24). -/
structure Cont where
  recPtr : Word
  recPa : Nat
  job : Nat
  launch : Nat
  launchIx : BitVec 16
  cobj : BitVec 16
  unit : BitVec 32
  member : Nat
  gsize : Nat
  gang : List Nat
  rank : Nat
  strict : Bool
  debug : Bool
  det : Bool
  frame : Word
  obj : ObjInfo
  hobj : Option ObjInfo
  handler : Bool
  lic : Nat
  run : Nat
  stretch : Nat
  cycles : Nat
  yix : Nat
  lix : Nat
  openk : Nat
  prq : Bool
  rstat : Nat
  rcause : Nat
  wsc : Nat
  rise : Nat
deriving DecidableEq, Repr

/-- An effect of a slot that holds for the bundles after its own (04 R84; 05 R110; 09 R203, R204, R207;
14 R326): a bank format, the view, a binding, the pop of a stream, a token, an edge mask, a predicate or
return-address word that a system register names, a strict mark. -/
inductive Later where
  | tok (t : Nat) (k : Token)
  | edgeX (n : Nat) (m : BitVec 48)
  | edgeY (n : Nat) (m : BitVec 32)
  | ras (n : Nat) (v : BitVec 32)
  | rascnt (n : Nat)
  | rasn (v : BitVec 8)
  | scalar (r : Nat) (v : Word)
  | preds (v : BitVec 2)
  | fpst (f : Flags)
  | fmt (bank : Nat) (f : BankFmt)
  | view (w : Witness)
  | bind (q : Nat) (b : Option Stream)
  | pop (q : Nat)
  | mark (m : Mark)
deriving DecidableEq, Repr

/-- Issue of bundles (04 R84 to R90): MODEL counters `now` (issued cycles on this core) and `slot`, the
decoded bundle, `base` the first access number of the bundle in turn, the pcs, the results and postings in flight, and the X queue. `extra` are the empty
cycles of a DLY of this bundle, `fails` its slots that fail an issue check (position, cause, SR.TVAL,
FREC) and `xl` the failing level and the pointer of a translation, `late` the SR.TVAL of a failing result that
landed while the core stalled for a handler entry (14 R305; log 13), `also` and `alsoG` the other failing slots and members, `fresh` the results of the bundle in turn, `reply` what a stalled bundle waits for or has been answered, by slot * 8 + number: none while
awaited, else a head word, 0 for success, and data. -/
structure Pipe where
  pc : Pc
  npc : Pc
  status : Status
  slot : Nat
  bundle : List (Nat × Instr)
  later : List Later
  extra : Nat
  now : Nat
  base : Nat
  fails : List (Nat × Cause × Word × BitVec 48)
  xl : Option (Nat × Word)
  late : Option Word
  also : BitVec 8
  alsoG : BitVec 24
  fresh : List Landing
  land : List Landing
  soft : List Soft
  posts : List Posting
  xq : List XEntry
  cur : List (BitVec 10 × BitVec 16)
  reply : List (Nat × Option (List Nat))
deriving DecidableEq, Repr

/-- One byte of a cache line with its valid bit set: its key, value and dirty bit (08 R179), of a dirty
byte the (stack, channel) of its memory port (R163), the entry of the store that wrote it (12 R266), and whether a
store that covers its whole line has formed a new check value (15 R333). -/
structure L1Byte where
  key : Nat
  val : Byte
  dirty : Bool
  chan : Nat × Nat
  who : Word
  full : Bool
deriving DecidableEq, Repr

/-- The storage of a core: A-space, W-space and link store in linear order (08 R181, R182), its L1
(R179), and the places whose check value fails (15 R333). -/
structure Store where
  a : List Host.Cell
  w : List Host.Cell
  k : List Host.Cell
  l1 : List L1Byte
  bad : List BadPlace
deriving DecidableEq, Repr

/-- A logical core (00 R6). -/
structure Core where
  id : Nat
  phase : Phase
  acct : Int
  cont : Cont
  regs : Regs
  sys : Sys
  pipe : Pipe
  store : Store
deriving DecidableEq, Repr

/-- A job that has been accepted (01 R26, 03 R53, R54), with the outcome of each object's validation
(R18: handle, failed check or 0, object) and of the handler object's (14 R307), and the 13-bit core
index from which GANG segments and slices are counted. `frec` is the offset of the last fault record in its
buffer 0, 0 for none (R20). -/
structure Job where
  pa : Nat
  clusters : BitVec 48
  tenant : BitVec 16
  btab : Nat
  btn : Nat
  cotab : Word
  cotn : Nat
  modes : BitVec 8
  slice : Nat
  gres : Nat
  objs : List (Nat × Nat × ObjInfo)
  handler : Option (Option ObjInfo)
  frec : BitVec 48
deriving DecidableEq, Repr

/-- A level that has been started, with the kind-specific words read then (01 R27, R350), its parent's
record, the pointer that named it, its index at its parent, a graph's edges and the keys of its launch
records, whether it is still WAITING, and whether every child that ended has ended DONE. -/
structure Level where
  pa : Nat
  ptr : Word
  kind : Nat
  job : Nat
  parent : Nat
  index : Nat
  words : List Word
  edges : List (Nat × Nat)
  kids : List Nat
  waiting : Bool
  ok : Bool
deriving DecidableEq, Repr

/-- A continuation that has been created and whose retirement is not yet counted (03 R60 to R63, 14
R314, 15 R330). `since` orders READY records; `owed` are the stores, as (agent, number), that must
ripen first; `lic` serves the frontier while it does not run (12 R276); `spawning` while its SPAWN has
not written it; `posts` are its postings in flight with their members, `kept` the members' registers and link slots as they stood
at its last switch, `forced` the registers saved whatever LIX named, tokens as file 3 (R316, R317). -/
structure Rec where
  pa : Nat
  ptr : Word
  job : Nat
  launch : Nat
  cluster : Nat
  since : Nat
  lic : Nat
  posts : List (Nat × Posting)
  owed : List (Nat × Nat)
  retired : Bool
  done : Bool
  spawning : Bool
  kept : List (Regs × List Host.Cell)
  forced : List (Nat × Dst)
deriving DecidableEq, Repr

/-- A command of an engine queue (09 R208 to R217, 14 R319). `row`, `col` and `dcol` are its progress:
rows or segments completed and the source and destination bytes of the current row; `bytes` the
destination bytes written; `freed`: source-free reached, or of a trigger met; `written`: every byte accepted;
`was`: the bytes that it has overwritten, by place, as they stood before it (R211). -/
structure Cmd where
  id : Nat
  kind : Nat
  job : Nat
  recPa : Nat
  recPtr : Word
  core : Nat
  pc : Pc
  slot : Nat
  desc : List Word
  descPtr : Word
  row : Nat
  col : Nat
  dcol : Nat
  bytes : Nat
  flags : Flags
  tok : Option (Nat × BitVec 16)
  tsf : Option (Nat × BitVec 16)
  tokPost : Option Nat
  tsfPost : Option Nat
  freed : Bool
  written : Bool
  wo : Word
  wi : List Word
  was : List Host.Cell
deriving DecidableEq, Repr

/-- Why a command fails (09 R213, R214): its status, cause, pointer, and for XLATE the level, for POISON the
entry. -/
structure EngFail where
  code : Nat
  cause : Cause
  addr : Word
  detail : Nat
  wit : Word
deriving DecidableEq, Repr

/-- The end of a command, which goes on once word 0x38 of its record has been written (09 R213, 13 R300): its
engine, the word and what it ends with, and of a record that a lender holds whether the write is on its way,
and the answer (08 R175). -/
structure Ending where
  eng : Nat
  cmd : Cmd
  word : Option Nat
  fail : Option EngFail
  sent : Bool
  answer : Option PeerResult
deriving DecidableEq, Repr

/-- A copy engine: its queue of at most 32 commands, the core that holds it by EQRD (08 R188, 14 R320)
with the commands that were present then, and of the piece that its head command copies the values read
so far, the destination's bank format as it stood at the first read (09 R203), whether a request to a lender
is outstanding, and the lender's answer (08 R175). -/
structure Engine where
  queue : List Cmd
  holder : Option Nat
  shown : List Cmd
  vals : List Nat
  fmt : Option BankFmt
  asked : Bool
  waiting : List PeerResp
deriving DecidableEq, Repr

/-- A store agent (12 R265 to R269): device and number, T_a, the stores whose entries may not yet ripen for every
agent, with how far each may (0 for none, 1 for its own agent, 2 for its cluster), the stores that have
failed, and of a core the entries of other agents' stores that its loads have returned before those were ripe,
each with the number of the load (R266). -/
structure Agent where
  dev : BitVec 14
  agent : Nat
  issued : Nat
  pend : List (Nat × Nat)
  failed : List Nat
  seen : List (Nat × Word)
deriving DecidableEq, Repr

/-- The router of a core for one TID (12 R280, R281, 13 R296 to R298): contributions taken, the round
in progress with the packets that wait, contributions that wait, and results not yet received, numbered in the
order of the device. -/
structure Router where
  core : Nat
  tid : BitVec 16
  taken : Nat
  cur : Option Contribution
  inputs : List TreePacket
  queue : List Contribution
  results : List (Nat × TreeDesc × List Word × BitVec 64)
deriving DecidableEq, Repr

/-- A collective run accepted on this device (12 R282 to R285): the engine and command that carry it
and its progress: 0 queued, 1 digest exchange, 2 ring, 3 waiting for the commit, 4 committed; `met` are the digests
that have arrived, by neighbour device; `wrote`: it has written its own BUF with PRS 0 (R286). -/
structure Run where
  job : Nat
  eng : Nat
  cmd : Nat
  cid : BitVec 16
  seq : BitVec 16
  desc : List Word
  digest : BitVec 64
  stage : Nat
  step : Nat
  sent : Bool
  wrote : Bool
  met : List (BitVec 14 × BitVec 64)
deriving DecidableEq, Repr

/-- What a device remembers of a CID of a job (12 R286, 13 R302): the last SEQ run or aborted, the mark of
NO_PRESERVE, whether the second pass of an abort decision is still awaited, NDEV and RANK of its
accepted record (no device while none has been accepted), whether its last run wrote its BUF, the SEQs
that have committed here, and of rank 0 the last SEQ for which it decided to abort. -/
structure CidMark where
  job : Nat
  cid : BitVec 16
  last : Option (BitVec 16)
  marked : Bool
  awaits : Bool
  ndev : Option (BitVec 14)
  rank : Nat
  wrote : Bool
  closed : List (BitVec 16)
  aborted : Option (BitVec 16)
deriving DecidableEq, Repr

/-- An installed translation (08 R168): tenant, tier, first virtual address, size, key of its page. -/
structure Tlb where
  tenant : Nat
  tier : Nat
  va : Nat
  size : Nat
  key : Nat
deriving DecidableEq, Repr

/-- A slot word of a code section that a store has overwritten and some instruction cache may still
hold (04 R75): its key, an old value, and the cores whose caches have dropped it since. -/
structure OldWord where
  key : Nat
  word : SlotWord
  dropped : List Nat
deriving DecidableEq, Repr

/-- The host register window (03 R52; 08 R165; 14 R312; 15 R329). -/
structure HostRegs where
  sqbase : BitVec 52
  sqsize : BitVec 16
  sqtail : BitVec 16
  sqhead : BitVec 16
  rqbase : BitVec 52
  rqtail : BitVec 16
  rqhead : BitVec 16
  prqGo : Bool
  prqRec : BitVec 48
  trbase : BitVec 52
  trn : BitVec 16
  ltbase : BitVec 59
  ltn : BitVec 16
  gtbase : BitVec 60
  gtn : BitVec 16
  retpc : List (BitVec 96)
  refused : BitVec 16
  failcode : BitVec 8
  phase : BitVec 3
  dumped : Bool
  fatal : Bool
  lpz : Bool
  fwok : Bool
  ready : Bool
  dumplen : BitVec 16
  dumpbase : BitVec 36
  pcap : BitVec 16
  pnow : BitVec 16
deriving DecidableEq, Repr

/-- Memory and what the ports and caches of the device hold of it (08 R162 to R180; 01 R33; 04 R75):
all tiers as one list of cells, the bytes that the cluster caches hold, as (cluster, byte) (R180), poisoned
lines by line number (15 R333), the bytes of buffer and lease tables that the ports still use, those of page
tables that walks still use (R168), TRBASE and TRN, LTBASE and LTN as they stood before a write that no
invalidation has followed (R165), the overwritten code words, installed translations and the LP-tier
progress. `waits`, a MODEL field: the operation in turn has met a held port (R171, R177; 15 R337; log 12).
`who` is the entry of the store that last wrote a byte of memory or of a core's storage, by place (12 R266). -/
structure Mem where
  cells : List Host.Cell
  who : List (Nat × Word)
  cc : List (Nat × L1Byte)
  poison : List Nat
  btOld : List Host.Cell
  ptOld : List Host.Cell
  walkRoot : Option (Nat × Nat)
  leaseRoot : Option (Nat × Nat)
  icOld : List OldWord
  tlb : List Tlb
  lpZeroed : Nat
  refresh : List Nat
  chanHeld : List (Nat × Nat)
  rhb : List Word
  waits : Bool
deriving DecidableEq, Repr

/-- The slot tables of the four dies (08 R192, R193): entries, MODE words, and the accepted writes that
wait for the next frame. -/
structure SlotTables where
  entries : List (List Word)
  modes : List Bool
  pending : List (Nat × Word)
deriving DecidableEq, Repr

/-- The scheduler's and the levels' state (03 R52 to R70, 15 R330, R331), with what firmware has
disabled (R68). -/
structure Sched where
  jobs : List Job
  levels : List Level
  recs : List Rec
  responses : List (Word × Word)
  offClusters : BitVec 48
  offCores : List Nat
  spares : List Nat
  retire : List Nat
  faultSeq : BitVec 64
deriving DecidableEq, Repr

/-- The units beside the cores: engines and the commands that are ending, store agents, chains, routers and collectives, and the frontiers
that borrowers have sent, as (device, launch, interval) (12 R276). -/
structure Units where
  engines : Vector Engine 64
  endings : List Ending
  agents : List Agent
  chains : List Chain
  hopPort : List Event
  routers : List Router
  runs : List Run
  cids : List CidMark
  packets : List RingPacket
  messages : List Event
  fronts : List (BitVec 14 × Nat × Option Nat)
  images : List (Nat × Cmd)
deriving DecidableEq, Repr

/-- One KA-41 device. `core` is the core whose turn it is and `parked` the others that have run; a core
that is in neither is `Core.reset` of its number. `agenda` holds the operations and messages in
flight, `inputs` what the outside world does next, `outbox` the packets for other devices. -/
structure State where
  core : Core
  parked : List Core
  mem : Mem
  sched : Sched
  units : Units
  host : HostRegs
  slots : SlotTables
  measured : Option (BitVec 512)
  devKey : Option (BitVec 256)
  devnum : BitVec 14
  peers : List (BitVec 14)
  agenda : List Event
  inputs : List Event
  outbox : List (BitVec 14 × Event)
  tick : Nat
  nextId : Nat
deriving DecidableEq, Repr

/-- A token after first dispatch (05 R97). -/
def Token.zero : Token := ⟨0, 0, false, false, 0⟩
/-- A bank format after first dispatch and after power-up (05 R97, 08 R183). -/
def BankFmt.zero : BankFmt := ⟨0, 0xFEDCBA9876543210⟩

/-- The registers of 05 R97, with the handler bank at its power-up values (14 R308). -/
def Regs.reset : Regs where
  s := Vector.replicate 72 0
  v := Vector.replicate 48 0
  p := 0
  m := Vector.replicate 8 0
  w := Vector.replicate 16 0
  t := Vector.replicate 34 Token.zero
  x := Vector.replicate 4 0
  y := Vector.replicate 4 0
  q := Vector.replicate 8 none
  fmt := Vector.replicate 48 BankFmt.zero
  fpst := 0
  view := 0
  ras := Vector.replicate 32 0
  rascnt := 0
  rasn := 0
  marks := []

/-- The system registers at reset (14 R328). -/
def Sys.reset : Sys := ⟨0, 0, 0, 0, 0, 0, 0, 0, 0, false, none, none⟩

/-- No continuation (log 2). -/
def Cont.reset : Cont :=
  ⟨0, 0, 0, 0, 0, 0, 0, 0, 0, [], 0, false, false, false, 0, ObjInfo.none, none, false, 0, 0, 0, 0,
    0xFFFF, 0xFFFF, 0, false, 0, 0, 0, 0⟩

/-- Nothing in flight (log 2). -/
def Pipe.reset : Pipe := ⟨0, 0, .ok, 0, [], [], 0, 0, 0, [], none, none, 0, 0, [], [], [], [], [], [], []⟩

/-- A logical core after power-up. -/
def Core.reset (id : Nat) : Core :=
  ⟨id, .idle, 0, Cont.reset, Regs.reset, Sys.reset, Pipe.reset, ⟨[], [], [], [], []⟩⟩

/-- The host registers at reset (03 R52; 08 R165; 14 R312; 15 R329). -/
def HostRegs.reset : HostRegs :=
  ⟨0, 0, 0, 0, 0, 0, 0, false, 0, 0, 0, 0, 0, 0, 0, List.replicate 12 0, 0, 0, 0, false, false, false,
    false, false, 0, 0, 0, 0⟩

/-- An idle engine. -/
def Engine.reset : Engine := ⟨[], none, [], [], none, false, []⟩

/-- The device right after reset (15 R336): power-up has not begun, nothing is listed in memory, no
job exists. -/
def State.reset : State where
  core := Core.reset 0
  parked := []
  mem := ⟨[], [], [], [], [], [], none, none, [], [], 0, [], [], List.replicate 12 0, false⟩
  sched := ⟨[], [], [], [], 0, [], [], [], 0⟩
  units := ⟨Vector.replicate 64 Engine.reset, [], [], [], [], [], [], [], [], [], [], []⟩
  host := HostRegs.reset
  slots := ⟨List.replicate 4 (List.replicate 64 0xFFFFFFFFFFFF0000), List.replicate 4 false, []⟩
  measured := none
  devKey := none
  devnum := 0
  peers := []
  agenda := []
  inputs := []
  outbox := []
  tick := 0
  nextId := 0

end Sys2Proof.Machine
end

