-- ==== Sys2Proof/Machine/Memory.lean ====
section
/-!
DEFINITION. Memory: the canonical cell list, the memory of all tiers, the buffer table and its checks,
translation, the L1 of a core and its local storage (01 R29 to R33; 08 R162 to R184; 15 R332, R333).
-/
namespace Sys2Proof.Machine

/-! ### Cells: addresses strictly rising, no entry 0, an unlisted address reads 0 (log 3) -/

/-- The byte at an address. -/
def Cells.get : List Host.Cell → Nat → Byte
  | [], _ => 0
  | (k, v) :: cs, a => if a = k then v else if a < k then 0 else Cells.get cs a

/-- Writes a byte, keeping the canonical form. -/
def Cells.set : List Host.Cell → Nat → Byte → List Host.Cell
  | [], a, b => if b = 0 then [] else [(a, b)]
  | (k, v) :: cs, a, b =>
    if a < k then (if b = 0 then (k, v) :: cs else (a, b) :: (k, v) :: cs)
    else if a = k then (if b = 0 then cs else (a, b) :: cs)
    else (k, v) :: Cells.set cs a b

/-- The canonical form. -/
def Cells.wf : List Host.Cell → Bool
  | [] => true
  | [(_, v)] => decide (v ≠ 0)
  | (k, v) :: (k', v') :: cs => decide (v ≠ 0) && decide (k < k') && Cells.wf ((k', v') :: cs)

/-- The memory of the device is in canonical form. -/
def Memory.wf (m : Mem) : Bool := Cells.wf m.cells

/-- The n bytes from an address as a little-endian number (00 R9). -/
def Cells.read (cs : List Host.Cell) (a : Nat) : Nat → Nat
  | 0 => 0
  | n + 1 => (Cells.get cs a).toNat + 256 * Cells.read cs (a + 1) n

/-- Writes the n low bytes of a number, least significant first (00 R9). -/
def Cells.write (cs : List Host.Cell) (a : Nat) : Nat → Nat → List Host.Cell
  | 0, _ => cs
  | n + 1, x => Cells.write (Cells.set cs a (BitVec.ofNat 8 x)) (a + 1) n (x / 256)

/-- Writes zero to every byte of a range. -/
def Cells.zero (cs : List Host.Cell) (a n : Nat) : List Host.Cell :=
  cs.filter fun c => !(decide (a ≤ c.1) && decide (c.1 < a + n))

/-- A choice among n possibilities: one free value for each step and key (00 R11; log 5). -/
def pickIn (tick key n : Nat) : Nat := Config.pick tick key % n

/-! ### Device memory -/

/-- The key of a physical address of a tier. -/
def tierKey (tier pa : Nat) : Nat := tier * 2 ^ 52 + pa

/-- Reads n bytes of memory as every agent sees them. -/
def State.rd (s : State) (key n : Nat) : Nat := Cells.read s.mem.cells key n

/-- The base of the lease table in units of 32 bytes, and LTN, as the ports use them (08 R165, R175). -/
def State.leaseTable (s : State) : Nat × Nat := s.mem.leaseRoot.getD (s.host.ltbase.toNat, s.host.ltn.toNat)
/-- TRBASE and TRN as walks use them (08 R165, R168). -/
def State.walkTable (s : State) : Nat × Nat := s.mem.walkRoot.getD (s.host.trbase.toNat, s.host.trn.toNat)

/-- The number of n bytes of memory where older bytes of a list stand before the current ones. -/
def Cells.readOver (old cs : List Host.Cell) (key : Nat) : Nat → Nat
  | 0 => 0
  | n + 1 =>
    (match old.find? fun c => decide (c.1 = key) with
      | some c => c.2.toNat
      | none => (Cells.get cs key).toNat) + 256 * Cells.readOver old cs (key + 1) n

/-- Reads n bytes of a page table as walks see them (08 R168). -/
def State.rdWalk (s : State) (key n : Nat) : Nat := Cells.readOver s.mem.ptOld s.mem.cells key n

/-- log2 of the bytes that a leaf at a level maps (08 R166). -/
def leafBits (level : Nat) : Nat := match level with | 0 => 16 | 1 => 21 | 2 => 30 | _ => 39
/-- The bytes of a table at a level (08 R166). -/
def tableBytes (level : Nat) : Nat := if level = 0 then 256 else 4096

/-- A page table, or the root entry of a tenant, that walks use: its bytes, the tenant, the first virtual
address that it translates, and the bytes that each of its entries maps. -/
structure WalkTable where
  key : Nat
  size : Nat
  tenant : Nat
  va : Nat
  per : Nat

/-- The entries of a table that may be valid: those whose top byte is listed with bit 7 set. -/
def State.validEntries (s : State) (table : Nat) : List Nat :=
  ((s.mem.ptOld ++ s.mem.cells).filterMap fun c =>
    if table ≤ c.1 ∧ c.1 < table + 4096 ∧ c.1 % 8 = 7 ∧ 128 ≤ c.2.toNat then some ((c.1 - table) / 8) else none).eraseDups

/-- The tables that walks for a tenant reach from a table of a level (08 R166, R167). -/
def State.tablesFrom (s : State) (tenant table va : Nat) : Nat → List WalkTable
  | 0 => [⟨table, tableBytes 0, tenant, va, 2 ^ leafBits 0⟩]
  | l + 1 =>
    ⟨table, tableBytes (l + 1), tenant, va, 2 ^ leafBits (l + 1)⟩ :: (s.validEntries table).flatMap fun i =>
      let e := s.rdWalk (table + 8 * i) 8
      if bits e 63 62 = 2 then
        s.tablesFrom tenant (tierKey (bits e 60 59) (bits e 51 8 * 256)) (va + i * 2 ^ leafBits (l + 1)) l
      else []

/-- The page tables that walks for the tenants of the running jobs use (08 R165 to R168). -/
def State.walkTables (s : State) : List WalkTable :=
  (s.sched.jobs.map fun j => j.tenant.toNat).eraseDups.flatMap fun t =>
    let key := s.walkTable.1 * 4096 + 8 * t
    let root := s.rdWalk key 8
    if s.walkTable.2 < t then [] else
    ⟨key, 8, t, 0, 2 ^ 48⟩ :: if root = 0 then [] else s.tablesFrom t (bits root 51 12 * 4096) 0 3

/-- Whether an address lies in one of a list of (start, length) ranges. -/
def inRanges (rs : List (Nat × Nat)) (a : Nat) : Bool :=
  rs.any fun r => decide (r.1 ≤ a) && decide (a < r.1 + r.2)

/-- Reads n bytes of a port table as the ports hold them (01 R33). -/
def State.rdPort (s : State) (key n : Nat) : Nat := Cells.readOver s.mem.btOld s.mem.cells key n

/-! ### Buffer-table entries and the checks of 01 R31 -/

/-- A buffer-table entry's fields (01 R30). -/
structure Buf where
  tier : Nat
  rights : Nat
  base : Nat
  owner : Nat
  length : Nat
  smask : Nat
  pcfirst : Nat
  pccount : Nat
  gran : Nat
  hash : Bool
  shadow : Nat
  lease : Nat
deriving DecidableEq, Repr

/-- The number of set bits among the low n. -/
def popcount (x : Nat) : Nat → Nat
  | 0 => 0
  | n + 1 => (x / 2 ^ n) % 2 + popcount x n

/-- An entry's fields, or none where it is treated as if V were 0 (01 R30). -/
def Buf.ofWords (w0 w1 w2 w3 : Nat) : Option Buf :=
  let e : Buf := ⟨bits w0 62 60, bits w0 59 55, bits w0 47 0, bits w1 63 48, bits w1 47 0,
    bits w2 63 52, bits w2 51 45, bits w2 44 38, bits w2 37 34, decide (bits w2 33 33 = 1),
    bits w2 31 16, bits w2 15 0⟩
  if bits w0 63 63 = 1 ∧ bits w0 54 48 = 0 ∧ bits w2 32 32 = 0 ∧ w3 = 0 ∧ e.tier ≤ 3 ∧ e.gran ≤ 8 ∧
      (e.tier = 0 → e.smask ≠ 0 ∧ 1 ≤ e.pccount ∧ e.pccount ≤ 96 ∧ e.pcfirst + e.pccount ≤ 96) ∧
      (e.tier ≠ 0 → e.smask = 0 ∧ e.pcfirst = 0 ∧ e.pccount = 0) ∧
      (e.tier ≠ 3 → e.lease = 0) ∧
      ¬ (bits e.rights 3 3 = 1 ∧ bits e.rights 0 0 = 1)
  then some e else none

/-! ### Channel interleave (08 R163, R164) -/

/-- The key of a byte of a list of (key, length) ranges. -/
def keyAt : List (Nat × Nat) → Nat → Option Nat
  | [], _ => none
  | (k, l) :: ks, off => if off < l then some (k + off) else keyAt ks (off - l)

/-- The index of the i-th set bit among the low 12 of a mask. -/
def nthBit (mask i : Nat) : Nat := (((List.range 12).filter fun b => (mask / 2 ^ b) % 2 = 1)[i]?).getD 0

/-- The (stack, pseudo-channel) that holds the byte at an offset of a TIER 0 buffer, or (12, channel)
for TIER 1 (08 R163, R164). -/
def Buf.channel (b : Buf) (off : Nat) : Nat × Nat :=
  let g := off / (256 * 2 ^ b.gran)
  let place (n : Nat) : Nat :=
    let q := g / n
    if b.hash then (g % n + (q * 0x9E3B) % 65536) % n else g % n
  if b.tier = 1 then (12, place 32)
  else
    let S := popcount b.smask 12
    let i := place (S * b.pccount)
    (nthBit b.smask (i % S), b.pcfirst + i / S)

/-- The channels of n bytes at an offset of a buffer. -/
def Buf.channels (b : Buf) (off n : Nat) : List (Nat × Nat) :=
  let g := 256 * 2 ^ b.gran
  (List.range ((off + n - 1) / g + 1 - off / g)).map fun i => b.channel ((off / g + i) * g)

/-- A channel's port takes no request: it is held for a retirement or its stack is in self-refresh (08 R171,
R177). -/
def State.chanWaits (s : State) (ch : Nat × Nat) : Bool := s.mem.refresh.contains ch.1 || s.mem.chanHeld.contains ch

/-- A byte of the LP tier lies in a region that is not yet zeroed (15 R337). -/
def State.lpWaits (s : State) (key : Nat) : Bool :=
  decide (key / 2 ^ 52 = 1) && !s.host.lpz && decide (s.mem.lpZeroed ≤ key % 2 ^ 52 / 2 ^ 21)

/-- The operation in turn has met a held port: it is tried again (08 R171, R177; 15 R337). -/
def State.mustWait (s : State) : State := { s with mem := { s.mem with waits := true } }

/-- What an operation leaves: the state that it found where it has met a held port, so that it is tried again
(08 R171, R177; 15 R337). -/
def State.unlessWaits (found t : State) : State := if t.mem.waits then found else t

/-- A request to n bytes of a buffer waits at a port (08 R171, R177; 15 R337). -/
def State.portHeld (s : State) (b : Buf) (off n : Nat) (ks : List (Nat × Nat)) : Bool :=
  (decide (b.tier = 0) && !(s.mem.refresh.isEmpty && s.mem.chanHeld.isEmpty) && (b.channels off n).any s.chanWaits) ||
    (decide (b.tier = 1) && ks.any fun k => s.lpWaits (k.1 + k.2 - 1))

/-- RIGHTS masks: R, W, A, X, L from bit 4 down (01 R30). -/
abbrev needR : Nat := 16
/-- The right of a store. -/
abbrev needW : Nat := 8
/-- The rights of a read and a write. -/
abbrev needRW : Nat := 24
/-- The rights of an atomic. -/
abbrev needRWA : Nat := 28
/-- The right of fetch. -/
abbrev needX : Nat := 2
/-- The right of a record buffer. -/
abbrev needL : Nat := 1

/-- The job of a job record. -/
def State.job? (s : State) (pa : Nat) : Option Job := s.sched.jobs.find? fun j => decide (j.pa = pa)

/-- The buffer-table entry of an index as the ports hold it (01 R29, R30, R33). -/
def State.buf? (s : State) (j : Job) (ix : Nat) : Option Buf :=
  if j.btn < ix then none else
  let a := j.btab + 32 * ix
  Buf.ofWords (s.rdPort a 8) (s.rdPort (a + 8) 8) (s.rdPort (a + 16) 8) (s.rdPort (a + 24) 8)

/-- The words of the entries of some indices as the ports hold them, by index (01 R33). -/
def State.entryWords (s : State) (j : Job) (ixs : List Nat) : List (Nat × List Nat) :=
  (ixs.eraseDups.filter fun ix => decide (ix ≤ j.btn)).map fun ix =>
    (ix, (List.range 4).map fun i => s.rdPort (j.btab + 32 * ix + 8 * i) 8)

/-- The entry of an index among entries that have been kept (01 R33). -/
def bufIn (es : List (Nat × List Nat)) (ix : Nat) : Option Buf :=
  match es.find? fun e => decide (e.1 = ix) with
  | some (_, [w0, w1, w2, w3]) => Buf.ofWords w0 w1 w2 w3
  | _ => none

/-- The index of a buffer pointer (01 R29). -/
def ptrIx (p : Word) : Nat := bits p.toNat 63 48
/-- The offset of a buffer pointer (01 R29). -/
def ptrOff (p : Word) : Nat := bits p.toNat 47 0
/-- A buffer pointer of an index and an offset modulo 2^48 (01 R29, R31). -/
def mkPtr (ix off : Nat) : Word := BitVec.ofNat 64 (ix % 2 ^ 16 * 2 ^ 48 + off % 2 ^ 48)

/-- LENGTH and RIGHTS of the core-local indices; OSIZE is that of the running object (01 R32). -/
def localSpace (osize ix : Nat) : Option (Nat × Nat) :=
  match ix with
  | 0xFFF0 | 0xFFF2 => some (0x40000, needRW)
  | 0xFFF1 | 0xFFF3 => some (0x80000, needRW)
  | 0xFFF4 => some (0x18000, needR)
  | 0xFFF5 => some (64, needR)
  | 0xFFF6 => some (osize, needR)
  | _ => none

/-- Whether RIGHTS grant every right that a mask needs. -/
def grants (rights need : Nat) : Bool := decide (rights &&& need = need)

/-- What an access through a pointer reaches once it has passed 01 R31. -/
inductive Place where
  | core (ix : Nat)
  | buf (b : Buf)
deriving DecidableEq, Repr

/-- The checks of 01 R31, in their order, by the entry of the index. `need = 0` waives check 3, `owner` makes
check 2. -/
def checkBy (e : Option Buf) (j : Job) (osize need : Nat) (owner : Bool) (ix off size : Nat) : Except Cause Place :=
  if 0xFFF0 ≤ ix then
    match localSpace osize ix with
    | none => .error .bufBounds
    | some (len, rights) =>
      if !grants rights need then .error .bufRights
      else if len < off + size then .error .bufBounds
      else .ok (.core ix)
  else match e with
  | none => .error .bufBounds
  | some b =>
    if owner && decide (b.owner ≠ j.tenant.toNat) then .error .bufOwner
    else if !grants b.rights need then .error .bufRights
    else if b.length < off + size then .error .bufBounds
    else .ok (.buf b)

/-- The checks of 01 R31 made now, by the entry as the ports hold it (R33). -/
def State.check (s : State) (j : Job) (osize need : Nat) (owner : Bool) (ix off size : Nat) : Except Cause Place :=
  checkBy (s.buf? j ix) j osize need owner ix off size

/-! ### Translation (08 R165 to R169) -/

/-- How a page-table walk ends: a fault at a level, a wait for the zeroing of a table's region (15 R337), or a
leaf: its key, size, Z, and entry's key. -/
inductive Walk where
  | fault (level : Nat)
  | wait
  | leaf (key size : Nat) (z : Bool) (entry : Nat)
deriving DecidableEq, Repr

/-- The bytes of a tier of this board: 768 GB of HBM4E, and either 1,536 GB of LP tier or the CXL memory
in its place, never both (00 R1, R4, R10; log 39). -/
def tierBytes : Nat → Nat
  | 0 => 768 * 10 ^ 9
  | 1 => if Config.cxlBoard then 0 else 1536 * 10 ^ 9
  | 2 => if Config.cxlBoard then Config.cxlBytes else 0
  | _ => 0

/-- What one entry of a table says: the walk ends, or goes on in the next table (08 R167). A leaf or table
outside the memory that the board carries in its tier is a page-table failure (log 39). -/
def State.walkEntry (s : State) (tier va table level : Nat) : Walk ⊕ Nat :=
  let ea := table + 8 * bits va (if level = 0 then 20 else leafBits level + 8) (leafBits level)
  let e := s.rdWalk ea 8
  let pa := bits e 51 8 * 256
  if s.lpWaits ea then .inl .wait
  else if bits e 63 63 = 0 ∨ bits e 58 52 ≠ 0 ∨ bits e 7 0 ≠ 0 ∨ bits e 60 59 ≠ tier ∨ bits e 60 59 = 3
    then .inl (.fault level)
  else if bits e 62 62 = 1 then
    if level = 3 ∨ pa % 2 ^ leafBits level ≠ 0 ∨ tierBytes tier < pa + 2 ^ leafBits level then .inl (.fault level)
    else .inl (.leaf (tierKey tier pa) (2 ^ leafBits level) (decide (bits e 61 61 = 1)) ea)
  else if level = 0 ∨ bits e 61 61 = 1 ∨ pa % tableBytes (level - 1) ≠ 0 ∨
      tierBytes tier < pa + tableBytes (level - 1) then .inl (.fault level)
  else .inr (tierKey tier pa)

/-- The walk from the table at a key down to level 0 (08 R166, R167). -/
def State.walkAt (s : State) (tier va table : Nat) : Nat → Walk
  | 0 => match s.walkEntry tier va table 0 with | .inl w => w | .inr _ => .fault 0
  | l + 1 => match s.walkEntry tier va table (l + 1) with
    | .inl w => w
    | .inr t => s.walkAt tier va t l

/-- A page-table walk for a tenant (08 R165 to R167); a missing root faults at level 3 (log 20), as does a
top-level table beyond the HBM4E of the board (log 39). -/
def State.walk (s : State) (tenant tier va : Nat) : Walk :=
  let root := s.rdWalk (s.walkTable.1 * 4096 + 8 * tenant) 8
  let top := bits root 51 12 * 4096
  if s.walkTable.2 < tenant ∨ root = 0 ∨ tierBytes 0 < top + tableBytes 3 then .fault 3
  else s.walkAt tier va top 3

/-- The installed translation of an address. -/
def State.tlb? (s : State) (tenant tier va : Nat) : Option Tlb :=
  s.mem.tlb.find? fun t => decide (t.tenant = tenant ∧ t.tier = tier ∧ t.va ≤ va ∧ va < t.va + t.size)

/-- The virtual address of an offset of a buffer (08 R162). -/
def Buf.va (b : Buf) (off : Nat) : Nat := (b.base + off) % 2 ^ 48

/-- The pieces of n bytes at an offset that lie in one 64 KiB page each, as (offset, length). -/
def pieces : Nat → Nat → Nat → List (Nat × Nat)
  | 0, _, _ => []
  | _, _, 0 => []
  | fuel + 1, va, n =>
    let l := min n (65536 - va % 65536)
    (va, l) :: pieces fuel (va + l) (n - l)

/-- The key of a virtual address, by the installed translation or a walk, or the level of the fault; a place
that is no key of memory while the walk waits. -/
def State.pureKey (s : State) (tenant tier va : Nat) : Except Nat Nat :=
  match s.tlb? tenant tier va with
  | some t => .ok (t.key + (va - t.va))
  | none => match s.walk tenant tier va with
    | .fault l => .error l
    | .wait => .ok (2 ^ 63 + va)
    | .leaf key size _ _ => .ok (key + va % size)

/-- The keys of the pieces of a range, each within a page. -/
def State.pureKeys (s : State) (tenant tier : Nat) : List (Nat × Nat) → Except Nat (List (Nat × Nat))
  | [] => .ok []
  | (va, l) :: ps =>
    match s.pureKey tenant tier (va % 2 ^ 48), s.pureKeys tenant tier ps with
    | .error e, _ => .error e
    | _, .error e => .error e
    | .ok k, .ok ks => .ok ((k, l) :: ks)

/-- The pieces of n bytes at an offset of a buffer, as (virtual address, length). -/
def Buf.pieces (b : Buf) (off n : Nat) : List (Nat × Nat) := Machine.pieces (n / 65536 + 2) (b.va off) n

/-- A pointer moved by an offset, its index kept (01 R29). -/
def ptrAdd (p : Word) (n : Nat) : Word := mkPtr (ptrIx p) (ptrOff p + n)

/-- Where n bytes at an offset of an object's code section lie now (04 R75; 08 R168), or the level at which
their translation fails. -/
def State.codeKeys (s : State) (j : Job) (o : ObjInfo) (off n : Nat) : Except Nat (List (Nat × Nat)) :=
  let p := ptrAdd o.ptr (o.codeoff + off)
  match s.buf? j (ptrIx p) with
  | none => .ok []
  | some b => s.pureKeys j.tenant.toNat b.tier (b.pieces (ptrOff p) n)

/-! ### Writes to memory -/

/-- The ranges of memory whose bytes the ports hold until a BTINV: the buffer tables of the running
jobs, and the lease table (01 R33, 08 R175). -/
def State.portTables (s : State) : List (Nat × Nat) :=
  (s.sched.jobs.map fun j => (j.btab, 32 * (j.btn + 1))) ++
    if s.sched.jobs = [] then [] else [(s.leaseTable.1 * 32, 32 * (s.leaseTable.2 + 1))]

/-- Where the code sections of the validated objects of the running jobs lie now (04 R75). -/
def State.codeRanges (s : State) : List (Nat × Nat) :=
  s.sched.jobs.flatMap fun j =>
    ((j.objs.map fun o => o.2.2) ++ (j.handler.bind id).toList).flatMap fun o =>
      match s.codeKeys j o 0 o.codelen with | .ok ks => ks | .error _ => []

/-- Adds the byte at an address to a list of older bytes, if it lies in one of the ranges and no older one
stands there. -/
def keepOld (rs : List (Nat × Nat)) (cs old : List Host.Cell) (a : Nat) : List Host.Cell :=
  if inRanges rs a && !(old.any fun c => decide (c.1 = a)) then (a, Cells.get cs a) :: old else old

/-- Adds a word of code to the older words, if it lies in one of the ranges, for the instruction caches of all
cores but some. -/
def keepWord (rs : List (Nat × Nat)) (but : List Nat) (old : List OldWord) (a : Nat) (w : SlotWord) : List OldWord :=
  if inRanges rs a && !old.contains ⟨a, w, but⟩ then ⟨a, w, but⟩ :: old else old

/-- The cores of the device that a test does not select. -/
def coresBut (p : Nat → Bool) : List Nat := (List.range 1152).filter fun c => !p c

/-- Notes the bytes of port tables, page tables and code at some addresses before a write changes them (01
R33; 04 R75; 08 R168), for the cores but some that read the written bytes already; nothing while no job runs. -/
def State.noteOld (s : State) (but : List Nat) (as : List Nat) : State :=
  if s.sched.jobs = [] then s else
  let m := s.mem
  let bt := s.portTables
  let pt := s.walkTables.map fun t => (t.key, t.size)
  let ic := s.codeRanges
  { s with mem := { m with
      btOld := as.foldl (keepOld bt m.cells) m.btOld
      ptOld := as.foldl (keepOld pt m.cells) m.ptOld
      icOld := as.foldl (fun o a =>
        keepWord ic but o (a / 4 * 4) (BitVec.ofNat 32 (Cells.read m.cells (a / 4 * 4) 4))) m.icOld } }

/-- The lines that a write covers whole (15 R333). -/
def wholeLine (key n line : Nat) : Bool := decide (key ≤ 64 * line) && decide (64 * line + 64 ≤ key + n)

/-- Writes the n low bytes of x to memory, visible to every agent (12 R263); a write that covers a
whole poisoned line heals it (15 R333). -/
def State.wr (s : State) (key n x : Nat) : State :=
  let s := s.noteOld [] ((List.range n).map (key + ·))
  { s with mem := { s.mem with
      cells := Cells.write s.mem.cells key n x
      who := s.mem.who.filter fun c => !inRanges [(key, n)] c.1
      poison := s.mem.poison.filter fun l => !wholeLine key n l } }

/-- The entry of the store that last wrote a byte of memory or of a core's storage, 0 for none (12 R266). -/
def State.whoWrote (s : State) (place : Nat) : Word :=
  ((s.mem.who.find? fun c => decide (c.1 = place)).map Prod.snd).getD 0

/-- Notes the entry of the store that has written the bytes of ranges of places (12 R266). -/
def State.stamp (s : State) (ks : List (Nat × Nat)) (e : Word) : State :=
  { s with mem := { s.mem with
      who := (if e = 0 then [] else ks.flatMap fun k => (List.range k.2).map fun i => (k.1 + i, e)) ++
        s.mem.who.filter fun c => !inRanges ks c.1 } }

/-- Whether a range touches a poisoned line (15 R333). -/
def State.poisoned (s : State) (key n : Nat) : Bool :=
  s.mem.poison.any fun l => decide (64 * l < key + n) && decide (key < 64 * l + 64)

/-- Installs the translation of a walked leaf. -/
def State.install (s : State) (tenant tier va key size : Nat) : State :=
  { s with mem := { s.mem with tlb := ⟨tenant, tier, va / size * size, size, key⟩ :: s.mem.tlb } }

/-- The memory ports of a tier, by agent number (12 R261). -/
def portAgents (tier : Nat) : List Nat :=
  match tier with
  | 0 => (List.range 96).map (1264 + ·)
  | 1 => (List.range 8).map (1360 + ·)
  | _ => [1368]

/-- Each memory port of a tier numbers one store of its own, visible at once (12 R261, R265; log 46). -/
def State.numberPorts (s : State) (tier : Nat) : State :=
  (portAgents tier).foldl (fun s a =>
    let q := (s.units.agents.find? fun q => decide (q.dev = s.devnum ∧ q.agent = a)).getD ⟨s.devnum, a, 0, [], [], []⟩
    { s with units := { s.units with
      agents := { q with issued := q.issued + 1 } ::
        s.units.agents.filter fun r => !decide (r.dev = s.devnum ∧ r.agent = a) } }) s

/-- An entry with Z clear. -/
def clearZ (e : Nat) : Nat := if bits e 61 61 = 1 then e - 2 ^ 61 else e

/-- A channel that holds bytes of a page is held, through some buffer of the tenant's jobs, or the page lies in a
region of the LP tier that is not yet zeroed (08 R171, R177; 15 R337). -/
def State.pageHeld (s : State) (tenant tier va key size : Nat) : Bool :=
  s.lpWaits (key + size - 1) ||
    (decide (tier = 0) && !(s.mem.refresh.isEmpty && s.mem.chanHeld.isEmpty) &&
      s.sched.jobs.any fun j => decide (j.tenant.toNat = tenant) && (List.range (j.btn + 1)).any fun ix =>
        match s.buf? j ix with
        | none => false
        | some b =>
          let lo := max b.base (va / size * size)
          decide (b.tier = 0 ∧ lo < min (b.base + b.length) (va / size * size + size)) &&
            s.portHeld b (lo - b.base) (min (b.base + b.length) (va / size * size + size) - lo) [])

/-- Writes zero to every byte of a page and clears Z, in the entry that walks use as well (08 R168, R169). -/
def State.zeroPage (s : State) (key size entry : Nat) : State :=
  let s := { s with mem := { s.mem with
    cells := Cells.zero s.mem.cells key size
    who := s.mem.who.filter fun c => !inRanges [(key, size)] c.1
    poison := s.mem.poison.filter fun l => !wholeLine key size l } }
  let seen := clearZ (s.rdWalk entry 8)
  let mine := decide (s.mem.ptOld.any fun c => decide (entry ≤ c.1 ∧ c.1 < entry + 8))
  let old := s.mem.ptOld.filter fun c => !decide (entry ≤ c.1 ∧ c.1 < entry + 8)
  let s := s.wr entry 8 (clearZ (s.rd entry 8))
  { s with mem := { s.mem with
    ptOld := (if mine then (List.range 8).map fun i => (entry + i, BitVec.ofNat 8 (seen / 256 ^ i)) else []) ++ old } }.numberPorts
      (key / 2 ^ 52)

/-- Translates an address at once, walking and zeroing where needed: its key, or the level at which
the walk failed (08 R167 to R169). A walk or zeroing that meets a held port makes the operation in turn wait
(R171, R177; 15 R337). -/
def State.translate (s : State) (tenant tier va : Nat) : State × Except Nat Nat :=
  match s.tlb? tenant tier va with
  | some t => (s, .ok (t.key + (va - t.va)))
  | none => match s.walk tenant tier va with
    | .fault l => (s, .error l)
    | .wait => (s.mustWait, .ok (2 ^ 63 + va))
    | .leaf key size z entry =>
      let s := if !z then s else if s.pageHeld tenant tier va key size then s.mustWait else s.zeroPage key size entry
      (s.install tenant tier va key size, .ok (key + va % size))

/-- Translates every piece of a range: the keys and lengths, or the failing level. -/
def State.spans (s : State) (tenant tier : Nat) : List (Nat × Nat) → State × Except Nat (List (Nat × Nat))
  | [] => (s, .ok [])
  | (va, l) :: ps =>
    match s.translate tenant tier (va % 2 ^ 48) with
    | (s, .error e) => (s, .error e)
    | (s, .ok k) => match s.spans tenant tier ps with
      | (s, .ok ks) => (s, .ok ((k, l) :: ks))
      | r => r

/-- The key ranges of n bytes at an offset of a buffer. -/
def State.bufSpans (s : State) (j : Job) (b : Buf) (off n : Nat) : State × Except Nat (List (Nat × Nat)) :=
  s.spans j.tenant.toNat b.tier (pieces (n / 65536 + 2) (b.va off) n)

/-- The bytes of key ranges as one number. -/
def State.rdSpans (s : State) : List (Nat × Nat) → Nat
  | [] => 0
  | (k, l) :: ks => s.rd k l + 2 ^ (8 * l) * s.rdSpans ks

/-- Writes a number over key ranges. -/
def State.wrSpans (s : State) : List (Nat × Nat) → Nat → State
  | [], _ => s
  | (k, l) :: ks, x => (s.wr k l x).wrSpans ks (x / 2 ^ (8 * l))

/-- An access of the device's own to n bytes of a buffer makes the operation in turn wait at a held port (08 R171,
R177; 15 R337). -/
def State.waitFor (s : State) (b : Buf) (off n : Nat) (ks : List (Nat × Nat)) : State :=
  if s.portHeld b off n ks then s.mustWait else s

/-- The same for n bytes at a pointer of a job, whose place is known (08 R171, R177). -/
def State.waitAt (s : State) (job : Nat) (p : Word) (n key : Nat) : State :=
  match s.job? job with
  | none => s
  | some j => match s.buf? j (ptrIx p) with
    | none => s
    | some b => s.waitFor b (ptrOff p) n [(key, n)]

/-- A failed access: its cause, and for XLATE the level (14 R311). -/
abbrev Fail := Cause × Nat

/-- The device's own resolution of a pointer through a job's buffer table (01 R350): checks 1, 2 and 4
and translation, with `need` in place of check 3; a core-local index or a TIER 3 buffer fails with
BUF_RIGHTS (log 41). A range at a held port makes the operation in turn wait (R171, R177; 15 R337). -/
def State.resolve (s : State) (j : Job) (need : Nat) (p : Word) (n : Nat) :
    State × Except Fail (List (Nat × Nat)) :=
  match s.check j 0 need true (ptrIx p) (ptrOff p) n with
  | .error c => (s, .error (c, 0))
  | .ok (.core _) => (s, .error (.bufRights, 0))
  | .ok (.buf b) =>
    if b.tier = 3 then (s, .error (.bufRights, 0)) else
    match s.bufSpans j b (ptrOff p) n with
    | (s, .error l) => (s, .error (.xlate, l))
    | (s, .ok ks) => (s.waitFor b (ptrOff p) n ks, .ok ks)

/-- Reads n bytes through a pointer as the device does. -/
def State.rdPtr (s : State) (j : Job) (need : Nat) (p : Word) (n : Nat) : State × Except Fail Nat :=
  match s.resolve j need p n with
  | (s, .error e) => (s, .error e)
  | (s, .ok ks) =>
    if ks.any fun k => s.poisoned k.1 k.2 then (s, .error (.eccUncorr, 0)) else (s, .ok (s.rdSpans ks))

/-- Writes n bytes through a pointer as the device does; a pointer that fails writes nothing. -/
def State.wrPtr (s : State) (j : Job) (need : Nat) (p : Word) (n x : Nat) : State :=
  match s.resolve j need p n with
  | (s, .error _) => s
  | (s, .ok ks) => s.wrSpans ks x

/-! ### The L1 data cache of a core (08 R179) -/

/-- The byte of a line that an L1 holds. -/
def l1Find (l : List L1Byte) (key : Nat) : Option L1Byte := l.find? fun b => decide (b.key = key)

/-- A cache holds all 8 aligned bytes about a key: only then may a read take an older clean byte, so that an
aligned access returns the bytes of one store (12 R273). -/
def l1Whole (l : List L1Byte) (key : Nat) : Bool :=
  (List.range 8).all fun i => (l1Find l (key / 8 * 8 + i)).isSome

/-- The logical cores of a cluster (00 R6). -/
def clusterCores (cl : Nat) : List Nat := (List.range 24).map (24 * cl + ·)

/-- The bytes that a cluster's cache holds (08 R180). -/
def State.clusterBytes (s : State) (cl : Nat) : List L1Byte :=
  s.mem.cc.filterMap fun c => if c.1 = cl then some c.2 else none

/-- A read of one byte, with the entry of the store that wrote it, through a cache over what lies below it: a
dirty byte, else a clean byte, held or refilled, or the byte below (08 R179, R180, 12 R263; log 12). `n` tells
the cache's free choices apart. -/
def cacheGet (tick n : Nat) (l : List L1Byte) (below : Byte × Word) (key : Nat) : Byte × Word :=
  match l1Find l key with
  | some b =>
    if b.dirty then (b.val, b.who)
    else if b.val = below.1 then below
    else if l1Whole l key && decide (pickIn tick (n * 2 ^ 54 + key / 8) 2 = 0) then (b.val, b.who) else below
  | none => below

/-- A byte as the agents of a cluster read it below their own L1s. -/
def State.clusterGet (s : State) (cl key : Nat) : Byte × Word :=
  cacheGet s.tick 1 (s.clusterBytes cl) (Cells.get s.mem.cells key, s.whoWrote key) key

/-- A core's read of one byte, through its L1 and its cluster's cache (08 R179, R180). -/
def State.l1Get (s : State) (cl : Nat) (l : List L1Byte) (key : Nat) : Byte × Word :=
  cacheGet s.tick 0 l (s.clusterGet cl key) key

/-- A core's read of n bytes, little-endian. -/
def State.l1Read (s : State) (cl : Nat) (l : List L1Byte) (key : Nat) : Nat → Nat
  | 0 => 0
  | n + 1 => (s.l1Get cl l key).1.toNat + 256 * s.l1Read cl l (key + 1) n

/-- Sets one byte of a cache. -/
def l1Set (l : List L1Byte) (b : L1Byte) : List L1Byte := b :: l.filter fun c => !decide (c.key = b.key)

/-- A cache holds a dirty byte whose line has a new check value (15 R333). -/
def l1Healed (l : List L1Byte) (key : Nat) : Bool := (l1Find l key).any fun b => b.dirty && b.full

/-- A cache holds a line whose 64 bytes a store has covered: its check value is new (15 R333). -/
def lineHealed (l : List L1Byte) (line : Nat) : Bool := (List.range 64).all fun i => l1Healed l (64 * line + i)

/-- A store of n bytes, of an entry, into an L1 (08 R179). -/
def l1Write (chan : Nat × Nat) (who : Word) (l : List L1Byte) (key : Nat) : Nat → Nat → List L1Byte
  | 0, _ => l
  | n + 1, x =>
    l1Write chan who (l1Set l ⟨key, BitVec.ofNat 8 x, true, chan, who, l1Healed l key⟩) (key + 1) n (x / 256)

/-- The lines that the ranges of one store cover whole have new check values in its L1 (15 R333). -/
def l1Heal (ks : List (Nat × Nat)) (l : List L1Byte) : List L1Byte :=
  l.map fun b => if b.dirty && (List.range 64).all fun i => inRanges ks (b.key / 64 * 64 + i)
    then { b with full := true } else b

/-- A fill: the bytes of a list stay valid with the values that a read gives, clean where they were not
dirty (08 R179). -/
def l1Fill (get : Nat → Byte × Word) (l : List L1Byte) : List Nat → List L1Byte
  | [] => l
  | k :: ks =>
    let b : L1Byte := ⟨k, (get k).1, false, (0, 0), (get k).2, false⟩
    l1Fill get (match l1Find l k with
      | some q => if q.dirty then l else l1Set l b
      | none => l1Set l b) ks

/-- The keys of the aligned 8-byte units that key ranges touch. -/
def unitKeys (ks : List (Nat × Nat)) : List Nat :=
  (ks.filter fun k => decide (k.2 ≠ 0)).flatMap fun k =>
    (List.range ((k.1 + k.2 + 7) / 8 * 8 - k.1 / 8 * 8)).map (k.1 / 8 * 8 + ·)

/-- The lines that a range touches, as one range (12 R273; 15 R332). -/
def lineRange (key n : Nat) : Nat × Nat :=
  if n = 0 then (key, 0) else (key / 64 * 64, (key + n + 63) / 64 * 64 - key / 64 * 64)

/-- n bytes as a fetch of a core of a cluster finds them below the instruction cache: with the stores that the
core has performed, and those of its cluster, that are not yet written back (04 R75; 08 R179, R180). -/
def State.ownBytes (s : State) (cl : Nat) (l : List L1Byte) (key : Nat) : Nat → Nat
  | 0 => 0
  | n + 1 =>
    (match (l1Find l key).filter L1Byte.dirty |>.orElse fun _ => (l1Find (s.clusterBytes cl) key).filter L1Byte.dirty with
      | some b => b.val
      | none => Cells.get s.mem.cells key).toNat + 256 * s.ownBytes cl l (key + 1) n

/-- Drops the clean bytes of an L1 that a range names; a dirty one stays, since CFLUSH.CO names no level to
write it to (09 R205; log 12). -/
def l1Drop (l : List L1Byte) (key n : Nat) : List L1Byte :=
  l.filter fun b => b.dirty || !(decide (key ≤ b.key) && decide (b.key < key + n))

/-! ### The scratchpad views (08 R182) -/

/-- The linear byte of a scratchpad that an offset of a core-local view names. -/
def viewByte (ix off : Nat) : Nat :=
  let swz (B : Nat) : Nat := (off / 64) % B * 16384 + 64 * (off / 64 / B) + off % 64
  match ix with
  | 0xFFF2 => swz 16
  | 0xFFF3 => swz 32
  | _ => off

/-- The bytes of a scratchpad space of a core: A-space, W-space or link store. -/
def Store.space (st : Store) (ix : Nat) : List Host.Cell :=
  match ix with
  | 0xFFF0 | 0xFFF2 => st.a
  | 0xFFF1 | 0xFFF3 => st.w
  | _ => st.k

/-- Replaces the bytes of a scratchpad space. -/
def Store.setSpace (st : Store) (ix : Nat) (cs : List Host.Cell) : Store :=
  match ix with
  | 0xFFF0 | 0xFFF2 => { st with a := cs }
  | 0xFFF1 | 0xFFF3 => { st with w := cs }
  | _ => { st with k := cs }

/-- Reads n bytes through a view. -/
def Store.read (st : Store) (ix off : Nat) : Nat → Nat
  | 0 => 0
  | n + 1 => (Cells.get (st.space ix) (viewByte ix off)).toNat + 256 * st.read ix (off + 1) n

/-- Writes n bytes through a view. -/
def Store.write (st : Store) (ix off : Nat) : Nat → Nat → Store
  | 0, _ => st
  | n + 1, x =>
    (st.setSpace ix (Cells.set (st.space ix) (viewByte ix off) (BitVec.ofNat 8 x))).write ix (off + 1) n (x / 256)

/-- The bank of the 48 that a byte of a view lies in: A-space banks first (08 R182, 09 R203). -/
def bankOf (ix off : Nat) : Nat :=
  viewByte ix off / 16384 + (if ix = 0xFFF1 ∨ ix = 0xFFF3 then 16 else 0)

end Sys2Proof.Machine
end

