-- ==== Sys2Proof/Machine/Sha.lean ====
section
/-!
DEFINITION. SHA-512, which the manual uses for code objects, chain, tree and loop-nest digests
(01 R13, 10 R224, 12 R283, 13 R296). The constants are the fractional parts of the cube and square
roots of the first primes, as the standard the manual names defines them (log 21).
-/
namespace Sys2Proof.Machine

/-- The first 80 primes. -/
def shaPrimes : List Nat :=
  [2, 3, 5, 7, 11, 13, 17, 19, 23, 29, 31, 37, 41, 43, 47, 53, 59, 61, 67, 71,
   73, 79, 83, 89, 97, 101, 103, 107, 109, 113, 127, 131, 137, 139, 149, 151, 157, 163, 167, 173] ++
  [179, 181, 191, 193, 197, 199, 211, 223, 227, 229, 233, 239, 241, 251, 257, 263, 269, 271, 277, 281,
   283, 293, 307, 311, 313, 317, 331, 337, 347, 349, 353, 359, 367, 373, 379, 383, 389, 397, 401, 409]

/-- The greatest r below 2^bits + r₀ with r^k ≤ n, found bit by bit. -/
def rootBits (k n : Nat) : Nat → Nat → Nat
  | 0, r => r
  | b + 1, r => rootBits k n b (if (r + 2 ^ b) ^ k ≤ n then r + 2 ^ b else r)

/-- The round constants: 64 bits of the fraction of each cube root. -/
def shaK : List Word := shaPrimes.map fun p => BitVec.ofNat 64 (rootBits 3 (p * 2 ^ 192) 68 0)
/-- The initial value: 64 bits of the fraction of each square root. -/
def shaInit : List Word := (shaPrimes.take 8).map fun p => BitVec.ofNat 64 (rootBits 2 (p * 2 ^ 128) 70 0)

/-- The bytes of a message with its padding: a one bit, zeros, the bit length in 16 bytes. -/
def shaPad (m : List Byte) : List Byte :=
  let n := m.length
  m ++ 0x80#8 :: List.replicate ((239 - n % 128) % 128) 0#8 ++ (toLe 16 (8 * n)).reverse

/-- A big-endian 64-bit word. -/
def beWord (bs : List Byte) : Word := BitVec.ofNat 64 (leNat bs.reverse)

/-- The first n 64-bit words of a byte list. -/
def beWords (bs : List Byte) : Nat → List Word
  | 0 => []
  | n + 1 => beWord (bs.take 8) :: beWords (bs.drop 8) n

/-- The message schedule: sixteen words, newest first, extended n times. -/
def shaSchedule (w : List Word) : Nat → List Word
  | 0 => w
  | n + 1 =>
    let a := w.getD 1 0
    let b := w.getD 14 0
    let s1 := a.rotateRight 19 ^^^ a.rotateRight 61 ^^^ (a >>> 6)
    let s0 := b.rotateRight 1 ^^^ b.rotateRight 8 ^^^ (b >>> 7)
    shaSchedule ((s1 + w.getD 6 0 + s0 + w.getD 15 0) :: w) n

/-- One round on the eight working words. -/
def shaRound (v : List Word) (kw : Word) : List Word :=
  match v with
  | [a, b, c, d, e, f, g, h] =>
    let t1 := h + (e.rotateRight 14 ^^^ e.rotateRight 18 ^^^ e.rotateRight 41) +
      ((e &&& f) ^^^ (~~~e &&& g)) + kw
    let t2 := (a.rotateRight 28 ^^^ a.rotateRight 34 ^^^ a.rotateRight 39) +
      ((a &&& b) ^^^ (a &&& c) ^^^ (b &&& c))
    [t1 + t2, a, b, c, d + t1, e, f, g]
  | v => v

/-- One 128-byte block. -/
def shaBlock (ks : List Word) (h : List Word) (blk : List Byte) : List Word :=
  let w := (shaSchedule (beWords blk 16).reverse 64).reverse
  List.zipWith (· + ·) h ((List.zipWith (· + ·) ks w).foldl shaRound h)

/-- Every block of a padded message. -/
def shaBlocks (ks : List Word) : Nat → List Word → List Byte → List Word
  | 0, h, _ => h
  | n + 1, h, m => shaBlocks ks n (shaBlock ks h (m.take 128)) (m.drop 128)

/-- The 64 bytes of SHA-512 of a message. -/
def sha512 (m : List Byte) : List Byte :=
  let p := shaPad m
  (shaBlocks shaK (p.length / 128) shaInit p).flatMap fun w => (toLe 8 w.toNat).reverse

/-- The first 8 bytes of SHA-512, as the digests of the manual hold them (10 R224). -/
def digest8 (m : List Byte) : BitVec 64 := BitVec.ofNat 64 (leNat ((sha512 m).take 8))

end Sys2Proof.Machine
end

