-- ==== Sys2Proof/Machine/Objects.lean ====
section
/-!
DEFINITION. Code objects: their layout, tables and validation (01 R12 to R19, 14 R307).
-/
namespace Sys2Proof.Machine

/-- n bytes at an offset of a byte image held as a number (00 R9). -/
def fld (img off n : Nat) : Nat := (img / 2 ^ (8 * off)) % 2 ^ (8 * n)

/-- The entries of a table: n records of `size` bytes from an offset. -/
def rows (img off size : Nat) : Nat → List Nat
  | 0 => []
  | n + 1 => fld img off size :: rows img (off + size) size n

/-- A table or section lies within 256 to OSIZE - 1 and meets its alignment (01 R18 check 3; log 22). -/
def sectionOk (osize off len align : Nat) : Bool :=
  decide (256 ≤ off) && decide (off + len ≤ osize) && decide (off % align = 0)

/-- The number of the first of checks 2 to 4 of 01 R18 that a header fails, or 0. -/
def headCheck (img : Nat) : Nat :=
  let osize := fld img 0x0C 4
  let codelen := fld img 0x14 4
  let entn := fld img 0x1C 2
  if fld img 0 4 ≠ 0x3134414B ∨ fld img 4 2 ≠ 1 ∨ fld img 8 4 ≠ 256 then 2
  else if osize < 256 ∨ codelen = 0 ∨ codelen % 4 ≠ 0 ∨ entn = 0 ∨
      !sectionOk osize (fld img 0x10 4) codelen 64 ∨ !sectionOk osize (fld img 0x18 4) (16 * entn) 16 ∨
      !sectionOk osize (fld img 0x20 4) (16 * fld img 0x24 2) 16 ∨
      !sectionOk osize (fld img 0x28 4) (32 * fld img 0x2C 2) 32 ∨
      !sectionOk osize (fld img 0x34 4) (fld img 0x38 4) 1 then 3
  else if (rows img 0x40 1 16).any (· = 0) then 4
  else 0

/-- The number of the first of checks 5 to 8 of 01 R18 that an image fails, or 0. -/
def bodyCheck (img : Nat) : Nat :=
  let osize := fld img 0x0C 4
  let codelen := fld img 0x14 4
  let entn := fld img 0x1C 2
  let yldn := fld img 0x24 2
  let livn := fld img 0x2C 2
  let ents := rows img (fld img 0x18 4) 16 entn
  let ylds := rows img (fld img 0x20 4) 16 yldn
  let livs := rows img (fld img 0x28 4) 32 livn
  let lixOk (x : Nat) : Bool := decide (x < livn) || decide (x = 0xFFFF)
  let pcOk (x : Nat) : Bool := decide (x % 4 = 0) && decide (x < codelen)
  if !((ents.all fun e => pcOk (fld e 0 4)) && ylds.all fun y => pcOk (fld y 0 4)) then 5
  else if !((ents.all fun e => lixOk (fld e 10 2) && decide (fld e 4 4 ≠ 0)) &&
      ylds.all fun y => lixOk (fld y 8 2) && decide (fld y 4 4 ≠ 0)) then 6
  else if bits (fld img 6 2) 15 2 ≠ 0 ∨ fld img 0x1E 2 ≠ 0 ∨ fld img 0x26 2 ≠ 0 ∨ fld img 0x2E 2 ≠ 0 ∨
      fld img 0x3C 4 ≠ 0 ∨ fld img 0x50 112 ≠ 0 ∨
      (ents.any fun e => decide (fld e 9 1 ≠ 0) || decide (fld e 12 4 ≠ 0)) ∨
      (ylds.any fun y => decide (fld y 10 6 ≠ 0)) ∨ (livs.any fun l => decide (fld l 0x1A 6 ≠ 0)) then 7
  else if leNat (sha512 (toLe (osize - 256) (img / 2 ^ 2048))) ≠ fld img 0xC0 64 then 8
  else 0

/-- What is kept of a validated image. -/
def objInfo (ptr : Word) (img : Nat) : ObjInfo where
  ptr := ptr
  flags := fld img 6 2
  osize := fld img 0x0C 4
  codeoff := fld img 0x10 4
  codelen := fld img 0x14 4
  molc := fld img 0x30 4
  lat := rows img 0x40 1 16
  entries := (rows img (fld img 0x18 4) 16 (fld img 0x1C 2)).map fun e =>
    ⟨fld e 0 4, fld e 4 4, fld e 8 1, fld e 10 2⟩
  yields := (rows img (fld img 0x20 4) 16 (fld img 0x24 2)).map fun y => ⟨fld y 0 4, fld y 4 4, fld y 8 2⟩
  lives := rows img (fld img 0x28 4) 32 (fld img 0x2C 2)

/-- Validates the object at a pointer: the failed check of 1 to 8, or 0, and the object (01 R18). Check 1
reads the header and compares OSIZE with LENGTH; a byte after the header that cannot be read when checks 5
to 8 need it is check 1 again, and so is an object in a core-local or TIER 3 buffer (log 4). -/
def State.validateAt (s : State) (j : Job) (p : Word) : State × Nat × ObjInfo :=
  match s.rdPtr j (needR + needX) p 256 with
  | (s, .error _) => (s, 1, ObjInfo.none)
  | (s, .ok hdr) =>
    let n := max 256 (fld hdr 0x0C 4)
    match s.check j 0 (needR + needX) true (ptrIx p) (ptrOff p) n with
    | .error _ => (s, 1, ObjInfo.none)
    | .ok _ =>
    if headCheck hdr ≠ 0 then (s, headCheck hdr, ObjInfo.none) else
    match s.rdPtr j (needR + needX) p n with
    | (s, .error _) => (s, 1, ObjInfo.none)
    | (s, .ok img) =>
      let c := bodyCheck img
      (s, c, if c = 0 then objInfo p img else ObjInfo.none)

/-- Replaces the entry of a job. -/
def State.setJob (s : State) (j : Job) : State :=
  { s with sched := { s.sched with jobs := s.sched.jobs.map fun q => if q.pa = j.pa then j else q } }

/-- The pointer of a code-object table entry, unless check 11 of 01 R18 fails; a poisoned entry fails it
too (log 4). -/
def State.objPtr (s : State) (j : Job) (handle : Nat) : State × Option Word :=
  if j.cotn < handle then (s, none) else
  match s.rdPtr j needR (ptrAdd j.cotab (8 * handle)) 8 with
  | (s, .ok p) => (s, some (BitVec.ofNat 64 p))
  | (s, .error _) => (s, none)

/-- The outcome of validating a handle for a launch, kept for the life of the job: 11, the failed
check of 1 to 8, or 0 with the object (01 R18). -/
def State.validate (s : State) (j : Job) (handle : Nat) : State × Nat × ObjInfo :=
  match s.objPtr j handle with
  | (s, none) => (s, 11, ObjInfo.none)
  | (s, some p) =>
    match j.objs.find? fun o => decide (o.1 = handle) with
    | some o => (s, o.2)
    | none =>
      match s.validateAt j p with
      | (s, c, o) =>
        let c := if c = 0 ∧ o.flags / 2 % 2 = 1 ∧ j.modes.toNat % 2 = 0 then 9 else c
        (s.setJob { j with objs := (handle, c, o) :: j.objs }, c, o)

/-- The object that a dispatched record runs: the outcome recorded against its handle, else that of a
validation made now; an object that is not valid has no code, so that the first fetch traps FETCH_BOUNDS
(01 R22; log 40). -/
def State.dispatchObj (s : State) (j : Job) (handle : Nat) : State × ObjInfo :=
  match j.objs.find? fun o => decide (o.1 = handle) with
  | some (_, c, o) => (s, if c = 0 then o else ObjInfo.none)
  | none => match s.validate j handle with
    | (s, c, o) => (s, if c = 0 then o else ObjInfo.none)

/-- The handler object of a job, validated at its first trap and kept (14 R307). -/
def State.handlerObj (s : State) (j : Job) : State × Option ObjInfo :=
  match j.handler with
  | some h => (s, h)
  | none =>
    match s.objPtr j 0 with
    | (s, none) => (s.setJob { j with handler := some none }, none)
    | (s, some p) =>
      match s.validateAt j p with
      | (s, c, o) =>
        let h := if c = 0 then some o else none
        (s.setJob { j with handler := some h }, h)

end Sys2Proof.Machine
end

