-- ==== Sys2Proof/Machine/Regs.lean ====
section
/-!
DEFINITION. The registers of a core: reads at issue, results in flight and their landing, tokens and
postings, strict marks (04 R84, R89, R90; 05 R95 to R112; 14 R308, R330).
-/
namespace Sys2Proof

/-- The part of a scalar that a result writes, as (mask, value). -/
def Write.toS (ix : Nat) : Write → Option (Nat × Nat)
  | .s ix' val => if ix' = ix then some (2 ^ 64 - 1, val.toNat) else none
  | _ => none
/-- The part of a vector register that a result writes. -/
def Write.toV (ix : Nat) : Write → Option (Nat × Nat)
  | .v ix' mask val => if ix' = ix then some (mask.toNat, val.toNat) else none
  | _ => none
/-- The predicate that a result writes, as a byte. -/
def Write.toP (ix : Nat) : Write → Option (Nat × Nat)
  | .p ix' b => if ix' = ix then some (255, b.toNat) else none
  | _ => none
/-- The part of a lane mask that a result writes. -/
def Write.toM (ix : Nat) : Write → Option (Nat × Nat)
  | .m ix' mask val => if ix' = ix then some (mask.toNat, val.toNat) else none
  | _ => none
/-- The part of a witness register that a result writes. -/
def Write.toW (ix : Nat) : Write → Option (Nat × Nat)
  | .w ix' mask val => if ix' = ix then some (mask.toNat, val.toNat) else none
  | _ => none

/-- The register of the files that tokens can target that a result writes (05 R111). -/
def Write.dst : Write → Option Machine.Dst
  | .s ix _ => some ⟨0, ix⟩
  | .v ix _ _ => some ⟨1, ix⟩
  | .w ix _ _ => some ⟨2, ix⟩
  | _ => none

/-- The parts of a result that another result of the same register writes, or with `keep` the parts
that it does not (04 R90). -/
def Write.limit (keep : Bool) (a by' : Write) : Option Write :=
  match a, by' with
  | .v r k x, .v r' k' _ =>
    if r ≠ r' then (if keep then some a else none) else some (.v r (k &&& (if keep then ~~~k' else k')) x)
  | .w r k x, .w r' k' _ =>
    if r ≠ r' then (if keep then some a else none) else some (.w r (k &&& (if keep then ~~~k' else k')) x)
  | .s r _, .s r' _ => if (r = r') = keep then none else some a
  | _, _ => if keep then some a else none

/-- The parts of a result that none of a list of results writes. -/
def Write.without (a : Write) (as : List Write) : Option Write :=
  as.foldl (fun o c => o.bind fun b => b.limit true c) (some a)

/-- Adds a result to those of one register, of which each keeps the parts that no later one has written. -/
def Write.over (as : List Write) (x : Write) : List Write := as.filterMap (·.limit true x) ++ [x]

/-- Of a list of results those that a free pick for each leaves in force (05 R112; log 5). -/
def Write.some' (tick key : Nat) : List Write → List Write
  | [] => []
  | x :: xs => (if Machine.pickIn tick key 2 = 0 then [x] else []) ++ Write.some' tick (key + 1) xs

/-- A result that writes a part of its register: one whose mask is wholly clear writes none (04 R90). -/
def Write.any : Write → Bool
  | .v _ k _ => decide (k ≠ 0)
  | .m _ k _ => decide (k ≠ 0)
  | _ => true

end Sys2Proof

namespace Sys2Proof.Machine

/-! ### Names of the handler bank (14 R308) -/

/-- The scalar that a field names: s56 to s63 are the handler bank's in handler mode. -/
def Core.sIx (c : Core) (r : Nat) : Nat := if c.cont.handler && decide (56 ≤ r) then r + 8 else r
/-- The predicate that a field names. -/
def Core.pIx (c : Core) (r : Nat) : Nat := if c.cont.handler && decide (6 ≤ r) then r + 2 else r
/-- The token that a field names. -/
def Core.tIx (c : Core) (r : Nat) : Nat := if c.cont.handler && decide (30 ≤ r) then r + 2 else r

/-! ### Writes -/

/-- Overwrites the parts that a mask selects (04 R90). -/
def merge {n : Nat} (mask new old : BitVec n) : BitVec n := (old &&& ~~~mask) ||| (new &&& mask)

/-- Writes a result into the registers; fixed registers discard it (04 R90, 05 R96). -/
def Regs.apply (g : Regs) (w : Write) : Regs :=
  match w with
  | .s r v => if r = 0 then g else { g with s := g.s.setIfInBounds r v }
  | .v r mask v => { g with v := g.v.setIfInBounds r (merge mask v (g.v[r]?.getD 0)) }
  | .p n b => if n < 2 then g else
      { g with p := merge (1#10 <<< n) (if b then 1#10 <<< n else 0) g.p }
  | .m n mask v => if n = 0 then g else
      { g with m := g.m.setIfInBounds n (merge mask v (g.m[n]?.getD 0)) }
  | .w n mask v => if n = 0 then g else
      { g with w := g.w.setIfInBounds n (merge mask v (g.w[n]?.getD 0)) }
  | .fpst f => { g with fpst := g.fpst ||| f }

/-! ### Reads at issue (04 R84, R89; 05 R96, R112) -/

/-- The results in flight or not yet covered that write parts of a register. -/
def Pipe.pending (p : Pipe) (f : Write → Option (Nat × Nat)) : List (Nat × Nat) :=
  p.land.filterMap (fun l => f l.write) ++ p.soft.flatMap (fun r => r.writes.filterMap f)

/-- The low byte of one member of {old value, each pending result} (04 R89, 05 R112). -/
def oneOf (base : Nat) (cs : List (Nat × Nat)) (i : Nat) : Nat :=
  match cs[i]? with
  | some (m, v) => ((base &&& (255 - m % 256)) ||| (v &&& m)) % 256
  | none => base % 256

/-- Each of n bytes its old or a new value, UNSPECIFIED (04 R89, 05 R112; log 5). -/
def mix (tick key base : Nat) (cs : List (Nat × Nat)) : Nat → Nat
  | 0 => 0
  | n + 1 => oneOf base cs (pickIn tick key (cs.length + 1)) +
      256 * mix tick (key + 1) (base / 256) (cs.map fun c => (c.1 / 256, c.2 / 256)) n

/-- The key of the pick that reads byte 0 of a register on a core. -/
def Core.key (c : Core) (file reg : Nat) : Nat := (((c.id * 8 + c.pipe.slot) * 8 + file) * 128 + reg) * 256

/-- A register's value as a slot reads it: its old value, or a mixture while results are pending. -/
def Core.value (c : Core) (tick file reg base n : Nat) (f : Write → Option (Nat × Nat)) : Nat :=
  match c.pipe.pending f with
  | [] => base
  | cs => mix tick (c.key file reg) base cs n

/-- A scalar register of the file, by its index in it. -/
def Core.sVal (c : Core) (tick ix : Nat) : Word :=
  if ix = 0 then 0 else
  BitVec.ofNat 64 (c.value tick 0 ix (c.regs.s[ix]?.getD 0).toNat 8 (Write.toS ix))

/-- A predicate by its index in the file. -/
def Core.pVal (c : Core) (tick ix : Nat) : Bool :=
  if ix = 0 then true else if ix = 1 then false else
  decide (c.value tick 3 ix (c.regs.p.getLsbD ix).toNat 1 (Write.toP ix) % 2 = 1)

/-- A lane mask. -/
def Core.mVal (c : Core) (tick n : Nat) : BitVec 64 :=
  if n = 0 then BitVec.allOnes 64 else
  BitVec.ofNat 64 (c.value tick 4 n (c.regs.m[n]?.getD 0).toNat 8 (Write.toM n))

/-- A witness register. -/
def Core.wVal (c : Core) (tick n : Nat) : Witness :=
  if n = 0 then 0 else
  BitVec.ofNat 128 (c.value tick 2 n (c.regs.w[n]?.getD 0).toNat 16 (Write.toW n))

/-- The element at the head of a stream register, if it has arrived (05 R100). -/
def Core.head? (c : Core) (q : Nat) : Option Fetched :=
  match c.regs.q[q]?.getD none with
  | some b => b.ahead.find? fun e => decide (e.elem = b.head)
  | none => none

/-- A vector source: v0 to v47, then the peek and the pop forms (04 R79, 05 R100). -/
def Core.vVal (c : Core) (tick n : Nat) : VReg :=
  if n < 48 then BitVec.ofNat 2048 (c.value tick 1 n (c.regs.v[n]?.getD 0).toNat 256 (Write.toV n))
  else match c.head? (n % 8) with | some e => e.val | none => 0

/-- A column edge mask (05 R95, R101). -/
def Core.xVal (c : Core) (n : Nat) : BitVec 48 :=
  if n = 0 then BitVec.allOnes 48 else c.regs.x[n]?.getD 0
/-- A row edge mask. -/
def Core.yVal (c : Core) (n : Nat) : BitVec 32 :=
  if n = 0 then BitVec.allOnes 32 else c.regs.y[n]?.getD 0

/-- A scalar operand of a slot. -/
def State.s! (s : State) (r : BitVec 6) : Word := s.core.sVal s.tick (s.core.sIx r.toNat)
/-- A vector operand. -/
def State.v! (s : State) (r : BitVec 6) : VReg := s.core.vVal s.tick r.toNat
/-- A predicate operand. -/
def State.p! (s : State) (r : BitVec 3) : Bool := s.core.pVal s.tick (s.core.pIx r.toNat)
/-- A lane-mask operand. -/
def State.m! (s : State) (r : BitVec 3) : BitVec 64 := s.core.mVal s.tick r.toNat
/-- A witness operand. -/
def State.w! {k : Nat} (s : State) (r : BitVec k) : Witness := s.core.wVal s.tick r.toNat

/-! ### Landing (04 R89, R90; 05 R112) -/

/-- Replaces the registers of the focused core. -/
def State.setRegs (s : State) (g : Regs) : State := { s with core := { s.core with regs := g } }
/-- Replaces the pipe of the focused core. -/
def State.setPipe (s : State) (p : Pipe) : State := { s with core := { s.core with pipe := p } }
/-- Replaces the system registers of the focused core. -/
def State.setSys (s : State) (y : Sys) : State := { s with core := { s.core with sys := y } }
/-- Replaces the continuation facts of the focused core. -/
def State.setCont (s : State) (k : Cont) : State := { s with core := { s.core with cont := k } }
/-- Replaces the storage of the focused core. -/
def State.setStore (s : State) (t : Store) : State := { s with core := { s.core with store := t } }

/-- Notes for the tokened operations of a destination that another result has landed there with no wait
between them (05 R112). -/
def Pipe.noteClash (p : Pipe) (w : Write) : Pipe :=
  match w.dst with
  | none => p
  | some d => { p with
      posts := p.posts.map fun q => if q.dst.contains d then { q with clash := Write.over q.clash w } else q
      soft := p.soft.map fun q => if q.dst.contains d then { q with clash := Write.over q.clash w } else q
      land := p.land.map fun l => if l.write.dst = some d then { l with amb := l.amb.filterMap (·.limit true w) } else l }

/-- A register that is written has a new check value (15 R333). -/
def Core.mend (c : Core) (ds : List Dst) : Core :=
  { c with store := { c.store with
    bad := c.store.bad.filter fun b => !(ds.any fun d => decide (b = .reg c.id d.file d.reg)) } }

/-- Lands one result in a core's registers; one whose check value fails leaves its destination as it was (14
R305). Where a tokened result of the same register is not ordered by a wait, the parts that both write hold
one of the two, UNSPECIFIED (05 R112; log 5). -/
def Core.landOne (c : Core) (tick : Nat) (l : Landing) : Core :=
  match l.bad with
  | some _ => c
  | none =>
    match l.write.dst with
    | none => { c with regs := c.regs.apply l.write }
    | some d =>
      let c := c.mend [d]
      let w := l.write.without (Write.some' tick (c.key (5 + d.file) d.reg) l.amb)
      { c with regs := w.toList.foldl Regs.apply c.regs, pipe := c.pipe.noteClash l.write }

/-- Lands results in the order in which they are listed. -/
def Core.landList (c : Core) (tick : Nat) : List Landing → Core
  | [] => c
  | l :: ls => (c.landOne tick l).landList tick ls

/-- Inserts into a sorted list, after the elements that may stand before it. -/
def insertBy {α : Type} (le : α → α → Bool) (a : α) : List α → List α
  | [] => [a]
  | b :: bs => if le b a then b :: insertBy le a bs else a :: b :: bs
/-- Sorts a list; elements of equal rank keep their order. -/
def sortBy {α : Type} (le : α → α → Bool) (l : List α) : List α := l.foldl (fun acc a => insertBy le a acc) []

/-- Lands the results that a predicate selects, each at its due cycle, those of one cycle in issue order
(04 R90). -/
def Core.landSome (c : Core) (tick : Nat) (p : Landing → Bool) : Core :=
  { c with pipe := { c.pipe with land := c.pipe.land.filter fun l => !p l } }.landList tick
    (sortBy (fun a b => decide (a.due ≤ b.due)) (c.pipe.land.filter p))

/-- Lands every result due by the core's issued cycle (04 R89, R90). -/
def Core.landDue (c : Core) (tick : Nat) : Core := c.landSome tick fun l => decide (l.due ≤ c.pipe.now)

/-- Lands every fixed-latency result in flight. -/
def Core.landAll (c : Core) (tick : Nat) : Core := c.landSome tick fun _ => true

/-- The latency of a class that the object in force declares (04 R89, 14 R307). -/
def Core.lat (c : Core) (k : Nat) : Nat :=
  let o := if c.cont.handler then c.cont.hobj.getD c.cont.obj else c.cont.obj
  o.lat.getD k 1

/-- Issues a fixed-latency result of a class (04 R89). -/
def State.result (s : State) (k : Nat) (w : Write) : State :=
  let p := s.core.pipe
  s.setPipe { p with fresh := p.fresh ++ [⟨p.now + s.core.lat k, w, [], none⟩] }

/-- Issues the results of one class that write something. -/
def State.results (s : State) (k : Nat) (ws : List Write) : State := (ws.filter Write.any).foldl (·.result k ·) s

/-! ### Tokens and postings (05 R106 to R112) -/

/-- One post to a token, with the fault of the operation if it failed (05 R107, R108). -/
def Token.post (t : Token) (f : Option PFault) : Token :=
  let t := { t with count := t.count + 1 }
  match f with
  | some e => if t.f then t else
      { t with f := true, fcnt := t.count, xl := decide (e.cause = .xlate), frec := e.frec }
  | none => t

/-- Word 0 of a token's image (05 R106). -/
def Token.word0 (t : Token) : Word :=
  t.count ++ t.fcnt ++ 0#30 ++ BitVec.ofBool t.xl ++ BitVec.ofBool t.f
/-- Word 1 of a token's image. -/
def Token.word1 (t : Token) : Word := 0#16 ++ t.frec
/-- The token of an image; reserved bits and FREC[5:0] are taken as 0 (05 R106, 09 R202). -/
def Token.ofWords (w0 w1 : Word) : Token where
  count := w0.extractLsb' 48 16
  fcnt := w0.extractLsb' 32 16
  xl := w0.getLsbD 1
  f := w0.getLsbD 0
  frec := w1.extractLsb' 6 42 ++ 0#6

/-- A token of the file. -/
def Regs.tok (g : Regs) (t : Nat) : Token := g.t[t]?.getD Token.zero
/-- Replaces a token of the file. -/
def Regs.setTok (g : Regs) (t : Nat) (k : Token) : Regs := { g with t := g.t.setIfInBounds t k }

/-- A token after a posting: one more post, or the image that stands in its place (05 R107, R110). -/
def Posting.act (p : Posting) (k : Token) : Token := p.image.getD (k.post p.fault)

/-- Makes the posts that are ready and whose earlier postings have posted, in issue order: the tokens
and the postings that remain; `blocked` are the tokens with an earlier posting in flight (05 R107). -/
def flushPosts (g : Regs) (blocked : List Nat) : List Posting → Regs × List Posting
  | [] => (g, [])
  | p :: ps =>
    if p.ready && !blocked.contains p.tok then
      flushPosts (g.setTok p.tok (p.act (g.tok p.tok))) blocked ps
    else
      let r := flushPosts g (p.tok :: blocked) ps
      (r.1, p :: r.2)

/-- Makes every post of a core that is ready. -/
def Core.flush (c : Core) : Core :=
  let r := flushPosts c.regs [] c.pipe.posts
  { c with regs := r.1, pipe := { c.pipe with posts := r.2 } }

/-- Postings in flight to a token. -/
def Pipe.inFlight (p : Pipe) (t : Nat) : Nat :=
  (p.posts.filter fun q => decide (q.tok = t) && q.image.isNone).length

/-- The cover value of the next posting to a token: COUNT as the postings in flight leave it, plus 1 (05
R107, R110). -/
def Core.nextCover (c : Core) (t : Nat) : BitVec 16 :=
  (c.pipe.posts.filter fun q => decide (q.tok = t)).foldl
    (fun n q => match q.image with | some k => k.count | none => n + 1) (c.regs.tok t).count + 1

/-- Issues a posting to a token with its destinations, which strict mode marks (05 R107, R111): the
state and the posting's number. -/
def State.newPost (s : State) (t : Nat) (dst : List Dst) : State × Nat :=
  let c := s.core
  let cover := c.nextCover t
  let p : Posting := ⟨s.nextId, t, cover, dst, false, [], none, [], none⟩
  let marks := if c.cont.strict then dst.map (fun d => Later.mark ⟨d, t, cover⟩) else []
  ({ s with
      core := { c with pipe := { c.pipe with posts := c.pipe.posts ++ [p], later := c.pipe.later ++ marks } }
      nextId := s.nextId + 1 }, s.nextId)

/-- The write of a token's image, which takes effect once every posting of the token that is in flight
has posted, and after the bundle (05 R110). -/
def State.imageTok (s : State) (t : Nat) (k : Token) : State :=
  let p : Posting := ⟨s.nextId, t, k.count, [], true, [], none, [], some k⟩
  { s with
    core := { s.core with pipe := { s.core.pipe with posts := s.core.pipe.posts ++ [p] } }
    nextId := s.nextId + 1 }

/-- An operation completes on the core that still runs its continuation: its result lands, at the
latest with its post (05 R107, R108). A failed one lands nothing. -/
def Core.complete (c : Core) (d : Completion) : Core :=
  match d.post with
  | none => { c with regs := (d.writes.foldl Regs.apply c.regs) }
  | some id =>
    match c.pipe.posts.find? fun p => decide (p.id = id) with
    | none => c
    | some p =>
      let ws := if d.fault.isSome then [] else d.writes
      let soft := if ws = [] then c.pipe.soft
        else c.pipe.soft ++ [⟨p.tok, p.cover, p.dst, ws, p.clash⟩]
      let posts := c.pipe.posts.map fun q =>
        if q.id = id then { q with ready := true, fault := d.fault } else q
      ({ c with pipe := { c.pipe with posts := posts, soft := soft } }).flush

/-- A slot whose guard is false posts its token once, in its order, when its bundle ends (04 R81, 05
R107). -/
def State.postOnce (s : State) (t : Nat) : State :=
  let p : Posting := ⟨s.nextId, t, s.core.nextCover t, [], true, [], none, [], none⟩
  { s with
    core := { s.core with pipe := { s.core.pipe with posts := s.core.pipe.posts ++ [p] } }
    nextId := s.nextId + 1 }

/-- A wait with a threshold covers a count (05 R109). -/
def covers (thr cover : BitVec 16) : Bool := decide ((thr - cover).toNat < 2 ^ 15)
/-- A wait is satisfied (05 R109). -/
def satisfied (t : Token) (thr : BitVec 16) : Bool := decide ((t.count - thr).toNat < 2 ^ 15)

/-- Notes for the results in flight of a destination that a tokened result of it is now covered (05
R112). -/
def Pipe.noteAmb (p : Pipe) (w : Write) : Pipe :=
  let f (l : Landing) : Landing := if l.write.dst = w.dst then { l with amb := Write.over l.amb w } else l
  { p with land := p.land.map f, fresh := p.fresh.map f }

/-- Makes one tokened result that a wait now covers the value of its registers; of the results that
landed there with no wait between, an UNSPECIFIED choice stands over it (05 R112; log 5). -/
def Core.settle (c : Core) (tick : Nat) (r : Soft) : Core :=
  let newer := Write.some' tick (c.key 6 (r.dst.map Dst.reg).sum) r.clash
  let c := { c.mend r.dst with regs := (r.writes.filterMap (Write.without · newer)).foldl Regs.apply c.regs }
  { c with pipe := r.writes.foldl (fun p w => (p.noteClash w).noteAmb w) c.pipe }

/-- Settles every uncovered result that a predicate selects, in order of completion. -/
def Core.settleAll (c : Core) (tick : Nat) (p : Soft → Bool) : Core :=
  let go := c.pipe.soft.filter p
  let c := { c with pipe := { c.pipe with soft := c.pipe.soft.filter fun r => !p r } }
  go.foldl (fun c r => c.settle tick r) c

/-- A wait on a token completes: the results that it covers are the registers' values, and the marks
that it covers are cleared (05 R109, R111, R112). -/
def Core.waitDone (c : Core) (tick t : Nat) (thr : BitVec 16) : Core :=
  let c := c.settleAll tick fun r => decide (r.tok = t) && covers thr r.cover
  { c with regs := { c.regs with
      marks := c.regs.marks.filter fun k => !(decide (k.tok = t) && covers thr k.cover) } }

/-! ### The effects that hold after the bundle (04 R84; 09 R203, R204, R207) -/

/-- Advances the head of a stream (05 R100). -/
def Stream.pop (b : Stream) : Stream :=
  { b with head := b.head + 1, ahead := b.ahead.filter fun e => decide (b.head < e.elem) }

/-- Applies one effect of a bundle to the registers. -/
def Regs.later (g : Regs) : Later → Regs
  | .tok t k => g.setTok t k
  | .edgeX n m => { g with x := g.x.setIfInBounds n m }
  | .edgeY n m => { g with y := g.y.setIfInBounds n m }
  | .ras n v => { g with ras := g.ras.setIfInBounds n v }
  | .rascnt n => { g with rascnt := n }
  | .rasn v => { g with rasn := v }
  | .scalar r v => { g with s := g.s.setIfInBounds r v }
  | .preds v => { g with p := merge 0xC0#10 (v.setWidth 10 <<< 6) g.p }
  | .fpst f => { g with fpst := f }
  | .fmt k f => { g with fmt := g.fmt.setIfInBounds k f }
  | .view w => { g with view := w }
  | .bind q b => { g with q := g.q.setIfInBounds q b }
  | .pop q => { g with q := g.q.setIfInBounds q ((g.q[q]?.getD none).map Stream.pop) }
  | .mark m => { g with marks := g.marks ++ [m] }

/-- Notes an effect for the end of the bundle; a stream is popped once however many fields name it
(04 R84), and before a binding of the same bundle takes hold (09 R207). -/
def State.later (s : State) (l : Later) : State :=
  let p := s.core.pipe
  if p.later.contains l then s else
  match l with
  | .pop _ => s.setPipe { p with later := l :: p.later }
  | _ => s.setPipe { p with later := p.later ++ [l] }

/-- Applies the effects noted by the slots of a bundle, whose results are in flight from here on, and
makes the posts of those whose guard was false. -/
def Core.finishLater (c : Core) : Core :=
  ({ c with
    regs := c.pipe.later.foldl Regs.later c.regs
    pipe := { c.pipe with later := [], land := c.pipe.land ++ c.pipe.fresh, fresh := [] } }).flush

/-- The same on the focused core. -/
def State.finishLater (s : State) : State := { s with core := s.core.finishLater }

end Sys2Proof.Machine
end

