-- ==== Sys2Proof/Machine/Witness.lean ====
section
/-!
DEFINITION. Witness entries, store agents, ripeness, merges and markers (12 R261 to R272), the cores of
the device, and the agenda of operations in flight.
-/
namespace Sys2Proof.Machine

/-! ### The cores and the agenda -/

/-- A logical core; one that has never run is as after power-up. -/
def State.coreOf (s : State) (id : Nat) : Core :=
  if s.core.id = id then s.core else (s.parked.find? fun c => decide (c.id = id)).getD (Core.reset id)

/-- Replaces a core. -/
def State.setCore (s : State) (c : Core) : State :=
  if s.core.id = c.id then { s with core := c }
  else { s with parked := c :: s.parked.filter fun q => !decide (q.id = c.id) }

/-- Turns to a core. -/
def State.focus (s : State) (id : Nat) : State :=
  if s.core.id = id then s
  else { s with
    core := s.coreOf id
    parked := s.core :: s.parked.filter fun q => !decide (q.id = id) }

/-- Turns to a core, acts on it, and turns back. -/
def State.onCore (s : State) (id : Nat) (f : State → State) : State := (f (s.focus id)).focus s.core.id

/-- Adds an operation or message in flight at the end of the agenda. -/
def State.push (s : State) (i : Event) : State := { s with agenda := s.agenda ++ [i] }

/-- Sends a packet: inside the device when it is the destination, else toward its device (log 10). -/
def State.send (s : State) (dev : BitVec 14) (i : Event) : State :=
  if dev = s.devnum then s.push i else { s with outbox := s.outbox ++ [(dev, i)] }

/-! ### Entries (12 R264) -/

/-- KIND. -/
def entKind (e : Word) : Nat := bits e.toNat 63 62
/-- SCOPE. -/
def entScope (e : Word) : Nat := bits e.toNat 61 60
/-- DEV. -/
def entDev (e : Word) : Nat := bits e.toNat 59 46
/-- AGENT. -/
def entAgent (e : Word) : Nat := bits e.toNat 45 35
/-- SEQ. -/
def entSeq (e : Word) : Nat := bits e.toNat 34 0

/-- An entry of its fields (12 R264). -/
def mkEntry (kind scope dev agent seq : Nat) : Word :=
  BitVec.ofNat 64 (kind % 4 * 2 ^ 62 + scope % 4 * 2 ^ 60 + dev % 2 ^ 14 * 2 ^ 46 +
    agent % 2 ^ 11 * 2 ^ 35 + seq % 2 ^ 35)

/-- An entry as the device writes it: an empty one as zeros (12 R264). -/
def normEntry (e : Word) : Word := if entKind e = 0 then 0 else e
/-- An entry with KIND 11 (12 R269). -/
def poisonEntry (e : Word) : Word := e ||| 0xC000000000000000

/-- Entry 0 or 1 of a witness value (12 R264). -/
def entry (w : Witness) (n : Nat) : Word := w.extractLsb' (64 * n) 64
/-- A witness value of its two entries. -/
def mkWit (e0 e1 : Word) : Witness := e1 ++ e0
/-- The entries of a witness value that are not empty. -/
def entriesOf (w : Witness) : List Word := [entry w 0, entry w 1].filter fun e => decide (entKind e ≠ 0)

/-! ### Agents (12 R261, R265) -/

/-- The agent that a device and an agent number name; one that has issued nothing is not listed. -/
def State.agentOf (s : State) (dev : BitVec 14) (a : Nat) : Agent :=
  (s.units.agents.find? fun q => decide (q.dev = dev ∧ q.agent = a)).getD ⟨dev, a, 0, [], [], []⟩

/-- Replaces an agent. -/
def State.setAgent (s : State) (q : Agent) : State :=
  { s with units := { s.units with
      agents := q :: s.units.agents.filter fun r => !decide (r.dev = q.dev ∧ r.agent = q.agent) } }

/-- The tokened access that an event performs. -/
def accessOf : Event → Option Access
  | .memoryPortAccess a => some a
  | .atomicPerform a => some a
  | .batchPerform a => some a
  | _ => none

/-- An access that returns the values of stores. -/
def AccOp.loads : AccOp → Bool
  | .load _ | .vload | .atomic .. => true
  | _ => false

/-- The number of an entry's store in its agent's series, for a current entry (12 R265). -/
def Agent.numberOf (q : Agent) (e : Word) : Nat := q.issued - (q.issued + 2 ^ 35 - entSeq e) % 2 ^ 35

/-- The store-point entry of a numbered store of this device (09 R197). -/
def State.storeEntry (s : State) (scope a n : Nat) : Word := mkEntry 1 scope s.devnum.toNat a n

/-- What a device tells of one of its agents: T_a, the number up to which every store is visible or has failed,
and the entries of those that have failed (12 R265, R269; log 12). -/
def State.agentReport (s : State) (q : Agent) : Ripe :=
  let first := (q.pend.map Prod.fst).foldl min (q.issued + 1)
  ⟨q.dev, q.agent, first - 1, q.agent, [], q.failed.map (s.storeEntry 0 q.agent ·), none, 3, 3, q.issued⟩

/-- The other devices of the domain learn how an agent of this device stands (12 R265, R267, R269; log 12). -/
def State.tellPeers (s : State) (a : Nat) : State :=
  s.peers.foldl (fun s d => if d = s.devnum then s else s.send d (.entryRipens (s.agentReport (s.agentOf s.devnum a)))) s

/-- Numbers a store of an agent of this device. -/
def State.number (s : State) (a : Nat) : State × Nat :=
  let q := s.agentOf s.devnum a
  ((s.setAgent { q with issued := q.issued + 1, pend := q.pend ++ [(q.issued + 1, 0)] }).tellPeers a, q.issued + 1)

/-- A report of another device on one of its agents (12 R265, R269; log 12). -/
def State.agentReported (s : State) (r : Ripe) : State :=
  let q := s.agentOf r.dev r.agent
  let t := max q.issued r.id
  s.setAgent { q with
    issued := t
    pend := if r.seq < t then [(r.seq + 1, 0)] else []
    failed := r.wi.map (Agent.numberOf { q with issued := t } ·) ++ q.failed }

/-- Whether an agent may issue one more store: at most 4,096 are outstanding (09 R197). -/
def State.roomFor (s : State) (a : Nat) : Bool := decide ((s.agentOf s.devnum a).pend.length < 4096)

/-- How an entry stands for an observer (12 R265 to R269; the codes of 13 R291). -/
inductive EntryState where
  | empty | ripe | unripe | poisoned | future
deriving DecidableEq, Repr

/-- The scope about an origin agent of a device that holds the agents of a scope about another, where scope
2 is the device and 3 the domain (12 R262): the smallest that contains a core, its cluster or every agent. -/
def State.scopeAbout (s : State) (e : Word) (viewer : Option Nat) : Nat :=
  let o := entAgent e
  if entDev e ≠ s.devnum.toNat then 3 else
  match viewer with
  | none => 2
  | some v =>
    if v = o then 0
    else if o < 1152 ∧ ((v < 1152 ∧ v / 24 = o / 24) ∨ v = 1216 + o / 24) then 1
    else 2

/-- SCOPE as it acts: cluster is package for an origin that is no core (12 R262). -/
def actScope (e : Word) : Nat := if 1152 ≤ entAgent e ∧ entScope e = 1 then 2 else entScope e

/-- Judges an entry for every agent within a scope about its origin, at least its own (12 R265 to R267,
R269): a store is visible to the device and to the domain alike once memory holds it. An entry of another
device is judged by what that device has told of its agent (log 12). -/
def State.judgeAt (s : State) (scope : Nat) (e : Word) : EntryState :=
  let dev := BitVec.ofNat 14 (entDev e)
  if entKind e = 0 then .empty
  else if entKind e = 3 then .poisoned
  else if 1368 < entAgent e ∨ ¬ (dev = s.devnum ∨ dev ∈ s.peers) then .future
  else
    let q := s.agentOf dev (entAgent e)
    let d := (q.issued + 2 ^ 35 - entSeq e) % 2 ^ 35
    if d < 2 ^ 34 then
      let n := q.issued - d
      if q.failed.contains n then .poisoned
      else if q.pend.any fun p => decide (p.1 ≤ n) && decide (p.2 ≤ max scope (actScope e)) then .unripe
      else .ripe
    else if 2 ^ 34 ≤ q.issued then .ripe
    else .future

/-- Judges an entry for an observing agent: it takes the smallest scope about its origin that contains that
agent, if its own does not (12 R267). -/
def State.judge (s : State) (viewer : Option Nat) (e : Word) : EntryState := s.judgeAt (s.scopeAbout e viewer) e

/-- An entry as the device copies it: KIND 11 once its store is known to have failed (12 R269). -/
def State.copyEntry (s : State) (e : Word) : Word :=
  if s.judge none e = .poisoned then poisonEntry e else normEntry e

/-- A witness value as the device copies it (12 R269). -/
def State.copyWit (s : State) (w : Witness) : Witness :=
  mkWit (s.copyEntry (entry w 0)) (s.copyEntry (entry w 1))

/-- What an access that names entries does next (09 R197). -/
inductive Observed where
  | ok
  | wait
  | bad (cause : Cause) (e : Word)
deriving DecidableEq, Repr

/-- Observes the stores that entries name: a poisoned entry first, then a future one, then one that is
not ripe (09 R197, 13 R292). -/
def State.observe (s : State) (viewer : Option Nat) (es : List Word) : Observed :=
  match es.find? fun e => decide (s.judge viewer e = .poisoned) with
  | some e => .bad .witPoison e
  | none => match es.find? fun e => decide (s.judge viewer e = .future) with
    | some e => .bad .witFuture e
    | none => if es.any fun e => decide (s.judge viewer e = .unripe) then .wait else .ok

/-! ### Merging (12 R270) -/

/-- Two entries of one agent become one (12 R270 step 2). -/
def fuse (a b : Word) : Word :=
  let later := if (entSeq b + 2 ^ 35 - entSeq a) % 2 ^ 35 < 2 ^ 34 then b else a
  let kind := if entKind a = 3 ∨ entKind b = 3 then 3 else entKind later
  mkEntry kind (max (entScope a) (entScope b)) (entDev a) (entAgent a) (entSeq later)

/-- Whether two entries name the same agent. -/
def sameAgent (a b : Word) : Bool := decide (entDev a = entDev b ∧ entAgent a = entAgent b)

/-- Adds an entry to entries of different agents, kept in (DEV, AGENT) order. -/
def addEntry (e : Word) : List Word → List Word
  | [] => [e]
  | x :: xs =>
    if sameAgent e x then fuse x e :: xs
    else if entDev e < entDev x ∨ (entDev e = entDev x ∧ entAgent e < entAgent x) then e :: x :: xs
    else x :: addEntry e xs

/-- Steps 1 and 2 of 12 R270 on a list of entries, in (DEV, AGENT) order. -/
def mergeEntries (es : List Word) : List Word :=
  (es.filter fun e => decide (entKind e ≠ 0)).foldl (fun acc e => addEntry e acc) []

/-- The value that at most two entries form, entry 0 the lower (12 R270 step 3); none if it overflows. -/
def witOfEntries : List Word → Option Witness
  | [] => some 0
  | [a] => some (mkWit a 0)
  | [a, b] => some (mkWit a b)
  | _ => none

/-! ### Visibility (12 R263, R267, R268; 08 R179) -/

/-- Drops from the caches the clean bytes that memory no longer holds, from every L1 and cluster cache, or
from the L1s of one cluster those that its agents no longer read below them. -/
def State.dropStaleIn (s : State) (cl : Option Nat) : State :=
  let view (b : L1Byte) : Byte := match cl with
    | none => Cells.get s.mem.cells b.key
    | some k => match l1Find (s.clusterBytes k) b.key with
      | some q => if q.dirty then q.val else Cells.get s.mem.cells b.key
      | none => Cells.get s.mem.cells b.key
  let f (c : Core) : Core := if cl.any fun k => decide (k ≠ c.id / 24) then c else { c with store := { c.store with
    l1 := c.store.l1.filter fun b => b.dirty || decide (b.val = view b) } }
  { s with
    core := f s.core, parked := s.parked.map f
    mem := { s.mem with cc := s.mem.cc.filter fun b =>
      b.2.dirty || decide (b.2.val = Cells.get s.mem.cells b.2.key) } }

/-- Drops from every cache the clean bytes that memory no longer holds. -/
def State.dropStale (s : State) : State := s.dropStaleIn none

/-- A dirty byte of a range. -/
def L1Byte.hit (b : L1Byte) (key n : Nat) : Bool := b.dirty && decide (key ≤ b.key) && decide (b.key < key + n)

/-- Bytes that some cores read already reach memory; the code words that they change stay what the other
instruction caches may hold (04 R75), and a line whose 64 bytes they are with a new check value is healed (15
R333). -/
def State.wrBytes (s : State) (seen : List Nat) (bs : List L1Byte) : State :=
  let t := s.noteOld seen (bs.map L1Byte.key)
  { t with mem := { t.mem with
    cells := bs.foldl (fun cs b => Cells.set cs b.key b.val) t.mem.cells
    poison := t.mem.poison.filter (!lineHealed bs ·)
    who := (bs.map fun b => (b.key, b.who)) ++ t.mem.who.filter fun w => !(bs.any fun b => decide (b.key = w.1)) } }

/-- Bytes that a core has stored reach its cluster's cache; the code words that they change stay what the other
instruction caches of the cluster may hold (04 R75). -/
def State.noteCluster (s : State) (id : Nat) (bs : List L1Byte) : State :=
  if s.sched.jobs = [] then s else
  let ic := s.codeRanges
  let keep (o : List OldWord) (a : Nat) : List OldWord :=
    let w := s.ownBytes (id / 24) [] a 4
    keepWord ic (if w = s.rd a 4 then [id] else coresBut fun c => decide (c / 24 = id / 24 ∧ c ≠ id)) o a
      (BitVec.ofNat 32 w)
  { s with mem := { s.mem with icOld := (bs.map fun b => b.key / 4 * 4).foldl keep s.mem.icOld } }

/-- Writes back the dirty bytes of the lines of a range from a core's L1, which become clean: to its cluster's
cache for scope 1, else to memory, after those of the cluster's cache (08 R179, R180; 12 R267, R273). -/
def State.writeBack (s : State) (scope id key n : Nat) : State :=
  let r := lineRange key n
  let c := s.coreOf id
  let cl := id / 24
  let own := c.store.l1.filter (·.hit r.1 r.2)
  let cc := (s.clusterBytes cl).filter (·.hit r.1 r.2)
  let gone (b : Nat × L1Byte) : Bool := decide (b.1 = cl) &&
    ((own.any fun o => decide (o.key = b.2.key)) || (decide (scope ≠ 1) && b.2.hit r.1 r.2))
  let s := if scope = 1 then s.noteCluster id own else (s.wrBytes (clusterCores cl) cc).wrBytes [id] own
  let moved := own.map fun b : L1Byte => (cl, { b with full := b.full || l1Healed cc b.key })
  let s := { s with mem := { s.mem with
    cc := (if scope = 1 then moved else []) ++ s.mem.cc.filter fun b => !gone b } }
  s.setCore { c with store := { c.store with
    l1 := c.store.l1.map fun b => if b.hit r.1 r.2 then { b with dirty := false } else b } }

/-- A write-back of a range to memory meets a held port (08 R171, R177; 15 R337). -/
def State.backHeld (s : State) (id key n : Nat) : Bool :=
  let r := lineRange key n
  ((s.coreOf id).store.l1 ++ s.clusterBytes (id / 24)).any fun b =>
    b.hit r.1 r.2 && ((decide (b.key < 2 ^ 52) && s.chanWaits b.chan) || s.lpWaits b.key)

/-- The entry of a store of an agent of this device may ripen for its own agent (1) or for its cluster (2): the store
and what it covers are visible there (12 R267, R268). -/
def State.reached (s : State) (a n level : Nat) : State :=
  let q := s.agentOf s.devnum a
  s.setAgent { q with pend := q.pend.map fun p => if p.1 = n then (n, max p.2 level) else p }

/-- A store and what it covers are visible to every agent: no line holds an older value, and its number no longer
holds up an entry (12 R267). -/
def State.visible (s : State) (a n : Nat) : State :=
  let q := s.agentOf s.devnum a
  let s := s.setAgent { q with issued := max q.issued n, pend := q.pend.filter fun p => !decide (p.1 = n) }
  s.dropStale.tellPeers a

/-- A store has failed: its entry is poisoned wherever it is named (12 R269). -/
def State.storeFailed (s : State) (a n : Nat) : State :=
  let q := s.agentOf s.devnum a
  (s.setAgent { q with
    pend := q.pend.filter fun p => !decide (p.1 = n)
    failed := n :: q.failed }).tellPeers a

/-! ### Markers (12 R271) -/

/-- The widest scope among entries, 0 for none. -/
def widest (es : List Word) : Nat := (es.map entScope).foldl max 0

/-- The entries of the stores whose values a load of a number has returned on a core (12 R266 item 3): those of
other agents that are not yet ripe are kept for its later stores, and the widest scope of all for the marker of
its continuation (R271). -/
def State.noteSeen (s : State) (core recPa id : Nat) (es : List Word) : State :=
  if es = [] then s else
  let open' (e : Word) : Bool := decide (s.judgeAt 2 e = .unripe)
  let q := s.agentOf s.devnum core
  let s := s.setAgent { q with
    seen := ((es.filter fun e => !decide (entDev e = s.devnum.toNat ∧ entAgent e = core) && open' e).map fun e => (id, e)) ++
      q.seen.filter fun p => open' p.2 }
  let c := s.coreOf core
  if c.cont.recPa = recPa then s.setCore { c with cont := { c.cont with wsc := max c.cont.wsc (widest es) } } else s

/-- A load of a continuation is in flight from a core. -/
def State.loading (s : State) (core recPa : Nat) : Bool :=
  s.agenda.any fun e => match accessOf e with
    | some a => decide (a.core = core ∧ a.recPa = recPa) && AccOp.loads a.op
    | none => false

/-- Issues a marker of a scope on a core that replaces entries: its entry (12 R268, R271). It ripens once
those entries, the core's earlier stores and what its loads in flight return have (log 12). -/
def State.marker (s : State) (id scope : Nat) (es : List Word) : State × Word :=
  let r := s.number id
  let s := { r.1 with nextId := r.1.nextId + 1 }
  (s.push (.entryRipens ⟨s.devnum, id, r.2, id, [], es, none, scope, 0, r.1.nextId⟩),
    mkEntry 2 scope s.devnum.toNat id r.2)

/-- The marker that a continuation issues when it leaves its core, which becomes its view: the widest
scope among the view's entries and the stores that it issued or observed there (12 R271), and 3 while a load is
in flight, which may yet return a store of any scope (log 12). -/
def State.leaveMarker (s : State) : State :=
  let es := entriesOf s.core.regs.view
  let w := if s.loading s.core.id s.core.cont.recPa then 3 else max s.core.cont.wsc (widest es)
  let r := s.marker s.core.id w es
  r.1.setRegs { r.1.core.regs with view := mkWit r.2 0 }

end Sys2Proof.Machine
end

