-- ==== Sys2Proof/Machine/Faults.lean ====
section
/-!
DEFINITION. Trap cause codes and fault records (14 R306, R311), and the chain state that does not
depend on values: lookup, retirement, freeze, cancel and loss of links (10 R222 to R240, 11 R242).
-/
namespace Sys2Proof

/-- The code of a trap cause (14 R306). -/
def Cause.code : Cause → Nat
  | .illegalOp => 0x01 | .illegalBundle => 0x02 | .fetchBounds => 0x03 | .bufBounds => 0x04
  | .bufRights => 0x05 | .bufOwner => 0x06 | .xlate => 0x07 | .underwait => 0x08
  | .tokenFault => 0x09 | .witPoison => 0x0A | .witFuture => 0x0B | .rasFull => 0x0C
  | .rasEmpty => 0x0D | .brk => 0x0E | .swtrap => 0x0F | .runOverrun => 0x10
  | .chainFrozen => 0x11 | .linkLost => 0x12 | .xQueueFull => 0x13 | .cancel => 0x14
  | .eccUncorr => 0x15 | .gangDesync => 0x16 | .viewConflict => 0x17

/-- The causes whose disposition is Freeze (14 R306). -/
def Cause.freezes : Cause → Bool
  | .runOverrun | .gangDesync => true
  | _ => false

end Sys2Proof

namespace Sys2Proof.Machine

/-- The fields of a fault record but DEV and SEQ (14 R311). -/
structure FaultInfo where
  cause : Nat
  slot : Nat
  source : Nat
  status : Nat
  agent : Nat
  pc : Nat
  record : Word
  addr : Word
  lanes : Nat
  ident : Nat
  detail : Nat
  wit : Word
  hreason : Nat
deriving DecidableEq, Repr

/-- The 64 bytes of a fault record (14 R311). -/
def FaultInfo.image (f : FaultInfo) (dev : BitVec 14) (seq : Nat) : Nat :=
  let w0 := f.cause % 64 * 2 ^ 58 + f.slot % 8 * 2 ^ 55 + f.source % 16 * 2 ^ 51 +
    f.status % 256 * 2 ^ 43 + f.agent % 2 ^ 11 * 2 ^ 32 + f.pc % 2 ^ 32
  let w4 := f.ident % 2 ^ 16 * 2 ^ 48 + f.detail % 2 ^ 48
  let w6 := dev.toNat * 2 ^ 50 + f.hreason % 4 * 2 ^ 48
  w0 + f.record.toNat * 2 ^ 64 + f.addr.toNat * 2 ^ 128 + f.lanes % 2 ^ 64 * 2 ^ 192 + w4 * 2 ^ 256 +
    f.wit.toNat * 2 ^ 320 + w6 * 2 ^ 384 + seq % 2 ^ 64 * 2 ^ 448

/-- Writes a fault record into buffer 0 of a job and advances NEXT: its offset, or 0 where none can be
written, which takes no number of the device's series (14 R311). A buffer 0 in TIER 3 takes none (log 50). The operation
in turn waits while a port of the record is held (08 R171, R177). -/
def State.putFault (s : State) (job : Nat) (f : FaultInfo) : State × BitVec 48 :=
  match s.job? job with
  | none => (s, 0)
  | some j =>
    match s.buf? j 0 with
    | none => (s, 0)
    | some b =>
      let L := b.length / 64 * 64
      if b.tier = 3 ∨ L < 128 then (s, 0) else
      match s.bufSpans j b 0 16 with
      | (s, .error _) => (s, 0)
      | (s, .ok hdr) =>
        let s := s.waitFor b 0 16 hdr
        let h := s.rdSpans hdr
        let next0 := h % 2 ^ 64
        let next := if next0 % 64 = 0 ∧ 64 ≤ next0 ∧ next0 ≤ L - 64 then next0 else 64
        match s.bufSpans j b next 64 with
        | (s, .error _) => (s, 0)
        | (s, .ok ks) =>
          let s := s.waitFor b next 64 ks
          let seq := s.sched.faultSeq + 1
          let s := s.wrSpans ks (f.image s.devnum seq.toNat)
          let next' := if next + 64 ≤ L - 64 then next + 64 else 64
          let s := s.wrSpans hdr (next' + (h / 2 ^ 64 + 1) % 2 ^ 64 * 2 ^ 64)
          ({ s with sched := { s.sched with faultSeq := seq } }, BitVec.ofNat 48 next)

/-- Writes a fault record into buffer 0 of a job and notes its offset as that of the job's last one (01 R20,
14 R311). -/
def State.faultRecord (s : State) (job : Nat) (f : FaultInfo) : State × BitVec 48 :=
  match s.putFault job f with
  | (s, off) => match s.job? job with
    | some j => (s.setJob { j with frec := off }, off)
    | none => (s, off)

/-- The level and the pointer that the fault record at an offset of a job's buffer 0 gives for a translation
that failed: DETAIL and ADDR (14 R311). -/
def State.faultXl (s : State) (job : Nat) (off : BitVec 48) : Option (Nat × Word) :=
  match s.job? job with
  | none => none
  | some j => if off = 0 then none else
    match s.rdPtr j 0 (mkPtr 0 off.toNat) 64 with
    | (_, .ok x) => some (fld x 0x20 6 % 8, BitVec.ofNat 64 (fld x 0x10 8))
    | (_, .error _) => none

/-- A fault that a core meets, at issue (0) or after it (1). -/
def coreFault (cause : Cause) (source core slot : Nat) (pc : Pc) (rec addr : Word) : FaultInfo :=
  ⟨cause.code, slot, source, 0, core, pc.toNat, rec, addr, 0, 0, 0, 0, 0⟩

/-- The record of a continuation, by its key. -/
def State.rec? (s : State) (pa : Nat) : Option Rec := s.sched.recs.find? fun r => decide (r.pa = pa)
/-- Replaces a live record's entry. -/
def State.setRec (s : State) (r : Rec) : State :=
  { s with sched := { s.sched with recs := s.sched.recs.map fun q => if q.pa = r.pa then r else q } }

/-- Delivers a completion to its continuation: through the core that runs it, or into its frame
(05 R107, 14 R314). -/
def State.deliver (s : State) (c : Completion) : State := s.push (.tokenedOperationComplete c)

/-! ### Chains -/

/-- DEV of a hop-table entry (10 R223). -/
def hopDev (e : Word) : Nat := bits e.toNat 63 50
/-- SUCC of a hop-table entry; 0x7F for the tail. -/
def hopSucc (e : Word) : Nat := bits e.toNat 49 43
/-- APOS of a hop-table entry. -/
def hopApos (e : Word) : Nat := bits e.toNat 42 41
/-- HFMT of a hop-table entry: FP64. -/
def hop64 (e : Word) : Bool := decide (bits e.toNat 40 40 = 1)
/-- COUNT of a hop-table entry. -/
def hopCount (e : Word) : Nat := bits e.toNat 31 0

/-- The entry of a link index. -/
def Chain.hop (c : Chain) (j : Nat) : Word := c.table.getD (j + 1) 0
/-- NLINK. -/
def Chain.nlink (c : Chain) : Nat := bits (c.table.getD 0 0).toNat 7 0
/-- The index of the tail. -/
def Chain.tail (c : Chain) : Nat :=
  ((List.range c.nlink).find? fun j => decide (hopSucc (c.hop j) = 0x7F)).getD 0
/-- The predecessors of a link, in APOS order. -/
def Chain.preds (c : Chain) (j : Nat) : List Nat :=
  (List.range 4).filterMap fun p =>
    (List.range c.nlink).find? fun i => decide (hopSucc (c.hop i) = j ∧ hopApos (c.hop i) = p)
/-- The device whose hop port is the instance's arbiter (11 R242). -/
def Chain.arbDev (c : Chain) : BitVec 14 := BitVec.ofNat 14 (hopDev (c.hop c.tail))
/-- The devices that hold links of the instance. -/
def Chain.devs (c : Chain) : List (BitVec 14) :=
  ((c.table.drop 1).map fun e => BitVec.ofNat 14 (hopDev e)).eraseDups

/-- An instance of a job, chain number and INST. -/
def State.chain? (s : State) (job : Nat) (ch : BitVec 10) (inst : BitVec 16) : Option Chain :=
  s.units.chains.find? fun c => decide (c.job = job ∧ c.ch = ch ∧ c.inst = inst)
/-- Replaces an instance, or adds it, on this device. -/
def State.putChain (s : State) (c : Chain) : State :=
  { s with units := { s.units with
      chains := c :: s.units.chains.filter fun q => !decide (q.job = c.job ∧ q.ch = c.ch ∧ q.inst = c.inst) } }

/-- A message of an instance about a link (10 R224). -/
def Chain.msg (c : Chain) (j : Nat) : ChainMsg := ⟨c.job, c.ch, c.inst, c.digest, j, j, 0, false, []⟩

/-- Sends a message of an instance to every other device that holds links of it. -/
def State.tellChain (s : State) (c : Chain) (i : Event) : State :=
  c.devs.foldl (fun s d => if d = s.devnum then s else s.send d i) s

/-- Bits [61:0] of the chain query word of a link that its device holds (10 R237). -/
def Link.word (l : Link) : Nat :=
  l.state * 2 ^ 59 + l.cause * 2 ^ 53 + (2 ^ l.arrived - 1) * 2 ^ 49 + (if l.spl then 2 ^ 48 else 0) +
    l.flags.toNat * 2 ^ 42 + (if l.state = 4 ∨ l.state = 5 then 2 ^ 32 - 1 else l.applied)

/-- Replaces an instance, or adds it; the other devices of the instance are told of every link whose word has
changed (10 R230, R237, R239; log 10). -/
def State.setChain (s : State) (c : Chain) : State :=
  let told (l : Link) : Bool := ((s.chain? c.job c.ch c.inst).map Chain.links).any fun ls =>
    ls.any fun q => decide (q.idx = l.idx ∧ q.word = l.word)
  (c.links.filter fun l => !told l).foldl (fun s l =>
    s.tellChain c (.announcement { c.msg l.idx with vals := [BitVec.ofNat 64 l.word] })) (s.putChain c)

/-- The link of an index that this device holds. -/
def Chain.link? (c : Chain) (j : Nat) : Option Link := c.links.find? fun l => decide (l.idx = j)
/-- Replaces a link of an instance, or adds it. -/
def Chain.setLink (c : Chain) (l : Link) : Chain :=
  { c with links := l :: c.links.filter fun q => !decide (q.idx = l.idx) }

/-- The key of a request whose answer nothing waits for. -/
abbrev noKey : Nat := 2 ^ 40

/-- The instance and link whose slot is open in a slot of a core; an FP64 link also holds the next
slot (05 R102, 10 R222). -/
def State.openLink (s : State) (core slot : Nat) : Option (Chain × Link) :=
  s.units.chains.findSome? fun c => (c.links.find? fun l =>
    l.isOpen && decide (l.core = core) &&
      (decide (l.slot = slot) || (hop64 (c.hop l.idx) && decide (l.slot + 1 = slot)))).map fun l => (c, l)

/-- The open links of a continuation on a core. -/
def State.openLinks (s : State) (core recPa : Nat) : List (Chain × Link) :=
  s.units.chains.flatMap fun c => (c.links.filter fun l =>
    l.isOpen && decide (l.core = core ∧ l.recPa = recPa)).map fun l => (c, l)

/-- Lowers OPENK of the continuation of a released link (10 R232). -/
def State.lowerOpenk (s : State) (l : Link) : State :=
  let c := s.coreOf l.core
  if l.isOpen && decide (c.cont.recPa = l.recPa)
  then s.setCore { c with cont := { c.cont with openk := c.cont.openk - 1 } } else s

/-- Puts a link in a state with its slot released (10 R222, R232). -/
def State.releaseLink (s : State) (c : Chain) (l : Link) (state : Nat) : State :=
  (s.lowerOpenk l).setChain ((((s.chain? c.job c.ch c.inst).getD c)).setLink
    { l with state := state, isOpen := false })

/-- Retires every link of an instance that this device holds, with a chain state (10 R231, R240). -/
def State.retireLinks (s : State) (c : Chain) (state : Nat) : State :=
  c.links.foldl (fun s l => s.releaseLink { c with state := state } l 6) (s.setChain { c with state := state })

/-- The cancel of an instance as this device learns of it: no effect once it has closed (10 R240, 11
R242). -/
def State.cancelHere (s : State) (c : Chain) : State :=
  match s.chain? c.job c.ch c.inst with
  | some c => if c.state ≤ 1 then s.retireLinks c 3 else s
  | none => s

/-- Sends the arbiter of an instance a request whose answer nothing waits for (11 R242). -/
def State.tellArbiter (s : State) (c : Chain) (kind : ArbKind) (j core : Nat) : State :=
  s.send c.arbDev (.arbiterRequest ⟨c.job, c.ch, c.inst, c.digest, kind, j, core, noKey, s.devnum, none⟩)

/-- Cancels an instance at its arbiter, in the order in which requests arrive there: a link retires as the
cancel reaches its core (10 R240, 11 R242; log 23). -/
def State.cancelChain (s : State) (c : Chain) : State :=
  if c.state ≤ 1 then
    if c.arbDev = s.devnum then (s.cancelHere c).tellChain c (.chainCancelMessage (c.msg 0))
    else s.tellArbiter c .cancel 0 s.core.id
  else s

/-- No record: the continuation of a link that waits for a cancel has left its core. -/
abbrev noRec : Nat := 2 ^ 64

/-- A continuation gives up its open links on a core, whose chains have been cancelled: the slots stay open
until the cancel reaches the core (10 R222, R232, R240; log 23). -/
def State.abandonLinks (s : State) (core recPa : Nat) : State :=
  (s.openLinks core recPa).foldl (fun s p =>
    match s.chain? p.1.job p.1.ch p.1.inst with
    | some c => (s.lowerOpenk p.2).setChain (c.setLink { p.2 with recPa := noRec })
    | none => s) s

/-- Cancels every chain in which a continuation holds an open link on a core (14 R318, R331). -/
def State.cancelChains (s : State) (core recPa : Nat) : State :=
  ((s.openLinks core recPa).foldl (fun s p =>
    match s.chain? p.1.job p.1.ch p.1.inst with | some c => s.cancelChain c | none => s) s).abandonLinks core recPa

/-- The freeze of an instance as this device learns of it (10 R235). -/
def State.freezeHere (s : State) (c : Chain) : State :=
  match s.chain? c.job c.ch c.inst with
  | some c => if c.state = 0 then s.setChain { c with state := 1 } else s
  | none => s

/-- An event that freezes an instance: a fault record, the cause at the link concerned, and the freeze,
at the arbiter, which is told the state of a link that has failed (10 R235, 11 R242; log 23). -/
def State.freezeChain (s : State) (c : Chain) (cause : Cause) (j : Nat) (note : Option Nat) (rec : Word)
    (agent : Nat) : State :=
  let r := s.faultRecord c.job ⟨cause.code, 0, 3, 0, agent, 0, rec, 0, 0, c.ch.toNat, 0, 0, 0⟩
  let s := r.1
  let s := match s.chain? c.job c.ch c.inst with
    | some c => match c.link? j with
      | some l => s.setChain (c.setLink { l with cause := cause.code })
      | none => s
    | none => s
  if c.arbDev = s.devnum then (s.freezeHere c).tellChain c (.chainFreezeMessage (c.msg j))
  else s.tellArbiter c (.freeze cause (note.map fun st => (j, st))) j agent

/-- What an arbiter is told of a link that is LOST: 13 where its successor has acknowledged its value, else 5
(10 R222, R239). -/
def Link.lost (l : Link) : Nat := if l.acked then 13 else 5

/-- A link is lost with its slot released, and its instance freezes with LINK_LOST unless it has ended
(10 R222, R235; 06 R123; 03 R68). -/
def State.loseLink (s : State) (c : Chain) (l : Link) (rec : Word) : State :=
  let s := s.releaseLink c l 5
  if c.state ≤ 1 then s.freezeChain c .linkLost l.idx (some l.lost) rec l.core else s

end Sys2Proof.Machine
end

