-- ==== Sys2Proof/Machine/Levels.lean ====
section
/-!
DEFINITION. Levels of work: records, starting, ending, cancelling and the creation of continuation
records (01 R20 to R28, R350; 03 R54 to R60, R70; 15 R330, R331).
-/
namespace Sys2Proof.Machine

/-- Replaces a bit range of a number. -/
def setBits (x hi lo v : Nat) : Nat := x - bits x hi lo * 2 ^ lo + v % 2 ^ (hi + 1 - lo) * 2 ^ lo

/-- Reads a word of a record at a key. -/
def State.word (s : State) (pa off : Nat) : Nat := s.rd (pa + off) 8
/-- Reads a field of a word of a record. -/
def State.fieldOf (s : State) (pa off hi lo : Nat) : Nat := bits (s.word pa off) hi lo
/-- A started level, by its record's key. -/
def State.level? (s : State) (pa : Nat) : Option Level := s.sched.levels.find? fun l => decide (l.pa = pa)

/-- The job and the pointer of a continuation or level record; a job record has no pointer (01 R26). -/
def State.recordPtr (s : State) (pa : Nat) : Option (Nat × Word) :=
  match s.rec? pa with
  | some r => some (r.job, r.ptr)
  | none => match s.level? pa with
    | some l => if l.kind = 4 then none else some (l.job, l.ptr)
    | none => none

/-- Writes n bytes at an offset of a record; the operation in turn waits where the record's port is held (08
R171, R177). -/
def State.wrRec (s : State) (pa off n x : Nat) : State :=
  (match s.recordPtr pa with
    | some p => s.waitAt p.1 p.2 64 pa
    | none => s).wr (pa + off) n x

/-- Changes a field of a word of a record by one access at the port (01 R28). -/
def State.setField (s : State) (pa off hi lo v : Nat) : State :=
  s.wrRec pa off 8 (setBits (s.word pa off) hi lo v)

/-- STATUS codes (01 R25). -/
abbrev stWaiting : Nat := 0
abbrev stQueued : Nat := 1
abbrev stRunning : Nat := 2
abbrev stDone : Nat := 3
abbrev stCancelled : Nat := 4
abbrev stPlaceUnsat : Nat := 5
abbrev stBadObject : Nat := 6
abbrev stFaulted : Nat := 7
abbrev stBadGraph : Nat := 8

/-- CREQ of a level record. -/
def State.creq (s : State) (pa : Nat) : Bool := decide (s.fieldOf pa 0 55 55 = 1)

/-- Replaces a level's entry, or adds it. -/
def State.setLevel (s : State) (l : Level) : State :=
  { s with sched := { s.sched with levels := l :: s.sched.levels.filter fun q => !decide (q.pa = l.pa) } }
/-- Forgets a level that has ended. -/
def State.dropLevel (s : State) (pa : Nat) : State :=
  { s with sched := { s.sched with levels := s.sched.levels.filter fun q => !decide (q.pa = pa) } }
/-- The started children of a level, in index order. -/
def State.children (s : State) (pa : Nat) : List Level :=
  sortBy (fun a b => decide (a.index ≤ b.index)) (s.sched.levels.filter fun l => decide (l.parent = pa))

/-- A word of a level, as read when it left WAITING (01 R27). -/
def Level.w (l : Level) (off : Nat) : Nat := (l.words.getD (off / 8) 0).toNat

/-- The eight words of a record. -/
def State.words8 (s : State) (pa : Nat) : List Word :=
  (List.range 8).map fun i => BitVec.ofNat 64 (s.word pa (8 * i))

/-- The fault record of a pointer of a level record that fails (01 R350). -/
def State.levelFault (s : State) (job : Nat) (f : Fail) (record addr : Word) : State :=
  (s.faultRecord job ⟨f.1.code, 0, 7, 0, 0x7FF, 0, record, addr, 0, 0, f.2, 0, 0⟩).1

/-- Resolves a pointer to a level or continuation record: its key (01 R350). A misaligned pointer fails with
BUF_BOUNDS (log 41). -/
def State.recordKey (s : State) (j : Job) (p : Word) (n : Nat) : State × Except Fail Nat :=
  match s.resolve j needL p n with
  | (s, .error f) => (s, .error f)
  | (s, .ok ks) =>
    if ptrOff p % 64 ≠ 0 then (s, .error (.bufBounds, 0)) else (s, .ok (ks.headD (0, 0)).1)

/-! ### Clusters and cores -/

/-- The clusters that a job owns, in increasing order. -/
def Job.owned (j : Job) : List Nat := (List.range 48).filter fun c => j.clusters.getLsbD c
/-- The usable cores of a cluster (03 R68). -/
def State.usable (s : State) (cl : Nat) : List Nat :=
  if s.sched.offClusters.getLsbD cl then [] else
  (clusterCores cl).filter fun c => !s.sched.offCores.contains c
/-- The job that owns a cluster. -/
def State.owner? (s : State) (cl : Nat) : Option Job :=
  s.sched.jobs.find? fun j => j.clusters.getLsbD cl

/-! ### Continuation records (01 R20) -/

/-- STATE codes of a continuation record. -/
abbrev csReady : Nat := 1
abbrev csRunning : Nat := 2
abbrev csWaiting : Nat := 3
abbrev csFrozen : Nat := 4
abbrev csRetired : Nat := 5

/-- STATE of a record. -/
def State.recState (s : State) (pa : Nat) : Nat := s.fieldOf pa 0 63 60

/-- The frame size of a gang size (01 R21, 14 R315). -/
def frameSize (gsize : Nat) : Nat := 1024 + max 1 gsize * 114688

/-- The 64 bytes of a new record (01 R20, R21, 06 R124). -/
def newRecord (strict debug spwn : Bool) (cobj pc : Nat) (frame : Word) (unit launch gsize : Nat)
    (arg0 arg1 : Word) (lix rank run : Nat) : Nat :=
  let w0 := csReady * 2 ^ 60 + (if gsize ≠ 0 then 2 ^ 54 else 0) + (if strict then 2 ^ 53 else 0) +
    (if debug then 2 ^ 52 else 0) + (if spwn then 2 ^ 51 else 0) + cobj % 2 ^ 16 * 2 ^ 32 + pc % 2 ^ 32
  let w2 := unit % 2 ^ 32 * 2 ^ 32 + launch % 2 ^ 16 * 2 ^ 16 + 0x7FF * 2 ^ 5 + gsize % 32
  let w5 := lix % 2 ^ 16 * 2 ^ 16 + 0xFFFF
  let w6 := rank % 16 * 2 ^ 60 + run % 2 ^ 32
  w0 + frame.toNat * 2 ^ 64 + w2 * 2 ^ 128 + arg0.toNat * 2 ^ 192 + arg1.toNat * 2 ^ 256 +
    w5 * 2 ^ 320 + w6 * 2 ^ 384

/-- Makes a record RETIRED with its status and cause, and leaves its decrement to be made once its
stores have ripened and its commands have ended (15 R330). -/
def State.retireRec (s : State) (pa rstat cause : Nat) : State :=
  let w0 := setBits (setBits (s.word pa 0) 63 60 csRetired) 59 56 rstat
  let s := s.wrRec pa 0 64 (setBits (setBits (s.rd pa 64) 511 506 cause) 63 0 w0)
  match s.rec? pa with
  | none => s
  | some r => (s.setRec { r with retired := true, done := decide (rstat = 1) }).push (.retirementDecrement pa)

/-- The core that runs a record; for a gang its captain. -/
def State.runner? (s : State) (pa : Nat) : Option Core :=
  (s.core :: s.parked).find? fun c => decide (c.phase ≠ .idle ∧ c.cont.recPa = pa ∧ c.cont.member = 0)

/-! ### What is still to be done while levels start and end -/

/-- One step of starting, ending or cancelling levels. -/
inductive Todo where
  | startPhase (p : Word) (job : Nat) (holder : Word)
  | startGraph (pa : Nat) (ptr : Word) (phase index : Nat)
  | runGraph (pa : Nat)
  | queueLaunch (pa : Nat)
  | placeLaunch (pa : Nat)
  | finish (pa : Nat) (atStart : Option Nat)
  | childEnded (pa : Nat) (ok : Bool)
  | cancel (pa : Nat)
deriving DecidableEq, Repr

/-- The pointers of n consecutive 64-byte records from a pointer. -/
def recordPtrs (p : Word) (n : Nat) : List Word := (List.range n).map fun i => ptrAdd p (64 * i)

/-- The keys of the records that pointers name, or the first failure. -/
def State.recordKeys (s : State) (j : Job) (n : Nat) : List Word → State × Except Fail (List Nat)
  | [] => (s, .ok [])
  | p :: ps =>
    match s.recordKey j p n with
    | (s, .error f) => (s, .error f)
    | (s, .ok k) => match s.recordKeys j n ps with
      | (s, .ok ks) => (s, .ok (k :: ks))
      | r => r

/-- Whether PARENT of a record names a given record (01 R350); 0 for a job's. One that names another record
fails with BUF_BOUNDS (log 41). -/
def State.parentOk (s : State) (j : Job) (pa parent : Nat) : State × Option Fail :=
  match s.recordKey j (BitVec.ofNat 64 (s.word pa 8)) 64 with
  | (s, .error f) => (s, some f)
  | (s, .ok k) => (s, if k = parent then none else some (.bufBounds, 0))

/-- Removes launches without predecessors among those left until none can be removed (01 R27). -/
def topo (edges : List (Nat × Nat)) : Nat → List Nat → List Nat
  | 0, left => left
  | n + 1, left =>
    topo edges n (left.filter fun v => edges.any fun e => decide (e.2 = v) && left.contains e.1)

/-- A graph's edges name its launches and form no cycle (01 R27). -/
def edgesOk (n : Nat) (edges : List (Nat × Nat)) : Bool :=
  (edges.all fun e => decide (e.1 < n) && decide (e.2 < n)) && (topo edges n (List.range n)).isEmpty

/-- Edges of a list of 4-byte words (01 R26). -/
def edgesOf (img n : Nat) : List (Nat × Nat) :=
  (List.range n).map fun i => (fld img (4 * i + 2) 2, fld img (4 * i) 2)

/-- A phase leaves WAITING: its graphs follow in index order (03 R56, R57; 01 R350). -/
def State.startPhase (s : State) (p : Word) (job : Nat) (holder : Word) : State × List Todo :=
  match s.job? job with
  | none => (s, [])
  | some j =>
    match s.recordKey j p 64 with
    | (s, .error f) =>
      let s := s.levelFault job f holder p
      let s := match s.level? job with | some l => s.setLevel { l with ok := false } | none => s
      (s.setField job 0 31 0 0, [.finish job none])
    | (s, .ok pa) =>
      let s := s.setLevel ⟨pa, p, 3, job, job, 0, s.words8 pa, [], [], false, true⟩
      if s.creq pa then (s, [.finish pa none]) else
      let n := s.fieldOf pa 0x20 31 0
      match s.parentOk j pa job with
      | (s, some f) => (s.levelFault job f p (BitVec.ofNat 64 (s.word pa 8)), [.finish pa (some stFaulted)])
      | (s, none) =>
        let gtab := BitVec.ofNat 64 (s.word pa 0x18)
        match (if n = 0 then (s, .ok []) else s.recordKeys j 64 (recordPtrs gtab n)) with
        | (s, .error f) => (s.levelFault job f p gtab, [.finish pa (some stFaulted)])
        | (s, .ok ks) =>
          let s := (s.setField pa 0 59 56 stRunning).setField pa 0 31 0 n
          if n = 0 then (s, [.finish pa none]) else
          (s, (ks.zip (List.range n)).map fun k => .startGraph k.1 (ptrAdd gtab (64 * k.2)) pa k.2)

/-- A graph leaves WAITING and is checked (01 R27, R350; 03 R56 step 2). A poisoned byte of EDGES counts
as a pointer that fails, with cause ECC_UNCORR (log 41). -/
def State.startGraph (s : State) (pa : Nat) (ptr : Word) (phase index : Nat) : State × List Todo :=
  match s.level? phase with
  | none => (s, [])
  | some ph =>
  match s.job? ph.job with
  | none => (s, [])
  | some j =>
    let l : Level := ⟨pa, ptr, 2, ph.job, phase, index, s.words8 pa, [], [], false, true⟩
    let s := s.setLevel l
    if s.creq pa then (s, [.finish pa none]) else
    let n := l.w 0x28 % 2 ^ 32
    let ne := bits (l.w 0x28) 63 32
    let bad (s : State) (f : Fail) (a : Word) : State × List Todo :=
      (s.levelFault ph.job f ptr a, [.finish pa (some stBadGraph)])
    match s.parentOk j pa phase with
    | (s, some f) => bad s f (BitVec.ofNat 64 (l.w 8))
    | (s, none) =>
      if n = 0 ∨ 65535 < n then (s, [.finish pa (some stBadGraph)]) else
      let ltab := BitVec.ofNat 64 (l.w 0x18)
      match s.recordKeys j 64 (recordPtrs ltab n) with
      | (s, .error f) => bad s f ltab
      | (s, .ok ks) =>
        match (if ne = 0 then (s, .ok 0) else s.rdPtr j needR (BitVec.ofNat 64 (l.w 0x20)) (4 * ne)) with
        | (s, .error f) => bad s f (BitVec.ofNat 64 (l.w 0x20))
        | (s, .ok img) =>
          let edges := edgesOf img ne
          let preds (i : Nat) : Nat := (edges.filter fun e => decide (e.2 = i)).length
          let kis := ks.zip (List.range n)
          if !edgesOk n edges ∨ (kis.any fun k => decide (s.fieldOf k.1 0x38 15 0 ≠ preds k.2))
            then (s, [.finish pa (some stBadGraph)])
          else
            let s := s.setLevel { l with edges := edges, kids := ks }
            let s := kis.foldl (fun s k =>
              s.setLevel ⟨k.1, ptrAdd ltab (64 * k.2), 1, ph.job, pa, k.2, [], [], [], true, true⟩) s
            (s, [.runGraph pa])

/-- A graph that has passed its check becomes RUNNING, and its launches without predecessors become QUEUED
(03 R56 step 3). A launch whose CREQ was set before ends as the graph would start it. -/
def State.runGraph (s : State) (pa : Nat) : State × List Todo :=
  match s.level? pa with
  | none => (s, [])
  | some l =>
    let preds (i : Nat) : Nat := (l.edges.filter fun e => decide (e.2 = i)).length
    let s := (s.setField pa 0 59 56 stRunning).setField pa 0 31 0 l.kids.length
    (s, (l.kids.zip (List.range l.kids.length)).filterMap fun k =>
      if s.creq k.1 then some (.finish k.1 none)
      else if preds k.2 = 0 then some (.queueLaunch k.1) else none)

/-- The cluster that record i of a launch goes to (03 R60, R70). -/
def State.assign (s : State) (j : Job) (gsize i : Nat) : Option Nat :=
  let cls := j.owned
  let home := cls.getD (i % cls.length) 0
  if gsize ≤ (s.usable home).length then some home
  else cls.find? fun c => decide (gsize ≤ (s.usable c).length)

/-- Creates one record of a launch (01 R21). -/
def State.createRec (s : State) (j : Job) (l : Level) (o : ObjInfo) (e : Entry)
    (crec : Word) (pa licPa i : Nat) : State :=
  let n := bits (l.w 0x20) 63 32
  let gsize := bits (l.w 0x38) 47 43
  let frame := ptrAdd crec (n * 64 + i * frameSize gsize)
  let arg0 := BitVec.ofNat 64 (l.w 0x28 + i * bits (l.w 0x38) 63 48)
  let strict := decide (bits j.modes.toNat 1 1 = 1) || decide (o.flags % 2 = 1)
  let s := s.wr licPa 8 0
  let s := s.wr pa 64 (newRecord strict (decide (bits j.modes.toNat 2 2 = 1)) false (bits (l.w 0x20) 31 16)
    e.pc frame i l.index gsize arg0 (BitVec.ofNat 64 (l.w 0x30)) e.lix (bits (l.w 0x38) 42 39) e.run)
  { s with sched := { s.sched with recs := s.sched.recs ++
      [⟨pa, ptrAdd crec (64 * i), j.pa, l.pa, (s.assign j gsize i).getD 0, s.tick, 0, [], [], false, false,
        false, [], []⟩] } }

/-- Creates the records from number i on (01 R21). -/
def State.createRecs (s : State) (j : Job) (l : Level) (o : ObjInfo) (e : Entry) (crec : Word) (i : Nat) :
    List (Nat × Nat) → State
  | [] => s
  | (pa, fp) :: ks => (s.createRec j l o e crec pa fp i).createRecs j l o e crec (i + 1) ks

/-- The keys of the LIC words of the frames of a launch, or the first frame that fails (01 R21, R350). -/
def State.frameKeys (s : State) (j : Job) (size : Nat) : List Word → State × Except Fail (List Nat)
  | [] => (s, .ok [])
  | p :: ps =>
    match s.resolve j needL p size with
    | (s, .error f) => (s, .error f)
    | (s, .ok ks) => match s.frameKeys j size ps with
      | (s, .ok r) => (s, .ok ((keyAt ks 0x88).getD 0 :: r))
      | r => r

/-- A launch leaves WAITING and becomes QUEUED (01 R27; 03 R56 step 3). -/
def State.queueLaunch (s : State) (pa : Nat) : State × List Todo :=
  match s.level? pa with
  | none => (s, [])
  | some l =>
    let s := s.setLevel { l with words := s.words8 pa, waiting := false }
    if s.creq pa then (s, [.finish pa none]) else (s.setField pa 0 59 56 stQueued, [.placeLaunch pa])

/-- A QUEUED launch is validated, placed, and its records are created (03 R56 step 4, R57, R70; 01 R18,
R21, R350). PARENT, CREC and the frames are judged after the object and the place (log 41). -/
def State.placeLaunch (s : State) (pa : Nat) : State × List Todo :=
  match s.level? pa with
  | none => (s, [])
  | some l =>
  match s.job? l.job with
  | none => (s, [])
  | some j =>
    let n := bits (l.w 0x20) 63 32
    let gsize := bits (l.w 0x38) 47 43
    match s.validate j (bits (l.w 0x20) 31 16) with
    | (s, c, o) =>
      let ent := o.entries[bits (l.w 0x20) 15 0]?
      let c := if c ≠ 0 then c else
        match ent with
        | some e => if n = 0 ∨ e.gmax < gsize then 10 else 0
        | none => 10
      if c ≠ 0 then (s.setField pa 0 47 32 c, [.finish pa (some stBadObject)])
      else if gsize ≠ 0 ∧ (j.owned.all fun cl => decide ((s.usable cl).length < gsize))
        then (s.setField pa 0 47 32 0, [.finish pa (some stPlaceUnsat)])
      else
        let crec := BitVec.ofNat 64 (l.w 0x18)
        let bad (s : State) (f : Fail) (a : Word) : State × List Todo :=
          ((s.levelFault j.pa f l.ptr a).setField pa 0 47 32 12, [.finish pa (some stFaulted)])
        match s.parentOk j pa l.parent with
        | (s, some f) => bad s f (BitVec.ofNat 64 (l.w 8))
        | (s, none) =>
          match s.recordKeys j 64 (recordPtrs crec n) with
          | (s, .error f) => bad s f crec
          | (s, .ok ks) =>
            let frames := (List.range n).map fun i => ptrAdd crec (n * 64 + i * frameSize gsize)
            match s.frameKeys j (frameSize gsize) frames with
            | (s, .error f) => bad s f crec
            | (s, .ok fs) =>
              let s := s.setField pa 0 31 0 n
              let s := s.createRecs j l o (ent.getD ⟨0, 1, 0, 0xFFFF⟩) crec 0 (ks.zip fs)
              (s.setField pa 0 59 56 stRunning, [])

/-- Ends a job: its clusters are free and nothing of it remains (03 R55). -/
def State.endJob (s : State) (j : Job) : State :=
  let s := { s with sched := { s.sched with
    jobs := s.sched.jobs.filter fun q => !decide (q.pa = j.pa)
    levels := s.sched.levels.filter fun l => !decide (l.job = j.pa)
    recs := s.sched.recs.filter fun r => !decide (r.job = j.pa) } }
  { s with units := { s.units with
    chains := s.units.chains.filter fun c => !decide (c.job = j.pa)
    runs := s.units.runs.filter fun r => !decide (r.job = j.pa)
    cids := s.units.cids.filter fun r => !decide (r.job = j.pa) } }

/-- The successors of a launch that ended, one edge at a time: after DONE each successor's PREDS falls by 1,
and one that waits becomes QUEUED at 0; else each one that waits ends CANCELLED (01 R27, 03 R57). -/
def State.succs (s : State) (g : Level) (ix : Nat) (isDone : Bool) : List (Nat × Nat) → State × List Todo
  | [] => (s, [])
  | (p, q) :: es =>
    if p ≠ ix then s.succs g ix isDone es else
    let waits := (s.children g.pa).find? fun l => decide (l.index = q) && l.waiting
    if isDone then
      match g.kids[q]? with
      | none => s.succs g ix isDone es
      | some k =>
        let n := s.fieldOf k 0x38 15 0 - 1
        let r := (s.setField k 0x38 15 0 n).succs g ix isDone es
        (r.1, if n = 0 ∧ waits.isSome then .queueLaunch k :: r.2 else r.2)
    else
      match waits with
      | none => s.succs g ix isDone es
      | some l =>
        let r := (s.setLevel { l with waiting := false }).succs g ix isDone es
        (r.1, .finish l.pa (some stCancelled) :: r.2)

/-- The change that ends a level: its final STATUS, NOTIFY, and the parent's COUNT (01 R28, 03 R58,
R59). -/
def State.finish (s : State) (pa : Nat) (atStart : Option Nat) : State × List Todo :=
  match s.level? pa with
  | none => (s, [])
  | some l =>
    let st := if s.creq pa then stCancelled else atStart.getD (if l.ok then stDone else stFaulted)
    let w := setBits (setBits (s.word pa 0) 31 0 0) 59 56 st
    let s := s.wrRec pa 0 8 w
    let notify := BitVec.ofNat 64 (s.word pa 0x10)
    let j? := s.job? l.job
    let s := match j? with
      | some j => if notify = 0 then s else
        match s.resolve j needW notify 8 with
        | (s, .error f) => s.levelFault l.job f l.ptr notify
        | (s, .ok ks) => s.wrSpans ks w
      | none => s
    let isDone := decide (st = stDone)
    match l.kind with
    | 4 => (match j? with | some j => s.endJob j | none => s, [])
    | 3 =>
      let s := s.dropLevel pa
      let cnt := s.fieldOf l.job 0 31 0 - 1
      let next := BitVec.ofNat 64 (l.w 0x28)
      let fail (s : State) : State := match s.level? l.job with
        | some q => s.setLevel { q with ok := false }
        | none => s
      if isDone ∧ next ≠ 0 ∧ 0 < cnt then (s.setField l.job 0 31 0 cnt, [.startPhase next l.job l.ptr])
      else if isDone ∧ (next ≠ 0 ∨ cnt = 0) then (s.setField l.job 0 31 0 0, [.finish l.job none])
      else ((fail s).setField l.job 0 31 0 0, [.finish l.job none])
    | 2 =>
      -- the launches of a graph that never started go with it
      let s := (s.children pa).foldl (fun s c => s.dropLevel c.pa) s
      (s.dropLevel pa, [.childEnded l.parent isDone])
    | _ =>
      match s.level? l.parent with
      | none => (s.dropLevel pa, [])
      | some g =>
        let r := (s.dropLevel pa).succs g l.index isDone g.edges
        (r.1, r.2 ++ [.childEnded g.pa isDone])

/-- A child of a level ended: COUNT falls by 1, and 0 ends the level (01 R28). -/
def State.childEnded (s : State) (pa : Nat) (ok : Bool) : State × List Todo :=
  match s.level? pa with
  | none => (s, [])
  | some l =>
    let s := s.setLevel { l with ok := l.ok && ok }
    let n := s.fieldOf pa 0 31 0 - 1
    let s := s.setField pa 0 31 0 n
    (s, if n = 0 then [.finish pa none] else [])

/-- What a cancel does to one record of a launch (15 R331). -/
def State.cancelRec (s : State) (r : Rec) : State :=
  if r.retired then s else
  match s.recState r.pa with
  | 1 | 4 => s.retireRec r.pa 4 0x14
  | 3 => if r.posts = [] then s.retireRec r.pa 4 0x14 else s
  | 2 => match s.runner? r.pa with
    | some c => s.push (.cancelStop c.id)
    | none => s
  | _ => s

/-- A cancel of a level: CREQ, then its children in index order (15 R331). -/
def State.cancelLevel (s : State) (pa : Nat) : State × List Todo :=
  if (s.level? pa).isNone ∧ 3 ≤ s.fieldOf pa 0 59 56 then (s, []) else
  let s := s.setField pa 0 55 55 1
  match s.level? pa with
  | none => (s, [])
  | some l =>
    if l.kind = 1 then
      if l.waiting then (s, [.finish pa none])
      else ((s.sched.recs.filter fun r => decide (r.launch = pa)).foldl State.cancelRec s, [])
    else (s, (s.children pa).map fun c => .cancel c.pa)

/-- One step of the work list. -/
def State.todo (s : State) : Todo → State × List Todo
  | .startPhase p job h => s.startPhase p job h
  | .startGraph pa p ph i => s.startGraph pa p ph i
  | .runGraph pa => s.runGraph pa
  | .queueLaunch pa => s.queueLaunch pa
  | .placeLaunch pa => s.placeLaunch pa
  | .finish pa st => s.finish pa st
  | .childEnded pa ok => s.childEnded pa ok
  | .cancel pa => s.cancelLevel pa

/-- A step of 03 R56 that is run for every child before any child's next step. -/
def Todo.later : Todo → Bool
  | .startGraph .. | .runGraph _ | .placeLaunch _ => true
  | _ => false

/-- Carries out a work list, `fuel` being more than any run of levels can need: what ends, is cancelled or
queued follows at once, and the next step of a start follows the current step of every other child (03 R56). -/
def State.todos : Nat → State → List Todo → State
  | 0, s, _ => s
  | _, s, [] => s
  | n + 1, s, t :: ts =>
    let r := s.todo t
    r.1.todos n (r.2.filter (fun u => !Todo.later u) ++ ts ++ r.2.filter Todo.later)

/-- The bound on a work list: each item names one of fewer than 2^160 changes of level records. -/
def todoFuel : Nat := 2 ^ 160

/-- Carries out a work list. -/
def State.doTodos (s : State) (ts : List Todo) : State := State.todos todoFuel s ts

end Sys2Proof.Machine
end

