-- ==== Sys2Proof/Machine/Context.lean ====
section
/-!
DEFINITION. Context: the save frame, leaving a core, the cluster scheduler, and dispatch (03 R60 to
R67; 14 R313 to R318; 05 R97).
-/
namespace Sys2Proof.Machine

/-! ### The save frame (14 R315, R316) -/

/-- Bit n of a mask. -/
def bitOf (mask n : Nat) : Bool := decide (mask / 2 ^ n % 2 = 1)

/-- The liveness entry of an index, as the number of its bytes; 0xFFFF names every register. -/
def ObjInfo.live (o : ObjInfo) (lix : Nat) : Nat :=
  if lix = 0xFFFF then 2 ^ 208 - 1 else o.lives.getD lix (2 ^ 208 - 1)

/-- SMASK, VMASK, MMASK, WMASK, KMASK, EMASK, QMASK and LMASK of a liveness entry (01 R17). -/
def liveS (l : Nat) : Nat := fld l 0 8
def liveV (l : Nat) : Nat := fld l 8 6
def liveM (l : Nat) : Nat := fld l 0x0F 1
def liveW (l : Nat) : Nat := fld l 0x10 2
def liveK (l : Nat) : Nat := fld l 0x12 4
def liveE (l : Nat) : Nat := fld l 0x16 1
def liveQ (l : Nat) : Nat := fld l 0x17 1
def liveL (l : Nat) : Nat := fld l 0x18 2

/-- The place of a strict mark's word in its area (14 R315). -/
def Dst.markIx (d : Dst) : Nat := match d.file with | 0 => d.reg | 1 => 64 + d.reg | _ => 112 + d.reg

/-- The 64 bytes of a stream binding (14 R315). -/
def streamImage : Option Stream → Nat
  | none => 0
  | some b => leNat (b.desc.flatMap fun w => toLe 8 w.toNat) + b.head * 2 ^ 256 + b.wit.toNat * 2 ^ 320 +
      2 ^ 63 * 2 ^ 448

/-- The binding of a 64-byte image. -/
def streamOf (x : Nat) : Option Stream :=
  if bits x 511 511 = 1 then
    some ⟨(List.range 4).map fun i => BitVec.ofNat 64 (fld x (8 * i) 8), fld x 32 8,
      BitVec.ofNat 128 (fld x 40 16), [], none⟩
  else none

/-- The registers that a switch saves whatever LIX names: destinations of tokened operations in
flight, and as file 3 the tokens with a posting in flight (14 R316). -/
def Core.forced (c : Core) : List Dst :=
  c.pipe.posts.flatMap fun p => ⟨3, p.tok⟩ :: p.dst

/-- The writes of a member area: (offset, size, value) (14 R315, R316). -/
def Core.areaWrites (c : Core) (s : State) (live : Nat) : List (Nat × Nat × Nat) :=
  let g := c.regs
  let f := c.forced
  let pick (file mask n : Nat) : List Nat :=
    (List.range n).filter fun r => bitOf mask r || f.contains ⟨file, r⟩
  let marks := g.marks.filter fun k => decide (k.dst.reg < 64)
  ((pick 0 (liveS live) 64).filter (· ≠ 0)).map (fun r => (8 * r, 8, (g.s[r]?.getD 0).toNat)) ++
  (pick 1 (liveV live) 48).map (fun r => (0x200 + 256 * r, 256, (g.v[r]?.getD 0).toNat)) ++
  ((pick 4 (liveM live) 8).filter (· ≠ 0)).map (fun r => (0x3200 + 8 * r, 8, (g.m[r]?.getD 0).toNat)) ++
  ((pick 2 (liveW live) 16).filter (· ≠ 0)).map
    (fun r => (0x3240 + 16 * r, 16, (s.copyWit (g.w[r]?.getD 0)).toNat)) ++
  (pick 3 (liveK live) 32).map (fun r => (0x3340 + 16 * r, 16,
    (g.tok r).word0.toNat + (g.tok r).word1.toNat * 2 ^ 64)) ++
  ((pick 5 (liveE live % 16) 4).filter (· ≠ 0)).map (fun r => (0x3540 + 8 * r, 8, (g.x[r]?.getD 0).toNat)) ++
  ((pick 6 (liveE live / 16) 4).filter (· ≠ 0)).map (fun r => (0x3560 + 8 * r, 8, (g.y[r]?.getD 0).toNat)) ++
  (pick 7 (liveQ live) 8).map (fun r => (0x3580 + 64 * r, 64,
    streamImage ((g.q[r]?.getD none).map fun b => { b with wit := s.copyWit b.wit }))) ++
  [(0x3780, 512, marks.foldl (fun x k =>
    x + (2 ^ 31 + k.tok % 32 * 2 ^ 16 + k.cover.toNat) * 2 ^ (32 * k.dst.markIx)) 0)] ++
  (List.range 48).map (fun b => (0x3980 + 16 * b, 16,
    let k := g.fmt[b]?.getD BankFmt.zero; k.word.toNat + k.ptab.toNat * 2 ^ 64)) ++
  [(0x3C80, 8, (g.p.toNat % 256) / 4 * 4 + 1), (0x3C88, 8, g.fpst.toNat),
   (0x3C90, 16, (s.copyWit g.view).toNat), (0x3CA0, 8, c.sys.dbg.toNat), (0x3CA8, 856, 0)] ++
  (pick 8 (liveL live) 16).map (fun k => (0x4000 + 6144 * k, 6144, Cells.read c.store.k (6144 * k) 6144))

/-- Where member area d starts (14 R315). -/
def areaAt (d : Nat) : Nat := 1024 + 114688 * d

/-- Writes pieces of a frame. -/
def State.wrFrame (s : State) (j : Job) (frame : Word) (ws : List (Nat × Nat × Nat)) (at' : Nat) : State :=
  ws.foldl (fun s w => s.wrPtr j needL (ptrAdd frame (at' + w.1)) w.2.1 w.2.2) s

/-- Reads a piece of a frame; 0 where it cannot be read. -/
def State.rdFrame (s : State) (j : Job) (frame : Word) (off n : Nat) : Nat :=
  match (s.rdPtr j needL (ptrAdd frame off) n).2 with | .ok x => x | .error _ => 0

/-- The cores of the focused continuation: itself, or its gang's members in order (03 R65). -/
def Core.members (c : Core) : List Nat := if c.cont.gsize = 0 then [c.id] else c.cont.gang

/-- Writes the frame of the focused continuation: the header and every member area, reserved bytes as 0 (14
R315, R316). -/
def State.saveFrame (s : State) (lix : Nat) : State :=
  let c := s.core
  match s.job? c.cont.job with
  | none => s
  | some j =>
    let ras := (List.range 32).map fun i => (4 * i, 4, (c.regs.ras[i]?.getD 0).toNat)
    let s := s.wrFrame j c.cont.frame
      (ras ++ [(0x80, 8, c.regs.rascnt), (0x88, 8, c.cont.lic), (0x90, 112, 0), (0x180, 640, 0)]) 0
    c.members.foldl (fun s id =>
      let m := s.coreOf id
      s.wrFrame j c.cont.frame (m.areaWrites s (c.cont.obj.live lix)) (areaAt m.cont.member)) s

/-! ### Leaving a core (14 R313, R318) -/

/-- Discards the X queue of a core: its entries name links that have retired (14 R313, 10 R236). -/
def State.drainXq (s : State) (id : Nat) : State :=
  let c := s.coreOf id
  let s := s.setCore { c with pipe := { c.pipe with xq := [] } }
  c.pipe.xq.foldl (fun s e =>
    let s := if e.seq = 0 then s else s.storeFailed (1216 + id / 24) e.seq
    match e.post with
    | none => s
    | some _ =>
      let r := s.faultRecord c.cont.job { coreFault .cancel 3 id e.slot e.pc c.cont.recPtr 0 with
        ident := e.ch.toNat }
      let s := r.1
      let m := s.coreOf id
      s.setCore (m.complete ⟨id, c.cont.recPa, e.post, [], some ⟨.cancel, r.2⟩⟩)) s

/-- Every fixed-latency result lands, the X queue empties, uncovered results are the registers'
values, and the view's marker is issued, in every member (14 R313 steps 1 and 2, 05 R112). -/
def State.quiesce (s : State) : State :=
  s.core.members.foldl (fun s id =>
    let s := s.drainXq id
    let c := (s.coreOf id).landAll s.tick
    let s := s.setCore (c.settleAll s.tick fun _ => true)
    s.onCore id State.leaveMarker) s

/-- The record of the focused continuation with the fields of a switch (01 R20, 14 R313). -/
def State.recordImage (s : State) (st pc run lix yix : Nat) : Nat :=
  let c := s.core
  let pa := c.cont.recPa
  let pin := c.members.any fun id => decide (0 < (s.coreOf id).cont.openk)
  let openk := (c.members.map fun id => (s.coreOf id).cont.openk).sum
  let w0 := setBits (setBits (setBits (s.word pa 0) 63 60 st) 55 55 pin.toNat) 31 0 pc
  let w2 := setBits (s.word pa 0x10) 15 5 c.id
  let w5 := setBits (setBits (setBits (s.word pa 0x28) 63 32 0) 31 16 lix) 15 0 yix
  let w6 := setBits (setBits (setBits (s.word pa 0x30) 47 40 c.regs.rasn.toNat) 39 32 (min 16 openk)) 31 0 run
  w0 + s.word pa 8 * 2 ^ 64 + w2 * 2 ^ 128 + s.word pa 0x18 * 2 ^ 192 + s.word pa 0x20 * 2 ^ 256 +
    w5 * 2 ^ 320 + w6 * 2 ^ 384 + s.word pa 0x38 * 2 ^ 448

/-- The same at a trap, with its CAUSE, FMASK and the offset of the job's last fault record (01 R20). -/
def State.trapImage (s : State) (st pc run lix cause : Nat) (fmask : BitVec 8) : Nat :=
  let frec := ((s.job? s.core.cont.job).map Job.frec).getD 0
  s.recordImage st pc run lix s.core.cont.yix % 2 ^ 448 +
    (cause % 64 * 2 ^ 58 + fmask.toNat * 2 ^ 50 + frec.toNat) * 2 ^ 448

/-- Writes the record of the focused continuation, the whole 64 bytes as one access (01 R23). -/
def State.wrRecord (s : State) (img : Nat) : State := s.wrRec s.core.cont.recPa 0 64 img

/-- The stores of a core that are not yet visible. -/
def State.owedBy (s : State) (id : Nat) : List (Nat × Nat) :=
  ((s.agentOf s.devnum id).pend.map fun p => (id, p.1))

/-- A store that a unit of its core has taken for a continuation is among those that its retirement waits for
(15 R330). -/
def State.owe (s : State) (recPa : Nat) (o : Nat × Nat) : State :=
  match s.rec? recPa with
  | some r => s.setRec { r with
      owed := r.owed.filter (fun o => (s.agentOf s.devnum o.1).pend.any fun p => decide (p.1 ≤ o.2)) ++ [o] }
  | none => s

/-- Moves what the continuation leaves in flight from its cores to its record (14 R314, 15 R330), and
the record to the cluster of its core (03 R60). -/
def State.park (s : State) : State :=
  let c := s.core
  match s.rec? c.cont.recPa with
  | none => s
  | some r =>
    let ms := c.members.map s.coreOf
    s.setRec { r with
      cluster := c.id / 24
      since := s.tick
      lic := c.cont.lic
      posts := ms.flatMap fun m => m.pipe.posts.map fun p => (m.cont.member, p)
      owed := (r.owed ++ ms.flatMap fun m => s.owedBy m.id).eraseDups
      kept := ms.map fun m => (m.regs, m.store.k)
      forced := ms.flatMap fun m => m.forced.map fun d => (m.cont.member, d) }

/-- Nothing of a continuation is left in flight. -/
def Pipe.clear (p : Pipe) : Pipe :=
  { p with fresh := [], land := [], soft := [], posts := [], xq := [], later := [], bundle := [], reply := [] }

/-- The cores of the focused continuation become idle (03 R63). -/
def State.vacate (s : State) : State :=
  s.core.members.foldl (fun s id =>
    let c := s.coreOf id
    s.setCore { c with
      phase := .idle
      cont := { c.cont with handler := false, openk := 0, prq := false }
      pipe := c.pipe.clear
      regs := { c.regs with marks := [] }
      sys := { c.sys with armed := none } }) s

/-- The state in which a bundle that took the continuation off its core ends. -/
def State.left (s : State) : State := s.setPipe { s.core.pipe with status := .left }

/-- A switch: the continuation leaves its core READY or WAITING with a pc and a stated run; `wait` are
WKIND, WREG, WTOK and THR of a suspending wait in bits [63:32] of word 0x28 (14 R313, 06 R125). -/
def State.switchOut (s : State) (st pc run lix wait : Nat) : State :=
  let s := s.quiesce
  let s := s.saveFrame lix
  let img := s.recordImage st pc run lix s.core.cont.yix
  let s := s.wrRecord (img + wait * 2 ^ 352)
  s.park.vacate.left

/-- A witness suspension saves w[a] whatever the liveness entry holds, and dispatch restores it (13 R292; 14
R317). -/
def State.saveWit (s : State) (a : Nat) : State :=
  match s.job? s.core.cont.job, s.rec? s.core.cont.recPa with
  | some j, some r =>
    (s.wrFrame j s.core.cont.frame
      [(0x3240 + 16 * a, 16, (s.copyWit (s.core.regs.w[a]?.getD 0)).toNat)] (areaAt s.core.cont.member)).setRec
        { r with forced := r.forced ++ [(s.core.cont.member, ⟨2, a⟩)] }
  | _, _ => s

/-- The lowest set bit of a mask. -/
def lowestBit (m : BitVec 8) : Nat := ((List.range 8).find? fun k => m.getLsbD k).getD 0

/-- The fault record of a freeze: the pointer, witness entry or chain number that SR.TVAL gives the cause, and
of XLATE the level and pointer of the translation that failed (14 R306, R311); a TVAL below 256 of ECC_UNCORR
names a register (log 37). -/
def freezeFault (cause slot core : Nat) (xl : Option (Nat × Word)) (tval : Word) (pc : Pc) (rec' : Word) (hreason : Nat) : FaultInfo where
  cause := cause
  slot := slot
  source := 0
  status := 0
  agent := core
  pc := pc.toNat
  record := rec'
  addr := if cause = 0x07 then (xl.map Prod.snd).getD 0
    else if cause ∈ [0x04, 0x05, 0x06] ∨ (cause = 0x15 ∧ 256 ≤ tval.toNat) then tval else 0
  lanes := 0
  ident := if cause ∈ [0x12, 0x13] then tval.toNat else 0
  detail := if cause = 0x07 then (xl.map Prod.fst).getD 0 else 0
  wit := if cause ∈ [0x0A, 0x0B] then tval else 0
  hreason := hreason

/-- A freeze (14 R318): chains cancelled, a full frame, a fault record, the record FROZEN with the stated
run of its stretch (log 37), and the launch FAULTED. `at'` is the pc that the fault record carries: that of
the bundle that trapped (R309, R311); `agent` is the core that met the fault and `xl` the level at which
a translation failed, with its pointer. -/
def State.freezeBy (s : State) (agent : Nat) (xl : Option (Nat × Word)) (cause : Nat) (fmask : BitVec 8) (tval : Word) (pc : Pc)
    (hreason : Nat) (at' : Pc) : State :=
  let c := s.core
  let s := c.members.foldl (fun s id => s.cancelChains id c.cont.recPa) s
  let s := s.quiesce
  let s := s.saveFrame 0xFFFF
  let r := s.faultRecord c.cont.job (freezeFault cause (lowestBit fmask) agent xl tval at' c.cont.recPtr hreason)
  let s := r.1
  let s := s.wrRecord (s.trapImage csFrozen pc.toNat c.cont.run 0xFFFF cause fmask)
  let s := s.setField c.cont.launch 0 59 56 stFaulted
  s.park.vacate.left

/-- A freeze that the handler chooses, met by the lowest member that trapped (14 R308, R311, R318). -/
def State.freeze (s : State) (cause : Nat) (fmask : BitVec 8) (tval : Word) (pc : Pc) (hreason : Nat)
    (at' : Pc) : State :=
  let y := s.core.sys
  let who := (List.range 24).find? fun d => y.gmask.getLsbD d
  s.freezeBy (s.core.members.getD (who.getD 0) s.core.id) y.xl cause fmask tval pc hreason at'

/-! ### Retirement of a running continuation (06 R123, 14 R310, 15 R330, R331) -/

/-- LIC rises to the next multiple of 256 (12 R275). -/
def raise (lic : Nat) : Nat := (lic / 256 + 1) * 256

/-- Begins the retirement drain of the focused continuation, in every member, once LIC has risen (06
R123). -/
def State.beginDrain (s : State) (rstat cause : Nat) : State :=
  let s := s.core.members.foldl (fun s id =>
    let c := s.coreOf id
    s.setCore { c with phase := .draining
                       cont := { c.cont with rstat := rstat, rcause := cause } }) s
  (s.push (.exitDrainComplete s.core.id)).left

/-- The focused continuation loses its open links on some of its cores (06 R123, 03 R68). -/
def State.loseLinks (s : State) (ids : List Nat) : State :=
  let k := s.core.cont
  ids.foldl (fun s id => (s.openLinks id k.recPa).foldl (fun s p =>
    match s.chain? p.1.job p.1.ch p.1.inst with | some q => s.loseLink q p.2 k.recPtr | none => s) s) s

/-- Ends a retirement: links still open are lost, the token check of EXIT is made, the record is
written RETIRED, and its decrement is left to be made (06 R123, 14 R310, 15 R330). In handler mode its PC
is SR.EPC (log 37). -/
def State.retireNow (s : State) : State :=
  let c := s.core
  let s := (s.loseLinks c.members).quiesce
  let bad := c.members.any fun id => (List.range 32).any fun t => ((s.coreOf id).regs.tok t).f
  let rstat := if c.cont.rstat = 1 ∧ bad then 2 else c.cont.rstat
  let cause := if c.cont.rstat = 1 ∧ bad then 9 else c.cont.rcause
  let pc := (if c.cont.handler then c.sys.epc else c.pipe.pc).toNat
  let s := s.wrRecord (s.trapImage csRunning pc c.cont.run c.cont.lix cause
    (BitVec.ofNat 8 (s.fieldOf c.cont.recPa 0x38 57 50)))
  (s.park.retireRec c.cont.recPa rstat cause).vacate

/-! ### The cluster scheduler (03 R61 to R67) -/

/-- Effective rank of a record (03 R61). -/
def State.effRank (s : State) (pa : Nat) : Nat :=
  min 15 (s.fieldOf pa 0x30 63 60 + s.fieldOf pa 0x30 59 48 / 256)

/-- Candidate order (03 R61); where every key is equal, the order in which the records were made stands
(log 42). -/
def State.before (s : State) (a b : Rec) : Bool :=
  let ka := [15 - s.effRank a.pa, a.since, s.fieldOf a.pa 0x10 31 16, s.fieldOf a.pa 0x10 63 32]
  let kb := [15 - s.effRank b.pa, b.since, s.fieldOf b.pa 0x10 31 16, s.fieldOf b.pa 0x10 63 32]
  ((ka.zip kb).find? fun p => decide (p.1 ≠ p.2)).all fun p => decide (p.1 < p.2)

/-- The READY records of a cluster in candidate order. -/
def State.candidates (s : State) (cl : Nat) : List Rec :=
  sortBy s.before (s.sched.recs.filter fun r =>
    decide (r.cluster = cl) && !r.retired && !r.spawning && decide (s.recState r.pa = csReady))

/-- GSIZE of a record. -/
def State.gsizeOf (s : State) (pa : Nat) : Nat := s.fieldOf pa 0x10 4 0
/-- RUN of a record. -/
def State.runOf (s : State) (pa : Nat) : Nat := s.fieldOf pa 0x30 31 0

/-- A record may be dispatched: no remote completion into its frame is outstanding (14 R314). -/
def Rec.free (r : Rec) : Bool := decide (r.posts = [])

/-- The idle usable cores of a cluster, lowest first. -/
def State.idle (s : State) (cl : Nat) : List Nat :=
  (s.usable cl).filter fun c => decide ((s.coreOf c).phase = .idle) && !s.sched.retire.contains c

/-- The free continuations that run on a cluster (03 R67). -/
def State.freeRunning (s : State) (cl : Nat) : Nat :=
  ((s.core :: s.parked).filter fun c =>
    decide (c.id / 24 = cl ∧ c.phase ≠ .idle ∧ c.cont.gsize = 0)).length

/-- The free continuations that may run on a cluster at once (03 R67). -/
def State.freeCap (s : State) (j : Job) (cl : Nat) : Nat := max 1 ((s.usable cl).length - j.gres)

/-- Ages the READY records of a cluster beside the one dispatched, whose AGE becomes 0 (03 R61). -/
def State.age (s : State) (cl pa : Nat) : State :=
  let s := (s.candidates cl).foldl (fun s r =>
    if r.pa = pa then s else s.setField r.pa 0x30 59 48 (min 0xFFF (s.fieldOf r.pa 0x30 59 48 + 1))) s
  s.setField pa 0x30 59 48 0

/-- One register after a restore: its saved value, or UNSPECIFIED from 0 and the value it held (14
R317; log 5). -/
def restored {α : Type} (tick key : Nat) (saved : Bool) (x zero old : α) : α :=
  if saved then x else if pickIn tick key 2 = 0 then zero else old

/-- Restores the registers of a member from its area (14 R317). -/
def State.restoreRegs (s : State) (j : Job) (frame : Word) (live d : Nat) (old : Regs) (f : List Dst) : Regs :=
  let rd (off n : Nat) : Nat := s.rdFrame j frame (areaAt d + off) n
  let reg (file r : Nat) (mask : Nat) : Bool := bitOf mask r || f.contains ⟨file, r⟩
  let key (file r : Nat) : Nat := 2 ^ 40 + (file * 128 + r) * 32 + d
  let marks := rd 0x3780 512
  let mk (file n base : Nat) : List Mark := (List.range n).filterMap fun r =>
    let w := fld marks (4 * (base + r)) 4
    if bits w 31 31 = 1 then some ⟨⟨file, r⟩, bits w 20 16, BitVec.ofNat 16 w⟩ else none
  { s := (Vector.ofFn fun i : Fin 72 => if i.val = 0 ∨ 64 ≤ i.val then 0 else
      restored s.tick (key 0 i) (reg 0 i (liveS live)) (BitVec.ofNat 64 (rd (8 * i) 8)) 0 (old.s[i.val]?.getD 0))
    v := (Vector.ofFn fun i : Fin 48 => restored s.tick (key 1 i) (reg 1 i (liveV live))
      (BitVec.ofNat 2048 (rd (0x200 + 256 * i) 256)) 0 (old.v[i.val]?.getD 0))
    p := (BitVec.ofNat 10 (rd 0x3C80 1 / 4 * 4))
    m := (Vector.ofFn fun i : Fin 8 => restored s.tick (key 4 i) (reg 4 i (liveM live))
      (BitVec.ofNat 64 (rd (0x3200 + 8 * i) 8)) 0 (old.m[i.val]?.getD 0))
    w := (Vector.ofFn fun i : Fin 16 => restored s.tick (key 2 i) (reg 2 i (liveW live))
      (BitVec.ofNat 128 (rd (0x3240 + 16 * i) 16)) 0 (old.w[i.val]?.getD 0))
    t := (Vector.ofFn fun i : Fin 34 => if 32 ≤ i.val then Token.zero else
      restored s.tick (key 3 i) (reg 3 i (liveK live))
      (Token.ofWords (BitVec.ofNat 64 (rd (0x3340 + 16 * i) 8)) (BitVec.ofNat 64 (rd (0x3348 + 16 * i) 8)))
      Token.zero (old.tok i.val))
    x := (Vector.ofFn fun i : Fin 4 => restored s.tick (key 5 i) (reg 5 i (liveE live % 16))
      (BitVec.ofNat 48 (rd (0x3540 + 8 * i) 8)) 0 (old.x[i.val]?.getD 0))
    y := (Vector.ofFn fun i : Fin 4 => restored s.tick (key 6 i) (reg 6 i (liveE live / 16))
      (BitVec.ofNat 32 (rd (0x3560 + 8 * i) 8)) 0 (old.y[i.val]?.getD 0))
    q := (Vector.ofFn fun i : Fin 8 =>
      restored s.tick (key 8 i) (bitOf (liveQ live) i) (streamOf (rd (0x3580 + 64 * i) 64)) none
        ((old.q[i.val]?.getD none).map fun b => { b with ahead := [], asked := none }))
    fmt := (Vector.ofFn fun i : Fin 48 =>
      ⟨BitVec.ofNat 10 (rd (0x3980 + 16 * i) 8), BitVec.ofNat 64 (rd (0x3988 + 16 * i) 8)⟩)
    fpst := (BitVec.ofNat 6 (rd 0x3C88 8))
    view := (BitVec.ofNat 128 (rd 0x3C90 16))
    ras := (Vector.ofFn fun i : Fin 32 => BitVec.ofNat 32 (s.rdFrame j frame (4 * i) 4))
    rascnt := (min 32 (s.rdFrame j frame 0x80 8 % 64))
    rasn := (0)
    marks := (mk 0 64 0 ++ mk 1 48 64 ++ mk 2 16 112) }

/-- The registers of 05 R97 with s1 and s2, the handler bank as the core holds it (14 R308). -/
def firstRegs (bank : Regs) (arg0 arg1 : Word) : Regs :=
  keepBank bank { Regs.reset with s := (Regs.reset.s.setIfInBounds 1 arg0).setIfInBounds 2 arg1 }
where
  /-- Takes the handler bank from one register set into another. -/
  keepBank (bank g : Regs) : Regs :=
    { g with
      s := (List.range 8).foldl (fun v i => v.setIfInBounds (64 + i) (bank.s[64 + i]?.getD 0)) g.s
      p := merge 0x300#10 bank.p g.p
      t := (g.t.setIfInBounds 32 (bank.tok 32)).setIfInBounds 33 (bank.tok 33) }

/-- The link slots of a core after a restore: saved ones from the area, each other one UNSPECIFIED from 0
and the bytes it held (05 R95; 14 R317; log 5). -/
def State.restoreSlots (s : State) (j : Job) (frame : Word) (live d : Nat) (old : List Host.Cell) : List Host.Cell :=
  (List.range 16).flatMap fun k =>
    restored s.tick (2 ^ 40 + (7 * 128 + k) * 32 + d) (bitOf (liveL live) k)
      (Cells.write [] (6144 * k) 6144 (s.rdFrame j frame (areaAt d + 0x4000 + 6144 * k) 6144))
      [] (old.filter fun c => decide (c.1 / 6144 = k))

/-- Puts a continuation on one core as a member of its gang (03 R65; 05 R97; 14 R317). The core's slice account
stays as it stands, also where the continuation is another job's, which has a SLICE of its own; the spec is silent on
that, and this is the model's choice (log 51). -/
def State.load (s : State) (j : Job) (r : Rec) (o : ObjInfo) (h : Option ObjInfo) (cores : List Nat)
    (d id : Nat) : State :=
  let c := s.coreOf id
  let w0 := s.word r.pa 0
  let frame := BitVec.ofNat 64 (s.word r.pa 8)
  let gsize := s.gsizeOf r.pa
  let first := decide (s.fieldOf r.pa 0x10 15 5 = 0x7FF)
  let live := o.live (s.fieldOf r.pa 0x28 31 16)
  let f := r.forced.filterMap fun p => if p.1 = d then some p.2 else none
  let old := r.kept.getD d (Regs.reset, [])
  let regs := if first then
      firstRegs c.regs (BitVec.ofNat 64 (s.word r.pa 0x18)) (BitVec.ofNat 64 (s.word r.pa 0x20))
    else firstRegs.keepBank c.regs (s.restoreRegs j frame live d old.1 f)
  let regs := { regs with rasn := BitVec.ofNat 8 (s.fieldOf r.pa 0x30 47 40) }
  let k := if first then [] else s.restoreSlots j frame live d old.2
  let run := s.runOf r.pa
  s.setCore { c with
    phase := .running
    acct := if c.acct ≤ 0 then (j.slice : Int) else c.acct
    cont := {
      recPtr := r.ptr, recPa := r.pa, job := j.pa, launch := r.launch
      launchIx := BitVec.ofNat 16 (s.fieldOf r.pa 0x10 31 16), cobj := BitVec.ofNat 16 (bits w0 47 32)
      unit := BitVec.ofNat 32 (s.fieldOf r.pa 0x10 63 32), member := d, gsize := gsize
      gang := if gsize = 0 then [] else cores, rank := s.fieldOf r.pa 0x30 63 60
      strict := decide (bits w0 53 53 = 1), debug := decide (bits w0 52 52 = 1)
      det := decide (j.modes.toNat % 2 = 1), frame := frame, obj := o, hobj := h, handler := false
      lic := s.rdFrame j frame 0x88 8, run := run, stretch := 0, cycles := 0
      yix := s.fieldOf r.pa 0x28 15 0, lix := s.fieldOf r.pa 0x28 31 16, openk := 0, prq := false
      rstat := 0, rcause := 0, wsc := 0, rise := 0 }
    regs := regs
    sys := { c.sys with armed := none, dbg := !first && decide (s.rdFrame j frame (areaAt d + 0x3CA0) 8 % 2 = 1) }
    pipe := { c.pipe.clear with pc := BitVec.ofNat 32 w0, npc := BitVec.ofNat 32 w0, status := .ok, extra := 0, fails := [], xl := none, also := 0, alsoG := 0 }
    store := { c.store with
      k := k
      bad := c.store.bad.filter fun b => match b with | .scratch .. | .code .. => true | _ => false } }

/-- The checks of 01 R22 on a READY record. -/
def State.recordOk (s : State) (j : Job) (r : Rec) : Bool :=
  let w0 := s.word r.pa 0
  let gsize := s.gsizeOf r.pa
  let spwn := bits w0 51 51
  decide (bits w0 50 48 = 0) && decide (s.fieldOf r.pa 0x28 52 48 = 0) && decide (s.fieldOf r.pa 0x38 49 48 = 0) &&
    decide (bits w0 47 32 ≤ j.cotn) &&
    (if spwn = 1 then decide (gsize = 0) else
      match s.level? r.launch with | some l => decide (gsize = bits (l.w 0x38) 47 43) | none => true) &&
    decide (bits w0 54 54 = 1 ↔ gsize ≠ 0)

/-- A record that fails 01 R22 is FROZEN with ILLEGAL_OP, and its launch FAULTED. -/
def State.rejectRec (s : State) (r : Rec) : State :=
  let f := s.faultRecord r.job ⟨1, 0, 7, 0, 0x7FF, s.fieldOf r.pa 0 31 0, r.ptr, 0, 0, 0, 0, 0, 0⟩
  let s := f.1
  let s := s.setField r.pa 0 63 60 csFrozen
  let s := s.wrRec r.pa 0x38 8 (1 * 2 ^ 58 + f.2.toNat)
  s.setField r.launch 0 59 56 stFaulted

/-- Dispatches a record on cores (03 R61 to R67, 14 R317). -/
def State.dispatchOn (s : State) (r : Rec) (cores : List Nat) : State :=
  match s.job? r.job with
  | none => s
  | some j =>
    if !s.recordOk j r then s.rejectRec r else
    match s.dispatchObj j (s.fieldOf r.pa 0 47 32) with
    | (s, o) =>
      let h := (j.handler.getD none)
      let s := (cores.zip (List.range cores.length)).foldl (fun s p => s.load j r o h cores p.2 p.1) s
      let s := s.age (cores.headD 0 / 24) r.pa
      let s := s.setField r.pa 0 63 60 csRunning
      let s := s.setField r.pa 0x28 63 62 0
      let s := s.setField r.pa 0x10 15 5 (cores.headD 0)
      match s.rec? r.pa with
      | some r => s.setRec { r with cluster := cores.headD 0 / 24, forced := [], kept := [] }
      | none => s

/-- The first free record, in its cluster's candidate order, of the lowest-numbered other owned cluster that
has one (03 R63). -/
def State.foreign (s : State) (j : Job) (cl : Nat) : Option Rec :=
  (j.owned.filter (· ≠ cl)).findSome? fun c =>
    (s.candidates c).find? fun r => r.free && decide (s.gsizeOf r.pa = 0)

/-- A gang heads the candidate order of a cluster and lacks cores: the cluster drains for it (03 R67). -/
def State.drainsFor (s : State) (cl : Nat) : Option Rec :=
  match s.candidates cl with
  | h :: _ => if s.gsizeOf h.pa ≠ 0 ∧ (s.idle cl).length < s.gsizeOf h.pa then some h else none
  | [] => none

/-- What an idle core takes (03 R63, R67): the first dispatchable record of its cluster's candidate order,
else one of another cluster. While a gang heads the order and lacks cores, only a free continuation that
ranks above it is given a core. A record with remote completions owed keeps its place (14 R314). -/
def State.choose (s : State) (j : Job) (core : Nat) : Option (Rec × List Nat) :=
  let cl := core / 24
  let idle := s.idle cl
  let room := decide (s.freeRunning cl < s.freeCap j cl)
  let fits (r : Rec) : Bool := r.free &&
    (if s.gsizeOf r.pa = 0 then room else decide (s.gsizeOf r.pa ≤ idle.length))
  let from' (ok : Rec → Bool) : Option (Rec × List Nat) :=
    if room then ((s.foreign j cl).filter ok).map fun r => (r, [core]) else none
  let own (r : Rec) : Rec × List Nat := (r, if s.gsizeOf r.pa = 0 then [core] else idle.take (s.gsizeOf r.pa))
  match s.drainsFor cl with
  | some h => from' fun r => decide (s.effRank h.pa < s.effRank r.pa)
  | none => match (s.candidates cl).find? fits with
    | some r => some (own r)
    | none => from' fun _ => true

/-- A gang that has lost its place moves to the lowest-numbered owned cluster that can hold it, or is
FROZEN with CAUSE 0 and its launch PLACE_UNSAT (03 R70). -/
def State.replace (s : State) (j : Job) (r : Rec) : State :=
  let g := s.gsizeOf r.pa
  if g ≤ (s.usable r.cluster).length then s else
  match j.owned.find? fun c => decide (g ≤ (s.usable c).length) with
  | some c => s.setRec { r with cluster := c }
  | none =>
    let s := s.setField r.pa 0 63 60 csFrozen
    let s := s.wrRec r.pa 0x38 8 0
    s.setField r.launch 0 59 56 stPlaceUnsat

/-- An idle core takes its next record, if there is one it may take. -/
def State.takeNext (s : State) (core : Nat) : State :=
  match s.owner? (core / 24) with
  | none => s
  | some j =>
    let s := ((s.candidates (core / 24)).filter fun r => decide (s.gsizeOf r.pa ≠ 0)).foldl
      (fun s r => s.replace j r) s
    if (s.coreOf core).phase ≠ .idle ∨ !(s.usable (core / 24)).contains core then s else
    match s.choose j core with
    | none => s
    | some (r, cores) => s.dispatchOn r cores

end Sys2Proof.Machine
end

