-- ==== Sys2Proof/Machine/Ops.lean ====
section
/-!
DEFINITION. The shared operations of issue: taking a trap and returning from one (14 R304 to R310), a
stall, a yield (03 R62 to R64), and the frontier of a launch (12 R276).
-/
namespace Sys2Proof.Machine

/-- The bundle stalls: it has no effect and issues again (04 R88). -/
def State.stall (s : State) : State :=
  s.setPipe { s.core.pipe with status := .stalled, npc := s.core.pipe.pc }

/-- SR.TVAL of the first result in flight whose check value fails, or of one that landed while the core stalled
for a handler entry (14 R305). -/
def Pipe.failing (p : Pipe) : Option Word :=
  match p.late with
  | some t => some t
  | none => (sortBy (fun a b => decide (a.due ≤ b.due)) p.land).findSome? Landing.bad

/-- Discards the elements fetched ahead by streams over the code object, of which handler mode has another than
the program: they are fetched again from the head (01 R32; 08 R187). -/
def Regs.refetchCode (g : Regs) : Regs :=
  { g with q := g.q.map fun o => o.map fun b =>
      if bits (b.desc.headD 0).toNat 63 48 = 0xFFF6 then { b with ahead := [] } else b }

/-- Enters the handler on one core (14 R308): results land, one whose check value fails traps once the
handler has returned (R305; log 13), the system registers are written, the handler bank's tokens are cleared
with the strict marks on it (log 26), and the pc is the handler entry. -/
def Core.enter (c : Core) (tick : Nat) (o : ObjInfo) (y : Sys) : Core :=
  let late := c.pipe.failing
  let c := c.landAll tick
  let pc := BitVec.ofNat 32 ((o.entries.headD ⟨0, 1, 0, 0xFFFF⟩).pc)
  { c with
    cont := { c.cont with handler := true, hobj := some o }
    regs := { ((c.regs.setTok 32 Token.zero).setTok 33 Token.zero).refetchCode with
      marks := c.regs.marks.filter fun k => !(decide (k.dst.file = 0 ∧ 64 ≤ k.dst.reg) || decide (32 ≤ k.tok)) }
    sys := y
    pipe := { c.pipe with pc := pc, npc := pc, status := .trapped, later := [], fresh := [], bundle := [], extra := 0, late := late } }

/-- Enters the handler with every member of the gang in lockstep (14 R308); a trap writes the record whole,
with its CAUSE, FMASK and FREC and the PC at which the program goes on (01 R20, R23; log 37). -/
def State.enterHandler (s : State) (o : ObjInfo) (cause : Nat) (fmask : BitVec 8) (tval : Word)
    (frec : BitVec 48) (epc : Pc) (hreason : BitVec 2) (gmask : BitVec 24) : State :=
  let xl := s.core.pipe.xl
  let s := if cause = 0 then s
    else s.wrRecord (s.trapImage csRunning epc.toNat s.core.cont.run (s.fieldOf s.core.cont.recPa 0x28 31 16) cause fmask)
  s.core.members.foldl (fun s id =>
    let c := s.coreOf id
    s.setCore (c.enter s.tick o { c.sys with
      cause := BitVec.ofNat 6 cause, epc := epc, fmask := fmask, tval := tval, frec := frec
      hreason := hreason, gmask := gmask, hact := 0, armed := none, xl := xl })) s

/-- The handler object of the focused continuation's job, validated at its first trap (14 R307). -/
def State.handler (s : State) : State × Option ObjInfo :=
  match s.job? s.core.cont.job with
  | some j => s.handlerObj j
  | none => (s, none)

/-- SR.TVAL on every core of the continuation (14 R306). -/
def State.setTval (s : State) (tval : Word) : State :=
  s.core.members.foldl (fun s id =>
    let c := s.coreOf id
    s.setCore { c with sys := { c.sys with tval := tval } }) s

/-- TAKES A TRAP (14 R304 to R309): the saved pc, FMASK, TVAL and FREC go to the system registers and
the pc to the handler entry; a cause whose disposition is Freeze, a job without a valid handler object
and a trap in handler mode freeze the continuation instead. The first trap of a job, whatever its cause,
validates the handler object (R307). -/
def State.trap (s : State) (cause : Cause) (fmask : BitVec 8) (tval : Word)
    (frec : BitVec 48) (epc : Pc) (gmask : BitVec 24) : State :=
  let who := s.core.id
  let xl := s.core.pipe.xl
  let s := s.focus (s.core.members.headD s.core.id)
  let c := s.core
  let s := s.setPipe { c.pipe with xl := xl }
  let out (s : State) (pc : Pc) (hreason : Nat) : State :=
    let t := (s.setTval tval).freezeBy who xl cause.code fmask tval pc hreason c.pipe.pc
    t.setPipe { t.core.pipe with status := .trapped }
  if c.cont.handler then out s c.sys.epc 2
  else match s.handler with
  | (s, some o) => if cause.freezes then out s epc 0 else s.enterHandler o cause.code fmask tval frec epc 0 gmask
  | (s, none) => out s epc 0

/-- The FMASK bit of a position (04 R85). -/
def slotBit (k : Nat) : BitVec 8 := 1#8 <<< k
/-- The GMASK bit of the focused member. -/
def State.memberBit (s : State) : BitVec 24 := 1#24 <<< s.core.cont.member

/-- A slot fails a check of its own at issue: the bundle has no effect and traps (14 R304), FMASK marking
the slot with every other that fails, GMASK the member with every other that traps. -/
def State.fail (s : State) (cause : Cause) (tval : Word) (frec : BitVec 48) : State :=
  let p := s.core.pipe
  let s := s.setPipe { p with fails := [(p.slot, cause, tval, frec)], later := [], fresh := [] }
  s.trap cause (slotBit p.slot ||| p.also) tval frec p.pc (s.memberBit ||| p.alsoG)

/-- The stated run or the MOLC timer is exceeded: judged before fetch, with no slot marked (04 R85 order
0; 14 R305, R322). -/
def State.overrun (s : State) : State :=
  let p := s.core.pipe
  let s := s.setPipe { p with fails := [(0, .runOverrun, 0, 0)] }
  s.trap .runOverrun 0 (BitVec.ofNat 64 s.core.cont.run) 0 p.pc s.memberBit

/-- A slot traps ILLEGAL_OP at issue. -/
def State.illegal (s : State) : State := s.fail .illegalOp 0 0

/-- Fails with the cause of a failed check and the pointer of the access (14 R306). -/
def State.failAt (s : State) (cause : Cause) (p : Word) : State := s.fail cause p 0

/-- The same with the DETAIL of a fault record: the level at which a translation failed (14 R311). -/
def State.failXl (s : State) (cause : Cause) (p : Word) (detail : Nat) : State :=
  (s.setPipe { s.core.pipe with xl := some (detail, p) }).failAt cause p

/-! ### Yields (03 R62 to R64, 06 R120) -/

/-- The continuation is pinned: a member holds an open link (03 R66, 10 R232). -/
def State.pinned (s : State) : Bool := s.core.members.any fun id => decide (0 < (s.coreOf id).cont.openk)

/-- Counts issued cycles of the continuation: its stretch, its slice accounts, LIC, which also rises
where an event of 12 R275 took effect, and the cycles since dispatch; none in handler mode (03 R62; 04 R88; 12 R275; 14 R308, R322). -/
def State.charge (s : State) (n : Nat) : State :=
  if s.core.cont.handler then s else
  s.core.members.foldl (fun s id =>
    let c := s.coreOf id
    s.setCore { c with
      acct := c.acct - n
      cont := { c.cont with
        stretch := c.cont.stretch + n
        lic := max (c.cont.lic + n) c.cont.rise
        cycles := c.cont.cycles + n, rise := 0 } }) s

/-- LIC becomes the next multiple of 256 above a count, in every member (12 R275). -/
def State.raiseTo (s : State) (lic : Nat) : State :=
  s.core.members.foldl (fun s id =>
    let c := s.coreOf id
    s.setCore { c with cont := { c.cont with lic := raise lic } }) s

/-- LIC rises at an event of 12 R275, with the cycle of the event's bundle, which does not add to it
(log 24), in every member; handler time moves no interval (03 R72). -/
def State.raiseLic (s : State) : State :=
  s.core.members.foldl (fun s id =>
    let c := s.coreOf id
    s.setCore { c with cont := { c.cont with rise := if c.cont.handler then 0 else raise c.cont.lic } }) s

/-- The continuation keeps its core; its next stretch states a run (06 R120). -/
def State.keep (s : State) (run : Nat) : State :=
  (s.core.members.foldl (fun s id =>
    let c := s.coreOf id
    s.setCore { c with cont := { c.cont with run := run, stretch := 0 }
                       pipe := { c.pipe with status := .yielded } }) s)

/-- Charges the slice accounts of the continuation's cores with a new value (03 R62, R63). -/
def State.setAcct (s : State) (a : Int) : State :=
  s.core.members.foldl (fun s id => s.setCore { s.coreOf id with acct := a }) s

/-- Whether the focused continuation, made READY now, would stand before a record (03 R61). -/
def State.aheadOf (s : State) (r : Rec) : Bool :=
  let pa := s.core.cont.recPa
  match s.rec? pa with
  | some me => s.before { me with since := s.tick } r
  | none => false

/-- OnYield of 03 R62 for a continuation that states a run; `lix` is the yield's liveness entry. A core
to be retired gives its continuation up; a pinned one first loses its links there (R68). A gang that yields
and for which no record fits keeps its cores where it heads the order (log 16). -/
def State.onYield (s : State) (run lix : Nat) : State :=
  let s := s.loseLinks (s.core.members.filter s.sched.retire.contains)
  let c := s.core
  let cl := c.id / 24
  let me := c.cont.recPa
  let rem : Int := max 0 c.acct
  let cands := s.candidates cl
  let rank := s.effRank me
  let gangHead := (s.drainsFor cl).any fun r => decide (rank ≤ s.effRank r.pa)
  let must := c.members.any s.sched.retire.contains
  let slice : Int := ((s.job? c.cont.job).map fun j => (j.slice : Int)).getD 0
  if s.pinned then s.keep run
  else if !must && decide ((run : Int) ≤ rem) && !gangHead &&
      !(cands.any fun r => decide (rank < s.effRank r.pa)) then s.keep run
  else
    let go (s : State) : State := s.switchOut csReady s.core.pipe.npc.toNat run lix 0
    let stay (s : State) : State := (s.age cl me).keep run
    if must || gangHead then go s
    else if c.cont.gsize ≠ 0 then
      let others := if s.freeRunning cl < ((s.job? c.cont.job).map fun j => s.freeCap j cl).getD 0 then
        cands.filter fun r => r.free && decide (s.gsizeOf r.pa = 0) else []
      let run' (s : State) (r : Rec) : State := ((go s).dispatchOn r [c.id]).left
      match others.find? fun r => decide ((s.runOf r.pa : Int) ≤ rem) with
      | some r => run' s r
      | none =>
        let s := s.setAcct slice
        if cands.all s.aheadOf then stay s else match others with
        | r :: _ => run' s r
        | [] => go s
    else
      let others := cands.filter fun r => r.free && decide (s.gsizeOf r.pa = 0)
      -- c itself is pick when it fits and no fitting record stands before it
      let pick (fits : Nat → Bool) : Option (Option Rec) :=
        match others.find? fun r => fits (s.runOf r.pa) with
        | some r => if fits run && s.aheadOf r then some none else some (some r)
        | none => if fits run then some none else none
      let act (s : State) : Option Rec → State
        | none => stay s
        | some r => ((go s).dispatchOn r [c.id]).left
      match pick fun n => decide ((n : Int) ≤ rem) with
      | some p => act s p
      | none => act (s.setAcct slice) ((pick fun _ => true).getD none)

/-! ### The frontier (12 R276) -/

/-- The lowest interval among the records of a launch that have not retired (12 R276); none when all
have. -/
def State.frontier (s : State) (launch : Nat) : Option Nat :=
  (s.sched.recs.filter fun r => decide (r.launch = launch) && !r.retired).foldl (fun m r =>
    let lic := match s.runner? r.pa with
      | some c => max c.cont.lic c.cont.rise
      | none => r.lic
    some (match m with | some k => min k (lic / 256) | none => lic / 256)) none

end Sys2Proof.Machine
end

