-- ==== Sys2Proof/Machine/Operands.lean ====
section
/-!
DEFINITION. Operands of slots: guards, immediates, the checks that reading and writing registers make
at issue, and stream sources (04 R79 to R84; 05 R96, R100, R111; 14 R305).
-/
namespace Sys2Proof

/-- The immediate of a slot: the IMM slots' value sign-extended, else the short field sign-extended
(04 R82). -/
def Hdr.sImm {k : Nat} (h : Hdr) (f : BitVec k) : Word :=
  if h.x.isEmpty then f.signExtend 64 else BitVec.ofInt 64 (sint h.immBits h.imm)
/-- The immediate of a slot, zero-extended. -/
def Hdr.uImm {k : Nat} (h : Hdr) (f : BitVec k) : Word :=
  if h.x.isEmpty then f.setWidth 64 else BitVec.ofNat 64 h.imm

end Sys2Proof

namespace Sys2Proof.Machine

/-- The outcome type of every meaning. -/
abbrev Out := Host.Outcome State Fault Refusal

/-- A P-guarded slot takes effect (04 R80). -/
def State.pOn (s : State) (hd : Hdr) : Bool := s.p! hd.g
/-- The guard mask of an M-guarded slot (04 R80). -/
def State.mOn (s : State) (hd : Hdr) : BitVec 64 := s.m! hd.g

/-- The registers that a slot reads and writes. -/
structure Uses where
  s : List (BitVec 6) := []
  v : List (BitVec 6) := []
  w : List Nat := []
  ds : List (BitVec 6) := []
  dv : List (BitVec 6) := []
  dw : List Nat := []
deriving DecidableEq, Repr

/-- The registers of the scalar, vector and witness files that a slot reads. -/
def Uses.reads (u : Uses) (c : Core) : List Dst :=
  u.s.map (fun r => ⟨0, c.sIx r.toNat⟩) ++
    (u.v.filter fun r => decide (r.toNat < 48)).map (fun r => ⟨1, r.toNat⟩) ++ u.w.map fun r => ⟨2, r⟩

/-- The registers of those files that a slot writes. -/
def Uses.writes (u : Uses) (c : Core) : List Dst :=
  u.ds.map (fun r => ⟨0, c.sIx r.toNat⟩) ++ u.dv.map (fun r => ⟨1, r.toNat⟩) ++ u.dw.map fun r => ⟨2, r⟩

/-- SR.TVAL of UNDERWAIT and of a register's ECC_UNCORR: file and register (14 R306). -/
def Dst.tval (d : Dst) : Word :=
  BitVec.ofNat 64 (d.file * 64 + (if d.file = 0 ∧ 64 ≤ d.reg then d.reg - 8 else d.reg))

/-- The element number past a stream's last (08 R186). -/
def Stream.total (b : Stream) : Nat :=
  bits (b.desc.getD 1 0).toNat 63 32 * bits (b.desc.getD 1 0).toNat 31 0

/-- The pointer of an element of a stream (08 R186). -/
def Stream.ptr (b : Stream) (e : Nat) : Word :=
  let w (i : Nat) : Nat := (b.desc.getD i 0).toNat
  let inner := bits (w 1) 63 32
  let off : Int := (w 0 % 2 ^ 48 : Nat) + (e / inner : Nat) * sint 64 (w 3) + (e % inner : Nat) * sint 64 (w 2)
  mkPtr (bits (w 0) 63 48) (off % 2 ^ 48).toNat

/-- What reading a stream register comes to at issue: nothing in its way, or the state in which the
bundle traps or waits for the head to arrive (05 R100, 08 R187). -/
def State.streamBlocked (s : State) (q : Nat) : Option State :=
  match s.core.regs.q[q]?.getD none with
  | none => some s.illegal
  | some b =>
    if b.total ≤ b.head then some (s.failAt .bufBounds (b.ptr b.head)) else
    match s.core.head? q with
    | none =>
      let e : Event := .streamElementFetch s.core.id q
      some (if s.agenda.contains e then s.stall else (s.push e).stall)
    | some f => match f.bad with
      | some (c, detail, source) =>
        let r := s.faultRecord s.core.cont.job
          { coreFault c source s.core.id s.core.pipe.slot s.core.pipe.pc s.core.cont.recPtr (b.ptr b.head) with
            detail := detail }
        some (r.1.failXl c (b.ptr b.head) detail)
      | none => none

/-- The first stream register among sources that stands in the way. -/
def State.streamsBlocked (s : State) : List (BitVec 6) → Option State
  | [] => none
  | r :: rs =>
    if r.toNat < 48 then s.streamsBlocked rs
    else match s.streamBlocked (r.toNat % 8) with
      | some t => some t
      | none => s.streamsBlocked rs

/-- The checks that reading and writing registers make at issue: a register that bears a strict mark
traps UNDERWAIT, as does a destination that an earlier slot of the bundle has marked (log 44), a register
whose check value fails traps ECC_UNCORR, then the streams (05 R100, R111; 14 R305, R306). The state in which the slot's bundle traps or stalls, or none. -/
def State.blocked (s : State) (u : Uses) : Option State :=
  let c := s.core
  let rs := u.reads c
  let ws := u.writes c
  match (rs ++ ws).find? fun d => (c.regs.marks.any fun k => decide (k.dst = d)) ||
      (ws.contains d && c.pipe.later.any fun l => match l with | .mark k => decide (k.dst = d) | _ => false) with
  | some d => some (s.fail .underwait d.tval 0)
  | none =>
    match rs.find? fun d => c.store.bad.contains (.reg c.id d.file d.reg) with
    | some d => some (s.fail .eccUncorr d.tval 0)
    | none => s.streamsBlocked u.v

/-- Notes the pops of the sources in pop form (04 R84, 05 R100). -/
def State.pops (s : State) (vs : List (BitVec 6)) : State :=
  vs.foldl (fun s r => if 56 ≤ r.toNat then s.later (.pop (r.toNat - 56)) else s) s

/-- Runs a P-guarded slot: nothing when its guard is false, else its effect once its registers may be
used (04 R81). -/
def State.guarded (s : State) (hd : Hdr) (u : Uses) (f : State → State) : Out :=
  .next (if !s.pOn hd then s else match s.blocked u with | some t => t | none => f s)

/-- The scalar destination of a result. -/
def State.sDst (s : State) (d : BitVec 6) : Nat := s.core.sIx d.toNat

/-- A fixed-latency scalar result of a class (04 R89). -/
def State.sResult (s : State) (k : Nat) (d : BitVec 6) (v : Word) : State := s.result k (.s (s.sDst d) v)

/-- A two-source scalar operation of a latency class. -/
def State.alu2 (s : State) (hd : Hdr) (k : Nat) (d a b : BitVec 6) (f : Word → Word → Word) : Out :=
  s.guarded hd { s := [a, b], ds := [d] } fun s => s.sResult k d (f (s.s! a) (s.s! b))

/-- A one-source scalar operation of a latency class. -/
def State.alu1 (s : State) (hd : Hdr) (k : Nat) (d a : BitVec 6) (f : Word → Word) : Out :=
  s.guarded hd { s := [a], ds := [d] } fun s => s.sResult k d (f (s.s! a))

/-- Destinations of a scalar result of a tokened operation; s0 is none (05 R96). -/
def State.dstS (s : State) (d : BitVec 6) : List Dst := if d = 0 then [] else [⟨0, s.sDst d⟩]

/-- The size of the code object in force (01 R32, 14 R307). -/
def State.osize (s : State) : Nat :=
  let c := s.core.cont
  (if c.handler then c.hobj.getD c.obj else c.obj).osize

/-- The completion of an operation of the focused core. -/
def State.completion (s : State) (post : Option Nat) (ws : List Write) : Completion :=
  ⟨s.core.id, s.core.cont.recPa, post, ws, none⟩

/-- Whether one more posting to a token may be in flight (05 R107: the issue of the bundle that would
make 32,768 stalls). -/
def State.postRoom (s : State) (t : Nat) : Bool :=
  decide (s.core.pipe.inFlight (s.core.tIx t) + 1 < 32768)

/-- A token named by TOK and TE of an IMM slot (09 R195). -/
def tokOf (c : Nat) : Option Nat := if teSet c then some (bits c 19 15) else none

/-- Issues the posting of an optional token: the state and the posting's number. -/
def State.post? (s : State) (t : Option Nat) (dst : List Dst) : State × Option Nat :=
  match t with
  | none => (s, none)
  | some t => let r := s.newPost (s.core.tIx t) dst; (r.1, some r.2)

/-- Posts an optional token once for a slot whose guard is false (04 R81). -/
def State.postOnce? (s : State) (t : Option Nat) : State :=
  match t with | none => s | some t => s.postOnce (s.core.tIx t)

/-- Whether an optional token has room for one more posting. -/
def State.room? (s : State) (t : Option Nat) : Bool := match t with | none => true | some t => s.postRoom t

/-- The empty witness in a witness destination, landing as SALU results do (04 R81, 13 R289). -/
def State.emptyWit (s : State) (w : Nat) : State := s.result 0 (.w w (BitVec.allOnes 128) 0)

/-- A witness of one entry in a witness destination, landing at issue + LAT[SALU] (09 R197). -/
def State.giveWit (s : State) (w : Nat) (e : Word) : State :=
  s.result 0 (.w w (BitVec.allOnes 128) (mkWit e 0))

/-- The entries that an access observes: those of WI and of the view (09 R197, R204). -/
def State.wiOf (s : State) (w : Nat) : List Word :=
  entriesOf (s.core.wVal s.tick w) ++ entriesOf s.core.regs.view

/-- The job of the focused continuation. -/
def State.job! (s : State) : Option Job := s.job? s.core.cont.job

/-- A continuation's bundle boundary effects so far are applied, as before an effect that follows every
other slot of the bundle (06 R120, R123, R127). -/
def State.afterSlots (s : State) : State := s.finishLater

end Sys2Proof.Machine
end

