-- ==== Sys2Proof/Machine/Tiles.lean ====
section
/-!
DEFINITION. Operand tiles of the X unit: their fields, layout and the bytes that a queued entry still
has to read (08 R182, R185; 11 R244 to R248, R254, R257).
-/
namespace Sys2Proof.Machine

/-- The core-local index of a space (0 A, 1 W) in a view (0 linear, 1 swizzled) (08 R182). -/
def spaceIx (sp view : Nat) : Nat := 0xFFF0 + sp + 2 * view
/-- The bytes of a space. -/
def spaceLen (sp : Nat) : Nat := if sp = 0 then 0x40000 else 0x80000

/-- An LB format code (02 R34). -/
def isLb (code : Nat) : Bool := decide (9 ≤ code ∧ code ≤ 11)
/-- The bytes of n elements in a format, n a multiple of 16 for LB (08 R185). -/
def fmtBytes (code n : Nat) : Nat := if isLb code then n / 16 * lbSize code else n * (elemWidth code / 8)
/-- The alignment of an operand in a format: the element width, or 2 for LB (11 R247). -/
def fmtAlign (code : Nat) : Nat := if isLb code then 2 else elemWidth code / 8

/-- KN of the matrix control slot: the depth K (11 R244). -/
def Hdr.depth (hd : Hdr) : Nat := 16 * (bits hd.c 9 6 + 1)
/-- AV, the view of the left operand. -/
def Hdr.av (hd : Hdr) : Nat := bits hd.c 5 5
/-- WV, the view of the right operand. -/
def Hdr.wv (hd : Hdr) : Nat := bits hd.c 4 4
/-- XS of a matrix or close control slot. -/
def Hdr.xs (hd : Hdr) : Nat := bits hd.c 13 12
/-- YS of a matrix or close control slot. -/
def Hdr.ys (hd : Hdr) : Nat := bits hd.c 11 10
/-- SP and SV of a transfer control slot as a core-local index. -/
def Hdr.transferIx (hd : Hdr) : Nat := spaceIx (bits hd.c 13 13) (bits hd.c 12 12)
/-- DSP and DV of a close control slot as a core-local index. -/
def Hdr.closeIx (hd : Hdr) : Nat := spaceIx (bits hd.c 3 3) (bits hd.c 2 2)
/-- RS of a close control slot. -/
def Hdr.rs (hd : Hdr) : Bool := decide (bits hd.c 1 1 = 1)
/-- CS of a close control slot. -/
def Hdr.cs (hd : Hdr) : Bool := decide (bits hd.c 0 0 = 1)

/-- Bits [31:0] of an operand: an offset in a scratchpad. -/
def lo32 (w : Word) : Nat := bits w.toNat 31 0
/-- Bits [63:32] of an operand. -/
def hi32 (w : Word) : Nat := bits w.toNat 63 32

/-- FMT of a bank format register (08 R183). -/
def BankFmt.code (f : BankFmt) : Nat := bits f.word.toNat 3 0
/-- IFMT. -/
def BankFmt.ifmt (f : BankFmt) : Nat := bits f.word.toNat 7 4
/-- CVT. -/
def BankFmt.cvt (f : BankFmt) : Bool := f.word.getLsbD 8
/-- The permutation in force: PTAB when PEN is 1, else the identity (08 R184). -/
def BankFmt.table (f : BankFmt) : Nat := if f.word.getLsbD 9 then f.ptab.toNat else idTable

/-- The bytes of one row of a gathered left operand (11 R248). -/
def gatherRow (st : Store) (av list row0 rb r : Nat) : Nat :=
  (row0 + st.read (0xFFF0 + 2 * av) (list + 2 * r) 2 * rb) % 0x40000

/-- A range of A-space that wraps at its end, as (index, offset, length) pieces. -/
def wrapA (ix off n : Nat) : List (Nat × Nat × Nat) :=
  if off + n ≤ 0x40000 then [(ix, off, n)] else [(ix, off, 0x40000 - off), (ix, 0, off + n - 0x40000)]

/-- The scratchpad bytes that a queued entry has still to read, as (index, offset, length) (10 R221).
`hop` is the bytes of a link's element. -/
def XEntry.reads (e : XEntry) (st : Store) (hop : Nat) : List (Nat × Nat × Nat) :=
  let fa := (e.fmts.getD 0 BankFmt.zero).code
  let fb := (e.fmts.getD 1 BankFmt.zero).code
  let right (hd : Hdr) : Nat × Nat × Nat := (spaceIx 1 (Hdr.wv hd), lo32 e.b, 48 * fmtBytes fb (Hdr.depth hd))
  match e.instr with
  | .mxa hd _ _ _ | .mxt hd _ _ _ =>
    [(spaceIx 0 (Hdr.av hd), lo32 e.a, 32 * fmtBytes fa (Hdr.depth hd)), right hd]
  | .mxg hd _ _ _ =>
    let rb := fmtBytes fa (Hdr.depth hd)
    (spaceIx 0 (Hdr.av hd), hi32 e.a, 64) :: right hd ::
      (List.range 32).flatMap fun r =>
        wrapA (spaceIx 0 (Hdr.av hd)) (gatherRow st (Hdr.av hd) (hi32 e.a) (lo32 e.a) rb r) rb
  | .lkld hd _ _ => [(Hdr.transferIx hd, lo32 e.a, 1536 * hop)]
  | .chc hd _ _ _ =>
    (if Hdr.rs hd then [(0xFFF0, lo32 e.b, 128)] else []) ++ (if Hdr.cs hd then [(0xFFF0, hi32 e.b, 192)] else [])
  | _ => []

/-- The offset in a view at which a linear byte of a scratchpad lies: the inverse of `viewByte` (08 R182). -/
def viewOff (ix lin : Nat) : Nat :=
  let inv (B : Nat) : Nat := 64 * ((lin % 16384 / 64) * B + lin / 16384) + lin % 64
  match ix with
  | 0xFFF2 => inv 16
  | 0xFFF3 => inv 32
  | _ => lin

/-- Whether a range of a view holds a byte that another view's offset names. -/
def holdsByte (r : Nat × Nat × Nat) (ix off : Nat) : Bool :=
  decide (r.1 % 2 = ix % 2) &&
    (let o := viewOff r.1 (viewByte ix off); decide (r.2.1 ≤ o) && decide (o < r.2.1 + r.2.2))

/-- The link slot that an X slot names. -/
def linkSlot : Instr → Option Nat
  | .mxa _ k _ _ | .mxg _ k _ _ | .mxt _ k _ _ | .chc _ k _ _ => some k.toNat
  | .lkrd _ _ k _ | .lkld _ k _ | .lkz _ k => some k.toNat
  | _ => none

/-- An entry that writes its link slot (10 R221). -/
def XEntry.contributes (e : XEntry) : Bool :=
  match e.instr with
  | .mxa .. | .mxg .. | .mxt .. | .lkld .. | .lkz .. => true
  | _ => false

/-- The instance that an entry names. -/
def State.entryChain (s : State) (job : Nat) (e : XEntry) : Option Chain := s.chain? job e.ch e.inst

/-- The bytes of an element of a link (10 R223). -/
def Chain.width (c : Chain) (j : Nat) : Nat := if hop64 (c.hop j) then 8 else 4

/-- Whether a local-path store of n bytes must wait for a queued entry that reads them (10 R221). -/
def State.heldByX (s : State) (ix off n : Nat) : Bool :=
  s.core.pipe.xq.any fun e =>
    let hop := match s.entryChain s.core.cont.job e with | some c => c.width e.idx | none => 4
    let rs := e.reads s.core.store hop
    (List.range n).any fun i => rs.any fun r => holdsByte r ix (off + i)

/-- Whether a load of n bytes of a core's link store must wait for a contribution queued before it (10
R234). -/
def State.heldSlot (s : State) (core id off n : Nat) : Bool :=
  let c := s.coreOf core
  c.pipe.xq.any fun e => e.contributes && decide (e.id < id) &&
    (match linkSlot e.instr, s.entryChain c.cont.job e with
      | some k, some q => decide (6144 * k < off + n) && decide (off < 6144 * k + 1536 * q.width e.idx)
      | _, _ => false)

end Sys2Proof.Machine
end

