-- ==== Sys2Proof/Machine/Access.lean ====
section
/-!
DEFINITION. Accesses to memory, scratchpads and leases: where they lie, what orders those of one
continuation, the steps of a tokened access at its port, and the reads and writes that a bundle waits
for (08 R162 to R180; 09 R196 to R202; 13 R293, R294).
-/
namespace Sys2Proof

/-- The rights that an access needs (01 R31). -/
def AccOp.need : AccOp → Nat
  | .load _ | .vload | .flush .. | .pref _ | .merge .. | .check .. | .est _ => Machine.needR
  | .store => Machine.needW
  | .atomic .. => Machine.needRWA

/-- What an access asks of a lender. -/
def AccOp.peer : AccOp → PeerKind
  | .store => .write
  | .atomic op w64 _ np cmp => .atomic op w64 np cmp
  | _ => .read

/-- Every part still to be performed fails. -/
def Access.failAll (a : Access) (c : Cause) (detail : Nat) (wit : Word) (source : Nat) : Access :=
  { a with parts := [], bad := a.bad ++ a.parts.map fun p => ⟨p.lane, p.ptr, c, detail, wit, source⟩ }

/-- A load's value in its register (09 R199). -/
def extendLoad (sz x : Nat) : Word :=
  match sz with
  | 0 => (BitVec.ofNat 8 x).signExtend 64
  | 1 => (BitVec.ofNat 16 x).signExtend 64
  | 2 => (BitVec.ofNat 32 x).signExtend 64
  | 4 => BitVec.ofNat 64 (x % 2 ^ 8)
  | 5 => BitVec.ofNat 64 (x % 2 ^ 16)
  | 6 => BitVec.ofNat 64 (x % 2 ^ 32)
  | _ => BitVec.ofNat 64 x

/-- The bytes of a load or of a scalar store of a SZ code (09 R199). -/
def szBytes (sz : Nat) : Nat := 2 ^ (sz % 4)

/-- The lanes of a vector load as a mask and a value (09 R200). -/
def laneWrites (d : Nat) (got : List (Nat × Nat)) : Write :=
  .v d (BitVec.ofNat 2048 (got.map fun g => (2 ^ 32 - 1) * 2 ^ (32 * g.1)).sum)
    (BitVec.ofNat 2048 (got.map fun g => g.2 % 2 ^ 32 * 2 ^ (32 * g.1)).sum)

/-- Signed returns of AADD, AMIN and AMAX (13 R293). -/
def AtomOp.signed : AtomOp → Bool
  | .add | .min | .max => true
  | _ => false

/-- The value that an atomic writes (13 R293). -/
def AtomOp.new (op : AtomOp) (n : Nat) (np : Bool) (cmp v old : Nat) : Nat :=
  let t := if n = 8 then Machine.F64 else Machine.F32
  match op with
  | .add => (old + v) % 256 ^ n
  | .and => old &&& v
  | .or => old ||| v
  | .xor => old ^^^ v
  | .min => if sint (8 * n) v < sint (8 * n) old then v else old
  | .max => if sint (8 * n) old < sint (8 * n) v then v else old
  | .minu => if v < old then v else old
  | .maxu => if old < v then v else old
  | .swp => v
  | .cas => if old = cmp then v else old
  | .addf => (t.add false old v).1
  | .maxf => (t.minmax false np true old v).1
  | .minf => (t.minmax false np false old v).1

/-- The results of an access that has succeeded. -/
def Access.results (a : Access) : List Write :=
  let x := (a.got.headD (0, 0)).2
  match a.op with
  | .load sz => [.s a.dst (extendLoad sz x)]
  | .vload => [laneWrites a.dst a.got]
  | .atomic op w64 nr _ _ => if nr then [] else
      [.s a.dst (if w64 then BitVec.ofNat 64 x else if op.signed then (BitVec.ofNat 32 x).signExtend 64
        else BitVec.ofNat 64 (x % 2 ^ 32))]
  | _ => []

/-- The lanes that failed, as a mask: of the forms whose lanes are separate accesses (09 R201). -/
def Access.laneMask (a : Access) : Nat :=
  if a.whole then 0 else ((a.bad.map fun f => f.lane).eraseDups.map fun l => 2 ^ l).sum

/-- The lowest failing lane. -/
def Access.lowest (a : Access) : Option Failing :=
  a.bad.foldl (fun m f => match m with
    | none => some f
    | some g => some (if f.lane < g.lane then f else g)) none

/-- The order of batched atomics (12 R276): interval, UNIT, member, element, issue order. -/
def BatchKey.lt (x y : BatchKey) (ix iy : Nat) : Bool :=
  let d := ([x.interval, x.unit, x.member, x.elem, ix].zip [y.interval, y.unit, y.member, y.elem, iy]).find?
    fun p => decide (p.1 ≠ p.2)
  match d with | some p => decide (p.1 < p.2) | none => false

/-- The rights that a peer access needs (01 R31). -/
def PeerKind.need : PeerKind → Nat
  | .read => Machine.needR
  | .write => Machine.needW
  | .atomic .. => Machine.needRWA

/-- The code of an answer to a stalled bundle: 0, a cause code, or that plus 64 for a refusal. -/
def PeerResult.words : PeerResult → List Nat
  | .performed xs => 0 :: xs
  | .refused => [64 + Cause.bufRights.code]
  | .failed c => [c.code]

/-- The parts of an access that are performed together next: all of an access that is one, and every lane
that reads the link store, so that no contribution falls between them (05 R102); else one lane (09 R201). -/
def Access.unit (a : Access) : List Part :=
  if a.whole || a.parts.all fun p => decide (Machine.ptrIx p.ptr = 0xFFF4) then a.parts else a.parts.take 1

end Sys2Proof

namespace Sys2Proof.Machine

/-! ### Where an access lies -/

/-- The places of n bytes of a core's own storage, apart from every key of memory. -/
def localRanges (core ix off n : Nat) : List (Nat × Nat) :=
  if 0xFFF4 < ix then [] else
  let sp := if ix = 0xFFF4 then 2 else ix % 2
  (List.range n).map fun i => (2 ^ 60 + (core * 4 + sp) * 2 ^ 24 + viewByte ix (off + i), 1)

/-- The bytes that an access through a pointer touches, as (place, length), by the entries of a table; none where
it fails. Index 0xFFF6 names the code object at a pointer (01 R32). -/
def State.placesBy (s : State) (entry : Nat → Option Buf) (core : Nat) (j : Job) (obj p : Word) (n : Nat) :
    List (Nat × Nat) :=
  let q := if ptrIx p = 0xFFF6 then ptrAdd obj (ptrOff p) else p
  let ix := ptrIx q
  let off := ptrOff q
  if 0xFFF0 ≤ ix then localRanges core ix off n else
  match entry ix with
  | none => []
  | some b =>
    if b.tier = 3 then [(2 ^ 62 + b.lease * 2 ^ 48 + off, n)] else
    match s.pureKeys j.tenant.toNat b.tier (b.pieces off n) with
    | .ok ks => ks
    | .error _ => []

/-- The bytes that an access through a pointer touches, by the entries as the ports hold them (01 R33). -/
def State.places (s : State) (core : Nat) (j : Job) (obj p : Word) (n : Nat) : List (Nat × Nat) :=
  s.placesBy (s.buf? j) core j obj p n

/-- Two lists of ranges share a byte. -/
def overlaps (xs ys : List (Nat × Nat)) : Bool :=
  xs.any fun x => ys.any fun y => decide (x.1 < y.1 + y.2) && decide (y.1 < x.1 + x.2)

/-- The entry of an index that an access is checked by: the one of its first check (01 R33). -/
def State.entryFor (s : State) (a : Access) (j : Job) (ix : Nat) : Option Buf :=
  if a.entries = [] then s.buf? j ix else bufIn a.entries ix

/-- An access keeps the entries that it is checked by from its first check on (01 R33). -/
def State.keepEntries (s : State) (a : Access) (j : Job) : Access :=
  if a.entries = [] then { a with entries := s.entryWords j (a.parts.map fun p =>
    if ptrIx p.ptr = 0xFFF6 then ptrIx a.obj else ptrIx p.ptr) } else a

/-- The bytes that a tokened access names. -/
def State.namedPlaces (s : State) (a : Access) : List (Nat × Nat) :=
  match s.job? a.job with
  | none => []
  | some j => a.parts.flatMap fun p => s.placesBy (s.entryFor a j) a.core j a.obj p.ptr p.size

/-- The bytes that a tokened access has still to touch; a CFLUSH and a PREF touch none (09 R205, R206). -/
def State.accessPlaces (s : State) (a : Access) : List (Nat × Nat) :=
  match a.op with
  | .flush .. | .pref _ => []
  | _ => s.namedPlaces a

/-- A continuation's access of a number has an earlier one in flight at a common byte (09 R198). -/
def State.earlier (s : State) (recPa id : Nat) (rs : List (Nat × Nat)) : Bool :=
  s.agenda.any fun e => match accessOf e with
    | some a => decide (a.recPa = recPa) && decide (a.id < id) && overlaps (s.accessPlaces a) rs
    | none => false

/-! ### Conditions of the tiers (08 R171, R177; 15 R337) -/

/-- Asks for the walk of every piece that has no installed translation: the state, and whether any
lacks one (08 R168). -/
def State.askWalks (s : State) (tenant tier : Nat) (ps : List (Nat × Nat)) : State × Bool :=
  ps.foldl (fun r p =>
    let va := p.1 % 2 ^ 48
    match r.1.tlb? tenant tier va with
    | some _ => r
    | none =>
      let e : Event := .pageWalk tenant tier (va / 65536 * 65536)
      (if r.1.agenda.contains e then r.1 else r.1.push e, true)) (s, false)

/-- R168, R169: a walk ends: its translation is installed, after zeroing where the leaf has Z set. -/
def execPageWalk (tenant tier va : Nat) (s : State) : Out :=
  .next (match s.tlb? tenant tier va with
    | some _ => s
    | none => match s.walk tenant tier va with
      | .fault _ => s
      | .wait => s.push (.pageWalk tenant tier va)
      | .leaf key size z _ =>
        if z then s.push (.pageZeroing tenant tier va) else s.install tenant tier va key size)

/-- R169: the page is zeroed, Z is cleared, and the translation is installed, once no port of the page is held
(08 R171, R177; 15 R337). -/
def execPageZeroing (tenant tier va : Nat) (s : State) : Out :=
  .next (match s.walk tenant tier va with
    | .fault _ => s
    | .wait => s.push (.pageZeroing tenant tier va)
    | .leaf key size z entry =>
      if z && s.pageHeld tenant tier va key size then s.push (.pageZeroing tenant tier va) else
      let s := if z then (s.zeroPage key size entry).dropStale else s
      match s.tlb? tenant tier va with
      | some _ => s
      | none => s.install tenant tier va key size)

/-! ### The link store and core-local reads (01 R32, 05 R102, 10 R234) -/

/-- A byte of a core's link store: the canonical NaN where its link is FAULTED or LOST (10 R234). -/
def State.linkByte (s : State) (core off : Nat) : Nat :=
  let raw := (Cells.get (s.coreOf core).store.k off).toNat
  match s.openLink core (off / 6144) with
  | some (c, l) =>
    if l.state = 4 ∨ l.state = 5 then
      (if hop64 (c.hop l.idx) then F64.nan / 256 ^ (off % 8) else F32.nan / 256 ^ (off % 4)) % 256
    else raw
  | none => raw

/-- Reads n bytes of a core-local index that hold no code. -/
def State.localRead (s : State) (core recPa ix off : Nat) : Nat → Nat
  | 0 => 0
  | n + 1 =>
    (match ix with
      | 0xFFF4 => s.linkByte core off
      | 0xFFF5 => s.rd (recPa + off) 1
      | _ => (s.coreOf core).store.read ix off 1) + 256 * s.localRead core recPa ix (off + 1) n

/-- A range of a core-local view has a byte whose check value fails (15 R333). -/
def Store.badRange (st : Store) (core ix off n : Nat) : Bool :=
  match ix with
  | 0xFFF4 => (List.range n).any fun i => st.bad.contains (.slot core ((off + i) / 6144))
  | 0xFFF5 | 0xFFF6 => false
  | _ => (List.range n).any fun i => st.bad.contains (.scratch core (ix % 2) (viewByte ix (off + i) / 64))

/-- A range of a core-local index has a byte whose check value fails, that of a continuation's record among
them (15 R333). -/
def State.localBad (s : State) (core recPa ix off n : Nat) : Bool :=
  (s.coreOf core).store.badRange core ix off n || (decide (ix = 0xFFF5) && s.poisoned (recPa + off) n)

/-- A local store forms a new check value for every line that it covers whole (15 R333). -/
def Store.heal (st : Store) (core ix : Nat) (rs : List (Nat × Nat)) : Store :=
  { st with bad := st.bad.filter fun b =>
      match b with
      | .scratch c sp l => !(decide (c = core ∧ sp = ix % 2) &&
          (List.range 64).all fun i => rs.any fun r =>
            let o := viewOff ix (64 * l + i)
            decide (r.1 ≤ o) && decide (o < r.1 + r.2))
      | _ => true }

/-- The whole lines of memory that a list of key ranges covers have new check values (15 R333). -/
def State.healLines (s : State) (rs : List (Nat × Nat)) : State :=
  { s with mem := { s.mem with poison := s.mem.poison.filter fun l =>
      !((List.range 64).all fun i => inRanges rs (64 * l + i)) } }

/-! ### Leases: the borrower's side (08 R173, R175) -/

/-- Writes a word of the lease table; the ports see the device's own change at once. -/
def State.wrLease (s : State) (a x : Nat) : State :=
  let s := s.wr a 8 x
  { s with mem := { s.mem with btOld := s.mem.btOld.filter fun c => !(decide (a ≤ c.1) && decide (c.1 < a + 8)) } }

/-- The key of a lease-table entry. -/
def State.leaseKey (s : State) (ix : Nat) : Nat := s.leaseTable.1 * 32 + 32 * ix

/-- LDEV, GIX and EPOCH of a lease that is valid and ACTIVE. -/
def State.lease? (s : State) (ix : Nat) : Option (BitVec 14 × Nat × BitVec 32) :=
  if s.leaseTable.2 < ix then none else
  let w0 := s.rdPort (s.leaseKey ix) 8
  if bits w0 63 63 = 1 ∧ bits w0 62 61 = 0 then
    some (BitVec.ofNat 14 (bits w0 45 32), bits w0 31 16,
      BitVec.ofNat 32 (bits (s.rdPort (s.leaseKey ix + 8) 8) 63 32))
  else none

/-- A refusal counts in REFUSED; one that the lender reports, or a loss, also sets STATE (08 R175, R176). -/
def State.leaseRefused (s : State) (ix : Nat) (state : Option Nat) : State :=
  if s.leaseTable.2 < ix then s else
  let a := s.leaseKey ix
  let s := match state with | some v => s.wrLease a (setBits (s.rd a 8) 62 61 v) | none => s
  s.wrLease (a + 0x10) ((s.rd (a + 0x10) 8 + 1) % 2 ^ 64)

/-- Sends a peer access, or none where the borrower refuses it (08 R175). -/
def State.toLender (s : State) (lease : Nat) (j : Job) (kind : PeerKind) (pieces : List (Nat × Nat × Nat))
    (who : PeerWho) (batch : Option (BatchKey × Nat × Option Nat)) : Option State :=
  match s.lease? lease with
  | none => none
  | some (dev, gix, epoch) =>
    some (s.send dev (.peerAccess ⟨s.devnum, gix, epoch, pieces, kind, j.tenant, lease, who, batch⟩))

/-! ### The tokened path (09 R196, R197, R201; 13 R294) -/

/-- The check of R31 for a part; in handler mode an ST or VST may reach the frame of its continuation
although the buffer grants L (14 R309). -/
def State.accessCheck (s : State) (a : Access) (j : Job) (p : Part) : Except Cause Place :=
  let f := BitVec.ofNat 64 (s.word a.recPa 8)
  let o := ptrOff p.ptr
  let inFrame := a.fr && decide (ptrIx f = ptrIx p.ptr) && decide (ptrOff f ≤ o) &&
    decide (o + p.size ≤ ptrOff f + frameSize (s.gsizeOf a.recPa))
  let need := if a.op = .store ∧ a.whole ∧ inFrame then needL else a.op.need
  checkBy (s.entryFor a j (ptrIx p.ptr)) j a.osize need true (ptrIx p.ptr) o p.size

/-- The check of one part of an access: alignment, then R31 (09 R199, R200; 13 R294). -/
def State.partFails (s : State) (a : Access) (j : Job) (p : Part) : Option Failing :=
  let fail (c : Cause) : Option Failing := some ⟨p.lane, p.ptr, c, 0, 0, 1⟩
  let free := match a.op with | .flush .. | .pref _ => true | _ => false
  if !free && decide (ptrOff p.ptr % p.size ≠ 0) then fail .bufBounds
  else match s.accessCheck a j p with
    | .error c => fail c
    | .ok _ => none

/-- The fault record of a failed access, of its lowest failing lane (09 R201, 14 R311). -/
def accessFault (a : Access) (f : Failing) : FaultInfo :=
  { coreFault f.cause f.source a.core a.slot a.pc a.recPtr f.ptr with
    lanes := a.laneMask, detail := f.detail, wit := f.wit }

/-- A tokened access ends: its result lands and its token posts, or its fault is delivered and its
store poisoned (05 R107, R108; 09 R196, R197, R201; 12 R268, R269). -/
def State.endAccess (s : State) (a : Access) : State :=
  let ripen (done : Option Completion) : Event := .entryRipens ⟨s.devnum, a.core, a.seq, a.core, a.got, [], done, a.scope, 1, a.id⟩
  match a.lowest with
  | some f =>
    let r := s.faultRecord a.job (accessFault a f)
    let s := if a.seq = 0 then r.1 else r.1.storeFailed a.core a.seq
    let s := if a.op = .store ∧ a.got ≠ [] then s.push (ripen none) else s
    s.deliver ⟨a.core, a.recPa, a.post, [], some ⟨f.cause, r.2⟩⟩
  | none =>
    let done : Completion := ⟨a.core, a.recPa, a.post, a.results, none⟩
    match a.op with
    | .load _ | .vload => s.deliver done
    | .atomic .. => (s.deliver done).push
        (.entryRipens ⟨s.devnum, a.core, a.seq, a.core, a.got.drop 1, [], none, a.scope, 2, a.id⟩)
    | _ =>
      if a.scope = 0 then (s.deliver done).push (ripen none) else s.push (ripen (some done))

/-- Reads key ranges as a core does, through its L1 and its cluster's cache (08 R179, R180). -/
def State.coreRead (s : State) (core : Nat) : List (Nat × Nat) → Nat
  | [] => 0
  | (k, n) :: ks => s.l1Read (core / 24) (s.coreOf core).store.l1 k n + 256 ^ n * s.coreRead core ks

/-- A core reads a line that a store, of its own or of its cluster, has covered whole and that is not yet written
back (15 R333). -/
def State.covers (s : State) (core l : Nat) : Bool :=
  lineHealed (s.coreOf core).store.l1 l || lineHealed (s.clusterBytes (core / 24)) l

/-- A core's read of memory meets a poisoned line that no such store covers (15 R333). -/
def State.coreBad (s : State) (core : Nat) (ks : List (Nat × Nat)) : Bool :=
  s.mem.poison.any fun l => (ks.any fun k => decide (64 * l < k.1 + k.2) && decide (k.1 < 64 * l + 64)) && !s.covers core l

/-- Changes the L1 of a core. -/
def State.setL1 (s : State) (core : Nat) (f : List L1Byte → List L1Byte) : State :=
  let c := s.coreOf core
  s.setCore { c with store := { c.store with l1 := f c.store.l1 } }

/-- Drops from a cluster's cache the clean bytes of some keys that differ from what its agents now read there:
none of them reads the older value again (12 R263). -/
def State.clusterRead (s : State) (cl : Nat) (keys : List Nat) : State :=
  { s with mem := { s.mem with cc := s.mem.cc.filter fun c =>
    !(decide (c.1 = cl) && !c.2.dirty && keys.contains c.2.key && decide ((s.clusterGet cl c.2.key).1 ≠ c.2.val)) } }

/-- A core reads key ranges, which its L1 then holds, so that it never again reads an older value there (08
R179; 12 R263). -/
def State.coreGet (s : State) (core : Nat) (ks : List (Nat × Nat)) : State × Nat :=
  ((s.setL1 core fun l => l1Fill (s.l1Get (core / 24) l) l (unitKeys ks)).clusterRead (core / 24) (unitKeys ks),
    s.coreRead core ks)

/-- The entries of the stores that wrote the bytes of key ranges, as a core reads them (12 R266). -/
def State.coreWho (s : State) (core : Nat) (ks : List (Nat × Nat)) : List Word :=
  ((ks.flatMap fun k => (List.range k.2).map fun i =>
    (s.l1Get (core / 24) (s.coreOf core).store.l1 (k.1 + i)).2).filter fun e => decide (e ≠ 0)).eraseDups

/-- The entries of the stores that last wrote some places (12 R266). -/
def State.whoAt (s : State) (ks : List (Nat × Nat)) : List Word :=
  ((ks.flatMap fun k => (List.range k.2).map fun i => s.whoWrote (k.1 + i)).filter fun e => decide (e ≠ 0)).eraseDups

/-- A load of a number, of a continuation, reads key ranges: the stores that it returns are known (12 R266). -/
def State.coreLoad (s : State) (core recPa id : Nat) (ks : List (Nat × Nat)) : State × Nat :=
  let r := s.coreGet core ks
  (r.1.noteSeen core recPa id (s.coreWho core ks), r.2)

/-- Notes the code words that a core's store changes for its own instruction cache (04 R75). -/
def State.noteOwn (s : State) (core : Nat) (ks : List (Nat × Nat)) : State :=
  if s.sched.jobs = [] then s else
  let l := (s.coreOf core).store.l1
  let ic := s.codeRanges
  let ws := (ks.flatMap fun k => (List.range k.2).map fun i => (k.1 + i) / 4 * 4).eraseDups
  let keep (o : List OldWord) (a : Nat) : List OldWord :=
    let w := s.ownBytes (core / 24) l a 4
    keepWord ic (if w = s.rd a 4 then [] else coresBut fun c => decide (c = core)) o a (BitVec.ofNat 32 w)
  { s with mem := { s.mem with icOld := ws.foldl keep s.mem.icOld } }

/-- The channel of a part's first byte; an aligned part lies in one (08 R163). -/
def State.partChan (s : State) (a : Access) (p : Part) : Nat × Nat :=
  match s.job? a.job with
  | none => (0, 0)
  | some j => match s.entryFor a j (ptrIx p.ptr) with | some b => b.channel (ptrOff p.ptr) | none => (0, 0)

/-- Applies a change to an L1 over key ranges, with the bytes of a number. -/
def overSpans (f : List L1Byte → Nat → Nat → Nat → List L1Byte) (l : List L1Byte) :
    List (Nat × Nat) → Nat → List L1Byte
  | [], _ => l
  | (k, n) :: ks, x => overSpans f (f l k n x) ks (x / 256 ^ n)

/-- The lines that key ranges touch, whole. -/
def lineSpans (ks : List (Nat × Nat)) : List (Nat × Nat) :=
  (ks.filter fun k => decide (k.2 ≠ 0)).map fun k =>
    (k.1 / 64 * 64, (k.1 + k.2 + 63) / 64 * 64 - k.1 / 64 * 64)

/-- One part of a load, store or CFLUSH is performed at its port: what was read, or the ranges written. -/
def State.memPart (s : State) (a : Access) (p : Part) (ks : List (Nat × Nat)) : State × List (Nat × Nat) :=
  match a.op with
  | .store => ((s.noteOwn a.core ks).setL1 a.core fun l =>
      overSpans (l1Write (s.partChan a p) (s.storeEntry a.scope a.core a.seq)) l ks p.data, ks)
  | .flush scope inv =>
    let ls := lineSpans ks
    let s := if scope ≠ 0 then ls.foldl (fun s k => s.writeBack scope a.core k.1 k.2) s else s
    (if inv then s.setL1 a.core fun l => ls.foldl (fun l k => l1Drop l k.1 k.2) l else s, [])
  | _ => let r := s.coreLoad a.core a.recPa a.id ks; (r.1, [(p.lane, r.2)])

/-- One part is performed in the core's own storage: what was read, or the places written. -/
def State.localPart (s : State) (a : Access) (p : Part) : State × List (Nat × Nat) :=
  let ix := ptrIx p.ptr
  let off := ptrOff p.ptr
  match a.op with
  | .store =>
    let c := s.coreOf a.core
    let rs := localRanges a.core ix off p.size
    ((s.setCore { c with store := c.store.write ix off p.size p.data }).stamp rs (s.storeEntry a.scope a.core a.seq), rs)
  | .flush .. => (s, [])
  | _ => (s.noteSeen a.core a.recPa a.id (s.whoAt (localRanges a.core ix off p.size)),
      [(p.lane, s.localRead a.core a.recPa ix off p.size)])

/-- How far the port is with a part. -/
inductive Ready where
  | go (ks : List (Nat × Nat))
  | loc
  | peer (lease : Nat)
  | wait (s : State)
  | bad (cause : Cause) (detail : Nat)

/-- The steps of 08 R162 for one part that has passed its check. -/
def State.ready (s : State) (a : Access) (j : Job) (p : Part) : Ready :=
  let ix := ptrIx p.ptr
  let off := ptrOff p.ptr
  let isFlush := match a.op with | .flush .. => true | _ => false
  let mem (s : State) (tier : Nat) (ps : List (Nat × Nat)) (held : List (Nat × Nat) → Bool) : Ready :=
    match s.pureKeys j.tenant.toNat tier ps with
    | .error l => .bad .xlate l
    | .ok ks =>
      let w := s.askWalks j.tenant.toNat tier ps
      if w.2 then .wait w.1
      else if held ks then .wait s
      else match a.op with
        | .load _ | .vload => if s.coreBad a.core ks then .bad .eccUncorr 0 else .go ks
        | .flush scope _ =>
          if decide (2 ≤ scope) && (lineSpans ks).any (fun k => s.backHeld a.core k.1 k.2) then .wait s else .go ks
        | .atomic .. => if ks.any fun k => s.poisoned k.1 k.2 then .bad .eccUncorr 0 else .go ks
        | _ => .go ks
  match s.accessCheck a j p with
  | .error c => .bad c 0
  | .ok (.core 0xFFF6) =>
    if isFlush then .loc else
    let q := ptrAdd a.obj off
    (match s.entryFor a j (ptrIx q) with
      | none => .bad .bufBounds 0
      | some b => mem s b.tier (b.pieces (ptrOff q) p.size) fun ks => s.portHeld b (ptrOff q) p.size ks)
  | .ok (.core _) =>
    if isFlush then .loc
    else if a.op ≠ .store ∧ s.localBad a.core a.recPa ix off p.size then .bad .eccUncorr 0
    else if ix = 0xFFF4 ∧ s.heldSlot a.core a.id off p.size then .wait s
    else .loc
  | .ok (.buf b) =>
    if b.tier = 3 then (if isFlush then .loc else .peer b.lease)
    else if p.size = 0 then .loc
    else mem s b.tier (b.pieces off p.size) fun ks => !isFlush && s.portHeld b off p.size ks

/-- Parts are ready together: all of them, or the first that is not. -/
def State.readyAll (s : State) (a : Access) (j : Job) : List Part → List (Part × List (Nat × Nat) × Bool) → Sum Ready (List (Part × List (Nat × Nat) × Bool))
  | [], acc => .inr acc
  | p :: ps, acc =>
    match s.ready a j p with
    | .go ks => s.readyAll a j ps (acc ++ [(p, ks, false)])
    | .loc => s.readyAll a j ps (acc ++ [(p, [], true)])
    | r => .inl r

/-- Performs parts that are ready. -/
def State.performParts (s : State) (a : Access) : List (Part × List (Nat × Nat) × Bool) → State × Access
  | [] => (s, a)
  | (p, ks, loc) :: rs =>
    let r := if loc then s.localPart a p else s.memPart a p ks
    r.1.performParts { a with got := a.got ++ r.2, parts := a.parts.filter fun q => !decide (q.lane = p.lane) } rs

/-- The access stays at the end of the agenda. -/
def State.again (s : State) (a : Access) : State := s.push (.memoryPortAccess a)

/-- An atomic that may be performed as it arrives goes to its port; a batched one to its batch (12 R276). -/
def State.toPort (s : State) (a : Access) : State :=
  if a.key.isSome then s.push (.batchPerform a) else s.push (.atomicPerform a)

/-- The places of an access as batches order them: every place of a lease is one place of its lender, where two
leases may reach the same bytes (12 R276; 08 R172). -/
def State.batchPlaces (s : State) (a : Access) : List (Nat × Nat) :=
  (s.accessPlaces a).map fun r =>
    if r.1 < 2 ^ 62 then r else match s.lease? ((r.1 - 2 ^ 62) / 2 ^ 48) with
      | some (dev, _) => (2 ^ 65 + dev.toNat, 1)
      | none => r

/-- A batched atomic with a lower key of the same launch is in flight to a common byte. -/
def State.batchedBefore (s : State) (a : Access) (k : BatchKey) : Bool :=
  s.agenda.any fun e => match accessOf e with
    | some b => (match b.key with
      | some q => decide (q.launch = k.launch) && q.lt k b.id a.id && overlaps (s.batchPlaces b) (s.batchPlaces a)
      | none => false)
    | none => false

/-- The batch of an atomic may be performed: the frontier of its launch has passed its interval, and no
lower key is in flight there (12 R276). -/
def State.batchDue (s : State) (a : Access) : Bool :=
  a.key.all fun k =>
    (match s.frontier k.launch with | some f => decide (k.interval < f) | none => true) && !s.batchedBefore a k

/-- The lanes that read the link store and fail their check value fail alone (09 R201; 15 R333). -/
def State.dropBadLanes (s : State) (a : Access) : Access :=
  let bad (p : Part) : Bool := !a.whole && decide (ptrIx p.ptr = 0xFFF4) &&
    s.localBad a.core a.recPa 0xFFF4 (ptrOff p.ptr) p.size
  { a with
    parts := a.parts.filter fun p => !bad p
    bad := a.bad ++ (a.parts.filter bad).map fun p => ⟨p.lane, p.ptr, .eccUncorr, 0, 0, 1⟩ }

/-- One more part of an access, or all of an access that is one, at the port (09 R200, R201). -/
def State.nextParts (s : State) (a : Access) (j : Job) : State :=
  let a := s.dropBadLanes a
  let unit := a.unit
  if unit = [] then s.endAccess a else
  if s.earlier a.recPa a.id (s.namedPlaces { a with parts := unit }) then s.again a else
  match s.readyAll a j unit [] with
  | .inl (.wait s) => s.again a
  | .inl (.bad c d) =>
    if a.whole then s.endAccess (a.failAll c d 0 1)
    else s.again { a with
      parts := a.parts.drop 1
      bad := a.bad ++ unit.map fun p => ⟨p.lane, p.ptr, c, d, 0, 1⟩ }
  | .inl (.peer lease) =>
    if !s.batchDue a then s.again a else
    (match s.toLender lease j a.op.peer (unit.map fun p => (ptrOff p.ptr, p.size, p.data)) (.access a.id)
        (a.key.map fun k => (k, a.id, s.frontier k.launch)) with
      | some s => s.again { a with sent := true }
      | none =>
        let s := s.leaseRefused lease none
        if a.whole then s.endAccess (a.failAll .bufRights 0 0 6)
        else s.again { a with
          parts := a.parts.drop 1
          bad := a.bad ++ unit.map fun p => ⟨p.lane, p.ptr, .bufRights, 0, 0, 6⟩ })
  | .inl _ => s.again a
  | .inr rs =>
    match a.op with
    | .atomic .. => s.toPort a
    | _ =>
      let r := s.performParts a rs
      let stored := decide (a.op = .store)
      let loc := rs.any fun r => r.2.2
      let c := r.1.coreOf a.core
      let s := if stored && loc
        then r.1.setCore { c with store := (c.store.heal a.core (ptrIx ((unit.headD ⟨0, 0, 0, 0⟩).ptr))
          (unit.map fun p => (ptrOff p.ptr, p.size))) }
        else if stored then r.1.setL1 a.core (l1Heal (rs.flatMap fun r => r.2.1))
        else r.1
      if r.2.parts = [] then s.endAccess r.2 else s.again r.2

/-- The code of 13 R291 for an entry, for the issuing core. -/
def State.entryCode (s : State) (core : Nat) (e : Word) : Nat :=
  match s.judge (some core) e with
  | .empty => 0 | .ripe => 1 | .unripe => 2 | .poisoned => 3 | .future => 4

/-- The value of EST for an engine of a device: entries in use, whether an unmet trigger heads the queue,
the free egress space in KiB (09 R217; the egress space in use is UNSPECIFIED, log 5). -/
def State.estValue (s : State) (eng : Nat) : Word :=
  let q := (s.units.engines[eng]?.getD Engine.reset).queue
  let head := match q with | c :: _ => decide (c.kind = 4) && !c.freed | [] => false
  let free := if q = [] then 512 else pickIn s.tick (2 ^ 50 + eng) 513
  BitVec.ofNat 64 (q.length + (if head then 64 else 0) + free * 128)

/-- Lines come into a cluster's cache, clean (08 R180; 09 R206). -/
def State.clusterFill (s : State) (cl : Nat) (ks : List (Nat × Nat)) : State :=
  let mine := (l1Fill (s.clusterGet cl) (s.clusterBytes cl) (unitKeys ks)).map fun b => (cl, b)
  { s with mem := { s.mem with cc := mine ++ s.mem.cc.filter fun b => !decide (b.1 = cl) } }

/-- The next line of a PREF comes into the L1 or the cluster's cache once its access would be performed; one
whose access would fail, or that is not cached, is left out (09 R206; 08 R180). The memory-side cache holds
what its port's memory holds (log 12). -/
def State.prefetch (s : State) (a : Access) (level : Nat) : State :=
  match a.parts, s.job? a.job with
  | p :: ps, some j =>
    let rest (s : State) : State := if ps = [] then s else s.push (.memoryPortAccess { a with parts := ps })
    let a := s.keepEntries a j
    (match checkBy (s.entryFor a j (ptrIx p.ptr)) j a.osize needR true (ptrIx p.ptr) (ptrOff p.ptr) p.size with
    | .ok (.buf b) =>
      if b.tier = 3 then rest s else
      match s.pureKeys j.tenant.toNat b.tier (b.pieces (ptrOff p.ptr) p.size) with
      | .error _ => rest s
      | .ok ks =>
        let w := s.askWalks j.tenant.toNat b.tier (b.pieces (ptrOff p.ptr) p.size)
        if w.2 then w.1.push (.memoryPortAccess a)
        else if s.portHeld b (ptrOff p.ptr) p.size ks then s.push (.memoryPortAccess a)
        else if s.coreBad a.core ks then rest s
        else rest (match level with
          | 0 => (s.coreGet a.core ks).1
          | 1 => s.clusterFill (a.core / 24) ks
          | _ => s)
    | _ => rest s)
  | _, _ => s

/-- The tokened operations that touch no memory: WMRG with an overflow waits for the rest and issues its
marker (13 R290); WCHK and EST report what holds now (13 R291, 09 R217). -/
def State.bareOp (s : State) (a : Access) : Option State :=
  let done (ws : List Write) (f : Option PFault) : Completion := ⟨a.core, a.recPa, a.post, ws, f⟩
  match a.op with
  | .pref level => some (s.prefetch a level)
  | .merge keep rest => some (
    match s.observe (some a.core) rest with
    | .wait => s.again a
    | .bad c e =>
      let r := s.faultRecord a.job { coreFault c 1 a.core a.slot a.pc a.recPtr 0 with wit := e }
      r.1.deliver (done [] (some ⟨c, r.2⟩))
    | .ok =>
      if !s.roomFor a.core then s.again a else
      let r := s.marker a.core (widest rest) rest
      let w := (witOfEntries (mergeEntries [s.copyEntry keep, r.2])).getD 0
      r.1.deliver (done [.w a.dst (BitVec.allOnes 128) w] none))
  | .check e0 e1 => some (s.deliver
      (done [.s a.dst (BitVec.ofNat 64 (s.entryCode a.core e0 + 16 * s.entryCode a.core e1))] none))
  | .est eng => some (s.deliver (done [.s a.dst (s.estValue eng)] none))
  | _ => none

/-- R162, R196 to R201, R294: a tokened access goes on at its port: checks, the witnesses it names, the
continuation's earlier accesses to the same bytes, translation, and the access itself. -/
def execMemoryPortAccess (a : Access) (s : State) : Out :=
  .next (
    match s.bareOp a with
    | some t => t
    | none =>
    if a.sent then s.again a else
    match s.job? a.job with
    | none => s
    | some j =>
      let a := s.keepEntries a j
      let bad := a.parts.filterMap (s.partFails a j)
      let a := if bad = [] then a
        else if a.whole then { a with parts := [], bad := a.bad ++ bad }
        else { a with
          parts := a.parts.filter fun p => !(bad.any fun f => decide (f.lane = p.lane))
          bad := a.bad ++ bad }
      if a.whole ∧ a.bad ≠ [] then s.endAccess a else
      match s.observe (some a.core) a.wi with
      | .wait => s.again a
      | .bad c e => s.endAccess (a.failAll c 0 e 1)
      | .ok =>
        let a := { a with wi := [] }
        if a.parts = [] then s.endAccess a else s.nextParts a j)

/-! ### Atomics at the port (12 R274, R276; 13 R293) -/

/-- An atomic acts on its location, as one access: the old value is returned, and the new value is
visible to every agent at once. -/
def State.actAtomic (s : State) (a : Access) (p : Part) (ks : List (Nat × Nat)) : State :=
  match a.op with
  | .atomic op _ _ np cmp =>
    let s := ks.foldl (fun s k => s.writeBack 2 a.core k.1 k.2) s
    let old := s.rdSpans ks
    let s := s.noteSeen a.core a.recPa a.id (s.whoAt ks)
    let s := (s.wrSpans ks (op.new p.size np cmp.toNat p.data old)).stamp ks (s.storeEntry a.scope a.core a.seq)
    let s := s.setL1 a.core fun l => ks.foldl (fun l k => l1Drop l k.1 k.2) l
    s.dropStale.endAccess { a with parts := [], got := (p.lane, old) :: ks }
  | _ => s.endAccess a

/-- Performs an atomic that has passed its checks, unless its port must still wait. -/
def State.performAtomic (s : State) (a : Access) (again : Access → Event) : State :=
  match s.job? a.job, a.parts with
  | some j, p :: _ =>
    (match s.ready a j p with
      | .go ks => s.actAtomic a p ks
      | .wait s => s.push (again a)
      | .bad c d => s.endAccess (a.failAll c d 0 1)
      | .peer _ => s.again a
      | .loc => s.endAccess (a.failAll .bufRights 0 0 1))
  | _, _ => s

/-- R294, R295: an atomic that is not batched is performed as it arrives. -/
def execAtomicPerform (a : Access) (s : State) : Out := .next (s.performAtomic a .atomicPerform)

/-- R276: the batch of an interval is performed in key order once the frontier has passed it. -/
def execBatchPerform (a : Access) (s : State) : Out :=
  .next (if s.batchDue a then s.performAtomic a .batchPerform else s.push (.batchPerform a))

/-! ### Ripening (12 R267, R268, R271) -/

/-- A load or atomic of the core that issued before a store is still in flight: what it returns belongs to
the store's cover set (12 R266 item 3). -/
def State.loadsBefore (s : State) (r : Ripe) : Bool :=
  s.agenda.any fun e => match accessOf e with
    | some a => decide (a.core = r.core ∧ a.id < r.id) && AccOp.loads a.op
    | none => false

/-- The entries that a store's cover set follows beside its agent's earlier stores: those that it replaces, and
those of the stores that its core's loads issued before it have returned (12 R266 items 2 to 4, R271). -/
def State.coverOf (s : State) (r : Ripe) : List Word :=
  r.wi ++ ((s.agentOf s.devnum r.core).seen.filter fun p => decide (p.1 < r.id)).map Prod.snd

/-- The stores of this device on their way to every agent. -/
def State.onWay (s : State) : List Ripe :=
  s.agenda.filterMap fun e => match e with
    | .entryRipens r => if r.dev = s.devnum then some r else none
    | _ => none

/-- Of the stores that an entry names, those not yet ripe for the agents within a scope about a core, all of them
visible there; none where one is not visible (12 R266 item 1, R267). -/
def State.coverLeft (s : State) (rs : List Ripe) (core scope : Nat) (e : Word) : Option (List Ripe) :=
  let near := s.scopeAbout e (some core)
  let sc := if scope = 0 then near else if scope = 1 ∧ near ≤ 1 then 1 else max 2 near
  if s.judgeAt sc e ≠ .unripe then some []
  else if entDev e ≠ s.devnum.toNat then none
  else
    let q := s.agentOf s.devnum (entAgent e)
    let xs := (q.pend.filter fun p => decide (p.1 ≤ q.numberOf e) && decide (p.2 ≤ sc)).map fun p =>
      rs.find? fun x => decide (x.agent = entAgent e ∧ x.seq = p.1 ∧ sc < x.level)
    if xs.any Option.isNone then none else some (xs.filterMap id)

/-- Every store that some stores cover is visible to the agents within a scope about a core, and nothing that a load
issued before one of them has yet to return is missing. Stores that cover each other ripen together (12 R266, R267). -/
def State.coverRipe (s : State) (rs : List Ripe) (core scope : Nat) : Nat → List Ripe → Bool
  | 0, _ => false
  | fuel + 1, d =>
    let left := (d.flatMap s.coverOf).map (s.coverLeft rs core scope)
    if d.any s.loadsBefore || left.any Option.isNone then false
    else
      let new := ((left.filterMap id).flatten.filter fun x => !d.contains x).eraseDups
      if new.isEmpty then true else s.coverRipe rs core scope fuel (d ++ new)

/-- How far the entry of a store on its way may ripen, as `Agent.pend` counts it (12 R267). -/
def State.ripeTo (s : State) (r : Ripe) : Nat :=
  let rs := r :: s.onWay
  ([3, 2, 1].find? fun l => decide (l ≤ r.level) && s.coverRipe rs r.core (l - 1) (rs.length + 1) [r]).getD 0

/-- The ranges of memory that a store has written: its other places are of a core's storage. -/
def memRanges (r : Ripe) : List (Nat × Nat) := r.bytes.filter fun k => decide (k.1 < 2 ^ 60)

/-- The ranges of a store that its write-back to memory carries: its own, and every byte that the cluster's
cache holds, since the core may have observed it (12 R266 item 3, R267). -/
def State.coverBytes (s : State) (r : Ripe) : List (Nat × Nat) :=
  memRanges r ++ if r.core < 1152 then
    ((s.clusterBytes (r.core / 24)).filter L1Byte.dirty).map fun b => (b.key, 1) else []

/-- A store of the agent that was issued before one is not yet visible to every agent: the entry of the later
one is not ripe (12 R266 item 1). -/
def State.earlierPend (s : State) (r : Ripe) : Bool :=
  (s.agentOf r.dev r.agent).pend.any fun p => decide (p.1 < r.seq)

/-- A store goes one level further: it is written to its cluster's cache, or to memory, where it is visible
to every agent, and posts once it has gone past its scope, whatever else is in flight (12 R262, R267, R268; 08 R179,
R180). -/
def State.goesOn (s : State) (r : Ripe) : State × Ripe :=
  let give (s : State) (level : Nat) : State × Ripe :=
    match r.post with
    | some c => if r.scope < level ∨ 3 ≤ level then (s.deliver c, { r with post := none, level := level })
        else (s, { r with level := level })
    | none => (s, { r with level := level })
  match r.level with
  | 0 => give s 1
  | 1 => give (((memRanges r).foldl (fun s k => s.writeBack 1 r.core k.1 k.2) s).dropStaleIn (some (r.core / 24))) 2
  | 2 => if (s.coverBytes r).any fun k => s.backHeld r.core k.1 k.2 then (s, r)
    else give ((s.coverBytes r).foldl (fun s k => s.writeBack 2 r.core k.1 k.2) s).dropStale 3
  | _ => (s, r)

/-- The entry of a store on its way ripens as far as it may, and stays on its way while it, or an earlier one of its
agent, may not ripen for every agent (12 R266 item 1, R267). -/
def State.settleEntry (s : State) (r : Ripe) : State :=
  let l := s.ripeTo r
  let s := if l = 3
    then (if (s.agentOf s.devnum r.agent).pend.any fun p => decide (p.1 = r.seq) then s.visible r.agent r.seq else s)
    else s.reached r.agent r.seq l
  if l = 3 ∧ s.earlierPend r = false then s else s.push (.entryRipens r)

/-- R267: a store goes on level by level, and its entry ripens once what it covers is visible too; a report from
another device is taken as it comes. -/
def execEntryRipens (r : Ripe) (s : State) : Out :=
  .next (if r.dev ≠ s.devnum then s.agentReported r else (s.goesOn r).1.settleEntry (s.goesOn r).2)

/-! ### Leases: the lender's side (08 R174, R175) and the response -/

/-- The running job of a tenant that owns the lowest cluster (08 R175). -/
def State.lender? (s : State) (tenant : BitVec 16) : Option Job :=
  (sortBy (fun a b => decide (a.owned.headD 48 ≤ b.owned.headD 48))
    (s.sched.jobs.filter fun j => decide (j.tenant = tenant))).head?

/-- The keys of the pieces of a peer access in the lender's buffer, or the cause of a failure. -/
def State.lentSpans (s : State) (j : Job) (lbuf loff need : Nat) (kind : PeerKind) :
    List (Nat × Nat × Nat) → State × Except Cause (List (List (Nat × Nat)))
  | [] => (s, .ok [])
  | (off, n, _) :: ps =>
    match s.check j 0 need false lbuf (loff + off) n with
    | .error c => (s, .error c)
    | .ok (.core _) => (s, .error .bufRights)
    | .ok (.buf b) =>
      match s.bufSpans j b (loff + off) n with
      | (s, .error _) => (s, .error .xlate)
      | (s, .ok ks) =>
        if kind ≠ .write ∧ ks.any fun k => s.poisoned k.1 k.2 then (s, .error .eccUncorr) else
        match s.lentSpans j lbuf loff need kind ps with
        | (s, .ok r) => (s, .ok (ks :: r))
        | r => r

/-- Performs one piece of a peer access at the lender's port: what it read. -/
def State.lendPiece (s : State) (kind : PeerKind) (ks : List (Nat × Nat)) (n data : Nat) : State × Nat :=
  let old := s.rdSpans ks
  match kind with
  | .read => (s, old)
  | .write => (s.wrSpans ks data, 0)
  | .atomic op _ np cmp => (s.wrSpans ks (op.new n np cmp.toNat data old), old)

/-- Performs the pieces of a peer access in order. -/
def State.lend (s : State) (kind : PeerKind) : List ((Nat × Nat × Nat) × List (Nat × Nat)) → State × List Nat
  | [] => (s, [])
  | (p, ks) :: ps =>
    let r := s.lendPiece kind ks p.2.1 p.2.2
    let q := r.1.lend kind ps
    (q.1, r.2 :: q.2)

/-- A channel of the lender's buffer holds the access at its port (08 R171, R177; 15 R337). -/
def State.lendHeld (s : State) (j : Job) (lbuf loff : Nat) (pieces : List (Nat × Nat × Nat)) : Bool :=
  match s.buf? j lbuf with
  | some b => pieces.any fun p =>
      s.portHeld b (loff + p.1) p.2.1 (match s.pureKeys j.tenant.toNat b.tier (b.pieces (loff + p.1) p.2.1) with
        | .ok ks => ks | .error _ => [])
  | none => false

/-- The lending job, LBUF and LOFF of an access under a grant, unless it is refused (08 R175). The grant's R,
W and A ([58:56], 08 R174) stand in the order of an entry's RIGHTS ([59:57], 01 R30), which R31 numbers from
L. -/
def State.grant? (s : State) (src : BitVec 14) (gix : Nat) (epoch : BitVec 32) (tenant : BitVec 16) (need : Nat) :
    Option (Job × Nat × Nat) :=
  let ga := s.host.gtbase.toNat * 16 + 16 * gix
  let w0 := s.rd ga 8
  let w1 := s.rd (ga + 8) 8
  let lbuf := bits w1 63 48
  match s.lender? tenant with
  | none => none
  | some j =>
    let chained : Bool := match s.buf? j lbuf with | some b => decide (b.tier = 3) | none => false
    if s.host.gtn.toNat < gix ∨ bits w0 63 63 = 0 ∨ bits w0 47 34 ≠ src.toNat ∨ bits w0 31 0 ≠ epoch.toNat ∨
        grants (4 * bits w0 58 56) need = false ∨ 0xFFF0 ≤ lbuf ∨ chained = true
      then none
    else some (j, lbuf, bits w1 47 0)

/-- The lender's answer to a peer access; none while a port of it waits (08 R175). -/
def State.answerPeer (s : State) (p : PeerReq) : State × Option PeerResult :=
  match s.grant? p.src p.gix p.epoch p.tenant p.kind.need with
  | none => (s, some .refused)
  | some (j, lbuf, loff) =>
    if s.lendHeld j lbuf loff p.pieces then (s, none)
    else match s.lentSpans j lbuf loff p.kind.need p.kind p.pieces with
      | (s, .error c) => (s, some (.failed c))
      | (s, .ok kss) =>
        let r := s.lend p.kind (p.pieces.zip kss)
        let s := if p.kind = .write then r.1.healLines kss.flatten else r.1
        (s.dropStale, some (.performed r.2))

/-- Notes the frontier of a launch that a borrower has sent (12 R276). -/
def State.noteFront (s : State) (src : BitVec 14) (launch : Nat) (f : Option Nat) : State :=
  { s with units := { s.units with
    fronts := (src, launch, f) :: s.units.fronts.filter fun q => !decide (q.1 = src ∧ q.2.1 = launch) } }

/-- The bytes of the lender's memory that a peer access names, by its grant as it stands (08 R174, R175). -/
def State.lentPlaces (s : State) (p : PeerReq) : List (Nat × Nat) :=
  match s.grant? p.src p.gix p.epoch p.tenant p.kind.need with
  | none => []
  | some (j, lbuf, loff) => match s.buf? j lbuf with
    | none => []
    | some b => p.pieces.flatMap fun x =>
      match s.pureKeys j.tenant.toNat b.tier (b.pieces (loff + x.1) x.2.1) with | .ok ks => ks | .error _ => []

/-- A batched peer atomic may be performed at the lender: the borrower's frontier has passed its interval, and
no lower key of its launch waits there for the same bytes, through whichever lease (12 R276). -/
def State.peerDue (s : State) (p : PeerReq) : Bool :=
  match p.batch with
  | none => true
  | some (k, id, _) =>
    (s.units.fronts.any fun q => decide (q.1 = p.src ∧ q.2.1 = k.launch) && q.2.2.all fun f => decide (k.interval < f)) &&
      !s.agenda.any fun e => match e with
        | .peerAccess q => (match q.batch with
          | some (k', id', _) => decide (q.src = p.src ∧ k'.launch = k.launch) && k'.lt k id' id &&
              overlaps (s.lentPlaces q) (s.lentPlaces p)
          | none => false)
        | _ => false

/-- R175: a peer access at the lender's port; a batched atomic waits there for its batch (12 R276). -/
def execPeerAccess (p : PeerReq) (s : State) : Out :=
  .next (
    let s := match p.batch with | some (k, _, f) => s.noteFront p.src k.launch f | none => s
    if !s.peerDue p then s.push (.peerAccess p) else
    match s.answerPeer p with
    | (s, none) => s.push (.peerAccess p)
    | (s, some r) => s.send p.src (.peerResponse ⟨p.lease, p.who, r⟩))

/-- The access of a number that waits for a lender. -/
def State.sentAccess (s : State) (id : Nat) : Option Access :=
  s.agenda.findSome? fun e => match e with
    | .memoryPortAccess a => if a.id = id ∧ a.sent then some a else none
    | _ => none

/-- Removes a waiting access from the agenda. -/
def State.dropAccess (s : State) (a : Access) : State :=
  { s with agenda := s.agenda.filter fun e => !decide (e = .memoryPortAccess a) }

/-- What a lender's answer, or its loss, does to the access that waits for it (08 R175, R176). -/
def State.accessAnswered (s : State) (a : Access) (r : Except (Cause × Nat) (List Nat)) : State :=
  let unit := a.unit
  let rest := if a.whole then [] else a.parts.drop 1
  let a := { a with sent := false, parts := rest }
  let a : Access := match r with
    | .ok xs => if a.op = .store then a else { a with got := a.got ++ (unit.zip xs).map fun p => (p.1.lane, p.2) }
    | .error (c, src) => { a with bad := a.bad ++ unit.map fun p => ⟨p.lane, p.ptr, c, 0, 0, src⟩ }
  if a.parts = [] then s.endAccess a else s.again a

/-- Answers a stalled bundle's request of a key (04 R88). -/
def State.answerStall (s : State) (core key : Nat) (ws : List Nat) : State :=
  let c := s.coreOf core
  s.setCore { c with pipe := { c.pipe with
    reply := c.pipe.reply.map fun r => if r.1 = key ∧ r.2 = none then (key, some ws) else r } }

/-- The event by which the head of an engine's queue acts (09 R211 to R216; 13 R300). -/
def engEvent (e : Nat) (c : Cmd) : Event :=
  if c.written then .delivered e else
  match c.kind with
  | 1 => .copyPerform e
  | 2 => .reduceCopyPerform e
  | 3 => .collectiveRun e
  | 4 => .triggerMet e
  | _ => .publishPerform e

/-- An engine. -/
def State.engine (s : State) (e : Nat) : Engine := s.units.engines[e]?.getD Engine.reset
/-- Replaces an engine. -/
def State.setEngine (s : State) (e : Nat) (g : Engine) : State :=
  { s with units := { s.units with engines := s.units.engines.setIfInBounds e g } }

/-- Asks the head of an engine's queue to act, unless a core holds the engine (14 R320). -/
def State.pushEngine (s : State) (e : Nat) : State :=
  match (s.engine e).holder, (s.engine e).queue with
  | none, c :: _ => if s.agenda.contains (engEvent e c) then s else s.push (engEvent e c)
  | _, _ => s

/-- Gives a lender's answer to who waits for it. -/
def State.peerAnswered (s : State) (p : PeerResp) : State :=
  match p.who with
  | .access id => (match s.sentAccess id with
    | none => s
    | some a => (s.dropAccess a).accessAnswered a (match p.res with
      | .performed xs => .ok xs
      | .refused => .error (.bufRights, 6)
      | .failed c => .error (c, 6)))
  | .engine e =>
    let g := s.engine e
    (s.setEngine e { g with waiting := g.waiting ++ [p] }).pushEngine e
  | .stalled core key => s.answerStall core key p.res.words
  | .ending e id =>
    ({ s with units := { s.units with endings := s.units.endings.map fun g =>
      if g.eng = e ∧ g.cmd.id = id then { g with answer := some p.res } else g } } : State).push (.delivered e)

/-- R175: the lender's answer reaches the borrower; a refusal revokes the lease there. -/
def execPeerResponse (p : PeerResp) (s : State) : Out :=
  .next ((if p.res = .refused then s.leaseRefused p.lease (some 1) else s).peerAnswered p)

/-! ### Reads and writes that a bundle waits for (09 R202, R207, R208; 10 R224; 13 R296) -/

/-- How a bundle's own access stands: it stalls, it fails, or it may be performed at a place. -/
inductive Sync where
  | stall (s : State)
  | fail (s : State) (cause : Cause) (detail : Nat) (tval : Word)
  | ok (s : State) (x : Nat)

/-- What a key of the focused core's bundle has been answered (04 R88). -/
def State.replied (s : State) (key : Nat) : Option (Option (List Nat)) :=
  (s.core.pipe.reply.find? fun r => decide (r.1 = key)).map fun r => r.2

/-- Notes that the bundle awaits the answer of a key, and stalls. -/
def State.awaits (s : State) (key : Nat) : State :=
  (s.setPipe { s.core.pipe with reply := (key, none) :: s.core.pipe.reply }).stall

/-- The key of the n-th request of the slot in turn. -/
def State.replyKey (s : State) (n : Nat) : Nat := s.core.pipe.slot * 8 + n

/-- The cause of a code. -/
def causeOf (n : Nat) : Cause :=
  ([.illegalOp, .illegalBundle, .fetchBounds, .bufBounds, .bufRights, .bufOwner, .xlate, .underwait, .tokenFault,
    .witPoison, .witFuture, .rasFull, .rasEmpty, .brk, .swtrap, .runOverrun, .chainFrozen, .linkLost, .xQueueFull,
    .cancel, .eccUncorr, .gangDesync, .viewConflict] : List Cause).getD (n - 1) .illegalOp

/-- The fault record of a refusal, or of a failure at the lender, that a stalled bundle meets (08 R175). -/
def State.peerRecord (s : State) (c : Cause) (p : Word) : State :=
  (s.faultRecord s.core.cont.job
    (coreFault c 6 s.core.id s.core.pipe.slot s.core.pipe.pc s.core.cont.recPtr p)).1

/-- A lease access of a stalled bundle (08 R175). -/
def State.syncPeer (s : State) (j : Job) (lease : Nat) (kind : PeerKind) (p : Word) (n x k : Nat) : Sync :=
  let key := s.replyKey k
  match s.replied key with
  | some (some (0 :: xs)) => .ok s (xs.headD 0)
  | some (some (c :: _)) => .fail (s.peerRecord (causeOf (c % 64)) p) (causeOf (c % 64)) 0 p
  | some _ => .stall s.stall
  | none =>
    match s.toLender lease j kind [(ptrOff p, n, x)] (.stalled s.core.id key) none with
    | some s => .stall (s.awaits key)
    | none => .fail ((s.leaseRefused lease none).peerRecord .bufRights p) .bufRights 0 p

/-- The translation, the port and then the access, `act`, for n bytes at an offset of a buffer, of a bundle that
waits for the access (08 R162). -/
def State.syncMem (s : State) (j : Job) (b : Buf) (p : Word) (off n : Nat) (act : State → List (Nat × Nat) → Sync) :
    Sync :=
  match s.pureKeys j.tenant.toNat b.tier (b.pieces off n) with
  | .error l => .fail s .xlate l p
  | .ok ks =>
    let w := s.askWalks j.tenant.toNat b.tier (b.pieces off n)
    if w.2 then .stall w.1.stall
    else if s.portHeld b off n ks then .stall s.stall
    else act s ks

/-- The code object whose bytes a core reads at index 0xFFF6: that of its continuation, or in handler mode of the
handler (01 R32, 14 R307). -/
def Core.object (c : Core) : ObjInfo := if c.cont.handler then c.cont.hobj.getD c.cont.obj else c.cont.obj

/-- Checks and reaches n bytes at a pointer for a bundle that waits for the access, which observes the view if
`view` (09 R198, R204): `act` performs it in memory, `loc` in the core's own storage. -/
def State.syncAt (s : State) (need align : Nat) (p : Word) (n : Nat)
    (peer : Job → Nat → Sync) (act : State → List (Nat × Nat) → Sync) (loc : State → Sync) (view : Bool := true) :
    Sync :=
  match s.job! with
  | none => .fail s .bufBounds 0 p
  | some j =>
    if ptrOff p % align ≠ 0 then .fail s .bufBounds 0 p else
    match s.check j s.osize need true (ptrIx p) (ptrOff p) n with
    | .error c => .fail s c 0 p
    | .ok pl =>
      match s.observe (some s.core.id) (if view then entriesOf s.core.regs.view else []) with
      | .bad c e => .fail s c 0 e
      | .wait => .stall s.stall
      | .ok =>
      let obj := s.core.object.ptr
      if s.earlier s.core.cont.recPa s.nextId (s.places s.core.id j obj p n) then .stall s.stall else
      match pl with
      | .core ix =>
        if ix ≠ 0xFFF6 then loc s else
        let q := ptrAdd obj (ptrOff p)
        (match s.buf? j (ptrIx q) with
          | none => .fail s .bufBounds 0 p
          | some b => s.syncMem j b p (ptrOff q) n act)
      | .buf b => if b.tier = 3 then peer j b.lease else s.syncMem j b p (ptrOff p) n act

/-- Reads n bytes at a pointer for a bundle that waits for them; `k` numbers the request of the slot. A
lease returns them in pieces of 8 bytes. -/
def State.syncRead (s : State) (need align : Nat) (p : Word) (n k : Nat) (view : Bool := true) : Sync :=
  s.syncAt need align p n
    (fun j lease => s.syncPeer j lease .read p n 0 k)
    (fun s ks => if s.coreBad s.core.id ks then .fail s .eccUncorr 0 p
      else let r := s.coreLoad s.core.id s.core.cont.recPa s.nextId ks; .ok r.1 r.2)
    (fun s =>
      let ix := ptrIx p
      if s.localBad s.core.id s.core.cont.recPa ix (ptrOff p) n then .fail s .eccUncorr 0 p
      else if ix = 0xFFF4 ∧ s.heldSlot s.core.id s.nextId (ptrOff p) n then .stall s.stall
      else .ok (s.noteSeen s.core.id s.core.cont.recPa s.nextId (s.whoAt (localRanges s.core.id ix (ptrOff p) n)))
        (s.localRead s.core.id s.core.cont.recPa ix (ptrOff p) n)) view

/-- Writes memory for a bundle that waits for it: visible at once, with no copy left in the L1. -/
def State.wrThrough (s : State) (ks : List (Nat × Nat)) (x : Nat) : State :=
  let s := s.setL1 s.core.id fun l => l.filter fun b => !inRanges ks b.key
  let s := { s with mem := { s.mem with cc := s.mem.cc.filter fun b =>
    !(decide (b.1 = s.core.id / 24) && inRanges ks b.2.key) } }
  ((s.noteOwn s.core.id ks).wrSpans ks x).dropStale

/-- Writes n bytes at a pointer for a bundle that waits for the access. -/
def State.syncWrite (s : State) (need align : Nat) (p : Word) (n x k : Nat) (view : Bool := true) : Sync :=
  s.syncAt need align p n
    (fun j lease => s.syncPeer j lease .write p n x k)
    (fun s ks => .ok (s.wrThrough ks x) 0)
    (fun s =>
      if s.heldByX (ptrIx p) (ptrOff p) n then .stall s.stall
      else .ok (s.setStore (s.core.store.write (ptrIx p) (ptrOff p) n x)) 0) view

end Sys2Proof.Machine
end

