-- ==== Sys2Proof/Machine/Control.lean ====
section
/-!
DEFINITION. The control instructions (06 R117 to R127) and BRK (14 R324). Each meaning is that of one
slot of the bundle in `pipe.bundle` on the focused core; `pipe.npc` is the PC of the bundle after it.
-/
namespace Sys2Proof.Machine

/-- The bundle's successor becomes a target (04 R86). -/
def State.jump (s : State) (pc : Pc) : State := s.setPipe { s.core.pipe with npc := pc }

/-- The target of a direct branch: the bundle's PC plus a signed count of slots (06 R118). -/
def State.target {k : Nat} (s : State) (off : BitVec k) : Pc := s.core.pipe.pc + 4#32 * off.signExtend 32

/-- Pushes the PC of the next bundle on the return-address store (05 R114). -/
def State.pushRet (s : State) : State :=
  let g := s.core.regs
  s.setRegs { g with ras := g.ras.setIfInBounds g.rascnt s.core.pipe.npc, rascnt := g.rascnt + 1 }

/-- R118. -/
def execBr (hd : Hdr) (_h : BitVec 1) (o : BitVec 17) (s : State) : Out :=
  s.guarded hd {} fun s => s.jump (s.target o)

/-- R118, R114. -/
def execCall (hd : Hdr) (_h : BitVec 1) (o : BitVec 17) (s : State) : Out :=
  s.guarded hd {} fun s =>
    if 32 ≤ s.core.regs.rascnt then s.fail .rasFull 0 0 else s.pushRet.jump (s.target o)

/-- R118: the counter is written, and the branch taken while the new value is not 0. -/
def execBdnz (hd : Hdr) (_h : BitVec 1) (c : BitVec 6) (o : BitVec 11) (s : State) : Out :=
  if c = 0 then .next s.illegal else
  s.guarded hd { s := [c], ds := [c] } fun s =>
    let v := s.s! c - 1
    let s := s.sResult 0 c v
    if v ≠ 0 then s.jump (s.target o) else s

/-- R119. -/
def execBri (hd : Hdr) (a : BitVec 6) (s : State) : Out :=
  s.guarded hd { s := [a] } fun s =>
    if 2 ^ 32 ≤ (s.s! a).toNat then s.fail .fetchBounds (s.s! a) 0 else s.jump ((s.s! a).setWidth 32)

/-- R119. -/
def execCalli (hd : Hdr) (a : BitVec 6) (s : State) : Out :=
  s.guarded hd { s := [a] } fun s =>
    if 2 ^ 32 ≤ (s.s! a).toNat then s.fail .fetchBounds (s.s! a) 0
    else if 32 ≤ s.core.regs.rascnt then s.fail .rasFull 0 0
    else s.pushRet.jump ((s.s! a).setWidth 32)

/-- R119, R114. -/
def execRet (hd : Hdr) (s : State) : Out :=
  s.guarded hd {} fun s =>
    let g := s.core.regs
    if g.rascnt = 0 then s.fail .rasEmpty 0 0
    else (s.setRegs { g with rascnt := g.rascnt - 1 }).jump (g.ras[g.rascnt - 1]?.getD 0)

/-- The yield-table entry of a YIELD or SUSP, whose OFFSET must be the bundle's PC (06 R120; 01 R16). -/
def State.yieldEntry (s : State) (y : BitVec 16) : Option Yield :=
  match s.core.cont.obj.yields[y.toNat]? with
  | some e => if e.off = s.core.pipe.pc.toNat then some e else none
  | none => none

/-- Records the yield in every member (06 R120): YIX and LIX of the record. -/
def State.setYield (s : State) (y : BitVec 16) (e : Yield) : State :=
  s.core.members.foldl (fun s id =>
    let c := s.coreOf id
    s.setCore { c with cont := { c.cont with yix := y.toNat, lix := e.lix } }) s

/-- The effects of the other slots, then the yield bundle's own cycle and the rise of LIC (06 R120; 12
R275). -/
def State.yieldPoint (s : State) (y : BitVec 16) (e : Yield) : State :=
  (s.afterSlots.raiseLic.charge 1).setYield y e

/-- A scheduling point of a continuation that states a run (06 R120, 03 R62), or the entry of a forced
pre-emption at the first yield that is not pinned, with the next bundle as the resume PC (14 R312). -/
def State.schedule (s : State) (e : Yield) : State :=
  if s.core.cont.prq && !s.pinned then
    let s := s.core.members.foldl (fun s id =>
      let c := s.coreOf id
      s.setCore { c with cont := { c.cont with prq := false, run := e.run, stretch := 0 } }) s
    match s.handler with
    | (s, some o) => s.enterHandler o 0 0 0 0 s.core.pipe.npc 1 0
    | (s, none) => s.freeze 0 0 0 s.core.pipe.npc 0 s.core.pipe.pc
  else s.onYield e.run e.lix

/-- R120. -/
def execYield (hd : Hdr) (y : BitVec 16) (s : State) : Out :=
  if s.core.cont.handler then s.guarded hd {} State.illegal else
  match s.yieldEntry y with
  | none => .next s.illegal
  | some e => s.guarded hd {} fun s => (s.yieldPoint y e).schedule e

/-- R121: the core is given up at once, unless the continuation is pinned. -/
def execSusp (hd : Hdr) (y : BitVec 16) (s : State) : Out :=
  if s.core.cont.handler then s.guarded hd {} State.illegal else
  match s.yieldEntry y with
  | none => .next s.illegal
  | some e => s.guarded hd {} fun s =>
    let s := s.yieldPoint y e
    if s.pinned then s.schedule e else s.switchOut csReady s.core.pipe.npc.toNat e.run e.lix 0

/-- R122, 05 R105: empty issued cycles, unless they would reach the stated run (14 R322). -/
def execDly (hd : Hdr) (n : BitVec 16) (s : State) : Out :=
  if n = 0 then .next s.illegal else
  s.guarded hd {} fun s =>
    let c := s.core.cont
    if !c.handler && decide (c.run ≤ c.stretch + n.toNat) then s.overrun
    else s.setPipe { s.core.pipe with extra := n.toNat }

/-- R123: the other slots take effect, LIC rises and the drain begins; an EXIT leaves the CAUSE of the last
trap in the record (01 R20). -/
def execExit (hd : Hdr) (s : State) : Out :=
  s.guarded hd {} fun s =>
    let lic := s.core.cont.lic
    ((s.afterSlots.charge 1).raiseTo lic).beginDrain 1 (s.fieldOf s.core.cont.recPa 0x38 63 58)

/-- The number of a record that a SPAWN has issued and not yet written (12 R276): no physical address. -/
def spawnKey (post : Nat) : Nat := 2 ^ 100 + post

/-- Issues a SPAWN that has passed its checks (06 R124): its posting, the record that the frontier
already counts, and the operation in flight. -/
def State.issueSpawn (s : State) (hd : Hdr) (a b : BitVec 6) (t : BitVec 5) : State :=
  let c := s.core
  let v := hd.imm
  let r := s.newPost (c.tIx t.toNat) []
  let s := r.1
  let op : SpawnOp := ⟨c.id, c.cont.recPa, c.cont.job, c.cont.launch, s.s! a, s.s! b, bits v 15 0, bits v 19 16,
    bits v 39 20, c.cont.lic / 256, c.cont.cobj, c.cont.launchIx, c.cont.strict, c.cont.debug,
    ((s.rec? c.cont.recPa).map Rec.owed).getD [] ++ c.members.flatMap s.owedBy, c.pipe.pc, c.pipe.slot, some r.2⟩
  let rec' : Rec := ⟨spawnKey r.2, s.s! a, c.cont.job, c.cont.launch, c.id / 24, s.tick,
    256 * (c.cont.lic / 256 + 1), [], [], false, false, true, [], []⟩
  ({ s with sched := { s.sched with recs := s.sched.recs ++ [rec'] } }).push (.spawnRecordWrite op)

/-- R124; in handler mode it traps unless its guard is false (14 R309; 04 R81). -/
def execSpawn (hd : Hdr) (a b : BitVec 6) (t : BitVec 5) (s : State) : Out :=
  let o := if s.core.cont.handler then s.core.cont.hobj.getD s.core.cont.obj else s.core.cont.obj
  if o.entries.length ≤ bits hd.imm 15 0 then .next s.illegal else
  if s.core.cont.handler && s.pOn hd then .next s.illegal else
  if !s.postRoom t.toNat then .next s.stall else
  if !s.pOn hd then .next (s.postOnce (s.core.tIx t.toNat)) else
  s.guarded hd { s := [a, b] } fun s =>
    let p := s.s! a
    match s.job! with
    | none => s.failAt .bufBounds p
    | some j => match s.check j s.core.cont.obj.osize needL true (ptrIx p) (ptrOff p) 64 with
      | .error e => s.failAt e p
      | .ok _ => if ptrOff p % 64 ≠ 0 then s.failAt .bufBounds p else s.issueSpawn hd a b t

/-- A token's image as a wait of the focused core sees it. -/
def State.tokVal (s : State) (t : BitVec 5) : Token := s.core.regs.tok (s.core.tIx t.toNat)

/-- A satisfied wait: its token's covered fault traps, else it completes (05 R109; 14 R306, R308). -/
def State.waitOn (s : State) (t : BitVec 5) (thr : BitVec 16) : State :=
  let k := s.tokVal t
  if k.f && Sys2Proof.Machine.covers thr k.fcnt then
    let s := if k.xl then s.setPipe { s.core.pipe with xl := s.faultXl s.core.cont.job k.frec } else s
    s.fail (if k.xl then .xlate else .tokenFault) (t.setWidth 64) k.frec
  else ({ s with core := s.core.waitDone s.tick (s.core.tIx t.toNat) thr }).raiseLic

/-- A stalling wait with a threshold (06 R125). -/
def State.stallingWait (s : State) (t : BitVec 5) (thr : BitVec 16) : State :=
  if satisfied (s.tokVal t) thr then s.waitOn t thr else s.raiseLic.stall

/-- The kinds of suspending wait in bits [63:32] of word 0x28 of the record (01 R20). -/
def waitWord (kind reg tok thr : Nat) : Nat := kind * 2 ^ 30 + reg * 2 ^ 26 + tok * 2 ^ 21 + thr

/-- The continuation suspends at its bundle, which takes no effect, until a wait is satisfied (06 R125,
13 R292). -/
def State.suspend (s : State) (wait : Nat) : State :=
  let c := s.core.cont
  (s.switchOut csWaiting s.core.pipe.pc.toNat (max 1 (c.run - c.stretch)) c.lix wait).push
    (.suspendedWaitSatisfied c.recPa)

/-- A suspending wait with a threshold: stalling while the continuation is pinned, and on a gang's
stokers (06 R125). -/
def State.suspendingWait (s : State) (t : BitVec 5) (thr : BitVec 16) : State :=
  if s.core.cont.handler then s.illegal
  else if satisfied (s.tokVal t) thr then s.waitOn t thr
  else if s.pinned || decide (s.core.cont.member ≠ 0) then s.raiseLic.stall
  else s.suspend (waitWord 1 0 t.toNat thr.toNat)

/-- The threshold of a wait with RF = 0 (06 R125). -/
def Hdr.thr (hd : Hdr) (h : BitVec 12) : BitVec 16 :=
  if hd.x.isEmpty then h.setWidth 16 else BitVec.ofNat 16 hd.c

/-- R125. -/
def execWtk (hd : Hdr) (t : BitVec 5) (h : BitVec 12) (s : State) : Out :=
  s.guarded hd {} fun s => s.stallingWait t (Hdr.thr hd h)
/-- R125. -/
def execWtkRf1 (hd : Hdr) (t : BitVec 5) (a : BitVec 6) (s : State) : Out :=
  s.guarded hd { s := [a] } fun s => s.stallingWait t ((s.s! a).setWidth 16)
/-- R125. -/
def execWtks (hd : Hdr) (t : BitVec 5) (h : BitVec 12) (s : State) : Out :=
  s.guarded hd {} fun s => s.suspendingWait t (Hdr.thr hd h)
/-- R125. -/
def execWtksRf1 (hd : Hdr) (t : BitVec 5) (a : BitVec 6) (s : State) : Out :=
  s.guarded hd { s := [a] } fun s => s.suspendingWait t ((s.s! a).setWidth 16)

/-- The key under which a member learns that its gang's segment is released. -/
abbrev syncKey : Nat := 1000

/-- R126, 12 R278: a free continuation waits for no other core; a gang's member releases its segment and
issues the bundle on the common restart cycle. -/
def execSync (hd : Hdr) (s : State) : Out :=
  s.guarded hd {} fun s =>
    if s.core.cont.gsize = 0 then s.raiseLic
    else match s.core.pipe.reply.find? fun r => decide (r.1 = syncKey) with
      | some (_, some _) => s.raiseLic
      | _ =>
        let cap := s.core.cont.gang.headD s.core.id
        let e : Event := .gangSyncRelease cap
        let s := { s with core := { s.core with phase := .sync } }
        (if s.agenda.contains e then s else s.push e).stall

/-- R127: the trap follows every other slot, with the next bundle as the saved PC. -/
def execSwtrap (hd : Hdr) (c : BitVec 16) (s : State) : Out :=
  s.guarded hd {} fun s =>
    let s := s.afterSlots.charge 1
    let p := s.core.pipe
    s.trap .swtrap (slotBit p.slot) (c.setWidth 64) 0 p.npc s.memberBit

/-- R324: with debug on it traps BRK with its tag, else ILLEGAL_OP (04 R85 order 5). -/
def execBrk (_hd : Hdr) (t : BitVec 18) (s : State) : Out :=
  .next (if s.core.cont.debug then s.fail .brk (t.setWidth 64) 0 else s.illegal)

end Sys2Proof.Machine
end

