-- ==== Sys2Proof/Machine/Links.lean ====
section
/-!
DEFINITION. Links of accumulator chains: their tiles, advance, the messages of an instance, its freeze,
splice, thaw and cancel at the arbiter (10 R222 to R242).
-/
namespace Sys2Proof.Machine

/-! ### Tiles -/

/-- The n bytes from an address of cells that begin at or after it. -/
def Cells.bytesFrom : List Host.Cell → Nat → Nat → List Byte
  | _, _, 0 => []
  | [], a, n + 1 => 0 :: Cells.bytesFrom [] (a + 1) n
  | (k, v) :: cs, a, n + 1 =>
    if k = a then v :: Cells.bytesFrom cs (a + 1) n else 0 :: Cells.bytesFrom ((k, v) :: cs) (a + 1) n

/-- The n bytes from an address. -/
def Cells.bytes (cs : List Host.Cell) (a n : Nat) : List Byte :=
  Cells.bytesFrom (cs.dropWhile fun c => decide (c.1 < a)) a n

/-- The cells of bytes from an address. -/
def Cells.ofBytes (a : Nat) : List Byte → List Host.Cell
  | [] => []
  | b :: bs => if b = 0 then Cells.ofBytes (a + 1) bs else (a, b) :: Cells.ofBytes (a + 1) bs

/-- Writes bytes from an address, all at once, keeping the canonical form. -/
def Cells.put (cs : List Host.Cell) (a : Nat) (bs : List Byte) : List Host.Cell :=
  (cs.takeWhile fun c => decide (c.1 < a)) ++ Cells.ofBytes a bs ++
    cs.dropWhile fun c => decide (c.1 < a + bs.length)

/-- The elements of w bytes each that bytes hold. -/
def chunks (w : Nat) : Nat → List Byte → List Nat
  | 0, _ => []
  | n + 1, bs => leNat (bs.take w) :: chunks w n (bs.drop w)

/-- The hop format of a link (10 R223). -/
def Chain.fmt (c : Chain) (j : Nat) : FFmt := if hop64 (c.hop j) then F64 else F32

/-- The 1,536 elements of a link's tile, row-major (10 R222, 11 R254). -/
def State.tile (s : State) (core slot w : Nat) : List Nat :=
  chunks w 1536 (Cells.bytes (s.coreOf core).store.k (6144 * slot) (1536 * w))

/-- Replaces the elements of a link's tile. -/
def State.setTile (s : State) (core slot w : Nat) (xs : List Nat) : State :=
  let c := s.coreOf core
  s.setCore { c with store := { c.store with
    k := Cells.put c.store.k (6144 * slot) (xs.flatMap (toLe w))
    bad := c.store.bad.filter fun b => !decide (b = .slot core slot) } }

/-- The starting value of CHB and CHS: -0 in every element (10 R224, R238). -/
def minusZero (t : FFmt) : List Nat := List.replicate 1536 (t.sign true)

/-! ### Advance (10 R227, R228) -/

/-- A link that receives nothing: COUNT 0 and no predecessors (10 R227, 11 R252). -/
def Chain.isZero (c : Chain) (l : Link) : Bool := decide (hopCount (c.hop l.idx) = 0) && (c.preds l.idx).isEmpty

/-- A link has received all that it was declared to receive (10 R227); one that receives nothing is
complete once the bundle after its CHB has issued (11 R252). -/
def Chain.complete (c : Chain) (l : Link) : Bool :=
  decide (l.applied = hopCount (c.hop l.idx)) && decide (l.arrived = (c.preds l.idx).length) &&
    (!c.isZero l || decide (2 ≤ l.issued))

/-- An LKLD or LKZ of a link is queued (11 R252, R254). -/
def State.starting (s : State) (c : Chain) (l : Link) : Bool :=
  (s.coreOf l.core).pipe.xq.any fun e => decide (e.ch = c.ch ∧ e.inst = c.inst ∧ e.idx = l.idx ∧ e.gen = l.gen) &&
    (match e.instr with | .lkld .. | .lkz .. => true | _ => false)

/-- Adds the next arrival in APOS order, once the local contributions are complete (10 R228, R236). A link with
COUNT 0 keeps what it has added, since an LKLD or LKZ may still replace its starting value (11 R254). -/
def State.addArrival (s : State) (c : Chain) (l : Link) : State × Link :=
  if c.state ≠ 0 ∨ l.state ≠ 1 ∨ l.applied ≠ hopCount (c.hop l.idx) then (s, l) else
  match l.arrivals.find? fun a => decide (a.1 = l.arrived) with
  | none => (s, l)
  | some (_, f64, vals) =>
    let t := c.fmt l.idx
    let src := if f64 then F64 else F32
    let r := ((s.tile l.core l.slot (t.w / 8)).zip vals).map fun p =>
      t.done false (FVal.sum [t.decode p.1, src.decode p.2.toNat])
    (s.setTile l.core l.slot (t.w / 8) (r.map Prod.fst),
      { l with
        arrived := l.arrived + 1
        arrivals := l.arrivals.filter fun a => decide (hopCount (c.hop l.idx) = 0) || !decide (a.1 = l.arrived)
        flags := r.foldl (fun f x => f ||| x.2) l.flags })

/-- Sends the value of a link that has advanced to its successor (10 R227). -/
def State.sendHop (s : State) (c : Chain) (l : Link) : State :=
  let w := if hop64 (c.hop l.idx) then 8 else 4
  let e := c.hop l.idx
  let m : ChainMsg := ⟨c.job, c.ch, c.inst, c.digest, l.idx, hopSucc e, hopApos e, hop64 e,
    (s.tile l.core l.slot w).map (BitVec.ofNat 64)⟩
  s.send (BitVec.ofNat 14 (hopDev (c.hop (hopSucc e)))) (.hopArrival m)

/-- A link is complete and advances: no LKLD or LKZ of it is queued, and it is not the tail (10 R227). -/
def State.mayAdvance (s : State) (c : Chain) (l : Link) : Bool :=
  decide (c.state = 0 ∧ l.state = 1 ∧ hopSucc (c.hop l.idx) ≠ 0x7F) && c.complete l && !s.starting c l

/-- A link has an arrival to add whose turn has come (10 R227, R228). -/
def Chain.mayAdd (c : Chain) (l : Link) : Bool :=
  decide (c.state = 0 ∧ l.state = 1 ∧ l.applied = hopCount (c.hop l.idx)) && l.arrivals.any fun a => decide (a.1 = l.arrived)

/-- A link of a core that has an arrival to add or that advances. -/
def State.dueLink (s : State) (core : Nat) : Option (Chain × Link) :=
  s.units.chains.findSome? fun c => (c.links.find? fun l =>
    decide (l.core = core) && (c.mayAdd l || s.mayAdvance c l)).map fun l => (c, l)

/-- One link of a core adds its next arrival, or advances and sends its value: one step of R228 at a time, so that a
snapshot may fall between any two (10 R227, R234). -/
def State.progress (s : State) (core : Nat) : State :=
  match s.dueLink core with
  | none => s
  | some (c, l) =>
    if c.mayAdd l then let r := s.addArrival c l; r.1.setChain (c.setLink r.2)
    else
      let l := { l with state := 2 }
      (s.setChain (c.setLink l)).sendHop c l

/-- The matrix unit of a core goes on while one of its links has something to do. -/
def State.wake (s : State) (core : Nat) : State :=
  if (s.dueLink core).isSome && !s.agenda.contains (.contributionApply core) then s.push (.contributionApply core) else s

/-- A link goes on when an arrival or contribution has come to it (10 R227). -/
def State.settle (s : State) (job : Nat) (ch : BitVec 10) (inst : BitVec 16) (j : Nat) : State :=
  match (s.chain? job ch inst).bind fun c => c.link? j with
  | none => s
  | some l => s.wake l.core

/-- Every link of an instance that this device holds settles. -/
def State.settleAll (s : State) (c : Chain) : State :=
  c.links.foldl (fun s l => s.settle c.job c.ch c.inst l.idx) s

/-! ### Messages (10 R224, R225, R227) -/

/-- The instance that a message concerns; one from another device names it without its job (log 10). -/
def State.chainFor (s : State) (m : ChainMsg) : Option Chain :=
  match s.chain? m.job m.ch m.inst with
  | some c => some c
  | none => s.units.chains.find? fun c => decide (c.ch = m.ch ∧ c.inst = m.inst)

/-- A freeze with no link concerned (10 R235). -/
abbrev noLink : Nat := 255

/-- Freezes an instance that is ACTIVE (10 R235, 11 R258). -/
def State.freezeIf (s : State) (c : Chain) (cause : Cause) (rec : Word) (agent : Nat) : State :=
  if c.state = 0 then s.freezeChain c cause noLink none rec agent else s

/-- What a message of an instance meets: held until the instance is known here, or freezing it when the
digests differ, or acting (10 R225). -/
def State.onMessage (s : State) (m : ChainMsg) (e : Event) (f : Chain → State) : State :=
  match s.chainFor m with
  | none => { s with units := { s.units with hopPort := s.units.hopPort ++ [e] } }
  | some c =>
    if c.digest ≠ m.digest then s.freezeIf c .chainFrozen 0 0x7FF
    else f c

/-- A device learns the word of a link of another device, or of its binding alone (10 R225, R237). What the arbiter
was told of an earlier loss of the link ends with its splice (R238). -/
def Chain.learn (c : Chain) (j : Nat) (vals : List Word) : Chain :=
  let set (w : Word) : List (Nat × Word) := (j, w) :: c.words.filter fun q => !decide (q.1 = j)
  match vals with
  | w :: _ => { c with
      words := set w
      reported := if bits w.toNat 61 59 = 4 ∨ bits w.toNat 61 59 = 5 then c.reported
        else c.reported.filter fun r => !decide (r.1 = j ∧ r.2 ≠ 8) }
  | [] => if c.words.any fun q => decide (q.1 = j) then c else { c with words := set (BitVec.ofNat 64 (2 ^ 59)) }

/-- R225: the binding of a link, or a change of its word, becomes known to this device. -/
def execAnnouncement (m : ChainMsg) (s : State) : Out :=
  .next (s.onMessage m (.announcement m) fun c =>
    if (c.link? m.sender).isSome then s else s.putChain (c.learn m.sender m.vals))

/-- Acknowledges a transfer to its sender (10 R227). -/
def State.acknowledge (s : State) (c : Chain) (m : ChainMsg) : State :=
  s.send (BitVec.ofNat 14 (hopDev (c.hop m.sender)))
    (.acknowledgement { c.msg m.target with sender := m.target, target := m.sender })

/-- R227: the value is placed at APOS and acknowledged; it is held while its link is not bound, and a
FAULTED or LOST link acknowledges nothing. -/
def execHopArrival (m : ChainMsg) (s : State) : Out :=
  .next (s.onMessage m (.hopArrival m) fun c =>
    if 2 ≤ c.state then s else
    match c.link? m.target with
    | none => s.setChain { c with held := c.held ++ [.hopArrival m] }
    | some l =>
      if l.state = 4 ∨ l.state = 5 then s
      else if l.state ≠ 1 ∨ m.apos < l.arrived ∨ l.arrivals.any fun a => decide (a.1 = m.apos) then s.acknowledge c m
      else
        let l := { l with arrivals := l.arrivals ++ [(m.apos, m.fmt64, m.vals)] }
        ((s.setChain (c.setLink l)).acknowledge c m).settle c.job c.ch c.inst l.idx)

/-- R227: the sender moves to SPENT. -/
def execAcknowledgement (m : ChainMsg) (s : State) : Out :=
  .next (s.onMessage m (.acknowledgement m) fun c =>
    match c.link? m.target with
    | some l => if l.state = 2 then s.setChain (c.setLink { l with state := 3, acked := true }) else s
    | none => s)

/-! ### Thaw (10 R239) -/

/-- The last announced word of a link of another device: UNBOUND until it has been announced. -/
def Chain.wordOf (c : Chain) (j : Nat) : Nat := ((c.words.find? fun q => decide (q.1 = j)).map fun q => q.2.toNat).getD 0

/-- The state of a link as a device knows it (10 R222): its own, as the arbiter was told, or as announced. -/
def Chain.stateOf (c : Chain) (j : Nat) : Nat :=
  match c.link? j with
  | some l => l.state
  | none => match c.reported.find? fun r => decide (r.1 = j) with
    | some r => if r.2 = 8 then 1 else r.2 % 8
    | none => bits (c.wordOf j) 61 59

/-- A link was spliced and has not yet been given the arrival at a position again. -/
def Chain.wants (c : Chain) (j apos : Nat) : Bool :=
  match c.link? j with
  | some l => l.spl && decide (l.state = 1) && decide (l.arrived ≤ apos) && !(l.arrivals.any fun a => decide (a.1 = apos))
  | none => c.reported.any fun r => decide (r = (j, 8))

/-- A link stands in the way of a thaw (10 R239). -/
def Chain.thawFails (c : Chain) (j : Nat) : Bool :=
  let st := c.stateOf j
  let e := c.hop j
  let acked := match c.link? j with | some l => l.acked | none => c.reported.contains (j, 13)
  let again := c.wants (hopSucc e) (hopApos e)
  decide (st = 4) || (decide (st = 5) && (decide (hopSucc e = 0x7F) || !acked || again)) ||
    (again && !(decide (1 ≤ st) && decide (st ≤ 3)) && decide (st ≠ 5))

/-- The lowest failing index of 10 R239. -/
def Chain.thawBlock (c : Chain) : Option Nat := (List.range c.nlink).find? c.thawFails

/-- The thaw as a device learns of it: the chain is ACTIVE, values are sent again to links spliced since,
unacknowledged transfers are sent again, and links settle (10 R239). -/
def State.thawHere (s : State) (c : Chain) (spliced : List Nat) : State :=
  let c := { c with state := 0 }
  let s := s.setChain c
  let s := c.links.foldl (fun s l =>
    let e := c.hop l.idx
    let again := spliced.contains (hopSucc e) || c.wants (hopSucc e) (hopApos e)
    if l.state = 2 ∨ (l.state = 3 ∧ again) then
      match s.chain? c.job c.ch c.inst with
      | some c =>
        let l := { l with state := 2, acked := false }
        (s.setChain (c.setLink l)).sendHop c l
      | none => s
    else s) s
  match s.chain? c.job c.ch c.inst with
  | some c => (s.setChain { c with reported := c.reported.filter fun r => !decide (r.2 = 8) }).settleAll c
  | none => s

/-- A thaw at the arbiter, and what CHT writes for it (11 R259). -/
def State.thaw (s : State) (c : Chain) : State × Nat :=
  match c.state with
  | 0 => (s, 0)
  | 1 => (match c.thawBlock with
    | some j => (s, 2 ^ 63 + j)
    | none =>
      let sp := (c.reported.filter fun r => decide (r.2 = 8)).map (·.1) ++
        (c.links.filter fun l => l.spl).map (·.idx)
      let m : ChainMsg := { c.msg 0 with apos := 1, vals := sp.map (BitVec.ofNat 64) }
      ((s.tellChain c (.chainFreezeMessage m)).thawHere c sp, 0))
  | _ => (s, 2 ^ 63 + 0x7F)

/-- R235, R239: a freeze, or with APOS 1 a thaw, reaches a device. -/
def execChainFreezeMessage (m : ChainMsg) (s : State) : Out :=
  .next (s.onMessage m (.chainFreezeMessage m) fun c =>
    if m.apos = 1 then s.thawHere c (m.vals.map (·.toNat)) else s.freezeHere c)

/-- R240, R231: a cancel, or with APOS 1 the close, reaches a device: its links retire. -/
def execChainCancelMessage (m : ChainMsg) (s : State) : Out :=
  .next (s.onMessage m (.chainCancelMessage m) fun c =>
    if m.apos = 1 then s.retireLinks c 2 else s.cancelHere c)

/-! ### The arbiter (11 R242) -/

/-- A splice releases the old slot and opens the index on the core and slot that ask for it (10 R238). -/
def State.spliceLink (s : State) (c : Chain) (j core slot recPa now : Nat) : State :=
  match c.link? j with
  | none => s
  | some l =>
    let s := s.releaseLink c l 0
    match s.chain? c.job c.ch c.inst with
    | none => s
    | some c =>
      let t := c.fmt j
      let s := s.setTile core slot (t.w / 8) (minusZero t)
      s.setChain (c.setLink ⟨j, 1, core, slot, recPa, true, 0, 0, 0, false, true, 0, 0, now, [], l.gen + 1⟩)

/-- What the arbiter notes of a link of another device; a loss noted by a device that does not know of an earlier
acknowledgement does not take it back (10 R239). -/
def Chain.report (c : Chain) (j st : Nat) : Chain :=
  if st = 5 ∧ c.reported.contains (j, 13) then c
  else { c with reported := (j, st) :: c.reported.filter fun r => !decide (r.1 = j) }

/-- A request takes effect at the arbiter, on the state that the one before it left (11 R242): the answer
is the result of a thaw, 1 for a splice that it refuses or a freeze or cancel that has no effect, else 0. One
whose digest differs freezes the instance instead (10 R225; log 23). -/
def State.arbitrate (s : State) (c : Chain) (r : ArbReq) : State × Nat :=
  if c.digest ≠ r.digest then
    (s.freezeIf c .chainFrozen 0 0x7FF, if r.kind = .thaw then 2 ^ 63 + c.thawBlock.getD c.tail else 1)
  else match r.kind with
  | .freeze _ link =>
    let c := match link with
      | some (j, st) => if c.state ≤ 1 then c.report j st else c
      | none => c
    let s := s.setChain c
    if c.state = 0 then ((s.freezeHere c).tellChain c (.chainFreezeMessage (c.msg 0)), 0) else (s, 1)
  | .cancel =>
    if c.state ≤ 1 then ((s.cancelHere c).tellChain c (.chainCancelMessage (c.msg 0)), 0) else (s, 1)
  | .note st => (s.setChain (if c.state ≤ 1 then c.report r.idx st else c), 0)
  | .thaw => s.thaw c
  | .splice _ _ _ =>
    if c.state = 1 ∧ (c.stateOf r.idx = 4 ∨ c.stateOf r.idx = 5) then (s.setChain (c.report r.idx 8), 0)
    else (s, 1)

/-- The instance becomes the focused core's current one of its chain number (11 R252). -/
def State.setCurrent (s : State) (c : Chain) : State :=
  s.setPipe { s.core.pipe with cur := (c.ch, c.inst) :: s.core.pipe.cur.filter fun p => !decide (p.1 = c.ch) }

/-- OPENK of the focused continuation rises (10 R224). -/
def State.raiseOpenk (s : State) : State := s.setCont { s.core.cont with openk := s.core.cont.openk + 1 }

/-- Announces the binding of an index to the devices of the links that send to it or receive from it. -/
def State.announce (s : State) (c : Chain) (j : Nat) : State :=
  let nbrs := c.preds j ++ (if hopSucc (c.hop j) = 0x7F then [] else [hopSucc (c.hop j)])
  nbrs.foldl (fun s i =>
    let dev := BitVec.ofNat 14 (hopDev (c.hop i))
    if dev = s.devnum then s else s.send dev (.announcement { c.msg j with target := i })) s

/-- A core awaits the answer of a key (04 R88). -/
def State.awaiting (s : State) (core key : Nat) : Bool := (s.coreOf core).pipe.reply.contains (key, none)

/-- The quick link of an accepted splice: it opens on its core while the instance is FROZEN or has thawed since; a
cancel or close that has come first has retired every bound link, so that it does not open (10 R238, R240; 11
R242). -/
def State.bindSplice (s : State) (c : Chain) (j core slot recPa : Nat) : State :=
  if 2 ≤ c.state then s else
  (s.spliceLink c j core slot recPa (s.coreOf core).cont.cycles).onCore core fun s =>
    let s := s.raiseOpenk
    match s.chain? c.job c.ch c.inst with
    | none => s
    | some c => (s.setCurrent c).announce c j

/-- The answer to a request reaches its device: a splice takes effect there at once, in its order among the
messages of the instance, and one that nothing awaits any more leaves its link LOST; then the bundle that waits goes
on (11 R242). -/
def State.arbiterAnswer (s : State) (r : ArbReq) (w : Nat) : State :=
  let s := match r.kind, s.chain? r.job r.ch r.inst with
    | .splice core slot recPa, some c =>
      if w ≠ 0 then s
      else if s.awaiting r.core r.key then s.bindSplice c r.idx core slot recPa
      else s.tellArbiter c (.note 5) r.idx core
    | _, _ => s
  s.answerStall r.core r.key [0, w]

/-- R242: a request in its order of arrival, or its answer on the way back to the core that stalls. -/
def execArbiterRequest (r : ArbReq) (s : State) : Out :=
  .next (match r.reply with
    | some w => s.arbiterAnswer r w.toNat
    | none =>
      match s.chainFor ⟨r.job, r.ch, r.inst, r.digest, 0, 0, 0, false, []⟩ with
      | none => { s with units := { s.units with hopPort := s.units.hopPort ++ [.arbiterRequest r] } }
      | some c =>
        let t := s.arbitrate c r
        t.1.send r.src (.arbiterRequest { r with reply := some (BitVec.ofNat 64 t.2) }))

/-- A message or request that has waited in a hop port acts (10 R225). -/
def State.chainEvent (s : State) (e : Event) : State :=
  match (match e with
    | .announcement m => execAnnouncement m s
    | .hopArrival m => execHopArrival m s
    | .acknowledgement m => execAcknowledgement m s
    | .chainFreezeMessage m => execChainFreezeMessage m s
    | .chainCancelMessage m => execChainCancelMessage m s
    | .arbiterRequest r => execArbiterRequest r s
    | _ => .next s) with
  | .next t => t
  | _ => s

/-! ### Failures of links (10 R235) -/

/-- Reports a link to an arbiter on another device without a freeze (10 R235, R239). -/
def State.noteLink (s : State) (c : Chain) (j st : Nat) : State :=
  if c.arbDev = s.devnum then s else s.tellArbiter c (.note st) j s.core.id

/-- A link's storage or arrival buffer fails: FAULTED, and the instance freezes; LOST once SPENT, with a
fault record alone (10 R235). -/
def State.linkFails (s : State) (core k : Nat) : State :=
  match s.openLink core k with
  | none =>
    let c := s.coreOf core
    s.setCore { c with store := { c.store with bad := .slot core k :: c.store.bad } }
  | some (c, l) =>
    let ptr := match s.rec? l.recPa with | some r => r.ptr | none => 0
    if l.state = 1 ∨ l.state = 2 then
      let c := c.setLink { l with state := 4 }
      (s.setChain c).freezeChain c .eccUncorr l.idx (some 4) ptr core
    else if l.state = 3 then
      let f := s.faultRecord c.job ⟨Cause.eccUncorr.code, 0, 3, 0, core, 0, ptr, 0, 0, c.ch.toNat, 0, 0, 0⟩
      (f.1.setChain (c.setLink { l with state := 5 })).noteLink c l.idx l.lost
    else s

/-- A hop transfer is lost: its instance freezes, and the sender stays SENT (10 R235); while the instance
is FROZEN no transfer is timed. -/
def State.hopLost (s : State) (m : ChainMsg) : State :=
  match s.chainFor m with
  | none => s
  | some c => match c.link? m.sender with
    | none => s
    | some l =>
      let ptr := match s.rec? l.recPa with | some r => r.ptr | none => 0
      if c.state = 0 ∧ l.state = 2 then s.freezeChain c .linkLost m.sender none ptr l.core else s

/-- The value of a link has reached its successor, as far as this device knows: by its own link, by the ARR bits of
the successor's word, or by the link's own word, SPENT (10 R227, R237). -/
def Chain.delivered (c : Chain) (j : Nat) : Bool :=
  decide (bits (c.wordOf j) 61 59 = 3) ||
    match c.link? (hopSucc (c.hop j)) with
    | some l => decide (hopApos (c.hop j) < l.arrived) || l.arrivals.any fun a => decide (a.1 = hopApos (c.hop j))
    | none => (BitVec.ofNat 64 (c.wordOf (hopSucc (c.hop j)))).getLsbD (49 + hopApos (c.hop j))

/-- The word of a link that has become LOST with its device (10 R235, R237). -/
def lostWord (w : Nat) : Word := BitVec.ofNat 64 (5 * 2 ^ 59 + Cause.linkLost.code * 2 ^ 53 + bits w 52 42 * 2 ^ 42 + (2 ^ 32 - 1))

/-- Every link of a device that cannot be reached is LOST, and the instance freezes; on this device alone where
its arbiter cannot be reached either (10 R235, 11 R242; 15 R341). -/
def State.linksUnreachable (s : State) (c : Chain) (dev : BitVec 14) : State :=
  let js := (List.range c.nlink).filter fun j => decide (BitVec.ofNat 14 (hopDev (c.hop j)) = dev)
  let st (j : Nat) : Nat := if c.delivered j then 13 else 5
  let c := js.foldl (fun c j => c.report j (st j)) c
  let c := { c with words := js.map (fun j => (j, lostWord (c.wordOf j))) ++ c.words.filter fun q => !js.contains q.1 }
  let s := s.setChain c
  if c.arbDev = dev then
    ((s.faultRecord c.job ⟨Cause.linkLost.code, 0, 3, 0, 0x7FF, 0, 0, 0, 0, c.ch.toNat, 0, 0, 0⟩).1).freezeHere c
  else (js.foldl (fun s j => s.noteLink c j (st j)) s).freezeChain c .linkLost noLink none 0 0x7FF

/-- A device cannot be reached: the instances that have links on it (10 R235). -/
def State.deviceLost (s : State) (dev : BitVec 14) : State :=
  s.units.chains.foldl (fun s q => match s.chain? q.job q.ch q.inst with
    | some c => if c.state ≤ 1 ∧ dev ∈ c.devs ∧ dev ≠ s.devnum then s.linksUnreachable c dev else s
    | none => s) s

/-- A request that cannot reach its arbiter: the bundle that waits for it learns so, a cancel retires every
link that this device can reach, and a freeze acts on this device (11 R242). -/
def State.arbiterLost (s : State) (r : ArbReq) : State :=
  if r.key ≠ noKey then s.answerStall r.core r.key [2] else
  match s.chain? r.job r.ch r.inst, r.kind with
  | some c, .cancel => (s.cancelHere c).tellChain c (.chainCancelMessage (c.msg 0))
  | some c, .freeze .. => s.freezeHere c
  | _, _ => s

end Sys2Proof.Machine
end

