-- ==== Sys2Proof/Machine/Scalar.lean ====
section
/-!
DEFINITION. The scalar and predicate instructions (06 R116, R128 to R142). Latency classes are those of
01 R14: 0 SALU, 1 SMUL, 2 SF32, 3 SF64, 4 SCVT.
-/
namespace Sys2Proof.Machine

/-! ### Integer and logic (06 R128, R129) -/

/-- The smaller by a comparison; of equal values the second, which is the same. -/
def pick (lt : Word → Word → Bool) (a b : Word) : Word := if lt a b then a else b

/-- An exact integer clamped to the signed 64-bit range (06 R128). -/
def clamp64 (i : Int) : Word := BitVec.ofInt 64 (max (-(2 ^ 63)) (min i (2 ^ 63 - 1)))

/-- Leading zeros of the low n bits. -/
def leading (a : Word) : Nat → Nat
  | 0 => 0
  | n + 1 => if a.getLsbD n then 0 else 1 + leading a n

/-- A shift amount: the low six bits of a register (06 R128). -/
def sh (b : Word) : Nat := b.toNat % 64

/-- R128. -/
def execAdd (hd : Hdr) (d a b : BitVec 6) (s : State) : Out := s.alu2 hd 0 d a b (· + ·)
/-- R128, R129. -/
def execAddi (hd : Hdr) (d a i : BitVec 6) (s : State) : Out := s.alu1 hd 0 d a (· + hd.sImm i)
/-- R128. -/
def execSub (hd : Hdr) (d a b : BitVec 6) (s : State) : Out := s.alu2 hd 0 d a b (· - ·)
/-- R128. -/
def execMul (hd : Hdr) (d a b : BitVec 6) (s : State) : Out := s.alu2 hd 1 d a b (· * ·)
/-- R128: bits [127:64] of the signed product. -/
def execMulh (hd : Hdr) (d a b : BitVec 6) (s : State) : Out :=
  s.alu2 hd 1 d a b fun x y => BitVec.ofInt 64 (x.toInt * y.toInt / 2 ^ 64)
/-- R128: bits [127:64] of the unsigned product. -/
def execMulhu (hd : Hdr) (d a b : BitVec 6) (s : State) : Out :=
  s.alu2 hd 1 d a b fun x y => BitVec.ofNat 64 (x.toNat * y.toNat / 2 ^ 64)
/-- R128. -/
def execAnd (hd : Hdr) (d a b : BitVec 6) (s : State) : Out := s.alu2 hd 0 d a b (· &&& ·)
/-- R128, R129. -/
def execAndi (hd : Hdr) (d a i : BitVec 6) (s : State) : Out := s.alu1 hd 0 d a (· &&& hd.sImm i)
/-- R128. -/
def execOr (hd : Hdr) (d a b : BitVec 6) (s : State) : Out := s.alu2 hd 0 d a b (· ||| ·)
/-- R128, R129. -/
def execOri (hd : Hdr) (d a i : BitVec 6) (s : State) : Out := s.alu1 hd 0 d a (· ||| hd.sImm i)
/-- R128. -/
def execXor (hd : Hdr) (d a b : BitVec 6) (s : State) : Out := s.alu2 hd 0 d a b (· ^^^ ·)
/-- R128, R129. -/
def execXori (hd : Hdr) (d a i : BitVec 6) (s : State) : Out := s.alu1 hd 0 d a (· ^^^ hd.sImm i)
/-- R128. -/
def execShl (hd : Hdr) (d a b : BitVec 6) (s : State) : Out := s.alu2 hd 0 d a b fun x y => x <<< sh y
/-- R128, R129: the immediate is unsigned. -/
def execShli (hd : Hdr) (d a i : BitVec 6) (s : State) : Out := s.alu1 hd 0 d a (· <<< i.toNat)
/-- R128. -/
def execShr (hd : Hdr) (d a b : BitVec 6) (s : State) : Out := s.alu2 hd 0 d a b fun x y => x >>> sh y
/-- R128, R129. -/
def execShri (hd : Hdr) (d a i : BitVec 6) (s : State) : Out := s.alu1 hd 0 d a (· >>> i.toNat)
/-- R128. -/
def execSra (hd : Hdr) (d a b : BitVec 6) (s : State) : Out := s.alu2 hd 0 d a b fun x y => x.sshiftRight (sh y)
/-- R128, R129. -/
def execSrai (hd : Hdr) (d a i : BitVec 6) (s : State) : Out := s.alu1 hd 0 d a (·.sshiftRight i.toNat)
/-- R128: signed. -/
def execMin (hd : Hdr) (d a b : BitVec 6) (s : State) : Out := s.alu2 hd 0 d a b (pick fun x y => x.slt y)
/-- R128: signed. -/
def execMax (hd : Hdr) (d a b : BitVec 6) (s : State) : Out := s.alu2 hd 0 d a b (pick fun x y => y.slt x)
/-- R128: unsigned. -/
def execMinu (hd : Hdr) (d a b : BitVec 6) (s : State) : Out := s.alu2 hd 0 d a b (pick fun x y => x.ult y)
/-- R128: unsigned. -/
def execMaxu (hd : Hdr) (d a b : BitVec 6) (s : State) : Out := s.alu2 hd 0 d a b (pick fun x y => y.ult x)
/-- R128. -/
def execAdds (hd : Hdr) (d a b : BitVec 6) (s : State) : Out :=
  s.alu2 hd 0 d a b fun x y => clamp64 (x.toInt + y.toInt)
/-- R128. -/
def execSubs (hd : Hdr) (d a b : BitVec 6) (s : State) : Out :=
  s.alu2 hd 0 d a b fun x y => clamp64 (x.toInt - y.toInt)
/-- R128. -/
def execClz (hd : Hdr) (d a : BitVec 6) (s : State) : Out :=
  s.alu1 hd 0 d a fun x => BitVec.ofNat 64 (leading x 64)
/-- R128. -/
def execPopc (hd : Hdr) (d a : BitVec 6) (s : State) : Out :=
  s.alu1 hd 0 d a fun x => BitVec.ofNat 64 (popcount x.toNat 64)
/-- R128, R129. -/
def execMovi (hd : Hdr) (d : BitVec 6) (i : BitVec 12) (s : State) : Out :=
  s.guarded hd { ds := [d] } fun s => s.sResult 0 d (hd.sImm i)

/-! ### Division (06 R130) -/

/-- DIV for every operand pair. -/
def divS (a b : Word) : Word := if b = 0 then BitVec.allOnes 64 else BitVec.ofInt 64 (Int.tdiv a.toInt b.toInt)
/-- DIVU for every operand pair. -/
def divU (a b : Word) : Word := if b = 0 then BitVec.allOnes 64 else BitVec.ofNat 64 (a.toNat / b.toNat)
/-- REM for every operand pair. -/
def remS (a b : Word) : Word := if b = 0 then a else BitVec.ofInt 64 (Int.tmod a.toInt b.toInt)
/-- REMU for every operand pair. -/
def remU (a b : Word) : Word := if b = 0 then a else BitVec.ofNat 64 (a.toNat % b.toNat)

/-- A division: its result posts the token of its IMM slot once, and a false guard posts it alone (06
R130). -/
def State.divide (s : State) (hd : Hdr) (d a b : BitVec 6) (f : Word → Word → Word) : Out :=
  let t := bits hd.c 4 0
  .next (if !s.postRoom t then s.stall
  else if !s.pOn hd then s.postOnce (s.core.tIx t)
  else match s.blocked { s := [a, b], ds := [d] } with
    | some u => u
    | none =>
      let v := f (s.s! a) (s.s! b)
      let r := s.newPost (s.core.tIx t) (s.dstS d)
      r.1.deliver (s.completion (some r.2) [.s (s.sDst d) v]))

/-- R130. -/
def execDiv (hd : Hdr) (d a b : BitVec 6) (s : State) : Out := s.divide hd d a b divS
/-- R130. -/
def execDivu (hd : Hdr) (d a b : BitVec 6) (s : State) : Out := s.divide hd d a b divU
/-- R130. -/
def execRem (hd : Hdr) (d a b : BitVec 6) (s : State) : Out := s.divide hd d a b remS
/-- R130. -/
def execRemu (hd : Hdr) (d a b : BitVec 6) (s : State) : Out := s.divide hd d a b remU

/-! ### Selection, pointers and bit fields (06 R131 to R134) -/

/-- R131: the guard field selects, and the slot always takes effect. -/
def execSel (hd : Hdr) (d a b : BitVec 6) (s : State) : Out :=
  .next (match s.blocked { s := [a, b], ds := [d] } with
    | some u => u
    | none => s.sResult 0 d (if s.p! hd.g then s.s! a else s.s! b))

/-- R132. -/
def execBptr (hd : Hdr) (d a b : BitVec 6) (s : State) : Out :=
  s.alu2 hd 0 d a b fun x y => mkPtr x.toNat y.toNat

/-- A pointer with its offset moved modulo 2^48 (06 R132). -/
def ptrMove (p val : Word) : Word := mkPtr (ptrIx p) (ptrOff p + val.toNat)

/-- R132: by a register or by an immediate. -/
def execBpadd (hd : Hdr) (d a b : BitVec 6) (s : State) : Out :=
  if hd.x.isEmpty then s.alu2 hd 0 d a b ptrMove else s.alu1 hd 0 d a (ptrMove · (hd.sImm b))

/-- Writes a predicate pair: the condition and its complement (05 R99). -/
def State.pair (s : State) (k : Nat) (pr : BitVec 2) (c : Bool) : State :=
  s.results k [.p (s.core.pIx (2 * pr.toNat)) c, .p (s.core.pIx (2 * pr.toNat + 1)) (!c)]

/-- The rights of an access by the code of R133. -/
def chkNeed (x : BitVec 2) : Nat :=
  match x.toNat with | 0 => needR | 1 => needW | 2 => needRWA | _ => needX

/-- R133: the four checks of 01 R31, as a predicate. Right W on the continuation's own FRAME range in handler mode,
which 14 R309 grants to ST and VST alone, reads 0, which is the model's choice (log 32). -/
def execBpchk (hd : Hdr) (p x : BitVec 2) (a b : BitVec 6) (s : State) : Out :=
  s.guarded hd { s := if hd.x.isEmpty then [a, b] else [a] } fun s =>
    let ptr := s.s! a
    let size := (if hd.x.isEmpty then s.s! b else hd.uImm b).toNat
    s.pair 0 p (match s.job! with
      | none => false
      | some j => match s.check j s.osize (chkNeed x) true (ptrIx ptr) (ptrOff ptr) size with
        | .ok _ => true
        | .error _ => false)

/-- LO and WIDTH of a bit field (06 R134). -/
def Hdr.lo (hd : Hdr) : Nat := bits hd.c 5 0
/-- WIDTH. -/
def Hdr.width (hd : Hdr) : Nat := bits hd.c 12 6

/-- R134. -/
def execBfx (hd : Hdr) (d a : BitVec 6) (s : State) : Out :=
  s.alu1 hd 0 d a fun x => BitVec.ofInt 64 (sint (Hdr.width hd) (x.toNat / 2 ^ Hdr.lo hd))
/-- R134. -/
def execBfxu (hd : Hdr) (d a : BitVec 6) (s : State) : Out :=
  s.alu1 hd 0 d a fun x => BitVec.ofNat 64 (x.toNat / 2 ^ Hdr.lo hd % 2 ^ Hdr.width hd)
/-- R134. -/
def execBfi (hd : Hdr) (d a b : BitVec 6) (s : State) : Out :=
  s.alu2 hd 0 d a b fun x y =>
    let m : Word := BitVec.ofNat 64 ((2 ^ Hdr.width hd - 1) * 2 ^ Hdr.lo hd)
    (y &&& ~~~m) ||| ((x <<< Hdr.lo hd) &&& m)

/-! ### Compares and predicates (06 R135 to R137) -/

/-- The condition codes of 06 R135. -/
def cond (c : BitVec 4) (a b : Word) : Bool :=
  match c.toNat with
  | 0 => decide (a = b)
  | 1 => a.slt b
  | 2 => a.ult b
  | 3 => a.sle b
  | 4 => a.ule b
  | _ => decide (a &&& b ≠ 0)

/-- R135. -/
def execCmp (hd : Hdr) (p : BitVec 2) (c : BitVec 4) (a b : BitVec 6) (s : State) : Out :=
  s.guarded hd { s := [a, b] } fun s => s.pair 0 p (cond c (s.s! a) (s.s! b))
/-- R135, R129. -/
def execCmpi (hd : Hdr) (p : BitVec 2) (c : BitVec 4) (a i : BitVec 6) (s : State) : Out :=
  s.guarded hd { s := [a] } fun s => s.pair 0 p (cond c (s.s! a) (hd.sImm i))

/-- R136. -/
def execPlog (hd : Hdr) (d a b : BitVec 3) (f : BitVec 4) (s : State) : Out :=
  s.guarded hd {} fun s =>
    s.result 0 (.p (s.core.pIx d.toNat) (f.getLsbD (2 * (s.p! a).toNat + (s.p! b).toNat)))

/-- R137: the predicate file as a byte. -/
def execPmovTos (hd : Hdr) (d : BitVec 6) (s : State) : Out :=
  s.guarded hd { ds := [d] } fun s =>
    s.sResult 0 d (BitVec.ofNat 64 (((List.range 8).map fun n => (s.p! (BitVec.ofNat 3 n)).toNat * 2 ^ n).sum))
/-- R137: p2 to p7 at one due cycle. -/
def execPmovFroms (hd : Hdr) (a : BitVec 6) (s : State) : Out :=
  s.guarded hd { s := [a] } fun s =>
    let v := s.s! a
    s.results 0 ((List.range 6).map fun n => .p (s.core.pIx (n + 2)) (v.getLsbD (n + 2)))

/-! ### Scalar floating point (06 R138 to R142) -/

/-- The latency class of a scalar FP operation (06 R138). -/
def fpClass (t : FFmt) : Nat := if t = F64 then 3 else 2

/-- A two-source scalar FP operation: its result in the low bits, zero above, and its flags (06 R116,
R138; 02 R50). -/
def State.fp2 (s : State) (hd : Hdr) (t : FFmt) (d a b : BitVec 6) (f : Nat → Nat → Nat × Flags) : Out :=
  s.guarded hd { s := [a, b], ds := [d] } fun s =>
    let r := f (s.s! a).toNat (s.s! b).toNat
    s.results (fpClass t) [.s (s.sDst d) (BitVec.ofNat 64 r.1), .fpst r.2]

/-- A fused multiply-add into its destination, which it reads (06 R138). -/
def State.fp3 (s : State) (hd : Hdr) (t : FFmt) (d a b : BitVec 6) : Out :=
  s.guarded hd { s := [a, b, d], ds := [d] } fun s =>
    let r := t.fma false (s.s! a).toNat (s.s! b).toNat (s.s! d).toNat
    s.results (fpClass t) [.s (s.sDst d) (BitVec.ofNat 64 r.1), .fpst r.2]

/-- R138. -/
def execFaddF32 (hd : Hdr) (d a b : BitVec 6) (s : State) : Out := s.fp2 hd F32 d a b (F32.add false)
/-- R138. -/
def execFaddF64 (hd : Hdr) (d a b : BitVec 6) (s : State) : Out := s.fp2 hd F64 d a b (F64.add false)
/-- R138. -/
def execFsubF32 (hd : Hdr) (d a b : BitVec 6) (s : State) : Out := s.fp2 hd F32 d a b (F32.sub false)
/-- R138. -/
def execFsubF64 (hd : Hdr) (d a b : BitVec 6) (s : State) : Out := s.fp2 hd F64 d a b (F64.sub false)
/-- R138. -/
def execFmulF32 (hd : Hdr) (d a b : BitVec 6) (s : State) : Out := s.fp2 hd F32 d a b (F32.mul false)
/-- R138. -/
def execFmulF64 (hd : Hdr) (d a b : BitVec 6) (s : State) : Out := s.fp2 hd F64 d a b (F64.mul false)
/-- R138. -/
def execFfmaF32 (hd : Hdr) (d a b : BitVec 6) (s : State) : Out := s.fp3 hd F32 d a b
/-- R138. -/
def execFfmaF64 (hd : Hdr) (d a b : BitVec 6) (s : State) : Out := s.fp3 hd F64 d a b
/-- R139. -/
def execFminF32 (hd : Hdr) (d a b : BitVec 6) (s : State) : Out :=
  s.fp2 hd F32 d a b (F32.minmax false false false)
/-- R139. -/
def execFminF64 (hd : Hdr) (d a b : BitVec 6) (s : State) : Out :=
  s.fp2 hd F64 d a b (F64.minmax false false false)
/-- R139. -/
def execFmaxF32 (hd : Hdr) (d a b : BitVec 6) (s : State) : Out :=
  s.fp2 hd F32 d a b (F32.minmax false false true)
/-- R139. -/
def execFmaxF64 (hd : Hdr) (d a b : BitVec 6) (s : State) : Out :=
  s.fp2 hd F64 d a b (F64.minmax false false true)

/-- The format of a one-bit format field (06 R140, R142). -/
def fmtBit (f : BitVec 1) : FFmt := if f = 0 then F32 else F64

/-- R140. -/
def execFcmp (hd : Hdr) (p : BitVec 2) (c : BitVec 3) (f : BitVec 1) (a b : BitVec 6) (s : State) : Out :=
  s.guarded hd { s := [a, b] } fun s =>
    let r := (fmtBit f).compare c.toNat (s.s! a).toNat (s.s! b).toNat
    (s.pair 4 p r.1).result 4 (.fpst r.2)

/-- A converted element as a scalar register holds it: a signed integer sign-extended, else zero above
(06 R116). -/
def extendTo (dst : Nat) (du : Bool) (x : Nat) : Word :=
  if isIntFmt dst && !du then BitVec.ofInt 64 (sint (intWidth dst) x) else BitVec.ofNat 64 x

/-- R141. -/
def execFcvt (hd : Hdr) (d a : BitVec 6) (s : State) : Out :=
  s.guarded hd { s := [a], ds := [d] } fun s =>
    let k := hd.c
    let dst := bits k 7 4
    let du := decide (bits k 9 9 = 1)
    let r := convert (bits k 3 0) dst (decide (bits k 8 8 = 1)) du (decide (bits k 10 10 = 1)) (s.s! a).toNat
    s.results 4 [.s (s.sDst d) (extendTo dst du r.1), .fpst r.2]

/-- R142. -/
def execFcls (hd : Hdr) (d a : BitVec 6) (f : BitVec 1) (s : State) : Out :=
  s.alu1 hd 4 d a fun x => BitVec.ofNat 64 ((fmtBit f).classOf x.toNat)

end Sys2Proof.Machine
end

