-- ==== Sys2Proof/Machine/Vector.lean ====
section
/-!
DEFINITION. The vector instructions (07 R143 to R161). Latency classes are those of 01 R14: 5 VALU,
6 VMUL, 7 VFP, 8 VF64, 9 VPRM, 10 VRED, 11 VTRN, 12 VQNT.
-/
namespace Sys2Proof.Machine

/-! ### Elements and masks (05 R98) -/

/-- Element e of width w of a register. -/
def elem (v : VReg) (w e : Nat) : Nat := v.toNat / 2 ^ (w * e) % 2 ^ w
/-- The elements of a register, from lane 0 upward. -/
def elems (v : VReg) (w : Nat) : List Nat := (List.range (2048 / w)).map (elem v w)
/-- Packs elements of width w from lane 0 upward. -/
def pack (w : Nat) : List Nat → Nat
  | [] => 0
  | x :: xs => x % 2 ^ w + 2 ^ w * pack w xs
/-- A register of its elements. -/
def vreg (w : Nat) (xs : List Nat) : VReg := BitVec.ofNat 2048 (pack w xs)
/-- The mask bit that guards element e of width w (05 R98). -/
def guardBit (w e : Nat) : Nat := if w = 64 then 2 * e else e * w / 32
/-- Whether a mask selects element e. -/
def sel (m : BitVec 64) (w e : Nat) : Bool := m.getLsbD (guardBit w e)
/-- The bits of a register that a mask lets a result write. -/
def elemMask (m : BitVec 64) (w : Nat) : VReg :=
  vreg w ((List.range (2048 / w)).map fun e => if sel m w e then 2 ^ w - 1 else 0)
/-- The union of flags. -/
def orFlags (fs : List Flags) : Flags := fs.foldl (· ||| ·) 0

/-- An M-guarded V slot: its sources are read in full whatever the mask, and with the mask wholly clear it
writes no vector register (04 R81; 05 R100; 07 R144). -/
def State.vslot (s : State) (hd : Hdr) (u : Uses) (f : State → State) : Out :=
  let u := if s.mOn hd = 0 then { u with dv := [] } else u
  .next (match s.blocked u with | some t => t | none => (f s).pops u.v)

/-- A vector result of a class, element by element, with the flags of the elements that are written (07
R144). -/
def State.vresult (s : State) (k w : Nat) (d : BitVec 6) (m : BitVec 64) (f : Nat → Nat × Flags) : State :=
  let rs := (List.range (2048 / w)).map fun e => if sel m w e then f e else (0, 0)
  s.results k [.v d.toNat (elemMask m w) (vreg w (rs.map Prod.fst)), .fpst (orFlags (rs.map Prod.snd))]

/-- A two-source elementwise operation. -/
def State.vec2 (s : State) (hd : Hdr) (k w : Nat) (d a b : BitVec 6) (f : Nat → Nat → Nat × Flags) : Out :=
  s.vslot hd { v := [a, b], dv := [d] } fun s =>
    let x := s.v! a
    let y := s.v! b
    s.vresult k w d (s.mOn hd) fun e => f (elem x w e) (elem y w e)

/-- A one-source elementwise operation. -/
def State.vec1 (s : State) (hd : Hdr) (k w : Nat) (d a : BitVec 6) (f : Nat → Nat × Flags) : Out :=
  s.vslot hd { v := [a], dv := [d] } fun s =>
    let x := s.v! a
    s.vresult k w d (s.mOn hd) fun e => f (elem x w e)

/-! ### Integer and logic (07 R146) -/

/-- A 32-bit integer operation without flags. -/
def State.vint (s : State) (hd : Hdr) (k : Nat) (d a b : BitVec 6) (f : BitVec 32 → BitVec 32 → BitVec 32) :
    Out :=
  s.vec2 hd k 32 d a b fun x y => ((f (BitVec.ofNat 32 x) (BitVec.ofNat 32 y)).toNat, 0)

/-- An exact integer clamped to the signed 32-bit range. -/
def clamp32 (i : Int) : BitVec 32 := BitVec.ofInt 32 (max (-(2 ^ 31)) (min i (2 ^ 31 - 1)))

/-- R146. -/
def execVaddI32 (hd : Hdr) (d a b : BitVec 6) (s : State) : Out := s.vint hd 5 d a b (· + ·)
/-- R146. -/
def execVsubI32 (hd : Hdr) (d a b : BitVec 6) (s : State) : Out := s.vint hd 5 d a b (· - ·)
/-- R146. -/
def execVmulI32 (hd : Hdr) (d a b : BitVec 6) (s : State) : Out := s.vint hd 6 d a b (· * ·)
/-- R146: signed. -/
def execVminI32 (hd : Hdr) (d a b : BitVec 6) (s : State) : Out :=
  s.vint hd 5 d a b fun x y => if x.slt y then x else y
/-- R146: signed. -/
def execVmaxI32 (hd : Hdr) (d a b : BitVec 6) (s : State) : Out :=
  s.vint hd 5 d a b fun x y => if y.slt x then x else y
/-- R146: unsigned. -/
def execVminu (hd : Hdr) (d a b : BitVec 6) (s : State) : Out :=
  s.vint hd 5 d a b fun x y => if x.ult y then x else y
/-- R146: unsigned. -/
def execVmaxu (hd : Hdr) (d a b : BitVec 6) (s : State) : Out :=
  s.vint hd 5 d a b fun x y => if y.ult x then x else y
/-- R146. -/
def execVand (hd : Hdr) (d a b : BitVec 6) (s : State) : Out := s.vint hd 5 d a b (· &&& ·)
/-- R146. -/
def execVor (hd : Hdr) (d a b : BitVec 6) (s : State) : Out := s.vint hd 5 d a b (· ||| ·)
/-- R146. -/
def execVxor (hd : Hdr) (d a b : BitVec 6) (s : State) : Out := s.vint hd 5 d a b (· ^^^ ·)
/-- R146: signed, saturating. -/
def execVaddsI32 (hd : Hdr) (d a b : BitVec 6) (s : State) : Out :=
  s.vint hd 5 d a b fun x y => clamp32 (x.toInt + y.toInt)

/-- A vector shift by the low five bits of each element of b, or by the IMM slot's amount. -/
def State.vshift (s : State) (hd : Hdr) (d a b : BitVec 6) (f : BitVec 32 → Nat → BitVec 32) : Out :=
  if hd.x.isEmpty then s.vint hd 5 d a b fun x y => f x (y.toNat % 32)
  else s.vec1 hd 5 32 d a fun x => ((f (BitVec.ofNat 32 x) (bits hd.c 4 0)).toNat, 0)

/-- R146. -/
def execVshl (hd : Hdr) (d a b : BitVec 6) (s : State) : Out := s.vshift hd d a b (· <<< ·)
/-- R146. -/
def execVshr (hd : Hdr) (d a b : BitVec 6) (s : State) : Out := s.vshift hd d a b (· >>> ·)
/-- R146. -/
def execVsra (hd : Hdr) (d a b : BitVec 6) (s : State) : Out := s.vshift hd d a b BitVec.sshiftRight

/-! ### FP arithmetic with the modifier slot (07 R145, R146, R147) -/

/-- FZ of the modifier slot. -/
def Hdr.fz (hd : Hdr) : Bool := decide (bits hd.c 0 0 = 1)
/-- NB. -/
def Hdr.nb (hd : Hdr) : Bool := decide (bits hd.c 1 1 = 1)
/-- NP. -/
def Hdr.np (hd : Hdr) : Bool := decide (bits hd.c 2 2 = 1)

/-- Operand b of an FP operation: its sign bit flipped under NB (07 R145). -/
def FFmt.negate (t : FFmt) (nb : Bool) (x : Nat) : Nat := if nb then x ^^^ 2 ^ (t.w - 1) else x

/-- The latency class of a vector FP operation (07 R146). -/
def vfpClass (t : FFmt) : Nat := if t.w = 64 then 8 else 7

/-- An elementwise FP operation with the modifier slot's FZ and NB. -/
def State.vfp2 (s : State) (hd : Hdr) (t : FFmt) (d a b : BitVec 6) (f : Bool → Nat → Nat → Nat × Flags) :
    Out :=
  s.vec2 hd (vfpClass t) t.w d a b fun x y => f (Hdr.fz hd) x (t.negate (Hdr.nb hd) y)

/-- An elementwise fused multiply-add into the destination, which it reads. -/
def State.vfma (s : State) (hd : Hdr) (t : FFmt) (d a b : BitVec 6) : Out :=
  s.vslot hd { v := [a, b, d], dv := [d] } fun s =>
    let x := s.v! a
    let y := s.v! b
    let z := s.v! d
    s.vresult (vfpClass t) t.w d (s.mOn hd) fun e =>
      t.fma (Hdr.fz hd) (elem x t.w e) (t.negate (Hdr.nb hd) (elem y t.w e)) (elem z t.w e)

/-- R146. -/
def execVaddF32 (hd : Hdr) (d a b : BitVec 6) (s : State) : Out := s.vfp2 hd F32 d a b F32.add
/-- R146. -/
def execVsubF32 (hd : Hdr) (d a b : BitVec 6) (s : State) : Out := s.vfp2 hd F32 d a b F32.sub
/-- R146. -/
def execVmulF32 (hd : Hdr) (d a b : BitVec 6) (s : State) : Out := s.vfp2 hd F32 d a b F32.mul
/-- R146. -/
def execVfmaF32 (hd : Hdr) (d a b : BitVec 6) (s : State) : Out := s.vfma hd F32 d a b
/-- R146. -/
def execVaddF64 (hd : Hdr) (d a b : BitVec 6) (s : State) : Out := s.vfp2 hd F64 d a b F64.add
/-- R146. -/
def execVsubF64 (hd : Hdr) (d a b : BitVec 6) (s : State) : Out := s.vfp2 hd F64 d a b F64.sub
/-- R146. -/
def execVmulF64 (hd : Hdr) (d a b : BitVec 6) (s : State) : Out := s.vfp2 hd F64 d a b F64.mul
/-- R146. -/
def execVfmaF64 (hd : Hdr) (d a b : BitVec 6) (s : State) : Out := s.vfma hd F64 d a b
/-- R146. -/
def execVaddBf16 (hd : Hdr) (d a b : BitVec 6) (s : State) : Out := s.vfp2 hd BF16 d a b BF16.add
/-- R146. -/
def execVmulBf16 (hd : Hdr) (d a b : BitVec 6) (s : State) : Out := s.vfp2 hd BF16 d a b BF16.mul
/-- R146. -/
def execVfmaBf16 (hd : Hdr) (d a b : BitVec 6) (s : State) : Out := s.vfma hd BF16 d a b
/-- R146. -/
def execVaddF16 (hd : Hdr) (d a b : BitVec 6) (s : State) : Out := s.vfp2 hd F16 d a b F16.add
/-- R146. -/
def execVmulF16 (hd : Hdr) (d a b : BitVec 6) (s : State) : Out := s.vfp2 hd F16 d a b F16.mul
/-- R146. -/
def execVfmaF16 (hd : Hdr) (d a b : BitVec 6) (s : State) : Out := s.vfma hd F16 d a b

/-- R147. -/
def execVminF32 (hd : Hdr) (d a b : BitVec 6) (s : State) : Out :=
  s.vec2 hd 7 32 d a b (F32.minmax (Hdr.fz hd) (Hdr.np hd) false)
/-- R147. -/
def execVmaxF32 (hd : Hdr) (d a b : BitVec 6) (s : State) : Out :=
  s.vec2 hd 7 32 d a b (F32.minmax (Hdr.fz hd) (Hdr.np hd) true)
/-- R147. -/
def execVminF64 (hd : Hdr) (d a b : BitVec 6) (s : State) : Out :=
  s.vec2 hd 8 64 d a b (F64.minmax (Hdr.fz hd) (Hdr.np hd) false)
/-- R147. -/
def execVmaxF64 (hd : Hdr) (d a b : BitVec 6) (s : State) : Out :=
  s.vec2 hd 8 64 d a b (F64.minmax (Hdr.fz hd) (Hdr.np hd) true)

/-! ### Compares (07 R148) -/

/-- Writes a mask pair in the lanes that were compared, the second the complement of the first (05
R99). -/
def State.maskPair (s : State) (pr : BitVec 2) (m : BitVec 64) (w : Nat) (f : Nat → Bool × Flags) : State :=
  let n := 2048 / w
  let rs := (List.range n).map fun e => if sel m w e then f e else (false, 0)
  let val := BitVec.ofNat 64 (pack (w / 32) (rs.map fun r => if r.1 then 2 ^ (w / 32) - 1 else 0))
  let on := BitVec.ofNat 64 (pack (w / 32) ((List.range n).map fun e => if sel m w e then 2 ^ (w / 32) - 1 else 0))
  s.results 5 [.m (2 * pr.toNat) on val, .m (2 * pr.toNat + 1) on (~~~val), .fpst (orFlags (rs.map Prod.snd))]

/-- A vector compare. -/
def State.vcmp (s : State) (hd : Hdr) (p : BitVec 2) (w : Nat) (a b : BitVec 6) (f : Nat → Nat → Bool × Flags) :
    Out :=
  s.vslot hd { v := [a, b] } fun s =>
    let x := s.v! a
    let y := s.v! b
    s.maskPair p (s.mOn hd) w fun e => f (elem x w e) (elem y w e)

/-- The integer condition codes of 07 R148; `u` compares unsigned. -/
def vcond (u : Bool) (c : BitVec 4) (x y : Nat) : Bool :=
  let a := BitVec.ofNat 32 x
  let b := BitVec.ofNat 32 y
  match c.toNat with
  | 0 => decide (a = b)
  | 1 => if u then a.ult b else a.slt b
  | 2 => if u then a.ule b else a.sle b
  | _ => decide (a &&& b ≠ 0)

/-- R148. -/
def execVcmpI32 (hd : Hdr) (p : BitVec 2) (c : BitVec 4) (a b : BitVec 6) (s : State) : Out :=
  s.vcmp hd p 32 a b fun x y => (vcond false c x y, 0)
/-- R148. -/
def execVcmpu (hd : Hdr) (p : BitVec 2) (c : BitVec 4) (a b : BitVec 6) (s : State) : Out :=
  s.vcmp hd p 32 a b fun x y => (vcond true c x y, 0)
/-- R148. -/
def execVcmpF32 (hd : Hdr) (p : BitVec 2) (c : BitVec 4) (a b : BitVec 6) (s : State) : Out :=
  s.vcmp hd p 32 a b (F32.compare c.toNat)
/-- R148. -/
def execVcmpF64 (hd : Hdr) (p : BitVec 2) (c : BitVec 4) (a b : BitVec 6) (s : State) : Out :=
  s.vcmp hd p 64 a b (F64.compare c.toNat)

/-! ### Conversions (07 R149) -/

/-- R149: a narrowing conversion writes the elements of its PART, a widening one reads them. -/
def execVcvt (hd : Hdr) (d a : BitVec 6) (s : State) : Out :=
  let k := hd.c
  let src := bits k 3 0
  let dst := bits k 7 4
  let part := bits k 13 11
  let ws := elemWidth src
  let wd := elemWidth dst
  let n := 2048 / max ws wd
  s.vslot hd { v := [a], dv := [d] } fun s =>
    let x := s.v! a
    let m := s.mOn hd
    -- the source element that destination element e converts, or none
    let from' (e : Nat) : Option Nat :=
      if wd < ws then (if n * part ≤ e ∧ e < n * part + n then some (e - n * part) else none)
      else if ws < wd then some (e + part * n) else some e
    let rs := (List.range (2048 / wd)).map fun e =>
      match (if sel m wd e then from' e else none) with
      | some i =>
        let r := convert src dst (decide (bits k 8 8 = 1)) (decide (bits k 9 9 = 1)) (decide (bits k 10 10 = 1))
          (elem x ws i)
        (2 ^ wd - 1, r.1, r.2)
      | none => (0, 0, 0)
    s.results (if ws = 64 ∨ wd = 64 then 8 else 7)
      [.v d.toNat (vreg wd (rs.map fun r => r.1)) (vreg wd (rs.map fun r => r.2.1)), .fpst (orFlags (rs.map fun r => r.2.2))]

/-! ### Masks, selection and movement (07 R150 to R154) -/

/-- R150. -/
def execVmlog (hd : Hdr) (d a b : BitVec 3) (f : BitVec 4) (s : State) : Out :=
  s.vslot hd {} fun s =>
    let x := s.m! a
    let y := s.m! b
    let v := BitVec.ofNat 64 (pack 1 ((List.range 64).map fun n =>
      (f.getLsbD (2 * (x.getLsbD n).toNat + (y.getLsbD n).toNat)).toNat))
    s.results 5 [.m d.toNat (s.mOn hd) v]

/-- R151. -/
def execVmmovTos (hd : Hdr) (d a : BitVec 6) (s : State) : Out :=
  s.guarded hd { ds := [d] } fun s => s.sResult 5 d (s.m! (a.setWidth 3))
/-- R151. -/
def execVmmovFroms (hd : Hdr) (d a : BitVec 6) (s : State) : Out :=
  s.guarded hd { s := [a] } fun s => s.result 5 (.m d.toNat (BitVec.allOnes 64) (s.s! a))

/-- A vector result that writes whole lanes. -/
def State.lanes (s : State) (k : Nat) (d : BitVec 6) (m : BitVec 64) (f : Nat → Nat) : State :=
  s.results k [.v d.toNat (elemMask m 32) (vreg 32 ((List.range 64).map f))]

/-- R152: the guard field selects and is no guard, and every lane is written. -/
def execVsel (hd : Hdr) (d a b : BitVec 6) (s : State) : Out :=
  .next (match s.blocked { v := [a, b], dv := [d] } with
    | some t => t
    | none =>
      let x := s.v! a
      let y := s.v! b
      let m := s.m! hd.g
      (s.lanes 5 d (BitVec.allOnes 64) fun n => if m.getLsbD n then elem x 32 n else elem y 32 n).pops [a, b])

/-- R153. -/
def execVmov (hd : Hdr) (d a : BitVec 6) (s : State) : Out :=
  s.vslot hd { v := [a], dv := [d] } fun s =>
    let x := s.v! a
    s.lanes 5 d (s.mOn hd) (elem x 32)
/-- R153: the step is signed. -/
def execVidx (hd : Hdr) (d a b : BitVec 6) (s : State) : Out :=
  s.vslot hd { s := [a], dv := [d] } fun s =>
    let x := s.s! a
    s.lanes 5 d (s.mOn hd) fun n => wrapInt 32 ((x.toNat : Int) + n * b.toInt)
/-- R153. -/
def execVbcst (hd : Hdr) (d a : BitVec 6) (b : BitVec 1) (s : State) : Out :=
  s.vslot hd { s := [a], dv := [d] } fun s =>
    let x := (s.s! a).toNat
    let w := if b = 1 then 64 else 32
    s.results 9 [.v d.toNat (elemMask (s.mOn hd) w) (vreg w (List.replicate (2048 / w) x))]
/-- R153. -/
def execVperm (hd : Hdr) (d a b : BitVec 6) (s : State) : Out :=
  s.vslot hd { v := [a, b], dv := [d] } fun s =>
    let x := s.v! a
    let y := s.v! b
    s.lanes 9 d (s.mOn hd) fun n => elem x 32 (elem y 32 n % 64)

/-- W64 of the IMM slot of VEXT and VINS (07 R153). -/
def Hdr.w64 (hd : Hdr) : Bool := decide (bits hd.c 0 0 = 1)

/-- R153: lane i, or lanes i + 1 and i, of a vector. -/
def execVext (hd : Hdr) (d a i : BitVec 6) (s : State) : Out :=
  .next (if !s.pOn hd then s else match s.blocked { v := [a], ds := [d] } with
    | some t => t
    | none =>
      let x := s.v! a
      let w := if Hdr.w64 hd then 64 else 32
      (s.sResult 9 d (BitVec.ofNat 64 (x.toNat / 2 ^ (32 * i.toNat) % 2 ^ w))).pops [a])
/-- R153. -/
def execVins (hd : Hdr) (d a i : BitVec 6) (s : State) : Out :=
  s.vslot hd { s := [a], dv := if (s.mOn hd).getLsbD i.toNat then [d] else [] } fun s =>
    let w := if Hdr.w64 hd then 64 else 32
    let on : Nat := if (s.mOn hd).getLsbD i.toNat then (2 ^ w - 1) * 2 ^ (32 * i.toNat) else 0
    s.results 9 [.v d.toNat (BitVec.ofNat 2048 on)
      (BitVec.ofNat 2048 ((s.s! a).toNat % 2 ^ w * 2 ^ (32 * i.toNat)))]

/-- The lane of the concatenation that lane n takes (07 R154). -/
def shufLane (op rot n : Nat) : Nat :=
  match op with
  | 0 => n / 2 + 64 * (n % 2)
  | 1 => 32 + n / 2 + 64 * (n % 2)
  | 2 => 2 * n
  | 3 => 2 * n + 1
  | _ => n + rot

/-- R154. -/
def execVshuf (hd : Hdr) (d a b : BitVec 6) (s : State) : Out :=
  s.vslot hd { v := [a, b], dv := [d] } fun s =>
    let x := s.v! a
    let y := s.v! b
    s.lanes 9 d (s.mOn hd) fun n =>
      let j := shufLane (bits hd.c 3 0) (bits hd.c 10 5) n
      if j < 64 then elem x 32 j else elem y 32 (j - 64)

/-! ### Reductions and scans (07 R155 to R157) -/

/-- One level of the pairwise tree. -/
def treeLevel (t : FFmt) : List Nat → List Nat × Flags
  | a :: b :: xs =>
    let r := t.add false a b
    let q := treeLevel t xs
    (r.1 :: q.1, r.2 ||| q.2)
  | xs => (xs, 0)

/-- The fixed pairwise tree of a number of levels. -/
def treeSum (t : FFmt) : Nat → List Nat → List Nat × Flags
  | 0, xs => (xs, 0)
  | n + 1, xs =>
    let r := treeLevel t xs
    let q := treeSum t n r.1
    (q.1, r.2 ||| q.2)

/-- A reduction of a vector to a scalar (07 R144). -/
def State.vreduce (s : State) (hd : Hdr) (d a : BitVec 6) (f : VReg → BitVec 64 → Word × Flags) : Out :=
  s.vslot hd { v := [a], ds := [d] } fun s =>
    let r := f (s.v! a) (s.mOn hd)
    s.results 10 [.s (s.sDst d) r.1, .fpst r.2]

/-- The elements that take part, others as an identity. -/
def orElse (x : VReg) (m : BitVec 64) (w unit : Nat) : List Nat :=
  (List.range (2048 / w)).map fun e => if sel m w e then elem x w e else unit

/-- The tree sum of the selected elements, the others entering as -0 (07 R155). -/
def vrsumF (t : FFmt) (levels : Nat) (x : VReg) (m : BitVec 64) : Word × Flags :=
  let r := treeSum t levels (orElse x m t.w (t.sign true))
  (BitVec.ofNat 64 (r.1.headD 0), r.2)

/-- R155. -/
def execVrsumF32 (hd : Hdr) (d a : BitVec 6) (s : State) : Out := s.vreduce hd d a (vrsumF F32 6)
/-- R155. -/
def execVrsumF64 (hd : Hdr) (d a : BitVec 6) (s : State) : Out := s.vreduce hd d a (vrsumF F64 5)
/-- R155: exact. -/
def execVrsumI32 (hd : Hdr) (d a : BitVec 6) (s : State) : Out :=
  s.vreduce hd d a fun x m => (BitVec.ofInt 64 ((orElse x m 32 0).map (sint 32)).sum, 0)

/-- The extreme of the selected FP elements (07 R156). -/
def extremeF (t : FFmt) (np isMax : Bool) (xs : List Nat) : Nat × Flags :=
  let fl := snan (xs.map t.decode)
  let nums := xs.filter fun x => !(t.decode x).isNan
  match xs, nums with
  | [], _ => (t.sign isMax + t.inf, 0)
  | _, [] => (t.nan, fl)
  | _, y :: ys =>
    if np && decide (nums.length < xs.length) then (t.nan, fl)
    else (ys.foldl (fun r x => (t.minmax false np isMax r x).1) y, fl)

/-- The extreme of the selected INT32 elements (07 R156). -/
def extremeI (u isMax : Bool) (xs : List Nat) : Word :=
  let is : List Int := xs.map fun x : Nat => if u then Int.ofNat x else sint 32 x
  let none' : Int := if isMax then (if u then 0 else -(2 ^ 31)) else (if u then 2 ^ 32 - 1 else 2 ^ 31 - 1)
  BitVec.ofInt 64 (is.foldl (fun r x => if isMax then max r x else min r x) none')

/-- VRMAX and VRMIN. -/
def State.vextreme (s : State) (hd : Hdr) (d a : BitVec 6) (f : BitVec 4) (u n : BitVec 1) (isMax : Bool) : Out :=
  s.vreduce hd d a fun x m =>
    let w := if f = 1 then 64 else 32
    let xs := ((List.range (2048 / w)).filter fun e => sel m w e).map (elem x w)
    if f = 7 then (extremeI (decide (u = 1)) isMax xs, 0)
    else
      let r := extremeF (if f = 1 then F64 else F32) (decide (n = 1)) isMax xs
      (BitVec.ofNat 64 r.1, r.2)

/-- R156. -/
def execVrmax (hd : Hdr) (d a : BitVec 6) (f : BitVec 4) (u n : BitVec 1) (s : State) : Out :=
  s.vextreme hd d a f u n true
/-- R156. -/
def execVrmin (hd : Hdr) (d a : BitVec 6) (f : BitVec 4) (u n : BitVec 1) (s : State) : Out :=
  s.vextreme hd d a f u n false

/-- Running sums from an accumulator (07 R157). -/
def scan (acc : Nat) : List Nat → List Nat × Flags
  | [] => ([], 0)
  | x :: xs =>
    let r := F32.add false acc x
    let q := scan r.1 xs
    (r.1 :: q.1, r.2 ||| q.2)

/-- R157. -/
def execVscanF32 (hd : Hdr) (d a : BitVec 6) (s : State) : Out :=
  s.vslot hd { v := [a], dv := [d] } fun s =>
    let m := s.mOn hd
    let r := scan (F32.sign true) (orElse (s.v! a) m 32 (F32.sign true))
    s.results 10 [.v d.toNat (elemMask m 32) (vreg 32 r.1), .fpst r.2]

/-! ### Functions (07 R158) -/

/-- R158. -/
def execVrcp (hd : Hdr) (d a : BitVec 6) (s : State) : Out := s.vec1 hd 11 32 d a (transcend 0)
/-- R158. -/
def execVrsq (hd : Hdr) (d a : BitVec 6) (s : State) : Out := s.vec1 hd 11 32 d a (transcend 1)
/-- R158. -/
def execVexp2 (hd : Hdr) (d a : BitVec 6) (s : State) : Out := s.vec1 hd 11 32 d a (transcend 2)
/-- R158. -/
def execVlog2 (hd : Hdr) (d a : BitVec 6) (s : State) : Out := s.vec1 hd 11 32 d a (transcend 3)

/-! ### Block quantise, dequantise and random numbers (07 R159 to R161) -/

/-- The permutation table of a V slot: field 0 selects the identity table (07 R159). -/
def State.table (s : State) (b : BitVec 6) : Nat := if b = 0 then idTable else (s.s! b).toNat

/-- A V slot that takes a table, which is checked when some mask bit is set (07 R159). -/
def State.tabled (s : State) (hd : Hdr) (d a b : BitVec 6) (f : State → Nat → State) : Out :=
  .next (match s.blocked { v := [a], s := [b], dv := if s.mOn hd = 0 then [] else [d] } with
    | some t => t
    | none =>
      let p := s.table b
      if s.mOn hd ≠ 0 ∧ !tableOk p then s.illegal else (f s p).pops [a])

/-- R159: four blocks in the low bytes, zeros above. -/
def execVqnt (hd : Hdr) (d a b : BitVec 6) (s : State) : Out :=
  s.tabled hd d a b fun s p =>
    let x := s.v! a
    let m := s.mOn hd
    let n := lbSize hd.c
    let bs := (List.range 4).map fun j =>
      quantise (lbBits hd.c) p ((List.range 16).map fun i => F32.decode (elem x 32 (16 * j + i)))
    let touched (j : Nat) : Bool := (List.range (8 * n)).any fun i =>
      m.getLsbD ((n * j + i) / 4) && decide (i < n)
    s.results 12 [.v d.toNat (elemMask m 32) (BitVec.ofNat 2048 (pack (8 * n) (bs.map Prod.fst))),
      .fpst (orFlags ((bs.zip (List.range 4)).map fun q => if touched q.2 then q.1.2 else 0))]

/-- R160: element i of block j goes to lane 16 j + P[i]. -/
def execVdqt (hd : Hdr) (d a b : BitVec 6) (s : State) : Out :=
  s.tabled hd d a b fun s p =>
    let x := (s.v! a).toNat
    let n := lbSize hd.c
    let vals := (List.range 4).map fun j => lbDecode (lbBits hd.c) (x / 2 ^ (8 * n * j) % 2 ^ (8 * n))
    s.lanes 12 d (s.mOn hd) fun l =>
      let i := ((List.range 16).find? fun i => decide (tableAt p i = l % 16)).getD 0
      (vals.getD (l / 16) []).getD i 0

/-- The four rounds of 07 R161. -/
def rndRounds : Nat → Word → Word → Word
  | 0, x, _ => x
  | n + 1, x, k =>
    let x := (x ^^^ k) * 0xD3A2646C4F1B5A27#64
    rndRounds n (x ^^^ (x >>> 31)) (k + 0x7C3B59E1A2D48F65#64)

/-- The value of a counter under a key (07 R161). -/
def rndLane (k ctr : Word) : Nat :=
  let x := rndRounds 4 ctr k * 0xB5E19A0C3F672D4B#64
  let x := x ^^^ (x >>> 33)
  x.toNat / 2 ^ 32

/-- R161. -/
def execVrnd (hd : Hdr) (d a b : BitVec 6) (s : State) : Out :=
  s.vslot hd { s := [a, b], dv := [d] } fun s =>
    let k := s.s! a
    let c := s.s! b
    s.lanes 12 d (s.mOn hd) fun n => rndLane k (c + BitVec.ofNat 64 n)

end Sys2Proof.Machine
end

