-- ==== Sys2Proof/Machine/MemInstr.lean ====
section
/-!
DEFINITION. The M-unit instructions on memory: loads and stores on both paths, bank formats, the view,
cache operations, streams and saved tokens (09 R194 to R207).
-/
namespace Sys2Proof.Machine

/-- OFF of an offset slot's value (09 R195). -/
def offOf (c : Nat) : Int := sint 20 c
/-- A pointer moved by a signed offset modulo 2^48 (09 R199). -/
def ptrBy (p : Word) (o : Int) : Word := mkPtr (ptrIx p) (((ptrOff p : Int) + o) % 2 ^ 48).toNat
/-- WI of a control slot (09 R195). -/
def Hdr.wi (hd : Hdr) : Nat := bits hd.c 13 10
/-- WO. -/
def Hdr.wo (hd : Hdr) : Nat := bits hd.c 9 6
/-- SC. -/
def Hdr.sc (hd : Hdr) : Nat := bits hd.c 5 4
/-- TE of the first IMM slot. -/
def Hdr.te (hd : Hdr) : Bool := teSet hd.c
/-- The token named by the first IMM slot. -/
def Hdr.tok (hd : Hdr) : Option Nat := tokOf hd.c

/-- A slot that posts a token and may give a witness: it stalls while no posting or store may be added,
and with its guard false posts once and gives the empty witness (04 R81; 05 R107; 09 R197). -/
def State.tokSlot (s : State) (hd : Hdr) (on store : Bool) (u : Uses) (f : State → State) : Out :=
  .next (
    let w : Uses := if store then { dw := [Hdr.wo hd] } else {}
    if !s.room? (Hdr.tok hd) then s.stall
    else if !on then
      let s := s.postOnce? (Hdr.tok hd)
      if store then s.emptyWit (Hdr.wo hd) else s
    else match s.blocked { u with dw := w.dw ++ u.dw } with
      | some t => t
      | none => if store && !s.roomFor s.core.id then s.stall else f s)

/-- Issues a tokened access (09 R196): its posting with its destinations, and the access in flight. -/
def State.issueAccess (s : State) (hd : Hdr) (op : AccOp) (whole : Bool) (parts : List Part) (dst : Nat)
    (dsts : List Dst) (seq : Nat) (key : Option BatchKey) : State :=
  let wi := s.wiOf (Hdr.wi hd)
  let r := s.post? (Hdr.tok hd) dsts
  let s := r.1
  let c := s.core
  let a : Access := ⟨s.nextId, c.id, c.cont.recPa, c.cont.recPtr, c.cont.job, c.pipe.pc, c.pipe.slot, op, whole,
    parts, [], [], dst, wi, seq, Hdr.sc hd, r.2, key, c.object.ptr, c.object.osize, c.cont.handler, false, []⟩
  ({ s with nextId := s.nextId + 1 }).push (.memoryPortAccess a)

/-- Numbers a store of the focused core and gives its entry in WO (09 R197): the state and the number.
The widest scope of its stores serves the marker of 12 R271. -/
def State.giveStore (s : State) (hd : Hdr) : State × Nat :=
  let id := s.core.id
  let r := s.number id
  let s := r.1.giveWit (Hdr.wo hd) (r.1.storeEntry (Hdr.sc hd) id r.2)
  (s.setCont { s.core.cont with wsc := max s.core.cont.wsc (Hdr.sc hd) }, r.2)

/-- A store on the tokened path. -/
def State.tokStore (s : State) (hd : Hdr) (whole : Bool) (parts : List Part) : State :=
  let r := s.giveStore hd
  r.1.issueAccess hd .store whole parts 0 [] r.2 none

/-! ### The local path (09 R196, R197) -/

/-- The check of one part of a local-path access. -/
def State.localFails (s : State) (j : Job) (need : Nat) (p : Part) : Option (Cause × Word) :=
  let ix := ptrIx p.ptr
  if ix < 0xFFF0 then some (.bufBounds, p.ptr)
  else if ptrOff p.ptr % p.size ≠ 0 then some (.bufBounds, p.ptr)
  else match s.check j s.osize need true ix (ptrOff p.ptr) p.size with
    | .error c => some (c, p.ptr)
    | .ok _ => none

/-- The checks of a local-path access at issue, in the order of 09 R199: the state in which its bundle
traps or stalls, or none. -/
def State.localBlocked (s : State) (hd : Hdr) (need : Nat) (parts : List Part) : Option State :=
  match s.job! with
  | none => some s.illegal
  | some j =>
    match parts.findSome? (s.localFails j need) with
    | some (c, p) => some (s.failAt c p)
    | none => match s.observe (some s.core.id) (s.wiOf (Hdr.wi hd)) with
      | .bad c e => some (s.fail c e 0)
      | .wait => some s.stall
      | .ok =>
        let ps := parts.flatMap fun p => s.places s.core.id j s.core.object.ptr p.ptr p.size
        if s.earlier s.core.cont.recPa s.nextId ps then some s.stall
        else if need = needR ∧ parts.any (fun p => decide (ptrIx p.ptr = 0xFFF4) &&
            s.heldSlot s.core.id s.nextId (ptrOff p.ptr) p.size) then some s.stall
        else if need = needW ∧ parts.any (fun p => s.heldByX (ptrIx p.ptr) (ptrOff p.ptr) p.size)
          then some s.stall
        else none

/-- The bytes of a part of a local-path load; those of the code object come through the L1 (01 R32, 08 R179). -/
def State.localGet (s : State) (p : Part) : Sync :=
  let c := s.core
  let ix := ptrIx p.ptr
  let off := ptrOff p.ptr
  if ix = 0xFFF6 then
    let q := ptrAdd c.object.ptr off
    match s.job! with
    | none => .fail s .bufBounds 0 p.ptr
    | some j => match s.buf? j (ptrIx q) with
      | none => .fail s .bufBounds 0 p.ptr
      | some b => s.syncMem j b p.ptr (ptrOff q) p.size fun s ks =>
        let r := s.coreLoad c.id c.cont.recPa s.nextId ks; .ok r.1 r.2
  else .ok (s.noteSeen c.id c.cont.recPa s.nextId (s.whoAt (localRanges c.id ix off p.size)))
    (s.localRead c.id c.cont.recPa ix off p.size)

/-- The pointer of a part of a local-path load whose check value fails (14 R305; 15 R333). -/
def State.localFault (s : State) (p : Part) : Option Word :=
  let c := s.core
  let code := if ptrIx p.ptr ≠ 0xFFF6 then [] else
    match s.job! with | some j => s.places c.id j c.object.ptr p.ptr p.size | none => []
  if s.localBad c.id c.cont.recPa (ptrIx p.ptr) (ptrOff p.ptr) p.size || s.coreBad c.id code then some p.ptr else none

/-- Reads the parts of a local-path load: the state in which its bundle stalls or traps, or the lanes read. -/
def State.localGets (s : State) : List Part → State ⊕ (State × List (Nat × Nat))
  | [] => .inr (s, [])
  | p :: ps =>
    match s.localGet p with
    | .stall t => .inl t
    | .fail t c l v => .inl (t.failXl c v l)
    | .ok t x => match t.localGets ps with
      | .inl u => .inl u
      | .inr (u, xs) => .inr (u, (p.lane, x) :: xs)

/-- A fixed-latency result whose check value may fail (14 R305). -/
def State.resultBad (s : State) (k : Nat) (w : Write) (bad : Option Word) : State :=
  let s := s.result k w
  s.setPipe { s.core.pipe with fresh :=
    s.core.pipe.fresh.dropLast ++ s.core.pipe.fresh.getLast?.toList.map fun l => { l with bad := bad } }

/-- A load on the local path: its result lands at issue + LAT[LDCL] (09 R196). -/
def State.localLoad (s : State) (hd : Hdr) (parts : List Part) (f : List (Nat × Nat) → Write) : State :=
  match s.localBlocked hd needR parts with
  | some t => t
  | none => match s.localGets parts with
    | .inl t => t
    | .inr (t, xs) => t.resultBad 13 (f xs) (parts.findSome? s.localFault)

/-- A store on the local path: written at once, in issue order (09 R196). -/
def State.localStore (s : State) (hd : Hdr) (parts : List Part) : State :=
  match s.localBlocked hd needW parts with
  | some t => t
  | none =>
    let c := s.core
    let ix := ptrIx ((parts.headD ⟨0, 0, 0, 0⟩).ptr)
    let st := parts.foldl (fun st p => st.write ix (ptrOff p.ptr) p.size p.data) c.store
    let st := st.heal c.id ix (parts.map fun p => (ptrOff p.ptr, p.size))
    let r := (s.setStore st).giveStore hd
    let rs := parts.flatMap fun p => localRanges c.id ix (ptrOff p.ptr) p.size
    (r.1.stamp rs (r.1.storeEntry (Hdr.sc hd) c.id r.2)).push
      (.entryRipens ⟨s.devnum, c.id, r.2, c.id, rs, [], none, Hdr.sc hd, 1, s.nextId⟩)

/-! ### LD, ST and the vector forms (09 R199, R200) -/

/-- R199. -/
def execLd (hd : Hdr) (d a : BitVec 6) (sz : BitVec 3) (s : State) : Out :=
  if sz = 7 then .next s.illegal else
  s.tokSlot hd (s.pOn hd) false { s := [a], w := [Hdr.wi hd], ds := [d] } fun s =>
    let part : Part := ⟨0, ptrBy (s.s! a) (offOf hd.c2), szBytes sz.toNat, 0⟩
    if Hdr.te hd then s.issueAccess hd (.load sz.toNat) true [part] (s.sDst d) (s.dstS d) 0 none
    else s.localLoad hd [part] fun xs => .s (s.sDst d) (extendLoad sz.toNat (xs.headD (0, 0)).2)

/-- R199. -/
def execSt (hd : Hdr) (d a : BitVec 6) (sz : BitVec 2) (s : State) : Out :=
  s.tokSlot hd (s.pOn hd) true { s := [a, d], w := [Hdr.wi hd] } fun s =>
    let n := szBytes sz.toNat
    let part : Part := ⟨0, ptrBy (s.s! a) (offOf hd.c2), n, (s.s! d).toNat % 256 ^ n⟩
    if Hdr.te hd then s.tokStore hd true [part] else s.localStore hd [part]

/-- The parts of a vector form: the selected lanes at their offsets, with their data (09 R200). -/
def vecParts (m : BitVec 64) (base : Word) (off : Nat → Int) (data : Nat → Nat) : List Part :=
  ((List.range 64).filter fun n => m.getLsbD n).map fun n => ⟨n, ptrBy base (off n), 4, data n⟩

/-- A vector load or store: the pops of its sources are noted with its effect. With its mask wholly clear
it still reads and pops its stream sources (04 R81, R84; 05 R100). -/
def State.vecMem (s : State) (hd : Hdr) (store whole : Bool) (u : Uses) (d : BitVec 6)
    (parts : State → List Part) : Out :=
  if s.mOn hd = 0 then
    match s.streamsBlocked u.v with
    | some t => .next t
    | none => match s.tokSlot hd false store {} id with
      | .next t => .next (if t.core.pipe.status = s.core.pipe.status then t.pops u.v else t)
      | o => o
  else s.tokSlot hd true store { u with w := [Hdr.wi hd] } fun s =>
    let ps := parts s
    let t :=
      if store then (if Hdr.te hd then s.tokStore hd whole ps else s.localStore hd ps)
      else if Hdr.te hd then s.issueAccess hd .vload whole ps d.toNat [⟨1, d.toNat⟩] 0 none
      else s.localLoad hd ps (laneWrites d.toNat)
    if t.core.pipe.status = s.core.pipe.status then t.pops u.v else t

/-- R200. -/
def execVld (hd : Hdr) (d a : BitVec 6) (s : State) : Out :=
  s.vecMem hd false true { s := [a], dv := [d] } d fun s =>
    vecParts (s.mOn hd) (ptrBy (s.s! a) (offOf hd.c2)) (fun n => 4 * n) fun _ => 0

/-- R200. -/
def execVst (hd : Hdr) (d a : BitVec 6) (s : State) : Out :=
  s.vecMem hd true true { s := [a], v := [d] } d fun s =>
    vecParts (s.mOn hd) (ptrBy (s.s! a) (offOf hd.c2)) (fun n => 4 * n) (elem (s.v! d) 32)

/-- R200. -/
def execVlds (hd : Hdr) (d a b : BitVec 6) (s : State) : Out :=
  s.vecMem hd false false { s := [a, b], dv := [d] } d fun s =>
    vecParts (s.mOn hd) (ptrBy (s.s! a) (offOf hd.c2)) (fun n => n * (s.s! b).toInt) fun _ => 0

/-- R200. -/
def execVsts (hd : Hdr) (d a b : BitVec 6) (s : State) : Out :=
  s.vecMem hd true false { s := [a, b], v := [d] } d fun s =>
    vecParts (s.mOn hd) (ptrBy (s.s! a) (offOf hd.c2)) (fun n => n * (s.s! b).toInt) (elem (s.v! d) 32)

/-- R200. -/
def execVgth (hd : Hdr) (d a b : BitVec 6) (s : State) : Out :=
  s.vecMem hd false false { s := [a], v := [b], dv := [d] } d fun s =>
    vecParts (s.mOn hd) (ptrBy (s.s! a) (offOf hd.c2)) (fun n => 4 * elem (s.v! b) 32 n) fun _ => 0

/-- R200. -/
def execVsct (hd : Hdr) (d a b : BitVec 6) (s : State) : Out :=
  s.vecMem hd true false { s := [a], v := [d, b] } d fun s =>
    vecParts (s.mOn hd) (ptrBy (s.s! a) (offOf hd.c2)) (fun n => 4 * elem (s.v! b) 32 n) (elem (s.v! d) 32)

/-! ### Bank formats and the view (09 R203, R204) -/

/-- R203, with the checks of 08 R183. -/
def execFmt (hd : Hdr) (k a b : BitVec 6) (s : State) : Out :=
  if 48 ≤ k.toNat then .next s.illegal else
  s.guarded hd { s := [a, b] } fun s =>
    let f : BankFmt := ⟨(s.s! a).setWidth 10, if b = 0 then BitVec.ofNat 64 idTable else s.s! b⟩
    if 11 < f.code ∨ 11 < f.ifmt ∨ (f.word.getLsbD 9 ∧ !tableOk f.ptab.toNat) then s.illegal
    else s.later (.fmt k.toNat f)

/-- R204: a merge of a witness register into the view. -/
def execVjoin (hd : Hdr) (w : BitVec 4) (s : State) : Out :=
  s.guarded hd { w := [w.toNat] } fun s =>
    let es := (entriesOf s.core.regs.view ++ entriesOf (s.w! w)).map s.copyEntry
    match witOfEntries (mergeEntries es) with
    | none => s.fail .viewConflict 0 0
    | some v => s.later (.view v)

/-- R204. -/
def execVjoinClr (hd : Hdr) (s : State) : Out := s.guarded hd {} fun s => s.later (.view 0)

/-! ### Cache operations (09 R205, R206) -/

/-- R205; a length of 0 is checked as a zero-byte access (01 R31). -/
def execCflush (hd : Hdr) (n a : BitVec 6) (v : BitVec 1) (s : State) : Out :=
  s.tokSlot hd (s.pOn hd) true { s := [a, n], w := [Hdr.wi hd] } fun s =>
    let parts : List Part := [⟨0, ptrBy (s.s! a) (offOf hd.c2), (s.s! n).toNat, 0⟩]
    let r := s.giveStore hd
    r.1.issueAccess hd (.flush (Hdr.sc hd) (decide (v = 1))) true parts 0 [] r.2 none


/-- R206: no value, order or fault; the lines come in on the tokened path's ports, with no token. -/
def execPref (hd : Hdr) (n a : BitVec 6) (v : BitVec 2) (s : State) : Out :=
  if v = 3 then .next s.illegal else
  s.guarded hd { s := [a] } fun s =>
    let p := ptrBy (s.s! a) (offOf hd.c)
    let line := mkPtr (ptrIx p) (ptrOff p / 64 * 64)
    let parts : List Part := (List.range (n.toNat + 1)).map fun i => ⟨i, ptrAdd line (64 * i), 64, 0⟩
    let c := s.core
    ({ s with nextId := s.nextId + 1 }).push (.memoryPortAccess ⟨s.nextId, c.id, c.cont.recPa, c.cont.recPtr, c.cont.job,
      c.pipe.pc, c.pipe.slot, .pref v.toNat, false, parts, [], [], 0, [], 0, 0, none, none, c.object.ptr, c.object.osize, c.cont.handler,
      false, []⟩)

/-! ### Streams (09 R207) -/

/-- The words of n bytes. -/
def wordsOf (x n : Nat) : List Word := (List.range (n / 8)).map fun i => BitVec.ofNat 64 (fld x (8 * i) 8)

/-- R207: the descriptor is read, with the stores that WI and the view name observed. -/
def execSbind (hd : Hdr) (q : BitVec 3) (a : BitVec 6) (w : BitVec 4) (s : State) : Out :=
  s.guarded hd { s := [a], w := [w.toNat] } fun s =>
    let p := s.s! a
    match s.observe (some s.core.id) (s.wiOf w.toNat) with
    | .bad c e => s.fail c e 0
    | .wait => s.stall
    | .ok =>
      match s.syncRead needR 32 p 32 0 with
      | .stall t => t
      | .fail t c l v => t.failXl c v l
      | .ok t x =>
        let b : Stream := ⟨wordsOf x 32, 0, s.copyWit (s.w! w), [], none⟩
        if fld x 8 4 = 0 ∨ fld x 12 4 = 0 then s.failAt .bufBounds p
        else
          let e : Event := .streamElementFetch s.core.id q.toNat
          let t := t.later (.bind q.toNat (some b))
          if t.agenda.contains e then t else t.push e

/-- R207. -/
def execSbindU (hd : Hdr) (q : BitVec 3) (s : State) : Out :=
  s.guarded hd {} fun s => s.later (.bind q.toNat none)

/-! ### Saved tokens (09 R202, 05 R110) -/

/-- A posting to a token was in flight when the bundle issued. -/
def State.tokBusy (s : State) (t : Nat) : Bool :=
  s.core.pipe.posts.any fun p => decide (p.tok = t ∧ p.id < s.core.pipe.base)

/-- The trap of a failed TKSV or TKLD (14 R306). -/
def State.failTok (s : State) (t : BitVec 5) (c : Cause) (p : Word) (detail : Nat) : State :=
  (s.setPipe { s.core.pipe with xl := some (detail, p) }).failAt c (if c = .xlate then t.setWidth 64 else p)

/-- R202. -/
def execTksv (hd : Hdr) (t : BitVec 5) (a : BitVec 6) (s : State) : Out :=
  s.guarded hd { s := [a] } fun s =>
    let p := ptrBy (s.s! a) (offOf hd.c)
    let t' := s.core.tIx t.toNat
    if s.tokBusy t' then s.stall else
    let k := s.core.regs.tok t'
    match s.syncWrite needW 16 p 16 (k.word0.toNat + k.word1.toNat * 2 ^ 64) 0 with
    | .stall u => u
    | .fail u c l v => u.failTok t c v l
    | .ok u _ => u

/-- R202: the token takes the image for the bundles after this one. -/
def execTkld (hd : Hdr) (t : BitVec 5) (a : BitVec 6) (s : State) : Out :=
  s.guarded hd { s := [a] } fun s =>
    let p := ptrBy (s.s! a) (offOf hd.c)
    let t' := s.core.tIx t.toNat
    if s.tokBusy t' then s.stall else
    match s.syncRead needR 16 p 16 0 with
    | .stall u => u
    | .fail u c l v => u.failTok t c v l
    | .ok u x => u.imageTok t' (Token.ofWords (BitVec.ofNat 64 x) (BitVec.ofNat 64 (x / 2 ^ 64)))

/-! ### Streams fetched ahead (08 R187) -/

/-- How the fetch of a stream element ends: not yet, with its bytes, with a failure, or with a request to a
lender whose answer has a key. -/
inductive ElemFetch where
  | wait
  | val (x : Nat)
  | bad (cause : Cause) (detail source : Nat)
  | asked (key : Nat)

/-- Element bytes in a buffer of the device's own tiers, read through the core's L1 (08 R162, R179). -/
def State.fetchMem (s : State) (core : Nat) (j : Job) (d : Buf) (off n : Nat) : State × ElemFetch :=
  match s.pureKeys j.tenant.toNat d.tier (d.pieces off n) with
  | .error l => (s, .bad .xlate l 0)
  | .ok ks =>
    let w := s.askWalks j.tenant.toNat d.tier (d.pieces off n)
    if w.2 then (w.1, .wait)
    else if s.portHeld d off n ks then (s, .wait)
    else if s.coreBad core ks then (s, .bad .eccUncorr 0 0)
    else let r := s.coreLoad core (s.coreOf core).cont.recPa s.nextId ks; (r.1, .val r.2)

/-- Element bytes of a lease: the answer to the request made for them, or the request (08 R175). -/
def State.fetchPeer (s : State) (core : Nat) (j : Job) (d : Buf) (off : Nat) (asked : Option Nat) :
    State × ElemFetch :=
  match asked.bind fun k => (s.coreOf core).pipe.reply.find? fun r => decide (r.1 = k) with
  | some (_, some (0 :: xs)) => (s, .val (xs.headD 0))
  | some (_, some (k :: _)) => (s, .bad (causeOf (k % 64)) 0 6)
  | some _ => (s, .wait)
  | none =>
    let key := 2 ^ 20 + s.nextId
    match s.toLender d.lease j .read [(off, 256, 0)] (.stalled core key) none with
    | none => (s.leaseRefused d.lease none, .bad .bufRights 0 6)
    | some s =>
      let c := s.coreOf core
      ({ s with nextId := s.nextId + 1 }.setCore { c with pipe := { c.pipe with reply := (key, none) :: c.pipe.reply } },
        .asked key)

/-- One element of a stream fetched by a core (08 R186, R187; 01 R32). -/
def State.fetchElem (s : State) (core : Nat) (b : Stream) (e : Nat) : State × ElemFetch :=
  let p := b.ptr e
  let c := s.coreOf core
  let ix := ptrIx p
  let off := ptrOff p
  let o := c.object
  match s.job? c.cont.job with
  | none => (s, .wait)
  | some j =>
    if off % 4 ≠ 0 then (s, .bad .bufBounds 0 0) else
    match s.check j o.osize needR true ix off 256 with
    | .error k => (s, .bad k 0 0)
    | .ok (.core _) =>
      if ix = 0xFFF6 then
        let q := ptrAdd o.ptr off
        match s.buf? j (ptrIx q) with
        | none => (s, .bad .bufBounds 0 0)
        | some d => s.fetchMem core j d (ptrOff q) 256
      else if s.localBad core c.cont.recPa ix off 256 then (s, .bad .eccUncorr 0 0)
      else if ix = 0xFFF4 ∧ s.heldSlot core s.nextId off 256 then (s, .wait)
      else (s.noteSeen core c.cont.recPa s.nextId (s.whoAt (localRanges core ix off 256)),
        .val (s.localRead core c.cont.recPa ix off 256))
    | .ok (.buf d) => if d.tier = 3 then s.fetchPeer core j d off b.asked else s.fetchMem core j d off 256

/-- The elements from the head on that are not yet ahead: the first. -/
def Stream.next (b : Stream) : Nat :=
  b.head + ((List.range b.ahead.length).find? fun i => !(b.ahead.any fun f => decide (f.elem = b.head + i))).getD b.ahead.length

/-- R187: an element fetched ahead of the head arrives. -/
def execStreamElementFetch (core q : Nat) (s : State) : Out :=
  .next (
    let c := s.coreOf core
    match c.regs.q[q]?.getD none with
    | none => s
    | some b =>
      let e := b.next
      if c.phase ≠ .running ∨ b.total ≤ e then s else
      let put (s : State) (b' : Stream) : State :=
        let c := s.coreOf core
        s.setCore { c with
          regs := { c.regs with q := c.regs.q.setIfInBounds q (some b') }
          pipe := { c.pipe with reply := c.pipe.reply.filter fun r => b'.asked = some r.1 ∨ b.asked ≠ some r.1 } }
      let took (s : State) (f : Fetched) : State :=
        put (if b.ahead.length < 3 then s.push (.streamElementFetch core q) else s)
          { b with ahead := b.ahead ++ [f], asked := none }
      match s.fetchElem core b e with
      | (s, .wait) => s.push (.streamElementFetch core q)
      | (s, .asked key) => (put s { b with asked := some key }).push (.streamElementFetch core q)
      | (s, .val x) => took s ⟨e, BitVec.ofNat 2048 x, none⟩
      | (s, .bad c d src) => took s ⟨e, 0, some (c, d, src)⟩)

end Sys2Proof.Machine
end

