-- ==== Sys2Proof/Machine/Matrix.lean ====
section
/-!
DEFINITION. The queued X-unit instructions and what they do at the head of the X queue: matrix
contributions, starting values, snapshots and closes (10 R219 to R236; 11 R245 to R257).
-/
namespace Sys2Proof.Machine

/-! ### The X queue (10 R219, R220) -/

/-- The event by which the head of an X queue acts. -/
def headEvent (core : Nat) : Instr → Event
  | .chc .. => .chainClose core
  | .lkrd .. => .linkSnapshot core
  | .lkld .. => .startingValueLoad core
  | .lkz .. => .startingValueZero core
  | _ => .contributionApply core

/-- Asks the head of a core's X queue to act. -/
def State.pushHead (s : State) (core : Nat) : State :=
  match (s.coreOf core).pipe.xq with
  | e :: _ => s.push (headEvent core e.instr)
  | [] => s

/-- The instance and link that the focused continuation has opened in a slot (10 R226). -/
def State.myLink (s : State) (k : Nat) : Option (Chain × Link) :=
  match s.openLink s.core.id k with
  | some (c, l) => if l.slot = k ∧ l.recPa = s.core.cont.recPa then some (c, l) else none
  | none => none

/-- A close of a link in the slot that holds it has issued (11 R257). -/
def Core.closing (c : Core) (q : Chain) (l : Link) : Bool :=
  c.pipe.xq.any fun e => decide (e.ch = q.ch ∧ e.inst = q.inst ∧ e.idx = l.idx) &&
    (match e.instr with | .chc _ k _ _ => decide (k.toNat = l.slot) | _ => false)

/-- The link that an X slot names, unless it traps ILLEGAL_OP (10 R226, 11 R257). -/
def State.xLink (s : State) (k : BitVec 4) : Option (Chain × Link) :=
  match s.myLink k.toNat with
  | some (c, l) => if s.core.closing c l then none else some (c, l)
  | none => none

/-- The head of the X queue waits on a frozen chain: its chain number (10 R220, R236). -/
def State.frozenHead (s : State) : Option (BitVec 10) :=
  match s.core.pipe.xq with
  | e :: _ => (match e.instr with
    | .chc .. => (match s.entryChain s.core.cont.job e with
      | some c => if c.state = 1 then some e.ch else none
      | none => none)
    | _ => none)
  | [] => none

/-- A slot with a token of its first IMM slot, queued when its guard is true (10 R219, R220; 11 R260). -/
def State.xSlot (s : State) (hd : Hdr) (u : Uses) (f : State → State) : Out :=
  .next (
    if !s.room? (Hdr.tok hd) then s.stall
    else if !s.pOn hd then s.postOnce? (Hdr.tok hd)
    else match s.blocked u with
      | some t => t
      | none => f s)

/-- Enters the X queue: a full queue stalls the bundle, or traps while its head waits on a frozen chain. -/
def State.enqueue (s : State) (hd : Hdr) (i : Instr) (a b : Word) (x : BitVec 48) (y : BitVec 32)
    (fmts : List BankFmt) (dsts : List Dst) (wi : List Word) (seq : Nat) (c : Chain) (l : Link) : State :=
  let r := s.post? (Hdr.tok hd) dsts
  let s := r.1
  let p := s.core.pipe
  let e : XEntry := ⟨s.nextId, i, a, b, x, y, fmts, s.core.cont.recPa, r.2, wi, seq, c.ch, c.inst, l.idx, p.pc, p.slot,
    l.gen⟩
  let s := ({ s with nextId := s.nextId + 1 }).setPipe { p with xq := p.xq ++ [e] }
  if p.xq = [] then s.pushHead s.core.id else s

/-- The state of a bundle whose X slot finds the queue full, or none. -/
def State.queueFull (s : State) : Option State :=
  if s.core.pipe.xq.length < 16 then none
  else match s.frozenHead with
    | some ch => some (s.fail .xQueueFull (ch.setWidth 64) 0)
    | none => some s.stall

/-! ### Issue of matrix contributions (11 R245 to R248) -/

/-- The banks that a range of a view touches. -/
def banksOf (ix off n : Nat) : List Nat :=
  if ix < 0xFFF2 then
    (List.range ((off + n - 1) / 16384 - off / 16384 + 1)).map fun i => bankOf ix (16384 * (off / 16384 + i))
  else ((List.range (min 32 (n / 64 + 2))).map fun i => bankOf ix (min (off + 64 * i) (off + n - 1))).eraseDups

/-- The format register of some banks, when they all hold the same but for CVT and IFMT (11 R247
check 1); `whole`: they hold the same value (R257). -/
def Regs.banksFmt (g : Regs) (whole : Bool) (bs : List Nat) : Option BankFmt :=
  let fs := bs.map fun b => g.fmt[b]?.getD BankFmt.zero
  let key (f : BankFmt) : BitVec 10 × Word := (if whole then f.word else f.word &&& 0x20F#10, f.ptab)
  match fs with
  | [] => none
  | f :: fs => if fs.all fun h => decide (key h = key f) then some f else none

/-- The format register of the banks of a range. -/
def Regs.tileFmt (g : Regs) (whole : Bool) (ix off n : Nat) : Option BankFmt := g.banksFmt whole (banksOf ix off n)

/-- The group size of a matrix format, or 0 for a format that is none (10 R228, 11 R247). -/
def groupSize (code : Nat) : Nat :=
  match code with
  | 4 | 5 | 9 | 10 | 11 => 16
  | 2 | 3 => 8
  | 0 => 4
  | 1 => 1
  | _ => 0

/-- How the left operand of a contribution lies. -/
inductive LeftForm where
  | rows | gathered | columns
deriving DecidableEq, Repr

/-- The extent from which the format of the left operand is sampled: of a gathered one, row 0 (11 R248). -/
def leftExtent (f : LeftForm) (code K : Nat) : Nat :=
  match f with | .gathered => fmtBytes code K | _ => 32 * fmtBytes code K

/-- The format register at an offset, that of its first byte, 0 where the offset lies outside its space. -/
def Regs.fmtAt (g : Regs) (ix off : Nat) : BankFmt := g.fmt[bankOf ix off]?.getD BankFmt.zero

/-- The bytes of an operand that lie in its space, from an offset: its extent, cut at the end. -/
def cut (sp off n : Nat) : Nat := max 1 (min n (spaceLen sp - off))

/-- Check 1 of 11 R247 on an operand: its format, none where it starts outside its space and no bank holds it. -/
def Regs.operandFmt (g : Regs) (sp off : Nat) (bs : List Nat) : Except Cause (Option BankFmt) :=
  if spaceLen sp ≤ off then .ok none else
  match g.banksFmt false bs with
  | some f => .ok (some f)
  | none => .error .illegalOp

/-- The issue checks of 11 R247 and R248: the cause and SR.TVAL of the first that fails, or the formats. That R248's
checks of row 0 and of the list's offset come before those of R247 is the model's choice (log 29). -/
def Regs.matrixCheck (g : Regs) (f : LeftForm) (hd : Hdr) (a b : Word) : Except (Cause × Word) (BankFmt × BankFmt) :=
  let ia := spaceIx 0 (Hdr.av hd)
  let ib := spaceIx 1 (Hdr.wv hd)
  let K := Hdr.depth hd
  let offA := lo32 a
  let offB := lo32 b
  let left : Except (Cause × Word) (BankFmt × BankFmt) := .error (.bufBounds, mkPtr ia offA)
  let right : Except (Cause × Word) (BankFmt × BankFmt) := .error (.bufBounds, mkPtr ib offB)
  if f = .gathered ∧ 0x40000 ≤ offA then left
  else if f = .gathered ∧ (hi32 a % 2 ≠ 0 ∨ 0x40000 < hi32 a + 64) then .error (.bufBounds, mkPtr ia (hi32 a)) else
  let na := leftExtent f (g.fmtAt ia offA).code K
  let nb := 48 * fmtBytes (g.fmtAt ib offB).code K
  -- row 0 of a gathered operand wraps at the end of A-space
  let banksA := if f = .gathered then (wrapA ia offA na).flatMap fun r => banksOf r.1 r.2.1 r.2.2
    else banksOf ia offA (cut 0 offA na)
  match g.operandFmt 0 offA banksA, g.operandFmt 1 offB (banksOf ib offB (cut 1 offB nb)) with
  | .ok fa, .ok fb =>
    let size (x : Option BankFmt) : Option Nat := x.map fun x => groupSize x.code
    let odd (x : Option BankFmt) (off : Nat) : Bool := x.any fun x => decide (off % fmtAlign x.code ≠ 0)
    if size fa = some 0 ∨ size fb = some 0 ∨ (fa.isSome ∧ fb.isSome ∧ size fa ≠ size fb) then .error (.illegalOp, 0)
    else if f = .columns ∧ fa.any (fun x => isLb x.code) then .error (.illegalOp, 0)
    else if odd fa offA then left
    else if odd fb offB then right
    else if f ≠ .gathered ∧ 0x40000 < offA + na then left
    else match fa, fb with
      | none, _ => left
      | some fa, some fb => if 0x80000 < offB + nb then right else .ok (fa, fb)
      | _, none => right
  | _, _ => .error (.illegalOp, 0)

/-- Issues a matrix contribution (11 R246): it is counted and queued. -/
def State.contribute (s : State) (f : LeftForm) (i : Instr) (hd : Hdr) (k : BitVec 4) (a b : BitVec 6) : Out :=
  s.xSlot hd { s := [a, b], w := [bits hd.c 3 0] } fun s =>
    match s.xLink k with
    | none => s.illegal
    | some (c, l) =>
      if hopCount (c.hop l.idx) ≤ l.issued then s.illegal else
      match s.core.regs.matrixCheck f hd (s.s! a) (s.s! b) with
      | .error (e, v) => s.fail e v 0
      | .ok (fa, fb) =>
        match s.queueFull with
        | some t => t
        | none =>
          let xm := s.core.xVal (Hdr.xs hd)
          let ym := s.core.yVal (Hdr.ys hd)
          let wi := s.wiOf (bits hd.c 3 0)
          (s.setChain (c.setLink { l with issued := l.issued + 1 })).enqueue hd i (s.s! a) (s.s! b) xm ym
            [fa, fb] [] wi 0 c l

/-- R245. -/
def execMxa (hd : Hdr) (k : BitVec 4) (a b : BitVec 6) (s : State) : Out :=
  s.contribute .rows (.mxa hd k a b) hd k a b
/-- R245, R248. -/
def execMxg (hd : Hdr) (k : BitVec 4) (a b : BitVec 6) (s : State) : Out :=
  s.contribute .gathered (.mxg hd k a b) hd k a b
/-- R245. -/
def execMxt (hd : Hdr) (k : BitVec 4) (a b : BitVec 6) (s : State) : Out :=
  s.contribute .columns (.mxt hd k a b) hd k a b

/-! ### At the head (10 R228, R236; 11 R246, R249) -/

/-- Element k of a row of an operand at an offset, of K elements in a bank format (08 R184, R185). -/
def Store.operand (st : Store) (ix base : Nat) (f : BankFmt) (k : Nat) : FVal :=
  if isLb f.code then
    let n := lbSize f.code
    let j := ((List.range 16).find? fun j => decide (tableAt f.table j = k % 16)).getD 0
    lbElem (lbBits f.code) (st.read ix (base + n * (k / 16)) n) j
  else (ffmt f.code).decode (st.read ix (base + elemWidth f.code / 8 * k) (elemWidth f.code / 8))

/-- A row of the left operand of a contribution, decoded (11 R245, R248). -/
def Store.leftRow (st : Store) (form : LeftForm) (hd : Hdr) (f : BankFmt) (a : Word) (row : Nat) : List FVal :=
  let ix := spaceIx 0 (Hdr.av hd)
  let K := Hdr.depth hd
  let rb := fmtBytes f.code K
  (List.range K).map fun k =>
    match form with
    | .rows => st.operand ix (lo32 a + rb * row) f k
    | .columns => st.operand ix (lo32 a) f (32 * k + row)
    | .gathered =>
      let base := gatherRow st (Hdr.av hd) (hi32 a) (lo32 a) rb row
      -- bytes that pass the end of A-space wrap to 0
      if isLb f.code then
        let n := lbSize f.code
        let j := ((List.range 16).find? fun j => decide (tableAt f.table j = k % 16)).getD 0
        lbElem (lbBits f.code) (leNat ((List.range n).map fun i =>
          BitVec.ofNat 8 (st.read ix ((base + n * (k / 16) + i) % 0x40000) 1))) j
      else
        let w := elemWidth f.code / 8
        (ffmt f.code).decode (leNat ((List.range w).map fun i => BitVec.ofNat 8 (st.read ix ((base + w * k + i) % 0x40000) 1)))

/-- A column of the right operand, decoded. -/
def Store.rightColumn (st : Store) (hd : Hdr) (f : BankFmt) (b : Word) (col : Nat) : List FVal :=
  let rb := fmtBytes f.code (Hdr.depth hd)
  (List.range (Hdr.depth hd)).map fun k => st.operand (spaceIx 1 (Hdr.wv hd)) (lo32 b + rb * col) f k

/-- The groups of G products of an element, in increasing k. -/
def groups (G : Nat) : Nat → List FVal → List FVal → List (List (FVal × FVal))
  | 0, _, _ => []
  | n + 1, as, bs => (as.take G).zip (bs.take G) :: groups G n (as.drop G) (bs.drop G)

/-- Adds one group of products to an element (10 R228). -/
def addGroup (t : FFmt) (r : Nat × Flags) (g : List (FVal × FVal)) : Nat × Flags :=
  let ps := g.map fun p => p.1.mul p.2
  let fl := ps.foldl (fun f p => f ||| p.2) r.2
  let x :=
    if g.length = 1 then t.done false (FVal.sum (t.decode r.1 :: ps.map Prod.fst))
    else
      let q := t.done false (FVal.sum (ps.map Prod.fst))
      let y := t.done false (FVal.sum [t.decode r.1, t.decode q.1])
      (y.1, q.2 ||| y.2)
  (x.1, fl ||| x.2)

/-- One element of a link after a contribution (10 R228). -/
def addProduct (t : FFmt) (G : Nat) (v : Nat) (as bs : List FVal) : Nat × Flags :=
  (groups G (as.length / G) as bs).foldl (addGroup t) (v, 0)

/-- What a failed operand read makes of a contribution (11 R249). -/
structure XFault where
  cause : Cause
  wit : Word

/-- The head of a core's X queue leaves it, and the next one acts. -/
def State.dequeue (s : State) (core : Nat) : State :=
  let c := s.coreOf core
  (s.setCore { c with pipe := { c.pipe with xq := c.pipe.xq.drop 1 } }).pushHead core

/-- The fault of a queued entry: its record, and what its token posts (14 R311; 11 R249; 10 R236). -/
def State.xFault (s : State) (core : Nat) (e : XEntry) (f : XFault) : State × PFault :=
  let c := s.coreOf core
  let source := match f.cause with | .chainFrozen | .cancel => 3 | _ => 1
  let r := s.faultRecord c.cont.job { coreFault f.cause source core e.slot e.pc c.cont.recPtr 0 with
    ident := e.ch.toNat, wit := f.wit }
  (r.1, ⟨f.cause, r.2⟩)

/-- Posts a queued entry's token when it has been performed or discarded. -/
def State.xPost (s : State) (core : Nat) (e : XEntry) (ws : List Write) (f : Option PFault) : State :=
  match e.post with
  | none => s
  | some _ => s.deliver ⟨core, e.recPa, e.post, ws, f⟩

/-- Discards the head entry with a fault (10 R236). -/
def State.discard (s : State) (core : Nat) (e : XEntry) (cause : Cause) : State :=
  match e.post with
  | none => s.dequeue core
  | some _ =>
    let r := s.xFault core e ⟨cause, 0⟩
    (r.1.dequeue core).xPost core e [] (some r.2)

/-- A queued entry names an earlier binding of its link, whose slot a splice has released (10 R236, R238). -/
def XEntry.stale (e : XEntry) (core : Nat) (l : Link) : Bool :=
  decide (l.core ≠ core ∨ some l.slot ≠ linkSlot e.instr ∨ l.gen ≠ e.gen)

/-- What the head entry meets (10 R236): its link where it may act, or the cause it is discarded with. -/
def State.headLink (s : State) (core : Nat) (e : XEntry) : Except Cause (Chain × Link) :=
  match s.entryChain (s.coreOf core).cont.job e with
  | none => .error .cancel
  | some c => match c.link? e.idx with
    | none => .error .chainFrozen
    | some l =>
      if l.state = 6 then .error .cancel
      else if e.stale core l ∨ l.state = 4 ∨ l.state = 5 then .error .chainFrozen
      else .ok (c, l)

/-- The operand bytes of an entry have a failing check value (11 R249). -/
def State.operandBad (s : State) (core : Nat) (e : XEntry) (w : Nat) : Bool :=
  let st := (s.coreOf core).store
  (e.reads st w).any fun r => st.badRange core r.1 r.2.1 r.2.2

/-- What stands in the way of reading operands: a wait, a failure, or nothing (11 R246, R249). -/
def State.operandState (s : State) (core : Nat) (e : XEntry) (w : Nat) : Option (Option XFault) :=
  match s.observe (some core) e.wi with
  | .wait => none
  | .bad c x => some (some ⟨c, x⟩)
  | .ok => some (if s.operandBad core e w then some ⟨.eccUncorr, 0⟩ else none)

/-- The elements of a contribution that its masks select take their new values (10 R228, R229). -/
def Store.product (st : Store) (form : LeftForm) (hd : Hdr) (e : XEntry) (t : FFmt) (bad : Bool) (v : List Nat) :
    List (Nat × Flags) :=
  let fa := e.fmts.getD 0 BankFmt.zero
  let fb := e.fmts.getD 1 BankFmt.zero
  let cols := (List.range 48).map fun j => if e.x.getLsbD j && !bad then st.rightColumn hd fb e.b j else []
  let rows := (List.range 32).map fun i => if e.y.getLsbD i && !bad then st.leftRow form hd fa e.a i else []
  (v.zip (List.range 1536)).map fun p =>
    let i := p.2 / 48
    let j := p.2 % 48
    if !(e.y.getLsbD i && e.x.getLsbD j) then (p.1, 0)
    else if bad then (t.nan, fNV)
    else addProduct t (groupSize fa.code) p.1 (rows.getD i []) (cols.getD j [])

/-- The form and header of a matrix instruction. -/
def matrixForm : Instr → Option (LeftForm × Hdr)
  | .mxa hd _ _ _ => some (.rows, hd)
  | .mxg hd _ _ _ => some (.gathered, hd)
  | .mxt hd _ _ _ => some (.columns, hd)
  | _ => none

/-- The contribution at the head of a core's queue reads its operands and adds its product into the link; where no
contribution can be applied, a link of the core adds an arrival or advances (11 R246; 10 R227). -/
def State.applyHead (s : State) (core : Nat) : State :=
  match (s.coreOf core).pipe.xq with
    | [] => s.progress core
    | e :: _ => match matrixForm e.instr with
      | none => s.progress core
      | some (form, hd) => match s.headLink core e with
        | .error k => s.discard core e k
        | .ok (c, l) =>
          let t := c.fmt l.idx
          match s.operandState core e (t.w / 8) with
          | none => (s.progress core).push (.contributionApply core)
          | some bad =>
            let r := (s.coreOf core).store.product form hd e t bad.isSome (s.tile core l.slot (t.w / 8))
            let s := s.setTile core l.slot (t.w / 8) (r.map Prod.fst)
            let fl := if bad.isSome then l.flags ||| fNV else r.foldl (fun f x => f ||| x.2) l.flags
            let s := s.setChain (c.setLink { l with applied := l.applied + 1, flags := fl })
            let f := match bad with
              | some b => let q := s.xFault core e b; (q.1, some q.2)
              | none => (s, none)
            (f.1.dequeue core).xPost core e [] f.2

/-- R246: one step of the matrix unit, which goes on while a link of its core has something to do. -/
def execContributionApply (core : Nat) (s : State) : Out := .next ((s.applyHead core).wake core)

/-! ### Starting values and snapshots (11 R254, R255) -/

/-- A tile lies in its space, aligned to its elements (11 R254). -/
def tileFits (ix off w : Nat) : Bool := decide (off % w = 0) && decide (off + 1536 * w ≤ spaceLen (ix % 2))

/-- A starting value may still be given to a link (11 R254). -/
def Chain.mayStart (c : Chain) (l : Link) : Bool :=
  if c.isZero l then decide (l.issued = 1) else decide (l.issued = 0)

/-- R254. -/
def execLkld (hd : Hdr) (k : BitVec 4) (a : BitVec 6) (s : State) : Out :=
  s.xSlot hd { s := [a], w := [bits hd.c 11 8] } fun s =>
    match s.xLink k with
    | none => s.illegal
    | some (c, l) =>
      if !c.mayStart l then s.illegal
      else if !tileFits (Hdr.transferIx hd) (lo32 (s.s! a)) (c.width l.idx) then
        s.failAt .bufBounds (mkPtr (Hdr.transferIx hd) (lo32 (s.s! a)))
      else match s.queueFull with
        | some t => t
        | none => s.enqueue hd (.lkld hd k a) (s.s! a) 0 0 0 [] [] (s.wiOf (bits hd.c 11 8)) 0 c l

/-- R254. -/
def execLkz (hd : Hdr) (k : BitVec 4) (s : State) : Out :=
  s.xSlot hd {} fun s =>
    match s.xLink k with
    | none => s.illegal
    | some (c, l) =>
      if !c.mayStart l then s.illegal
      else match s.queueFull with
        | some t => t
        | none => s.enqueue hd (.lkz hd k) 0 0 0 0 [] [] [] 0 c l

/-- A queued replacement of a starting value is performed with the elements that it gives; the arrivals that
the link has added are added to it again (10 R228, R241; 11 R254), and a link that has advanced keeps its value
(10 R222). -/
def State.startWith (s : State) (core : Nat) (e : XEntry) (c : Chain) (l : Link) (xs : List Nat)
    (bad : Option XFault) : State :=
  let t := c.fmt l.idx
  let s := if l.state ≠ 1 then s else
    (s.setTile core l.slot (t.w / 8) xs).setChain (c.setLink { l with arrived := 0, flags := 0 })
  let f := match bad with
    | some b => let q := s.xFault core e b; (q.1, some q.2)
    | none => (s, none)
  ((f.1.dequeue core).xPost core e [] f.2).settle c.job c.ch c.inst l.idx

/-- R254: a queued LKLD; a read that fails makes every element the canonical NaN. -/
def execStartingValueLoad (core : Nat) (s : State) : Out :=
  .next (match (s.coreOf core).pipe.xq with
    | e :: _ => (match e.instr with
      | .lkld hd _ _ => (match s.headLink core e with
        | .error k => s.discard core e k
        | .ok (c, l) =>
          let t := c.fmt l.idx
          match s.operandState core e (t.w / 8) with
          | none => s.push (.startingValueLoad core)
          | some bad =>
            let st := (s.coreOf core).store
            let xs := if bad.isSome then List.replicate 1536 t.nan
              else (List.range 1536).map fun i => st.read (Hdr.transferIx hd) (lo32 e.a + t.w / 8 * i) (t.w / 8)
            s.startWith core e c l xs bad)
      | _ => s)
    | [] => s)

/-- R254: a queued LKZ. -/
def execStartingValueZero (core : Nat) (s : State) : Out :=
  .next (match (s.coreOf core).pipe.xq with
    | e :: _ => (match e.instr with
      | .lkz .. => (match s.headLink core e with
        | .error k => s.discard core e k
        | .ok (c, l) => s.startWith core e c l (List.replicate 1536 0) none)
      | _ => s)
    | [] => s)

/-- R255. -/
def execLkrd (hd : Hdr) (d : BitVec 6) (k : BitVec 4) (a : BitVec 6) (s : State) : Out :=
  s.xSlot hd { s := [a], ds := [d] } fun s =>
    match s.xLink k with
    | none => s.illegal
    | some (c, l) =>
      if !tileFits (Hdr.transferIx hd) (lo32 (s.s! a)) (c.width l.idx) then
        s.failAt .bufBounds (mkPtr (Hdr.transferIx hd) (lo32 (s.s! a)))
      else match s.queueFull with
        | some t => t
        | none => s.enqueue hd (.lkrd hd d k a) (s.s! a) (BitVec.ofNat 64 (s.sDst d)) 0 0 [] (s.dstS d) [] 0 c l

/-- Writes elements of w bytes through a view of a scratchpad. -/
def Store.writeElems (st : Store) (ix w : Nat) (xs : List (Nat × Nat)) : Store :=
  xs.foldl (fun st x => st.write ix x.1 w x.2) st

/-- Writes elements of w bytes through a view of a core's scratchpad, which forms a new check value for every
line that they cover whole (15 R333). -/
def Store.writeTile (st : Store) (core ix w : Nat) (xs : List (Nat × Nat)) : Store :=
  let t := st.writeElems ix w xs
  if st.bad = [] then t else t.heal core ix (xs.map fun x => (x.1, w))

/-- R255, 10 R234, R236: a queued LKRD writes its snapshot and the step count. -/
def execLinkSnapshot (core : Nat) (s : State) : Out :=
  .next (match (s.coreOf core).pipe.xq with
    | e :: _ => (match e.instr with
      | .lkrd hd _ _ _ => (match s.entryChain (s.coreOf core).cont.job e with
        | none => s.discard core e .cancel
        | some c => match c.link? e.idx with
          | none => s.discard core e .cancel
          | some l =>
            if l.state = 6 then s.discard core e .cancel else
            let t := c.fmt e.idx
            let lost := e.stale core l || decide (l.state = 4 ∨ l.state = 5)
            let xs := if lost then List.replicate 1536 t.nan else s.tile core l.slot (t.w / 8)
            let final := if hopSucc (c.hop l.idx) = 0x7F then c.complete l else decide (l.state = 2 ∨ l.state = 3)
            let v := if lost then 0xFFFFFFFF else l.applied + l.arrived + (if final then 2 ^ 32 else 0)
            let q := s.coreOf core
            let ws := ((List.range 1536).zip xs).map fun p => (lo32 e.a + t.w / 8 * p.1, p.2)
            let s := s.setCore { q with store := q.store.writeTile core (Hdr.transferIx hd) (t.w / 8) ws }
            (s.dequeue core).xPost core e [.s e.b.toNat (BitVec.ofNat 64 v)] none)
      | _ => s)
    | [] => s)

/-! ### Close (10 R231, 11 R257) -/

/-- The bytes of a close's destination (11 R257). -/
def closeBytes (sp code : Nat) : Nat :=
  if isLb code then (if sp = 0 then 32 * 3 else 48 * 2) * lbSize code else 1536 * (elemWidth code / 8)

/-- The issue checks of a close on its offsets and ranges (11 R257). -/
def closeFits (hd : Hdr) (f : BankFmt) (a b : Word) : Bool :=
  let sp := Hdr.closeIx hd % 2
  decide (lo32 a % fmtAlign f.code = 0) && decide (lo32 a + closeBytes sp f.code ≤ spaceLen sp) &&
    (!Hdr.rs hd || (decide (lo32 b % 4 = 0) && decide (lo32 b + 128 ≤ 0x40000))) &&
    (!Hdr.cs hd || (decide (hi32 b % 4 = 0) && decide (hi32 b + 192 ≤ 0x40000)))

/-- The pointer of the first range of a close that fails: the destination, the row scales, the column scales. -/
def closeBad (hd : Hdr) (f : BankFmt) (a b : Word) : Word :=
  let ix := Hdr.closeIx hd
  if lo32 a % fmtAlign f.code ≠ 0 ∨ spaceLen (ix % 2) < lo32 a + closeBytes (ix % 2) f.code then mkPtr ix (lo32 a)
  else if Hdr.rs hd ∧ (lo32 b % 4 ≠ 0 ∨ 0x40000 < lo32 b + 128) then mkPtr 0xFFF0 (lo32 b)
  else mkPtr 0xFFF0 (hi32 b)

/-- The store agent of the close unit of a core's cluster (12 R261). -/
def closeAgent (core : Nat) : Nat := 1216 + core / 24

/-- R257: the tail's close is queued and gives its witness. -/
def execChc (hd : Hdr) (k : BitVec 4) (a b : BitVec 6) (s : State) : Out :=
  .next (
    if !s.room? (Hdr.tok hd) then s.stall
    else if !s.pOn hd then (s.postOnce? (Hdr.tok hd)).emptyWit (Hdr.wo hd)
    else match s.blocked { s := [a, b], dw := [Hdr.wo hd] } with
    | some t => t
    | none =>
      match s.xLink k with
      | none => s.illegal
      | some (c, l) =>
        if hopSucc (c.hop l.idx) ≠ 0x7F then s.illegal else
        let ix := Hdr.closeIx hd
        let va := s.s! a
        let vb := s.s! b
        let f0 := s.core.regs.fmtAt ix (lo32 va)
        let n := closeBytes (ix % 2) f0.code
        let f := if spaceLen (ix % 2) ≤ lo32 va then some f0
          else s.core.regs.tileFmt true ix (lo32 va) (cut (ix % 2) (lo32 va) n)
        match f with
        | none => s.illegal
        | some f =>
          if !closeFits hd f va vb then s.failAt .bufBounds (closeBad hd f va vb)
          else match s.queueFull with
            | some t => t
            | none =>
              let ag := closeAgent s.core.id
              if !s.roomFor ag then s.stall else
              let r := s.number ag
              let s := r.1.giveWit (Hdr.wo hd) (r.1.storeEntry (Hdr.sc hd) ag r.2)
              let s := s.owe s.core.cont.recPa (ag, r.2)
              let s := s.setCont { s.core.cont with wsc := max s.core.cont.wsc (Hdr.sc hd) }
              s.enqueue hd (.chc hd k a b) va vb (s.core.xVal (Hdr.xs hd)) (s.core.yVal (Hdr.ys hd)) [f] []
                (entriesOf s.core.regs.view) r.2 c l)

/-- Rounds an exact value to a format code that is no LB format, by the cell of R42 for a FP64 source
(10 R231). -/
def roundTo (code : Nat) (v : FVal) : Nat × Flags :=
  if isIntFmt code then
    let r := v.toInt code false false
    (wrapInt (intWidth code) r.1, r.2)
  else (ffmt code).round false v

/-- The scaled value of an element of the tail (10 R231). -/
def scaledElem (t : FFmt) (v rs cs : Nat) : FVal × Flags :=
  let a := FVal.mul (t.decode v) (F32.decode rs)
  let b := FVal.mul a.1 (F32.decode cs)
  (b.1, a.2 ||| b.2 ||| snan [t.decode v])

/-- The writes of a close in a plain format: (offset, bits, flags) of each selected element (11 R257). -/
def closePlain (sp code base : Nat) (sel : Nat → Nat → Bool) (v : Nat → Nat → FVal × Flags) : List (Nat × Nat × Flags) :=
  let w := elemWidth code / 8
  (List.range 1536).filterMap fun i =>
    let row := i / 48
    let col := i % 48
    if sel row col then
      let x := v row col
      let r := roundTo code x.1
      some (base + w * (if sp = 0 then 48 * row + col else 32 * col + row), r.1, x.2 ||| r.2)
    else none

/-- The writes of a close in an LB format: blocks along 16 columns in A-space, 16 rows in W-space. -/
def closeLb (sp : Nat) (f : BankFmt) (base : Nat) (sel : Nat → Nat → Bool) (v : Nat → Nat → FVal × Flags) :
    List (Nat × Nat × Flags) :=
  (List.range 96).filterMap fun blk =>
    let at' (i : Nat) : Nat × Nat := if sp = 0 then (blk / 3, blk % 3 * 16 + i) else (blk % 2 * 16 + i, blk / 2)
    let es := (List.range 16).map at'
    if es.any fun e => sel e.1 e.2 then
      let xs := es.map fun e => if sel e.1 e.2 then v e.1 e.2 else (.fin false 0 0, 0)
      let q := quantise (lbBits f.code) f.table (xs.map Prod.fst)
      some (base + lbSize f.code * blk, q.1, xs.foldl (fun fl x => fl ||| x.2) q.2)
    else none

/-- Everything that a close writes, given its tile. -/
def XEntry.closeWrites (e : XEntry) (hd : Hdr) (st : Store) (t : FFmt) (bad : Bool) (tile : List Nat) :
    List (Nat × Nat × Flags) :=
  let f := e.fmts.getD 0 BankFmt.zero
  let sp := Hdr.closeIx hd % 2
  let one := 0x3F800000
  let rs := (List.range 32).map fun i => if Hdr.rs hd then st.read 0xFFF0 (lo32 e.b + 4 * i) 4 else one
  let cs := (List.range 48).map fun i => if Hdr.cs hd then st.read 0xFFF0 (hi32 e.b + 4 * i) 4 else one
  let sel (row col : Nat) : Bool := e.y.getLsbD row && e.x.getLsbD col
  let tv := tile.toArray
  let v (row col : Nat) : FVal × Flags :=
    if bad then (.nan false, 0) else scaledElem t (tv.getD (48 * row + col) 0) (rs.getD row one) (cs.getD col one)
  if isLb f.code then closeLb sp f (lo32 e.a) sel v else closePlain sp f.code (lo32 e.a) sel v

/-- The chain has closed: every link retires as the close reaches its core (10 R231). -/
def State.closeChain (s : State) (c : Chain) : State :=
  (s.tellChain c (.chainCancelMessage { c.msg 0 with apos := 1 })).retireLinks c 2

/-- What a close meets when it observes the view and reads its scales: a wait, a failed scale read, or nothing;
with no scales named nothing fails (11 R249, R257; log 48). -/
def State.closeState (s : State) (core : Nat) (e : XEntry) (hd : Hdr) (w : Nat) : Option (Option XFault) :=
  (s.operandState core e w).map fun b => if Hdr.rs hd || Hdr.cs hd then b else none

/-- R257: a close that may run writes the scaled, rounded tile, and every link of the instance retires. Its entry
ripens with those of the view that it observed (12 R266); a CHC whose slot a splice has released is discarded
(10 R236, R238). -/
def execChainClose (core : Nat) (s : State) : Out :=
  .next (match (s.coreOf core).pipe.xq with
    | e :: _ => (match e.instr with
      | .chc hd _ _ _ => (match s.entryChain (s.coreOf core).cont.job e with
        | none => (s.storeFailed (closeAgent core) e.seq).discard core e .cancel
        | some c => match c.link? e.idx with
          | none => (s.storeFailed (closeAgent core) e.seq).discard core e .cancel
          | some l =>
            if l.state = 6 ∨ e.stale core l then (s.storeFailed (closeAgent core) e.seq).discard core e .cancel
            else if c.state ≠ 0 ∨ l.state ≠ 1 ∨ !c.complete l then s.push (.chainClose core) else
            let t := c.fmt l.idx
            match s.closeState core e hd (t.w / 8) with
            | none => s.push (.chainClose core)
            | some bad =>
            let ws := e.closeWrites hd (s.coreOf core).store t bad.isSome (s.tile core l.slot (t.w / 8))
            let f := e.fmts.getD 0 BankFmt.zero
            let w := if isLb f.code then lbSize f.code else elemWidth f.code / 8
            let q := s.coreOf core
            let s := s.setCore { q with store := q.store.writeTile core (Hdr.closeIx hd) w (ws.map fun x => (x.1, x.2.1)) }
            let l := { l with flags := ws.foldl (fun fl x => fl ||| x.2.2) l.flags }
            let c := c.setLink l
            let s := (s.setChain c).closeChain c
            let ag := closeAgent core
            match bad with
            | some b =>
              let r := (s.storeFailed ag e.seq).xFault core e b
              (r.1.dequeue core).xPost core e [] (some r.2)
            | none => ((s.push (.entryRipens ⟨s.devnum, ag, e.seq, ag, [], e.wi, none, Hdr.sc hd, 0, e.id⟩)).dequeue
                core).xPost core e [] none)
      | _ => s)
    | [] => s)

end Sys2Proof.Machine
end

