-- ==== Sys2Proof/Machine/ChainInstr.lean ====
section
/-!
DEFINITION. The immediate X-unit instructions: opening, splicing, querying, freezing, thawing and
cancelling chains, and edge masks (10 R222 to R240; 11 R251 to R259).
-/
namespace Sys2Proof.Machine

/-! ### Edge masks (11 R251) -/

/-- Writes an edge mask for the bundles after this one; one to register 0 is discarded (05 R96). -/
def State.edgeMask (s : State) (y : BitVec 1) (n : BitVec 2) (m : Word) : State :=
  if n = 0 then s
  else if y = 1 then s.later (.edgeY n.toNat (m.setWidth 32)) else s.later (.edgeX n.toNat (m.setWidth 48))

/-- R251. -/
def execEms (hd : Hdr) (y : BitVec 1) (n : BitVec 2) (a : BitVec 6) (s : State) : Out :=
  s.guarded hd { s := [a] } fun s => s.edgeMask y n (s.s! a)
/-- R251. -/
def execEmsN (hd : Hdr) (y : BitVec 1) (n : BitVec 2) (c : BitVec 6) (s : State) : Out :=
  s.guarded hd {} fun s => s.edgeMask y n (BitVec.ofNat 64 (2 ^ c.toNat - 1))

/-! ### Hop tables (10 R223, R224) -/

/-- CH of a binding slot (11 R244). -/
def Hdr.ch (hd : Hdr) : BitVec 10 := BitVec.ofNat 10 (bits hd.c 19 10)
/-- J of a binding slot. -/
def Hdr.j (hd : Hdr) : Nat := bits hd.c 9 4

/-- INST of a table's header. -/
def tableInst (t : List Word) : BitVec 16 := (t.getD 0 0).extractLsb' 48 16

/-- The instance that a table describes, with no link bound. -/
def newChain (job : Nat) (ch : BitVec 10) (t : List Word) : Chain :=
  let img := t.flatMap fun w => toLe 8 w.toNat
  ⟨job, ch, tableInst t, BitVec.ofNat 64 (leNat ((sha512 img).take 8)), t, 0, [], [], [], []⟩

/-- Following SUCC from a link reaches the tail in at most `fuel` steps. -/
def Chain.reaches (c : Chain) : Nat → Nat → Bool
  | 0, _ => false
  | n + 1, j => decide (hopSucc (c.hop j) = 0x7F) || c.reaches n (hopSucc (c.hop j))

/-- A hop table is well formed (10 R223). -/
def Chain.wellFormed (c : Chain) : Bool :=
  let n := c.nlink
  let ls := List.range n
  let h := (c.table.getD 0 0).toNat
  decide (1 ≤ n ∧ n ≤ 64) && decide (bits h 47 8 = 0) &&
    (ls.all fun j => decide (bits (c.hop j).toNat 39 32 = 0)) &&
    decide ((ls.filter fun j => decide (hopSucc (c.hop j) = 0x7F)).length = 1) &&
    (ls.all fun j => decide (hopSucc (c.hop j) = 0x7F) || decide (hopSucc (c.hop j) < n)) &&
    (ls.all fun j => c.reaches n j) &&
    ls.all fun j =>
      let ps := ls.filter fun i => decide (hopSucc (c.hop i) = j)
      decide (ps.length ≤ 4) && (List.range ps.length).all fun p =>
        decide ((ps.filter fun i => decide (hopApos (c.hop i) = p)).length = 1)

/-- A slot, or for FP64 an even slot and the next, is free (10 R224 check 4). -/
def State.slotFree (s : State) (k : Nat) (f64 : Bool) : Bool :=
  (s.openLink s.core.id k).isNone && (!f64 || (decide (k % 2 = 0) && (s.openLink s.core.id (k + 1)).isNone))

/-- Checks 1 to 4 of 10 R224 on the table of CHB or CHS, read through the view while the bundle stalls:
the instance that it describes, or the state in which the bundle stalls or traps. A CHS whose splice has been
answered has its slot. -/
def State.hopTable (s : State) (hd : Hdr) (k : BitVec 4) (a : BitVec 6) : State ⊕ (State × Chain) :=
  let p := s.s! a
  match s.syncRead needR 8 p 8 0 with
  | .stall t => .inl t
  | .fail t c l v => .inl (t.failXl c v l)
  | .ok s h =>
    let n := 8 + 8 * bits h 7 0
    match s.syncRead needR 8 p n 1 with
    | .stall t => .inl t
    | .fail t c l v => .inl (t.failXl c v l)
    | .ok s x =>
      let c := newChain s.core.cont.job (Hdr.ch hd) (wordsOf x n)
      if !c.wellFormed ∨ c.nlink ≤ Hdr.j hd then .inl s.illegal
      else if hopDev (c.hop (Hdr.j hd)) ≠ s.devnum.toNat then .inl s.illegal
      else if s.replied (s.replyKey 2) = none ∧ !s.slotFree k.toNat (hop64 (c.hop (Hdr.j hd))) then .inl s.illegal
      else .inr (s, c)

/-! ### CHB (10 R224, R225; 11 R252) -/

/-- The chain number and INST of a message of an instance. -/
def eventChain : Event → Option (BitVec 10 × BitVec 16)
  | .announcement m => some (m.ch, m.inst)
  | .hopArrival m => some (m.ch, m.inst)
  | .acknowledgement m => some (m.ch, m.inst)
  | .chainFreezeMessage m => some (m.ch, m.inst)
  | .chainCancelMessage m => some (m.ch, m.inst)
  | .arbiterRequest r => some (r.ch, r.inst)
  | _ => none

/-- The messages held for an index that is now bound, and those held for an instance now known, act in the
order in which they came: an instance that has frozen since is FROZEN from its first link on (10 R225, R236). -/
def State.releaseHeld (s : State) (c : Chain) (j : Nat) : State :=
  let mine (e : Event) : Bool := decide (eventChain e = some (c.ch, c.inst))
  let port := s.units.hopPort.filter mine
  let held := c.held.filter fun e => match e with | .hopArrival m => decide (m.target = j) | _ => true
  let s := s.setChain { c with held := c.held.filter fun e => !held.contains e }
  let s := { s with units := { s.units with hopPort := s.units.hopPort.filter fun e => !mine e } }
  (port ++ held).foldl State.chainEvent s

/-- Opens link j of an instance in a slot of the focused core. -/
def State.openSlot (s : State) (c : Chain) (j k : Nat) : State :=
  let k' := s.core.cont
  let t := c.fmt j
  let s := s.setTile s.core.id k (t.w / 8) (minusZero t)
  let c := c.setLink ⟨j, 1, s.core.id, k, k'.recPa, true, 0, 0, 0, false, false, 0, 0, k'.cycles, [], 0⟩
  ((((s.setChain c).raiseOpenk).setCurrent c).announce c j).releaseHeld c j

/-- R252, 10 R224, R225. A second binding of an index, or a binding with another digest, freezes the
instance and opens no slot; an object whose MOLC is 0 opens no link (01 R19). Where the instance named is CLOSED or
CANCELLED, of which 10 R240 says only that a new INST reopens the chain, the binding begins a fresh one, which is the
model's choice (log 29). -/
def execChb (hd : Hdr) (k : BitVec 4) (a : BitVec 6) (s : State) : Out :=
  s.guarded hd { s := [a] } fun s =>
    if s.core.cont.handler ∨ s.core.cont.obj.molc = 0 then s.illegal else
    match s.hopTable hd k a with
    | .inl t => t
    | .inr (s, n) =>
      let other : Bool := s.units.chains.any fun c => decide (c.job = n.job ∧ c.ch = n.ch ∧ c.inst ≠ n.inst) &&
        c.links.any fun l => l.isOpen && decide (l.core = s.core.id)
      if other then s.illegal else
      match s.chain? n.job n.ch n.inst with
      | none => s.openSlot n (Hdr.j hd) k.toNat
      | some c =>
        if 2 ≤ c.state then s.openSlot n (Hdr.j hd) k.toNat
        else if c.digest ≠ n.digest ∨ (c.link? (Hdr.j hd)).isSome then
          (s.setCurrent c).freezeIf c .chainFrozen s.core.cont.recPtr s.core.id
        else s.openSlot c (Hdr.j hd) k.toNat

/-- The end of a bundle counts for the links of its core that receive nothing; they advance with the
bundle after their CHB (11 R252). -/
def State.countLinks (s : State) (core : Nat) : State :=
  s.units.chains.foldl (fun s c =>
    (c.links.filter fun l => l.isOpen && decide (l.core = core ∧ l.issued < 2) && c.isZero l).foldl (fun s l =>
      match s.chain? c.job c.ch c.inst with
      | some c => (s.setChain (c.setLink { l with issued := l.issued + 1 })).settle c.job c.ch c.inst l.idx
      | none => s) s) s

/-! ### Requests to the arbiter (11 R242) -/

/-- The current instance of a chain number on the focused core (11 R252). -/
def State.current (s : State) (ch : BitVec 10) : Option Chain :=
  match s.core.pipe.cur.find? fun p => decide (p.1 = ch) with
  | some p => s.chain? s.core.cont.job p.1 p.2
  | none => none

/-- How a request to the arbiter stands: the bundle stalls for the reply, the reply has come, or the
arbiter cannot be reached. -/
inductive Asked where
  | stall (s : State)
  | reply (s : State) (w : Nat)
  | lost

/-- Makes a request of the slot to the arbiter of an instance, once, and takes its reply. -/
def State.ask (s : State) (c : Chain) (kind : ArbKind) (j : Nat) : Asked :=
  let key := s.replyKey 2
  let r : ArbReq := ⟨c.job, c.ch, c.inst, c.digest, kind, j, s.core.id, key, s.devnum, none⟩
  if c.arbDev = s.devnum then let t := s.arbitrate c r; .reply t.1 t.2
  else match s.replied key with
    | none => .stall ((s.send c.arbDev (.arbiterRequest r)).awaits key)
    | some none => .stall s.stall
    | some (some (0 :: w)) => .reply s (w.headD 0)
    | some (some _) => .lost

/-- R253, 10 R238: the quick link is opened when the arbiter accepts it; an object whose MOLC is 0 opens no
link (01 R19). -/
def execChs (hd : Hdr) (k : BitVec 4) (a : BitVec 6) (s : State) : Out :=
  s.guarded hd { s := [a] } fun s =>
    if s.core.cont.handler ∨ s.core.cont.obj.molc = 0 then s.illegal else
    match s.hopTable hd k a with
    | .inl t => t
    | .inr (s, n) =>
      match s.chain? n.job n.ch n.inst with
      | none => s.illegal
      | some c =>
        let j := Hdr.j hd
        if c.digest ≠ n.digest ∨ (c.link? j).isNone then s.illegal else
        match s.ask c (.splice s.core.id k.toNat s.core.cont.recPa) j with
        | .stall t => t
        | .lost => s.fail .linkLost (c.ch.setWidth 64) 0
        | .reply s w =>
          if w ≠ 0 then s.illegal else
          -- an arbiter on another device has had its answer act when it came
          let s := if c.arbDev = s.devnum then s.bindSplice c j s.core.id k.toNat s.core.cont.recPa else s
          match s.chain? n.job n.ch n.inst with
          | none => s
          | some c => s.releaseHeld c j

/-- R258, 10 R235: the instance freezes with CHAIN_FROZEN where the arbiter finds it ACTIVE; the arbiter's message
brings the freeze to every device (R242). -/
def execChf (hd : Hdr) (c : BitVec 10) (s : State) : Out :=
  s.guarded hd {} fun s =>
    match s.current c with
    | none => s.illegal
    | some q =>
      let record (s : State) : State := (s.faultRecord q.job ⟨Cause.chainFrozen.code, 0, 3, 0, s.core.id, 0,
        s.core.cont.recPtr, 0, 0, q.ch.toNat, 0, 0, 0⟩).1
      match s.ask q (.freeze .chainFrozen none) 0 with
      | .stall t => t
      | .lost => if q.state = 0 then (record s).freezeHere q else s
      | .reply s w => if w = 0 then record s else s

/-- R258, 10 R240: the instance is cancelled unless it has ended. -/
def execChx (hd : Hdr) (c : BitVec 10) (s : State) : Out :=
  s.guarded hd {} fun s =>
    match s.current c with
    | none => s.illegal
    | some q =>
      match s.ask q .cancel 0 with
      | .stall t => t
      | .lost => (s.cancelHere q).tellChain q (.chainCancelMessage (q.msg 0))
      | .reply s w => if w = 0 then s.cancelHere q else s

/-- R259, 10 R239. -/
def execCht (hd : Hdr) (d : BitVec 6) (c : BitVec 10) (s : State) : Out :=
  s.guarded hd { ds := [d] } fun s =>
    match s.current c with
    | none => s.illegal
    | some q =>
      match s.ask q .thaw 0 with
      | .stall t => t
      | .lost => s.fail .linkLost (q.ch.setWidth 64) 0
      | .reply s w => s.sResult 15 d (BitVec.ofNat 64 w)

/-! ### CHQ (10 R237, 11 R256) -/

/-- The flag word of a chain (10 R230): the union over its links, those of other devices as last announced. -/
def Chain.flags (c : Chain) : Nat :=
  (c.words.filter fun q => (c.link? q.1).isNone).foldl (fun f q => f ||| bits q.2.toNat 47 42)
    (c.links.foldl (fun f l => f ||| l.flags) (0 : Flags)).toNat

/-- The chain query word of a link (10 R237): its own device's, or as last announced to this one (log 10). -/
def Chain.queryWord (c : Chain) (j : Nat) : Nat :=
  let w := match c.link? j with
    | some l => l.word
    | none => c.wordOf j
  c.state * 2 ^ 62 + (if j = c.tail then setBits w 47 42 c.flags else w)

/-- R256. -/
def execChq (hd : Hdr) (d a : BitVec 6) (s : State) : Out :=
  s.guarded hd { s := [a], ds := [d] } fun s =>
    let q := (s.s! a).toNat
    match s.current (BitVec.ofNat 10 q) with
    | none => s.illegal
    | some c =>
      let j := bits q 21 16
      if c.nlink ≤ j then s.illegal else s.sResult 15 d (BitVec.ofNat 64 (c.queryWord j))

end Sys2Proof.Machine
end

