-- ==== Sys2Proof/Machine/Engine.lean ====
section
/-!
DEFINITION. The copy engines: entering commands, copies, reducing copies, publishes and triggers
(08 R183, R184, R188 to R191, R351; 09 R208 to R218).
-/
namespace Sys2Proof.Machine

/-! ### The engines of a die (00 R7; 08 R188) -/

/-- The engine of a number on the die of a core. -/
def engineOf (core n : Nat) : Nat := core / 288 * 16 + n
/-- The agent number of an engine. -/
def engAgent (e : Nat) : Nat := 1152 + e

/-- The command at the head of an engine that no core holds, once those before it have ended. -/
def State.engHead (s : State) (e : Nat) : Option Cmd :=
  if s.units.endings.any fun g => decide (g.eng = e) then none else
  match (s.engine e).holder, (s.engine e).queue with
  | none, c :: _ => some c
  | _, _ => none

/-- The head of an engine's queue stands between two pieces, and is no trigger that has been met (14 R320). -/
def Engine.between (g : Engine) : Bool :=
  !g.asked && decide (g.vals = []) && !(g.queue.head?.any fun c => decide (c.kind = 4) && c.freed)

/-- Replaces the head command, with the values read of its current piece. -/
def State.setHead (s : State) (e : Nat) (c : Cmd) (vals : List Nat) : State :=
  let g := s.engine e
  s.setEngine e { g with queue := c :: g.queue.drop 1, vals := vals, fmt := if vals = [] then none else g.fmt }

/-- The head command leaves its queue and the next one acts. -/
def State.popEngine (s : State) (e : Nat) : State :=
  let g := s.engine e
  (s.setEngine e { g with queue := g.queue.drop 1, vals := [], fmt := none, asked := false, waiting := [] }).pushEngine e

/-- The code of R214 for a failed check. -/
def statusOf : Cause → Nat
  | .bufOwner => 2
  | .bufRights => 3
  | .xlate => 4
  | .eccUncorr => 5
  | .witPoison | .witFuture => 11
  | _ => 1

/-! ### Bytes that an engine reaches -/

/-- Where a byte lies for an engine. -/
inductive EPlace where
  | loc (core ix off : Nat)
  | mem (key : Nat)
  | peer (lease off : Nat)
deriving DecidableEq, Repr

/-- The job of a command and the core that a core-local index names (09 R210). -/
def descCore (c : Cmd) (hi lo : Nat) : Nat :=
  let n := bits (c.desc.getD 5 0).toNat hi lo
  if n = 0x7FF then c.core else n

/-- One byte at an offset of an index, checked by 01 R31 and translated. -/
def State.engByte (s : State) (j : Job) (core need ix off : Nat) : Except EngFail EPlace :=
  let bad (k : Cause) (d : Nat) : Except EngFail EPlace := .error ⟨statusOf k, k, mkPtr ix off, d, 0⟩
  match s.check j 0 need true ix off 1 with
  | .error k => bad k 0
  | .ok (.core _) => .ok (.loc core ix off)
  | .ok (.buf b) =>
    if b.tier = 3 then .ok (.peer b.lease off) else
    match s.pureKey j.tenant.toNat b.tier (b.va off) with
    | .error l => bad .xlate l
    | .ok k => .ok (.mem k)

/-- A byte to read, whose check value must hold (15 R333). -/
def State.engSource (s : State) (j : Job) (core ix off : Nat) : Except EngFail EPlace :=
  match s.engByte j core needR ix off with
  | .ok (.mem k) => if s.poisoned k 1 then .error ⟨5, .eccUncorr, mkPtr ix off, 0, 0⟩ else .ok (.mem k)
  | .ok (.loc c ix o) =>
    if (s.coreOf c).store.badRange c ix o 1 then .error ⟨5, .eccUncorr, mkPtr ix off, 0, 0⟩ else .ok (.loc c ix o)
  | r => r

/-- SHADOW of an index, unless it has none (08 R190). -/
def State.shadowOf (s : State) (j : Job) (ix : Nat) : Except EngFail Nat :=
  match (if 0xFFF0 ≤ ix then none else s.buf? j ix) with
  | some b => if b.shadow = 0xFFFF then .error ⟨8, .illegalOp, mkPtr ix 0, 0, 0⟩ else .ok b.shadow
  | none => .error ⟨8, .illegalOp, mkPtr ix 0, 0, 0⟩

/-- A byte to write: in the buffer, or with the shadow flag in its backing once both have passed (08 R190). -/
def State.engDest (s : State) (j : Job) (core ix off : Nat) (shd : Bool) : Except EngFail EPlace :=
  if !shd then s.engByte j core needW ix off else
  match s.check j 0 needW true ix off 1 with
  | .error k => .error ⟨statusOf k, k, mkPtr ix off, 0, 0⟩
  | .ok _ => match s.shadowOf j ix with
    | .error f => .error f
    | .ok sh => s.engByte j core needW sh off

/-- The places of bytes up to the first that fails, and its failure. -/
def okBytes (f : Nat → Except EngFail EPlace) : Nat → Nat → List EPlace × Option EngFail
  | 0, _ => ([], none)
  | n + 1, i =>
    match f i with
    | .error e => ([], some e)
    | .ok p => let r := okBytes f n (i + 1); (p :: r.1, r.2)

/-- The keys of places in memory as ranges, in order. -/
def memSpans : List EPlace → List (Nat × Nat)
  | [] => []
  | .mem k :: ps => (match memSpans ps with
    | (k', n) :: rs => if k + 1 = k' then (k, n + 1) :: rs else (k, 1) :: (k', n) :: rs
    | [] => [(k, 1)])
  | _ :: ps => memSpans ps

/-- The bytes at places that are not a lender's. -/
def State.getBytes (s : State) : List EPlace → Nat
  | [] => 0
  | .loc c ix o :: ps => (s.coreOf c).store.read ix o 1 + 256 * s.getBytes ps
  | .mem k :: ps => s.rd k 1 + 256 * s.getBytes ps
  | .peer .. :: ps => 256 * s.getBytes ps

/-- The number of a place of memory or of a core's storage, by which overlaps are found. -/
def EPlace.num : EPlace → Option Nat
  | .loc core ix off => ((localRanges core ix off 1).head?).map Prod.fst
  | .mem k => some k
  | .peer .. => none

/-- The bytes at places that are not a lender's, for a command: where it has overwritten a byte itself, that
or the byte as it stood before the command, UNSPECIFIED (09 R211). -/
def State.getSource (s : State) (c : Cmd) : List EPlace → Nat
  | [] => 0
  | p :: ps =>
    (match p.num.bind fun n => (c.was.find? fun b => decide (b.1 = n)) with
      | some b => if pickIn s.tick (3 * 2 ^ 60 + b.1) 2 = 0 then b.2.toNat else s.getBytes [p]
      | none => s.getBytes [p]) + 256 * s.getSource c ps

/-- The places of memory or of a core's storage, as ranges of one byte. -/
def numsOf (ps : List EPlace) : List (Nat × Nat) := ps.filterMap fun p => p.num.map fun n => (n, 1)

/-- Writes bytes at places that are not a lender's, for a store of an entry. -/
def State.putBytes (s : State) (who : Word) (ps : List EPlace) (x : Nat) : State :=
  match ps with
  | .mem _ :: _ => ((s.wrSpans (memSpans ps) x).stamp (memSpans ps) who).dropStale
  | .loc c ix o :: _ =>
    let q := s.coreOf c
    (s.setCore { q with store := (q.store.write ix o ps.length x).heal c ix [(o, ps.length)] }).stamp (numsOf ps) who
  | _ => s

/-- Memory is not ready for n bytes at an offset: a translation must be installed, or a port holds them
(08 R168, R171, R177; 15 R337). -/
def State.engWait (s : State) (j : Job) (ix off n : Nat) : State × Bool :=
  if 0xFFF0 ≤ ix ∨ n = 0 then (s, false) else
  match s.buf? j ix with
  | none => (s, false)
  | some b =>
    if b.tier = 3 then (s, false) else
    match s.pureKeys j.tenant.toNat b.tier (b.pieces off n) with
    | .error _ => (s, false)
    | .ok ks =>
      let w := s.askWalks j.tenant.toNat b.tier (b.pieces off n)
      (w.1, w.2 || s.portHeld b off n ks)

/-- How a read or write of a piece stands. -/
inductive Moved where
  | wait (s : State)
  | fail (s : State) (f : EngFail)
  | ok (s : State) (x : Nat)

/-- Asks a lender once for a read or write of a piece, and takes its answer (08 R175, R176). -/
def State.engPeer (s : State) (e : Nat) (j : Job) (lease : Nat) (kind : PeerKind) (ix off n x : Nat) : Moved :=
  let g := s.engine e
  let p := mkPtr ix off
  match g.waiting with
  | r :: rs =>
    let s := s.setEngine e { g with asked := false, waiting := rs }
    (match r.res with
      | .performed xs => .ok s (xs.headD 0)
      | .refused => .fail s ⟨6, .bufRights, p, 0, 0⟩
      | .failed .linkLost => .fail s ⟨7, .bufRights, p, 0, 0⟩
      | .failed k => .fail s ⟨statusOf k, k, p, 0, 0⟩)
  | [] =>
    if g.asked then .wait s else
    match s.toLender lease j kind [(off, n, x)] (.engine e) none with
    | some s => .wait (s.setEngine e { g with asked := true })
    | none => .fail (s.leaseRefused lease none) ⟨6, .bufRights, p, 0, 0⟩

/-- Reads a piece whose places are known, for a command as its source. -/
def State.engRead (s : State) (e : Nat) (j : Job) (c : Option Cmd) (ix off : Nat) (ps : List EPlace) : Moved :=
  match ps with
  | .peer lease _ :: _ => s.engPeer e j lease .read ix off ps.length 0
  | _ =>
    let w := s.engWait j ix off ps.length
    if w.2 then .wait (w.1.pushEngine e) else .ok w.1 (match c with
      | some c => w.1.getSource c ps
      | none => w.1.getBytes ps)

/-- Writes a piece whose places are known, for a store of an entry. -/
def State.engWrite (s : State) (e : Nat) (j : Job) (who : Word) (ix off : Nat) (ps : List EPlace) (x : Nat) : Moved :=
  match ps with
  | .peer lease _ :: _ => s.engPeer e j lease .write ix off ps.length x
  | _ =>
    let w := s.engWait j ix off ps.length
    if w.2 then .wait (w.1.pushEngine e) else .ok (w.1.putBytes who ps x) 0

/-! ### Ends of commands (09 R213, R214) -/

/-- Word 0x38 of a descriptor (09 R210), or of a run's record with its completed steps (12 R282). -/
def Cmd.status (c : Cmd) (code : Nat) : Nat :=
  if c.kind = 3 then code * 2 ^ 56 + c.row % 256 * 2 ^ 48 else code * 2 ^ 56 + c.flags.toNat * 2 ^ 48 + c.bytes % 2 ^ 48

/-- Posts a token of a command. -/
def State.cmdPost (s : State) (c : Cmd) (post : Option Nat) (f : Option PFault) : State :=
  match post with
  | none => s
  | some _ => s.deliver ⟨c.core, c.recPa, post, [], f⟩

/-- The number of the store whose entry a command gave, 0 for none. -/
def State.cmdStore (s : State) (c : Cmd) : Nat :=
  if entKind c.wo = 0 then 0 else (s.agentOf s.devnum (entAgent c.wo)).numberOf c.wo

/-- The fault record of a failed command (14 R311). -/
def cmdFault (e : Nat) (c : Cmd) (f : EngFail) : FaultInfo :=
  { coreFault f.cause (if c.kind = 3 then 5 else 2) (engAgent e) c.slot c.pc c.recPtr f.addr with
    status := f.code, detail := f.detail, wit := f.wit
    ident := if c.kind = 3 then bits (c.desc.getD 0 0).toNat 63 48 else 0 }

/-- How the write of word 0x38 stands: it waits for a translation, a port or a lender, it fails, or it has
been made. -/
inductive Wrote where
  | wait (s : State)
  | asked (s : State)
  | fail (s : State) (f : EngFail)
  | ok (s : State)

/-- Writes word 0x38 of a command's record, in the issuing core's storage, in memory, or at the lender that
holds it (09 R210; 13 R300; 08 R175). -/
def State.wrStatus (s : State) (g : Ending) (w : Nat) : Wrote :=
  let c := g.cmd
  let p := ptrAdd c.descPtr 0x38
  let ix := ptrIx p
  let bad (s : State) (code : Nat) (k : Cause) (d : Nat) : Wrote := .fail s ⟨code, k, p, d, 0⟩
  match g.answer with
  | some (.performed _) => .ok s
  | some .refused => bad s 6 .bufRights 0
  | some (.failed .linkLost) => bad s (if c.kind = 3 then 0x12 else 7) .bufRights 0
  | some (.failed k) => bad s (statusOf k) k 0
  | none =>
    if g.sent then .asked s
    else if 0xFFF0 ≤ ix then
      let q := s.coreOf c.core
      .ok (s.setCore { q with store := q.store.write ix (ptrOff p) 8 w })
    else match s.job? c.job with
    | none => .ok s
    | some j => match s.check j 0 needW true ix (ptrOff p) 8 with
      | .error k => bad s (statusOf k) k 0
      | .ok (.core _) => .ok s
      | .ok (.buf b) =>
        if b.tier = 3 then
          (match s.toLender b.lease j .write [(ptrOff p, 8, w)] (.ending g.eng c.id) none with
            | some s => .asked s
            | none => bad (s.leaseRefused b.lease none) 6 .bufRights 0)
        else match s.pureKeys j.tenant.toNat b.tier (b.pieces (ptrOff p) 8) with
          | .error l => bad s 4 .xlate l
          | .ok ks =>
            let t := s.engWait j ix (ptrOff p) 8
            if t.2 then .wait t.1 else .ok (t.1.wrSpans ks w).dropStale

/-- What a failed command comes to once its word 0x38 has been written: a fault record, its tokens with the
fault, its entry poisoned (09 R213, 13 R300). -/
def State.failEffects (s : State) (e : Nat) (c : Cmd) (f : EngFail) : State :=
  let r := s.faultRecord c.job (cmdFault e c f)
  let s := r.1
  let n := s.cmdStore c
  let s := if n = 0 then s else s.storeFailed (entAgent c.wo) n
  let pf : PFault := ⟨f.cause, r.2⟩
  let s := if c.freed then s else s.cmdPost c c.tsfPost (some pf)
  s.cmdPost c c.tokPost (some pf)

/-- What a delivered command comes to once its word 0x38 has been written: its entry ripens and its token
posts (09 R213). -/
def State.doneEffects (s : State) (c : Cmd) : State :=
  let n := s.cmdStore c
  let s := if n = 0 then s else s.visible (entAgent c.wo) n
  s.cmdPost c c.tokPost none

/-- The rest of a command's end once its word 0x38 has been written or cannot be: a delivered command whose
word fails has failed, and a lender's refusal or failure has a fault record of its own (08 R175). -/
def State.endEffects (s : State) (g : Ending) (h : Option EngFail) : State :=
  match g.fail, h with
  | none, none => s.doneEffects g.cmd
  | none, some h => s.failEffects g.eng g.cmd h
  | some f, none => s.failEffects g.eng g.cmd f
  | some f, some h => (s.faultRecord g.cmd.job (cmdFault g.eng g.cmd h)).1.failEffects g.eng g.cmd f

/-- A command ends, now or once its word 0x38 has been written; while one of an engine's waits for that, the
next command of the engine does not act (09 R211). -/
def State.endCommand (s : State) (g : Ending) : State :=
  let keep (s : State) (g : Ending) : State :=
    { s with units := { s.units with endings := s.units.endings ++ [g] } }
  match (match g.word with | none => Wrote.ok s | some w => s.wrStatus g w) with
  | .ok s => s.endEffects g none
  | .fail s h => s.endEffects g (some h)
  | .asked s => keep s { g with sent := true }
  | .wait s => (keep s g).push (.delivered g.eng)

/-- A command that ends with DONE. -/
def Cmd.done (c : Cmd) (e : Nat) : Ending := ⟨e, c, if c.kind ≤ 3 then some (c.status 0) else none, none, false, none⟩
/-- A command that ends with a failure. -/
def Cmd.failing (c : Cmd) (e : Nat) (f : EngFail) : Ending :=
  ⟨e, c, if c.kind ≤ 3 then some (c.status f.code) else none, some f, false, none⟩

/-- A command leaves its queue from where it stands. -/
def State.removeCmd (s : State) (e id : Nat) : State :=
  let g := s.engine e
  match g.queue with
  | c :: _ => if c.id = id then s.popEngine e
    else s.setEngine e { g with queue := g.queue.filter fun c => !decide (c.id = id) }
  | [] => s

/-- A command that waits for its word 0x38 tries to end again. -/
def State.endRest (s : State) (g : Ending) : State :=
  ({ s with units := { s.units with endings := s.units.endings.filter fun q => !decide (q = g) } } : State).endCommand g

/-- The head command fails; the commands behind it proceed (09 R213). -/
def State.failCmd (s : State) (e : Nat) (c : Cmd) (f : EngFail) : State := (s.endCommand (c.failing e f)).popEngine e

/-- R213, R216: the destination has accepted every byte: word 0x38, the token and the witness; and the end of
a command that waited for its word. -/
def execDelivered (eng : Nat) (s : State) : Out :=
  .next (match s.units.endings.find? fun g => decide (g.eng = eng) && (!g.sent || g.answer.isSome) with
    | some g => (s.endRest g).pushEngine eng
    | none => match s.engHead eng with
      | some c => if c.written then (s.endCommand (c.done eng)).popEngine eng else s
      | none => s)

/-- R189, R213: the last source byte has been read. -/
def execSourceFree (eng : Nat) (s : State) : Out :=
  .next (match s.engHead eng with
    | some c =>
      if c.freed then s else
      ((s.cmdPost c c.tsfPost none).setHead eng { c with freed := true } (s.engine eng).vals).pushEngine eng
    | none => s)

/-! ### Conversion by the bank format (08 R184, R351) -/

/-- The format register of the bank of a destination byte, on its own core (08 R351). -/
def State.destFmt (s : State) (core ix off : Nat) : Option BankFmt :=
  if 0xFFF0 ≤ ix then some ((s.coreOf core).regs.fmtAt ix off) else none

/-- The source bytes of a converted group, and the destination bytes that it makes. -/
def BankFmt.groupIn (f : BankFmt) : Nat :=
  if isLb f.ifmt then lbSize f.ifmt else if isLb f.code then 16 * (elemWidth f.ifmt / 8) else elemWidth f.ifmt / 8
def BankFmt.groupOut (f : BankFmt) : Nat :=
  if isLb f.code then lbSize f.code
  else if isLb f.ifmt then 16 * (elemWidth f.code / 8) else elemWidth f.code / 8

/-- Elements of w bytes as one number. -/
def packElems (w : Nat) : List Nat → Nat
  | [] => 0
  | x :: xs => x % 256 ^ w + 256 ^ w * packElems w xs

/-- One group converted from IFMT to FMT, with its flags (08 R184; 02 R41, R44, R45). -/
def BankFmt.convert (f : BankFmt) (x : Nat) : Nat × Flags :=
  if f.ifmt = f.code ∧ !isLb f.ifmt then (x, 0) else
  let src : List Nat := if isLb f.ifmt then lbDecode (lbBits f.ifmt) x
    else (List.range 16).map fun i => fld x (elemWidth f.ifmt / 8 * i) (elemWidth f.ifmt / 8)
  let code := if isLb f.ifmt then 0 else f.ifmt
  if isLb f.code then quantise (lbBits f.code) f.table (src.map (srcVal code false))
  else
    let ys := (if isLb f.ifmt then src else src.take 1).map (Machine.convert code f.code false false false)
    (packElems (elemWidth f.code / 8) (ys.map Prod.fst), ys.foldl (fun fl y => fl ||| y.2) 0)

/-- A row of n source bytes into a bank under CVT holds whole elements, and whole groups of 16 for an LB
format (08 R184). -/
def BankFmt.rowFits (f : BankFmt) (n : Nat) : Bool := decide (n % f.groupIn = 0)

/-! ### CPYR (09 R212) -/

/-- Op(old, src) of 09 R212 for an element. -/
def reduceOp (op fmt old src : Nat) : Nat × Flags :=
  let w := elemWidth fmt
  if isIntFmt fmt then
    (match op with
      | 0 => (old + src) % 2 ^ w
      | 1 => if sint w old < sint w src then src else old
      | _ => if sint w src < sint w old then src else old, 0)
  else
    let t := ffmt fmt
    match op with
    | 0 => t.add false old src
    | 1 => t.minmax false false true old src
    | 2 => t.minmax false false false old src
    | 3 => t.minmax false true true old src
    | _ => t.minmax false true false old src

/-- Combines the elements of a piece of n bytes. -/
def reducePiece (op fmt n old src : Nat) : Nat × Flags :=
  let w := elemWidth fmt / 8
  let ys := (List.range (n / w)).map fun i => reduceOp op fmt (fld old (w * i) w) (fld src (w * i) w)
  (packElems w (ys.map Prod.fst), ys.foldl (fun fl y => fl ||| y.2) 0)

/-! ### Copies (09 R211, R212) -/

/-- A word of a command's descriptor. -/
def Cmd.w (c : Cmd) (i : Nat) : Nat := (c.desc.getD i 0).toNat
/-- ROWLEN. -/
def Cmd.rowlen (c : Cmd) : Nat := bits (c.w 2) 63 32
/-- ROWS. -/
def Cmd.rows (c : Cmd) : Nat := bits (c.w 2) 31 0
/-- SHD. -/
def Cmd.shd (c : Cmd) : Bool := decide (bits (c.w 5) 33 33 = 1)
/-- SRD. -/
def Cmd.srd (c : Cmd) : Bool := decide (bits (c.w 5) 32 32 = 1)
/-- The source offset of the current row. -/
def Cmd.srcRow (c : Cmd) : Nat := (((c.w 0 % 2 ^ 48 : Nat) : Int) + c.row * sint 64 (c.w 3)) % 2 ^ 48 |>.toNat
/-- The destination offset of the current row. -/
def Cmd.dstRow (c : Cmd) : Nat := (((c.w 1 % 2 ^ 48 : Nat) : Int) + c.row * sint 64 (c.w 4)) % 2 ^ 48 |>.toNat

/-- The bytes of an element that a command moves unconverted. -/
def Cmd.unit (c : Cmd) : Nat := if c.kind = 2 then elemWidth (bits (c.w 5) 37 34) / 8 else 1

/-- Some byte of a list of places is a byte of another. -/
def sharePlace (ps qs : List EPlace) : Bool :=
  ps.any fun p => p.num.isSome && qs.any fun q => decide (q.num = p.num)

/-- The piece that the head command moves next under a bank format: its source bytes, the bytes that they
become, and the conversion of the first so many of them; or the failure of a row that no conversion fits. A
raw piece ends with its 64-byte destination segment, and is one element where it would overlap its source. -/
def Cmd.piece (c : Cmd) (f : BankFmt) (shared : Nat → Bool) :
    Except EngFail (Nat × (Nat → Nat → Nat → Nat × Nat × Flags)) :=
  let dx := bits (c.w 1) 63 48
  let d := c.dstRow + c.dcol
  let n : Nat := min (c.rowlen - c.col) (64 - d % 64)
  let raw := if shared n then c.unit else n
  if f.cvt then
    if c.kind = 2 ∨ !f.rowFits (if c.col = 0 then c.rowlen else c.rowlen - c.col)
      then .error ⟨9, .illegalOp, mkPtr dx d, 0, 0⟩
    else .ok (f.groupIn, fun _ x _ => let y := f.convert x; (f.groupOut, y.1, y.2))
  else if c.kind = 2 then
    .ok (raw, fun k x old =>
      let y := reducePiece (bits (c.w 5) 41 38) (bits (c.w 5) 37 34) k old x
      (k, y.1, y.2))
  else .ok (raw, fun k x _ => (k, x, 0))

/-- Notes the bytes at places that a command overwrites, as they stood before it. -/
def State.keepWas (s : State) (c : Cmd) (ps : List EPlace) : Cmd :=
  { c with was := ps.foldl (fun was p => match p.num with
      | some n => if was.any fun b => decide (b.1 = n) then was else (n, BitVec.ofNat 8 (s.getBytes [p])) :: was
      | none => was) c.was }

/-- The old destination values that a CPYR reads (09 R212): from the buffer, or with SRD from its
shadow, once the buffer and the shadow have been checked for the write (08 R190). -/
def State.oldAt (s : State) (j : Job) (core ix off : Nat) (srd : Bool) : Except EngFail EPlace :=
  if srd then match s.engDest j core ix off true, s.shadowOf j ix with
    | .error f, _ => .error f
    | .ok _, .error f => .error f
    | .ok _, .ok sh => s.engSource j core sh off
  else s.engSource j core ix off

/-- After a piece: the command's progress; a piece that ends before its row marks what has been accepted. -/
def Cmd.advance (c : Cmd) (n m : Nat) (fl : Flags) : Cmd :=
  let c := { c with col := c.col + n, dcol := c.dcol + m, bytes := c.bytes + m, flags := c.flags ||| fl }
  if c.col < c.rowlen then c
  else { c with row := c.row + 1, col := 0, dcol := 0, written := decide (c.rows ≤ c.row + 1) }

/-- Moves the next piece of the head command: its source is read, then for a CPYR the old destination,
then the result is written; the bytes before the first that fails are moved and the command fails there
(09 R211 to R213). -/
def State.copyPiece (s : State) (e : Nat) (c : Cmd) (j : Job) : State :=
  let sx := bits (c.w 0) 63 48
  let dx := bits (c.w 1) 63 48
  let so := c.srcRow + c.col
  let d := c.dstRow + c.dcol
  let sc := descCore c 63 53
  let dc := descCore c 52 42
  -- the index that the destination bytes are written at, and the one that old values are read at (08 R190)
  let backing := match s.shadowOf j dx with | .ok sh => sh | .error _ => dx
  let wx := if c.shd then backing else dx
  let rx := if c.srd then backing else dx
  let cur := (s.destFmt dc dx d).getD BankFmt.zero
  let fmt := (s.engine e).fmt.getD cur
  -- the format has changed since the piece was read: either may act on it, and the new one reads it anew
  if (s.engine e).vals ≠ [] ∧ fmt ≠ cur ∧ !c.freed ∧ pickIn s.tick (2 ^ 51 + e) 2 = 0
    then (s.setHead e c []).pushEngine e else
  match c.piece fmt fun n => sharePlace (okBytes (fun i => s.engByte j sc needR sx (so + i)) n 0).1
      (okBytes (fun i => s.engDest j dc dx (d + i) c.shd) n 0).1 with
  | .error f => s.failCmd e c f
  | .ok (n, conv) =>
    let from' := okBytes (fun i => s.engSource j sc sx (so + i)) n 0
    let w := c.unit
    -- a group or an element of which a source byte fails is not moved
    let whole := decide (from'.2 = none)
    let cvt := fmt.cvt
    let k := if whole then n else if cvt then 0 else from'.1.length / w * w
    if k = 0 then (match from'.2 with | some f => s.failCmd e c f | none => s) else
    match (s.engine e).vals with
    | [] => (match s.engRead e j (some c) sx so (from'.1.take k) with
      | .wait s => s
      | .fail s f => s.failCmd e c f
      | .ok s x =>
        let s := s.setHead e c [x]
        (s.setEngine e { s.engine e with fmt := some cur }).pushEngine e)
    | x :: vs =>
      let last := whole && decide (c.rowlen ≤ c.col + n) && decide (c.rows ≤ c.row + 1)
      if last && !c.freed then s.push (.sourceFree e) else
      match (if c.kind = 2 then vs else 0 :: vs) with
      | [] =>
        let old := okBytes (fun i => s.oldAt j dc dx (d + i) c.srd) k 0
        (match old.2 with
          | some f => s.failCmd e c f
          | none => match s.engRead e j none rx d old.1 with
            | .wait s => s
            | .fail s f => s.failCmd e c f
            | .ok s y => (s.setHead e c [x, y]).pushEngine e)
      | old :: _ =>
        let m := (conv k x old).1
        let dest := okBytes (fun i => s.engDest j dc dx (d + i) c.shd) m 0
        let m' := dest.1.length / w * w
        let y := conv m' x old
        let failing := (dest.2).orElse fun _ => from'.2
        if m' = 0 then (match failing with | some f => s.failCmd e c f | none => s) else
        match s.engWrite e j c.wo wx d (dest.1.take m') (y.2.1 % 256 ^ m') with
        | .wait s => s
        | .fail s f => s.failCmd e c f
        | .ok t _ =>
          let c := s.keepWas c (dest.1.take m')
          let s := t
          let c' := c.advance (if whole ∧ dest.2 = none then n else 0) m' y.2.2
          match failing with
          | some f => s.failCmd e { c with bytes := c.bytes + m', flags := c.flags ||| y.2.2 } f
          | none => (s.setHead e c' []).pushEngine e

/-- What the entries of a command's WI and view come to at the head of its queue (09 R197, R211). -/
def State.cmdObserve (s : State) (e : Nat) (c : Cmd) (act : State → Cmd → State) : State :=
  match s.observe none c.wi with
  | .wait => s.push (engEvent e c)
  | .bad k x => s.failCmd e c ⟨11, k, 0, 0, x⟩
  | .ok => act (s.setHead e { c with wi := [] } (s.engine e).vals) { c with wi := [] }

/-- A CPY or CPYR at the head. -/
def State.copyStep (s : State) (e : Nat) (kind : Nat) : State :=
  match s.engHead e with
  | none => s
  | some c =>
    if c.kind ≠ kind ∨ c.written then s else
    s.cmdObserve e c fun s c => match s.job? c.job with
      | none => s
      | some j => s.copyPiece e c j

/-- R211: the head CPY moves its next piece. -/
def execCopyPerform (eng : Nat) (s : State) : Out := .next (s.copyStep eng 1)
/-- R212: the head CPYR combines its next piece. -/
def execReduceCopyPerform (eng : Nat) (s : State) : Out := .next (s.copyStep eng 2)

/-! ### PUB (08 R191, 09 R216) -/

/-- The failure of the range of a publish: in the buffer, with its right W, then in its shadow, with its
right R (09 R216). -/
def State.publishCheck (s : State) (j : Job) (ix off len : Nat) : Except EngFail Nat :=
  match s.check j 0 needW true ix off len with
  | .error k => .error ⟨statusOf k, k, mkPtr ix off, 0, 0⟩
  | .ok _ => match s.shadowOf j ix with
    | .error f => .error f
    | .ok sh => match s.check j 0 needR true sh off len with
      | .error k => .error ⟨statusOf k, k, mkPtr sh off, 0, 0⟩
      | .ok _ => .ok sh

/-- The next 64-byte segment of a publish, whose range has been checked whole: a segment that cannot be
translated or read ends it there. -/
def State.publishPiece (s : State) (e : Nat) (c : Cmd) (j : Job) : State :=
  let ix := bits (c.w 0) 63 48
  let off := bits (c.w 0) 47 0 + 64 * c.row
  let len := c.w 1
  let fail (s : State) (code : Nat) (k : Cause) : State := s.failCmd e c ⟨code, k, mkPtr ix off, 0, 0⟩
  if off % 64 ≠ 0 ∨ len % 64 ≠ 0 then fail s 1 .bufBounds else
  match s.publishCheck j ix (bits (c.w 0) 47 0) len with
  | .error f => s.failCmd e c f
  | .ok sh =>
    if len ≤ 64 * c.row then (s.setHead e { c with written := true } []).push (.delivered e) else
    let dest := okBytes (fun i => s.engByte j c.core needW ix (off + i)) 64 0
    let from' := okBytes (fun i => s.engSource j c.core sh (off + i)) 64 0
    match dest.2.orElse fun _ => from'.2 with
    | some f => s.failCmd e c f
    | none =>
      match (s.engine e).vals with
      | [] => (match s.engRead e j none sh off from'.1 with
        | .wait s => s
        | .fail s f => s.failCmd e c f
        | .ok s x => (s.setHead e c [x]).pushEngine e)
      | x :: _ => (match s.engWrite e j c.wo ix off dest.1 x with
        | .wait s => s
        | .fail s f => s.failCmd e c f
        | .ok s _ => (s.setHead e { c with row := c.row + 1, bytes := c.bytes + 64 } []).pushEngine e)

/-- R216: the head PUB copies its next segment from the shadow. -/
def execPublishPerform (eng : Nat) (s : State) : Out :=
  .next (match s.engHead eng with
    | none => s
    | some c =>
      if c.kind ≠ 5 ∨ c.written then s else
      s.cmdObserve eng c fun s c => match s.job? c.job with
        | none => s
        | some j => s.publishPiece eng c j)

/-! ### ARM (09 R215) -/

/-- The stores that last wrote some places and that are not yet ripe for every agent, by their entries: an entry
names its store and all that it was ordered after (12 R266). -/
def State.unripeAt (s : State) (ks : List (Nat × Nat)) : List Word :=
  (s.whoAt ks).filter fun e => decide (s.judgeAt 2 e = .unripe)

/-- The bytes of a trigger's word. -/
def State.armBytes (s : State) (c : Cmd) (j : Job) : List EPlace × Option EngFail :=
  okBytes (fun i => s.engSource j c.core (bits (c.w 0) 63 48) (bits (c.w 0) 47 0 + i)) 8 0

/-- A trigger's word holds a value that meets its threshold (09 R215). -/
def State.armMet (s : State) (c : Cmd) (j : Job) : Bool :=
  decide ((s.armBytes c j).2 = none) && decide ((s.getBytes (s.armBytes c j).1 + 2 ^ 64 - c.w 1) % 2 ^ 64 < 2 ^ 63)

/-- R215: the trigger at the head looks at its word. Once met it posts, and the commands behind it go on when
they observe the store of the satisfying value and what that was ordered after. -/
def execTriggerMet (eng : Nat) (s : State) : Out :=
  .next (match s.engHead eng with
    | none => s
    | some c =>
      if c.kind ≠ 4 then s
      else if c.freed then
        if s.observe none c.wi = .wait then s.push (.triggerMet eng) else s.popEngine eng
      else s.cmdObserve eng c fun s c => match s.job? c.job with
      | none => s
      | some j =>
        let ps := s.armBytes c j
        match ps.2 with
        | some f => s.failCmd eng c f
        | none =>
          let w := s.engWait j (bits (c.w 0) 63 48) (bits (c.w 0) 47 0) 8
          if !w.2 && w.1.armMet c j then
            ((w.1.cmdPost c c.tokPost none).setHead eng { c with freed := true, wi := w.1.unripeAt (numsOf ps.1) }
              []).push (.triggerMet eng)
          else w.1.push (.triggerMet eng))

/-! ### Entering commands (09 R208 to R210, R218) -/

/-- A token that both points of a command name has room for two more postings (05 R107; 09 R213). -/
def State.roomTwo (s : State) (tok tsf : Option Nat) : Bool :=
  match tok, tsf with
  | some t, some u => decide (s.core.tIx t ≠ s.core.tIx u ∨ s.core.pipe.inFlight (s.core.tIx t) + 2 < 32768)
  | _, _ => true

/-- A slot that enters a command: it stalls until the queue has a free entry and no core holds the
engine; with its guard false it posts its tokens, source-free first, and gives the empty witness. -/
def State.engSlot (s : State) (hd : Hdr) (eng : BitVec 4) (store : Bool) (tsf : Option Nat) (u : Uses)
    (f : State → Nat → State) : Out :=
  .next (
    let w : Uses := if store then { dw := [Hdr.wo hd] } else {}
    if !s.room? (Hdr.tok hd) || !s.room? tsf || !s.roomTwo (Hdr.tok hd) tsf then s.stall
    else if !s.pOn hd then
      let s := (s.postOnce? tsf).postOnce? (Hdr.tok hd)
      if store then s.emptyWit (Hdr.wo hd) else s
    else match s.blocked { u with dw := w.dw } with
      | some t => t
      | none =>
        let e := engineOf s.core.id eng.toNat
        if 32 ≤ (s.engine e).queue.length ∨ (s.engine e).holder.isSome then s.stall else f s e)

/-- A token of a posting with its cover value. -/
def State.cover? (s : State) (t : Option Nat) : Option (Nat × BitVec 16) :=
  t.map fun t => (s.core.tIx t, s.core.nextCover (s.core.tIx t))

/-- Enters a command: its postings, source-free first, its witness entry, and its place in the queue. -/
def State.enter (s : State) (hd : Hdr) (e kind : Nat) (desc : List Word) (descPtr : Word) (tsf : Option Nat)
    (store : Bool) : State :=
  let wi := s.wiOf (Hdr.wi hd)
  let ctsf := s.cover? tsf
  let r := s.post? tsf []
  let ctok := r.1.cover? (Hdr.tok hd)
  let q := r.1.post? (Hdr.tok hd) []
  let s := q.1
  let ag := engAgent e
  let t : State × Word :=
    if store then
      let n := s.number ag
      let w := n.1.storeEntry (Hdr.sc hd) ag n.2
      (n.1.giveWit (Hdr.wo hd) w, w)
    else (s, 0)
  let s := t.1
  let c := s.core
  let cmd : Cmd := ⟨s.nextId, kind, c.cont.job, c.cont.recPa, c.cont.recPtr, c.id, c.pipe.pc, c.pipe.slot, desc,
    descPtr, 0, 0, 0, 0, 0, ctok, ctsf, q.2, r.2, false, false, t.2, wi, []⟩
  let s := { s with nextId := s.nextId + 1 }
  let g := s.engine e
  let s := s.setEngine e { g with queue := g.queue ++ [cmd] }
  if g.queue = [] then s.pushEngine e else s

/-- An element format of CPYR and of collectives (09 R212). -/
def reduceFmtOk (op fmt : Nat) : Bool :=
  decide (fmt ≤ 3 ∨ fmt = 7 ∨ fmt = 8) && decide (op ≤ 4) && (decide (op ≤ 2) || !isIntFmt fmt)

/-- A core-local index of a command's pointer that engines do not reach (09 R210). -/
def engIndex (ix : Nat) : Option Cause :=
  if 0xFFF7 ≤ ix then some .bufBounds else if 0xFFF4 ≤ ix then some .bufRights else none

/-- The first acceptance check of a copy descriptor that fails (09 R210, R212), with the pointer. -/
def State.descCheck (_s : State) (j : Job) (red : Bool) (d : List Word) : Option (Cause × Word) :=
  let w (i : Nat) : Nat := (d.getD i 0).toNat
  let op := bits (w 5) 41 38
  let fmt := bits (w 5) 37 34
  let n := elemWidth fmt / 8
  let off (x : Nat) : Int := sint 64 x
  let illegal : Bool :=
    decide (bits (w 5) 31 0 ≠ 0) || decide (w 6 ≠ 0) || decide (bits (w 2) 63 32 = 0) || decide (bits (w 2) 31 0 = 0) ||
      (decide (bits (w 5) 32 32 = 1) && decide (bits (w 5) 33 33 = 0)) ||
      (if red then
        !reduceFmtOk op fmt || decide (bits (w 2) 63 32 % n ≠ 0) || decide (bits (w 0) 47 0 % n ≠ 0) ||
          decide (bits (w 1) 47 0 % n ≠ 0) || decide (off (w 3) % n ≠ 0) || decide (off (w 4) % n ≠ 0)
      else decide (op ≠ 0) || decide (fmt ≠ 0))
  let coreBad (n : Nat) : Bool := decide (n ≠ 0x7FF) && (decide (1152 ≤ n) || !j.clusters.getLsbD (n / 24))
  if illegal then some (.illegalOp, 0)
  else if coreBad (bits (w 5) 63 53) || coreBad (bits (w 5) 52 42) then some (.bufOwner, 0)
  else match engIndex (bits (w 0) 63 48) with
    | some k => some (k, d.getD 0 0)
    | none => match engIndex (bits (w 1) 63 48) with
      | some k => some (k, d.getD 1 0)
      | none => none

/-- CPY and CPYR: the descriptor is read and checked, word 0x38 written, the command entered (09 R208 to
R210). The command itself observes WI and the view, at the head of its queue (R211, R214). -/
def State.copySlot (s : State) (hd : Hdr) (eng : BitVec 4) (a : BitVec 6) (kind : Nat) : Out :=
  let tsf := tokOf hd.c2
  s.engSlot hd eng true tsf { s := [a], w := [Hdr.wi hd] } fun s e =>
    let p := s.s! a
    match s.syncRead needRW 64 p 64 0 false with
    | .stall t => t
    | .fail t c l v => t.failXl c v l
    | .ok s x =>
      let d := (wordsOf x 64).take 7
      match s.job! with
      | none => s.illegal
      | some j => match s.descCheck j (kind = 2) d with
        | some (c, q) => s.failAt c q
        | none => match s.syncWrite needRW 8 (ptrAdd p 0x38) 8 (0xFF * 2 ^ 56) 1 false with
          | .stall t => t
          | .fail t c l v => t.failXl c v l
          | .ok s _ => s.enter hd e kind d p tsf true

/-- R208, R210. -/
def execCpy (hd : Hdr) (e : BitVec 4) (a : BitVec 6) (s : State) : Out := s.copySlot hd e a 1
/-- R212. -/
def execCpyr (hd : Hdr) (e : BitVec 4) (a : BitVec 6) (s : State) : Out := s.copySlot hd e a 2

/-- R215: the word is checked at acceptance. -/
def execArm (hd : Hdr) (e : BitVec 4) (a b : BitVec 6) (s : State) : Out :=
  s.engSlot hd e false none { s := [a, b] } fun s n =>
    let p := s.s! a
    match s.job! with
    | none => s.illegal
    | some j =>
      if ptrOff p % 8 ≠ 0 then s.failAt .bufBounds p else
      match s.check j s.osize needR true (ptrIx p) (ptrOff p) 8 with
      | .error c => s.failAt c p
      | .ok pl =>
        let ok : Bool := match pl with | .core ix => decide (ix < 0xFFF4) | .buf b => decide (b.tier ≤ 1)
        if ok then s.enter hd n 4 [p, s.s! b] 0 none false else s.failAt .bufRights p

/-- R216. -/
def execPub (hd : Hdr) (e : BitVec 4) (a b : BitVec 6) (s : State) : Out :=
  s.engSlot hd e true none { s := [a, b], w := [Hdr.wi hd] } fun s n => s.enter hd n 5 [s.s! a, s.s! b] 0 none true

/-- R217: reads what the engine holds; it posts with its result. -/
def execEst (hd : Hdr) (d : BitVec 6) (e : BitVec 4) (t : BitVec 5) (s : State) : Out :=
  .next (
    if !s.postRoom t.toNat then s.stall
    else if !s.pOn hd then s.postOnce (s.core.tIx t.toNat)
    else match s.blocked { ds := [d] } with
      | some u => u
      | none =>
        let r := s.newPost (s.core.tIx t.toNat) (s.dstS d)
        let s := r.1
        let c := s.core
        let a : Access := ⟨s.nextId, c.id, c.cont.recPa, c.cont.recPtr, c.cont.job, c.pipe.pc, c.pipe.slot,
          .est (engineOf c.id e.toNat), true, [], [], [], s.sDst d, [], 0, 0, some r.2, none, c.object.ptr,
          c.object.osize, c.cont.handler, false, []⟩
        ({ s with nextId := s.nextId + 1 }).push (.memoryPortAccess a))

end Sys2Proof.Machine
end

