-- ==== Sys2Proof/Machine/Reduce.lean ====
section
/-!
DEFINITION. Mesh reduction trees: sending a contribution, the routers' rounds, and receiving a result (12
R279 to R281; 13 R296 to R298).
-/
namespace Sys2Proof.Machine

/-! ### Tree descriptions (12 R279) -/

/-- The description that a table's words give. -/
def treeOf (t : List Word) : TreeDesc :=
  let h := (t.getD 0 0).toNat
  ⟨BitVec.ofNat 16 (bits h 63 48), bits h 47 44, bits h 43 40, bits h 39 34, bits h 31 16,
    (t.drop 1).map fun w =>
      let x := w.toNat
      ⟨BitVec.ofNat 14 (bits x 63 50), bits x 49 39, bits x 38 33, bits x 32 30⟩⟩

/-- A node of a tree. -/
def treeNode (d : TreeDesc) (j : Nat) : TreeNode := d.nodes.getD j ⟨0, 0, 0x3F, 0⟩
/-- The children of a node, in CPOS order. -/
def treeChildren (d : TreeDesc) (j : Nat) : List Nat :=
  (List.range 8).filterMap fun p => (List.range d.nodes.length).find? fun i =>
    decide ((treeNode d i).parent = j ∧ (treeNode d i).cpos = p)
/-- The root. -/
def treeRoot (d : TreeDesc) : Nat :=
  ((List.range d.nodes.length).find? fun j => decide ((treeNode d j).parent = 0x3F)).getD 0
/-- Parents lead from a node to the root in at most `fuel` steps. -/
def treeReaches (d : TreeDesc) : Nat → Nat → Bool
  | 0, _ => false
  | n + 1, j => decide ((treeNode d j).parent = 0x3F) || treeReaches d n (treeNode d j).parent
/-- The nodes of the subtree of a node, as a mask (12 R281). -/
def subtree (d : TreeDesc) : Nat → Nat → Nat
  | 0, j => 2 ^ j
  | n + 1, j => (treeChildren d j).foldl (fun m i => m ||| subtree d n i) (2 ^ j)

/-- A tree description is well formed (12 R279; 13 R296 check 2). -/
def treeOk (t : List Word) : Bool :=
  let h := (t.getD 0 0).toNat
  let d := treeOf t
  let n := d.nodes.length
  let js := List.range n
  decide (1 ≤ n ∧ n ≤ 64) && decide (bits h 33 32 = 0 ∧ bits h 15 8 = 0) && decide (d.op ≤ 4) &&
    decide (d.fmt = 0 ∨ d.fmt = 1 ∨ d.fmt = 7 ∨ d.fmt = 8) && decide (d.tmo ≠ 0) &&
    (decide (d.fmt = 0 ∨ d.fmt = 7) || decide (d.len ≤ 31)) &&
    ((t.drop 1).all fun w => decide (bits w.toNat 29 0 = 0)) &&
    decide ((js.filter fun j => decide ((treeNode d j).parent = 0x3F)).length = 1) &&
    (js.all fun j => decide ((treeNode d j).parent = 0x3F) || decide ((treeNode d j).parent < n)) &&
    (js.all fun j => treeReaches d n j) &&
    (js.all fun j => js.all fun i => decide (i = j) ||
      !decide ((treeNode d i).dev = (treeNode d j).dev ∧ (treeNode d i).core = (treeNode d j).core)) &&
    js.all fun j =>
      let ps := js.filter fun i => decide ((treeNode d i).parent = j)
      (List.range ps.length).all fun p => decide ((ps.filter fun i => decide ((treeNode d i).cpos = p)).length = 1)

/-- Reads a tree description while the bundle stalls, with checks 1 and 2 of 13 R296: the description and
its digest, or the state in which the bundle stalls or traps. -/
def State.readTree (s : State) (p : Word) : State ⊕ (State × TreeDesc × BitVec 64) :=
  match s.syncRead needR 8 p 8 0 with
  | .stall t => .inl t
  | .fail t c l v => .inl (t.failXl c v l)
  | .ok s h =>
    let n := 8 + 8 * bits h 7 0
    match s.syncRead needR 8 p n 1 with
    | .stall t => .inl t
    | .fail t c l v => .inl (t.failXl c v l)
    | .ok s x =>
      match s.observe (some s.core.id) (entriesOf s.core.regs.view) with
      | .bad c e => .inl (s.fail c e 0)
      | .wait => .inl s.stall
      | .ok =>
        let t := wordsOf x n
        if !treeOk t then .inl s.illegal
        else .inr (s, treeOf t, BitVec.ofNat 64 (leNat ((sha512 (toLe n x)).take 8)))

/-! ### Routers (12 R280, R281; 13 R298) -/

/-- The router of a core for a TID. -/
def State.router (s : State) (core : Nat) (tid : BitVec 16) : Router :=
  (s.units.routers.find? fun r => decide (r.core = core ∧ r.tid = tid)).getD ⟨core, tid, 0, none, [], [], []⟩
/-- Replaces a router's state. -/
def State.setRouter (s : State) (r : Router) : State :=
  { s with units := { s.units with
      routers := r :: s.units.routers.filter fun q => !decide (q.core = r.core ∧ q.tid = r.tid) } }

/-- Op of a tree on two elements (12 R279, R280). -/
def treeOp (d : TreeDesc) (a b : Nat) : Nat :=
  (reduceOp (if isIntFmt d.fmt ∧ 3 ≤ d.op then d.op - 2 else d.op) d.fmt a b).1

/-- The round in progress at a router: the count of contributions taken before it. -/
def Router.round (r : Router) : Nat := (r.taken + 2 ^ 16 - 1) % 2 ^ 16

/-- The router combines the inputs present in CPOS order and sends, or delivers at the root (12 R280,
R281); then it takes the next contribution. -/
def State.sendRound (s : State) (r : Router) (c : Contribution) : State :=
  let d := c.desc
  let inputs := r.inputs.filter fun p => decide (p.round = r.round ∧ p.digest = c.digest)
  let res := (treeChildren d c.node).foldl (fun (v : List Word × Nat) i =>
    match inputs.find? fun p => decide (p.child = i) with
    | some p => ((v.1.zip p.vals).map fun x => BitVec.ofNat 64 (treeOp d x.1.toNat x.2.toNat), v.2 ||| p.miss.toNat)
    | none => (v.1, v.2 ||| subtree d d.nodes.length i)) (c.vals, 0)
  let miss := BitVec.ofNat 64 res.2
  let q : Router := { r with
    cur := none
    inputs := r.inputs.filter fun p => !decide (p.round = r.round) }
  let s := match r.queue with
    | n :: _ => s.push (.routerTakesContribution n)
    | [] => s
  let nd := treeNode d c.node
  if nd.parent = 0x3F then
    { s.setRouter { q with results := q.results ++ [(s.nextId, d, res.1, miss)] } with nextId := s.nextId + 1 }
  else
    let up := treeNode d nd.parent
    (s.setRouter q).send up.dev
      (.reductionPacket ⟨d.tid, c.digest, r.round, nd.parent, c.node, up.core, res.1, miss⟩)

/-- Sends the round when every child's packet is present. -/
def State.tryRound (s : State) (r : Router) : State :=
  match r.cur with
  | none => s.setRouter r
  | some c =>
    if (treeChildren c.desc c.node).all fun i =>
        r.inputs.any fun p => decide (p.round = r.round ∧ p.digest = c.digest ∧ p.child = i)
    then s.sendRound r c else s.setRouter r

/-- The job of a contribution's continuation. -/
def State.contribJob (s : State) (c : Contribution) : Nat :=
  match s.rec? c.done.recPa with | some r => r.job | none => 0

/-- A packet of the round in progress with another digest is dropped, with a fault record (13 R298). -/
def State.dropForeign (s : State) (r : Router) (c : Contribution) : State × Router :=
  let foreign := r.inputs.filter fun p => decide (p.round = r.round ∧ p.digest ≠ c.digest)
  let s := foreign.foldl (fun s _ => (s.faultRecord (s.contribJob c)
    ⟨Cause.illegalOp.code, 0, 4, 0, r.core, 0, 0, 0, 0, r.tid.toNat, 0, 0, 0⟩).1) s
  (s, { r with inputs := r.inputs.filter fun p => !foreign.contains p })

/-- A contribution goes to its node's router, behind those that wait there (13 R296). -/
def State.contributeTo (s : State) (c : Contribution) : State :=
  let r := s.router (treeNode c.desc c.node).core c.desc.tid
  let t := s.setRouter { r with queue := r.queue ++ [c] }
  if r.cur.isNone && r.queue.isEmpty then t.push (.routerTakesContribution c) else t

/-- R280, R281, R296: the router takes its node's contribution, or makes it wait for the current round. -/
def execRouterTakesContribution (c : Contribution) (s : State) : Out :=
  .next (
    let core := (treeNode c.desc c.node).core
    let r := s.router core c.desc.tid
    match r.cur with
    | some _ => s.setRouter { r with queue := r.queue ++ [c] }
    | none =>
      let r := { r with
        taken := r.taken + 1
        cur := some c
        queue := if r.queue.head? = some c then r.queue.drop 1 else r.queue }
      let old (p : TreePacket) : Bool := decide (2 ^ 15 ≤ (p.round + 2 ^ 16 - r.round) % 2 ^ 16)
      let r := { r with inputs := r.inputs.filter fun p => !old p }
      let s := (s.deliver c.done).push (.treeTimeout c.desc.tid.toNat core r.round)
      let t := s.dropForeign r c
      t.1.tryRound t.2)

/-- R280, R298: a child's packet arrives; one of an older round is dropped. Rounds count modulo 2^16, for which the
spec gives no comparison; that one at a distance of 2^15 or more is older is the model's choice (log 29). -/
def execReductionPacket (p : TreePacket) (s : State) : Out :=
  .next (
    let r := s.router p.core p.tid
    let now := match r.cur with | some _ => r.round | none => r.taken % 2 ^ 16
    if 2 ^ 15 ≤ (p.round + 2 ^ 16 - now) % 2 ^ 16 then s else
    let r := { r with inputs := r.inputs ++ [p] }
    match r.cur with
    | none => s.setRouter r
    | some c => let t := s.dropForeign r c; t.1.tryRound t.2)

/-- R281: the timer of a round runs out: the inputs present are sent with MISS. -/
def execTreeTimeout (tid node round : Nat) (s : State) : Out :=
  .next (
    let r := s.router node (BitVec.ofNat 16 tid)
    match r.cur with
    | some c => if r.round = round then s.sendRound r c else s
    | none => s)

/-! ### RPSND and RPRCV (13 R296, R297) -/

/-- The width of a tree's elements. -/
def treeWidth (d : TreeDesc) : Nat := elemWidth d.fmt

/-- R296. -/
def execRpsnd (hd : Hdr) (j a b : BitVec 6) (s : State) : Out :=
  s.tokSlot hd (s.pOn hd) false { s := [a], v := [b] } fun s =>
    match s.readTree (s.s! a) with
    | .inl t => t
    | .inr (s, d, digest) =>
      if d.nodes.length ≤ j.toNat ∨ (treeNode d j.toNat).dev ≠ s.devnum then s.illegal else
      let vals := (List.range (d.len + 1)).map fun i => BitVec.ofNat 64 (elem (s.v! b) (treeWidth d) i)
      let r := s.post? (Hdr.tok hd) []
      (r.1.contributeTo ⟨d, digest, j.toNat, vals, r.1.completion r.2 []⟩).pops [b]

/-- R297. -/
def execRprcv (hd : Hdr) (d a b : BitVec 6) (s : State) : Out :=
  s.tokSlot hd (s.pOn hd) false { s := [a], dv := [d], ds := [b] } fun s =>
    match s.readTree (s.s! a) with
    | .inl t => t
    | .inr (s, t, _) =>
      if (treeNode t (treeRoot t)).dev ≠ s.devnum then s.illegal else
      let r := s.post? (Hdr.tok hd) (⟨1, d.toNat⟩ :: s.dstS b)
      let s := r.1
      ({ s with nextId := s.nextId + 1 }).push (.roundResultReceive
        ⟨s.nextId, t.tid, t.len, t.fmt, d.toNat, s.sDst b, s.completion r.2 []⟩)

/-- A receive of a TID that issued before a number waits. -/
def State.receiveBefore (s : State) (tid : BitVec 16) (order : Nat) : Bool :=
  s.agenda.any fun e => match e with | .roundResultReceive r => decide (r.tid = tid ∧ r.order < order) | _ => false

/-- The part of a vector register that elements of w bits fill, with their values. -/
def elemWrites (d w : Nat) (xs : List Nat) : Write :=
  .v d (BitVec.ofNat 2048 (2 ^ (w * xs.length) - 1)) (BitVec.ofNat 2048 (packElems (w / 8) xs))

/-- The router of a TID that holds the first result not yet received (13 R297). -/
def State.firstResult (s : State) (tid : BitVec 16) : Option Router :=
  let qs := s.units.routers.filter fun q => decide (q.tid = tid) && !q.results.isEmpty
  qs.find? fun q => qs.all fun p => decide ((q.results.head?.map Prod.fst).getD 0 ≤ (p.results.head?.map Prod.fst).getD 0)

/-- R297: the oldest receive of a TID takes the first result not yet received. -/
def execRoundResultReceive (r : Receive) (s : State) : Out :=
  .next (
    if s.receiveBefore r.tid r.order then s.push (.roundResultReceive r) else
    match s.firstResult r.tid with
    | none => s.push (.roundResultReceive r)
    | some q => match q.results with
      | [] => s
      | (_, d, vals, miss) :: rest =>
        (s.setRouter { q with results := rest }).deliver { r.done with
          writes := [elemWrites r.vd (treeWidth d) (vals.map (·.toNat)), .s r.sd miss] })

end Sys2Proof.Machine
end

