-- ==== Sys2Proof/Machine/Collective.lean ====
section
/-!
DEFINITION. Ring collectives: entering a run, its steps, commit, abort and mismatch (12 R282 to R286; 13
R299 to R303; 18 R348). The messages of a run name its CID and SEQ (log 10).
-/
namespace Sys2Proof.Machine

/-! ### Records (12 R282) -/

/-- A word of a loop-nest record. -/
def loopWord (d : List Word) (i : Nat) : Nat := (d.getD i 0).toNat
/-- CID. -/
def loopCid (d : List Word) : BitVec 16 := BitVec.ofNat 16 (bits (loopWord d 0) 63 48)
/-- SEQ. -/
def loopSeq (d : List Word) : BitVec 16 := BitVec.ofNat 16 (bits (loopWord d 0) 47 32)
/-- PAT. -/
def loopPat (d : List Word) : Nat := bits (loopWord d 0) 31 28
/-- OP. -/
def loopOp (d : List Word) : Nat := bits (loopWord d 0) 27 24
/-- RFMT. -/
def loopFmt (d : List Word) : Nat := bits (loopWord d 0) 23 20
/-- PRS. -/
def loopPrs (d : List Word) : Bool := decide (bits (loopWord d 0) 19 19 = 1)
/-- N, the number of ranks. -/
def loopN (d : List Word) : Nat := bits (loopWord d 0) 11 6 + 1
/-- RANK. -/
def loopRank (d : List Word) : Nat := bits (loopWord d 0) 5 0
/-- NDEV. -/
def loopNdev (d : List Word) : BitVec 14 := BitVec.ofNat 14 (bits (loopWord d 3) 63 50)
/-- PDEV. -/
def loopPdev (d : List Word) : BitVec 14 := BitVec.ofNat 14 (bits (loopWord d 3) 49 36)

/-- The offsets of the elements of chunk c from the offset of BUF, with i0 running fastest (12 R282). -/
def chunkOffsets (d : List Word) (c : Nat) : List Int :=
  let c0 := bits (loopWord d 4) 63 48
  let c1 := bits (loopWord d 4) 47 32
  let c2 := bits (loopWord d 4) 31 16
  (List.range c2).flatMap fun (i2 : Nat) => (List.range c1).flatMap fun (i1 : Nat) => (List.range c0).map fun (i0 : Nat) =>
    (c : Int) * sint 32 (bits (loopWord d 6) 31 0) + i0 * sint 32 (bits (loopWord d 5) 63 32) +
      i1 * sint 32 (bits (loopWord d 5) 31 0) + i2 * sint 32 (bits (loopWord d 6) 63 32)

/-- The pointers of the elements of a chunk from a pointer. -/
def chunkPtrs (d : List Word) (p : Word) (c : Nat) : List Word :=
  (chunkOffsets d c).map fun o => mkPtr (ptrIx p) (((ptrOff p : Int) + o) % 2 ^ 48).toNat

/-- The digest of the fields in which the ranks' records must agree (12 R283; log 10). -/
def loopDigest (d : List Word) : BitVec 64 :=
  let w0 := loopWord d 0
  BitVec.ofNat 64 (leNat ((sha512 (toLe 8 (w0 - bits w0 5 0) ++ toLe 8 (loopWord d 4))).take 8))

/-- The ring steps of a pattern (12 R283). -/
def loopSteps (d : List Word) : Nat := (if loopPat d = 0 then 2 else 1) * (loopN d - 1)

/-- The chunk that a rank sends at a step (12 R283). -/
def sendChunk (d : List Word) (r s : Nat) : Nat :=
  let n := loopN d
  if loopPat d = 0 ∧ n - 1 ≤ s then (r + 1 + 2 * n - (s - (n - 1))) % n else (r + 2 * n - s) % n

/-- Whether a step combines, or copies. -/
def stepReduces (d : List Word) (s : Nat) : Bool := decide (loopPat d ≠ 2) && decide (s < loopN d - 1)

/-- A SEQ is later than another (12 R286); equal ones are not (log 10). -/
def seqLater (s2 s1 : BitVec 16) : Bool := decide (s2 ≠ s1) && decide ((s2 - s1).toNat < 2 ^ 15)

/-! ### What a device remembers of a CID -/

/-- A job record is that of a running job of a tenant. -/
def State.tenantIs (s : State) (job : Nat) (t : BitVec 16) : Bool := (s.job? job).any fun j => decide (j.tenant = t)
/-- What the device remembers of the CID of a tenant that a message names. -/
def State.cid? (s : State) (t cid : BitVec 16) : Option CidMark :=
  s.units.cids.find? fun c => decide (c.cid = cid) && s.tenantIs c.job t
/-- What the device remembers of a CID of a job (12 R286). -/
def State.cidOf (s : State) (job : Nat) (cid : BitVec 16) : Option CidMark :=
  s.units.cids.find? fun c => decide (c.cid = cid ∧ c.job = job)
/-- Replaces what it remembers. -/
def State.setCid (s : State) (c : CidMark) : State :=
  { s with units := { s.units with cids := c :: s.units.cids.filter fun q => !decide (q.cid = c.cid ∧ q.job = c.job) } }

/-- A SEQ is at most another that is held for a CID. -/
def seqReached (o : Option (BitVec 16)) (seq : BitVec 16) : Bool := o.any fun k => !seqLater seq k

/-- The last SEQ of a CID becomes one, if it is later (12 R286). -/
def CidMark.reach (c : CidMark) (seq : BitVec 16) : CidMark :=
  match c.last with
  | some l => if seqLater seq l then { c with last := some seq } else c
  | none => { c with last := some seq }

/-- A SEQ has run or been aborted (12 R286). -/
def CidMark.past (c : CidMark) (seq : BitVec 16) : Bool := seqReached c.last seq

/-- The runs of a CID of a job whose SEQ is at most one and that have not committed: those that an abort ends
(12 R285). -/
def State.runsTo (s : State) (job : Nat) (cid seq : BitVec 16) : List Run :=
  s.units.runs.filter fun r => decide (r.cid = cid ∧ r.job = job ∧ r.stage < 4) && !seqLater r.seq seq
/-- The run of a tenant's CID and SEQ: the one that has started, or the first that waits in a queue (13 R303). -/
def State.run? (s : State) (t cid seq : BitVec 16) : Option Run :=
  let rs := s.units.runs.filter fun r => decide (r.cid = cid ∧ r.seq = seq) && s.tenantIs r.job t
  (rs.find? fun r => decide (r.stage ≠ 0)).orElse fun _ => rs.head?
/-- Replaces a run's progress. -/
def State.setRun (s : State) (r : Run) : State :=
  { s with units := { s.units with runs := s.units.runs.map fun q => if q.cmd = r.cmd ∧ q.eng = r.eng then r else q } }

/-- The command of a run. -/
def State.runCmd (s : State) (r : Run) : Option Cmd :=
  (s.engine r.eng).queue.find? fun c => decide (c.id = r.cmd)

/-- Packets held for a run go on. -/
def State.releasePackets (s : State) (tenant cid seq : BitVec 16) : State :=
  let mine (p : RingPacket) : Bool := decide (p.tenant = tenant ∧ p.cid = cid ∧ p.seq = seq)
  let go := s.units.packets.filter mine
  go.foldl (fun s p => s.push (.collectiveStep p))
    { s with units := { s.units with packets := s.units.packets.filter fun p => !mine p } }
/-! ### The end of a run (13 R300, R301) -/

/-- The cause of a collective status (13 R301, 09 R214). -/
def collCause (code : Nat) : Cause :=
  match code with
  | 0x10 | 0x0A => .cancel
  | 0x12 | 6 | 3 => .bufRights
  | 1 => .bufBounds
  | 2 => .bufOwner
  | 4 => .xlate
  | 5 => .eccUncorr
  | _ => .illegalOp

/-- Sends an abort of a record toward the arbiter from a device (13 R302). -/
def State.sendAbort (s : State) (tenant : BitVec 16) (d : List Word) (waiter : Option Completion) (dst : Nat) : State :=
  let m : CollMsg := ⟨tenant, loopCid d, loopSeq d, s.devnum, 0, false, 0, waiter, dst, false⟩
  if loopRank d = 0 then s.push (.abortRequest m) else s.send (loopNdev d) (.abortRequest m)

/-- The tenant of a run's job. -/
def State.runTenant (s : State) (r : Run) : BitVec 16 := ((s.job? r.job).map fun j => j.tenant).getD 0

/-- Ends a run here with a code: word 0x38, then the fault record, token and entry, or the token and the
ripe entry (13 R300). Packets held for a run that has started go with it. -/
def State.endHere (s : State) (r : Run) (code : Nat) (f : EngFail) : State :=
  let s := { s with units := { s.units with
    runs := s.units.runs.filter fun q => !decide (q.cmd = r.cmd ∧ q.eng = r.eng)
    packets := s.units.packets.filter fun p =>
      decide (r.stage = 0) || !decide (p.tenant = s.runTenant r ∧ p.cid = r.cid ∧ p.seq = r.seq) } }
  let s := match s.cidOf r.job r.cid with
    | some m => if r.stage = 0 then s else s.setCid { m with wrote := r.wrote }
    | none => s
  let s := match s.runCmd r with
    | none => s
    | some c =>
      let c := { c with row := r.step, freed := true }
      s.endCommand (if code = 0 then c.done r.eng else c.failing r.eng { f with code := code })
  s.removeCmd r.eng r.cmd

/-- Ends the runs of a CID up to a SEQ with ABORTED: the state, and whether one had written its BUF. -/
def State.abortHere (s : State) (m : CidMark) (seq : BitVec 16) : State × Bool :=
  let rs := s.runsTo m.job m.cid seq
  let wrote := rs.any (fun r => r.wrote) || (m.wrote && decide (m.last = some seq))
  let s := s.setCid { m.reach seq with awaits := true, wrote := wrote }
  let s := rs.foldl (fun s r => s.endHere r 0x10 ⟨0x10, .cancel, 0, 0, 0⟩) s
  let s := { s with units := { s.units with
    packets := s.units.packets.filter fun p =>
      !(decide (p.cid = m.cid) && s.tenantIs m.job p.tenant && !seqLater p.seq seq) } }
  (s, wrote)

/-- Rank 0 decides to abort a CID up to a SEQ: its own runs end, and the decision goes round the ranks (12
R285, 13 R302). -/
def State.decideAbort (s : State) (c : CidMark) (m : CollMsg) : State :=
  let r := s.abortHere { c with aborted := if seqReached c.aborted m.seq then c.aborted else some m.seq } m.seq
  match c.ndev with
  | some dev => r.1.send dev (.abortDecision { m with pass := 1, wrote := r.2, waiter := none, noted := false })
  | none => r.1

/-- Ends a run with a code. An end of its own that is neither DONE, ABORTED nor MISMATCH, before the commit,
sends an abort; on rank 0 that decides it (13 R300, R302). -/
def State.endRun (s : State) (r : Run) (code : Nat) (f : EngFail) : State :=
  let t := s.endHere r code f
  match t.cidOf r.job r.cid with
  | none => t
  | some c =>
    if code = 0 ∨ code = 0x10 ∨ code = 0x11 ∨ r.seq ∈ c.closed ∨ seqReached c.aborted r.seq = true then t
    else if c.rank = 0 then
      t.decideAbort c ⟨s.runTenant r, r.cid, r.seq, s.devnum, 0, false, 0, none, 0, false⟩
    else t.sendAbort (s.runTenant r) r.desc none 0

/-- Ends a run with a code that no access of its own brought. -/
def State.endRunWith (s : State) (r : Run) (code : Nat) : State :=
  s.endRun r code ⟨code, collCause code, 0, 0, 0⟩

/-! ### Elements (12 R282 to R284; 13 R300) -/

/-- The place of an element of BUF, or of its shadow. -/
def State.elemAt (s : State) (j : Job) (p : Word) (w need : Nat) (shadow : Bool) : Except EngFail (List EPlace) :=
  match s.check j 0 needRW true (ptrIx p) (ptrOff p) w with
  | .error k => .error ⟨statusOf k, k, p, 0, 0⟩
  | .ok _ =>
    match (if shadow then s.shadowOf j (ptrIx p) else .ok (ptrIx p)) with
    | .error f => .error f
    | .ok ix =>
      let at' (i : Nat) : Except EngFail EPlace :=
        if need = needR then s.engSource j 0 ix (ptrOff p + i) else s.engByte j 0 need ix (ptrOff p + i)
      match okBytes at' w 0 with
      | (_, some f) => .error f
      | (ps, none) => if ps.any fun q => match q with | .mem _ => false | _ => true
          then .error ⟨3, .bufRights, p, 0, 0⟩ else .ok ps

/-- Memory is not yet ready for the elements at pointers of BUF and its shadow. -/
def State.elemsWait (s : State) (j : Job) (ps : List Word) (w : Nat) (shadow : Bool) : State × Bool :=
  ps.foldl (fun r p =>
    let t := r.1.engWait j (ptrIx p) (ptrOff p) w
    let u := if shadow then (match t.1.shadowOf j (ptrIx p) with
      | .ok sh => t.1.engWait j sh (ptrOff p) w
      | .error _ => (t.1, false)) else (t.1, false)
    (u.1, r.2 || t.2 || u.2)) (s, false)

/-- Reads the elements at pointers. -/
def State.readElems (s : State) (j : Job) (w : Nat) (shadow : Bool) : List Word → Except EngFail (List Nat)
  | [] => .ok []
  | p :: ps =>
    match s.elemAt j p w needR shadow, s.readElems j w shadow ps with
    | .error f, _ => .error f
    | _, .error f => .error f
    | .ok q, .ok xs => .ok (s.getBytes q :: xs)

/-- Writes elements at pointers, for a store of an entry, until one fails. -/
def State.writeElems (s : State) (j : Job) (who : Word) (w : Nat) (shadow : Bool) :
    List (Word × Nat) → State × Option EngFail
  | [] => (s, none)
  | (p, x) :: ps =>
    match s.elemAt j p w needW shadow with
    | .error f => (s, some f)
    | .ok q => (s.putBytes who q x).writeElems j who w shadow ps

/-- Every element of BUF. -/
def allPtrs (d : List Word) : List Word := (List.range (loopN d)).flatMap fun c => chunkPtrs d (d.getD 1 0) c

/-- The entry of the stores of a run (12 R268). -/
def State.runEntry (s : State) (r : Run) : Word := ((s.runCmd r).map Cmd.wo).getD 0

/-- Copies BUF's elements into the shadow, or publishes them from it, all in one step (12 R284; log 28). -/
def State.copyElems (s : State) (j : Job) (who : Word) (d : List Word) (publish : Bool) : State × Option EngFail :=
  let ps := allPtrs d
  let w := elemWidth (loopFmt d) / 8
  match s.readElems j w publish ps with
  | .error f => (s, some f)
  | .ok xs => s.writeElems j who w (!publish) (ps.zip xs)

/-! ### The run at the head (13 R300) -/

/-- The head run of an engine that no core holds, with its command. -/
def State.headRun (s : State) (e : Nat) : Option (Run × Cmd) :=
  match s.engHead e with
  | none => none
  | some c => (s.units.runs.find? fun r => decide (r.eng = e ∧ r.cmd = c.id)).map fun r => (r, c)

/-- Sends the digest exchange to both neighbours (12 R283, 18 R348). -/
def State.sendDigest (s : State) (r : Run) : State :=
  let p : RingPacket := ⟨s.devnum, r.eng, 0, 0, 0, s.runTenant r, r.cid, r.seq, r.digest, none, [], []⟩
  let s := s.send (loopPdev r.desc) (.collectiveStep p)
  if loopPdev r.desc = loopNdev r.desc then s else s.send (loopNdev r.desc) (.collectiveStep p)

/-- The run starts at the head of its queue. -/
def State.startRun (s : State) (r : Run) (j : Job) : State :=
  match s.cidOf r.job r.cid with
  | none => s
  | some m =>
    if m.awaits then s.push (.collectiveRun r.eng)
    else if m.past r.seq then s.endRunWith r 0x13
    else if m.marked then s.endRunWith r 0x14
    else
      let bad : Option EngFail := if loopPrs r.desc then
        (match s.shadowOf j (ptrIx (r.desc.getD 1 0)) with | .error f => some f | .ok _ => none) else none
      match bad with
      | some f => s.endRun r f.code f
      | none =>
        let s := s.setCid { m.reach r.seq with wrote := false }
        ((s.setRun { r with stage := 1 }).sendDigest r).releasePackets j.tenant r.cid r.seq

/-- The digest of every other rank has arrived, PDEV and NDEV among them, so that no rank writes BUF before a
mismatch is known (12 R283; log 10). -/
def Run.metAll (r : Run) : Bool :=
  let ds := (r.met.map Prod.fst).eraseDups
  decide (loopN r.desc ≤ ds.length + 1) && ds.contains (loopPdev r.desc) && ds.contains (loopNdev r.desc)

/-- A run ends with MISMATCH and a notice goes along NDEV (12 R283). -/
def State.mismatch (s : State) (r : Run) : State :=
  (s.endRunWith r 0x11).send (loopNdev r.desc)
    (.mismatchNotice ⟨s.runTenant r, r.cid, r.seq, s.devnum, 0, false, 0, none, 0, false⟩)

/-- The digest exchange goes on: on a mismatch the run ends on every rank; once every rank's has arrived the
ring begins, from the shadow with PRS (12 R283, R284). -/
def State.digestsMet (s : State) (r : Run) (j : Job) : State :=
  if r.met.any fun p => decide (p.2 ≠ r.digest) then s.mismatch r
  else if !r.metAll then s.releasePackets j.tenant r.cid r.seq
  else
    let w := elemWidth (loopFmt r.desc) / 8
    let t := if loopPrs r.desc then s.elemsWait j (allPtrs r.desc) w true else (s, false)
    if t.2 then t.1.push (.collectiveRun r.eng) else
    let c := if loopPrs r.desc then t.1.copyElems j (t.1.runEntry r) r.desc false else (t.1, none)
    match c.2 with
    | some f => c.1.endRun r f.code f
    | none => (c.1.setRun { r with stage := 2 }).push (.collectiveRun r.eng)

/-- Sends the chunk of the current step through PEER (12 R283, 13 R300). -/
def State.sendStep (s : State) (r : Run) (j : Job) : State :=
  let d := r.desc
  let w := elemWidth (loopFmt d) / 8
  let c := sendChunk d (loopRank d) r.step
  let t := s.elemsWait j (chunkPtrs d (d.getD 1 0) c) w (loopPrs d)
  if t.2 then t.1.push (.collectiveRun r.eng) else
  let s := t.1
  match s.readElems j w (loopPrs d) (chunkPtrs d (d.getD 1 0) c) with
  | .error f => s.endRun r f.code f
  | .ok xs =>
    let peer := chunkPtrs d (d.getD 2 0) c
    match peer.findSome? fun p => match s.check j 0 needW true (ptrIx p) (ptrOff p) w with
        | .error k => some (EngFail.mk (statusOf k) k p 0 0)
        | .ok _ => none with
    | some f => s.endRun r f.code f
    | none =>
      let lease := match s.buf? j (ptrIx (d.getD 2 0)) with | some b => b.lease | none => 0
      match s.lease? lease with
      | none => (s.leaseRefused lease none).endRun r 6 ⟨6, .bufRights, d.getD 2 0, 0, 0⟩
      | some (dev, gix, epoch) =>
        let p : RingPacket := ⟨s.devnum, r.eng, lease, gix, epoch, j.tenant, r.cid, r.seq, r.digest, some r.step,
          peer.map ptrOff, xs.flatMap (toLe w)⟩
        ((s.setRun { r with sent := true }).send dev (.collectiveStep p)).releasePackets j.tenant r.cid r.seq

/-- A lender has refused or failed a step of the run, or it is lost (08 R175; 12 R285). -/
def State.stepFailed (s : State) (e : Nat) : Option (State × EngFail) :=
  let g := s.engine e
  match g.waiting with
  | [] => none
  | p :: ps =>
    let s := s.setEngine e { g with waiting := ps }
    match p.res with
    | .performed _ => none
    | .refused => some (s, ⟨6, .bufRights, 0, 0, 0⟩)
    | .failed .linkLost => some (s, ⟨0x12, .bufRights, 0, 0, 0⟩)
    | .failed k => some (s, ⟨statusOf k, k, 0, 0, 0⟩)

/-- A message is held until a run of its CID is accepted, or a commit until the run has ended its ring. -/
def State.holdMsg (s : State) (e : Event) : State :=
  { s with units := { s.units with messages := s.units.messages ++ [e] } }

/-- Commits held for a run go on. -/
def State.releaseCommits (s : State) (tenant cid : BitVec 16) : State :=
  let mine (e : Event) : Bool := match e with
    | .commit m => decide (m.tenant = tenant ∧ m.cid = cid)
    | _ => false
  let go := s.units.messages.filter mine
  go.foldl State.push { s with units := { s.units with messages := s.units.messages.filter fun e => !mine e } }

/-- A run that has been committed ends on this rank once its engine may act and no port of it is held: with PRS
its shadow is published, and it ends DONE (12 R284; 08 R171, R177). -/
def State.commitHere (s : State) (r : Run) (j : Job) : State :=
  let w := elemWidth (loopFmt r.desc) / 8
  let t := if loopPrs r.desc then s.elemsWait j (allPtrs r.desc) w true else (s, false)
  if t.2 then t.1.push (.collectiveRun r.eng) else
  let u := if loopPrs r.desc then t.1.copyElems j (t.1.runEntry r) r.desc true else (t.1, none)
  match u.2 with
  | some f => u.1.endRun r f.code f
  | none => u.1.endRun r 0 ⟨0, .illegalOp, 0, 0, 0⟩

/-- R300: the run at the head of its queue goes on. -/
def execCollectiveRun (eng : Nat) (s : State) : Out :=
  .next (match s.headRun eng with
    | none => s
    | some (r, c) => match s.job? r.job with
      | none => s
      | some j => match s.stepFailed eng with
        | some (s, f) => s.endRun r f.code f
        | none =>
          match s.observe none c.wi with
          | .wait => s.push (.collectiveRun eng)
          | .bad k x => s.endRun r 11 ⟨11, k, 0, 0, x⟩
          | .ok =>
            let s := s.setHead eng { c with wi := [] } []
            match r.stage with
            | 0 => s.startRun r j
            | 1 => s.digestsMet r j
            | 2 => if r.sent then s.releasePackets j.tenant r.cid r.seq else s.sendStep r j
            | 3 => s.releaseCommits j.tenant r.cid
            | _ => s.commitHere r j)

/-! ### Arrivals (12 R283, R284) -/

/-- The chunk of an arriving step is combined or copied, the whole chunk in one step, which is the model's choice
(log 28); the run goes on, or waits for the commit: rank 0's first pass of the ring finds every rank complete (log
10). A copy does not read the elements that it replaces (12 R283). -/
def State.takeStep (s : State) (r : Run) (j : Job) (p : RingPacket) : State :=
  let d := r.desc
  let n := loopN d
  let fmt := loopFmt d
  let w := elemWidth fmt / 8
  let c := sendChunk d ((loopRank d + n - 1) % n) r.step
  let ps := chunkPtrs d (d.getD 1 0) c
  let t := s.elemsWait j ps w (loopPrs d)
  if t.2 then t.1.push (.collectiveStep p) else
  let s := t.1
  let xs := chunks w ps.length p.data
  match (if stepReduces d r.step then s.readElems j w (loopPrs d) ps else .ok xs) with
  | .error f => s.endRun r f.code f
  | .ok old =>
    let ys := if stepReduces d r.step
      then (old.zip xs).map fun q => (reduceOp (loopOp d) fmt q.1 q.2).1 else xs
    let u := s.writeElems j (s.runEntry r) w (loopPrs d) (ps.zip ys)
    let r := { r with wrote := r.wrote || !loopPrs d }
    match u.2 with
    | some f => u.1.endRun r f.code f
    | none =>
      let r := { r with step := r.step + 1, sent := false }
      if r.step < loopSteps d then (u.1.setRun r).push (.collectiveRun r.eng)
      else
        let s := u.1.setRun { r with stage := 3 }
        if loopRank d = 0 then
          s.send (loopNdev d) (.commit ⟨j.tenant, r.cid, r.seq, s.devnum, 0, false, 0, none, 0, false⟩)
        else s.releaseCommits j.tenant r.cid

/-- What the lender's port makes of a step packet: none while it is held there, else whether its elements pass
the checks of the lease path, with the answer to one that does not (08 R175; 13 R300). -/
def State.stepAdmits (s : State) (p : RingPacket) (w : Nat) : Option (Except PeerResult Unit) :=
  match s.grant? p.src p.gix p.epoch p.tenant needW with
  | none => some (.error .refused)
  | some (j, lbuf, loff) =>
    let ps := p.offs.map fun o => (o, w, 0)
    if s.lendHeld j lbuf loff ps then none
    else match (s.lentSpans j lbuf loff needW .write ps).2 with
      | .error c => some (.error (.failed c))
      | .ok _ => some (.ok ())

/-- The digest of a rank arrives, and goes on toward the ranks that have not had it (12 R283; log 10). -/
def State.takeDigest (s : State) (r : Run) (p : RingPacket) : State :=
  let fresh := !(r.met.any fun q => decide (q.1 = p.src)) && decide (p.src ≠ loopNdev r.desc)
  let s := (s.setRun { r with met := (p.src, p.digest) :: r.met }).push (.collectiveRun r.eng)
  if fresh then s.send (loopNdev r.desc) (.collectiveStep p) else s

/-- An abort of a CID up to a SEQ has been decided and waits on this device for a run to be accepted (13 R302). -/
def State.abortHeld (s : State) (t cid seq : BitVec 16) : Bool :=
  s.units.messages.any fun e => match e with
    | .abortDecision m => decide (m.tenant = t ∧ m.cid = cid ∧ m.pass = 1) && !seqLater seq m.seq
    | _ => false

/-- R283, R348: a packet of a run arrives: it is held until the run stands at the head and at its step, which PDEV
sends, and dropped once the SEQ has ended or been aborted. -/
def execCollectiveStep (p : RingPacket) (s : State) : Out :=
  .next (
    let hold : State := { s with units := { s.units with packets := s.units.packets ++ [p] } }
    match s.run? p.tenant p.cid p.seq with
    | none => if s.abortHeld p.tenant p.cid p.seq then s else (match s.cid? p.tenant p.cid with
      | some m => if m.past p.seq then s else hold
      | none => hold)
    | some r => match s.headRun r.eng, s.job? r.job with
      | some (q, _), some j =>
        if q.cmd ≠ r.cmd ∨ r.stage = 0 then hold else
        match p.step with
        | none => if r.stage ≠ 1 then s else s.takeDigest r p
        | some n =>
          if r.stage ≠ 2 ∨ !r.sent ∨ n ≠ r.step ∨ p.src ≠ loopPdev r.desc then hold
          else if p.digest ≠ r.digest then s.mismatch r
          else match s.stepAdmits p (elemWidth (loopFmt r.desc) / 8) with
            | none => s.push (.collectiveStep p)
            | some (.error a) => s.send p.src (.peerResponse ⟨p.lease, .engine p.eng, a⟩)
            | some (.ok _) => s.takeStep r j p
      | _, _ => hold)

/-! ### Commit (12 R284) -/

/-- A run whose ring is complete here is committed: no abort ends it any more (12 R285). -/
def State.decideCommit (s : State) (r : Run) : State :=
  let s := match s.cidOf r.job r.cid with | some m => s.setCid { m with closed := r.seq :: m.closed } | none => s
  (s.setRun { r with stage := 4 }).push (.collectiveRun r.eng)

/-- R284: the pass that finds every rank complete (pass 0) makes the arbiter commit; the decision (pass 1)
goes round the ranks. -/
def execCommit (m : CollMsg) (s : State) : Out :=
  .next (match s.run? m.tenant m.cid m.seq with
    | none => (match s.cid? m.tenant m.cid with
      | some c => if c.past m.seq then s else s.holdMsg (.commit m)
      | none => s.holdMsg (.commit m))
    | some r =>
      let next := loopNdev r.desc
      if r.stage < 3 then s.holdMsg (.commit m)
      else if m.pass = 0 then
        (if loopRank r.desc = 0 then (s.send next (.commit { m with pass := 1 })).decideCommit r
        else s.send next (.commit m))
      else
        let s := if loopRank r.desc + 1 = loopN r.desc then s else s.send next (.commit m)
        s.decideCommit r)

/-! ### Abort and mismatch (12 R283, R285, R286; 13 R302) -/

/-- What a device remembers of a CID for which it has accepted a record, and that record's NDEV. -/
def State.accepted? (s : State) (m : CollMsg) : Option (CidMark × BitVec 14) :=
  (s.cid? m.tenant m.cid).bind fun c => c.ndev.map fun dev => (c, dev)

/-- The answer of the arbiter goes to the device of the ABRT. -/
def State.answerAbort (s : State) (m : CollMsg) (code : Nat) : State :=
  match m.waiter with
  | none => s
  | some _ => s.send m.origin (.abortDecision { m with pass := 0, code := code })

/-- An abort travels to rank 0, which decides it in order of arrival with the commit (12 R285; 13 R302); for a
SEQ that has ended there the commit came first, or an abort has already taken effect. -/
def State.abortRequest (s : State) (m : CollMsg) : State :=
  match s.accepted? m with
  | none => s.holdMsg (.abortRequest m)
  | some (c, dev) =>
    if c.rank ≠ 0 then s.send dev (.abortRequest m)
    else if s.runsTo c.job m.cid m.seq = [] ∧ !c.past m.seq then s.holdMsg (.abortRequest m)
    else if s.runsTo c.job m.cid m.seq = [] then s.answerAbort m (if m.seq ∈ c.closed then 0 else 0x10)
    else (s.decideAbort c m).answerAbort m 0x10

/-- R302, R285. -/
def execAbortRequest (m : CollMsg) (s : State) : Out := .next (s.abortRequest m)

/-- A decision that a device must hold until a run of its CID is accepted; what has arrived for the aborted SEQs is
discarded (12 R285; 13 R302 step 5). -/
def State.noteDecision (s : State) (m : CollMsg) : State :=
  let s := s.holdMsg (.abortDecision m)
  if m.pass ≠ 1 then s else
  { s with units := { s.units with packets := s.units.packets.filter fun p =>
    !(decide (p.tenant = m.tenant ∧ p.cid = m.cid) && !seqLater p.seq m.seq) } }

/-- The decision ends a rank's runs and gathers whether any wrote its BUF (pass 1), then carries that bit
round (pass 2); pass 0 is the answer that an ABRT waits for (12 R285, R286; 13 R302). -/
def State.abortDecision (s : State) (m : CollMsg) : State :=
  if m.pass = 0 then
    (match m.waiter with
      | some w => s.deliver { w with writes := [.s m.dst (BitVec.ofNat 64 m.code)] }
      | none => s)
  else match s.accepted? m with
  | none => s.noteDecision m
  | some (c, dev) =>
    if m.pass = 1 then
      (if c.rank = 0 then
        (s.setCid { c with awaits := false, marked := c.marked || m.wrote }).send dev
          (.abortDecision { m with pass := 2 })
      else if m.noted then (s.setCid { c with awaits := true }).send dev (.abortDecision { m with noted := false })
      else
        let r := s.abortHere c m.seq
        r.1.send dev (.abortDecision { m with wrote := m.wrote || r.2 }))
    else if c.rank = 0 then s
    else (s.setCid { c with awaits := false, marked := c.marked || m.wrote }).send dev (.abortDecision m)

/-- R285, R286, R302. -/
def execAbortDecision (m : CollMsg) (s : State) : Out := .next (s.abortDecision m)

/-- A mismatch notice ends a rank's run of its CID and SEQ, and goes on to the next rank (12 R283). -/
def State.mismatchNotice (s : State) (m : CollMsg) : State :=
  match s.accepted? m with
  | none => s.holdMsg (.mismatchNotice m)
  | some (c, dev) =>
    if m.origin = s.devnum then s else
    let s := s.setCid (c.reach m.seq)
    let s := match s.run? m.tenant m.cid m.seq with | some r => s.endRunWith r 0x11 | none => s
    s.send dev (.mismatchNotice m)

/-- R283. -/
def execMismatchNotice (m : CollMsg) (s : State) : Out := .next (s.mismatchNotice m)

/-- The messages held for a CID act once a run of it has been accepted, before any step of it (13 R302). -/
def State.takeMsgs (s : State) (tenant cid : BitVec 16) : State :=
  let mine (e : Event) : Bool := match e with
    | .abortRequest m | .abortDecision m | .mismatchNotice m => decide (m.tenant = tenant ∧ m.cid = cid)
    | _ => false
  let go := s.units.messages.filter mine
  go.foldl (fun s e => match e with
    | .abortRequest m => s.abortRequest m
    | .abortDecision m => s.abortDecision m
    | .mismatchNotice m => s.mismatchNotice m
    | _ => s) { s with units := { s.units with messages := s.units.messages.filter fun e => !mine e } }

/-! ### COLL and ABRT (13 R299, R302) -/

/-- The acceptance checks of a loop-nest record after its read (13 R299). -/
def State.loopCheck (s : State) (j : Job) (d : List Word) : Option (Cause × Word) :=
  let illegal : Bool :=
    decide (bits (loopWord d 0) 18 12 ≠ 0) || decide (bits (loopWord d 3) 35 0 ≠ 0) ||
      decide (bits (loopWord d 4) 15 0 ≠ 0) || decide (2 < loopPat d) || !reduceFmtOk (loopOp d) (loopFmt d) ||
      (decide (loopPat d = 2) && decide (loopOp d ≠ 0)) || decide (loopN d < loopRank d + 1) || decide (loopN d = 1) ||
      decide (bits (loopWord d 4) 63 48 = 0) || decide (bits (loopWord d 4) 47 32 = 0) ||
      decide (bits (loopWord d 4) 31 16 = 0)
  let peer := d.getD 2 0
  let buf := d.getD 1 0
  let tier (p : Word) : Option Nat := if 0xFFF0 ≤ ptrIx p then none else (s.buf? j (ptrIx p)).map Buf.tier
  if illegal then some (.illegalOp, 0)
  else if tier peer ≠ some 3 then some (.bufRights, peer)
  else if 0xFFF0 ≤ ptrIx buf ∨ tier buf = some 3 then some (.bufRights, buf)
  else none

/-- The decisions held for a CID count at a rank whose first run of it is accepted: a COLL of an aborted SEQ is
stale (13 R302 steps 5 and 6). -/
def State.countHeld (s : State) (tenant cid : BitVec 16) (c : CidMark) : State × CidMark :=
  let mine (m : CollMsg) : Bool := decide (m.tenant = tenant ∧ m.cid = cid ∧ m.pass = 1)
  let note (e : Event) : Event := match e with
    | .abortDecision m => if mine m then .abortDecision { m with noted := true } else e
    | e => e
  ({ s with units := { s.units with messages := s.units.messages.map note } },
    s.units.messages.foldl (fun c e => match e with
      | .abortDecision m => if mine m then c.reach m.seq else c
      | _ => c) c)

/-- Notes an accepted run (12 R286, 13 R302). -/
def State.acceptRun (s : State) (e : Nat) (d : List Word) : State :=
  let cid := loopCid d
  let m := (s.cidOf s.core.cont.job cid).getD ⟨s.core.cont.job, cid, none, false, false, none, 0, false, [], none⟩
  let t := s.countHeld (((s.job? s.core.cont.job).map Job.tenant).getD 0) cid m
  let s := t.1.setCid { t.2 with ndev := some (loopNdev d), rank := loopRank d }
  let id := ((s.engine e).queue.getLast?.map fun c => c.id).getD 0
  let r : Run := ⟨s.core.cont.job, e, id, cid, loopSeq d, d, loopDigest d, 0, 0, false, false, []⟩
  ({ s with units := { s.units with runs := s.units.runs ++ [r] } } : State).takeMsgs (s.runTenant r) cid

/-- R299. -/
def execColl (hd : Hdr) (e : BitVec 4) (a : BitVec 6) (s : State) : Out :=
  s.engSlot hd e true none { s := [a], w := [Hdr.wi hd] } fun s n =>
    let p := s.s! a
    match s.syncRead needRW 64 p 64 0 false with
    | .stall t => t
    | .fail t c l v => t.failXl c v l
    | .ok s x =>
      let d := (wordsOf x 64).take 7
      match s.job! with
      | none => s.illegal
      | some j => match s.loopCheck j d with
        | some (c, q) => s.failAt c q
        | none => match s.syncWrite needRW 8 (ptrAdd p 0x38) 8 (0xFF * 2 ^ 56) 1 false with
          | .stall t => t
          | .fail t c l v => t.failXl c v l
          | .ok s _ => (s.enter hd n 3 d p none true).acceptRun n d

/-- R302: the abort is sent, and its token posts with the arbiter's answer. -/
def execAbrt (hd : Hdr) (d a : BitVec 6) (s : State) : Out :=
  s.tokSlot hd (s.pOn hd) false { s := [a], ds := [d] } fun s =>
    let p := s.s! a
    match s.syncRead needR 64 p 64 0 with
    | .stall t => t
    | .fail t c l v => t.failXl c v l
    | .ok s x =>
      let r := s.post? (Hdr.tok hd) (s.dstS d)
      r.1.sendAbort (((r.1.job? r.1.core.cont.job).map fun j => j.tenant).getD 0) (wordsOf x 64) (some (r.1.completion r.2 [])) (r.1.sDst d)

end Sys2Proof.Machine
end

