-- ==== Sys2Proof/Machine/Ed25519.lean ====
section
/-!
DEFINITION. Pure Ed25519 of RFC 8032, by which firmware images, dumps and attestation reports are signed (15
R335, R338, R339; log 18), over natural numbers modulo the field prime.
-/
namespace Sys2Proof.Machine

/-- The field prime, 2^255 - 19. -/
def edP : Nat := 0x7FFFFFFFFFFFFFFFFFFFFFFFFFFFFFFFFFFFFFFFFFFFFFFFFFFFFFFFFFFFFFED
/-- The order of the base point. -/
def edL : Nat := 0x1000000000000000000000000000000014DEF9DEA2F79CD65812631A5CF5D3ED

/-- b to the power e modulo m, for an exponent of at most so many bits. -/
def powMod (m b e : Nat) : Nat → Nat
  | 0 => 1 % m
  | n + 1 =>
    let r := powMod m b (e / 2) n
    if e % 2 = 1 then r * r % m * b % m else r * r % m

/-- The inverse in the field. -/
def edInv (x : Nat) : Nat := powMod edP x (edP - 2) 255
/-- A difference in the field. -/
def edSub (x y : Nat) : Nat := (x + edP - y % edP) % edP
/-- The constant -121665 / 121666 of the curve -x^2 + y^2 = 1 + d x^2 y^2. -/
def edD : Nat := 0x52036CEE2B6FFE738CC740797779E89800700A4D4141D8AB75EB4DCA135978A3

/-- A point in extended coordinates: x = X / Z, y = Y / Z, x y = T / Z. -/
structure EdPoint where
  x : Nat
  y : Nat
  z : Nat
  t : Nat
deriving DecidableEq, Repr

/-- The point of affine coordinates. -/
def EdPoint.affine (x y : Nat) : EdPoint := ⟨x, y, 1, x * y % edP⟩
/-- The neutral point. -/
def EdPoint.zero : EdPoint := EdPoint.affine 0 1

/-- The sum of two points. -/
def EdPoint.add (p q : EdPoint) : EdPoint :=
  let a := edSub p.y p.x * edSub q.y q.x % edP
  let b := (p.y + p.x) * (q.y + q.x) % edP
  let c := p.t * 2 * edD % edP * q.t % edP
  let d := p.z * 2 * q.z % edP
  let e := edSub b a
  let f := edSub d c
  let g := (d + c) % edP
  let h := (b + a) % edP
  ⟨e * f % edP, g * h % edP, f * g % edP, e * h % edP⟩

/-- A multiple of a point, for a scalar of at most so many bits. -/
def EdPoint.mul (p : EdPoint) (k : Nat) : Nat → EdPoint
  | 0 => EdPoint.zero
  | n + 1 =>
    let q := p.mul (k / 2) n
    if k % 2 = 1 then (q.add q).add p else q.add q

/-- The x coordinate of a y coordinate, with its lowest bit; none for no point of the curve. -/
def edRecover (y sign : Nat) : Option Nat :=
  let u := edSub (y * y % edP) 1
  let v := (edD * (y * y % edP) + 1) % edP
  let v3 := v * v % edP * v % edP
  let x := u * v3 % edP * powMod edP (u * (v3 * v3 % edP * v % edP) % edP) ((edP - 5) / 8) 252 % edP
  let vxx := v * (x * x % edP) % edP
  let root : Option Nat :=
    if vxx = u then some x
    else if vxx = edSub 0 u then some (x * powMod edP 2 ((edP - 1) / 4) 253 % edP)
    else none
  root.bind fun x => if x = 0 ∧ sign = 1 then none else some (if x % 2 = sign then x else edP - x)

/-- The base point: y = 4 / 5 and x even. -/
def edBase : EdPoint := EdPoint.affine
  0x216936D3CD6E53FEC0A4E231FDD6DC5C692CC7609525A7B2C9562D608F25D51A
  0x6666666666666666666666666666666666666666666666666666666666666658

/-- The 256 bits of a point: y, with the lowest bit of x above. -/
def EdPoint.encode (p : EdPoint) : Nat :=
  let i := edInv p.z
  p.y * i % edP + p.x * i % edP % 2 * 2 ^ 255
/-- The point of 256 bits. -/
def edDecode (n : Nat) : Option EdPoint :=
  let y := n % 2 ^ 255
  if edP ≤ y then none else (edRecover y (n / 2 ^ 255)).map fun x => EdPoint.affine x y

/-- Two points are the same. -/
def EdPoint.same (p q : EdPoint) : Bool :=
  decide (p.x * q.z % edP = q.x * p.z % edP) && decide (p.y * q.z % edP = q.y * p.z % edP)

/-- The scalar of a secret: the lower half of its hash with the bits that RFC 8032 sets and clears. -/
def edScalar (secret : BitVec 256) : Nat :=
  leNat ((sha512 (toLe 32 secret.toNat)).take 32) % 2 ^ 254 / 8 * 8 + 2 ^ 254

/-- The public key of a secret. -/
def edPublic (secret : BitVec 256) : BitVec 256 := BitVec.ofNat 256 (edBase.mul (edScalar secret) 256).encode

/-- The challenge of a signature: the hash of R, the public key and the message, modulo the order. -/
def edChallenge (r : Nat) (key : BitVec 256) (m : List Byte) : Nat :=
  leNat (sha512 (toLe 32 r ++ toLe 32 key.toNat ++ m)) % edL

/-- The signature of a message by a secret: R in the low half, S in the high half. -/
def edSign (secret : BitVec 256) (m : List Byte) : BitVec 512 :=
  let n := leNat (sha512 ((sha512 (toLe 32 secret.toNat)).drop 32 ++ m)) % edL
  let r := (edBase.mul n 256).encode
  BitVec.ofNat 512 (r + (n + edChallenge r (edPublic secret) m * edScalar secret) % edL * 2 ^ 256)

/-- A signature verifies: 8 S B = 8 R + 8 k A. -/
def edVerify (key : BitVec 256) (m : List Byte) (sig : BitVec 512) : Bool :=
  let r := sig.toNat % 2 ^ 256
  let s := sig.toNat / 2 ^ 256
  match edDecode key.toNat, edDecode r with
  | some a, some p =>
    decide (s < edL) && ((edBase.mul s 256).mul 8 4).same ((p.add (a.mul (edChallenge r key m) 256)).mul 8 4)
  | _, _ => false

end Sys2Proof.Machine
end

