-- ==== Sys2Proof/Machine/System.lean ====
section
/-!
DEFINITION. The system instructions and the system registers (14 R310, R319 to R321, R326 to R328; 02
R50; 05 R110, R115; 01 R33; 04 R75; 08 R168).
-/
namespace Sys2Proof.Machine

/-! ### System registers (14 R328) -/

/-- SR.CORE: one of the usable cores of the job's owned clusters, UNSPECIFIED (03 R69; log 5). -/
def State.srCore (s : State) : Nat :=
  let cs := match s.job! with | some j => j.owned.flatMap s.usable | none => []
  cs.getD (pickIn s.tick (s.core.key 7 0) cs.length) s.core.id

/-- The value of a system register as an SRRD reads it (14 R328). -/
def State.sysReg (s : State) (r : Nat) : Word :=
  let c := s.core
  let k := c.cont
  let y := c.sys
  let die := c.id / 288
  if 0x20 ≤ r ∧ r ≤ 0x3F then (c.regs.ras[r - 0x20]?.getD 0).setWidth 64
  else if 0x40 ≤ r ∧ r ≤ 0x47 then c.sVal s.tick (56 + (r - 0x40))
  else if 0x80 ≤ r ∧ r ≤ 0x9F then (c.regs.tok (c.tIx (r - 0x80))).word0
  else if 0x100 ≤ r ∧ r ≤ 0x13F then (s.slots.entries.getD die []).getD (r - 0x100) 0
  else if 0x150 ≤ r ∧ r ≤ 0x15B then s.mem.rhb.getD (r - 0x150) 0
  else match r with
  | 0x000 => c.regs.fpst.setWidth 64
  | 0x001 => BitVec.ofNat 64 (k.gsize * 2 ^ 8 + k.member)
  | 0x002 => BitVec.ofNat 64 s.srCore
  | 0x003 => k.unit.setWidth 64
  | 0x004 => BitVec.ofNat 64 (8 * k.handler.toNat + 4 * Bool.toNat k.debug + 2 * k.strict.toNat + k.det.toNat)
  | 0x005 => BitVec.ofNat 64 k.lic
  | 0x006 => BitVec.ofNat 64 (k.run - k.stretch)
  | 0x008 => s.copyEntry (entry c.regs.view 0)
  | 0x009 => s.copyEntry (entry c.regs.view 1)
  | 0x010 => y.cause.setWidth 64
  | 0x011 => y.epc.setWidth 64
  | 0x012 => y.fmask.setWidth 64
  | 0x013 => y.tval
  | 0x014 => y.frec.setWidth 64
  | 0x015 => y.hreason.setWidth 64
  | 0x016 => y.gmask.setWidth 64
  | 0x017 => y.hact.setWidth 64
  | 0x018 => y.subslot.setWidth 64
  | 0x019 => BitVec.ofNat 64 y.dbg.toNat
  | 0x01A => BitVec.ofNat 64 c.regs.rascnt
  | 0x01B => c.regs.rasn.setWidth 64
  | 0x048 => BitVec.ofNat 64 ((c.pVal s.tick 6).toNat + 2 * (c.pVal s.tick 7).toNat)
  | 0x049 => (c.regs.tok 30).word0
  | 0x04A => (c.regs.tok 31).word0
  | 0x140 => BitVec.ofNat 64 (s.slots.modes.getD die false).toNat
  | _ => 0

/-- Writes a token through a system register once every posting in flight to it has posted; a posting of the
slot's own bundle posts to the token that it replaces or to its own, in issue order (05 R110). -/
def State.srTok (s : State) (t : Nat) (v : Word) : State :=
  if s.tokBusy t then s.stall else s.imageTok t (Token.ofWords v 0)

/-- Writes a system register for the bundles after this one; a register marked RO discards it (14 R326,
R328). -/
def State.setSysReg (s : State) (r : Nat) (v : Word) : State :=
  let y := s.core.sys
  if 0x20 ≤ r ∧ r ≤ 0x3F then s.later (.ras (r - 0x20) (v.setWidth 32))
  else if 0x40 ≤ r ∧ r ≤ 0x47 then s.later (.scalar (56 + (r - 0x40)) v)
  else if 0x80 ≤ r ∧ r ≤ 0x9F then s.srTok (s.core.tIx (r - 0x80)) v
  else match r with
  | 0x000 => s.later (.fpst (v.setWidth 6))
  | 0x011 => s.setSys { y with epc := v.setWidth 32 }
  | 0x017 => s.setSys { y with hact := v.setWidth 8 }
  | 0x018 => s.setSys { y with subslot := v.setWidth 32 }
  | 0x019 => s.setSys { y with dbg := v.getLsbD 0 }
  | 0x01A => s.later (.rascnt (min 32 v.toNat))
  | 0x01B => s.later (.rasn (v.setWidth 8))
  | 0x048 => s.later (.preds (v.setWidth 2))
  | 0x049 => s.srTok 30 v
  | 0x04A => s.srTok 31 v
  | _ => s

/-- R326, R327, R328, 02 R50. -/
def execSrrd (hd : Hdr) (d : BitVec 6) (r : BitVec 10) (s : State) : Out :=
  if !srListed r.toNat then .next s.illegal else
  s.guarded hd { ds := [d] } fun s =>
    if !srUser r.toNat && !s.core.cont.handler then s.illegal
    else s.sResult 14 d (s.sysReg r.toNat)

/-- R326, R327, R328, 05 R110. -/
def execSrwr (hd : Hdr) (r : BitVec 10) (a : BitVec 6) (s : State) : Out :=
  if !srListed r.toNat then .next s.illegal else
  s.guarded hd { s := [a] } fun s =>
    if r ≠ 0 ∧ !s.core.cont.handler then s.illegal else s.setSysReg r.toNat (s.s! a)

/-! ### Held engines (14 R319, R320) -/

/-- The numbers of the engines of a die. -/
def dieEngines (core : Nat) : List Nat := (List.range 16).map (core / 288 * 16 + ·)

/-- A core releases an engine, whose head goes on (14 R320). -/
def State.releaseEngine (s : State) (e : Nat) : State :=
  (s.setEngine e { s.engine e with holder := none, shown := [] }).pushEngine e

/-- Releases every engine that the cores of the focused continuation hold (14 R310). -/
def State.releaseEngines (s : State) : State :=
  (List.range 64).foldl (fun s e =>
    if s.core.members.any fun id => decide ((s.engine e).holder = some id) then s.releaseEngine e else s) s

/-- The step of the run that a COLL carries. -/
def State.stepOf (s : State) (c : Cmd) : Nat :=
  ((s.units.runs.find? fun r => decide (r.cmd = c.id)).map fun r => r.step).getD 0

/-- Bytes 0x00 to 0x77 of the image of a command at a queue position (14 R319). -/
def State.imageBody (s : State) (c : Cmd) (pos : Nat) : Nat :=
  let desc := ((c.desc.take 7).zip (List.range 7)).foldl (fun x w => x + w.1.toNat * 2 ^ (64 * w.2)) 0
  let status := if c.kind ≤ 2 then c.status 0xFF else if c.kind = 3 then 0xFF * 2 ^ 56 + s.stepOf c * 2 ^ 48 else 0
  let stage := if pos = 0 then 2 else if pos = 1 then 1 else 0
  let prog := match c.kind with | 3 => s.stepOf c | 4 => 0 | _ => c.row % 2 ^ 32 * 2 ^ 32 + c.col % 2 ^ 32
  let tok (t : Option (Nat × BitVec 16)) (te at' : Nat) : Nat := match t with
    | some (n, k) => n % 32 * 2 ^ te + 2 ^ (te - 1) + k.toNat * 2 ^ at'
    | none => 0
  desc + status * 2 ^ 448 + (c.kind * 2 ^ 60 + stage * 2 ^ 58 + pos % 32 * 2 ^ 53) * 2 ^ 512 + prog * 2 ^ 576 +
    c.recPtr.toNat * 2 ^ 640 + (tok c.tok 59 32 + tok (if c.freed then none else c.tsf) 53 16) * 2 ^ 704 +
    c.wo.toNat * 2 ^ 768 + (c.wi.getD 0 0).toNat * 2 ^ 832 + (c.wi.getD 1 0).toNat * 2 ^ 896

/-- SEAL of an image: over bytes 0x00 to 0x4F and 0x58 to 0x77 (14 R319). -/
def imageSeal (body : Nat) : BitVec 64 :=
  Config.sealOf (toLe 0x50 body ++ toLe 0x20 (body / 2 ^ (8 * 0x58)))

/-- The 128 bytes of an image. -/
def State.image (s : State) (c : Cmd) (pos : Nat) : Nat :=
  let b := s.imageBody c pos
  b + (imageSeal b).toNat * 2 ^ (8 * 0x78)

/-- The first n bytes of key ranges. -/
def takeSpans : Nat → List (Nat × Nat) → List (Nat × Nat)
  | _, [] => []
  | n, (k, l) :: ks => if n ≤ l then (if n = 0 then [] else [(k, n)]) else (k, l) :: takeSpans (n - l) ks

/-- The commands of a job in an engine's queue, with their positions. -/
def Engine.ofJob (g : Engine) (job : Nat) : List (Cmd × Nat) :=
  (g.queue.zip (List.range g.queue.length)).filter fun c => decide (c.1.job = job)

/-- R320: the engine is held at a piece's end, the images are written, and s[d] is their number. -/
def execEqrd (hd : Hdr) (d : BitVec 6) (e : BitVec 4) (a : BitVec 6) (s : State) : Out :=
  s.guarded hd { s := [a], ds := [d] } fun s =>
    if !s.core.cont.handler then s.illegal else
    let n := engineOf s.core.id e.toNat
    let g := s.engine n
    if (g.holder.any fun h => decide (h ≠ s.core.id)) || !g.between then s.stall else
    let cs := g.ofJob s.core.cont.job
    let t := s.setEngine n { g with holder := some s.core.id, shown := cs.map Prod.fst }
    let held := { t with units := { t.units with images := cs.map (fun (c : Cmd × Nat) => (s.image c.1 c.2, c.1)) ++ t.units.images } }
    let x := (cs.zip (List.range cs.length)).foldl (fun x c => x + s.image c.1.1 c.1.2 * 2 ^ (1024 * c.2)) 0
    let p := s.s! a
    let len := 128 * cs.length
    match held.syncAt needW 128 p 4096
        (fun j lease => if len = 0 then .ok held 0 else held.syncPeer j lease .write p len x 0)
        (fun t ks => .ok (t.wrThrough (takeSpans len ks) x) 0)
        (fun t =>
          if t.heldByX (ptrIx p) (ptrOff p) len then .stall t.stall
          else .ok (t.setStore (t.core.store.write (ptrIx p) (ptrOff p) len x)) 0) with
    | .stall t => t
    | .fail t c l v => (({ t with units := { t.units with images := s.units.images } } : State).setEngine n g).failXl c v l
    | .ok t _ => t.sResult 14 d (BitVec.ofNat 64 cs.length)

/-! ### Rebuilding a queue (14 R321) -/

/-- Gives a posting to the continuation of a record, to a token of a member (14 R319 RECORD). -/
def State.givePost (s : State) (pa member : Nat) (q : Posting) : State :=
  match s.runner? pa with
  | some k =>
    let m := s.coreOf (k.members.getD member k.id)
    s.setCore { m with pipe := { m.pipe with posts := m.pipe.posts ++ [q] } }
  | none => match s.rec? pa with
    | some r => s.setRec { r with posts := r.posts ++ [(member, q)] }
    | none => s

/-- Takes a posting from where it stands: from a core, or from the record `old`, with its member. -/
def State.takePost (s : State) (id old : Nat) : State × Option (Nat × Posting) :=
  let mine (q : Posting) : Bool := decide (q.id = id)
  match (s.core :: s.parked).find? fun c => c.pipe.posts.any mine with
  | some c =>
    (s.setCore { c with pipe := { c.pipe with posts := c.pipe.posts.filter fun q => !mine q } },
      (c.pipe.posts.find? mine).map fun q => (c.cont.member, q))
  | none => match s.rec? old with
    | some r => (s.setRec { r with posts := r.posts.filter fun q => !mine q.2 }, r.posts.find? fun q => mine q.2)
    | none => (s, none)

/-- The posting of a rewritten command to a token with a saved cover value: its own, moved to the record `new`
where that is another, or a new one for an image whose command has posted it or that another image carries on
(14 R321). -/
def State.rePost (s : State) (what : Option (Nat × BitVec 16)) (post : Option Nat) (old new : Nat) (anew : Bool) :
    State × Option Nat :=
  match what with
  | none => (s, none)
  | some (tok, cover) =>
    let r := if anew then (s, none) else match post with
      | some id => s.takePost id old
      | none => (s, none)
    let q : Nat × Posting := r.2.getD (0, ⟨r.1.nextId, tok, cover, [], false, [], none, [], none⟩)
    (({ r.1 with nextId := r.1.nextId + 1 } : State).givePost new q.1 q.2, some q.2.id)

/-- A command that goes on from an image, with the record of its RECORD field, whose tokens it posts to. -/
def State.toRecord (s : State) (c : Cmd) (ptr : Word) (pa : Nat) (anew : Bool) : State × Cmd :=
  let same := !anew && decide (pa = c.recPa)
  let held (p : Option Nat) : Bool := p.any fun id => (s.core :: s.parked).any (fun k => k.pipe.posts.any fun q => decide (q.id = id)) ||
    (s.rec? pa).any fun r => r.posts.any fun q => decide (q.2.id = id)
  let re (s : State) (what : Option (Nat × BitVec 16)) (p : Option Nat) : State × Option Nat :=
    if same && held p then (s, p) else s.rePost what p c.recPa pa anew
  let f := if c.freed then (s, c.tsfPost) else re s c.tsf c.tsfPost
  let t := re f.1 c.tok c.tokPost
  ({ t.1 with nextId := t.1.nextId + 1 },
    { c with
      id := if anew then t.1.nextId else c.id, recPtr := ptr, recPa := pa, tsfPost := f.2, tokPost := t.2
      job := s.core.cont.job })

/-- Two images are the same: they agree outside RECORD, which alone a handler may change (14 R319). -/
def sameImage (x y : Nat) : Bool := decide (x % 2 ^ 640 = y % 2 ^ 640 ∧ x / 2 ^ 704 = y / 2 ^ 704)

/-- The command that an image goes on with: an image whose SEAL holds is one that this device has written, the
command as it then stood, however long ago that was (14 R319, R321; log 28). -/
def State.imageOf (s : State) (x : Nat) : Option Cmd := (s.units.images.find? fun i => sameImage i.1 x).map Prod.snd

/-- The commands that images name, if each is sealed and no two are the same (14 R321). -/
def State.sealed (s : State) : List Nat → Option (List (Nat × Cmd))
  | [] => some []
  | x :: xs => match s.imageOf x, s.sealed xs with
    | some c, some cs => if xs.any (sameImage x) then none else some ((x, c) :: cs)
    | _, _ => none

/-- The records of the images' RECORD fields: records of the job (14 R321). -/
def State.recordsOf (s : State) (j : Job) : List (Nat × Cmd) → State × Option (List (Nat × Cmd × Word × Nat))
  | [] => (s, some [])
  | (x, c) :: cs =>
    let ptr := BitVec.ofNat 64 (fld x 0x50 8)
    match s.recordKey j ptr 64 with
    | (s, .error _) => (s, none)
    | (s, .ok pa) =>
      if (s.rec? pa).all fun r => decide (r.job ≠ j.pa) then (s, none) else
      let r := s.recordsOf j cs
      (r.1, r.2.map ((x, c, ptr, pa) :: ·))

/-- The images with their commands and the records of their RECORD fields, or the cause that one of them fails
with (14 R321). -/
def State.imagesOf (s : State) (j : Job) (xs : List Nat) : State × Except Cause (List (Nat × Cmd × Word × Nat)) :=
  match s.sealed xs with
  | none => (s, .error .illegalOp)
  | some cs => match s.recordsOf j cs with
    | (s, none) => (s, .error .bufRights)
    | (s, some rs) => (s, .ok rs)

/-- A queue with the positions of a job's entries refilled in order: surplus positions are freed, surplus
entries appended (14 R321). -/
def refill (job : Nat) : List Cmd → List Cmd → List Cmd
  | [], new => new
  | c :: cs, new =>
    if c.job ≠ job then c :: refill job cs new
    else match new with
      | [] => refill job cs []
      | d :: ds => d :: refill job cs ds

/-- An entry that was present at the EQRD and not rewritten ends CANCELLED (14 R321; 09 R214). -/
def State.cancelCmd (s : State) (e : Nat) (c : Cmd) : State :=
  let f : EngFail := ⟨0x0A, .cancel, 0, 0, 0⟩
  match s.units.runs.find? fun r => decide (r.cmd = c.id) with
  | some r => s.endRun r 0x0A f
  | none => s.endCommand (c.failing e f)

/-- The run of a COLL that goes on from an image with the engine that now holds it: at the step of PROG, which a
committed run has passed; a run that has ended here is begun again, at that step (14 R321; log 28). -/
def State.resumeRun (s : State) (e : Nat) (c : Cmd) (prog : Nat) : State :=
  if c.kind ≠ 3 then s else
  match s.units.runs.find? fun r => decide (r.cmd = c.id) with
  | some r =>
    let q := { r with eng := e }
    let q := if r.step = prog ∨ r.stage = 4 then q else { q with stage := 2, step := prog, sent := false }
    { s with units := { s.units with runs := s.units.runs.map fun p => if p.cmd = c.id then q else p } }
  | none =>
    let r : Run := ⟨c.job, e, c.id, loopCid c.desc, loopSeq c.desc, c.desc, loopDigest c.desc,
      if prog = 0 then 0 else 2, prog, false, false, []⟩
    { s with units := { s.units with runs := s.units.runs ++ [r] } }

/-- Rebuilds the running job's entries of a held engine and releases it: each goes on from its image, a command
that other images already carry on as one of its own; what was present at the EQRD and is not rewritten ends
CANCELLED (14 R321). -/
def State.rebuild (s : State) (e : Nat) (cs : List (Nat × Cmd × Word × Nat)) : State :=
  let job := s.core.cont.job
  let copies (id : Nat) : Nat := ((dieEngines s.core.id).filter fun f => (s.engine f).queue.any fun q => decide (q.id = id)).length
  let r := cs.foldl (fun (acc : State × List (Nat × Cmd)) c =>
    let anew := decide (2 ≤ copies c.2.1.id) || acc.2.any fun d => decide (d.2.id = c.2.1.id)
    let t := acc.1.toRecord c.2.1 c.2.2.1 c.2.2.2 anew
    (t.1, acc.2 ++ [(c.1, t.2)])) (s, [])
  let s := r.1
  let others := (dieEngines s.core.id).filter (· ≠ e)
  let gone := ((s.engine e).ofJob job).filter fun c =>
    (s.engine e).shown.any (fun q => decide (q.id = c.1.id)) && !(cs.any fun d => decide (d.2.1.id = c.1.id)) &&
      !(others.any fun f => (s.engine f).queue.any fun q => decide (q.id = c.1.id))
  let s := gone.foldl (fun s c => s.cancelCmd e c.1) s
  let s := s.setEngine e { s.engine e with queue := refill job (s.engine e).queue (r.2.map Prod.snd) }
  (r.2.foldl (fun s c => s.resumeRun e c.2 (fld c.1 0x48 8)) s).releaseEngine e

/-- R321. -/
def execEqwr (hd : Hdr) (e : BitVec 4) (a b : BitVec 6) (s : State) : Out :=
  s.guarded hd { s := [a, b] } fun s =>
    let n := engineOf s.core.id e.toNat
    let k := (s.s! b).toNat
    let g := s.engine n
    let kept := (g.queue.filter fun c => decide (c.job ≠ s.core.cont.job)).length
    if !s.core.cont.handler || decide (g.holder ≠ some s.core.id) || decide (32 < k) || decide (32 < kept + k)
      then s.illegal
    else
      let p := s.s! a
      match s.job! with
      | none => s.failAt .bufBounds p
      | some j => match (if k = 0 then .ok s 0 else s.syncRead needR 1 p (128 * k) 0) with
        | .stall t => t
        | .fail t c l v => t.failXl c v l
        | .ok t x => match t.imagesOf j (rows x 0 128 k) with
          | (t, .error c) => t.fail c 0 0
          | (t, .ok cs) => t.rebuild n cs

/-! ### Leaving the handler (14 R310) -/

/-- Handler mode ends on every core of the continuation, at SR.EPC. -/
def State.leaveHandler (s : State) : State :=
  let epc := s.core.sys.epc
  s.core.members.foldl (fun s id =>
    let c := s.coreOf id
    s.setCore { c with
      cont := { c.cont with handler := false }, regs := c.regs.refetchCode, pipe := { c.pipe with npc := epc } }) s

/-- ERET with HACT 0: the interrupted yield is completed, or the next bundle is at SR.EPC; with `sub` the
next fetch there takes SR.SUBSLOT for a BRK slot. -/
def State.eretResume (s : State) (sub : Bool) : State :=
  let y := s.core.sys
  let s := s.leaveHandler
  let s := s.setSys { s.core.sys with armed := if sub then some y.subslot else none }
  if y.hreason = 1 then s.onYield s.core.cont.run s.core.cont.lix else s

/-- RETURNS FROM THE HANDLER (14 R310): acts on SR.HACT, once the results of the handler's slots have
landed and its postings have posted; engines held are released. -/
def State.eret (s : State) (sub : Bool) : State :=
  if !s.core.cont.handler then s.illegal else
  if s.core.members.any fun id => (s.coreOf id).pipe.posts.any fun p =>
      decide (32 ≤ p.tok) && decide (p.id < s.core.pipe.base) then s.stall else
  let s := s.afterSlots
  let s := s.core.members.foldl (fun s id => s.setCore ((s.coreOf id).landAll s.tick)) s
  let s := s.releaseEngines
  let y := s.core.sys
  let k := s.core.cont
  match (bits y.hact.toNat 3 0) with
  | 0 => s.eretResume sub
  | 1 =>
    if s.pinned then s.leaveHandler
    else s.switchOut csReady y.epc.toNat k.run (if y.hreason = 1 then k.lix else 0xFFFF) 0
  | 2 => s.freeze y.cause.toNat y.fmask y.tval y.epc 0 y.epc
  | 3 =>
    let st := bits y.hact.toNat 7 4
    let t := s.leaveHandler.raiseTo k.lic
    (t.setPipe { t.core.pipe with pc := y.epc }).beginDrain (if 1 ≤ st ∧ st ≤ 4 then st else 2) y.cause.toNat
  | _ => s.illegal

/-- R310. -/
def execEret (hd : Hdr) (s : State) : Out := s.guarded hd {} fun s => s.eret false
/-- R310. -/
def execEretS (hd : Hdr) (s : State) : Out := s.guarded hd {} fun s => s.eret true

/-! ### Dropping what caches and ports hold (14 R326) -/

/-- A store of the focused continuation, those of the cores that it has left among them, is not yet visible
within a scope: its core, its cluster or every agent (14 R326; 12 R262). -/
def State.storesOwed (s : State) (scope : Nat) : Bool :=
  let short (a : Nat) (p : Nat × Nat) : Bool :=
    let need := max scope (s.scopeAbout (s.storeEntry scope a p.1) (some s.core.id))
    let level := ((s.onWay.find? fun r => decide (r.agent = a ∧ r.seq = p.1)).map Ripe.level).getD 0
    decide (level ≤ min 2 need)
  ((s.agentOf s.devnum s.core.id).pend.any (short s.core.id)) || match s.rec? s.core.cont.recPa with
    | some r => r.owed.any fun o => (s.agentOf s.devnum o.1).pend.any fun p => decide (p.1 = o.2) && short o.1 p
    | none => false

/-- The instruction caches of a scope drop the lines of ranges (04 R75). -/
def State.dropCode (s : State) (scope : Nat) (ks : List (Nat × Nat)) : State :=
  let hit (o : OldWord) : Bool := inRanges (lineSpans ks) o.key
  let cores := if scope = 0 then [s.core.id] else clusterCores (s.core.id / 24)
  let drop (o : OldWord) : OldWord := if hit o then { o with dropped := o.dropped ++ cores } else o
  let old := if scope = 2 then s.mem.icOld.filter (fun o => !hit o) else s.mem.icOld.map drop
  let gone (b : BadPlace) : Bool := match b with
    | .code c l => (decide (scope = 2) || cores.contains c) && inRanges (lineSpans ks) (64 * l)
    | _ => false
  let heal (c : Core) : Core := { c with store := { c.store with bad := c.store.bad.filter fun b => !gone b } }
  { s with core := heal s.core, parked := s.parked.map heal, mem := { s.mem with icOld := old } }

/-- R326, 04 R75. -/
def execIcinv (hd : Hdr) (c : BitVec 2) (a b : BitVec 6) (s : State) : Out :=
  if c = 3 then .next s.illegal else
  s.guarded hd { s := [a, b] } fun s =>
    let p := s.s! a
    let n := (s.s! b).toNat
    if n = 0 then s else
    match s.job! with
    | none => s.failAt .bufBounds p
    | some j => match s.check j s.osize needX true (ptrIx p) (ptrOff p) n with
      | .error k => s.failAt k p
      | .ok pl =>
        if s.storesOwed c.toNat then s.stall else
        match pl with
        | .core _ => s
        | .buf bf =>
          let ks := (bf.pieces (ptrOff p) n).filterMap fun q =>
            match s.pureKey j.tenant.toNat bf.tier (q.1 % 2 ^ 48) with | .ok k => some (k, q.2) | .error _ => none
          s.dropCode c.toNat ks

/-- Pseudo-channel j of stack s is retired (08 R165, R177). -/
def State.channelOff (s : State) (stack j : Nat) : Bool := (s.host.retpc.getD stack 0).getLsbD j

/-- The retired channel of an entry that its interleave is changed for first: of the lowest stack, its lowest
channel. 08 R178 does not say which comes first, and this is the model's choice (log 52). -/
def State.offChannel (s : State) (b : Buf) : Option (Nat × Nat) :=
  (List.range 12).findSome? fun k => if !bitOf b.smask k then none else
    ((List.range b.pccount).find? fun i => s.channelOff k (b.pcfirst + i)).map fun i => (k, b.pcfirst + i)

/-- The longest run of consecutive channels that pass a test, the lowest of equal ones, from a channel on,
as (first, length). -/
def longestRun (ok : Nat → Bool) (first n : Nat) : Nat × Nat :=
  let runFrom (i : Nat) : Nat := ((List.range (n - i)).find? fun k => !ok (first + i + k)).getD (n - i)
  (List.range n).foldl (fun m i => if m.2 < runFrom i then (first + i, runFrom i) else m) (first, 0)

/-- The new interleave of an entry whose set includes a channel of a stack: SMASK, PCFIRST, PCCOUNT
(08 R178). -/
def State.newInterleave (s : State) (b : Buf) (stack : Nat) : Nat × Nat × Nat :=
  let r := longestRun (fun j => (List.range 12).all fun k => !bitOf b.smask k || !s.channelOff k j) b.pcfirst b.pccount
  if 0 < r.2 then (b.smask, r.1, r.2)
  else if b.smask ≠ 2 ^ stack then (b.smask - 2 ^ stack, b.pcfirst, b.pccount)
  else (b.smask, ((List.range 96).find? fun j => !s.channelOff stack j).getD 0, 1)

/-- Writes bits [63:38] of word 0x10 of a table entry by an atomic write, which the ports use at once; a
change of the entry that they do not yet use stays so (08 R178, 01 R33). -/
def State.putInterleave (s : State) (key : Nat) (f : Nat × Nat × Nat) : State :=
  let v := f.1 * 2 ^ 14 + f.2.1 * 2 ^ 7 + f.2.2
  let port := setBits (s.rdPort key 8) 63 38 v
  let s := s.wr key 8 (setBits (s.rd key 8) 63 38 v)
  { s with mem := { s.mem with
    btOld := ((List.range 8).map fun i => (key + i, BitVec.ofNat 8 (port / 256 ^ i))) ++
      s.mem.btOld.filter fun c => !(decide (key ≤ c.1) && decide (c.1 < key + 8)) } }

/-- Gives an entry that includes a retired channel a new interleave, until it includes none; `fuel` is
more than its stacks. -/
def State.reinterleave (s : State) (j : Job) (ix : Nat) : Nat → State
  | 0 => s
  | n + 1 => match s.buf? j ix with
    | none => s
    | some b => if b.tier ≠ 0 then s else
      match s.offChannel b with
      | none => s
      | some (k, _) => (s.putInterleave (j.btab + 32 * ix + 16) (s.newInterleave b k)).reinterleave j ix n

/-- The words of an entry that an access keeps, with the interleave that the device has given it meanwhile: held
requests go to their new places (08 R177, R178; 01 R33). -/
def State.movedEntry (s : State) (ws : List Nat) : Nat → List Nat
  | 0 => ws
  | n + 1 => match ws with
    | [w0, w1, w2, w3] => (match Buf.ofWords w0 w1 w2 w3 with
      | none => ws
      | some b => if b.tier ≠ 0 then ws else match s.offChannel b with
        | none => ws
        | some (k, _) =>
          let f := s.newInterleave b k
          s.movedEntry [w0, w1, setBits w2 63 38 (f.1 * 2 ^ 14 + f.2.1 * 2 ^ 7 + f.2.2), w3] n)
    | _ => ws

/-- The accesses in flight keep their entries with the new interleave (08 R177). -/
def State.moveAccesses (s : State) : State :=
  let f (a : Access) : Access := { a with entries := a.entries.map fun e => (e.1, s.movedEntry e.2 16) }
  { s with agenda := s.agenda.map fun e => match e with
    | .memoryPortAccess a => .memoryPortAccess (f a)
    | .atomicPerform a => .atomicPerform (f a)
    | .batchPerform a => .batchPerform (f a)
    | e => e }

/-- Phase 2 of R177 for every entry of a job. -/
def State.reinterleaveJob (s : State) (j : Job) : State :=
  if s.host.retpc.all fun m => decide (m = 0) then s
  else (List.range (j.btn + 1)).foldl (fun s ix => s.reinterleave j ix 16) s

/-- R326, 01 R33, 08 R175, R177: the ports and lenders use the current entries. -/
def execBtinv (hd : Hdr) (s : State) : Out :=
  s.guarded hd {} fun s =>
    if !s.core.cont.handler then s.illegal
    else if s.mem.chanHeld ≠ [] then s.stall
    else match s.job! with
    | none => s
    | some j =>
      let lt (t : Nat × Nat) : Nat × Nat := (t.1 * 32, 32 * (t.2 + 1))
      let rs := [(j.btab, 32 * (j.btn + 1)), lt s.leaseTable, lt (s.host.ltbase.toNat, s.host.ltn.toNat)]
      let m := { s.mem with btOld := s.mem.btOld.filter (fun c => !inRanges rs c.1), leaseRoot := none }
      { s with mem := m }.reinterleaveJob j

/-- Walks for a tenant that begin from now on use the current entries for the addresses of a range, or for all
with length 0, and the current TRBASE and TRN (08 R165, R168). -/
def State.renewTables (s : State) (tenant va n : Nat) : State :=
  let used (t : WalkTable) (a : Nat) : Bool := decide (t.key ≤ a ∧ a < t.key + t.size) &&
    !(decide (t.tenant = tenant) && (decide (n = 0) ||
      let first := t.va + (a - t.key) / 8 * t.per
      (decide (first < va + n) && decide (va < first + t.per))))
  let kept := s.walkTables
  let s := { s with mem := { s.mem with
    walkRoot := none, ptOld := s.mem.ptOld.filter fun c => kept.any fun t => used t c.1 } }
  let left := s.walkTables.map fun t => (t.key, t.size)
  { s with mem := { s.mem with ptOld := s.mem.ptOld.filter fun c => inRanges left c.1 } }

/-- R326, 08 R168. -/
def execTlbinv (hd : Hdr) (a b : BitVec 6) (s : State) : Out :=
  s.guarded hd { s := [a, b] } fun s =>
    if !s.core.cont.handler then s.illegal
    else match s.job! with
    | none => s
    | some j =>
      let va := (s.s! a).toNat % 2 ^ 48
      let n := (s.s! b).toNat
      let s := s.renewTables j.tenant.toNat va n
      { s with mem := { s.mem with tlb := s.mem.tlb.filter (fun t =>
        !(decide (t.tenant = j.tenant.toNat) &&
          (decide (n = 0) || (decide (t.va < va + n) && decide (va < t.va + t.size))))) } }

/-- 04 R77 case 4, R82: an IMM slot is part of its owner; one with no owner makes its bundle trap. -/
def execImm (_val : BitVec 20) (s : State) : Out := .next (s.fail .illegalBundle 0 0)

end Sys2Proof.Machine
end

