-- ==== Sys2Proof/Machine/Issue.lean ====
section
/-!
DEFINITION. The issue of a bundle: fetch, framing, decode, the checks before its slots issue, and the
order in which the slots of a bundle and the members of a gang act (04 R73 to R92; 03 R65, R66; 14 R304,
R305, R322, R324, R325; 10 R233). `run` stands for the meaning of one slot.
-/
namespace Sys2Proof.Machine

/-! ### Fetch (04 R73 to R75) -/

/-- A slot word as an instruction cache gives it: as memory and the stores of the core and its cluster have it, or
an older word that no ICINV has made the core drop, UNSPECIFIED (04 R75; log 5); none where no translation reaches
it. -/
def State.fetchWord (s : State) (j : Job) (o : ObjInfo) (off : Nat) : Option SlotWord :=
  match s.codeKeys j o off 4 with
  | .ok ((key, _) :: _) =>
    if 2 ^ 63 ≤ key then none else
    let cur : SlotWord := BitVec.ofNat 32 (s.ownBytes (s.core.id / 24) s.core.store.l1 key 4)
    let old := (s.mem.icOld.filter fun w => decide (w.key = key) && !w.dropped.contains s.core.id).map OldWord.word
    some (if old = [] then cur else (cur :: old).getD (pickIn s.tick (2 ^ 50 + key) (old.length + 1)) cur)
  | _ => none

/-- The number of slots of the eight from a PC that lie in the code section. -/
def ObjInfo.slotsFrom (o : ObjInfo) (pc : Nat) : Nat := min 8 ((o.codelen - pc) / 4)

/-- The slot words from a PC: eight, or those up to the end of the code section or the first that no translation
reaches. -/
def State.fetchWords (s : State) (o : ObjInfo) (pc : Nat) : List SlotWord :=
  match s.job! with
  | none => []
  | some j => (((List.range (o.slotsFrom pc)).map fun i => s.fetchWord j o (pc + 4 * i)).takeWhile Option.isSome).filterMap id

/-- The first BRK of a bundle becomes the substituted word (14 R310). -/
def substitute (w : SlotWord) : List SlotWord → List SlotWord
  | [] => []
  | v :: vs =>
    if v.extractLsb' 20 8 = 0x0F#8 then w :: vs
    else if stopBit v then v :: vs
    else v :: substitute w vs

/-- The pointer of a byte of a code section. -/
def ObjInfo.codePtr (o : ObjInfo) (pc : Nat) : Word := ptrAdd o.ptr (o.codeoff + pc)

/-! ### The checks before the slots issue (04 R85) -/

/-- The bundle in turn traps before any slot issues, with a given FMASK (04 R85), and for XLATE with the level and
the pointer of the fetch. -/
def State.bundleTrap (s : State) (cause : Cause) (slot : Nat) (mask : BitVec 8) (tval : Word)
    (xl : Option (Nat × Word) := none) : State :=
  let s := s.setPipe { s.core.pipe with fails := [(slot, cause, tval, 0)], xl := xl }
  s.trap cause mask tval 0 s.core.pipe.pc (BitVec.ofNat 24 (2 ^ s.core.members.length - 1))

/-- A link of a member has been open longer than MOLC (10 R233). -/
def State.molcDue (s : State) (id : Nat) : Bool :=
  let c := s.coreOf id
  (s.openLinks id c.cont.recPa).any fun p => decide (p.2.started + c.cont.obj.molc + 1 ≤ c.cont.cycles)

/-- R322: a bundle that would issue at number RUN of its stretch traps RUN_OVERRUN. -/
def execRunOverrun (s : State) : Out :=
  .next (if !s.core.cont.handler && decide (s.core.cont.run ≤ s.core.cont.stretch) then s.overrun else s)

/-- R233: the chains of the continuation are cancelled and it freezes as for the watchdog. -/
def execMolcExpiry (s : State) : Out :=
  .next (if !s.core.cont.handler && s.core.members.any s.molcDue then
    (s.core.members.foldl (fun s id => s.cancelChains id (s.coreOf id).cont.recPa) s).overrun
  else s)

/-- R90: the results that are due land, with their flags. -/
def execResultLanding (s : State) : Out := .next { s with core := s.core.landDue s.tick }

/-- A DLY of the fetched words whose empty cycles would reach the stated run (14 R322; 06 R122). -/
def State.dlyOverrun (s : State) (ws : List SlotWord) : Bool :=
  let k := s.core.cont
  !k.handler && (groupSlots ws.length 0 ws).any fun r => match r.instr? with
    | some (.dly hd n) => decide (n ≠ 0) && s.pOn hd && decide (k.run ≤ k.stretch + n.toNat)
    | _ => false

/-- The decode checks that need the code object: the yield index and the entry of SPAWN (06 R120, R124). -/
def State.badIndex (s : State) : Instr → Bool
  | .yield _ y | .susp _ y => !s.core.cont.handler && (s.yieldEntry y).isNone
  | .spawn hd _ _ _ => decide (s.core.object.entries.length ≤ bits hd.imm 15 0)
  | _ => false

/-- The positions of slots that fail `badIndex`. -/
def State.badIndexes (s : State) (ws : List SlotWord) : List Nat :=
  ((groupSlots ws.length 0 ws).filter fun r => r.sound && (match r.instr? with
    | some i => s.badIndex i
    | none => false)).map RawSlot.pos

/-- Decodes the fetched words of a bundle: its slots become the bundle in turn, or it traps by orders 3 to
5 of 04 R85; with debug on a BRK traps before any other slot (14 R324). -/
def State.decodeAt (s : State) (ws : List SlotWord) : State :=
  let stop (s : State) (c : Cause) (m : BitVec 8) : State := s.bundleTrap c (lowestBit m) m 0
  match decodeBundle ws with
  | .error (e, m) =>
    if e.cause = .illegalOp then stop s .illegalOp (m ||| posMask (s.badIndexes ws)) else stop s e.cause m
  | .ok slots =>
    if s.badIndexes ws ≠ [] then stop s .illegalOp (posMask (s.badIndexes ws))
    else
      let brk := slots.filter fun q => decide (q.2.opc = 0x0F#8)
      s.setPipe { s.core.pipe with
        bundle := if brk = [] then slots else brk
        npc := s.core.pipe.pc + BitVec.ofNat 32 (4 * ws.length) }

/-- A line of key ranges fails in the focused core's instruction cache (15 R332, R333). -/
def State.codeBad (s : State) (ks : List (Nat × Nat)) : Bool :=
  s.core.store.bad.any fun b => match b with
    | .code c l => decide (c = s.core.id) && ks.any fun k => decide (64 * l < k.1 + k.2) && decide (k.1 < 64 * l + 64)
    | _ => false

/-- Fetches n slot words from a PC through the buffer of the object (04 R75): R31 with right X, the translation
and the port, then the words are given on. A fetch whose translation fails traps XLATE with the pointer of the
fetch in SR.TVAL, a DESIGN CHOICE (log 17). -/
def State.fetchThrough (s : State) (o : ObjInfo) (pc n : Nat) (go : State → State) : State :=
  let p := o.codePtr pc
  match s.job! with
  | none => s.bundleTrap .bufBounds 0 0 p
  | some j => match s.check j o.osize needX true (ptrIx p) (ptrOff p) (4 * n) with
    | .error k => s.bundleTrap k 0 0 p
    | .ok (.core _) => s.bundleTrap .bufRights 0 0 p
    | .ok (.buf b) =>
      if b.tier = 3 then s.bundleTrap .bufRights 0 0 p else
      match s.pureKeys j.tenant.toNat b.tier (b.pieces (ptrOff p) (4 * n)) with
      | .error l => s.bundleTrap .xlate 0 0 p (some (l, p))
      | .ok ks =>
        let w := s.askWalks j.tenant.toNat b.tier (b.pieces (ptrOff p) (4 * n))
        if w.2 then w.1.stall
        else if s.portHeld b (ptrOff p) (4 * n) ks then s.stall
        else if s.coreBad s.core.id ks || s.codeBad ks then s.bundleTrap .eccUncorr 0 0 p
        else go s

/-- Fetches and decodes the bundle at the PC (04 R73 to R75, R85 orders 1 to 5). -/
def State.fetchBundle (s : State) : State :=
  let c := s.core
  let o := c.object
  let pc := c.pipe.pc.toNat
  if pc % 4 ≠ 0 ∨ o.codelen ≤ pc then s.bundleTrap .fetchBounds 0 0 (BitVec.ofNat 64 pc) else
  let ws := s.fetchWords o pc
  let ws := match c.sys.armed with | some w => if c.cont.handler then ws else substitute w ws | none => ws
  let framed := takeBundle 8 ws
  if framed.isNone ∧ ws.length < 8 ∧ ws.length = o.slotsFrom pc then
    s.bundleTrap .fetchBounds 0 0 (BitVec.ofNat 64 pc) else
  if s.dlyOverrun (framed.getD []) then s.overrun else
  s.fetchThrough o pc (match framed with | some f => f.length | none => min (o.slotsFrom pc) (ws.length + 1)) fun s =>
    match framed with
    | none => s.bundleTrap .illegalBundle 7 0x80 0
    | some ws => s.decodeAt ws

/-- The failing result of a pipe that the next bundle traps for: one that is due, or that landed while the core
stalled for a handler entry, which waits for the return (14 R305; log 13). -/
def Pipe.failed (p : Pipe) (handler : Bool) : Option Word :=
  { p with late := if handler then none else p.late, land := p.land.filter fun l => decide (l.due ≤ p.now) }.failing

/-- The members that have such a result, with its SR.TVAL (14 R305, R308). -/
def State.badLandings (s : State) : List (Nat × Word) :=
  s.core.members.filterMap fun id =>
    ((s.coreOf id).pipe.failed s.core.cont.handler).map fun t => (id, t)

/-- A trap is taken for the failing results of a pipe: those that are due, or with `off` all. -/
def Pipe.unfailed (p : Pipe) (handler off : Bool) : Pipe :=
  { p with
    late := if handler && !off then p.late else none
    land := p.land.filter fun l => !((off || decide (l.due ≤ p.now)) && l.bad.isSome) }

/-- The bundle in turn traps because results of members fail their check values: TVAL is that of the lowest of
them and GMASK marks every one (14 R305, R308). -/
def State.landingTrap (s : State) (off : Bool) (fs : List (Nat × Word)) : State :=
  match fs with
  | [] => s
  | (id, tval) :: _ =>
    let pc := s.core.pipe.pc
    let gm := fs.foldl (fun m f => m ||| (1#24 <<< (s.coreOf f.1).cont.member)) 0#24
    let s := s.setPipe { s.core.pipe with fails := [(0, .eccUncorr, tval, 0)], xl := none }
    let s := s.core.members.foldl (fun s id =>
      let c := s.coreOf id
      s.setCore { c with pipe := c.pipe.unfailed c.cont.handler off }) s
    (s.focus id).trap .eccUncorr 0 tval 0 pc gm

/-- The bundle in turn starts: nothing of an earlier bundle stands in the pipe. -/
def State.startBundle (s : State) : State :=
  (s.setPipe { s.core.pipe with
    status := .ok, bundle := [], later := [], fresh := [], extra := 0, fails := [], xl := none, also := 0, alsoG := 0
    slot := 0, base := s.nextId, npc := s.core.pipe.pc }).setCont { s.core.cont with rise := 0 }

/-- One part of the front end, unless the bundle has already trapped. -/
def State.unlessTrapped (s : State) (f : State → Out) : State :=
  if s.core.pipe.status = .ok then (match f s with | .next t => t | _ => s) else s

/-- R85: the checks on one bundle, in their order; its slots are then the bundle in turn. -/
def execBundleIssue (s : State) : Out :=
  let s := s.startBundle
  .next ((((s.unlessTrapped execRunOverrun).unlessTrapped execMolcExpiry).unlessTrapped (fun s =>
      if s.badLandings ≠ [] then .next (s.landingTrap false s.badLandings) else execResultLanding s)).unlessTrapped fun s => .next s.fetchBundle)

/-! ### The slots of a bundle (04 R84, R85; 14 R304) -/

/-- An instruction that acts once for a gang, after every other slot of its bundle: the captain's. -/
def Instr.whole : Instr → Bool
  | .yield .. | .susp .. | .exit .. | .eret .. | .eretS .. | .swtrap .. => true
  | _ => false

/-- A branch of the captain that a stoker follows without acting on it (03 R65). -/
def Instr.captains : Instr → Bool
  | .br .. | .bri .. | .call .. | .calli .. | .ret .. | .sync .. | .dly .. => true
  | i => Instr.whole i

/-- An instruction whose wait, not satisfied at issue, suspends the continuation (06 R125, 13 R292). -/
def Instr.suspends : Instr → Bool
  | .wtks .. | .wtksRf1 .. | .wwaitS .. => true
  | _ => false

/-- The meaning of one slot. -/
abbrev Runs := Instr → State → Out

/-- One slot of the focused core acts. -/
def State.slot (s : State) (run : Runs) (q : Nat × Instr) : Out :=
  run q.2 (s.setPipe { s.core.pipe with slot := q.1, status := .ok, fails := [], xl := none })

/-- How the issue of a bundle goes, as its slots show when each acts alone from the same state: every slot
may issue, the state of the first that waits or suspends, the slots that fail, or no meaning. -/
inductive Probe where
  | go
  | hold (s : State)
  | fail (slots : List ((Nat × Instr) × List Later))
  | stop (o : Out)

/-- The strict marks that the slots of a bundle have made so far (05 R111). -/
def marksOf (ls : List Later) : List Later := ls.filter fun l => match l with | .mark _ => true | _ => false

/-- A state in which the earlier slots of the bundle have marked registers. -/
def State.marked (s : State) (ms : List Later) : State := s.setPipe { s.core.pipe with later := ms }

/-- Tries each slot of a member alone, with the strict marks of the slots before it (14 R304; 05 R111). -/
def State.probe (s : State) (run : Runs) (id : Nat) (ms : List Later) : List (Nat × Instr) → Probe
  | [] => .go
  | q :: qs =>
    match ((s.focus id).marked ms).slot run q with
    | .next t =>
      let p := (t.coreOf id).pipe
      let rest := s.probe run id (if p.fails = [] then marksOf (ms ++ p.later).eraseDups else ms) qs
      if p.fails ≠ [] then (match rest with
        | .fail l => .fail ((q, ms) :: l)
        | .stop o => .stop o
        | _ => .fail [(q, ms)])
      else if p.status = .stalled ∨ (p.status = .left ∧ Instr.suspends q.2) then (match rest with
        | .go | .hold _ => .hold t
        | r => r)
      else rest
    | o => .stop o

/-- The slots of the bundle in turn that a member acts on. -/
def State.slotsOf (s : State) (id : Nat) : List (Nat × Instr) :=
  let c := s.coreOf id
  s.core.pipe.bundle.filter fun q => decide (c.cont.member = 0) || !Instr.captains q.2

/-- Whether a member's own B slot is taken, by its guard and for BDNZ its count (03 R65). -/
def State.takes (s : State) (id : Nat) : List (Nat × Bool) :=
  let t := s.focus id
  s.core.pipe.bundle.filterMap fun q =>
    if q.2.opc.toNat < 0x20 ∨ 0xF0 ≤ q.2.opc.toNat then
      some (q.1, t.pOn q.2.hdr && (match q.2 with | .bdnz _ _ c _ => decide (t.s! c ≠ 1) | _ => true))
    else none

/-- The lowest member whose B slot goes another way than the captain's (03 R65). -/
def State.desync (s : State) : Option Nat :=
  let own := s.takes s.core.id
  (s.core.members.zip (List.range 24)).findSome? fun m =>
    let theirs := s.takes m.1
    if theirs.any fun q => !own.contains q then some m.2 else none

/-- The bundle has no effect and issues again: its slots leave nothing in the pipe (04 R88). -/
def State.held (s : State) (cap : Nat) : State :=
  let s := s.focus cap
  s.core.members.foldl (fun s id =>
    let c := s.coreOf id
    s.setCore { c with pipe := { c.pipe with later := [], fresh := [], bundle := [] } }) s

/-- The members that fail, with their slots. -/
def failing : List (Nat × Probe) → List (Nat × List ((Nat × Instr) × List Later))
  | [] => []
  | (id, .fail l) :: ps => (id, l) :: failing ps
  | _ :: ps => failing ps

/-- The bundle traps: by the lowest failing slot of the lowest member that traps, FMASK marking every
failing slot of that member and GMASK every member that traps (14 R304, R308). -/
def State.trapBy (s : State) (run : Runs) (fs : List (Nat × List ((Nat × Instr) × List Later))) : Out :=
  match fs with
  | (id, (q, ms) :: qs) :: _ =>
    let gm := fs.foldl (fun m f => m ||| (1#24 <<< (s.coreOf f.1).cont.member)) 0#24
    let t := s.focus id
    t.setPipe { t.core.pipe with also := posMask (qs.map fun r => r.1.1), alsoG := gm, later := ms } |>.slot run q
  | _ => .next s

/-- The slots of a list act in turn on the focused core. -/
def State.runSlots (s : State) (run : Runs) : List (Nat × Instr) → Out
  | [] => .next s
  | q :: qs => match s.slot run q with
    | .next t => if t.core.pipe.status = .stalled ∨ t.core.pipe.fails ≠ [] then .next t else t.runSlots run qs
    | o => o

/-- Every member's slots act, but for those that follow every other slot. -/
def State.runMembers (s : State) (run : Runs) : List Nat → Out
  | [] => .next s
  | id :: ids => match (s.focus id).runSlots run ((s.slotsOf id).filter fun q => !Instr.whole q.2) with
    | .next t =>
      if t.core.pipe.status = .stalled ∨ t.core.pipe.fails ≠ [] then .next t
      else (t.focus s.core.id).runMembers run ids
    | o => o

/-! ### The end of a bundle -/

/-- The effects of the slots hold and their results are in flight, on every member; the members go on at
the captain's next PC with its return-address store, RASN and LIC (05 R114; 14 R328). -/
def State.commit (s : State) : State :=
  let cap := s.core.finishLater
  s.core.members.foldl (fun s id =>
    let c := (s.coreOf id).finishLater
    s.setCore { c with
      regs := { c.regs with ras := cap.regs.ras, rascnt := cap.regs.rascnt, rasn := cap.regs.rasn }
      cont := { c.cont with lic := cap.cont.lic, rise := cap.cont.rise }
      pipe := { c.pipe with npc := cap.pipe.npc, extra := cap.pipe.extra } }) s

/-- The bundle has ended: n issued cycles pass and the next bundle follows. -/
def State.advance (s : State) (n : Nat) : State :=
  let npc := s.core.pipe.npc
  let lic := s.core.cont.lic
  s.core.members.foldl (fun s id =>
    let c := s.coreOf id
    s.setCore { c with
      cont := { c.cont with lic := lic }
      pipe := { c.pipe with
        pc := npc, npc := npc, now := c.pipe.now + n, bundle := [], extra := 0
        reply := c.pipe.reply.filter fun r => decide (2 ^ 20 ≤ r.1) } }) s

/-- SR.SUBSLOT serves one fetch (14 R310). -/
def State.disarm (s : State) : State := s.setSys { s.core.sys with armed := none }

/-- The members whose step bit is set (14 R325). -/
def State.stepMask (s : State) : BitVec 24 :=
  s.core.members.foldl (fun m id =>
    let c := s.coreOf id
    if c.sys.dbg then m ||| (1#24 <<< c.cont.member) else m) 0

/-- Ends a bundle whose slots have all acted: its issued cycles are counted, and with STEP set it traps
BRK after its effect (14 R325). `handler`: it issued in handler mode. -/
def State.endBundle (s : State) (handler : Bool) : State :=
  let st := s.core.pipe.status
  if st = .left ∨ st = .trapped then s else
  let n := if st = .yielded then 1 else 1 + s.core.pipe.extra
  let s := if st = .ok ∧ !handler then s.charge n else s
  let pc := s.core.pipe.pc
  let s := s.advance n
  if handler then s else
  let s := s.disarm
  if s.core.cont.debug ∧ s.stepMask ≠ 0 then
    (s.setPipe { s.core.pipe with pc := pc }).trap .brk 0 0x40000 0 s.core.pipe.npc s.stepMask
  else s

/-- The links with COUNT 0 on the cores of the continuation count a bundle (11 R252). -/
def State.countBundle (s : State) : State := s.core.members.foldl State.countLinks s

/-- The members with failing results in flight that a bundle would wait for: it took the continuation off its
core, or out of the handler, whose own results land first (14 R305, R310, R313; log 13). -/
def State.awaited (s t : State) : List (Nat × Word) :=
  let off := decide (t.core.pipe.status = .left)
  if off || (s.core.cont.handler && !t.core.cont.handler) then
    s.core.members.filterMap fun id =>
      let p := (s.coreOf id).pipe
      ({ p with late := if off then p.late else none }.failing).map fun v => (id, v)
  else []

/-- ISSUES THE BUNDLE IN TURN on every member (04 R84, R85; 03 R65, R66; 14 R304): a member whose B slot
goes another way freezes the gang, a slot that fails traps the bundle, a slot that waits holds it; else
every slot acts, reading its sources as they stand at issue. -/
def State.issueSlots (s : State) (run : Runs) : Out :=
  let cap := s.core.id
  let handler := s.core.cont.handler
  match s.desync with
  | some m => .next (s.bundleTrap .gangDesync (lowestBit (posMask ((s.takes cap).map Prod.fst)))
      (posMask ((s.takes cap).map Prod.fst)) (BitVec.ofNat 64 m))
  | none =>
    let ps := s.core.members.map fun id => (id, s.probe run id [] (s.slotsOf id))
    match ps.findSome? (fun p => match p.2 with | .stop o => some o | _ => none) with
    | some o => o
    | none =>
      if failing ps ≠ [] then s.trapBy run (failing ps) else
      match ps.findSome? (fun p => match p.2 with | .hold t => some t | _ => none) with
      | some t => .next (t.held cap)
      | none => match s.runMembers run s.core.members with
        | .next t =>
          if t.core.pipe.status = .stalled ∨ t.core.pipe.fails ≠ [] then .next s.stall else
          let t := (t.focus cap).commit
          let t := if handler then t else t.countBundle
          (match t.runSlots run (s.core.pipe.bundle.filter fun q => Instr.whole q.2) with
          | .next t =>
            if t.core.pipe.status = .stalled then .next s.stall
            else if t.core.pipe.fails ≠ [] then .next t
            else if s.awaited t ≠ [] then .next (s.landingTrap true (s.awaited t))
            else .next (t.endBundle handler)
          | o => o)
        | o => o

/-- The bundle at the PC of the focused continuation issues, in every member (04 R84, R85). -/
def State.issue (s : State) (run : Runs) : Out :=
  match execBundleIssue s with
  | .next t =>
    if t.core.pipe.status ≠ .ok then .next t else
    -- the stokers' own results land with the captain's issue (03 R65)
    let u := (t.core.members.filter fun id => decide (id ≠ t.core.id)).foldl (fun u id =>
      u.onCore id fun v => match execResultLanding v.startBundle with | .next w => w | _ => v) t
    let u := (t.core.members.filter fun id => decide (id ≠ t.core.id)).foldl (fun u id =>
      u.onCore id fun v => v.setPipe { v.core.pipe with pc := t.core.pipe.pc, npc := t.core.pipe.npc }) u
    u.issueSlots run
  | o => o

end Sys2Proof.Machine
end

