-- ==== Sys2Proof/Machine/Lifecycle.lean ====
section
/-!
DEFINITION. The life of a continuation beside the issue of its bundles: completions, dispatch, waits that
are satisfied, drains, retirement, SPAWN's record and the stop of a cancel (03 R60 to R67; 05 R107, R108;
06 R123 to R126; 12 R278; 14 R314; 15 R330, R331).
-/
namespace Sys2Proof.Machine

/-! ### Completions (05 R107, R108; 14 R314) -/

/-- The core whose continuation a posting belongs to. -/
def State.posting? (s : State) (id : Nat) : Option Core :=
  (s.core :: s.parked).find? fun c => c.pipe.posts.any fun p => decide (p.id = id)

/-- Notes in the record of a continuation off its core that an operation has completed. -/
def State.noteRemote (s : State) (c : Completion) : State :=
  match c.post with
  | none => s
  | some id =>
    match s.sched.recs.find? fun r => r.posts.any fun p => decide (p.2.id = id) with
    | none => s
    | some r =>
      let ws := if c.fault.isSome then [] else c.writes
      (s.setRec { r with posts := r.posts.map fun p =>
        if p.2.id = id then (p.1, { p.2 with ready := true, writes := ws, fault := c.fault }) else p }).push
          (.remoteCompletion { c with recPa := r.pa })

/-- R107, R108: an operation completes on the core that runs its continuation, else into its frame. -/
def execTokenedOperationComplete (c : Completion) (s : State) : Out :=
  .next (match c.post with
    | none =>
      let k := s.coreOf c.core
      if k.phase ≠ .idle ∧ k.cont.recPa = c.recPa then s.setCore (k.complete c) else s
    | some id => match s.posting? id with
      | some k => s.setCore (k.complete c)
      | none => s.noteRemote c)

/-- The bytes of a frame area that a result changes: offset, size, mask and value (14 R315). -/
def frameWrite : Write → Option (Nat × Nat × Nat × Nat)
  | .s ix v => if 1 ≤ ix ∧ ix < 64 then some (8 * ix, 8, 2 ^ 64 - 1, v.toNat) else none
  | .v ix m v => some (0x200 + 256 * ix, 256, m.toNat, v.toNat)
  | .w ix m v => if ix = 0 then none else some (0x3240 + 16 * ix, 16, m.toNat, v.toNat)
  | _ => none

/-- Lands a result in the frame's copy of its destination. -/
def State.landFrame (s : State) (j : Job) (frame : Word) (at' : Nat) (w : Write) : State :=
  match frameWrite w with
  | none => s
  | some (off, n, m, v) =>
    let old := s.rdFrame j frame (at' + off) n
    s.wrFrame j frame [(off, n, (old &&& (256 ^ n - 1 - m)) ||| (v &&& m))] at'

/-- The oldest posting in flight to a token of a member of a continuation off its core (05 R107). -/
def Rec.firstPost (r : Rec) (member tok : Nat) : Option Posting :=
  (r.posts.find? fun p => decide (p.1 = member ∧ p.2.tok = tok)).map Prod.snd

/-- Ends a remote completion: the next posting of the token that has completed follows, and with the last one
a cancel that waited for it retires the record (05 R107; 15 R331). -/
def State.endRemote (s : State) (r : Rec) (member : Nat) (p : Posting) : State :=
  let r := { r with posts := r.posts.filter fun q => !decide (q.2.id = p.id) }
  let s := s.setRec r
  let s := match r.firstPost member p.tok with
    | some q => if q.ready then s.push (.remoteCompletion ⟨0, r.pa, some q.id, q.writes, q.fault⟩) else s
    | none => s
  if r.posts = [] ∧ !r.retired ∧ s.recState r.pa = csWaiting ∧ s.creq r.launch then s.retireRec r.pa 4 0x14 else s

/-- Lands the result of a posting in its frame area: of the results that landed on a destination of it with no
wait between, an UNSPECIFIED choice stands over it (05 R112; log 5); and notes it for the others. -/
def State.landRemote (s : State) (j : Job) (r : Rec) (member : Nat) (p : Posting) (frame : Word) : State × Rec :=
  let newer := Write.some' s.tick (2 ^ 52 + 64 * p.id) p.clash
  let s := (p.writes.filterMap (Write.without · newer)).foldl (fun s w => s.landFrame j frame (areaAt member) w) s
  let note (q : Posting) (w : Write) : Posting := match w.dst with
    | some d => if q.dst.contains d then { q with clash := Write.over q.clash w } else q
    | none => q
  (s, { r with posts := r.posts.map fun q =>
    if q.1 = member ∧ q.2.id ≠ p.id then (q.1, p.writes.foldl note q.2) else q })

/-- R314: once the earlier postings of its token have posted, a result lands in the frame and its post is
made in the token's image, or the image that stands among them takes its place (05 R107, R110). -/
def execRemoteCompletion (c : Completion) (s : State) : Out :=
  .next (match s.rec? c.recPa, c.post with
    | some r, some id =>
      (match r.posts.find? fun p => decide (p.2.id = id), s.job? r.job with
      | some (d, p), some j =>
        let frame := BitVec.ofNat 64 (s.word r.pa 8)
        let a := areaAt d
        let off := 0x3340 + 16 * p.tok
        if !p.ready ∨ (r.firstPost d p.tok).any (fun q => decide (q.id ≠ id)) then s
        else if 32 ≤ p.tok then s.endRemote r d p else
        match (s.rdPtr j needL (ptrAdd frame (a + off)) 16) with
        | (s, .error _) => s.endRemote r d p
        | (s, .ok x) =>
          let k := p.act (Token.ofWords (BitVec.ofNat 64 x) (BitVec.ofNat 64 (x / 2 ^ 64)))
          let t := s.landRemote j r d p frame
          (t.1.wrFrame j frame [(off, 16, k.word0.toNat + k.word1.toNat * 2 ^ 64)] a).endRemote t.2 d p
      | _, _ => s)
    | _, _ => s)

/-! ### Dispatch (03 R61 to R67) -/

/-- R317, R63: an idle core takes its next record. -/
def execDispatch (core : Nat) (s : State) : Out := .next (s.takeNext core)

/-- R67: a gang takes its cores at once. -/
def execGangDispatch (recPa : Nat) (s : State) : Out :=
  .next (match s.rec? recPa with
    | none => s
    | some r => match s.job? r.job, s.idle r.cluster with
      | some j, c :: _ => (match s.choose j c with
        | some (q, cores) => if q.pa = recPa then s.dispatchOn q cores else s
        | none => s)
      | _, _ => s)

/-- The dispatches that could be made now: of a gang, or by an idle core. -/
def State.dispatches (s : State) : List Event :=
  s.sched.jobs.flatMap fun j =>
    if s.sched.recs.any fun r => decide (r.job = j.pa) && !r.retired && decide (s.recState r.pa = csReady) then
      j.owned.flatMap fun cl => (s.idle cl).filterMap fun c => (s.choose j c).map fun p =>
        if s.gsizeOf p.1.pa ≠ 0 then .gangDispatch p.1.pa else .dispatch c
    else []

/-! ### Waits (06 R125, R126; 12 R278; 13 R292) -/

/-- Whether the suspending wait of a WAITING record is satisfied, as its frame shows. -/
def State.waitMet (s : State) (j : Job) (r : Rec) : Bool :=
  let frame := BitVec.ofNat 64 (s.word r.pa 8)
  let w := s.word r.pa 0x28
  let a := areaAt 0
  if bits w 63 62 = 2 then
    let x : Witness := BitVec.ofNat 128 (s.rdFrame j frame (a + 0x3240 + 16 * bits w 61 58) 16)
    s.observe none (entriesOf x) ≠ .wait
  else satisfied (Token.ofWords (BitVec.ofNat 64 (s.rdFrame j frame (a + 0x3340 + 16 * bits w 57 53) 8)) 0)
    (BitVec.ofNat 16 (bits w 47 32))

/-- R125, R292: the record becomes READY (03 R60), and a gang whose cluster has too few usable cores is placed
again (R70); one that a cancel has marked is RETIRED once its remote completions are done (15 R331). -/
def execSuspendedWaitSatisfied (recPa : Nat) (s : State) : Out :=
  .next (match s.rec? recPa with
    | none => s
    | some r => if r.retired ∨ s.recState recPa ≠ csWaiting then s else
      match s.job? r.job with
      | none => s
      | some j =>
        if s.creq r.launch then (if r.posts = [] then s.retireRec recPa 4 0x14 else s)
        else if s.waitMet j r then
          let r := { r with since := s.tick }
          let s := (s.setField recPa 0 63 60 csReady).setRec r
          if s.gsizeOf recPa = 0 then s else s.replace j r
        else s.push (.suspendedWaitSatisfied recPa))

/-- R278, R66: the segment of a gang is wholly released, and its members restart. -/
def execGangSyncRelease (core : Nat) (s : State) : Out :=
  let c := s.coreOf core
  .next (if c.phase ≠ .sync then s else
    c.members.foldl (fun s id =>
      let m := s.coreOf id
      s.setCore { m with phase := .running
                         pipe := { m.pipe with reply := (syncKey, some []) :: m.pipe.reply } }) s)

/-! ### Drains and retirement (06 R123; 15 R330, R331) -/

/-- Every posting of the continuation's members has posted and every store that they issued has been
accepted: a close waits in the X queue until then (06 R123). -/
def State.drained (s : State) : Bool :=
  s.core.members.all fun id =>
    let p := (s.coreOf id).pipe
    p.posts.isEmpty && p.xq.all fun e => decide (e.seq = 0)

/-- R123: the drain ends and the record is written RETIRED. -/
def execExitDrainComplete (core : Nat) (s : State) : Out :=
  .next (s.onCore core fun s =>
    if s.core.phase ≠ .draining then s
    else if s.drained && !s.agenda.contains (.cancelStop core) then s.retireNow
    else s.push (.exitDrainComplete core))

/-- The commands of a continuation in an engine's queue, with their places. -/
def Engine.ofRec (g : Engine) (pa : Nat) : List (Cmd × Nat) :=
  (g.queue.zip (List.range g.queue.length)).filter fun c => decide (c.1.recPa = pa)

/-- A command of an engine ends CANCELLED and leaves its queue (09 R214). -/
def State.cancelEntry (s : State) (e : Nat) (c : Cmd) : State := (s.cancelCmd e c).removeCmd e c.id

/-- A delivered command of a cancelled continuation whose word 0x38 is not yet written, and not on its way to a
lender, has not ended: it ends CANCELLED (09 R213; 15 R331). -/
def Ending.cancelled (g : Ending) (pa : Nat) : Ending :=
  if g.cmd.recPa = pa ∧ !g.sent ∧ g.fail = none then g.cmd.failing g.eng ⟨0x0A, .cancel, 0, 0, 0⟩ else g

/-- The engine entries of a cancelled continuation that may end now end CANCELLED: all but a head that is
within a piece; whether one is left (15 R331; 14 R320). -/
def State.cancelEntries (s : State) (pa : Nat) : State × Bool :=
  let s := { s with units := { s.units with endings := s.units.endings.map fun g => g.cancelled pa } }
  (List.range 64).foldl (fun (acc : State × Bool) e =>
    let g := acc.1.engine e
    let cs := g.ofRec pa
    let later := cs.filter fun c => decide (c.2 ≠ 0) || g.between
    (later.foldl (fun s c => s.cancelEntry e c.1) acc.1, acc.2 || decide (later.length < cs.length))) (s, false)

/-- R331: a running continuation of a cancelled launch, one that drains an EXIT among them, stops at its bundle
boundary: chains cancelled, engine entries CANCELLED, LIC raised, and its retirement drain begins. -/
def execCancelStop (core : Nat) (s : State) : Out :=
  .next (s.onCore core fun s =>
    let c := s.core
    if c.phase = .idle ∨ !s.creq c.cont.launch then s else
    let s := c.members.foldl (fun s id => s.cancelChains id c.cont.recPa) s
    let s := s.releaseEngines
    let s := s.core.members.foldl (fun s id =>
      let m := (s.coreOf id).landAll s.tick
      s.setCore { m with
        phase := .draining
        cont := { m.cont with handler := false, rstat := 4, rcause := 0x14 } }) s
    let s := if c.phase = .draining then s else s.raiseTo c.cont.lic
    match s.cancelEntries c.cont.recPa with
    | (s, true) => s.push (.cancelStop core)
    | (s, false) => s.beginDrain 4 0x14)

/-- The head of an engine's queue is a trigger that its word already meets: it is met at once (09 R215). -/
def State.headMet (s : State) (e : Nat) : Bool :=
  match s.engHead e with
  | some c => c.kind = 4 && (s.job? c.job).any fun j => s.armMet c j
  | none => false

/-- The ARM triggers of a retired continuation that are unmet, and the commands that it issued behind them
in the same queue, end CANCELLED (15 R330). -/
def State.cancelTriggers (s : State) (pa : Nat) : State :=
  (List.range 64).foldl (fun s e =>
    let g := s.engine e
    match (g.ofRec pa).find? fun c => decide (c.1.kind = 4) &&
        (decide (c.2 ≠ 0) || (g.between && !s.headMet e)) with
    | none => s
    | some (_, k) => ((g.ofRec pa).filter fun c => decide (k ≤ c.2)).foldl (fun s c => s.cancelEntry e c.1) s) s

/-- The accesses of a continuation in flight. -/
def State.accessing (s : State) (pa : Nat) : Bool :=
  s.agenda.any fun e => match accessOf e with | some a => decide (a.recPa = pa) | none => false

/-- Everything that a retired continuation issued has ripened, been reported and ended (15 R330). -/
def State.settled (s : State) (r : Rec) : Bool :=
  r.posts.isEmpty && !s.accessing r.pa &&
    (r.owed.all fun o => (s.agentOf s.devnum o.1).pend.all fun p => decide (o.2 < p.1)) &&
    (s.units.endings.all fun g => decide (g.cmd.recPa ≠ r.pa)) &&
    (List.range 64).all fun e => ((s.engine e).ofRec r.pa).isEmpty

/-- R330: a retired continuation is counted at its launch, whose end may end its levels (01 R28). -/
def execRetirementDecrement (recPa : Nat) (s : State) : Out :=
  .next (match s.sched.recs.find? fun r => decide (r.pa = recPa) && r.retired with
    | none => s
    | some r =>
      let s := s.cancelTriggers recPa
      if s.settled r then
        { s with sched := { s.sched with
          recs := s.sched.recs.filter fun q => !(decide (q.pa = recPa) && q.retired) } }.doTodos
            [.childEnded r.launch r.done]
      else s.push (.retirementDecrement recPa))

/-! ### The record of a SPAWN (06 R124) -/

/-- Forgets the record that the frontier counted while its SPAWN had not written it. -/
def State.dropSpawn (s : State) (p : SpawnOp) : State :=
  { s with sched := { s.sched with
    recs := s.sched.recs.filter fun r => !decide (r.pa = spawnKey (p.post.getD 0)) } }

/-- A SPAWN ends: its token posts, with the fault of a failed one (05 R108). -/
def State.endSpawn (s : State) (p : SpawnOp) (f : Option (Cause × Word × Nat)) : State :=
  match f with
  | none => s.deliver ⟨p.core, p.recPa, p.post, [], none⟩
  | some (c, a, detail) =>
    let ptr := match s.rec? p.recPa with | some r => r.ptr | none => 0
    let r := s.faultRecord p.job { coreFault c 1 p.core p.slot p.pc ptr a with detail := detail }
    (r.1.dropSpawn p).deliver ⟨p.core, p.recPa, p.post, [], some ⟨c, r.2⟩⟩

/-- The stores that the spawner had issued before are visible to every agent (06 R124). -/
def State.spawnReady (s : State) (p : SpawnOp) : Bool :=
  p.owed.all fun o => (s.agentOf s.devnum o.1).pend.all fun q => decide (q.1 ≠ o.2)

/-- Writes the record of a SPAWN in its slot. -/
def State.writeSpawn (s : State) (p : SpawnOp) (j : Job) (pa : Nat) : State :=
  let n := s.fieldOf p.launch 0 31 0
  if s.creq p.launch then
    ((s.wrRec pa 0 8 (setBits (setBits (s.word pa 0) 63 60 csRetired) 59 56 4)).dropSpawn p).endSpawn p none
  else
    let s := s.setField p.launch 0 31 0 (n + 1)
    let frame := BitVec.ofNat 64 (s.word pa 8)
    match s.resolve j needL (ptrAdd frame 0x88) 8 with
    | (s, .error f) => (s.setField p.launch 0 31 0 n).endSpawn p (some (f.1, ptrAdd frame 0x88, f.2))
    | (s, .ok ks) =>
      let s := s.wrSpans ks (256 * (p.interval + 1))
      let o := ((j.objs.find? fun o => decide (o.1 = p.cobj.toNat)).map fun o => o.2.2).getD ObjInfo.none
      let e := o.entries.getD p.entry ⟨0, 1, 0, 0xFFFF⟩
      let s := s.wr pa 64 (newRecord p.strict p.debug true p.cobj.toNat e.pc frame p.unit p.launchIx.toNat 0 p.arg0 0
        e.lix p.rank e.run)
      let s := s.dropSpawn p
      ({ s with sched := { s.sched with recs := s.sched.recs ++
        [(⟨pa, p.slotPtr, p.job, p.launch, p.core / 24, s.tick, 256 * (p.interval + 1), [], [], false, false, false,
          [], []⟩ : Rec)] } } : State).endSpawn p none

/-- R124: the record slot is read, the launch counted and the record written, READY last. A slot whose last
record still awaits its decrement is left until that is made. -/
def execSpawnRecordWrite (p : SpawnOp) (s : State) : Out :=
  .next (match s.job? p.job with
    | none => s.dropSpawn p
    | some j =>
      if !s.spawnReady p then s.push (.spawnRecordWrite p) else
      match s.recordKey j p.slotPtr 64 with
      | (s, .error f) => s.endSpawn p (some (f.1, p.slotPtr, f.2))
      | (s, .ok pa) =>
        let st := s.recState pa
        if st ≠ 0 ∧ st ≠ csRetired then s.endSpawn p (some (.bufRights, p.slotPtr, 0))
        else if (s.rec? pa).isSome then s.push (.spawnRecordWrite p)
        else s.writeSpawn p j pa)

end Sys2Proof.Machine
end

