-- ==== Sys2Proof/Machine/Device.lean ====
section
/-!
DEFINITION. The device around its cores: the rings and the host registers, cancels, resumption and
forced pre-emption, companion writes, firmware's retirements, memory's own events, power-up, fatal errors,
the dump and attestation (01 R23; 03 R52 to R54, R68; 08 R165, R171, R172, R176 to R178, R192, R193; 14
R312, R318, R323; 15 R329 to R343).
-/
namespace Sys2Proof.Machine

/-- Replaces the host registers. -/
def State.setHost (s : State) (h : HostRegs) : State := { s with host := h }
/-- Replaces the memory's state. -/
def State.setMem (s : State) (m : Mem) : State := { s with mem := m }
/-- Replaces the scheduler's state. -/
def State.setSched (s : State) (q : Sched) : State := { s with sched := q }

/-- A companion write is discarded and counted (15 R329). -/
def State.refuse (s : State) : State := s.setHost { s.host with refused := s.host.refused + 1 }

/-! ### The rings (03 R52 to R54) -/

/-- The number of entries of either ring. -/
def HostRegs.ring (h : HostRegs) : Nat := h.sqsize.toNat + 1
/-- Both rings are empty. -/
def HostRegs.empty (h : HostRegs) : Bool := decide (h.sqhead = h.sqtail) && decide (h.rqhead = h.rqtail)
/-- The index after an index. -/
def HostRegs.after (h : HostRegs) (i : BitVec 16) : BitVec 16 := BitVec.ofNat 16 ((i.toNat + 1) % h.ring)
/-- A submission entry waits to be processed: no response of an earlier one is left to be written. -/
def State.submission (s : State) : Bool :=
  s.host.ready && decide (s.sched.responses = []) && decide (s.host.sqhead ≠ s.host.sqtail)

/-- A word of the submission entry at SQHEAD, in companion memory. -/
def State.sqWord (s : State) (n : Nat) : Nat :=
  s.rd (tierKey 3 (s.host.sqbase.toNat * 4096 + 16 * s.host.sqhead.toNat + 8 * n)) 8

/-- Leaves a response to be written: RESULT, JOBPA, CLUSTER, TAG (03 R53). -/
def State.respond (s : State) (result cluster : Nat) : State :=
  let w0 := s.sqWord 0
  let w1 := s.sqWord 1
  s.setSched { s.sched with responses :=
    [(BitVec.ofNat 64 (result * 2 ^ 60 + bits w0 47 0), BitVec.ofNat 64 (cluster * 2 ^ 48 + bits w1 15 0))] }

/-- The lowest cluster among those that a mask names and a test holds of. -/
def lowestCluster (mask : Nat) (f : Nat → Bool) : Option Nat :=
  (List.range 48).find? fun c => bitOf mask c && f c

/-- Check 2 of 03 R54 on a job record. -/
def State.jobRecordOk (s : State) (pa : Nat) : Bool :=
  let w0 := s.word pa 0
  let w7 := s.word pa 0x38
  decide (bits w0 63 60 = 4) && decide (bits w0 59 56 = 0) && decide (bits w0 55 55 = 0) &&
    decide (s.word pa 8 = 0) && decide (s.fieldOf pa 0x20 63 16 ≠ 0) && decide (s.fieldOf pa 0x28 63 48 ≤ 0xFFEF) &&
    decide (bits w0 54 48 = 0) && decide (bits w0 47 32 = 0) && decide (bits w7 47 8 = 0) && decide (bits w7 7 3 = 0)

/-- The result of a SUBMIT and its CLUSTER: the first check of 03 R54 that fails, else 0. -/
def State.submitResult (s : State) : Nat × Nat :=
  let w0 := s.sqWord 0
  let w1 := s.sqWord 1
  let pa := bits w0 47 0
  let cl := s.fieldOf pa 0x20 63 16
  if (bits w0 63 60 ≠ 1 ∧ bits w0 63 60 ≠ 2) ∨ bits w0 59 48 ≠ 0 ∨ bits w1 26 16 ≠ 0 ∨ pa % 64 ≠ 0 ∨
      bits w1 63 32 < 256 ∨ 23 < bits w1 31 27 then (1, 0)
  else if !s.jobRecordOk pa then (2, 0)
  else match lowestCluster cl fun c => s.sched.offClusters.getLsbD c with
    | some c => (5, c)
    | none => match lowestCluster cl fun c => (s.owner? c).isSome with
      | some c => (3, c)
      | none => (0, 0)

/-- An accepted job takes its clusters, becomes RUNNING and starts its first phase (03 R54, R56). -/
def State.acceptJob (s : State) (pa slice gres : Nat) : State :=
  let f := s.fieldOf pa
  let j : Job := ⟨pa, BitVec.ofNat 48 (f 0x20 63 16), BitVec.ofNat 16 (f 0x20 15 0), f 0x28 47 0, f 0x28 63 48,
    BitVec.ofNat 64 (s.word pa 0x30), f 0x38 63 48, BitVec.ofNat 8 (f 0x38 7 0), slice, gres, [], none, 0⟩
  let s := s.setField pa 0 59 56 stRunning
  let s := s.setSched { s.sched with jobs := s.sched.jobs ++ [j] }
  let at' : Word := BitVec.ofNat 64 pa
  let s := s.setLevel ⟨pa, at', 4, pa, 0, 0, s.words8 pa, [], [], false, true⟩
  s.doTodos [.startPhase (BitVec.ofNat 64 (s.word pa 0x18)) pa at']

/-- R54: a SUBMIT, or an entry whose OP is refused. -/
def execSubmit (s : State) : Out :=
  .next (
    if !s.submission ∨ bits (s.sqWord 0) 63 60 = 2 then s else
    let r := s.submitResult
    let t := s.respond r.1 r.2
    if r.1 ≠ 0 then t
    else t.acceptJob (bits (s.sqWord 0) 47 0) (bits (s.sqWord 1) 63 32) (bits (s.sqWord 1) 31 27))

/-- R54, 15 R331: a CANCEL. -/
def execCancel (s : State) : Out :=
  .next (
    if !s.submission ∨ bits (s.sqWord 0) 63 60 ≠ 2 then s else
    let pa := bits (s.sqWord 0) 47 0
    if (s.job? pa).isNone then s.respond 4 0
    else (s.respond 0 0).doTodos [.cancel pa])

/-- R52: the response is written once the response ring has room, and both indices advance. -/
def execResponseWrite (s : State) : Out :=
  .next (match s.sched.responses with
    | [] => s
    | r :: rs =>
      let h := s.host
      if h.after h.rqtail = h.rqhead then s else
      let at' := tierKey 3 (h.rqbase.toNat * 4096 + 16 * h.rqtail.toNat)
      let s := s.wr at' 16 (r.1.toNat + r.2.toNat * 2 ^ 64)
      let s := s.setSched { s.sched with responses := rs }
      s.setHost { h with rqtail := h.after h.rqtail, sqhead := h.after h.sqhead })

/-- A response can be written now. -/
def State.canRespond (s : State) : Bool :=
  decide (s.sched.responses ≠ []) && decide (s.host.after s.host.rqtail ≠ s.host.rqhead)

/-- R52: SQSIZE. -/
def execSqsize (v : Word) (s : State) : Out :=
  .next (
    let h := s.host
    if !h.ready then s
    else if !h.empty then s.refuse
    else s.setHost { h with sqsize := v.setWidth 16, sqhead := 0, sqtail := 0, rqhead := 0, rqtail := 0 })

/-! ### Forced pre-emption, resumption, cancels by record (14 R312, R318; 15 R331) -/

/-- Whether a continuation on a core still has to answer a forced pre-emption (14 R312). -/
def State.prqOpen (s : State) : Bool := (s.core :: s.parked).any fun c => c.cont.prq

/-- A request has ended once each of its continuations has entered the handler or left its core. -/
def State.endPrq (s : State) : State :=
  if s.host.prqGo && !s.prqOpen then s.setHost { s.host with prqGo := false } else s

/-- R312. -/
def execPrq (v : Word) (s : State) : Out :=
  .next (
    if !s.host.ready ∨ s.host.prqGo then s else
    let pa := bits v.toNat 47 0
    let s := s.setHost { s.host with prqRec := v.setWidth 48 }
    if v.getLsbD 63 then
      let mark (c : Core) : Core :=
        if c.phase ≠ .idle ∧ c.cont.launch = pa then { c with cont := { c.cont with prq := true } } else c
      let s := { s with core := mark s.core, parked := s.parked.map mark }
      s.setHost { s.host with prqGo := s.prqOpen }
    else s)

/-- A record of a launch is FROZEN. -/
def State.frozenIn (s : State) (launch : Nat) : Bool :=
  s.sched.recs.any fun r => decide (r.launch = launch) && !r.retired && decide (s.recState r.pa = csFrozen)

/-- R318, 03 R70: a FROZEN record becomes READY with AGE 0 and is placed again. -/
def execResume (v : Word) (s : State) : Out :=
  .next (
    let pa := bits v.toNat 47 0
    match s.rec? pa with
    | none => s
    | some r =>
      if s.host.fatal ∨ r.retired ∨ s.recState pa ≠ csFrozen ∨ s.creq r.launch then s else
      let s := (s.setField pa 0x30 59 48 0).setField pa 0 63 60 csReady
      let s := s.setRec { r with since := s.tick }
      let s := if s.frozenIn r.launch then s else s.setField r.launch 0 59 56 stRunning
      match s.job? r.job with
      | some j => if s.gsizeOf pa = 0 then s else s.replace j { r with since := s.tick }
      | none => s)

/-- Whether the level record at an address leads by PARENT to the record of a running job (15 R331). -/
def State.belongs (s : State) (j : Job) : Nat → Nat → State × Bool
  | 0, _ => (s, false)
  | n + 1, pa =>
    let k := s.fieldOf pa 0 63 60
    if k = 4 then (s, decide (pa = j.pa) && decide (s.fieldOf pa 0 59 56 = stRunning))
    else if k = 0 ∨ 4 < k then (s, false)
    else match s.recordKey j (BitVec.ofNat 64 (s.word pa 8)) 64 with
      | (s, .error _) => (s, false)
      | (s, .ok p) => s.belongs j n p

/-- R331: LCANCEL. -/
def execLcancel (v : Word) (s : State) : Out :=
  .next (
    if !s.host.ready then s else
    let pa := bits v.toNat 47 0
    let r := s.sched.jobs.foldl (fun (r : State × Bool) j => if r.2 then r else r.1.belongs j 4 pa) (s, false)
    if r.2 then r.1.doTodos [.cancel pa] else r.1.refuse)

/-! ### Attestation (15 R339) -/

/-- Bytes 132 to 143 of a report: a bit for each cluster disabled and for each spare used. -/
def State.offMap (s : State) : Nat :=
  s.sched.offClusters.toNat + (s.sched.spares.eraseDups.map fun c => 2 ^ (48 + c)).sum

/-- Bytes 0 to 175 of a report. -/
def State.report (s : State) (at' : Nat) : Nat :=
  s.rd at' 32 + (s.measured.getD 0).toNat * 2 ^ 256 + (s.devKey.getD 0).toNat * 2 ^ 768 +
    s.devnum.toNat * 2 ^ 1024 + Config.revision.toNat * 2 ^ 1040 + s.offMap * 2 ^ 1056

/-- R339. -/
def execAttreq (v : Word) (s : State) : Out :=
  .next (
    if !s.host.ready then s else
    let at' := bits v.toNat 47 8 * 256
    let r := s.report at'
    s.wr at' 256 (r + (edSign Config.deviceSecret (toLe 176 r)).toNat * 2 ^ 1408 + 1 * 2 ^ 2040) |>.dropStale)

/-! ### Host registers without behaviour of their own (03 R52; 08 R165, R192; 15 R329) -/

/-- A register that may be written while READY is set. -/
def State.hostIf (s : State) (ok : Bool) (h : HostRegs) : State := if ok then s.setHost h else s

/-- The slot-table word that an offset of the register window names: its die and number, 64 for the
control word (08 R192). -/
def slotOffset (off : Nat) : Option (Nat × Nat) :=
  let d := (off - 0x1000) / 0x400
  let n := (off - 0x1000) % 0x400
  if off < 0x1000 ∨ 4 ≤ d ∨ n % 8 ≠ 0 ∨ 0x200 < n then none else some (d, n / 8)

/-- TRBASE, TRN, LTBASE and LTN as they stand are kept for the walks and ports of the running jobs until the
invalidation that follows (08 R165, R168, R175). -/
def State.keepRoots (s : State) : State :=
  if s.sched.jobs = [] then s else
  { s with mem := { s.mem with walkRoot := some s.walkTable, leaseRoot := some s.leaseTable } }

/-- What a read of the host register window returns at an offset: reserved bits, registers that are only
written, and offsets that hold none, read as 0 (03 R52; 08 R165, R192; 14 R312, R318; 15 R329). -/
def State.hostRead (s : State) (off : Nat) : Word :=
  let h := s.host
  match off with
  | 0x000 => h.sqbase.setWidth 64 <<< 12
  | 0x008 => h.sqsize.setWidth 64
  | 0x010 => h.sqtail.setWidth 64
  | 0x018 => h.sqhead.setWidth 64
  | 0x020 => h.rqbase.setWidth 64 <<< 12
  | 0x028 => h.rqtail.setWidth 64
  | 0x030 => h.rqhead.setWidth 64
  | 0x040 => h.prqRec.setWidth 64 ||| ((BitVec.ofBool h.prqGo).setWidth 64 <<< 63)
  | 0x058 =>
    BitVec.ofNat 64 (h.refused.toNat * 2 ^ 16 + h.failcode.toNat * 2 ^ 8 + h.phase.toNat * 2 ^ 5 + h.dumped.toNat * 16 +
      h.fatal.toNat * 8 + h.lpz.toNat * 4 + h.fwok.toNat * 2 + h.ready.toNat)
  | 0x060 => (h.dumplen.setWidth 64 <<< 48) ||| (h.dumpbase.setWidth 64 <<< 12)
  | 0x070 => s.devnum.setWidth 64
  | 0x078 => (h.pnow.setWidth 64 <<< 16) ||| h.pcap.setWidth 64
  | 0x100 => h.trbase.setWidth 64 <<< 12
  | 0x108 => h.trn.setWidth 64
  | 0x110 => h.ltbase.setWidth 64 <<< 5
  | 0x118 => h.ltn.setWidth 64
  | 0x120 => h.gtbase.setWidth 64 <<< 4
  | 0x128 => h.gtn.setWidth 64
  | _ => match slotOffset off with
    | some (d, 64) => BitVec.ofNat 64 (s.slots.modes.getD d false).toNat
    | some (d, n) => (s.slots.entries.getD d []).getD n 0
    | none =>
      if 0x400 ≤ off ∧ off < 0x4C0 ∧ off % 8 = 0 then
        ((h.retpc.getD ((off - 0x400) / 16) 0) >>> (off % 16 * 8)).setWidth 64
      else 0

/-- R52, R165, R192, R329. -/
def execHostRegisterWrite (off : Nat) (v : Word) (s : State) : Out :=
  let h := s.host
  let ok := h.ready
  let base (h' : HostRegs) : Out := .next (if !ok then s else if h.empty then s.setHost h' else s.refuse)
  let index (h' : HostRegs) : Out :=
    .next (if !ok then s else if (v.setWidth 16).toNat < h.ring then s.setHost h' else s.refuse)
  match off with
  | 0x000 => base { h with sqbase := v.extractLsb' 12 52 }
  | 0x008 => execSqsize v s
  | 0x010 => index { h with sqtail := v.setWidth 16 }
  | 0x020 => base { h with rqbase := v.extractLsb' 12 52 }
  | 0x030 => index { h with rqhead := v.setWidth 16 }
  | 0x040 => execPrq v s
  | 0x048 => execResume v s
  | 0x050 => execLcancel v s
  | 0x060 => .next (s.hostIf (ok || decide (h.phase = 1))
      { h with dumplen := v.extractLsb' 48 16, dumpbase := v.extractLsb' 12 36 })
  | 0x068 => execAttreq v s
  | 0x078 => .next (s.hostIf ok { h with pcap := v.setWidth 16 })
  | 0x100 => .next (s.keepRoots.hostIf ok { h with trbase := v.extractLsb' 12 52 })
  | 0x108 => .next (s.keepRoots.hostIf ok { h with trn := v.setWidth 16 })
  | 0x110 => .next (s.keepRoots.hostIf ok { h with ltbase := v.extractLsb' 5 59 })
  | 0x118 => .next (s.keepRoots.hostIf ok { h with ltn := v.setWidth 16 })
  | 0x120 => .next (s.hostIf ok { h with gtbase := v.extractLsb' 4 60 })
  | 0x128 => .next (s.hostIf ok { h with gtn := v.setWidth 16 })
  | _ => .next (match slotOffset off with
    | some _ => { s with slots := { s.slots with pending := s.slots.pending ++ [(off, v)] } }
    | none => s)

/-- R193: the accepted writes of a die take effect. -/
def execSlotTableFrameStart (die : Nat) (s : State) : Out :=
  .next (
    let t := s.slots
    let mine := t.pending.filter fun w => match slotOffset w.1 with | some (d, _) => decide (d = die) | none => false
    let t := { t with pending := t.pending.filter fun w => !mine.contains w }
    let put (t : SlotTables) (w : Nat × Word) : SlotTables := match slotOffset w.1 with
      | some (d, 64) => { t with modes := t.modes.set d (w.2.getLsbD 0) }
      | some (d, n) => { t with
          entries := t.entries.set d ((t.entries.getD d []).set n (w.2 &&& 0xFFFFFFFFFFFF0002)) }
      | none => t
    { s with slots := mine.foldl put t })

/-! ### Companion writes (01 R23) -/

/-- The byte that a companion write to a state leaves at an address, none where it is discarded: a record that
the device owns keeps its bytes, and a FROZEN one its STATE field (01 R23). -/
def State.companionByte (s : State) (a : Nat) (b : Byte) : Option Byte :=
  match s.sched.recs.find? fun r => !r.spawning && decide (r.pa ≤ a) && decide (a < r.pa + 64) with
  | none => some b
  | some r =>
    let st := s.recState r.pa
    if st = csReady ∨ st = csRunning ∨ st = csWaiting then none
    else if st = csFrozen ∧ a = r.pa + 7 then some (merge 0x0F#8 b (Cells.get s.mem.cells a))
    else some b

/-- The bytes of a companion write from an address on, judged by the records as the write finds them, and
whether some are discarded. -/
def State.companionWrite (s found : State) (a : Nat) : List Byte → State × Bool
  | [] => (s, false)
  | b :: bs =>
    match found.companionByte a b with
    | none => ((s.companionWrite found (a + 1) bs).1, true)
    | some b => (s.wr a 1 b.toNat).companionWrite found (a + 1) bs

/-- R23; a write to a region of the LP tier that is not yet zeroed waits (15 R337). -/
def execOnlimirWrite (addr : Nat) (data : List Byte) (s : State) : Out :=
  .next (
    if data ≠ [] ∧ s.lpWaits (addr + data.length - 1) = true then s.mustWait else
    let r := s.companionWrite s addr data
    let t := if r.2 then r.1.refuse else r.1.healLines [(addr, data.length)]
    t.dropStale)

/-! ### Firmware's retirements (03 R68, R70; 08 R177, R178) -/

/-- A core that runs nothing is retired: the spare takes its index, or the index is disabled and the READY
gangs of the cluster are placed again (03 R68, R70). What the index's A-space, W-space, bank formats and handler bank
hold once the spare has taken it over the spec does not say; that they hold what they held is the model's choice (log
51). -/
def State.retireCore (s : State) (core : Nat) : State :=
  let cl := core / 24
  let q := { s.sched with retire := s.sched.retire.filter (· ≠ core) }
  if s.sched.offCores.contains core then s.setSched q
  else if q.spares.contains cl then
    let s := s.setSched { q with offCores := core :: q.offCores }
    match s.owner? cl with
    | none => s
    | some j => ((s.candidates cl).filter fun r => decide (s.gsizeOf r.pa ≠ 0)).foldl (fun s r => s.replace j r) s
  else s.setSched { q with spares := cl :: q.spares }

/-- R68: at once, or at the occupant's next yield or suspension. -/
def execCoreRetire (core : Nat) (s : State) : Out :=
  .next (
    if 1152 ≤ core then s
    else if (s.coreOf core).phase = .idle then s.retireCore core
    else
      let s := if s.sched.retire.contains core then s
        else s.setSched { s.sched with retire := core :: s.sched.retire }
      s.push (.coreRetire core))

/-- R177 phase 1: new requests to the channel are held. -/
def execChannelRetireHold (stack chan : Nat) (s : State) : Out :=
  .next (
    if 12 ≤ stack ∨ 96 ≤ chan ∨ s.channelOff stack chan ∨ s.mem.chanHeld.contains (stack, chan) then s
    else (s.setMem { s.mem with chanHeld := (stack, chan) :: s.mem.chanHeld }).push (.channelMigration stack chan))

/-- Sets a bit of RETPC. -/
def State.setRetpc (s : State) (stack chan : Nat) : State :=
  s.setHost { s.host with
    retpc := s.host.retpc.set stack ((s.host.retpc.getD stack 0) ||| (1#96 <<< chan)) }

/-- R177 phase 2, R178: RETPC is set, every entry of a running job whose set includes the channel gets a
new interleave, the ports migrate the lines, and the held requests are released. -/
def execChannelMigration (stack chan : Nat) (s : State) : Out :=
  .next (
    if !s.mem.chanHeld.contains (stack, chan) then s else
    let s := s.setRetpc stack chan
    let s := (s.sched.jobs.foldl State.reinterleaveJob s).moveAccesses.numberPorts 0
    s.setMem { s.mem with chanHeld := s.mem.chanHeld.filter (· ≠ (stack, chan)) })

/-! ### Events of the memory (08 R171, R172, R176; 15 R333, R341) -/

/-- R171. -/
def execSelfRefreshEnter (stack : Nat) (s : State) : Out :=
  .next (if s.mem.refresh.contains stack then s else s.setMem { s.mem with refresh := stack :: s.mem.refresh })

/-- R171. -/
def execSelfRefreshExit (stack : Nat) (s : State) : Out :=
  .next (s.setMem { s.mem with refresh := s.mem.refresh.filter (· ≠ stack) })

/-- R172: the back-off is counted. -/
def execRowBackOff (stack : Nat) (s : State) : Out :=
  .next (s.setMem { s.mem with rhb := s.mem.rhb.set stack (s.mem.rhb.getD stack 0 + 1) })

/-- What a peer access that is lost does to who waits for it (08 R176). -/
def State.peerLost (s : State) (who : PeerWho) (lease : Nat) : State :=
  let s := s.leaseRefused lease (some 2)
  match who with
  | .access id => (match s.sentAccess id with
    | none => s
    | some a => (s.dropAccess a).accessAnswered a (.error (.bufRights, 6)))
  | .engine _ => s.peerAnswered ⟨lease, who, .failed .linkLost⟩
  | .stalled core key => s.answerStall core key PeerResult.refused.words
  | .ending .. => s.peerAnswered ⟨lease, who, .failed .linkLost⟩

/-- R341, 08 R176, 10 R235, 11 R242, 12 R285. -/
def execRetryLimit (p : LostPacket) (s : State) : Out :=
  .next (match p with
    | .peer who lease => s.peerLost who lease
    | .hop m => s.hopLost m
    | .ring t cid seq => (match s.run? t cid seq with
      | some r => s.endRunWith r 0x12
      | none => s)
    | .arbiter r => s.arbiterLost r
    | .device dev => s.deviceLost dev)

/-- A line of memory is poisoned (15 R333). -/
def State.poisonLine (s : State) (l : Nat) : State :=
  s.setMem { s.mem with poison := l :: s.mem.poison.filter (· ≠ l) }

/-- A byte of a cache lies outside a line. -/
def L1Byte.outside (l : Nat) (b : L1Byte) : Bool := decide (b.key / 64 ≠ l)

/-- The head command of an engine meets a failing check in the engine's own buffer: CODE ECC (09 R214). -/
def State.engineBad (s : State) (e : Nat) : State :=
  let f (c : Cmd) : EngFail := ⟨5, .eccUncorr, c.descPtr, 0, 0⟩
  match s.engHead e with
  | none => s
  | some c =>
    if c.kind = 3 then
      (match s.units.runs.find? fun r => decide (r.eng = e ∧ r.cmd = c.id) with
        | some r => s.endRunWith r 5
        | none => s.failCmd e c (f c))
    else if c.kind = 4 ∨ (s.engine e).vals = [] then s
    else s.failCmd e c (f c)

/-- The lines of n bytes, the last one filled up with zeros. -/
def linesOf (n x : Nat) : List (List Byte) := (List.range ((n + 63) / 64)).map fun i => toLe 64 (x / 2 ^ (512 * i))

/-- The bytes of the lines that a place keeps with their check values (15 R332). -/
def State.placeLines (s : State) : BadPlace → List (List Byte)
  | .line pa => [(List.range 64).map fun i => Cells.get s.mem.cells (pa / 64 * 64 + i)]
  | .cached core pa => [(List.range 64).map fun i => (s.l1Get (core / 24) (s.coreOf core).store.l1 (pa / 64 * 64 + i)).1]
  | .shared cl pa => [(List.range 64).map fun i => (s.clusterGet cl (pa / 64 * 64 + i)).1]
  | .code core pa => linesOf 64 (s.ownBytes (core / 24) (s.coreOf core).store.l1 (pa / 64 * 64) 64)
  | .engine e | .egress e => (s.engine e).vals.map (toLe 64)
  | .flight id => match s.agenda.findSome? fun e => (accessOf e).filter fun a => decide (a.id = id) with
    | some a => a.parts.map (fun p => toLe 64 p.data) ++ a.got.map fun g => toLe 64 g.2
    | none => []
  | .scratch core sp l => linesOf 64 ((s.coreOf core).store.read (0xFFF0 + sp) (64 * l) 64)
  | .slot core k => linesOf 6144 ((s.coreOf core).store.read 0xFFF4 (6144 * k) 6144)
  | .arrival core k => match s.openLink core k with
    | some (_, l) => l.arrivals.flatMap fun a => linesOf (8 * a.2.2.length) (leNat (a.2.2.flatMap fun w => toLe 8 w.toNat))
    | none => []
  | .reg core f r =>
    let g := (s.coreOf core).regs
    match f with
    | 0 => linesOf 8 (g.s[r]?.getD 0).toNat
    | 1 => linesOf 256 (g.v[r]?.getD 0).toNat
    | _ => linesOf 16 (g.w[r]?.getD 0).toNat

/-- The check values formed over the lines of a place as they stand: the CRC-32C of the 64 bytes of each (15
R332). -/
def State.formedChecks (s : State) (w : BadPlace) : List (BitVec 32) := (s.placeLines w).map crc32c

/-- A line of a place has changed without a unit forming its check value anew (15 R332, R333). -/
def State.placeBad (s : State) (w : BadPlace) : Bool :=
  match w with
  | .line pa => s.mem.poison.contains (pa / 64)
  | .cached core pa => s.mem.poison.contains (pa / 64) && !s.covers core (pa / 64)
  | .shared cl pa => s.mem.poison.contains (pa / 64) && !lineHealed (s.clusterBytes cl) (pa / 64)
  | .code core pa => (s.coreOf core).store.bad.contains (.code core (pa / 64))
  | .scratch core .. | .slot core _ | .reg core .. => (s.coreOf core).store.bad.contains w
  | .engine _ | .egress _ | .flight _ | .arrival .. => false

/-- The check values kept with the lines of a place: those formed over them by each unit that changed them, and of a
place that fails one that its first line does not have (15 R332, R333; log 31). -/
def State.keptChecks (s : State) (w : BadPlace) : List (BitVec 32) :=
  match s.formedChecks w with
  | c :: cs => (if s.placeBad w then c + BitVec.ofNat 32 (1 + (Config.freeWord s.tick (2 ^ 58)).toNat % (2 ^ 32 - 1))
      else c) :: cs
  | [] => []

/-- Verifying a place's check values fails (15 R333). -/
def State.checkFails (s : State) (w : BadPlace) : Bool := decide (s.keptChecks w ≠ s.formedChecks w)

/-- R333: where a check value fails. A line that fails in a data cache is dropped there and poisoned in memory, one
in an instruction cache fails the fetches of its core, and an access whose line fails on its way fails; a request
that an engine has made of a lender is answered first (log 31). -/
def execCheckValueFailure (w : BadPlace) (s : State) : Out :=
  .next (match w with
    | .line pa => s.poisonLine (pa / 64)
    | .cached core pa => (s.setL1 core fun l => l.filter (L1Byte.outside (pa / 64))).poisonLine (pa / 64)
    | .shared cl pa => (s.setMem { s.mem with
        cc := s.mem.cc.filter fun c => !decide (c.1 = cl) || c.2.outside (pa / 64) }).poisonLine (pa / 64)
    | .engine e | .egress e => if (s.engine e).asked then s.push (.checkValueFailure w) else s.engineBad e
    | .code core pa =>
      let c := s.coreOf core
      s.setCore { c with store := { c.store with bad := .code core (pa / 64) :: c.store.bad } }
    | .flight id => (match s.agenda.find? fun e => (accessOf e).any fun a => decide (a.id = id) with
      | some e => (match accessOf e with
        | some a => { s with agenda := s.agenda.filter (· ≠ e) }.accessAnswered a (.error (.eccUncorr, 1))
        | none => s)
      | none => s)
    | .slot core k | .arrival core k => s.linkFails core k
    | .scratch core .. | .reg core .. =>
      let c := s.coreOf core
      s.setCore { c with store := { c.store with bad := w :: c.store.bad } })

/-! ### Power, power-up, fatal errors and the dump (14 R323; 15 R334 to R338, R343) -/

/-- R343: PNOW; the stall cycles that follow change timing only. -/
def execPnowApproachingCap (pnow : BitVec 16) (s : State) : Out := .next (s.setHost { s.host with pnow := pnow })

/-- R323, R343: thermal stall cycles count toward nothing: only time passes. -/
def execThermalStall (_core : Nat) (s : State) : Out := .next s

/-- R336: the power-up sequence starts; what the memories hold and the device's strap stay. -/
def execReset (s : State) : Out :=
  let r := State.reset
  let m := { r.mem with cells := s.mem.cells, poison := s.mem.poison }
  .next { r with
    mem := m, units := { r.units with images := s.units.images }, host := { r.host with phase := 1 }, devnum := s.devnum, peers := s.peers
    inputs := s.inputs, outbox := s.outbox, tick := s.tick, nextId := s.nextId }

/-- A power-up phase ends: the next is reached, or the sequence stops with FAILCODE (15 R336). -/
def State.phaseEnds (s : State) (phase : BitVec 3) (ok : Bool) (f : State → State) : State :=
  let h := s.host
  if h.phase ≠ phase ∨ h.failcode ≠ 0 ∨ h.fatal then s
  else if ok then let t := f s; t.setHost { t.host with phase := phase + 1 }
  else s.setHost { h with failcode := phase.setWidth 8 }

/-- R336 phase 1, R338, R339: the boot ROM verifies the image by the release key and records its SHA-512;
`ok`: it has done so within the phase's bound. -/
def execFirmwareSignatureVerify (ok : Bool) (s : State) : Out :=
  .next (s.phaseEnds 1 (ok && edVerify Config.releaseKey Config.firmwareImage Config.firmwareSignature) fun s =>
    { s with
      host := { s.host with fwok := true }
      measured := some (BitVec.ofNat 512 (leNat (sha512 Config.firmwareImage)))
      devKey := some (edPublic Config.deviceSecret) })

/-- R336 phase 2. -/
def execSelfCalibration (ok : Bool) (s : State) : Out := .next (s.phaseEnds 2 ok id)

/-- R336 phase 3: firmware retires failing channels, cores and clusters. -/
def execMemoryInitialisation (ok : Bool) (s : State) : Out :=
  .next (s.phaseEnds 3 ok fun s =>
    let s := Config.failingChannels.foldl (fun s c => s.setRetpc c.1 c.2) s
    let s := Config.failingCores.foldl State.retireCore s
    s.setSched { s.sched with offClusters := Config.failingClusters })

/-- Writes zero to a range of keys and forms its check values (15 R336, R337). -/
def State.zeroRange (s : State) (key n : Nat) : State :=
  s.setMem { s.mem with
    cells := Cells.zero s.mem.cells key n
    poison := s.mem.poison.filter fun l => !wholeLine key n l }

/-- R336 phase 4. -/
def execHbmZeroing (ok : Bool) (s : State) : Out := .next (s.phaseEnds 4 ok fun s => s.zeroRange 0 (2 ^ 52))

/-- R336 phase 5: the scheduler and the tables are cleared, and READY is set. -/
def execSchedulerClear (s : State) : Out :=
  .next (
    if s.host.phase ≠ 5 ∨ s.host.failcode ≠ 0 ∨ s.host.ready ∨ s.host.fatal then s else
    { s.setSched { s.sched with jobs := [], levels := [], recs := [], responses := [], retire := [] } with
      units := { State.reset.units with images := s.units.images }
      host := { s.host with ready := true } })

/-- The 2 MiB regions of the LP tier's 1,536 x 10^9 bytes, the last of them cut short (00 R4, R10). -/
def lpRegions : Nat := 732422

/-- The zeroing of the LP tier goes on: a board with CXL memory has none, and its LPZ stays 0 (00 R1; 15 R337;
log 39). -/
def State.lpZeroing (s : State) : Bool := decide (4 ≤ s.host.phase.toNat) && !s.host.lpz && !Config.cxlBoard

/-- R337: the lowest region not yet zeroed. -/
def execLpRegionZeroed (s : State) : Out :=
  .next (
    if !s.lpZeroing ∨ lpRegions ≤ s.mem.lpZeroed then s else
    let s := s.zeroRange (tierKey 1 (s.mem.lpZeroed * 2 ^ 21)) (2 ^ 21)
    s.setMem { s.mem with lpZeroed := s.mem.lpZeroed + 1 })

/-- R337: LPZ. -/
def execLpTierZeroingComplete (s : State) : Out :=
  .next (s.hostIf (s.lpZeroing && decide (lpRegions ≤ s.mem.lpZeroed)) { s.host with lpz := true })

/-- The next event of the zeroing of the LP tier (15 R337). -/
def State.lpEvent (s : State) : Option Event :=
  if !s.lpZeroing then none
  else if s.mem.lpZeroed < lpRegions then some .lpRegionZeroed
  else some .lpTierZeroingComplete

/-- R334. -/
def execFatalError (code : Nat) (s : State) : Out :=
  .next (if s.host.fatal then s else
    s.setHost { s.host with fatal := true, failcode := BitVec.ofNat 8 code, ready := false })

/-- The key of the dump region: in the LP tier, or in CXL memory on a CXL board (15 R329). -/
def State.dumpKey (s : State) : Nat := tierKey (if Config.cxlBoard then 2 else 1) (s.host.dumpbase.toNat * 4096)

/-- A dump is to be written (15 R335). -/
def State.dumpDue (s : State) : Bool := s.host.fatal && !s.host.dumped && decide (s.host.dumplen ≠ 0)

/-- The registers of a core as a dump's words: its number, its frame area with every register saved but the
link slots, the handler bank, the predicates, the return-address store, its record, pc and counts, and its system
registers (05 R95 to R114; 14 R309, R315, R328; 15 R335). -/
def State.dumpRegs (s : State) (id : Nat) : List Nat :=
  let c := s.coreOf id
  let g := c.regs
  id :: (c.areaWrites s (2 ^ 192 - 1)).map (fun w => w.2.2) ++
    (List.range 8).map (fun i => (g.s[64 + i]?.getD 0).toNat) ++
    [32, 33].flatMap (fun i => [(g.tok i).word0.toNat, (g.tok i).word1.toNat]) ++
    g.p.toNat :: g.ras.toList.map BitVec.toNat ++
    [c.cont.recPa, c.cont.run, c.cont.stretch, c.cont.lic, c.pipe.pc.toNat, g.rascnt, g.rasn.toNat,
      c.sys.cause.toNat, c.sys.epc.toNat, c.sys.fmask.toNat, c.sys.tval.toNat, c.sys.frec.toNat,
      c.sys.hreason.toNat, c.sys.gmask.toNat, c.sys.hact.toNat, c.sys.subslot.toNat, c.sys.dbg.toNat]

/-- The queued matrix operations and the postings in flight of a core as a dump's words (15 R335). -/
def State.dumpQueues (s : State) (id : Nat) : List Nat :=
  let p := (s.coreOf id).pipe
  id :: p.xq.flatMap (fun e => [e.id, e.a.toNat, e.b.toNat, e.x.toNat, e.y.toNat, e.ch.toNat, e.inst.toNat, e.idx,
      e.slot, e.pc.toNat, e.seq] ++ e.wi.map BitVec.toNat) ++
    p.posts.flatMap fun q => [q.id, q.tok, q.cover.toNat, q.ready.toNat]

/-- The images of an engine's entries as a dump's words (14 R319; 15 R335). -/
def State.dumpEngine (s : State) (e : Nat) : List Nat :=
  let q := (s.engine e).queue
  e :: (q.zip (List.range q.length)).flatMap fun c => (wordsOf (s.image c.1 c.2) 128).map BitVec.toNat

/-- The queues of the scheduler as a dump's words (15 R335). -/
def Sched.dumpWords (q : Sched) : List Nat :=
  q.jobs.map Job.pa ++ q.levels.flatMap (fun l => [l.pa, l.parent, l.kind]) ++
    q.recs.flatMap (fun r => [r.pa, r.launch, r.cluster, r.since, r.lic, r.retired.toNat]) ++
    q.responses.flatMap fun r => [r.1.toNat, r.2.toNat]

/-- The fields of a message of a chain instance as a dump's words (10 R225; 15 R335). -/
def msgWords (m : ChainMsg) : List Nat :=
  [m.job, m.ch.toNat, m.inst.toNat, m.digest.toNat, m.sender, m.target, m.apos, m.fmt64.toNat] ++ m.vals.map BitVec.toNat

/-- What a request asks of an arbiter as a dump's words (11 R242; 15 R335). -/
def arbWords : ArbKind → List Nat
  | .freeze k l => [0, k.code] ++ (l.map fun p => [p.1, p.2]).getD []
  | .note st => [1, st]
  | .splice core slot pa => [2, core, slot, pa]
  | .thaw => [3]
  | .cancel => [4]

/-- A message that a hop port holds as a dump's words (10 R225, R227; 11 R242; 15 R335). -/
def heldWords (e : Event) : List Nat :=
  match e with
  | .announcement m => 0 :: msgWords m
  | .hopArrival m => 1 :: msgWords m
  | .acknowledgement m => 2 :: msgWords m
  | .chainFreezeMessage m => 3 :: msgWords m
  | .chainCancelMessage m => 4 :: msgWords m
  | .arbiterRequest r =>
    [5, r.job, r.ch.toNat, r.inst.toNat, r.digest.toNat, r.idx, r.core, r.key, r.src.toNat] ++ arbWords r.kind ++
      (r.reply.map fun w => [w.toNat]).getD []
  | _ => []

/-- The chain instances of the hop ports, and the messages that the ports hold, as a dump's words (15 R335). -/
def Units.dumpPorts (u : Units) : List Nat :=
  u.hopPort.length :: u.hopPort.flatMap heldWords ++ u.chains.flatMap fun c =>
    [c.job, c.ch.toNat, c.inst.toNat, c.digest.toNat, c.state, c.held.length] ++ c.held.flatMap heldWords ++
      c.table.map BitVec.toNat ++ c.reported.flatMap (fun r => [r.1, r.2]) ++ c.words.flatMap (fun w => [w.1, w.2.toNat]) ++
      c.links.flatMap fun l => [l.idx, l.state, l.core, l.slot, l.issued, l.applied, l.arrived, l.acked.toNat,
        l.spl.toNat, l.flags.toNat, l.cause, l.gen] ++
        l.arrivals.flatMap fun a => [a.1, a.2.1.toNat] ++ a.2.2.map BitVec.toNat

/-- The sections of a dump in the order of R335's list: registers, link slots and queues of every core, the
engines, the scheduler, the hop ports and the logs. -/
def State.dumpSections (s : State) : List (List Nat) :=
  let cores := List.range 1152
  [cores.flatMap s.dumpRegs, cores.map fun id => Cells.read (s.coreOf id).store.k 0 98304,
    cores.flatMap s.dumpQueues, (List.range 64).flatMap s.dumpEngine, s.sched.dumpWords, s.units.dumpPorts,
    [s.tick, s.sched.faultSeq.toNat, s.host.refused.toNat] ++ s.mem.rhb.map BitVec.toNat]

/-- The bytes of the sections of a dump that fit, each as its layout gives it: the first that does not fit and
those after it are left out (15 R335; log 18). -/
def fitSections : Nat → Nat → List (List Nat) → List Byte
  | _, _, [] => []
  | room, n, x :: xs =>
    let b := Config.dumpLayout n x
    if room < b.length then [] else b ++ fitSections (room - b.length) (n + 1) xs

/-- R335: the header and the device state; sections that do not fit are left out. A region of the LP tier that
is not yet zeroed makes it wait (R337). -/
def execDump (s : State) : Out :=
  .next (
    if !s.dumpDue then s else
    let body := fitSections (s.host.dumplen.toNat * 2 ^ 26 - 4096) 0 s.dumpSections
    if s.lpWaits (s.dumpKey + 4095 + body.length) then s.mustWait else
    let magic := [0x4B#8, 0x41#8, 0x34#8, 0x31#8, 0x44#8, 0x55#8, 0x4D#8, 0x50#8]
    let head := magic ++ toLe 8 (4096 + body.length) ++ toLe 2 s.host.failcode.toNat ++ toLe 2 s.devnum.toNat ++
      toLe 4 0 ++ toLe 8 (Config.clockCycles s.tick).toNat ++ sha512 body
    let all := head ++ toLe 64 (edSign Config.deviceSecret head).toNat
    let s := s.wr s.dumpKey 4096 (leNat all)
    let s := s.wr (s.dumpKey + 4096) body.length (leNat body)
    s.setHost { s.host with dumped := true })

end Sys2Proof.Machine
end

