-- ==== Sys2Proof/Machine/Sync.lean ====
section
/-!
DEFINITION. The witness instructions and the atomics (13 R287 to R295).
-/
namespace Sys2Proof.Machine

/-! ### Witness registers (13 R289 to R292) -/

/-- A witness operation of the S unit: with its guard false it checks nothing and writes the empty witness
(13 R289; 04 R81). -/
def State.witSlot (s : State) (hd : Hdr) (d : Nat) (u : Uses) (f : State → State) : Out :=
  .next (if !s.pOn hd then s.emptyWit d else match s.blocked { u with dw := [d] } with
    | some t => t
    | none => f s)

/-- R289. -/
def execWnull (hd : Hdr) (d : BitVec 6) (s : State) : Out :=
  s.witSlot hd d.toNat {} fun s => s.emptyWit d.toNat

/-- R289. -/
def execWmov (hd : Hdr) (d a : BitVec 6) (s : State) : Out :=
  s.witSlot hd d.toNat { w := [a.toNat] } fun s => s.result 0 (.w d.toNat (BitVec.allOnes 128) (s.copyWit (s.w! a)))

/-- R289: one entry from a scalar. -/
def execWmovTow (hd : Hdr) (d a : BitVec 6) (e : BitVec 1) (s : State) : Out :=
  s.witSlot hd d.toNat { s := [a] } fun s =>
    let x := (s.copyEntry (s.s! a)).setWidth 128 <<< (64 * e.toNat)
    s.result 0 (.w d.toNat ((BitVec.allOnes 64).setWidth 128 <<< (64 * e.toNat)) x)

/-- R289: one entry to a scalar. -/
def execWmovTos (hd : Hdr) (d a : BitVec 6) (e : BitVec 1) (s : State) : Out :=
  s.guarded hd { w := [a.toNat], ds := [d] } fun s => s.sResult 0 d (s.copyEntry (entry (s.w! a) e.toNat))

/-- A destination in the witness file; w0 is none (05 R96). -/
def dstW (d : BitVec 6) : List Dst := if d = 0 then [] else [⟨2, d.toNat⟩]

/-- R290. -/
def execWmrg (hd : Hdr) (d a b : BitVec 6) (s : State) : Out :=
  if !s.room? (Hdr.tok hd) then .next s.stall else
  .next (if !s.pOn hd then (s.postOnce? (Hdr.tok hd)).emptyWit d.toNat else
    match s.blocked { w := [a.toNat, b.toNat], dw := [d.toNat] } with
    | some t => t
    | none =>
      let es := mergeEntries ((entriesOf (s.w! a) ++ entriesOf (s.w! b)).map s.copyEntry)
      match Hdr.tok hd, witOfEntries es with
      | none, none => s.fail .viewConflict 0 0
      | none, some w => s.result 0 (.w d.toNat (BitVec.allOnes 128) w)
      | some _, some w =>
        let r := s.post? (Hdr.tok hd) (dstW d)
        r.1.deliver (r.1.completion r.2 [.w d.toNat (BitVec.allOnes 128) w])
      | some _, none =>
        let t := s.issueAccess hd (.merge (es.headD 0) (es.drop 1)) true [] d.toNat (dstW d) 0 none
        t.setCont { t.core.cont with wsc := max t.core.cont.wsc (widest (es.drop 1)) })

/-- R291. -/
def execWchk (hd : Hdr) (d a : BitVec 6) (s : State) : Out :=
  s.tokSlot hd (s.pOn hd) false { w := [a.toNat], ds := [d] } fun s =>
    s.issueAccess hd (.check (entry (s.w! a) 0) (entry (s.w! a) 1)) true [] (s.sDst d) (s.dstS d) 0 none

/-- A wait on the entries of a witness register: it traps, stalls by `wait`, or completes (13 R292). -/
def State.witWait (s : State) (a : BitVec 6) (wait : State → State) : State :=
  match s.observe (some s.core.id) (entriesOf (s.w! a)) with
  | .bad c e => s.fail c e 0
  | .wait => wait s
  | .ok => s

/-- R292. -/
def execWwait (hd : Hdr) (a : BitVec 6) (s : State) : Out :=
  s.guarded hd { w := [a.toNat] } fun s => s.witWait a State.stall

/-- R292: it suspends, but while the continuation is pinned or in a gang it stalls. -/
def execWwaitS (hd : Hdr) (a : BitVec 6) (s : State) : Out :=
  s.guarded hd { w := [a.toNat] } fun s =>
    if s.core.cont.handler then s.illegal else
    s.witWait a fun s =>
      if s.pinned || decide (s.core.cont.gsize ≠ 0) then s.stall
      else (s.suspend (waitWord 2 a.toNat 0 0)).saveWit a.toNat

/-! ### Atomics (12 R274 to R276; 13 R293, R294) -/

/-- The forms that deterministic mode batches (12 R275). -/
def AtomOp.batched (op : AtomOp) (nr : Bool) : Bool := !nr || op matches .addf || op matches .swp || op matches .cas

/-- LIC at the issue of the bundle in turn: a wait on a token that it holds has already raised it when the
bundle stalls, and so raises it for its other slots whether it stalls or not (12 R275; log 24). -/
def State.issueLic (s : State) : Nat :=
  let waits (i : Instr) : Bool := match i with
    | .wtk hd .. | .wtkRf1 hd .. | .wtks hd .. | .wtksRf1 hd .. => s.pOn hd
    | _ => false
  if !s.core.cont.handler && s.core.pipe.bundle.any (fun q => waits q.2) then raise s.core.cont.lic else s.core.cont.lic

/-- Issues an atomic (13 R294). -/
def State.atomic (s : State) (op : AtomOp) (hd : Hdr) (d a b : BitVec 6) : Out :=
  let nr := decide (bits hd.c 3 3 = 1)
  let w64 := decide (bits hd.c 2 2 = 1)
  let np := decide (bits hd.c 1 1 = 1)
  let n := if w64 then 8 else 4
  let src := if op = .cas then [a, b, d] else [a, b]
  s.tokSlot hd (s.pOn hd) true { s := src, w := [Hdr.wi hd], ds := if nr then [] else [d] } fun s =>
    let c := s.core.cont
    let val (r : BitVec 6) : Nat := (s.s! r).toNat % 256 ^ n
    let part : Part := ⟨0, ptrBy (s.s! a) (offOf hd.c2), n, val b⟩
    let key : Option BatchKey :=
      if c.det && AtomOp.batched op nr then some ⟨c.launch, s.issueLic / 256, c.unit.toNat, c.member, 0⟩ else none
    let r := s.giveStore hd
    r.1.issueAccess hd (.atomic op w64 nr np (BitVec.ofNat 64 (val d))) true [part] (s.sDst d)
      (if nr then [] else s.dstS d) r.2 key

/-- R293. -/
def execAadd (hd : Hdr) (d a b : BitVec 6) (s : State) : Out := s.atomic .add hd d a b
/-- R293. -/
def execAand (hd : Hdr) (d a b : BitVec 6) (s : State) : Out := s.atomic .and hd d a b
/-- R293. -/
def execAor (hd : Hdr) (d a b : BitVec 6) (s : State) : Out := s.atomic .or hd d a b
/-- R293. -/
def execAxor (hd : Hdr) (d a b : BitVec 6) (s : State) : Out := s.atomic .xor hd d a b
/-- R293. -/
def execAmin (hd : Hdr) (d a b : BitVec 6) (s : State) : Out := s.atomic .min hd d a b
/-- R293. -/
def execAmax (hd : Hdr) (d a b : BitVec 6) (s : State) : Out := s.atomic .max hd d a b
/-- R293. -/
def execAminu (hd : Hdr) (d a b : BitVec 6) (s : State) : Out := s.atomic .minu hd d a b
/-- R293. -/
def execAmaxu (hd : Hdr) (d a b : BitVec 6) (s : State) : Out := s.atomic .maxu hd d a b
/-- R293. -/
def execAswp (hd : Hdr) (d a b : BitVec 6) (s : State) : Out := s.atomic .swp hd d a b
/-- R293. -/
def execAcas (hd : Hdr) (d a b : BitVec 6) (s : State) : Out := s.atomic .cas hd d a b
/-- R293. -/
def execAaddf (hd : Hdr) (d a b : BitVec 6) (s : State) : Out := s.atomic .addf hd d a b
/-- R293. -/
def execAmaxf (hd : Hdr) (d a b : BitVec 6) (s : State) : Out := s.atomic .maxf hd d a b
/-- R293. -/
def execAminf (hd : Hdr) (d a b : BitVec 6) (s : State) : Out := s.atomic .minf hd d a b

end Sys2Proof.Machine
end

