-- ==== Sys2Proof/Machine/Dispatch.lean ====
section
/-!
DEFINITION. The meaning of every row of the table of operations and events: one arm, one meaning.
-/
namespace Sys2Proof.Machine

/-- What an instruction or event does to the device: one slot of the bundle in flight on the focused
core, or one event (04 R84, R85). -/
def exec (i : Instr) (s : State) : Host.Outcome State Fault Refusal :=
  match i with
  | .br hd h o => Sys2Proof.Machine.execBr hd h o s
  | .bri hd a => Sys2Proof.Machine.execBri hd a s
  | .call hd h o => Sys2Proof.Machine.execCall hd h o s
  | .calli hd a => Sys2Proof.Machine.execCalli hd a s
  | .ret hd => Sys2Proof.Machine.execRet hd s
  | .yield hd y => Sys2Proof.Machine.execYield hd y s
  | .dly hd n => Sys2Proof.Machine.execDly hd n s
  | .susp hd y => Sys2Proof.Machine.execSusp hd y s
  | .exit hd => Sys2Proof.Machine.execExit hd s
  | .spawn hd a b t => Sys2Proof.Machine.execSpawn hd a b t s
  | .wtk hd t h => Sys2Proof.Machine.execWtk hd t h s
  | .wtkRf1 hd t a => Sys2Proof.Machine.execWtkRf1 hd t a s
  | .wtks hd t h => Sys2Proof.Machine.execWtks hd t h s
  | .wtksRf1 hd t a => Sys2Proof.Machine.execWtksRf1 hd t a s
  | .sync hd => Sys2Proof.Machine.execSync hd s
  | .swtrap hd c => Sys2Proof.Machine.execSwtrap hd c s
  | .brk hd t => Sys2Proof.Machine.execBrk hd t s
  | .bdnz hd h c o => Sys2Proof.Machine.execBdnz hd h c o s
  | .add hd d a b => Sys2Proof.Machine.execAdd hd d a b s
  | .addi hd d a imm => Sys2Proof.Machine.execAddi hd d a imm s
  | .sub hd d a b => Sys2Proof.Machine.execSub hd d a b s
  | .mul hd d a b => Sys2Proof.Machine.execMul hd d a b s
  | .mulh hd d a b => Sys2Proof.Machine.execMulh hd d a b s
  | .mulhu hd d a b => Sys2Proof.Machine.execMulhu hd d a b s
  | .div hd d a b => Sys2Proof.Machine.execDiv hd d a b s
  | .divu hd d a b => Sys2Proof.Machine.execDivu hd d a b s
  | .rem hd d a b => Sys2Proof.Machine.execRem hd d a b s
  | .remu hd d a b => Sys2Proof.Machine.execRemu hd d a b s
  | .and_ hd d a b => Sys2Proof.Machine.execAnd hd d a b s
  | .andi hd d a imm => Sys2Proof.Machine.execAndi hd d a imm s
  | .or_ hd d a b => Sys2Proof.Machine.execOr hd d a b s
  | .ori hd d a imm => Sys2Proof.Machine.execOri hd d a imm s
  | .xor_ hd d a b => Sys2Proof.Machine.execXor hd d a b s
  | .xori hd d a imm => Sys2Proof.Machine.execXori hd d a imm s
  | .shl hd d a b => Sys2Proof.Machine.execShl hd d a b s
  | .shli hd d a imm => Sys2Proof.Machine.execShli hd d a imm s
  | .shr hd d a b => Sys2Proof.Machine.execShr hd d a b s
  | .shri hd d a imm => Sys2Proof.Machine.execShri hd d a imm s
  | .sra hd d a b => Sys2Proof.Machine.execSra hd d a b s
  | .srai hd d a imm => Sys2Proof.Machine.execSrai hd d a imm s
  | .min hd d a b => Sys2Proof.Machine.execMin hd d a b s
  | .max hd d a b => Sys2Proof.Machine.execMax hd d a b s
  | .minu hd d a b => Sys2Proof.Machine.execMinu hd d a b s
  | .maxu hd d a b => Sys2Proof.Machine.execMaxu hd d a b s
  | .adds hd d a b => Sys2Proof.Machine.execAdds hd d a b s
  | .subs hd d a b => Sys2Proof.Machine.execSubs hd d a b s
  | .clz hd d a => Sys2Proof.Machine.execClz hd d a s
  | .popc hd d a => Sys2Proof.Machine.execPopc hd d a s
  | .movi hd d imm => Sys2Proof.Machine.execMovi hd d imm s
  | .sel hd d a b => Sys2Proof.Machine.execSel hd d a b s
  | .bptr hd d a b => Sys2Proof.Machine.execBptr hd d a b s
  | .bpadd hd d a b => Sys2Proof.Machine.execBpadd hd d a b s
  | .bpchk hd p x a b => Sys2Proof.Machine.execBpchk hd p x a b s
  | .bfx hd d a => Sys2Proof.Machine.execBfx hd d a s
  | .bfxu hd d a => Sys2Proof.Machine.execBfxu hd d a s
  | .bfi hd d a b => Sys2Proof.Machine.execBfi hd d a b s
  | .cmp hd p c a b => Sys2Proof.Machine.execCmp hd p c a b s
  | .cmpi hd p c a imm => Sys2Proof.Machine.execCmpi hd p c a imm s
  | .plog hd d a b f => Sys2Proof.Machine.execPlog hd d a b f s
  | .pmovTos hd d => Sys2Proof.Machine.execPmovTos hd d s
  | .pmovFroms hd a => Sys2Proof.Machine.execPmovFroms hd a s
  | .wmrg hd d a b => Sys2Proof.Machine.execWmrg hd d a b s
  | .wmovTow hd d a e => Sys2Proof.Machine.execWmovTow hd d a e s
  | .wmovTos hd d a e => Sys2Proof.Machine.execWmovTos hd d a e s
  | .wmov hd d a => Sys2Proof.Machine.execWmov hd d a s
  | .wnull hd d => Sys2Proof.Machine.execWnull hd d s
  | .faddF32 hd d a b => Sys2Proof.Machine.execFaddF32 hd d a b s
  | .faddF64 hd d a b => Sys2Proof.Machine.execFaddF64 hd d a b s
  | .fsubF32 hd d a b => Sys2Proof.Machine.execFsubF32 hd d a b s
  | .fsubF64 hd d a b => Sys2Proof.Machine.execFsubF64 hd d a b s
  | .fmulF32 hd d a b => Sys2Proof.Machine.execFmulF32 hd d a b s
  | .fmulF64 hd d a b => Sys2Proof.Machine.execFmulF64 hd d a b s
  | .ffmaF32 hd d a b => Sys2Proof.Machine.execFfmaF32 hd d a b s
  | .ffmaF64 hd d a b => Sys2Proof.Machine.execFfmaF64 hd d a b s
  | .fminF32 hd d a b => Sys2Proof.Machine.execFminF32 hd d a b s
  | .fminF64 hd d a b => Sys2Proof.Machine.execFminF64 hd d a b s
  | .fmaxF32 hd d a b => Sys2Proof.Machine.execFmaxF32 hd d a b s
  | .fmaxF64 hd d a b => Sys2Proof.Machine.execFmaxF64 hd d a b s
  | .fcmp hd p c f a b => Sys2Proof.Machine.execFcmp hd p c f a b s
  | .fcvt hd d a => Sys2Proof.Machine.execFcvt hd d a s
  | .fcls hd d a f => Sys2Proof.Machine.execFcls hd d a f s
  | .ld hd d a z => Sys2Proof.Machine.execLd hd d a z s
  | .st hd d a z => Sys2Proof.Machine.execSt hd d a z s
  | .vld hd d a => Sys2Proof.Machine.execVld hd d a s
  | .vst hd d a => Sys2Proof.Machine.execVst hd d a s
  | .vlds hd d a b => Sys2Proof.Machine.execVlds hd d a b s
  | .vsts hd d a b => Sys2Proof.Machine.execVsts hd d a b s
  | .vgth hd d a b => Sys2Proof.Machine.execVgth hd d a b s
  | .vsct hd d a b => Sys2Proof.Machine.execVsct hd d a b s
  | .fmt hd k a b => Sys2Proof.Machine.execFmt hd k a b s
  | .vjoin hd w => Sys2Proof.Machine.execVjoin hd w s
  | .vjoinClr hd => Sys2Proof.Machine.execVjoinClr hd s
  | .cflush hd n a v => Sys2Proof.Machine.execCflush hd n a v s
  | .pref hd n a v => Sys2Proof.Machine.execPref hd n a v s
  | .sbind hd q a w => Sys2Proof.Machine.execSbind hd q a w s
  | .sbindU hd q => Sys2Proof.Machine.execSbindU hd q s
  | .tksv hd t a => Sys2Proof.Machine.execTksv hd t a s
  | .tkld hd t a => Sys2Proof.Machine.execTkld hd t a s
  | .aadd hd d a b => Sys2Proof.Machine.execAadd hd d a b s
  | .aand hd d a b => Sys2Proof.Machine.execAand hd d a b s
  | .aor hd d a b => Sys2Proof.Machine.execAor hd d a b s
  | .axor hd d a b => Sys2Proof.Machine.execAxor hd d a b s
  | .amin hd d a b => Sys2Proof.Machine.execAmin hd d a b s
  | .amax hd d a b => Sys2Proof.Machine.execAmax hd d a b s
  | .aminu hd d a b => Sys2Proof.Machine.execAminu hd d a b s
  | .amaxu hd d a b => Sys2Proof.Machine.execAmaxu hd d a b s
  | .aswp hd d a b => Sys2Proof.Machine.execAswp hd d a b s
  | .acas hd d a b => Sys2Proof.Machine.execAcas hd d a b s
  | .aaddf hd d a b => Sys2Proof.Machine.execAaddf hd d a b s
  | .amaxf hd d a b => Sys2Proof.Machine.execAmaxf hd d a b s
  | .aminf hd d a b => Sys2Proof.Machine.execAminf hd d a b s
  | .wchk hd d a => Sys2Proof.Machine.execWchk hd d a s
  | .wwait hd a => Sys2Proof.Machine.execWwait hd a s
  | .wwaitS hd a => Sys2Proof.Machine.execWwaitS hd a s
  | .vaddI32 hd d a b => Sys2Proof.Machine.execVaddI32 hd d a b s
  | .vsubI32 hd d a b => Sys2Proof.Machine.execVsubI32 hd d a b s
  | .vmulI32 hd d a b => Sys2Proof.Machine.execVmulI32 hd d a b s
  | .vminI32 hd d a b => Sys2Proof.Machine.execVminI32 hd d a b s
  | .vmaxI32 hd d a b => Sys2Proof.Machine.execVmaxI32 hd d a b s
  | .vminu hd d a b => Sys2Proof.Machine.execVminu hd d a b s
  | .vmaxu hd d a b => Sys2Proof.Machine.execVmaxu hd d a b s
  | .vand hd d a b => Sys2Proof.Machine.execVand hd d a b s
  | .vor hd d a b => Sys2Proof.Machine.execVor hd d a b s
  | .vxor hd d a b => Sys2Proof.Machine.execVxor hd d a b s
  | .vshl hd d a b => Sys2Proof.Machine.execVshl hd d a b s
  | .vshr hd d a b => Sys2Proof.Machine.execVshr hd d a b s
  | .vsra hd d a b => Sys2Proof.Machine.execVsra hd d a b s
  | .vcmpI32 hd p c a b => Sys2Proof.Machine.execVcmpI32 hd p c a b s
  | .vcmpu hd p c a b => Sys2Proof.Machine.execVcmpu hd p c a b s
  | .vaddsI32 hd d a b => Sys2Proof.Machine.execVaddsI32 hd d a b s
  | .vaddF32 hd d a b => Sys2Proof.Machine.execVaddF32 hd d a b s
  | .vsubF32 hd d a b => Sys2Proof.Machine.execVsubF32 hd d a b s
  | .vmulF32 hd d a b => Sys2Proof.Machine.execVmulF32 hd d a b s
  | .vfmaF32 hd d a b => Sys2Proof.Machine.execVfmaF32 hd d a b s
  | .vminF32 hd d a b => Sys2Proof.Machine.execVminF32 hd d a b s
  | .vmaxF32 hd d a b => Sys2Proof.Machine.execVmaxF32 hd d a b s
  | .vcmpF32 hd p c a b => Sys2Proof.Machine.execVcmpF32 hd p c a b s
  | .vcvt hd d a => Sys2Proof.Machine.execVcvt hd d a s
  | .vaddF64 hd d a b => Sys2Proof.Machine.execVaddF64 hd d a b s
  | .vsubF64 hd d a b => Sys2Proof.Machine.execVsubF64 hd d a b s
  | .vmulF64 hd d a b => Sys2Proof.Machine.execVmulF64 hd d a b s
  | .vfmaF64 hd d a b => Sys2Proof.Machine.execVfmaF64 hd d a b s
  | .vminF64 hd d a b => Sys2Proof.Machine.execVminF64 hd d a b s
  | .vmaxF64 hd d a b => Sys2Proof.Machine.execVmaxF64 hd d a b s
  | .vcmpF64 hd p c a b => Sys2Proof.Machine.execVcmpF64 hd p c a b s
  | .vaddBf16 hd d a b => Sys2Proof.Machine.execVaddBf16 hd d a b s
  | .vmulBf16 hd d a b => Sys2Proof.Machine.execVmulBf16 hd d a b s
  | .vfmaBf16 hd d a b => Sys2Proof.Machine.execVfmaBf16 hd d a b s
  | .vaddF16 hd d a b => Sys2Proof.Machine.execVaddF16 hd d a b s
  | .vmulF16 hd d a b => Sys2Proof.Machine.execVmulF16 hd d a b s
  | .vfmaF16 hd d a b => Sys2Proof.Machine.execVfmaF16 hd d a b s
  | .vmlog hd d a b f => Sys2Proof.Machine.execVmlog hd d a b f s
  | .vmmovTos hd d a => Sys2Proof.Machine.execVmmovTos hd d a s
  | .vmmovFroms hd d a => Sys2Proof.Machine.execVmmovFroms hd d a s
  | .vsel hd d a b => Sys2Proof.Machine.execVsel hd d a b s
  | .vperm hd d a b => Sys2Proof.Machine.execVperm hd d a b s
  | .vshuf hd d a b => Sys2Proof.Machine.execVshuf hd d a b s
  | .vbcst hd d a w => Sys2Proof.Machine.execVbcst hd d a w s
  | .vext hd d a imm => Sys2Proof.Machine.execVext hd d a imm s
  | .vins hd d a imm => Sys2Proof.Machine.execVins hd d a imm s
  | .vmov hd d a => Sys2Proof.Machine.execVmov hd d a s
  | .vidx hd d a imm => Sys2Proof.Machine.execVidx hd d a imm s
  | .vrsumF32 hd d a => Sys2Proof.Machine.execVrsumF32 hd d a s
  | .vrsumF64 hd d a => Sys2Proof.Machine.execVrsumF64 hd d a s
  | .vrsumI32 hd d a => Sys2Proof.Machine.execVrsumI32 hd d a s
  | .vrmax hd d a f u n => Sys2Proof.Machine.execVrmax hd d a f u n s
  | .vrmin hd d a f u n => Sys2Proof.Machine.execVrmin hd d a f u n s
  | .vscanF32 hd d a => Sys2Proof.Machine.execVscanF32 hd d a s
  | .vrcp hd d a => Sys2Proof.Machine.execVrcp hd d a s
  | .vrsq hd d a => Sys2Proof.Machine.execVrsq hd d a s
  | .vexp2 hd d a => Sys2Proof.Machine.execVexp2 hd d a s
  | .vlog2 hd d a => Sys2Proof.Machine.execVlog2 hd d a s
  | .vqnt hd d a b => Sys2Proof.Machine.execVqnt hd d a b s
  | .vdqt hd d a b => Sys2Proof.Machine.execVdqt hd d a b s
  | .vrnd hd d a b => Sys2Proof.Machine.execVrnd hd d a b s
  | .mxa hd k a b => Sys2Proof.Machine.execMxa hd k a b s
  | .mxg hd k a b => Sys2Proof.Machine.execMxg hd k a b s
  | .mxt hd k a b => Sys2Proof.Machine.execMxt hd k a b s
  | .chb hd k a => Sys2Proof.Machine.execChb hd k a s
  | .chc hd k a b => Sys2Proof.Machine.execChc hd k a b s
  | .chq hd d a => Sys2Proof.Machine.execChq hd d a s
  | .chs hd k a => Sys2Proof.Machine.execChs hd k a s
  | .chf hd c => Sys2Proof.Machine.execChf hd c s
  | .cht hd d c => Sys2Proof.Machine.execCht hd d c s
  | .chx hd c => Sys2Proof.Machine.execChx hd c s
  | .lkrd hd d k a => Sys2Proof.Machine.execLkrd hd d k a s
  | .lkld hd k a => Sys2Proof.Machine.execLkld hd k a s
  | .lkz hd k => Sys2Proof.Machine.execLkz hd k s
  | .ems hd y n a => Sys2Proof.Machine.execEms hd y n a s
  | .emsN hd y n c => Sys2Proof.Machine.execEmsN hd y n c s
  | .cpy hd e a => Sys2Proof.Machine.execCpy hd e a s
  | .cpyr hd e a => Sys2Proof.Machine.execCpyr hd e a s
  | .coll hd e a => Sys2Proof.Machine.execColl hd e a s
  | .abrt hd d a => Sys2Proof.Machine.execAbrt hd d a s
  | .arm hd e a b => Sys2Proof.Machine.execArm hd e a b s
  | .pub hd e a b => Sys2Proof.Machine.execPub hd e a b s
  | .rpsnd hd j a b => Sys2Proof.Machine.execRpsnd hd j a b s
  | .rprcv hd d a b => Sys2Proof.Machine.execRprcv hd d a b s
  | .est hd d e t => Sys2Proof.Machine.execEst hd d e t s
  | .srrd hd d r => Sys2Proof.Machine.execSrrd hd d r s
  | .srwr hd r a => Sys2Proof.Machine.execSrwr hd r a s
  | .eret hd => Sys2Proof.Machine.execEret hd s
  | .eretS hd => Sys2Proof.Machine.execEretS hd s
  | .icinv hd c a b => Sys2Proof.Machine.execIcinv hd c a b s
  | .eqrd hd d e a => Sys2Proof.Machine.execEqrd hd d e a s
  | .eqwr hd e a b => Sys2Proof.Machine.execEqwr hd e a b s
  | .btinv hd => Sys2Proof.Machine.execBtinv hd s
  | .tlbinv hd a b => Sys2Proof.Machine.execTlbinv hd a b s
  | .imm val => Sys2Proof.Machine.execImm val s
  | .bundleIssue => Sys2Proof.Machine.execBundleIssue s
  | .runOverrun => Sys2Proof.Machine.execRunOverrun s
  | .molcExpiry => Sys2Proof.Machine.execMolcExpiry s
  | .resultLanding => Sys2Proof.Machine.execResultLanding s
  | .remoteCompletion c => Sys2Proof.Machine.execRemoteCompletion c s
  | .dispatch core => Sys2Proof.Machine.execDispatch core s
  | .gangDispatch recPa => Sys2Proof.Machine.execGangDispatch recPa s
  | .suspendedWaitSatisfied recPa => Sys2Proof.Machine.execSuspendedWaitSatisfied recPa s
  | .gangSyncRelease core => Sys2Proof.Machine.execGangSyncRelease core s
  | .exitDrainComplete core => Sys2Proof.Machine.execExitDrainComplete core s
  | .retirementDecrement recPa => Sys2Proof.Machine.execRetirementDecrement recPa s
  | .spawnRecordWrite p => Sys2Proof.Machine.execSpawnRecordWrite p s
  | .tokenedOperationComplete c => Sys2Proof.Machine.execTokenedOperationComplete c s
  | .entryRipens r => Sys2Proof.Machine.execEntryRipens r s
  | .memoryPortAccess a => Sys2Proof.Machine.execMemoryPortAccess a s
  | .pageWalk tenant tier va => Sys2Proof.Machine.execPageWalk tenant tier va s
  | .pageZeroing tenant tier va => Sys2Proof.Machine.execPageZeroing tenant tier va s
  | .atomicPerform a => Sys2Proof.Machine.execAtomicPerform a s
  | .batchPerform a => Sys2Proof.Machine.execBatchPerform a s
  | .streamElementFetch core q => Sys2Proof.Machine.execStreamElementFetch core q s
  | .selfRefreshEnter stack => Sys2Proof.Machine.execSelfRefreshEnter stack s
  | .selfRefreshExit stack => Sys2Proof.Machine.execSelfRefreshExit stack s
  | .rowBackOff stack => Sys2Proof.Machine.execRowBackOff stack s
  | .peerAccess p => Sys2Proof.Machine.execPeerAccess p s
  | .peerResponse p => Sys2Proof.Machine.execPeerResponse p s
  | .retryLimit p => Sys2Proof.Machine.execRetryLimit p s
  | .copyPerform eng => Sys2Proof.Machine.execCopyPerform eng s
  | .reduceCopyPerform eng => Sys2Proof.Machine.execReduceCopyPerform eng s
  | .publishPerform eng => Sys2Proof.Machine.execPublishPerform eng s
  | .triggerMet eng => Sys2Proof.Machine.execTriggerMet eng s
  | .sourceFree eng => Sys2Proof.Machine.execSourceFree eng s
  | .delivered eng => Sys2Proof.Machine.execDelivered eng s
  | .collectiveRun eng => Sys2Proof.Machine.execCollectiveRun eng s
  | .collectiveStep p => Sys2Proof.Machine.execCollectiveStep p s
  | .commit m => Sys2Proof.Machine.execCommit m s
  | .abortRequest m => Sys2Proof.Machine.execAbortRequest m s
  | .abortDecision m => Sys2Proof.Machine.execAbortDecision m s
  | .mismatchNotice m => Sys2Proof.Machine.execMismatchNotice m s
  | .announcement m => Sys2Proof.Machine.execAnnouncement m s
  | .hopArrival m => Sys2Proof.Machine.execHopArrival m s
  | .acknowledgement m => Sys2Proof.Machine.execAcknowledgement m s
  | .contributionApply core => Sys2Proof.Machine.execContributionApply core s
  | .chainClose core => Sys2Proof.Machine.execChainClose core s
  | .linkSnapshot core => Sys2Proof.Machine.execLinkSnapshot core s
  | .startingValueLoad core => Sys2Proof.Machine.execStartingValueLoad core s
  | .startingValueZero core => Sys2Proof.Machine.execStartingValueZero core s
  | .arbiterRequest r => Sys2Proof.Machine.execArbiterRequest r s
  | .chainFreezeMessage m => Sys2Proof.Machine.execChainFreezeMessage m s
  | .chainCancelMessage m => Sys2Proof.Machine.execChainCancelMessage m s
  | .routerTakesContribution c => Sys2Proof.Machine.execRouterTakesContribution c s
  | .reductionPacket p => Sys2Proof.Machine.execReductionPacket p s
  | .treeTimeout tid node round => Sys2Proof.Machine.execTreeTimeout tid node round s
  | .roundResultReceive r => Sys2Proof.Machine.execRoundResultReceive r s
  | .checkValueFailure w => Sys2Proof.Machine.execCheckValueFailure w s
  | .cancelStop core => Sys2Proof.Machine.execCancelStop core s
  | .submit => Sys2Proof.Machine.execSubmit s
  | .cancel => Sys2Proof.Machine.execCancel s
  | .responseWrite => Sys2Proof.Machine.execResponseWrite s
  | .sqsize v => Sys2Proof.Machine.execSqsize v s
  | .hostRegisterWrite off v => Sys2Proof.Machine.execHostRegisterWrite off v s
  | .prq v => Sys2Proof.Machine.execPrq v s
  | .resume v => Sys2Proof.Machine.execResume v s
  | .lcancel v => Sys2Proof.Machine.execLcancel v s
  | .attreq v => Sys2Proof.Machine.execAttreq v s
  | .onlimirWrite addr data => Sys2Proof.Machine.execOnlimirWrite addr data s
  | .slotTableFrameStart die => Sys2Proof.Machine.execSlotTableFrameStart die s
  | .coreRetire core => Sys2Proof.Machine.execCoreRetire core s
  | .channelRetireHold stack chan => Sys2Proof.Machine.execChannelRetireHold stack chan s
  | .channelMigration stack chan => Sys2Proof.Machine.execChannelMigration stack chan s
  | .reset => Sys2Proof.Machine.execReset s
  | .firmwareSignatureVerify ok => Sys2Proof.Machine.execFirmwareSignatureVerify ok s
  | .selfCalibration ok => Sys2Proof.Machine.execSelfCalibration ok s
  | .memoryInitialisation ok => Sys2Proof.Machine.execMemoryInitialisation ok s
  | .hbmZeroing ok => Sys2Proof.Machine.execHbmZeroing ok s
  | .schedulerClear => Sys2Proof.Machine.execSchedulerClear s
  | .lpRegionZeroed => Sys2Proof.Machine.execLpRegionZeroed s
  | .lpTierZeroingComplete => Sys2Proof.Machine.execLpTierZeroingComplete s
  | .fatalError code => Sys2Proof.Machine.execFatalError code s
  | .dump => Sys2Proof.Machine.execDump s
  | .pnowApproachingCap pnow => Sys2Proof.Machine.execPnowApproachingCap pnow s
  | .thermalStall core => Sys2Proof.Machine.execThermalStall core s

end Sys2Proof.Machine
end

