-- ==== Sys2Proof/Machine/Step.lean ====
section
/-!
DEFINITION. The step of the device: which operation, event or bundle acts next, and that it acts (12 R263;
log 1); and the state in which a given instruction is the next to issue (log 7).
-/
namespace Sys2Proof.Machine

/-- What an event does: the meaning of its row. -/
def runEvent (e : Event) (s : State) : Out :=
  match e with
  | .bundleIssue => execBundleIssue s
  | .runOverrun => execRunOverrun s
  | .molcExpiry => execMolcExpiry s
  | .resultLanding => execResultLanding s
  | .remoteCompletion c => execRemoteCompletion c s
  | .dispatch core => execDispatch core s
  | .gangDispatch recPa => execGangDispatch recPa s
  | .suspendedWaitSatisfied recPa => execSuspendedWaitSatisfied recPa s
  | .gangSyncRelease core => execGangSyncRelease core s
  | .exitDrainComplete core => execExitDrainComplete core s
  | .retirementDecrement recPa => execRetirementDecrement recPa s
  | .spawnRecordWrite p => execSpawnRecordWrite p s
  | .tokenedOperationComplete c => execTokenedOperationComplete c s
  | .entryRipens r => execEntryRipens r s
  | .memoryPortAccess a => execMemoryPortAccess a s
  | .pageWalk tenant tier va => execPageWalk tenant tier va s
  | .pageZeroing tenant tier va => execPageZeroing tenant tier va s
  | .atomicPerform a => execAtomicPerform a s
  | .batchPerform a => execBatchPerform a s
  | .streamElementFetch core q => execStreamElementFetch core q s
  | .selfRefreshEnter stack => execSelfRefreshEnter stack s
  | .selfRefreshExit stack => execSelfRefreshExit stack s
  | .rowBackOff stack => execRowBackOff stack s
  | .peerAccess p => execPeerAccess p s
  | .peerResponse p => execPeerResponse p s
  | .retryLimit p => execRetryLimit p s
  | .copyPerform eng => execCopyPerform eng s
  | .reduceCopyPerform eng => execReduceCopyPerform eng s
  | .publishPerform eng => execPublishPerform eng s
  | .triggerMet eng => execTriggerMet eng s
  | .sourceFree eng => execSourceFree eng s
  | .delivered eng => execDelivered eng s
  | .collectiveRun eng => execCollectiveRun eng s
  | .collectiveStep p => execCollectiveStep p s
  | .commit m => execCommit m s
  | .abortRequest m => execAbortRequest m s
  | .abortDecision m => execAbortDecision m s
  | .mismatchNotice m => execMismatchNotice m s
  | .announcement m => execAnnouncement m s
  | .hopArrival m => execHopArrival m s
  | .acknowledgement m => execAcknowledgement m s
  | .contributionApply core => execContributionApply core s
  | .chainClose core => execChainClose core s
  | .linkSnapshot core => execLinkSnapshot core s
  | .startingValueLoad core => execStartingValueLoad core s
  | .startingValueZero core => execStartingValueZero core s
  | .arbiterRequest r => execArbiterRequest r s
  | .chainFreezeMessage m => execChainFreezeMessage m s
  | .chainCancelMessage m => execChainCancelMessage m s
  | .routerTakesContribution c => execRouterTakesContribution c s
  | .reductionPacket p => execReductionPacket p s
  | .treeTimeout tid node round => execTreeTimeout tid node round s
  | .roundResultReceive r => execRoundResultReceive r s
  | .checkValueFailure w => execCheckValueFailure w s
  | .cancelStop core => execCancelStop core s
  | .submit => execSubmit s
  | .cancel => execCancel s
  | .responseWrite => execResponseWrite s
  | .sqsize v => execSqsize v s
  | .hostRegisterWrite off v => execHostRegisterWrite off v s
  | .prq v => execPrq v s
  | .resume v => execResume v s
  | .lcancel v => execLcancel v s
  | .attreq v => execAttreq v s
  | .onlimirWrite addr data => execOnlimirWrite addr data s
  | .slotTableFrameStart die => execSlotTableFrameStart die s
  | .coreRetire core => execCoreRetire core s
  | .channelRetireHold stack chan => execChannelRetireHold stack chan s
  | .channelMigration stack chan => execChannelMigration stack chan s
  | .reset => execReset s
  | .firmwareSignatureVerify ok => execFirmwareSignatureVerify ok s
  | .selfCalibration ok => execSelfCalibration ok s
  | .memoryInitialisation ok => execMemoryInitialisation ok s
  | .hbmZeroing ok => execHbmZeroing ok s
  | .schedulerClear => execSchedulerClear s
  | .lpRegionZeroed => execLpRegionZeroed s
  | .lpTierZeroingComplete => execLpTierZeroingComplete s
  | .fatalError code => execFatalError code s
  | .dump => execDump s
  | .pnowApproachingCap pnow => execPnowApproachingCap pnow s
  | .thermalStall core => execThermalStall core s

/-- Something that may act next: an operation or message in flight, by its place in the agenda, the bundle
of the continuation whose captain is on a core, an event of the device, or what the outside does next. -/
inductive Turn where
  | agenda (n : Nat)
  | bundle (core : Nat)
  | event (e : Event)
  | input
deriving DecidableEq, Repr

/-- The next event of the power-up sequence (15 R336); none after a failure. -/
def State.powerUp (s : State) : Option Event :=
  if s.host.failcode ≠ 0 then none else
  match s.host.phase.toNat with
  | 0 => some .reset
  | 1 => some (.firmwareSignatureVerify (Config.phaseOk 1))
  | 2 => some (.selfCalibration (Config.phaseOk 2))
  | 3 => some (.memoryInitialisation (Config.phaseOk 3))
  | 4 => some (.hbmZeroing (Config.phaseOk 4))
  | _ => some .schedulerClear

/-- The cores whose bundle may issue: captains of running continuations that no cancel stops (15 R331). -/
def State.issuers (s : State) : List Nat :=
  ((s.core :: s.parked).filter fun c =>
    decide (c.phase = .running ∧ c.cont.member = 0) && !s.agenda.contains (.cancelStop c.id)).map Core.id

/-- The event of the rings that may act (03 R52). -/
def State.ringEvents (s : State) : List Event :=
  if s.canRespond then [.responseWrite]
  else if s.submission then [if bits (s.sqWord 0) 63 60 = 2 then .cancel else .submit]
  else []

/-- What the outside does next, if anything. -/
def State.inputTurn (s : State) : List Turn := if s.inputs = [] then [] else [.input]

/-- Everything that may act next. After a fatal error only the dump, the zeroing of the LP tier and the outside do
(15 R334, R335, R337). -/
def State.turns (s : State) : List Turn :=
  if s.host.fatal then (if s.dumpDue then [.event .dump] else []) ++ s.lpEvent.toList.map .event ++ s.inputTurn
  else if !s.host.ready then
    (s.powerUp.toList ++ s.lpEvent.toList).map .event ++ s.inputTurn
  else
    (List.range s.agenda.length).map .agenda ++ s.issuers.map .bundle ++
      (s.dispatches ++ s.ringEvents ++ s.lpEvent.toList).map .event ++ s.inputTurn

/-- Which one acts: free where there are several (log 1). -/
def State.turn (s : State) : Option Turn :=
  match s.turns with
  | [] => none
  | [t] => some t
  | ts => ts[Config.choose s.tick % ts.length]?

/-- An input that a fatal device still takes. -/
def Event.afterFatal : Event → Bool
  | .reset | .onlimirWrite .. | .hostRegisterWrite .. => true
  | _ => false

/-- One turn is taken. -/
def State.act (s : State) : Turn → Out
  | .agenda n => match s.agenda[n]? with
    | some e => runEvent e { s with agenda := s.agenda.eraseIdx n }
    | none => .next s
  | .bundle core => (s.focus core).issue exec
  | .event e => runEvent e s
  | .input => match s.inputs with
    | e :: es => if s.host.fatal && !Event.afterFatal e then .next { s with inputs := es }
        else runEvent e { s with inputs := es }
    | [] => .next s

/-- Time passes: one step; the next operation has met no held port. -/
def State.tock (s : State) : State := { s with tick := s.tick + 1, mem := { s.mem with waits := false } }

/-- ONE STEP: one agent acts; with none that can, or where it must wait, only time passes. -/
def step (s : State) : Host.Outcome State Fault Refusal :=
  let s := s.tock
  match s.turn with
  | none => .next s
  | some t => match s.act t with
    | .next t => .next (s.unlessWaits t).endPrq
    | o => o

/-! ### The state whose next step issues a given instruction (log 7) -/

/-- Where the placed code, buffer table, job record and continuation record lie. -/
abbrev placedCode : Nat := 0x200000
abbrev placedTable : Nat := 0x210000
abbrev placedJob : Nat := 0x220000
abbrev placedRec : Nat := 0x230000

/-- The code object of n bytes of placed code: buffer 1, one entry, one yield at 0. -/
def placedObj (n : Nat) : ObjInfo where
  ptr := mkPtr 1 0
  flags := 0
  osize := n
  codeoff := 0
  codelen := n
  molc := 2 ^ 32 - 1
  lat := List.replicate 16 1
  entries := [⟨0, 2 ^ 20, 24, 0xFFFF⟩]
  yields := [⟨0, 2 ^ 20, 0xFFFF⟩]
  lives := []

/-- The job of the placed code, which owns cluster 0. -/
def placedJobOf (n : Nat) : Job :=
  ⟨placedJob, 1, 0, placedTable, 1, 0, 0, 0, 256, 0, [(0, 0, placedObj n)], none, 0⟩

/-- A device that accepts work, with nothing in flight, whose current core runs the placed code alone. -/
def State.placed (s : State) (ws : List SlotWord) : State :=
  let n := 4 * ws.length
  let code := ws.foldr (fun w x => w.toNat + 2 ^ 32 * x) 0
  let entry := 2 ^ 63 + (needR + needX) * 2 ^ 55 + 0x10000 * 2 ^ 64 + (2 ^ 52 + 2 ^ 38) * 2 ^ 128
  let k := { s.core.cont with
    recPtr := 0, recPa := placedRec, job := placedJob, member := 0, gsize := 0, gang := []
    obj := placedObj n, hobj := none, handler := false, run := 2 ^ 20, stretch := 0, openk := 0 }
  { s with
    core := { s.core with
      phase := .running
      cont := k
      sys := { s.core.sys with armed := none }
      pipe := { s.core.pipe.clear with pc := 0, npc := 0 } }
    parked := []
    mem := { s.mem with
      tlb := [⟨0, 0, 0, 0x10000, placedCode⟩]
      cells := Cells.write (Cells.write s.mem.cells placedCode n code) (placedTable + 32) 32 entry
      cc := [], poison := [], btOld := [], ptOld := [], walkRoot := none, leaseRoot := none, icOld := [], refresh := []
      chanHeld := [], waits := false }
    sched := { s.sched with jobs := [placedJobOf n], levels := [], recs := [], responses := [] }
    units := { s.units with chains := [] }
    host := { s.host with
      ready := true, fatal := false, lpz := true, sqtail := s.host.sqhead, failcode := 0, phase := 5 }
    agenda := []
    inputs := [] }

/-- The state with a row's instruction stored where `step` fetches next. -/
def State.withFetchWord (s : State) (_nbits w : Nat) : State := s.placed (tableWords w)

end Sys2Proof.Machine
end

