-- ==== Sys2Proof/Safety.lean ====
section
/-!
DEFINITION. What the claims about this machine say of a run: that it goes on, that its storage keeps the
canonical form, and how a slot ended.
-/
namespace Sys2Proof.Machine

/-- An outcome that is a next state. -/
def Continues (o : Out) : Prop := ∃ t, o = .next t

/-- A safe step: the machine goes on. -/
def State.Safe (s : State) : Prop := Continues (step s)

/-- The storage of a core is in canonical form. -/
def Store.wf (st : Store) : Bool := Cells.wf st.a && Cells.wf st.w && Cells.wf st.k

/-- Every byte store of the device is in canonical form: memory, and the storage of each core. -/
def State.wf (s : State) : Bool :=
  Memory.wf s.mem && s.core.store.wf && s.parked.all fun c => c.store.wf

/-- A slot may act: its guard holds and its registers may be used (04 R81; 05 R100, R111; 14 R305). -/
def State.may (s : State) (hd : Hdr) (u : Uses) : Bool := s.pOn hd && (s.blocked u).isNone

end Sys2Proof.Machine
end

