-- ==== Sys2Proof/Certificates/Slice0/Obligations.lean ====
section
/-!
DEFINITION. The statements for the provers: decoding, the step, every family of slots, every event, taking a
trap and returning from it, reset, frames, and what every step keeps. Each statement about a slot says, for
every state and operands that meet its hypotheses, the next state that the slot's own effect gives.
-/
open Sys2Proof Sys2Proof.Machine

namespace Sys2Proof.Claims

/-! ### Vocabulary -/

/-- A slot or event answers a given next state. -/
abbrev Gives (i : Instr) (s t : State) : Prop := exec i s = .next t

/-- The registers of a P-guarded or M-guarded slot may be used: none bears a strict mark or a failing check
value, and every stream register that is read holds its head (05 R100, R111; 14 R305). -/
abbrev Free (s : State) (u : Uses) : Prop := s.blocked u = none

/-- A P-guarded slot takes effect: its guard is true and its registers may be used. -/
abbrev Acts (s : State) (hd : Hdr) (u : Uses) : Prop := s.pOn hd = true ∧ Free s u

/-- Two states that differ at most in what the slots of the bundle in turn have issued: fixed-latency
results not yet landed and effects that hold after the bundle. -/
def OnlyIssued (s t : State) : Prop :=
  t = s.setPipe { s.core.pipe with fresh := t.core.pipe.fresh, later := t.core.pipe.later }

/-- A slot with three 6-bit operand fields. -/
abbrev Three := Hdr → BitVec 6 → BitVec 6 → BitVec 6 → Instr
/-- A slot with two 6-bit operand fields. -/
abbrev Two := Hdr → BitVec 6 → BitVec 6 → Instr

/-! ### The scalar slots as the manual tables them (06 R128 to R134) -/

/-- Slots s[d] := f(s[a], s[b]) with their latency class (01 R14: 0 SALU, 1 SMUL). -/
def scalarTwo : List (Three × Nat × (Hdr → Word → Word → Word)) := [
  (.add, 0, fun _ x y => BitVec.ofNat 64 (x.toNat + y.toNat)),
  (.sub, 0, fun _ x y => BitVec.ofInt 64 (x.toInt - y.toInt)),
  (.mul, 1, fun _ x y => BitVec.ofNat 64 (x.toNat * y.toNat)),
  (.mulh, 1, fun _ x y => BitVec.ofInt 64 (x.toInt * y.toInt / 2 ^ 64)),
  (.mulhu, 1, fun _ x y => BitVec.ofNat 64 (x.toNat * y.toNat / 2 ^ 64)),
  (.and_, 0, fun _ x y => x &&& y),
  (.or_, 0, fun _ x y => x ||| y),
  (.xor_, 0, fun _ x y => x ^^^ y),
  (.shl, 0, fun _ x y => BitVec.ofNat 64 (x.toNat * 2 ^ (y.toNat % 64))),
  (.shr, 0, fun _ x y => BitVec.ofNat 64 (x.toNat / 2 ^ (y.toNat % 64))),
  (.sra, 0, fun _ x y => BitVec.ofInt 64 (x.toInt / 2 ^ (y.toNat % 64))),
  (.min, 0, fun _ x y => BitVec.ofInt 64 (min x.toInt y.toInt)),
  (.max, 0, fun _ x y => BitVec.ofInt 64 (max x.toInt y.toInt)),
  (.minu, 0, fun _ x y => BitVec.ofNat 64 (min x.toNat y.toNat)),
  (.maxu, 0, fun _ x y => BitVec.ofNat 64 (max x.toNat y.toNat)),
  (.adds, 0, fun _ x y => BitVec.ofInt 64 (max (-(2 ^ 63)) (min (x.toInt + y.toInt) (2 ^ 63 - 1)))),
  (.subs, 0, fun _ x y => BitVec.ofInt 64 (max (-(2 ^ 63)) (min (x.toInt - y.toInt) (2 ^ 63 - 1)))),
  (.bptr, 0, fun _ x y => BitVec.ofNat 64 (x.toNat % 2 ^ 16 * 2 ^ 48 + y.toNat % 2 ^ 48))]

/-- Slots s[d] := f(s[a]) with their latency class, the third field an immediate where there is one. -/
def scalarOne : List (Three × Nat × (Hdr → BitVec 6 → Word → Word)) := [
  (.addi, 0, fun hd i x => BitVec.ofInt 64 (x.toInt + (hd.sImm i).toInt)),
  (.andi, 0, fun hd i x => x &&& hd.sImm i),
  (.ori, 0, fun hd i x => x ||| hd.sImm i),
  (.xori, 0, fun hd i x => x ^^^ hd.sImm i),
  (.shli, 0, fun _ i x => BitVec.ofNat 64 (x.toNat * 2 ^ i.toNat)),
  (.shri, 0, fun _ i x => BitVec.ofNat 64 (x.toNat / 2 ^ i.toNat)),
  (.srai, 0, fun _ i x => BitVec.ofInt 64 (x.toInt / 2 ^ i.toNat)),
  (fun hd d a _ => .clz hd d a, 0, fun _ _ x => BitVec.ofNat 64 (if x = 0 then 64 else 63 - Nat.log2 x.toNat)),
  (fun hd d a _ => .popc hd d a, 0, fun _ _ x =>
    BitVec.ofNat 64 ((List.range 64).filter fun n => x.getLsbD n).length)]

/-- The condition codes of CMP and CMPI (06 R135). -/
def conditions : List (BitVec 4 × (Word → Word → Bool)) := [
  (0, fun x y => decide (x.toNat = y.toNat)), (1, fun x y => decide (x.toInt < y.toInt)),
  (2, fun x y => decide (x.toNat < y.toNat)), (3, fun x y => decide (x.toInt ≤ y.toInt)),
  (4, fun x y => decide (x.toNat ≤ y.toNat)), (5, fun x y => decide (x.toNat &&& y.toNat ≠ 0))]

/-- The divisions of 06 R130, on the values of a and b. -/
def divisions : List (Three × (Int → Int → Nat → Nat → Word)) := [
  (.div, fun a b _ _ => if b = 0 then BitVec.ofInt 64 (-1) else
    if a = -(2 ^ 63) ∧ b = -1 then BitVec.ofInt 64 (-(2 ^ 63)) else BitVec.ofInt 64 (Int.tdiv a b)),
  (.divu, fun _ _ a b => if b = 0 then BitVec.ofNat 64 (2 ^ 64 - 1) else BitVec.ofNat 64 (a / b)),
  (.rem, fun a b _ _ => if b = 0 then BitVec.ofInt 64 a else
    if a = -(2 ^ 63) ∧ b = -1 then 0 else BitVec.ofInt 64 (a - b * Int.tdiv a b)),
  (.remu, fun _ _ a b => if b = 0 then BitVec.ofNat 64 a else BitVec.ofNat 64 (a - b * (a / b)))]

/-- The atomics by their operation (13 R293). -/
def atomics : List (Three × AtomOp) := [
  (.aadd, .add), (.aand, .and), (.aor, .or), (.axor, .xor), (.amin, .min), (.amax, .max), (.aminu, .minu),
  (.amaxu, .maxu), (.aswp, .swp), (.acas, .cas), (.aaddf, .addf), (.amaxf, .maxf), (.aminf, .minf)]

/-! ### Scalar floating point as the manual tables it (06 R138 to R142) -/

/-- Two-source operations rounded once: the format and the exact operation (06 R138). The sign of -0 less -0
is free, since 02 R37 states none (log 47). -/
def floatTwo : List (Three × FFmt × (FVal → FVal → FVal × Flags)) := [
  (.faddF32, F32, fun x y => FVal.sum [x, y]), (.faddF64, F64, fun x y => FVal.sum [x, y]),
  (.fsubF32, F32, FVal.diff), (.fsubF64, F64, FVal.diff),
  (.fmulF32, F32, FVal.mul), (.fmulF64, F64, FVal.mul)]

/-- Minimum and maximum: the format and whether the larger is returned (06 R139). -/
def floatPick : List (Three × FFmt × Bool) := [
  (.fminF32, F32, false), (.fminF64, F64, false), (.fmaxF32, F32, true), (.fmaxF64, F64, true)]

/-- What FMIN and FMAX return of two operands (06 R139). -/
def picked (t : FFmt) (larger : Bool) (a b : Nat) : Nat :=
  let x := t.decode a
  let y := t.decode b
  if x.isNan ∧ y.isNan then t.nan
  else if x.isNan then b % 2 ^ t.w
  else if y.isNan then a % 2 ^ t.w
  else if larger then (if y.before x then a % 2 ^ t.w else b % 2 ^ t.w)
  else if x.before y then a % 2 ^ t.w else b % 2 ^ t.w

/-- The two parts of a result of a scalar floating-point slot: its value, zero-extended, and its flags. -/
abbrev floatResult (s : State) (t : FFmt) (d : BitVec 6) (r : Nat × Flags) : State :=
  s.results (fpClass t) [.s (s.sDst d) (BitVec.ofNat 64 r.1), .fpst r.2]

/-- The value of an exact finite value; 0 for the others. -/
def value : FVal → Rat
  | .fin neg m e =>
    let x : Rat := if 0 ≤ e then (m : Rat) * 2 ^ e.toNat else (m : Rat) / 2 ^ (-e).toNat
    if neg then -x else x
  | _ => 0

/-- The distance of two rationals. -/
def gap (x y : Rat) : Rat := if x ≤ y then y - x else x - y

end Sys2Proof.Claims

open Sys2Proof.Claims

/-! ### Scalar slots -/

/-- 06 R128, R132: each two-source scalar slot issues the result that its row states, due its class's
latency later. -/
def Sys2Proof.Claims.TwoSourceScalarSlotsIssueTheirTableResult : Prop :=
  ∀ r ∈ scalarTwo, ∀ (s : State) (hd : Hdr) (d a b : BitVec 6), Acts s hd { s := [a, b], ds := [d] } →
    Gives (r.1 hd d a b) s (s.sResult r.2.1 d (r.2.2 hd (s.s! a) (s.s! b)))

/-- 06 R128, R129: each one-source scalar slot issues the result that its row states, the third field an
immediate where it has one; MOVI issues its immediate. -/
def Sys2Proof.Claims.OneSourceScalarSlotsIssueTheirTableResult : Prop :=
  (∀ r ∈ scalarOne, ∀ (s : State) (hd : Hdr) (d a i : BitVec 6), Acts s hd { s := [a], ds := [d] } →
    Gives (r.1 hd d a i) s (s.sResult r.2.1 d (r.2.2 hd i (s.s! a)))) ∧
  ∀ (s : State) (hd : Hdr) (d : BitVec 6) (i : BitVec 12), Acts s hd { ds := [d] } →
    Gives (.movi hd d i) s (s.sResult 0 d (hd.sImm i))

/-- 06 R128, R129, R132: each scalar slot of the two tables issues the result that its row states. -/
def Obligations.ScalarSlotsIssueTheirTableResult : Prop :=
  Claims.TwoSourceScalarSlotsIssueTheirTableResult ∧ Claims.OneSourceScalarSlotsIssueTheirTableResult

/-- 06 R134: with f the field of width bits from bit lo on, BFX writes f sign-extended, BFXU f
zero-extended, and BFI the second source with the field replaced by the low bits of the first. -/
def Sys2Proof.Claims.BitFieldSlotsExtractAndInsertTheField : Prop :=
  ∀ (s : State) (hd : Hdr) (d a b : BitVec 6) (lo width : Nat), Hdr.lo hd = lo → Hdr.width hd = width →
    1 ≤ width → lo + width ≤ 64 →
    (Acts s hd { s := [a], ds := [d] } → ∃ v w : Word,
      Gives (.bfx hd d a) s (s.sResult 0 d v) ∧ Gives (.bfxu hd d a) s (s.sResult 0 d w) ∧
      ∀ n < 64, v.getLsbD n = (s.s! a).getLsbD (if n < width then lo + n else lo + width - 1) ∧
        w.getLsbD n = (decide (n < width) && (s.s! a).getLsbD (lo + n))) ∧
    (Acts s hd { s := [a, b], ds := [d] } → ∃ v : Word, Gives (.bfi hd d a b) s (s.sResult 0 d v) ∧
      ∀ n < 64, v.getLsbD n =
        if lo ≤ n ∧ n < lo + width then (s.s! a).getLsbD (n - lo) else (s.s! b).getLsbD n)

/-- 06 R130: a division issues a posting to the token of its IMM slot with its destination, and delivers
there the result that its row states for every operand pair; s0 is no destination. -/
def Obligations.DivisionsPostTheirResultForEveryOperandPair : Prop :=
  ∀ r ∈ divisions, ∀ (s : State) (hd : Hdr) (d a b : BitVec 6) (t : Nat), t = hd.c % 32 →
    s.postRoom t = true → Acts s hd { s := [a, b], ds := [d] } →
    Gives (r.1 hd d a b) s (
      let p := s.newPost (s.core.tIx t) (if d = 0 then [] else [⟨0, s.sDst d⟩])
      let v := r.2 (s.s! a).toInt (s.s! b).toInt (s.s! a).toNat (s.s! b).toNat
      p.1.deliver ⟨s.core.id, s.core.cont.recPa, some p.2, [.s (s.sDst d) v], none⟩)

/-- 06 R131 to R133: SEL takes effect whatever its guard and selects by that predicate; BPADD moves a
pointer's offset modulo 2^48 and keeps its index; BPCHK tells whether an access would pass the checks of
01 R31. -/
def Sys2Proof.Claims.SelectionAndPointerSlotsIssueTheirResult : Prop :=
  (∀ (s : State) (hd : Hdr) (d a b : BitVec 6), Free s { s := [a, b], ds := [d] } →
    Gives (.sel hd d a b) s (s.sResult 0 d (if s.p! hd.g = true then s.s! a else s.s! b))) ∧
  (∀ (s : State) (hd : Hdr) (d a b : BitVec 6) (y : Word),
    (hd.x = [] → Acts s hd { s := [a, b], ds := [d] } ∧ y = s.s! b) →
    (hd.x ≠ [] → Acts s hd { s := [a], ds := [d] } ∧ y = hd.sImm b) →
    Gives (.bpadd hd d a b) s (s.sResult 0 d (BitVec.ofNat 64
      ((s.s! a).toNat / 2 ^ 48 * 2 ^ 48 + ((s.s! a).toNat + y.toNat) % 2 ^ 48)))) ∧
  (∀ (s : State) (hd : Hdr) (p x : BitVec 2) (a b : BitVec 6) (j : Job) (size : Nat),
    s.job? s.core.cont.job = some j →
    (hd.x = [] → Acts s hd { s := [a, b] } ∧ size = (s.s! b).toNat) →
    (hd.x ≠ [] → Acts s hd { s := [a] } ∧ size = (hd.uImm b).toNat) →
    Gives (.bpchk hd p x a b) s (s.pair 0 p
      (s.check j s.osize (([needR, needW, needRWA, needX])[x.toNat]?.getD 0) true
        ((s.s! a).toNat / 2 ^ 48) ((s.s! a).toNat % 2 ^ 48) size).isOk))

/-- 06 R131 to R134: the bit-field slots, SEL and the pointer slots issue the result that the manual states. -/
def Obligations.BitFieldSelectionAndPointerSlotsIssueTheirResult : Prop :=
  Claims.BitFieldSlotsExtractAndInsertTheField ∧ Claims.SelectionAndPointerSlotsIssueTheirResult

/-- 06 R135 to R137: CMP and CMPI write a condition and its complement to a pair; PLOG looks its two
predicates up in its table; PMOV reads the eight predicates as a byte and writes p2 to p7 from one. -/
def Obligations.PredicateSlotsIssueTheirResult : Prop :=
  (∀ r ∈ conditions, ∀ (s : State) (hd : Hdr) (p : BitVec 2) (a b : BitVec 6),
    (Acts s hd { s := [a, b] } → Gives (.cmp hd p r.1 a b) s (s.pair 0 p (r.2 (s.s! a) (s.s! b)))) ∧
    (Acts s hd { s := [a] } → Gives (.cmpi hd p r.1 a b) s (s.pair 0 p (r.2 (s.s! a) (hd.sImm b))))) ∧
  (∀ (s : State) (hd : Hdr) (d a b : BitVec 3) (f : BitVec 4), Acts s hd {} →
    Gives (.plog hd d a b f) s (s.result 0 (.p (s.core.pIx d.toNat)
      (f.getLsbD (2 * (s.p! a).toNat + (s.p! b).toNat))))) ∧
  (∀ (s : State) (hd : Hdr) (d : BitVec 6), Acts s hd { ds := [d] } → ∃ v : Word,
    Gives (.pmovTos hd d) s (s.sResult 0 d v) ∧
      ∀ n < 64, v.getLsbD n = (decide (n < 8) && s.p! (BitVec.ofNat 3 n))) ∧
  (∀ (s : State) (hd : Hdr) (a : BitVec 6), Acts s hd { s := [a] } →
    Gives (.pmovFroms hd a) s (s.results 0 ((List.range 6).map fun n =>
      .p (s.core.pIx (n + 2)) ((s.s! a).getLsbD (n + 2)))))

/-- 06 R138 to R142: each scalar floating-point slot issues its result, rounded once from the exact value,
and its flags; the upper bits of a narrow result are zero. That 0 times infinity plus a quiet NaN raises NV (log 9)
and the free sign of -0 minus -0 (log 47) are the model's choice. -/
def Obligations.ScalarFloatSlotsIssueTheirResultAndFlags : Prop :=
  (∀ r ∈ floatTwo, ∀ (s : State) (hd : Hdr) (d a b : BitVec 6), Acts s hd { s := [a, b], ds := [d] } →
    Gives (r.1 hd d a b) s (floatResult s r.2.1 d (
      let e := r.2.2 (r.2.1.decode (s.s! a).toNat) (r.2.1.decode (s.s! b).toNat)
      let x := r.2.1.round false e.1
      (x.1, e.2 ||| x.2)))) ∧
  (∀ r ∈ [(Instr.ffmaF32, F32), (Instr.ffmaF64, F64)], ∀ (s : State) (hd : Hdr) (d a b : BitVec 6),
    Acts s hd { s := [a, b, d], ds := [d] } →
    Gives (r.1 hd d a b) s (floatResult s r.2 d (
      let p := (r.2.decode (s.s! a).toNat).mul (r.2.decode (s.s! b).toNat)
      let e := FVal.sum [p.1, r.2.decode (s.s! d).toNat]
      let x := r.2.round false e.1
      (x.1, (p.2 ||| e.2) ||| x.2)))) ∧
  (∀ r ∈ floatPick, ∀ (s : State) (hd : Hdr) (d a b : BitVec 6), Acts s hd { s := [a, b], ds := [d] } →
    Gives (r.1 hd d a b) s (floatResult s r.2.1 d
      (picked r.2.1 r.2.2 (s.s! a).toNat (s.s! b).toNat,
        if (r.2.1.decode (s.s! a).toNat).isSnan ∨ (r.2.1.decode (s.s! b).toNat).isSnan then fNV else 0))) ∧
  (∀ (s : State) (hd : Hdr) (p : BitVec 2) (c : BitVec 3) (f : BitVec 1) (a b : BitVec 6),
    Acts s hd { s := [a, b] } →
    Gives (.fcmp hd p c f a b) s (
      let r := (if f = 0 then F32 else F64).compare c.toNat (s.s! a).toNat (s.s! b).toNat
      (s.pair 4 p r.1).result 4 (.fpst r.2))) ∧
  (∀ (s : State) (hd : Hdr) (d a : BitVec 6), Acts s hd { s := [a], ds := [d] } →
    Gives (.fcvt hd d a) s (
      let src := bits hd.c 3 0
      let dst := bits hd.c 7 4
      let signed := 6 ≤ dst ∧ dst ≤ 8 ∧ bits hd.c 9 9 = 0
      let r := convert src dst (bits hd.c 8 8 = 1) (bits hd.c 9 9 = 1) (bits hd.c 10 10 = 1) (s.s! a).toNat
      s.results 4 [.s (s.sDst d) (if signed then BitVec.ofInt 64 (sint (intWidth dst) r.1)
        else BitVec.ofNat 64 r.1), .fpst r.2])) ∧
  (∀ (s : State) (hd : Hdr) (d a : BitVec 6) (f : BitVec 1), Acts s hd { s := [a], ds := [d] } →
    ∃ k < 10, Gives (.fcls hd d a f) s (s.sResult 4 d (BitVec.ofNat 64 (2 ^ k))) ∧
      ∀ v, (if f = 0 then F32 else F64).decode (s.s! a).toNat = v →
        (k = 9 ↔ v = .nan false) ∧ (k = 8 ↔ v = .nan true) ∧ (k = 7 ↔ v = .inf false) ∧ (k = 0 ↔ v = .inf true) ∧
        (k = 3 ↔ v.isZero = true ∧ v.neg = true) ∧ (k = 4 ↔ v.isZero = true ∧ v.neg = false))

/-- 02 R36, R39: rounding a finite value without overflow gives a value of the format than which no other
finite value of the format is nearer, and raises Inexact exactly when it is not the value itself; in
particular every finite value of the format rounds to itself. -/
def Sys2Proof.Claims.RoundingGivesANearestValueOfTheFormat : Prop :=
  ∀ t ∈ [F32, F64, F16, BF16, E4M3, E5M2], ∀ (neg : Bool) (m : Nat) (e : Int) (x : Nat × Flags),
    t.round false (.fin neg m e) = x → x.2 &&& fOF = 0 →
    (∃ n k q, t.decode x.1 = .fin n k q) ∧
    (x.2 &&& fNX = 0 ↔ value (t.decode x.1) = value (.fin neg m e)) ∧
    ∀ y n k q, t.decode y = .fin n k q →
      gap (value (t.decode x.1)) (value (.fin neg m e)) ≤ gap (value (.fin n k q)) (value (.fin neg m e))

/-- 02 R35, R37: a NaN operand makes the result of a sum, a product and a fused multiply-add in every
format the canonical NaN, and only a signalling one raises Invalid in a sum. -/
def Sys2Proof.Claims.NanOperandsGiveTheCanonicalNan : Prop :=
  ∀ t ∈ [F32, F64, F16, BF16, E4M3, E5M2], ∀ (fz : Bool) (a b c : Nat),
    (t.decode a).isNan = true ∨ (t.decode b).isNan = true →
    (t.add fz a b).1 = t.nan ∧ (t.mul fz a b).1 = t.nan ∧ (t.fma fz a b c).1 = t.nan ∧
    (t.fma fz c a b).1 = t.nan ∧
    (t.add fz a b).2 = if (t.decode a).isSnan ∨ (t.decode b).isSnan then fNV else 0

/-- 02 R35 to R39: rounding gives a nearest value of the format, and NaN operands the canonical NaN. -/
def Obligations.RoundingIsNearestAndNansAreCanonical : Prop :=
  Claims.RoundingGivesANearestValueOfTheFormat ∧ Claims.NanOperandsGiveTheCanonicalNan

/-! ### Vector slots -/

namespace Sys2Proof.Claims

/-- Integer slots on 64 elements of 32 bits, each read as a natural number (07 R146; classes 5 VALU, 6
VMUL). -/
def vectorInt : List (Three × Nat × (Nat → Nat → Nat)) := [
  (.vaddI32, 5, fun x y => x + y),
  (.vsubI32, 5, fun x y => x + 2 ^ 32 - y),
  (.vmulI32, 6, fun x y => x * y),
  (.vminI32, 5, fun x y => if sint 32 x < sint 32 y then x else y),
  (.vmaxI32, 5, fun x y => if sint 32 x < sint 32 y then y else x),
  (.vminu, 5, fun x y => min x y),
  (.vmaxu, 5, fun x y => max x y),
  (.vand, 5, fun x y => x &&& y),
  (.vor, 5, fun x y => x ||| y),
  (.vxor, 5, fun x y => x ^^^ y),
  (.vaddsI32, 5, fun x y => wrapInt 32 (max (-(2 ^ 31)) (min (sint 32 x + sint 32 y) (2 ^ 31 - 1))))]

/-- The vector shifts of an element by an amount (07 R146). -/
def vectorShift : List (Three × (Nat → Nat → Nat)) := [
  (.vshl, fun x n => x * 2 ^ n), (.vshr, fun x n => x / 2 ^ n),
  (.vsra, fun x n => wrapInt 32 (sint 32 x / 2 ^ n))]

/-- Elementwise floating-point slots: format and exact operation, b negated under NB (07 R145, R146). -/
def vectorFloat : List (Three × FFmt × (FVal → FVal → FVal × Flags)) := [
  (.vaddF32, F32, fun x y => FVal.sum [x, y]), (.vsubF32, F32, FVal.diff),
  (.vmulF32, F32, FVal.mul), (.vaddF64, F64, fun x y => FVal.sum [x, y]),
  (.vsubF64, F64, FVal.diff), (.vmulF64, F64, FVal.mul),
  (.vaddBf16, BF16, fun x y => FVal.sum [x, y]), (.vmulBf16, BF16, FVal.mul),
  (.vaddF16, F16, fun x y => FVal.sum [x, y]), (.vmulF16, F16, FVal.mul)]

/-- Fused multiply-adds (07 R146). -/
def vectorFma : List (Three × FFmt) :=
  [(.vfmaF32, F32), (.vfmaF64, F64), (.vfmaBf16, BF16), (.vfmaF16, F16)]

/-- Minimum and maximum (07 R147). -/
def vectorPick : List (Three × FFmt × Bool) := [
  (.vminF32, F32, false), (.vmaxF32, F32, true), (.vminF64, F64, false), (.vmaxF64, F64, true)]

/-- Compares: width, and the outcome and flags by condition code (07 R148). -/
def vectorCompare : List ((Hdr → BitVec 2 → BitVec 4 → BitVec 6 → BitVec 6 → Instr) × Nat × Nat ×
    (Nat → Nat → Bool × Flags)) := [
  (.vcmpI32, 32, 0, fun x y => (decide (x = y), 0)), (.vcmpI32, 32, 1, fun x y => (decide (sint 32 x < sint 32 y), 0)),
  (.vcmpI32, 32, 2, fun x y => (decide (sint 32 x ≤ sint 32 y), 0)), (.vcmpI32, 32, 3, fun x y => (decide (x &&& y ≠ 0), 0)),
  (.vcmpu, 32, 0, fun x y => (decide (x = y), 0)), (.vcmpu, 32, 1, fun x y => (decide (x < y), 0)),
  (.vcmpu, 32, 2, fun x y => (decide (x ≤ y), 0)), (.vcmpu, 32, 3, fun x y => (decide (x &&& y ≠ 0), 0)),
  (.vcmpF32, 32, 0, F32.compare 0), (.vcmpF32, 32, 1, F32.compare 1), (.vcmpF32, 32, 2, F32.compare 2),
  (.vcmpF32, 32, 3, F32.compare 3),
  (.vcmpF64, 64, 0, F64.compare 0), (.vcmpF64, 64, 1, F64.compare 1), (.vcmpF64, 64, 2, F64.compare 2),
  (.vcmpF64, 64, 3, F64.compare 3)]

/-- The lanes of VSHUF by OP, of the concatenation of both sources (07 R154). -/
def shuffles : List (Nat × (Nat → Nat → Nat)) := [
  (0, fun _ n => n / 2 + 64 * (n % 2)), (1, fun _ n => 32 + n / 2 + 64 * (n % 2)),
  (2, fun _ n => 2 * n), (3, fun _ n => 2 * n + 1), (4, fun rot n => n + rot)]

/-- Whether a guard mask selects element e of width w: an element narrower than a lane has its lane's bit,
a 64-bit element bit 2e (05 R98). -/
def on (m : BitVec 64) (w e : Nat) : Bool := m.getLsbD (if w = 64 then 2 * e else e * w / 32)

/-- A register result written element by element: the mask selects whole elements, and a selected element
has its value. -/
def Elements (w : Nat) (mask val : VReg) (sel : Nat → Bool) (f : Nat → Nat) : Prop :=
  ∀ e < 2048 / w, elem mask w e = (if sel e = true then 2 ^ w - 1 else 0) ∧
    (sel e = true → elem val w e = f e % 2 ^ w)

/-- Flags that are the union of those of the selected elements. -/
def FlagsOf (fl : Flags) (n : Nat) (sel : Nat → Bool) (f : Nat → Flags) : Prop :=
  ∀ k < 6, fl.getLsbD k = true ↔ ∃ e < n, sel e = true ∧ (f e).getLsbD k = true

/-- A V slot issues an elementwise result with its flags to v[d] and pops the streams among its sources. -/
def IssuesElements (i : Instr) (s : State) (k w : Nat) (d : BitVec 6) (srcs : List (BitVec 6))
    (sel : Nat → Bool) (f : Nat → Nat × Flags) : Prop :=
  ∃ mask val fl, Gives i s ((s.results k [.v d.toNat mask val, .fpst fl]).pops srcs) ∧
    Elements w mask val sel (fun e => (f e).1) ∧ FlagsOf fl (2048 / w) sel fun e => (f e).2

/-- A V slot issues a result without flags to v[d] and pops the streams among its sources. -/
def IssuesLanes (i : Instr) (s : State) (k w : Nat) (d : BitVec 6) (srcs : List (BitVec 6))
    (sel : Nat → Bool) (f : Nat → Nat) : Prop :=
  ∃ mask val, Gives i s ((s.results k [.v d.toNat mask val]).pops srcs) ∧ Elements w mask val sel f

/-- The outcome of node i of a level of the fixed pairwise tree over x, with the flags of every addition
below it (07 R155). -/
def sumNode (t : FFmt) (x : Nat → Nat) : Nat → Nat → Nat × Flags
  | 0, i => (x i, 0)
  | l + 1, i =>
    let a := sumNode t x l (2 * i)
    let b := sumNode t x l (2 * i + 1)
    let r := t.add false a.1 b.1
    (r.1, r.2 ||| (a.2 ||| b.2))

/-- The running sum up to element n, strictly in lane order from -0, with its flags (07 R157). -/
def prefixSum (x : Nat → Nat) : Nat → Nat × Flags
  | 0 => F32.add false (F32.sign true) (x 0)
  | n + 1 =>
    let p := prefixSum x n
    let r := F32.add false p.1 (x (n + 1))
    (r.1, p.2 ||| r.2)

/-- A value is the extreme of the elements that a predicate selects under an order. -/
def Extreme (n : Nat) (p : Nat → Bool) (x : Nat → Nat) (before : Nat → Nat → Bool) (r : Nat) : Prop :=
  (∃ e < n, p e = true ∧ r = x e) ∧ ∀ e < n, p e = true → before (x e) r = false

end Sys2Proof.Claims

/-- 07 R146: the integer slots act on 64 elements of 32 bits, wrapping modulo 2^32 unless their row
saturates; the shifts take the low five bits of each element of b or the amount of an IMM slot. -/
def Sys2Proof.Claims.VectorIntegerSlotsIssueTheirElements : Prop :=
  (∀ r ∈ vectorInt, ∀ (s : State) (hd : Hdr) (d a b : BitVec 6), Free s { v := [a, b], dv := [d] } →
    IssuesElements (r.1 hd d a b) s r.2.1 32 d [a, b] (on (s.mOn hd) 32) fun e =>
      (r.2.2 (elem (s.v! a) 32 e) (elem (s.v! b) 32 e), 0)) ∧
  ∀ r ∈ vectorShift, ∀ (s : State) (hd : Hdr) (d a b : BitVec 6),
    (hd.x = [] → Free s { v := [a, b], dv := [d] } →
      IssuesElements (r.1 hd d a b) s 5 32 d [a, b] (on (s.mOn hd) 32) fun e =>
        (r.2 (elem (s.v! a) 32 e) (elem (s.v! b) 32 e % 32), 0)) ∧
    (hd.x ≠ [] → Free s { v := [a], dv := [d] } →
      IssuesElements (r.1 hd d a b) s 5 32 d [a] (on (s.mOn hd) 32) fun e =>
        (r.2 (elem (s.v! a) 32 e) (hd.c % 32), 0))

/-- 07 R145 to R147: the floating-point slots round each element once in its format, with the flush of FZ,
b negated under NB, and the NaN rule of NP for minimum and maximum; only selected elements raise flags. That 0 times infinity plus a quiet
NaN raises NV (log 9) and the free sign of -0 minus -0 (log 47) are the model's choice. -/
def Obligations.VectorFloatSlotsIssueTheirElements : Prop :=
  (∀ r ∈ vectorFloat, ∀ (s : State) (hd : Hdr) (d a b : BitVec 6), Free s { v := [a, b], dv := [d] } →
    IssuesElements (r.1 hd d a b) s (if r.2.1.w = 64 then 8 else 7) r.2.1.w d [a, b] (on (s.mOn hd) r.2.1.w) fun e =>
      let t := r.2.1
      let fz := decide (bits hd.c 0 0 = 1)
      let y := elem (s.v! b) t.w e
      let x := r.2.2 (t.decodeFlush fz (elem (s.v! a) t.w e))
        (t.decodeFlush fz (if bits hd.c 1 1 = 1 then y ^^^ 2 ^ (t.w - 1) else y))
      let z := t.round fz x.1
      (z.1, x.2 ||| z.2)) ∧
  (∀ r ∈ vectorFma, ∀ (s : State) (hd : Hdr) (d a b : BitVec 6), Free s { v := [a, b, d], dv := [d] } →
    IssuesElements (r.1 hd d a b) s (if r.2.w = 64 then 8 else 7) r.2.w d [a, b, d] (on (s.mOn hd) r.2.w) fun e =>
      let t := r.2
      let y := elem (s.v! b) t.w e
      t.fma (bits hd.c 0 0 = 1) (elem (s.v! a) t.w e) (if bits hd.c 1 1 = 1 then y ^^^ 2 ^ (t.w - 1) else y)
        (elem (s.v! d) t.w e)) ∧
  (∀ r ∈ vectorPick, ∀ (s : State) (hd : Hdr) (d a b : BitVec 6), Free s { v := [a, b], dv := [d] } →
    IssuesElements (r.1 hd d a b) s (if r.2.1.w = 64 then 8 else 7) r.2.1.w d [a, b] (on (s.mOn hd) r.2.1.w) fun e =>
      r.2.1.minmax (bits hd.c 0 0 = 1) (bits hd.c 2 2 = 1) r.2.2 (elem (s.v! a) r.2.1.w e) (elem (s.v! b) r.2.1.w e))

/-- 07 R148, 05 R99: a vector compare writes the outcome of each selected element to the first mask of its
pair and the complement to the second, a 64-bit element to both bits of its lanes. -/
def Sys2Proof.Claims.VectorComparesIssueAMaskPair : Prop :=
  ∀ r ∈ vectorCompare, ∀ (s : State) (hd : Hdr) (p : BitVec 2) (a b : BitVec 6), Free s { v := [a, b] } →
    let w := r.2.1
    let f (e : Nat) : Bool × Flags := r.2.2.2 (elem (s.v! a) w e) (elem (s.v! b) w e)
    ∃ (sel val : BitVec 64) (fl : Flags),
      Gives (r.1 hd p (BitVec.ofNat 4 r.2.2.1) a b) s
        ((s.results 5 [.m (2 * p.toNat) sel val, .m (2 * p.toNat + 1) sel (~~~val), .fpst fl]).pops [a, b]) ∧
      (∀ n < 64, sel.getLsbD n = on (s.mOn hd) w (n * 32 / w) ∧
        (sel.getLsbD n = true → val.getLsbD n = (f (n * 32 / w)).1)) ∧
      FlagsOf fl (2048 / w) (on (s.mOn hd) w) fun e => (f e).2

/-- 07 R149: VCVT converts max(ws, wd)-wide many elements: a narrowing one writes the elements of its PART
and leaves the others, a widening one reads those of its PART. -/
def Sys2Proof.Claims.VectorConversionWritesTheElementsOfItsPart : Prop :=
  ∀ (s : State) (hd : Hdr) (d a : BitVec 6) (src dst part ws wd n : Nat), Free s { v := [a], dv := [d] } →
    src = bits hd.c 3 0 → dst = bits hd.c 7 4 → part = bits hd.c 13 11 → ws = elemWidth src → wd = elemWidth dst →
    src < 9 → dst < 9 → n = 2048 / max ws wd → part < max ws wd / min ws wd →
    IssuesElements (.vcvt hd d a) s (if ws = 64 ∨ wd = 64 then 8 else 7) wd d [a]
      (fun e => on (s.mOn hd) wd e && (!decide (wd < ws) || decide (n * part ≤ e ∧ e < n * part + n))) fun e =>
      convert src dst (bits hd.c 8 8 = 1) (bits hd.c 9 9 = 1) (bits hd.c 10 10 = 1)
        (elem (s.v! a) ws (if wd < ws then e - n * part else if ws < wd then e + part * n else e))

/-- 07 R148, R149: vector compares issue a mask pair, and conversions the elements of their part. -/
def Obligations.VectorComparesAndConversionsIssueTheirElements : Prop :=
  Claims.VectorComparesIssueAMaskPair ∧ Claims.VectorConversionWritesTheElementsOfItsPart

/-- 07 R150 to R154: masks combine by a truth table and move to and from scalars; VSEL selects lanes by
the mask in its guard field; the other slots copy, index, broadcast, permute, extract, insert and shuffle
lanes as their rows state. -/
def Sys2Proof.Claims.VectorMovementSlotsIssueTheirLanes : Prop :=
  (∀ (s : State) (hd : Hdr) (d a b : BitVec 3) (f : BitVec 4), Free s {} → ∃ v : BitVec 64,
    Gives (.vmlog hd d a b f) s (s.results 5 [.m d.toNat (s.mOn hd) v]) ∧
    ∀ n < 64, v.getLsbD n = f.getLsbD (2 * ((s.m! a).getLsbD n).toNat + ((s.m! b).getLsbD n).toNat)) ∧
  (∀ (s : State) (hd : Hdr) (d a : BitVec 6), Acts s hd { ds := [d] } →
    Gives (.vmmovTos hd d a) s (s.sResult 5 d (s.m! (a.setWidth 3)))) ∧
  (∀ (s : State) (hd : Hdr) (d a : BitVec 6), Acts s hd { s := [a] } →
    Gives (.vmmovFroms hd d a) s (s.result 5 (.m d.toNat (BitVec.allOnes 64) (s.s! a)))) ∧
  (∀ (s : State) (hd : Hdr) (d a b : BitVec 6), Free s { v := [a, b], dv := [d] } →
    IssuesLanes (.vsel hd d a b) s 5 32 d [a, b] (fun _ => true) (fun n =>
      if (s.m! hd.g).getLsbD n = true then elem (s.v! a) 32 n else elem (s.v! b) 32 n) ∧
    IssuesLanes (.vperm hd d a b) s 9 32 d [a, b] (on (s.mOn hd) 32) (fun n =>
      elem (s.v! a) 32 (elem (s.v! b) 32 n % 64)) ∧
    ∀ r ∈ shuffles, bits hd.c 3 0 = r.1 →
      IssuesLanes (.vshuf hd d a b) s 9 32 d [a, b] (on (s.mOn hd) 32) fun n =>
        let j := r.2 (bits hd.c 10 5) n
        if j < 64 then elem (s.v! a) 32 j else elem (s.v! b) 32 (j - 64)) ∧
  (∀ (s : State) (hd : Hdr) (d a : BitVec 6), Free s { v := [a], dv := [d] } →
    IssuesLanes (.vmov hd d a) s 5 32 d [a] (on (s.mOn hd) 32) (elem (s.v! a) 32)) ∧
  (∀ (s : State) (hd : Hdr) (d a i : BitVec 6), Free s { s := [a], dv := [d] } →
    IssuesLanes (.vidx hd d a i) s 5 32 d [] (on (s.mOn hd) 32) (fun n =>
      wrapInt 32 ((s.s! a).toNat + n * i.toInt)) ∧
    (∀ b : BitVec 1, IssuesLanes (.vbcst hd d a b) s 9 (if b = 1 then 64 else 32) d []
      (on (s.mOn hd) (if b = 1 then 64 else 32)) fun _ => (s.s! a).toNat) ∧
    ((hd.c % 2 = 1 → i.toNat % 2 = 0) → IssuesLanes (.vins hd d a i) s 9 32 d []
      (fun n => (s.mOn hd).getLsbD i.toNat && (decide (n = i.toNat) || decide (hd.c % 2 = 1 ∧ n = i.toNat + 1)))
      fun n => (s.s! a).toNat / 2 ^ (32 * (n - i.toNat)))) ∧
  (∀ (s : State) (hd : Hdr) (d a i : BitVec 6), Acts s hd { v := [a], ds := [d] } → (hd.c % 2 = 1 → i.toNat % 2 = 0) →
    Gives (.vext hd d a i) s ((s.sResult 9 d (BitVec.ofNat 64 (elem (s.v! a) 32 i.toNat +
      if hd.c % 2 = 1 then 2 ^ 32 * elem (s.v! a) 32 (i.toNat + 1) else 0))).pops [a]))

/-- 07 R146, R150 to R154: the vector integer, mask and lane slots issue the lanes that their rows state. -/
def Obligations.VectorIntegerAndMovementSlotsIssueTheirLanes : Prop :=
  Claims.VectorIntegerSlotsIssueTheirElements ∧ Claims.VectorMovementSlotsIssueTheirLanes

/-- 07 R155 to R157: sums go through the fixed pairwise tree with -0 for an element that is not selected,
exactly for INT32; VRMAX and VRMIN give the extreme of the selected elements, or the value of the table for
none; VSCAN sums strictly in lane order. -/
def Obligations.VectorReductionsIssueTheirResult : Prop :=
  (∀ r ∈ [(Instr.vrsumF32, F32, 6), (Instr.vrsumF64, F64, 5)], ∀ (s : State) (hd : Hdr) (d a : BitVec 6),
    Free s { v := [a], ds := [d] } →
    let t := r.2.1
    let x := sumNode t (fun e => if on (s.mOn hd) t.w e = true then elem (s.v! a) t.w e else t.sign true) r.2.2 0
    Gives (r.1 hd d a) s ((s.results 10 [.s (s.sDst d) (BitVec.ofNat 64 x.1), .fpst x.2]).pops [a])) ∧
  (∀ (s : State) (hd : Hdr) (d a : BitVec 6), Free s { v := [a], ds := [d] } →
    Gives (.vrsumI32 hd d a) s ((s.results 10 [.s (s.sDst d) (BitVec.ofInt 64 ((List.range 64).map fun e =>
      if on (s.mOn hd) 32 e = true then sint 32 (elem (s.v! a) 32 e) else 0).sum), .fpst 0]).pops [a])) ∧
  (∀ (s : State) (hd : Hdr) (d a : BitVec 6) (u n : BitVec 1), Free s { v := [a], ds := [d] } →
    let m := on (s.mOn hd) 32
    let x := elem (s.v! a) 32
    let val (y : Nat) : Int := if u = 1 then (y : Int) else sint 32 y
    ∃ hi lo : Int,
      Gives (.vrmax hd d a 7 u n) s ((s.results 10 [.s (s.sDst d) (BitVec.ofInt 64 hi), .fpst 0]).pops [a]) ∧
      Gives (.vrmin hd d a 7 u n) s ((s.results 10 [.s (s.sDst d) (BitVec.ofInt 64 lo), .fpst 0]).pops [a]) ∧
      ((∀ e < 64, m e = false) → hi = (if u = 1 then 0 else -(2 ^ 31)) ∧ lo = (if u = 1 then 2 ^ 32 - 1 else 2 ^ 31 - 1)) ∧
      ((∃ e < 64, m e = true) → (∃ e < 64, m e = true ∧ hi = val (x e)) ∧ (∃ e < 64, m e = true ∧ lo = val (x e)) ∧
        ∀ e < 64, m e = true → val (x e) ≤ hi ∧ lo ≤ val (x e))) ∧
  (∀ c ∈ [((0 : BitVec 4), F32), (1, F64)], ∀ r ∈ [(Instr.vrmax, true), (Instr.vrmin, false)],
    ∀ (s : State) (hd : Hdr) (d a : BitVec 6) (u n : BitVec 1), Free s { v := [a], ds := [d] } →
    let t := c.2
    let m := on (s.mOn hd) t.w
    let x := elem (s.v! a) t.w
    let nan (e : Nat) : Bool := (t.decode (x e)).isNan
    let k := 2048 / t.w
    ∃ res fl, Gives (r.1 hd d a c.1 u n) s ((s.results 10 [.s (s.sDst d) (BitVec.ofNat 64 res), .fpst fl]).pops [a]) ∧
      (fl = if (∃ e < k, m e = true ∧ (t.decode (x e)).isSnan = true) then fNV else 0) ∧
      ((∀ e < k, m e = false) → res = t.sign r.2 + t.inf) ∧
      ((∃ e < k, m e = true) → (∀ e < k, m e = true → nan e = true) ∨ (n = 1 ∧ ∃ e < k, m e = true ∧ nan e = true) →
        res = t.nan) ∧
      ((∃ e < k, m e = true ∧ nan e = false) → (n = 1 → ∀ e < k, m e = true → nan e = false) →
        Extreme k (fun e => m e && !nan e) x (fun y z =>
          if r.2 = true then (t.decode z).before (t.decode y) else (t.decode y).before (t.decode z)) res)) ∧
  (∀ (s : State) (hd : Hdr) (d a : BitVec 6), Free s { v := [a], dv := [d] } →
    let m := on (s.mOn hd) 32
    let x (e : Nat) : Nat := if m e = true then elem (s.v! a) 32 e else F32.sign true
    ∃ mask val, Gives (.vscanF32 hd d a) s
        ((s.results 10 [.v d.toNat mask val, .fpst (prefixSum x 63).2]).pops [a]) ∧
      Elements 32 mask val m fun e => (prefixSum x e).1)

/-- 07 R158 to R161: the functions give their correctly rounded value of each element; VQNT packs the four
blocks of its lanes and VDQT places the values of four blocks, through a permutation table; VRND gives the
value of key and counter plus lane. -/
def Obligations.VectorFunctionAndBlockSlotsIssueTheirLanes : Prop :=
  (∀ r ∈ [(Instr.vrcp, 0), (Instr.vrsq, 1), (Instr.vexp2, 2), (Instr.vlog2, 3)],
    ∀ (s : State) (hd : Hdr) (d a : BitVec 6), Free s { v := [a], dv := [d] } →
    IssuesElements (r.1 hd d a) s 11 32 d [a] (on (s.mOn hd) 32) fun e => transcend r.2 (elem (s.v! a) 32 e)) ∧
  (∀ (s : State) (hd : Hdr) (d a b : BitVec 6) (p : Nat), Free s { v := [a], s := [b], dv := [d] } →
    p = (if b = 0 then idTable else (s.s! b).toNat) → (s.mOn hd ≠ 0 → tableOk p = true) →
    9 ≤ hd.c → hd.c ≤ 11 →
    (∃ mask val fl, Gives (.vqnt hd d a b) s ((s.results 12 [.v d.toNat mask val, .fpst fl]).pops [a]) ∧
      Elements 32 mask val (on (s.mOn hd) 32) fun n =>
        let k := lbSize hd.c
        -- the bytes of the blocks in order, four to a lane
        (List.range 4).foldr (fun q acc => let i := 4 * n + q
          (if i < 4 * k then (quantise (lbBits hd.c) p ((List.range 16).map fun j =>
            F32.decode (elem (s.v! a) 32 (16 * (i / k) + j)))).1 / 2 ^ (8 * (i % k)) % 256 else 0) + 256 * acc) 0) ∧
    (tableOk p = true → IssuesLanes (.vdqt hd d a b) s 12 32 d [a] (on (s.mOn hd) 32) fun n =>
      let i := ((List.range 16).find? fun i => decide (tableAt p i = n % 16)).getD 0
      (F32.round false (lbElem (lbBits hd.c) ((s.v! a).toNat / 2 ^ (8 * lbSize hd.c * (n / 16)) %
        2 ^ (8 * lbSize hd.c)) i)).1)) ∧
  (∀ (s : State) (hd : Hdr) (d a b : BitVec 6), Free s { s := [a, b], dv := [d] } →
    IssuesLanes (.vrnd hd d a b) s 12 32 d [] (on (s.mOn hd) 32) fun n => rndLane (s.s! a) (s.s! b + BitVec.ofNat 64 n))

/-! ### Every register slot at once -/

namespace Sys2Proof.Claims

/-- The slots that only read and write registers: the header, whether the slot has a P guard, the registers
that it reads and writes (06, 07, 13 R289). -/
def registerSlot : Instr → Option (Hdr × Bool × Uses)
  | .add hd d a b | .sub hd d a b | .mul hd d a b | .mulh hd d a b | .mulhu hd d a b | .and_ hd d a b
  | .or_ hd d a b | .xor_ hd d a b | .shl hd d a b | .shr hd d a b | .sra hd d a b | .min hd d a b
  | .max hd d a b | .minu hd d a b | .maxu hd d a b | .adds hd d a b | .subs hd d a b | .bptr hd d a b
  | .bfi hd d a b | .faddF32 hd d a b | .faddF64 hd d a b | .fsubF32 hd d a b | .fsubF64 hd d a b
  | .fmulF32 hd d a b | .fmulF64 hd d a b | .fminF32 hd d a b | .fminF64 hd d a b | .fmaxF32 hd d a b
  | .fmaxF64 hd d a b => some (hd, true, { s := [a, b], ds := [d] })
  | .ffmaF32 hd d a b | .ffmaF64 hd d a b => some (hd, true, { s := [a, b, d], ds := [d] })
  | .addi hd d a _ | .andi hd d a _ | .ori hd d a _ | .xori hd d a _ | .shli hd d a _ | .shri hd d a _
  | .srai hd d a _ | .clz hd d a | .popc hd d a | .bfx hd d a | .bfxu hd d a | .fcvt hd d a
  | .fcls hd d a _ => some (hd, true, { s := [a], ds := [d] })
  | .bpadd hd d a b => some (hd, true, { s := if hd.x = [] then [a, b] else [a], ds := [d] })
  | .bpchk hd _ _ a b => some (hd, true, { s := if hd.x = [] then [a, b] else [a] })
  | .sel hd d a b => some (hd, false, { s := [a, b], ds := [d] })
  | .movi hd d _ | .pmovTos hd d | .vmmovTos hd d _ => some (hd, true, { ds := [d] })
  | .cmp hd _ _ a b | .fcmp hd _ _ _ a b => some (hd, true, { s := [a, b] })
  | .cmpi hd _ _ a _ | .pmovFroms hd a | .vmmovFroms hd _ a => some (hd, true, { s := [a] })
  | .plog hd _ _ _ _ => some (hd, true, {})
  | .wmovTos hd d a _ => some (hd, true, { w := [a.toNat], ds := [d] })
  | .vaddI32 hd d a b | .vsubI32 hd d a b | .vmulI32 hd d a b | .vminI32 hd d a b | .vmaxI32 hd d a b
  | .vminu hd d a b | .vmaxu hd d a b | .vand hd d a b | .vor hd d a b | .vxor hd d a b | .vaddsI32 hd d a b
  | .vaddF32 hd d a b | .vsubF32 hd d a b | .vmulF32 hd d a b | .vminF32 hd d a b | .vmaxF32 hd d a b
  | .vaddF64 hd d a b | .vsubF64 hd d a b | .vmulF64 hd d a b | .vminF64 hd d a b | .vmaxF64 hd d a b
  | .vaddBf16 hd d a b | .vmulBf16 hd d a b | .vaddF16 hd d a b | .vmulF16 hd d a b | .vsel hd d a b
  | .vperm hd d a b | .vshuf hd d a b => some (hd, false, { v := [a, b], dv := [d] })
  | .vshl hd d a b | .vshr hd d a b | .vsra hd d a b =>
    some (hd, false, { v := if hd.x = [] then [a, b] else [a], dv := [d] })
  | .vfmaF32 hd d a b | .vfmaF64 hd d a b | .vfmaBf16 hd d a b | .vfmaF16 hd d a b =>
    some (hd, false, { v := [a, b, d], dv := [d] })
  | .vcmpI32 hd _ _ a b | .vcmpu hd _ _ a b | .vcmpF32 hd _ _ a b | .vcmpF64 hd _ _ a b =>
    some (hd, false, { v := [a, b] })
  | .vcvt hd d a | .vmov hd d a | .vrcp hd d a | .vrsq hd d a | .vexp2 hd d a | .vlog2 hd d a
  | .vscanF32 hd d a => some (hd, false, { v := [a], dv := [d] })
  | .vmlog hd _ _ _ _ => some (hd, false, {})
  | .vbcst hd d a _ | .vidx hd d a _ | .vins hd d a _ => some (hd, false, { s := [a], dv := [d] })
  | .vext hd d a _ => some (hd, true, { v := [a], ds := [d] })
  | .vrsumF32 hd d a | .vrsumF64 hd d a | .vrsumI32 hd d a | .vrmax hd d a _ _ _ | .vrmin hd d a _ _ _ =>
    some (hd, false, { v := [a], ds := [d] })
  | .vrnd hd d a b => some (hd, false, { s := [a, b], dv := [d] })
  | _ => none

end Sys2Proof.Claims

/-- 04 R84, R89, R90: a register slot whose registers may be used leaves every register, flag, special
register, byte of memory and other part of the device as it was; it only adds results in flight to its own
bundle and pops of streams that hold after the bundle. -/
def Obligations.RegisterSlotsOnlyIssueResults : Prop :=
  ∀ (i : Instr) (hd : Hdr) (g : Bool) (u : Uses) (s t : State), registerSlot i = some (hd, g, u) → Free s u →
    Gives i s t → OnlyIssued s t ∧
      (∃ new : List Landing, t.core.pipe.fresh = s.core.pipe.fresh ++ new ∧ new.length ≤ 6) ∧
      ∀ l ∈ t.core.pipe.later, l ∈ s.core.pipe.later ∨ ∃ q, l = .pop q

/-- 04 R81: a P-guarded register slot whose guard is false has no effect at all; a guarded control slot
neither, the bundle being followed by its successor. -/
def Sys2Proof.Claims.FalseGuardHasNoEffect : Prop :=
  (∀ (i : Instr) (hd : Hdr) (u : Uses) (s : State), registerSlot i = some (hd, true, u) → s.pOn hd = false →
    Gives i s s) ∧
  ∀ (s : State) (hd : Hdr) (h : BitVec 1) (o : BitVec 17) (o' : BitVec 11) (a : BitVec 6) (n : BitVec 16),
    s.pOn hd = false →
    Gives (.br hd h o) s s ∧ Gives (.bri hd a) s s ∧ Gives (.call hd h o) s s ∧ Gives (.calli hd a) s s ∧
    Gives (.ret hd) s s ∧ (a ≠ 0 → Gives (.bdnz hd h a o') s s) ∧ Gives (.exit hd) s s ∧ Gives (.sync hd) s s ∧
    Gives (.swtrap hd n) s s ∧ (n ≠ 0 → Gives (.dly hd n) s s)

/-- The registers that a slot in force reads and writes: under a wholly clear mask a slot writes no vector
register, but for VSEL, whose guard field selects, and VINS writes none where the bit of its lane is clear
(04 R81; 07 R144, R152, R153). -/
def Sys2Proof.Claims.inForce (s : State) (i : Instr) (hd : Hdr) (g : Bool) (u : Uses) : Uses :=
  match i with
  | .vsel .. => u
  | .vins _ _ _ n => if (s.mOn hd).getLsbD n.toNat = true then u else { u with dv := [] }
  | _ => if g = false ∧ s.mOn hd = 0 then { u with dv := [] } else u

/-- 05 R111: a slot that takes effect and reads or writes a register that bears a strict mark traps
UNDERWAIT at issue, with the file and register of a marked one in SR.TVAL, of the first where no slot before it
in its bundle has made a mark; the rule states it for reads and writes alike. That a destination which an
earlier slot of the bundle has marked counts as marked is the model's choice (log 44). -/
def Sys2Proof.Claims.MarkedRegistersTrapUnderwait : Prop :=
  ∀ (i : Instr) (hd : Hdr) (g : Bool) (u : Uses) (s : State) (d : Dst), registerSlot i = some (hd, g, u) →
    (g = true → s.pOn hd = true) →
    let rs := (inForce s i hd g u).reads s.core ++ (inForce s i hd g u).writes s.core
    let tval (d : Dst) : Word := BitVec.ofNat 64 (d.file * 64 +
      if d.file = 0 ∧ 64 ≤ d.reg then d.reg - 8 else d.reg)
    rs.find? (fun d => s.core.regs.marks.any fun k => decide (k.dst = d)) = some d →
    (∃ e ∈ rs, ((∃ k ∈ s.core.regs.marks, k.dst = e) ∨
        (e ∈ (inForce s i hd g u).writes s.core ∧ ∃ k, Later.mark k ∈ s.core.pipe.later ∧ k.dst = e)) ∧
        Gives i s (s.fail .underwait (tval e) 0)) ∧
      ((∀ k, Later.mark k ∉ s.core.pipe.later) → Gives i s (s.fail .underwait (tval d) 0))

/-- A posting of a token issues ready to post, with no fault and no destination: nothing else differs; with no
token nothing differs. -/
def Sys2Proof.Claims.PostsOnce (s t : State) (tok : Option Nat) : Prop :=
  match tok with
  | none => t = s
  | some k => ∃ p : Posting, p.tok = s.core.tIx k ∧ p.ready = true ∧ p.fault = none ∧ p.dst = [] ∧ p.writes = [] ∧
      t = { s with core := { s.core with pipe := { s.core.pipe with posts := s.core.pipe.posts ++ [p] } }
                   nextId := s.nextId + 1 }

/-- 04 R81; 05 R107; 06 R124, R130; 09 R197, R200, R218; 11 R260; 13 R289, R294: a slot whose P guard is false
posts the token it names once, a command's source-free token before its other one, its witness destination
receives the empty witness, and nothing else happens; a vector memory slot whose mask is wholly clear does the
same and pops its stream sources. -/
def Sys2Proof.Claims.FalseGuardsPostTheirTokenOnce : Prop :=
  (∀ (s : State) (hd : Hdr) (d a b : BitVec 6) (k e : BitVec 4) (sz : BitVec 3) (v : BitVec 1),
    s.pOn hd = false →
    (s.room? (Hdr.tok hd) = true → ∃ u, PostsOnce s u (Hdr.tok hd) ∧
      (sz ≠ 7 → Gives (.ld hd d a sz) s u) ∧ Gives (.wchk hd d a) s u ∧ Gives (.abrt hd d a) s u ∧
      Gives (.rpsnd hd d a b) s u ∧ Gives (.rprcv hd d a b) s u ∧ Gives (.mxa hd k a b) s u ∧
      Gives (.mxg hd k a b) s u ∧ Gives (.mxt hd k a b) s u ∧ Gives (.lkrd hd d k a) s u ∧
      Gives (.lkld hd k a) s u ∧ Gives (.lkz hd k) s u ∧ Gives (.arm hd e a b) s u ∧
      let w := u.emptyWit (bits hd.c 9 6)
      Gives (.st hd d a (sz.setWidth 2)) s w ∧ Gives (.cflush hd d a v) s w ∧ (∀ r ∈ atomics, Gives (r.1 hd d a b) s w) ∧
      Gives (.chc hd k a b) s w ∧ Gives (.pub hd e a b) s w ∧ Gives (.coll hd e a) s w ∧
      Gives (.wmrg hd d a b) s (u.emptyWit d.toNat)) ∧
    (let tsf := if teSet hd.c2 = true then some (bits hd.c2 19 15) else none
     s.room? (Hdr.tok hd) = true → s.room? tsf = true → s.roomTwo (Hdr.tok hd) tsf = true →
      ∃ u w, PostsOnce s u tsf ∧ PostsOnce u w (Hdr.tok hd) ∧
        Gives (.cpy hd e a) s (w.emptyWit (bits hd.c 9 6)) ∧ Gives (.cpyr hd e a) s (w.emptyWit (bits hd.c 9 6))) ∧
    (s.postRoom (bits hd.c 4 0) = true → ∃ u, PostsOnce s u (some (bits hd.c 4 0)) ∧
      ∀ r ∈ divisions, Gives (r.1 hd d a b) s u) ∧
    (∀ t : BitVec 5, s.postRoom t.toNat = true → ∃ u, PostsOnce s u (some t.toNat) ∧ Gives (.est hd d e t) s u ∧
      (bits hd.imm 15 0 < s.core.object.entries.length → Gives (.spawn hd a b t) s u)) ∧
    Gives (.wnull hd d) s (s.emptyWit d.toNat) ∧ Gives (.wmov hd d a) s (s.emptyWit d.toNat) ∧
    Gives (.wmovTow hd d a v) s (s.emptyWit d.toNat)) ∧
  ∀ (s : State) (hd : Hdr) (d a b : BitVec 6), s.mOn hd = 0 → s.room? (Hdr.tok hd) = true →
    ∃ u, PostsOnce s u (Hdr.tok hd) ∧ Gives (.vld hd d a) s u ∧ Gives (.vlds hd d a b) s u ∧
      (s.streamsBlocked [b] = none → Gives (.vgth hd d a b) s (u.pops [b])) ∧
      let w := u.emptyWit (bits hd.c 9 6)
      (s.streamsBlocked [d] = none → Gives (.vst hd d a) s (w.pops [d]) ∧ Gives (.vsts hd d a b) s (w.pops [d])) ∧
      (s.streamsBlocked [d, b] = none → Gives (.vsct hd d a b) s (w.pops [d, b]))

/-- 04 R81; 05 R111: a false guard keeps a slot from acting, but for its token's post and its empty witness,
and a marked register traps UNDERWAIT. -/
def Obligations.FalseGuardsAndMarkedRegistersKeepSlotsFromActing : Prop :=
  Claims.FalseGuardHasNoEffect ∧ Claims.MarkedRegistersTrapUnderwait ∧ Claims.FalseGuardsPostTheirTokenOnce

/-! ### Results in flight and their landing -/

/-- 04 R89, R90; 05 R96: a result is due at its slot's issued cycle plus the latency that the object in
force declares for its class; landing it writes the named register's selected bits and nothing else, and a
fixed register discards it. -/
def Sys2Proof.Claims.ResultsLandInTheirDestinationAlone : Prop :=
  (∀ (s : State) (k : Nat) (w : Write), ∃ l : Landing, l.due = s.core.pipe.now + s.core.lat k ∧ l.write = w ∧
    l.bad = none ∧ s.result k w = s.setPipe { s.core.pipe with fresh := s.core.pipe.fresh ++ [l] }) ∧
  (∀ (g : Regs) (r : Nat) (v : Word), g.apply (.s r v) =
    if r = 0 then g else { g with s := g.s.setIfInBounds r v }) ∧
  (∀ (g : Regs) (r : Nat) (mask val : VReg), ∃ x : VReg,
    g.apply (.v r mask val) = { g with v := g.v.setIfInBounds r x } ∧
    ∀ n, x.getLsbD n = if mask.getLsbD n = true then val.getLsbD n else (g.v[r]?.getD 0).getLsbD n) ∧
  (∀ (g : Regs) (n : Nat) (b : Bool), n < 10 → ∃ p, g.apply (.p n b) = { g with p := p } ∧
    ∀ k < 10, p.getLsbD k = if k = n ∧ 2 ≤ n then b else g.p.getLsbD k) ∧
  (∀ (g : Regs) (n : Nat) (mask val : BitVec 64), n ≠ 0 → ∃ x : BitVec 64,
    g.apply (.m n mask val) = { g with m := g.m.setIfInBounds n x } ∧
    ∀ k, x.getLsbD k = if mask.getLsbD k = true then val.getLsbD k else (g.m[n]?.getD 0).getLsbD k) ∧
  (∀ (g : Regs) (n : Nat) (mask val : Witness), n ≠ 0 → ∃ x : Witness,
    g.apply (.w n mask val) = { g with w := g.w.setIfInBounds n x } ∧
    ∀ k, x.getLsbD k = if mask.getLsbD k = true then val.getLsbD k else (g.w[n]?.getD 0).getLsbD k) ∧
  (∀ (g : Regs) (m mv : BitVec 64) (w wv : Witness), g.apply (.m 0 m mv) = g ∧ g.apply (.w 0 w wv) = g) ∧
  ∀ (g : Regs) (f : Flags), g.apply (.fpst f) = { g with fpst := g.fpst ||| f }

/-- 04 R89, 05 R112: a scalar register read while results for it are in flight holds, in each byte, its
old value's byte or that byte of one of those results; with none in flight it holds its value. Which of
them is UNSPECIFIED and free in the model (log 5). -/
def Sys2Proof.Claims.PendingReadsGiveOldOrNewBytes : Prop :=
  ∀ (c : Core) (tick ix : Nat), ix ≠ 0 →
    ((∀ l ∈ c.pipe.land, ∀ v, l.write ≠ .s ix v) → (∀ r ∈ c.pipe.soft, ∀ v, .s ix v ∉ r.writes) →
      c.sVal tick ix = c.regs.s[ix]?.getD 0) ∧
    ∀ b < 8, (c.sVal tick ix).extractLsb' (8 * b) 8 = (c.regs.s[ix]?.getD 0).extractLsb' (8 * b) 8 ∨
      ∃ v : Word, (c.sVal tick ix).extractLsb' (8 * b) 8 = v.extractLsb' (8 * b) 8 ∧
        ((∃ l ∈ c.pipe.land, l.write = .s ix v) ∨ ∃ r ∈ c.pipe.soft, .s ix v ∈ r.writes)

/-- 05 R96: s0 reads 0, p0 reads 1, p1 reads 0, m0 reads all ones, w0 is empty and x0 and y0 have every bit
set, whatever the state. -/
def Sys2Proof.Claims.FixedRegistersReadTheirConstants : Prop :=
  ∀ (c : Core) (tick : Nat), c.sVal tick 0 = 0 ∧ c.pVal tick 0 = true ∧ c.pVal tick 1 = false ∧
    c.mVal tick 0 = BitVec.allOnes 64 ∧ c.wVal tick 0 = 0 ∧ c.xVal 0 = BitVec.allOnes 48 ∧
    c.yVal 0 = BitVec.allOnes 32

/-- 04 R89, R90; 05 R96, R98: results land in their destination alone, reads before then give old or new
bytes, and the fixed registers their constants. -/
def Obligations.ResultsLandAloneAndReadsSeeThem : Prop :=
  Claims.ResultsLandInTheirDestinationAlone ∧ Claims.PendingReadsGiveOldOrNewBytes ∧ Claims.FixedRegistersReadTheirConstants

/-! ### Witness registers, waits, tokens -/

/-- 13 R289, R290: the witness slots empty, copy and merge witness registers and exchange one entry with
a scalar, an entry known to have failed being copied with KIND 11; with a false guard the destination gets
the empty witness; a merge that overflows without a token traps VIEW_CONFLICT. -/
def Obligations.WitnessSlotsIssueTheirWitness : Prop :=
  (∀ (s : State) (hd : Hdr) (d a b : BitVec 6) (e : BitVec 1), s.pOn hd = true →
    (Free s { dw := [d.toNat] } → Gives (.wnull hd d) s (s.result 0 (.w d.toNat (BitVec.allOnes 128) 0))) ∧
    (Free s { w := [a.toNat], dw := [d.toNat] } → Gives (.wmov hd d a) s (s.result 0 (.w d.toNat (BitVec.allOnes 128)
      (mkWit (s.copyEntry (entry (s.w! a) 0)) (s.copyEntry (entry (s.w! a) 1)))))) ∧
    (Free s { s := [a], dw := [d.toNat] } → ∃ mask val : Witness,
      Gives (.wmovTow hd d a e) s (s.result 0 (.w d.toNat mask val)) ∧
      entry mask e.toNat = BitVec.allOnes 64 ∧ entry mask (1 - e.toNat) = 0 ∧
      entry val e.toNat = s.copyEntry (s.s! a)) ∧
    (Free s { w := [a.toNat], ds := [d] } →
      Gives (.wmovTos hd d a e) s (s.sResult 0 d (s.copyEntry (entry (s.w! a) e.toNat)))) ∧
    (Free s { w := [a.toNat, b.toNat], dw := [d.toNat] } → hd.x = [] →
      ∀ es, es = mergeEntries ((entriesOf (s.w! a) ++ entriesOf (s.w! b)).map s.copyEntry) →
      (es.length ≤ 2 → Gives (.wmrg hd d a b) s (s.result 0 (.w d.toNat (BitVec.allOnes 128)
        (mkWit (es.getD 0 0) (es.getD 1 0))))) ∧
      (2 < es.length → Gives (.wmrg hd d a b) s (s.fail .viewConflict 0 0)))) ∧
  ∀ (s : State) (hd : Hdr) (d a b : BitVec 6) (e : BitVec 1), s.pOn hd = false →
    let t := s.result 0 (.w d.toNat (BitVec.allOnes 128) 0)
    Gives (.wnull hd d) s t ∧ Gives (.wmov hd d a) s t ∧ Gives (.wmovTow hd d a e) s t ∧
      (hd.x = [] → Gives (.wmrg hd d a b) s t)

/-- 12 R270: merging entries leaves at most one entry for an agent, in (DEV, AGENT) order, the later of the
entries named with the widest scope, and KIND 11 when either had it. -/
def Obligations.MergedEntriesAreOrderedByAgent : Prop :=
  (∀ es : List Word, (mergeEntries es).Pairwise fun x y =>
    entDev x < entDev y ∨ (entDev x = entDev y ∧ entAgent x < entAgent y)) ∧
  (∀ es : List Word, ∀ e ∈ es, entKind e ≠ 0 → ∃ x ∈ mergeEntries es,
    entDev x = entDev e ∧ entAgent x = entAgent e ∧ entScope e ≤ entScope x ∧ (entKind e = 3 → entKind x = 3)) ∧
  ∀ a b : Word, entDev a = entDev b → entAgent a = entAgent b → entKind a ≠ 0 → entKind b ≠ 0 →
    entSeq (fuse a b) = (if (entSeq b + 2 ^ 35 - entSeq a) % 2 ^ 35 < 2 ^ 34 then entSeq b else entSeq a) ∧
    entScope (fuse a b) = max (entScope a) (entScope b) ∧
    (entKind (fuse a b) = 3 ↔ entKind a = 3 ∨ entKind b = 3)

/-- 05 R109; 06 R125; 14 R306, R311: a wait on a token whose count has reached the threshold, modulo 2^16,
completes: the results it covers are settled and its marks cleared; a fault that it covers traps instead, in
either form, XLATE with the level and pointer of its fault record; a wait that is not satisfied stalls, or
suspends in the suspending forms of a continuation that is not pinned and on no stoker of a gang; in handler
mode those are illegal. That LIC rises with a wait that completes or stalls, to the next multiple of 256 and
with the cycle of its bundle, is the model's choice (log 24). -/
def Sys2Proof.Claims.TokenWaitsCompleteTrapStallOrSuspend : Prop :=
  ∀ (s : State) (hd : Hdr) (t : BitVec 5) (h : BitVec 12) (a : BitVec 6) (thr : BitVec 16) (k : Token),
    k = s.core.regs.tok (s.core.tIx t.toNat) →
    ∀ i i' : Instr,
      (i = .wtk hd t h ∧ i' = .wtks hd t h ∧ Acts s hd {} ∧
          thr = (if hd.x = [] then h.setWidth 16 else BitVec.ofNat 16 hd.c)) ∨
        (i = .wtkRf1 hd t a ∧ i' = .wtksRf1 hd t a ∧ Acts s hd { s := [a] } ∧ thr = (s.s! a).setWidth 16) →
    -- satisfied and no covered fault: it completes
    ((k.count - thr).toNat < 2 ^ 15 → (k.f = true → 2 ^ 15 ≤ (thr - k.fcnt).toNat) →
      Gives i s (({ s with core := s.core.waitDone s.tick (s.core.tIx t.toNat) thr }).raiseLic) ∧
      (s.core.cont.handler = false →
        Gives i' s (({ s with core := s.core.waitDone s.tick (s.core.tIx t.toNat) thr }).raiseLic))) ∧
    -- satisfied with a covered fault: TOKEN_FAULT, or XLATE, with the token and the fault record
    ((k.count - thr).toNat < 2 ^ 15 → k.f = true → (thr - k.fcnt).toNat < 2 ^ 15 → ∀ u,
      u = (if k.xl = true then s.setPipe { s.core.pipe with xl := s.faultXl s.core.cont.job k.frec } else s) →
      Gives i s (u.fail (if k.xl = true then .xlate else .tokenFault) (t.setWidth 64) k.frec) ∧
      (s.core.cont.handler = false →
        Gives i' s (u.fail (if k.xl = true then .xlate else .tokenFault) (t.setWidth 64) k.frec))) ∧
    -- not satisfied: it stalls, or the continuation suspends until its token reaches the threshold
    (2 ^ 15 ≤ (k.count - thr).toNat →
      Gives i s s.raiseLic.stall ∧
      (s.core.cont.handler = false → s.pinned = true ∨ s.core.cont.member ≠ 0 → Gives i' s s.raiseLic.stall) ∧
      (s.core.cont.handler = false → s.pinned = false → s.core.cont.member = 0 →
        Gives i' s (s.suspend (waitWord 1 0 t.toNat thr.toNat)))) ∧
    (s.core.cont.handler = true → Gives i' s s.illegal)

/-- 13 R292: a witness wait completes when every entry of its register is ripe, traps on a poisoned entry
before a future one, and otherwise stalls, WWAIT.S suspending a free continuation that is not pinned, whose
frame then holds the register; in handler mode WWAIT.S is illegal. -/
def Sys2Proof.Claims.WitnessWaitsCompleteTrapStallOrSuspend : Prop :=
  ∀ (s : State) (hd : Hdr) (a : BitVec 6), Acts s hd { w := [a.toNat] } →
    let es := entriesOf (s.w! a)
    let how (e : Word) : EntryState := s.judge (some s.core.id) e
    ((∀ e ∈ es, how e = .ripe) → Gives (.wwait hd a) s s ∧
      (s.core.cont.handler = false → Gives (.wwaitS hd a) s s)) ∧
    (∀ e, es.find? (fun e => decide (how e = .poisoned)) = some e → Gives (.wwait hd a) s (s.fail .witPoison e 0) ∧
      (s.core.cont.handler = false → Gives (.wwaitS hd a) s (s.fail .witPoison e 0))) ∧
    (∀ e, (∀ e ∈ es, how e ≠ .poisoned) → es.find? (fun e => decide (how e = .future)) = some e →
      Gives (.wwait hd a) s (s.fail .witFuture e 0) ∧
      (s.core.cont.handler = false → Gives (.wwaitS hd a) s (s.fail .witFuture e 0))) ∧
    ((∀ e ∈ es, how e ≠ .poisoned ∧ how e ≠ .future) → (∃ e ∈ es, how e = .unripe) →
      Gives (.wwait hd a) s s.stall ∧
      (s.core.cont.handler = false → s.pinned = true ∨ s.core.cont.gsize ≠ 0 → Gives (.wwaitS hd a) s s.stall) ∧
      (s.core.cont.handler = false → s.pinned = false → s.core.cont.gsize = 0 →
        Gives (.wwaitS hd a) s ((s.suspend (waitWord 2 a.toNat 0 0)).saveWit a.toNat))) ∧
    (s.core.cont.handler = true → Gives (.wwaitS hd a) s s.illegal)

/-- 06 R125; 13 R292: the token waits and the witness waits complete, trap, stall or suspend. That LIC rises with a
wait that completes or stalls is the model's choice (log 24). -/
def Obligations.WaitsCompleteTrapStallOrSuspend : Prop :=
  Claims.TokenWaitsCompleteTrapStallOrSuspend ∧ Claims.WitnessWaitsCompleteTrapStallOrSuspend

/-! ### Memory slots -/

namespace Sys2Proof.Claims

/-- A slot has issued a tokened access: it is in flight with its posting, and nothing else of the device
has changed but, for a store, its number and its witness. -/
def Issues (s t : State) (hd : Hdr) (op : AccOp) (whole : Bool) (parts : List Part) (dst : Nat)
    (dsts : List Dst) (seq : Nat) (key : Option BatchKey) : Prop :=
  ∃ a : Access, t.agenda = s.agenda ++ [.memoryPortAccess a] ∧
    a.op = op ∧ a.whole = whole ∧ a.parts = parts ∧ a.got = [] ∧ a.bad = [] ∧ a.sent = false ∧ a.dst = dst ∧
    a.seq = seq ∧ a.key = key ∧ a.scope = bits hd.c 5 4 ∧ a.core = s.core.id ∧ a.recPa = s.core.cont.recPa ∧
    a.job = s.core.cont.job ∧ a.wi = s.wiOf (bits hd.c 13 10) ∧ a.pc = s.core.pipe.pc ∧ a.slot = s.core.pipe.slot ∧
    (teSet hd.c = false → a.post = none ∧ t.core.pipe.posts = s.core.pipe.posts) ∧
    (teSet hd.c = true → ∃ p : Posting, a.post = some p.id ∧ p.tok = s.core.tIx (bits hd.c 19 15) ∧
      p.cover = s.core.nextCover p.tok ∧ p.dst = dsts ∧ p.ready = false ∧
      t.core.pipe.posts = s.core.pipe.posts ++ [p]) ∧
    t.mem = s.mem ∧ t.core.regs = s.core.regs ∧ t.core.sys = s.core.sys ∧ t.core.store = s.core.store ∧
    t.parked = s.parked ∧ t.sched = s.sched ∧ t.host = s.host ∧ t.inputs = s.inputs ∧ t.outbox = s.outbox

/-- A slot has given the witness of the next store of an agent (09 R197). -/
def GivesWitnessOf (s t : State) (hd : Hdr) (agent seq : Nat) : Prop :=
  seq = (s.agentOf s.devnum agent).issued + 1 ∧ (t.agentOf s.devnum agent).issued = seq ∧
  ∃ l : Landing, t.core.pipe.fresh = s.core.pipe.fresh ++ [l] ∧ l.due = s.core.pipe.now + s.core.lat 0 ∧
    l.write = .w (bits hd.c 9 6) (BitVec.allOnes 128)
      (mkWit (mkEntry 1 (bits hd.c 5 4) s.devnum.toNat agent seq) 0)

/-- A slot has given the witness of the next store of its core. -/
def GivesWitness (s t : State) (hd : Hdr) (seq : Nat) : Prop := GivesWitnessOf s t hd s.core.id seq

/-- Two states that differ at most in the stores that the focused core is known to have observed (12 R266,
R271). -/
def OnlySeen (s t : State) : Prop :=
  t = { s with
    core := { s.core with cont := { s.core.cont with wsc := t.core.cont.wsc } }
    units := { s.units with agents := t.units.agents } }

/-- The parts of a vector form: its selected lanes at their offsets from the pointer (09 R200). -/
def laneParts (m : BitVec 64) (base : Word) (off : Nat → Int) (data : Nat → Nat) : List Part :=
  ((List.range 64).filter fun n => m.getLsbD n).map fun n => ⟨n, ptrBy base (off n), 4, data n⟩

/-- Whether a tokened slot can issue now: its token has room for a posting, and for a store its core for
one more store (05 R107; 09 R197). -/
abbrev Room (s : State) (hd : Hdr) (store : Bool) : Prop :=
  s.room? (Hdr.tok hd) = true ∧ (store = true → s.roomFor s.core.id = true)

end Sys2Proof.Claims

/-- 09 R196, R199, R200: a load that names a token goes in flight with its pointer plus OFF, its size or
its selected lanes, its destination and the witnesses of WI and the view, and issues a posting; no register
or byte of memory changes. -/
def Sys2Proof.Claims.TokenedLoadsGoInFlight : Prop :=
  ∀ (s : State) (hd : Hdr) (d a b : BitVec 6), Room s hd false → teSet hd.c = true →
    let p := ptrBy (s.s! a) (sint 20 hd.c2)
    (∀ sz : BitVec 3, sz ≠ 7 → Acts s hd { s := [a], w := [bits hd.c 13 10], ds := [d] } → ∃ t, Gives (.ld hd d a sz) s t ∧
      Issues s t hd (.load sz.toNat) true [⟨0, p, 2 ^ (sz.toNat % 4), 0⟩] (s.sDst d)
        (if d = 0 then [] else [⟨0, s.sDst d⟩]) 0 none) ∧
    (s.mOn hd ≠ 0 →
      (Free s { s := [a], w := [bits hd.c 13 10], dv := [d] } → ∃ t, Gives (.vld hd d a) s t ∧
        Issues s t hd .vload true (laneParts (s.mOn hd) p (fun n => 4 * n) fun _ => 0) d.toNat [⟨1, d.toNat⟩] 0 none) ∧
      (Free s { s := [a, b], w := [bits hd.c 13 10], dv := [d] } → ∃ t, Gives (.vlds hd d a b) s t ∧
        Issues s t hd .vload false (laneParts (s.mOn hd) p (fun n => n * (s.s! b).toInt) fun _ => 0) d.toNat
          [⟨1, d.toNat⟩] 0 none) ∧
      (Free s { s := [a], v := [b], w := [bits hd.c 13 10], dv := [d] } → ∃ t, Gives (.vgth hd d a b) s t ∧
        Issues s t hd .vload false (laneParts (s.mOn hd) p (fun n => 4 * elem (s.v! b) 32 n) fun _ => 0) d.toNat
          [⟨1, d.toNat⟩] 0 none))

/-- 09 R196, R197, R199, R200, R205: a store or a CFLUSH on the tokened path is numbered in its core's
series, gives a witness of its scope in WO, and goes in flight with its pointer plus OFF and the data of
its source; memory changes only at its port. -/
def Sys2Proof.Claims.TokenedStoresAreNumberedAndGoInFlight : Prop :=
  ∀ (s : State) (hd : Hdr) (d a b : BitVec 6), Room s hd true → teSet hd.c = true →
    let p := ptrBy (s.s! a) (sint 20 hd.c2)
    let w : List Nat := [bits hd.c 9 6]
    (∀ sz : BitVec 2, Acts s hd { s := [a, d], w := [bits hd.c 13 10], dw := w } → ∃ t seq, Gives (.st hd d a sz) s t ∧
      Issues s t hd .store true [⟨0, p, 2 ^ sz.toNat, (s.s! d).toNat % 256 ^ 2 ^ sz.toNat⟩] 0 [] seq none ∧
      GivesWitness s t hd seq) ∧
    (∀ v : BitVec 1, Acts s hd { s := [a, d], w := [bits hd.c 13 10], dw := w } → ∃ t seq, Gives (.cflush hd d a v) s t ∧
      Issues s t hd (.flush (bits hd.c 5 4) (v = 1)) true
        [⟨0, p, (s.s! d).toNat, 0⟩] 0 [] seq none ∧
      GivesWitness s t hd seq) ∧
    (s.mOn hd ≠ 0 →
      (Free s { s := [a], v := [d], w := [bits hd.c 13 10], dw := w } → ∃ t seq, Gives (.vst hd d a) s t ∧
        Issues s t hd .store true (laneParts (s.mOn hd) p (fun n => 4 * n) (elem (s.v! d) 32)) 0 [] seq none ∧
        GivesWitness s t hd seq) ∧
      (Free s { s := [a, b], v := [d], w := [bits hd.c 13 10], dw := w } → ∃ t seq, Gives (.vsts hd d a b) s t ∧
        Issues s t hd .store false (laneParts (s.mOn hd) p (fun n => n * (s.s! b).toInt) (elem (s.v! d) 32)) 0 []
          seq none ∧ GivesWitness s t hd seq) ∧
      (Free s { s := [a], v := [d, b], w := [bits hd.c 13 10], dw := w } → ∃ t seq, Gives (.vsct hd d a b) s t ∧
        Issues s t hd .store false (laneParts (s.mOn hd) p (fun n => 4 * elem (s.v! b) 32 n) (elem (s.v! d) 32)) 0 []
          seq none ∧ GivesWitness s t hd seq))

/-- 12 R275, R276; 13 R293, R294: an atomic is numbered as a store of its core, gives its witness, and goes
in flight with its operand, its comparand and its width; in deterministic mode the forms that are batched
carry their order key (launch, interval, unit, member); the interval is that of LIC, which a wait of their
bundle on a token has raised (log 24). -/
def Sys2Proof.Claims.AtomicsAreNumberedAndGoInFlight : Prop :=
  ∀ r ∈ atomics, ∀ (s : State) (hd : Hdr) (d a b : BitVec 6) (n : Nat) (nr : Bool), Room s hd true →
    n = (if bits hd.c 2 2 = 1 then 8 else 4) → nr = decide (bits hd.c 3 3 = 1) →
    Acts s hd { s := if r.2 = .cas then [a, b, d] else [a, b], w := [bits hd.c 13 10],
                ds := if nr = true then [] else [d], dw := [bits hd.c 9 6] } →
    ∃ t seq, Gives (r.1 hd d a b) s t ∧ GivesWitness s t hd seq ∧
      Issues s t hd (.atomic r.2 (bits hd.c 2 2 = 1) nr (bits hd.c 1 1 = 1)
          (BitVec.ofNat 64 ((s.s! d).toNat % 256 ^ n))) true
        [⟨0, ptrBy (s.s! a) (sint 20 hd.c2), n, (s.s! b).toNat % 256 ^ n⟩] (s.sDst d)
        (if nr = true ∨ d = 0 then [] else [⟨0, s.sDst d⟩]) seq
        (if s.core.cont.det = true ∧ (nr = false ∨ r.2 = .addf ∨ r.2 = .swp ∨ r.2 = .cas) then
          some ⟨s.core.cont.launch, s.issueLic / 256, s.core.cont.unit.toNat, s.core.cont.member, 0⟩ else none)

/-- 09 R196 to R201, R205; 13 R293, R294: loads, stores, CFLUSH and atomics that name a token go in flight. -/
def Obligations.TokenedAccessesGoInFlight : Prop :=
  Claims.TokenedLoadsGoInFlight ∧ Claims.TokenedStoresAreNumberedAndGoInFlight ∧ Claims.AtomicsAreNumberedAndGoInFlight

/-- 09 R196, R199, R200; 08 R182; 12 R266: a load on the local path issues the bytes of the core's own storage
as its pointer's view names them, sign- or zero-extended, or lane by lane, due LAT[LDCL] later; the stores that
it has returned are known from then on. -/
def Sys2Proof.Claims.LocalLoadsReadTheCoresStorage : Prop :=
  ∀ (s : State) (hd : Hdr) (d a : BitVec 6) (p : Word), teSet hd.c = false → p = ptrBy (s.s! a) (sint 20 hd.c2) →
    0xFFF0 ≤ ptrIx p → ptrIx p ≤ 0xFFF3 → s.core.store.bad = [] →
    (∀ sz : BitVec 3, sz ≠ 7 → Acts s hd { s := [a], w := [bits hd.c 13 10], ds := [d] } → ∀ n, n = 2 ^ (sz.toNat % 4) →
      s.localBlocked hd needR [⟨0, p, n, 0⟩] = none →
      Gives (.ld hd d a sz) s ((s.noteSeen s.core.id s.core.cont.recPa s.nextId
          (s.whoAt (localRanges s.core.id (ptrIx p) (ptrOff p) n))).sResult 13 d (
        let x := s.core.store.read (ptrIx p) (ptrOff p) n
        if sz.toNat < 3 then BitVec.ofInt 64 (sint (8 * n) x) else BitVec.ofNat 64 x))) ∧
    (s.mOn hd ≠ 0 → Free s { s := [a], w := [bits hd.c 13 10], dv := [d] } → ptrOff p + 256 < 2 ^ 48 →
      s.localBlocked hd needR (laneParts (s.mOn hd) p (fun n => 4 * n) fun _ => 0) = none →
      ∃ u mask val, OnlySeen s u ∧ Gives (.vld hd d a) s (u.results 13 [.v d.toNat mask val]) ∧
        Elements 32 mask val (fun n => (s.mOn hd).getLsbD n) fun n =>
          s.core.store.read (ptrIx p) (ptrOff p + 4 * n) 4)

/-- 09 R196, R197, R199, R200; 08 R182: a store on the local path writes its bytes to the core's own
storage at once at the places that its pointer's view names, is numbered and gives its witness; every other
byte of the storage, all of memory and every register keep their values. -/
def Sys2Proof.Claims.LocalStoresWriteTheirBytesAlone : Prop :=
  ∀ (s : State) (hd : Hdr) (d a : BitVec 6) (p : Word), teSet hd.c = false → p = ptrBy (s.s! a) (sint 20 hd.c2) →
    Room s hd true → Store.wf s.core.store = true →
    let ix := ptrIx p
    let kept (t : State) : Prop := t.mem = { s.mem with who := t.mem.who } ∧ t.core.regs = s.core.regs ∧ t.core.sys = s.core.sys ∧
      t.parked = s.parked ∧ t.sched = s.sched ∧ t.host = s.host ∧ t.core.store.k = s.core.store.k ∧
      (ix % 2 = 0 → t.core.store.w = s.core.store.w) ∧ (ix % 2 = 1 → t.core.store.a = s.core.store.a)
    (∀ (sz : BitVec 2) (n : Nat), n = 2 ^ sz.toNat → Acts s hd { s := [a, d], w := [bits hd.c 13 10], dw := [bits hd.c 9 6] } →
      s.localBlocked hd needW [⟨0, p, n, (s.s! d).toNat % 256 ^ n⟩] = none →
      ∃ t seq, Gives (.st hd d a sz) s t ∧ GivesWitness s t hd seq ∧ kept t ∧
        ∀ x, Cells.get (t.core.store.space ix) x =
          match (List.range n).find? fun i => decide (viewByte ix (ptrOff p + i) = x) with
          | some i => (s.s! d).extractLsb' (8 * i) 8
          | none => Cells.get (s.core.store.space ix) x) ∧
    (s.mOn hd ≠ 0 → Free s { s := [a], v := [d], w := [bits hd.c 13 10], dw := [bits hd.c 9 6] } → ptrOff p + 256 < 2 ^ 48 →
      s.localBlocked hd needW (laneParts (s.mOn hd) p (fun n => 4 * n) (elem (s.v! d) 32)) = none →
      ∃ t seq, Gives (.vst hd d a) s t ∧ GivesWitness s t hd seq ∧ kept t ∧
        ∀ x, Cells.get (t.core.store.space ix) x =
          match (List.range 256).find? fun i =>
              (s.mOn hd).getLsbD (i / 4) && decide (viewByte ix (ptrOff p + i) = x) with
          | some i => (s.v! d).extractLsb' (8 * i) 8
          | none => Cells.get (s.core.store.space ix) x)

/-- 09 R196, R199, R200: the local path reads and writes the core's own storage at once. -/
def Obligations.LocalAccessesTouchTheCoresStorageAlone : Prop :=
  Claims.LocalLoadsReadTheCoresStorage ∧ Claims.LocalStoresWriteTheirBytesAlone

/-- 09 R203, R204, R206, R207: FMT, VJOIN and the stream bindings hold for the bundles after their own; a
view that would need three entries traps VIEW_CONFLICT; PREF changes no register, byte of memory or order. -/
def Obligations.FormatViewStreamAndPrefetchSlots : Prop :=
  (∀ (s : State) (hd : Hdr) (k a b : BitVec 6) (f : BankFmt), k.toNat < 48 → Acts s hd { s := [a, b] } →
    f = ⟨(s.s! a).setWidth 10, if b = 0 then 0xFEDCBA9876543210 else s.s! b⟩ →
    (bits (s.s! a).toNat 3 0 ≤ 11 ∧ bits (s.s! a).toNat 7 4 ≤ 11 ∧
        ((s.s! a).getLsbD 9 = true → tableOk f.ptab.toNat = true) →
      Gives (.fmt hd k a b) s (s.later (.fmt k.toNat f))) ∧
    (11 < bits (s.s! a).toNat 3 0 ∨ 11 < bits (s.s! a).toNat 7 4 → Gives (.fmt hd k a b) s s.illegal)) ∧
  (∀ (s : State) (hd : Hdr) (w : BitVec 4), Acts s hd { w := [w.toNat] } →
    ∀ es, es = mergeEntries ((entriesOf s.core.regs.view ++ entriesOf (s.w! w)).map s.copyEntry) →
    (es.length ≤ 2 → Gives (.vjoin hd w) s (s.later (.view (mkWit (es.getD 0 0) (es.getD 1 0))))) ∧
    (2 < es.length → Gives (.vjoin hd w) s (s.fail .viewConflict 0 0))) ∧
  (∀ (s : State) (hd : Hdr) (q : BitVec 3), Acts s hd {} →
    Gives (.vjoinClr hd) s (s.later (.view 0)) ∧ Gives (.sbindU hd q) s (s.later (.bind q.toNat none))) ∧
  (∀ (s t : State) (hd : Hdr) (q : BitVec 3) (a : BitVec 6) (w : BitVec 4) (x : Nat),
    Acts s hd { s := [a], w := [w.toNat] } → s.observe (some s.core.id) (s.wiOf w.toNat) = .ok →
    s.syncRead needR 32 (s.s! a) 32 0 = .ok t x → bits x 95 64 ≠ 0 → bits x 127 96 ≠ 0 →
    ∃ u, Gives (.sbind hd q a w) s u ∧
      u.core = (t.later (.bind q.toNat (some ⟨(List.range 4).map fun i => BitVec.ofNat 64 (x / 2 ^ (64 * i)), 0,
        s.copyWit (s.w! w), [], none⟩))).core ∧
      .streamElementFetch s.core.id q.toNat ∈ u.agenda ∧ u.mem = t.mem) ∧
  ∀ (s : State) (hd : Hdr) (n a : BitVec 6) (v : BitVec 2), v ≠ 3 → Acts s hd { s := [a] } →
    let p := ptrBy (s.s! a) (sint 20 hd.c)
    ∃ t c, Gives (.pref hd n a v) s t ∧ t.core = s.core ∧ t.mem = s.mem ∧ t.units = s.units ∧ t.sched = s.sched ∧
      t.agenda = s.agenda ++ [.memoryPortAccess c] ∧ c.op = .pref v.toNat ∧ c.post = none ∧ c.seq = 0 ∧
      c.parts.map Part.ptr = (List.range (n.toNat + 1)).map fun i =>
        mkPtr (ptrIx p) (ptrOff p / 64 * 64 + 64 * i)

/-- 05 R106, R110; 09 R202: TKSV writes the exact image of a token with no posting in flight, and TKLD's
image is the token's for the bundles after; either stalls while an earlier posting is in flight; an image
read back is the token itself. -/
def Sys2Proof.Claims.SavedTokensReadBackExactly : Prop :=
  (∀ (s : State) (hd : Hdr) (t : BitVec 5) (a : BitVec 6), Acts s hd { s := [a] } →
    let p := ptrBy (s.s! a) (sint 20 hd.c)
    let k := s.core.regs.tok (s.core.tIx t.toNat)
    (s.tokBusy (s.core.tIx t.toNat) = true → Gives (.tksv hd t a) s s.stall ∧ Gives (.tkld hd t a) s s.stall) ∧
    (s.tokBusy (s.core.tIx t.toNat) = false →
      (∀ u x, s.syncWrite needW 16 p 16 (k.count.toNat * 2 ^ 48 + k.fcnt.toNat * 2 ^ 32 + k.xl.toNat * 2 + k.f.toNat +
          k.frec.toNat * 2 ^ 64) 0 = .ok u x → Gives (.tksv hd t a) s u) ∧
      ∀ u x, s.syncRead needR 16 p 16 0 = .ok u x → Gives (.tkld hd t a) s (u.imageTok (s.core.tIx t.toNat)
        ⟨BitVec.ofNat 16 (x / 2 ^ 48), BitVec.ofNat 16 (x / 2 ^ 32), x.testBit 1, x.testBit 0,
          BitVec.ofNat 48 (x / 2 ^ 70 * 64)⟩))) ∧
  (∀ (s : State) (t : Nat) (k : Token), t < 34 → (∀ p ∈ s.core.pipe.posts, p.tok ≠ t) →
    ((s.imageTok t k).finishLater).core.regs.tok t = k) ∧
  ∀ k : Token, k.frec.toNat % 64 = 0 → Token.ofWords k.word0 k.word1 = k

/-- 09 R217; 13 R290, R291: WCHK, EST and a merge that overflows with a token named go in flight as tokened
operations; a merge that fits delivers its witness. -/
def Sys2Proof.Claims.TokenedReportsAndMergesGoInFlight : Prop :=
  (∀ (s : State) (hd : Hdr) (d a : BitVec 6), Room s hd false → Acts s hd { w := [a.toNat], ds := [d] } →
    ∃ t, Gives (.wchk hd d a) s t ∧ Issues s t hd (.check (entry (s.w! a) 0) (entry (s.w! a) 1)) true [] (s.sDst d)
      (if d = 0 then [] else [⟨0, s.sDst d⟩]) 0 none) ∧
  (∀ (s : State) (hd : Hdr) (d a b : BitVec 6) (es : List Word), Room s hd false → teSet hd.c = true →
    Acts s hd { w := [a.toNat, b.toNat], dw := [d.toNat] } →
    es = mergeEntries ((entriesOf (s.w! a) ++ entriesOf (s.w! b)).map s.copyEntry) →
    (2 < es.length → ∃ t, Gives (.wmrg hd d a b) s t ∧
      Issues s t hd (.merge (es.headD 0) (es.drop 1)) true [] d.toNat (if d = 0 then [] else [⟨2, d.toNat⟩]) 0 none) ∧
    (es.length ≤ 2 → Gives (.wmrg hd d a b) s (
      let r := s.newPost (s.core.tIx (bits hd.c 19 15)) (if d = 0 then [] else [⟨2, d.toNat⟩])
      r.1.deliver ⟨s.core.id, s.core.cont.recPa, some r.2,
        [.w d.toNat (BitVec.allOnes 128) (mkWit (es.getD 0 0) (es.getD 1 0))], none⟩))) ∧
  ∀ (s : State) (a : Access), a.got = [] →
    (∀ e0 e1, a.op = .check e0 e1 → Gives (.memoryPortAccess a) s (s.deliver ⟨a.core, a.recPa, a.post,
      [.s a.dst (BitVec.ofNat 64 (
        let code (e : Word) : Nat := match s.judge (some a.core) e with
          | .empty => 0 | .ripe => 1 | .unripe => 2 | .poisoned => 3 | .future => 4
        code e0 + 16 * code e1))], none⟩)) ∧
    (∀ eng, a.op = .est eng → ∃ v : Word, v.toNat % 64 = (s.engine eng).queue.length % 64 ∧
      Gives (.memoryPortAccess a) s (s.deliver ⟨a.core, a.recPa, a.post, [.s a.dst v], none⟩))

/-- 05 R106, R110; 09 R202, R217; 13 R290, R291: saved tokens, reports and merges. -/
def Obligations.TokenImagesReportsAndMergesAreExact : Prop :=
  Claims.SavedTokensReadBackExactly ∧ Claims.TokenedReportsAndMergesGoInFlight

/-! ### Memory events -/

namespace Sys2Proof.Claims

/-- An access has come to its port: it waits for no lender, its checks, by the entries of its first one, pass,
and nothing of its continuation or of its witnesses stands in its way (01 R33; 08 R162; 09 R197, R198). -/
abbrev Cleared (s : State) (a : Access) (j : Job) (first : List Part) : Prop :=
  a.sent = false ∧ s.job? a.job = some j ∧ (∀ p ∈ a.parts, s.partFails (s.keepEntries a j) j p = none) ∧
    s.observe (some a.core) a.wi = .ok ∧
    s.earlier a.recPa a.id (s.namedPlaces { s.keepEntries a j with parts := first }) = false

/-- The same of an access of one part of which nothing has been performed. -/
abbrev AtPort (s : State) (a : Access) (j : Job) (p : Part) : Prop :=
  Cleared s a j [p] ∧ a.parts = [p] ∧ a.whole = true ∧ a.got = [] ∧ a.bad = []

/-- The caches through which a core reads hold what memory holds (08 R179, R180). -/
def Coherent (s : State) (core : Nat) : Prop :=
  (∀ b ∈ (s.coreOf core).store.l1, b.val = Cells.get s.mem.cells b.key) ∧
    ∀ b ∈ s.clusterBytes (core / 24), b.val = Cells.get s.mem.cells b.key

/-- The value that an atomic writes: of the old value x and the operand v in n bytes (13 R293). -/
def atomicValue : List (AtomOp × (Nat → Bool → Nat → Nat → Nat → Nat)) := [
  (.add, fun n _ _ x v => (x + v) % 256 ^ n), (.and, fun _ _ _ x v => x &&& v), (.or, fun _ _ _ x v => x ||| v),
  (.xor, fun _ _ _ x v => x ^^^ v), (.minu, fun _ _ _ x v => min x v), (.maxu, fun _ _ _ x v => max x v),
  (.min, fun n _ _ x v => if sint (8 * n) v < sint (8 * n) x then v else x),
  (.max, fun n _ _ x v => if sint (8 * n) x < sint (8 * n) v then v else x),
  (.swp, fun _ _ _ _ v => v), (.cas, fun _ _ c x v => if x = c then v else x),
  (.addf, fun n _ _ x v => ((if n = 8 then F64 else F32).add false x v).1),
  (.maxf, fun n np _ x v => ((if n = 8 then F64 else F32).minmax false np true x v).1),
  (.minf, fun n np _ x v => ((if n = 8 then F64 else F32).minmax false np false x v).1)]

/-- Whether a key range holds an address. -/
def within (k : Nat × Nat) (x : Nat) : Bool := decide (k.1 ≤ x) && decide (x < k.1 + k.2)

end Sys2Proof.Claims

/-- 08 R162, R179; 09 R199, R201, R205; 12 R266: a load that may proceed reads its bytes through its core's L1,
or from the core's own storage, and delivers them extended; a store leaves its bytes in the L1, is performed for
its own core, and starts to ripen; neither changes a byte of memory; an atomic goes to its port or its batch; a
CFLUSH writes back the lines of its range for a scope other than 0, drops them where it says so, and ripens as a
store of no bytes does. Which store is known to have written a byte that a load returns is the model's (log 12). -/
def Sys2Proof.Claims.LoadsAndStoresActAtTheirPort : Prop :=
  ∀ (s : State) (a : Access) (j : Job) (p : Part), AtPort s a j p →
    let done (ws : List Write) : Completion := ⟨a.core, a.recPa, a.post, ws, none⟩
    let b : Access := { s.keepEntries a j with wi := [] }
    -- how a store of some bytes that has been performed for its own core goes on
    let ripens (u : State) (ks : List (Nat × Nat)) : State :=
      if a.scope = 0 then (u.deliver (done [])).push
          (.entryRipens ⟨s.devnum, a.core, a.seq, a.core, ks, [], none, 0, 1, a.id⟩)
      else u.push (.entryRipens ⟨s.devnum, a.core, a.seq, a.core, ks, [], some (done []), a.scope, 1, a.id⟩)
    (∀ sz, a.op = .load sz →
      (∀ ks, s.ready b j p = .go ks → ∃ t, Gives (.memoryPortAccess a) s t ∧ t.mem = { s.mem with cc := t.mem.cc } ∧
        t = (s.coreLoad a.core a.recPa a.id ks).1.deliver (done [.s a.dst (extendLoad sz (s.coreRead a.core ks))]) ∧
        (Coherent s a.core → s.coreRead a.core ks = s.rdSpans ks)) ∧
      (s.ready b j p = .loc → Gives (.memoryPortAccess a) s
        ((s.noteSeen a.core a.recPa a.id (s.whoAt (localRanges a.core (ptrIx p.ptr) (ptrOff p.ptr) p.size))).deliver
          (done [.s a.dst (extendLoad sz (s.localRead a.core a.recPa (ptrIx p.ptr) (ptrOff p.ptr) p.size))])))) ∧
    (∀ ks, a.op = .store → s.ready b j p = .go ks → ∃ t u, Gives (.memoryPortAccess a) s t ∧
      u = (((s.noteOwn a.core ks).setL1 a.core fun l => overSpans (l1Write (s.partChan b p)
          (s.storeEntry a.scope a.core a.seq)) l ks p.data).setL1 a.core (l1Heal ks)) ∧
      t.mem = { s.mem with icOld := t.mem.icOld } ∧ t = ripens u ks) ∧
    (∀ op w64 nr np cmp ks, a.op = .atomic op w64 nr np cmp → s.ready b j p = .go ks →
      Gives (.memoryPortAccess a) s (s.push (if a.key.isSome = true then .batchPerform b else .atomicPerform b))) ∧
    (∀ scope inv ks, a.op = .flush scope inv → s.ready b j p = .go ks → ∃ u v,
      u = (if scope ≠ 0 then (lineSpans ks).foldl (fun s k => s.writeBack scope a.core k.1 k.2) s else s) ∧
      (scope < 2 → u.mem.cells = s.mem.cells) ∧
      v = (if inv = true then u.setL1 a.core fun l => (lineSpans ks).foldl (fun l k => l1Drop l k.1 k.2) l else u) ∧
      v.mem = u.mem ∧ Gives (.memoryPortAccess a) s (ripens v []))

/-- 09 R200, R201; 12 R273; 15 R333: a vector load that is one access delivers every selected lane's word, those
of memory where its caches hold what memory holds; in the forms whose lanes are separate accesses each lane is
performed by itself, one that fails its check failing alone while the others go on. -/
def Sys2Proof.Claims.LanesActTogetherOrOneByOne : Prop :=
  (∀ (s : State) (a : Access) (j : Job) (ks : Part → List (Nat × Nat)), Cleared s a j a.parts → a.op = .vload →
    a.whole = true → a.got = [] → a.bad = [] → a.parts ≠ [] → (a.parts.map Part.lane).Nodup → Coherent s a.core →
    (∀ p ∈ a.parts, p.lane < 64 ∧ s.ready { s.keepEntries a j with wi := [] } j p = .go (ks p)) →
    ∃ t mask val, Gives (.memoryPortAccess a) s t ∧ t.mem.cells = s.mem.cells ∧ t.core.regs = s.core.regs ∧
      .tokenedOperationComplete ⟨a.core, a.recPa, a.post, [.v a.dst mask val], none⟩ ∈ t.agenda ∧
      Elements 32 mask val (fun n => a.parts.any fun p => decide (p.lane = n)) fun n =>
        match a.parts.find? fun p => decide (p.lane = n) with
        | some p => s.rdSpans (ks p)
        | none => 0) ∧
  (∀ (s : State) (a : Access) (j : Job) (p : Part) (rest : List Part) (ks : List (Nat × Nat)), Cleared s a j [p] →
    a.whole = false → a.parts = p :: rest → rest ≠ [] → (∀ q ∈ rest, q.lane ≠ p.lane) →
    (∀ q ∈ a.parts, ptrIx q.ptr ≠ 0xFFF4) →
    let b : Access := { s.keepEntries a j with wi := [] }
    s.ready b j p = .go ks →
    (a.op = .vload → Gives (.memoryPortAccess a) s ((s.coreLoad a.core a.recPa a.id ks).1.push
      (.memoryPortAccess { b with parts := rest, got := a.got ++ [(p.lane, s.coreRead a.core ks)] }))) ∧
    (a.op = .store → Gives (.memoryPortAccess a) s ((((s.noteOwn a.core ks).setL1 a.core fun l =>
      overSpans (l1Write (s.partChan b p) (s.storeEntry a.scope a.core a.seq)) l ks p.data).setL1 a.core (l1Heal ks)).push
        (.memoryPortAccess { b with parts := rest, got := a.got ++ ks })))) ∧
  (∀ (s : State) (a : Access) (j : Job) (p : Part) (rest : List Part) (f : Failing), a.sent = false →
    s.job? a.job = some j → s.bareOp a = none → a.whole = false → a.parts = p :: rest → f.lane = p.lane →
    (∀ q ∈ rest, q.lane ≠ p.lane) → s.partFails (s.keepEntries a j) j p = some f →
    (∀ q ∈ rest, s.partFails (s.keepEntries a j) j q = none) →
    exec (.memoryPortAccess a) s =
      exec (.memoryPortAccess { s.keepEntries a j with parts := rest, bad := a.bad ++ [f] }) s) ∧
  ∀ (s : State) (a : Access) (j : Job) (f : Failing), a.sent = false → s.job? a.job = some j → s.bareOp a = none →
    a.whole = false → a.parts = [] → a.lowest = some f → s.observe (some a.core) a.wi = .ok →
    (∀ g ∈ a.bad, f.lane ≤ g.lane) ∧ f ∈ a.bad ∧
    (∀ n, (accessFault a f).lanes.testBit n = true ↔ ∃ g ∈ a.bad, g.lane = n) ∧
    (accessFault a f).addr = f.ptr ∧
    ∃ t, Gives (.memoryPortAccess a) s t ∧ t.core.regs = s.core.regs ∧
      .tokenedOperationComplete ⟨a.core, a.recPa, a.post, [],
        some ⟨f.cause, (s.faultRecord a.job (accessFault a f)).2⟩⟩ ∈ t.agenda ∧
      (a.seq ≠ 0 → a.seq ∈ (t.agentOf s.devnum a.core).failed) ∧
      (a.op = .store → a.got ≠ [] → ∃ r : Ripe, .entryRipens r ∈ t.agenda ∧ r.bytes = a.got ∧ r.seq = a.seq ∧
        r.post = none)

/-- 12 R271; 13 R290: a merge that overflows waits for the entries beyond the first, then issues a marker of
their widest scope that replaces them, and delivers the first entry merged with the marker's; a poisoned or
future one among them fails it. -/
def Sys2Proof.Claims.OverflowingMergesIssueAMarker : Prop :=
  ∀ (s : State) (a : Access) (keep : Word) (rest : List Word), a.op = .merge keep rest →
    (s.observe (some a.core) rest = .wait → Gives (.memoryPortAccess a) s (s.push (.memoryPortAccess a))) ∧
    (∀ c e, s.observe (some a.core) rest = .bad c e → ∃ t r, Gives (.memoryPortAccess a) s t ∧
      r = s.faultRecord a.job { coreFault c 1 a.core a.slot a.pc a.recPtr 0 with wit := e } ∧
      t = r.1.deliver ⟨a.core, a.recPa, a.post, [], some ⟨c, r.2⟩⟩) ∧
    (s.observe (some a.core) rest = .ok → s.roomFor a.core = true →
      ∃ t n e w, Gives (.memoryPortAccess a) s t ∧ n = (s.agentOf s.devnum a.core).issued + 1 ∧
        (t.agentOf s.devnum a.core).issued = n ∧ e = mkEntry 2 (widest rest) s.devnum.toNat a.core n ∧
        witOfEntries (mergeEntries [s.copyEntry keep, e]) = some w ∧
        .tokenedOperationComplete ⟨a.core, a.recPa, a.post, [.w a.dst (BitVec.allOnes 128) w], none⟩ ∈ t.agenda ∧
        ∃ r : Ripe, .entryRipens r ∈ t.agenda ∧ r.agent = a.core ∧ r.seq = n ∧ r.wi = rest ∧ r.bytes = [] ∧
          r.scope = widest rest)

/-- 09 R199 to R201; 13 R294: an access whose alignment, checks, translation or check value fails touches
nothing: its fault is recorded and delivered to its token, and the store that it would have been is
poisoned. -/
def Sys2Proof.Claims.FailedAccessesTouchNothing : Prop :=
  ∀ (s : State) (a : Access) (j : Job) (p : Part) (f : Failing), a.sent = false → s.job? a.job = some j →
    a.parts = [p] → a.whole = true → a.got = [] → a.bad = [] → s.bareOp a = none →
    s.partFails (s.keepEntries a j) j p = some f →
    ∃ t c, Gives (.memoryPortAccess a) s t ∧
      c = (⟨a.core, a.recPa, a.post, [], some ⟨f.cause, (s.faultRecord a.job (accessFault { a with bad := [f] } f)).2⟩⟩ :
        Completion) ∧
      .tokenedOperationComplete c ∈ t.agenda ∧
      t.mem = (s.faultRecord a.job (accessFault { a with bad := [f] } f)).1.mem ∧ t.core.regs = s.core.regs ∧
      (a.seq ≠ 0 → a.seq ∈ (t.agentOf s.devnum a.core).failed)

/-- 08 R162; 09 R199 to R201, R205; 13 R290: an access acts at its port, whole or lane by lane, or fails and
touches nothing; a CFLUSH and a merge that overflows act there too. -/
def Obligations.PortAccessesActOrTouchNothing : Prop :=
  Claims.LoadsAndStoresActAtTheirPort ∧ Claims.FailedAccessesTouchNothing ∧ Claims.LanesActTogetherOrOneByOne ∧
    Claims.OverflowingMergesIssueAMarker

/-- 12 R265 to R267, R271; 08 R171, R177: an entry ripens no further while a load issued before its store is in
flight, or while a store that it covers is not visible; one with nothing left to wait for ripens as far as its store
has gone; a store that meets a held port stays as it is; the report of another device on an agent is taken as it
comes, its T_a, its frontier and its failed stores (the model's form of the message, log 12). -/
def Sys2Proof.Claims.EntriesWaitForTheirCover : Prop :=
  ∀ (s : State) (r : Ripe),
    (r.dev ≠ s.devnum → ∃ t, Gives (.entryRipens r) s t ∧ t = s.agentReported r ∧
      (t.agentOf r.dev r.agent).issued = max (s.agentOf r.dev r.agent).issued r.id ∧
      ((t.agentOf r.dev r.agent).pend = [] ↔ max (s.agentOf r.dev r.agent).issued r.id ≤ r.seq) ∧ t.mem = s.mem) ∧
    (r.dev = s.devnum → r.level = 2 → (s.coverBytes r).any (fun k => s.backHeld r.core k.1 k.2) = true →
      ∃ t, Gives (.entryRipens r) s t ∧ .entryRipens r ∈ t.agenda ∧ t.mem = s.mem ∧ t.core.store = s.core.store) ∧
    (r.dev = s.devnum → s.loadsBefore r = true ∨
        (∃ e ∈ s.coverOf r, entDev e ≠ s.devnum.toNat ∧ ∀ sc < 4, s.judgeAt sc e = .unripe) →
      ∃ t q, Gives (.entryRipens r) s t ∧ .entryRipens q ∈ t.agenda ∧ q.agent = r.agent ∧ q.seq = r.seq ∧
        (t.agentOf r.dev r.agent).pend = (s.agentOf r.dev r.agent).pend) ∧
    (r.dev = s.devnum → s.loadsBefore r = false → (∀ e ∈ s.coverOf r, ∀ sc < 4, s.judgeAt sc e ≠ .unripe) →
      (∀ l, r.level = l → l < 2 → ∃ t, Gives (.entryRipens r) s t ∧
        ∀ b, (r.seq, b) ∈ (t.agentOf r.dev r.agent).pend → l + 1 ≤ b) ∧
      (r.level = 2 → (∀ k ∈ s.coverBytes r, s.backHeld r.core k.1 k.2 = false) → ∃ t, Gives (.entryRipens r) s t ∧
        (∀ n b, (n, b) ∈ (t.agentOf r.dev r.agent).pend → n ≠ r.seq) ∧
        (s.earlierPend r = true → ∃ q, .entryRipens q ∈ t.agenda ∧ q.agent = r.agent ∧ q.seq = r.seq)))

/-- 12 R262, R267, R268; 08 R179, R180; 09 R196: a store goes from its core's L1 to its cluster's cache, which changes
no byte of memory, and from there to memory: the dirty bytes of the lines of its ranges, and of every line of which its
cluster's cache holds a dirty byte, become memory's, and every other byte of memory keeps its value; its token posts
once the store has gone past its scope, whatever its entry has still to wait for. That a store takes this
way, line by line and with every dirty byte of the cluster's cache, is the model's choice (log 12). -/
def Sys2Proof.Claims.StoresBecomeVisibleByTheirCaches : Prop :=
  ∀ (s : State) (r : Ripe), r.dev = s.devnum →
    (r.level = 0 → ∃ t, Gives (.entryRipens r) s t ∧ t.mem = s.mem ∧
      (∃ q, .entryRipens q ∈ t.agenda ∧ q.level = 1 ∧ q.seq = r.seq ∧ q.bytes = r.bytes ∧
        q.post = (if r.scope = 0 then none else r.post)) ∧
      (∀ c, r.post = some c → r.scope = 0 → .tokenedOperationComplete c ∈ t.agenda)) ∧
    (r.level = 1 → ∃ t, Gives (.entryRipens r) s t ∧ t.mem.cells = s.mem.cells ∧ t.core.regs = s.core.regs ∧
      (∃ q, .entryRipens q ∈ t.agenda ∧ q.level = 2 ∧ q.seq = r.seq ∧ q.bytes = r.bytes ∧
        q.post = (if r.scope < 2 then none else r.post)) ∧
      (∀ c, r.post = some c → r.scope < 2 → .tokenedOperationComplete c ∈ t.agenda)) ∧
    (r.level = 2 → (∀ k ∈ s.coverBytes r, s.backHeld r.core k.1 k.2 = false) → Memory.wf s.mem = true →
      ((s.coreOf r.core).store.l1.map L1Byte.key).Nodup → ((s.clusterBytes (r.core / 24)).map L1Byte.key).Nodup →
      ∃ t, Gives (.entryRipens r) s t ∧ t.core.regs = s.core.regs ∧
        (∀ c, r.post = some c → .tokenedOperationComplete c ∈ t.agenda) ∧
        ∀ x, Cells.get t.mem.cells x = if (s.coverBytes r).any (fun k => within (lineRange k.1 k.2) x) = true then
          (match ((s.coreOf r.core).store.l1 ++ s.clusterBytes (r.core / 24)).find? fun b => b.dirty && decide (b.key = x) with
            | some b => b.val
            | none => Cells.get s.mem.cells x) else Cells.get s.mem.cells x)

/-- 12 R262, R266 to R268, R271; 08 R179, R180: a store becomes visible level by level and writes its bytes alone, and
its entry ripens once what it covers is visible too. The
way that a store takes, line by line and with every dirty byte of the cluster's cache, is the model's choice (log 12). -/
def Obligations.RipeningWritesItsBytesAlone : Prop :=
  Claims.EntriesWaitForTheirCover ∧ Claims.StoresBecomeVisibleByTheirCaches

/-- 12 R274, R276; 13 R293, R295: an atomic that its port performs leaves the value of its operation in its
word, as one access, returns the old value to its destination and changes no other byte; a batched one does
the same once the frontier has passed its interval and no lower key is before it, and waits until then. -/
def Obligations.AtomicsReadModifyAndWriteTheirWordAlone : Prop :=
  ∀ r ∈ atomicValue, ∀ (s : State) (a : Access) (j : Job) (p : Part) (k n : Nat) (w64 nr np : Bool) (cmp : Word),
    Memory.wf s.mem = true → s.job? a.job = some j → a.parts = [p] → a.op = .atomic r.1 w64 nr np cmp → p.size = n → a.bad = [] → p.data < 256 ^ n →
    n = (if w64 = true then 8 else 4) → s.ready a j p = .go [(k, n)] →
    (∃ t, Gives (.atomicPerform a) s t ∧
      let u := s.writeBack 2 a.core k n
      let old := leNat ((List.range n).map fun i => Cells.get u.mem.cells (k + i))
      let new := r.2 n np cmp.toNat old p.data
      (∀ x, Cells.get t.mem.cells x =
        if within (k, n) x = true then BitVec.ofNat 8 (new / 256 ^ (x - k)) else Cells.get u.mem.cells x) ∧
      ∃ ws, .tokenedOperationComplete ⟨a.core, a.recPa, a.post, ws, none⟩ ∈ t.agenda ∧
        ws = if nr = true then [] else [.s a.dst (if w64 = true then BitVec.ofNat 64 old
          else if r.1 = .add ∨ r.1 = .min ∨ r.1 = .max then (BitVec.ofNat 32 old).signExtend 64
          else BitVec.ofNat 64 old)]) ∧
    ∀ q, a.key = some q →
      ((∀ f, s.frontier q.launch = some f → q.interval < f) → s.batchedBefore a q = false →
        exec (.batchPerform a) s = exec (.atomicPerform a) s) ∧
      (∀ f, s.frontier q.launch = some f → f ≤ q.interval → Gives (.batchPerform a) s (s.push (.batchPerform a)))

/-- 08 R168, R169, R171, R177; 15 R337: a walk that finds a leaf installs its translation, after zeroing where Z is
set; a zeroed page reads 0 in every byte and its Z is clear; a walk that faults changes nothing, and one that
meets a region not yet zeroed, or a zeroing that meets a held port, waits. -/
def Obligations.WalksInstallAndZeroPages : Prop :=
  ∀ (s : State) (tenant tier va : Nat), s.tlb? tenant tier va = none →
    (∀ l, s.walk tenant tier va = .fault l → Gives (.pageWalk tenant tier va) s s ∧
      Gives (.pageZeroing tenant tier va) s s) ∧
    (s.walk tenant tier va = .wait → Gives (.pageWalk tenant tier va) s (s.push (.pageWalk tenant tier va)) ∧
      Gives (.pageZeroing tenant tier va) s (s.push (.pageZeroing tenant tier va))) ∧
    ∀ key size z entry, s.walk tenant tier va = .leaf key size z entry →
      (z = false → ∃ t, Gives (.pageWalk tenant tier va) s t ∧ t.mem.cells = s.mem.cells ∧
        (0 < size →
          t.tlb? tenant tier va = some ⟨tenant, tier, va / size * size, size, key⟩)) ∧
      (z = true → Gives (.pageWalk tenant tier va) s (s.push (.pageZeroing tenant tier va)) ∧
        (s.pageHeld tenant tier va key size = true →
          Gives (.pageZeroing tenant tier va) s (s.push (.pageZeroing tenant tier va))) ∧
        (s.pageHeld tenant tier va key size = false → Memory.wf s.mem = true → entry + 8 ≤ key ∨ key + size ≤ entry → ∃ t, Gives (.pageZeroing tenant tier va) s t ∧
          (∀ x, key ≤ x → x < key + size → Cells.get t.mem.cells x = 0) ∧
          bits (t.rd entry 8) 61 61 = 0 ∧
          (∀ x, x < key ∨ key + size ≤ x → x < entry ∨ entry + 8 ≤ x → Cells.get t.mem.cells x = Cells.get s.mem.cells x)))

/-- 05 R107, R108: a completion on the core that runs its continuation lands its result and makes its token
rise by one, with the fault of a failed operation, which lands nothing; every posting of the token that was ready
behind it then posts too, in order; a post waits for every earlier posting to its token, and postings to other
tokens keep their state. -/
def Obligations.CompletionsPostInIssueOrder : Prop :=
  (∀ (s : State) (c : Completion) (p : Posting) (ps qs rs : List Posting) (id : Nat), c.post = some id →
    s.core.pipe.posts = ps ++ p :: (qs ++ rs) → p.id = id → p.image = none → p.tok < 34 →
    (∀ q ∈ ps ++ rs, q.ready = false ∧ q.id ≠ id) → (∀ q ∈ ps, q.tok ≠ p.tok) →
    (∀ q ∈ qs, q.ready = true ∧ q.id ≠ id ∧ q.tok = p.tok ∧ q.image = none) →
    ∃ t, Gives (.tokenedOperationComplete c) s t ∧ t.core.pipe.posts = ps ++ rs ∧
      t.core.regs.tok p.tok = qs.foldl (fun k q => k.post q.fault) ((s.core.regs.tok p.tok).post c.fault) ∧
      (t.core.regs.tok p.tok).count = (s.core.regs.tok p.tok).count + 1 + BitVec.ofNat 16 qs.length ∧
      t.core.pipe.soft = s.core.pipe.soft ++
        (if c.fault ≠ none ∨ c.writes = [] then [] else [⟨p.tok, p.cover, p.dst, c.writes, p.clash⟩]) ∧
      t.mem = s.mem ∧ ∀ k, k ≠ p.tok → t.core.regs.tok k = s.core.regs.tok k) ∧
  (∀ k : Token, k.post none = { k with count := k.count + 1 } ∧ ∀ e : PFault,
    k.post (some e) = if k.f = true then { k with count := k.count + 1 }
      else ⟨k.count + 1, k.count + 1, decide (e.cause = .xlate), true, e.frec⟩) ∧
  ∀ (s : State) (c : Completion) (p : Posting) (ps qs : List Posting) (id : Nat), c.post = some id →
    s.core.pipe.posts = ps ++ p :: qs → p.id = id → (∀ q ∈ ps ++ qs, q.ready = false ∧ q.id ≠ id) →
    (∃ q ∈ ps, q.tok = p.tok) →
    ∃ t, Gives (.tokenedOperationComplete c) s t ∧ t.core.regs = s.core.regs ∧
      t.core.pipe.posts = ps ++ { p with ready := true, fault := c.fault } :: qs

/-- 08 R175, R176; 12 R276: a lender answers a peer access, a batched one once the frontier that its borrower
has sent has passed its interval and no lower key waits there for the same bytes; it refuses one whose grant
is not valid, names another borrower or bears another epoch, and then touches nothing; a refusal revokes the
lease at the borrower. -/
def Obligations.PeerAccessesAreAnsweredOrRefused : Prop :=
  (∀ (s u : State) (p : PeerReq),
    u = (match p.batch with | some (k, _, f) => s.noteFront p.src k.launch f | none => s) →
    (u.peerDue p = false → Gives (.peerAccess p) s (u.push (.peerAccess p))) ∧
    (p.batch = none → u.peerDue p = true) ∧
    (u.peerDue p = true →
      (∀ t r, u.answerPeer p = (t, some r) →
        Gives (.peerAccess p) s (t.send p.src (.peerResponse ⟨p.lease, p.who, r⟩))) ∧
      (∀ t, u.answerPeer p = (t, none) → Gives (.peerAccess p) s (t.push (.peerAccess p))) ∧
      let w := s.rd (s.host.gtbase.toNat * 16 + 16 * p.gix) 8
      (s.host.gtn.toNat < p.gix ∨ bits w 63 63 = 0 ∨ bits w 47 34 ≠ p.src.toNat ∨ bits w 31 0 ≠ p.epoch.toNat →
        Gives (.peerAccess p) s (u.send p.src (.peerResponse ⟨p.lease, p.who, .refused⟩))))) ∧
  ∀ (s : State) (p : PeerResp),
    Gives (.peerResponse p) s ((if p.res = .refused then s.leaseRefused p.lease (some 1) else s).peerAnswered p) ∧
    (p.res = .refused → Memory.wf s.mem = true → p.lease ≤ s.leaseTable.2 → ∀ t, t = s.leaseRefused p.lease (some 1) →
      bits (t.rd (s.leaseKey p.lease) 8) 62 61 = 1 ∧
      t.rd (s.leaseKey p.lease + 16) 8 = (s.rd (s.leaseKey p.lease + 16) 8 + 1) % 2 ^ 64)

/-! ### Control -/

/-- 05 R114; 06 R118, R119: branches go to the bundle's PC plus a signed count of slots, or to the PC in a
scalar; calls push the PC of the next bundle and RET pops it; a full or empty return-address store and a PC
of more than 32 bits trap, with all 64 bits of that scalar in SR.TVAL, which is the model's choice (log 13). -/
def Obligations.BranchesAndCallsChangeTheNextPc : Prop :=
  (∀ (s : State) (hd : Hdr) (h : BitVec 1) (o : BitVec 17), Acts s hd {} →
    let pc : Pc := BitVec.ofInt 32 (s.core.pipe.pc.toNat + 4 * o.toInt)
    let g := s.core.regs
    Gives (.br hd h o) s (s.setPipe { s.core.pipe with npc := pc }) ∧
    (g.rascnt < 32 → Gives (.call hd h o) s ((s.setRegs { g with
      ras := g.ras.setIfInBounds g.rascnt s.core.pipe.npc, rascnt := g.rascnt + 1 }).setPipe
        { s.core.pipe with npc := pc })) ∧
    (32 ≤ g.rascnt → Gives (.call hd h o) s (s.fail .rasFull 0 0)) ∧
    (∀ x, 0 < g.rascnt → g.ras[g.rascnt - 1]? = some x → Gives (.ret hd) s
      ((s.setRegs { g with rascnt := g.rascnt - 1 }).setPipe { s.core.pipe with npc := x })) ∧
    (g.rascnt = 0 → Gives (.ret hd) s (s.fail .rasEmpty 0 0))) ∧
  (∀ (s : State) (hd : Hdr) (h : BitVec 1) (c : BitVec 6) (o : BitVec 11), c ≠ 0 → Acts s hd { s := [c], ds := [c] } →
    let t := s.sResult 0 c (s.s! c - 1)
    Gives (.bdnz hd h c o) s (if s.s! c = 1 then t else
      t.setPipe { t.core.pipe with npc := BitVec.ofInt 32 (s.core.pipe.pc.toNat + 4 * o.toInt) })) ∧
  ∀ (s : State) (hd : Hdr) (a : BitVec 6), Acts s hd { s := [a] } →
    let g := s.core.regs
    let x := s.s! a
    (x.toNat < 2 ^ 32 →
      Gives (.bri hd a) s (s.setPipe { s.core.pipe with npc := BitVec.ofNat 32 x.toNat }) ∧
      (g.rascnt < 32 → Gives (.calli hd a) s ((s.setRegs { g with
        ras := g.ras.setIfInBounds g.rascnt s.core.pipe.npc, rascnt := g.rascnt + 1 }).setPipe
          { s.core.pipe with npc := BitVec.ofNat 32 x.toNat })) ∧
      (32 ≤ g.rascnt → Gives (.calli hd a) s (s.fail .rasFull 0 0))) ∧
    (2 ^ 32 ≤ x.toNat → Gives (.bri hd a) s (s.fail .fetchBounds x 0) ∧ Gives (.calli hd a) s (s.fail .fetchBounds x 0))

/-- 03 R62, R63, R66, R67; 06 R120, R121, R122; 14 R312, R322: a yield records its table entry, lets its bundle's
other slots take effect and raises LIC; a pinned continuation, or one whose stated run its slice covers with no
other READY record, keeps its core; a free one gives it up to the first free record that fits the slice, where
its own run does not or one of a higher rank waits, and to a gang of at least its rank that heads the order and
lacks cores, its record then READY with the PC and the run of the yield; SUSP gives the core up unless it is
pinned; DLY makes its empty cycles unless they would reach the stated run. That LIC rises to the next multiple
of 256 with the yield's own cycle not added is the model's choice (log 24), and so is which record is aged and
when a cluster drains (log 16). -/
def Sys2Proof.Claims.YieldsKeepOrGiveUpTheCore : Prop :=
  (∀ (s u : State) (hd : Hdr) (y : BitVec 16) (e : Yield), s.core.cont.handler = false → Acts s hd {} →
    s.core.cont.obj.yields[y.toNat]? = some e → e.off = s.core.pipe.pc.toNat → u = s.yieldPoint y e →
    u.core.cont.prq = false →
    ((∀ id ∈ u.core.members, id ∉ u.sched.retire) →
      u.pinned = true ∨ ((e.run : Int) ≤ max 0 u.core.acct ∧ u.candidates (u.core.id / 24) = []) →
      Gives (.yield hd y) s (u.keep e.run)) ∧
    (u.pinned = false → Gives (.susp hd y) s (u.switchOut csReady u.core.pipe.npc.toNat e.run e.lix 0)) ∧
    -- a free continuation gives its core up
    ((∀ id ∈ u.core.members, id ∉ u.sched.retire) → u.pinned = false → u.core.cont.gsize = 0 →
      let cl := u.core.id / 24
      let rank := u.effRank u.core.cont.recPa
      let out := u.switchOut csReady u.core.pipe.npc.toNat e.run e.lix 0
      (∀ h, u.drainsFor cl = some h → rank ≤ u.effRank h.pa → Gives (.yield hd y) s out) ∧
      (∀ r, u.drainsFor cl = none →
        ((u.candidates cl).filter fun r => r.free && decide (u.gsizeOf r.pa = 0)).find?
          (fun r => decide ((u.runOf r.pa : Int) ≤ max 0 u.core.acct)) = some r →
        max 0 u.core.acct < e.run ∨ ((∃ q ∈ u.candidates cl, rank < u.effRank q.pa) ∧ u.aheadOf r = false) →
        Gives (.yield hd y) s ((out.dispatchOn r [u.core.id]).left)) ∧
      (Memory.wf u.mem = true → out.fieldOf u.core.cont.recPa 0 63 60 = csReady ∧
        out.fieldOf u.core.cont.recPa 0 31 0 = u.core.pipe.npc.toNat ∧
        out.fieldOf u.core.cont.recPa 0x30 31 0 = e.run % 2 ^ 32 ∧ out.core.phase = .idle))) ∧
  (∀ (s : State) (y : BitVec 16) (e : Yield), s.core.cont.handler = false → s.core.cont.gsize = 0 →
    (s.yieldPoint y e).core.cont.yix = y.toNat ∧ (s.yieldPoint y e).core.cont.lix = e.lix ∧
    (s.yieldPoint y e).core.cont.lic = (s.core.cont.lic / 256 + 1) * 256 ∧
    (s.yieldPoint y e).core.pipe.land = s.core.pipe.land ++ s.core.pipe.fresh ∧ (s.yieldPoint y e).mem = s.mem) ∧
  (∀ (s : State) (hd : Hdr) (y : BitVec 16), s.core.cont.handler = true → Acts s hd {} →
    Gives (.yield hd y) s s.illegal ∧ Gives (.susp hd y) s s.illegal) ∧
  ∀ (s : State) (hd : Hdr) (n : BitVec 16), n ≠ 0 → Acts s hd {} →
    (s.core.cont.handler = true ∨ s.core.cont.stretch + n.toNat < s.core.cont.run →
      Gives (.dly hd n) s (s.setPipe { s.core.pipe with extra := n.toNat })) ∧
    (s.core.cont.handler = false → s.core.cont.run ≤ s.core.cont.stretch + n.toNat → Gives (.dly hd n) s s.overrun)

/-- 06 R123, R124, R126; 01 R20; 03 R65: EXIT begins the drain of a continuation, on every member of a gang, once
the other slots have taken effect and LIC has risen, and leaves the CAUSE of the last trap; SPAWN issues its
posting and its record's creation; SYNC costs a free continuation nothing, and a member of a gang waits in its
segment until the gang is released. That LIC rises to the next multiple of 256 with the event's own cycle not
added, at EXIT and at SYNC, is the model's choice (log 24). -/
def Sys2Proof.Claims.ExitSpawnAndSyncBeginTheirWait : Prop :=
  (∀ (s : State) (hd : Hdr), s.core.members.Nodup → s.core.id ∈ s.core.members → Acts s hd {} →
    ∃ t, Gives (.exit hd) s t ∧
    (∀ id ∈ s.core.members, (t.coreOf id).phase = .draining ∧ (t.coreOf id).cont.rstat = 1 ∧
      (t.coreOf id).cont.rcause = s.fieldOf s.core.cont.recPa 0x38 63 58 ∧
      (t.coreOf id).cont.lic = (s.core.cont.lic / 256 + 1) * 256) ∧ t.core.pipe.status = .left ∧
    t.agenda = s.agenda ++ [.exitDrainComplete s.core.id] ∧ t.mem = s.mem ∧ t.units = s.units ∧ t.sched = s.sched) ∧
  (∀ (s : State) (hd : Hdr) (a b : BitVec 6) (t : BitVec 5) (j : Job) (x : Place), s.core.cont.handler = false →
    bits hd.imm 15 0 < s.core.cont.obj.entries.length → s.postRoom t.toNat = true → Acts s hd { s := [a, b] } →
    s.job! = some j →
    s.check j s.core.cont.obj.osize needL true (ptrIx (s.s! a)) (ptrOff (s.s! a)) 64 = .ok x →
    ptrOff (s.s! a) % 64 = 0 →
    ∃ u op, Gives (.spawn hd a b t) s u ∧ u.agenda = s.agenda ++ [.spawnRecordWrite op] ∧
      op.slotPtr = s.s! a ∧ op.arg0 = s.s! b ∧ op.entry = bits hd.imm 15 0 ∧ op.rank = bits hd.imm 19 16 ∧
      op.unit = bits hd.imm 39 20 ∧ op.launch = s.core.cont.launch ∧ op.interval = s.core.cont.lic / 256 ∧
      op.post = some s.nextId ∧ (∃ p ∈ u.core.pipe.posts, p.id = s.nextId ∧ p.tok = s.core.tIx t.toNat) ∧
      u.mem = s.mem ∧ u.core.regs = s.core.regs) ∧
  (∀ (s : State) (hd : Hdr), Acts s hd {} →
    (s.core.cont.gsize = 0 → Gives (.sync hd) s s.raiseLic) ∧
    (s.core.cont.gsize ≠ 0 → s.core.pipe.reply.find? (fun r => decide (r.1 = syncKey)) = none →
      ∃ t, Gives (.sync hd) s t ∧ t.core.phase = .sync ∧ t.core.pipe.status = .stalled ∧
        .gangSyncRelease (s.core.cont.gang.headD s.core.id) ∈ t.agenda) ∧
    (∀ k ws, s.core.cont.gsize ≠ 0 → s.core.pipe.reply.find? (fun r => decide (r.1 = syncKey)) = some (k, some ws) →
      Gives (.sync hd) s s.raiseLic)) ∧
  ∀ (s : State) (core : Nat),
    ((s.coreOf core).phase ≠ .sync → Gives (.gangSyncRelease core) s s) ∧
    ((s.coreOf core).phase = .sync → ∃ t, Gives (.gangSyncRelease core) s t ∧ t.mem = s.mem ∧
      ∀ id ∈ (s.coreOf core).members, (t.coreOf id).phase = .running ∧
        (t.coreOf id).pipe.reply.find? (fun r => decide (r.1 = syncKey)) = some (syncKey, some []))

/-- 06 R120 to R126: the slots that end a stretch, retire, spawn or wait for a gang. How far LIC rises (log 24) and when
a cluster drains for a gang (log 16) are the model's choice. -/
def Obligations.YieldsExitsSpawnsAndSyncsHaveTheirEffect : Prop :=
  Claims.YieldsKeepOrGiveUpTheCore ∧ Claims.ExitSpawnAndSyncBeginTheirWait

/-! ### Traps and their return -/

/-- 06 R127; 14 R306, R324: SWTRAP traps with its code after every other slot of its bundle, with the next
bundle as the saved PC; BRK traps with its tag when debug is on and is illegal otherwise; a slot that fails a
check has no effect and its bundle traps. -/
def Obligations.SoftwareTrapsTakeTheirTrap : Prop :=
  (∀ (s : State) (hd : Hdr) (c : BitVec 16), Acts s hd {} → ∃ u, u = s.finishLater.charge 1 ∧
    Gives (.swtrap hd c) s (u.trap .swtrap (1#8 <<< u.core.pipe.slot) (c.setWidth 64) 0
      u.core.pipe.npc (1#24 <<< u.core.cont.member))) ∧
  (∀ (s : State) (hd : Hdr) (t : BitVec 18),
    (s.core.cont.debug = true → Gives (.brk hd t) s (s.fail .brk (t.setWidth 64) 0)) ∧
    (s.core.cont.debug = false → Gives (.brk hd t) s s.illegal)) ∧
  (∀ (s : State) (v : BitVec 20), Gives (.imm v) s (s.fail .illegalBundle 0 0)) ∧
  ∀ (s : State) (c : Cause) (tval : Word) (frec : BitVec 48),
    s.fail c tval frec = ((s.setPipe { s.core.pipe with
      fails := [(s.core.pipe.slot, c, tval, frec)], later := [], fresh := [] }).trap c
        ((1#8 <<< s.core.pipe.slot) ||| s.core.pipe.also) tval frec s.core.pipe.pc
        ((1#24 <<< s.core.cont.member) ||| s.core.pipe.alsoG))

/-- 14 R304, R306 to R309; 01 R20, R23: taking a trap outside the handler saves the cause, the pc, FMASK, TVAL,
FREC and GMASK in the system registers of every member, clears HREASON and HACT, enters handler mode in lockstep
with the pc at entry 0 of the handler object and its bank's tokens clear, and changes no other register of the
program and no other core. That the record is written whole at that moment, RUNNING with SR.EPC, the stated run,
CAUSE, FMASK and the offset of the job's last fault record, is the model's choice (log 37); no other byte of
memory changes. -/
def Sys2Proof.Claims.TakingATrapEntersTheHandler : Prop :=
  ∀ (s t : State) (cause : Cause) (fmask : BitVec 8) (tval : Word) (frec : BitVec 48) (epc : Pc)
    (gmask : BitVec 24) (j : Job) (o : ObjInfo), s.core.members.head? = some s.core.id → s.core.members.Nodup →
    s.core.cont.handler = false → cause.freezes = false → s.job? s.core.cont.job = some j →
    s.handlerObj j = (s, some o) → Memory.wf s.mem = true → t = s.trap cause fmask tval frec epc gmask →
    let pa := s.core.cont.recPa
    (∀ id ∈ s.core.members,
      let c := s.coreOf id
      let d := t.coreOf id
      d.sys = { c.sys with
        cause := BitVec.ofNat 6 cause.code, epc := epc, fmask := fmask, tval := tval, frec := frec, hreason := 0
        gmask := gmask, hact := 0, armed := none, xl := s.core.pipe.xl } ∧
      d.cont = { c.cont with handler := true, hobj := some o } ∧
      (∀ e es, o.entries = e :: es → d.pipe.pc = BitVec.ofNat 32 e.pc ∧ d.pipe.npc = BitVec.ofNat 32 e.pc) ∧
      d.pipe.status = .trapped ∧ d.regs.tok 32 = Token.zero ∧ d.regs.tok 33 = Token.zero ∧
      (∀ k, k < 32 → d.regs.tok k = c.regs.tok k) ∧
      (c.pipe.land = [] → d.regs.s = c.regs.s ∧ d.regs.v = c.regs.v ∧ d.regs.p = c.regs.p ∧ d.regs.m = c.regs.m ∧
        d.regs.w = c.regs.w ∧ d.regs.fpst = c.regs.fpst ∧ d.regs.view = c.regs.view) ∧
      d.store.a = c.store.a ∧ d.store.w = c.store.w ∧ d.store.k = c.store.k) ∧
    (∀ id, id ∉ s.core.members → t.coreOf id = s.coreOf id) ∧ t.core.id = s.core.id ∧
    (s.core.cont.gsize = 0 → t.parked = s.parked) ∧
    t.fieldOf pa 0 63 60 = csRunning ∧ t.fieldOf pa 0 31 0 = epc.toNat ∧
    t.fieldOf pa 0x30 31 0 = s.core.cont.run % 2 ^ 32 ∧
    t.word pa 0x38 = cause.code * 2 ^ 58 + fmask.toNat * 2 ^ 50 + j.frec.toNat ∧
    (∀ x, x < pa ∨ pa + 0x40 ≤ x → Cells.get t.mem.cells x = Cells.get s.mem.cells x) ∧
    t.sched = s.sched ∧ t.units = s.units ∧ t.host = s.host ∧ t.agenda = s.agenda

/-- 14 R306, R309, R318: RUN_OVERRUN and GANG_DESYNC, and any trap of a job without a handler object, freeze
the continuation: its record is FROZEN with the cause and FMASK, its launch FAULTED, and its core idle. -/
def Sys2Proof.Claims.FreezingTrapsFreezeTheContinuation : Prop :=
  ∀ (s t : State) (cause : Cause) (fmask : BitVec 8) (tval : Word) (frec : BitVec 48) (epc : Pc)
    (gmask : BitVec 24) (j : Job), s.core.cont.gsize = 0 → s.core.cont.handler = false →
    s.job? s.core.cont.job = some j → cause.freezes = true ∨ s.handlerObj j = (s, none) →
    Memory.wf s.mem = true → s.core.cont.launch + 8 ≤ s.core.cont.recPa ∨ s.core.cont.recPa + 64 ≤ s.core.cont.launch →
    t = s.trap cause fmask tval frec epc gmask →
    t.fieldOf s.core.cont.recPa 0 63 60 = csFrozen ∧ t.fieldOf s.core.cont.recPa 0 31 0 = epc.toNat ∧
    t.fieldOf s.core.cont.recPa 0x38 63 58 = cause.code ∧ t.fieldOf s.core.cont.recPa 0x38 57 50 = fmask.toNat ∧
    t.fieldOf s.core.cont.launch 0 59 56 = stFaulted ∧ t.core.phase = .idle ∧ t.core.pipe.status = .trapped

/-- 14 R309, R311, R318; 01 R20: a trap in handler mode freezes the continuation with the new cause and with
SR.EPC as its PC; the fault record has HREASON 2, the cause and the PC of the handler's bundle, and its offset
stands in the record. -/
def Sys2Proof.Claims.TrapsInTheHandlerFreeze : Prop :=
  ∀ (s t u v : State) (cause : Cause) (fmask : BitVec 8) (tval : Word) (frec : BitVec 48) (epc : Pc)
    (gmask : BitVec 24) (j : Job) (f : FaultInfo) (off : BitVec 48), s.core.cont.gsize = 0 →
    s.core.cont.handler = true → s.job? s.core.cont.job = some j → Memory.wf s.mem = true →
    s.core.cont.launch + 8 ≤ s.core.cont.recPa ∨ s.core.cont.recPa + 64 ≤ s.core.cont.launch →
    t = s.trap cause fmask tval frec epc gmask →
    u = ((((s.setTval tval).cancelChains s.core.id s.core.cont.recPa).quiesce).saveFrame 0xFFFF) →
    f = freezeFault cause.code (lowestBit fmask) s.core.id s.core.pipe.xl tval s.core.pipe.pc s.core.cont.recPtr 2 →
    u.faultRecord s.core.cont.job f = (v, off) →
    f.hreason = 2 ∧ f.cause = cause.code ∧ f.pc = s.core.pipe.pc.toNat ∧
    t.fieldOf s.core.cont.recPa 0 63 60 = csFrozen ∧ t.fieldOf s.core.cont.recPa 0 31 0 = s.core.sys.epc.toNat ∧
    t.fieldOf s.core.cont.recPa 0x38 63 58 = cause.code ∧ t.fieldOf s.core.cont.recPa 0x38 57 50 = fmask.toNat ∧
    t.fieldOf s.core.cont.recPa 0x38 47 0 = off.toNat ∧
    t.fieldOf s.core.cont.launch 0 59 56 = stFaulted ∧ t.core.phase = .idle ∧ t.core.pipe.status = .trapped

/-- 14 R304 to R309: taking a trap enters the handler, on every member of a gang, or freezes the continuation, as
does a trap in handler mode; when the record is written is the model's choice (log 37). -/
def Obligations.TakingATrapEntersTheHandlerOrFreezes : Prop :=
  Claims.TakingATrapEntersTheHandler ∧ Claims.FreezingTrapsFreezeTheContinuation ∧ Claims.TrapsInTheHandlerFreeze

/-- 14 R310; 03 R65: a return from the handler lands the results of the handler's slots, releases the engines that
its cores hold and acts on SR.HACT, for every member of a gang: 0 resumes at SR.EPC, with SR.SUBSLOT armed by
ERET.S, 1 switches out READY there, or resumes while it is pinned, 2 freezes with the saved cause, 3 retires with
HACT's status; another value is a double fault, and the slot is illegal outside the handler. The cause of that
double fault, ILLEGAL_OP (log 32), and the run that HACT 1 writes (log 37) are the model's choice. -/
def Obligations.ReturningFromTheHandlerActsOnHact : Prop :=
  ∀ r ∈ [(Instr.eret, false), (Instr.eretS, true)], ∀ (s u : State) (hd : Hdr), Acts s hd {} →
    (s.core.cont.handler = false → Gives (r.1 hd) s s.illegal) ∧
    (s.core.cont.handler = true → s.core.members.Nodup → s.core.id ∈ s.core.members →
      (∀ id ∈ s.core.members, ∀ p ∈ (s.coreOf id).pipe.posts, p.id < s.core.pipe.base → p.tok < 32) →
      u = (s.core.members.foldl (fun v id => v.setCore ((v.coreOf id).landAll v.tick)) s.finishLater).releaseEngines →
      let y := u.core.sys
      let act := y.hact.toNat % 16
      (act = 0 → y.hreason ≠ 1 → s.core.cont.gsize = 0 → Gives (r.1 hd) s { u with core := { u.core with
        cont := { u.core.cont with handler := false }
        regs := u.core.regs.refetchCode
        pipe := { u.core.pipe with npc := y.epc }
        sys := { y with armed := if r.2 = true then some y.subslot else none } } }) ∧
      (act = 0 → y.hreason ≠ 1 → ∃ t, Gives (r.1 hd) s t ∧ t.mem = u.mem ∧ t.sched = u.sched ∧ t.agenda = u.agenda ∧
        t.core.sys.armed = (if r.2 = true then some y.subslot else none) ∧
        ∀ id ∈ s.core.members, (t.coreOf id).cont = { (u.coreOf id).cont with handler := false } ∧
          (t.coreOf id).pipe = { (u.coreOf id).pipe with npc := y.epc } ∧
          (t.coreOf id).regs = (u.coreOf id).regs.refetchCode ∧ (t.coreOf id).store = (u.coreOf id).store) ∧
      (act = 1 → u.pinned = true → ∃ t, Gives (r.1 hd) s t ∧ t.mem = u.mem ∧
        ∀ id ∈ s.core.members, (t.coreOf id).cont.handler = false ∧ (t.coreOf id).pipe.npc = y.epc) ∧
      (act = 1 → u.pinned = false → Gives (r.1 hd) s (u.switchOut csReady y.epc.toNat
        u.core.cont.run (if y.hreason = 1 then u.core.cont.lix else 0xFFFF) 0)) ∧
      (act = 2 → Gives (r.1 hd) s
        (u.freeze y.cause.toNat y.fmask y.tval y.epc 0 y.epc)) ∧
      (act = 3 → ∃ t, Gives (r.1 hd) s t ∧ ∀ id ∈ s.core.members, (t.coreOf id).phase = .draining ∧
        (t.coreOf id).cont.handler = false ∧ (t.coreOf id).cont.rcause = y.cause.toNat ∧
        (t.coreOf id).cont.rstat = (
          let st := y.hact.toNat / 16 % 16
          if 1 ≤ st ∧ st ≤ 4 then st else 2)) ∧
      (4 ≤ act → Gives (r.1 hd) s u.illegal))

/-! ### System slots -/

namespace Sys2Proof.Claims

/-- System registers and what SRRD reads of them (14 R328). -/
def systemRegisters : List (BitVec 10 × (State → Word)) := [
  (0x000, fun s => s.core.regs.fpst.setWidth 64), (0x003, fun s => s.core.cont.unit.setWidth 64),
  (0x005, fun s => BitVec.ofNat 64 s.core.cont.lic),
  (0x006, fun s => BitVec.ofNat 64 (s.core.cont.run - s.core.cont.stretch)),
  (0x010, fun s => s.core.sys.cause.setWidth 64), (0x011, fun s => s.core.sys.epc.setWidth 64),
  (0x012, fun s => s.core.sys.fmask.setWidth 64), (0x013, fun s => s.core.sys.tval),
  (0x014, fun s => s.core.sys.frec.setWidth 64), (0x015, fun s => s.core.sys.hreason.setWidth 64),
  (0x016, fun s => s.core.sys.gmask.setWidth 64), (0x017, fun s => s.core.sys.hact.setWidth 64),
  (0x018, fun s => s.core.sys.subslot.setWidth 64), (0x01A, fun s => BitVec.ofNat 64 s.core.regs.rascnt),
  (0x01B, fun s => s.core.regs.rasn.setWidth 64), (0x02A, fun s => (s.core.regs.ras[10]?.getD 0).setWidth 64)]

end Sys2Proof.Claims

/-- 14 R326 to R328; 02 R50: SRRD reads the system register it names; SRWR writes it for the bundles after
its own, or at once for those of the handler, and a read-only one discards the write; a privileged register
is illegal outside the handler. -/
def Sys2Proof.Claims.SystemRegistersReadAndWrite : Prop :=
  (∀ r ∈ systemRegisters, ∀ (s : State) (hd : Hdr) (d : BitVec 6), Acts s hd { ds := [d] } →
    (s.core.cont.handler = true ∨ r.1.toNat < 0x10 → Gives (.srrd hd d r.1) s (s.sResult 14 d (r.2 s))) ∧
    (s.core.cont.handler = false → 0x10 ≤ r.1.toNat → Gives (.srrd hd d r.1) s s.illegal)) ∧
  (∀ (s : State) (hd : Hdr) (a : BitVec 6), Acts s hd { s := [a] } → s.core.cont.handler = true →
    let x := s.s! a
    let y := s.core.sys
    Gives (.srwr hd 0x011 a) s (s.setSys { y with epc := BitVec.ofNat 32 x.toNat }) ∧
    Gives (.srwr hd 0x017 a) s (s.setSys { y with hact := BitVec.ofNat 8 x.toNat }) ∧
    Gives (.srwr hd 0x018 a) s (s.setSys { y with subslot := BitVec.ofNat 32 x.toNat }) ∧
    Gives (.srwr hd 0x01A a) s (s.later (.rascnt (min 32 x.toNat))) ∧
    Gives (.srwr hd 0x01B a) s (s.later (.rasn (BitVec.ofNat 8 x.toNat))) ∧
    Gives (.srwr hd 0x010 a) s s ∧ Gives (.srwr hd 0x013 a) s s ∧ Gives (.srwr hd 0x005 a) s s) ∧
  ∀ (s : State) (hd : Hdr) (r : BitVec 10) (a : BitVec 6), Acts s hd { s := [a] } →
    Gives (.srwr hd 0 a) s (s.later (.fpst (BitVec.ofNat 6 (s.s! a).toNat))) ∧
    (s.core.cont.handler = false → r ≠ 0 → srListed r.toNat = true → Gives (.srwr hd r a) s s.illegal)

/-- 14 R320, R321, R326: the privileged slots are illegal outside the handler, and change nothing else. -/
def Sys2Proof.Claims.PrivilegedSlotsAreIllegalOutsideTheHandler : Prop :=
  ∀ (s : State) (hd : Hdr) (d a b : BitVec 6) (e : BitVec 4), s.core.cont.handler = false →
    (Acts s hd { s := [a], ds := [d] } → Gives (.eqrd hd d e a) s s.illegal) ∧
    (Acts s hd { s := [a, b] } → Gives (.eqwr hd e a b) s s.illegal ∧ Gives (.tlbinv hd a b) s s.illegal) ∧
    (Acts s hd {} → Gives (.btinv hd) s s.illegal ∧ Gives (.eret hd) s s.illegal ∧ Gives (.eretS hd) s s.illegal)

/-- 14 R326 to R328: system registers read and write as tabled, and the privileged slots are illegal outside
the handler. -/
def Obligations.SystemAndPrivilegedSlotsCheckTheirMode : Prop :=
  Claims.SystemRegistersReadAndWrite ∧ Claims.PrivilegedSlotsAreIllegalOutsideTheHandler

/-- 01 R33; 04 R75; 08 R168; 14 R326; 15 R333: ICINV drops the old words of its lines from the instruction caches of
its scope, its core's, its cluster's or every one, once its stores are visible there, and the lines that fail in
them; BTINV makes the ports use the tables as memory holds them; TLBINV
removes every translation of the tenant for its range; none of them changes a byte of memory. -/
def Obligations.InvalidationsDropWhatTheirRangeNames : Prop :=
  (∀ (s : State) (hd : Hdr) (a b : BitVec 6) (j : Job) (bf : Buf) (k : Nat), Acts s hd { s := [a, b] } →
    let p := s.s! a
    let n := (s.s! b).toNat
    (n = 0 → ∀ c : BitVec 2, c ≠ 3 → Gives (.icinv hd c a b) s s) ∧
    (∀ c : BitVec 2, c ≠ 3 → 0 < n → n ≤ 65536 - bf.va (ptrOff p) % 65536 → s.job! = some j →
      s.check j s.osize needX true (ptrIx p) (ptrOff p) n = .ok (.buf bf) →
      s.pureKey j.tenant.toNat bf.tier (bf.va (ptrOff p)) = .ok k →
      let hit (key : Nat) : Prop := k / 64 * 64 ≤ key ∧ key < (k + n + 63) / 64 * 64
      (s.storesOwed c.toNat = true → Gives (.icinv hd c a b) s s.stall) ∧
      (s.storesOwed c.toNat = false → ∃ t, Gives (.icinv hd c a b) s t ∧ t.mem = { s.mem with icOld := t.mem.icOld } ∧
        t.core = { s.core with store := { s.core.store with bad := t.core.store.bad } } ∧
        (c = 2 → ∀ o, o ∈ t.mem.icOld ↔ o ∈ s.mem.icOld ∧ ¬ hit o.key) ∧
        (c ≠ 2 → ∀ cores, cores = (if c = 0 then [s.core.id] else clusterCores (s.core.id / 24)) →
          t.mem.icOld.length = s.mem.icOld.length ∧
          ∀ (i : Nat) (o : OldWord), s.mem.icOld[i]? = some o → ∃ q : OldWord, t.mem.icOld[i]? = some q ∧ q.key = o.key ∧ q.word = o.word ∧
            (hit o.key → q.dropped = o.dropped ++ cores) ∧ (¬ hit o.key → q = o)) ∧
        ∀ l, BadPlace.code s.core.id l ∈ t.core.store.bad ↔
          BadPlace.code s.core.id l ∈ s.core.store.bad ∧ ¬ hit (64 * l)))) ∧
  (∀ (s : State) (hd : Hdr) (j : Job), Acts s hd {} → s.core.cont.handler = true → s.mem.chanHeld = [] →
    s.job! = some j → (∀ m ∈ s.host.retpc, m = 0) →
    ∃ t, Gives (.btinv hd) s t ∧ t.mem.cells = s.mem.cells ∧ t.core = s.core ∧
      ∀ x, j.btab ≤ x → x < j.btab + 32 * (j.btn + 1) → t.rdPort x 1 = s.rd x 1) ∧
  ∀ (s : State) (hd : Hdr) (a b : BitVec 6) (j : Job), Acts s hd { s := [a, b] } → s.core.cont.handler = true →
    s.job! = some j →
    let va := (s.s! a).toNat % 2 ^ 48
    let n := (s.s! b).toNat
    ∃ t, Gives (.tlbinv hd a b) s t ∧ t.mem.cells = s.mem.cells ∧ t.core = s.core ∧
      ∀ e, e ∈ t.mem.tlb ↔ e ∈ s.mem.tlb ∧
        ¬ (e.tenant = j.tenant.toNat ∧ (n = 0 ∨ (e.va < va + n ∧ va < e.va + e.size)))

/-- 14 R319, R320: EQRD, in handler mode, holds an engine whose head stands between two pieces and that no other
core holds: it writes the images of the job's commands where its pointer leads, in the core's storage or in
memory, and s[d] is their number; while another core holds the engine, or a piece is under way, it waits. That
s[d] has SRRD's latency, and that the device remembers the images that it has written, are the model's choice
(log 28). -/
def Sys2Proof.Claims.EqrdHoldsItsEngineAndWritesTheImages : Prop :=
  ∀ (s : State) (hd : Hdr) (d a : BitVec 6) (e : BitVec 4) (j : Job) (n x : Nat) (g : Engine) (cs : List (Cmd × Nat))
    (held : State) (pl : Place), Acts s hd { s := [a], ds := [d] } → s.core.cont.handler = true → s.core.id < 1152 →
    n = s.core.id / 288 * 16 + e.toNat → g = s.engine n →
    ((∃ h, g.holder = some h ∧ h ≠ s.core.id) ∨ g.between = false → Gives (.eqrd hd d e a) s s.stall) ∧
    ((∀ h, g.holder = some h → h = s.core.id) → g.between = true → s.job! = some j →
      cs = g.ofJob s.core.cont.job →
      x = (cs.zip (List.range cs.length)).foldl (fun x c => x + s.image c.1.1 c.1.2 * 2 ^ (1024 * c.2)) 0 →
      held = ({ s with units := { s.units with
        images := cs.map (fun c => (s.image c.1 c.2, c.1)) ++ s.units.images } } : State).setEngine n
          { g with holder := some s.core.id, shown := cs.map Prod.fst } →
      ptrOff (s.s! a) % 128 = 0 →
      s.check j s.osize needW true (ptrIx (s.s! a)) (ptrOff (s.s! a)) 4096 = .ok pl →
      s.observe (some s.core.id) (entriesOf s.core.regs.view) = .ok →
      s.earlier s.core.cont.recPa s.nextId (s.places s.core.id j s.core.object.ptr (s.s! a) 4096) = false →
      (held.engine n).holder = some s.core.id ∧ (held.engine n).queue = g.queue ∧ held.mem = s.mem ∧ held.core = s.core ∧
      (∀ ix, pl = .core ix → s.heldByX (ptrIx (s.s! a)) (ptrOff (s.s! a)) (128 * cs.length) = false →
        Gives (.eqrd hd d e a) s ((held.setStore (s.core.store.write (ptrIx (s.s! a)) (ptrOff (s.s! a))
          (128 * cs.length) x)).sResult 14 d (BitVec.ofNat 64 cs.length))) ∧
      ∀ b, pl = .buf b → b.tier ≠ 3 → ∀ ks,
        s.pureKeys j.tenant.toNat b.tier (b.pieces (ptrOff (s.s! a)) 4096) = .ok ks →
        (s.askWalks j.tenant.toNat b.tier (b.pieces (ptrOff (s.s! a)) 4096)).2 = false →
        s.portHeld b (ptrOff (s.s! a)) 4096 ks = false →
        Gives (.eqrd hd d e a) s ((held.wrThrough (takeSpans (128 * cs.length) ks) x).sResult 14 d
          (BitVec.ofNat 64 cs.length)))

/-- 14 R319, R321: EQWR, in handler mode, rebuilds the job's commands of an engine that its core holds, in the order
of the images that it reads, and releases the engine; an image whose SEAL does not hold, and two images that are
the same, are illegal; one of an earlier EQRD goes on from what it says. That a SEAL holds exactly for what this
device has written is the model's choice (log 28). -/
def Sys2Proof.Claims.EqwrRebuildsAndReleasesItsEngine : Prop :=
  ∀ (s : State) (hd : Hdr) (a b : BitVec 6) (e : BitVec 4) (j : Job) (n kept k : Nat), Acts s hd { s := [a, b] } →
    s.core.cont.handler = true → n = s.core.id / 288 * 16 + e.toNat → k = (s.s! b).toNat →
    kept = ((s.engine n).queue.filter fun c => decide (c.job ≠ s.core.cont.job)).length →
    ((s.engine n).holder ≠ some s.core.id ∨ 32 < k ∨ 32 < kept + k → Gives (.eqwr hd e a b) s s.illegal) ∧
    ((s.engine n).holder = some s.core.id → k ≤ 32 → kept + k ≤ 32 → s.job! = some j →
      (k = 0 → Gives (.eqwr hd e a b) s (s.rebuild n [])) ∧
      ∀ t x u, k ≠ 0 → s.syncRead needR 1 (s.s! a) (128 * k) 0 = .ok t x →
        (∀ cs, t.imagesOf j (rows x 0 128 k) = (u, .ok cs) → Gives (.eqwr hd e a b) s (u.rebuild n cs)) ∧
        (∀ c, t.imagesOf j (rows x 0 128 k) = (u, .error c) → Gives (.eqwr hd e a b) s (u.fail c 0 0)) ∧
        (∀ y ∈ rows x 0 128 k, (∀ i ∈ t.units.images, sameImage i.1 y = false) →
          t.imagesOf j (rows x 0 128 k) = (t, .error .illegalOp)))

/-- 14 R319 to R321: EQRD holds an engine between two pieces, writes the images of the job's commands and
gives their number; EQWR rebuilds the job's commands of an engine that its core holds and releases it. Which
images a SEAL holds for, and EQRD's latency, are the model's choice (log 28). -/
def Obligations.HeldEnginesAreReadAndRebuilt : Prop :=
  Claims.EqrdHoldsItsEngineAndWritesTheImages ∧ Claims.EqwrRebuildsAndReleasesItsEngine

/-! ### The step -/

namespace Sys2Proof.Claims

/-- The turn is the bundle of the free continuation on a core, nothing stands in its way before its slots
issue (04 R85), and its words decode to one slot alone; `t` is the device as that slot finds it. -/
def Fetches (s : State) (id : Nat) (i : Instr) (t : State) : Prop :=
  ∃ (v l : State) (o : ObjInfo) (ws : List SlotWord) (j : Job) (b : Buf) (p : Word) (ks : List (Nat × Nat)),
    s.tock.turn = some (.bundle id) ∧ v = (s.tock.focus id).startBundle ∧ l = { v with core := v.core.landDue v.tick } ∧
    o = l.core.object ∧ v.core.id = id ∧ v.core.cont.gsize = 0 ∧ v.core.cont.member = 0 ∧
    (v.core.cont.handler = true ∨ v.core.cont.stretch < v.core.cont.run) ∧
    (v.core.cont.handler = true ∨ v.molcDue id = false) ∧ v.badLandings = [] ∧
    l.core.pipe.pc.toNat % 4 = 0 ∧ l.core.pipe.pc.toNat < o.codelen ∧ l.core.sys.armed = none ∧
    takeBundle 8 (l.fetchWords o l.core.pipe.pc.toNat) = some ws ∧ l.dlyOverrun ws = false ∧
    l.job! = some j ∧ p = o.codePtr l.core.pipe.pc.toNat ∧
    l.check j o.osize needX true (ptrIx p) (ptrOff p) (4 * ws.length) = .ok (.buf b) ∧ b.tier ≠ 3 ∧
    l.pureKeys j.tenant.toNat b.tier (b.pieces (ptrOff p) (4 * ws.length)) = .ok ks ∧
    (l.askWalks j.tenant.toNat b.tier (b.pieces (ptrOff p) (4 * ws.length))).2 = false ∧
    l.portHeld b (ptrOff p) (4 * ws.length) ks = false ∧ l.coreBad id ks = false ∧ l.codeBad ks = false ∧
    decodeBundle ws = .ok [(0, i)] ∧ l.badIndexes ws = [] ∧
    t = l.setPipe { l.core.pipe with
      bundle := [(0, i)], npc := l.core.pipe.pc + BitVec.ofNat 32 (4 * ws.length), slot := 0, status := .ok, fails := [] }

/-- The end of a bundle that the continuation has issued: its effects hold, its results are in flight, the
links that count bundles count it, its cycles are counted and the next bundle follows (04 R84; 11 R252). -/
def ended (s : State) (handler : Bool) : State :=
  (if handler = true then s.commit else s.commit.countBundle).endBundle handler

/-- What a step leaves of an act: where the act has met a held port, nothing (08 R171, R177; 15 R337). -/
abbrev stepped (s t : State) : State := (s.tock.unlessWaits t).endPrq

end Sys2Proof.Claims

/-- 04 R73 to R90; 14 R304: when the words at the program counter decode to one well-formed slot, a step
runs it: its effects hold at the end of its bundle, and the next bundle follows; a slot that fails a check
traps with the state otherwise as before it; a slot that waits leaves its bundle to issue again; a slot that
acts after every other acts once the bundle's effects hold, unless a result that it would wait for fails its
check value, for which the bundle traps instead (14 R305; the model's choice, log 13). -/
def Obligations.StepRunsTheDecodedInstruction : Prop :=
  ∀ (s t : State) (id : Nat) (i : Instr), Fetches s id i t →
    (∀ y, exec i t = .next y → y.core.id = id → y.core.pipe.fails = [] → Instr.whole i = false →
      y.core.pipe.status = .ok → y.core.cont.handler = t.core.cont.handler →
      step s = .next (stepped s (ended y t.core.cont.handler))) ∧
    (∀ y y', exec i t = .next y → y.core.id = id → y.core.pipe.fails ≠ [] →
      exec i (t.setPipe { t.core.pipe with also := 0, alsoG := 1 }) = .next y' → step s = .next (stepped s y')) ∧
    (∀ y, exec i t = .next y → y.core.id = id → y.core.pipe.fails = [] → y.core.pipe.status = .stalled →
      step s = .next (stepped s (y.held id))) ∧
    (∀ y y' w, exec i t = .next y → y.core.id = id → y.core.pipe.fails = [] → Instr.whole i = true →
      y.core.pipe.status ≠ .stalled →
      w = (if t.core.cont.handler = true then t.commit else t.commit.countBundle) →
      exec i (w.setPipe { w.core.pipe with slot := 0, status := .ok, fails := [], xl := none }) = .next y' →
      y'.core.pipe.fails = [] → y'.core.pipe.status ≠ .stalled →
      (t.awaited y' = [] → step s = .next (stepped s (y'.endBundle t.core.cont.handler))) ∧
      (t.awaited y' ≠ [] → step s = .next (stepped s (t.landingTrap true (t.awaited y')))))

/-- The model's choice (log 1): a step is the act of the one agent whose turn it is; with none that can act
only time passes. An event in flight acts with its row's meaning. -/
def Obligations.StepActsForTheAgentInTurn : Prop :=
  (∀ s : State, s.tock.turn = none → step s = .next s.tock) ∧
  (∀ (s : State) (n : Nat) (e : Event) (t : State), s.tock.turn = some (.agenda n) → s.agenda[n]? = some e →
    runEvent e { s.tock with agenda := s.agenda.eraseIdx n } = .next t → step s = .next (stepped s t)) ∧
  (∀ (s : State) (e : Event) (t : State), s.tock.turn = some (.event e) → runEvent e s.tock = .next t →
    step s = .next (stepped s t)) ∧
  ∀ s : State, s.host.ready = true → s.host.fatal = false → ∀ n < s.agenda.length, .agenda n ∈ s.tock.turns

/-- The model's liveness (00 R9; every trap, failed access and refusal of the manual has an effect): a step
from any state answers a next state; no meaning of the model faults or refuses. -/
def Obligations.EveryStepContinues : Prop := ∀ s : State, s.Safe

/-- Log 3: memory is listed in one canonical form, which every step keeps, from every state that has it. -/
def Obligations.StepKeepsMemoryCanonical : Prop :=
  ∀ s t : State, Memory.wf s.mem = true → step s = .next t → Memory.wf t.mem = true

/-- 00 R9: reads and writes of memory are little-endian; a read gives the bytes last written and a write
leaves every other byte as it was, in every canonical memory. -/
def Obligations.MemoryReadsGiveTheBytesLastWritten : Prop :=
  ∀ (s : State) (key n x : Nat), Memory.wf s.mem = true →
    (s.wr key n x).rd key n = x % 256 ^ n ∧
    (∀ a, a < key ∨ key + n ≤ a → Cells.get (s.wr key n x).mem.cells a = Cells.get s.mem.cells a) ∧
    (∀ i < n, Cells.get (s.wr key n x).mem.cells (key + i) = BitVec.ofNat 8 (x / 256 ^ i)) ∧
    (s.wr key n x).core = s.core ∧ (s.wr key n x).units = s.units ∧ (s.wr key n x).host = s.host

/-- 03 R52; 05 R95 to R97; 08 R165; 14 R328; 15 R329, R336: after reset no job exists and nothing is in
flight, every token is zero, no stream is bound, every bank format register holds format 0 with the identity
table, the host registers that the manual gives a value hold it, memory lists nothing, and power-up has not
begun; a scalar register reads 0 after reset (log 2 for the registers whose reset value the manual leaves
open). -/
def Obligations.ResetStateHoldsTheStatedValues : Prop :=
  let s := State.reset
  Memory.wf s.mem = true ∧ s.mem.cells = [] ∧ s.sched.jobs = [] ∧ s.sched.recs = [] ∧ s.agenda = [] ∧
  s.core.phase = .idle ∧ s.core.pipe.posts = [] ∧ s.core.pipe.land = [] ∧ s.core.cont.handler = false ∧
  (∀ t < 34, s.core.regs.tok t = ⟨0, 0, false, false, 0⟩) ∧ (∀ q < 8, s.core.regs.q[q]? = some none) ∧
  (∀ b < 48, s.core.regs.fmt[b]? = some ⟨0, 0xFEDCBA9876543210⟩) ∧ (∀ r < 72, s.core.regs.s[r]? = some 0) ∧
  s.core.regs.fpst = 0 ∧ s.core.regs.view = 0 ∧ s.core.regs.rascnt = 0 ∧ s.core.regs.marks = [] ∧
  s.host.sqhead = 0 ∧ s.host.rqtail = 0 ∧ s.host.ready = false ∧ s.host.fatal = false ∧ s.host.failcode = 0 ∧
  s.host.phase = 0 ∧ s.host.dumped = false

/-! ### The life of a continuation -/

/-- 04 R85, R90; 10 R233; 14 R322: the front end of a bundle: it starts with nothing of the last one, a
stretch that has reached its stated run freezes by RUN_OVERRUN, a link open longer than MOLC cancels the
chains and freezes likewise, and the results that are due land, unless one fails its check value, for which the
bundle traps (14 R305; which bundle a result that lands early traps is the model's choice, log 13). -/
def Obligations.TheFrontEndChecksInOrder : Prop :=
  ∀ s : State,
    (s.core.cont.handler = false → s.core.cont.run ≤ s.core.cont.stretch →
      Gives .runOverrun s s.overrun) ∧
    (s.core.cont.handler = true ∨ s.core.cont.stretch < s.core.cont.run → Gives .runOverrun s s) ∧
    (s.core.cont.handler = false → s.core.cont.gsize = 0 → s.molcDue s.core.id = true →
      Gives .molcExpiry s (s.cancelChains s.core.id s.core.cont.recPa).overrun) ∧
    (s.core.cont.handler = true → Gives .molcExpiry s s) ∧
    (∃ t, Gives .resultLanding s t ∧ t.mem = s.mem ∧
      t.core.pipe.land.map (fun l => (l.due, l.write, l.bad)) =
        (s.core.pipe.land.filter fun l => decide (s.core.pipe.now < l.due)).map (fun l => (l.due, l.write, l.bad)) ∧
      (∀ l, s.core.pipe.land = [l] → l.due ≤ s.core.pipe.now → l.bad = none → l.amb = [] →
        s.core.pipe.posts = [] → s.core.pipe.soft = [] → t.core.regs = s.core.regs.apply l.write)) ∧
    (∀ t v, v = s.startBundle → v.core.cont.handler = false → v.core.cont.run ≤ v.core.cont.stretch →
      v.overrun.core.pipe.status ≠ .ok → (Gives .bundleIssue s t ↔ t = v.overrun)) ∧
    ∀ v, v = s.startBundle → v.core.cont.handler = true →
      (v.badLandings = [] → Gives .bundleIssue s ({ v with core := v.core.landDue v.tick } : State).fetchBundle) ∧
      (v.badLandings ≠ [] → (v.landingTrap false v.badLandings).core.pipe.status ≠ .ok →
        Gives .bundleIssue s (v.landingTrap false v.badLandings))

/-- 03 R61 to R67; 05 R97; 14 R317: an idle core takes the record that its scheduler chooses: the
continuation runs at the record's PC, a first dispatch with its two arguments and every other register of
R97, and the record is RUNNING. -/
def Obligations.DispatchStartsTheChosenRecord : Prop :=
  (∀ (s : State) (j : Job) (r : Rec) (o : ObjInfo) (core : Nat), s.owner? (core / 24) = some j →
    (∀ q ∈ s.candidates (core / 24), s.gsizeOf q.pa = 0) → (s.coreOf core).phase = .idle →
    (s.usable (core / 24)).contains core = true → s.choose j core = some (r, [core]) → s.job? r.job = some j →
    s.recordOk j r = true → s.dispatchObj j (s.fieldOf r.pa 0 47 32) = (s, o) → s.gsizeOf r.pa = 0 →
    Memory.wf s.mem = true →
    ∃ t, Gives (.dispatch core) s t ∧ (t.coreOf core).phase = .running ∧ (t.coreOf core).cont.recPa = r.pa ∧
      (t.coreOf core).cont.obj = o ∧ (t.coreOf core).cont.handler = false ∧
      (t.coreOf core).pipe.pc = BitVec.ofNat 32 (s.word r.pa 0) ∧ t.recState r.pa = csRunning ∧
      (s.fieldOf r.pa 0x10 15 5 = 0x7FF → (t.coreOf core).regs.s[1]? = some (BitVec.ofNat 64 (s.word r.pa 0x18)) ∧
        (t.coreOf core).regs.s[2]? = some (BitVec.ofNat 64 (s.word r.pa 0x20)) ∧
        (∀ k, 3 ≤ k → k < 64 → (t.coreOf core).regs.s[k]? = some 0) ∧ (t.coreOf core).regs.fpst = 0 ∧
        ∀ k < 32, (t.coreOf core).regs.tok k = Token.zero)) ∧
  (∀ (s : State) (j : Job) (r : Rec) (c : Nat) (cs cores : List Nat), s.rec? r.pa = some r → s.job? r.job = some j →
    s.idle r.cluster = c :: cs → s.choose j c = some (r, cores) →
    Gives (.gangDispatch r.pa) s (s.dispatchOn r cores)) ∧
  ∀ (s : State) (core : Nat), s.owner? (core / 24) = none → Gives (.dispatch core) s s

/-- 03 R70; 06 R123, R125; 13 R292; 15 R330, R331: a WAITING record whose wait is satisfied becomes READY, a gang
that no owned cluster can hold FROZEN, and one whose launch is to be cancelled RETIRED; a drain
that has ended retires its record, unless a cancel has still to act on it; a retired continuation is counted at its
launch once everything it issued has ended; a cancel drains a continuation on a core with its cause, one that drains
an EXIT among them. -/
def Obligations.WaitsDrainsAndRetirementsEnd : Prop :=
  (∀ (s : State) (r : Rec) (j : Job), s.rec? r.pa = some r → s.job? r.job = some j → r.retired = false →
    s.recState r.pa = csWaiting → Memory.wf s.mem = true →
    (s.creq r.launch = false → s.waitMet j r = true →
      s.gsizeOf r.pa = 0 ∨ s.gsizeOf r.pa ≤ (s.usable r.cluster).length →
      ∃ t, Gives (.suspendedWaitSatisfied r.pa) s t ∧ t.recState r.pa = csReady) ∧
    (s.creq r.launch = false → s.waitMet j r = true → s.gsizeOf r.pa ≠ 0 →
      (∀ c, c = r.cluster ∨ c ∈ j.owned → (s.usable c).length < s.gsizeOf r.pa) →
      r.launch + 8 ≤ r.pa ∨ r.pa + 64 ≤ r.launch →
      ∃ t, Gives (.suspendedWaitSatisfied r.pa) s t ∧ t.recState r.pa = csFrozen) ∧
    (s.creq r.launch = false → s.waitMet j r = false →
      Gives (.suspendedWaitSatisfied r.pa) s (s.push (.suspendedWaitSatisfied r.pa))) ∧
    (s.creq r.launch = true → Gives (.suspendedWaitSatisfied r.pa) s
      (if r.posts = [] then s.retireRec r.pa 4 0x14 else s))) ∧
  (∀ (s : State), s.core.phase = .draining →
    (s.drained = true → .cancelStop s.core.id ∉ s.agenda →
      Gives (.exitDrainComplete s.core.id) s (s.retireNow.focus s.core.id)) ∧
    (s.drained = false ∨ .cancelStop s.core.id ∈ s.agenda → Gives (.exitDrainComplete s.core.id) s
      ((s.push (.exitDrainComplete s.core.id)).focus s.core.id))) ∧
  (∀ (s : State) (r : Rec), s.sched.recs.find? (fun q => decide (q.pa = r.pa) && q.retired) = some r →
    ((s.cancelTriggers r.pa).settled r = false →
      Gives (.retirementDecrement r.pa) s ((s.cancelTriggers r.pa).push (.retirementDecrement r.pa))) ∧
    ((s.cancelTriggers r.pa).settled r = true → ∀ u, u = s.cancelTriggers r.pa →
      Gives (.retirementDecrement r.pa) s (({ u with sched := { u.sched with
        recs := u.sched.recs.filter fun q => !(decide (q.pa = r.pa) && q.retired) } } : State).doTodos
          [.childEnded r.launch r.done]))) ∧
  (∀ s : State, s.core.phase = .idle → Gives (.cancelStop s.core.id) s s) ∧
  (∀ s : State, s.creq s.core.cont.launch = false → Gives (.cancelStop s.core.id) s s) ∧
  ∀ s : State, s.core.phase ≠ .idle → s.core.cont.gsize = 0 → s.creq s.core.cont.launch = true → ∃ t, Gives (.cancelStop s.core.id) s t ∧
    t.core.phase = .draining ∧ t.core.cont.rstat = 4 ∧ t.core.cont.rcause = 0x14 ∧ t.core.cont.handler = false

/-- 06 R124: a SPAWN's record is written once its spawner's earlier stores are visible: a slot that is
neither FREE nor RETIRED fails with BUF_RIGHTS; the record of a launch whose cancel is requested is written
RETIRED, and the token posts; else COUNT of the launch rises by 1, LIC stands in the frame, and the record is READY
with PC, RUN and LIX of its entry, the spawner's COBJ, STRICT and DEBUG, and UNIT, RANK and ARG0 of the slot. -/
def Sys2Proof.Claims.SpawnWritesItsRecordOnce : Prop :=
  ∀ (s t : State) (p : SpawnOp) (j : Job) (pa : Nat), s.job? p.job = some j →
    (s.spawnReady p = false → Gives (.spawnRecordWrite p) s (s.push (.spawnRecordWrite p))) ∧
    (s.spawnReady p = true → s.recordKey j p.slotPtr 64 = (t, .ok pa) →
      (t.recState pa ≠ 0 → t.recState pa ≠ csRetired →
        Gives (.spawnRecordWrite p) s (t.endSpawn p (some (.bufRights, p.slotPtr, 0)))) ∧
      (t.recState pa = 0 ∨ t.recState pa = csRetired → t.rec? pa = none →
        Gives (.spawnRecordWrite p) s (t.writeSpawn p j pa) ∧
        (t.creq p.launch = true → Memory.wf t.mem = true → (t.writeSpawn p j pa).recState pa = csRetired ∧
          (t.writeSpawn p j pa).fieldOf pa 0 59 56 = 4 ∧
          .tokenedOperationComplete ⟨p.core, p.recPa, p.post, [], none⟩ ∈ (t.writeSpawn p j pa).agenda) ∧
        ∀ (u : State) (k h x : Nat) (o : ObjInfo) (e : Entry), t.creq p.launch = false → Memory.wf t.mem = true →
          u = t.setField p.launch 0 31 0 (t.fieldOf p.launch 0 31 0 + 1) →
          u.resolve j needL (ptrAdd (BitVec.ofNat 64 (t.word pa 8)) 0x88) 8 = (u, .ok [(k, 8)]) →
          k + 8 ≤ pa ∨ pa + 64 ≤ k → p.launch + 8 ≤ pa ∨ pa + 64 ≤ p.launch → p.launch + 8 ≤ k ∨ k + 8 ≤ p.launch →
          j.objs.find? (fun q => decide (q.1 = p.cobj.toNat)) = some (h, x, o) → o.entries[p.entry]? = some e →
          ∃ v, Gives (.spawnRecordWrite p) s v ∧
            v.fieldOf p.launch 0 31 0 = (t.fieldOf p.launch 0 31 0 + 1) % 2 ^ 32 ∧
            v.rd k 8 = 256 * (p.interval + 1) % 2 ^ 64 ∧ v.recState pa = csReady ∧
            v.fieldOf pa 0 55 54 = 0 ∧ v.fieldOf pa 0 53 53 = p.strict.toNat ∧ v.fieldOf pa 0 52 52 = Bool.toNat p.debug ∧
            v.fieldOf pa 0 51 51 = 1 ∧ v.fieldOf pa 0 47 32 = p.cobj.toNat ∧ v.fieldOf pa 0 31 0 = e.pc % 2 ^ 32 ∧
            v.word pa 8 = t.word pa 8 ∧ v.fieldOf pa 0x10 63 32 = p.unit % 2 ^ 32 ∧
            v.fieldOf pa 0x10 31 16 = p.launchIx.toNat ∧ v.fieldOf pa 0x10 15 5 = 0x7FF ∧ v.gsizeOf pa = 0 ∧
            v.word pa 0x18 = p.arg0.toNat ∧ v.fieldOf pa 0x28 31 16 = e.lix % 2 ^ 16 ∧
            v.fieldOf pa 0x30 63 60 = p.rank % 16 ∧ v.runOf pa = e.run % 2 ^ 32 ∧
            .tokenedOperationComplete ⟨p.core, p.recPa, p.post, [], none⟩ ∈ v.agenda ∧
            ∃ q ∈ v.sched.recs, q.pa = pa ∧ q.launch = p.launch ∧ q.cluster = p.core / 24 ∧ q.retired = false))

/-- 05 R107; 14 R314: a tokened operation that completes while its continuation is off its core lands its
result and makes its post in the frame, once every earlier posting of its token has posted; until then it
changes nothing. -/
def Sys2Proof.Claims.RemoteCompletionsLandInTheFrame : Prop :=
  ∀ (s t : State) (c : Completion) (r : Rec) (id d : Nat) (p : Posting) (j : Job) (x : Nat),
    s.rec? c.recPa = some r → c.post = some id → r.posts.find? (fun q => decide (q.2.id = id)) = some (d, p) →
    s.job? r.job = some j → p.tok < 32 →
    let frame := BitVec.ofNat 64 (s.word r.pa 8)
    let at' := 1024 + 114688 * d
    let off := 0x3340 + 16 * p.tok
    let k := Token.ofWords (BitVec.ofNat 64 x) (BitVec.ofNat 64 (x / 2 ^ 64))
    (p.ready = false ∨ (∃ q, r.firstPost d p.tok = some q ∧ q.id ≠ id) → Gives (.remoteCompletion c) s s) ∧
    (p.ready = true → r.firstPost d p.tok = some p → p.image = none →
      s.rdPtr j needL (ptrAdd frame (at' + off)) 16 = (t, .ok x) → ∀ u q, t.landRemote j r d p frame = (u, q) →
      Gives (.remoteCompletion c) s ((u.wrPtr j needL (ptrAdd frame (at' + off)) 16
        ((k.post p.fault).word0.toNat + (k.post p.fault).word1.toNat * 2 ^ 64)).endRemote q d p))

/-- 06 R124; 14 R314: the record of a SPAWN and the results of a continuation off its core. -/
def Obligations.SpawnsAndRemoteCompletionsReachMemory : Prop :=
  Claims.SpawnWritesItsRecordOnce ∧ Claims.RemoteCompletionsLandInTheFrame

/-! ### The X unit -/

namespace Sys2Proof.Claims

/-- An instance's link j is open at its starting value, minus zero in every element, in slot k of the focused
core, and the instance is the core's current one of its chain number (10 R224, R238; 11 R252). -/
abbrev OpenAtStart (t : State) (n : Chain) (j k : Nat) (spl : Bool) : Prop :=
  ∃ c, t.chain? n.job n.ch n.inst = some c ∧
    (∃ gen, c.link? j =
      some ⟨j, 1, t.core.id, k, t.core.cont.recPa, true, 0, 0, 0, false, spl, 0, 0, t.core.cont.cycles, [], gen⟩) ∧
    t.tile t.core.id k (c.width j) = List.replicate 1536 (if hop64 (c.hop j) = true then 2 ^ 63 else 2 ^ 31) ∧
    t.core.pipe.cur.find? (fun p => decide (p.1 = n.ch)) = some (n.ch, n.inst)

/-- A message has gone to a device: into the agenda when it is this one (log 10). -/
abbrev Sent (s t : State) (dev : BitVec 14) (e : Event) : Prop :=
  (dev = s.devnum → e ∈ t.agenda) ∧ (dev ≠ s.devnum → (dev, e) ∈ t.outbox)

/-- The posting of a slot that names a token, and none of one that does not (05 R107). -/
def PostsOf (s t : State) (tok : Option Nat) (dsts : List Dst) (post : Option Nat) : Prop :=
  (tok = none → post = none ∧ t.core.pipe.posts = s.core.pipe.posts) ∧
  ∀ k, tok = some k → ∃ p : Posting, post = some p.id ∧ p.tok = s.core.tIx k ∧ p.cover = s.core.nextCover p.tok ∧
    p.dst = dsts ∧ p.ready = false ∧ t.core.pipe.posts = s.core.pipe.posts ++ [p]

/-- A slot has entered the X queue of its core behind every earlier one, with its posting (10 R219, R220). -/
def Queues (s t : State) (hd : Hdr) (i : Instr) (a b : Word) (x : BitVec 48) (y : BitVec 32) (fmts : List BankFmt)
    (dsts : List Dst) (wi : List Word) (seq : Nat) (c : Chain) (l : Link) : Prop :=
  ∃ e : XEntry, t.core.pipe.xq = s.core.pipe.xq ++ [e] ∧ e.instr = i ∧ e.a = a ∧ e.b = b ∧ e.x = x ∧ e.y = y ∧
    e.fmts = fmts ∧ e.wi = wi ∧ e.seq = seq ∧ e.ch = c.ch ∧ e.inst = c.inst ∧ e.idx = l.idx ∧
    e.gen = l.gen ∧ e.recPa = s.core.cont.recPa ∧ e.pc = s.core.pipe.pc ∧ e.slot = s.core.pipe.slot ∧
    PostsOf s t (Hdr.tok hd) dsts e.post ∧
    (s.core.pipe.xq = [] → headEvent s.core.id i ∈ t.agenda) ∧
    t.mem = s.mem ∧ t.core.regs = s.core.regs ∧ t.core.sys = s.core.sys ∧ t.core.store = s.core.store ∧
    t.parked = s.parked ∧ { t.sched with recs := s.sched.recs } = s.sched ∧ (seq = 0 → t.sched = s.sched) ∧
    t.host = s.host

/-- The matrix slots by the form of their left operand (11 R245). -/
def matrixSlots : List ((Hdr → BitVec 4 → BitVec 6 → BitVec 6 → Instr) × LeftForm) :=
  [(.mxa, .rows), (.mxg, .gathered), (.mxt, .columns)]

/-- The head of a core's X queue may act on its link (10 R236). -/
abbrev AtHead (s : State) (core : Nat) (e : XEntry) (es : List XEntry) (c : Chain) (l : Link) : Prop :=
  (s.coreOf core).pipe.xq = e :: es ∧ s.headLink core e = .ok (c, l)

/-- The head has left the queue, and its token, if it has one, posts. -/
def LeftQueue (t : State) (core : Nat) (e : XEntry) (es : List XEntry) (ws : List Write) (f : Option Cause) : Prop :=
  (t.coreOf core).pipe.xq = es ∧ ∀ p, e.post = some p → ∃ pf : Option PFault, pf.map PFault.cause = f ∧
    .tokenedOperationComplete ⟨core, e.recPa, some p, ws, pf⟩ ∈ t.agenda

end Sys2Proof.Claims

/-- 01 R19; 10 R224, R225, R238; 11 R252, R253: CHB opens its link at minus zero on the slot that it names, and
counts it open, and the messages held for it act; a second binding of an index, or one with another digest,
freezes the instance, opens no slot (log 29) and asks an arbiter on another device to freeze it (log 23), which are
the model's choices; CHS opens a FAULTED or LOST link of a FROZEN instance anew on its own core and slot,
marked spliced, and traps ILLEGAL_OP elsewhere; both are illegal in handler mode and in an object whose MOLC
is 0. -/
def Sys2Proof.Claims.BindingsAndSplicesOpenLinks : Prop :=
  (∀ (s u : State) (hd : Hdr) (k : BitVec 4) (a : BitVec 6) (n : Chain), Acts s hd { s := [a] } →
    s.core.cont.handler = false → s.core.cont.obj.molc ≠ 0 → s.hopTable hd k a = .inr (u, n) →
    ∀ quiet : Prop, quiet = ((∀ e ∈ u.units.hopPort, eventChain e ≠ some (n.ch, n.inst)) ∧
      ∀ c, u.chain? n.job n.ch n.inst = some c → 2 ≤ c.state ∨ c.held = []) →
    ((∃ c ∈ u.units.chains, c.job = n.job ∧ c.ch = n.ch ∧ c.inst ≠ n.inst ∧
        ∃ l ∈ c.links, l.isOpen = true ∧ l.core = u.core.id) → Gives (.chb hd k a) s u.illegal) ∧
    ((∀ c ∈ u.units.chains, c.job = n.job → c.ch = n.ch → c.inst ≠ n.inst →
        ∀ l ∈ c.links, l.isOpen = true → l.core ≠ u.core.id) →
      (∀ b, u.chain? n.job n.ch n.inst = none ∧ b = n ∨ (∃ c, u.chain? n.job n.ch n.inst = some c ∧
          (2 ≤ c.state ∧ b = n ∨ c.state ≤ 1 ∧ c.digest = n.digest ∧ c.link? (Hdr.j hd) = none ∧ b = c)) →
        Gives (.chb hd k a) s (u.openSlot b (Hdr.j hd) k.toNat) ∧
        (quiet → ∀ t, t = u.openSlot b (Hdr.j hd) k.toNat → OpenAtStart t n (Hdr.j hd) k.toNat false ∧
          t.core.cont.openk = u.core.cont.openk + 1 ∧ t.core.regs = u.core.regs ∧ t.mem = u.mem)) ∧
      ∀ c, u.chain? n.job n.ch n.inst = some c → c.state ≤ 1 → c.digest ≠ n.digest ∨ c.link? (Hdr.j hd) ≠ none →
        ∃ t, Gives (.chb hd k a) s t ∧ t.core.regs = u.core.regs ∧ t.core.cont.openk = u.core.cont.openk ∧
          (c.arbDev = u.devnum → ∃ c', t.chain? n.job n.ch n.inst = some c' ∧ c'.state = 1) ∧
          (c.state = 0 → c.arbDev ≠ u.devnum → ∃ r : ArbReq, Sent u t c.arbDev (.arbiterRequest r) ∧
            r.kind = .freeze .chainFrozen none ∧ r.ch = n.ch ∧ r.inst = n.inst)) ∧
    ((u.chain? n.job n.ch n.inst = none → Gives (.chs hd k a) s u.illegal) ∧
      ∀ c, u.chain? n.job n.ch n.inst = some c → c.arbDev = u.devnum →
        (∀ l, c.digest = n.digest → c.link? (Hdr.j hd) = some l → c.state = 1 → l.state = 4 ∨ l.state = 5 →
          ∃ t, Gives (.chs hd k a) s t ∧ (quiet → OpenAtStart t n (Hdr.j hd) k.toNat true ∧ t.mem = u.mem)) ∧
        (c.digest ≠ n.digest ∨ c.link? (Hdr.j hd) = none → Gives (.chs hd k a) s u.illegal) ∧
        (c.state ≠ 1 → Gives (.chs hd k a) s u.illegal))) ∧
  ∀ (s : State) (hd : Hdr) (k : BitVec 4) (a : BitVec 6), Acts s hd { s := [a] } →
    s.core.cont.handler = true ∨ s.core.cont.obj.molc = 0 →
    Gives (.chb hd k a) s s.illegal ∧ Gives (.chs hd k a) s s.illegal

/-- 10 R235, R239, R240; 11 R242, R251, R256, R258, R259: at the arbiter of an instance, CHF freezes an
ACTIVE one, CHX retires every link of one that has not ended, CHT thaws a FROZEN one or reports the lowest
link in its way, and CHQ reports a link's state, of a link of another device as it last announced it (log 10), and of
the tail the union of the flags of every link; a chain number with no instance is illegal. EMS writes an
edge mask for the bundles after. -/
def Sys2Proof.Claims.ChainControlSlotsActAtTheArbiter : Prop :=
  (∀ (s : State) (hd : Hdr) (d a : BitVec 6) (ch : BitVec 10), s.current ch = none →
    (Acts s hd {} → Gives (.chf hd ch) s s.illegal ∧ Gives (.chx hd ch) s s.illegal) ∧
    (Acts s hd { ds := [d] } → Gives (.cht hd d ch) s s.illegal) ∧
    (Acts s hd { s := [a], ds := [d] } → ch = (s.s! a).setWidth 10 → Gives (.chq hd d a) s s.illegal)) ∧
  (∀ (s : State) (hd : Hdr) (d : BitVec 6) (ch : BitVec 10) (q : Chain), s.current ch = some q →
    q.arbDev = s.devnum →
    (Acts s hd {} → (∃ t, Gives (.chf hd ch) s t ∧ t.core.regs = s.core.regs ∧
        t.chain? q.job q.ch q.inst = some { q with state := if q.state = 0 then 1 else q.state }) ∧
      (q.state ≤ 1 → ∃ t c, Gives (.chx hd ch) s t ∧ t.chain? q.job q.ch q.inst = some c ∧ c.state = 3 ∧
        (∀ l ∈ c.links, l.state = 6 ∧ l.isOpen = false) ∧ t.core.regs = s.core.regs ∧ t.mem = s.mem) ∧
      (2 ≤ q.state → Gives (.chx hd ch) s s)) ∧
    (Acts s hd { ds := [d] } →
      (q.state = 0 → Gives (.cht hd d ch) s (s.sResult 15 d 0)) ∧
      (2 ≤ q.state → Gives (.cht hd d ch) s (s.sResult 15 d (BitVec.ofNat 64 (2 ^ 63 + 0x7F)))) ∧
      (∀ j, q.state = 1 → q.thawBlock = some j →
        Gives (.cht hd d ch) s (s.sResult 15 d (BitVec.ofNat 64 (2 ^ 63 + j)))) ∧
      (q.state = 1 → q.thawBlock = none → ∃ (u : State) (c : Chain), Gives (.cht hd d ch) s (u.sResult 15 d 0) ∧
        u.chain? q.job q.ch q.inst = some c ∧ c.state = 0))) ∧
  (∀ (s : State) (hd : Hdr) (d a : BitVec 6) (c : Chain) (l : Link) (j : Nat), Acts s hd { s := [a], ds := [d] } →
    s.current ((s.s! a).setWidth 10) = some c → j = bits (s.s! a).toNat 21 16 →
    (c.nlink ≤ j → Gives (.chq hd d a) s s.illegal) ∧
    (j < c.nlink → c.link? j = none → j ≠ c.tail →
      Gives (.chq hd d a) s (s.sResult 15 d (BitVec.ofNat 64 (c.state * 2 ^ 62 + c.wordOf j)))) ∧
    (j < c.nlink → j = c.tail → ∃ w : Word, Gives (.chq hd d a) s (s.sResult 15 d w) ∧ ∀ i < 6,
      (w.getLsbD (42 + i) = true ↔ (∃ q ∈ c.links, q.flags.getLsbD i = true) ∨
        ∃ p ∈ c.words, c.link? p.1 = none ∧ p.2.getLsbD (42 + i) = true)) ∧
    (j < c.nlink → c.link? j = some l → j ≠ c.tail → c.state < 4 → l.state < 8 → l.cause < 64 → l.arrived ≤ 4 →
      l.applied < 2 ^ 32 → ∃ w : Word, Gives (.chq hd d a) s (s.sResult 15 d w) ∧
        bits w.toNat 63 62 = c.state ∧ bits w.toNat 61 59 = l.state ∧ bits w.toNat 58 53 = l.cause ∧
        bits w.toNat 52 49 = 2 ^ l.arrived - 1 ∧ bits w.toNat 48 48 = l.spl.toNat ∧
        bits w.toNat 47 42 = l.flags.toNat ∧
        bits w.toNat 31 0 = if l.state = 4 ∨ l.state = 5 then 2 ^ 32 - 1 else l.applied)) ∧
  ∀ (s : State) (hd : Hdr) (y : BitVec 1) (n : BitVec 2) (a : BitVec 6),
    (Acts s hd { s := [a] } → Gives (.ems hd y n a) s (if n = 0 then s else if y = 1
      then s.later (.edgeY n.toNat ((s.s! a).setWidth 32)) else s.later (.edgeX n.toNat ((s.s! a).setWidth 48)))) ∧
    (Acts s hd {} → Gives (.emsN hd y n a) s (if n = 0 then s else if y = 1
      then s.later (.edgeY n.toNat (BitVec.ofNat 32 (2 ^ a.toNat - 1)))
      else s.later (.edgeX n.toNat (BitVec.ofNat 48 (2 ^ a.toNat - 1)))))

/-- 10 R224 to R240; 11 R251 to R259: the slots that bind, splice, freeze, cancel, thaw and query a chain. That a second
binding opens no slot (log 29), that a freeze goes to its arbiter as a request (log 23) and what is known of another
device's links (log 10) are the model's choice. -/
def Obligations.ChainSlotsActOnTheirInstance : Prop :=
  Claims.BindingsAndSplicesOpenLinks ∧ Claims.ChainControlSlotsActAtTheArbiter

/-- 10 R219 to R221, R226; 11 R245 to R247, R254, R255, R257: a queued X slot whose link is open on its own
continuation enters the queue with its operands, masks and formats sampled; a contribution is counted, one
too many is illegal; a starting value is given before any contribution; a close gives the witness of its
cluster's close agent, and the retirement of its continuation waits for that store (15 R330); a full queue stalls, or
traps while its head waits on a frozen chain. -/
def Obligations.QueuedSlotsEnterTheQueue : Prop :=
  ∀ (s : State) (hd : Hdr) (k : BitVec 4) (c : Chain) (l : Link), s.room? (Hdr.tok hd) = true →
    s.pOn hd = true → s.xLink k = some (c, l) →
    (∀ r ∈ matrixSlots, ∀ a b : BitVec 6, Free s { s := [a, b], w := [bits hd.c 3 0] } →
      (hopCount (c.hop l.idx) ≤ l.issued → Gives (r.1 hd k a b) s s.illegal) ∧
      ∀ f g, l.issued < hopCount (c.hop l.idx) → s.core.regs.matrixCheck r.2 hd (s.s! a) (s.s! b) = .ok (f, g) →
        (s.core.pipe.xq.length < 16 → ∃ t, Gives (r.1 hd k a b) s t ∧
          Queues s t hd (r.1 hd k a b) (s.s! a) (s.s! b) (s.core.xVal (bits hd.c 13 12))
            (s.core.yVal (bits hd.c 11 10)) [f, g] [] (s.wiOf (bits hd.c 3 0)) 0 c l ∧
          t.chain? c.job c.ch c.inst = some (c.setLink { l with issued := l.issued + 1 })) ∧
        (16 ≤ s.core.pipe.xq.length → (s.frozenHead = none → Gives (r.1 hd k a b) s s.stall) ∧
          ∀ q, s.frozenHead = some q → Gives (r.1 hd k a b) s (s.fail .xQueueFull (q.setWidth 64) 0))) ∧
    (s.core.pipe.xq.length < 16 →
      (∀ a : BitVec 6, Free s { s := [a], w := [bits hd.c 11 8] } → c.mayStart l = true →
        tileFits (Hdr.transferIx hd) (lo32 (s.s! a)) (c.width l.idx) = true → ∃ t, Gives (.lkld hd k a) s t ∧
        Queues s t hd (.lkld hd k a) (s.s! a) 0 0 0 [] [] (s.wiOf (bits hd.c 11 8)) 0 c l ∧ t.units = s.units) ∧
      (Free s {} → c.mayStart l = true → ∃ t, Gives (.lkz hd k) s t ∧
        Queues s t hd (.lkz hd k) 0 0 0 0 [] [] [] 0 c l ∧ t.units = s.units) ∧
      (∀ d a : BitVec 6, Free s { s := [a], ds := [d] } →
        tileFits (Hdr.transferIx hd) (lo32 (s.s! a)) (c.width l.idx) = true → ∃ t, Gives (.lkrd hd d k a) s t ∧
        Queues s t hd (.lkrd hd d k a) (s.s! a) (BitVec.ofNat 64 (s.sDst d)) 0 0 []
          (if d = 0 then [] else [⟨0, s.sDst d⟩]) [] 0 c l ∧ t.units = s.units) ∧
      ∀ (a b : BitVec 6) (f : BankFmt) (ix ag : Nat), Free s { s := [a, b], dw := [bits hd.c 9 6] } →
        hopSucc (c.hop l.idx) = 0x7F → ix = Hdr.closeIx hd → ag = 1216 + s.core.id / 24 →
        lo32 (s.s! a) < spaceLen (ix % 2) → s.core.regs.tileFmt true ix (lo32 (s.s! a)) (cut (ix % 2) (lo32 (s.s! a))
          (closeBytes (ix % 2) (s.core.regs.fmtAt ix (lo32 (s.s! a))).code)) = some f →
        closeFits hd f (s.s! a) (s.s! b) = true → s.roomFor ag = true → ∃ t seq, Gives (.chc hd k a b) s t ∧
        Queues s t hd (.chc hd k a b) (s.s! a) (s.s! b) (s.core.xVal (bits hd.c 13 12))
          (s.core.yVal (bits hd.c 11 10)) [f] [] (entriesOf s.core.regs.view) seq c l ∧ GivesWitnessOf s t hd ag seq ∧
        ∀ r, s.rec? s.core.cont.recPa = some r → ∃ q, t.rec? s.core.cont.recPa = some q ∧ (ag, seq) ∈ q.owed)

/-- 10 R228, R229, R236; 11 R246, R249, R254: the contribution at the head of a queue adds its product, in
groups rounded once, into the elements that its masks select and counts as applied; a starting value
replaces every element of a link that has not advanced; a read that fails makes the elements NaN and posts its
fault; an entry of a link that is lost or retired is discarded with its cause. -/
def Obligations.QueueHeadsActOnTheirLink : Prop :=
  (∀ (s : State) (core : Nat) (e : XEntry) (es : List XEntry) (c : Chain) (l : Link) (bad : Option XFault) (w : Nat)
    (t : FFmt), AtHead s core e es c l → w = c.width l.idx → t = c.fmt l.idx →
    s.operandState core e w = some bad →
    (∀ form hd f g, matrixForm e.instr = some (form, hd) → e.fmts = [f, g] → ∃ u c' l',
      Gives (.contributionApply core) s u ∧ LeftQueue u core e es [] (bad.map XFault.cause) ∧
      u.chain? c.job c.ch c.inst = some c' ∧ c'.link? l.idx = some l' ∧ l'.applied = l.applied + 1 ∧
      ∀ i < 32, ∀ j < 48, (u.tile core l.slot w).getD (48 * i + j) 0 =
        if e.y.getLsbD i = true ∧ e.x.getLsbD j = true then
          (if bad.isSome = true then t.nan else (addProduct t (groupSize f.code)
            ((s.tile core l.slot w).getD (48 * i + j) 0) ((s.coreOf core).store.leftRow form hd f e.a i)
            ((s.coreOf core).store.rightColumn hd g e.b j)).1) % 256 ^ w
        else (s.tile core l.slot w).getD (48 * i + j) 0) ∧
    ∀ hd k a, e.instr = .lkld hd k a → ∃ u, Gives (.startingValueLoad core) s u ∧
      LeftQueue u core e es [] (bad.map XFault.cause) ∧
      ∀ i < 1536, (u.tile core l.slot w).getD i 0 = if l.state ≠ 1 then (s.tile core l.slot w).getD i 0
        else if bad.isSome = true then t.nan
        else (s.coreOf core).store.read (Hdr.transferIx hd) (lo32 e.a + w * i) w) ∧
  (∀ (s : State) (core : Nat) (e : XEntry) (es : List XEntry) (c : Chain) (l : Link) (hd : Hdr) (k : BitVec 4),
    AtHead s core e es c l → e.instr = .lkz hd k → ∃ u, Gives (.startingValueZero core) s u ∧
      LeftQueue u core e es [] none ∧ u.tile core l.slot (c.width l.idx) =
        if l.state = 1 then List.replicate 1536 0 else s.tile core l.slot (c.width l.idx)) ∧
  ∀ (s : State) (core : Nat) (e : XEntry) (es : List XEntry) (k : Cause), (s.coreOf core).pipe.xq = e :: es →
    s.headLink core e = .error k →
    ∀ form, matrixForm e.instr = some form →
      ∃ u, Gives (.contributionApply core) s u ∧ LeftQueue u core e es [] (some k) ∧ u.units.chains = s.units.chains

/-- 10 R231, R234; 11 R255, R257: a snapshot at the head writes every element of its link to the scratchpad
and returns the step count, exact at that moment, with bit 32 once its link has advanced or, for the tail, is
complete; a close of a complete link of an ACTIVE chain writes the scaled, rounded
elements that its masks select and no other, retires every link, and its store goes on to ripen with the
entries of the view that it observed; a close whose link is not complete waits. -/
def Obligations.SnapshotsAndClosesWriteTheTile : Prop :=
  (∀ (s : State) (core : Nat) (e : XEntry) (es : List XEntry) (c : Chain) (l : Link) (w : Nat) (hd : Hdr) (d a : BitVec 6)
    (k : BitVec 4), AtHead s core e es c l → e.instr = .lkrd hd d k a → w = c.width l.idx →
    Store.wf (s.coreOf core).store = true → tileFits (Hdr.transferIx hd) (lo32 e.a) w = true → ∃ u v final,
      Gives (.linkSnapshot core) s u ∧ LeftQueue u core e es [.s e.b.toNat (BitVec.ofNat 64 v)] none ∧
      v = l.applied + l.arrived + (if final = true then 2 ^ 32 else 0) ∧
      (hopSucc (c.hop l.idx) ≠ 0x7F → (final = true ↔ l.state = 2 ∨ l.state = 3)) ∧
      (hopSucc (c.hop l.idx) = 0x7F → (final = true ↔ c.complete l = true)) ∧ u.mem = s.mem ∧
      ∀ i < 1536, (u.coreOf core).store.read (Hdr.transferIx hd) (lo32 e.a + w * i) w =
        (s.tile core l.slot w).getD i 0) ∧
  ∀ (s : State) (core : Nat) (e : XEntry) (es : List XEntry) (c : Chain) (l : Link) (w sp ix : Nat) (hd : Hdr)
    (a b : BitVec 6) (k : BitVec 4) (f : BankFmt), AtHead s core e es c l → e.instr = .chc hd k a b →
    e.fmts = [f] → isLb f.code = false → f.code ≤ 8 → ix = Hdr.closeIx hd → sp = ix % 2 →
    (¬ (c.state = 0 ∧ l.state = 1 ∧ c.complete l = true) →
      Gives (.chainClose core) s (s.push (.chainClose core))) ∧
    (c.state = 0 → l.state = 1 → c.complete l = true → s.observe (some core) e.wi = .ok →
      s.operandBad core e (c.width l.idx) = false →
      Store.wf (s.coreOf core).store = true → closeFits hd f e.a e.b = true → w = elemWidth f.code / 8 →
      ∃ u c', Gives (.chainClose core) s u ∧ LeftQueue u core e es [] none ∧ u.mem = s.mem ∧
        u.chain? c.job c.ch c.inst = some c' ∧ c'.state = 2 ∧ (∀ q ∈ c'.links, q.state = 6 ∧ q.isOpen = false) ∧
        .entryRipens ⟨s.devnum, 1216 + core / 24, e.seq, 1216 + core / 24, [], e.wi, none, bits hd.c 5 4, 0, e.id⟩ ∈ u.agenda ∧
        ∀ i < 32, ∀ j < 48, ∀ at', at' = lo32 e.a + w * (if sp = 0 then 48 * i + j else 32 * j + i) →
          (u.coreOf core).store.read ix at' w =
            if e.y.getLsbD i = true ∧ e.x.getLsbD j = true then
              (let st := (s.coreOf core).store
               let rs := if Hdr.rs hd = true then st.read 0xFFF0 (lo32 e.b + 4 * i) 4 else 0x3F800000
               let cs := if Hdr.cs hd = true then st.read 0xFFF0 (hi32 e.b + 4 * j) 4 else 0x3F800000
               let x := (scaledElem (c.fmt l.idx) ((s.tile core l.slot (c.width l.idx)).getD (48 * i + j) 0) rs cs).1
               (roundTo f.code x).1 % 256 ^ w)
            else (s.coreOf core).store.read ix at' w)

namespace Sys2Proof.Claims

/-- The row and the event of a message of an instance (10 R224, R225, R227, R235, R240). -/
def IsMessage (m : ChainMsg) (i : Instr) (e : Event) : Prop :=
  (i = .announcement m ∧ e = .announcement m) ∨ (i = .hopArrival m ∧ e = .hopArrival m) ∨
  (i = .acknowledgement m ∧ e = .acknowledgement m) ∨ (i = .chainFreezeMessage m ∧ e = .chainFreezeMessage m) ∨
  (i = .chainCancelMessage m ∧ e = .chainCancelMessage m)

/-- The instance that a request to an arbiter concerns. -/
abbrev askedFor (s : State) (r : ArbReq) : Option Chain :=
  s.chainFor ⟨r.job, r.ch, r.inst, r.digest, 0, 0, 0, false, []⟩

/-- A request has been answered to the device that made it (11 R242). -/
abbrev Answered (s t : State) (r : ArbReq) (w : Word) : Prop :=
  Sent s t r.src (.arbiterRequest { r with reply := some w })

end Sys2Proof.Claims

/-- 10 R225, R235: a message or request of an instance that this device does not know waits in the hop port; one
with another digest freezes the instance at its arbiter, and does nothing else to a link. -/
def Sys2Proof.Claims.MessagesWaitOrFreezeOnAnotherDigest : Prop :=
  (∀ (s : State) (m : ChainMsg), s.chainFor m = none → ∀ i e, IsMessage m i e →
    Gives i s { s with units := { s.units with hopPort := s.units.hopPort ++ [e] } }) ∧
  (∀ (s : State) (r : ArbReq), r.reply = none → askedFor s r = none → Gives (.arbiterRequest r) s
    { s with units := { s.units with hopPort := s.units.hopPort ++ [.arbiterRequest r] } }) ∧
  ∀ (s : State) (m : ChainMsg) (c : Chain), s.chainFor m = some c → c.digest ≠ m.digest → c.link? 255 = none →
    ∀ i e, IsMessage m i e →
      (c.state ≠ 0 → Gives i s s) ∧
      (c.state = 0 → ∃ t, Gives i s t ∧
        (c.arbDev = s.devnum → t.chain? c.job c.ch c.inst = some { c with state := 1 }) ∧
        (c.arbDev ≠ s.devnum → t.chain? c.job c.ch c.inst = some c ∧ ∃ r : ArbReq, Sent s t c.arbDev (.arbiterRequest r) ∧
          r.kind = .freeze .chainFrozen none ∧ r.ch = c.ch ∧ r.inst = c.inst ∧ r.digest = c.digest))

/-- 10 R227, R228: a link whose next arrival has come adds it, element by element and rounded once, and one that is
complete advances and sends its value to its successor; one at a time, at a step of the core's matrix unit that applies
no contribution, which is the model's choice (log 29). -/
def Sys2Proof.Claims.LinksAddTheirArrivalsAndAdvance : Prop :=
  ∀ (s : State) (core : Nat) (c : Chain) (l : Link),
    (∀ e es, (s.coreOf core).pipe.xq = e :: es → matrixForm e.instr = none) → s.dueLink core = some (c, l) →
    s.chain? c.job c.ch c.inst = some c → c.link? l.idx = some l → l.core = core ∧
    (∀ f64 vals, c.mayAdd l = true → l.arrivals.find? (fun a => decide (a.1 = l.arrived)) = some (l.arrived, f64, vals) →
      vals.length = 1536 → ∃ t c' l', Gives (.contributionApply core) s t ∧ t.chain? c.job c.ch c.inst = some c' ∧
        c'.link? l.idx = some l' ∧ l'.arrived = l.arrived + 1 ∧ l'.applied = l.applied ∧ l'.state = 1 ∧ t.mem = s.mem ∧
        ∀ i < 1536, (t.tile l.core l.slot (c.width l.idx)).getD i 0 = ((c.fmt l.idx).done false (FVal.sum
          [(c.fmt l.idx).decode ((s.tile l.core l.slot (c.width l.idx)).getD i 0),
            (if f64 = true then F64 else F32).decode ((vals.getD i 0).toNat)])).1 % 256 ^ c.width l.idx) ∧
    (c.mayAdd l = false → ∃ t c' l', Gives (.contributionApply core) s t ∧ t.chain? c.job c.ch c.inst = some c' ∧
      c'.link? l.idx = some l' ∧ l'.state = 2 ∧ t.mem = s.mem ∧ ∀ j, j = hopSucc (c.hop l.idx) →
      Sent s t (BitVec.ofNat 14 (hopDev (c.hop j))) (.hopArrival ⟨c.job, c.ch, c.inst, c.digest, l.idx, j,
        hopApos (c.hop l.idx), hop64 (c.hop l.idx), (s.tile l.core l.slot (c.width l.idx)).map (BitVec.ofNat 64)⟩))

/-- 10 R225, R227, R235, R237, R239, R240: an announcement makes the word of a link of another device known here (the
model's way of making R237 exact, log 10); a hop transfer is queued at its position and acknowledged; one for an index
not yet bound is held, and a FAULTED or LOST link acknowledges nothing; an acknowledgement makes its sender SPENT; a
freeze, thaw, cancel or close reaches the links of this device. -/
def Sys2Proof.Claims.MessagesActOnTheLinksOfThisDevice : Prop :=
  ∀ (s : State) (m : ChainMsg) (c : Chain), s.chainFor m = some c → c.digest = m.digest →
    ((∃ l, c.link? m.sender = some l) → Gives (.announcement m) s s) ∧
    (c.link? m.sender = none → ∃ c', Gives (.announcement m) s (s.putChain c') ∧ c'.links = c.links ∧
      c'.state = c.state ∧ (∀ j, j ≠ m.sender → c'.wordOf j = c.wordOf j) ∧
      (∀ w ws, m.vals = w :: ws → c'.wordOf m.sender = w.toNat) ∧
      (m.vals = [] → ((∃ q ∈ c.words, q.1 = m.sender) → c' = c) ∧
        ((∀ q ∈ c.words, q.1 ≠ m.sender) → c'.wordOf m.sender = 2 ^ 59))) ∧
    (2 ≤ c.state → Gives (.hopArrival m) s s) ∧
    (c.state ≤ 1 → c.link? m.target = none → Gives (.hopArrival m) s (s.setChain { c with held := c.held ++ [.hopArrival m] })) ∧
    (∀ l, c.state ≤ 1 → c.link? m.target = some l →
      (l.state = 4 ∨ l.state = 5 → Gives (.hopArrival m) s s) ∧
      (l.state ≠ 1 → l.state ≠ 4 → l.state ≠ 5 → Gives (.hopArrival m) s (s.acknowledge c m)) ∧
      (l.state = 1 → m.apos < l.arrived → Gives (.hopArrival m) s (s.acknowledge c m)) ∧
      (l.state = 1 → (∃ a ∈ l.arrivals, a.1 = m.apos) → Gives (.hopArrival m) s (s.acknowledge c m)) ∧
      (l.state = 1 → l.arrived ≤ m.apos → (∀ a ∈ l.arrivals, a.1 ≠ m.apos) → ∃ t c' l', Gives (.hopArrival m) s t ∧
        Sent s t (BitVec.ofNat 14 (hopDev (c.hop m.sender)))
          (.acknowledgement { c.msg m.target with sender := m.target, target := m.sender }) ∧
        t.chain? c.job c.ch c.inst = some c' ∧ c'.state = c.state ∧ c'.link? m.target = some l' ∧
        l'.arrived = l.arrived ∧ l'.arrivals = l.arrivals ++ [(m.apos, m.fmt64, m.vals)] ∧ t.mem = s.mem ∧
        (c.state = 0 → l.applied = hopCount (c.hop l.idx) → l.arrived = m.apos →
          .contributionApply l.core ∈ t.agenda))) ∧
    (∀ l, c.link? m.target = some l → l.state = 2 →
      Gives (.acknowledgement m) s (s.setChain (c.setLink { l with state := 3, acked := true }))) ∧
    ((∀ l, c.link? m.target = some l → l.state ≠ 2) → Gives (.acknowledgement m) s s) ∧
    (m.apos ≠ 1 → (c.state = 0 → Gives (.chainFreezeMessage m) s (s.setChain { c with state := 1 })) ∧
      (c.state ≠ 0 → Gives (.chainFreezeMessage m) s s)) ∧
    (m.apos = 1 → ∃ t c', Gives (.chainFreezeMessage m) s t ∧ t.chain? c.job c.ch c.inst = some c' ∧ c'.state = 0) ∧
    (m.apos ≠ 1 → (c.state ≤ 1 → ∃ t c', Gives (.chainCancelMessage m) s t ∧ t.chain? c.job c.ch c.inst = some c' ∧
      c'.state = 3 ∧ ∀ l ∈ c'.links, l.state = 6 ∧ l.isOpen = false) ∧
      (2 ≤ c.state → Gives (.chainCancelMessage m) s s)) ∧
    (m.apos = 1 → ∃ t c', Gives (.chainCancelMessage m) s t ∧ t.chain? c.job c.ch c.inst = some c' ∧
      c'.state = 2 ∧ ∀ l ∈ c'.links, l.state = 6 ∧ l.isOpen = false)

/-- 10 R238 to R240; 11 R242: the arbiter serves each request on the state that the one before it left and
answers it: a freeze makes an ACTIVE instance FROZEN, a cancel ends one that has not ended, a thaw makes a
FROZEN one ACTIVE or names the link in its way, a splice is accepted of a FAULTED or LOST link of a FROZEN
instance, and what a device reports of a link is noted; an answer reaches the bundle that waits for it, and an accepted
splice opens its quick link as its answer comes, unless the instance has ended since (the model's choice, log 23). -/
def Sys2Proof.Claims.ArbiterServesItsRequests : Prop :=
  (∀ (s : State) (r : ArbReq) (w : Word), r.reply = some w →
    ((∀ core slot rec, r.kind ≠ .splice core slot rec) ∨ w ≠ 0 ∨ s.chain? r.job r.ch r.inst = none →
      Gives (.arbiterRequest r) s (s.answerStall r.core r.key [0, w.toNat])) ∧
    ∀ core slot rec c, r.kind = .splice core slot rec → w = 0 → s.chain? r.job r.ch r.inst = some c →
      (s.awaiting r.core r.key = true → 2 ≤ c.state →
        Gives (.arbiterRequest r) s (s.answerStall r.core r.key [0, 0])) ∧
      (s.awaiting r.core r.key = true → c.state ≤ 1 → ∀ l, c.link? r.idx = some l → ∃ t c',
        Gives (.arbiterRequest r) s t ∧ t.chain? c.job c.ch c.inst = some c' ∧ c'.state = c.state ∧
        c'.link? r.idx = some ⟨r.idx, 1, core, slot, rec, true, 0, 0, 0, false, true, 0, 0,
          (s.coreOf core).cont.cycles, [], l.gen + 1⟩ ∧ t.mem = s.mem) ∧
      (s.awaiting r.core r.key = false → ∃ t q, Gives (.arbiterRequest r) s t ∧ Sent s t c.arbDev (.arbiterRequest q) ∧
        q.kind = .note 5 ∧ q.idx = r.idx ∧ q.ch = c.ch ∧ q.inst = c.inst)) ∧
  ∀ (s : State) (r : ArbReq) (c : Chain), r.reply = none → askedFor s r = some c → ∃ t, Gives (.arbiterRequest r) s t ∧
    (c.digest ≠ r.digest → r.kind ≠ .thaw → Answered s t r 1) ∧
    (c.digest = r.digest →
      (∀ cause, r.kind = .freeze cause none → (c.state = 0 → Answered s t r 0 ∧
          t.chain? c.job c.ch c.inst = some { c with state := 1 }) ∧
        (c.state ≠ 0 → Answered s t r 1 ∧ t.chain? c.job c.ch c.inst = some c)) ∧
      (∀ cause j st, r.kind = .freeze cause (some (j, st)) → (c.state = 0 → Answered s t r 0 ∧
          t.chain? c.job c.ch c.inst = some { c.report j st with state := 1 }) ∧
        (c.state = 1 → Answered s t r 1 ∧ t.chain? c.job c.ch c.inst = some (c.report j st))) ∧
      (∀ st, r.kind = .note st → c.state ≤ 1 → Answered s t r 0 ∧
        t.chain? c.job c.ch c.inst = some (c.report r.idx st)) ∧
      (r.kind = .cancel → (c.state ≤ 1 → Answered s t r 0 ∧ ∃ c', t.chain? c.job c.ch c.inst = some c' ∧ c'.state = 3 ∧
          ∀ l ∈ c'.links, l.state = 6 ∧ l.isOpen = false) ∧
        (2 ≤ c.state → Answered s t r 1 ∧ t.chain? c.job c.ch c.inst = some c)) ∧
      (r.kind = .thaw → (c.state = 0 → Answered s t r 0) ∧
        (2 ≤ c.state → Answered s t r (BitVec.ofNat 64 (2 ^ 63 + 0x7F))) ∧
        (∀ j, c.state = 1 → c.thawBlock = some j → Answered s t r (BitVec.ofNat 64 (2 ^ 63 + j))) ∧
        (c.state = 1 → c.thawBlock = none → Answered s t r 0 ∧
          ∃ c', t.chain? c.job c.ch c.inst = some c' ∧ c'.state = 0)) ∧
      ∀ core slot rec, r.kind = .splice core slot rec →
        (c.state = 1 → c.stateOf r.idx = 4 ∨ c.stateOf r.idx = 5 → Answered s t r 0 ∧
          t.chain? c.job c.ch c.inst = some (c.report r.idx 8)) ∧
        (c.state ≠ 1 ∨ c.stateOf r.idx ≠ 4 ∧ c.stateOf r.idx ≠ 5 → Answered s t r 1))

/-- 10 R225, R227, R228, R235, R237, R239, R240; 11 R242: a message of an instance is held until the instance is
known, and freezes it when the digests differ; else it has its effect on this device's links, which add their arrivals
and advance, and the arbiter serves the requests that reach it. That a request with another digest is refused, and that
a freeze goes to the arbiter and acts in its order, is the model's choice (log 23), and so is what the messages carry
(log 10). -/
def Obligations.ChainMessagesHaveTheirEffect : Prop :=
  Claims.MessagesWaitOrFreezeOnAnotherDigest ∧ Claims.MessagesActOnTheLinksOfThisDevice ∧
    Claims.LinksAddTheirArrivalsAndAdvance ∧ Claims.ArbiterServesItsRequests

/-! ### Engines -/

namespace Sys2Proof.Claims

/-- A command has entered the queue of an engine behind the others, with its postings, source-free first
(09 R208 to R210). -/
def Enters (s t : State) (hd : Hdr) (n kind : Nat) (desc : List Word) (descPtr : Word) (tsf : Option Nat)
    (wi : List Word) : Prop :=
  ∃ (c : Cmd) (ps : List Posting), (t.engine n).queue = (s.engine n).queue ++ [c] ∧ c.kind = kind ∧ c.desc = desc ∧
    c.descPtr = descPtr ∧ c.job = s.core.cont.job ∧ c.recPa = s.core.cont.recPa ∧ c.core = s.core.id ∧ c.row = 0 ∧
    c.col = 0 ∧ c.bytes = 0 ∧ c.flags = 0 ∧ c.freed = false ∧ c.written = false ∧ c.wi = wi ∧
    t.core.pipe.posts = s.core.pipe.posts ++ ps ∧
    ps.map Posting.tok = (tsf.toList ++ (Hdr.tok hd).toList).map s.core.tIx ∧
    ps.map Posting.id = c.tsfPost.toList ++ c.tokPost.toList ∧ (c.tsfPost = none ↔ tsf = none) ∧
    (s.engine n).holder = (t.engine n).holder ∧ t.mem = s.mem ∧ t.core.regs = s.core.regs ∧ t.core.sys = s.core.sys ∧
    t.core.store = s.core.store ∧ t.parked = s.parked ∧ t.sched = s.sched ∧ t.host = s.host

/-- The bytes at places can be read and written without a lender. -/
def NoPeer (ps : List EPlace) : Prop := ∀ p ∈ ps, ∀ l o, p ≠ .peer l o

/-- The head command of an engine that no core holds, with nothing to observe. -/
abbrev HeadCmd (s : State) (e : Nat) (c : Cmd) (j : Job) : Prop :=
  e < 64 ∧ s.engHead e = some c ∧ c.wi = [] ∧ c.written = false ∧ s.job? c.job = some j

end Sys2Proof.Claims

/-- 09 R208 to R212, R215 to R218; 13 R299: a slot that enters a command stalls while the engine's queue is
full or a core holds it; else its checks are made at issue, word 0x38 of the descriptor is written 0xFF, and
the command stands behind the others with its postings and, as a store of the engine, its witness. EST goes
in flight with its posting. That ARM of a word at core-local index 0xFFF4 or above fails BUF_RIGHTS is the model's
choice (log 28). -/
def Obligations.EngineSlotsEnterTheirQueue : Prop :=
  (∀ (s : State) (hd : Hdr) (e : BitVec 4) (a b : BitVec 6) (n : Nat) (p : Word), s.core.id < 1152 →
    n = s.core.id / 288 * 16 + e.toNat → p = s.s! a → s.room? (Hdr.tok hd) = true →
    let w : List Nat := [bits hd.c 9 6]
    (32 ≤ (s.engine n).queue.length ∨ (s.engine n).holder ≠ none →
      (Acts s hd { s := [a, b], w := [bits hd.c 13 10], dw := w } → Gives (.pub hd e a b) s s.stall) ∧
      (Acts s hd { s := [a, b] } → Gives (.arm hd e a b) s s.stall) ∧
      (Acts s hd { s := [a], w := [bits hd.c 13 10], dw := w } → Gives (.coll hd e a) s s.stall ∧
        (s.room? (tokOf hd.c2) = true → Gives (.cpy hd e a) s s.stall ∧ Gives (.cpyr hd e a) s s.stall))) ∧
    ((s.engine n).queue.length < 32 → (s.engine n).holder = none →
      (∀ r ∈ [(Instr.cpy hd e a, 1), (Instr.cpyr hd e a, 2)], ∀ (u v : State) (x y : Nat) (j : Job) (d : List Word),
        s.room? (tokOf hd.c2) = true → s.roomTwo (Hdr.tok hd) (tokOf hd.c2) = true →
        Acts s hd { s := [a], w := [bits hd.c 13 10], dw := w } → s.syncRead needRW 64 p 64 0 false = .ok u x →
        d = (wordsOf x 64).take 7 → u.job! = some j →
        (∀ c q, u.descCheck j (r.2 = 2) d = some (c, q) → Gives r.1 s (u.failAt c q)) ∧
        (u.descCheck j (r.2 = 2) d = none →
          u.syncWrite needRW 8 (ptrAdd p 0x38) 8 (0xFF * 2 ^ 56) 1 false = .ok v y → ∃ t seq, Gives r.1 s t ∧
          Enters v t hd n r.2 d p (tokOf hd.c2) (v.wiOf (bits hd.c 13 10)) ∧ GivesWitnessOf v t hd (1152 + n) seq)) ∧
      (∀ (u v : State) (x y : Nat) (j : Job) (d : List Word), Acts s hd { s := [a], w := [bits hd.c 13 10], dw := w } →
        s.syncRead needRW 64 p 64 0 false = .ok u x → d = (wordsOf x 64).take 7 → u.job! = some j →
        (∀ c q, u.loopCheck j d = some (c, q) → Gives (.coll hd e a) s (u.failAt c q)) ∧
        (u.loopCheck j d = none → u.syncWrite needRW 8 (ptrAdd p 0x38) 8 (0xFF * 2 ^ 56) 1 false = .ok v y →
          Gives (.coll hd e a) s ((v.enter hd n 3 d p none true).acceptRun n d) ∧
          ((∀ m : CollMsg, m.cid = (d.getD 0 0).extractLsb' 48 16 → .abortRequest m ∉ v.units.messages ∧
            .abortDecision m ∉ v.units.messages ∧ .mismatchNotice m ∉ v.units.messages) →
          ∃ t seq r, t = (v.enter hd n 3 d p none true).acceptRun n d ∧
          Enters v t hd n 3 d p none (v.wiOf (bits hd.c 13 10)) ∧
          GivesWitnessOf v t hd (1152 + n) seq ∧ t.units.runs = v.units.runs ++ [r] ∧ r.eng = n ∧ r.stage = 0 ∧
          r.step = 0 ∧ r.desc = d ∧ r.cid = (d.getD 0 0).extractLsb' 48 16 ∧
          r.seq = (d.getD 0 0).extractLsb' 32 16))) ∧
      (Acts s hd { s := [a, b], w := [bits hd.c 13 10], dw := w } → ∃ t seq, Gives (.pub hd e a b) s t ∧
        Enters s t hd n 5 [p, s.s! b] 0 none (s.wiOf (bits hd.c 13 10)) ∧ GivesWitnessOf s t hd (1152 + n) seq) ∧
      (∀ j, Acts s hd { s := [a, b] } → s.job! = some j →
        (ptrOff p % 8 ≠ 0 → Gives (.arm hd e a b) s (s.failAt .bufBounds p)) ∧
        (ptrOff p % 8 = 0 → (∀ c, s.check j s.osize needR true (ptrIx p) (ptrOff p) 8 = .error c →
            Gives (.arm hd e a b) s (s.failAt c p)) ∧
          (∀ q, s.check j s.osize needR true (ptrIx p) (ptrOff p) 8 = .ok (.buf q) →
            (2 ≤ q.tier → Gives (.arm hd e a b) s (s.failAt .bufRights p)) ∧
            (q.tier ≤ 1 → ∃ t, Gives (.arm hd e a b) s t ∧
              Enters s t hd n 4 [p, s.s! b] 0 none (s.wiOf (bits hd.c 13 10)))) ∧
          ∀ ix, s.check j s.osize needR true (ptrIx p) (ptrOff p) 8 = .ok (.core ix) →
            (0xFFF4 ≤ ix → Gives (.arm hd e a b) s (s.failAt .bufRights p)) ∧
            (ix < 0xFFF4 → ∃ t, Gives (.arm hd e a b) s t ∧
              Enters s t hd n 4 [p, s.s! b] 0 none (s.wiOf (bits hd.c 13 10))))))) ∧
  ∀ (s : State) (hd : Hdr) (d : BitVec 6) (e : BitVec 4) (t : BitVec 5), s.postRoom t.toNat = true →
    Acts s hd { ds := [d] } → ∃ u a, Gives (.est hd d e t) s u ∧ u.agenda = s.agenda ++ [.memoryPortAccess a] ∧
      a.op = .est (s.core.id / 288 * 16 + e.toNat) ∧ a.dst = s.sDst d ∧ a.parts = [] ∧ u.mem = s.mem ∧
      u.core.regs = s.core.regs ∧ PostsOf s u (some t.toNat) (if d = 0 then [] else [⟨0, s.sDst d⟩]) a.post

/-- 08 R184, R189, R190; 09 R211 to R213: the head copy of an engine first reads a piece of its source, for a CPYR
then the old destination, in the buffer or with SRD in its backing, and then leaves their result in the
destination, with SHD in its backing, nothing else of memory changing; a source byte that the command has
overwritten itself is free; its progress counts the bytes; the token of source-free posts when the last source
byte has been read; a row that its conversion does not fit ends the command there. -/
def Sys2Proof.Claims.CopiesMoveTheirPieces : Prop :=
  ∀ r ∈ [(1, Instr.copyPerform), (2, Instr.reduceCopyPerform)], ∀ (s u : State) (e : Nat) (c : Cmd) (j : Job)
    (f : BankFmt) (sh : Nat → Bool) (sx dx rx wx so d : Nat), HeadCmd s e c j → c.kind = r.1 →
    sx = bits (c.w 0) 63 48 → dx = bits (c.w 1) 63 48 → so = c.srcRow + c.col → d = c.dstRow + c.dcol →
    u = s.setHead e c (s.engine e).vals → f = (u.destFmt (descCore c 52 42) dx d).getD BankFmt.zero →
    (s.engine e).vals = [] ∨ (s.engine e).fmt = some f →
    rx = (if c.srd = true then (u.shadowOf j dx).toOption.getD dx else dx) →
    wx = (if c.shd = true then (u.shadowOf j dx).toOption.getD dx else dx) →
    sh = (fun k => sharePlace (okBytes (fun i => u.engByte j (descCore c 63 53) needR sx (so + i)) k 0).1
      (okBytes (fun i => u.engDest j (descCore c 52 42) dx (d + i) c.shd) k 0).1) →
    (∀ g, c.piece f sh = .error g → Gives (r.2 e) s (u.failCmd e c g)) ∧
    ∀ (n : Nat) (conv : Nat → Nat → Nat → Nat × Nat × Flags) (ps : List EPlace),
      c.piece f sh = .ok (n, conv) → n ≠ 0 → ∀ more : Prop,
      more = (c.freed = true ∨ c.col + n < c.rowlen ∨ c.row + 1 < c.rows) →
      okBytes (fun i => u.engSource j (descCore c 63 53) sx (so + i)) n 0 = (ps, none) → NoPeer ps →
      -- the source
      ((s.engine e).vals = [] → u.engWait j sx so n = (u, false) →
        ∃ t, Gives (r.2 e) s t ∧ t.engHead e = some c ∧ (t.engine e).vals = [u.getSource c ps] ∧
          (c.was = [] → u.getSource c ps = s.getBytes ps) ∧ (t.engine e).fmt = some f ∧ t.mem = s.mem ∧
          t.core = s.core) ∧
      (∀ x xs, (s.engine e).vals = x :: xs → ¬ more →
        Gives (r.2 e) s (u.push (.sourceFree e))) ∧
      -- the old destination
      (∀ x qs, r.1 = 2 → (s.engine e).vals = [x] → more →
        okBytes (fun i => u.oldAt j (descCore c 52 42) dx (d + i) c.srd) n 0 = (qs, none) → NoPeer qs →
        u.engWait j rx d n = (u, false) →
        ∃ t, Gives (r.2 e) s t ∧ t.engHead e = some c ∧ (t.engine e).vals = [x, s.getBytes qs] ∧ t.mem = s.mem) ∧
      -- the result
      ∀ x y old m qs, more → (r.1 = 1 → (s.engine e).vals = [x] ∧ old = 0) →
        (r.1 = 2 → (s.engine e).vals = [x, old] ∧ n % (elemWidth (bits (c.w 5) 37 34) / 8) = 0) →
        conv n x old = (m, y) → m ≠ 0 → (r.1 = 2 → m = n) →
        okBytes (fun i => u.engDest j (descCore c 52 42) dx (d + i) c.shd) m 0 = (qs, none) → NoPeer qs →
        u.engWait j wx d m = (u, false) → conv m x old = (m, y) →
        ∃ t c', Gives (r.2 e) s t ∧ t.engHead e = some c' ∧ c'.bytes = c.bytes + m ∧ c'.flags = c.flags ||| y.2 ∧
          (t.engine e).vals = [] ∧ t.mem.cells = (u.putBytes c.wo qs (y.1 % 256 ^ m)).mem.cells ∧
          (c.col + n < c.rowlen → c'.col = c.col + n ∧ c'.row = c.row ∧ c'.written = false) ∧
          (c.rowlen ≤ c.col + n → c'.col = 0 ∧ c'.row = c.row + 1 ∧
            (c'.written = true ↔ c.rows ≤ c.row + 1))

/-- 09 R213: source-free posts its token once; a command whose destination has accepted every byte writes word
0x38 of its descriptor and then makes its store visible and posts; while a lender has that write the command
waits, and where the word cannot be written it has failed. -/
def Sys2Proof.Claims.DeliveredCommandsEnd : Prop :=
  ∀ (s : State) (e : Nat) (c : Cmd), e < 64 → s.engHead e = some c →
    (c.freed = false → ∃ t, Gives (.sourceFree e) s t ∧ t.engHead e = some { c with freed := true } ∧ t.mem = s.mem ∧
      (∀ p, c.tsfPost = some p → .tokenedOperationComplete ⟨c.core, c.recPa, some p, [], none⟩ ∈ t.agenda)) ∧
    (c.freed = true → Gives (.sourceFree e) s s) ∧
    (c.written = false → Gives (.delivered e) s s) ∧
    ∀ u h, c.written = true →
      (c.kind ≤ 3 ∧ s.wrStatus (c.done e) (c.status 0) = .ok u ∨ 3 < c.kind ∧ u = s → ∃ t, Gives (.delivered e) s t ∧
        (t.engine e).queue = (s.engine e).queue.drop 1 ∧ t.mem.cells = u.mem.cells ∧
        (∀ p, c.tokPost = some p → .tokenedOperationComplete ⟨c.core, c.recPa, some p, [], none⟩ ∈ t.agenda) ∧
        (s.cmdStore c ≠ 0 → ∀ n b, (n, b) ∈ (t.agentOf s.devnum (entAgent c.wo)).pend → n ≠ s.cmdStore c)) ∧
      (c.kind ≤ 3 → s.wrStatus (c.done e) (c.status 0) = .asked u → ∃ t, Gives (.delivered e) s t ∧
        (t.engine e).queue = (s.engine e).queue.drop 1 ∧ { c.done e with sent := true } ∈ t.units.endings ∧
        t.mem = u.mem) ∧
      (c.kind ≤ 3 → s.wrStatus (c.done e) (c.status 0) = .fail u h →
        Gives (.delivered e) s ((u.failEffects e c h).popEngine e))

/-- 08 R190, R191; 09 R215, R216: a trigger posts once its word has reached its value, and waits until then; the
commands behind it go on once the store of that value and what it was ordered after are ripe; a publish copies
each segment from the shadow. -/
def Sys2Proof.Claims.TriggersAndPublishesAct : Prop :=
  (∀ (s u : State) (e : Nat) (c : Cmd) (j : Job) (ix off : Nat), HeadCmd s e c j → ix = bits (c.w 0) 63 48 →
    off = bits (c.w 0) 47 0 → u = s.setHead e c (s.engine e).vals →
    (∀ (ps : List EPlace) (v : Nat), c.kind = 4 → c.freed = false →
      okBytes (fun i => u.engSource j c.core ix (off + i)) 8 0 = (ps, none) → u.engWait j ix off 8 = (u, false) →
      v = (s.getBytes ps + 2 ^ 64 - c.w 1) % 2 ^ 64 →
      (v < 2 ^ 63 → ∃ t c', Gives (.triggerMet e) s t ∧ t.engHead e = some c' ∧ c'.freed = true ∧ t.mem = s.mem ∧
        c'.wi = u.unripeAt (numsOf ps) ∧ .triggerMet e ∈ t.agenda ∧
        ∀ p, c.tokPost = some p → .tokenedOperationComplete ⟨c.core, c.recPa, some p, [], none⟩ ∈ t.agenda) ∧
      (2 ^ 63 ≤ v → Gives (.triggerMet e) s (u.push (.triggerMet e)))) ∧
    ∀ sh : Nat, c.kind = 5 → (off + 64 * c.row) % 64 = 0 → c.w 1 % 64 = 0 →
      u.publishCheck j ix off (c.w 1) = .ok sh →
      (c.w 1 ≤ 64 * c.row → Gives (.publishPerform e) s ((u.setHead e { c with written := true } []).push (.delivered e))) ∧
      ∀ (ps qs : List EPlace) (o : Nat), o = off + 64 * c.row → 64 * c.row < c.w 1 →
      okBytes (fun i => u.engByte j c.core needW ix (o + i)) 64 0 = (qs, none) → NoPeer qs →
      okBytes (fun i => u.engSource j c.core sh (o + i)) 64 0 = (ps, none) → NoPeer ps →
      u.engWait j sh o 64 = (u, false) → u.engWait j ix o 64 = (u, false) →
      ((s.engine e).vals = [] → ∃ t, Gives (.publishPerform e) s t ∧ (t.engine e).vals = [s.getBytes ps] ∧
        t.mem = s.mem) ∧
      ∀ x, (s.engine e).vals = [x] → ∃ t c', Gives (.publishPerform e) s t ∧ t.engHead e = some c' ∧
        c'.row = c.row + 1 ∧ c'.bytes = c.bytes + 64 ∧ t.mem.cells = (u.putBytes c.wo qs x).mem.cells) ∧
  ∀ (s : State) (e : Nat) (c : Cmd), s.engHead e = some c → c.kind = 4 → c.freed = true →
    (s.observe none c.wi = .wait → Gives (.triggerMet e) s (s.push (.triggerMet e))) ∧
    (s.observe none c.wi ≠ .wait → Gives (.triggerMet e) s (s.popEngine e))

/-- 08 R176; 10 R235; 11 R242; 12 R285; 15 R341: what a packet that never arrives does to who waits for it: a
stalled bundle learns of it, a run ends, a hop's instance freezes, and a request to an arbiter out of reach is
given up or acts on this device alone. -/
def Sys2Proof.Claims.LostPacketsReachTheirSender : Prop :=
  ∀ (s : State) (l : Nat),
    (∀ core key, Gives (.retryLimit (.peer (.stalled core key) l)) s
      ((s.leaseRefused l (some 2)).answerStall core key [64 + 5])) ∧
    (∀ r, r.key ≠ noKey → Gives (.retryLimit (.arbiter r)) s (s.answerStall r.core r.key [2])) ∧
    (∀ (r : ArbReq) c, r.key = noKey → s.chain? r.job r.ch r.inst = some c →
      (∀ cause link, r.kind = .freeze cause link → Gives (.retryLimit (.arbiter r)) s (s.freezeHere c)) ∧
      (r.kind = .cancel → Gives (.retryLimit (.arbiter r)) s
        ((s.cancelHere c).tellChain c (.chainCancelMessage (c.msg 0))))) ∧
    (∀ tenant cid seq r, s.run? tenant cid seq = some r →
      Gives (.retryLimit (.ring tenant cid seq)) s (s.endRunWith r 0x12)) ∧
    (∀ tenant cid seq, s.run? tenant cid seq = none → Gives (.retryLimit (.ring tenant cid seq)) s s) ∧
    (∀ dev, Gives (.retryLimit (.device dev)) s (s.deviceLost dev)) ∧
    ∀ m c q, s.chainFor m = some c → c.link? m.sender = some q → c.state = 0 → q.state = 2 → ∃ t,
      Gives (.retryLimit (.hop m)) s t ∧ ∃ c', t.chain? c.job c.ch c.inst = some c' ∧
        (c.arbDev = s.devnum → c'.state = 1) ∧ (∃ q', c'.link? m.sender = some q' ∧ q'.state = 2) ∧
        (c.arbDev ≠ s.devnum → ∃ r : ArbReq, Sent s t c.arbDev (.arbiterRequest r) ∧ r.kind = .freeze .linkLost none ∧
          r.ch = c.ch ∧ r.inst = c.inst)

/-- 08 R189 to R191; 09 R213 to R217; 15 R341: the ends of commands, the triggers and publishes, and the packets
that are lost. -/
def Sys2Proof.Claims.EngineEventsEndTheirCommand : Prop :=
  Claims.DeliveredCommandsEnd ∧ Claims.TriggersAndPublishesAct ∧ Claims.LostPacketsReachTheirSender

/-- 08 R189 to R191; 09 R211 to R217: the engines carry out the commands at their heads. That PROG counts source bytes,
that a command waits for a lender to write its word 0x38 and fails where the word cannot be written, and what the
commands behind a trigger wait for (log 28), that a lost request of an arbiter is answered busy or acts here alone
(logs 34, 23), and the order of a publish's checks (log 38) are the model's choice. -/
def Obligations.EnginesCarryOutTheirCommands : Prop :=
  Claims.CopiesMoveTheirPieces ∧ Claims.EngineEventsEndTheirCommand

/-! ### Trees and collectives -/

/-- 12 R279, R280; 13 R296, R297: RPSND gives its node's contribution to the node's router, and RPRCV waits
for the result of a round; each issues its posting, and either traps where its description is not of this
device. -/
def Sys2Proof.Claims.TreeSlotsContributeAndReceive : Prop :=
  ∀ (s u : State) (hd : Hdr) (j a b d : BitVec 6) (desc : TreeDesc) (digest : BitVec 64), Room s hd false →
    s.readTree (s.s! a) = .inr (u, desc, digest) →
    (Acts s hd { s := [a], v := [b] } → b.toNat < 48 →
      (desc.nodes.length ≤ j.toNat ∨ (treeNode desc j.toNat).dev ≠ u.devnum →
        Gives (.rpsnd hd j a b) s u.illegal) ∧
      (j.toNat < desc.nodes.length → (treeNode desc j.toNat).dev = u.devnum → ∃ t c, Gives (.rpsnd hd j a b) s t ∧
        c.desc = desc ∧ c.digest = digest ∧ c.node = j.toNat ∧ PostsOf u t (Hdr.tok hd) [] c.done.post ∧
        c.vals = (List.range (desc.len + 1)).map (fun i => BitVec.ofNat 64 (elem (u.v! b) (elemWidth desc.fmt) i)) ∧
        (t.router (treeNode desc j.toNat).core desc.tid).queue =
          (u.router (treeNode desc j.toNat).core desc.tid).queue ++ [c] ∧
        ((u.router (treeNode desc j.toNat).core desc.tid).cur = none →
          (u.router (treeNode desc j.toNat).core desc.tid).queue = [] → .routerTakesContribution c ∈ t.agenda) ∧
        t.mem = u.mem ∧ t.core.regs = u.core.regs)) ∧
    (Acts s hd { s := [a], dv := [d], ds := [b] } →
      ((treeNode desc (treeRoot desc)).dev ≠ u.devnum → Gives (.rprcv hd d a b) s u.illegal) ∧
      ((treeNode desc (treeRoot desc)).dev = u.devnum → ∃ t r, Gives (.rprcv hd d a b) s t ∧
        t.agenda = u.agenda ++ [.roundResultReceive r] ∧ r.tid = desc.tid ∧ r.vd = d.toNat ∧ r.sd = u.sDst b ∧
        PostsOf u t (Hdr.tok hd) (⟨1, d.toNat⟩ :: if b = 0 then [] else [⟨0, u.sDst b⟩]) r.done.post ∧
        t.mem = u.mem ∧ t.core.regs = u.core.regs))

/-- 12 R279 to R281; 13 R296 to R298: a router combines its node's contribution with its children's packets
in CPOS order and sends the round to its parent's router, or delivers it at the root; a timeout sends the
inputs present and marks the subtrees that miss; a packet of an older round is dropped; the oldest receive
takes the first result. That a round 2^15 or more past the router's is an older one (log 29) and how messages reach
other devices (log 10) are the model's choice. -/
def Sys2Proof.Claims.RoutersReduceInPositionOrder : Prop :=
  (∀ (s : State) (c : Contribution) (r : Router) (core : Nat), core = (treeNode c.desc c.node).core →
    s.router core c.desc.tid = r → r.cur = none → r.inputs = [] → r.queue = [] →
    ∃ t, Gives (.routerTakesContribution c) s t ∧ .tokenedOperationComplete c.done ∈ t.agenda ∧
      (t.router core c.desc.tid).taken = r.taken + 1 ∧ t.mem = s.mem ∧
      -- a leaf sends at once
      (treeChildren c.desc c.node = [] → (treeNode c.desc c.node).parent ≠ 0x3F → ∀ up,
        up = treeNode c.desc (treeNode c.desc c.node).parent → Sent s t up.dev (.reductionPacket
          ⟨c.desc.tid, c.digest, r.taken % 2 ^ 16, (treeNode c.desc c.node).parent, c.node, up.core, c.vals, 0⟩)) ∧
      (treeChildren c.desc c.node ≠ [] → (t.router core c.desc.tid).cur = some c)) ∧
  (∀ (s : State) (c : Contribution) (r : Router) (p : TreePacket) (i : Nat) (d : TreeDesc), d = c.desc →
    s.router p.core p.tid = r → d.tid = p.tid → p.core = (treeNode d c.node).core → r.core = p.core → r.tid = p.tid →
    r.cur = some c → r.inputs = [] → r.queue = [] → treeChildren d c.node = [i] → (treeNode d c.node).parent = 0x3F →
    -- the root delivers the round
    (p.round = r.round → p.digest = c.digest → p.child = i → ∃ t, Gives (.reductionPacket p) s t ∧
      (t.router p.core p.tid).results = r.results ++ [(s.nextId, d, (c.vals.zip p.vals).map (fun x =>
        BitVec.ofNat 64 (treeOp d x.1.toNat x.2.toNat)), BitVec.ofNat 64 p.miss.toNat)] ∧
      (t.router p.core p.tid).cur = none ∧ t.mem = s.mem) ∧
    -- or without the child that has not sent
    (∃ t, Gives (.treeTimeout d.tid.toNat p.core r.round) s t ∧ (t.router p.core p.tid).cur = none ∧
      (t.router p.core p.tid).results = r.results ++ [(s.nextId, d, c.vals, BitVec.ofNat 64 (subtree d d.nodes.length i))]) ∧
    (2 ^ 15 ≤ (p.round + 2 ^ 16 - r.round) % 2 ^ 16 → Gives (.reductionPacket p) s s)) ∧
  (∀ (d : TreeDesc) (a b : Nat), a < 2 ^ elemWidth d.fmt → b < 2 ^ elemWidth d.fmt →
    (d.fmt = 7 ∨ d.fmt = 8 → d.op = 0 → treeOp d a b = (a + b) % 2 ^ elemWidth d.fmt) ∧
    (d.fmt = 0 → d.op = 0 → treeOp d a b = (F32.add false a b).1)) ∧
  ∀ (s : State) (r : Receive) (q : Router) (k : Nat) (d : TreeDesc) (vals : List Word) (miss : BitVec 64)
    (rest : List (Nat × TreeDesc × List Word × BitVec 64)),
    (s.receiveBefore r.tid r.order = true → Gives (.roundResultReceive r) s (s.push (.roundResultReceive r))) ∧
    (s.receiveBefore r.tid r.order = false → (∀ p ∈ s.units.routers, p.tid = r.tid → p.results = []) →
      Gives (.roundResultReceive r) s (s.push (.roundResultReceive r))) ∧
    (s.receiveBefore r.tid r.order = false → s.firstResult r.tid = some q → q.results = (k, d, vals, miss) :: rest →
      (∀ p ∈ s.units.routers, p.tid = r.tid → ∀ k' x xs, p.results = (k', x) :: xs → k ≤ k') ∧ ∃ t, Gives (.roundResultReceive r) s t ∧
        .tokenedOperationComplete { r.done with writes := [
          elemWrites r.vd (elemWidth d.fmt) (vals.map fun v => v.toNat), .s r.sd miss] } ∈ t.agenda ∧
        (t.router q.core q.tid).results = rest ∧ t.mem = s.mem)

/-- 12 R279 to R281; 13 R296 to R298: trees reduce the contributions of their nodes. Which rounds are older (log 29) and
how messages reach other devices (log 10) are the model's choice. -/
def Obligations.TreesReduceTheirContributions : Prop :=
  Claims.TreeSlotsContributeAndReceive ∧ Claims.RoutersReduceInPositionOrder

/-- 12 R283 to R286; 13 R300: a run at the head of its engine exchanges digests with its neighbours unless
its SEQ is past or its CID is marked; it sends each step's chunk through the lease of PEER. -/
def Sys2Proof.Claims.CollectiveRunsSendTheirSteps : Prop :=
  ∀ (s u : State) (e : Nat) (r : Run) (c : Cmd) (j : Job), s.headRun e = some (r, c) → s.job? r.job = some j →
    s.stepFailed e = none → c.wi = [] → u = s.setHead e c [] →
    (∀ m, r.stage = 0 → s.cidOf r.job r.cid = some m →
      (m.awaits = true → Gives (.collectiveRun e) s (u.push (.collectiveRun r.eng))) ∧
      (m.awaits = false → m.past r.seq = true → Gives (.collectiveRun e) s (u.endRunWith r 0x13)) ∧
      (m.awaits = false → m.past r.seq = false → m.marked = true → Gives (.collectiveRun e) s (u.endRunWith r 0x14)) ∧
      (m.awaits = false → m.past r.seq = false → m.marked = false → loopPrs r.desc = false →
        ∃ t, Gives (.collectiveRun e) s t ∧ { r with stage := 1 } ∈ t.units.runs ∧ t.mem = s.mem ∧
        ∀ dev ∈ [loopPdev r.desc, loopNdev r.desc], Sent s t dev
          (.collectiveStep ⟨s.devnum, r.eng, 0, 0, 0, j.tenant, r.cid, r.seq, r.digest, none, [], []⟩))) ∧
    (r.stage = 1 → (∃ q ∈ r.met, q.2 ≠ r.digest) → Gives (.collectiveRun e) s (u.mismatch r)) ∧
    (r.stage = 1 → (∀ q ∈ r.met, q.2 = r.digest) → r.metAll = true → loopPrs r.desc = false →
      Gives (.collectiveRun e) s ((u.setRun { r with stage := 2 }).push (.collectiveRun r.eng))) ∧
    (∀ (w : Nat) (ptrs peer : List Word) (xs : List Nat) (b : Buf) (dev : BitVec 14) (gix : Nat) (epoch : BitVec 32),
      r.stage = 2 → r.sent = false → w = elemWidth (loopFmt r.desc) / 8 →
      ptrs = chunkPtrs r.desc (r.desc.getD 1 0) (sendChunk r.desc (loopRank r.desc) r.step) →
      peer = chunkPtrs r.desc (r.desc.getD 2 0) (sendChunk r.desc (loopRank r.desc) r.step) →
      u.elemsWait j ptrs w (loopPrs r.desc) = (u, false) → u.readElems j w (loopPrs r.desc) ptrs = .ok xs →
      (∀ p ∈ peer, (u.check j 0 needW true (ptrIx p) (ptrOff p) w).isOk = true) →
      u.buf? j (ptrIx (r.desc.getD 2 0)) = some b → u.lease? b.lease = some (dev, gix, epoch) →
      ∃ t, Gives (.collectiveRun e) s t ∧ { r with sent := true } ∈ t.units.runs ∧ t.mem = s.mem ∧
        Sent s t dev (.collectiveStep ⟨s.devnum, r.eng, b.lease, gix, epoch, j.tenant, r.cid, r.seq, r.digest,
          some r.step, peer.map ptrOff, xs.flatMap (toLe w)⟩))

/-- 12 R283, R286; 13 R300; 18 R348: a digest that arrives is noted and goes on to the next rank; a step's chunk
that passes the checks of the lease path is combined, or copied, and the run goes to its next step, or waits for
the commit after its last; one that does not pass is answered; a step of another digest ends the run with
MISMATCH; packets of a SEQ that has ended or been aborted are dropped, and those of a run not yet known, not yet at the
head or not yet at the step, or that another device than PDEV sends, are held. That a chunk is combined whole in one
step is the model's choice (log 28). -/
def Sys2Proof.Claims.CollectivePacketsAreTaken : Prop :=
  (∀ (s : State) (p : RingPacket), s.run? p.tenant p.cid p.seq = none →
    (s.abortHeld p.tenant p.cid p.seq = true → Gives (.collectiveStep p) s s) ∧
    (∀ m, s.cid? p.tenant p.cid = some m → m.past p.seq = true → Gives (.collectiveStep p) s s) ∧
    (s.abortHeld p.tenant p.cid p.seq = false →
      (∀ m, s.cid? p.tenant p.cid = some m → m.past p.seq = false) → Gives (.collectiveStep p) s
      { s with units := { s.units with packets := s.units.packets ++ [p] } })) ∧
  ∀ (s : State) (p : RingPacket) (r q : Run) (c : Cmd) (j : Job), s.run? p.tenant p.cid p.seq = some r →
    s.headRun r.eng = some (q, c) → q.cmd = r.cmd → s.job? r.job = some j →
    (r.stage = 0 ∨ (∃ n, p.step = some n ∧ (r.stage ≠ 2 ∨ r.sent = false ∨ n ≠ r.step ∨ p.src ≠ loopPdev r.desc)) →
      Gives (.collectiveStep p) s { s with units := { s.units with packets := s.units.packets ++ [p] } }) ∧
    (p.step = none → 2 ≤ r.stage → Gives (.collectiveStep p) s s) ∧
    (p.step = none → r.stage = 1 → ∃ t, Gives (.collectiveStep p) s t ∧ t.mem = s.mem ∧
      { r with met := (p.src, p.digest) :: r.met } ∈ t.units.runs ∧
      ((∀ q ∈ r.met, q.1 ≠ p.src) → p.src ≠ loopNdev r.desc → Sent s t (loopNdev r.desc) (.collectiveStep p))) ∧
    (∀ (w : Nat) (ptrs : List Word) (old ys : List Nat) (u : State), p.step = some r.step → r.stage = 2 →
      r.sent = true → p.src = loopPdev r.desc → w = elemWidth (loopFmt r.desc) / 8 →
      (p.digest ≠ r.digest → Gives (.collectiveStep p) s (s.mismatch r)) ∧
      (p.digest = r.digest →
        (s.stepAdmits p w = none → Gives (.collectiveStep p) s (s.push (.collectiveStep p))) ∧
        (∀ a, s.stepAdmits p w = some (.error a) →
          Gives (.collectiveStep p) s (s.send p.src (.peerResponse ⟨p.lease, .engine p.eng, a⟩))) ∧
        (s.stepAdmits p w = some (.ok ()) →
        ptrs = chunkPtrs r.desc (r.desc.getD 1 0)
          (sendChunk r.desc ((loopRank r.desc + loopN r.desc - 1) % loopN r.desc) r.step) →
        s.elemsWait j ptrs w (loopPrs r.desc) = (s, false) →
        (loopPat r.desc ≠ 2 → r.step < loopN r.desc - 1 → s.readElems j w (loopPrs r.desc) ptrs = .ok old) →
        ys = (if loopPat r.desc ≠ 2 ∧ r.step < loopN r.desc - 1 then
          (old.zip (chunks w ptrs.length p.data)).map (fun x => (reduceOp (loopOp r.desc) (loopFmt r.desc) x.1 x.2).1)
          else chunks w ptrs.length p.data) →
        s.writeElems j (s.runEntry r) w (loopPrs r.desc) (ptrs.zip ys) = (u, none) → ∃ t r', Gives (.collectiveStep p) s t ∧
          t.mem = u.mem ∧ r' ∈ t.units.runs ∧ r'.cmd = r.cmd ∧ r'.step = r.step + 1 ∧ r'.sent = false ∧
          (r'.stage = 3 ↔ loopSteps r.desc ≤ r.step + 1))))

/-- 12 R283 to R286; 13 R300; 18 R348: a collective run sends its steps and takes those of its neighbour. -/
def Sys2Proof.Claims.CollectiveRunsStepRoundTheRing : Prop :=
  Claims.CollectiveRunsSendTheirSteps ∧ Claims.CollectivePacketsAreTaken

/-- A run is committed on this device: it goes on at the head of its engine, and its SEQ has committed (12 R284). -/
def Sys2Proof.Claims.Committed (s t : State) (r : Run) : Prop :=
  { r with stage := 4 } ∈ t.units.runs ∧ .collectiveRun r.eng ∈ t.agenda ∧ t.mem = s.mem ∧
    ∀ q, s.cidOf r.job r.cid = some q → ∃ q', t.cidOf r.job r.cid = some q' ∧ r.seq ∈ q'.closed

/-- 12 R284; 13 R300 to R302: ABRT sends its abort toward rank 0, and its token posts with the arbiter's answer; a
commit goes round the ranks and commits each run, which then ends DONE at the head of its engine, with PRS once its
shadow is published, its word 0x38 written and its token posted; a commit that comes before the run has ended its ring
is held. That the whole of BUF is published in one step is the model's choice (log 28). -/
def Sys2Proof.Claims.AbortsAreSentAndCommitsEndRuns : Prop :=
  (∀ (s u : State) (hd : Hdr) (d a : BitVec 6) (x : Nat) (w : List Word), Room s hd false →
    Acts s hd { s := [a], ds := [d] } → s.syncRead needR 64 (s.s! a) 64 0 = .ok u x → w = wordsOf x 64 →
    ∃ t post, Gives (.abrt hd d a) s t ∧ PostsOf u t (Hdr.tok hd) (if d = 0 then [] else [⟨0, u.sDst d⟩]) post ∧
      t.mem = u.mem ∧ t.core.regs = u.core.regs ∧
      ∀ m, m = (⟨((u.job? u.core.cont.job).map fun j => j.tenant).getD 0, loopCid w, loopSeq w, u.devnum, 0, false, 0,
          some ⟨u.core.id, u.core.cont.recPa, post, [], none⟩, u.sDst d, false⟩ : CollMsg) →
        (loopRank w = 0 → .abortRequest m ∈ t.agenda) ∧ (loopRank w ≠ 0 → Sent u t (loopNdev w) (.abortRequest m))) ∧
  (∀ (s : State) (m : CollMsg) (w : Completion), m.pass = 0 → m.waiter = some w →
    Gives (.abortDecision m) s (s.deliver { w with writes := [.s m.dst (BitVec.ofNat 64 m.code)] })) ∧
  (∀ (s : State) (m : CollMsg), s.run? m.tenant m.cid m.seq = none →
    (∀ c, s.cid? m.tenant m.cid = some c → c.past m.seq = true → Gives (.commit m) s s) ∧
    ((∀ c, s.cid? m.tenant m.cid = some c → c.past m.seq = false) → Gives (.commit m) s (s.holdMsg (.commit m)))) ∧
  (∀ (s : State) (m : CollMsg) (r : Run), s.run? m.tenant m.cid m.seq = some r →
    (r.stage < 3 → Gives (.commit m) s (s.holdMsg (.commit m))) ∧
    (3 ≤ r.stage →
      (m.pass = 0 → loopRank r.desc ≠ 0 → Gives (.commit m) s (s.send (loopNdev r.desc) (.commit m))) ∧
      (m.pass = 0 → loopRank r.desc = 0 → ∃ t, Gives (.commit m) s t ∧ Claims.Committed s t r ∧
        Sent s t (loopNdev r.desc) (.commit { m with pass := 1 })) ∧
      (m.pass ≠ 0 → ∃ t, Gives (.commit m) s t ∧ Claims.Committed s t r ∧
        (loopRank r.desc + 1 ≠ loopN r.desc → Sent s t (loopNdev r.desc) (.commit m))))) ∧
  ∀ (s u v : State) (e : Nat) (r : Run) (c : Cmd) (j : Job) (ptrs : List Word) (xs : List Nat) (w : Nat),
    e < 64 → s.headRun e = some (r, c) → s.job? r.job = some j → s.stepFailed e = none → c.wi = [] →
    u = s.setHead e c [] → r.stage = 4 → w = elemWidth (loopFmt r.desc) / 8 → ptrs = allPtrs r.desc →
    (loopPrs r.desc = false ∧ v = u ∨ loopPrs r.desc = true ∧ u.elemsWait j ptrs w true = (u, false) ∧
      u.readElems j w true ptrs = .ok xs ∧ u.writeElems j c.wo w false (ptrs.zip xs) = (v, none)) →
    ∃ t, Gives (.collectiveRun e) s t ∧ (∀ q ∈ t.units.runs, ¬ (q.cmd = r.cmd ∧ q.eng = r.eng)) ∧
      (0xFFF0 ≤ ptrIx (ptrAdd c.descPtr 0x38) → t.mem.cells = v.mem.cells ∧ ∀ p, c.tokPost = some p →
        .tokenedOperationComplete ⟨c.core, c.recPa, some p, [], none⟩ ∈ t.agenda)

/-- 12 R283, R285, R286; 13 R302: an abort request goes on to rank 0, which ends its runs and sends the decision
round, or answers that the commit or another abort came first; a decision and a mismatch notice end a rank's
runs with ABORTED or MISMATCH and go on; a message of a CID for which no record has been accepted is held. What the
messages between devices carry is the model's choice (log 10). -/
def Sys2Proof.Claims.AbortsAndMismatchesEndRuns : Prop :=
  (∀ (s : State) (m : CollMsg), s.accepted? m = none →
    Gives (.abortRequest m) s (s.holdMsg (.abortRequest m)) ∧
    Gives (.mismatchNotice m) s (s.holdMsg (.mismatchNotice m)) ∧
    (m.pass ≠ 0 → Gives (.abortDecision m) s (s.noteDecision m))) ∧
  ∀ (s : State) (m : CollMsg) (c : CidMark) (dev : BitVec 14), s.accepted? m = some (c, dev) →
    (c.rank ≠ 0 → Gives (.abortRequest m) s (s.send dev (.abortRequest m))) ∧
    (c.rank = 0 → s.runsTo c.job m.cid m.seq = [] →
      (c.past m.seq = false → Gives (.abortRequest m) s (s.holdMsg (.abortRequest m))) ∧
      (c.past m.seq = true → Gives (.abortRequest m) s
        (s.answerAbort m (if m.seq ∈ c.closed then 0 else 0x10)))) ∧
    (c.rank = 0 → s.runsTo c.job m.cid m.seq ≠ [] → ∃ t, Gives (.abortRequest m) s t ∧
      (∀ q ∈ t.units.runs, ∀ r ∈ s.runsTo c.job m.cid m.seq, ¬ (q.cmd = r.cmd ∧ q.eng = r.eng)) ∧
      (∃ wrote, Sent s t dev (.abortDecision { m with pass := 1, wrote := wrote, waiter := none, noted := false })) ∧
      (m.waiter ≠ none → Sent s t m.origin (.abortDecision { m with pass := 0, code := 0x10 }))) ∧
    (c.rank ≠ 0 → m.pass = 1 → m.noted = false → ∃ t, Gives (.abortDecision m) s t ∧
      (∀ q ∈ t.units.runs, ∀ r ∈ s.runsTo c.job c.cid m.seq, ¬ (q.cmd = r.cmd ∧ q.eng = r.eng)) ∧
      Sent s t dev (.abortDecision { m with wrote := m.wrote || (s.abortHere c m.seq).2 })) ∧
    (c.rank ≠ 0 → 2 ≤ m.pass → ∃ t, Gives (.abortDecision m) s t ∧ Sent s t dev (.abortDecision m) ∧
      t.cid? m.tenant m.cid = some { c with awaits := false, marked := c.marked || m.wrote }) ∧
    (c.rank = 0 → m.pass = 1 → ∃ t, Gives (.abortDecision m) s t ∧ Sent s t dev (.abortDecision { m with pass := 2 }) ∧
      t.cid? m.tenant m.cid = some { c with awaits := false, marked := c.marked || m.wrote }) ∧
    (c.rank = 0 → 2 ≤ m.pass → Gives (.abortDecision m) s s) ∧
    (m.origin = s.devnum → Gives (.mismatchNotice m) s s) ∧
    (m.origin ≠ s.devnum → ∃ t, Gives (.mismatchNotice m) s t ∧ Sent s t dev (.mismatchNotice m) ∧
      ∀ r, s.run? m.tenant m.cid m.seq = some r → ∀ q ∈ t.units.runs, ¬ (q.cmd = r.cmd ∧ q.eng = r.eng))

/-- 12 R283 to R286; 13 R300 to R302: aborts, commits and mismatches. -/
def Sys2Proof.Claims.CommitsAbortsAndMismatchesEndRuns : Prop :=
  Claims.AbortsAreSentAndCommitsEndRuns ∧ Claims.AbortsAndMismatchesEndRuns

/-- 12 R282 to R286; 13 R299 to R303: collectives run round the ring and end on every rank. That one step takes a whole
chunk, or publishes a whole BUF (log 28), and what the packets between devices carry (log 10) are the model's choice. -/
def Obligations.CollectivesRunAndEndOnEveryRank : Prop :=
  Claims.CollectiveRunsStepRoundTheRing ∧ Claims.CommitsAbortsAndMismatchesEndRuns

/-! ### The device around its cores -/

/-- 03 R52 to R54; 15 R331: an entry of the submission ring is refused by the first check that fails, or
starts its job or its cancel; its response is written at RQTAIL once the ring has room, and both indices
advance; the ring registers are writable while READY is set, the sizes and bases while the rings are empty. That the
rings lie in the companion processor's memory (log 8) and that a CANCEL's reserved fields are not checked (log 27) are
the model's choice. -/
def Obligations.RingsTakeEntriesAndWriteResponses : Prop :=
  (∀ s : State, s.submission = false → Gives .submit s s ∧ Gives .cancel s s) ∧
  (∀ (s : State) (pa : Nat), s.submission = true → pa = bits (s.sqWord 0) 47 0 →
    let w0 := s.sqWord 0
    let w1 := s.sqWord 1
    let op := bits w0 63 60
    (op ≠ 2 →
      (op ≠ 1 ∨ bits w0 59 48 ≠ 0 ∨ bits w1 26 16 ≠ 0 ∨ pa % 64 ≠ 0 ∨ bits w1 63 32 < 256 ∨ 23 < bits w1 31 27 →
        Gives .submit s (s.respond 1 0)) ∧
      (op = 1 → bits w0 59 48 = 0 → bits w1 26 16 = 0 → pa % 64 = 0 → 256 ≤ bits w1 63 32 → bits w1 31 27 ≤ 23 →
        (s.jobRecordOk pa = false → Gives .submit s (s.respond 2 0)) ∧
        (s.jobRecordOk pa = true → ∀ cl, cl = s.fieldOf pa 0x20 63 16 →
          (∀ c, lowestCluster cl (fun c => s.sched.offClusters.getLsbD c) = some c → Gives .submit s (s.respond 5 c)) ∧
          (lowestCluster cl (fun c => s.sched.offClusters.getLsbD c) = none →
            (∀ c, lowestCluster cl (fun c => (s.owner? c).isSome) = some c → Gives .submit s (s.respond 3 c)) ∧
            (lowestCluster cl (fun c => (s.owner? c).isSome) = none →
              Gives .submit s ((s.respond 0 0).acceptJob pa (bits w1 63 32) (bits w1 31 27))))))) ∧
    (op = 2 → (s.job? pa = none → Gives .cancel s (s.respond 4 0)) ∧
      (∀ j, s.job? pa = some j → Gives .cancel s ((s.respond 0 0).doTodos [.cancel pa])))) ∧
  (∀ (s : State) (r : Word × Word) (rs : List (Word × Word)) (h : HostRegs), Memory.wf s.mem = true →
    s.sched.responses = r :: rs → h = s.host →
    (BitVec.ofNat 16 ((h.rqtail.toNat + 1) % (h.sqsize.toNat + 1)) = h.rqhead → Gives .responseWrite s s) ∧
    (BitVec.ofNat 16 ((h.rqtail.toNat + 1) % (h.sqsize.toNat + 1)) ≠ h.rqhead → ∃ t, Gives .responseWrite s t ∧
      t.rd (3 * 2 ^ 52 + h.rqbase.toNat * 4096 + 16 * h.rqtail.toNat) 16 = r.1.toNat + r.2.toNat * 2 ^ 64 ∧
      t.sched.responses = rs ∧ t.host = { h with
        rqtail := BitVec.ofNat 16 ((h.rqtail.toNat + 1) % (h.sqsize.toNat + 1))
        sqhead := BitVec.ofNat 16 ((h.sqhead.toNat + 1) % (h.sqsize.toNat + 1)) })) ∧
  ∀ (s : State) (v : Word) (h : HostRegs), h = s.host →
    (h.ready = false → Gives (.sqsize v) s s ∧ Gives (.hostRegisterWrite 0x010 v) s s ∧
      Gives (.hostRegisterWrite 0x000 v) s s) ∧
    (h.ready = true →
      (h.sqhead = h.sqtail → h.rqhead = h.rqtail →
        Gives (.sqsize v) s { s with host := { h with
          sqsize := v.setWidth 16, sqhead := 0, sqtail := 0, rqhead := 0, rqtail := 0 } } ∧
        Gives (.hostRegisterWrite 0x000 v) s { s with host := { h with sqbase := v.extractLsb' 12 52 } } ∧
        Gives (.hostRegisterWrite 0x020 v) s { s with host := { h with rqbase := v.extractLsb' 12 52 } }) ∧
      (h.sqhead ≠ h.sqtail ∨ h.rqhead ≠ h.rqtail → ∀ i ∈ [Instr.sqsize v, .hostRegisterWrite 0x000 v,
        .hostRegisterWrite 0x020 v], Gives i s { s with host := { h with refused := h.refused + 1 } }) ∧
      ((v.setWidth 16).toNat ≤ h.sqsize.toNat →
        Gives (.hostRegisterWrite 0x010 v) s { s with host := { h with sqtail := v.setWidth 16 } } ∧
        Gives (.hostRegisterWrite 0x030 v) s { s with host := { h with rqhead := v.setWidth 16 } }) ∧
      (h.sqsize.toNat < (v.setWidth 16).toNat →
        Gives (.hostRegisterWrite 0x010 v) s { s with host := { h with refused := h.refused + 1 } }))

/-- 01 R23; 08 R192, R193; 14 R312, R318; 15 R329, R331, R339: PRQ with V set asks every running continuation
of its launch to answer; RESUME makes a FROZEN record READY; LCANCEL of a record of no job is refused;
ATTREQ reports after the host's nonce; a companion write leaves a record of the device alone and counts the
refusal; a slot-table write takes effect at the next frame. -/
def Sys2Proof.Claims.CompanionRequestsHaveTheirEffect : Prop :=
  (∀ (s : State) (v : Word), s.host.ready = true → s.host.prqGo = false →
    (v.getLsbD 63 = false → Gives (.prq v) s { s with host := { s.host with prqRec := v.setWidth 48 } }) ∧
    (v.getLsbD 63 = true → ∃ t, Gives (.prq v) s t ∧ t.mem = s.mem ∧ t.host.prqRec = v.setWidth 48 ∧
      (s.core.phase ≠ .idle → s.core.cont.launch = bits v.toNat 47 0 → t.core.cont.prq = true ∧ t.host.prqGo = true) ∧
      (s.core.cont.launch ≠ bits v.toNat 47 0 → t.core = s.core))) ∧
  (∀ (s : State) (v : Word), s.host.ready = false → Gives (.prq v) s s ∧ Gives (.lcancel v) s s ∧ Gives (.attreq v) s s) ∧
  (∀ (s : State) (v : Word) (r : Rec), s.rec? (bits v.toNat 47 0) = some r → Memory.wf s.mem = true →
    (s.recState r.pa ≠ csFrozen → Gives (.resume v) s s) ∧
    (s.recState r.pa = csFrozen → s.host.fatal = false → r.retired = false → s.creq r.launch = false →
      r.launch + 8 ≤ r.pa ∨ r.pa + 64 ≤ r.launch → s.gsizeOf r.pa = 0 → ∃ t, Gives (.resume v) s t ∧
      t.recState r.pa = csReady ∧ t.fieldOf r.pa 0x30 59 48 = 0 ∧ t.core = s.core)) ∧
  (∀ (s : State) (v : Word), s.host.ready = true →
    (s.sched.jobs = [] →
      Gives (.lcancel v) s { s with host := { s.host with refused := s.host.refused + 1 } }) ∧
    (∀ j u ok, s.sched.jobs = [j] → s.belongs j 4 (bits v.toNat 47 0) = (u, ok) → Gives (.lcancel v) s
      (if ok = true then u.doTodos [.cancel (bits v.toNat 47 0)] else
        { u with host := { u.host with refused := u.host.refused + 1 } })) ∧
    (Memory.wf s.mem = true → s.offMap < 2 ^ 96 → ∃ t, Gives (.attreq v) s t ∧
      ∀ a, a = bits v.toNat 47 8 * 256 → t.rd a 32 = s.rd a 32 ∧ t.rd (a + 32) 64 = (s.measured.getD 0).toNat ∧
        t.rd (a + 96) 32 = (s.devKey.getD 0).toNat ∧ t.rd (a + 128) 2 = s.devnum.toNat ∧
        t.rd (a + 176) 64 = (edSign Config.deviceSecret (toLe 176 (t.rd a 176))).toNat ∧ t.rd (a + 255) 1 = 1)) ∧
  (∀ (s : State) (a : Nat) (data : List Byte), Memory.wf s.mem = true →
    s.lpWaits (a + data.length - 1) = false →
    (∀ r ∈ s.sched.recs, a + data.length ≤ r.pa ∨ r.pa + 64 ≤ a) → ∃ t, Gives (.onlimirWrite a data) s t ∧
      t.host = s.host ∧ ∀ x, Cells.get t.mem.cells x =
        if a ≤ x ∧ x < a + data.length then data.getD (x - a) 0 else Cells.get s.mem.cells x) ∧
  (∀ (s : State) (a : Nat) (b : Byte) (r : Rec),
    s.sched.recs.find? (fun r => !r.spawning && decide (r.pa ≤ a) && decide (a < r.pa + 64)) = some r →
    s.recState r.pa = csReady ∨ s.recState r.pa = csRunning ∨ s.recState r.pa = csWaiting → s.lpWaits a = false →
    ∃ t, Gives (.onlimirWrite a [b]) s t ∧ t.mem.cells = s.mem.cells ∧ t.host = { s.host with refused := s.host.refused + 1 }) ∧
  (∀ s : State, s.hostRead 0x050 = 0 ∧ bits (s.hostRead 0x058).toNat 0 0 = s.host.ready.toNat ∧
    bits (s.hostRead 0x058).toNat 15 8 = s.host.failcode.toNat ∧
    bits (s.hostRead 0x058).toNat 31 16 = s.host.refused.toNat ∧ s.hostRead 0x070 = s.devnum.setWidth 64) ∧
  (∀ (s : State) (off : Nat) (v : Word) (p : Nat × Nat), slotOffset off = some p → Gives (.hostRegisterWrite off v) s
    { s with slots := { s.slots with pending := s.slots.pending ++ [(off, v)] } }) ∧
  ∀ (s : State) (off die n : Nat) (v : Word), s.slots.pending = [(off, v)] → slotOffset off = some (die, n) →
    s.slots.entries.length = 4 → s.slots.modes.length = 4 → (∀ e ∈ s.slots.entries, e.length = 64) →
    ∃ t, Gives (.slotTableFrameStart die) s t ∧ t.slots.pending = [] ∧
      (n < 64 → (t.slots.entries.getD die []).getD n 0 = v &&& 0xFFFFFFFFFFFF0002) ∧
      (n = 64 → t.slots.modes.getD die false = v.getLsbD 0)

/-- 03 R68; 08 R171, R172, R177, R178, R187; 15 R333: an idle core is replaced by its cluster's spare or
disabled, a running one at its next yield; a channel is held, then retired; a stack in self-refresh and a
row back-off are noted; a failing check value is noted where it lies, and faults an open link; an element of
a stream is fetched ahead of its head. -/
def Sys2Proof.Claims.MaintenanceEventsAreNoted : Prop :=
  (∀ (s : State) (core : Nat), core < 1152 →
    ((s.coreOf core).phase ≠ .idle → ∃ t, Gives (.coreRetire core) s t ∧ core ∈ t.sched.retire ∧
      .coreRetire core ∈ t.agenda ∧ t.core = s.core ∧ t.mem = s.mem) ∧
    ((s.coreOf core).phase = .idle → core ∉ s.sched.offCores → ∃ t, Gives (.coreRetire core) s t ∧
      (core / 24 ∉ s.sched.spares → core / 24 ∈ t.sched.spares ∧ core ∉ t.sched.retire ∧
        t.sched.offCores = s.sched.offCores) ∧
      (core / 24 ∈ s.sched.spares → s.owner? (core / 24) = none → core ∈ t.sched.offCores ∧
        core ∉ t.sched.retire))) ∧
  (∀ (s : State) (stack chan : Nat), stack < 12 → chan < 96 → s.host.retpc.length = 12 →
    (s.channelOff stack chan = false → (stack, chan) ∉ s.mem.chanHeld → ∃ t, Gives (.channelRetireHold stack chan) s t ∧
      t.mem.chanHeld = (stack, chan) :: s.mem.chanHeld ∧ .channelMigration stack chan ∈ t.agenda ∧
      t.mem.cells = s.mem.cells) ∧
    ((stack, chan) ∈ s.mem.chanHeld → ∃ t, Gives (.channelMigration stack chan) s t ∧
      (stack, chan) ∉ t.mem.chanHeld ∧ t.channelOff stack chan = true) ∧
    ((stack, chan) ∉ s.mem.chanHeld → Gives (.channelMigration stack chan) s s)) ∧
  (∀ (s : State) (stack : Nat),
    (∃ t, Gives (.selfRefreshEnter stack) s t ∧ stack ∈ t.mem.refresh ∧ t.mem.cells = s.mem.cells) ∧
    (∃ t, Gives (.selfRefreshExit stack) s t ∧ stack ∉ t.mem.refresh ∧ t.mem.cells = s.mem.cells) ∧
    (stack < s.mem.rhb.length → ∃ t, Gives (.rowBackOff stack) s t ∧
      t.mem.rhb.getD stack 0 = s.mem.rhb.getD stack 0 + 1 ∧ t.mem.cells = s.mem.cells)) ∧
  (∀ (s : State) (n core k : Nat),
    (∃ t, Gives (.checkValueFailure (.line n)) s t ∧ t.poisoned n 1 = true ∧ t.mem.cells = s.mem.cells) ∧
    (∀ file r, ∃ t, Gives (.checkValueFailure (.reg core file r)) s t ∧
      .reg core file r ∈ (t.coreOf core).store.bad ∧ t.mem = s.mem) ∧
    (∀ c l, s.openLink core k = some (c, l) → s.chain? c.job c.ch c.inst = some c → c.link? l.idx = some l →
      l.state = 1 ∨ l.state = 2 → c.state = 0 → ∀ i ∈ [BadPlace.slot core k, .arrival core k],
        ∃ t c' l', Gives (.checkValueFailure i) s t ∧ t.chain? c.job c.ch c.inst = some c' ∧
        (c.arbDev = s.devnum → c'.state = 1) ∧ c'.link? l.idx = some l' ∧ l'.state = 4) ∧
    (∃ t, Gives (.checkValueFailure (.cached core n)) s t ∧ t.poisoned n 1 = true ∧ t.mem.cells = s.mem.cells ∧
      ∀ b ∈ (t.coreOf core).store.l1, b.key / 64 ≠ n / 64) ∧
    (∃ t, Gives (.checkValueFailure (.shared k n)) s t ∧ t.poisoned n 1 = true ∧ t.mem.cells = s.mem.cells ∧
      ∀ b ∈ t.mem.cc, b.1 = k → b.2.key / 64 ≠ n / 64)) ∧
  ∀ (s : State) (q e : Nat) (b : Stream) (j : Job), q < 8 → s.core.regs.q[q]?.getD none = some b → s.core.phase = .running →
    e = b.next → e < b.total → s.job? s.core.cont.job = some j → ptrOff (b.ptr e) % 4 = 0 →
    s.core.cont.handler = false →
    (∀ p, p = b.ptr e → 0xFFF0 ≤ ptrIx p → ptrIx p ≤ 0xFFF3 →
      s.check j s.core.cont.obj.osize needR true (ptrIx p) (ptrOff p) 256 = .ok (.core (ptrIx p)) →
      s.core.store.bad = [] → ∃ t, Gives (.streamElementFetch s.core.id q) s t ∧ t.mem = s.mem ∧
        t.core.regs.q[q]?.getD none = some { b with asked := none, ahead := b.ahead ++
          [⟨e, BitVec.ofNat 2048 (s.core.store.read (ptrIx p) (ptrOff p) 256), none⟩] }) ∧
    (∀ p d ks, p = b.ptr e → s.check j s.core.cont.obj.osize needR true (ptrIx p) (ptrOff p) 256 = .ok (.buf d) →
      d.tier ≠ 3 → s.pureKeys j.tenant.toNat d.tier (d.pieces (ptrOff p) 256) = .ok ks →
      (s.askWalks j.tenant.toNat d.tier (d.pieces (ptrOff p) 256)).2 = false → s.portHeld d (ptrOff p) 256 ks = false →
      s.coreBad s.core.id ks = false → ∃ t, Gives (.streamElementFetch s.core.id q) s t ∧ t.mem.cells = s.mem.cells ∧
        t.core.regs.q[q]?.getD none = some { b with asked := none, ahead := b.ahead ++
          [⟨e, BitVec.ofNat 2048 (s.coreGet s.core.id ks).2, none⟩] }) ∧
    ∀ k, s.check j s.core.cont.obj.osize needR true (ptrIx (b.ptr e)) (ptrOff (b.ptr e)) 256 = .error k →
      ∃ t, Gives (.streamElementFetch s.core.id q) s t ∧
        t.core.regs.q[q]?.getD none = some { b with asked := none, ahead := b.ahead ++ [⟨e, 0, some (k, 0, 0)⟩] }

/-- 01 R23; 03 R68; 08 R171, R172, R177, R192; 15 R329 to R333: companion requests and maintenance events. That a line
which fails in a cache is poisoned in memory (log 31), that LCANCEL finds its job by PARENT (log 27) and that ATTREQ
names HBM4E memory (log 8) are the model's choice. -/
def Obligations.CompanionAndMaintenanceEventsHaveTheirEffect : Prop :=
  Claims.CompanionRequestsHaveTheirEffect ∧ Claims.MaintenanceEventsAreNoted

/-- 14 R323; 15 R334 to R338, R343: reset starts the power-up sequence and leaves what the memories hold;
each phase advances, or stops the sequence with its number in FAILCODE, the first when the image's signature does
not verify; HBM and then the LP tier of a board that has one, region by region, read 0; READY follows the last phase; a fatal error clears READY, and its dump begins with its magic
word; power and thermal events change no memory and no core. That reset keeps memory (log 36), that a CXL board zeroes
no LP tier and sets no LPZ (log 39), the 732,422 regions (log 6) and the memory that the dump lies in (log 8) are the
model's choice. -/
def Obligations.PowerUpAndFatalEventsFollowTheirSequence : Prop :=
  (∀ s : State, ∃ t, Gives .reset s t ∧ t.mem.cells = s.mem.cells ∧ t.host.phase = 1 ∧ t.host.ready = false ∧
    t.host.fatal = false ∧ t.host.failcode = 0 ∧ t.sched = State.reset.sched ∧ t.core = State.reset.core ∧
    t.parked = [] ∧ t.agenda = []) ∧
  (∀ (s : State) (ok : Bool), ∀ r ∈ [(1, Instr.firmwareSignatureVerify ok), (2, .selfCalibration ok),
      (3, .memoryInitialisation ok), (4, .hbmZeroing ok)], s.host.failcode = 0 → s.host.fatal = false →
    (s.host.phase ≠ r.1 → Gives r.2 s s) ∧
    ∀ good, good = (ok && (decide (r.1 ≠ 1) ||
        edVerify Config.releaseKey Config.firmwareImage Config.firmwareSignature)) →
    (s.host.phase = r.1 → (good = false →
        Gives r.2 s { s with host := { s.host with failcode := (r.1 : BitVec 3).setWidth 8 } }) ∧
      (good = true → ∃ t, Gives r.2 s t ∧ t.host.phase = r.1 + 1 ∧ (r.1 ≠ 3 → t.core = s.core) ∧
        (r.1 = 1 → t.host.fwok = true ∧
          t.measured = some (BitVec.ofNat 512 (leNat (sha512 Config.firmwareImage))) ∧
          t.devKey = some (edPublic Config.deviceSecret)) ∧
        (r.1 = 3 → t.sched.offClusters = Config.failingClusters) ∧
        (r.1 = 4 → Memory.wf s.mem = true → ∀ x, Cells.get t.mem.cells x =
          if x < 2 ^ 52 then 0 else Cells.get s.mem.cells x)))) ∧
  (∀ s : State, s.host.phase = 5 → s.host.failcode = 0 → s.host.ready = false → s.host.fatal = false →
    ∃ t, Gives .schedulerClear s t ∧ t.host.ready = true ∧ t.sched.jobs = [] ∧ t.sched.recs = [] ∧
      t.units = { State.reset.units with images := s.units.images } ∧ t.mem = s.mem) ∧
  (∀ s : State, Config.cxlBoard = true → Gives .lpRegionZeroed s s ∧ Gives .lpTierZeroingComplete s s) ∧
  (∀ s : State, 4 ≤ s.host.phase.toNat → s.host.lpz = false → Config.cxlBoard = false → Memory.wf s.mem = true →
    (s.mem.lpZeroed < 732422 → ∃ t, Gives .lpRegionZeroed s t ∧ t.mem.lpZeroed = s.mem.lpZeroed + 1 ∧
      ∀ x a, a = 2 ^ 52 + s.mem.lpZeroed * 2 ^ 21 → Cells.get t.mem.cells x =
        if a ≤ x ∧ x < a + 2 ^ 21 then 0 else Cells.get s.mem.cells x) ∧
    (732422 ≤ s.mem.lpZeroed → Gives .lpRegionZeroed s s ∧
      Gives .lpTierZeroingComplete s { s with host := { s.host with lpz := true } })) ∧
  (∀ (s : State) (code : Nat), (s.host.fatal = true → Gives (.fatalError code) s s) ∧
    (s.host.fatal = false → Gives (.fatalError code) s { s with host := { s.host with
      fatal := true, failcode := BitVec.ofNat 8 code, ready := false } })) ∧
  (∀ s : State, (s.dumpDue = false → Gives .dump s s) ∧
    (s.dumpDue = true → Memory.wf s.mem = true → (∀ n, s.lpWaits (s.dumpKey + n) = false) → ∃ t, Gives .dump s t ∧ t.host.dumped = true ∧
      t.rd s.dumpKey 8 = 0x504D554431340000 + 0x414B ∧ t.rd (s.dumpKey + 16) 2 = s.host.failcode.toNat ∧
      t.rd (s.dumpKey + 18) 2 = s.devnum.toNat)) ∧
  ∀ (s : State) (p : BitVec 16) (core : Nat), Gives (.thermalStall core) s s ∧
    Gives (.pnowApproachingCap p) s { s with host := { s.host with pnow := p } }

/-! ### Encoding -/

namespace Sys2Proof.Claims

/-- A slot's header. -/
abbrev H (g : BitVec 3) (l : BitVec 2) (x : List (BitVec 20)) : Hdr := ⟨g, l, x⟩

/-- The words that the manual writes out, each as a bundle of its own with its IMM slots, with the
instruction that it gives for them (04 R85; 06 R142; 07 R148, R156, R159; 09 R218; 13 R293; 14 R325; 16 R345;
17 R347; 18 R349). -/
def examples : List (List SlotWord × Instr) := [
  ([0x82003105], .add (H 0 0 []) 3 4 5),
  ([0x02106100, 0x8FF186A0], .addi (H 0 0 [100000]) 6 4 0),
  ([0xA9041083], .vaddF32 (H 2 1 []) 1 2 3),
  ([0xC013FFF4], .br (H 4 0 []) 1 (BitVec.ofInt 17 (-12))),
  ([0x83E04005], .movi (H 0 0 []) 4 5),
  ([0x81062000], .bdnz (H 0 1 []) 1 4 0),
  ([0x80900000], .exit (H 0 0 [])),
  ([0x2930417A, 0x8FF00001], .vfmaF32 (H 2 0 [1]) 4 5 58),
  ([0x8B009040], .vrsumF32 (H 0 0 []) 9 1),
  ([0x061042A0, 0x0FF000E0, 0x8FF00100], .st (H 0 0 [0xE0, 0x100]) 4 10 2),
  ([0x0E008300, 0x0FF3CD60, 0x8FF34000], .cpy (H 0 0 [0x3CD60, 0x34000]) 2 12),
  ([0x07A051C6, 0x0FF1C920, 0x8FF00040], .amaxf (H 0 0 [0x1C920, 0x40]) 5 7 6),
  ([0x8F038040], .srrd (H 0 0 []) 56 0x010),
  ([0x8F1018EC], .srwr (H 0 0 []) 0x018 59),
  ([0x8F200001], .eretS (H 0 0 [])),
  ([0x80F00005], .brk (H 0 0 []) 5),
  ([0x04101040, 0x8FF00004], .bpadd (H 0 0 [4]) 1 1 0),
  ([0x810A6FF5], .bdnz (H 0 2 []) 1 13 (BitVec.ofInt 11 (-11))),
  ([0x5E649144, 0x8FFA4000], .rpsnd (H 5 1 [0xA4000]) 9 5 4),
  ([0x80B29740], .wtkRf1 (H 0 0 []) 20 29),
  ([0x80500000], .ret (H 0 0 [])),
  ([0x0E7060D8, 0x8FF2C000], .rprcv (H 0 0 [0x2C000]) 6 3 24),
  ([0x0BA0E307, 0x8FF0000A], .vqnt (H 0 0 [0xA]) 14 12 7),
  ([0x0E200080, 0x8FF34D60], .coll (H 0 0 [0x34D60]) 0 2),
  ([0x0C408F00, 0x8FF4D520], .chc (H 0 0 [0x4D520]) 2 15 0),
  ([0x07E10140, 0x8FF5C000], .wchk (H 0 0 [0x5C000]) 16 5),
  ([0x80B0C001], .wtk (H 0 0 []) 6 1),
  ([0x0E33B080, 0x8FFFC000], .abrt (H 0 0 [0xFC000]) 59 2),
  ([0x80600000], .yield (H 0 0 []) 0)]

end Sys2Proof.Claims

/-- Every word that the manual writes out decodes to the slot that it gives, and that slot encodes to the
word. -/
def Obligations.TheManualsExampleWordsDecode : Prop :=
  ∀ r ∈ examples, decode r.1 = some r.2 ∧ encode r.2 = r.1

/-- 04 R73, R78, R79, R82: every well-formed slot is what its words decode to, with every operand at every
value that its encoding admits. -/
def Obligations.DecodingTheEncodedSlotGivesItBack : Prop := ∀ i : Instr, i.wf = true → decode (encode i) = some i

/-- 04 R73, R77, R78, R82, R85: a bundle of one slot that decodes is well formed, and its slot's words are
its own, whatever its bits: no bit of a slot is dropped and no reserved bit is let pass. -/
def Obligations.DecodedWordsAreTheSlotsOwn : Prop :=
  ∀ (ws : List SlotWord) (i : Instr), takeBundle 8 ws = some ws → decode ws = some i → i.wf = true ∧ encode i = ws
end

