-- ==== Sys2Proof/Laws/Cores.lean ====
section
/-!
SUPPORT. Laws of the cores of a device: reading, replacing and turning to one, and what these and the
agenda leave as they were.
-/
namespace Sys2Proof.Machine

/-! ### Which core a number names -/

@[simp] theorem Core.reset_id (id : Nat) : (Core.reset id).id = id := rfl

/-- The core of a number has that number. -/
@[simp] theorem State.coreOf_id (s : State) (id : Nat) : (s.coreOf id).id = id := by
  unfold State.coreOf
  split
  · assumption
  · cases h : s.parked.find? fun c => decide (c.id = id) with
    | none => rfl
    | some c => simpa using List.find?_some h

/-- The core in turn is the core of its number. -/
@[simp] theorem State.coreOf_self (s : State) : s.coreOf s.core.id = s.core := by simp [State.coreOf]

/-- Leaving one number out of a list of cores leaves the search for another as it was. -/
theorem find?_filter_ne (cs : List Core) {id k : Nat} (h : k ≠ id) :
    (cs.filter fun q => !decide (q.id = id)).find? (fun c => decide (c.id = k)) =
      cs.find? fun c => decide (c.id = k) := by
  induction cs with
  | nil => rfl
  | cons c cs ih =>
    rw [List.filter_cons]
    by_cases hc : c.id = id
    · have : ¬ c.id = k := fun e => h (e.symm.trans hc)
      simp [hc, ih, Ne.symm h]
    · simp [hc, List.find?_cons, ih]

/-- After a core is replaced, its number names it and every other number what it named. -/
theorem State.coreOf_setCore (s : State) (c : Core) (k : Nat) :
    (s.setCore c).coreOf k = if k = c.id then c else s.coreOf k := by
  unfold State.setCore
  split
  · rename_i h
    unfold State.coreOf
    by_cases hk : k = c.id
    · simp [hk]
    · simp [hk, Ne.symm hk, h]
  · rename_i h
    unfold State.coreOf
    by_cases hk : k = c.id
    · simp [hk, h]
    · simp [hk, Ne.symm hk, find?_filter_ne _ hk]

/-- Turning to a core makes it the core in turn. -/
@[simp] theorem State.focus_core (s : State) (id : Nat) : (s.focus id).core = s.coreOf id := by
  unfold State.focus
  split
  · rename_i h; rw [← h, State.coreOf_self]
  · rfl

/-- Turning to the core in turn does nothing. -/
@[simp] theorem State.focus_self (s : State) : s.focus s.core.id = s := by simp [State.focus]

/-- Turning to a core changes no core. -/
@[simp] theorem State.coreOf_focus (s : State) (id k : Nat) : (s.focus id).coreOf k = s.coreOf k := by
  unfold State.focus
  split
  · rfl
  · rename_i h
    by_cases hk : k = id
    · subst hk
      have hi := s.coreOf_id k
      generalize s.coreOf k = d at hi
      simp [State.coreOf, hi]
    · have hi := s.coreOf_id id
      generalize s.coreOf id = d at hi
      unfold State.coreOf
      simp only [hi, if_neg (Ne.symm hk), List.find?_cons]
      by_cases hs : s.core.id = k
      · simp [hs]
      · simp [hs, find?_filter_ne _ hk]

/-! ### What stays -/

@[simp] theorem State.setCore_mem (s : State) (c : Core) : (s.setCore c).mem = s.mem := by
  unfold State.setCore; split <;> rfl
@[simp] theorem State.setCore_sched (s : State) (c : Core) : (s.setCore c).sched = s.sched := by
  unfold State.setCore; split <;> rfl
@[simp] theorem State.setCore_units (s : State) (c : Core) : (s.setCore c).units = s.units := by
  unfold State.setCore; split <;> rfl
@[simp] theorem State.setCore_host (s : State) (c : Core) : (s.setCore c).host = s.host := by
  unfold State.setCore; split <;> rfl
@[simp] theorem State.setCore_slots (s : State) (c : Core) : (s.setCore c).slots = s.slots := by
  unfold State.setCore; split <;> rfl
@[simp] theorem State.setCore_measured (s : State) (c : Core) : (s.setCore c).measured = s.measured := by
  unfold State.setCore; split <;> rfl
@[simp] theorem State.setCore_devKey (s : State) (c : Core) : (s.setCore c).devKey = s.devKey := by
  unfold State.setCore; split <;> rfl
@[simp] theorem State.setCore_devnum (s : State) (c : Core) : (s.setCore c).devnum = s.devnum := by
  unfold State.setCore; split <;> rfl
@[simp] theorem State.setCore_peers (s : State) (c : Core) : (s.setCore c).peers = s.peers := by
  unfold State.setCore; split <;> rfl
@[simp] theorem State.setCore_agenda (s : State) (c : Core) : (s.setCore c).agenda = s.agenda := by
  unfold State.setCore; split <;> rfl
@[simp] theorem State.setCore_inputs (s : State) (c : Core) : (s.setCore c).inputs = s.inputs := by
  unfold State.setCore; split <;> rfl
@[simp] theorem State.setCore_outbox (s : State) (c : Core) : (s.setCore c).outbox = s.outbox := by
  unfold State.setCore; split <;> rfl
@[simp] theorem State.setCore_tick (s : State) (c : Core) : (s.setCore c).tick = s.tick := by
  unfold State.setCore; split <;> rfl
@[simp] theorem State.setCore_nextId (s : State) (c : Core) : (s.setCore c).nextId = s.nextId := by
  unfold State.setCore; split <;> rfl
@[simp] theorem State.focus_mem (s : State) (id : Nat) : (s.focus id).mem = s.mem := by
  unfold State.focus; split <;> rfl
@[simp] theorem State.focus_sched (s : State) (id : Nat) : (s.focus id).sched = s.sched := by
  unfold State.focus; split <;> rfl
@[simp] theorem State.focus_units (s : State) (id : Nat) : (s.focus id).units = s.units := by
  unfold State.focus; split <;> rfl
@[simp] theorem State.focus_host (s : State) (id : Nat) : (s.focus id).host = s.host := by
  unfold State.focus; split <;> rfl
@[simp] theorem State.focus_slots (s : State) (id : Nat) : (s.focus id).slots = s.slots := by
  unfold State.focus; split <;> rfl
@[simp] theorem State.focus_measured (s : State) (id : Nat) : (s.focus id).measured = s.measured := by
  unfold State.focus; split <;> rfl
@[simp] theorem State.focus_devKey (s : State) (id : Nat) : (s.focus id).devKey = s.devKey := by
  unfold State.focus; split <;> rfl
@[simp] theorem State.focus_devnum (s : State) (id : Nat) : (s.focus id).devnum = s.devnum := by
  unfold State.focus; split <;> rfl
@[simp] theorem State.focus_peers (s : State) (id : Nat) : (s.focus id).peers = s.peers := by
  unfold State.focus; split <;> rfl
@[simp] theorem State.focus_agenda (s : State) (id : Nat) : (s.focus id).agenda = s.agenda := by
  unfold State.focus; split <;> rfl
@[simp] theorem State.focus_inputs (s : State) (id : Nat) : (s.focus id).inputs = s.inputs := by
  unfold State.focus; split <;> rfl
@[simp] theorem State.focus_outbox (s : State) (id : Nat) : (s.focus id).outbox = s.outbox := by
  unfold State.focus; split <;> rfl
@[simp] theorem State.focus_tick (s : State) (id : Nat) : (s.focus id).tick = s.tick := by
  unfold State.focus; split <;> rfl
@[simp] theorem State.focus_nextId (s : State) (id : Nat) : (s.focus id).nextId = s.nextId := by
  unfold State.focus; split <;> rfl

/-! ### The agenda and the outbox -/

/-- A packet for this device is in flight in it. -/
theorem State.send_here (s : State) (e : Event) : s.send s.devnum e = s.push e := by simp [State.send]

/-- A packet for another device goes toward it. -/
theorem State.send_away {s : State} {d : BitVec 14} (e : Event) (h : d ≠ s.devnum) :
    s.send d e = { s with outbox := s.outbox ++ [(d, e)] } := by simp [State.send, h]

@[simp] theorem State.send_core (s : State) (d : BitVec 14) (e : Event) : (s.send d e).core = s.core := by
  unfold State.send; split <;> rfl
@[simp] theorem State.send_parked (s : State) (d : BitVec 14) (e : Event) : (s.send d e).parked = s.parked := by
  unfold State.send; split <;> rfl
@[simp] theorem State.send_mem (s : State) (d : BitVec 14) (e : Event) : (s.send d e).mem = s.mem := by
  unfold State.send; split <;> rfl
@[simp] theorem State.send_sched (s : State) (d : BitVec 14) (e : Event) : (s.send d e).sched = s.sched := by
  unfold State.send; split <;> rfl
@[simp] theorem State.send_units (s : State) (d : BitVec 14) (e : Event) : (s.send d e).units = s.units := by
  unfold State.send; split <;> rfl
@[simp] theorem State.send_host (s : State) (d : BitVec 14) (e : Event) : (s.send d e).host = s.host := by
  unfold State.send; split <;> rfl
@[simp] theorem State.send_slots (s : State) (d : BitVec 14) (e : Event) : (s.send d e).slots = s.slots := by
  unfold State.send; split <;> rfl
@[simp] theorem State.send_measured (s : State) (d : BitVec 14) (e : Event) : (s.send d e).measured = s.measured := by
  unfold State.send; split <;> rfl
@[simp] theorem State.send_devKey (s : State) (d : BitVec 14) (e : Event) : (s.send d e).devKey = s.devKey := by
  unfold State.send; split <;> rfl
@[simp] theorem State.send_devnum (s : State) (d : BitVec 14) (e : Event) : (s.send d e).devnum = s.devnum := by
  unfold State.send; split <;> rfl
@[simp] theorem State.send_peers (s : State) (d : BitVec 14) (e : Event) : (s.send d e).peers = s.peers := by
  unfold State.send; split <;> rfl
@[simp] theorem State.send_inputs (s : State) (d : BitVec 14) (e : Event) : (s.send d e).inputs = s.inputs := by
  unfold State.send; split <;> rfl
@[simp] theorem State.send_tick (s : State) (d : BitVec 14) (e : Event) : (s.send d e).tick = s.tick := by
  unfold State.send; split <;> rfl
@[simp] theorem State.send_nextId (s : State) (d : BitVec 14) (e : Event) : (s.send d e).nextId = s.nextId := by
  unfold State.send; split <;> rfl

end Sys2Proof.Machine
end

