-- ==== Sys2Proof/Laws/Memory.lean ====
section
/-!
SUPPORT. Laws of the canonical cell list, and that every memory operation keeps it (00 R9; log 3).
-/
namespace Sys2Proof.Machine

/-! ### The canonical form -/

theorem Cells.wf_cons (k : Nat) (v : Byte) (cs : List Host.Cell) :
    Cells.wf ((k, v) :: cs) = true ↔ v ≠ 0 ∧ (∀ c ∈ cs, k < c.1) ∧ Cells.wf cs = true := by
  induction cs generalizing k v with
  | nil => simp [Cells.wf]
  | cons c cs ih =>
    obtain ⟨k', v'⟩ := c
    have h := ih k' v'
    simp only [Cells.wf, Bool.and_eq_true, decide_eq_true_eq]
    constructor
    · rintro ⟨⟨hv, hk⟩, hw⟩
      refine ⟨hv, fun c hc => ?_, hw⟩
      rcases List.mem_cons.mp hc with rfl | hc
      · exact hk
      · exact Nat.lt_trans hk ((h.mp hw).2.1 c hc)
    · rintro ⟨hv, hk, hw⟩
      exact ⟨⟨hv, hk _ List.mem_cons_self⟩, hw⟩

@[simp] theorem Cells.wf_nil : Cells.wf [] = true := rfl
@[simp] theorem Cells.get_nil (a : Nat) : Cells.get [] a = 0 := rfl

/-- An address below every listed one reads 0. -/
theorem Cells.get_of_lt {cs : List Host.Cell} {a : Nat} (h : ∀ c ∈ cs, a < c.1) : Cells.get cs a = 0 := by
  cases cs with
  | nil => rfl
  | cons c cs =>
    have := h c List.mem_cons_self
    simp only [Cells.get]
    rw [if_neg (by omega), if_pos this]

/-- What a list of cells without one address or value reads. -/
theorem Cells.wf_tail {c : Host.Cell} {cs : List Host.Cell} (h : Cells.wf (c :: cs) = true) :
    Cells.wf cs = true := ((Cells.wf_cons c.1 c.2 cs).mp h).2.2

/-! ### Writing one byte -/

/-- The addresses that a write lists. -/
theorem Cells.mem_set {cs : List Host.Cell} {a : Nat} {b : Byte} {c : Host.Cell}
    (h : c ∈ Cells.set cs a b) : c.1 = a ∨ c ∈ cs := by
  induction cs with
  | nil =>
    simp only [Cells.set] at h
    split at h
    · simp at h
    · simp only [List.mem_singleton] at h; exact .inl (by rw [h])
  | cons d cs ih =>
    obtain ⟨k, v⟩ := d
    simp only [Cells.set] at h
    split at h
    · split at h
      · exact .inr h
      · rcases List.mem_cons.mp h with rfl | h
        · exact .inl rfl
        · exact .inr h
    · split at h
      · split at h
        · exact .inr (List.mem_cons_of_mem _ h)
        · rcases List.mem_cons.mp h with rfl | h
          · exact .inl rfl
          · exact .inr (List.mem_cons_of_mem _ h)
      · rcases List.mem_cons.mp h with rfl | h
        · exact .inr List.mem_cons_self
        · exact (ih h).imp id (List.mem_cons_of_mem _)

/-- A write of one byte keeps the canonical form. -/
theorem Cells.wf_set {cs : List Host.Cell} (a : Nat) (b : Byte) (h : Cells.wf cs = true) :
    Cells.wf (Cells.set cs a b) = true := by
  induction cs with
  | nil => simp only [Cells.set]; split <;> simp_all [Cells.wf]
  | cons d cs ih =>
    obtain ⟨k, v⟩ := d
    have ⟨hv, hk, hw⟩ := (Cells.wf_cons k v cs).mp h
    simp only [Cells.set]
    split
    case isTrue hlt =>
      split
      · exact h
      · rename_i hb
        refine (Cells.wf_cons _ _ _).mpr ⟨hb, fun c hc => ?_, h⟩
        rcases List.mem_cons.mp hc with rfl | hc
        · exact hlt
        · exact Nat.lt_trans hlt (hk c hc)
    case isFalse hlt =>
      split
      case isTrue he =>
        split
        · exact hw
        · rename_i hb
          subst he
          exact (Cells.wf_cons _ _ _).mpr ⟨hb, hk, hw⟩
      case isFalse he =>
        refine (Cells.wf_cons _ _ _).mpr ⟨hv, fun c hc => ?_, ih hw⟩
        rcases Cells.mem_set hc with rfl | hc
        · omega
        · exact hk c hc

/-- A byte reads as the value last written to it, and every other as before. -/
theorem Cells.get_set {cs : List Host.Cell} (a : Nat) (b : Byte) (x : Nat) (h : Cells.wf cs = true) :
    Cells.get (Cells.set cs a b) x = if x = a then b else Cells.get cs x := by
  induction cs with
  | nil =>
    simp only [Cells.set]
    split
    · subst_vars; simp
    · simp [Cells.get]
  | cons d cs ih =>
    obtain ⟨k, v⟩ := d
    have ⟨hv, hk, hw⟩ := (Cells.wf_cons k v cs).mp h
    simp only [Cells.set]
    split
    case isTrue hlt =>
      by_cases hx : x = a
      · subst hx
        split
        · rename_i hb; subst hb
          simp only [Cells.get]
          rw [if_neg (by omega), if_pos hlt]; simp
        · simp [Cells.get]
      · rw [if_neg hx]
        split
        · rfl
        · rw [Cells.get, if_neg hx]
          split
          · simp only [Cells.get]
            rw [if_neg (by omega), if_pos (by omega)]
          · rfl
    case isFalse hlt =>
      split
      case isTrue he =>
        subst he
        by_cases hx : x = a
        · subst hx
          split
          · rename_i hb; subst hb
            rw [Cells.get_of_lt hk]; simp
          · simp [Cells.get]
        · rw [if_neg hx]
          split
          · simp only [Cells.get]
            rw [if_neg hx]
            split
            · exact Cells.get_of_lt fun c hc => Nat.lt_trans ‹_› (hk c hc)
            · rfl
          · simp only [Cells.get, if_neg hx]
      case isFalse he =>
        simp only [Cells.get]
        rw [ih hw]
        by_cases hx : x = a
        · subst hx; rw [if_pos rfl, if_pos rfl, if_neg he, if_neg hlt]
        · simp only [if_neg hx]

/-! ### Writing and reading a range -/

/-- A write keeps the canonical form. -/
theorem Cells.wf_write {cs : List Host.Cell} (a n x : Nat) (h : Cells.wf cs = true) :
    Cells.wf (Cells.write cs a n x) = true := by
  induction n generalizing cs a x with
  | zero => exact h
  | succ n ih => exact ih _ _ (Cells.wf_set _ _ h)

/-- The bytes outside a written range read as before. -/
theorem Cells.get_write_outside {cs : List Host.Cell} {a n : Nat} (x : Nat) {y : Nat}
    (h : Cells.wf cs = true) (hy : y < a ∨ a + n ≤ y) :
    Cells.get (Cells.write cs a n x) y = Cells.get cs y := by
  induction n generalizing cs a x with
  | zero => rfl
  | succ n ih =>
    rw [Cells.write, ih _ (Cells.wf_set _ _ h) (by omega), Cells.get_set _ _ _ h, if_neg (by omega)]

/-- The bytes of a written range are the number's, least significant first (00 R9). -/
theorem Cells.get_write_inside {cs : List Host.Cell} {a n : Nat} (x : Nat) {i : Nat}
    (h : Cells.wf cs = true) (hi : i < n) :
    Cells.get (Cells.write cs a n x) (a + i) = BitVec.ofNat 8 (x / 256 ^ i) := by
  induction n generalizing cs a x i with
  | zero => omega
  | succ n ih =>
    rw [Cells.write]
    cases i with
    | zero =>
      rw [Cells.get_write_outside _ (Cells.wf_set _ _ h) (by omega), Cells.get_set _ _ _ h]
      simp
    | succ i =>
      have := ih (a := a + 1) (x / 256) (Cells.wf_set a (BitVec.ofNat 8 x) h) (i := i) (by omega)
      rw [show a + (i + 1) = a + 1 + i by omega, this, Nat.div_div_eq_div_mul, Nat.pow_succ, Nat.mul_comm]

/-- A read depends only on the bytes it reads. -/
theorem Cells.read_congr {cs ds : List Host.Cell} {a n : Nat}
    (h : ∀ i < n, Cells.get cs (a + i) = Cells.get ds (a + i)) : Cells.read cs a n = Cells.read ds a n := by
  induction n generalizing a with
  | zero => rfl
  | succ n ih =>
    rw [Cells.read, Cells.read, show Cells.get cs a = Cells.get ds a from h 0 (by omega),
      ih fun i hi => by have := h (i + 1) (by omega); rwa [show a + (i + 1) = a + 1 + i by omega] at this]

/-- A read of bytes that a write leaves alone gives what it gave. -/
theorem Cells.read_write_outside {cs : List Host.Cell} {a n b m : Nat} (x : Nat)
    (h : Cells.wf cs = true) (hd : b + m ≤ a ∨ a + n ≤ b) :
    Cells.read (Cells.write cs a n x) b m = Cells.read cs b m :=
  Cells.read_congr fun _ _ => Cells.get_write_outside x h (by omega)

theorem Cells.read_lt (cs : List Host.Cell) (a n : Nat) : Cells.read cs a n < 256 ^ n := by
  induction n generalizing a with
  | zero => simp [Cells.read]
  | succ n ih =>
    have := ih (a + 1)
    have := (Cells.get cs a).isLt
    rw [Cells.read, Nat.pow_succ]
    omega

/-! ### Clearing and replacing -/

theorem Cells.wf_filter {cs : List Host.Cell} (p : Host.Cell → Bool) (h : Cells.wf cs = true) :
    Cells.wf (cs.filter p) = true := by
  induction cs with
  | nil => rfl
  | cons c cs ih =>
    have ⟨hv, hk, hw⟩ := (Cells.wf_cons c.1 c.2 cs).mp h
    rw [List.filter_cons]
    split
    · exact (Cells.wf_cons c.1 c.2 _).mpr ⟨hv, fun d hd => hk d (List.mem_filter.mp hd).1, ih hw⟩
    · exact ih hw

/-- Clearing a range keeps the canonical form. -/
theorem Cells.wf_zero {cs : List Host.Cell} (a n : Nat) (h : Cells.wf cs = true) :
    Cells.wf (Cells.zero cs a n) = true := Cells.wf_filter _ h

/-- Clearing a range: its bytes read 0, every other as before (08 R169). -/
theorem Cells.get_zero {cs : List Host.Cell} (a n x : Nat) (h : Cells.wf cs = true) :
    Cells.get (Cells.zero cs a n) x = if a ≤ x ∧ x < a + n then 0 else Cells.get cs x := by
  induction cs with
  | nil => simp [Cells.zero]
  | cons c cs ih =>
    obtain ⟨k, v⟩ := c
    have ⟨hv, hk, hw⟩ := (Cells.wf_cons k v cs).mp h
    have ih := ih hw
    unfold Cells.zero at ih ⊢
    rw [List.filter_cons]
    by_cases hin : a ≤ k ∧ k < a + n
    · rw [if_neg (by simp [hin.1, hin.2]), ih]
      by_cases hx : a ≤ x ∧ x < a + n
      · simp only [if_pos hx]
      · simp only [if_neg hx, Cells.get]
        rw [if_neg (by omega)]
        split
        · exact Cells.get_of_lt fun c hc => Nat.lt_trans ‹_› (hk c hc)
        · rfl
    · have hp : (!(decide (a ≤ k) && decide (k < a + n))) = true := by
        simp only [Bool.not_eq_true', Bool.and_eq_false_iff, decide_eq_false_iff_not]; omega
      rw [if_pos hp, Cells.get, Cells.get, ih]
      by_cases hxk : x = k
      · subst hxk; rw [if_pos rfl, if_pos rfl, if_neg hin]
      · simp only [if_neg hxk]
        split <;> split <;> simp_all

/-- Two canonical lists, one wholly below the other, are canonical together. -/
theorem Cells.wf_append {cs ds : List Host.Cell} (hc : Cells.wf cs = true) (hd : Cells.wf ds = true)
    (h : ∀ c ∈ cs, ∀ d ∈ ds, c.1 < d.1) : Cells.wf (cs ++ ds) = true := by
  induction cs with
  | nil => exact hd
  | cons c cs ih =>
    have ⟨hv, hk, hw⟩ := (Cells.wf_cons c.1 c.2 cs).mp hc
    refine (Cells.wf_cons c.1 c.2 _).mpr ⟨hv, fun e he => ?_, ih hw fun e he => h e (List.mem_cons_of_mem _ he)⟩
    rcases List.mem_append.mp he with he | he
    · exact hk e he
    · exact h c List.mem_cons_self e he

theorem Cells.mem_ofBytes {a : Nat} {bs : List Byte} {c : Host.Cell} (h : c ∈ Cells.ofBytes a bs) :
    a ≤ c.1 ∧ c.1 < a + bs.length := by
  induction bs generalizing a with
  | nil => simp [Cells.ofBytes] at h
  | cons b bs ih =>
    simp only [Cells.ofBytes] at h
    simp only [List.length_cons]
    split at h
    · have := ih h; omega
    · rcases List.mem_cons.mp h with rfl | h
      · simp
      · have := ih h; omega

theorem Cells.wf_ofBytes (a : Nat) (bs : List Byte) : Cells.wf (Cells.ofBytes a bs) = true := by
  induction bs generalizing a with
  | nil => rfl
  | cons b bs ih =>
    simp only [Cells.ofBytes]
    split
    · exact ih _
    · exact (Cells.wf_cons _ _ _).mpr ⟨‹_›, fun c hc => (Cells.mem_ofBytes hc).1, ih _⟩

theorem Cells.wf_sublist {cs ds : List Host.Cell} (h : cs.Sublist ds) (hd : Cells.wf ds = true) :
    Cells.wf cs = true := by
  induction h with
  | slnil => rfl
  | cons _ _ ih => exact ih (Cells.wf_tail hd)
  | cons_cons c hs ih =>
    have ⟨hv, hk, hw⟩ := (Cells.wf_cons c.1 c.2 _).mp hd
    exact (Cells.wf_cons c.1 c.2 _).mpr ⟨hv, fun e he => hk e (hs.subset he), ih hw⟩

theorem Cells.lt_of_mem_takeWhile {cs : List Host.Cell} {a : Nat} {c : Host.Cell}
    (h : c ∈ cs.takeWhile fun c => decide (c.1 < a)) : c.1 < a := by
  induction cs with
  | nil => simp at h
  | cons d cs ih =>
    rw [List.takeWhile_cons] at h
    split at h
    · rcases List.mem_cons.mp h with rfl | h
      · simpa using ‹decide (c.1 < a) = true›
      · exact ih h
    · simp at h

/-- After the listed addresses below a bound, every address is at it or above. -/
theorem Cells.dropWhile_ge {cs : List Host.Cell} {a : Nat} (h : Cells.wf cs = true) :
    ∀ c ∈ cs.dropWhile (fun c => decide (c.1 < a)), a ≤ c.1 := by
  induction cs with
  | nil => simp
  | cons d cs ih =>
    have ⟨_, hk, hw⟩ := (Cells.wf_cons d.1 d.2 _).mp h
    rw [List.dropWhile_cons]
    split
    · exact ih hw
    · rename_i hd
      have hd : a ≤ d.1 := by simpa using hd
      intro c hc
      rcases List.mem_cons.mp hc with rfl | hc
      · exact hd
      · exact Nat.le_of_lt (Nat.lt_of_le_of_lt hd (hk c hc))

/-- Replacing bytes all at once keeps the canonical form. -/
theorem Cells.wf_put {cs : List Host.Cell} (a : Nat) (bs : List Byte) (h : Cells.wf cs = true) :
    Cells.wf (Cells.put cs a bs) = true := by
  have hlow : ∀ c ∈ cs.takeWhile (fun c => decide (c.1 < a)), c.1 < a := fun c hc =>
    Cells.lt_of_mem_takeWhile hc
  have hhigh := Cells.dropWhile_ge (a := a + bs.length) h
  unfold Cells.put
  refine Cells.wf_append (Cells.wf_append (Cells.wf_sublist (List.takeWhile_sublist _) h)
    (Cells.wf_ofBytes a bs) fun c hc d hd => ?_) (Cells.wf_sublist (List.dropWhile_sublist _) h)
    fun c hc d hd => ?_
  · exact Nat.lt_of_lt_of_le (hlow c hc) (Cells.mem_ofBytes hd).1
  · have := hhigh d hd
    rcases List.mem_append.mp hc with hc | hc
    · have := hlow c hc; omega
    · have := Cells.mem_ofBytes hc; omega

/-! ### Memory -/

@[simp] theorem State.noteOld_cells (s : State) (but as : List Nat) : (s.noteOld but as).mem.cells = s.mem.cells := by
  unfold State.noteOld; split <;> rfl

/-- A write of memory is a write of its cells. -/
@[simp] theorem State.wr_cells (s : State) (key n x : Nat) :
    (s.wr key n x).mem.cells = Cells.write s.mem.cells key n x := by simp [State.wr]

/-- A write of memory keeps its canonical form. -/
theorem Memory.wf_wr {s : State} (key n x : Nat) (h : Memory.wf s.mem = true) :
    Memory.wf (s.wr key n x).mem = true := by
  rw [Memory.wf, State.wr_cells]
  exact Cells.wf_write _ _ _ h

/-- A write over key ranges keeps the canonical form. -/
theorem Memory.wf_wrSpans {s : State} (ks : List (Nat × Nat)) (x : Nat) (h : Memory.wf s.mem = true) :
    Memory.wf (s.wrSpans ks x).mem = true := by
  induction ks generalizing s x with
  | nil => exact h
  | cons k ks ih => exact ih _ (Memory.wf_wr _ _ _ h)

/-- Numbering the stores of ports leaves memory. -/
@[simp] theorem State.numberPorts_mem (s : State) (tier : Nat) : (s.numberPorts tier).mem = s.mem := by
  unfold State.numberPorts
  induction portAgents tier generalizing s with
  | nil => rfl
  | cons a as ih => exact ih _

/-- Zeroing a page keeps the canonical form (08 R169). -/
theorem Memory.wf_zeroPage {s : State} (key size entry : Nat) (h : Memory.wf s.mem = true) :
    Memory.wf (s.zeroPage key size entry).mem = true := by
  unfold State.zeroPage
  rw [State.numberPorts_mem]
  simp only [Memory.wf, State.wr_cells]
  exact Cells.wf_write _ _ _ (Cells.wf_zero key size h)

/-- Zeroing a range of keys keeps the canonical form (15 R336). -/
theorem Memory.wf_zeroRange {s : State} (key n : Nat) (h : Memory.wf s.mem = true) :
    Memory.wf (s.zeroRange key n).mem = true := Cells.wf_zero key n h

@[simp] theorem State.install_cells (s : State) (tenant tier va key size : Nat) :
    (s.install tenant tier va key size).mem.cells = s.mem.cells := rfl

/-- A translation keeps the canonical form. -/
theorem Memory.wf_translate {s : State} (tenant tier va : Nat) (h : Memory.wf s.mem = true) :
    Memory.wf (s.translate tenant tier va).1.mem = true := by
  unfold State.translate
  split
  · exact h
  · split
    · exact h
    · exact h
    · dsimp only
      rw [Memory.wf, State.install_cells]
      split
      · exact h
      · split
        · exact h
        · exact Memory.wf_zeroPage _ _ _ h

/-- Translating a range keeps the canonical form. -/
theorem Memory.wf_spans {s : State} (tenant tier : Nat) (ps : List (Nat × Nat)) (h : Memory.wf s.mem = true) :
    Memory.wf (s.spans tenant tier ps).1.mem = true := by
  induction ps generalizing s with
  | nil => exact h
  | cons p ps ih =>
    obtain ⟨va, l⟩ := p
    have ht := Memory.wf_translate tenant tier (va % 2 ^ 48) h
    simp only [State.spans]
    split
    · rename_i heq; rw [heq] at ht; exact ht
    · rename_i t k heq
      rw [heq] at ht
      have := ih ht
      split
      · rename_i heq; rw [heq] at this; exact this
      · exact this

theorem Memory.wf_bufSpans {s : State} (j : Job) (b : Buf) (off n : Nat) (h : Memory.wf s.mem = true) :
    Memory.wf (s.bufSpans j b off n).1.mem = true := Memory.wf_spans _ _ _ h

/-- Waiting for a held port leaves the cells. -/
@[simp] theorem State.waitFor_cells (s : State) (b : Buf) (off n : Nat) (ks : List (Nat × Nat)) :
    (s.waitFor b off n ks).mem.cells = s.mem.cells := by
  unfold State.waitFor; split <;> rfl

/-- Waiting for a held port keeps the canonical form. -/
theorem Memory.wf_waitFor {s : State} (b : Buf) (off n : Nat) (ks : List (Nat × Nat)) (h : Memory.wf s.mem = true) :
    Memory.wf (s.waitFor b off n ks).mem = true := by
  rw [Memory.wf, State.waitFor_cells]; exact h

/-- Resolving a pointer keeps the canonical form (01 R350). -/
theorem Memory.wf_resolve {s : State} (j : Job) (need : Nat) (p : Word) (n : Nat)
    (h : Memory.wf s.mem = true) : Memory.wf (s.resolve j need p n).1.mem = true := by
  unfold State.resolve
  split
  · exact h
  · exact h
  · split
    · exact h
    · rename_i b _ _
      have := Memory.wf_bufSpans j b (ptrOff p) n h
      split <;> rename_i heq <;> rw [heq] at this
      · exact this
      · exact Memory.wf_waitFor _ _ _ _ this

/-- The device's read through a pointer keeps the canonical form. -/
theorem Memory.wf_rdPtr {s : State} (j : Job) (need : Nat) (p : Word) (n : Nat)
    (h : Memory.wf s.mem = true) : Memory.wf (s.rdPtr j need p n).1.mem = true := by
  have := Memory.wf_resolve j need p n h
  unfold State.rdPtr
  split <;> rename_i heq <;> rw [heq] at this
  · exact this
  · split <;> exact this

/-- The device's write through a pointer keeps the canonical form. -/
theorem Memory.wf_wrPtr {s : State} (j : Job) (need : Nat) (p : Word) (n x : Nat)
    (h : Memory.wf s.mem = true) : Memory.wf (s.wrPtr j need p n x).mem = true := by
  have := Memory.wf_resolve j need p n h
  unfold State.wrPtr
  split <;> rename_i heq <;> rw [heq] at this
  · exact this
  · exact Memory.wf_wrSpans _ _ this

/-- The write of a fault record keeps the canonical form (14 R311). -/
theorem Memory.wf_putFault {s : State} (job : Nat) (f : FaultInfo) (h : Memory.wf s.mem = true) :
    Memory.wf (s.putFault job f).1.mem = true := by
  unfold State.putFault
  split
  · exact h
  · rename_i j _
    split
    · exact h
    · rename_i b _
      dsimp only
      split
      · exact h
      · have h1 := Memory.wf_bufSpans j b 0 16 h
        split <;> rename_i heq <;> rw [heq] at h1
        · exact h1
        · have h1 := Memory.wf_waitFor b 0 16 (by assumption) h1
          split <;> rename_i heq2 <;> have h2 := congrArg (fun r => Memory.wf r.1.mem) heq2
          · exact h2.symm.trans (Memory.wf_bufSpans _ _ _ _ h1)
          · exact Memory.wf_wrSpans _ _ (Memory.wf_wrSpans _ _
              (Memory.wf_waitFor _ _ _ _ (h2.symm.trans (Memory.wf_bufSpans _ _ _ _ h1))))

/-- A fault record, with the note of its offset, keeps the canonical form (14 R311; 01 R20). -/
theorem Memory.wf_faultRecord {s : State} (job : Nat) (f : FaultInfo) (h : Memory.wf s.mem = true) :
    Memory.wf (s.faultRecord job f).1.mem = true := by
  unfold State.faultRecord
  have h1 := Memory.wf_putFault job f h
  split
  rename_i heq
  rw [heq] at h1
  split <;> exact h1

/-- Placing a program's first instruction keeps the canonical form. -/
theorem Memory.wf_placed {s : State} (ws : List SlotWord) (h : Memory.wf s.mem = true) :
    Memory.wf (s.placed ws).mem = true := by
  rw [Memory.wf, State.placed]
  dsimp only
  exact Cells.wf_write _ _ _ (Cells.wf_write _ _ _ h)

/-- Memory after reset is in canonical form. -/
theorem Memory.wf_reset : Memory.wf State.reset.mem = true := rfl

/-! ### What a write of memory leaves -/

theorem State.noteOld_frame (s : State) (but as : List Nat) :
    (s.noteOld but as).core = s.core ∧ (s.noteOld but as).parked = s.parked ∧
    (s.noteOld but as).sched = s.sched ∧ (s.noteOld but as).units = s.units ∧
    (s.noteOld but as).host = s.host ∧ (s.noteOld but as).agenda = s.agenda ∧
    (s.noteOld but as).tick = s.tick ∧ (s.noteOld but as).mem.tlb = s.mem.tlb := by
  unfold State.noteOld; split <;> simp

/-- A write of memory leaves the cores, the scheduler, the units, the host registers, the messages in
flight and the installed translations as they were. -/
theorem State.wr_frame (s : State) (key n x : Nat) :
    (s.wr key n x).core = s.core ∧ (s.wr key n x).parked = s.parked ∧
    (s.wr key n x).sched = s.sched ∧ (s.wr key n x).units = s.units ∧
    (s.wr key n x).host = s.host ∧ (s.wr key n x).agenda = s.agenda ∧
    (s.wr key n x).tick = s.tick ∧ (s.wr key n x).mem.tlb = s.mem.tlb := by
  simpa only [State.wr] using s.noteOld_frame _ _

/-! ### Local storage -/

/-- Replacing a space by a canonical list keeps local storage canonical. -/
theorem Store.wf_setSpace {st : Store} (ix : Nat) {cs : List Host.Cell} (h : st.wf = true)
    (hc : Cells.wf cs = true) : (st.setSpace ix cs).wf = true := by
  simp only [Store.wf, Bool.and_eq_true] at h ⊢
  unfold Store.setSpace
  split
  · exact ⟨⟨hc, h.1.2⟩, h.2⟩
  · exact ⟨⟨hc, h.1.2⟩, h.2⟩
  · exact ⟨⟨h.1.1, hc⟩, h.2⟩
  · exact ⟨⟨h.1.1, hc⟩, h.2⟩
  · exact ⟨h.1, hc⟩

theorem Store.wf_space {st : Store} (ix : Nat) (h : st.wf = true) : Cells.wf (st.space ix) = true := by
  simp only [Store.wf, Bool.and_eq_true] at h
  unfold Store.space
  split
  · exact h.1.1
  · exact h.1.1
  · exact h.1.2
  · exact h.1.2
  · exact h.2

/-- A write of local storage keeps its canonical form (08 R182). -/
theorem Store.wf_write {st : Store} (ix off n x : Nat) (h : st.wf = true) :
    (st.write ix off n x).wf = true := by
  induction n generalizing st off x with
  | zero => exact h
  | succ n ih => exact ih _ _ (Store.wf_setSpace ix h (Cells.wf_set _ _ (Store.wf_space ix h)))

end Sys2Proof.Machine
end

