-- ==== Sys2Proof/Laws/Ops.lean ====
section
/-!
SUPPORT. What each shared operation can do: results and effects in flight, guards, the walks of memory,
taking a trap, and one step.
-/
namespace Sys2Proof.Machine

/-! ### Registers (05 R96) -/

/-- Fixed registers discard a write: s0, p0, p1, m0 and w0. -/
theorem Regs.apply_fixed (g : Regs) :
    (∀ v, g.apply (.s 0 v) = g) ∧ (∀ b, g.apply (.p 0 b) = g) ∧ (∀ b, g.apply (.p 1 b) = g) ∧
    (∀ k v, g.apply (.m 0 k v) = g) ∧ ∀ k v, g.apply (.w 0 k v) = g :=
  ⟨fun _ => rfl, fun _ => rfl, fun _ => rfl, fun _ _ => rfl, fun _ _ => rfl⟩

/-- A result in a scalar register: that register, and no other file. -/
theorem Regs.apply_s (g : Regs) {r : Nat} (v : Word) (h : r ≠ 0) :
    g.apply (.s r v) = { g with s := g.s.setIfInBounds r v } := by simp [Regs.apply, h]

/-- A result in a predicate. -/
theorem Regs.apply_p (g : Regs) {n : Nat} (b : Bool) (h : 2 ≤ n) :
    g.apply (.p n b) = { g with p := merge (1#10 <<< n) (if b then 1#10 <<< n else 0) g.p } := by
  simp [Regs.apply, Nat.not_lt.mpr h]

/-- A result writes neither tokens, edges, streams, bank formats, the view, the return-address store nor
the strict marks. -/
theorem Regs.apply_frame (g : Regs) (w : Write) :
    (g.apply w).t = g.t ∧ (g.apply w).x = g.x ∧ (g.apply w).y = g.y ∧ (g.apply w).q = g.q ∧
    (g.apply w).fmt = g.fmt ∧ (g.apply w).view = g.view ∧ (g.apply w).ras = g.ras ∧
    (g.apply w).rascnt = g.rascnt ∧ (g.apply w).rasn = g.rasn ∧ (g.apply w).marks = g.marks := by
  cases w <;> simp only [Regs.apply] <;> (try split) <;> simp

/-! ### Results and effects in flight (04 R84, R90; 05 R107) -/

/-- An effect noted for the end of the bundle: only the list of them differs. -/
theorem State.later_only (s : State) (l : Later) :
    ∃ ls, s.later l = s.setPipe { s.core.pipe with later := ls } := by
  unfold State.later
  dsimp only
  split
  · exact ⟨s.core.pipe.later, rfl⟩
  · split <;> exact ⟨_, rfl⟩

@[simp] theorem State.later_regs (s : State) (l : Later) : (s.later l).core.regs = s.core.regs := by
  obtain ⟨ls, h⟩ := s.later_only l; rw [h]; rfl
@[simp] theorem State.later_mem (s : State) (l : Later) : (s.later l).mem = s.mem := by
  obtain ⟨ls, h⟩ := s.later_only l; rw [h]; rfl
@[simp] theorem State.later_cont (s : State) (l : Later) : (s.later l).core.cont = s.core.cont := by
  obtain ⟨ls, h⟩ := s.later_only l; rw [h]; rfl
@[simp] theorem State.later_store (s : State) (l : Later) : (s.later l).core.store = s.core.store := by
  obtain ⟨ls, h⟩ := s.later_only l; rw [h]; rfl
@[simp] theorem State.later_status (s : State) (l : Later) :
    (s.later l).core.pipe.status = s.core.pipe.status := by
  obtain ⟨ls, h⟩ := s.later_only l; rw [h]; rfl

/-- The pops of a slot: only the effects noted for the end of the bundle differ. -/
theorem State.pops_only (s : State) (vs : List (BitVec 6)) :
    ∃ ls, s.pops vs = s.setPipe { s.core.pipe with later := ls } := by
  unfold State.pops
  induction vs generalizing s with
  | nil => exact ⟨s.core.pipe.later, rfl⟩
  | cons v vs ih =>
    rw [List.foldl_cons]
    split
    · obtain ⟨k, hk⟩ := s.later_only (.pop (v.toNat - 56))
      obtain ⟨ls, h⟩ := ih (s.later (.pop (v.toNat - 56)))
      rw [h, hk]
      exact ⟨ls, rfl⟩
    · exact ih s

/-- A posting issues: the focused core's pipe and the next number differ, nothing else. -/
theorem State.newPost_only (s : State) (t : Nat) (dst : List Dst) :
    ∃ p, (s.newPost t dst).1 =
        { s with core := { s.core with pipe := { s.core.pipe with
            posts := s.core.pipe.posts ++ [p]
            later := (s.newPost t dst).1.core.pipe.later } }
                 nextId := s.nextId + 1 } ∧
      p.id = s.nextId ∧ p.tok = t ∧ p.dst = dst ∧ p.ready = false ∧ (s.newPost t dst).2 = s.nextId :=
  ⟨_, rfl, rfl, rfl, rfl, rfl, rfl⟩

/-! ### Guards (04 R80, R81) -/

/-- A slot whose guard is false has no effect. -/
theorem State.guarded_off {s : State} {hd : Hdr} {u : Uses} {f : State → State} (h : s.pOn hd = false) :
    s.guarded hd u f = .next s := by simp [State.guarded, h]

/-- A slot whose guard is true and whose registers may be used has its effect. -/
theorem State.guarded_on {s : State} {hd : Hdr} {u : Uses} {f : State → State} (h : s.pOn hd = true)
    (hb : s.blocked u = none) : s.guarded hd u f = .next (f s) := by simp [State.guarded, h, hb]

/-- A slot whose registers stand in the way traps or waits. -/
theorem State.guarded_blocked {s t : State} {hd : Hdr} {u : Uses} {f : State → State} (h : s.pOn hd = true)
    (hb : s.blocked u = some t) : s.guarded hd u f = .next t := by simp [State.guarded, h, hb]

/-- A P-guarded slot always goes on, in one of three ways. -/
theorem State.guarded_cases {s t : State} {hd : Hdr} {u : Uses} {f : State → State}
    (h : s.guarded hd u f = .next t) :
    (s.pOn hd = false ∧ t = s) ∨ (s.pOn hd = true ∧ s.blocked u = some t) ∨
      (s.pOn hd = true ∧ s.blocked u = none ∧ t = f s) := by
  unfold State.guarded at h
  cases hp : s.pOn hd <;> cases hb : s.blocked u <;> simp_all

/-- With no strict mark, no effect of its bundle yet, no failed check value and no stream among its vector
sources, a slot's registers may be used (05 R96, R111; 14 R305). -/
theorem State.not_blocked {s : State} {u : Uses} (hm : s.core.regs.marks = [])
    (hl : s.core.pipe.later = []) (hb : s.core.store.bad = []) (hv : ∀ r ∈ u.v, r.toNat < 48) : s.blocked u = none := by
  have hs : s.streamsBlocked u.v = none := by
    generalize u.v = vs at hv
    induction vs with
    | nil => rfl
    | cons v vs ih =>
      rw [State.streamsBlocked, if_pos (hv v List.mem_cons_self)]
      exact ih fun r hr => hv r (List.mem_cons_of_mem _ hr)
  have hn (l : List Dst) : l.find? (fun _ => false) = none := List.find?_eq_none.mpr (by simp)
  simp [State.blocked, hm, hl, hb, hs, hn]

/-! ### The device's own walks of memory (01 R350; 08 R165 to R169; 14 R311) -/

/-- One state differs from another in memory, its ports' store numbers and the other units at most. -/
def State.MemUnitsOnly (s t : State) : Prop := t = { s with mem := t.mem, units := t.units }

theorem State.MemUnitsOnly.refl (s : State) : s.MemUnitsOnly s := rfl

theorem State.MemUnitsOnly.trans {s t u : State} (h : s.MemUnitsOnly t) (k : t.MemUnitsOnly u) : s.MemUnitsOnly u := by
  unfold State.MemUnitsOnly at *
  generalize u.mem = m at k ⊢
  generalize u.units = n at k ⊢
  rw [k, h]

theorem State.MemUnitsOnly.withMem {s t : State} (h : s.MemUnitsOnly t) (m : Mem) :
    s.MemUnitsOnly { t with mem := m } := h.trans (t := t) rfl

theorem State.MemUnitsOnly.withUnits {s t : State} (h : s.MemUnitsOnly t) (n : Units) :
    s.MemUnitsOnly { t with units := n } := h.trans (t := t) rfl

/-- What every law of a walk uses: the state that a pair bears. -/
theorem State.MemUnitsOnly.of_eq {α : Type} {s t : State} {p : State × α} {x : α} (h : s.MemUnitsOnly p.1)
    (e : p = (t, x)) : s.MemUnitsOnly t := by subst e; exact h

/-- Noting old bytes changes memory's own notes only. -/
theorem State.noteOld_only (s : State) (but as : List Nat) :
    s.noteOld but as = { s with mem := (s.noteOld but as).mem } := by
  unfold State.noteOld
  by_cases h : s.sched.jobs = [] <;> simp [h]

/-- A write of memory changes memory only. -/
theorem State.wr_only (s : State) (key n x : Nat) :
    s.wr key n x = { s with mem := (s.wr key n x).mem } := by
  have h := s.noteOld_only [] ((List.range n).map (key + ·))
  unfold State.wr
  dsimp only
  generalize s.noteOld [] ((List.range n).map (key + ·)) = t at h
  rw [h]

theorem State.wr_memUnits (s : State) (key n x : Nat) : s.MemUnitsOnly (s.wr key n x) := by
  have h := s.wr_only key n x
  unfold State.MemUnitsOnly
  generalize s.wr key n x = t at h
  rw [h]

/-- A write over key ranges changes memory only. -/
theorem State.wrSpans_only (s : State) (ks : List (Nat × Nat)) (x : Nat) :
    s.wrSpans ks x = { s with mem := (s.wrSpans ks x).mem } := by
  induction ks generalizing s x with
  | nil => rfl
  | cons k ks ih => rw [State.wrSpans, ih, State.wr_only s]

theorem State.wrSpans_memUnits (s : State) (ks : List (Nat × Nat)) (x : Nat) : s.MemUnitsOnly (s.wrSpans ks x) := by
  induction ks generalizing s x with
  | nil => exact .refl s
  | cons k ks ih => exact (s.wr_memUnits _ _ _).trans (ih _ _)

/-- The ports number their stores in the units. -/
theorem State.numberPorts_memUnits (s : State) (tier : Nat) : s.MemUnitsOnly (s.numberPorts tier) := by
  unfold State.numberPorts
  generalize portAgents tier = as
  induction as generalizing s with
  | nil => exact .refl s
  | cons a as ih => rw [List.foldl_cons]; exact ((State.MemUnitsOnly.refl s).withUnits _).trans (ih _)

/-- Zeroing a page changes memory and the store numbers of its ports. -/
theorem State.zeroPage_memUnits (s : State) (key size entry : Nat) : s.MemUnitsOnly (s.zeroPage key size entry) := by
  unfold State.zeroPage
  dsimp only
  refine State.MemUnitsOnly.trans ?_ (State.numberPorts_memUnits _ _)
  exact (((State.MemUnitsOnly.refl s).withMem _).trans (State.wr_memUnits _ entry 8 _)).withMem _

/-- A translation changes memory and the store numbers of the ports. -/
theorem State.translate_memUnits (s : State) (tenant tier va : Nat) :
    s.MemUnitsOnly (s.translate tenant tier va).1 := by
  unfold State.translate
  cases s.tlb? tenant tier va with
  | some _ => exact .refl s
  | none =>
    cases s.walk tenant tier va with
    | fault _ => exact .refl s
    | wait => exact rfl
    | leaf key size z entry =>
      have step : s.MemUnitsOnly (if (!z) = true then s
          else if s.pageHeld tenant tier va key size = true then s.mustWait else s.zeroPage key size entry) := by
        split
        · exact .refl s
        · split
          · exact rfl
          · exact s.zeroPage_memUnits key size entry
      exact step.withMem _

/-- Translating a range changes memory and the store numbers of the ports. -/
theorem State.spans_memUnits (tenant tier : Nat) (ps : List (Nat × Nat)) :
    ∀ s : State, s.MemUnitsOnly (s.spans tenant tier ps).1 := by
  induction ps with
  | nil => exact State.MemUnitsOnly.refl
  | cons p ps ih =>
    intro s
    have first := s.translate_memUnits tenant tier (p.1 % 2 ^ 48)
    rw [State.spans]
    match hp : s.translate tenant tier (p.1 % 2 ^ 48) with
    | (t, .error e) => exact first.of_eq hp
    | (t, .ok k) =>
      have rest := (first.of_eq hp).trans (ih t)
      dsimp only
      match hq : t.spans tenant tier ps with
      | (u, .error e) => exact rest.of_eq hq
      | (u, .ok ks) => exact rest.of_eq hq

/-- Resolving a pointer changes memory and the store numbers of the ports. -/
theorem State.resolve_memUnits (s : State) (j : Job) (need : Nat) (p : Word) (n : Nat) :
    s.MemUnitsOnly (s.resolve j need p n).1 := by
  unfold State.resolve
  cases s.check j 0 need true (ptrIx p) (ptrOff p) n with
  | error c => exact .refl s
  | ok pl =>
    cases pl with
    | core ix => exact .refl s
    | buf b =>
      dsimp only
      by_cases h3 : b.tier = 3
      · rw [if_pos h3]; exact .refl s
      · rw [if_neg h3]
        have walked := State.spans_memUnits j.tenant.toNat b.tier (pieces (n / 65536 + 2) (b.va (ptrOff p)) n) s
        match hq : s.bufSpans j b (ptrOff p) n with
        | (t, .error l) => exact walked.of_eq hq
        | (t, .ok ks) =>
          refine (walked.of_eq hq).trans ?_
          dsimp only
          unfold State.waitFor
          split
          · exact rfl
          · exact .refl t

/-- Writing through a pointer changes memory and the store numbers of the ports. -/
theorem State.wrPtr_memUnits (s : State) (j : Job) (need : Nat) (p : Word) (n x : Nat) :
    s.MemUnitsOnly (s.wrPtr j need p n x) := by
  have found := s.resolve_memUnits j need p n
  unfold State.wrPtr
  match hq : s.resolve j need p n with
  | (t, .error e) => exact found.of_eq hq
  | (t, .ok ks) => exact (found.of_eq hq).trans (t.wrSpans_memUnits ks x)

/-! ### Traps (14 R304 to R309) -/

/-- Taking a trap ends in one of two ways: the continuation freezes, with TVAL written, or its handler is
entered. -/
theorem State.trap_cases (s : State) (cause : Cause) (fmask : BitVec 8) (tval : Word)
    (frec : BitVec 48) (epc : Pc) (gmask : BitVec 24) :
    (∃ (u v : State) (who : Nat) (xl : Option (Nat × Word)) (epc' : Pc) (hr : Nat) (rpc : Pc),
      v = (u.setTval tval).freezeBy who xl cause.code fmask tval epc' hr rpc ∧
      s.trap cause fmask tval frec epc gmask = v.setPipe { v.core.pipe with status := .trapped }) ∨
    ∃ (u : State) (o : ObjInfo), s.trap cause fmask tval frec epc gmask =
        State.enterHandler u o cause.code fmask tval frec epc 0 gmask := by
  unfold State.trap
  dsimp only
  split
  · exact .inl ⟨_, _, _, _, _, _, _, rfl, rfl⟩
  · split
    · split
      · exact .inl ⟨_, _, _, _, _, _, _, rfl, rfl⟩
      · exact .inr ⟨_, _, rfl⟩
    · exact .inl ⟨_, _, _, _, _, _, _, rfl, rfl⟩

/-- A core that enters the handler stands at the handler's entry in handler mode, with the system
registers written and the handler bank's tokens cleared. -/
theorem Core.enter_spec (c : Core) (tick : Nat) (o : ObjInfo) (y : Sys) :
    (c.enter tick o y).sys = y ∧ (c.enter tick o y).cont.handler = true ∧
    (c.enter tick o y).cont.hobj = some o ∧ (c.enter tick o y).pipe.status = .trapped ∧
    (c.enter tick o y).pipe.pc = (c.enter tick o y).pipe.npc ∧
    (c.enter tick o y).pipe.later = [] ∧ (c.enter tick o y).pipe.fresh = [] :=
  ⟨rfl, rfl, rfl, rfl, rfl, rfl, rfl⟩

/-! ### One step -/

/-- A step that goes on: only time passed, or one turn was taken, which leaves nothing where it met a held
port, and the requests that wait were judged. -/
theorem step_cases {s t : State} (h : step s = .next t) :
    (s.tock.turn = none ∧ t = s.tock) ∨
      ∃ turn u, s.tock.turn = some turn ∧ s.tock.act turn = .next u ∧ t = (s.tock.unlessWaits u).endPrq := by
  unfold step at h
  dsimp only at h
  cases ht : s.tock.turn with
  | none => rw [ht] at h; exact .inl ⟨rfl, by simpa using h.symm⟩
  | some k =>
    rw [ht] at h
    cases ha : s.tock.act k with
    | next u => simp only [ha] at h; exact .inr ⟨k, u, rfl, ha, by simpa using h.symm⟩
    | fault f => simp [ha] at h
    | refused r => simp [ha] at h

/-- A turn that is taken: an event of the agenda, a bundle, an event of the device, or an input. -/
theorem State.act_cases {s t : State} {k : Turn} (h : s.act k = .next t) :
    (∃ n e, k = .agenda n ∧ s.agenda[n]? = some e ∧
      runEvent e { s with agenda := s.agenda.eraseIdx n } = .next t) ∨
    (∃ core, k = .bundle core ∧ (s.focus core).issue exec = .next t) ∨
    (∃ e, k = .event e ∧ runEvent e s = .next t) ∨
    (∃ e es, k = .input ∧ s.inputs = e :: es ∧
      ((s.host.fatal = true ∧ Event.afterFatal e = false ∧ t = { s with inputs := es }) ∨
        runEvent e { s with inputs := es } = .next t)) ∨ t = s := by
  cases k with
  | agenda n =>
    simp only [State.act] at h
    cases he : s.agenda[n]? with
    | none => rw [he] at h; exact .inr (.inr (.inr (.inr (by simpa using h.symm))))
    | some e => rw [he] at h; exact .inl ⟨n, e, rfl, he, h⟩
  | bundle core => exact .inr (.inl ⟨core, rfl, h⟩)
  | event e => exact .inr (.inr (.inl ⟨e, rfl, h⟩))
  | input =>
    simp only [State.act] at h
    cases hi : s.inputs with
    | nil => rw [hi] at h; exact .inr (.inr (.inr (.inr (by simpa using h.symm))))
    | cons e es =>
      rw [hi] at h
      refine .inr (.inr (.inr (.inl ⟨e, es, rfl, rfl, ?_⟩)))
      dsimp only at h
      split at h
      · rename_i hc
        simp only [Bool.and_eq_true, Bool.not_eq_true'] at hc
        exact .inl ⟨hc.1, hc.2, by simpa using h.symm⟩
      · exact .inr h

end Sys2Proof.Machine
end

