-- ==== Sys2Proof/Laws/PerInstr.lean ====
section
/-!
SUPPORT. Per instruction: the decoder reads back the opcode and operand fields that the encoder writes.
-/
namespace Sys2Proof.Laws

/-- The decoder gives back an instruction from its opcode, its common fields and its operand field (04
R78, R91). IMM slots and events have no operand field of their own. -/
def Decoding.Statement (i : Instr) : Prop :=
  i.opc ≠ 0xFE → i.opc ≠ 0xFF → decodeOps i.opc i.hdr i.ops = some i

/-- A field that lies in the low part of two joined fields. -/
theorem appendLo {m n : Nat} (a : BitVec m) (b : BitVec n) {lo w : Nat} (h : lo + w ≤ n) :
    (a ++ b).extractLsb' lo w = b.extractLsb' lo w := BitVec.extractLsb'_append_eq_of_add_le h

/-- A field that lies in the high part of two joined fields. -/
theorem appendHi {m n : Nat} (a : BitVec m) (b : BitVec n) {lo w : Nat} (h : n ≤ lo) :
    (a ++ b).extractLsb' lo w = a.extractLsb' (lo - n) w := BitVec.extractLsb'_append_eq_of_le h

/-- Masks of joined fields. -/
theorem andAppend {m n : Nat} {a c x : BitVec m} {b d y : BitVec n} (h : a &&& c = x) (k : b &&& d = y) :
    (a ++ b) &&& (c ++ d) = x ++ y := by rw [BitVec.and_append, h, k]

theorem Decoding.br (hd : Hdr) (h : BitVec 1) (o : BitVec 17) : Decoding.Statement (.br hd h o) := by
  intro _ _
  have e0 : (h ++ o).extractLsb' 17 1 = h := (appendHi _ _ (by decide)).trans BitVec.extractLsb'_eq_self
  have e1 : (h ++ o).extractLsb' 0 17 = o := (appendLo _ _ (by decide)).trans BitVec.extractLsb'_eq_self
  exact congrArg some ((Instr.br.injEq ..).mpr ⟨rfl, e0, e1⟩)

theorem Decoding.bri (hd : Hdr) (a : BitVec 6) : Decoding.Statement (.bri hd a) := by
  intro _ _
  have e0 : (0#6 ++ a ++ 0#6).extractLsb' 6 6 = a := (appendHi _ _ (by decide)).trans ((appendLo _ _ (by decide)).trans BitVec.extractLsb'_eq_self)
  have c0 : (0#6 ++ a ++ 0#6) &&& 0x3F03F#18 = 0x00000#18 := andAppend (andAppend (by decide : (0#6) &&& 63#6 = 0#6) (BitVec.and_zero : a &&& 0#6 = 0#6)) (by decide : (0#6) &&& 63#6 = 0#6)
  refine (if_pos c0).trans ?_
  exact congrArg some ((Instr.bri.injEq ..).mpr ⟨rfl, e0⟩)

theorem Decoding.call (hd : Hdr) (h : BitVec 1) (o : BitVec 17) : Decoding.Statement (.call hd h o) := by
  intro _ _
  have e0 : (h ++ o).extractLsb' 17 1 = h := (appendHi _ _ (by decide)).trans BitVec.extractLsb'_eq_self
  have e1 : (h ++ o).extractLsb' 0 17 = o := (appendLo _ _ (by decide)).trans BitVec.extractLsb'_eq_self
  exact congrArg some ((Instr.call.injEq ..).mpr ⟨rfl, e0, e1⟩)

theorem Decoding.calli (hd : Hdr) (a : BitVec 6) : Decoding.Statement (.calli hd a) := by
  intro _ _
  have e0 : (0#6 ++ a ++ 0#6).extractLsb' 6 6 = a := (appendHi _ _ (by decide)).trans ((appendLo _ _ (by decide)).trans BitVec.extractLsb'_eq_self)
  have c0 : (0#6 ++ a ++ 0#6) &&& 0x3F03F#18 = 0x00000#18 := andAppend (andAppend (by decide : (0#6) &&& 63#6 = 0#6) (BitVec.and_zero : a &&& 0#6 = 0#6)) (by decide : (0#6) &&& 63#6 = 0#6)
  refine (if_pos c0).trans ?_
  exact congrArg some ((Instr.calli.injEq ..).mpr ⟨rfl, e0⟩)

theorem Decoding.ret (hd : Hdr) : Decoding.Statement (.ret hd) := by
  intro _ _
  have c0 : (0#18) &&& 0x3FFFF#18 = 0x00000#18 := (by decide : (0#18) &&& 262143#18 = 0#18)
  refine (if_pos c0).trans ?_
  exact rfl

theorem Decoding.yield (hd : Hdr) (y : BitVec 16) : Decoding.Statement (.yield hd y) := by
  intro _ _
  have e0 : (0#2 ++ y).extractLsb' 0 16 = y := (appendLo _ _ (by decide)).trans BitVec.extractLsb'_eq_self
  have c0 : (0#2 ++ y) &&& 0x30000#18 = 0x00000#18 := andAppend (by decide : (0#2) &&& 3#2 = 0#2) (BitVec.and_zero : y &&& 0#16 = 0#16)
  refine (if_pos c0).trans ?_
  exact congrArg some ((Instr.yield.injEq ..).mpr ⟨rfl, e0⟩)

theorem Decoding.dly (hd : Hdr) (n : BitVec 16) : Decoding.Statement (.dly hd n) := by
  intro _ _
  have e0 : (0#2 ++ n).extractLsb' 0 16 = n := (appendLo _ _ (by decide)).trans BitVec.extractLsb'_eq_self
  have c0 : (0#2 ++ n) &&& 0x30000#18 = 0x00000#18 := andAppend (by decide : (0#2) &&& 3#2 = 0#2) (BitVec.and_zero : n &&& 0#16 = 0#16)
  refine (if_pos c0).trans ?_
  exact congrArg some ((Instr.dly.injEq ..).mpr ⟨rfl, e0⟩)

theorem Decoding.susp (hd : Hdr) (y : BitVec 16) : Decoding.Statement (.susp hd y) := by
  intro _ _
  have e0 : (0#2 ++ y).extractLsb' 0 16 = y := (appendLo _ _ (by decide)).trans BitVec.extractLsb'_eq_self
  have c0 : (0#2 ++ y) &&& 0x30000#18 = 0x00000#18 := andAppend (by decide : (0#2) &&& 3#2 = 0#2) (BitVec.and_zero : y &&& 0#16 = 0#16)
  refine (if_pos c0).trans ?_
  exact congrArg some ((Instr.susp.injEq ..).mpr ⟨rfl, e0⟩)

theorem Decoding.exit (hd : Hdr) : Decoding.Statement (.exit hd) := by
  intro _ _
  have c0 : (0#18) &&& 0x3FFFF#18 = 0x00000#18 := (by decide : (0#18) &&& 262143#18 = 0#18)
  refine (if_pos c0).trans ?_
  exact rfl

theorem Decoding.spawn (hd : Hdr) (a : BitVec 6) (b : BitVec 6) (t : BitVec 5) : Decoding.Statement (.spawn hd a b t) := by
  intro _ _
  have e0 : (a ++ b ++ 0#1 ++ t).extractLsb' 12 6 = a := (appendHi _ _ (by decide)).trans ((appendHi _ _ (by decide)).trans ((appendHi _ _ (by decide)).trans BitVec.extractLsb'_eq_self))
  have e1 : (a ++ b ++ 0#1 ++ t).extractLsb' 6 6 = b := (appendHi _ _ (by decide)).trans ((appendHi _ _ (by decide)).trans ((appendLo _ _ (by decide)).trans BitVec.extractLsb'_eq_self))
  have e2 : (a ++ b ++ 0#1 ++ t).extractLsb' 0 5 = t := (appendLo _ _ (by decide)).trans BitVec.extractLsb'_eq_self
  have c0 : (a ++ b ++ 0#1 ++ t) &&& 0x00020#18 = 0x00000#18 := andAppend (andAppend (andAppend (BitVec.and_zero : a &&& 0#6 = 0#6) (BitVec.and_zero : b &&& 0#6 = 0#6)) (by decide : (0#1) &&& 1#1 = 0#1)) (BitVec.and_zero : t &&& 0#5 = 0#5)
  refine (if_pos c0).trans ?_
  exact congrArg some ((Instr.spawn.injEq ..).mpr ⟨rfl, e0, e1, e2⟩)

theorem Decoding.wtk (hd : Hdr) (t : BitVec 5) (h : BitVec 12) : Decoding.Statement (.wtk hd t h) := by
  intro _ _
  have e0 : (t ++ 0#1 ++ h).extractLsb' 13 5 = t := (appendHi _ _ (by decide)).trans ((appendHi _ _ (by decide)).trans BitVec.extractLsb'_eq_self)
  have e1 : (t ++ 0#1 ++ h).extractLsb' 0 12 = h := (appendLo _ _ (by decide)).trans BitVec.extractLsb'_eq_self
  have c0 : (t ++ 0#1 ++ h) &&& 0x01000#18 = 0x00000#18 := andAppend (andAppend (BitVec.and_zero : t &&& 0#5 = 0#5) (by decide : (0#1) &&& 1#1 = 0#1)) (BitVec.and_zero : h &&& 0#12 = 0#12)
  refine (if_pos c0).trans ?_
  exact congrArg some ((Instr.wtk.injEq ..).mpr ⟨rfl, e0, e1⟩)

theorem Decoding.wtkRf1 (hd : Hdr) (t : BitVec 5) (a : BitVec 6) : Decoding.Statement (.wtkRf1 hd t a) := by
  intro _ _
  have e0 : (t ++ 1#1 ++ a ++ 0#6).extractLsb' 13 5 = t := (appendHi _ _ (by decide)).trans ((appendHi _ _ (by decide)).trans ((appendHi _ _ (by decide)).trans BitVec.extractLsb'_eq_self))
  have e1 : (t ++ 1#1 ++ a ++ 0#6).extractLsb' 6 6 = a := (appendHi _ _ (by decide)).trans ((appendLo _ _ (by decide)).trans BitVec.extractLsb'_eq_self)
  have c0 : ¬ (t ++ 1#1 ++ a ++ 0#6) &&& 0x01000#18 = 0x00000#18 := fun h =>
    absurd (((andAppend (andAppend (andAppend (BitVec.and_zero : t &&& 0#5 = 0#5) (by decide : (1#1) &&& 1#1 = 1#1)) (BitVec.and_zero : a &&& 0#6 = 0#6)) (by decide : (0#6) &&& 0#6 = 0#6) : (t ++ 1#1 ++ a ++ 0#6) &&& 0x01000#18 = 4096#18)).symm.trans h) (by decide)
  have c1 : (t ++ 1#1 ++ a ++ 0#6) &&& 0x0103F#18 = 0x01000#18 := andAppend (andAppend (andAppend (BitVec.and_zero : t &&& 0#5 = 0#5) (by decide : (1#1) &&& 1#1 = 1#1)) (BitVec.and_zero : a &&& 0#6 = 0#6)) (by decide : (0#6) &&& 63#6 = 0#6)
  refine (if_neg c0).trans ((if_pos c1).trans ?_)
  exact congrArg some ((Instr.wtkRf1.injEq ..).mpr ⟨rfl, e0, e1⟩)

theorem Decoding.wtks (hd : Hdr) (t : BitVec 5) (h : BitVec 12) : Decoding.Statement (.wtks hd t h) := by
  intro _ _
  have e0 : (t ++ 0#1 ++ h).extractLsb' 13 5 = t := (appendHi _ _ (by decide)).trans ((appendHi _ _ (by decide)).trans BitVec.extractLsb'_eq_self)
  have e1 : (t ++ 0#1 ++ h).extractLsb' 0 12 = h := (appendLo _ _ (by decide)).trans BitVec.extractLsb'_eq_self
  have c0 : (t ++ 0#1 ++ h) &&& 0x01000#18 = 0x00000#18 := andAppend (andAppend (BitVec.and_zero : t &&& 0#5 = 0#5) (by decide : (0#1) &&& 1#1 = 0#1)) (BitVec.and_zero : h &&& 0#12 = 0#12)
  refine (if_pos c0).trans ?_
  exact congrArg some ((Instr.wtks.injEq ..).mpr ⟨rfl, e0, e1⟩)

theorem Decoding.wtksRf1 (hd : Hdr) (t : BitVec 5) (a : BitVec 6) : Decoding.Statement (.wtksRf1 hd t a) := by
  intro _ _
  have e0 : (t ++ 1#1 ++ a ++ 0#6).extractLsb' 13 5 = t := (appendHi _ _ (by decide)).trans ((appendHi _ _ (by decide)).trans ((appendHi _ _ (by decide)).trans BitVec.extractLsb'_eq_self))
  have e1 : (t ++ 1#1 ++ a ++ 0#6).extractLsb' 6 6 = a := (appendHi _ _ (by decide)).trans ((appendLo _ _ (by decide)).trans BitVec.extractLsb'_eq_self)
  have c0 : ¬ (t ++ 1#1 ++ a ++ 0#6) &&& 0x01000#18 = 0x00000#18 := fun h =>
    absurd (((andAppend (andAppend (andAppend (BitVec.and_zero : t &&& 0#5 = 0#5) (by decide : (1#1) &&& 1#1 = 1#1)) (BitVec.and_zero : a &&& 0#6 = 0#6)) (by decide : (0#6) &&& 0#6 = 0#6) : (t ++ 1#1 ++ a ++ 0#6) &&& 0x01000#18 = 4096#18)).symm.trans h) (by decide)
  have c1 : (t ++ 1#1 ++ a ++ 0#6) &&& 0x0103F#18 = 0x01000#18 := andAppend (andAppend (andAppend (BitVec.and_zero : t &&& 0#5 = 0#5) (by decide : (1#1) &&& 1#1 = 1#1)) (BitVec.and_zero : a &&& 0#6 = 0#6)) (by decide : (0#6) &&& 63#6 = 0#6)
  refine (if_neg c0).trans ((if_pos c1).trans ?_)
  exact congrArg some ((Instr.wtksRf1.injEq ..).mpr ⟨rfl, e0, e1⟩)

theorem Decoding.sync (hd : Hdr) : Decoding.Statement (.sync hd) := by
  intro _ _
  have c0 : (0#18) &&& 0x3FFFF#18 = 0x00000#18 := (by decide : (0#18) &&& 262143#18 = 0#18)
  refine (if_pos c0).trans ?_
  exact rfl

theorem Decoding.swtrap (hd : Hdr) (c : BitVec 16) : Decoding.Statement (.swtrap hd c) := by
  intro _ _
  have e0 : (0#2 ++ c).extractLsb' 0 16 = c := (appendLo _ _ (by decide)).trans BitVec.extractLsb'_eq_self
  have c0 : (0#2 ++ c) &&& 0x30000#18 = 0x00000#18 := andAppend (by decide : (0#2) &&& 3#2 = 0#2) (BitVec.and_zero : c &&& 0#16 = 0#16)
  refine (if_pos c0).trans ?_
  exact congrArg some ((Instr.swtrap.injEq ..).mpr ⟨rfl, e0⟩)

theorem Decoding.brk (hd : Hdr) (t : BitVec 18) : Decoding.Statement (.brk hd t) := by
  intro _ _
  exact congrArg some ((Instr.brk.injEq ..).mpr ⟨rfl, BitVec.extractLsb'_eq_self⟩)

theorem Decoding.bdnz (hd : Hdr) (h : BitVec 1) (c : BitVec 6) (o : BitVec 11) : Decoding.Statement (.bdnz hd h c o) := by
  intro _ _
  have e0 : (h ++ c ++ o).extractLsb' 17 1 = h := (appendHi _ _ (by decide)).trans ((appendHi _ _ (by decide)).trans BitVec.extractLsb'_eq_self)
  have e1 : (h ++ c ++ o).extractLsb' 11 6 = c := (appendHi _ _ (by decide)).trans ((appendLo _ _ (by decide)).trans BitVec.extractLsb'_eq_self)
  have e2 : (h ++ c ++ o).extractLsb' 0 11 = o := (appendLo _ _ (by decide)).trans BitVec.extractLsb'_eq_self
  exact congrArg some ((Instr.bdnz.injEq ..).mpr ⟨rfl, e0, e1, e2⟩)

theorem Decoding.add (hd : Hdr) (d : BitVec 6) (a : BitVec 6) (b : BitVec 6) : Decoding.Statement (.add hd d a b) := by
  intro _ _
  have e0 : (d ++ a ++ b).extractLsb' 12 6 = d := (appendHi _ _ (by decide)).trans ((appendHi _ _ (by decide)).trans BitVec.extractLsb'_eq_self)
  have e1 : (d ++ a ++ b).extractLsb' 6 6 = a := (appendHi _ _ (by decide)).trans ((appendLo _ _ (by decide)).trans BitVec.extractLsb'_eq_self)
  have e2 : (d ++ a ++ b).extractLsb' 0 6 = b := (appendLo _ _ (by decide)).trans BitVec.extractLsb'_eq_self
  exact congrArg some ((Instr.add.injEq ..).mpr ⟨rfl, e0, e1, e2⟩)

theorem Decoding.addi (hd : Hdr) (d : BitVec 6) (a : BitVec 6) (i : BitVec 6) : Decoding.Statement (.addi hd d a i) := by
  intro _ _
  have e0 : (d ++ a ++ i).extractLsb' 12 6 = d := (appendHi _ _ (by decide)).trans ((appendHi _ _ (by decide)).trans BitVec.extractLsb'_eq_self)
  have e1 : (d ++ a ++ i).extractLsb' 6 6 = a := (appendHi _ _ (by decide)).trans ((appendLo _ _ (by decide)).trans BitVec.extractLsb'_eq_self)
  have e2 : (d ++ a ++ i).extractLsb' 0 6 = i := (appendLo _ _ (by decide)).trans BitVec.extractLsb'_eq_self
  exact congrArg some ((Instr.addi.injEq ..).mpr ⟨rfl, e0, e1, e2⟩)

theorem Decoding.sub (hd : Hdr) (d : BitVec 6) (a : BitVec 6) (b : BitVec 6) : Decoding.Statement (.sub hd d a b) := by
  intro _ _
  have e0 : (d ++ a ++ b).extractLsb' 12 6 = d := (appendHi _ _ (by decide)).trans ((appendHi _ _ (by decide)).trans BitVec.extractLsb'_eq_self)
  have e1 : (d ++ a ++ b).extractLsb' 6 6 = a := (appendHi _ _ (by decide)).trans ((appendLo _ _ (by decide)).trans BitVec.extractLsb'_eq_self)
  have e2 : (d ++ a ++ b).extractLsb' 0 6 = b := (appendLo _ _ (by decide)).trans BitVec.extractLsb'_eq_self
  exact congrArg some ((Instr.sub.injEq ..).mpr ⟨rfl, e0, e1, e2⟩)

theorem Decoding.mul (hd : Hdr) (d : BitVec 6) (a : BitVec 6) (b : BitVec 6) : Decoding.Statement (.mul hd d a b) := by
  intro _ _
  have e0 : (d ++ a ++ b).extractLsb' 12 6 = d := (appendHi _ _ (by decide)).trans ((appendHi _ _ (by decide)).trans BitVec.extractLsb'_eq_self)
  have e1 : (d ++ a ++ b).extractLsb' 6 6 = a := (appendHi _ _ (by decide)).trans ((appendLo _ _ (by decide)).trans BitVec.extractLsb'_eq_self)
  have e2 : (d ++ a ++ b).extractLsb' 0 6 = b := (appendLo _ _ (by decide)).trans BitVec.extractLsb'_eq_self
  exact congrArg some ((Instr.mul.injEq ..).mpr ⟨rfl, e0, e1, e2⟩)

theorem Decoding.mulh (hd : Hdr) (d : BitVec 6) (a : BitVec 6) (b : BitVec 6) : Decoding.Statement (.mulh hd d a b) := by
  intro _ _
  have e0 : (d ++ a ++ b).extractLsb' 12 6 = d := (appendHi _ _ (by decide)).trans ((appendHi _ _ (by decide)).trans BitVec.extractLsb'_eq_self)
  have e1 : (d ++ a ++ b).extractLsb' 6 6 = a := (appendHi _ _ (by decide)).trans ((appendLo _ _ (by decide)).trans BitVec.extractLsb'_eq_self)
  have e2 : (d ++ a ++ b).extractLsb' 0 6 = b := (appendLo _ _ (by decide)).trans BitVec.extractLsb'_eq_self
  exact congrArg some ((Instr.mulh.injEq ..).mpr ⟨rfl, e0, e1, e2⟩)

theorem Decoding.mulhu (hd : Hdr) (d : BitVec 6) (a : BitVec 6) (b : BitVec 6) : Decoding.Statement (.mulhu hd d a b) := by
  intro _ _
  have e0 : (d ++ a ++ b).extractLsb' 12 6 = d := (appendHi _ _ (by decide)).trans ((appendHi _ _ (by decide)).trans BitVec.extractLsb'_eq_self)
  have e1 : (d ++ a ++ b).extractLsb' 6 6 = a := (appendHi _ _ (by decide)).trans ((appendLo _ _ (by decide)).trans BitVec.extractLsb'_eq_self)
  have e2 : (d ++ a ++ b).extractLsb' 0 6 = b := (appendLo _ _ (by decide)).trans BitVec.extractLsb'_eq_self
  exact congrArg some ((Instr.mulhu.injEq ..).mpr ⟨rfl, e0, e1, e2⟩)

theorem Decoding.div (hd : Hdr) (d : BitVec 6) (a : BitVec 6) (b : BitVec 6) : Decoding.Statement (.div hd d a b) := by
  intro _ _
  have e0 : (d ++ a ++ b).extractLsb' 12 6 = d := (appendHi _ _ (by decide)).trans ((appendHi _ _ (by decide)).trans BitVec.extractLsb'_eq_self)
  have e1 : (d ++ a ++ b).extractLsb' 6 6 = a := (appendHi _ _ (by decide)).trans ((appendLo _ _ (by decide)).trans BitVec.extractLsb'_eq_self)
  have e2 : (d ++ a ++ b).extractLsb' 0 6 = b := (appendLo _ _ (by decide)).trans BitVec.extractLsb'_eq_self
  exact congrArg some ((Instr.div.injEq ..).mpr ⟨rfl, e0, e1, e2⟩)

theorem Decoding.divu (hd : Hdr) (d : BitVec 6) (a : BitVec 6) (b : BitVec 6) : Decoding.Statement (.divu hd d a b) := by
  intro _ _
  have e0 : (d ++ a ++ b).extractLsb' 12 6 = d := (appendHi _ _ (by decide)).trans ((appendHi _ _ (by decide)).trans BitVec.extractLsb'_eq_self)
  have e1 : (d ++ a ++ b).extractLsb' 6 6 = a := (appendHi _ _ (by decide)).trans ((appendLo _ _ (by decide)).trans BitVec.extractLsb'_eq_self)
  have e2 : (d ++ a ++ b).extractLsb' 0 6 = b := (appendLo _ _ (by decide)).trans BitVec.extractLsb'_eq_self
  exact congrArg some ((Instr.divu.injEq ..).mpr ⟨rfl, e0, e1, e2⟩)

theorem Decoding.rem (hd : Hdr) (d : BitVec 6) (a : BitVec 6) (b : BitVec 6) : Decoding.Statement (.rem hd d a b) := by
  intro _ _
  have e0 : (d ++ a ++ b).extractLsb' 12 6 = d := (appendHi _ _ (by decide)).trans ((appendHi _ _ (by decide)).trans BitVec.extractLsb'_eq_self)
  have e1 : (d ++ a ++ b).extractLsb' 6 6 = a := (appendHi _ _ (by decide)).trans ((appendLo _ _ (by decide)).trans BitVec.extractLsb'_eq_self)
  have e2 : (d ++ a ++ b).extractLsb' 0 6 = b := (appendLo _ _ (by decide)).trans BitVec.extractLsb'_eq_self
  exact congrArg some ((Instr.rem.injEq ..).mpr ⟨rfl, e0, e1, e2⟩)

theorem Decoding.remu (hd : Hdr) (d : BitVec 6) (a : BitVec 6) (b : BitVec 6) : Decoding.Statement (.remu hd d a b) := by
  intro _ _
  have e0 : (d ++ a ++ b).extractLsb' 12 6 = d := (appendHi _ _ (by decide)).trans ((appendHi _ _ (by decide)).trans BitVec.extractLsb'_eq_self)
  have e1 : (d ++ a ++ b).extractLsb' 6 6 = a := (appendHi _ _ (by decide)).trans ((appendLo _ _ (by decide)).trans BitVec.extractLsb'_eq_self)
  have e2 : (d ++ a ++ b).extractLsb' 0 6 = b := (appendLo _ _ (by decide)).trans BitVec.extractLsb'_eq_self
  exact congrArg some ((Instr.remu.injEq ..).mpr ⟨rfl, e0, e1, e2⟩)

theorem Decoding.and_ (hd : Hdr) (d : BitVec 6) (a : BitVec 6) (b : BitVec 6) : Decoding.Statement (.and_ hd d a b) := by
  intro _ _
  have e0 : (d ++ a ++ b).extractLsb' 12 6 = d := (appendHi _ _ (by decide)).trans ((appendHi _ _ (by decide)).trans BitVec.extractLsb'_eq_self)
  have e1 : (d ++ a ++ b).extractLsb' 6 6 = a := (appendHi _ _ (by decide)).trans ((appendLo _ _ (by decide)).trans BitVec.extractLsb'_eq_self)
  have e2 : (d ++ a ++ b).extractLsb' 0 6 = b := (appendLo _ _ (by decide)).trans BitVec.extractLsb'_eq_self
  exact congrArg some ((Instr.and_.injEq ..).mpr ⟨rfl, e0, e1, e2⟩)

theorem Decoding.andi (hd : Hdr) (d : BitVec 6) (a : BitVec 6) (i : BitVec 6) : Decoding.Statement (.andi hd d a i) := by
  intro _ _
  have e0 : (d ++ a ++ i).extractLsb' 12 6 = d := (appendHi _ _ (by decide)).trans ((appendHi _ _ (by decide)).trans BitVec.extractLsb'_eq_self)
  have e1 : (d ++ a ++ i).extractLsb' 6 6 = a := (appendHi _ _ (by decide)).trans ((appendLo _ _ (by decide)).trans BitVec.extractLsb'_eq_self)
  have e2 : (d ++ a ++ i).extractLsb' 0 6 = i := (appendLo _ _ (by decide)).trans BitVec.extractLsb'_eq_self
  exact congrArg some ((Instr.andi.injEq ..).mpr ⟨rfl, e0, e1, e2⟩)

theorem Decoding.or_ (hd : Hdr) (d : BitVec 6) (a : BitVec 6) (b : BitVec 6) : Decoding.Statement (.or_ hd d a b) := by
  intro _ _
  have e0 : (d ++ a ++ b).extractLsb' 12 6 = d := (appendHi _ _ (by decide)).trans ((appendHi _ _ (by decide)).trans BitVec.extractLsb'_eq_self)
  have e1 : (d ++ a ++ b).extractLsb' 6 6 = a := (appendHi _ _ (by decide)).trans ((appendLo _ _ (by decide)).trans BitVec.extractLsb'_eq_self)
  have e2 : (d ++ a ++ b).extractLsb' 0 6 = b := (appendLo _ _ (by decide)).trans BitVec.extractLsb'_eq_self
  exact congrArg some ((Instr.or_.injEq ..).mpr ⟨rfl, e0, e1, e2⟩)

theorem Decoding.ori (hd : Hdr) (d : BitVec 6) (a : BitVec 6) (i : BitVec 6) : Decoding.Statement (.ori hd d a i) := by
  intro _ _
  have e0 : (d ++ a ++ i).extractLsb' 12 6 = d := (appendHi _ _ (by decide)).trans ((appendHi _ _ (by decide)).trans BitVec.extractLsb'_eq_self)
  have e1 : (d ++ a ++ i).extractLsb' 6 6 = a := (appendHi _ _ (by decide)).trans ((appendLo _ _ (by decide)).trans BitVec.extractLsb'_eq_self)
  have e2 : (d ++ a ++ i).extractLsb' 0 6 = i := (appendLo _ _ (by decide)).trans BitVec.extractLsb'_eq_self
  exact congrArg some ((Instr.ori.injEq ..).mpr ⟨rfl, e0, e1, e2⟩)

theorem Decoding.xor_ (hd : Hdr) (d : BitVec 6) (a : BitVec 6) (b : BitVec 6) : Decoding.Statement (.xor_ hd d a b) := by
  intro _ _
  have e0 : (d ++ a ++ b).extractLsb' 12 6 = d := (appendHi _ _ (by decide)).trans ((appendHi _ _ (by decide)).trans BitVec.extractLsb'_eq_self)
  have e1 : (d ++ a ++ b).extractLsb' 6 6 = a := (appendHi _ _ (by decide)).trans ((appendLo _ _ (by decide)).trans BitVec.extractLsb'_eq_self)
  have e2 : (d ++ a ++ b).extractLsb' 0 6 = b := (appendLo _ _ (by decide)).trans BitVec.extractLsb'_eq_self
  exact congrArg some ((Instr.xor_.injEq ..).mpr ⟨rfl, e0, e1, e2⟩)

theorem Decoding.xori (hd : Hdr) (d : BitVec 6) (a : BitVec 6) (i : BitVec 6) : Decoding.Statement (.xori hd d a i) := by
  intro _ _
  have e0 : (d ++ a ++ i).extractLsb' 12 6 = d := (appendHi _ _ (by decide)).trans ((appendHi _ _ (by decide)).trans BitVec.extractLsb'_eq_self)
  have e1 : (d ++ a ++ i).extractLsb' 6 6 = a := (appendHi _ _ (by decide)).trans ((appendLo _ _ (by decide)).trans BitVec.extractLsb'_eq_self)
  have e2 : (d ++ a ++ i).extractLsb' 0 6 = i := (appendLo _ _ (by decide)).trans BitVec.extractLsb'_eq_self
  exact congrArg some ((Instr.xori.injEq ..).mpr ⟨rfl, e0, e1, e2⟩)

theorem Decoding.shl (hd : Hdr) (d : BitVec 6) (a : BitVec 6) (b : BitVec 6) : Decoding.Statement (.shl hd d a b) := by
  intro _ _
  have e0 : (d ++ a ++ b).extractLsb' 12 6 = d := (appendHi _ _ (by decide)).trans ((appendHi _ _ (by decide)).trans BitVec.extractLsb'_eq_self)
  have e1 : (d ++ a ++ b).extractLsb' 6 6 = a := (appendHi _ _ (by decide)).trans ((appendLo _ _ (by decide)).trans BitVec.extractLsb'_eq_self)
  have e2 : (d ++ a ++ b).extractLsb' 0 6 = b := (appendLo _ _ (by decide)).trans BitVec.extractLsb'_eq_self
  exact congrArg some ((Instr.shl.injEq ..).mpr ⟨rfl, e0, e1, e2⟩)

theorem Decoding.shli (hd : Hdr) (d : BitVec 6) (a : BitVec 6) (i : BitVec 6) : Decoding.Statement (.shli hd d a i) := by
  intro _ _
  have e0 : (d ++ a ++ i).extractLsb' 12 6 = d := (appendHi _ _ (by decide)).trans ((appendHi _ _ (by decide)).trans BitVec.extractLsb'_eq_self)
  have e1 : (d ++ a ++ i).extractLsb' 6 6 = a := (appendHi _ _ (by decide)).trans ((appendLo _ _ (by decide)).trans BitVec.extractLsb'_eq_self)
  have e2 : (d ++ a ++ i).extractLsb' 0 6 = i := (appendLo _ _ (by decide)).trans BitVec.extractLsb'_eq_self
  exact congrArg some ((Instr.shli.injEq ..).mpr ⟨rfl, e0, e1, e2⟩)

theorem Decoding.shr (hd : Hdr) (d : BitVec 6) (a : BitVec 6) (b : BitVec 6) : Decoding.Statement (.shr hd d a b) := by
  intro _ _
  have e0 : (d ++ a ++ b).extractLsb' 12 6 = d := (appendHi _ _ (by decide)).trans ((appendHi _ _ (by decide)).trans BitVec.extractLsb'_eq_self)
  have e1 : (d ++ a ++ b).extractLsb' 6 6 = a := (appendHi _ _ (by decide)).trans ((appendLo _ _ (by decide)).trans BitVec.extractLsb'_eq_self)
  have e2 : (d ++ a ++ b).extractLsb' 0 6 = b := (appendLo _ _ (by decide)).trans BitVec.extractLsb'_eq_self
  exact congrArg some ((Instr.shr.injEq ..).mpr ⟨rfl, e0, e1, e2⟩)

theorem Decoding.shri (hd : Hdr) (d : BitVec 6) (a : BitVec 6) (i : BitVec 6) : Decoding.Statement (.shri hd d a i) := by
  intro _ _
  have e0 : (d ++ a ++ i).extractLsb' 12 6 = d := (appendHi _ _ (by decide)).trans ((appendHi _ _ (by decide)).trans BitVec.extractLsb'_eq_self)
  have e1 : (d ++ a ++ i).extractLsb' 6 6 = a := (appendHi _ _ (by decide)).trans ((appendLo _ _ (by decide)).trans BitVec.extractLsb'_eq_self)
  have e2 : (d ++ a ++ i).extractLsb' 0 6 = i := (appendLo _ _ (by decide)).trans BitVec.extractLsb'_eq_self
  exact congrArg some ((Instr.shri.injEq ..).mpr ⟨rfl, e0, e1, e2⟩)

theorem Decoding.sra (hd : Hdr) (d : BitVec 6) (a : BitVec 6) (b : BitVec 6) : Decoding.Statement (.sra hd d a b) := by
  intro _ _
  have e0 : (d ++ a ++ b).extractLsb' 12 6 = d := (appendHi _ _ (by decide)).trans ((appendHi _ _ (by decide)).trans BitVec.extractLsb'_eq_self)
  have e1 : (d ++ a ++ b).extractLsb' 6 6 = a := (appendHi _ _ (by decide)).trans ((appendLo _ _ (by decide)).trans BitVec.extractLsb'_eq_self)
  have e2 : (d ++ a ++ b).extractLsb' 0 6 = b := (appendLo _ _ (by decide)).trans BitVec.extractLsb'_eq_self
  exact congrArg some ((Instr.sra.injEq ..).mpr ⟨rfl, e0, e1, e2⟩)

theorem Decoding.srai (hd : Hdr) (d : BitVec 6) (a : BitVec 6) (i : BitVec 6) : Decoding.Statement (.srai hd d a i) := by
  intro _ _
  have e0 : (d ++ a ++ i).extractLsb' 12 6 = d := (appendHi _ _ (by decide)).trans ((appendHi _ _ (by decide)).trans BitVec.extractLsb'_eq_self)
  have e1 : (d ++ a ++ i).extractLsb' 6 6 = a := (appendHi _ _ (by decide)).trans ((appendLo _ _ (by decide)).trans BitVec.extractLsb'_eq_self)
  have e2 : (d ++ a ++ i).extractLsb' 0 6 = i := (appendLo _ _ (by decide)).trans BitVec.extractLsb'_eq_self
  exact congrArg some ((Instr.srai.injEq ..).mpr ⟨rfl, e0, e1, e2⟩)

theorem Decoding.min (hd : Hdr) (d : BitVec 6) (a : BitVec 6) (b : BitVec 6) : Decoding.Statement (.min hd d a b) := by
  intro _ _
  have e0 : (d ++ a ++ b).extractLsb' 12 6 = d := (appendHi _ _ (by decide)).trans ((appendHi _ _ (by decide)).trans BitVec.extractLsb'_eq_self)
  have e1 : (d ++ a ++ b).extractLsb' 6 6 = a := (appendHi _ _ (by decide)).trans ((appendLo _ _ (by decide)).trans BitVec.extractLsb'_eq_self)
  have e2 : (d ++ a ++ b).extractLsb' 0 6 = b := (appendLo _ _ (by decide)).trans BitVec.extractLsb'_eq_self
  exact congrArg some ((Instr.min.injEq ..).mpr ⟨rfl, e0, e1, e2⟩)

theorem Decoding.max (hd : Hdr) (d : BitVec 6) (a : BitVec 6) (b : BitVec 6) : Decoding.Statement (.max hd d a b) := by
  intro _ _
  have e0 : (d ++ a ++ b).extractLsb' 12 6 = d := (appendHi _ _ (by decide)).trans ((appendHi _ _ (by decide)).trans BitVec.extractLsb'_eq_self)
  have e1 : (d ++ a ++ b).extractLsb' 6 6 = a := (appendHi _ _ (by decide)).trans ((appendLo _ _ (by decide)).trans BitVec.extractLsb'_eq_self)
  have e2 : (d ++ a ++ b).extractLsb' 0 6 = b := (appendLo _ _ (by decide)).trans BitVec.extractLsb'_eq_self
  exact congrArg some ((Instr.max.injEq ..).mpr ⟨rfl, e0, e1, e2⟩)

theorem Decoding.minu (hd : Hdr) (d : BitVec 6) (a : BitVec 6) (b : BitVec 6) : Decoding.Statement (.minu hd d a b) := by
  intro _ _
  have e0 : (d ++ a ++ b).extractLsb' 12 6 = d := (appendHi _ _ (by decide)).trans ((appendHi _ _ (by decide)).trans BitVec.extractLsb'_eq_self)
  have e1 : (d ++ a ++ b).extractLsb' 6 6 = a := (appendHi _ _ (by decide)).trans ((appendLo _ _ (by decide)).trans BitVec.extractLsb'_eq_self)
  have e2 : (d ++ a ++ b).extractLsb' 0 6 = b := (appendLo _ _ (by decide)).trans BitVec.extractLsb'_eq_self
  exact congrArg some ((Instr.minu.injEq ..).mpr ⟨rfl, e0, e1, e2⟩)

theorem Decoding.maxu (hd : Hdr) (d : BitVec 6) (a : BitVec 6) (b : BitVec 6) : Decoding.Statement (.maxu hd d a b) := by
  intro _ _
  have e0 : (d ++ a ++ b).extractLsb' 12 6 = d := (appendHi _ _ (by decide)).trans ((appendHi _ _ (by decide)).trans BitVec.extractLsb'_eq_self)
  have e1 : (d ++ a ++ b).extractLsb' 6 6 = a := (appendHi _ _ (by decide)).trans ((appendLo _ _ (by decide)).trans BitVec.extractLsb'_eq_self)
  have e2 : (d ++ a ++ b).extractLsb' 0 6 = b := (appendLo _ _ (by decide)).trans BitVec.extractLsb'_eq_self
  exact congrArg some ((Instr.maxu.injEq ..).mpr ⟨rfl, e0, e1, e2⟩)

theorem Decoding.adds (hd : Hdr) (d : BitVec 6) (a : BitVec 6) (b : BitVec 6) : Decoding.Statement (.adds hd d a b) := by
  intro _ _
  have e0 : (d ++ a ++ b).extractLsb' 12 6 = d := (appendHi _ _ (by decide)).trans ((appendHi _ _ (by decide)).trans BitVec.extractLsb'_eq_self)
  have e1 : (d ++ a ++ b).extractLsb' 6 6 = a := (appendHi _ _ (by decide)).trans ((appendLo _ _ (by decide)).trans BitVec.extractLsb'_eq_self)
  have e2 : (d ++ a ++ b).extractLsb' 0 6 = b := (appendLo _ _ (by decide)).trans BitVec.extractLsb'_eq_self
  exact congrArg some ((Instr.adds.injEq ..).mpr ⟨rfl, e0, e1, e2⟩)

theorem Decoding.subs (hd : Hdr) (d : BitVec 6) (a : BitVec 6) (b : BitVec 6) : Decoding.Statement (.subs hd d a b) := by
  intro _ _
  have e0 : (d ++ a ++ b).extractLsb' 12 6 = d := (appendHi _ _ (by decide)).trans ((appendHi _ _ (by decide)).trans BitVec.extractLsb'_eq_self)
  have e1 : (d ++ a ++ b).extractLsb' 6 6 = a := (appendHi _ _ (by decide)).trans ((appendLo _ _ (by decide)).trans BitVec.extractLsb'_eq_self)
  have e2 : (d ++ a ++ b).extractLsb' 0 6 = b := (appendLo _ _ (by decide)).trans BitVec.extractLsb'_eq_self
  exact congrArg some ((Instr.subs.injEq ..).mpr ⟨rfl, e0, e1, e2⟩)

theorem Decoding.clz (hd : Hdr) (d : BitVec 6) (a : BitVec 6) : Decoding.Statement (.clz hd d a) := by
  intro _ _
  have e0 : (d ++ a ++ 0#6).extractLsb' 12 6 = d := (appendHi _ _ (by decide)).trans ((appendHi _ _ (by decide)).trans BitVec.extractLsb'_eq_self)
  have e1 : (d ++ a ++ 0#6).extractLsb' 6 6 = a := (appendHi _ _ (by decide)).trans ((appendLo _ _ (by decide)).trans BitVec.extractLsb'_eq_self)
  have c0 : (d ++ a ++ 0#6) &&& 0x0003F#18 = 0x00000#18 := andAppend (andAppend (BitVec.and_zero : d &&& 0#6 = 0#6) (BitVec.and_zero : a &&& 0#6 = 0#6)) (by decide : (0#6) &&& 63#6 = 0#6)
  refine (if_pos c0).trans ?_
  exact congrArg some ((Instr.clz.injEq ..).mpr ⟨rfl, e0, e1⟩)

theorem Decoding.popc (hd : Hdr) (d : BitVec 6) (a : BitVec 6) : Decoding.Statement (.popc hd d a) := by
  intro _ _
  have e0 : (d ++ a ++ 0#6).extractLsb' 12 6 = d := (appendHi _ _ (by decide)).trans ((appendHi _ _ (by decide)).trans BitVec.extractLsb'_eq_self)
  have e1 : (d ++ a ++ 0#6).extractLsb' 6 6 = a := (appendHi _ _ (by decide)).trans ((appendLo _ _ (by decide)).trans BitVec.extractLsb'_eq_self)
  have c0 : (d ++ a ++ 0#6) &&& 0x0003F#18 = 0x00000#18 := andAppend (andAppend (BitVec.and_zero : d &&& 0#6 = 0#6) (BitVec.and_zero : a &&& 0#6 = 0#6)) (by decide : (0#6) &&& 63#6 = 0#6)
  refine (if_pos c0).trans ?_
  exact congrArg some ((Instr.popc.injEq ..).mpr ⟨rfl, e0, e1⟩)

theorem Decoding.movi (hd : Hdr) (d : BitVec 6) (i : BitVec 12) : Decoding.Statement (.movi hd d i) := by
  intro _ _
  have e0 : (d ++ i).extractLsb' 12 6 = d := (appendHi _ _ (by decide)).trans BitVec.extractLsb'_eq_self
  have e1 : (d ++ i).extractLsb' 0 12 = i := (appendLo _ _ (by decide)).trans BitVec.extractLsb'_eq_self
  exact congrArg some ((Instr.movi.injEq ..).mpr ⟨rfl, e0, e1⟩)

theorem Decoding.sel (hd : Hdr) (d : BitVec 6) (a : BitVec 6) (b : BitVec 6) : Decoding.Statement (.sel hd d a b) := by
  intro _ _
  have e0 : (d ++ a ++ b).extractLsb' 12 6 = d := (appendHi _ _ (by decide)).trans ((appendHi _ _ (by decide)).trans BitVec.extractLsb'_eq_self)
  have e1 : (d ++ a ++ b).extractLsb' 6 6 = a := (appendHi _ _ (by decide)).trans ((appendLo _ _ (by decide)).trans BitVec.extractLsb'_eq_self)
  have e2 : (d ++ a ++ b).extractLsb' 0 6 = b := (appendLo _ _ (by decide)).trans BitVec.extractLsb'_eq_self
  exact congrArg some ((Instr.sel.injEq ..).mpr ⟨rfl, e0, e1, e2⟩)

theorem Decoding.bptr (hd : Hdr) (d : BitVec 6) (a : BitVec 6) (b : BitVec 6) : Decoding.Statement (.bptr hd d a b) := by
  intro _ _
  have e0 : (d ++ a ++ b).extractLsb' 12 6 = d := (appendHi _ _ (by decide)).trans ((appendHi _ _ (by decide)).trans BitVec.extractLsb'_eq_self)
  have e1 : (d ++ a ++ b).extractLsb' 6 6 = a := (appendHi _ _ (by decide)).trans ((appendLo _ _ (by decide)).trans BitVec.extractLsb'_eq_self)
  have e2 : (d ++ a ++ b).extractLsb' 0 6 = b := (appendLo _ _ (by decide)).trans BitVec.extractLsb'_eq_self
  exact congrArg some ((Instr.bptr.injEq ..).mpr ⟨rfl, e0, e1, e2⟩)

theorem Decoding.bpadd (hd : Hdr) (d : BitVec 6) (a : BitVec 6) (b : BitVec 6) : Decoding.Statement (.bpadd hd d a b) := by
  intro _ _
  have e0 : (d ++ a ++ b).extractLsb' 12 6 = d := (appendHi _ _ (by decide)).trans ((appendHi _ _ (by decide)).trans BitVec.extractLsb'_eq_self)
  have e1 : (d ++ a ++ b).extractLsb' 6 6 = a := (appendHi _ _ (by decide)).trans ((appendLo _ _ (by decide)).trans BitVec.extractLsb'_eq_self)
  have e2 : (d ++ a ++ b).extractLsb' 0 6 = b := (appendLo _ _ (by decide)).trans BitVec.extractLsb'_eq_self
  exact congrArg some ((Instr.bpadd.injEq ..).mpr ⟨rfl, e0, e1, e2⟩)

theorem Decoding.bpchk (hd : Hdr) (p : BitVec 2) (x : BitVec 2) (a : BitVec 6) (b : BitVec 6) : Decoding.Statement (.bpchk hd p x a b) := by
  intro _ _
  have e0 : (p ++ x ++ 0#2 ++ a ++ b).extractLsb' 16 2 = p := (appendHi _ _ (by decide)).trans ((appendHi _ _ (by decide)).trans ((appendHi _ _ (by decide)).trans ((appendHi _ _ (by decide)).trans BitVec.extractLsb'_eq_self)))
  have e1 : (p ++ x ++ 0#2 ++ a ++ b).extractLsb' 14 2 = x := (appendHi _ _ (by decide)).trans ((appendHi _ _ (by decide)).trans ((appendHi _ _ (by decide)).trans ((appendLo _ _ (by decide)).trans BitVec.extractLsb'_eq_self)))
  have e2 : (p ++ x ++ 0#2 ++ a ++ b).extractLsb' 6 6 = a := (appendHi _ _ (by decide)).trans ((appendLo _ _ (by decide)).trans BitVec.extractLsb'_eq_self)
  have e3 : (p ++ x ++ 0#2 ++ a ++ b).extractLsb' 0 6 = b := (appendLo _ _ (by decide)).trans BitVec.extractLsb'_eq_self
  have c0 : (p ++ x ++ 0#2 ++ a ++ b) &&& 0x03000#18 = 0x00000#18 := andAppend (andAppend (andAppend (andAppend (BitVec.and_zero : p &&& 0#2 = 0#2) (BitVec.and_zero : x &&& 0#2 = 0#2)) (by decide : (0#2) &&& 3#2 = 0#2)) (BitVec.and_zero : a &&& 0#6 = 0#6)) (BitVec.and_zero : b &&& 0#6 = 0#6)
  refine (if_pos c0).trans ?_
  exact congrArg some ((Instr.bpchk.injEq ..).mpr ⟨rfl, e0, e1, e2, e3⟩)

theorem Decoding.bfx (hd : Hdr) (d : BitVec 6) (a : BitVec 6) : Decoding.Statement (.bfx hd d a) := by
  intro _ _
  have e0 : (d ++ a ++ 0#6).extractLsb' 12 6 = d := (appendHi _ _ (by decide)).trans ((appendHi _ _ (by decide)).trans BitVec.extractLsb'_eq_self)
  have e1 : (d ++ a ++ 0#6).extractLsb' 6 6 = a := (appendHi _ _ (by decide)).trans ((appendLo _ _ (by decide)).trans BitVec.extractLsb'_eq_self)
  have c0 : (d ++ a ++ 0#6) &&& 0x0003F#18 = 0x00000#18 := andAppend (andAppend (BitVec.and_zero : d &&& 0#6 = 0#6) (BitVec.and_zero : a &&& 0#6 = 0#6)) (by decide : (0#6) &&& 63#6 = 0#6)
  refine (if_pos c0).trans ?_
  exact congrArg some ((Instr.bfx.injEq ..).mpr ⟨rfl, e0, e1⟩)

theorem Decoding.bfxu (hd : Hdr) (d : BitVec 6) (a : BitVec 6) : Decoding.Statement (.bfxu hd d a) := by
  intro _ _
  have e0 : (d ++ a ++ 0#6).extractLsb' 12 6 = d := (appendHi _ _ (by decide)).trans ((appendHi _ _ (by decide)).trans BitVec.extractLsb'_eq_self)
  have e1 : (d ++ a ++ 0#6).extractLsb' 6 6 = a := (appendHi _ _ (by decide)).trans ((appendLo _ _ (by decide)).trans BitVec.extractLsb'_eq_self)
  have c0 : (d ++ a ++ 0#6) &&& 0x0003F#18 = 0x00000#18 := andAppend (andAppend (BitVec.and_zero : d &&& 0#6 = 0#6) (BitVec.and_zero : a &&& 0#6 = 0#6)) (by decide : (0#6) &&& 63#6 = 0#6)
  refine (if_pos c0).trans ?_
  exact congrArg some ((Instr.bfxu.injEq ..).mpr ⟨rfl, e0, e1⟩)

theorem Decoding.bfi (hd : Hdr) (d : BitVec 6) (a : BitVec 6) (b : BitVec 6) : Decoding.Statement (.bfi hd d a b) := by
  intro _ _
  have e0 : (d ++ a ++ b).extractLsb' 12 6 = d := (appendHi _ _ (by decide)).trans ((appendHi _ _ (by decide)).trans BitVec.extractLsb'_eq_self)
  have e1 : (d ++ a ++ b).extractLsb' 6 6 = a := (appendHi _ _ (by decide)).trans ((appendLo _ _ (by decide)).trans BitVec.extractLsb'_eq_self)
  have e2 : (d ++ a ++ b).extractLsb' 0 6 = b := (appendLo _ _ (by decide)).trans BitVec.extractLsb'_eq_self
  exact congrArg some ((Instr.bfi.injEq ..).mpr ⟨rfl, e0, e1, e2⟩)

theorem Decoding.cmp (hd : Hdr) (p : BitVec 2) (c : BitVec 4) (a : BitVec 6) (b : BitVec 6) : Decoding.Statement (.cmp hd p c a b) := by
  intro _ _
  have e0 : (p ++ c ++ a ++ b).extractLsb' 16 2 = p := (appendHi _ _ (by decide)).trans ((appendHi _ _ (by decide)).trans ((appendHi _ _ (by decide)).trans BitVec.extractLsb'_eq_self))
  have e1 : (p ++ c ++ a ++ b).extractLsb' 12 4 = c := (appendHi _ _ (by decide)).trans ((appendHi _ _ (by decide)).trans ((appendLo _ _ (by decide)).trans BitVec.extractLsb'_eq_self))
  have e2 : (p ++ c ++ a ++ b).extractLsb' 6 6 = a := (appendHi _ _ (by decide)).trans ((appendLo _ _ (by decide)).trans BitVec.extractLsb'_eq_self)
  have e3 : (p ++ c ++ a ++ b).extractLsb' 0 6 = b := (appendLo _ _ (by decide)).trans BitVec.extractLsb'_eq_self
  exact congrArg some ((Instr.cmp.injEq ..).mpr ⟨rfl, e0, e1, e2, e3⟩)

theorem Decoding.cmpi (hd : Hdr) (p : BitVec 2) (c : BitVec 4) (a : BitVec 6) (i : BitVec 6) : Decoding.Statement (.cmpi hd p c a i) := by
  intro _ _
  have e0 : (p ++ c ++ a ++ i).extractLsb' 16 2 = p := (appendHi _ _ (by decide)).trans ((appendHi _ _ (by decide)).trans ((appendHi _ _ (by decide)).trans BitVec.extractLsb'_eq_self))
  have e1 : (p ++ c ++ a ++ i).extractLsb' 12 4 = c := (appendHi _ _ (by decide)).trans ((appendHi _ _ (by decide)).trans ((appendLo _ _ (by decide)).trans BitVec.extractLsb'_eq_self))
  have e2 : (p ++ c ++ a ++ i).extractLsb' 6 6 = a := (appendHi _ _ (by decide)).trans ((appendLo _ _ (by decide)).trans BitVec.extractLsb'_eq_self)
  have e3 : (p ++ c ++ a ++ i).extractLsb' 0 6 = i := (appendLo _ _ (by decide)).trans BitVec.extractLsb'_eq_self
  exact congrArg some ((Instr.cmpi.injEq ..).mpr ⟨rfl, e0, e1, e2, e3⟩)

theorem Decoding.plog (hd : Hdr) (d : BitVec 3) (a : BitVec 3) (b : BitVec 3) (f : BitVec 4) : Decoding.Statement (.plog hd d a b f) := by
  intro _ _
  have e0 : (d ++ a ++ b ++ f ++ 0#5).extractLsb' 15 3 = d := (appendHi _ _ (by decide)).trans ((appendHi _ _ (by decide)).trans ((appendHi _ _ (by decide)).trans ((appendHi _ _ (by decide)).trans BitVec.extractLsb'_eq_self)))
  have e1 : (d ++ a ++ b ++ f ++ 0#5).extractLsb' 12 3 = a := (appendHi _ _ (by decide)).trans ((appendHi _ _ (by decide)).trans ((appendHi _ _ (by decide)).trans ((appendLo _ _ (by decide)).trans BitVec.extractLsb'_eq_self)))
  have e2 : (d ++ a ++ b ++ f ++ 0#5).extractLsb' 9 3 = b := (appendHi _ _ (by decide)).trans ((appendHi _ _ (by decide)).trans ((appendLo _ _ (by decide)).trans BitVec.extractLsb'_eq_self))
  have e3 : (d ++ a ++ b ++ f ++ 0#5).extractLsb' 5 4 = f := (appendHi _ _ (by decide)).trans ((appendLo _ _ (by decide)).trans BitVec.extractLsb'_eq_self)
  have c0 : (d ++ a ++ b ++ f ++ 0#5) &&& 0x0001F#18 = 0x00000#18 := andAppend (andAppend (andAppend (andAppend (BitVec.and_zero : d &&& 0#3 = 0#3) (BitVec.and_zero : a &&& 0#3 = 0#3)) (BitVec.and_zero : b &&& 0#3 = 0#3)) (BitVec.and_zero : f &&& 0#4 = 0#4)) (by decide : (0#5) &&& 31#5 = 0#5)
  refine (if_pos c0).trans ?_
  exact congrArg some ((Instr.plog.injEq ..).mpr ⟨rfl, e0, e1, e2, e3⟩)

theorem Decoding.pmovTos (hd : Hdr) (d : BitVec 6) : Decoding.Statement (.pmovTos hd d) := by
  intro _ _
  have e0 : (d ++ 0#12).extractLsb' 12 6 = d := (appendHi _ _ (by decide)).trans BitVec.extractLsb'_eq_self
  have c0 : (d ++ 0#12) &&& 0x00FFF#18 = 0x00000#18 := andAppend (BitVec.and_zero : d &&& 0#6 = 0#6) (by decide : (0#12) &&& 4095#12 = 0#12)
  refine (if_pos c0).trans ?_
  exact congrArg some ((Instr.pmovTos.injEq ..).mpr ⟨rfl, e0⟩)

theorem Decoding.pmovFroms (hd : Hdr) (a : BitVec 6) : Decoding.Statement (.pmovFroms hd a) := by
  intro _ _
  have e0 : (0#6 ++ a ++ 1#6).extractLsb' 6 6 = a := (appendHi _ _ (by decide)).trans ((appendLo _ _ (by decide)).trans BitVec.extractLsb'_eq_self)
  have x0 : (0#6 ++ a ++ 1#6).extractLsb' 0 6 = 1#6 := (appendLo _ _ (by decide)).trans (BitVec.extractLsb'_eq_self)
  have c0 : ¬ (0#6 ++ a ++ 1#6) &&& 0x00FFF#18 = 0x00000#18 := fun h =>
    absurd ((congrArg (· &&& BitVec.extractLsb' 0 6 0x00FFF#18) x0).symm.trans
      ((BitVec.extractLsb'_and).symm.trans (congrArg (BitVec.extractLsb' 0 6) h))) (by decide)
  have c1 : (0#6 ++ a ++ 1#6) &&& 0x3F03F#18 = 0x00001#18 := andAppend (andAppend (by decide : (0#6) &&& 63#6 = 0#6) (BitVec.and_zero : a &&& 0#6 = 0#6)) (by decide : (1#6) &&& 63#6 = 1#6)
  refine (if_neg c0).trans ((if_pos c1).trans ?_)
  exact congrArg some ((Instr.pmovFroms.injEq ..).mpr ⟨rfl, e0⟩)

theorem Decoding.wmrg (hd : Hdr) (d : BitVec 6) (a : BitVec 6) (b : BitVec 6) : Decoding.Statement (.wmrg hd d a b) := by
  intro _ _
  have e0 : (d ++ a ++ b).extractLsb' 12 6 = d := (appendHi _ _ (by decide)).trans ((appendHi _ _ (by decide)).trans BitVec.extractLsb'_eq_self)
  have e1 : (d ++ a ++ b).extractLsb' 6 6 = a := (appendHi _ _ (by decide)).trans ((appendLo _ _ (by decide)).trans BitVec.extractLsb'_eq_self)
  have e2 : (d ++ a ++ b).extractLsb' 0 6 = b := (appendLo _ _ (by decide)).trans BitVec.extractLsb'_eq_self
  exact congrArg some ((Instr.wmrg.injEq ..).mpr ⟨rfl, e0, e1, e2⟩)

theorem Decoding.wmovTow (hd : Hdr) (d : BitVec 6) (a : BitVec 6) (e : BitVec 1) : Decoding.Statement (.wmovTow hd d a e) := by
  intro _ _
  have e0 : (d ++ a ++ 0#2 ++ e ++ 0#3).extractLsb' 12 6 = d := (appendHi _ _ (by decide)).trans ((appendHi _ _ (by decide)).trans ((appendHi _ _ (by decide)).trans ((appendHi _ _ (by decide)).trans BitVec.extractLsb'_eq_self)))
  have e1 : (d ++ a ++ 0#2 ++ e ++ 0#3).extractLsb' 6 6 = a := (appendHi _ _ (by decide)).trans ((appendHi _ _ (by decide)).trans ((appendHi _ _ (by decide)).trans ((appendLo _ _ (by decide)).trans BitVec.extractLsb'_eq_self)))
  have e2 : (d ++ a ++ 0#2 ++ e ++ 0#3).extractLsb' 3 1 = e := (appendHi _ _ (by decide)).trans ((appendLo _ _ (by decide)).trans BitVec.extractLsb'_eq_self)
  have c0 : (d ++ a ++ 0#2 ++ e ++ 0#3) &&& 0x00037#18 = 0x00000#18 := andAppend (andAppend (andAppend (andAppend (BitVec.and_zero : d &&& 0#6 = 0#6) (BitVec.and_zero : a &&& 0#6 = 0#6)) (by decide : (0#2) &&& 3#2 = 0#2)) (BitVec.and_zero : e &&& 0#1 = 0#1)) (by decide : (0#3) &&& 7#3 = 0#3)
  refine (if_pos c0).trans ?_
  exact congrArg some ((Instr.wmovTow.injEq ..).mpr ⟨rfl, e0, e1, e2⟩)

theorem Decoding.wmovTos (hd : Hdr) (d : BitVec 6) (a : BitVec 6) (e : BitVec 1) : Decoding.Statement (.wmovTos hd d a e) := by
  intro _ _
  have e0 : (d ++ a ++ 1#2 ++ e ++ 0#3).extractLsb' 12 6 = d := (appendHi _ _ (by decide)).trans ((appendHi _ _ (by decide)).trans ((appendHi _ _ (by decide)).trans ((appendHi _ _ (by decide)).trans BitVec.extractLsb'_eq_self)))
  have e1 : (d ++ a ++ 1#2 ++ e ++ 0#3).extractLsb' 6 6 = a := (appendHi _ _ (by decide)).trans ((appendHi _ _ (by decide)).trans ((appendHi _ _ (by decide)).trans ((appendLo _ _ (by decide)).trans BitVec.extractLsb'_eq_self)))
  have e2 : (d ++ a ++ 1#2 ++ e ++ 0#3).extractLsb' 3 1 = e := (appendHi _ _ (by decide)).trans ((appendLo _ _ (by decide)).trans BitVec.extractLsb'_eq_self)
  have c0 : ¬ (d ++ a ++ 1#2 ++ e ++ 0#3) &&& 0x00037#18 = 0x00000#18 := fun h =>
    absurd (((andAppend (andAppend (andAppend (andAppend (BitVec.and_zero : d &&& 0#6 = 0#6) (BitVec.and_zero : a &&& 0#6 = 0#6)) (by decide : (1#2) &&& 3#2 = 1#2)) (BitVec.and_zero : e &&& 0#1 = 0#1)) (by decide : (0#3) &&& 7#3 = 0#3) : (d ++ a ++ 1#2 ++ e ++ 0#3) &&& 0x00037#18 = 16#18)).symm.trans h) (by decide)
  have c1 : (d ++ a ++ 1#2 ++ e ++ 0#3) &&& 0x00037#18 = 0x00010#18 := andAppend (andAppend (andAppend (andAppend (BitVec.and_zero : d &&& 0#6 = 0#6) (BitVec.and_zero : a &&& 0#6 = 0#6)) (by decide : (1#2) &&& 3#2 = 1#2)) (BitVec.and_zero : e &&& 0#1 = 0#1)) (by decide : (0#3) &&& 7#3 = 0#3)
  refine (if_neg c0).trans ((if_pos c1).trans ?_)
  exact congrArg some ((Instr.wmovTos.injEq ..).mpr ⟨rfl, e0, e1, e2⟩)

theorem Decoding.wmov (hd : Hdr) (d : BitVec 6) (a : BitVec 6) : Decoding.Statement (.wmov hd d a) := by
  intro _ _
  have e0 : (d ++ a ++ 32#6).extractLsb' 12 6 = d := (appendHi _ _ (by decide)).trans ((appendHi _ _ (by decide)).trans BitVec.extractLsb'_eq_self)
  have e1 : (d ++ a ++ 32#6).extractLsb' 6 6 = a := (appendHi _ _ (by decide)).trans ((appendLo _ _ (by decide)).trans BitVec.extractLsb'_eq_self)
  have c0 : ¬ (d ++ a ++ 32#6) &&& 0x00037#18 = 0x00000#18 := fun h =>
    absurd (((andAppend (andAppend (BitVec.and_zero : d &&& 0#6 = 0#6) (BitVec.and_zero : a &&& 0#6 = 0#6)) (by decide : (32#6) &&& 55#6 = 32#6) : (d ++ a ++ 32#6) &&& 0x00037#18 = 32#18)).symm.trans h) (by decide)
  have c1 : ¬ (d ++ a ++ 32#6) &&& 0x00037#18 = 0x00010#18 := fun h =>
    absurd (((andAppend (andAppend (BitVec.and_zero : d &&& 0#6 = 0#6) (BitVec.and_zero : a &&& 0#6 = 0#6)) (by decide : (32#6) &&& 55#6 = 32#6) : (d ++ a ++ 32#6) &&& 0x00037#18 = 32#18)).symm.trans h) (by decide)
  have c2 : (d ++ a ++ 32#6) &&& 0x0003F#18 = 0x00020#18 := andAppend (andAppend (BitVec.and_zero : d &&& 0#6 = 0#6) (BitVec.and_zero : a &&& 0#6 = 0#6)) (by decide : (32#6) &&& 63#6 = 32#6)
  refine (if_neg c0).trans ((if_neg c1).trans ((if_pos c2).trans ?_))
  exact congrArg some ((Instr.wmov.injEq ..).mpr ⟨rfl, e0, e1⟩)

theorem Decoding.wnull (hd : Hdr) (d : BitVec 6) : Decoding.Statement (.wnull hd d) := by
  intro _ _
  have e0 : (d ++ 0#12).extractLsb' 12 6 = d := (appendHi _ _ (by decide)).trans BitVec.extractLsb'_eq_self
  have c0 : (d ++ 0#12) &&& 0x00FFF#18 = 0x00000#18 := andAppend (BitVec.and_zero : d &&& 0#6 = 0#6) (by decide : (0#12) &&& 4095#12 = 0#12)
  refine (if_pos c0).trans ?_
  exact congrArg some ((Instr.wnull.injEq ..).mpr ⟨rfl, e0⟩)

theorem Decoding.faddF32 (hd : Hdr) (d : BitVec 6) (a : BitVec 6) (b : BitVec 6) : Decoding.Statement (.faddF32 hd d a b) := by
  intro _ _
  have e0 : (d ++ a ++ b).extractLsb' 12 6 = d := (appendHi _ _ (by decide)).trans ((appendHi _ _ (by decide)).trans BitVec.extractLsb'_eq_self)
  have e1 : (d ++ a ++ b).extractLsb' 6 6 = a := (appendHi _ _ (by decide)).trans ((appendLo _ _ (by decide)).trans BitVec.extractLsb'_eq_self)
  have e2 : (d ++ a ++ b).extractLsb' 0 6 = b := (appendLo _ _ (by decide)).trans BitVec.extractLsb'_eq_self
  exact congrArg some ((Instr.faddF32.injEq ..).mpr ⟨rfl, e0, e1, e2⟩)

theorem Decoding.faddF64 (hd : Hdr) (d : BitVec 6) (a : BitVec 6) (b : BitVec 6) : Decoding.Statement (.faddF64 hd d a b) := by
  intro _ _
  have e0 : (d ++ a ++ b).extractLsb' 12 6 = d := (appendHi _ _ (by decide)).trans ((appendHi _ _ (by decide)).trans BitVec.extractLsb'_eq_self)
  have e1 : (d ++ a ++ b).extractLsb' 6 6 = a := (appendHi _ _ (by decide)).trans ((appendLo _ _ (by decide)).trans BitVec.extractLsb'_eq_self)
  have e2 : (d ++ a ++ b).extractLsb' 0 6 = b := (appendLo _ _ (by decide)).trans BitVec.extractLsb'_eq_self
  exact congrArg some ((Instr.faddF64.injEq ..).mpr ⟨rfl, e0, e1, e2⟩)

theorem Decoding.fsubF32 (hd : Hdr) (d : BitVec 6) (a : BitVec 6) (b : BitVec 6) : Decoding.Statement (.fsubF32 hd d a b) := by
  intro _ _
  have e0 : (d ++ a ++ b).extractLsb' 12 6 = d := (appendHi _ _ (by decide)).trans ((appendHi _ _ (by decide)).trans BitVec.extractLsb'_eq_self)
  have e1 : (d ++ a ++ b).extractLsb' 6 6 = a := (appendHi _ _ (by decide)).trans ((appendLo _ _ (by decide)).trans BitVec.extractLsb'_eq_self)
  have e2 : (d ++ a ++ b).extractLsb' 0 6 = b := (appendLo _ _ (by decide)).trans BitVec.extractLsb'_eq_self
  exact congrArg some ((Instr.fsubF32.injEq ..).mpr ⟨rfl, e0, e1, e2⟩)

theorem Decoding.fsubF64 (hd : Hdr) (d : BitVec 6) (a : BitVec 6) (b : BitVec 6) : Decoding.Statement (.fsubF64 hd d a b) := by
  intro _ _
  have e0 : (d ++ a ++ b).extractLsb' 12 6 = d := (appendHi _ _ (by decide)).trans ((appendHi _ _ (by decide)).trans BitVec.extractLsb'_eq_self)
  have e1 : (d ++ a ++ b).extractLsb' 6 6 = a := (appendHi _ _ (by decide)).trans ((appendLo _ _ (by decide)).trans BitVec.extractLsb'_eq_self)
  have e2 : (d ++ a ++ b).extractLsb' 0 6 = b := (appendLo _ _ (by decide)).trans BitVec.extractLsb'_eq_self
  exact congrArg some ((Instr.fsubF64.injEq ..).mpr ⟨rfl, e0, e1, e2⟩)

theorem Decoding.fmulF32 (hd : Hdr) (d : BitVec 6) (a : BitVec 6) (b : BitVec 6) : Decoding.Statement (.fmulF32 hd d a b) := by
  intro _ _
  have e0 : (d ++ a ++ b).extractLsb' 12 6 = d := (appendHi _ _ (by decide)).trans ((appendHi _ _ (by decide)).trans BitVec.extractLsb'_eq_self)
  have e1 : (d ++ a ++ b).extractLsb' 6 6 = a := (appendHi _ _ (by decide)).trans ((appendLo _ _ (by decide)).trans BitVec.extractLsb'_eq_self)
  have e2 : (d ++ a ++ b).extractLsb' 0 6 = b := (appendLo _ _ (by decide)).trans BitVec.extractLsb'_eq_self
  exact congrArg some ((Instr.fmulF32.injEq ..).mpr ⟨rfl, e0, e1, e2⟩)

theorem Decoding.fmulF64 (hd : Hdr) (d : BitVec 6) (a : BitVec 6) (b : BitVec 6) : Decoding.Statement (.fmulF64 hd d a b) := by
  intro _ _
  have e0 : (d ++ a ++ b).extractLsb' 12 6 = d := (appendHi _ _ (by decide)).trans ((appendHi _ _ (by decide)).trans BitVec.extractLsb'_eq_self)
  have e1 : (d ++ a ++ b).extractLsb' 6 6 = a := (appendHi _ _ (by decide)).trans ((appendLo _ _ (by decide)).trans BitVec.extractLsb'_eq_self)
  have e2 : (d ++ a ++ b).extractLsb' 0 6 = b := (appendLo _ _ (by decide)).trans BitVec.extractLsb'_eq_self
  exact congrArg some ((Instr.fmulF64.injEq ..).mpr ⟨rfl, e0, e1, e2⟩)

theorem Decoding.ffmaF32 (hd : Hdr) (d : BitVec 6) (a : BitVec 6) (b : BitVec 6) : Decoding.Statement (.ffmaF32 hd d a b) := by
  intro _ _
  have e0 : (d ++ a ++ b).extractLsb' 12 6 = d := (appendHi _ _ (by decide)).trans ((appendHi _ _ (by decide)).trans BitVec.extractLsb'_eq_self)
  have e1 : (d ++ a ++ b).extractLsb' 6 6 = a := (appendHi _ _ (by decide)).trans ((appendLo _ _ (by decide)).trans BitVec.extractLsb'_eq_self)
  have e2 : (d ++ a ++ b).extractLsb' 0 6 = b := (appendLo _ _ (by decide)).trans BitVec.extractLsb'_eq_self
  exact congrArg some ((Instr.ffmaF32.injEq ..).mpr ⟨rfl, e0, e1, e2⟩)

theorem Decoding.ffmaF64 (hd : Hdr) (d : BitVec 6) (a : BitVec 6) (b : BitVec 6) : Decoding.Statement (.ffmaF64 hd d a b) := by
  intro _ _
  have e0 : (d ++ a ++ b).extractLsb' 12 6 = d := (appendHi _ _ (by decide)).trans ((appendHi _ _ (by decide)).trans BitVec.extractLsb'_eq_self)
  have e1 : (d ++ a ++ b).extractLsb' 6 6 = a := (appendHi _ _ (by decide)).trans ((appendLo _ _ (by decide)).trans BitVec.extractLsb'_eq_self)
  have e2 : (d ++ a ++ b).extractLsb' 0 6 = b := (appendLo _ _ (by decide)).trans BitVec.extractLsb'_eq_self
  exact congrArg some ((Instr.ffmaF64.injEq ..).mpr ⟨rfl, e0, e1, e2⟩)

theorem Decoding.fminF32 (hd : Hdr) (d : BitVec 6) (a : BitVec 6) (b : BitVec 6) : Decoding.Statement (.fminF32 hd d a b) := by
  intro _ _
  have e0 : (d ++ a ++ b).extractLsb' 12 6 = d := (appendHi _ _ (by decide)).trans ((appendHi _ _ (by decide)).trans BitVec.extractLsb'_eq_self)
  have e1 : (d ++ a ++ b).extractLsb' 6 6 = a := (appendHi _ _ (by decide)).trans ((appendLo _ _ (by decide)).trans BitVec.extractLsb'_eq_self)
  have e2 : (d ++ a ++ b).extractLsb' 0 6 = b := (appendLo _ _ (by decide)).trans BitVec.extractLsb'_eq_self
  exact congrArg some ((Instr.fminF32.injEq ..).mpr ⟨rfl, e0, e1, e2⟩)

theorem Decoding.fminF64 (hd : Hdr) (d : BitVec 6) (a : BitVec 6) (b : BitVec 6) : Decoding.Statement (.fminF64 hd d a b) := by
  intro _ _
  have e0 : (d ++ a ++ b).extractLsb' 12 6 = d := (appendHi _ _ (by decide)).trans ((appendHi _ _ (by decide)).trans BitVec.extractLsb'_eq_self)
  have e1 : (d ++ a ++ b).extractLsb' 6 6 = a := (appendHi _ _ (by decide)).trans ((appendLo _ _ (by decide)).trans BitVec.extractLsb'_eq_self)
  have e2 : (d ++ a ++ b).extractLsb' 0 6 = b := (appendLo _ _ (by decide)).trans BitVec.extractLsb'_eq_self
  exact congrArg some ((Instr.fminF64.injEq ..).mpr ⟨rfl, e0, e1, e2⟩)

theorem Decoding.fmaxF32 (hd : Hdr) (d : BitVec 6) (a : BitVec 6) (b : BitVec 6) : Decoding.Statement (.fmaxF32 hd d a b) := by
  intro _ _
  have e0 : (d ++ a ++ b).extractLsb' 12 6 = d := (appendHi _ _ (by decide)).trans ((appendHi _ _ (by decide)).trans BitVec.extractLsb'_eq_self)
  have e1 : (d ++ a ++ b).extractLsb' 6 6 = a := (appendHi _ _ (by decide)).trans ((appendLo _ _ (by decide)).trans BitVec.extractLsb'_eq_self)
  have e2 : (d ++ a ++ b).extractLsb' 0 6 = b := (appendLo _ _ (by decide)).trans BitVec.extractLsb'_eq_self
  exact congrArg some ((Instr.fmaxF32.injEq ..).mpr ⟨rfl, e0, e1, e2⟩)

theorem Decoding.fmaxF64 (hd : Hdr) (d : BitVec 6) (a : BitVec 6) (b : BitVec 6) : Decoding.Statement (.fmaxF64 hd d a b) := by
  intro _ _
  have e0 : (d ++ a ++ b).extractLsb' 12 6 = d := (appendHi _ _ (by decide)).trans ((appendHi _ _ (by decide)).trans BitVec.extractLsb'_eq_self)
  have e1 : (d ++ a ++ b).extractLsb' 6 6 = a := (appendHi _ _ (by decide)).trans ((appendLo _ _ (by decide)).trans BitVec.extractLsb'_eq_self)
  have e2 : (d ++ a ++ b).extractLsb' 0 6 = b := (appendLo _ _ (by decide)).trans BitVec.extractLsb'_eq_self
  exact congrArg some ((Instr.fmaxF64.injEq ..).mpr ⟨rfl, e0, e1, e2⟩)

theorem Decoding.fcmp (hd : Hdr) (p : BitVec 2) (c : BitVec 3) (f : BitVec 1) (a : BitVec 6) (b : BitVec 6) : Decoding.Statement (.fcmp hd p c f a b) := by
  intro _ _
  have e0 : (p ++ c ++ f ++ a ++ b).extractLsb' 16 2 = p := (appendHi _ _ (by decide)).trans ((appendHi _ _ (by decide)).trans ((appendHi _ _ (by decide)).trans ((appendHi _ _ (by decide)).trans BitVec.extractLsb'_eq_self)))
  have e1 : (p ++ c ++ f ++ a ++ b).extractLsb' 13 3 = c := (appendHi _ _ (by decide)).trans ((appendHi _ _ (by decide)).trans ((appendHi _ _ (by decide)).trans ((appendLo _ _ (by decide)).trans BitVec.extractLsb'_eq_self)))
  have e2 : (p ++ c ++ f ++ a ++ b).extractLsb' 12 1 = f := (appendHi _ _ (by decide)).trans ((appendHi _ _ (by decide)).trans ((appendLo _ _ (by decide)).trans BitVec.extractLsb'_eq_self))
  have e3 : (p ++ c ++ f ++ a ++ b).extractLsb' 6 6 = a := (appendHi _ _ (by decide)).trans ((appendLo _ _ (by decide)).trans BitVec.extractLsb'_eq_self)
  have e4 : (p ++ c ++ f ++ a ++ b).extractLsb' 0 6 = b := (appendLo _ _ (by decide)).trans BitVec.extractLsb'_eq_self
  exact congrArg some ((Instr.fcmp.injEq ..).mpr ⟨rfl, e0, e1, e2, e3, e4⟩)

theorem Decoding.fcvt (hd : Hdr) (d : BitVec 6) (a : BitVec 6) : Decoding.Statement (.fcvt hd d a) := by
  intro _ _
  have e0 : (d ++ a ++ 0#6).extractLsb' 12 6 = d := (appendHi _ _ (by decide)).trans ((appendHi _ _ (by decide)).trans BitVec.extractLsb'_eq_self)
  have e1 : (d ++ a ++ 0#6).extractLsb' 6 6 = a := (appendHi _ _ (by decide)).trans ((appendLo _ _ (by decide)).trans BitVec.extractLsb'_eq_self)
  have c0 : (d ++ a ++ 0#6) &&& 0x0003F#18 = 0x00000#18 := andAppend (andAppend (BitVec.and_zero : d &&& 0#6 = 0#6) (BitVec.and_zero : a &&& 0#6 = 0#6)) (by decide : (0#6) &&& 63#6 = 0#6)
  refine (if_pos c0).trans ?_
  exact congrArg some ((Instr.fcvt.injEq ..).mpr ⟨rfl, e0, e1⟩)

theorem Decoding.fcls (hd : Hdr) (d : BitVec 6) (a : BitVec 6) (f : BitVec 1) : Decoding.Statement (.fcls hd d a f) := by
  intro _ _
  have e0 : (d ++ a ++ 0#5 ++ f).extractLsb' 12 6 = d := (appendHi _ _ (by decide)).trans ((appendHi _ _ (by decide)).trans ((appendHi _ _ (by decide)).trans BitVec.extractLsb'_eq_self))
  have e1 : (d ++ a ++ 0#5 ++ f).extractLsb' 6 6 = a := (appendHi _ _ (by decide)).trans ((appendHi _ _ (by decide)).trans ((appendLo _ _ (by decide)).trans BitVec.extractLsb'_eq_self))
  have e2 : (d ++ a ++ 0#5 ++ f).extractLsb' 0 1 = f := (appendLo _ _ (by decide)).trans BitVec.extractLsb'_eq_self
  have c0 : (d ++ a ++ 0#5 ++ f) &&& 0x0003E#18 = 0x00000#18 := andAppend (andAppend (andAppend (BitVec.and_zero : d &&& 0#6 = 0#6) (BitVec.and_zero : a &&& 0#6 = 0#6)) (by decide : (0#5) &&& 31#5 = 0#5)) (BitVec.and_zero : f &&& 0#1 = 0#1)
  refine (if_pos c0).trans ?_
  exact congrArg some ((Instr.fcls.injEq ..).mpr ⟨rfl, e0, e1, e2⟩)

theorem Decoding.ld (hd : Hdr) (d : BitVec 6) (a : BitVec 6) (s : BitVec 3) : Decoding.Statement (.ld hd d a s) := by
  intro _ _
  have e0 : (d ++ a ++ s ++ 0#3).extractLsb' 12 6 = d := (appendHi _ _ (by decide)).trans ((appendHi _ _ (by decide)).trans ((appendHi _ _ (by decide)).trans BitVec.extractLsb'_eq_self))
  have e1 : (d ++ a ++ s ++ 0#3).extractLsb' 6 6 = a := (appendHi _ _ (by decide)).trans ((appendHi _ _ (by decide)).trans ((appendLo _ _ (by decide)).trans BitVec.extractLsb'_eq_self))
  have e2 : (d ++ a ++ s ++ 0#3).extractLsb' 3 3 = s := (appendHi _ _ (by decide)).trans ((appendLo _ _ (by decide)).trans BitVec.extractLsb'_eq_self)
  have c0 : (d ++ a ++ s ++ 0#3) &&& 0x00007#18 = 0x00000#18 := andAppend (andAppend (andAppend (BitVec.and_zero : d &&& 0#6 = 0#6) (BitVec.and_zero : a &&& 0#6 = 0#6)) (BitVec.and_zero : s &&& 0#3 = 0#3)) (by decide : (0#3) &&& 7#3 = 0#3)
  refine (if_pos c0).trans ?_
  exact congrArg some ((Instr.ld.injEq ..).mpr ⟨rfl, e0, e1, e2⟩)

theorem Decoding.st (hd : Hdr) (d : BitVec 6) (a : BitVec 6) (s : BitVec 2) : Decoding.Statement (.st hd d a s) := by
  intro _ _
  have e0 : (d ++ a ++ s ++ 0#4).extractLsb' 12 6 = d := (appendHi _ _ (by decide)).trans ((appendHi _ _ (by decide)).trans ((appendHi _ _ (by decide)).trans BitVec.extractLsb'_eq_self))
  have e1 : (d ++ a ++ s ++ 0#4).extractLsb' 6 6 = a := (appendHi _ _ (by decide)).trans ((appendHi _ _ (by decide)).trans ((appendLo _ _ (by decide)).trans BitVec.extractLsb'_eq_self))
  have e2 : (d ++ a ++ s ++ 0#4).extractLsb' 4 2 = s := (appendHi _ _ (by decide)).trans ((appendLo _ _ (by decide)).trans BitVec.extractLsb'_eq_self)
  have c0 : (d ++ a ++ s ++ 0#4) &&& 0x0000F#18 = 0x00000#18 := andAppend (andAppend (andAppend (BitVec.and_zero : d &&& 0#6 = 0#6) (BitVec.and_zero : a &&& 0#6 = 0#6)) (BitVec.and_zero : s &&& 0#2 = 0#2)) (by decide : (0#4) &&& 15#4 = 0#4)
  refine (if_pos c0).trans ?_
  exact congrArg some ((Instr.st.injEq ..).mpr ⟨rfl, e0, e1, e2⟩)

theorem Decoding.vld (hd : Hdr) (d : BitVec 6) (a : BitVec 6) : Decoding.Statement (.vld hd d a) := by
  intro _ _
  have e0 : (d ++ a ++ 0#6).extractLsb' 12 6 = d := (appendHi _ _ (by decide)).trans ((appendHi _ _ (by decide)).trans BitVec.extractLsb'_eq_self)
  have e1 : (d ++ a ++ 0#6).extractLsb' 6 6 = a := (appendHi _ _ (by decide)).trans ((appendLo _ _ (by decide)).trans BitVec.extractLsb'_eq_self)
  have c0 : (d ++ a ++ 0#6) &&& 0x0003F#18 = 0x00000#18 := andAppend (andAppend (BitVec.and_zero : d &&& 0#6 = 0#6) (BitVec.and_zero : a &&& 0#6 = 0#6)) (by decide : (0#6) &&& 63#6 = 0#6)
  refine (if_pos c0).trans ?_
  exact congrArg some ((Instr.vld.injEq ..).mpr ⟨rfl, e0, e1⟩)

theorem Decoding.vst (hd : Hdr) (d : BitVec 6) (a : BitVec 6) : Decoding.Statement (.vst hd d a) := by
  intro _ _
  have e0 : (d ++ a ++ 0#6).extractLsb' 12 6 = d := (appendHi _ _ (by decide)).trans ((appendHi _ _ (by decide)).trans BitVec.extractLsb'_eq_self)
  have e1 : (d ++ a ++ 0#6).extractLsb' 6 6 = a := (appendHi _ _ (by decide)).trans ((appendLo _ _ (by decide)).trans BitVec.extractLsb'_eq_self)
  have c0 : (d ++ a ++ 0#6) &&& 0x0003F#18 = 0x00000#18 := andAppend (andAppend (BitVec.and_zero : d &&& 0#6 = 0#6) (BitVec.and_zero : a &&& 0#6 = 0#6)) (by decide : (0#6) &&& 63#6 = 0#6)
  refine (if_pos c0).trans ?_
  exact congrArg some ((Instr.vst.injEq ..).mpr ⟨rfl, e0, e1⟩)

theorem Decoding.vlds (hd : Hdr) (d : BitVec 6) (a : BitVec 6) (b : BitVec 6) : Decoding.Statement (.vlds hd d a b) := by
  intro _ _
  have e0 : (d ++ a ++ b).extractLsb' 12 6 = d := (appendHi _ _ (by decide)).trans ((appendHi _ _ (by decide)).trans BitVec.extractLsb'_eq_self)
  have e1 : (d ++ a ++ b).extractLsb' 6 6 = a := (appendHi _ _ (by decide)).trans ((appendLo _ _ (by decide)).trans BitVec.extractLsb'_eq_self)
  have e2 : (d ++ a ++ b).extractLsb' 0 6 = b := (appendLo _ _ (by decide)).trans BitVec.extractLsb'_eq_self
  exact congrArg some ((Instr.vlds.injEq ..).mpr ⟨rfl, e0, e1, e2⟩)

theorem Decoding.vsts (hd : Hdr) (d : BitVec 6) (a : BitVec 6) (b : BitVec 6) : Decoding.Statement (.vsts hd d a b) := by
  intro _ _
  have e0 : (d ++ a ++ b).extractLsb' 12 6 = d := (appendHi _ _ (by decide)).trans ((appendHi _ _ (by decide)).trans BitVec.extractLsb'_eq_self)
  have e1 : (d ++ a ++ b).extractLsb' 6 6 = a := (appendHi _ _ (by decide)).trans ((appendLo _ _ (by decide)).trans BitVec.extractLsb'_eq_self)
  have e2 : (d ++ a ++ b).extractLsb' 0 6 = b := (appendLo _ _ (by decide)).trans BitVec.extractLsb'_eq_self
  exact congrArg some ((Instr.vsts.injEq ..).mpr ⟨rfl, e0, e1, e2⟩)

theorem Decoding.vgth (hd : Hdr) (d : BitVec 6) (a : BitVec 6) (b : BitVec 6) : Decoding.Statement (.vgth hd d a b) := by
  intro _ _
  have e0 : (d ++ a ++ b).extractLsb' 12 6 = d := (appendHi _ _ (by decide)).trans ((appendHi _ _ (by decide)).trans BitVec.extractLsb'_eq_self)
  have e1 : (d ++ a ++ b).extractLsb' 6 6 = a := (appendHi _ _ (by decide)).trans ((appendLo _ _ (by decide)).trans BitVec.extractLsb'_eq_self)
  have e2 : (d ++ a ++ b).extractLsb' 0 6 = b := (appendLo _ _ (by decide)).trans BitVec.extractLsb'_eq_self
  exact congrArg some ((Instr.vgth.injEq ..).mpr ⟨rfl, e0, e1, e2⟩)

theorem Decoding.vsct (hd : Hdr) (d : BitVec 6) (a : BitVec 6) (b : BitVec 6) : Decoding.Statement (.vsct hd d a b) := by
  intro _ _
  have e0 : (d ++ a ++ b).extractLsb' 12 6 = d := (appendHi _ _ (by decide)).trans ((appendHi _ _ (by decide)).trans BitVec.extractLsb'_eq_self)
  have e1 : (d ++ a ++ b).extractLsb' 6 6 = a := (appendHi _ _ (by decide)).trans ((appendLo _ _ (by decide)).trans BitVec.extractLsb'_eq_self)
  have e2 : (d ++ a ++ b).extractLsb' 0 6 = b := (appendLo _ _ (by decide)).trans BitVec.extractLsb'_eq_self
  exact congrArg some ((Instr.vsct.injEq ..).mpr ⟨rfl, e0, e1, e2⟩)

theorem Decoding.fmt (hd : Hdr) (k : BitVec 6) (a : BitVec 6) (b : BitVec 6) : Decoding.Statement (.fmt hd k a b) := by
  intro _ _
  have e0 : (k ++ a ++ b).extractLsb' 12 6 = k := (appendHi _ _ (by decide)).trans ((appendHi _ _ (by decide)).trans BitVec.extractLsb'_eq_self)
  have e1 : (k ++ a ++ b).extractLsb' 6 6 = a := (appendHi _ _ (by decide)).trans ((appendLo _ _ (by decide)).trans BitVec.extractLsb'_eq_self)
  have e2 : (k ++ a ++ b).extractLsb' 0 6 = b := (appendLo _ _ (by decide)).trans BitVec.extractLsb'_eq_self
  exact congrArg some ((Instr.fmt.injEq ..).mpr ⟨rfl, e0, e1, e2⟩)

theorem Decoding.vjoin (hd : Hdr) (w : BitVec 4) : Decoding.Statement (.vjoin hd w) := by
  intro _ _
  have e0 : (0#8 ++ w ++ 0#6).extractLsb' 6 4 = w := (appendHi _ _ (by decide)).trans ((appendLo _ _ (by decide)).trans BitVec.extractLsb'_eq_self)
  have c0 : (0#8 ++ w ++ 0#6) &&& 0x3FC3F#18 = 0x00000#18 := andAppend (andAppend (by decide : (0#8) &&& 255#8 = 0#8) (BitVec.and_zero : w &&& 0#4 = 0#4)) (by decide : (0#6) &&& 63#6 = 0#6)
  refine (if_pos c0).trans ?_
  exact congrArg some ((Instr.vjoin.injEq ..).mpr ⟨rfl, e0⟩)

theorem Decoding.vjoinClr (hd : Hdr) : Decoding.Statement (.vjoinClr hd) := by
  intro _ _
  have c0 : ¬ (1#18) &&& 0x3FC3F#18 = 0x00000#18 := fun h =>
    absurd ((((by decide : (1#18) &&& 261183#18 = 1#18) : (1#18) &&& 0x3FC3F#18 = 1#18)).symm.trans h) (by decide)
  have c1 : (1#18) &&& 0x3FFFF#18 = 0x00001#18 := (by decide : (1#18) &&& 262143#18 = 1#18)
  refine (if_neg c0).trans ((if_pos c1).trans ?_)
  exact rfl

theorem Decoding.cflush (hd : Hdr) (n : BitVec 6) (a : BitVec 6) (v : BitVec 1) : Decoding.Statement (.cflush hd n a v) := by
  intro _ _
  have e0 : (n ++ a ++ 0#5 ++ v).extractLsb' 12 6 = n := (appendHi _ _ (by decide)).trans ((appendHi _ _ (by decide)).trans ((appendHi _ _ (by decide)).trans BitVec.extractLsb'_eq_self))
  have e1 : (n ++ a ++ 0#5 ++ v).extractLsb' 6 6 = a := (appendHi _ _ (by decide)).trans ((appendHi _ _ (by decide)).trans ((appendLo _ _ (by decide)).trans BitVec.extractLsb'_eq_self))
  have e2 : (n ++ a ++ 0#5 ++ v).extractLsb' 0 1 = v := (appendLo _ _ (by decide)).trans BitVec.extractLsb'_eq_self
  have c0 : (n ++ a ++ 0#5 ++ v) &&& 0x0003E#18 = 0x00000#18 := andAppend (andAppend (andAppend (BitVec.and_zero : n &&& 0#6 = 0#6) (BitVec.and_zero : a &&& 0#6 = 0#6)) (by decide : (0#5) &&& 31#5 = 0#5)) (BitVec.and_zero : v &&& 0#1 = 0#1)
  refine (if_pos c0).trans ?_
  exact congrArg some ((Instr.cflush.injEq ..).mpr ⟨rfl, e0, e1, e2⟩)

theorem Decoding.pref (hd : Hdr) (n : BitVec 6) (a : BitVec 6) (v : BitVec 2) : Decoding.Statement (.pref hd n a v) := by
  intro _ _
  have e0 : (n ++ a ++ 0#4 ++ v).extractLsb' 12 6 = n := (appendHi _ _ (by decide)).trans ((appendHi _ _ (by decide)).trans ((appendHi _ _ (by decide)).trans BitVec.extractLsb'_eq_self))
  have e1 : (n ++ a ++ 0#4 ++ v).extractLsb' 6 6 = a := (appendHi _ _ (by decide)).trans ((appendHi _ _ (by decide)).trans ((appendLo _ _ (by decide)).trans BitVec.extractLsb'_eq_self))
  have e2 : (n ++ a ++ 0#4 ++ v).extractLsb' 0 2 = v := (appendLo _ _ (by decide)).trans BitVec.extractLsb'_eq_self
  have c0 : (n ++ a ++ 0#4 ++ v) &&& 0x0003C#18 = 0x00000#18 := andAppend (andAppend (andAppend (BitVec.and_zero : n &&& 0#6 = 0#6) (BitVec.and_zero : a &&& 0#6 = 0#6)) (by decide : (0#4) &&& 15#4 = 0#4)) (BitVec.and_zero : v &&& 0#2 = 0#2)
  refine (if_pos c0).trans ?_
  exact congrArg some ((Instr.pref.injEq ..).mpr ⟨rfl, e0, e1, e2⟩)

theorem Decoding.sbind (hd : Hdr) (q : BitVec 3) (a : BitVec 6) (w : BitVec 4) : Decoding.Statement (.sbind hd q a w) := by
  intro _ _
  have e0 : (q ++ 0#3 ++ a ++ w ++ 0#2).extractLsb' 15 3 = q := (appendHi _ _ (by decide)).trans ((appendHi _ _ (by decide)).trans ((appendHi _ _ (by decide)).trans ((appendHi _ _ (by decide)).trans BitVec.extractLsb'_eq_self)))
  have e1 : (q ++ 0#3 ++ a ++ w ++ 0#2).extractLsb' 6 6 = a := (appendHi _ _ (by decide)).trans ((appendHi _ _ (by decide)).trans ((appendLo _ _ (by decide)).trans BitVec.extractLsb'_eq_self))
  have e2 : (q ++ 0#3 ++ a ++ w ++ 0#2).extractLsb' 2 4 = w := (appendHi _ _ (by decide)).trans ((appendLo _ _ (by decide)).trans BitVec.extractLsb'_eq_self)
  have c0 : (q ++ 0#3 ++ a ++ w ++ 0#2) &&& 0x07003#18 = 0x00000#18 := andAppend (andAppend (andAppend (andAppend (BitVec.and_zero : q &&& 0#3 = 0#3) (by decide : (0#3) &&& 7#3 = 0#3)) (BitVec.and_zero : a &&& 0#6 = 0#6)) (BitVec.and_zero : w &&& 0#4 = 0#4)) (by decide : (0#2) &&& 3#2 = 0#2)
  refine (if_pos c0).trans ?_
  exact congrArg some ((Instr.sbind.injEq ..).mpr ⟨rfl, e0, e1, e2⟩)

theorem Decoding.sbindU (hd : Hdr) (q : BitVec 3) : Decoding.Statement (.sbindU hd q) := by
  intro _ _
  have e0 : (q ++ 16384#15).extractLsb' 15 3 = q := (appendHi _ _ (by decide)).trans BitVec.extractLsb'_eq_self
  have c0 : ¬ (q ++ 16384#15) &&& 0x07003#18 = 0x00000#18 := fun h =>
    absurd (((andAppend (BitVec.and_zero : q &&& 0#3 = 0#3) (by decide : (16384#15) &&& 28675#15 = 16384#15) : (q ++ 16384#15) &&& 0x07003#18 = 16384#18)).symm.trans h) (by decide)
  have c1 : (q ++ 16384#15) &&& 0x07FFF#18 = 0x04000#18 := andAppend (BitVec.and_zero : q &&& 0#3 = 0#3) (by decide : (16384#15) &&& 32767#15 = 16384#15)
  refine (if_neg c0).trans ((if_pos c1).trans ?_)
  exact congrArg some ((Instr.sbindU.injEq ..).mpr ⟨rfl, e0⟩)

theorem Decoding.tksv (hd : Hdr) (t : BitVec 5) (a : BitVec 6) : Decoding.Statement (.tksv hd t a) := by
  intro _ _
  have e0 : (t ++ 0#1 ++ a ++ 0#6).extractLsb' 13 5 = t := (appendHi _ _ (by decide)).trans ((appendHi _ _ (by decide)).trans ((appendHi _ _ (by decide)).trans BitVec.extractLsb'_eq_self))
  have e1 : (t ++ 0#1 ++ a ++ 0#6).extractLsb' 6 6 = a := (appendHi _ _ (by decide)).trans ((appendLo _ _ (by decide)).trans BitVec.extractLsb'_eq_self)
  have c0 : (t ++ 0#1 ++ a ++ 0#6) &&& 0x0103F#18 = 0x00000#18 := andAppend (andAppend (andAppend (BitVec.and_zero : t &&& 0#5 = 0#5) (by decide : (0#1) &&& 1#1 = 0#1)) (BitVec.and_zero : a &&& 0#6 = 0#6)) (by decide : (0#6) &&& 63#6 = 0#6)
  refine (if_pos c0).trans ?_
  exact congrArg some ((Instr.tksv.injEq ..).mpr ⟨rfl, e0, e1⟩)

theorem Decoding.tkld (hd : Hdr) (t : BitVec 5) (a : BitVec 6) : Decoding.Statement (.tkld hd t a) := by
  intro _ _
  have e0 : (t ++ 0#1 ++ a ++ 0#6).extractLsb' 13 5 = t := (appendHi _ _ (by decide)).trans ((appendHi _ _ (by decide)).trans ((appendHi _ _ (by decide)).trans BitVec.extractLsb'_eq_self))
  have e1 : (t ++ 0#1 ++ a ++ 0#6).extractLsb' 6 6 = a := (appendHi _ _ (by decide)).trans ((appendLo _ _ (by decide)).trans BitVec.extractLsb'_eq_self)
  have c0 : (t ++ 0#1 ++ a ++ 0#6) &&& 0x0103F#18 = 0x00000#18 := andAppend (andAppend (andAppend (BitVec.and_zero : t &&& 0#5 = 0#5) (by decide : (0#1) &&& 1#1 = 0#1)) (BitVec.and_zero : a &&& 0#6 = 0#6)) (by decide : (0#6) &&& 63#6 = 0#6)
  refine (if_pos c0).trans ?_
  exact congrArg some ((Instr.tkld.injEq ..).mpr ⟨rfl, e0, e1⟩)

theorem Decoding.aadd (hd : Hdr) (d : BitVec 6) (a : BitVec 6) (b : BitVec 6) : Decoding.Statement (.aadd hd d a b) := by
  intro _ _
  have e0 : (d ++ a ++ b).extractLsb' 12 6 = d := (appendHi _ _ (by decide)).trans ((appendHi _ _ (by decide)).trans BitVec.extractLsb'_eq_self)
  have e1 : (d ++ a ++ b).extractLsb' 6 6 = a := (appendHi _ _ (by decide)).trans ((appendLo _ _ (by decide)).trans BitVec.extractLsb'_eq_self)
  have e2 : (d ++ a ++ b).extractLsb' 0 6 = b := (appendLo _ _ (by decide)).trans BitVec.extractLsb'_eq_self
  exact congrArg some ((Instr.aadd.injEq ..).mpr ⟨rfl, e0, e1, e2⟩)

theorem Decoding.aand (hd : Hdr) (d : BitVec 6) (a : BitVec 6) (b : BitVec 6) : Decoding.Statement (.aand hd d a b) := by
  intro _ _
  have e0 : (d ++ a ++ b).extractLsb' 12 6 = d := (appendHi _ _ (by decide)).trans ((appendHi _ _ (by decide)).trans BitVec.extractLsb'_eq_self)
  have e1 : (d ++ a ++ b).extractLsb' 6 6 = a := (appendHi _ _ (by decide)).trans ((appendLo _ _ (by decide)).trans BitVec.extractLsb'_eq_self)
  have e2 : (d ++ a ++ b).extractLsb' 0 6 = b := (appendLo _ _ (by decide)).trans BitVec.extractLsb'_eq_self
  exact congrArg some ((Instr.aand.injEq ..).mpr ⟨rfl, e0, e1, e2⟩)

theorem Decoding.aor (hd : Hdr) (d : BitVec 6) (a : BitVec 6) (b : BitVec 6) : Decoding.Statement (.aor hd d a b) := by
  intro _ _
  have e0 : (d ++ a ++ b).extractLsb' 12 6 = d := (appendHi _ _ (by decide)).trans ((appendHi _ _ (by decide)).trans BitVec.extractLsb'_eq_self)
  have e1 : (d ++ a ++ b).extractLsb' 6 6 = a := (appendHi _ _ (by decide)).trans ((appendLo _ _ (by decide)).trans BitVec.extractLsb'_eq_self)
  have e2 : (d ++ a ++ b).extractLsb' 0 6 = b := (appendLo _ _ (by decide)).trans BitVec.extractLsb'_eq_self
  exact congrArg some ((Instr.aor.injEq ..).mpr ⟨rfl, e0, e1, e2⟩)

theorem Decoding.axor (hd : Hdr) (d : BitVec 6) (a : BitVec 6) (b : BitVec 6) : Decoding.Statement (.axor hd d a b) := by
  intro _ _
  have e0 : (d ++ a ++ b).extractLsb' 12 6 = d := (appendHi _ _ (by decide)).trans ((appendHi _ _ (by decide)).trans BitVec.extractLsb'_eq_self)
  have e1 : (d ++ a ++ b).extractLsb' 6 6 = a := (appendHi _ _ (by decide)).trans ((appendLo _ _ (by decide)).trans BitVec.extractLsb'_eq_self)
  have e2 : (d ++ a ++ b).extractLsb' 0 6 = b := (appendLo _ _ (by decide)).trans BitVec.extractLsb'_eq_self
  exact congrArg some ((Instr.axor.injEq ..).mpr ⟨rfl, e0, e1, e2⟩)

theorem Decoding.amin (hd : Hdr) (d : BitVec 6) (a : BitVec 6) (b : BitVec 6) : Decoding.Statement (.amin hd d a b) := by
  intro _ _
  have e0 : (d ++ a ++ b).extractLsb' 12 6 = d := (appendHi _ _ (by decide)).trans ((appendHi _ _ (by decide)).trans BitVec.extractLsb'_eq_self)
  have e1 : (d ++ a ++ b).extractLsb' 6 6 = a := (appendHi _ _ (by decide)).trans ((appendLo _ _ (by decide)).trans BitVec.extractLsb'_eq_self)
  have e2 : (d ++ a ++ b).extractLsb' 0 6 = b := (appendLo _ _ (by decide)).trans BitVec.extractLsb'_eq_self
  exact congrArg some ((Instr.amin.injEq ..).mpr ⟨rfl, e0, e1, e2⟩)

theorem Decoding.amax (hd : Hdr) (d : BitVec 6) (a : BitVec 6) (b : BitVec 6) : Decoding.Statement (.amax hd d a b) := by
  intro _ _
  have e0 : (d ++ a ++ b).extractLsb' 12 6 = d := (appendHi _ _ (by decide)).trans ((appendHi _ _ (by decide)).trans BitVec.extractLsb'_eq_self)
  have e1 : (d ++ a ++ b).extractLsb' 6 6 = a := (appendHi _ _ (by decide)).trans ((appendLo _ _ (by decide)).trans BitVec.extractLsb'_eq_self)
  have e2 : (d ++ a ++ b).extractLsb' 0 6 = b := (appendLo _ _ (by decide)).trans BitVec.extractLsb'_eq_self
  exact congrArg some ((Instr.amax.injEq ..).mpr ⟨rfl, e0, e1, e2⟩)

theorem Decoding.aminu (hd : Hdr) (d : BitVec 6) (a : BitVec 6) (b : BitVec 6) : Decoding.Statement (.aminu hd d a b) := by
  intro _ _
  have e0 : (d ++ a ++ b).extractLsb' 12 6 = d := (appendHi _ _ (by decide)).trans ((appendHi _ _ (by decide)).trans BitVec.extractLsb'_eq_self)
  have e1 : (d ++ a ++ b).extractLsb' 6 6 = a := (appendHi _ _ (by decide)).trans ((appendLo _ _ (by decide)).trans BitVec.extractLsb'_eq_self)
  have e2 : (d ++ a ++ b).extractLsb' 0 6 = b := (appendLo _ _ (by decide)).trans BitVec.extractLsb'_eq_self
  exact congrArg some ((Instr.aminu.injEq ..).mpr ⟨rfl, e0, e1, e2⟩)

theorem Decoding.amaxu (hd : Hdr) (d : BitVec 6) (a : BitVec 6) (b : BitVec 6) : Decoding.Statement (.amaxu hd d a b) := by
  intro _ _
  have e0 : (d ++ a ++ b).extractLsb' 12 6 = d := (appendHi _ _ (by decide)).trans ((appendHi _ _ (by decide)).trans BitVec.extractLsb'_eq_self)
  have e1 : (d ++ a ++ b).extractLsb' 6 6 = a := (appendHi _ _ (by decide)).trans ((appendLo _ _ (by decide)).trans BitVec.extractLsb'_eq_self)
  have e2 : (d ++ a ++ b).extractLsb' 0 6 = b := (appendLo _ _ (by decide)).trans BitVec.extractLsb'_eq_self
  exact congrArg some ((Instr.amaxu.injEq ..).mpr ⟨rfl, e0, e1, e2⟩)

theorem Decoding.aswp (hd : Hdr) (d : BitVec 6) (a : BitVec 6) (b : BitVec 6) : Decoding.Statement (.aswp hd d a b) := by
  intro _ _
  have e0 : (d ++ a ++ b).extractLsb' 12 6 = d := (appendHi _ _ (by decide)).trans ((appendHi _ _ (by decide)).trans BitVec.extractLsb'_eq_self)
  have e1 : (d ++ a ++ b).extractLsb' 6 6 = a := (appendHi _ _ (by decide)).trans ((appendLo _ _ (by decide)).trans BitVec.extractLsb'_eq_self)
  have e2 : (d ++ a ++ b).extractLsb' 0 6 = b := (appendLo _ _ (by decide)).trans BitVec.extractLsb'_eq_self
  exact congrArg some ((Instr.aswp.injEq ..).mpr ⟨rfl, e0, e1, e2⟩)

theorem Decoding.acas (hd : Hdr) (d : BitVec 6) (a : BitVec 6) (b : BitVec 6) : Decoding.Statement (.acas hd d a b) := by
  intro _ _
  have e0 : (d ++ a ++ b).extractLsb' 12 6 = d := (appendHi _ _ (by decide)).trans ((appendHi _ _ (by decide)).trans BitVec.extractLsb'_eq_self)
  have e1 : (d ++ a ++ b).extractLsb' 6 6 = a := (appendHi _ _ (by decide)).trans ((appendLo _ _ (by decide)).trans BitVec.extractLsb'_eq_self)
  have e2 : (d ++ a ++ b).extractLsb' 0 6 = b := (appendLo _ _ (by decide)).trans BitVec.extractLsb'_eq_self
  exact congrArg some ((Instr.acas.injEq ..).mpr ⟨rfl, e0, e1, e2⟩)

theorem Decoding.aaddf (hd : Hdr) (d : BitVec 6) (a : BitVec 6) (b : BitVec 6) : Decoding.Statement (.aaddf hd d a b) := by
  intro _ _
  have e0 : (d ++ a ++ b).extractLsb' 12 6 = d := (appendHi _ _ (by decide)).trans ((appendHi _ _ (by decide)).trans BitVec.extractLsb'_eq_self)
  have e1 : (d ++ a ++ b).extractLsb' 6 6 = a := (appendHi _ _ (by decide)).trans ((appendLo _ _ (by decide)).trans BitVec.extractLsb'_eq_self)
  have e2 : (d ++ a ++ b).extractLsb' 0 6 = b := (appendLo _ _ (by decide)).trans BitVec.extractLsb'_eq_self
  exact congrArg some ((Instr.aaddf.injEq ..).mpr ⟨rfl, e0, e1, e2⟩)

theorem Decoding.amaxf (hd : Hdr) (d : BitVec 6) (a : BitVec 6) (b : BitVec 6) : Decoding.Statement (.amaxf hd d a b) := by
  intro _ _
  have e0 : (d ++ a ++ b).extractLsb' 12 6 = d := (appendHi _ _ (by decide)).trans ((appendHi _ _ (by decide)).trans BitVec.extractLsb'_eq_self)
  have e1 : (d ++ a ++ b).extractLsb' 6 6 = a := (appendHi _ _ (by decide)).trans ((appendLo _ _ (by decide)).trans BitVec.extractLsb'_eq_self)
  have e2 : (d ++ a ++ b).extractLsb' 0 6 = b := (appendLo _ _ (by decide)).trans BitVec.extractLsb'_eq_self
  exact congrArg some ((Instr.amaxf.injEq ..).mpr ⟨rfl, e0, e1, e2⟩)

theorem Decoding.aminf (hd : Hdr) (d : BitVec 6) (a : BitVec 6) (b : BitVec 6) : Decoding.Statement (.aminf hd d a b) := by
  intro _ _
  have e0 : (d ++ a ++ b).extractLsb' 12 6 = d := (appendHi _ _ (by decide)).trans ((appendHi _ _ (by decide)).trans BitVec.extractLsb'_eq_self)
  have e1 : (d ++ a ++ b).extractLsb' 6 6 = a := (appendHi _ _ (by decide)).trans ((appendLo _ _ (by decide)).trans BitVec.extractLsb'_eq_self)
  have e2 : (d ++ a ++ b).extractLsb' 0 6 = b := (appendLo _ _ (by decide)).trans BitVec.extractLsb'_eq_self
  exact congrArg some ((Instr.aminf.injEq ..).mpr ⟨rfl, e0, e1, e2⟩)

theorem Decoding.wchk (hd : Hdr) (d : BitVec 6) (a : BitVec 6) : Decoding.Statement (.wchk hd d a) := by
  intro _ _
  have e0 : (d ++ a ++ 0#6).extractLsb' 12 6 = d := (appendHi _ _ (by decide)).trans ((appendHi _ _ (by decide)).trans BitVec.extractLsb'_eq_self)
  have e1 : (d ++ a ++ 0#6).extractLsb' 6 6 = a := (appendHi _ _ (by decide)).trans ((appendLo _ _ (by decide)).trans BitVec.extractLsb'_eq_self)
  have c0 : (d ++ a ++ 0#6) &&& 0x0003F#18 = 0x00000#18 := andAppend (andAppend (BitVec.and_zero : d &&& 0#6 = 0#6) (BitVec.and_zero : a &&& 0#6 = 0#6)) (by decide : (0#6) &&& 63#6 = 0#6)
  refine (if_pos c0).trans ?_
  exact congrArg some ((Instr.wchk.injEq ..).mpr ⟨rfl, e0, e1⟩)

theorem Decoding.wwait (hd : Hdr) (a : BitVec 6) : Decoding.Statement (.wwait hd a) := by
  intro _ _
  have e0 : (0#6 ++ a ++ 0#6).extractLsb' 6 6 = a := (appendHi _ _ (by decide)).trans ((appendLo _ _ (by decide)).trans BitVec.extractLsb'_eq_self)
  have c0 : (0#6 ++ a ++ 0#6) &&& 0x3F03F#18 = 0x00000#18 := andAppend (andAppend (by decide : (0#6) &&& 63#6 = 0#6) (BitVec.and_zero : a &&& 0#6 = 0#6)) (by decide : (0#6) &&& 63#6 = 0#6)
  refine (if_pos c0).trans ?_
  exact congrArg some ((Instr.wwait.injEq ..).mpr ⟨rfl, e0⟩)

theorem Decoding.wwaitS (hd : Hdr) (a : BitVec 6) : Decoding.Statement (.wwaitS hd a) := by
  intro _ _
  have e0 : (0#6 ++ a ++ 1#6).extractLsb' 6 6 = a := (appendHi _ _ (by decide)).trans ((appendLo _ _ (by decide)).trans BitVec.extractLsb'_eq_self)
  have c0 : ¬ (0#6 ++ a ++ 1#6) &&& 0x3F03F#18 = 0x00000#18 := fun h =>
    absurd (((andAppend (andAppend (by decide : (0#6) &&& 63#6 = 0#6) (BitVec.and_zero : a &&& 0#6 = 0#6)) (by decide : (1#6) &&& 63#6 = 1#6) : (0#6 ++ a ++ 1#6) &&& 0x3F03F#18 = 1#18)).symm.trans h) (by decide)
  have c1 : (0#6 ++ a ++ 1#6) &&& 0x3F03F#18 = 0x00001#18 := andAppend (andAppend (by decide : (0#6) &&& 63#6 = 0#6) (BitVec.and_zero : a &&& 0#6 = 0#6)) (by decide : (1#6) &&& 63#6 = 1#6)
  refine (if_neg c0).trans ((if_pos c1).trans ?_)
  exact congrArg some ((Instr.wwaitS.injEq ..).mpr ⟨rfl, e0⟩)

theorem Decoding.vaddI32 (hd : Hdr) (d : BitVec 6) (a : BitVec 6) (b : BitVec 6) : Decoding.Statement (.vaddI32 hd d a b) := by
  intro _ _
  have e0 : (d ++ a ++ b).extractLsb' 12 6 = d := (appendHi _ _ (by decide)).trans ((appendHi _ _ (by decide)).trans BitVec.extractLsb'_eq_self)
  have e1 : (d ++ a ++ b).extractLsb' 6 6 = a := (appendHi _ _ (by decide)).trans ((appendLo _ _ (by decide)).trans BitVec.extractLsb'_eq_self)
  have e2 : (d ++ a ++ b).extractLsb' 0 6 = b := (appendLo _ _ (by decide)).trans BitVec.extractLsb'_eq_self
  exact congrArg some ((Instr.vaddI32.injEq ..).mpr ⟨rfl, e0, e1, e2⟩)

theorem Decoding.vsubI32 (hd : Hdr) (d : BitVec 6) (a : BitVec 6) (b : BitVec 6) : Decoding.Statement (.vsubI32 hd d a b) := by
  intro _ _
  have e0 : (d ++ a ++ b).extractLsb' 12 6 = d := (appendHi _ _ (by decide)).trans ((appendHi _ _ (by decide)).trans BitVec.extractLsb'_eq_self)
  have e1 : (d ++ a ++ b).extractLsb' 6 6 = a := (appendHi _ _ (by decide)).trans ((appendLo _ _ (by decide)).trans BitVec.extractLsb'_eq_self)
  have e2 : (d ++ a ++ b).extractLsb' 0 6 = b := (appendLo _ _ (by decide)).trans BitVec.extractLsb'_eq_self
  exact congrArg some ((Instr.vsubI32.injEq ..).mpr ⟨rfl, e0, e1, e2⟩)

theorem Decoding.vmulI32 (hd : Hdr) (d : BitVec 6) (a : BitVec 6) (b : BitVec 6) : Decoding.Statement (.vmulI32 hd d a b) := by
  intro _ _
  have e0 : (d ++ a ++ b).extractLsb' 12 6 = d := (appendHi _ _ (by decide)).trans ((appendHi _ _ (by decide)).trans BitVec.extractLsb'_eq_self)
  have e1 : (d ++ a ++ b).extractLsb' 6 6 = a := (appendHi _ _ (by decide)).trans ((appendLo _ _ (by decide)).trans BitVec.extractLsb'_eq_self)
  have e2 : (d ++ a ++ b).extractLsb' 0 6 = b := (appendLo _ _ (by decide)).trans BitVec.extractLsb'_eq_self
  exact congrArg some ((Instr.vmulI32.injEq ..).mpr ⟨rfl, e0, e1, e2⟩)

theorem Decoding.vminI32 (hd : Hdr) (d : BitVec 6) (a : BitVec 6) (b : BitVec 6) : Decoding.Statement (.vminI32 hd d a b) := by
  intro _ _
  have e0 : (d ++ a ++ b).extractLsb' 12 6 = d := (appendHi _ _ (by decide)).trans ((appendHi _ _ (by decide)).trans BitVec.extractLsb'_eq_self)
  have e1 : (d ++ a ++ b).extractLsb' 6 6 = a := (appendHi _ _ (by decide)).trans ((appendLo _ _ (by decide)).trans BitVec.extractLsb'_eq_self)
  have e2 : (d ++ a ++ b).extractLsb' 0 6 = b := (appendLo _ _ (by decide)).trans BitVec.extractLsb'_eq_self
  exact congrArg some ((Instr.vminI32.injEq ..).mpr ⟨rfl, e0, e1, e2⟩)

theorem Decoding.vmaxI32 (hd : Hdr) (d : BitVec 6) (a : BitVec 6) (b : BitVec 6) : Decoding.Statement (.vmaxI32 hd d a b) := by
  intro _ _
  have e0 : (d ++ a ++ b).extractLsb' 12 6 = d := (appendHi _ _ (by decide)).trans ((appendHi _ _ (by decide)).trans BitVec.extractLsb'_eq_self)
  have e1 : (d ++ a ++ b).extractLsb' 6 6 = a := (appendHi _ _ (by decide)).trans ((appendLo _ _ (by decide)).trans BitVec.extractLsb'_eq_self)
  have e2 : (d ++ a ++ b).extractLsb' 0 6 = b := (appendLo _ _ (by decide)).trans BitVec.extractLsb'_eq_self
  exact congrArg some ((Instr.vmaxI32.injEq ..).mpr ⟨rfl, e0, e1, e2⟩)

theorem Decoding.vminu (hd : Hdr) (d : BitVec 6) (a : BitVec 6) (b : BitVec 6) : Decoding.Statement (.vminu hd d a b) := by
  intro _ _
  have e0 : (d ++ a ++ b).extractLsb' 12 6 = d := (appendHi _ _ (by decide)).trans ((appendHi _ _ (by decide)).trans BitVec.extractLsb'_eq_self)
  have e1 : (d ++ a ++ b).extractLsb' 6 6 = a := (appendHi _ _ (by decide)).trans ((appendLo _ _ (by decide)).trans BitVec.extractLsb'_eq_self)
  have e2 : (d ++ a ++ b).extractLsb' 0 6 = b := (appendLo _ _ (by decide)).trans BitVec.extractLsb'_eq_self
  exact congrArg some ((Instr.vminu.injEq ..).mpr ⟨rfl, e0, e1, e2⟩)

theorem Decoding.vmaxu (hd : Hdr) (d : BitVec 6) (a : BitVec 6) (b : BitVec 6) : Decoding.Statement (.vmaxu hd d a b) := by
  intro _ _
  have e0 : (d ++ a ++ b).extractLsb' 12 6 = d := (appendHi _ _ (by decide)).trans ((appendHi _ _ (by decide)).trans BitVec.extractLsb'_eq_self)
  have e1 : (d ++ a ++ b).extractLsb' 6 6 = a := (appendHi _ _ (by decide)).trans ((appendLo _ _ (by decide)).trans BitVec.extractLsb'_eq_self)
  have e2 : (d ++ a ++ b).extractLsb' 0 6 = b := (appendLo _ _ (by decide)).trans BitVec.extractLsb'_eq_self
  exact congrArg some ((Instr.vmaxu.injEq ..).mpr ⟨rfl, e0, e1, e2⟩)

theorem Decoding.vand (hd : Hdr) (d : BitVec 6) (a : BitVec 6) (b : BitVec 6) : Decoding.Statement (.vand hd d a b) := by
  intro _ _
  have e0 : (d ++ a ++ b).extractLsb' 12 6 = d := (appendHi _ _ (by decide)).trans ((appendHi _ _ (by decide)).trans BitVec.extractLsb'_eq_self)
  have e1 : (d ++ a ++ b).extractLsb' 6 6 = a := (appendHi _ _ (by decide)).trans ((appendLo _ _ (by decide)).trans BitVec.extractLsb'_eq_self)
  have e2 : (d ++ a ++ b).extractLsb' 0 6 = b := (appendLo _ _ (by decide)).trans BitVec.extractLsb'_eq_self
  exact congrArg some ((Instr.vand.injEq ..).mpr ⟨rfl, e0, e1, e2⟩)

theorem Decoding.vor (hd : Hdr) (d : BitVec 6) (a : BitVec 6) (b : BitVec 6) : Decoding.Statement (.vor hd d a b) := by
  intro _ _
  have e0 : (d ++ a ++ b).extractLsb' 12 6 = d := (appendHi _ _ (by decide)).trans ((appendHi _ _ (by decide)).trans BitVec.extractLsb'_eq_self)
  have e1 : (d ++ a ++ b).extractLsb' 6 6 = a := (appendHi _ _ (by decide)).trans ((appendLo _ _ (by decide)).trans BitVec.extractLsb'_eq_self)
  have e2 : (d ++ a ++ b).extractLsb' 0 6 = b := (appendLo _ _ (by decide)).trans BitVec.extractLsb'_eq_self
  exact congrArg some ((Instr.vor.injEq ..).mpr ⟨rfl, e0, e1, e2⟩)

theorem Decoding.vxor (hd : Hdr) (d : BitVec 6) (a : BitVec 6) (b : BitVec 6) : Decoding.Statement (.vxor hd d a b) := by
  intro _ _
  have e0 : (d ++ a ++ b).extractLsb' 12 6 = d := (appendHi _ _ (by decide)).trans ((appendHi _ _ (by decide)).trans BitVec.extractLsb'_eq_self)
  have e1 : (d ++ a ++ b).extractLsb' 6 6 = a := (appendHi _ _ (by decide)).trans ((appendLo _ _ (by decide)).trans BitVec.extractLsb'_eq_self)
  have e2 : (d ++ a ++ b).extractLsb' 0 6 = b := (appendLo _ _ (by decide)).trans BitVec.extractLsb'_eq_self
  exact congrArg some ((Instr.vxor.injEq ..).mpr ⟨rfl, e0, e1, e2⟩)

theorem Decoding.vshl (hd : Hdr) (d : BitVec 6) (a : BitVec 6) (b : BitVec 6) : Decoding.Statement (.vshl hd d a b) := by
  intro _ _
  have e0 : (d ++ a ++ b).extractLsb' 12 6 = d := (appendHi _ _ (by decide)).trans ((appendHi _ _ (by decide)).trans BitVec.extractLsb'_eq_self)
  have e1 : (d ++ a ++ b).extractLsb' 6 6 = a := (appendHi _ _ (by decide)).trans ((appendLo _ _ (by decide)).trans BitVec.extractLsb'_eq_self)
  have e2 : (d ++ a ++ b).extractLsb' 0 6 = b := (appendLo _ _ (by decide)).trans BitVec.extractLsb'_eq_self
  exact congrArg some ((Instr.vshl.injEq ..).mpr ⟨rfl, e0, e1, e2⟩)

theorem Decoding.vshr (hd : Hdr) (d : BitVec 6) (a : BitVec 6) (b : BitVec 6) : Decoding.Statement (.vshr hd d a b) := by
  intro _ _
  have e0 : (d ++ a ++ b).extractLsb' 12 6 = d := (appendHi _ _ (by decide)).trans ((appendHi _ _ (by decide)).trans BitVec.extractLsb'_eq_self)
  have e1 : (d ++ a ++ b).extractLsb' 6 6 = a := (appendHi _ _ (by decide)).trans ((appendLo _ _ (by decide)).trans BitVec.extractLsb'_eq_self)
  have e2 : (d ++ a ++ b).extractLsb' 0 6 = b := (appendLo _ _ (by decide)).trans BitVec.extractLsb'_eq_self
  exact congrArg some ((Instr.vshr.injEq ..).mpr ⟨rfl, e0, e1, e2⟩)

theorem Decoding.vsra (hd : Hdr) (d : BitVec 6) (a : BitVec 6) (b : BitVec 6) : Decoding.Statement (.vsra hd d a b) := by
  intro _ _
  have e0 : (d ++ a ++ b).extractLsb' 12 6 = d := (appendHi _ _ (by decide)).trans ((appendHi _ _ (by decide)).trans BitVec.extractLsb'_eq_self)
  have e1 : (d ++ a ++ b).extractLsb' 6 6 = a := (appendHi _ _ (by decide)).trans ((appendLo _ _ (by decide)).trans BitVec.extractLsb'_eq_self)
  have e2 : (d ++ a ++ b).extractLsb' 0 6 = b := (appendLo _ _ (by decide)).trans BitVec.extractLsb'_eq_self
  exact congrArg some ((Instr.vsra.injEq ..).mpr ⟨rfl, e0, e1, e2⟩)

theorem Decoding.vcmpI32 (hd : Hdr) (p : BitVec 2) (c : BitVec 4) (a : BitVec 6) (b : BitVec 6) : Decoding.Statement (.vcmpI32 hd p c a b) := by
  intro _ _
  have e0 : (p ++ c ++ a ++ b).extractLsb' 16 2 = p := (appendHi _ _ (by decide)).trans ((appendHi _ _ (by decide)).trans ((appendHi _ _ (by decide)).trans BitVec.extractLsb'_eq_self))
  have e1 : (p ++ c ++ a ++ b).extractLsb' 12 4 = c := (appendHi _ _ (by decide)).trans ((appendHi _ _ (by decide)).trans ((appendLo _ _ (by decide)).trans BitVec.extractLsb'_eq_self))
  have e2 : (p ++ c ++ a ++ b).extractLsb' 6 6 = a := (appendHi _ _ (by decide)).trans ((appendLo _ _ (by decide)).trans BitVec.extractLsb'_eq_self)
  have e3 : (p ++ c ++ a ++ b).extractLsb' 0 6 = b := (appendLo _ _ (by decide)).trans BitVec.extractLsb'_eq_self
  exact congrArg some ((Instr.vcmpI32.injEq ..).mpr ⟨rfl, e0, e1, e2, e3⟩)

theorem Decoding.vcmpu (hd : Hdr) (p : BitVec 2) (c : BitVec 4) (a : BitVec 6) (b : BitVec 6) : Decoding.Statement (.vcmpu hd p c a b) := by
  intro _ _
  have e0 : (p ++ c ++ a ++ b).extractLsb' 16 2 = p := (appendHi _ _ (by decide)).trans ((appendHi _ _ (by decide)).trans ((appendHi _ _ (by decide)).trans BitVec.extractLsb'_eq_self))
  have e1 : (p ++ c ++ a ++ b).extractLsb' 12 4 = c := (appendHi _ _ (by decide)).trans ((appendHi _ _ (by decide)).trans ((appendLo _ _ (by decide)).trans BitVec.extractLsb'_eq_self))
  have e2 : (p ++ c ++ a ++ b).extractLsb' 6 6 = a := (appendHi _ _ (by decide)).trans ((appendLo _ _ (by decide)).trans BitVec.extractLsb'_eq_self)
  have e3 : (p ++ c ++ a ++ b).extractLsb' 0 6 = b := (appendLo _ _ (by decide)).trans BitVec.extractLsb'_eq_self
  exact congrArg some ((Instr.vcmpu.injEq ..).mpr ⟨rfl, e0, e1, e2, e3⟩)

theorem Decoding.vaddsI32 (hd : Hdr) (d : BitVec 6) (a : BitVec 6) (b : BitVec 6) : Decoding.Statement (.vaddsI32 hd d a b) := by
  intro _ _
  have e0 : (d ++ a ++ b).extractLsb' 12 6 = d := (appendHi _ _ (by decide)).trans ((appendHi _ _ (by decide)).trans BitVec.extractLsb'_eq_self)
  have e1 : (d ++ a ++ b).extractLsb' 6 6 = a := (appendHi _ _ (by decide)).trans ((appendLo _ _ (by decide)).trans BitVec.extractLsb'_eq_self)
  have e2 : (d ++ a ++ b).extractLsb' 0 6 = b := (appendLo _ _ (by decide)).trans BitVec.extractLsb'_eq_self
  exact congrArg some ((Instr.vaddsI32.injEq ..).mpr ⟨rfl, e0, e1, e2⟩)

theorem Decoding.vaddF32 (hd : Hdr) (d : BitVec 6) (a : BitVec 6) (b : BitVec 6) : Decoding.Statement (.vaddF32 hd d a b) := by
  intro _ _
  have e0 : (d ++ a ++ b).extractLsb' 12 6 = d := (appendHi _ _ (by decide)).trans ((appendHi _ _ (by decide)).trans BitVec.extractLsb'_eq_self)
  have e1 : (d ++ a ++ b).extractLsb' 6 6 = a := (appendHi _ _ (by decide)).trans ((appendLo _ _ (by decide)).trans BitVec.extractLsb'_eq_self)
  have e2 : (d ++ a ++ b).extractLsb' 0 6 = b := (appendLo _ _ (by decide)).trans BitVec.extractLsb'_eq_self
  exact congrArg some ((Instr.vaddF32.injEq ..).mpr ⟨rfl, e0, e1, e2⟩)

theorem Decoding.vsubF32 (hd : Hdr) (d : BitVec 6) (a : BitVec 6) (b : BitVec 6) : Decoding.Statement (.vsubF32 hd d a b) := by
  intro _ _
  have e0 : (d ++ a ++ b).extractLsb' 12 6 = d := (appendHi _ _ (by decide)).trans ((appendHi _ _ (by decide)).trans BitVec.extractLsb'_eq_self)
  have e1 : (d ++ a ++ b).extractLsb' 6 6 = a := (appendHi _ _ (by decide)).trans ((appendLo _ _ (by decide)).trans BitVec.extractLsb'_eq_self)
  have e2 : (d ++ a ++ b).extractLsb' 0 6 = b := (appendLo _ _ (by decide)).trans BitVec.extractLsb'_eq_self
  exact congrArg some ((Instr.vsubF32.injEq ..).mpr ⟨rfl, e0, e1, e2⟩)

theorem Decoding.vmulF32 (hd : Hdr) (d : BitVec 6) (a : BitVec 6) (b : BitVec 6) : Decoding.Statement (.vmulF32 hd d a b) := by
  intro _ _
  have e0 : (d ++ a ++ b).extractLsb' 12 6 = d := (appendHi _ _ (by decide)).trans ((appendHi _ _ (by decide)).trans BitVec.extractLsb'_eq_self)
  have e1 : (d ++ a ++ b).extractLsb' 6 6 = a := (appendHi _ _ (by decide)).trans ((appendLo _ _ (by decide)).trans BitVec.extractLsb'_eq_self)
  have e2 : (d ++ a ++ b).extractLsb' 0 6 = b := (appendLo _ _ (by decide)).trans BitVec.extractLsb'_eq_self
  exact congrArg some ((Instr.vmulF32.injEq ..).mpr ⟨rfl, e0, e1, e2⟩)

theorem Decoding.vfmaF32 (hd : Hdr) (d : BitVec 6) (a : BitVec 6) (b : BitVec 6) : Decoding.Statement (.vfmaF32 hd d a b) := by
  intro _ _
  have e0 : (d ++ a ++ b).extractLsb' 12 6 = d := (appendHi _ _ (by decide)).trans ((appendHi _ _ (by decide)).trans BitVec.extractLsb'_eq_self)
  have e1 : (d ++ a ++ b).extractLsb' 6 6 = a := (appendHi _ _ (by decide)).trans ((appendLo _ _ (by decide)).trans BitVec.extractLsb'_eq_self)
  have e2 : (d ++ a ++ b).extractLsb' 0 6 = b := (appendLo _ _ (by decide)).trans BitVec.extractLsb'_eq_self
  exact congrArg some ((Instr.vfmaF32.injEq ..).mpr ⟨rfl, e0, e1, e2⟩)

theorem Decoding.vminF32 (hd : Hdr) (d : BitVec 6) (a : BitVec 6) (b : BitVec 6) : Decoding.Statement (.vminF32 hd d a b) := by
  intro _ _
  have e0 : (d ++ a ++ b).extractLsb' 12 6 = d := (appendHi _ _ (by decide)).trans ((appendHi _ _ (by decide)).trans BitVec.extractLsb'_eq_self)
  have e1 : (d ++ a ++ b).extractLsb' 6 6 = a := (appendHi _ _ (by decide)).trans ((appendLo _ _ (by decide)).trans BitVec.extractLsb'_eq_self)
  have e2 : (d ++ a ++ b).extractLsb' 0 6 = b := (appendLo _ _ (by decide)).trans BitVec.extractLsb'_eq_self
  exact congrArg some ((Instr.vminF32.injEq ..).mpr ⟨rfl, e0, e1, e2⟩)

theorem Decoding.vmaxF32 (hd : Hdr) (d : BitVec 6) (a : BitVec 6) (b : BitVec 6) : Decoding.Statement (.vmaxF32 hd d a b) := by
  intro _ _
  have e0 : (d ++ a ++ b).extractLsb' 12 6 = d := (appendHi _ _ (by decide)).trans ((appendHi _ _ (by decide)).trans BitVec.extractLsb'_eq_self)
  have e1 : (d ++ a ++ b).extractLsb' 6 6 = a := (appendHi _ _ (by decide)).trans ((appendLo _ _ (by decide)).trans BitVec.extractLsb'_eq_self)
  have e2 : (d ++ a ++ b).extractLsb' 0 6 = b := (appendLo _ _ (by decide)).trans BitVec.extractLsb'_eq_self
  exact congrArg some ((Instr.vmaxF32.injEq ..).mpr ⟨rfl, e0, e1, e2⟩)

theorem Decoding.vcmpF32 (hd : Hdr) (p : BitVec 2) (c : BitVec 4) (a : BitVec 6) (b : BitVec 6) : Decoding.Statement (.vcmpF32 hd p c a b) := by
  intro _ _
  have e0 : (p ++ c ++ a ++ b).extractLsb' 16 2 = p := (appendHi _ _ (by decide)).trans ((appendHi _ _ (by decide)).trans ((appendHi _ _ (by decide)).trans BitVec.extractLsb'_eq_self))
  have e1 : (p ++ c ++ a ++ b).extractLsb' 12 4 = c := (appendHi _ _ (by decide)).trans ((appendHi _ _ (by decide)).trans ((appendLo _ _ (by decide)).trans BitVec.extractLsb'_eq_self))
  have e2 : (p ++ c ++ a ++ b).extractLsb' 6 6 = a := (appendHi _ _ (by decide)).trans ((appendLo _ _ (by decide)).trans BitVec.extractLsb'_eq_self)
  have e3 : (p ++ c ++ a ++ b).extractLsb' 0 6 = b := (appendLo _ _ (by decide)).trans BitVec.extractLsb'_eq_self
  exact congrArg some ((Instr.vcmpF32.injEq ..).mpr ⟨rfl, e0, e1, e2, e3⟩)

theorem Decoding.vcvt (hd : Hdr) (d : BitVec 6) (a : BitVec 6) : Decoding.Statement (.vcvt hd d a) := by
  intro _ _
  have e0 : (d ++ a ++ 0#6).extractLsb' 12 6 = d := (appendHi _ _ (by decide)).trans ((appendHi _ _ (by decide)).trans BitVec.extractLsb'_eq_self)
  have e1 : (d ++ a ++ 0#6).extractLsb' 6 6 = a := (appendHi _ _ (by decide)).trans ((appendLo _ _ (by decide)).trans BitVec.extractLsb'_eq_self)
  have c0 : (d ++ a ++ 0#6) &&& 0x0003F#18 = 0x00000#18 := andAppend (andAppend (BitVec.and_zero : d &&& 0#6 = 0#6) (BitVec.and_zero : a &&& 0#6 = 0#6)) (by decide : (0#6) &&& 63#6 = 0#6)
  refine (if_pos c0).trans ?_
  exact congrArg some ((Instr.vcvt.injEq ..).mpr ⟨rfl, e0, e1⟩)

theorem Decoding.vaddF64 (hd : Hdr) (d : BitVec 6) (a : BitVec 6) (b : BitVec 6) : Decoding.Statement (.vaddF64 hd d a b) := by
  intro _ _
  have e0 : (d ++ a ++ b).extractLsb' 12 6 = d := (appendHi _ _ (by decide)).trans ((appendHi _ _ (by decide)).trans BitVec.extractLsb'_eq_self)
  have e1 : (d ++ a ++ b).extractLsb' 6 6 = a := (appendHi _ _ (by decide)).trans ((appendLo _ _ (by decide)).trans BitVec.extractLsb'_eq_self)
  have e2 : (d ++ a ++ b).extractLsb' 0 6 = b := (appendLo _ _ (by decide)).trans BitVec.extractLsb'_eq_self
  exact congrArg some ((Instr.vaddF64.injEq ..).mpr ⟨rfl, e0, e1, e2⟩)

theorem Decoding.vsubF64 (hd : Hdr) (d : BitVec 6) (a : BitVec 6) (b : BitVec 6) : Decoding.Statement (.vsubF64 hd d a b) := by
  intro _ _
  have e0 : (d ++ a ++ b).extractLsb' 12 6 = d := (appendHi _ _ (by decide)).trans ((appendHi _ _ (by decide)).trans BitVec.extractLsb'_eq_self)
  have e1 : (d ++ a ++ b).extractLsb' 6 6 = a := (appendHi _ _ (by decide)).trans ((appendLo _ _ (by decide)).trans BitVec.extractLsb'_eq_self)
  have e2 : (d ++ a ++ b).extractLsb' 0 6 = b := (appendLo _ _ (by decide)).trans BitVec.extractLsb'_eq_self
  exact congrArg some ((Instr.vsubF64.injEq ..).mpr ⟨rfl, e0, e1, e2⟩)

theorem Decoding.vmulF64 (hd : Hdr) (d : BitVec 6) (a : BitVec 6) (b : BitVec 6) : Decoding.Statement (.vmulF64 hd d a b) := by
  intro _ _
  have e0 : (d ++ a ++ b).extractLsb' 12 6 = d := (appendHi _ _ (by decide)).trans ((appendHi _ _ (by decide)).trans BitVec.extractLsb'_eq_self)
  have e1 : (d ++ a ++ b).extractLsb' 6 6 = a := (appendHi _ _ (by decide)).trans ((appendLo _ _ (by decide)).trans BitVec.extractLsb'_eq_self)
  have e2 : (d ++ a ++ b).extractLsb' 0 6 = b := (appendLo _ _ (by decide)).trans BitVec.extractLsb'_eq_self
  exact congrArg some ((Instr.vmulF64.injEq ..).mpr ⟨rfl, e0, e1, e2⟩)

theorem Decoding.vfmaF64 (hd : Hdr) (d : BitVec 6) (a : BitVec 6) (b : BitVec 6) : Decoding.Statement (.vfmaF64 hd d a b) := by
  intro _ _
  have e0 : (d ++ a ++ b).extractLsb' 12 6 = d := (appendHi _ _ (by decide)).trans ((appendHi _ _ (by decide)).trans BitVec.extractLsb'_eq_self)
  have e1 : (d ++ a ++ b).extractLsb' 6 6 = a := (appendHi _ _ (by decide)).trans ((appendLo _ _ (by decide)).trans BitVec.extractLsb'_eq_self)
  have e2 : (d ++ a ++ b).extractLsb' 0 6 = b := (appendLo _ _ (by decide)).trans BitVec.extractLsb'_eq_self
  exact congrArg some ((Instr.vfmaF64.injEq ..).mpr ⟨rfl, e0, e1, e2⟩)

theorem Decoding.vminF64 (hd : Hdr) (d : BitVec 6) (a : BitVec 6) (b : BitVec 6) : Decoding.Statement (.vminF64 hd d a b) := by
  intro _ _
  have e0 : (d ++ a ++ b).extractLsb' 12 6 = d := (appendHi _ _ (by decide)).trans ((appendHi _ _ (by decide)).trans BitVec.extractLsb'_eq_self)
  have e1 : (d ++ a ++ b).extractLsb' 6 6 = a := (appendHi _ _ (by decide)).trans ((appendLo _ _ (by decide)).trans BitVec.extractLsb'_eq_self)
  have e2 : (d ++ a ++ b).extractLsb' 0 6 = b := (appendLo _ _ (by decide)).trans BitVec.extractLsb'_eq_self
  exact congrArg some ((Instr.vminF64.injEq ..).mpr ⟨rfl, e0, e1, e2⟩)

theorem Decoding.vmaxF64 (hd : Hdr) (d : BitVec 6) (a : BitVec 6) (b : BitVec 6) : Decoding.Statement (.vmaxF64 hd d a b) := by
  intro _ _
  have e0 : (d ++ a ++ b).extractLsb' 12 6 = d := (appendHi _ _ (by decide)).trans ((appendHi _ _ (by decide)).trans BitVec.extractLsb'_eq_self)
  have e1 : (d ++ a ++ b).extractLsb' 6 6 = a := (appendHi _ _ (by decide)).trans ((appendLo _ _ (by decide)).trans BitVec.extractLsb'_eq_self)
  have e2 : (d ++ a ++ b).extractLsb' 0 6 = b := (appendLo _ _ (by decide)).trans BitVec.extractLsb'_eq_self
  exact congrArg some ((Instr.vmaxF64.injEq ..).mpr ⟨rfl, e0, e1, e2⟩)

theorem Decoding.vcmpF64 (hd : Hdr) (p : BitVec 2) (c : BitVec 4) (a : BitVec 6) (b : BitVec 6) : Decoding.Statement (.vcmpF64 hd p c a b) := by
  intro _ _
  have e0 : (p ++ c ++ a ++ b).extractLsb' 16 2 = p := (appendHi _ _ (by decide)).trans ((appendHi _ _ (by decide)).trans ((appendHi _ _ (by decide)).trans BitVec.extractLsb'_eq_self))
  have e1 : (p ++ c ++ a ++ b).extractLsb' 12 4 = c := (appendHi _ _ (by decide)).trans ((appendHi _ _ (by decide)).trans ((appendLo _ _ (by decide)).trans BitVec.extractLsb'_eq_self))
  have e2 : (p ++ c ++ a ++ b).extractLsb' 6 6 = a := (appendHi _ _ (by decide)).trans ((appendLo _ _ (by decide)).trans BitVec.extractLsb'_eq_self)
  have e3 : (p ++ c ++ a ++ b).extractLsb' 0 6 = b := (appendLo _ _ (by decide)).trans BitVec.extractLsb'_eq_self
  exact congrArg some ((Instr.vcmpF64.injEq ..).mpr ⟨rfl, e0, e1, e2, e3⟩)

theorem Decoding.vaddBf16 (hd : Hdr) (d : BitVec 6) (a : BitVec 6) (b : BitVec 6) : Decoding.Statement (.vaddBf16 hd d a b) := by
  intro _ _
  have e0 : (d ++ a ++ b).extractLsb' 12 6 = d := (appendHi _ _ (by decide)).trans ((appendHi _ _ (by decide)).trans BitVec.extractLsb'_eq_self)
  have e1 : (d ++ a ++ b).extractLsb' 6 6 = a := (appendHi _ _ (by decide)).trans ((appendLo _ _ (by decide)).trans BitVec.extractLsb'_eq_self)
  have e2 : (d ++ a ++ b).extractLsb' 0 6 = b := (appendLo _ _ (by decide)).trans BitVec.extractLsb'_eq_self
  exact congrArg some ((Instr.vaddBf16.injEq ..).mpr ⟨rfl, e0, e1, e2⟩)

theorem Decoding.vmulBf16 (hd : Hdr) (d : BitVec 6) (a : BitVec 6) (b : BitVec 6) : Decoding.Statement (.vmulBf16 hd d a b) := by
  intro _ _
  have e0 : (d ++ a ++ b).extractLsb' 12 6 = d := (appendHi _ _ (by decide)).trans ((appendHi _ _ (by decide)).trans BitVec.extractLsb'_eq_self)
  have e1 : (d ++ a ++ b).extractLsb' 6 6 = a := (appendHi _ _ (by decide)).trans ((appendLo _ _ (by decide)).trans BitVec.extractLsb'_eq_self)
  have e2 : (d ++ a ++ b).extractLsb' 0 6 = b := (appendLo _ _ (by decide)).trans BitVec.extractLsb'_eq_self
  exact congrArg some ((Instr.vmulBf16.injEq ..).mpr ⟨rfl, e0, e1, e2⟩)

theorem Decoding.vfmaBf16 (hd : Hdr) (d : BitVec 6) (a : BitVec 6) (b : BitVec 6) : Decoding.Statement (.vfmaBf16 hd d a b) := by
  intro _ _
  have e0 : (d ++ a ++ b).extractLsb' 12 6 = d := (appendHi _ _ (by decide)).trans ((appendHi _ _ (by decide)).trans BitVec.extractLsb'_eq_self)
  have e1 : (d ++ a ++ b).extractLsb' 6 6 = a := (appendHi _ _ (by decide)).trans ((appendLo _ _ (by decide)).trans BitVec.extractLsb'_eq_self)
  have e2 : (d ++ a ++ b).extractLsb' 0 6 = b := (appendLo _ _ (by decide)).trans BitVec.extractLsb'_eq_self
  exact congrArg some ((Instr.vfmaBf16.injEq ..).mpr ⟨rfl, e0, e1, e2⟩)

theorem Decoding.vaddF16 (hd : Hdr) (d : BitVec 6) (a : BitVec 6) (b : BitVec 6) : Decoding.Statement (.vaddF16 hd d a b) := by
  intro _ _
  have e0 : (d ++ a ++ b).extractLsb' 12 6 = d := (appendHi _ _ (by decide)).trans ((appendHi _ _ (by decide)).trans BitVec.extractLsb'_eq_self)
  have e1 : (d ++ a ++ b).extractLsb' 6 6 = a := (appendHi _ _ (by decide)).trans ((appendLo _ _ (by decide)).trans BitVec.extractLsb'_eq_self)
  have e2 : (d ++ a ++ b).extractLsb' 0 6 = b := (appendLo _ _ (by decide)).trans BitVec.extractLsb'_eq_self
  exact congrArg some ((Instr.vaddF16.injEq ..).mpr ⟨rfl, e0, e1, e2⟩)

theorem Decoding.vmulF16 (hd : Hdr) (d : BitVec 6) (a : BitVec 6) (b : BitVec 6) : Decoding.Statement (.vmulF16 hd d a b) := by
  intro _ _
  have e0 : (d ++ a ++ b).extractLsb' 12 6 = d := (appendHi _ _ (by decide)).trans ((appendHi _ _ (by decide)).trans BitVec.extractLsb'_eq_self)
  have e1 : (d ++ a ++ b).extractLsb' 6 6 = a := (appendHi _ _ (by decide)).trans ((appendLo _ _ (by decide)).trans BitVec.extractLsb'_eq_self)
  have e2 : (d ++ a ++ b).extractLsb' 0 6 = b := (appendLo _ _ (by decide)).trans BitVec.extractLsb'_eq_self
  exact congrArg some ((Instr.vmulF16.injEq ..).mpr ⟨rfl, e0, e1, e2⟩)

theorem Decoding.vfmaF16 (hd : Hdr) (d : BitVec 6) (a : BitVec 6) (b : BitVec 6) : Decoding.Statement (.vfmaF16 hd d a b) := by
  intro _ _
  have e0 : (d ++ a ++ b).extractLsb' 12 6 = d := (appendHi _ _ (by decide)).trans ((appendHi _ _ (by decide)).trans BitVec.extractLsb'_eq_self)
  have e1 : (d ++ a ++ b).extractLsb' 6 6 = a := (appendHi _ _ (by decide)).trans ((appendLo _ _ (by decide)).trans BitVec.extractLsb'_eq_self)
  have e2 : (d ++ a ++ b).extractLsb' 0 6 = b := (appendLo _ _ (by decide)).trans BitVec.extractLsb'_eq_self
  exact congrArg some ((Instr.vfmaF16.injEq ..).mpr ⟨rfl, e0, e1, e2⟩)

theorem Decoding.vmlog (hd : Hdr) (d : BitVec 3) (a : BitVec 3) (b : BitVec 3) (f : BitVec 4) : Decoding.Statement (.vmlog hd d a b f) := by
  intro _ _
  have e0 : (d ++ a ++ b ++ f ++ 0#5).extractLsb' 15 3 = d := (appendHi _ _ (by decide)).trans ((appendHi _ _ (by decide)).trans ((appendHi _ _ (by decide)).trans ((appendHi _ _ (by decide)).trans BitVec.extractLsb'_eq_self)))
  have e1 : (d ++ a ++ b ++ f ++ 0#5).extractLsb' 12 3 = a := (appendHi _ _ (by decide)).trans ((appendHi _ _ (by decide)).trans ((appendHi _ _ (by decide)).trans ((appendLo _ _ (by decide)).trans BitVec.extractLsb'_eq_self)))
  have e2 : (d ++ a ++ b ++ f ++ 0#5).extractLsb' 9 3 = b := (appendHi _ _ (by decide)).trans ((appendHi _ _ (by decide)).trans ((appendLo _ _ (by decide)).trans BitVec.extractLsb'_eq_self))
  have e3 : (d ++ a ++ b ++ f ++ 0#5).extractLsb' 5 4 = f := (appendHi _ _ (by decide)).trans ((appendLo _ _ (by decide)).trans BitVec.extractLsb'_eq_self)
  have c0 : (d ++ a ++ b ++ f ++ 0#5) &&& 0x0001F#18 = 0x00000#18 := andAppend (andAppend (andAppend (andAppend (BitVec.and_zero : d &&& 0#3 = 0#3) (BitVec.and_zero : a &&& 0#3 = 0#3)) (BitVec.and_zero : b &&& 0#3 = 0#3)) (BitVec.and_zero : f &&& 0#4 = 0#4)) (by decide : (0#5) &&& 31#5 = 0#5)
  refine (if_pos c0).trans ?_
  exact congrArg some ((Instr.vmlog.injEq ..).mpr ⟨rfl, e0, e1, e2, e3⟩)

theorem Decoding.vmmovTos (hd : Hdr) (d : BitVec 6) (a : BitVec 6) : Decoding.Statement (.vmmovTos hd d a) := by
  intro _ _
  have e0 : (d ++ a ++ 0#6).extractLsb' 12 6 = d := (appendHi _ _ (by decide)).trans ((appendHi _ _ (by decide)).trans BitVec.extractLsb'_eq_self)
  have e1 : (d ++ a ++ 0#6).extractLsb' 6 6 = a := (appendHi _ _ (by decide)).trans ((appendLo _ _ (by decide)).trans BitVec.extractLsb'_eq_self)
  have c0 : (d ++ a ++ 0#6) &&& 0x0003F#18 = 0x00000#18 := andAppend (andAppend (BitVec.and_zero : d &&& 0#6 = 0#6) (BitVec.and_zero : a &&& 0#6 = 0#6)) (by decide : (0#6) &&& 63#6 = 0#6)
  refine (if_pos c0).trans ?_
  exact congrArg some ((Instr.vmmovTos.injEq ..).mpr ⟨rfl, e0, e1⟩)

theorem Decoding.vmmovFroms (hd : Hdr) (d : BitVec 6) (a : BitVec 6) : Decoding.Statement (.vmmovFroms hd d a) := by
  intro _ _
  have e0 : (d ++ a ++ 1#6).extractLsb' 12 6 = d := (appendHi _ _ (by decide)).trans ((appendHi _ _ (by decide)).trans BitVec.extractLsb'_eq_self)
  have e1 : (d ++ a ++ 1#6).extractLsb' 6 6 = a := (appendHi _ _ (by decide)).trans ((appendLo _ _ (by decide)).trans BitVec.extractLsb'_eq_self)
  have c0 : ¬ (d ++ a ++ 1#6) &&& 0x0003F#18 = 0x00000#18 := fun h =>
    absurd (((andAppend (andAppend (BitVec.and_zero : d &&& 0#6 = 0#6) (BitVec.and_zero : a &&& 0#6 = 0#6)) (by decide : (1#6) &&& 63#6 = 1#6) : (d ++ a ++ 1#6) &&& 0x0003F#18 = 1#18)).symm.trans h) (by decide)
  have c1 : (d ++ a ++ 1#6) &&& 0x0003F#18 = 0x00001#18 := andAppend (andAppend (BitVec.and_zero : d &&& 0#6 = 0#6) (BitVec.and_zero : a &&& 0#6 = 0#6)) (by decide : (1#6) &&& 63#6 = 1#6)
  refine (if_neg c0).trans ((if_pos c1).trans ?_)
  exact congrArg some ((Instr.vmmovFroms.injEq ..).mpr ⟨rfl, e0, e1⟩)

theorem Decoding.vsel (hd : Hdr) (d : BitVec 6) (a : BitVec 6) (b : BitVec 6) : Decoding.Statement (.vsel hd d a b) := by
  intro _ _
  have e0 : (d ++ a ++ b).extractLsb' 12 6 = d := (appendHi _ _ (by decide)).trans ((appendHi _ _ (by decide)).trans BitVec.extractLsb'_eq_self)
  have e1 : (d ++ a ++ b).extractLsb' 6 6 = a := (appendHi _ _ (by decide)).trans ((appendLo _ _ (by decide)).trans BitVec.extractLsb'_eq_self)
  have e2 : (d ++ a ++ b).extractLsb' 0 6 = b := (appendLo _ _ (by decide)).trans BitVec.extractLsb'_eq_self
  exact congrArg some ((Instr.vsel.injEq ..).mpr ⟨rfl, e0, e1, e2⟩)

theorem Decoding.vperm (hd : Hdr) (d : BitVec 6) (a : BitVec 6) (b : BitVec 6) : Decoding.Statement (.vperm hd d a b) := by
  intro _ _
  have e0 : (d ++ a ++ b).extractLsb' 12 6 = d := (appendHi _ _ (by decide)).trans ((appendHi _ _ (by decide)).trans BitVec.extractLsb'_eq_self)
  have e1 : (d ++ a ++ b).extractLsb' 6 6 = a := (appendHi _ _ (by decide)).trans ((appendLo _ _ (by decide)).trans BitVec.extractLsb'_eq_self)
  have e2 : (d ++ a ++ b).extractLsb' 0 6 = b := (appendLo _ _ (by decide)).trans BitVec.extractLsb'_eq_self
  exact congrArg some ((Instr.vperm.injEq ..).mpr ⟨rfl, e0, e1, e2⟩)

theorem Decoding.vshuf (hd : Hdr) (d : BitVec 6) (a : BitVec 6) (b : BitVec 6) : Decoding.Statement (.vshuf hd d a b) := by
  intro _ _
  have e0 : (d ++ a ++ b).extractLsb' 12 6 = d := (appendHi _ _ (by decide)).trans ((appendHi _ _ (by decide)).trans BitVec.extractLsb'_eq_self)
  have e1 : (d ++ a ++ b).extractLsb' 6 6 = a := (appendHi _ _ (by decide)).trans ((appendLo _ _ (by decide)).trans BitVec.extractLsb'_eq_self)
  have e2 : (d ++ a ++ b).extractLsb' 0 6 = b := (appendLo _ _ (by decide)).trans BitVec.extractLsb'_eq_self
  exact congrArg some ((Instr.vshuf.injEq ..).mpr ⟨rfl, e0, e1, e2⟩)

theorem Decoding.vbcst (hd : Hdr) (d : BitVec 6) (a : BitVec 6) (w : BitVec 1) : Decoding.Statement (.vbcst hd d a w) := by
  intro _ _
  have e0 : (d ++ a ++ 0#5 ++ w).extractLsb' 12 6 = d := (appendHi _ _ (by decide)).trans ((appendHi _ _ (by decide)).trans ((appendHi _ _ (by decide)).trans BitVec.extractLsb'_eq_self))
  have e1 : (d ++ a ++ 0#5 ++ w).extractLsb' 6 6 = a := (appendHi _ _ (by decide)).trans ((appendHi _ _ (by decide)).trans ((appendLo _ _ (by decide)).trans BitVec.extractLsb'_eq_self))
  have e2 : (d ++ a ++ 0#5 ++ w).extractLsb' 0 1 = w := (appendLo _ _ (by decide)).trans BitVec.extractLsb'_eq_self
  have c0 : (d ++ a ++ 0#5 ++ w) &&& 0x0003E#18 = 0x00000#18 := andAppend (andAppend (andAppend (BitVec.and_zero : d &&& 0#6 = 0#6) (BitVec.and_zero : a &&& 0#6 = 0#6)) (by decide : (0#5) &&& 31#5 = 0#5)) (BitVec.and_zero : w &&& 0#1 = 0#1)
  refine (if_pos c0).trans ?_
  exact congrArg some ((Instr.vbcst.injEq ..).mpr ⟨rfl, e0, e1, e2⟩)

theorem Decoding.vext (hd : Hdr) (d : BitVec 6) (a : BitVec 6) (i : BitVec 6) : Decoding.Statement (.vext hd d a i) := by
  intro _ _
  have e0 : (d ++ a ++ i).extractLsb' 12 6 = d := (appendHi _ _ (by decide)).trans ((appendHi _ _ (by decide)).trans BitVec.extractLsb'_eq_self)
  have e1 : (d ++ a ++ i).extractLsb' 6 6 = a := (appendHi _ _ (by decide)).trans ((appendLo _ _ (by decide)).trans BitVec.extractLsb'_eq_self)
  have e2 : (d ++ a ++ i).extractLsb' 0 6 = i := (appendLo _ _ (by decide)).trans BitVec.extractLsb'_eq_self
  exact congrArg some ((Instr.vext.injEq ..).mpr ⟨rfl, e0, e1, e2⟩)

theorem Decoding.vins (hd : Hdr) (d : BitVec 6) (a : BitVec 6) (i : BitVec 6) : Decoding.Statement (.vins hd d a i) := by
  intro _ _
  have e0 : (d ++ a ++ i).extractLsb' 12 6 = d := (appendHi _ _ (by decide)).trans ((appendHi _ _ (by decide)).trans BitVec.extractLsb'_eq_self)
  have e1 : (d ++ a ++ i).extractLsb' 6 6 = a := (appendHi _ _ (by decide)).trans ((appendLo _ _ (by decide)).trans BitVec.extractLsb'_eq_self)
  have e2 : (d ++ a ++ i).extractLsb' 0 6 = i := (appendLo _ _ (by decide)).trans BitVec.extractLsb'_eq_self
  exact congrArg some ((Instr.vins.injEq ..).mpr ⟨rfl, e0, e1, e2⟩)

theorem Decoding.vmov (hd : Hdr) (d : BitVec 6) (a : BitVec 6) : Decoding.Statement (.vmov hd d a) := by
  intro _ _
  have e0 : (d ++ a ++ 0#6).extractLsb' 12 6 = d := (appendHi _ _ (by decide)).trans ((appendHi _ _ (by decide)).trans BitVec.extractLsb'_eq_self)
  have e1 : (d ++ a ++ 0#6).extractLsb' 6 6 = a := (appendHi _ _ (by decide)).trans ((appendLo _ _ (by decide)).trans BitVec.extractLsb'_eq_self)
  have c0 : (d ++ a ++ 0#6) &&& 0x0003F#18 = 0x00000#18 := andAppend (andAppend (BitVec.and_zero : d &&& 0#6 = 0#6) (BitVec.and_zero : a &&& 0#6 = 0#6)) (by decide : (0#6) &&& 63#6 = 0#6)
  refine (if_pos c0).trans ?_
  exact congrArg some ((Instr.vmov.injEq ..).mpr ⟨rfl, e0, e1⟩)

theorem Decoding.vidx (hd : Hdr) (d : BitVec 6) (a : BitVec 6) (i : BitVec 6) : Decoding.Statement (.vidx hd d a i) := by
  intro _ _
  have e0 : (d ++ a ++ i).extractLsb' 12 6 = d := (appendHi _ _ (by decide)).trans ((appendHi _ _ (by decide)).trans BitVec.extractLsb'_eq_self)
  have e1 : (d ++ a ++ i).extractLsb' 6 6 = a := (appendHi _ _ (by decide)).trans ((appendLo _ _ (by decide)).trans BitVec.extractLsb'_eq_self)
  have e2 : (d ++ a ++ i).extractLsb' 0 6 = i := (appendLo _ _ (by decide)).trans BitVec.extractLsb'_eq_self
  exact congrArg some ((Instr.vidx.injEq ..).mpr ⟨rfl, e0, e1, e2⟩)

theorem Decoding.vrsumF32 (hd : Hdr) (d : BitVec 6) (a : BitVec 6) : Decoding.Statement (.vrsumF32 hd d a) := by
  intro _ _
  have e0 : (d ++ a ++ 0#6).extractLsb' 12 6 = d := (appendHi _ _ (by decide)).trans ((appendHi _ _ (by decide)).trans BitVec.extractLsb'_eq_self)
  have e1 : (d ++ a ++ 0#6).extractLsb' 6 6 = a := (appendHi _ _ (by decide)).trans ((appendLo _ _ (by decide)).trans BitVec.extractLsb'_eq_self)
  have c0 : (d ++ a ++ 0#6) &&& 0x0003F#18 = 0x00000#18 := andAppend (andAppend (BitVec.and_zero : d &&& 0#6 = 0#6) (BitVec.and_zero : a &&& 0#6 = 0#6)) (by decide : (0#6) &&& 63#6 = 0#6)
  refine (if_pos c0).trans ?_
  exact congrArg some ((Instr.vrsumF32.injEq ..).mpr ⟨rfl, e0, e1⟩)

theorem Decoding.vrsumF64 (hd : Hdr) (d : BitVec 6) (a : BitVec 6) : Decoding.Statement (.vrsumF64 hd d a) := by
  intro _ _
  have e0 : (d ++ a ++ 0#6).extractLsb' 12 6 = d := (appendHi _ _ (by decide)).trans ((appendHi _ _ (by decide)).trans BitVec.extractLsb'_eq_self)
  have e1 : (d ++ a ++ 0#6).extractLsb' 6 6 = a := (appendHi _ _ (by decide)).trans ((appendLo _ _ (by decide)).trans BitVec.extractLsb'_eq_self)
  have c0 : (d ++ a ++ 0#6) &&& 0x0003F#18 = 0x00000#18 := andAppend (andAppend (BitVec.and_zero : d &&& 0#6 = 0#6) (BitVec.and_zero : a &&& 0#6 = 0#6)) (by decide : (0#6) &&& 63#6 = 0#6)
  refine (if_pos c0).trans ?_
  exact congrArg some ((Instr.vrsumF64.injEq ..).mpr ⟨rfl, e0, e1⟩)

theorem Decoding.vrsumI32 (hd : Hdr) (d : BitVec 6) (a : BitVec 6) : Decoding.Statement (.vrsumI32 hd d a) := by
  intro _ _
  have e0 : (d ++ a ++ 0#6).extractLsb' 12 6 = d := (appendHi _ _ (by decide)).trans ((appendHi _ _ (by decide)).trans BitVec.extractLsb'_eq_self)
  have e1 : (d ++ a ++ 0#6).extractLsb' 6 6 = a := (appendHi _ _ (by decide)).trans ((appendLo _ _ (by decide)).trans BitVec.extractLsb'_eq_self)
  have c0 : (d ++ a ++ 0#6) &&& 0x0003F#18 = 0x00000#18 := andAppend (andAppend (BitVec.and_zero : d &&& 0#6 = 0#6) (BitVec.and_zero : a &&& 0#6 = 0#6)) (by decide : (0#6) &&& 63#6 = 0#6)
  refine (if_pos c0).trans ?_
  exact congrArg some ((Instr.vrsumI32.injEq ..).mpr ⟨rfl, e0, e1⟩)

theorem Decoding.vrmax (hd : Hdr) (d : BitVec 6) (a : BitVec 6) (f : BitVec 4) (u : BitVec 1) (n : BitVec 1) : Decoding.Statement (.vrmax hd d a f u n) := by
  intro _ _
  have e0 : (d ++ a ++ f ++ u ++ n).extractLsb' 12 6 = d := (appendHi _ _ (by decide)).trans ((appendHi _ _ (by decide)).trans ((appendHi _ _ (by decide)).trans ((appendHi _ _ (by decide)).trans BitVec.extractLsb'_eq_self)))
  have e1 : (d ++ a ++ f ++ u ++ n).extractLsb' 6 6 = a := (appendHi _ _ (by decide)).trans ((appendHi _ _ (by decide)).trans ((appendHi _ _ (by decide)).trans ((appendLo _ _ (by decide)).trans BitVec.extractLsb'_eq_self)))
  have e2 : (d ++ a ++ f ++ u ++ n).extractLsb' 2 4 = f := (appendHi _ _ (by decide)).trans ((appendHi _ _ (by decide)).trans ((appendLo _ _ (by decide)).trans BitVec.extractLsb'_eq_self))
  have e3 : (d ++ a ++ f ++ u ++ n).extractLsb' 1 1 = u := (appendHi _ _ (by decide)).trans ((appendLo _ _ (by decide)).trans BitVec.extractLsb'_eq_self)
  have e4 : (d ++ a ++ f ++ u ++ n).extractLsb' 0 1 = n := (appendLo _ _ (by decide)).trans BitVec.extractLsb'_eq_self
  exact congrArg some ((Instr.vrmax.injEq ..).mpr ⟨rfl, e0, e1, e2, e3, e4⟩)

theorem Decoding.vrmin (hd : Hdr) (d : BitVec 6) (a : BitVec 6) (f : BitVec 4) (u : BitVec 1) (n : BitVec 1) : Decoding.Statement (.vrmin hd d a f u n) := by
  intro _ _
  have e0 : (d ++ a ++ f ++ u ++ n).extractLsb' 12 6 = d := (appendHi _ _ (by decide)).trans ((appendHi _ _ (by decide)).trans ((appendHi _ _ (by decide)).trans ((appendHi _ _ (by decide)).trans BitVec.extractLsb'_eq_self)))
  have e1 : (d ++ a ++ f ++ u ++ n).extractLsb' 6 6 = a := (appendHi _ _ (by decide)).trans ((appendHi _ _ (by decide)).trans ((appendHi _ _ (by decide)).trans ((appendLo _ _ (by decide)).trans BitVec.extractLsb'_eq_self)))
  have e2 : (d ++ a ++ f ++ u ++ n).extractLsb' 2 4 = f := (appendHi _ _ (by decide)).trans ((appendHi _ _ (by decide)).trans ((appendLo _ _ (by decide)).trans BitVec.extractLsb'_eq_self))
  have e3 : (d ++ a ++ f ++ u ++ n).extractLsb' 1 1 = u := (appendHi _ _ (by decide)).trans ((appendLo _ _ (by decide)).trans BitVec.extractLsb'_eq_self)
  have e4 : (d ++ a ++ f ++ u ++ n).extractLsb' 0 1 = n := (appendLo _ _ (by decide)).trans BitVec.extractLsb'_eq_self
  exact congrArg some ((Instr.vrmin.injEq ..).mpr ⟨rfl, e0, e1, e2, e3, e4⟩)

theorem Decoding.vscanF32 (hd : Hdr) (d : BitVec 6) (a : BitVec 6) : Decoding.Statement (.vscanF32 hd d a) := by
  intro _ _
  have e0 : (d ++ a ++ 0#6).extractLsb' 12 6 = d := (appendHi _ _ (by decide)).trans ((appendHi _ _ (by decide)).trans BitVec.extractLsb'_eq_self)
  have e1 : (d ++ a ++ 0#6).extractLsb' 6 6 = a := (appendHi _ _ (by decide)).trans ((appendLo _ _ (by decide)).trans BitVec.extractLsb'_eq_self)
  have c0 : (d ++ a ++ 0#6) &&& 0x0003F#18 = 0x00000#18 := andAppend (andAppend (BitVec.and_zero : d &&& 0#6 = 0#6) (BitVec.and_zero : a &&& 0#6 = 0#6)) (by decide : (0#6) &&& 63#6 = 0#6)
  refine (if_pos c0).trans ?_
  exact congrArg some ((Instr.vscanF32.injEq ..).mpr ⟨rfl, e0, e1⟩)

theorem Decoding.vrcp (hd : Hdr) (d : BitVec 6) (a : BitVec 6) : Decoding.Statement (.vrcp hd d a) := by
  intro _ _
  have e0 : (d ++ a ++ 0#6).extractLsb' 12 6 = d := (appendHi _ _ (by decide)).trans ((appendHi _ _ (by decide)).trans BitVec.extractLsb'_eq_self)
  have e1 : (d ++ a ++ 0#6).extractLsb' 6 6 = a := (appendHi _ _ (by decide)).trans ((appendLo _ _ (by decide)).trans BitVec.extractLsb'_eq_self)
  have c0 : (d ++ a ++ 0#6) &&& 0x0003F#18 = 0x00000#18 := andAppend (andAppend (BitVec.and_zero : d &&& 0#6 = 0#6) (BitVec.and_zero : a &&& 0#6 = 0#6)) (by decide : (0#6) &&& 63#6 = 0#6)
  refine (if_pos c0).trans ?_
  exact congrArg some ((Instr.vrcp.injEq ..).mpr ⟨rfl, e0, e1⟩)

theorem Decoding.vrsq (hd : Hdr) (d : BitVec 6) (a : BitVec 6) : Decoding.Statement (.vrsq hd d a) := by
  intro _ _
  have e0 : (d ++ a ++ 0#6).extractLsb' 12 6 = d := (appendHi _ _ (by decide)).trans ((appendHi _ _ (by decide)).trans BitVec.extractLsb'_eq_self)
  have e1 : (d ++ a ++ 0#6).extractLsb' 6 6 = a := (appendHi _ _ (by decide)).trans ((appendLo _ _ (by decide)).trans BitVec.extractLsb'_eq_self)
  have c0 : (d ++ a ++ 0#6) &&& 0x0003F#18 = 0x00000#18 := andAppend (andAppend (BitVec.and_zero : d &&& 0#6 = 0#6) (BitVec.and_zero : a &&& 0#6 = 0#6)) (by decide : (0#6) &&& 63#6 = 0#6)
  refine (if_pos c0).trans ?_
  exact congrArg some ((Instr.vrsq.injEq ..).mpr ⟨rfl, e0, e1⟩)

theorem Decoding.vexp2 (hd : Hdr) (d : BitVec 6) (a : BitVec 6) : Decoding.Statement (.vexp2 hd d a) := by
  intro _ _
  have e0 : (d ++ a ++ 0#6).extractLsb' 12 6 = d := (appendHi _ _ (by decide)).trans ((appendHi _ _ (by decide)).trans BitVec.extractLsb'_eq_self)
  have e1 : (d ++ a ++ 0#6).extractLsb' 6 6 = a := (appendHi _ _ (by decide)).trans ((appendLo _ _ (by decide)).trans BitVec.extractLsb'_eq_self)
  have c0 : (d ++ a ++ 0#6) &&& 0x0003F#18 = 0x00000#18 := andAppend (andAppend (BitVec.and_zero : d &&& 0#6 = 0#6) (BitVec.and_zero : a &&& 0#6 = 0#6)) (by decide : (0#6) &&& 63#6 = 0#6)
  refine (if_pos c0).trans ?_
  exact congrArg some ((Instr.vexp2.injEq ..).mpr ⟨rfl, e0, e1⟩)

theorem Decoding.vlog2 (hd : Hdr) (d : BitVec 6) (a : BitVec 6) : Decoding.Statement (.vlog2 hd d a) := by
  intro _ _
  have e0 : (d ++ a ++ 0#6).extractLsb' 12 6 = d := (appendHi _ _ (by decide)).trans ((appendHi _ _ (by decide)).trans BitVec.extractLsb'_eq_self)
  have e1 : (d ++ a ++ 0#6).extractLsb' 6 6 = a := (appendHi _ _ (by decide)).trans ((appendLo _ _ (by decide)).trans BitVec.extractLsb'_eq_self)
  have c0 : (d ++ a ++ 0#6) &&& 0x0003F#18 = 0x00000#18 := andAppend (andAppend (BitVec.and_zero : d &&& 0#6 = 0#6) (BitVec.and_zero : a &&& 0#6 = 0#6)) (by decide : (0#6) &&& 63#6 = 0#6)
  refine (if_pos c0).trans ?_
  exact congrArg some ((Instr.vlog2.injEq ..).mpr ⟨rfl, e0, e1⟩)

theorem Decoding.vqnt (hd : Hdr) (d : BitVec 6) (a : BitVec 6) (b : BitVec 6) : Decoding.Statement (.vqnt hd d a b) := by
  intro _ _
  have e0 : (d ++ a ++ b).extractLsb' 12 6 = d := (appendHi _ _ (by decide)).trans ((appendHi _ _ (by decide)).trans BitVec.extractLsb'_eq_self)
  have e1 : (d ++ a ++ b).extractLsb' 6 6 = a := (appendHi _ _ (by decide)).trans ((appendLo _ _ (by decide)).trans BitVec.extractLsb'_eq_self)
  have e2 : (d ++ a ++ b).extractLsb' 0 6 = b := (appendLo _ _ (by decide)).trans BitVec.extractLsb'_eq_self
  exact congrArg some ((Instr.vqnt.injEq ..).mpr ⟨rfl, e0, e1, e2⟩)

theorem Decoding.vdqt (hd : Hdr) (d : BitVec 6) (a : BitVec 6) (b : BitVec 6) : Decoding.Statement (.vdqt hd d a b) := by
  intro _ _
  have e0 : (d ++ a ++ b).extractLsb' 12 6 = d := (appendHi _ _ (by decide)).trans ((appendHi _ _ (by decide)).trans BitVec.extractLsb'_eq_self)
  have e1 : (d ++ a ++ b).extractLsb' 6 6 = a := (appendHi _ _ (by decide)).trans ((appendLo _ _ (by decide)).trans BitVec.extractLsb'_eq_self)
  have e2 : (d ++ a ++ b).extractLsb' 0 6 = b := (appendLo _ _ (by decide)).trans BitVec.extractLsb'_eq_self
  exact congrArg some ((Instr.vdqt.injEq ..).mpr ⟨rfl, e0, e1, e2⟩)

theorem Decoding.vrnd (hd : Hdr) (d : BitVec 6) (a : BitVec 6) (b : BitVec 6) : Decoding.Statement (.vrnd hd d a b) := by
  intro _ _
  have e0 : (d ++ a ++ b).extractLsb' 12 6 = d := (appendHi _ _ (by decide)).trans ((appendHi _ _ (by decide)).trans BitVec.extractLsb'_eq_self)
  have e1 : (d ++ a ++ b).extractLsb' 6 6 = a := (appendHi _ _ (by decide)).trans ((appendLo _ _ (by decide)).trans BitVec.extractLsb'_eq_self)
  have e2 : (d ++ a ++ b).extractLsb' 0 6 = b := (appendLo _ _ (by decide)).trans BitVec.extractLsb'_eq_self
  exact congrArg some ((Instr.vrnd.injEq ..).mpr ⟨rfl, e0, e1, e2⟩)

theorem Decoding.mxa (hd : Hdr) (k : BitVec 4) (a : BitVec 6) (b : BitVec 6) : Decoding.Statement (.mxa hd k a b) := by
  intro _ _
  have e0 : (k ++ a ++ b ++ 0#2).extractLsb' 14 4 = k := (appendHi _ _ (by decide)).trans ((appendHi _ _ (by decide)).trans ((appendHi _ _ (by decide)).trans BitVec.extractLsb'_eq_self))
  have e1 : (k ++ a ++ b ++ 0#2).extractLsb' 8 6 = a := (appendHi _ _ (by decide)).trans ((appendHi _ _ (by decide)).trans ((appendLo _ _ (by decide)).trans BitVec.extractLsb'_eq_self))
  have e2 : (k ++ a ++ b ++ 0#2).extractLsb' 2 6 = b := (appendHi _ _ (by decide)).trans ((appendLo _ _ (by decide)).trans BitVec.extractLsb'_eq_self)
  have c0 : (k ++ a ++ b ++ 0#2) &&& 0x00003#18 = 0x00000#18 := andAppend (andAppend (andAppend (BitVec.and_zero : k &&& 0#4 = 0#4) (BitVec.and_zero : a &&& 0#6 = 0#6)) (BitVec.and_zero : b &&& 0#6 = 0#6)) (by decide : (0#2) &&& 3#2 = 0#2)
  refine (if_pos c0).trans ?_
  exact congrArg some ((Instr.mxa.injEq ..).mpr ⟨rfl, e0, e1, e2⟩)

theorem Decoding.mxg (hd : Hdr) (k : BitVec 4) (a : BitVec 6) (b : BitVec 6) : Decoding.Statement (.mxg hd k a b) := by
  intro _ _
  have e0 : (k ++ a ++ b ++ 0#2).extractLsb' 14 4 = k := (appendHi _ _ (by decide)).trans ((appendHi _ _ (by decide)).trans ((appendHi _ _ (by decide)).trans BitVec.extractLsb'_eq_self))
  have e1 : (k ++ a ++ b ++ 0#2).extractLsb' 8 6 = a := (appendHi _ _ (by decide)).trans ((appendHi _ _ (by decide)).trans ((appendLo _ _ (by decide)).trans BitVec.extractLsb'_eq_self))
  have e2 : (k ++ a ++ b ++ 0#2).extractLsb' 2 6 = b := (appendHi _ _ (by decide)).trans ((appendLo _ _ (by decide)).trans BitVec.extractLsb'_eq_self)
  have c0 : (k ++ a ++ b ++ 0#2) &&& 0x00003#18 = 0x00000#18 := andAppend (andAppend (andAppend (BitVec.and_zero : k &&& 0#4 = 0#4) (BitVec.and_zero : a &&& 0#6 = 0#6)) (BitVec.and_zero : b &&& 0#6 = 0#6)) (by decide : (0#2) &&& 3#2 = 0#2)
  refine (if_pos c0).trans ?_
  exact congrArg some ((Instr.mxg.injEq ..).mpr ⟨rfl, e0, e1, e2⟩)

theorem Decoding.mxt (hd : Hdr) (k : BitVec 4) (a : BitVec 6) (b : BitVec 6) : Decoding.Statement (.mxt hd k a b) := by
  intro _ _
  have e0 : (k ++ a ++ b ++ 0#2).extractLsb' 14 4 = k := (appendHi _ _ (by decide)).trans ((appendHi _ _ (by decide)).trans ((appendHi _ _ (by decide)).trans BitVec.extractLsb'_eq_self))
  have e1 : (k ++ a ++ b ++ 0#2).extractLsb' 8 6 = a := (appendHi _ _ (by decide)).trans ((appendHi _ _ (by decide)).trans ((appendLo _ _ (by decide)).trans BitVec.extractLsb'_eq_self))
  have e2 : (k ++ a ++ b ++ 0#2).extractLsb' 2 6 = b := (appendHi _ _ (by decide)).trans ((appendLo _ _ (by decide)).trans BitVec.extractLsb'_eq_self)
  have c0 : (k ++ a ++ b ++ 0#2) &&& 0x00003#18 = 0x00000#18 := andAppend (andAppend (andAppend (BitVec.and_zero : k &&& 0#4 = 0#4) (BitVec.and_zero : a &&& 0#6 = 0#6)) (BitVec.and_zero : b &&& 0#6 = 0#6)) (by decide : (0#2) &&& 3#2 = 0#2)
  refine (if_pos c0).trans ?_
  exact congrArg some ((Instr.mxt.injEq ..).mpr ⟨rfl, e0, e1, e2⟩)

theorem Decoding.chb (hd : Hdr) (k : BitVec 4) (a : BitVec 6) : Decoding.Statement (.chb hd k a) := by
  intro _ _
  have e0 : (k ++ 0#2 ++ a ++ 0#6).extractLsb' 14 4 = k := (appendHi _ _ (by decide)).trans ((appendHi _ _ (by decide)).trans ((appendHi _ _ (by decide)).trans BitVec.extractLsb'_eq_self))
  have e1 : (k ++ 0#2 ++ a ++ 0#6).extractLsb' 6 6 = a := (appendHi _ _ (by decide)).trans ((appendLo _ _ (by decide)).trans BitVec.extractLsb'_eq_self)
  have c0 : (k ++ 0#2 ++ a ++ 0#6) &&& 0x0303F#18 = 0x00000#18 := andAppend (andAppend (andAppend (BitVec.and_zero : k &&& 0#4 = 0#4) (by decide : (0#2) &&& 3#2 = 0#2)) (BitVec.and_zero : a &&& 0#6 = 0#6)) (by decide : (0#6) &&& 63#6 = 0#6)
  refine (if_pos c0).trans ?_
  exact congrArg some ((Instr.chb.injEq ..).mpr ⟨rfl, e0, e1⟩)

theorem Decoding.chc (hd : Hdr) (k : BitVec 4) (a : BitVec 6) (b : BitVec 6) : Decoding.Statement (.chc hd k a b) := by
  intro _ _
  have e0 : (k ++ a ++ b ++ 0#2).extractLsb' 14 4 = k := (appendHi _ _ (by decide)).trans ((appendHi _ _ (by decide)).trans ((appendHi _ _ (by decide)).trans BitVec.extractLsb'_eq_self))
  have e1 : (k ++ a ++ b ++ 0#2).extractLsb' 8 6 = a := (appendHi _ _ (by decide)).trans ((appendHi _ _ (by decide)).trans ((appendLo _ _ (by decide)).trans BitVec.extractLsb'_eq_self))
  have e2 : (k ++ a ++ b ++ 0#2).extractLsb' 2 6 = b := (appendHi _ _ (by decide)).trans ((appendLo _ _ (by decide)).trans BitVec.extractLsb'_eq_self)
  have c0 : (k ++ a ++ b ++ 0#2) &&& 0x00003#18 = 0x00000#18 := andAppend (andAppend (andAppend (BitVec.and_zero : k &&& 0#4 = 0#4) (BitVec.and_zero : a &&& 0#6 = 0#6)) (BitVec.and_zero : b &&& 0#6 = 0#6)) (by decide : (0#2) &&& 3#2 = 0#2)
  refine (if_pos c0).trans ?_
  exact congrArg some ((Instr.chc.injEq ..).mpr ⟨rfl, e0, e1, e2⟩)

theorem Decoding.chq (hd : Hdr) (d : BitVec 6) (a : BitVec 6) : Decoding.Statement (.chq hd d a) := by
  intro _ _
  have e0 : (d ++ a ++ 0#6).extractLsb' 12 6 = d := (appendHi _ _ (by decide)).trans ((appendHi _ _ (by decide)).trans BitVec.extractLsb'_eq_self)
  have e1 : (d ++ a ++ 0#6).extractLsb' 6 6 = a := (appendHi _ _ (by decide)).trans ((appendLo _ _ (by decide)).trans BitVec.extractLsb'_eq_self)
  have c0 : (d ++ a ++ 0#6) &&& 0x0003F#18 = 0x00000#18 := andAppend (andAppend (BitVec.and_zero : d &&& 0#6 = 0#6) (BitVec.and_zero : a &&& 0#6 = 0#6)) (by decide : (0#6) &&& 63#6 = 0#6)
  refine (if_pos c0).trans ?_
  exact congrArg some ((Instr.chq.injEq ..).mpr ⟨rfl, e0, e1⟩)

theorem Decoding.chs (hd : Hdr) (k : BitVec 4) (a : BitVec 6) : Decoding.Statement (.chs hd k a) := by
  intro _ _
  have e0 : (k ++ 0#2 ++ a ++ 0#6).extractLsb' 14 4 = k := (appendHi _ _ (by decide)).trans ((appendHi _ _ (by decide)).trans ((appendHi _ _ (by decide)).trans BitVec.extractLsb'_eq_self))
  have e1 : (k ++ 0#2 ++ a ++ 0#6).extractLsb' 6 6 = a := (appendHi _ _ (by decide)).trans ((appendLo _ _ (by decide)).trans BitVec.extractLsb'_eq_self)
  have c0 : (k ++ 0#2 ++ a ++ 0#6) &&& 0x0303F#18 = 0x00000#18 := andAppend (andAppend (andAppend (BitVec.and_zero : k &&& 0#4 = 0#4) (by decide : (0#2) &&& 3#2 = 0#2)) (BitVec.and_zero : a &&& 0#6 = 0#6)) (by decide : (0#6) &&& 63#6 = 0#6)
  refine (if_pos c0).trans ?_
  exact congrArg some ((Instr.chs.injEq ..).mpr ⟨rfl, e0, e1⟩)

theorem Decoding.chf (hd : Hdr) (c : BitVec 10) : Decoding.Statement (.chf hd c) := by
  intro _ _
  have e0 : (c ++ 0#8).extractLsb' 8 10 = c := (appendHi _ _ (by decide)).trans BitVec.extractLsb'_eq_self
  have c0 : (c ++ 0#8) &&& 0x000FF#18 = 0x00000#18 := andAppend (BitVec.and_zero : c &&& 0#10 = 0#10) (by decide : (0#8) &&& 255#8 = 0#8)
  refine (if_pos c0).trans ?_
  exact congrArg some ((Instr.chf.injEq ..).mpr ⟨rfl, e0⟩)

theorem Decoding.cht (hd : Hdr) (d : BitVec 6) (c : BitVec 10) : Decoding.Statement (.cht hd d c) := by
  intro _ _
  have e0 : (d ++ c ++ 0#2).extractLsb' 12 6 = d := (appendHi _ _ (by decide)).trans ((appendHi _ _ (by decide)).trans BitVec.extractLsb'_eq_self)
  have e1 : (d ++ c ++ 0#2).extractLsb' 2 10 = c := (appendHi _ _ (by decide)).trans ((appendLo _ _ (by decide)).trans BitVec.extractLsb'_eq_self)
  have c0 : (d ++ c ++ 0#2) &&& 0x00003#18 = 0x00000#18 := andAppend (andAppend (BitVec.and_zero : d &&& 0#6 = 0#6) (BitVec.and_zero : c &&& 0#10 = 0#10)) (by decide : (0#2) &&& 3#2 = 0#2)
  refine (if_pos c0).trans ?_
  exact congrArg some ((Instr.cht.injEq ..).mpr ⟨rfl, e0, e1⟩)

theorem Decoding.chx (hd : Hdr) (c : BitVec 10) : Decoding.Statement (.chx hd c) := by
  intro _ _
  have e0 : (c ++ 0#8).extractLsb' 8 10 = c := (appendHi _ _ (by decide)).trans BitVec.extractLsb'_eq_self
  have c0 : (c ++ 0#8) &&& 0x000FF#18 = 0x00000#18 := andAppend (BitVec.and_zero : c &&& 0#10 = 0#10) (by decide : (0#8) &&& 255#8 = 0#8)
  refine (if_pos c0).trans ?_
  exact congrArg some ((Instr.chx.injEq ..).mpr ⟨rfl, e0⟩)

theorem Decoding.lkrd (hd : Hdr) (d : BitVec 6) (k : BitVec 4) (a : BitVec 6) : Decoding.Statement (.lkrd hd d k a) := by
  intro _ _
  have e0 : (d ++ k ++ a ++ 0#2).extractLsb' 12 6 = d := (appendHi _ _ (by decide)).trans ((appendHi _ _ (by decide)).trans ((appendHi _ _ (by decide)).trans BitVec.extractLsb'_eq_self))
  have e1 : (d ++ k ++ a ++ 0#2).extractLsb' 8 4 = k := (appendHi _ _ (by decide)).trans ((appendHi _ _ (by decide)).trans ((appendLo _ _ (by decide)).trans BitVec.extractLsb'_eq_self))
  have e2 : (d ++ k ++ a ++ 0#2).extractLsb' 2 6 = a := (appendHi _ _ (by decide)).trans ((appendLo _ _ (by decide)).trans BitVec.extractLsb'_eq_self)
  have c0 : (d ++ k ++ a ++ 0#2) &&& 0x00003#18 = 0x00000#18 := andAppend (andAppend (andAppend (BitVec.and_zero : d &&& 0#6 = 0#6) (BitVec.and_zero : k &&& 0#4 = 0#4)) (BitVec.and_zero : a &&& 0#6 = 0#6)) (by decide : (0#2) &&& 3#2 = 0#2)
  refine (if_pos c0).trans ?_
  exact congrArg some ((Instr.lkrd.injEq ..).mpr ⟨rfl, e0, e1, e2⟩)

theorem Decoding.lkld (hd : Hdr) (k : BitVec 4) (a : BitVec 6) : Decoding.Statement (.lkld hd k a) := by
  intro _ _
  have e0 : (k ++ 0#2 ++ a ++ 0#6).extractLsb' 14 4 = k := (appendHi _ _ (by decide)).trans ((appendHi _ _ (by decide)).trans ((appendHi _ _ (by decide)).trans BitVec.extractLsb'_eq_self))
  have e1 : (k ++ 0#2 ++ a ++ 0#6).extractLsb' 6 6 = a := (appendHi _ _ (by decide)).trans ((appendLo _ _ (by decide)).trans BitVec.extractLsb'_eq_self)
  have c0 : (k ++ 0#2 ++ a ++ 0#6) &&& 0x0303F#18 = 0x00000#18 := andAppend (andAppend (andAppend (BitVec.and_zero : k &&& 0#4 = 0#4) (by decide : (0#2) &&& 3#2 = 0#2)) (BitVec.and_zero : a &&& 0#6 = 0#6)) (by decide : (0#6) &&& 63#6 = 0#6)
  refine (if_pos c0).trans ?_
  exact congrArg some ((Instr.lkld.injEq ..).mpr ⟨rfl, e0, e1⟩)

theorem Decoding.lkz (hd : Hdr) (k : BitVec 4) : Decoding.Statement (.lkz hd k) := by
  intro _ _
  have e0 : (k ++ 0#14).extractLsb' 14 4 = k := (appendHi _ _ (by decide)).trans BitVec.extractLsb'_eq_self
  have c0 : (k ++ 0#14) &&& 0x03FFF#18 = 0x00000#18 := andAppend (BitVec.and_zero : k &&& 0#4 = 0#4) (by decide : (0#14) &&& 16383#14 = 0#14)
  refine (if_pos c0).trans ?_
  exact congrArg some ((Instr.lkz.injEq ..).mpr ⟨rfl, e0⟩)

theorem Decoding.ems (hd : Hdr) (y : BitVec 1) (n : BitVec 2) (a : BitVec 6) : Decoding.Statement (.ems hd y n a) := by
  intro _ _
  have e0 : (y ++ n ++ 0#3 ++ a ++ 0#6).extractLsb' 17 1 = y := (appendHi _ _ (by decide)).trans ((appendHi _ _ (by decide)).trans ((appendHi _ _ (by decide)).trans ((appendHi _ _ (by decide)).trans BitVec.extractLsb'_eq_self)))
  have e1 : (y ++ n ++ 0#3 ++ a ++ 0#6).extractLsb' 15 2 = n := (appendHi _ _ (by decide)).trans ((appendHi _ _ (by decide)).trans ((appendHi _ _ (by decide)).trans ((appendLo _ _ (by decide)).trans BitVec.extractLsb'_eq_self)))
  have e2 : (y ++ n ++ 0#3 ++ a ++ 0#6).extractLsb' 6 6 = a := (appendHi _ _ (by decide)).trans ((appendLo _ _ (by decide)).trans BitVec.extractLsb'_eq_self)
  have c0 : (y ++ n ++ 0#3 ++ a ++ 0#6) &&& 0x0703F#18 = 0x00000#18 := andAppend (andAppend (andAppend (andAppend (BitVec.and_zero : y &&& 0#1 = 0#1) (BitVec.and_zero : n &&& 0#2 = 0#2)) (by decide : (0#3) &&& 7#3 = 0#3)) (BitVec.and_zero : a &&& 0#6 = 0#6)) (by decide : (0#6) &&& 63#6 = 0#6)
  refine (if_pos c0).trans ?_
  exact congrArg some ((Instr.ems.injEq ..).mpr ⟨rfl, e0, e1, e2⟩)

theorem Decoding.emsN (hd : Hdr) (y : BitVec 1) (n : BitVec 2) (c : BitVec 6) : Decoding.Statement (.emsN hd y n c) := by
  intro _ _
  have e0 : (y ++ n ++ 256#9 ++ c).extractLsb' 17 1 = y := (appendHi _ _ (by decide)).trans ((appendHi _ _ (by decide)).trans ((appendHi _ _ (by decide)).trans BitVec.extractLsb'_eq_self))
  have e1 : (y ++ n ++ 256#9 ++ c).extractLsb' 15 2 = n := (appendHi _ _ (by decide)).trans ((appendHi _ _ (by decide)).trans ((appendLo _ _ (by decide)).trans BitVec.extractLsb'_eq_self))
  have e2 : (y ++ n ++ 256#9 ++ c).extractLsb' 0 6 = c := (appendLo _ _ (by decide)).trans BitVec.extractLsb'_eq_self
  have x0 : (y ++ n ++ 256#9 ++ c).extractLsb' 6 9 = 256#9 := (appendHi _ _ (by decide)).trans ((appendLo _ _ (by decide)).trans (BitVec.extractLsb'_eq_self))
  have c0 : ¬ (y ++ n ++ 256#9 ++ c) &&& 0x0703F#18 = 0x00000#18 := fun h =>
    absurd ((congrArg (· &&& BitVec.extractLsb' 6 9 0x0703F#18) x0).symm.trans
      ((BitVec.extractLsb'_and).symm.trans (congrArg (BitVec.extractLsb' 6 9) h))) (by decide)
  have c1 : (y ++ n ++ 256#9 ++ c) &&& 0x07FC0#18 = 0x04000#18 := andAppend (andAppend (andAppend (BitVec.and_zero : y &&& 0#1 = 0#1) (BitVec.and_zero : n &&& 0#2 = 0#2)) (by decide : (256#9) &&& 511#9 = 256#9)) (BitVec.and_zero : c &&& 0#6 = 0#6)
  refine (if_neg c0).trans ((if_pos c1).trans ?_)
  exact congrArg some ((Instr.emsN.injEq ..).mpr ⟨rfl, e0, e1, e2⟩)

theorem Decoding.cpy (hd : Hdr) (e : BitVec 4) (a : BitVec 6) : Decoding.Statement (.cpy hd e a) := by
  intro _ _
  have e0 : (e ++ 0#2 ++ a ++ 0#6).extractLsb' 14 4 = e := (appendHi _ _ (by decide)).trans ((appendHi _ _ (by decide)).trans ((appendHi _ _ (by decide)).trans BitVec.extractLsb'_eq_self))
  have e1 : (e ++ 0#2 ++ a ++ 0#6).extractLsb' 6 6 = a := (appendHi _ _ (by decide)).trans ((appendLo _ _ (by decide)).trans BitVec.extractLsb'_eq_self)
  have c0 : (e ++ 0#2 ++ a ++ 0#6) &&& 0x0303F#18 = 0x00000#18 := andAppend (andAppend (andAppend (BitVec.and_zero : e &&& 0#4 = 0#4) (by decide : (0#2) &&& 3#2 = 0#2)) (BitVec.and_zero : a &&& 0#6 = 0#6)) (by decide : (0#6) &&& 63#6 = 0#6)
  refine (if_pos c0).trans ?_
  exact congrArg some ((Instr.cpy.injEq ..).mpr ⟨rfl, e0, e1⟩)

theorem Decoding.cpyr (hd : Hdr) (e : BitVec 4) (a : BitVec 6) : Decoding.Statement (.cpyr hd e a) := by
  intro _ _
  have e0 : (e ++ 0#2 ++ a ++ 0#6).extractLsb' 14 4 = e := (appendHi _ _ (by decide)).trans ((appendHi _ _ (by decide)).trans ((appendHi _ _ (by decide)).trans BitVec.extractLsb'_eq_self))
  have e1 : (e ++ 0#2 ++ a ++ 0#6).extractLsb' 6 6 = a := (appendHi _ _ (by decide)).trans ((appendLo _ _ (by decide)).trans BitVec.extractLsb'_eq_self)
  have c0 : (e ++ 0#2 ++ a ++ 0#6) &&& 0x0303F#18 = 0x00000#18 := andAppend (andAppend (andAppend (BitVec.and_zero : e &&& 0#4 = 0#4) (by decide : (0#2) &&& 3#2 = 0#2)) (BitVec.and_zero : a &&& 0#6 = 0#6)) (by decide : (0#6) &&& 63#6 = 0#6)
  refine (if_pos c0).trans ?_
  exact congrArg some ((Instr.cpyr.injEq ..).mpr ⟨rfl, e0, e1⟩)

theorem Decoding.coll (hd : Hdr) (e : BitVec 4) (a : BitVec 6) : Decoding.Statement (.coll hd e a) := by
  intro _ _
  have e0 : (e ++ 0#2 ++ a ++ 0#6).extractLsb' 14 4 = e := (appendHi _ _ (by decide)).trans ((appendHi _ _ (by decide)).trans ((appendHi _ _ (by decide)).trans BitVec.extractLsb'_eq_self))
  have e1 : (e ++ 0#2 ++ a ++ 0#6).extractLsb' 6 6 = a := (appendHi _ _ (by decide)).trans ((appendLo _ _ (by decide)).trans BitVec.extractLsb'_eq_self)
  have c0 : (e ++ 0#2 ++ a ++ 0#6) &&& 0x0303F#18 = 0x00000#18 := andAppend (andAppend (andAppend (BitVec.and_zero : e &&& 0#4 = 0#4) (by decide : (0#2) &&& 3#2 = 0#2)) (BitVec.and_zero : a &&& 0#6 = 0#6)) (by decide : (0#6) &&& 63#6 = 0#6)
  refine (if_pos c0).trans ?_
  exact congrArg some ((Instr.coll.injEq ..).mpr ⟨rfl, e0, e1⟩)

theorem Decoding.abrt (hd : Hdr) (d : BitVec 6) (a : BitVec 6) : Decoding.Statement (.abrt hd d a) := by
  intro _ _
  have e0 : (d ++ a ++ 0#6).extractLsb' 12 6 = d := (appendHi _ _ (by decide)).trans ((appendHi _ _ (by decide)).trans BitVec.extractLsb'_eq_self)
  have e1 : (d ++ a ++ 0#6).extractLsb' 6 6 = a := (appendHi _ _ (by decide)).trans ((appendLo _ _ (by decide)).trans BitVec.extractLsb'_eq_self)
  have c0 : (d ++ a ++ 0#6) &&& 0x0003F#18 = 0x00000#18 := andAppend (andAppend (BitVec.and_zero : d &&& 0#6 = 0#6) (BitVec.and_zero : a &&& 0#6 = 0#6)) (by decide : (0#6) &&& 63#6 = 0#6)
  refine (if_pos c0).trans ?_
  exact congrArg some ((Instr.abrt.injEq ..).mpr ⟨rfl, e0, e1⟩)

theorem Decoding.arm (hd : Hdr) (e : BitVec 4) (a : BitVec 6) (b : BitVec 6) : Decoding.Statement (.arm hd e a b) := by
  intro _ _
  have e0 : (e ++ 0#2 ++ a ++ b).extractLsb' 14 4 = e := (appendHi _ _ (by decide)).trans ((appendHi _ _ (by decide)).trans ((appendHi _ _ (by decide)).trans BitVec.extractLsb'_eq_self))
  have e1 : (e ++ 0#2 ++ a ++ b).extractLsb' 6 6 = a := (appendHi _ _ (by decide)).trans ((appendLo _ _ (by decide)).trans BitVec.extractLsb'_eq_self)
  have e2 : (e ++ 0#2 ++ a ++ b).extractLsb' 0 6 = b := (appendLo _ _ (by decide)).trans BitVec.extractLsb'_eq_self
  have c0 : (e ++ 0#2 ++ a ++ b) &&& 0x03000#18 = 0x00000#18 := andAppend (andAppend (andAppend (BitVec.and_zero : e &&& 0#4 = 0#4) (by decide : (0#2) &&& 3#2 = 0#2)) (BitVec.and_zero : a &&& 0#6 = 0#6)) (BitVec.and_zero : b &&& 0#6 = 0#6)
  refine (if_pos c0).trans ?_
  exact congrArg some ((Instr.arm.injEq ..).mpr ⟨rfl, e0, e1, e2⟩)

theorem Decoding.pub (hd : Hdr) (e : BitVec 4) (a : BitVec 6) (b : BitVec 6) : Decoding.Statement (.pub hd e a b) := by
  intro _ _
  have e0 : (e ++ 0#2 ++ a ++ b).extractLsb' 14 4 = e := (appendHi _ _ (by decide)).trans ((appendHi _ _ (by decide)).trans ((appendHi _ _ (by decide)).trans BitVec.extractLsb'_eq_self))
  have e1 : (e ++ 0#2 ++ a ++ b).extractLsb' 6 6 = a := (appendHi _ _ (by decide)).trans ((appendLo _ _ (by decide)).trans BitVec.extractLsb'_eq_self)
  have e2 : (e ++ 0#2 ++ a ++ b).extractLsb' 0 6 = b := (appendLo _ _ (by decide)).trans BitVec.extractLsb'_eq_self
  have c0 : (e ++ 0#2 ++ a ++ b) &&& 0x03000#18 = 0x00000#18 := andAppend (andAppend (andAppend (BitVec.and_zero : e &&& 0#4 = 0#4) (by decide : (0#2) &&& 3#2 = 0#2)) (BitVec.and_zero : a &&& 0#6 = 0#6)) (BitVec.and_zero : b &&& 0#6 = 0#6)
  refine (if_pos c0).trans ?_
  exact congrArg some ((Instr.pub.injEq ..).mpr ⟨rfl, e0, e1, e2⟩)

theorem Decoding.rpsnd (hd : Hdr) (j : BitVec 6) (a : BitVec 6) (b : BitVec 6) : Decoding.Statement (.rpsnd hd j a b) := by
  intro _ _
  have e0 : (j ++ a ++ b).extractLsb' 12 6 = j := (appendHi _ _ (by decide)).trans ((appendHi _ _ (by decide)).trans BitVec.extractLsb'_eq_self)
  have e1 : (j ++ a ++ b).extractLsb' 6 6 = a := (appendHi _ _ (by decide)).trans ((appendLo _ _ (by decide)).trans BitVec.extractLsb'_eq_self)
  have e2 : (j ++ a ++ b).extractLsb' 0 6 = b := (appendLo _ _ (by decide)).trans BitVec.extractLsb'_eq_self
  exact congrArg some ((Instr.rpsnd.injEq ..).mpr ⟨rfl, e0, e1, e2⟩)

theorem Decoding.rprcv (hd : Hdr) (d : BitVec 6) (a : BitVec 6) (b : BitVec 6) : Decoding.Statement (.rprcv hd d a b) := by
  intro _ _
  have e0 : (d ++ a ++ b).extractLsb' 12 6 = d := (appendHi _ _ (by decide)).trans ((appendHi _ _ (by decide)).trans BitVec.extractLsb'_eq_self)
  have e1 : (d ++ a ++ b).extractLsb' 6 6 = a := (appendHi _ _ (by decide)).trans ((appendLo _ _ (by decide)).trans BitVec.extractLsb'_eq_self)
  have e2 : (d ++ a ++ b).extractLsb' 0 6 = b := (appendLo _ _ (by decide)).trans BitVec.extractLsb'_eq_self
  exact congrArg some ((Instr.rprcv.injEq ..).mpr ⟨rfl, e0, e1, e2⟩)

theorem Decoding.est (hd : Hdr) (d : BitVec 6) (e : BitVec 4) (t : BitVec 5) : Decoding.Statement (.est hd d e t) := by
  intro _ _
  have e0 : (d ++ e ++ 0#3 ++ t).extractLsb' 12 6 = d := (appendHi _ _ (by decide)).trans ((appendHi _ _ (by decide)).trans ((appendHi _ _ (by decide)).trans BitVec.extractLsb'_eq_self))
  have e1 : (d ++ e ++ 0#3 ++ t).extractLsb' 8 4 = e := (appendHi _ _ (by decide)).trans ((appendHi _ _ (by decide)).trans ((appendLo _ _ (by decide)).trans BitVec.extractLsb'_eq_self))
  have e2 : (d ++ e ++ 0#3 ++ t).extractLsb' 0 5 = t := (appendLo _ _ (by decide)).trans BitVec.extractLsb'_eq_self
  have c0 : (d ++ e ++ 0#3 ++ t) &&& 0x000E0#18 = 0x00000#18 := andAppend (andAppend (andAppend (BitVec.and_zero : d &&& 0#6 = 0#6) (BitVec.and_zero : e &&& 0#4 = 0#4)) (by decide : (0#3) &&& 7#3 = 0#3)) (BitVec.and_zero : t &&& 0#5 = 0#5)
  refine (if_pos c0).trans ?_
  exact congrArg some ((Instr.est.injEq ..).mpr ⟨rfl, e0, e1, e2⟩)

theorem Decoding.srrd (hd : Hdr) (d : BitVec 6) (r : BitVec 10) : Decoding.Statement (.srrd hd d r) := by
  intro _ _
  have e0 : (d ++ r ++ 0#2).extractLsb' 12 6 = d := (appendHi _ _ (by decide)).trans ((appendHi _ _ (by decide)).trans BitVec.extractLsb'_eq_self)
  have e1 : (d ++ r ++ 0#2).extractLsb' 2 10 = r := (appendHi _ _ (by decide)).trans ((appendLo _ _ (by decide)).trans BitVec.extractLsb'_eq_self)
  have c0 : (d ++ r ++ 0#2) &&& 0x00003#18 = 0x00000#18 := andAppend (andAppend (BitVec.and_zero : d &&& 0#6 = 0#6) (BitVec.and_zero : r &&& 0#10 = 0#10)) (by decide : (0#2) &&& 3#2 = 0#2)
  refine (if_pos c0).trans ?_
  exact congrArg some ((Instr.srrd.injEq ..).mpr ⟨rfl, e0, e1⟩)

theorem Decoding.srwr (hd : Hdr) (r : BitVec 10) (a : BitVec 6) : Decoding.Statement (.srwr hd r a) := by
  intro _ _
  have e0 : (r ++ a ++ 0#2).extractLsb' 8 10 = r := (appendHi _ _ (by decide)).trans ((appendHi _ _ (by decide)).trans BitVec.extractLsb'_eq_self)
  have e1 : (r ++ a ++ 0#2).extractLsb' 2 6 = a := (appendHi _ _ (by decide)).trans ((appendLo _ _ (by decide)).trans BitVec.extractLsb'_eq_self)
  have c0 : (r ++ a ++ 0#2) &&& 0x00003#18 = 0x00000#18 := andAppend (andAppend (BitVec.and_zero : r &&& 0#10 = 0#10) (BitVec.and_zero : a &&& 0#6 = 0#6)) (by decide : (0#2) &&& 3#2 = 0#2)
  refine (if_pos c0).trans ?_
  exact congrArg some ((Instr.srwr.injEq ..).mpr ⟨rfl, e0, e1⟩)

theorem Decoding.eret (hd : Hdr) : Decoding.Statement (.eret hd) := by
  intro _ _
  have c0 : (0#18) &&& 0x3FFFF#18 = 0x00000#18 := (by decide : (0#18) &&& 262143#18 = 0#18)
  refine (if_pos c0).trans ?_
  exact rfl

theorem Decoding.eretS (hd : Hdr) : Decoding.Statement (.eretS hd) := by
  intro _ _
  have c0 : ¬ (1#18) &&& 0x3FFFF#18 = 0x00000#18 := fun h =>
    absurd ((((by decide : (1#18) &&& 262143#18 = 1#18) : (1#18) &&& 0x3FFFF#18 = 1#18)).symm.trans h) (by decide)
  have c1 : (1#18) &&& 0x3FFFF#18 = 0x00001#18 := (by decide : (1#18) &&& 262143#18 = 1#18)
  refine (if_neg c0).trans ((if_pos c1).trans ?_)
  exact rfl

theorem Decoding.icinv (hd : Hdr) (c : BitVec 2) (a : BitVec 6) (b : BitVec 6) : Decoding.Statement (.icinv hd c a b) := by
  intro _ _
  have e0 : (0#4 ++ c ++ a ++ b).extractLsb' 12 2 = c := (appendHi _ _ (by decide)).trans ((appendHi _ _ (by decide)).trans ((appendLo _ _ (by decide)).trans BitVec.extractLsb'_eq_self))
  have e1 : (0#4 ++ c ++ a ++ b).extractLsb' 6 6 = a := (appendHi _ _ (by decide)).trans ((appendLo _ _ (by decide)).trans BitVec.extractLsb'_eq_self)
  have e2 : (0#4 ++ c ++ a ++ b).extractLsb' 0 6 = b := (appendLo _ _ (by decide)).trans BitVec.extractLsb'_eq_self
  have c0 : (0#4 ++ c ++ a ++ b) &&& 0x3C000#18 = 0x00000#18 := andAppend (andAppend (andAppend (by decide : (0#4) &&& 15#4 = 0#4) (BitVec.and_zero : c &&& 0#2 = 0#2)) (BitVec.and_zero : a &&& 0#6 = 0#6)) (BitVec.and_zero : b &&& 0#6 = 0#6)
  refine (if_pos c0).trans ?_
  exact congrArg some ((Instr.icinv.injEq ..).mpr ⟨rfl, e0, e1, e2⟩)

theorem Decoding.eqrd (hd : Hdr) (d : BitVec 6) (e : BitVec 4) (a : BitVec 6) : Decoding.Statement (.eqrd hd d e a) := by
  intro _ _
  have e0 : (d ++ e ++ a ++ 0#2).extractLsb' 12 6 = d := (appendHi _ _ (by decide)).trans ((appendHi _ _ (by decide)).trans ((appendHi _ _ (by decide)).trans BitVec.extractLsb'_eq_self))
  have e1 : (d ++ e ++ a ++ 0#2).extractLsb' 8 4 = e := (appendHi _ _ (by decide)).trans ((appendHi _ _ (by decide)).trans ((appendLo _ _ (by decide)).trans BitVec.extractLsb'_eq_self))
  have e2 : (d ++ e ++ a ++ 0#2).extractLsb' 2 6 = a := (appendHi _ _ (by decide)).trans ((appendLo _ _ (by decide)).trans BitVec.extractLsb'_eq_self)
  have c0 : (d ++ e ++ a ++ 0#2) &&& 0x00003#18 = 0x00000#18 := andAppend (andAppend (andAppend (BitVec.and_zero : d &&& 0#6 = 0#6) (BitVec.and_zero : e &&& 0#4 = 0#4)) (BitVec.and_zero : a &&& 0#6 = 0#6)) (by decide : (0#2) &&& 3#2 = 0#2)
  refine (if_pos c0).trans ?_
  exact congrArg some ((Instr.eqrd.injEq ..).mpr ⟨rfl, e0, e1, e2⟩)

theorem Decoding.eqwr (hd : Hdr) (e : BitVec 4) (a : BitVec 6) (b : BitVec 6) : Decoding.Statement (.eqwr hd e a b) := by
  intro _ _
  have e0 : (e ++ 0#2 ++ a ++ b).extractLsb' 14 4 = e := (appendHi _ _ (by decide)).trans ((appendHi _ _ (by decide)).trans ((appendHi _ _ (by decide)).trans BitVec.extractLsb'_eq_self))
  have e1 : (e ++ 0#2 ++ a ++ b).extractLsb' 6 6 = a := (appendHi _ _ (by decide)).trans ((appendLo _ _ (by decide)).trans BitVec.extractLsb'_eq_self)
  have e2 : (e ++ 0#2 ++ a ++ b).extractLsb' 0 6 = b := (appendLo _ _ (by decide)).trans BitVec.extractLsb'_eq_self
  have c0 : (e ++ 0#2 ++ a ++ b) &&& 0x03000#18 = 0x00000#18 := andAppend (andAppend (andAppend (BitVec.and_zero : e &&& 0#4 = 0#4) (by decide : (0#2) &&& 3#2 = 0#2)) (BitVec.and_zero : a &&& 0#6 = 0#6)) (BitVec.and_zero : b &&& 0#6 = 0#6)
  refine (if_pos c0).trans ?_
  exact congrArg some ((Instr.eqwr.injEq ..).mpr ⟨rfl, e0, e1, e2⟩)

theorem Decoding.btinv (hd : Hdr) : Decoding.Statement (.btinv hd) := by
  intro _ _
  have c0 : (0#18) &&& 0x3FFFF#18 = 0x00000#18 := (by decide : (0#18) &&& 262143#18 = 0#18)
  refine (if_pos c0).trans ?_
  exact rfl

theorem Decoding.tlbinv (hd : Hdr) (a : BitVec 6) (b : BitVec 6) : Decoding.Statement (.tlbinv hd a b) := by
  intro _ _
  have e0 : (0#6 ++ a ++ b).extractLsb' 6 6 = a := (appendHi _ _ (by decide)).trans ((appendLo _ _ (by decide)).trans BitVec.extractLsb'_eq_self)
  have e1 : (0#6 ++ a ++ b).extractLsb' 0 6 = b := (appendLo _ _ (by decide)).trans BitVec.extractLsb'_eq_self
  have c0 : (0#6 ++ a ++ b) &&& 0x3F000#18 = 0x00000#18 := andAppend (andAppend (by decide : (0#6) &&& 63#6 = 0#6) (BitVec.and_zero : a &&& 0#6 = 0#6)) (BitVec.and_zero : b &&& 0#6 = 0#6)
  refine (if_pos c0).trans ?_
  exact congrArg some ((Instr.tlbinv.injEq ..).mpr ⟨rfl, e0, e1⟩)

theorem Decoding.imm (val : BitVec 20) : Decoding.Statement (.imm val) := fun _ h => absurd rfl h

theorem Decoding.bundleIssue : Decoding.Statement .bundleIssue := fun h => absurd rfl h

theorem Decoding.runOverrun : Decoding.Statement .runOverrun := fun h => absurd rfl h

theorem Decoding.molcExpiry : Decoding.Statement .molcExpiry := fun h => absurd rfl h

theorem Decoding.resultLanding : Decoding.Statement .resultLanding := fun h => absurd rfl h

theorem Decoding.remoteCompletion (c : Completion) : Decoding.Statement (.remoteCompletion c) := fun h => absurd rfl h

theorem Decoding.dispatch (core : Nat) : Decoding.Statement (.dispatch core) := fun h => absurd rfl h

theorem Decoding.gangDispatch (recPa : Nat) : Decoding.Statement (.gangDispatch recPa) := fun h => absurd rfl h

theorem Decoding.suspendedWaitSatisfied (recPa : Nat) : Decoding.Statement (.suspendedWaitSatisfied recPa) := fun h => absurd rfl h

theorem Decoding.gangSyncRelease (core : Nat) : Decoding.Statement (.gangSyncRelease core) := fun h => absurd rfl h

theorem Decoding.exitDrainComplete (core : Nat) : Decoding.Statement (.exitDrainComplete core) := fun h => absurd rfl h

theorem Decoding.retirementDecrement (recPa : Nat) : Decoding.Statement (.retirementDecrement recPa) := fun h => absurd rfl h

theorem Decoding.spawnRecordWrite (p : SpawnOp) : Decoding.Statement (.spawnRecordWrite p) := fun h => absurd rfl h

theorem Decoding.tokenedOperationComplete (c : Completion) : Decoding.Statement (.tokenedOperationComplete c) := fun h => absurd rfl h

theorem Decoding.entryRipens (r : Ripe) : Decoding.Statement (.entryRipens r) := fun h => absurd rfl h

theorem Decoding.memoryPortAccess (a : Access) : Decoding.Statement (.memoryPortAccess a) := fun h => absurd rfl h

theorem Decoding.pageWalk (tenant : Nat) (tier : Nat) (va : Nat) : Decoding.Statement (.pageWalk tenant tier va) := fun h => absurd rfl h

theorem Decoding.pageZeroing (tenant : Nat) (tier : Nat) (va : Nat) : Decoding.Statement (.pageZeroing tenant tier va) := fun h => absurd rfl h

theorem Decoding.atomicPerform (a : Access) : Decoding.Statement (.atomicPerform a) := fun h => absurd rfl h

theorem Decoding.batchPerform (a : Access) : Decoding.Statement (.batchPerform a) := fun h => absurd rfl h

theorem Decoding.streamElementFetch (core : Nat) (q : Nat) : Decoding.Statement (.streamElementFetch core q) := fun h => absurd rfl h

theorem Decoding.selfRefreshEnter (stack : Nat) : Decoding.Statement (.selfRefreshEnter stack) := fun h => absurd rfl h

theorem Decoding.selfRefreshExit (stack : Nat) : Decoding.Statement (.selfRefreshExit stack) := fun h => absurd rfl h

theorem Decoding.rowBackOff (stack : Nat) : Decoding.Statement (.rowBackOff stack) := fun h => absurd rfl h

theorem Decoding.peerAccess (p : PeerReq) : Decoding.Statement (.peerAccess p) := fun h => absurd rfl h

theorem Decoding.peerResponse (p : PeerResp) : Decoding.Statement (.peerResponse p) := fun h => absurd rfl h

theorem Decoding.retryLimit (p : LostPacket) : Decoding.Statement (.retryLimit p) := fun h => absurd rfl h

theorem Decoding.copyPerform (eng : Nat) : Decoding.Statement (.copyPerform eng) := fun h => absurd rfl h

theorem Decoding.reduceCopyPerform (eng : Nat) : Decoding.Statement (.reduceCopyPerform eng) := fun h => absurd rfl h

theorem Decoding.publishPerform (eng : Nat) : Decoding.Statement (.publishPerform eng) := fun h => absurd rfl h

theorem Decoding.triggerMet (eng : Nat) : Decoding.Statement (.triggerMet eng) := fun h => absurd rfl h

theorem Decoding.sourceFree (eng : Nat) : Decoding.Statement (.sourceFree eng) := fun h => absurd rfl h

theorem Decoding.delivered (eng : Nat) : Decoding.Statement (.delivered eng) := fun h => absurd rfl h

theorem Decoding.collectiveRun (eng : Nat) : Decoding.Statement (.collectiveRun eng) := fun h => absurd rfl h

theorem Decoding.collectiveStep (p : RingPacket) : Decoding.Statement (.collectiveStep p) := fun h => absurd rfl h

theorem Decoding.commit (m : CollMsg) : Decoding.Statement (.commit m) := fun h => absurd rfl h

theorem Decoding.abortRequest (m : CollMsg) : Decoding.Statement (.abortRequest m) := fun h => absurd rfl h

theorem Decoding.abortDecision (m : CollMsg) : Decoding.Statement (.abortDecision m) := fun h => absurd rfl h

theorem Decoding.mismatchNotice (m : CollMsg) : Decoding.Statement (.mismatchNotice m) := fun h => absurd rfl h

theorem Decoding.announcement (m : ChainMsg) : Decoding.Statement (.announcement m) := fun h => absurd rfl h

theorem Decoding.hopArrival (m : ChainMsg) : Decoding.Statement (.hopArrival m) := fun h => absurd rfl h

theorem Decoding.acknowledgement (m : ChainMsg) : Decoding.Statement (.acknowledgement m) := fun h => absurd rfl h

theorem Decoding.contributionApply (core : Nat) : Decoding.Statement (.contributionApply core) := fun h => absurd rfl h

theorem Decoding.chainClose (core : Nat) : Decoding.Statement (.chainClose core) := fun h => absurd rfl h

theorem Decoding.linkSnapshot (core : Nat) : Decoding.Statement (.linkSnapshot core) := fun h => absurd rfl h

theorem Decoding.startingValueLoad (core : Nat) : Decoding.Statement (.startingValueLoad core) := fun h => absurd rfl h

theorem Decoding.startingValueZero (core : Nat) : Decoding.Statement (.startingValueZero core) := fun h => absurd rfl h

theorem Decoding.arbiterRequest (r : ArbReq) : Decoding.Statement (.arbiterRequest r) := fun h => absurd rfl h

theorem Decoding.chainFreezeMessage (m : ChainMsg) : Decoding.Statement (.chainFreezeMessage m) := fun h => absurd rfl h

theorem Decoding.chainCancelMessage (m : ChainMsg) : Decoding.Statement (.chainCancelMessage m) := fun h => absurd rfl h

theorem Decoding.routerTakesContribution (c : Contribution) : Decoding.Statement (.routerTakesContribution c) := fun h => absurd rfl h

theorem Decoding.reductionPacket (p : TreePacket) : Decoding.Statement (.reductionPacket p) := fun h => absurd rfl h

theorem Decoding.treeTimeout (tid : Nat) (node : Nat) (round : Nat) : Decoding.Statement (.treeTimeout tid node round) := fun h => absurd rfl h

theorem Decoding.roundResultReceive (r : Receive) : Decoding.Statement (.roundResultReceive r) := fun h => absurd rfl h

theorem Decoding.checkValueFailure (w : BadPlace) : Decoding.Statement (.checkValueFailure w) := fun h => absurd rfl h

theorem Decoding.cancelStop (core : Nat) : Decoding.Statement (.cancelStop core) := fun h => absurd rfl h

theorem Decoding.submit : Decoding.Statement .submit := fun h => absurd rfl h

theorem Decoding.cancel : Decoding.Statement .cancel := fun h => absurd rfl h

theorem Decoding.responseWrite : Decoding.Statement .responseWrite := fun h => absurd rfl h

theorem Decoding.sqsize (v : Word) : Decoding.Statement (.sqsize v) := fun h => absurd rfl h

theorem Decoding.hostRegisterWrite (off : Nat) (v : Word) : Decoding.Statement (.hostRegisterWrite off v) := fun h => absurd rfl h

theorem Decoding.prq (v : Word) : Decoding.Statement (.prq v) := fun h => absurd rfl h

theorem Decoding.resume (v : Word) : Decoding.Statement (.resume v) := fun h => absurd rfl h

theorem Decoding.lcancel (v : Word) : Decoding.Statement (.lcancel v) := fun h => absurd rfl h

theorem Decoding.attreq (v : Word) : Decoding.Statement (.attreq v) := fun h => absurd rfl h

theorem Decoding.onlimirWrite (addr : Nat) (data : List Byte) : Decoding.Statement (.onlimirWrite addr data) := fun h => absurd rfl h

theorem Decoding.slotTableFrameStart (die : Nat) : Decoding.Statement (.slotTableFrameStart die) := fun h => absurd rfl h

theorem Decoding.coreRetire (core : Nat) : Decoding.Statement (.coreRetire core) := fun h => absurd rfl h

theorem Decoding.channelRetireHold (stack : Nat) (chan : Nat) : Decoding.Statement (.channelRetireHold stack chan) := fun h => absurd rfl h

theorem Decoding.channelMigration (stack : Nat) (chan : Nat) : Decoding.Statement (.channelMigration stack chan) := fun h => absurd rfl h

theorem Decoding.reset : Decoding.Statement .reset := fun h => absurd rfl h

theorem Decoding.firmwareSignatureVerify (ok : Bool) : Decoding.Statement (.firmwareSignatureVerify ok) := fun h => absurd rfl h

theorem Decoding.selfCalibration (ok : Bool) : Decoding.Statement (.selfCalibration ok) := fun h => absurd rfl h

theorem Decoding.memoryInitialisation (ok : Bool) : Decoding.Statement (.memoryInitialisation ok) := fun h => absurd rfl h

theorem Decoding.hbmZeroing (ok : Bool) : Decoding.Statement (.hbmZeroing ok) := fun h => absurd rfl h

theorem Decoding.schedulerClear : Decoding.Statement .schedulerClear := fun h => absurd rfl h

theorem Decoding.lpRegionZeroed : Decoding.Statement .lpRegionZeroed := fun h => absurd rfl h

theorem Decoding.lpTierZeroingComplete : Decoding.Statement .lpTierZeroingComplete := fun h => absurd rfl h

theorem Decoding.fatalError (code : Nat) : Decoding.Statement (.fatalError code) := fun h => absurd rfl h

theorem Decoding.dump : Decoding.Statement .dump := fun h => absurd rfl h

theorem Decoding.pnowApproachingCap (pnow : BitVec 16) : Decoding.Statement (.pnowApproachingCap pnow) := fun h => absurd rfl h

theorem Decoding.thermalStall (core : Nat) : Decoding.Statement (.thermalStall core) := fun h => absurd rfl h

end Sys2Proof.Laws
end

