-- ==== Sys2Proof/Laws/State.lean ====
section
/-!
SUPPORT. What each update of the state leaves as it was and what it sets, one lemma per field, so that
no later proof unfolds a record update.
-/
namespace Sys2Proof.Machine

/-! ### The focused core -/

@[simp] theorem State.setRegs_parked (s : State) (g : Regs) : (s.setRegs g).parked = s.parked := rfl
@[simp] theorem State.setRegs_mem (s : State) (g : Regs) : (s.setRegs g).mem = s.mem := rfl
@[simp] theorem State.setRegs_sched (s : State) (g : Regs) : (s.setRegs g).sched = s.sched := rfl
@[simp] theorem State.setRegs_units (s : State) (g : Regs) : (s.setRegs g).units = s.units := rfl
@[simp] theorem State.setRegs_host (s : State) (g : Regs) : (s.setRegs g).host = s.host := rfl
@[simp] theorem State.setRegs_slots (s : State) (g : Regs) : (s.setRegs g).slots = s.slots := rfl
@[simp] theorem State.setRegs_measured (s : State) (g : Regs) : (s.setRegs g).measured = s.measured := rfl
@[simp] theorem State.setRegs_devKey (s : State) (g : Regs) : (s.setRegs g).devKey = s.devKey := rfl
@[simp] theorem State.setRegs_devnum (s : State) (g : Regs) : (s.setRegs g).devnum = s.devnum := rfl
@[simp] theorem State.setRegs_peers (s : State) (g : Regs) : (s.setRegs g).peers = s.peers := rfl
@[simp] theorem State.setRegs_agenda (s : State) (g : Regs) : (s.setRegs g).agenda = s.agenda := rfl
@[simp] theorem State.setRegs_inputs (s : State) (g : Regs) : (s.setRegs g).inputs = s.inputs := rfl
@[simp] theorem State.setRegs_outbox (s : State) (g : Regs) : (s.setRegs g).outbox = s.outbox := rfl
@[simp] theorem State.setRegs_tick (s : State) (g : Regs) : (s.setRegs g).tick = s.tick := rfl
@[simp] theorem State.setRegs_nextId (s : State) (g : Regs) : (s.setRegs g).nextId = s.nextId := rfl
@[simp] theorem State.setRegs_core_id (s : State) (g : Regs) : (s.setRegs g).core.id = s.core.id := rfl
@[simp] theorem State.setRegs_core_phase (s : State) (g : Regs) : (s.setRegs g).core.phase = s.core.phase := rfl
@[simp] theorem State.setRegs_core_acct (s : State) (g : Regs) : (s.setRegs g).core.acct = s.core.acct := rfl
@[simp] theorem State.setRegs_core_cont (s : State) (g : Regs) : (s.setRegs g).core.cont = s.core.cont := rfl
@[simp] theorem State.setRegs_core_regs (s : State) (g : Regs) : (s.setRegs g).core.regs = g := rfl
@[simp] theorem State.setRegs_core_sys (s : State) (g : Regs) : (s.setRegs g).core.sys = s.core.sys := rfl
@[simp] theorem State.setRegs_core_pipe (s : State) (g : Regs) : (s.setRegs g).core.pipe = s.core.pipe := rfl
@[simp] theorem State.setRegs_core_store (s : State) (g : Regs) : (s.setRegs g).core.store = s.core.store := rfl
@[simp] theorem State.setPipe_parked (s : State) (p : Pipe) : (s.setPipe p).parked = s.parked := rfl
@[simp] theorem State.setPipe_mem (s : State) (p : Pipe) : (s.setPipe p).mem = s.mem := rfl
@[simp] theorem State.setPipe_sched (s : State) (p : Pipe) : (s.setPipe p).sched = s.sched := rfl
@[simp] theorem State.setPipe_units (s : State) (p : Pipe) : (s.setPipe p).units = s.units := rfl
@[simp] theorem State.setPipe_host (s : State) (p : Pipe) : (s.setPipe p).host = s.host := rfl
@[simp] theorem State.setPipe_slots (s : State) (p : Pipe) : (s.setPipe p).slots = s.slots := rfl
@[simp] theorem State.setPipe_measured (s : State) (p : Pipe) : (s.setPipe p).measured = s.measured := rfl
@[simp] theorem State.setPipe_devKey (s : State) (p : Pipe) : (s.setPipe p).devKey = s.devKey := rfl
@[simp] theorem State.setPipe_devnum (s : State) (p : Pipe) : (s.setPipe p).devnum = s.devnum := rfl
@[simp] theorem State.setPipe_peers (s : State) (p : Pipe) : (s.setPipe p).peers = s.peers := rfl
@[simp] theorem State.setPipe_agenda (s : State) (p : Pipe) : (s.setPipe p).agenda = s.agenda := rfl
@[simp] theorem State.setPipe_inputs (s : State) (p : Pipe) : (s.setPipe p).inputs = s.inputs := rfl
@[simp] theorem State.setPipe_outbox (s : State) (p : Pipe) : (s.setPipe p).outbox = s.outbox := rfl
@[simp] theorem State.setPipe_tick (s : State) (p : Pipe) : (s.setPipe p).tick = s.tick := rfl
@[simp] theorem State.setPipe_nextId (s : State) (p : Pipe) : (s.setPipe p).nextId = s.nextId := rfl
@[simp] theorem State.setPipe_core_id (s : State) (p : Pipe) : (s.setPipe p).core.id = s.core.id := rfl
@[simp] theorem State.setPipe_core_phase (s : State) (p : Pipe) : (s.setPipe p).core.phase = s.core.phase := rfl
@[simp] theorem State.setPipe_core_acct (s : State) (p : Pipe) : (s.setPipe p).core.acct = s.core.acct := rfl
@[simp] theorem State.setPipe_core_cont (s : State) (p : Pipe) : (s.setPipe p).core.cont = s.core.cont := rfl
@[simp] theorem State.setPipe_core_regs (s : State) (p : Pipe) : (s.setPipe p).core.regs = s.core.regs := rfl
@[simp] theorem State.setPipe_core_sys (s : State) (p : Pipe) : (s.setPipe p).core.sys = s.core.sys := rfl
@[simp] theorem State.setPipe_core_pipe (s : State) (p : Pipe) : (s.setPipe p).core.pipe = p := rfl
@[simp] theorem State.setPipe_core_store (s : State) (p : Pipe) : (s.setPipe p).core.store = s.core.store := rfl
@[simp] theorem State.setSys_parked (s : State) (y : Sys) : (s.setSys y).parked = s.parked := rfl
@[simp] theorem State.setSys_mem (s : State) (y : Sys) : (s.setSys y).mem = s.mem := rfl
@[simp] theorem State.setSys_sched (s : State) (y : Sys) : (s.setSys y).sched = s.sched := rfl
@[simp] theorem State.setSys_units (s : State) (y : Sys) : (s.setSys y).units = s.units := rfl
@[simp] theorem State.setSys_host (s : State) (y : Sys) : (s.setSys y).host = s.host := rfl
@[simp] theorem State.setSys_slots (s : State) (y : Sys) : (s.setSys y).slots = s.slots := rfl
@[simp] theorem State.setSys_measured (s : State) (y : Sys) : (s.setSys y).measured = s.measured := rfl
@[simp] theorem State.setSys_devKey (s : State) (y : Sys) : (s.setSys y).devKey = s.devKey := rfl
@[simp] theorem State.setSys_devnum (s : State) (y : Sys) : (s.setSys y).devnum = s.devnum := rfl
@[simp] theorem State.setSys_peers (s : State) (y : Sys) : (s.setSys y).peers = s.peers := rfl
@[simp] theorem State.setSys_agenda (s : State) (y : Sys) : (s.setSys y).agenda = s.agenda := rfl
@[simp] theorem State.setSys_inputs (s : State) (y : Sys) : (s.setSys y).inputs = s.inputs := rfl
@[simp] theorem State.setSys_outbox (s : State) (y : Sys) : (s.setSys y).outbox = s.outbox := rfl
@[simp] theorem State.setSys_tick (s : State) (y : Sys) : (s.setSys y).tick = s.tick := rfl
@[simp] theorem State.setSys_nextId (s : State) (y : Sys) : (s.setSys y).nextId = s.nextId := rfl
@[simp] theorem State.setSys_core_id (s : State) (y : Sys) : (s.setSys y).core.id = s.core.id := rfl
@[simp] theorem State.setSys_core_phase (s : State) (y : Sys) : (s.setSys y).core.phase = s.core.phase := rfl
@[simp] theorem State.setSys_core_acct (s : State) (y : Sys) : (s.setSys y).core.acct = s.core.acct := rfl
@[simp] theorem State.setSys_core_cont (s : State) (y : Sys) : (s.setSys y).core.cont = s.core.cont := rfl
@[simp] theorem State.setSys_core_regs (s : State) (y : Sys) : (s.setSys y).core.regs = s.core.regs := rfl
@[simp] theorem State.setSys_core_sys (s : State) (y : Sys) : (s.setSys y).core.sys = y := rfl
@[simp] theorem State.setSys_core_pipe (s : State) (y : Sys) : (s.setSys y).core.pipe = s.core.pipe := rfl
@[simp] theorem State.setSys_core_store (s : State) (y : Sys) : (s.setSys y).core.store = s.core.store := rfl
@[simp] theorem State.setCont_parked (s : State) (k : Cont) : (s.setCont k).parked = s.parked := rfl
@[simp] theorem State.setCont_mem (s : State) (k : Cont) : (s.setCont k).mem = s.mem := rfl
@[simp] theorem State.setCont_sched (s : State) (k : Cont) : (s.setCont k).sched = s.sched := rfl
@[simp] theorem State.setCont_units (s : State) (k : Cont) : (s.setCont k).units = s.units := rfl
@[simp] theorem State.setCont_host (s : State) (k : Cont) : (s.setCont k).host = s.host := rfl
@[simp] theorem State.setCont_slots (s : State) (k : Cont) : (s.setCont k).slots = s.slots := rfl
@[simp] theorem State.setCont_measured (s : State) (k : Cont) : (s.setCont k).measured = s.measured := rfl
@[simp] theorem State.setCont_devKey (s : State) (k : Cont) : (s.setCont k).devKey = s.devKey := rfl
@[simp] theorem State.setCont_devnum (s : State) (k : Cont) : (s.setCont k).devnum = s.devnum := rfl
@[simp] theorem State.setCont_peers (s : State) (k : Cont) : (s.setCont k).peers = s.peers := rfl
@[simp] theorem State.setCont_agenda (s : State) (k : Cont) : (s.setCont k).agenda = s.agenda := rfl
@[simp] theorem State.setCont_inputs (s : State) (k : Cont) : (s.setCont k).inputs = s.inputs := rfl
@[simp] theorem State.setCont_outbox (s : State) (k : Cont) : (s.setCont k).outbox = s.outbox := rfl
@[simp] theorem State.setCont_tick (s : State) (k : Cont) : (s.setCont k).tick = s.tick := rfl
@[simp] theorem State.setCont_nextId (s : State) (k : Cont) : (s.setCont k).nextId = s.nextId := rfl
@[simp] theorem State.setCont_core_id (s : State) (k : Cont) : (s.setCont k).core.id = s.core.id := rfl
@[simp] theorem State.setCont_core_phase (s : State) (k : Cont) : (s.setCont k).core.phase = s.core.phase := rfl
@[simp] theorem State.setCont_core_acct (s : State) (k : Cont) : (s.setCont k).core.acct = s.core.acct := rfl
@[simp] theorem State.setCont_core_cont (s : State) (k : Cont) : (s.setCont k).core.cont = k := rfl
@[simp] theorem State.setCont_core_regs (s : State) (k : Cont) : (s.setCont k).core.regs = s.core.regs := rfl
@[simp] theorem State.setCont_core_sys (s : State) (k : Cont) : (s.setCont k).core.sys = s.core.sys := rfl
@[simp] theorem State.setCont_core_pipe (s : State) (k : Cont) : (s.setCont k).core.pipe = s.core.pipe := rfl
@[simp] theorem State.setCont_core_store (s : State) (k : Cont) : (s.setCont k).core.store = s.core.store := rfl
@[simp] theorem State.setStore_parked (s : State) (t : Store) : (s.setStore t).parked = s.parked := rfl
@[simp] theorem State.setStore_mem (s : State) (t : Store) : (s.setStore t).mem = s.mem := rfl
@[simp] theorem State.setStore_sched (s : State) (t : Store) : (s.setStore t).sched = s.sched := rfl
@[simp] theorem State.setStore_units (s : State) (t : Store) : (s.setStore t).units = s.units := rfl
@[simp] theorem State.setStore_host (s : State) (t : Store) : (s.setStore t).host = s.host := rfl
@[simp] theorem State.setStore_slots (s : State) (t : Store) : (s.setStore t).slots = s.slots := rfl
@[simp] theorem State.setStore_measured (s : State) (t : Store) : (s.setStore t).measured = s.measured := rfl
@[simp] theorem State.setStore_devKey (s : State) (t : Store) : (s.setStore t).devKey = s.devKey := rfl
@[simp] theorem State.setStore_devnum (s : State) (t : Store) : (s.setStore t).devnum = s.devnum := rfl
@[simp] theorem State.setStore_peers (s : State) (t : Store) : (s.setStore t).peers = s.peers := rfl
@[simp] theorem State.setStore_agenda (s : State) (t : Store) : (s.setStore t).agenda = s.agenda := rfl
@[simp] theorem State.setStore_inputs (s : State) (t : Store) : (s.setStore t).inputs = s.inputs := rfl
@[simp] theorem State.setStore_outbox (s : State) (t : Store) : (s.setStore t).outbox = s.outbox := rfl
@[simp] theorem State.setStore_tick (s : State) (t : Store) : (s.setStore t).tick = s.tick := rfl
@[simp] theorem State.setStore_nextId (s : State) (t : Store) : (s.setStore t).nextId = s.nextId := rfl
@[simp] theorem State.setStore_core_id (s : State) (t : Store) : (s.setStore t).core.id = s.core.id := rfl
@[simp] theorem State.setStore_core_phase (s : State) (t : Store) : (s.setStore t).core.phase = s.core.phase := rfl
@[simp] theorem State.setStore_core_acct (s : State) (t : Store) : (s.setStore t).core.acct = s.core.acct := rfl
@[simp] theorem State.setStore_core_cont (s : State) (t : Store) : (s.setStore t).core.cont = s.core.cont := rfl
@[simp] theorem State.setStore_core_regs (s : State) (t : Store) : (s.setStore t).core.regs = s.core.regs := rfl
@[simp] theorem State.setStore_core_sys (s : State) (t : Store) : (s.setStore t).core.sys = s.core.sys := rfl
@[simp] theorem State.setStore_core_pipe (s : State) (t : Store) : (s.setStore t).core.pipe = s.core.pipe := rfl
@[simp] theorem State.setStore_core_store (s : State) (t : Store) : (s.setStore t).core.store = t := rfl

/-! ### A bundle that stalls, and the effects that hold after one -/

@[simp] theorem State.stall_parked (s : State) : (s.stall).parked = s.parked := rfl
@[simp] theorem State.stall_mem (s : State) : (s.stall).mem = s.mem := rfl
@[simp] theorem State.stall_sched (s : State) : (s.stall).sched = s.sched := rfl
@[simp] theorem State.stall_units (s : State) : (s.stall).units = s.units := rfl
@[simp] theorem State.stall_host (s : State) : (s.stall).host = s.host := rfl
@[simp] theorem State.stall_slots (s : State) : (s.stall).slots = s.slots := rfl
@[simp] theorem State.stall_measured (s : State) : (s.stall).measured = s.measured := rfl
@[simp] theorem State.stall_devKey (s : State) : (s.stall).devKey = s.devKey := rfl
@[simp] theorem State.stall_devnum (s : State) : (s.stall).devnum = s.devnum := rfl
@[simp] theorem State.stall_peers (s : State) : (s.stall).peers = s.peers := rfl
@[simp] theorem State.stall_agenda (s : State) : (s.stall).agenda = s.agenda := rfl
@[simp] theorem State.stall_inputs (s : State) : (s.stall).inputs = s.inputs := rfl
@[simp] theorem State.stall_outbox (s : State) : (s.stall).outbox = s.outbox := rfl
@[simp] theorem State.stall_tick (s : State) : (s.stall).tick = s.tick := rfl
@[simp] theorem State.stall_nextId (s : State) : (s.stall).nextId = s.nextId := rfl
@[simp] theorem State.stall_core_id (s : State) : (s.stall).core.id = s.core.id := rfl
@[simp] theorem State.stall_core_phase (s : State) : (s.stall).core.phase = s.core.phase := rfl
@[simp] theorem State.stall_core_acct (s : State) : (s.stall).core.acct = s.core.acct := rfl
@[simp] theorem State.stall_core_cont (s : State) : (s.stall).core.cont = s.core.cont := rfl
@[simp] theorem State.stall_core_regs (s : State) : (s.stall).core.regs = s.core.regs := rfl
@[simp] theorem State.stall_core_sys (s : State) : (s.stall).core.sys = s.core.sys := rfl
@[simp] theorem State.stall_core_store (s : State) : (s.stall).core.store = s.core.store := rfl
@[simp] theorem State.stall_pipe_pc (s : State) : s.stall.core.pipe.pc = s.core.pipe.pc := rfl
@[simp] theorem State.stall_pipe_slot (s : State) : s.stall.core.pipe.slot = s.core.pipe.slot := rfl
@[simp] theorem State.stall_pipe_bundle (s : State) : s.stall.core.pipe.bundle = s.core.pipe.bundle := rfl
@[simp] theorem State.stall_pipe_later (s : State) : s.stall.core.pipe.later = s.core.pipe.later := rfl
@[simp] theorem State.stall_pipe_extra (s : State) : s.stall.core.pipe.extra = s.core.pipe.extra := rfl
@[simp] theorem State.stall_pipe_now (s : State) : s.stall.core.pipe.now = s.core.pipe.now := rfl
@[simp] theorem State.stall_pipe_base (s : State) : s.stall.core.pipe.base = s.core.pipe.base := rfl
@[simp] theorem State.stall_pipe_fails (s : State) : s.stall.core.pipe.fails = s.core.pipe.fails := rfl
@[simp] theorem State.stall_pipe_also (s : State) : s.stall.core.pipe.also = s.core.pipe.also := rfl
@[simp] theorem State.stall_pipe_alsoG (s : State) : s.stall.core.pipe.alsoG = s.core.pipe.alsoG := rfl
@[simp] theorem State.stall_pipe_fresh (s : State) : s.stall.core.pipe.fresh = s.core.pipe.fresh := rfl
@[simp] theorem State.stall_pipe_land (s : State) : s.stall.core.pipe.land = s.core.pipe.land := rfl
@[simp] theorem State.stall_pipe_soft (s : State) : s.stall.core.pipe.soft = s.core.pipe.soft := rfl
@[simp] theorem State.stall_pipe_posts (s : State) : s.stall.core.pipe.posts = s.core.pipe.posts := rfl
@[simp] theorem State.stall_pipe_xq (s : State) : s.stall.core.pipe.xq = s.core.pipe.xq := rfl
@[simp] theorem State.stall_pipe_cur (s : State) : s.stall.core.pipe.cur = s.core.pipe.cur := rfl
@[simp] theorem State.stall_pipe_reply (s : State) : s.stall.core.pipe.reply = s.core.pipe.reply := rfl
@[simp] theorem State.stall_pipe_status (s : State) : s.stall.core.pipe.status = .stalled := rfl
@[simp] theorem State.stall_pipe_npc (s : State) : s.stall.core.pipe.npc = s.core.pipe.pc := rfl
@[simp] theorem State.finishLater_parked (s : State) : (s.finishLater).parked = s.parked := rfl
@[simp] theorem State.finishLater_mem (s : State) : (s.finishLater).mem = s.mem := rfl
@[simp] theorem State.finishLater_sched (s : State) : (s.finishLater).sched = s.sched := rfl
@[simp] theorem State.finishLater_units (s : State) : (s.finishLater).units = s.units := rfl
@[simp] theorem State.finishLater_host (s : State) : (s.finishLater).host = s.host := rfl
@[simp] theorem State.finishLater_slots (s : State) : (s.finishLater).slots = s.slots := rfl
@[simp] theorem State.finishLater_measured (s : State) : (s.finishLater).measured = s.measured := rfl
@[simp] theorem State.finishLater_devKey (s : State) : (s.finishLater).devKey = s.devKey := rfl
@[simp] theorem State.finishLater_devnum (s : State) : (s.finishLater).devnum = s.devnum := rfl
@[simp] theorem State.finishLater_peers (s : State) : (s.finishLater).peers = s.peers := rfl
@[simp] theorem State.finishLater_agenda (s : State) : (s.finishLater).agenda = s.agenda := rfl
@[simp] theorem State.finishLater_inputs (s : State) : (s.finishLater).inputs = s.inputs := rfl
@[simp] theorem State.finishLater_outbox (s : State) : (s.finishLater).outbox = s.outbox := rfl
@[simp] theorem State.finishLater_tick (s : State) : (s.finishLater).tick = s.tick := rfl
@[simp] theorem State.finishLater_nextId (s : State) : (s.finishLater).nextId = s.nextId := rfl
@[simp] theorem State.finishLater_core_id (s : State) : s.finishLater.core.id = s.core.id := rfl
@[simp] theorem State.finishLater_core_phase (s : State) : s.finishLater.core.phase = s.core.phase := rfl
@[simp] theorem State.finishLater_core_acct (s : State) : s.finishLater.core.acct = s.core.acct := rfl
@[simp] theorem State.finishLater_core_cont (s : State) : s.finishLater.core.cont = s.core.cont := rfl
@[simp] theorem State.finishLater_core_sys (s : State) : s.finishLater.core.sys = s.core.sys := rfl
@[simp] theorem State.finishLater_core_store (s : State) : s.finishLater.core.store = s.core.store := rfl

/-! ### A result that is issued -/

@[simp] theorem State.result_parked (s : State) (k : Nat) (w : Write) : (s.result k w).parked = s.parked := rfl
@[simp] theorem State.result_mem (s : State) (k : Nat) (w : Write) : (s.result k w).mem = s.mem := rfl
@[simp] theorem State.result_sched (s : State) (k : Nat) (w : Write) : (s.result k w).sched = s.sched := rfl
@[simp] theorem State.result_units (s : State) (k : Nat) (w : Write) : (s.result k w).units = s.units := rfl
@[simp] theorem State.result_host (s : State) (k : Nat) (w : Write) : (s.result k w).host = s.host := rfl
@[simp] theorem State.result_slots (s : State) (k : Nat) (w : Write) : (s.result k w).slots = s.slots := rfl
@[simp] theorem State.result_measured (s : State) (k : Nat) (w : Write) : (s.result k w).measured = s.measured := rfl
@[simp] theorem State.result_devKey (s : State) (k : Nat) (w : Write) : (s.result k w).devKey = s.devKey := rfl
@[simp] theorem State.result_devnum (s : State) (k : Nat) (w : Write) : (s.result k w).devnum = s.devnum := rfl
@[simp] theorem State.result_peers (s : State) (k : Nat) (w : Write) : (s.result k w).peers = s.peers := rfl
@[simp] theorem State.result_agenda (s : State) (k : Nat) (w : Write) : (s.result k w).agenda = s.agenda := rfl
@[simp] theorem State.result_inputs (s : State) (k : Nat) (w : Write) : (s.result k w).inputs = s.inputs := rfl
@[simp] theorem State.result_outbox (s : State) (k : Nat) (w : Write) : (s.result k w).outbox = s.outbox := rfl
@[simp] theorem State.result_tick (s : State) (k : Nat) (w : Write) : (s.result k w).tick = s.tick := rfl
@[simp] theorem State.result_nextId (s : State) (k : Nat) (w : Write) : (s.result k w).nextId = s.nextId := rfl
@[simp] theorem State.result_core_id (s : State) (k : Nat) (w : Write) : (s.result k w).core.id = s.core.id := rfl
@[simp] theorem State.result_core_phase (s : State) (k : Nat) (w : Write) : (s.result k w).core.phase = s.core.phase := rfl
@[simp] theorem State.result_core_acct (s : State) (k : Nat) (w : Write) : (s.result k w).core.acct = s.core.acct := rfl
@[simp] theorem State.result_core_cont (s : State) (k : Nat) (w : Write) : (s.result k w).core.cont = s.core.cont := rfl
@[simp] theorem State.result_core_regs (s : State) (k : Nat) (w : Write) : (s.result k w).core.regs = s.core.regs := rfl
@[simp] theorem State.result_core_sys (s : State) (k : Nat) (w : Write) : (s.result k w).core.sys = s.core.sys := rfl
@[simp] theorem State.result_core_store (s : State) (k : Nat) (w : Write) : (s.result k w).core.store = s.core.store := rfl
@[simp] theorem State.result_pipe_pc (s : State) (k : Nat) (w : Write) : (s.result k w).core.pipe.pc = s.core.pipe.pc := rfl
@[simp] theorem State.result_pipe_npc (s : State) (k : Nat) (w : Write) : (s.result k w).core.pipe.npc = s.core.pipe.npc := rfl
@[simp] theorem State.result_pipe_status (s : State) (k : Nat) (w : Write) : (s.result k w).core.pipe.status = s.core.pipe.status := rfl
@[simp] theorem State.result_pipe_slot (s : State) (k : Nat) (w : Write) : (s.result k w).core.pipe.slot = s.core.pipe.slot := rfl
@[simp] theorem State.result_pipe_bundle (s : State) (k : Nat) (w : Write) : (s.result k w).core.pipe.bundle = s.core.pipe.bundle := rfl
@[simp] theorem State.result_pipe_later (s : State) (k : Nat) (w : Write) : (s.result k w).core.pipe.later = s.core.pipe.later := rfl
@[simp] theorem State.result_pipe_extra (s : State) (k : Nat) (w : Write) : (s.result k w).core.pipe.extra = s.core.pipe.extra := rfl
@[simp] theorem State.result_pipe_now (s : State) (k : Nat) (w : Write) : (s.result k w).core.pipe.now = s.core.pipe.now := rfl
@[simp] theorem State.result_pipe_base (s : State) (k : Nat) (w : Write) : (s.result k w).core.pipe.base = s.core.pipe.base := rfl
@[simp] theorem State.result_pipe_fails (s : State) (k : Nat) (w : Write) : (s.result k w).core.pipe.fails = s.core.pipe.fails := rfl
@[simp] theorem State.result_pipe_also (s : State) (k : Nat) (w : Write) : (s.result k w).core.pipe.also = s.core.pipe.also := rfl
@[simp] theorem State.result_pipe_alsoG (s : State) (k : Nat) (w : Write) : (s.result k w).core.pipe.alsoG = s.core.pipe.alsoG := rfl
@[simp] theorem State.result_pipe_land (s : State) (k : Nat) (w : Write) : (s.result k w).core.pipe.land = s.core.pipe.land := rfl
@[simp] theorem State.result_pipe_soft (s : State) (k : Nat) (w : Write) : (s.result k w).core.pipe.soft = s.core.pipe.soft := rfl
@[simp] theorem State.result_pipe_posts (s : State) (k : Nat) (w : Write) : (s.result k w).core.pipe.posts = s.core.pipe.posts := rfl
@[simp] theorem State.result_pipe_xq (s : State) (k : Nat) (w : Write) : (s.result k w).core.pipe.xq = s.core.pipe.xq := rfl
@[simp] theorem State.result_pipe_cur (s : State) (k : Nat) (w : Write) : (s.result k w).core.pipe.cur = s.core.pipe.cur := rfl
@[simp] theorem State.result_pipe_reply (s : State) (k : Nat) (w : Write) : (s.result k w).core.pipe.reply = s.core.pipe.reply := rfl

/-! ### Memory, the scheduler, the host registers -/

@[simp] theorem State.setMem_core (s : State) (m : Mem) : (s.setMem m).core = s.core := rfl
@[simp] theorem State.setMem_parked (s : State) (m : Mem) : (s.setMem m).parked = s.parked := rfl
@[simp] theorem State.setMem_sched (s : State) (m : Mem) : (s.setMem m).sched = s.sched := rfl
@[simp] theorem State.setMem_units (s : State) (m : Mem) : (s.setMem m).units = s.units := rfl
@[simp] theorem State.setMem_host (s : State) (m : Mem) : (s.setMem m).host = s.host := rfl
@[simp] theorem State.setMem_slots (s : State) (m : Mem) : (s.setMem m).slots = s.slots := rfl
@[simp] theorem State.setMem_measured (s : State) (m : Mem) : (s.setMem m).measured = s.measured := rfl
@[simp] theorem State.setMem_devKey (s : State) (m : Mem) : (s.setMem m).devKey = s.devKey := rfl
@[simp] theorem State.setMem_devnum (s : State) (m : Mem) : (s.setMem m).devnum = s.devnum := rfl
@[simp] theorem State.setMem_peers (s : State) (m : Mem) : (s.setMem m).peers = s.peers := rfl
@[simp] theorem State.setMem_agenda (s : State) (m : Mem) : (s.setMem m).agenda = s.agenda := rfl
@[simp] theorem State.setMem_inputs (s : State) (m : Mem) : (s.setMem m).inputs = s.inputs := rfl
@[simp] theorem State.setMem_outbox (s : State) (m : Mem) : (s.setMem m).outbox = s.outbox := rfl
@[simp] theorem State.setMem_tick (s : State) (m : Mem) : (s.setMem m).tick = s.tick := rfl
@[simp] theorem State.setMem_nextId (s : State) (m : Mem) : (s.setMem m).nextId = s.nextId := rfl
@[simp] theorem State.setMem_mem (s : State) (m : Mem) : (s.setMem m).mem = m := rfl
@[simp] theorem State.setHost_core (s : State) (h : HostRegs) : (s.setHost h).core = s.core := rfl
@[simp] theorem State.setHost_parked (s : State) (h : HostRegs) : (s.setHost h).parked = s.parked := rfl
@[simp] theorem State.setHost_mem (s : State) (h : HostRegs) : (s.setHost h).mem = s.mem := rfl
@[simp] theorem State.setHost_sched (s : State) (h : HostRegs) : (s.setHost h).sched = s.sched := rfl
@[simp] theorem State.setHost_units (s : State) (h : HostRegs) : (s.setHost h).units = s.units := rfl
@[simp] theorem State.setHost_slots (s : State) (h : HostRegs) : (s.setHost h).slots = s.slots := rfl
@[simp] theorem State.setHost_measured (s : State) (h : HostRegs) : (s.setHost h).measured = s.measured := rfl
@[simp] theorem State.setHost_devKey (s : State) (h : HostRegs) : (s.setHost h).devKey = s.devKey := rfl
@[simp] theorem State.setHost_devnum (s : State) (h : HostRegs) : (s.setHost h).devnum = s.devnum := rfl
@[simp] theorem State.setHost_peers (s : State) (h : HostRegs) : (s.setHost h).peers = s.peers := rfl
@[simp] theorem State.setHost_agenda (s : State) (h : HostRegs) : (s.setHost h).agenda = s.agenda := rfl
@[simp] theorem State.setHost_inputs (s : State) (h : HostRegs) : (s.setHost h).inputs = s.inputs := rfl
@[simp] theorem State.setHost_outbox (s : State) (h : HostRegs) : (s.setHost h).outbox = s.outbox := rfl
@[simp] theorem State.setHost_tick (s : State) (h : HostRegs) : (s.setHost h).tick = s.tick := rfl
@[simp] theorem State.setHost_nextId (s : State) (h : HostRegs) : (s.setHost h).nextId = s.nextId := rfl
@[simp] theorem State.setHost_host (s : State) (h : HostRegs) : (s.setHost h).host = h := rfl
@[simp] theorem State.setSched_core (s : State) (q : Sched) : (s.setSched q).core = s.core := rfl
@[simp] theorem State.setSched_parked (s : State) (q : Sched) : (s.setSched q).parked = s.parked := rfl
@[simp] theorem State.setSched_mem (s : State) (q : Sched) : (s.setSched q).mem = s.mem := rfl
@[simp] theorem State.setSched_units (s : State) (q : Sched) : (s.setSched q).units = s.units := rfl
@[simp] theorem State.setSched_host (s : State) (q : Sched) : (s.setSched q).host = s.host := rfl
@[simp] theorem State.setSched_slots (s : State) (q : Sched) : (s.setSched q).slots = s.slots := rfl
@[simp] theorem State.setSched_measured (s : State) (q : Sched) : (s.setSched q).measured = s.measured := rfl
@[simp] theorem State.setSched_devKey (s : State) (q : Sched) : (s.setSched q).devKey = s.devKey := rfl
@[simp] theorem State.setSched_devnum (s : State) (q : Sched) : (s.setSched q).devnum = s.devnum := rfl
@[simp] theorem State.setSched_peers (s : State) (q : Sched) : (s.setSched q).peers = s.peers := rfl
@[simp] theorem State.setSched_agenda (s : State) (q : Sched) : (s.setSched q).agenda = s.agenda := rfl
@[simp] theorem State.setSched_inputs (s : State) (q : Sched) : (s.setSched q).inputs = s.inputs := rfl
@[simp] theorem State.setSched_outbox (s : State) (q : Sched) : (s.setSched q).outbox = s.outbox := rfl
@[simp] theorem State.setSched_tick (s : State) (q : Sched) : (s.setSched q).tick = s.tick := rfl
@[simp] theorem State.setSched_nextId (s : State) (q : Sched) : (s.setSched q).nextId = s.nextId := rfl
@[simp] theorem State.setSched_sched (s : State) (q : Sched) : (s.setSched q).sched = q := rfl
@[simp] theorem State.setRec_core (s : State) (r : Rec) : (s.setRec r).core = s.core := rfl
@[simp] theorem State.setRec_parked (s : State) (r : Rec) : (s.setRec r).parked = s.parked := rfl
@[simp] theorem State.setRec_mem (s : State) (r : Rec) : (s.setRec r).mem = s.mem := rfl
@[simp] theorem State.setRec_units (s : State) (r : Rec) : (s.setRec r).units = s.units := rfl
@[simp] theorem State.setRec_host (s : State) (r : Rec) : (s.setRec r).host = s.host := rfl
@[simp] theorem State.setRec_slots (s : State) (r : Rec) : (s.setRec r).slots = s.slots := rfl
@[simp] theorem State.setRec_measured (s : State) (r : Rec) : (s.setRec r).measured = s.measured := rfl
@[simp] theorem State.setRec_devKey (s : State) (r : Rec) : (s.setRec r).devKey = s.devKey := rfl
@[simp] theorem State.setRec_devnum (s : State) (r : Rec) : (s.setRec r).devnum = s.devnum := rfl
@[simp] theorem State.setRec_peers (s : State) (r : Rec) : (s.setRec r).peers = s.peers := rfl
@[simp] theorem State.setRec_agenda (s : State) (r : Rec) : (s.setRec r).agenda = s.agenda := rfl
@[simp] theorem State.setRec_inputs (s : State) (r : Rec) : (s.setRec r).inputs = s.inputs := rfl
@[simp] theorem State.setRec_outbox (s : State) (r : Rec) : (s.setRec r).outbox = s.outbox := rfl
@[simp] theorem State.setRec_tick (s : State) (r : Rec) : (s.setRec r).tick = s.tick := rfl
@[simp] theorem State.setRec_nextId (s : State) (r : Rec) : (s.setRec r).nextId = s.nextId := rfl
@[simp] theorem State.setRec_sched_jobs (s : State) (r : Rec) : (s.setRec r).sched.jobs = s.sched.jobs := rfl
@[simp] theorem State.setRec_sched_levels (s : State) (r : Rec) : (s.setRec r).sched.levels = s.sched.levels := rfl
@[simp] theorem State.setRec_sched_responses (s : State) (r : Rec) : (s.setRec r).sched.responses = s.sched.responses := rfl
@[simp] theorem State.setRec_sched_offClusters (s : State) (r : Rec) : (s.setRec r).sched.offClusters = s.sched.offClusters := rfl
@[simp] theorem State.setRec_sched_offCores (s : State) (r : Rec) : (s.setRec r).sched.offCores = s.sched.offCores := rfl
@[simp] theorem State.setRec_sched_spares (s : State) (r : Rec) : (s.setRec r).sched.spares = s.sched.spares := rfl
@[simp] theorem State.setRec_sched_retire (s : State) (r : Rec) : (s.setRec r).sched.retire = s.sched.retire := rfl
@[simp] theorem State.setRec_sched_faultSeq (s : State) (r : Rec) : (s.setRec r).sched.faultSeq = s.sched.faultSeq := rfl
@[simp] theorem State.setLevel_core (s : State) (l : Level) : (s.setLevel l).core = s.core := rfl
@[simp] theorem State.setLevel_parked (s : State) (l : Level) : (s.setLevel l).parked = s.parked := rfl
@[simp] theorem State.setLevel_mem (s : State) (l : Level) : (s.setLevel l).mem = s.mem := rfl
@[simp] theorem State.setLevel_units (s : State) (l : Level) : (s.setLevel l).units = s.units := rfl
@[simp] theorem State.setLevel_host (s : State) (l : Level) : (s.setLevel l).host = s.host := rfl
@[simp] theorem State.setLevel_slots (s : State) (l : Level) : (s.setLevel l).slots = s.slots := rfl
@[simp] theorem State.setLevel_measured (s : State) (l : Level) : (s.setLevel l).measured = s.measured := rfl
@[simp] theorem State.setLevel_devKey (s : State) (l : Level) : (s.setLevel l).devKey = s.devKey := rfl
@[simp] theorem State.setLevel_devnum (s : State) (l : Level) : (s.setLevel l).devnum = s.devnum := rfl
@[simp] theorem State.setLevel_peers (s : State) (l : Level) : (s.setLevel l).peers = s.peers := rfl
@[simp] theorem State.setLevel_agenda (s : State) (l : Level) : (s.setLevel l).agenda = s.agenda := rfl
@[simp] theorem State.setLevel_inputs (s : State) (l : Level) : (s.setLevel l).inputs = s.inputs := rfl
@[simp] theorem State.setLevel_outbox (s : State) (l : Level) : (s.setLevel l).outbox = s.outbox := rfl
@[simp] theorem State.setLevel_tick (s : State) (l : Level) : (s.setLevel l).tick = s.tick := rfl
@[simp] theorem State.setLevel_nextId (s : State) (l : Level) : (s.setLevel l).nextId = s.nextId := rfl
@[simp] theorem State.setLevel_sched_jobs (s : State) (l : Level) : (s.setLevel l).sched.jobs = s.sched.jobs := rfl
@[simp] theorem State.setLevel_sched_recs (s : State) (l : Level) : (s.setLevel l).sched.recs = s.sched.recs := rfl
@[simp] theorem State.setLevel_sched_responses (s : State) (l : Level) : (s.setLevel l).sched.responses = s.sched.responses := rfl
@[simp] theorem State.setLevel_sched_offClusters (s : State) (l : Level) : (s.setLevel l).sched.offClusters = s.sched.offClusters := rfl
@[simp] theorem State.setLevel_sched_offCores (s : State) (l : Level) : (s.setLevel l).sched.offCores = s.sched.offCores := rfl
@[simp] theorem State.setLevel_sched_spares (s : State) (l : Level) : (s.setLevel l).sched.spares = s.sched.spares := rfl
@[simp] theorem State.setLevel_sched_retire (s : State) (l : Level) : (s.setLevel l).sched.retire = s.sched.retire := rfl
@[simp] theorem State.setLevel_sched_faultSeq (s : State) (l : Level) : (s.setLevel l).sched.faultSeq = s.sched.faultSeq := rfl

/-! ### Units -/

@[simp] theorem State.setEngine_core (s : State) (e : Nat) (g : Engine) : (s.setEngine e g).core = s.core := rfl
@[simp] theorem State.setEngine_parked (s : State) (e : Nat) (g : Engine) : (s.setEngine e g).parked = s.parked := rfl
@[simp] theorem State.setEngine_mem (s : State) (e : Nat) (g : Engine) : (s.setEngine e g).mem = s.mem := rfl
@[simp] theorem State.setEngine_sched (s : State) (e : Nat) (g : Engine) : (s.setEngine e g).sched = s.sched := rfl
@[simp] theorem State.setEngine_host (s : State) (e : Nat) (g : Engine) : (s.setEngine e g).host = s.host := rfl
@[simp] theorem State.setEngine_slots (s : State) (e : Nat) (g : Engine) : (s.setEngine e g).slots = s.slots := rfl
@[simp] theorem State.setEngine_measured (s : State) (e : Nat) (g : Engine) : (s.setEngine e g).measured = s.measured := rfl
@[simp] theorem State.setEngine_devKey (s : State) (e : Nat) (g : Engine) : (s.setEngine e g).devKey = s.devKey := rfl
@[simp] theorem State.setEngine_devnum (s : State) (e : Nat) (g : Engine) : (s.setEngine e g).devnum = s.devnum := rfl
@[simp] theorem State.setEngine_peers (s : State) (e : Nat) (g : Engine) : (s.setEngine e g).peers = s.peers := rfl
@[simp] theorem State.setEngine_agenda (s : State) (e : Nat) (g : Engine) : (s.setEngine e g).agenda = s.agenda := rfl
@[simp] theorem State.setEngine_inputs (s : State) (e : Nat) (g : Engine) : (s.setEngine e g).inputs = s.inputs := rfl
@[simp] theorem State.setEngine_outbox (s : State) (e : Nat) (g : Engine) : (s.setEngine e g).outbox = s.outbox := rfl
@[simp] theorem State.setEngine_tick (s : State) (e : Nat) (g : Engine) : (s.setEngine e g).tick = s.tick := rfl
@[simp] theorem State.setEngine_nextId (s : State) (e : Nat) (g : Engine) : (s.setEngine e g).nextId = s.nextId := rfl
@[simp] theorem State.setEngine_units_engines (s : State) (e : Nat) (g : Engine) : (s.setEngine e g).units.engines = s.units.engines.setIfInBounds e g := rfl
@[simp] theorem State.setEngine_units_endings (s : State) (e : Nat) (g : Engine) : (s.setEngine e g).units.endings = s.units.endings := rfl
@[simp] theorem State.setEngine_units_agents (s : State) (e : Nat) (g : Engine) : (s.setEngine e g).units.agents = s.units.agents := rfl
@[simp] theorem State.setEngine_units_chains (s : State) (e : Nat) (g : Engine) : (s.setEngine e g).units.chains = s.units.chains := rfl
@[simp] theorem State.setEngine_units_hopPort (s : State) (e : Nat) (g : Engine) : (s.setEngine e g).units.hopPort = s.units.hopPort := rfl
@[simp] theorem State.setEngine_units_routers (s : State) (e : Nat) (g : Engine) : (s.setEngine e g).units.routers = s.units.routers := rfl
@[simp] theorem State.setEngine_units_runs (s : State) (e : Nat) (g : Engine) : (s.setEngine e g).units.runs = s.units.runs := rfl
@[simp] theorem State.setEngine_units_cids (s : State) (e : Nat) (g : Engine) : (s.setEngine e g).units.cids = s.units.cids := rfl
@[simp] theorem State.setEngine_units_packets (s : State) (e : Nat) (g : Engine) : (s.setEngine e g).units.packets = s.units.packets := rfl
@[simp] theorem State.setEngine_units_messages (s : State) (e : Nat) (g : Engine) : (s.setEngine e g).units.messages = s.units.messages := rfl
@[simp] theorem State.setEngine_units_fronts (s : State) (e : Nat) (g : Engine) : (s.setEngine e g).units.fronts = s.units.fronts := rfl
@[simp] theorem State.setEngine_units_images (s : State) (e : Nat) (g : Engine) : (s.setEngine e g).units.images = s.units.images := rfl
@[simp] theorem State.putChain_core (s : State) (c : Chain) : (s.putChain c).core = s.core := rfl
@[simp] theorem State.putChain_parked (s : State) (c : Chain) : (s.putChain c).parked = s.parked := rfl
@[simp] theorem State.putChain_mem (s : State) (c : Chain) : (s.putChain c).mem = s.mem := rfl
@[simp] theorem State.putChain_sched (s : State) (c : Chain) : (s.putChain c).sched = s.sched := rfl
@[simp] theorem State.putChain_host (s : State) (c : Chain) : (s.putChain c).host = s.host := rfl
@[simp] theorem State.putChain_slots (s : State) (c : Chain) : (s.putChain c).slots = s.slots := rfl
@[simp] theorem State.putChain_measured (s : State) (c : Chain) : (s.putChain c).measured = s.measured := rfl
@[simp] theorem State.putChain_devKey (s : State) (c : Chain) : (s.putChain c).devKey = s.devKey := rfl
@[simp] theorem State.putChain_devnum (s : State) (c : Chain) : (s.putChain c).devnum = s.devnum := rfl
@[simp] theorem State.putChain_peers (s : State) (c : Chain) : (s.putChain c).peers = s.peers := rfl
@[simp] theorem State.putChain_agenda (s : State) (c : Chain) : (s.putChain c).agenda = s.agenda := rfl
@[simp] theorem State.putChain_inputs (s : State) (c : Chain) : (s.putChain c).inputs = s.inputs := rfl
@[simp] theorem State.putChain_outbox (s : State) (c : Chain) : (s.putChain c).outbox = s.outbox := rfl
@[simp] theorem State.putChain_tick (s : State) (c : Chain) : (s.putChain c).tick = s.tick := rfl
@[simp] theorem State.putChain_nextId (s : State) (c : Chain) : (s.putChain c).nextId = s.nextId := rfl
@[simp] theorem State.putChain_units_engines (s : State) (c : Chain) : (s.putChain c).units.engines = s.units.engines := rfl
@[simp] theorem State.putChain_units_endings (s : State) (c : Chain) : (s.putChain c).units.endings = s.units.endings := rfl
@[simp] theorem State.putChain_units_agents (s : State) (c : Chain) : (s.putChain c).units.agents = s.units.agents := rfl
@[simp] theorem State.putChain_units_hopPort (s : State) (c : Chain) : (s.putChain c).units.hopPort = s.units.hopPort := rfl
@[simp] theorem State.putChain_units_routers (s : State) (c : Chain) : (s.putChain c).units.routers = s.units.routers := rfl
@[simp] theorem State.putChain_units_runs (s : State) (c : Chain) : (s.putChain c).units.runs = s.units.runs := rfl
@[simp] theorem State.putChain_units_cids (s : State) (c : Chain) : (s.putChain c).units.cids = s.units.cids := rfl
@[simp] theorem State.putChain_units_packets (s : State) (c : Chain) : (s.putChain c).units.packets = s.units.packets := rfl
@[simp] theorem State.putChain_units_messages (s : State) (c : Chain) : (s.putChain c).units.messages = s.units.messages := rfl
@[simp] theorem State.putChain_units_fronts (s : State) (c : Chain) : (s.putChain c).units.fronts = s.units.fronts := rfl
@[simp] theorem State.putChain_units_images (s : State) (c : Chain) : (s.putChain c).units.images = s.units.images := rfl
@[simp] theorem State.putChain_units_chains (s : State) (c : Chain) : (s.putChain c).units.chains =
    c :: s.units.chains.filter fun q => !decide (q.job = c.job ∧ q.ch = c.ch ∧ q.inst = c.inst) := rfl

/-- A message of an instance goes to other devices alone: only the outbox changes. -/
theorem State.tellChain_eq (s : State) (c : Chain) (i : Event) :
    s.tellChain c i = { s with outbox := (s.tellChain c i).outbox } := by
  have h : ∀ (ds : List (BitVec 14)) (s : State), ∃ o, ds.foldl (fun s d => if d = s.devnum then s else s.send d i) s =
      { s with outbox := o } := by
    intro ds
    induction ds with
    | nil => exact fun s => ⟨s.outbox, rfl⟩
    | cons d ds ih =>
      intro s
      simp only [List.foldl_cons, State.send]
      split
      · exact ih s
      · obtain ⟨o, ho⟩ := ih { s with outbox := s.outbox ++ [(d, i)] }
        exact ⟨o, ho⟩
  obtain ⟨o, ho⟩ := h c.devs s
  simp only [State.tellChain, ho]

/-- Replacing an instance tells other devices, and is otherwise `putChain`. -/
theorem State.setChain_eq (s : State) (c : Chain) :
    s.setChain c = { s.putChain c with outbox := (s.setChain c).outbox } := by
  have h : ∀ (ls : List Link) (t : State), ∃ o, ls.foldl (fun s l =>
      s.tellChain c (.announcement { c.msg l.idx with vals := [BitVec.ofNat 64 l.word] })) t = { t with outbox := o } := by
    intro ls
    induction ls with
    | nil => exact fun t => ⟨t.outbox, rfl⟩
    | cons l ls ih =>
      intro t
      simp only [List.foldl_cons]
      rw [State.tellChain_eq]
      obtain ⟨o, ho⟩ := ih { t with outbox := (t.tellChain c (.announcement { c.msg l.idx with vals := [BitVec.ofNat 64 l.word] })).outbox }
      exact ⟨o, ho⟩
  simp only [State.setChain]
  obtain ⟨o, ho⟩ := h (c.links.filter fun l => !((s.chain? c.job c.ch c.inst).map Chain.links).any fun ls =>
    ls.any fun q => decide (q.idx = l.idx ∧ q.word = l.word)) (s.putChain c)
  rw [ho]

@[simp] theorem State.setChain_core (s : State) (c : Chain) : (s.setChain c).core = s.core := by rw [s.setChain_eq c]; rfl
@[simp] theorem State.setChain_parked (s : State) (c : Chain) : (s.setChain c).parked = s.parked := by rw [s.setChain_eq c]; rfl
@[simp] theorem State.setChain_mem (s : State) (c : Chain) : (s.setChain c).mem = s.mem := by rw [s.setChain_eq c]; rfl
@[simp] theorem State.setChain_sched (s : State) (c : Chain) : (s.setChain c).sched = s.sched := by rw [s.setChain_eq c]; rfl
@[simp] theorem State.setChain_host (s : State) (c : Chain) : (s.setChain c).host = s.host := by rw [s.setChain_eq c]; rfl
@[simp] theorem State.setChain_slots (s : State) (c : Chain) : (s.setChain c).slots = s.slots := by rw [s.setChain_eq c]; rfl
@[simp] theorem State.setChain_measured (s : State) (c : Chain) : (s.setChain c).measured = s.measured := by rw [s.setChain_eq c]; rfl
@[simp] theorem State.setChain_devKey (s : State) (c : Chain) : (s.setChain c).devKey = s.devKey := by rw [s.setChain_eq c]; rfl
@[simp] theorem State.setChain_devnum (s : State) (c : Chain) : (s.setChain c).devnum = s.devnum := by rw [s.setChain_eq c]; rfl
@[simp] theorem State.setChain_peers (s : State) (c : Chain) : (s.setChain c).peers = s.peers := by rw [s.setChain_eq c]; rfl
@[simp] theorem State.setChain_agenda (s : State) (c : Chain) : (s.setChain c).agenda = s.agenda := by rw [s.setChain_eq c]; rfl
@[simp] theorem State.setChain_inputs (s : State) (c : Chain) : (s.setChain c).inputs = s.inputs := by rw [s.setChain_eq c]; rfl
@[simp] theorem State.setChain_tick (s : State) (c : Chain) : (s.setChain c).tick = s.tick := by rw [s.setChain_eq c]; rfl
@[simp] theorem State.setChain_nextId (s : State) (c : Chain) : (s.setChain c).nextId = s.nextId := by rw [s.setChain_eq c]; rfl
@[simp] theorem State.setChain_units_engines (s : State) (c : Chain) : (s.setChain c).units.engines = s.units.engines := by rw [s.setChain_eq c]; rfl
@[simp] theorem State.setChain_units_endings (s : State) (c : Chain) : (s.setChain c).units.endings = s.units.endings := by rw [s.setChain_eq c]; rfl
@[simp] theorem State.setChain_units_agents (s : State) (c : Chain) : (s.setChain c).units.agents = s.units.agents := by rw [s.setChain_eq c]; rfl
@[simp] theorem State.setChain_units_hopPort (s : State) (c : Chain) : (s.setChain c).units.hopPort = s.units.hopPort := by rw [s.setChain_eq c]; rfl
@[simp] theorem State.setChain_units_routers (s : State) (c : Chain) : (s.setChain c).units.routers = s.units.routers := by rw [s.setChain_eq c]; rfl
@[simp] theorem State.setChain_units_runs (s : State) (c : Chain) : (s.setChain c).units.runs = s.units.runs := by rw [s.setChain_eq c]; rfl
@[simp] theorem State.setChain_units_cids (s : State) (c : Chain) : (s.setChain c).units.cids = s.units.cids := by rw [s.setChain_eq c]; rfl
@[simp] theorem State.setChain_units_packets (s : State) (c : Chain) : (s.setChain c).units.packets = s.units.packets := by rw [s.setChain_eq c]; rfl
@[simp] theorem State.setChain_units_messages (s : State) (c : Chain) : (s.setChain c).units.messages = s.units.messages := by rw [s.setChain_eq c]; rfl
@[simp] theorem State.setChain_units_fronts (s : State) (c : Chain) : (s.setChain c).units.fronts = s.units.fronts := by rw [s.setChain_eq c]; rfl
@[simp] theorem State.setChain_units_images (s : State) (c : Chain) : (s.setChain c).units.images = s.units.images := by rw [s.setChain_eq c]; rfl
@[simp] theorem State.setChain_units_chains (s : State) (c : Chain) : (s.setChain c).units.chains =
    c :: s.units.chains.filter fun q => !decide (q.job = c.job ∧ q.ch = c.ch ∧ q.inst = c.inst) := by
  rw [s.setChain_eq c]; rfl
@[simp] theorem State.setRouter_core (s : State) (r : Router) : (s.setRouter r).core = s.core := rfl
@[simp] theorem State.setRouter_parked (s : State) (r : Router) : (s.setRouter r).parked = s.parked := rfl
@[simp] theorem State.setRouter_mem (s : State) (r : Router) : (s.setRouter r).mem = s.mem := rfl
@[simp] theorem State.setRouter_sched (s : State) (r : Router) : (s.setRouter r).sched = s.sched := rfl
@[simp] theorem State.setRouter_host (s : State) (r : Router) : (s.setRouter r).host = s.host := rfl
@[simp] theorem State.setRouter_slots (s : State) (r : Router) : (s.setRouter r).slots = s.slots := rfl
@[simp] theorem State.setRouter_measured (s : State) (r : Router) : (s.setRouter r).measured = s.measured := rfl
@[simp] theorem State.setRouter_devKey (s : State) (r : Router) : (s.setRouter r).devKey = s.devKey := rfl
@[simp] theorem State.setRouter_devnum (s : State) (r : Router) : (s.setRouter r).devnum = s.devnum := rfl
@[simp] theorem State.setRouter_peers (s : State) (r : Router) : (s.setRouter r).peers = s.peers := rfl
@[simp] theorem State.setRouter_agenda (s : State) (r : Router) : (s.setRouter r).agenda = s.agenda := rfl
@[simp] theorem State.setRouter_inputs (s : State) (r : Router) : (s.setRouter r).inputs = s.inputs := rfl
@[simp] theorem State.setRouter_outbox (s : State) (r : Router) : (s.setRouter r).outbox = s.outbox := rfl
@[simp] theorem State.setRouter_tick (s : State) (r : Router) : (s.setRouter r).tick = s.tick := rfl
@[simp] theorem State.setRouter_nextId (s : State) (r : Router) : (s.setRouter r).nextId = s.nextId := rfl
@[simp] theorem State.setRouter_units_engines (s : State) (r : Router) : (s.setRouter r).units.engines = s.units.engines := rfl
@[simp] theorem State.setRouter_units_endings (s : State) (r : Router) : (s.setRouter r).units.endings = s.units.endings := rfl
@[simp] theorem State.setRouter_units_agents (s : State) (r : Router) : (s.setRouter r).units.agents = s.units.agents := rfl
@[simp] theorem State.setRouter_units_chains (s : State) (r : Router) : (s.setRouter r).units.chains = s.units.chains := rfl
@[simp] theorem State.setRouter_units_hopPort (s : State) (r : Router) : (s.setRouter r).units.hopPort = s.units.hopPort := rfl
@[simp] theorem State.setRouter_units_runs (s : State) (r : Router) : (s.setRouter r).units.runs = s.units.runs := rfl
@[simp] theorem State.setRouter_units_cids (s : State) (r : Router) : (s.setRouter r).units.cids = s.units.cids := rfl
@[simp] theorem State.setRouter_units_packets (s : State) (r : Router) : (s.setRouter r).units.packets = s.units.packets := rfl
@[simp] theorem State.setRouter_units_messages (s : State) (r : Router) : (s.setRouter r).units.messages = s.units.messages := rfl
@[simp] theorem State.setRouter_units_fronts (s : State) (r : Router) : (s.setRouter r).units.fronts = s.units.fronts := rfl
@[simp] theorem State.setRouter_units_images (s : State) (r : Router) : (s.setRouter r).units.images = s.units.images := rfl
@[simp] theorem State.setRun_core (s : State) (r : Run) : (s.setRun r).core = s.core := rfl
@[simp] theorem State.setRun_parked (s : State) (r : Run) : (s.setRun r).parked = s.parked := rfl
@[simp] theorem State.setRun_mem (s : State) (r : Run) : (s.setRun r).mem = s.mem := rfl
@[simp] theorem State.setRun_sched (s : State) (r : Run) : (s.setRun r).sched = s.sched := rfl
@[simp] theorem State.setRun_host (s : State) (r : Run) : (s.setRun r).host = s.host := rfl
@[simp] theorem State.setRun_slots (s : State) (r : Run) : (s.setRun r).slots = s.slots := rfl
@[simp] theorem State.setRun_measured (s : State) (r : Run) : (s.setRun r).measured = s.measured := rfl
@[simp] theorem State.setRun_devKey (s : State) (r : Run) : (s.setRun r).devKey = s.devKey := rfl
@[simp] theorem State.setRun_devnum (s : State) (r : Run) : (s.setRun r).devnum = s.devnum := rfl
@[simp] theorem State.setRun_peers (s : State) (r : Run) : (s.setRun r).peers = s.peers := rfl
@[simp] theorem State.setRun_agenda (s : State) (r : Run) : (s.setRun r).agenda = s.agenda := rfl
@[simp] theorem State.setRun_inputs (s : State) (r : Run) : (s.setRun r).inputs = s.inputs := rfl
@[simp] theorem State.setRun_outbox (s : State) (r : Run) : (s.setRun r).outbox = s.outbox := rfl
@[simp] theorem State.setRun_tick (s : State) (r : Run) : (s.setRun r).tick = s.tick := rfl
@[simp] theorem State.setRun_nextId (s : State) (r : Run) : (s.setRun r).nextId = s.nextId := rfl
@[simp] theorem State.setRun_units_engines (s : State) (r : Run) : (s.setRun r).units.engines = s.units.engines := rfl
@[simp] theorem State.setRun_units_endings (s : State) (r : Run) : (s.setRun r).units.endings = s.units.endings := rfl
@[simp] theorem State.setRun_units_agents (s : State) (r : Run) : (s.setRun r).units.agents = s.units.agents := rfl
@[simp] theorem State.setRun_units_chains (s : State) (r : Run) : (s.setRun r).units.chains = s.units.chains := rfl
@[simp] theorem State.setRun_units_hopPort (s : State) (r : Run) : (s.setRun r).units.hopPort = s.units.hopPort := rfl
@[simp] theorem State.setRun_units_routers (s : State) (r : Run) : (s.setRun r).units.routers = s.units.routers := rfl
@[simp] theorem State.setRun_units_cids (s : State) (r : Run) : (s.setRun r).units.cids = s.units.cids := rfl
@[simp] theorem State.setRun_units_packets (s : State) (r : Run) : (s.setRun r).units.packets = s.units.packets := rfl
@[simp] theorem State.setRun_units_messages (s : State) (r : Run) : (s.setRun r).units.messages = s.units.messages := rfl
@[simp] theorem State.setRun_units_fronts (s : State) (r : Run) : (s.setRun r).units.fronts = s.units.fronts := rfl
@[simp] theorem State.setRun_units_images (s : State) (r : Run) : (s.setRun r).units.images = s.units.images := rfl
@[simp] theorem State.setCid_core (s : State) (c : CidMark) : (s.setCid c).core = s.core := rfl
@[simp] theorem State.setCid_parked (s : State) (c : CidMark) : (s.setCid c).parked = s.parked := rfl
@[simp] theorem State.setCid_mem (s : State) (c : CidMark) : (s.setCid c).mem = s.mem := rfl
@[simp] theorem State.setCid_sched (s : State) (c : CidMark) : (s.setCid c).sched = s.sched := rfl
@[simp] theorem State.setCid_host (s : State) (c : CidMark) : (s.setCid c).host = s.host := rfl
@[simp] theorem State.setCid_slots (s : State) (c : CidMark) : (s.setCid c).slots = s.slots := rfl
@[simp] theorem State.setCid_measured (s : State) (c : CidMark) : (s.setCid c).measured = s.measured := rfl
@[simp] theorem State.setCid_devKey (s : State) (c : CidMark) : (s.setCid c).devKey = s.devKey := rfl
@[simp] theorem State.setCid_devnum (s : State) (c : CidMark) : (s.setCid c).devnum = s.devnum := rfl
@[simp] theorem State.setCid_peers (s : State) (c : CidMark) : (s.setCid c).peers = s.peers := rfl
@[simp] theorem State.setCid_agenda (s : State) (c : CidMark) : (s.setCid c).agenda = s.agenda := rfl
@[simp] theorem State.setCid_inputs (s : State) (c : CidMark) : (s.setCid c).inputs = s.inputs := rfl
@[simp] theorem State.setCid_outbox (s : State) (c : CidMark) : (s.setCid c).outbox = s.outbox := rfl
@[simp] theorem State.setCid_tick (s : State) (c : CidMark) : (s.setCid c).tick = s.tick := rfl
@[simp] theorem State.setCid_nextId (s : State) (c : CidMark) : (s.setCid c).nextId = s.nextId := rfl
@[simp] theorem State.setCid_units_engines (s : State) (c : CidMark) : (s.setCid c).units.engines = s.units.engines := rfl
@[simp] theorem State.setCid_units_endings (s : State) (c : CidMark) : (s.setCid c).units.endings = s.units.endings := rfl
@[simp] theorem State.setCid_units_agents (s : State) (c : CidMark) : (s.setCid c).units.agents = s.units.agents := rfl
@[simp] theorem State.setCid_units_chains (s : State) (c : CidMark) : (s.setCid c).units.chains = s.units.chains := rfl
@[simp] theorem State.setCid_units_hopPort (s : State) (c : CidMark) : (s.setCid c).units.hopPort = s.units.hopPort := rfl
@[simp] theorem State.setCid_units_routers (s : State) (c : CidMark) : (s.setCid c).units.routers = s.units.routers := rfl
@[simp] theorem State.setCid_units_runs (s : State) (c : CidMark) : (s.setCid c).units.runs = s.units.runs := rfl
@[simp] theorem State.setCid_units_packets (s : State) (c : CidMark) : (s.setCid c).units.packets = s.units.packets := rfl
@[simp] theorem State.setCid_units_messages (s : State) (c : CidMark) : (s.setCid c).units.messages = s.units.messages := rfl
@[simp] theorem State.setCid_units_fronts (s : State) (c : CidMark) : (s.setCid c).units.fronts = s.units.fronts := rfl
@[simp] theorem State.setCid_units_images (s : State) (c : CidMark) : (s.setCid c).units.images = s.units.images := rfl

/-! ### The agenda and time -/

@[simp] theorem State.push_core (s : State) (e : Event) : (s.push e).core = s.core := rfl
@[simp] theorem State.push_parked (s : State) (e : Event) : (s.push e).parked = s.parked := rfl
@[simp] theorem State.push_mem (s : State) (e : Event) : (s.push e).mem = s.mem := rfl
@[simp] theorem State.push_sched (s : State) (e : Event) : (s.push e).sched = s.sched := rfl
@[simp] theorem State.push_units (s : State) (e : Event) : (s.push e).units = s.units := rfl
@[simp] theorem State.push_host (s : State) (e : Event) : (s.push e).host = s.host := rfl
@[simp] theorem State.push_slots (s : State) (e : Event) : (s.push e).slots = s.slots := rfl
@[simp] theorem State.push_measured (s : State) (e : Event) : (s.push e).measured = s.measured := rfl
@[simp] theorem State.push_devKey (s : State) (e : Event) : (s.push e).devKey = s.devKey := rfl
@[simp] theorem State.push_devnum (s : State) (e : Event) : (s.push e).devnum = s.devnum := rfl
@[simp] theorem State.push_peers (s : State) (e : Event) : (s.push e).peers = s.peers := rfl
@[simp] theorem State.push_inputs (s : State) (e : Event) : (s.push e).inputs = s.inputs := rfl
@[simp] theorem State.push_outbox (s : State) (e : Event) : (s.push e).outbox = s.outbox := rfl
@[simp] theorem State.push_tick (s : State) (e : Event) : (s.push e).tick = s.tick := rfl
@[simp] theorem State.push_nextId (s : State) (e : Event) : (s.push e).nextId = s.nextId := rfl
@[simp] theorem State.push_agenda (s : State) (e : Event) : (s.push e).agenda = s.agenda ++ [e] := rfl
@[simp] theorem State.tock_core (s : State) : (s.tock).core = s.core := rfl
@[simp] theorem State.tock_parked (s : State) : (s.tock).parked = s.parked := rfl
@[simp] theorem State.tock_mem (s : State) : (s.tock).mem = { s.mem with waits := false } := rfl
@[simp] theorem State.tock_sched (s : State) : (s.tock).sched = s.sched := rfl
@[simp] theorem State.tock_units (s : State) : (s.tock).units = s.units := rfl
@[simp] theorem State.tock_host (s : State) : (s.tock).host = s.host := rfl
@[simp] theorem State.tock_slots (s : State) : (s.tock).slots = s.slots := rfl
@[simp] theorem State.tock_measured (s : State) : (s.tock).measured = s.measured := rfl
@[simp] theorem State.tock_devKey (s : State) : (s.tock).devKey = s.devKey := rfl
@[simp] theorem State.tock_devnum (s : State) : (s.tock).devnum = s.devnum := rfl
@[simp] theorem State.tock_peers (s : State) : (s.tock).peers = s.peers := rfl
@[simp] theorem State.tock_agenda (s : State) : (s.tock).agenda = s.agenda := rfl
@[simp] theorem State.tock_inputs (s : State) : (s.tock).inputs = s.inputs := rfl
@[simp] theorem State.tock_outbox (s : State) : (s.tock).outbox = s.outbox := rfl
@[simp] theorem State.tock_nextId (s : State) : (s.tock).nextId = s.nextId := rfl
@[simp] theorem State.tock_tick (s : State) : (s.tock).tick = s.tick + 1 := rfl

/-! ### An operation meets a held port -/

@[simp] theorem State.mustWait_core (s : State) : s.mustWait.core = s.core := rfl
@[simp] theorem State.mustWait_parked (s : State) : s.mustWait.parked = s.parked := rfl
@[simp] theorem State.mustWait_sched (s : State) : s.mustWait.sched = s.sched := rfl
@[simp] theorem State.mustWait_units (s : State) : s.mustWait.units = s.units := rfl
@[simp] theorem State.mustWait_host (s : State) : s.mustWait.host = s.host := rfl
@[simp] theorem State.mustWait_slots (s : State) : s.mustWait.slots = s.slots := rfl
@[simp] theorem State.mustWait_measured (s : State) : s.mustWait.measured = s.measured := rfl
@[simp] theorem State.mustWait_devKey (s : State) : s.mustWait.devKey = s.devKey := rfl
@[simp] theorem State.mustWait_devnum (s : State) : s.mustWait.devnum = s.devnum := rfl
@[simp] theorem State.mustWait_peers (s : State) : s.mustWait.peers = s.peers := rfl
@[simp] theorem State.mustWait_agenda (s : State) : s.mustWait.agenda = s.agenda := rfl
@[simp] theorem State.mustWait_inputs (s : State) : s.mustWait.inputs = s.inputs := rfl
@[simp] theorem State.mustWait_outbox (s : State) : s.mustWait.outbox = s.outbox := rfl
@[simp] theorem State.mustWait_tick (s : State) : s.mustWait.tick = s.tick := rfl
@[simp] theorem State.mustWait_nextId (s : State) : s.mustWait.nextId = s.nextId := rfl
@[simp] theorem State.mustWait_mem_cells (s : State) : s.mustWait.mem.cells = s.mem.cells := rfl
@[simp] theorem State.mustWait_mem_cc (s : State) : s.mustWait.mem.cc = s.mem.cc := rfl
@[simp] theorem State.mustWait_mem_poison (s : State) : s.mustWait.mem.poison = s.mem.poison := rfl
@[simp] theorem State.mustWait_mem_btOld (s : State) : s.mustWait.mem.btOld = s.mem.btOld := rfl
@[simp] theorem State.mustWait_mem_ptOld (s : State) : s.mustWait.mem.ptOld = s.mem.ptOld := rfl
@[simp] theorem State.mustWait_mem_walkRoot (s : State) : s.mustWait.mem.walkRoot = s.mem.walkRoot := rfl
@[simp] theorem State.mustWait_mem_leaseRoot (s : State) : s.mustWait.mem.leaseRoot = s.mem.leaseRoot := rfl
@[simp] theorem State.mustWait_mem_icOld (s : State) : s.mustWait.mem.icOld = s.mem.icOld := rfl
@[simp] theorem State.mustWait_mem_tlb (s : State) : s.mustWait.mem.tlb = s.mem.tlb := rfl
@[simp] theorem State.mustWait_mem_lpZeroed (s : State) : s.mustWait.mem.lpZeroed = s.mem.lpZeroed := rfl
@[simp] theorem State.mustWait_mem_refresh (s : State) : s.mustWait.mem.refresh = s.mem.refresh := rfl
@[simp] theorem State.mustWait_mem_chanHeld (s : State) : s.mustWait.mem.chanHeld = s.mem.chanHeld := rfl
@[simp] theorem State.mustWait_mem_rhb (s : State) : s.mustWait.mem.rhb = s.mem.rhb := rfl
@[simp] theorem State.mustWait_mem_waits (s : State) : s.mustWait.mem.waits = true := rfl
/-- What an operation leaves that has met a held port is what it found. -/
theorem State.unlessWaits_of_waits {s t : State} (h : t.mem.waits = true) : s.unlessWaits t = s := by
  simp [State.unlessWaits, h]
/-- What an operation leaves that has met none is its result. -/
theorem State.unlessWaits_of_done {s t : State} (h : t.mem.waits = false) : s.unlessWaits t = t := by
  simp [State.unlessWaits, h]

/-! ### A store agent -/

@[simp] theorem State.setAgent_core (s : State) (q : Agent) : (s.setAgent q).core = s.core := rfl
@[simp] theorem State.setAgent_parked (s : State) (q : Agent) : (s.setAgent q).parked = s.parked := rfl
@[simp] theorem State.setAgent_mem (s : State) (q : Agent) : (s.setAgent q).mem = s.mem := rfl
@[simp] theorem State.setAgent_sched (s : State) (q : Agent) : (s.setAgent q).sched = s.sched := rfl
@[simp] theorem State.setAgent_host (s : State) (q : Agent) : (s.setAgent q).host = s.host := rfl
@[simp] theorem State.setAgent_slots (s : State) (q : Agent) : (s.setAgent q).slots = s.slots := rfl
@[simp] theorem State.setAgent_measured (s : State) (q : Agent) : (s.setAgent q).measured = s.measured := rfl
@[simp] theorem State.setAgent_devKey (s : State) (q : Agent) : (s.setAgent q).devKey = s.devKey := rfl
@[simp] theorem State.setAgent_devnum (s : State) (q : Agent) : (s.setAgent q).devnum = s.devnum := rfl
@[simp] theorem State.setAgent_peers (s : State) (q : Agent) : (s.setAgent q).peers = s.peers := rfl
@[simp] theorem State.setAgent_agenda (s : State) (q : Agent) : (s.setAgent q).agenda = s.agenda := rfl
@[simp] theorem State.setAgent_inputs (s : State) (q : Agent) : (s.setAgent q).inputs = s.inputs := rfl
@[simp] theorem State.setAgent_outbox (s : State) (q : Agent) : (s.setAgent q).outbox = s.outbox := rfl
@[simp] theorem State.setAgent_tick (s : State) (q : Agent) : (s.setAgent q).tick = s.tick := rfl
@[simp] theorem State.setAgent_nextId (s : State) (q : Agent) : (s.setAgent q).nextId = s.nextId := rfl
@[simp] theorem State.setAgent_units_engines (s : State) (q : Agent) : (s.setAgent q).units.engines = s.units.engines := rfl
@[simp] theorem State.setAgent_units_endings (s : State) (q : Agent) : (s.setAgent q).units.endings = s.units.endings := rfl
@[simp] theorem State.setAgent_units_chains (s : State) (q : Agent) : (s.setAgent q).units.chains = s.units.chains := rfl
@[simp] theorem State.setAgent_units_hopPort (s : State) (q : Agent) : (s.setAgent q).units.hopPort = s.units.hopPort := rfl
@[simp] theorem State.setAgent_units_routers (s : State) (q : Agent) : (s.setAgent q).units.routers = s.units.routers := rfl
@[simp] theorem State.setAgent_units_runs (s : State) (q : Agent) : (s.setAgent q).units.runs = s.units.runs := rfl
@[simp] theorem State.setAgent_units_cids (s : State) (q : Agent) : (s.setAgent q).units.cids = s.units.cids := rfl
@[simp] theorem State.setAgent_units_packets (s : State) (q : Agent) : (s.setAgent q).units.packets = s.units.packets := rfl
@[simp] theorem State.setAgent_units_messages (s : State) (q : Agent) : (s.setAgent q).units.messages = s.units.messages := rfl
@[simp] theorem State.setAgent_units_fronts (s : State) (q : Agent) : (s.setAgent q).units.fronts = s.units.fronts := rfl
@[simp] theorem State.setAgent_units_images (s : State) (q : Agent) : (s.setAgent q).units.images = s.units.images := rfl

end Sys2Proof.Machine
end

