-- ==== Sys2Proof/Tests/Slice0.lean ====
section
/-!
SUPPORT. Tests: words written out from the spec's encodings and what they decode to, slots that are not
well formed, single steps whose results the spec gives, and for each statement of
Certificates/Slice0/Obligations.lean states and operands that meet its hypotheses.
-/
namespace Sys2Proof.Tests
open Sys2Proof Sys2Proof.Machine Sys2Proof.Claims

set_option maxRecDepth 100000
-- one thread: a test that waits for the kernel would otherwise hold a thread and its stack
set_option Elab.async false

/-! ### Decoding -/

/-- Words of the Control rows, each field at a value of its own (spec/opcode_table.json; the IMM slots by 04 R82, 09 R195, 11 R244, 13 R288). -/
def wordsControl : List (List SlotWord × Instr) :=
  [([0xB0170005], .br (H 3 1 []) 1 65541),
   ([0xB02402C0], .bri (H 3 1 []) 11),
   ([0xB0370005], .call (H 3 1 []) 1 65541),
   ([0xB04402C0], .calli (H 3 1 []) 11),
   ([0xB0540000], .ret (H 3 1 [])),
   ([0xB064BEEF], .yield (H 3 1 []) 48879),
   ([0xB0741234], .dly (H 3 1 []) 4660),
   ([0xB084BEEF], .susp (H 3 1 []) 48879),
   ([0xB0940000], .exit (H 3 1 [])),
   ([0x30A4B1D3, 0x0FF12345, 0x8FF6789A], .spawn (H 3 1 [0x12345, 0x6789a]) 11 7 19),
   ([0xB0B66ABC], .wtk (H 3 1 []) 19 2748),
   ([0xB0B672C0], .wtkRf1 (H 3 1 []) 19 11),
   ([0xB0C66ABC], .wtks (H 3 1 []) 19 2748),
   ([0xB0C672C0], .wtksRf1 (H 3 1 []) 19 11),
   ([0xB0D40000], .sync (H 3 1 [])),
   ([0xB0E4CAFE], .swtrap (H 3 1 []) 51966),
   ([0x80F6ABCD], .brk (H 0 1 []) 175053),
   ([0xB1076405], .bdnz (H 3 1 []) 1 44 1029)]

theorem test_decode_Control : ∀ r ∈ wordsControl, decode r.1 = some r.2 ∧ encode r.2 = r.1 := by
  decide +kernel

/-- Part 1 of `wordsScalar`. -/
def wordsScalar1 : List (List SlotWord × Instr) :=
  [([0xB207FAA5], .add (H 3 1 []) 63 42 37),
   ([0xB214D2E6], .addi (H 3 1 []) 13 11 38),
   ([0xB227FAA5], .sub (H 3 1 []) 63 42 37),
   ([0xB237FAA5], .mul (H 3 1 []) 63 42 37),
   ([0xB244D2C7], .mulh (H 3 1 []) 13 11 7),
   ([0xB254D2C7], .mulhu (H 3 1 []) 13 11 7),
   ([0x3264D2C7, 0x8FF0000B], .div (H 3 1 [0xb]) 13 11 7),
   ([0x3274D2C7, 0x8FF0000B], .divu (H 3 1 [0xb]) 13 11 7),
   ([0x3284D2C7, 0x8FF0000B], .rem (H 3 1 [0xb]) 13 11 7),
   ([0x3294D2C7, 0x8FF0000B], .remu (H 3 1 [0xb]) 13 11 7),
   ([0xB2A4D2C7], .and_ (H 3 1 []) 13 11 7),
   ([0xB2B4D2E6], .andi (H 3 1 []) 13 11 38),
   ([0xB2C4D2C7], .or_ (H 3 1 []) 13 11 7),
   ([0xB2D4D2E6], .ori (H 3 1 []) 13 11 38),
   ([0xB2E4D2C7], .xor_ (H 3 1 []) 13 11 7),
   ([0xB2F4D2E6], .xori (H 3 1 []) 13 11 38),
   ([0xB304D2C7], .shl (H 3 1 []) 13 11 7),
   ([0xB314D2E6], .shli (H 3 1 []) 13 11 38),
   ([0xB324D2C7], .shr (H 3 1 []) 13 11 7),
   ([0xB334D2E6], .shri (H 3 1 []) 13 11 38)]
/-- Part 2 of `wordsScalar`. -/
def wordsScalar2 : List (List SlotWord × Instr) :=
  [([0xB344D2C7], .sra (H 3 1 []) 13 11 7),
   ([0xB354D2E6], .srai (H 3 1 []) 13 11 38),
   ([0xB364D2C7], .min (H 3 1 []) 13 11 7),
   ([0xB374D2C7], .max (H 3 1 []) 13 11 7),
   ([0xB384D2C7], .minu (H 3 1 []) 13 11 7),
   ([0xB394D2C7], .maxu (H 3 1 []) 13 11 7),
   ([0xB3A4D2C7], .adds (H 3 1 []) 13 11 7),
   ([0xB3B4D2C7], .subs (H 3 1 []) 13 11 7),
   ([0xB3C4D2C0], .clz (H 3 1 []) 13 11),
   ([0xB3D4D2C0], .popc (H 3 1 []) 13 11),
   ([0xB3E4D9A5], .movi (H 3 1 []) 13 2469),
   ([0xB3F4D2C7], .sel (H 3 1 []) 13 11 7),
   ([0xB404D2C7], .bptr (H 3 1 []) 13 11 7),
   ([0xB414D2C7], .bpadd (H 3 1 []) 13 11 7),
   ([0xB426C2C7], .bpchk (H 3 1 []) 2 3 11 7),
   ([0x3434D2C0, 0x8FF0020C], .bfx (H 3 1 [0x20c]) 13 11),
   ([0x3444D2C0, 0x8FF0020C], .bfxu (H 3 1 [0x20c]) 13 11),
   ([0x3454D2C7, 0x8FF0020C], .bfi (H 3 1 [0x20c]) 13 11 7),
   ([0xB46622C7], .cmp (H 3 1 []) 2 2 11 7),
   ([0xB47622E6], .cmpi (H 3 1 []) 2 2 11 38)]
/-- Part 3 of `wordsScalar`. -/
def wordsScalar3 : List (List SlotWord × Instr) :=
  [([0xB48756C0], .plog (H 3 1 []) 6 5 3 6),
   ([0xB494D000], .pmovTos (H 3 1 []) 13),
   ([0xB49402C1], .pmovFroms (H 3 1 []) 11),
   ([0x34A4D2C7, 0x8FF64000], .wmrg (H 3 1 [0x64000]) 13 11 7),
   ([0xB4B4D2C8], .wmovTow (H 3 1 []) 13 11 1),
   ([0xB4B4D2D8], .wmovTos (H 3 1 []) 13 11 1),
   ([0xB4B4D2E0], .wmov (H 3 1 []) 13 11),
   ([0xB4C4D000], .wnull (H 3 1 []) 13)]
/-- Words of the Scalar rows, each field at a value of its own (spec/opcode_table.json; the IMM slots by 04 R82, 09 R195, 11 R244, 13 R288). -/
def wordsScalar : List (List SlotWord × Instr) :=
  wordsScalar1 ++ wordsScalar2 ++ wordsScalar3

theorem test_decode_Scalar : ∀ r ∈ wordsScalar, decode r.1 = some r.2 ∧ encode r.2 = r.1 := by
  decide +kernel

/-- Words of the Float rows, each field at a value of its own (spec/opcode_table.json; the IMM slots by 04 R82, 09 R195, 11 R244, 13 R288). -/
def wordsFloat : List (List SlotWord × Instr) :=
  [([0xB504D2C7], .faddF32 (H 3 1 []) 13 11 7),
   ([0xB514D2C7], .faddF64 (H 3 1 []) 13 11 7),
   ([0xB524D2C7], .fsubF32 (H 3 1 []) 13 11 7),
   ([0xB534D2C7], .fsubF64 (H 3 1 []) 13 11 7),
   ([0xB544D2C7], .fmulF32 (H 3 1 []) 13 11 7),
   ([0xB554D2C7], .fmulF64 (H 3 1 []) 13 11 7),
   ([0xB564D2C7], .ffmaF32 (H 3 1 []) 13 11 7),
   ([0xB574D2C7], .ffmaF64 (H 3 1 []) 13 11 7),
   ([0xB584D2C7], .fminF32 (H 3 1 []) 13 11 7),
   ([0xB594D2C7], .fminF64 (H 3 1 []) 13 11 7),
   ([0xB5A4D2C7], .fmaxF32 (H 3 1 []) 13 11 7),
   ([0xB5B4D2C7], .fmaxF64 (H 3 1 []) 13 11 7),
   ([0xB5C652C7], .fcmp (H 3 1 []) 2 2 1 11 7),
   ([0x35D4D2C0, 0x8FF00010], .fcvt (H 3 1 [0x10]) 13 11),
   ([0xB5E4D2C1], .fcls (H 3 1 []) 13 11 1)]

theorem test_decode_Float : ∀ r ∈ wordsFloat, decode r.1 = some r.2 ∧ encode r.2 = r.1 := by
  decide +kernel

/-- Words of the Memory rows, each field at a value of its own (spec/opcode_table.json; the IMM slots by 04 R82, 09 R195, 11 R244, 13 R288). -/
def wordsMemory : List (List SlotWord × Instr) :=
  [([0x3604D2D0, 0x0FF4EC00, 0x8FF81234], .ld (H 3 1 [0x4ec00, 0x81234]) 13 11 2),
   ([0x3614D2E0, 0x0FF4ED90, 0x8FF7FFFF], .st (H 3 1 [0x4ed90, 0x7ffff]) 13 11 2),
   ([0x3624D2C0, 0x0FF4EC00, 0x8FF81234], .vld (H 3 1 [0x4ec00, 0x81234]) 13 11),
   ([0x3634D2C0, 0x0FF4ED90, 0x8FF7FFFF], .vst (H 3 1 [0x4ed90, 0x7ffff]) 13 11),
   ([0x3644D2C7, 0x0FF4EC00, 0x8FF81234], .vlds (H 3 1 [0x4ec00, 0x81234]) 13 11 7),
   ([0x3654D2C7, 0x0FF4ED90, 0x8FF7FFFF], .vsts (H 3 1 [0x4ed90, 0x7ffff]) 13 11 7),
   ([0x3664D2C7, 0x0FF4EC00, 0x8FF81234], .vgth (H 3 1 [0x4ec00, 0x81234]) 13 11 7),
   ([0x3674D2C7, 0x0FF4ED90, 0x8FF7FFFF], .vsct (H 3 1 [0x4ed90, 0x7ffff]) 13 11 7),
   ([0xB684A2C7], .fmt (H 3 1 []) 10 11 7),
   ([0xB6940240], .vjoin (H 3 1 []) 9),
   ([0xB6940001], .vjoinClr (H 3 1 [])),
   ([0x36A512C1, 0x8FF34D60], .cflush (H 3 1 [0x34d60]) 17 11 1),
   ([0xB6B512C1], .pref (H 3 1 []) 17 11 1),
   ([0xB6C682E4], .sbind (H 3 1 []) 5 11 9),
   ([0xB6C6C000], .sbindU (H 3 1 []) 5),
   ([0xB6D662C0], .tksv (H 3 1 []) 19 11),
   ([0xB6E662C0], .tkld (H 3 1 []) 19 11)]

theorem test_decode_Memory : ∀ r ∈ wordsMemory, decode r.1 = some r.2 ∧ encode r.2 = r.1 := by
  decide +kernel

/-- Words of the Sync rows, each field at a value of its own (spec/opcode_table.json; the IMM slots by 04 R82, 09 R195, 11 R244, 13 R288). -/
def wordsSync : List (List SlotWord × Instr) :=
  [([0x36F4D2C7, 0x0FF1C0A4, 0x8FF00040], .aadd (H 3 1 [0x1c0a4, 0x40]) 13 11 7),
   ([0x3704D2C7, 0x0FF1C0A4, 0x8FF00040], .aand (H 3 1 [0x1c0a4, 0x40]) 13 11 7),
   ([0x3714D2C7, 0x0FF1C0A4, 0x8FF00040], .aor (H 3 1 [0x1c0a4, 0x40]) 13 11 7),
   ([0x3724D2C7, 0x0FF1C0A4, 0x8FF00040], .axor (H 3 1 [0x1c0a4, 0x40]) 13 11 7),
   ([0x3734D2C7, 0x0FF1C0A4, 0x8FF00040], .amin (H 3 1 [0x1c0a4, 0x40]) 13 11 7),
   ([0x3744D2C7, 0x0FF1C0A4, 0x8FF00040], .amax (H 3 1 [0x1c0a4, 0x40]) 13 11 7),
   ([0x3754D2C7, 0x0FF1C0A4, 0x8FF00040], .aminu (H 3 1 [0x1c0a4, 0x40]) 13 11 7),
   ([0x3764D2C7, 0x0FF1C0A4, 0x8FF00040], .amaxu (H 3 1 [0x1c0a4, 0x40]) 13 11 7),
   ([0x3774D2C7, 0x0FF1C0A4, 0x8FF00040], .aswp (H 3 1 [0x1c0a4, 0x40]) 13 11 7),
   ([0x3784D2C7, 0x0FF1C0A4, 0x8FF00040], .acas (H 3 1 [0x1c0a4, 0x40]) 13 11 7),
   ([0x3794D2C7, 0x0FF1C0A4, 0x8FF00040], .aaddf (H 3 1 [0x1c0a4, 0x40]) 13 11 7),
   ([0x37A4D2C7, 0x0FF1C0A6, 0x8FF00040], .amaxf (H 3 1 [0x1c0a6, 0x40]) 13 11 7),
   ([0x37B4D2C7, 0x0FF1C0A6, 0x8FF00040], .aminf (H 3 1 [0x1c0a6, 0x40]) 13 11 7),
   ([0x37E4D2C0, 0x8FFBC000], .wchk (H 3 1 [0xbc000]) 13 11),
   ([0xB7F402C0], .wwait (H 3 1 []) 11),
   ([0xB7F402C1], .wwaitS (H 3 1 []) 11)]

theorem test_decode_Sync : ∀ r ∈ wordsSync, decode r.1 = some r.2 ∧ encode r.2 = r.1 := by
  decide +kernel

/-- Words of the VectorInteger rows, each field at a value of its own (spec/opcode_table.json; the IMM slots by 04 R82, 09 R195, 11 R244, 13 R288). -/
def wordsVectorInteger : List (List SlotWord × Instr) :=
  [([0xB806FFF0], .vaddI32 (H 3 1 []) 47 63 48),
   ([0xB814D2C7], .vsubI32 (H 3 1 []) 13 11 7),
   ([0xB824D2C7], .vmulI32 (H 3 1 []) 13 11 7),
   ([0xB834D2C7], .vminI32 (H 3 1 []) 13 11 7),
   ([0xB844D2C7], .vmaxI32 (H 3 1 []) 13 11 7),
   ([0xB854D2C7], .vminu (H 3 1 []) 13 11 7),
   ([0xB864D2C7], .vmaxu (H 3 1 []) 13 11 7),
   ([0xB874D2C7], .vand (H 3 1 []) 13 11 7),
   ([0xB884D2C7], .vor (H 3 1 []) 13 11 7),
   ([0xB894D2C7], .vxor (H 3 1 []) 13 11 7),
   ([0xB8A4D2C7], .vshl (H 3 1 []) 13 11 7),
   ([0xB8B4D2C7], .vshr (H 3 1 []) 13 11 7),
   ([0xB8C4D2C7], .vsra (H 3 1 []) 13 11 7),
   ([0xB8D622C7], .vcmpI32 (H 3 1 []) 2 2 11 7),
   ([0xB8E622C7], .vcmpu (H 3 1 []) 2 2 11 7),
   ([0xB8F4D2C7], .vaddsI32 (H 3 1 []) 13 11 7)]

theorem test_decode_VectorInteger : ∀ r ∈ wordsVectorInteger, decode r.1 = some r.2 ∧ encode r.2 = r.1 := by
  decide +kernel

/-- Part 1 of `wordsVectorFloat`. -/
def wordsVectorFloat1 : List (List SlotWord × Instr) :=
  [([0xB906FFF0], .vaddF32 (H 3 1 []) 47 63 48),
   ([0xB914D2C7], .vsubF32 (H 3 1 []) 13 11 7),
   ([0xB924D2C7], .vmulF32 (H 3 1 []) 13 11 7),
   ([0xB934D2C7], .vfmaF32 (H 3 1 []) 13 11 7),
   ([0xB944D2C7], .vminF32 (H 3 1 []) 13 11 7),
   ([0xB954D2C7], .vmaxF32 (H 3 1 []) 13 11 7),
   ([0xB96622C7], .vcmpF32 (H 3 1 []) 2 2 11 7),
   ([0x3974D2C0, 0x8FF00820], .vcvt (H 3 1 [0x820]) 13 11),
   ([0xB984D2C7], .vaddF64 (H 3 1 []) 13 11 7),
   ([0xB994D2C7], .vsubF64 (H 3 1 []) 13 11 7),
   ([0xB9A4D2C7], .vmulF64 (H 3 1 []) 13 11 7),
   ([0xB9B4D2C7], .vfmaF64 (H 3 1 []) 13 11 7),
   ([0xB9C4D2C7], .vminF64 (H 3 1 []) 13 11 7),
   ([0xB9D4D2C7], .vmaxF64 (H 3 1 []) 13 11 7),
   ([0xB9E622C7], .vcmpF64 (H 3 1 []) 2 2 11 7),
   ([0xBA04D2C7], .vaddBf16 (H 3 1 []) 13 11 7),
   ([0xBA14D2C7], .vmulBf16 (H 3 1 []) 13 11 7),
   ([0xBA24D2C7], .vfmaBf16 (H 3 1 []) 13 11 7),
   ([0xBA34D2C7], .vaddF16 (H 3 1 []) 13 11 7),
   ([0xBA44D2C7], .vmulF16 (H 3 1 []) 13 11 7)]
/-- Part 2 of `wordsVectorFloat`. -/
def wordsVectorFloat2 : List (List SlotWord × Instr) :=
  [([0xBA54D2C7], .vfmaF16 (H 3 1 []) 13 11 7)]
/-- Words of the VectorFloat rows, each field at a value of its own (spec/opcode_table.json; the IMM slots by 04 R82, 09 R195, 11 R244, 13 R288). -/
def wordsVectorFloat : List (List SlotWord × Instr) :=
  wordsVectorFloat1 ++ wordsVectorFloat2

theorem test_decode_VectorFloat : ∀ r ∈ wordsVectorFloat, decode r.1 = some r.2 ∧ encode r.2 = r.1 := by
  decide +kernel

/-- Part 1 of `wordsVectorMove`. -/
def wordsVectorMove1 : List (List SlotWord × Instr) :=
  [([0xBA6756C0], .vmlog (H 3 1 []) 6 5 3 6),
   ([0xBA74D180], .vmmovTos (H 3 1 []) 13 6),
   ([0xBA7462C1], .vmmovFroms (H 3 1 []) 6 11),
   ([0xBA84D2C7], .vsel (H 3 1 []) 13 11 7),
   ([0xBA94D2C7], .vperm (H 3 1 []) 13 11 7),
   ([0x3AA4D2C7, 0x8FF000A4], .vshuf (H 3 1 [0xa4]) 13 11 7),
   ([0xBAB4D2C1], .vbcst (H 3 1 []) 13 11 1),
   ([0xBAC4D2E6], .vext (H 3 1 []) 13 11 38),
   ([0xBAD4D2E6], .vins (H 3 1 []) 13 11 38),
   ([0xBAE4D2C0], .vmov (H 3 1 []) 13 11),
   ([0xBAF4D2E6], .vidx (H 3 1 []) 13 11 38),
   ([0xBB04D2C0], .vrsumF32 (H 3 1 []) 13 11),
   ([0xBB14D2C0], .vrsumF64 (H 3 1 []) 13 11),
   ([0xBB24D2C0], .vrsumI32 (H 3 1 []) 13 11),
   ([0xBB34D2DE], .vrmax (H 3 1 []) 13 11 7 1 0),
   ([0xBB44D2DE], .vrmin (H 3 1 []) 13 11 7 1 0),
   ([0xBB54D2C0], .vscanF32 (H 3 1 []) 13 11),
   ([0xBB64D2C0], .vrcp (H 3 1 []) 13 11),
   ([0xBB74D2C0], .vrsq (H 3 1 []) 13 11),
   ([0xBB84D2C0], .vexp2 (H 3 1 []) 13 11)]
/-- Part 2 of `wordsVectorMove`. -/
def wordsVectorMove2 : List (List SlotWord × Instr) :=
  [([0xBB94D2C0], .vlog2 (H 3 1 []) 13 11),
   ([0x3BA4D2C7, 0x8FF0000A], .vqnt (H 3 1 [0xa]) 13 11 7),
   ([0x3BB4D2C7, 0x8FF0000A], .vdqt (H 3 1 [0xa]) 13 11 7),
   ([0xBBC4D2C7], .vrnd (H 3 1 []) 13 11 7)]
/-- Words of the VectorMove rows, each field at a value of its own (spec/opcode_table.json; the IMM slots by 04 R82, 09 R195, 11 R244, 13 R288). -/
def wordsVectorMove : List (List SlotWord × Instr) :=
  wordsVectorMove1 ++ wordsVectorMove2

theorem test_decode_VectorMove : ∀ r ∈ wordsVectorMove, decode r.1 = some r.2 ∧ encode r.2 = r.1 := by
  decide +kernel

/-- Words of the Chain rows, each field at a value of its own (spec/opcode_table.json; the IMM slots by 04 R82, 09 R195, 11 R244, 13 R288). -/
def wordsChain : List (List SlotWord × Instr) :=
  [([0x3C068B1C, 0x8FF2E645], .mxa (H 3 1 [0x2e645]) 10 11 7),
   ([0x3C168B1C, 0x8FF2E645], .mxg (H 3 1 [0x2e645]) 10 11 7),
   ([0x3C268B1C, 0x8FF2E645], .mxt (H 3 1 [0x2e645]) 10 11 7),
   ([0x3C3682C0, 0x8FF00070], .chb (H 3 1 [0x70]) 10 11),
   ([0x3C468B1C, 0x8FF2E645], .chc (H 3 1 [0x2e645]) 10 11 7),
   ([0xBC54D2C0], .chq (H 3 1 []) 13 11),
   ([0x3C6682C0, 0x8FF00070], .chs (H 3 1 [0x70]) 10 11),
   ([0xBC76A500], .chf (H 3 1 []) 677),
   ([0xBC84DA94], .cht (H 3 1 []) 13 677),
   ([0xBC96A500], .chx (H 3 1 []) 677),
   ([0x3CA4DA2C, 0x8FF45000], .lkrd (H 3 1 [0x45000]) 13 10 11),
   ([0x3CB682C0, 0x8FF45400], .lkld (H 3 1 [0x45400]) 10 11),
   ([0xBCC68000], .lkz (H 3 1 []) 10),
   ([0xBCD702C0], .ems (H 3 1 []) 1 2 11),
   ([0xBCD74020], .emsN (H 3 1 []) 1 2 32)]

theorem test_decode_Chain : ∀ r ∈ wordsChain, decode r.1 = some r.2 ∧ encode r.2 = r.1 := by
  decide +kernel

/-- Words of the Engine rows, each field at a value of its own (spec/opcode_table.json; the IMM slots by 04 R82, 09 R195, 11 R244, 13 R288). -/
def wordsEngine : List (List SlotWord × Instr) :=
  [([0x3E0782C0, 0x0FF3CD60, 0x8FF34000], .cpy (H 3 1 [0x3cd60, 0x34000]) 14 11),
   ([0x3E1782C0, 0x0FF3CD60, 0x8FF34000], .cpyr (H 3 1 [0x3cd60, 0x34000]) 14 11),
   ([0x3E2782C0, 0x8FF34D60], .coll (H 3 1 [0x34d60]) 14 11),
   ([0x3E34D2C0, 0x8FFBC000], .abrt (H 3 1 [0xbc000]) 13 11),
   ([0x3E4782C7, 0x8FF3C000], .arm (H 3 1 [0x3c000]) 14 11 7),
   ([0x3E5782C7, 0x8FF34D60], .pub (H 3 1 [0x34d60]) 14 11 7),
   ([0x3E6612C7, 0x8FFBC000], .rpsnd (H 3 1 [0xbc000]) 33 11 7),
   ([0x3E74D2C7, 0x8FFBC000], .rprcv (H 3 1 [0xbc000]) 13 11 7),
   ([0xBE84DE13], .est (H 3 1 []) 13 14 19)]

theorem test_decode_Engine : ∀ r ∈ wordsEngine, decode r.1 = some r.2 ∧ encode r.2 = r.1 := by
  decide +kernel

/-- Words of the System rows, each field at a value of its own (spec/opcode_table.json; the IMM slots by 04 R82, 09 R195, 11 R244, 13 R288). -/
def wordsSystem : List (List SlotWord × Instr) :=
  [([0xBF04D44C], .srrd (H 3 1 []) 13 275),
   ([0xBF15132C], .srwr (H 3 1 []) 275 11),
   ([0xBF240000], .eret (H 3 1 [])),
   ([0xBF240001], .eretS (H 3 1 [])),
   ([0xBF3422C7], .icinv (H 3 1 []) 2 11 7),
   ([0xBF44DE2C], .eqrd (H 3 1 []) 13 14 11),
   ([0xBF5782C7], .eqwr (H 3 1 []) 14 11 7),
   ([0xBF640000], .btinv (H 3 1 [])),
   ([0xBF7402C7], .tlbinv (H 3 1 []) 11 7)]

theorem test_decode_System : ∀ r ∈ wordsSystem, decode r.1 = some r.2 ∧ encode r.2 = r.1 := by
  decide +kernel

/-- An IMM slot alone is IMM (04 R82). -/
theorem test_decode_imm : decodeTableWord 32 0x0FFABCDE = some (.imm 0xABCDE) := by decide +kernel

/-! ### States for the tests -/

/-- The state after reset. -/
abbrev z : State := State.reset
/-- A header with no guard, lane 0 and the given IMM slots. -/
abbrev hx (x : List (BitVec 20)) : Hdr := ⟨0, 0, x⟩
/-- A header without IMM slots. -/
abbrev h0 : Hdr := hx []
/-- A state with values in scalar registers. -/
def scal (s : State) (l : List (Nat × Word)) : State :=
  s.setRegs { s.core.regs with s := l.foldl (fun v p => v.setIfInBounds p.1 p.2) s.core.regs.s }
/-- A state with values in vector registers, given as lanes from lane 0 on. -/
def vec (s : State) (l : List (Nat × List Nat)) : State :=
  s.setRegs { s.core.regs with v := l.foldl (fun v p => v.setIfInBounds p.1 (BitVec.ofNat 2048
    (p.2.foldr (fun x acc => x % 2 ^ 32 + 2 ^ 32 * acc) 0))) s.core.regs.v }
/-- A state with a lane mask. -/
def msk (s : State) (n : Nat) (m : BitVec 64) : State :=
  s.setRegs { s.core.regs with m := s.core.regs.m.setIfInBounds n m }
/-- A state with a witness register. -/
def wit (s : State) (n : Nat) (w : Witness) : State :=
  s.setRegs { s.core.regs with w := s.core.regs.w.setIfInBounds n w }
/-- A state with a token. -/
def token (s : State) (t : Nat) (k : Token) : State := s.setRegs (s.core.regs.setTok t k)
/-- A state in handler mode. -/
def inH (s : State) : State := s.setCont { s.core.cont with handler := true }
/-- A state whose continuation is pinned by an open link. -/
def pin (s : State) : State := s.setCont { s.core.cont with openk := 1 }
/-- The words of a buffer-table entry (01 R30). -/
def bufWords (tier rights base len lease : Nat) : Nat :=
  (2 ^ 63 + tier * 2 ^ 60 + rights * 2 ^ 55 + base) + len * 2 ^ 64 +
    ((if tier = 0 then 2 ^ 52 + 2 ^ 38 else 0) + lease) * 2 ^ 128
/-- A job with a buffer table of four entries at 0x1000. -/
def job0 : Job := ⟨0, 1, 0, 0x1000, 3, 0, 0, 0, 100, 0, [], none, 0⟩
/-- A device with that job: entry 0 is HBM with R, W and A, entry 1 HBM with R and X, entry 2 HBM with R and
L, entry 3 a lease with R, W and A; the first megabyte of HBM is translated to the second. -/
def world : State :=
  let s := (((z.wr 0x1000 32 (bufWords 0 28 0 0x10000 0)).wr 0x1020 32 (bufWords 0 18 0x10000 0x10000 0)).wr 0x1040 32
    (bufWords 0 17 0x20000 0x10000 0)).wr 0x1060 32 (bufWords 3 28 0 0x1000 0)
  { s with
    mem := { s.mem with tlb := [⟨0, 0, 0, 2 ^ 20, 2 ^ 20⟩] }
    sched := { s.sched with jobs := [job0] } }
/-- An access of a core that has just been reset. -/
def acc (op : AccOp) (p : Part) : Access :=
  ⟨5, 0, 0, 0, 0, 0, 0, op, true, [p], [], [], 3, [], 0, 0, none, none, 0, 0, false, false, []⟩

/-- The results of a slot, in issue order. -/
def landed (o : Out) : List Write := match o with | .next t => t.core.pipe.fresh.map Landing.write | _ => []
/-- The state that a slot gives. -/
def after (o : Out) : State := match o with | .next t => t | _ => z


/-- A continuation at its yield 0, with cycles of its slice left. -/
def yielding : State :=
  let s := z.setCont { z.core.cont with obj := { ObjInfo.none with yields := [⟨0, 5, 0xFFFF⟩], entries := [⟨0, 5, 1, 0xFFFF⟩] } }
  { s with core := { s.core with acct := 6 } }

/-! ### Ill-formed slots -/

/-- Ill-formed slots: IMM slots missing or surplus, lanes that the files do not have (04 R77, R82). -/
def illFormedFrame : List Instr :=
  [.spawn (hx [0]) 3 4 31, .ld h0 3 4 0, .add (hx [0]) 3 4 5, .mxa h0 0 1 2, .vsel (hx [0]) 3 4 5, .add ⟨0, 3, []⟩ 3 4 5,
   .vaddF32 ⟨0, 2, []⟩ 1 2 3, .vst ⟨0, 2, [0]⟩ 1 2]
/-- Ill-formed slots: the B unit (04 R79; 06 R117, R122, R125; 14 R324). -/
def illFormedB : List Instr :=
  [.brk ⟨1, 0, []⟩ 0, .bdnz h0 1 0 0, .dly h0 0, .wtk (hx [1]) 3 1, .wtk (hx [0x10000]) 3 0, .wtks (hx [0x80000]) 3 0, .icinv h0 3 1 2]
/-- Ill-formed slots: the S unit (06 R128 to R141; 13 R289, R290). -/
def illFormedS : List Instr :=
  [.addi (hx [1]) 3 4 1, .andi (hx [1]) 3 4 1, .ori (hx [1]) 3 4 1, .xori (hx [1]) 3 4 1, .movi (hx [1]) 3 1, .div (hx [32]) 3 4 5,
   .divu (hx [32]) 3 4 5, .rem (hx [32]) 3 4 5, .remu (hx [32]) 3 4 5, .bpadd (hx [1]) 3 4 1, .bpchk h0 0 0 3 1, .bpchk (hx [1]) 1 0 3 1,
   .bfx (hx [0]) 3 4, .bfxu (hx [0x1040]) 3 4, .bfi (hx [0x107F]) 3 4 5, .bfi (hx [0x2040]) 3 4 5, .cmp h0 0 0 3 4, .cmp h0 1 6 3 4,
   .cmpi (hx [1]) 1 0 3 1, .fcmp h0 1 4 0 3 4, .fcvt (hx [0x11]) 3 4, .fcvt (hx [0x90]) 3 4, .fcvt (hx [0x110]) 3 4, .fcvt (hx [0x810]) 3 4,
   .wmrg h0 16 1 2, .wmrg (hx [0x4C001]) 1 2 3, .wmovTow h0 16 3 0, .wmovTos h0 3 16 0, .wmov h0 1 16, .wnull h0 16,
   .srrd h0 3 0x007, .srwr h0 0x0A0 3]
/-- Ill-formed slots: the M unit (09 R194 to R205; 13 R287 to R293). -/
def illFormedM : List Instr :=
  [.ld (hx [0]) 3 4 7, .ld (hx [0x10]) 3 4 0, .st (hx [1]) 3 4 0, .st (hx [0x8000]) 3 4 0, .vld (hx [0]) 48 4, .vlds (hx [0]) 3 4 5,
   .vgth (hx [0]) 3 4 5, .vsts (hx [0]) 3 4 5, .vsct (hx [0]) 3 4 5, .cflush (hx [0]) 1 3 0, .pub (hx [0]) 0 3 4, .fmt h0 48 3 4,
   .pref h0 1 3 3, .aadd (hx [0]) 5 3 4, .aadd (hx [0x4C002]) 5 3 4, .aadd (hx [0x4C008]) 5 3 4, .acas (hx [0x4C001]) 5 3 4,
   .amaxf (hx [0x4C001]) 5 3 4, .wchk (hx [0]) 3 1, .wchk (hx [0x4C000]) 3 16, .wwait h0 16, .wwaitS h0 16]
/-- Ill-formed slots: the V unit (07 R145 to R160). -/
def illFormedV : List Instr :=
  [.vand h0 48 1 2, .vshl h0 48 1 2, .vshl (hx [32]) 3 1 0, .vaddF32 (hx [4]) 3 1 2, .vminF32 (hx [2]) 3 1 2, .vcmpI32 h0 0 0 1 2,
   .vcmpF32 h0 1 4 1 2, .vcvt (hx [0x1020]) 3 1, .vcvt (hx [0x22]) 3 1, .vmmovTos h0 3 8, .vmmovFroms h0 8 3, .vshuf (hx [5]) 3 1 2,
   .vshuf (hx [0x20]) 3 1 2, .vbcst h0 48 3 0, .vext (hx [1]) 3 1 63, .vins (hx [2]) 3 1 0, .vmov h0 48 1, .vidx h0 48 1 0,
   .vrmax h0 3 1 2 0 0, .vrmax h0 3 1 0 1 0, .vrmin h0 3 1 7 0 1, .vqnt (hx [8]) 3 1 4, .vdqt (hx [12]) 3 1 4]
/-- Ill-formed slots: the X and E units (11 R243 to R255; 09 R208 to R216; 13 R296 to R302). -/
def illFormedX : List Instr :=
  [.mxa (hx [0x8000]) 0 1 2, .chc (hx [0x8000]) 0 1 2, .chb (hx [1]) 0 1, .chs (hx [8]) 0 1, .lkrd (hx [0]) 3 0 1, .lkrd (hx [0x4C001]) 3 0 1,
   .lkld (hx [1]) 0 1, .lkz (hx [0x800]) 0, .emsN h0 0 1 49, .emsN h0 1 1 33, .cpy (hx [1]) 0 3, .cpy (hx [0, 1]) 0 3, .coll (hx [1]) 0 3,
   .arm (hx [0x10]) 0 3 4, .abrt (hx [0]) 3 4, .rpsnd ⟨0, 2, [0]⟩ 0 3 1, .rpsnd (hx [1]) 0 3 1, .rprcv (hx [0]) 3 3 4, .rprcv (hx [0x4C000]) 48 3 4]
/-- One slot for each check of `Instr.wf`. -/
def illFormed : List Instr :=
  illFormedFrame ++ illFormedB ++ illFormedS ++ illFormedM ++ illFormedV ++ illFormedX

theorem test_illFormed : illFormed.all (fun i => !i.wf) = true := by decide +kernel

/-- Words that decode to no slot: unassigned opcodes, reserved bits, reserved values, an IMM slot with a LANE, no IMM slot, two slots of the
S unit, slots out of order. -/
def notSlots : List (List SlotWord) :=
  [[0x80000000], [0x81F00000], [0xFFFFFFFF], [0x80500001], [0x80700000], [0x9FF00000], [0x80A00000], [0x86003100],
   [0x02003105, 0x82003105], [0x02003105, 0x80900000, 0x82003105], [0x82FF0000, 0x8FF00000]]

theorem test_notSlots : notSlots.all (fun ws => (decode ws).isNone) = true := by decide +kernel
/-- The 197 code points that the table assigns beside IMM decode; every other is refused (04 R91). -/
theorem test_opcodes : ((List.range 256).filter fun n => ((List.range 64).any fun k =>
    (decodeOps (BitVec.ofNat 8 n) (H 0 0 []) (BitVec.ofNat 18 k)).isSome)).length = 197 := by decide +kernel
/-- The entry of a store of a core of this device. -/
def ent (seq core : Nat) : Word := mkEntry 1 2 0 core seq
/-- Words as one number, least significant first. -/
def wordsNat (l : List Nat) : Nat := l.foldr (fun w x => w + 2 ^ 64 * x) 0

/-! ### Single steps

The expected values are the manual's examples, or calculated by hand from the rule that is named. -/

/-- The value that a slot's first result writes in s3, with the given values in s4, s5 and s6. -/
def gives3 (i : Instr) (a b c : Word) : Option Nat :=
  match landed (exec i (scal z [(4, a), (5, b), (6, c)])) with
  | .s 3 v :: _ => some v.toNat
  | _ => none
/-- Part 1 of `scalarSteps`. -/
def scalarSteps1 : List (Instr × Word × Word × Nat) :=
  [(.add h0 3 4 5, 0xFFFFFFFFFFFFFFFF, 2, 1), (.addi h0 3 4 63, 0, 0, 0xFFFFFFFFFFFFFFFF), (.addi (hx [0x80000]) 3 4 0, 0, 0, 0xFFFFFFFFFFF80000),
   (.sub h0 3 4 5, 0, 1, 0xFFFFFFFFFFFFFFFF), (.mul h0 3 4 5, 0x100000001, 0x100000001, 0x200000001),
   (.mulh h0 3 4 5, 0xFFFFFFFFFFFFFFFF, 1, 0xFFFFFFFFFFFFFFFF), (.mulhu h0 3 4 5, 0xFFFFFFFFFFFFFFFF, 0xFFFFFFFFFFFFFFFF, 0xFFFFFFFFFFFFFFFE),
   (.and_ h0 3 4 5, 12, 10, 8), (.andi h0 3 4 63, 0xF0, 0, 0xF0), (.or_ h0 3 4 5, 12, 10, 14), (.ori h0 3 4 1, 12, 0, 13), (.xor_ h0 3 4 5, 12, 10, 6),
   (.xori h0 3 4 63, 1, 0, 0xFFFFFFFFFFFFFFFE), (.shl h0 3 4 5, 1, 64, 1), (.shl h0 3 4 5, 3, 63, 0x8000000000000000), (.shli h0 3 4 63, 1, 0, 0x8000000000000000),
   (.shr h0 3 4 5, 0x8000000000000000, 127, 1), (.shri h0 3 4 63, 0x8000000000000000, 0, 1), (.sra h0 3 4 5, 0x8000000000000000, 63, 0xFFFFFFFFFFFFFFFF),
   (.srai h0 3 4 4, 0x80, 0, 8), (.min h0 3 4 5, 0xFFFFFFFFFFFFFFFF, 1, 0xFFFFFFFFFFFFFFFF), (.max h0 3 4 5, 0xFFFFFFFFFFFFFFFF, 1, 1)]
/-- Part 2 of `scalarSteps`. -/
def scalarSteps2 : List (Instr × Word × Word × Nat) :=
  [(.minu h0 3 4 5, 0xFFFFFFFFFFFFFFFF, 1, 1), (.maxu h0 3 4 5, 0xFFFFFFFFFFFFFFFF, 1, 0xFFFFFFFFFFFFFFFF),
   (.adds h0 3 4 5, 0x7FFFFFFFFFFFFFFF, 1, 0x7FFFFFFFFFFFFFFF), (.subs h0 3 4 5, 0x8000000000000000, 1, 0x8000000000000000),
   (.clz h0 3 4, 0, 0, 64), (.clz h0 3 4, 1, 0, 63), (.popc h0 3 4, 0xFFFFFFFFFFFFFFFF, 0, 64), (.movi h0 3 0xFFF, 0, 0, 0xFFFFFFFFFFFFFFFF),
   (.sel h0 3 4 5, 7, 9, 7), (.sel ⟨1, 0, []⟩ 3 4 5, 7, 9, 9), (.bptr h0 3 4 5, 0x10003, 0xABCD000000000005, 0x0003000000000005),
   (.bpadd (hx [0xFFFFF]) 3 4 0, 0x0003000000000000, 0, 0x0003FFFFFFFFFFFF), (.bpadd h0 3 4 5, 0x0003FFFFFFFFFFFF, 1, 0x0003000000000000),
   (.bfx (hx [0x20C]) 3 4, 0xABCDE, 0, 0xFFFFFFFFFFFFFFAB), (.bfxu (hx [0x20C]) 3 4, 0xABCDE, 0, 0xAB), (.bfi (hx [0x20C]) 3 4 5, 0xFF12, 0xABCDE, 0x12CDE)]
/-- 06 R128 to R130: wraps, signs, shifts of 63 and of 64, and the corners of the clamps. -/
def scalarSteps : List (Instr × Word × Word × Nat) :=
  scalarSteps1 ++ scalarSteps2
theorem test_scalar : scalarSteps.all (fun r => decide (gives3 r.1 r.2.1 r.2.2.1 0 = some r.2.2.2)) = true := by decide +kernel
/-- 06 R138, R139, R141, R142: ties, signed zeros, NaNs, conversions at the ends of their ranges and classes. -/
def floatSteps : List (Instr × Word × Word × Nat) :=
  [(.faddF32 h0 3 4 5, 0xFFFFFFFF4B800000, 0x3F800000, 0x4B800000), (.faddF64 h0 3 4 5, 0x3FF0000000000000, 0xBFF0000000000000, 0),
   (.fsubF32 h0 3 4 5, 0x3F800000, 0x40000000, 0xBF800000), (.fsubF64 h0 3 4 5, 0x7FF0000000000000, 0x7FF0000000000000, 0x7FFFFFFFFFFFFFFF),
   (.fmulF32 h0 3 4 5, 0x00000001, 0x3F000000, 0), (.fmulF64 h0 3 4 5, 0x4000000000000000, 0xC008000000000000, 0xC018000000000000),
   (.fminF32 h0 3 4 5, 0x80000000, 0, 0x80000000), (.fmaxF32 h0 3 4 5, 0x80000000, 0, 0), (.fminF64 h0 3 4 5, 0x7FF8000000000001, 5, 5),
   (.fmaxF64 h0 3 4 5, 0x7FF8000000000001, 0xFFF8000000000000, 0x7FFFFFFFFFFFFFFF),
   (.fcvt (hx [0x70]) 3 4, 0xBFC00000, 0, 0xFFFFFFFFFFFFFFFE), (.fcvt (hx [0x470]) 3 4, 0xBFC00000, 0, 0xFFFFFFFFFFFFFFFF),
   (.fcvt (hx [0x107]) 3 4, 0xFFFFFFFF, 0, 0x4F800000), (.fcvt (hx [0x01]) 3 4, 0x3FF0000000000000, 0, 0x3F800000),
   (.fcls h0 3 4 0, 0xFF800000, 0, 1), (.fcls h0 3 4 0, 0x00000001, 0, 0x20), (.fcls h0 3 4 1, 0x7FF0000000000001, 0, 0x100)]
theorem test_floats : floatSteps.all (fun r => decide (gives3 r.1 r.2.1 r.2.2.1 0 = some r.2.2.2)) = true := by decide +kernel
/-- The predicate pair that a compare of s4 and s5 writes: its first bit is 1 (06 R99, R135, R140). -/
def compares (i : Instr) (a b : Word) : Option Bool :=
  match landed (exec i (scal z [(4, a), (5, b)])) with
  | .p 2 true :: .p 3 false :: _ => some true
  | .p 2 false :: .p 3 true :: _ => some false
  | _ => none
theorem test_compares :
    compares (.cmp h0 1 0 4 5) 7 7 = some true ∧ compares (.cmp h0 1 1 4 5) 0xFFFFFFFFFFFFFFFF 0 = some true ∧
    compares (.cmp h0 1 2 4 5) 0xFFFFFFFFFFFFFFFF 0 = some false ∧ compares (.cmp h0 1 3 4 5) 7 7 = some true ∧ compares (.cmp h0 1 4 4 5) 8 7 = some false ∧
    compares (.cmp h0 1 5 4 5) 6 1 = some false ∧ compares (.cmpi h0 1 2 4 63) 5 0 = some true ∧ compares (.fcmp h0 1 0 0 4 5) 0 0x80000000 = some true ∧
    compares (.fcmp h0 1 1 0 4 5) 0x7FC00000 0 = some false ∧ compares (.fcmp h0 1 2 0 4 5) 0xBF800000 0 = some true ∧
    compares (.fcmp h0 1 3 1 4 5) 0x7FF0000000000001 0 = some true := by decide +kernel
/-- 02 R42, its example: FP32 values converted to FP8 and INT8. -/
theorem test_fp8 :
    (∀ r ∈ [(0x43960000, 0x79, 0x5D), (0x43E60000, 0x7E, 0x5F), (0x43EB0000, 0x7E, 0x5F), (0x7F800000, 0x7F, 0x7C)],
      gives3 (.fcvt (hx [0x40]) 3 4) (BitVec.ofNat 64 r.1) 0 0 = some r.2.1 ∧ gives3 (.fcvt (hx [0x50]) 3 4) (BitVec.ofNat 64 r.1) 0 0 = some r.2.2) ∧
    gives3 (.fcvt (hx [0x60]) 3 4) 0x43028000 0 0 = some 127 ∧ gives3 (.fcvt (hx [0x60]) 3 4) 0xBF000000 0 0 = some 0 := by decide +kernel
/-- 06 R118, R119, R121, R122; 04 R90: branches, the return-address store and a counted loop, from a bundle of two slots at PC 0x100. -/
def at100 : State := z.setPipe { z.core.pipe with pc := 0x100, npc := 0x108, bundle := [(0, .ret h0), (1, .ret h0)] }
def goesTo (i : Instr) (s : State) : Nat := (after (exec i s)).core.pipe.npc.toNat
theorem test_branches :
    goesTo (.br h0 0 (BitVec.ofInt 17 (-12))) at100 = 0xD0 ∧ goesTo (.br ⟨1, 0, []⟩ 0 4) at100 = 0x108 ∧ goesTo (.br h0 0 0) at100 = 0x100 ∧
    goesTo (.bri h0 4) (scal at100 [(4, 0x4444)]) = 0x4444 ∧ goesTo (.call h0 0 4) at100 = 0x110 ∧
    (after (exec (.call h0 0 4) at100)).finishLater.core.regs.ras[0]? = some 0x108 ∧
    goesTo (.ret h0) (at100.setRegs { at100.core.regs with rascnt := 1, ras := at100.core.regs.ras.setIfInBounds 0 0x40 }) = 0x40 ∧
    goesTo (.bdnz h0 0 4 (BitVec.ofInt 11 (-1))) (scal at100 [(4, 2)]) = 0xFC ∧ goesTo (.bdnz h0 0 4 1) (scal at100 [(4, 1)]) = 0x108 ∧
    landed (exec (.bdnz h0 0 4 1) (scal at100 [(4, 0)])) = [.s 4 0xFFFFFFFFFFFFFFFF] := by decide +kernel
/-- 02 R45, its examples: quantised blocks of LB4, LB7 and LB2 from FP32 sources, and special blocks. -/
def lb4 : List Nat := [0x40400000, 0xBF000000, 0x3FA00000, 0x3E400000, 0x40F00000, 0, 0xC0000000, 0x3EC00000, 0x3F400000, 0x3F200000, 0xBF800000,
  0x3F800000, 0x3E800000, 0xBE000000, 0x40C00000, 0x40A00000]
def lb7 : List Nat := [0x437FC000, 0xC0400000, 0x42C80000, 0x42480000, 0x40000000, 0xBF800000, 0, 0, 0, 0, 0, 0, 0, 0, 0xC2800000, 0x40C00000]
def lb2 : List Nat := [0x3FC00000, 0x3F000000, 0xBF400000, 0x3E800000, 0x3E99999A, 0, 0x3F800000, 0xBFA00000, 0x3EC00000, 0x3E000000, 0x3F000000,
  0x3F000000, 0xBE800000, 0, 0, 0]
def block (code : Nat) (xs : List Nat) : List Nat × Nat :=
  let r := quantise (lbBits code) idTable (xs.map (srcVal 0 false))
  ((List.range (lbSize code)).map fun i => fld r.1 i 1, r.2.toNat)
theorem test_blocks :
    (block 10 lb4).1 = [0x81, 0x7B, 0x4C, 0x96, 0xF0, 0x00, 0x16, 0x43, 0x50, 0x12, 0x20, 0x53] ∧
    (block 9 lb7).1 = [0x87, 0xFE, 0x40, 0x81, 0x32, 0x19, 0x01, 0x80, 0, 0, 0, 0, 0, 0, 0, 0, 0xA0, 0x03] ∧
    (block 11 lb2).1 = [0x7F, 0xF6, 0xCB, 0x13, 0xC8, 0x82, 0x54, 0x00] ∧
    (block 11 ([0x7F800000, 0x40000000, 0x80000000, 0xFF800000] ++ List.replicate 12 0)).1 = [0xFF, 0, 0x03, 0x0F, 0, 0, 0, 0] ∧
    (block 11 (0x7FC00000 :: List.replicate 15 0)).1 = [0xFF, 0xFF, 0xDB, 0xB6, 0x6D, 0xDB, 0xB6, 0x6D] := by decide +kernel
/-- The same sources in v1 with the whole instruction (07 R160): lane 3, masked out, is not written. -/
theorem test_vqnt :
    let s := msk (vec z [(1, lb4)]) 2 0xFFFFFFFFFFFFFFF7
    let w := match landed (exec (.vqnt ⟨2, 0, [10]⟩ 3 1 0) s) with | .v 3 m v :: _ => (m.toNat, v.toNat) | _ => (0, 0)
    (List.range 4).map (fun i => fld w.2 (4 * i) 4 * (fld w.1 (4 * i) 4 % 2)) = [0x964C7B81, 0x431600F0, 0x53201250, 0] ∧
    fld w.1 12 4 = 0 ∧ fld w.1 16 4 = 0xFFFFFFFF := by decide +kernel
/-- 07 R155, R157, their example: 2^24, 1.0, 1.0 and −2^24 in lanes 0 to 3. -/
theorem test_sums :
    let s := vec z [(1, [0x4B800000, 0x3F800000, 0x3F800000, 0xCB800000])]
    (landed (exec (.vrsumF32 h0 3 1) s)).head? = some (.s 3 0x3F800000) ∧
    (match landed (exec (.vscanF32 h0 3 1) s) with | .v 3 _ v :: _ => (List.range 5).map fun i => fld v.toNat (4 * i) 4 | _ => []) =
      [0x4B800000, 0x4B800000, 0x4B800000, 0, 0] := by decide +kernel
/-- 13 R290, its example: entries of one core are united, and three entries overflow, which traps without a token slot. -/
theorem test_merges :
    let s := wit (wit z 1 (mkWit (ent 100 3) (ent 40 9))) 2 (mkWit (ent 77 5) 0)
    (mergeEntries ((entriesOf (s.w! (1 : BitVec 6)) ++ entriesOf (s.w! (2 : BitVec 6))).map s.copyEntry)) = [ent 100 3, ent 77 5, ent 40 9] ∧
    (after (exec (.wmrg h0 6 1 2) s)).core.pipe.fails.map (fun f => f.2.1) = [Cause.viewConflict] := by decide +kernel
/-- 13 R293, its example: AMAXF at its cell, in FP32, with and without NP. -/
theorem test_amaxf : ∀ r ∈ [((0x80000000 : Nat), (0 : Nat), false, (0 : Nat)), (0x7FC00000, 0x3F800000, false, 0x3F800000), (0x7FC00000, 0x3F800000, true, 0x7FFFFFFF)],
    let s := { world with mem := { world.mem with cells := Cells.write world.mem.cells (2 ^ 20 + 0x40) 4 r.1 } }
    let a := acc (.atomic .maxf false false r.2.2.1 0) ⟨0, 0x40, 4, r.2.1⟩
    (after (exec (.atomicPerform a) s)).rd (2 ^ 20 + 0x40) 4 = r.2.2.2 := by decide +kernel
/-- 01 R30, R31, its example: the entry of a buffer of 3 MiB, and the accesses through it. -/
theorem test_bufferEntry :
    let s := (z.wr 0x2000 32 (wordsNat [0x8E00000012340000, 0x0005000000300000, 0x0070180AFFFF0000, 0]))
    let j : Job := { job0 with btab := 0x2000, btn := 0, tenant := 5 }
    (s.check j 0 needR true 0 0x2FFFF8 8).isOk = true ∧ (s.check j 0 needR true 0 0x2FFFF8 16).isOk = false ∧
    (s.check j 0 needX true 0 0 4).isOk = false ∧ (s.check { j with tenant := 6 } 0 needR true 0 0 4).isOk = false ∧
    (s.check j 0 needRWA true 0 0x300000 0).isOk = true := by decide +kernel
/-- 02 R46, its examples, and 06 R50: what the blocks above and single sums raise. -/
theorem test_flags :
    (block 10 lb4).2 = 24 ∧ (block 9 lb7).2 = 24 ∧ (block 11 lb2).2 = 24 ∧
    (block 11 ([0x7F800000, 0x40000000, 0x80000000, 0xFF800000] ++ List.replicate 12 0)).2 = 32 ∧
    (block 11 (0x7FC00000 :: List.replicate 15 0)).2 = 32 ∧ (block 11 (0x7F800001 :: List.replicate 15 0)).2 = 33 ∧
    landed (exec (.faddF32 h0 3 4 5) (scal z [(4, 0x4B800000), (5, 0x3F800000)])) = [.s 3 0x4B800000, .fpst fNX] := by decide +kernel
/-- 09 R200, R201, the example: lanes 0 to 3 of a scatter into a buffer of 64 bytes: lane 1 fails, and the lanes go in order. -/
def scatterAt : State :=
  let s := { world with mem := { world.mem with cells := Cells.write world.mem.cells 0x1000 32 (bufWords 0 28 0 64 0) } }
  msk (vec (scal s [(8, 0)]) [(9, [1, 16, 1, 3]), (2, [10, 11, 12, 13])]) 5 0xF
theorem test_scatter :
    let s := after (exec (.vsct ⟨5, 0, [0x4C180]⟩ 2 8 9) scatterAt)
    let t := match s.agenda.head? with | some (.memoryPortAccess a) => after (exec (.memoryPortAccess a) { s with agenda := [] }) | _ => z
    (t.core.store.l1.filter fun b => b.val ≠ 0).map (fun b => (b.key, b.val.toNat)) = [(2 ^ 20 + 4, 10)] ∧
    (match t.agenda with
      | [.memoryPortAccess a] => decide (a.parts.map (fun p => (p.lane, ptrOff p.ptr, p.data)) = [(2, 4, 12), (3, 12, 13)] ∧
          a.bad.map (fun b => (b.lane, b.cause)) = [(1, Cause.bufBounds)])
      | _ => false) = true := by decide +kernel
/-- 10 R228, its example: groups of 8 of a contribution of BF16 operands; 2^24 and 1 round once. -/
theorem test_product :
    let a := [2 ^ 12, 1] ++ List.replicate 14 0
    let v (x : Nat) : FVal := .fin false x 0
    (addProduct F32 8 0x80000000 (a.map v) (a.map v)).1 = 0x4B800000 ∧ (addProduct F32 8 0x80000000 ([v 1] ++ List.replicate 15 (v 0)) (a.map v)).1 = 0x45800000 ∧
    (addProduct F32 16 0x80000000 (List.replicate 16 (v 0)) (a.map v)).1 = 0 := by decide +kernel
/-- 11 R246, R257, its example: two contributions of 1.5 by 2.0 and by −4.0, and a close with column scales into FP16. -/
def bf16 : BankFmt := ⟨3, 0xFEDCBA9876543210⟩
theorem test_matrix :
    let st : Store := { z.core.store with a := Cells.write [] 0 2 0x3FC0, w := Cells.write [] 0 34 (0x4000 + 0xC080 * 2 ^ 256) }
    let hd := hx [0x45400]
    let row := st.leftRow .rows hd bf16 0 0
    let col (j : Nat) : List FVal := st.rightColumn hd bf16 0 j
    let twice (j : Nat) : Nat := (addProduct F32 8 (addProduct F32 8 0x80000000 row (col j)).1 row (col j)).1
    twice 0 = 0x40C00000 ∧ twice 1 = 0xC1400000 ∧
    (roundTo 2 (scaledElem F32 (twice 0) 0x3F800000 0x3F000000).1).1 = 0x4200 ∧ (roundTo 2 (scaledElem F32 (twice 1) 0x3F800000 0x3E800000).1).1 = 0xC200 := by
  decide +kernel
/-- 10 R223, 16 R345 and 10 R241's example: the hop tables `tri` and of ch9 are well formed; one with two tails and one with a loop are not. -/
theorem test_hopTables :
    let c (t : List Word) : Bool := (newChain 0 5 t).wellFormed
    c [0x0001000000000003, 0x0000100000000001, 0x0000120000000001, 0x0003F80000000001] = true ∧
    c [0x0002000000000001, 0x0003F80000000002] = true ∧ c [0x0001000000000002, 0x0003F80000000001, 0x0003F80000000001] = false ∧
    c [0x0001000000000002, 0x0000080000000001, 0x0000000000000001] = false := by decide +kernel
/-- 12 R280, its example: a root of 2^24 with two children of 1.0, and a root of 1.0 with children of 1.0 and 2^24. -/
theorem test_trees :
    let d : TreeDesc := ⟨0, 0, 0, 0, 0, []⟩
    treeOp d (treeOp d 0x4B800000 0x3F800000) 0x3F800000 = 0x4B800000 ∧ treeOp d (treeOp d 0x3F800000 0x3F800000) 0x4B800000 = 0x4B800001 := by
  decide +kernel
/-- 05 R109, its example: a token of COUNT 10 whose fault posted at 9: a wait for 8 completes, one for 9 and one for 10 trap. -/
theorem test_tokens : ∀ r ∈ [(8, []), (9, [Cause.bufBounds]), (10, [Cause.bufBounds]), (11, [])],
    let s := token z 5 ⟨10, 9, false, true, 64⟩
    let o := after (exec (.wtk h0 5 (BitVec.ofNat 12 r.1)) s)
    decide (o.core.pipe.fails = []) = decide (r.2 = ([] : List Cause)) ∧ (o.core.pipe.status = .stalled ↔ r.1 = 11) := by decide +kernel
/-- 14 R325, its example: the word 0x80F00005 traps BRK with its tag, unless a substituted word is armed; SWTRAP traps with its code after its bundle. -/
theorem test_brk :
    let d := z.setCont { z.core.cont with debug := true }
    (after (exec (.brk h0 5) d)).core.pipe.fails.map (fun f => (f.2.1, f.2.2.1)) = [(Cause.brk, 5)] := by decide +kernel

/-- The check values and digests that the manual names by their standards: CRC-32C of 32 bytes of zero (RFC 3720 B.4), SHA-512 of "abc" (RFC 6234),
and the public key of the first test of RFC 8032 7.1. -/
theorem test_standards : crc32c (List.replicate 32 0) = 0x8A9136AA ∧ (sha512 [0x61, 0x62, 0x63]).take 4 = [0xDD, 0xAF, 0x35, 0xA1] ∧
    edPublic 0x607FAE1C03AC3B701969327B69C54944C42CEC92F44A84BA605AFDEF9DB1619D =
      0x1A5107F7681A02AF2523A6DAF372E10E3A0764C9D3FE4BD5B70AB18201985AD7 := by decide +kernel

/-! ### Witnesses: states and operands that meet the hypotheses of each statement -/

theorem wit_scalar : Acts z h0 { s := [3, 4], ds := [5] } ∧ Acts z h0 { s := [3], ds := [63] } ∧ Acts z h0 { ds := [0] } := by
  decide +kernel
/-- IMM slots of the divisions' and bit fields' statements, at the boundaries of width and place. -/
theorem wit_divisions : ∀ t ∈ [0, 31], ∃ hd : Hdr, t = hd.c % 32 ∧ z.postRoom t = true ∧ Acts z hd { s := [3, 4], ds := [5] } := by
  intro t ht
  refine ⟨hx [BitVec.ofNat 20 t], ?_⟩
  revert t
  decide +kernel
theorem wit_fields : ∀ q ∈ [(0x40, 0, 1), (0x7F, 63, 1), (0x1000, 0, 64), (0x20C, 12, 8)],
    let hd := hx [BitVec.ofNat 20 q.1]
    Hdr.lo hd = q.2.1 ∧ Hdr.width hd = q.2.2 ∧ 1 ≤ q.2.2 ∧ q.2.1 + q.2.2 ≤ 64 ∧ Acts z hd { s := [3], ds := [5] } ∧
      Acts z hd { s := [3, 4], ds := [5] } := by decide +kernel
theorem wit_selection : Free z { s := [3, 4], ds := [5] } ∧
    ((hx []).x = [] ∧ Acts z h0 { s := [3, 4], ds := [5] }) ∧ ((hx [7]).x ≠ [] ∧ Acts z (hx [7]) { s := [3], ds := [5] }) ∧
    world.job? world.core.cont.job = some job0 ∧ Acts world h0 { s := [3, 4] } ∧ Acts world (hx [7]) { s := [3] } := by
  decide +kernel
theorem wit_predicates : Acts z h0 { s := [3, 4] } ∧ Acts z h0 { s := [3] } ∧ Acts z h0 {} ∧ Acts z h0 { ds := [5] } := by
  decide +kernel
theorem wit_floats : Acts z h0 { s := [3, 4], ds := [5] } ∧ Acts z h0 { s := [3, 4, 5], ds := [5] } ∧ Acts z h0 { s := [3, 4] } ∧
    Acts z (hx [0x10]) { s := [3], ds := [5] } := by decide +kernel
/-- Values that round without overflow, exactly and inexactly, and NaNs of both kinds. -/
theorem wit_rounding : ∀ t ∈ [F32, F64, F16, BF16, E4M3, E5M2],
    (t.round false (.fin false 1 0)).2 &&& fOF = 0 ∧ (t.round false (.fin true (2 ^ 60 + 1) (-60))).2 &&& fOF = 0 ∧
    (t.decode t.nan).isNan = true := by decide +kernel
theorem wit_vectors : Free z { v := [1, 2], dv := [3] } ∧ Free z { v := [1], dv := [47] } ∧ Free z { v := [1, 2, 3], dv := [3] } ∧
    Free z { v := [1, 2] } ∧ Free z {} ∧ Free z { s := [1], dv := [3] } ∧ Free z { s := [1, 2], dv := [3] } ∧
    Free z { v := [1], ds := [3] } ∧ Acts z h0 { v := [1], ds := [3] } ∧ Acts z h0 { s := [1] } ∧ Acts z h0 { ds := [3] } := by
  decide +kernel
/-- Conversions of every ratio, at the first and the last part. -/
theorem wit_vcvt : ∀ q ∈ [(0, 2, 0), (0, 2, 1), (1, 6, 7), (6, 1, 7), (0, 7, 0), (0, 1, 1)],
    let c := q.1 + 16 * q.2.1 + 2048 * q.2.2
    let hd := hx [BitVec.ofNat 20 c]
    q.1 = bits hd.c 3 0 ∧ q.2.1 = bits hd.c 7 4 ∧ q.2.2 = bits hd.c 13 11 ∧ q.1 < 9 ∧ q.2.1 < 9 ∧
      q.2.2 < max (elemWidth q.1) (elemWidth q.2.1) / min (elemWidth q.1) (elemWidth q.2.1) ∧
      Free z { v := [1], dv := [3] } := by decide +kernel
theorem wit_shuffles : ∀ r ∈ shuffles, bits (hx [BitVec.ofNat 20 (r.1 + 32 * 5 * (r.1 / 4))]).c 3 0 = r.1 := by decide +kernel
theorem wit_lanes : ((hx [1]).c % 2 = 1 → (62 : BitVec 6).toNat % 2 = 0) ∧ (h0.c % 2 = 1 → (63 : BitVec 6).toNat % 2 = 0) := by
  decide +kernel
/-- Reductions: no element, one NaN element, and numbers beside a NaN. -/
theorem wit_reductions :
    (∀ w ∈ [32, 64], ∀ e < 2048 / w, on ((msk z 2 0).mOn ⟨2, 0, []⟩) w e = false) ∧
    (∃ e < 64, on (z.mOn h0) 32 e = true) ∧
    (∃ e < 64, (F32.decode (elem ((vec z [(1, [0x7FC00000])]).v! (1 : BitVec 6)) 32 e)).isNan = true) ∧
    (∃ e < 64, (F32.decode (elem ((vec z [(1, [0x7FC00000])]).v! (1 : BitVec 6)) 32 e)).isNan = false) ∧
    (∀ e < 64, (F32.decode (elem (z.v! (1 : BitVec 6)) 32 e)).isNan = false) ∧
    (∀ e < 64, on ((msk z 2 1).mOn ⟨2, 0, []⟩) 32 e = true →
      (F32.decode (elem ((vec z [(1, [0x7FC00000])]).v! (1 : BitVec 6)) 32 e)).isNan = true) := by decide +kernel
theorem wit_blocks : ∀ c ∈ [9, 10, 11], 9 ≤ (hx [BitVec.ofNat 20 c]).c ∧ (hx [BitVec.ofNat 20 c]).c ≤ 11 ∧
    tableOk idTable = true ∧ tableOk 0x0123456789ABCDEF = true ∧ Free z { v := [1], s := [0], dv := [3] } ∧
    ((scal z [(4, 0x0123456789ABCDEF)]).s! (4 : BitVec 6)).toNat = 0x0123456789ABCDEF := by decide +kernel
theorem wit_registerSlots : ∃ t, registerSlot (.add h0 3 4 5) = some (h0, true, { s := [4, 5], ds := [3] }) ∧
    Free z { s := [4, 5], ds := [3] } ∧ Gives (.add h0 3 4 5) z t := ⟨_, by decide +kernel, by decide +kernel, rfl⟩
/-- p1 reads 0: a false guard. -/
theorem wit_falseGuards : registerSlot (.add ⟨1, 0, []⟩ 3 4 5) = some (⟨1, 0, []⟩, true, { s := [4, 5], ds := [3] }) ∧
    z.pOn ⟨1, 0, []⟩ = false := by decide +kernel
/-- A false guard and a wholly clear mask at slots that name tokens, with room for their postings. -/
theorem wit_falseGuardPosts : ∀ t ∈ [0, 31],
    let s := { world with core := yielding.core }
    let hd : Hdr := ⟨1, 0, [BitVec.ofNat 20 (t * 2 ^ 15 + 2 ^ 14), BitVec.ofNat 20 (t * 2 ^ 15 + 2 ^ 14)]⟩
    let m : Hdr := { hd with g := 2 }
    s.pOn hd = false ∧ s.room? (Hdr.tok hd) = true ∧ s.room? (some (bits hd.c2 19 15)) = true ∧ teSet hd.c2 = true ∧
    s.roomTwo (Hdr.tok hd) (some (bits hd.c2 19 15)) = true ∧ s.postRoom (bits hd.c 4 0) = true ∧ s.postRoom t = true ∧
    bits ({ hd with x := [0, 0] } : Hdr).imm 15 0 < s.core.object.entries.length ∧
    (msk s 2 0).mOn m = 0 ∧ (msk s 2 0).room? (Hdr.tok m) = true ∧ (msk s 2 0).streamsBlocked [3] = none ∧
    (msk s 2 0).streamsBlocked [3, 47] = none := by decide +kernel
/-- A strict mark on each file, on a source and on a destination. -/
theorem wit_marks : ∀ q ∈ [(Instr.add h0 3 4 5, (⟨0, 5⟩ : Dst)), (.add h0 3 4 5, ⟨0, 3⟩), (.vmov h0 3 4, ⟨1, 4⟩), (.vmov h0 47 4, ⟨1, 47⟩), (.vmov ⟨2, 0, []⟩ 47 4, ⟨1, 4⟩),
      (.wmovTos h0 3 4 0, ⟨2, 4⟩)],
    let s := z.setRegs { z.core.regs with marks := [⟨q.2, 7, 1⟩] }
    let r := (registerSlot q.1).getD (h0, true, {})
    let u := inForce s q.1 r.1 r.2.1 r.2.2
    (registerSlot q.1).isSome = true ∧ (r.2.1 = true → s.pOn r.1 = true) ∧ s.core.pipe.later = [] ∧
      (u.reads s.core ++ u.writes s.core).find? (fun d => s.core.regs.marks.any fun k => decide (k.dst = d)) = some q.2 := by
  decide +kernel
theorem wit_pending : (∀ l ∈ z.core.pipe.land, ∀ v, l.write ≠ .s 5 v) ∧
    (∀ r ∈ z.core.pipe.soft, ∀ v, Write.s 5 v ∉ r.writes) := by decide +kernel

theorem wit_witness : Free z { dw := [3] } ∧ Free z { w := [1], dw := [3] } ∧ Free z { s := [1], dw := [3] } ∧
    Free z { w := [1], ds := [3] } ∧ Free z { w := [1, 2], dw := [3] } ∧ z.pOn h0 = true ∧ z.pOn ⟨1, 0, []⟩ = false := by
  decide +kernel
/-- Merges of two, three and four entries. -/
theorem wit_merges :
    let s := wit (wit z 1 (mkWit (ent 100 3) (ent 40 9))) 2 (mkWit (ent 77 5) (ent 5 6))
    (mergeEntries ((entriesOf (s.w! (1 : BitVec 6)) ++ entriesOf (s.w! (1 : BitVec 6))).map s.copyEntry)).length = 2 ∧
    2 < (mergeEntries ((entriesOf (s.w! (1 : BitVec 6)) ++ entriesOf (s.w! (2 : BitVec 6))).map s.copyEntry)).length := by
  decide +kernel
theorem wit_fuse : entDev (ent 5 3) = entDev (ent (2 ^ 34 + 5) 3) ∧ entAgent (ent 5 3) = entAgent (ent 6 3) ∧
    entKind (ent 5 3) ≠ 0 ∧ ent 5 3 ∈ [ent 5 3] ∧ entSeq (ent (2 ^ 34 + 5) 3) = 2 ^ 34 + 5 := by decide +kernel
/-- Token waits: reached, reached with a covered fault, with a fault past the threshold, and not reached. -/
theorem wit_tokenWaits :
    let s (c f : BitVec 16) (b : Bool) := token z 6 ⟨c, f, false, b, 64⟩
    let k (c f : BitVec 16) (b : Bool) := (s c f b).core.regs.tok ((s c f b).core.tIx 6)
    Acts (s 5 0 false) h0 {} ∧ Acts (s 5 0 false) h0 { s := [3] } ∧
    ((5 : BitVec 12).setWidth 16 : BitVec 16) = 5 ∧ (s 5 0 false).core.cont.handler = false ∧
    ((k 5 0 false).count - 5).toNat < 2 ^ 15 ∧ (k 5 0 false).f = false ∧
    ((k 5 3 true).f = true ∧ ((k 5 3 true).count - 5).toNat < 2 ^ 15 ∧ ((5 : BitVec 16) - (k 5 3 true).fcnt).toNat < 2 ^ 15) ∧
    ((k 5 5 true).f = true ∧ 2 ^ 15 ≤ ((4 : BitVec 16) - (k 5 5 true).fcnt).toNat) ∧
    2 ^ 15 ≤ ((k 5 0 false).count - 6).toNat ∧ (s 5 0 false).pinned = false ∧ (s 5 0 false).core.cont.member = 0 ∧
    (pin (s 5 0 false)).pinned = true ∧ Acts (pin (s 5 0 false)) h0 {} ∧ Acts (inH (s 5 0 false)) h0 {} ∧
    (inH (s 5 0 false)).core.cont.handler = true ∧ ((s 5 0 false).setCont { z.core.cont with member := 1 }).core.cont.member ≠ 0 := by
  decide +kernel
/-- A device whose core 3 has issued 100 stores, with those still pending and failed, and an entry of it in w1. -/
def waits (p : List (Nat × Nat)) (f : List Nat) (seq : Nat) : State :=
  let s := wit z 1 (mkWit (ent seq 3) 0)
  { s with units := { s.units with agents := [⟨0, 3, 100, p, f, []⟩] } }
theorem waits_ripe : entriesOf ((waits [] [] 100).w! (1 : BitVec 6)) = [0x6000001800000064] := by decide +kernel
theorem waits_poisoned : entriesOf ((waits [] [100] 100).w! (1 : BitVec 6)) = [0x6000001800000064] := by decide +kernel
theorem waits_future : entriesOf ((waits [] [] 101).w! (1 : BitVec 6)) = [0x6000001800000065] := by decide +kernel
theorem waits_unripe : entriesOf ((waits [(100, 0)] [] 100).w! (1 : BitVec 6)) = [0x6000001800000064] := by decide +kernel
theorem wit_witnessWaitsHeld :
    let s := waits [(100, 0)] [] 100
    let g := s.setCont { s.core.cont with gsize := 2 }
    (pin s).pinned = true ∧ Acts (pin s) h0 { w := [1] } ∧ Acts (inH s) h0 { w := [1] } ∧ (inH s).core.cont.handler = true ∧
    (pin s).judge (some 0) 0x6000001800000064 = .unripe ∧ g.core.cont.gsize ≠ 0 ∧ Acts g h0 { w := [1] } := by decide +kernel
/-- Witness waits: ripe, poisoned, future and unripe entries. -/
theorem wit_witnessWaits :
    let es (s : State) : List Word := entriesOf (s.w! (1 : BitVec 6))
    let how (s : State) (e : Word) : EntryState := s.judge (some s.core.id) e
    Acts (waits [] [] 100) h0 { w := [1] } ∧
    (∀ e ∈ es (waits [] [] 100), how (waits [] [] 100) e = .ripe) ∧
    (es (waits [] [100] 100)).find? (fun e => decide (how (waits [] [100] 100) e = .poisoned)) = some (0x6000001800000064) ∧
    ((∀ e ∈ es (waits [] [] 101), how (waits [] [] 101) e ≠ .poisoned) ∧
      (es (waits [] [] 101)).find? (fun e => decide (how (waits [] [] 101) e = .future)) = some (0x6000001800000065)) ∧
    ((∀ e ∈ es (waits [(100, 0)] [] 100), how (waits [(100, 0)] [] 100) e ≠ .poisoned ∧
        how (waits [(100, 0)] [] 100) e ≠ .future) ∧
      (∃ e ∈ es (waits [(100, 0)] [] 100), how (waits [(100, 0)] [] 100) e = .unripe) ∧
      (waits [(100, 0)] [] 100).pinned = false ∧ (waits [(100, 0)] [] 100).core.cont.gsize = 0) := by
  simp only [waits_ripe, waits_poisoned, waits_future, waits_unripe, List.mem_singleton, forall_eq, exists_eq_left]
  decide +kernel

/-- A control slot that names token 9. -/
abbrev tk : List (BitVec 20) := [0x4C000, 0x10]
theorem wit_tokened : Room z (hx tk) false ∧ Room z (hx tk) true ∧ teSet (hx tk).c = true ∧ z.mOn (hx tk) ≠ 0 ∧
    let i := [bits (hx tk).c 13 10]
    let o := [bits (hx tk).c 9 6]
    Acts z (hx tk) { s := [3], w := i, ds := [5] } ∧ Free z { s := [3], w := i, dv := [5] } ∧ Free z { s := [3, 4], w := i, dv := [5] } ∧
    Free z { s := [3], v := [4], w := i, dv := [5] } ∧ Acts z (hx tk) { s := [3, 5], w := i, dw := o } ∧
    Free z { s := [3], v := [5], w := i, dw := o } ∧ Free z { s := [3, 4], v := [5], w := i, dw := o } ∧
    Free z { s := [3], v := [5, 4], w := i, dw := o } := by decide +kernel
theorem wit_atomics : ∀ r ∈ atomics, ∀ n ∈ [0x4C000, 0x4C004, 0x4C008, 0x4C00C], ∀ b ∈ [false, true],
    let s := z.setCont { z.core.cont with det := b }
    let hd := hx [BitVec.ofNat 20 n]
    let nr := decide (bits hd.c 3 3 = 1)
    Room s hd true ∧ Acts s hd { w := [bits hd.c 13 10], dw := [bits hd.c 9 6], s := (if r.2 = .cas then [3, 4, 5] else [3, 4]), ds := (if nr = true then [] else [5]) } := by
  decide +kernel
/-- Local accesses: the first and the last words of A-space and W-space and of the swizzled views. -/
theorem wit_local : ∀ x ∈ [0xFFF0000000000000, 0xFFF000000003FFF8, 0xFFF100000007FFF8, 0xFFF2000000000000, 0xFFF300000007FFF8],
    let p := BitVec.ofNat 64 x
    let s := scal world [(3, p)]
    let hd := hx [0, 0]
    teSet hd.c = false ∧ p = ptrBy (s.s! (3 : BitVec 6)) (sint 20 hd.c2) ∧ 0xFFF0 ≤ ptrIx p ∧ ptrIx p ≤ 0xFFF3 ∧
    s.core.store.bad = [] ∧ Acts s hd { s := [3], w := [bits hd.c 13 10], ds := [5] } ∧ s.localBlocked hd needR [⟨0, p, 8, 0⟩] = none ∧
    s.localBlocked hd needW [⟨0, p, 8, 0⟩] = none ∧ Room s hd true ∧ Store.wf s.core.store = true ∧
    Acts s hd { s := [3, 5], w := [bits hd.c 13 10], dw := [bits hd.c 9 6] } := by decide +kernel
theorem wit_localVector :
    let p : Word := 0xFFF0000000000000
    let s := msk (scal world [(3, p)]) 2 3
    let hd : Hdr := ⟨2, 0, [0, 0]⟩
    s.mOn hd ≠ 0 ∧ Free s { s := [3], w := [bits hd.c 13 10], dv := [5] } ∧ ptrOff p + 256 < 2 ^ 48 ∧
    Free s { s := [3], v := [5], w := [bits hd.c 13 10], dw := [bits hd.c 9 6] } ∧
    s.localBlocked hd needR (laneParts (s.mOn hd) p (fun n => 4 * n) fun _ => 0) = none ∧
    s.localBlocked hd needW (laneParts (s.mOn hd) p (fun n => 4 * n) (elem (s.v! (5 : BitVec 6)) 32)) = none := by decide +kernel

/-! #### Format, view, streams, tokens -/

theorem wit_formats : ((47 : BitVec 6).toNat < 48) ∧ Acts (scal z [(3, 0x2BB), (4, 0x0123456789ABCDEF)]) h0 { s := [3, 4] } ∧
    (bits ((scal z [(3, 0x2BB)]).s! (3 : BitVec 6)).toNat 3 0 ≤ 11 ∧ bits ((scal z [(3, 0x2BB)]).s! (3 : BitVec 6)).toNat 7 4 ≤ 11 ∧
      tableOk 0x0123456789ABCDEF = true) ∧
    11 < bits ((scal z [(3, 0x0C)]).s! (3 : BitVec 6)).toNat 3 0 ∧ 11 < bits ((scal z [(3, 0xC0)]).s! (3 : BitVec 6)).toNat 7 4 := by
  decide +kernel
theorem wit_view : ∀ n ∈ [0, 1],
    let s := wit (z.setRegs { z.core.regs with view := if n = 0 then 0 else mkWit (ent 7 1) (ent 8 2) }) 1 (mkWit (ent 100 3) (ent 40 9))
    let es := mergeEntries ((entriesOf s.core.regs.view ++ entriesOf (s.w! (1 : BitVec 6))).map s.copyEntry)
    Acts s h0 { w := [1] } ∧ (n = 0 → es.length ≤ 2) ∧ (n = 1 → 2 < es.length) := by decide +kernel
/-- A stream descriptor in A-space: pointer 0 of A-space, one row of one element. -/
def streams : State :=
  let s := scal world [(3, 0xFFF0000000000000)]
  s.setStore (s.core.store.write 0xFFF0 0 16 (0xFFF0000000000100 + (2 ^ 32 + 1) * 2 ^ 64))
theorem sync_ok {r : Sync} (h : (match r with | .ok _ x => decide (bits x 95 64 ≠ 0 ∧ bits x 127 96 ≠ 0) | _ => false) = true) :
    ∃ t x, r = .ok t x ∧ bits x 95 64 ≠ 0 ∧ bits x 127 96 ≠ 0 := by
  cases r with
  | ok t x => exact ⟨t, x, rfl, of_decide_eq_true h⟩
  | stall t => cases h
  | fail t => cases h
theorem wit_sbind : Acts streams h0 { s := [3], w := [0] } ∧ streams.observe (some streams.core.id) (streams.wiOf 0) = .ok ∧
    ∃ t x, streams.syncRead needR 32 (streams.s! (3 : BitVec 6)) 32 0 = .ok t x ∧ bits x 95 64 ≠ 0 ∧ bits x 127 96 ≠ 0 :=
  ⟨by decide +kernel, by decide +kernel, sync_ok (by decide +kernel)⟩
theorem wit_pref : Acts z (hx [0x10]) { s := [3] } ∧ (2 : BitVec 2) ≠ 3 := by decide +kernel
theorem read_ok {r : Sync} (h : (match r with | .ok _ _ => true | _ => false) = true) : ∃ t x, r = .ok t x := by
  cases r with
  | ok t x => exact ⟨t, x, rfl⟩
  | stall t => cases h
  | fail t => cases h
/-- Saved tokens: with a posting in flight and without. -/
theorem wit_savedTokens :
    let s := scal world [(3, 0xFFF0000000000000)]
    let b := (z.newPost 6 []).1
    let b := b.setPipe { b.core.pipe with base := 1 }
    b.tokBusy (b.core.tIx 6) = true ∧ Acts b h0 { s := [3] } ∧
    s.tokBusy (s.core.tIx 6) = false ∧ Acts s h0 { s := [3] } ∧
    (∃ u x, s.syncWrite needW 16 (ptrBy (s.s! (3 : BitVec 6)) (sint 20 h0.c)) 16 0 0 = .ok u x) ∧
    (∃ u x, s.syncRead needR 16 (ptrBy (s.s! (3 : BitVec 6)) (sint 20 h0.c)) 16 0 = .ok u x) ∧
    (⟨5, 5, true, true, 128⟩ : Token).frec.toNat % 64 = 0 :=
  ⟨by decide +kernel, by decide +kernel, by decide +kernel, by decide +kernel, read_ok (by decide +kernel),
    read_ok (by decide +kernel), by decide +kernel⟩
theorem wit_tokenedMerges : Room z (hx tk) false ∧ Acts z (hx tk) { w := [1], ds := [3] } ∧
    Acts z (hx tk) { w := [1, 2], dw := [3] } ∧ (acc (.check 0 0) ⟨0, 0, 8, 0⟩).got = [] := by decide +kernel

/-! #### Accesses at their ports -/

/-- An access of 8 bytes to HBM and one to A-space. -/
theorem wit_atPort : ∀ op ∈ [AccOp.load 3, .store, .atomic .add true false false 0, .flush 0 false, .flush 1 true, .flush 3 true],
    AtPort world (acc op ⟨0, 8, 8, 5⟩) job0 ⟨0, 8, 8, 5⟩ ∧
      (match world.ready { acc op ⟨0, 8, 8, 5⟩ with wi := [] } job0 ⟨0, 8, 8, 5⟩ with | .go _ => true | _ => false) = true := by
  decide +kernel
theorem wit_atLocalPort : AtPort world (acc (.load 3) ⟨0, 0xFFF0000000000000, 8, 0⟩) job0 ⟨0, 0xFFF0000000000000, 8, 0⟩ ∧
    (match world.ready { acc (.load 3) ⟨0, 0xFFF0000000000000, 8, 0⟩ with wi := [] } job0 ⟨0, 0xFFF0000000000000, 8, 0⟩ with
      | .loc => true | _ => false) = true := by decide +kernel
/-- Accesses of two lanes, in HBM: together, lane by lane, with lane 5 past the end of its buffer, and with every lane performed
or failed. -/
theorem wit_laneAccesses : ∀ op ∈ [AccOp.vload, .store],
    let p : Part := ⟨0, 8, 4, 5⟩
    let q : Part := ⟨63, 0x0FFC, 4, 6⟩
    let x : Part := ⟨5, 0x10000, 4, 7⟩
    let a (w : Bool) (ps : List Part) (b : List Failing) : Access := { acc op p with whole := w, parts := ps, bad := b, seq := 1 }
    let f : Failing := ⟨5, 0x10000, .bufBounds, 0, 0, 1⟩
    Cleared world (a true [p, q] []) job0 [p, q] ∧ Cleared world (a false [p, q] []) job0 [p] ∧
    ([p, q].map Part.lane).Nodup ∧ (world.coreOf 0).store.l1 = [] ∧ world.clusterBytes 0 = [] ∧
    (∀ w ∈ [false, true], ∀ r ∈ [(p, 2 ^ 20 + 8), (q, 2 ^ 20 + 0xFFC)], (match world.ready
        { world.keepEntries (a w [p, q] []) job0 with wi := [] } job0 r.1 with
      | .go ks => decide (ks = [(r.2, 4)]) | _ => false) = true) ∧
    (world.bareOp (a false [x, q] [])).isNone = true ∧ (world.partFails (world.keepEntries (a false [x, q] []) job0) job0 x = some f) ∧
    world.partFails (world.keepEntries (a false [x, q] []) job0) job0 q = none ∧
    (a false [] [f]).lowest = some f ∧ (world.bareOp (a false [] [f])).isNone = true ∧ world.observe (some 0) [] = .ok := by decide +kernel
/-- Merges that overflow: their entries unripe, poisoned and ripe. -/
theorem wit_markers : ∀ q ∈ [([(100, 0)], []), ([], [100]), ([], [])],
    let s := waits q.1 q.2 100
    (acc (.merge (ent 5 3) [ent 100 3]) ⟨0, 0, 4, 0⟩).op = .merge (ent 5 3) [ent 100 3] ∧ s.roomFor 0 = true ∧
    s.observe (some 0) [ent 100 3] = (if q.1 ≠ [] then .wait else if q.2 ≠ [] then .bad .witPoison (ent 100 3) else .ok) := by decide +kernel
/-- A misaligned access, one past the end of its buffer, one without the right, and one to no buffer. -/
theorem wit_failedAccess : ∀ p ∈ [4, 0x10000, 0x0001000000000000, 0x0004000000000000],
    let a := acc .store ⟨0, BitVec.ofNat 64 p, 8, 5⟩
    a.sent = false ∧ world.job? a.job = some job0 ∧ a.parts = [⟨0, BitVec.ofNat 64 p, 8, 5⟩] ∧ a.whole = true ∧ a.got = [] ∧
    a.bad = [] ∧ (world.bareOp a).isNone = true ∧ (world.partFails a job0 ⟨0, BitVec.ofNat 64 p, 8, 5⟩).isSome = true := by decide +kernel
/-- A store of core 0 on its way from a dirty byte of the L1, at each level, behind nothing. -/
def ripe0 (level : Nat) (wi : List Word) : Ripe := ⟨0, 0, 1, 0, [(0x100, 1)], wi, none, 2, level, 5⟩
theorem wit_ripens : ∀ level ∈ [0, 1, 2],
    let s := z.setStore { z.core.store with l1 := [⟨0x100, 7, true, (0, 0), 0, false⟩] }
    (ripe0 level []).dev = s.devnum ∧ s.loadsBefore (ripe0 level []) = false ∧ s.coverOf (ripe0 level []) = [] ∧
    (∀ k ∈ s.coverBytes (ripe0 level []), s.backHeld 0 k.1 k.2 = false) ∧ Memory.wf s.mem = true ∧
    ((s.coreOf 0).store.l1.map L1Byte.key).Nodup ∧ ((s.clusterBytes (0 / 24)).map L1Byte.key).Nodup := by decide +kernel
/-- Stores that wait for a load issued before them, and for an entry that they replace; one of another device. -/
theorem wit_ripeningWaits :
    let l := z.push (.memoryPortAccess { acc (.load 3) ⟨0, 0, 8, 0⟩ with id := 4 })
    let o : State := { z with peers := [1], units := { z.units with agents := [⟨1, 3, 100, [(100, 0)], [], []⟩] } }
    let e := mkEntry 1 2 1 3 100
    (∀ level ∈ [0, 1, 2], l.loadsBefore (ripe0 level []) = true ∧ e ∈ o.coverOf (ripe0 level [e]) ∧
      entDev e ≠ o.devnum.toNat ∧ ∀ sc < 4, o.judgeAt sc e = .unripe) ∧
    ({ ripe0 0 [] with dev := 1 } : Ripe).dev ≠ z.devnum ∧ (waits [(3, 2)] [] 100).earlierPend { ripe0 3 [] with agent := 3, seq := 4 } = true ∧
    z.earlierPend (ripe0 3 []) = false ∧
    (let s := z.setStore { z.core.store with l1 := [⟨0x100, 7, true, (0, 0), 0, false⟩] }
     let s : State := { s with mem := { s.mem with refresh := [0] } }
     (s.coverBytes (ripe0 2 [])).any (fun k => s.backHeld 0 k.1 k.2) = true) := by decide +kernel
/-- 12 R266, R267: two stores that cover each other, each visible to every agent, ripen together; one whose cover is still
in its L1 ripens for no other core. -/
theorem test_mutualCover :
    let s : State := { z with units := { z.units with
      agents := [⟨0, 0, 1, [(1, 0)], [], [(4, z.storeEntry 2 1 1)]⟩, ⟨0, 1, 1, [(1, 0)], [], [(4, z.storeEntry 2 0 1)]⟩] } }
    (s.push (.entryRipens { ripe0 3 [] with agent := 1, core := 1 })).ripeTo (ripe0 3 []) = 3 ∧
    (s.push (.entryRipens { ripe0 1 [] with agent := 1, core := 1 })).ripeTo (ripe0 3 []) = 0 := by decide +kernel
theorem wit_atomicPerforms : ∀ r ∈ atomicValue, ∀ w64 ∈ [false, true],
    let n := if w64 = true then 8 else 4
    let a := acc (.atomic r.1 w64 false false 9) ⟨0, 0x40, n, 255⟩
    Memory.wf world.mem = true ∧ world.job? a.job = some job0 ∧ a.bad = [] ∧ 255 < 256 ^ n ∧
    (match world.ready a job0 ⟨0, 0x40, n, 255⟩ with | .go [(k, m)] => decide (k = 2 ^ 20 + 0x40 ∧ m = n) | _ => false) = true := by
  decide +kernel
/-- The frontier of a launch: with no record it stops nothing, with one in interval 0 it stops interval 0. -/
theorem wit_frontier :
    let r : Rec := ⟨0x9000, 0, 0, 5, 0, 0, 0, [], [], false, false, false, [], []⟩
    let s : State := { world with sched := { world.sched with recs := [r] } }
    world.frontier 5 = none ∧ s.frontier 5 = some 0 ∧
    world.batchedBefore (acc (.atomic .add true false false 0) ⟨0, 0x40, 8, 0⟩) ⟨5, 0, 0, 0, 0⟩ = false := by decide +kernel
/-- Page tables: tenant 0's root table at 0x4000, the table below at 0x5000 with a leaf of 2^30 bytes at 2^30. -/
def paged (b : Nat) : State :=
  ((z.wr 0 8 0x4000).wr 0x4000 8 (2 ^ 63 + 0x5000)).wr 0x5000 8 (2 ^ 63 + 2 ^ 62 + b * 2 ^ 61 + 2 ^ 30)
theorem wit_walks : (paged 0).tlb? 0 0 0 = none ∧ (paged 0).walk 0 0 0 = .leaf (2 ^ 30) (2 ^ 30) false 0x5000 ∧
    (paged 1).tlb? 0 0 0 = none ∧ (paged 1).walk 0 0 0 = .leaf (2 ^ 30) (2 ^ 30) true 0x5000 ∧ Memory.wf (paged 1).mem = true ∧
    z.tlb? 0 0 0 = none ∧ z.walk 0 0 0 = .fault 3 := by decide +kernel
theorem wit_completions :
    let s := (z.newPost 6 []).1
    let t := (s.newPost 6 []).1
    s.core.pipe.posts = [⟨0, 6, 1, [], false, [], none, [], none⟩] ∧
    t.core.pipe.posts = [⟨0, 6, 1, [], false, [], none, [], none⟩, ⟨1, 6, 2, [], false, [], none, [], none⟩] ∧
    (s.core.regs.tok 6).f = false := by decide +kernel
/-- Postings to tokens 6 and 7, one of them ready behind the one that completes, and one in the way. -/
theorem wit_completionQueue :
    let p : Posting := ⟨0, 6, 1, [], false, [], none, [], none⟩
    let o : Posting := ⟨3, 7, 1, [], false, [], none, [], none⟩
    let q : Posting := ⟨4, 6, 2, [], true, [], none, [], none⟩
    let r : Posting := ⟨5, 6, 3, [], false, [], none, [], none⟩
    let s := z.setPipe { z.core.pipe with posts := [o] ++ p :: ([q] ++ [r]) }
    s.core.pipe.posts = [o] ++ p :: ([q] ++ [r]) ∧ p.image = none ∧ p.tok < 34 ∧ (∀ x ∈ [o] ++ [r], x.ready = false ∧ x.id ≠ p.id) ∧
    (∀ x ∈ [o], x.tok ≠ p.tok) ∧ (∀ x ∈ [q], x.ready = true ∧ x.id ≠ p.id ∧ x.tok = p.tok ∧ x.image = none) ∧
    (∃ x ∈ [p], x.tok = r.tok) := by decide +kernel
/-- A peer access with no valid grant is refused; one whose lender's channels are held waits. -/
def asked : PeerReq := ⟨1, 0, 0, [(0, 8, 0)], .read, 0, 0, .access 5, none⟩
def granted : State :=
  let s := { world with sched := { world.sched with jobs := [] } }.wr 0x8000 16 (2 ^ 63 + 7 * 2 ^ 56 + 2 ^ 34)
  { s with host := { s.host with gtbase := 0x800 }, sched := world.sched }
def grantedHeld : State := { granted with mem := { granted.mem with refresh := [0] } }
theorem answer_some {r : State × Option PeerResult} (h : r.2.isSome = true) : ∃ t x, r = (t, some x) := by
  obtain ⟨t, _ | x⟩ := r
  · cases h
  · exact ⟨t, x, rfl⟩
theorem answer_none {r : State × Option PeerResult} (h : r.2.isNone = true) : ∃ t, r = (t, none) := by
  obtain ⟨t, _ | x⟩ := r
  · exact ⟨t, rfl⟩
  · cases h
/-- A batched access of interval 3, before and after its borrower's frontier has passed. -/
theorem wit_peerBatches : ∀ f ∈ [3, 4],
    let p := { asked with batch := some (⟨7, 3, 0, 0, 0⟩, 5, some f) }
    (granted.noteFront p.src 7 (some f)).peerDue p = decide (f = 4) ∧ granted.peerDue asked = true := by decide +kernel
theorem wit_peers : (∃ t r, granted.answerPeer asked = (t, some r)) ∧ (granted.answerPeer asked).2 = some (.performed [0]) ∧
    (∃ t, grantedHeld.answerPeer asked = (t, none)) ∧
    (bits (z.rd 0 8) 63 63 = 0) ∧ Memory.wf granted.mem = true ∧ 0 ≤ granted.host.ltn.toNat :=
  ⟨answer_some (by decide +kernel), by decide +kernel, answer_none (by decide +kernel), by decide +kernel, by decide +kernel, by decide⟩

/-! #### Control, yields, traps -/

/-- A return-address store of n entries. -/
def rasOf (n : Nat) : State := z.setRegs { z.core.regs with rascnt := n }
theorem wit_branches : Acts z h0 {} ∧ (rasOf 31).core.regs.rascnt < 32 ∧ 32 ≤ (rasOf 32).core.regs.rascnt ∧
    0 < (rasOf 32).core.regs.rascnt ∧ (rasOf 32).core.regs.ras[(rasOf 32).core.regs.rascnt - 1]? = some 0 ∧ z.core.regs.rascnt = 0 ∧
    (63 : BitVec 6) ≠ 0 ∧ Acts (scal z [(63, 1)]) h0 { s := [63], ds := [63] } ∧ Acts z h0 { s := [3] } ∧
    ((scal z [(3, 2 ^ 32 - 1)]).s! (3 : BitVec 6)).toNat < 2 ^ 32 ∧ 2 ^ 32 ≤ ((scal z [(3, 2 ^ 32)]).s! (3 : BitVec 6)).toNat := by
  decide +kernel
/-- Yields: a stated run within the slice, one beyond it on a pinned continuation, and a switch. -/
theorem wit_yields :
    let u := yielding.yieldPoint 0 ⟨0, 5, 0xFFFF⟩
    let v := (yielding.setCont { yielding.core.cont with openk := 1 }).yieldPoint 0 ⟨0, 6, 0xFFFF⟩
    yielding.core.cont.handler = false ∧ Acts yielding h0 {} ∧ yielding.core.cont.obj.yields[(0 : BitVec 16).toNat]? = some ⟨0, 5, 0xFFFF⟩ ∧
    yielding.core.pipe.pc.toNat = 0 ∧ yielding.core.cont.gsize = 0 ∧ u.core.cont.prq = false ∧ (∀ id ∈ u.core.members, id ∉ u.sched.retire) ∧
    ((((5 : Nat) : Int) ≤ max 0 u.core.acct) ∧ u.candidates (u.core.id / 24) = []) ∧ v.pinned = true ∧ u.pinned = false ∧
    (inH z).core.cont.handler = true ∧ Acts (inH z) h0 {} := by decide +kernel
theorem wit_delays :
    let s := z.setCont { z.core.cont with run := 10, stretch := 3 }
    (6 : BitVec 16) ≠ 0 ∧ Acts s h0 {} ∧ s.core.cont.stretch + (6 : BitVec 16).toNat < s.core.cont.run ∧
      s.core.cont.run ≤ s.core.cont.stretch + (7 : BitVec 16).toNat ∧ s.core.cont.handler = false := by decide +kernel
/-- A SPAWN through the record buffer. -/
theorem wit_spawn :
    let s := scal { world with core := yielding.core } [(3, 0x0002000000000040)]
    s.core.cont.handler = false ∧ bits (hx [0, 0]).imm 15 0 < s.core.cont.obj.entries.length ∧ s.postRoom 31 = true ∧
    Acts s (hx [0, 0]) { s := [3, 4] } ∧ s.job! = some job0 ∧ ptrOff (s.s! (3 : BitVec 6)) % 64 = 0 ∧
    (s.check job0 s.core.cont.obj.osize needL true (ptrIx (s.s! (3 : BitVec 6))) (ptrOff (s.s! (3 : BitVec 6))) 64).isOk = true := by
  decide +kernel
/-- A gang of two, its captain in focus. -/
def gang2 (s : State) : State :=
  let s := s.setCont { s.core.cont with gsize := 2, gang := [0, 1] }
  { s with parked := [{ s.core with id := 1, cont := { s.core.cont with member := 1 } }] }
theorem wit_exit : ∀ s ∈ [z, gang2 z], s.core.members.Nodup ∧ s.core.id ∈ s.core.members ∧ Acts s h0 {} := by
  intro s h
  simp only [List.mem_cons, List.not_mem_nil, or_false] at h
  rcases h with rfl | rfl <;> decide +kernel
/-- A member of a gang at its SYNC, before and after the release, and its release. -/
theorem wit_sync :
    let g := z.setCont { z.core.cont with gsize := 1, gang := [0] }
    let r := g.setPipe { g.core.pipe with reply := [(syncKey, some [])] }
    let w : State := { g with core := { g.core with phase := .sync } }
    g.core.cont.gsize ≠ 0 ∧ g.core.pipe.reply.find? (fun r => decide (r.1 = syncKey)) = none ∧
    r.core.pipe.reply.find? (fun r => decide (r.1 = syncKey)) = some (syncKey, some []) ∧
    (z.coreOf 0).phase ≠ .sync ∧ (w.coreOf 0).phase = .sync := by decide +kernel
theorem wit_softwareTraps : Acts z h0 {} ∧ (z.setCont { z.core.cont with debug := true }).core.cont.debug = true ∧
    z.core.cont.debug = false := by decide +kernel
/-- A handler object of one entry, and a running continuation of its job with or without it. -/
def hobj0 : ObjInfo := { ObjInfo.none with entries := [⟨0x40, 5, 1, 0xFFFF⟩] }
def trapping (h : Option ObjInfo) : State :=
  let s := z.setCont { z.core.cont with launch := 0x9000, recPa := 0x9100 }
  { s with sched := { s.sched with jobs := [{ job0 with handler := some h }] } }
theorem wit_trapEnters : (trapping (some hobj0)).core.cont.gsize = 0 ∧ (trapping (some hobj0)).core.cont.handler = false ∧
    Memory.wf (trapping (some hobj0)).mem = true ∧
    Cause.illegalOp.freezes = false ∧ (trapping (some hobj0)).job? (trapping (some hobj0)).core.cont.job = some { job0 with handler := some (some hobj0) } ∧
    (trapping (some hobj0)).core.pipe.land = [] := by decide +kernel
theorem wit_gangTraps :
    let s := gang2 (trapping (some hobj0))
    s.core.members = [0, 1] ∧ s.core.members.head? = some s.core.id ∧ s.core.members.Nodup ∧ s.core.cont.handler = false ∧
    s.job? s.core.cont.job = some { job0 with handler := some (some hobj0) } ∧
    s.handlerObj { job0 with handler := some (some hobj0) } = (s, some hobj0) ∧ Memory.wf s.mem = true ∧ (2 : Nat) ∉ s.core.members := by decide +kernel
/-- A trap of the handler's own bundle: the fault record of its freeze. -/
theorem wit_trapInHandler :
    let s := inH (trapping (some hobj0))
    s.core.cont.gsize = 0 ∧ s.core.cont.handler = true ∧ s.job? s.core.cont.job = some { job0 with handler := some (some hobj0) } ∧
    Memory.wf s.mem = true ∧ s.core.cont.launch + 8 ≤ s.core.cont.recPa := by decide +kernel
theorem wit_freezeRecord (u : State) (job : Nat) (f : FaultInfo) : ∃ v off, u.faultRecord job f = (v, off) := ⟨_, _, rfl⟩
theorem wit_trapHandler : (trapping (some hobj0)).handlerObj { job0 with handler := some (some hobj0) } = (trapping (some hobj0), some hobj0) := rfl
theorem wit_trapFreezes : (trapping none).core.cont.gsize = 0 ∧ (trapping none).core.cont.handler = false ∧
    (trapping none).job? (trapping none).core.cont.job = some { job0 with handler := some none } ∧ Cause.runOverrun.freezes = true ∧
    Cause.gangDesync.freezes = true ∧ Memory.wf (trapping none).mem = true ∧
    (trapping none).core.cont.launch + 8 ≤ (trapping none).core.cont.recPa := by decide +kernel
theorem wit_trapNoHandler : (trapping none).handlerObj { job0 with handler := some none } = (trapping none, none) := rfl
/-- Returns from the handler, with each action and with a reserved one. -/
theorem wit_returns : ∀ n ∈ [0, 1, 2, 3, 4, 15],
    let s := inH z
    let s := s.setSys { s.core.sys with hact := BitVec.ofNat 8 n }
    let u := (s.finishLater.setCore (s.finishLater.core.landAll s.tick)).releaseEngines
    Acts s h0 {} ∧ s.core.cont.handler = true ∧ s.core.cont.gsize = 0 ∧
      (∀ p ∈ s.core.pipe.posts, p.id < s.core.pipe.base → p.tok < 32) ∧ u.core.sys.hact.toNat % 16 = n ∧
      u.core.sys.hreason ≠ 1 ∧ u.pinned = false ∧ z.core.cont.handler = false := by decide +kernel
/-- The same for a gang and for a pinned continuation. -/
theorem wit_gangReturns : ∀ n ∈ [0, 1, 2, 3, 4, 15], ∀ k ∈ [0, 1],
    let s := (inH z).setSys { z.core.sys with hact := BitVec.ofNat 8 n }
    let s := gang2 (if k = 0 then s else pin s)
    let u := (s.core.members.foldl (fun v id => v.setCore ((v.coreOf id).landAll v.tick)) s.finishLater).releaseEngines
    Acts s h0 {} ∧ s.core.cont.handler = true ∧ s.core.members = [0, 1] ∧ s.core.members.Nodup ∧ s.core.id ∈ s.core.members ∧
      (∀ id ∈ s.core.members, ∀ p ∈ (s.coreOf id).pipe.posts, p.id < s.core.pipe.base → p.tok < 32) ∧
      u.core.sys.hact.toNat % 16 = n ∧ u.core.sys.hreason ≠ 1 ∧ u.pinned = decide (k = 1) := by decide +kernel
theorem wit_systemSlots : Acts (inH z) h0 { ds := [3] } ∧ (inH z).core.cont.handler = true ∧ Acts z h0 { ds := [3] } ∧
    (0x003 : BitVec 10).toNat < 0x10 ∧ 0x10 ≤ (0x010 : BitVec 10).toNat ∧ Acts (inH z) h0 { s := [3] } ∧ Acts z h0 { s := [3] } ∧
    srListed (0x15B : BitVec 10).toNat = true ∧ z.core.cont.handler = false ∧ Acts z h0 { s := [3], ds := [4] } ∧ Acts z h0 { s := [3, 4] } := by
  decide +kernel
/-- Invalidations: the empty range, and the last bytes of a page of the code buffer. -/
theorem wit_invalidations :
    let s := scal world [(3, 0x000100000000FF00), (4, 256)]
    let p := s.s! (3 : BitVec 6)
    let n := (s.s! (4 : BitVec 6)).toNat
    let b : Buf := ⟨0, 18, 0x10000, 0, 0x10000, 1, 0, 1, 0, false, 0, 0⟩
    let h := inH world
    Acts s h0 { s := [3, 4] } ∧ (s.s! (5 : BitVec 6)).toNat = 0 ∧ (2 : BitVec 2) ≠ 3 ∧ 0 < n ∧ n ≤ 65536 - b.va (ptrOff p) % 65536 ∧
    s.job! = some job0 ∧ (match s.check job0 s.osize needX true (ptrIx p) (ptrOff p) n with | .ok q => decide (q = .buf b) | _ => false) = true ∧
    (∀ c ∈ [0, 1, 2], s.storesOwed c = false) ∧
    (∀ c ∈ [0, 1, 2], ({ s with units := { s.units with agents := [⟨0, 0, 100, [(3, 0)], [], []⟩] } } : State).storesOwed c = true) ∧
    (match s.pureKey job0.tenant.toNat b.tier (b.va (ptrOff p)) with | .ok k => decide (k = 0x11FF00) | _ => false) = true ∧
    Acts h h0 {} ∧ h.core.cont.handler = true ∧ h.mem.chanHeld = [] ∧ h.job! = some job0 ∧ Acts h h0 { s := [3, 4] } := by decide +kernel
theorem wit_retpc : ∀ m ∈ (inH world).host.retpc, m = 0 := by
  intro m h
  have e : (inH world).host.retpc = List.replicate 12 0 := rfl
  rw [e] at h
  exact List.eq_of_mem_replicate h
/-- The key of a record that was found. -/
def keyIs (r : State × Except Fail Nat) (k : Nat) : Bool := match r.2 with | .ok q => decide (q = k) | .error _ => false
/-- Engines: with one command of the job, free or held by a core, for a handler on core 0 whose s3 leads to A-space, to HBM or to nothing. -/
def engined (h : Option Nat) (vals : List Nat) (p : Nat) : State :=
  let c : Cmd := ⟨5, 1, 0, 0, 0x0002000000000040, 0, 0, 0, [], 0xFFF0000000000000, 0, 0, 0, 0, 0, none, none, none, none, false, false, 0, [], []⟩
  let s := inH (scal world [(3, BitVec.ofNat 64 (p * 2 ^ 48)), (4, 1)])
  { s with
    sched := { s.sched with recs := [⟨0x120040, 0x0002000000000040, 0, 0x8000, 0, 0, 0, [], [], false, false, false, [], []⟩] }
    units := { s.units with engines := s.units.engines.setIfInBounds 2 { Engine.reset with queue := [c], holder := h, shown := [c], vals := vals } } }
theorem wit_engines : ∀ p ∈ [0xFFF0, 0],
    let s := engined none [] p
    let g := s.engine (engineOf s.core.id 2)
    let a := s.s! (3 : BitVec 6)
    s.core.cont.handler = true ∧ s.core.id < 1152 ∧ Acts s h0 { s := [3], ds := [4] } ∧ g.holder = none ∧ g.between = true ∧
    s.job! = some job0 ∧ (g.ofJob s.core.cont.job).length = 1 ∧ ptrOff a % 128 = 0 ∧
    (match s.check job0 s.osize needW true (ptrIx a) (ptrOff a) 4096 with
      | .ok (.core ix) => decide (ix = p) && !s.heldByX (ptrIx a) (ptrOff a) 128
      | .ok (.buf b) => decide (p = 0 ∧ b.tier ≠ 3) && (match s.pureKeys job0.tenant.toNat b.tier (b.pieces (ptrOff a) 4096) with
        | .ok ks => !s.portHeld b (ptrOff a) 4096 ks | .error _ => false) && !(s.askWalks job0.tenant.toNat b.tier (b.pieces (ptrOff a) 4096)).2
      | .error _ => false) = true ∧
    s.observe (some s.core.id) (entriesOf s.core.regs.view) = .ok ∧
    ((engined (some 3) [] p).engine 2).holder = some 3 ∧ (3 : Nat) ≠ s.core.id ∧ ((engined none [1] p).engine 2).between = false := by decide +kernel
/-- An image whose RECORD leads to the record of the job, in A-space, which an EQRD of this device has written, or has not. -/
def img0 : Nat := 0x0002000000000040 * 2 ^ 640
def imaged (known : Bool) : State :=
  let s := engined (some 0) [] 0xFFF0
  let c := ((s.engine 2).queue).take (if known then 1 else 0)
  let s := s.setStore { s.core.store with a := Cells.write [] 0 128 img0 }
  { s with units := { s.units with images := c.map fun c => (img0, c) } }
/-- An engine that core 0 holds: with no image, with too many, and one that it does not hold. -/
theorem wit_rebuilds :
    let s := engined (some 0) [] 0xFFF0
    let n := s.core.id / 288 * 16 + (2 : BitVec 4).toNat
    s.core.cont.handler = true ∧ (s.engine n).holder = some s.core.id ∧ Acts s h0 { s := [3, 4] } ∧ s.job! = some job0 ∧
    ((s.engine n).queue.filter fun c => decide (c.job ≠ s.core.cont.job)).length + 1 ≤ 32 ∧ (s.s! (4 : BitVec 6)).toNat = 1 ∧
    (s.s! (0 : BitVec 6)).toNat = 0 ∧ ((engined (some 3) [] 0xFFF0).engine n).holder ≠ some s.core.id := by decide +kernel
/-- Images: one that this device has written, one that it has not, and one given twice. -/
theorem wit_images : ∀ known ∈ [false, true],
    let s := imaged known
    s.core.cont.handler = true ∧ (s.engine 2).holder = some s.core.id ∧ Acts s h0 { s := [3, 4] } ∧ s.job! = some job0 ∧
    (match s.syncRead needR 1 (s.s! (3 : BitVec 6)) 128 0 with
      | .ok t x => decide (rows x 0 128 1 = [img0]) &&
        (match (t.imagesOf job0 (rows x 0 128 1)).2 with
          | .ok cs => known && decide (cs.map (fun c => c.2.2) = [(0x0002000000000040, 0x120040)])
          | .error k => !known && decide (k = .illegalOp ∧ t.units.images = [])) &&
        (match (t.imagesOf job0 [img0, img0]).2 with | .ok _ => false | .error k => decide (k = .illegalOp))
      | _ => false) = true := by decide +kernel
theorem wit_engineEarlier (rs : List (Nat × Nat)) : (engined none [] 0xFFF0).earlier 0 0 rs = false := rfl

/-! #### The step -/

/-- A state placed to issue one word, and the device as its slot finds it. -/
def at1 (w : Nat) : State := State.reset.withFetchWord 32 w
def found (w : Nat) (i : Instr) : State :=
  let v := ((at1 w).tock.focus 0).startBundle
  let l : State := { v with core := v.core.landDue v.tick }
  l.setPipe { l.core.pipe with bundle := [(0, i)], npc := l.core.pipe.pc + BitVec.ofNat 32 (4 * 1), slot := 0, status := .ok, fails := [] }
/-- The buffer of placed code. -/
def codeBuf : Buf := ⟨0, 18, 0, 0, 0x10000, 1, 0, 1, 0, false, 0, 0⟩
/-- A result is a given value. -/
def okIs {α β : Type} [DecidableEq β] (r : Except α β) (b : β) : Bool := match r with | .ok q => decide (q = b) | .error _ => false
theorem is_ok {α β : Type} [DecidableEq β] {r : Except α β} {b : β} (h : okIs r b = true) : r = .ok b := by
  cases r with
  | error c => cases h
  | ok q => exact congrArg _ (of_decide_eq_true h)
/-- An outcome is a next state with a property. -/
def nextIs (o : Out) (p : State → Bool) : Bool := match o with | .next t => p t | _ => false
theorem next_some {o : Out} {p : State → Bool} (h : nextIs o p = true) : ∃ y, o = .next y ∧ p y = true := by
  cases o with
  | next y => exact ⟨y, rfl, h⟩
  | fault f => cases h
  | refused r => cases h
/-- The premises of `Fetches` on a placed word, but for those that name no value. -/
theorem fetches_of (w : Nat) (i : Instr) (x : SlotWord)
    (h : let v := ((at1 w).tock.focus 0).startBundle
      let l : State := { v with core := v.core.landDue v.tick }
      let o := l.core.object
      (at1 w).tock.turn = some (.bundle 0) ∧ v.core.id = 0 ∧ v.core.cont.gsize = 0 ∧ v.core.cont.member = 0 ∧
      v.core.cont.stretch < v.core.cont.run ∧ v.molcDue 0 = false ∧ v.badLandings = [] ∧
      l.core.pipe.pc.toNat % 4 = 0 ∧ l.core.pipe.pc.toNat < o.codelen ∧ l.core.sys.armed = none ∧
      takeBundle 8 (l.fetchWords o l.core.pipe.pc.toNat) = some [x] ∧ l.dlyOverrun [x] = false ∧ l.job! = some (placedJobOf 4) ∧
      okIs (l.check (placedJobOf 4) o.osize needX true (ptrIx (o.codePtr l.core.pipe.pc.toNat)) (ptrOff (o.codePtr l.core.pipe.pc.toNat)) 4)
        (.buf codeBuf) = true ∧
      okIs (l.pureKeys (placedJobOf 4).tenant.toNat 0 (codeBuf.pieces (ptrOff (o.codePtr l.core.pipe.pc.toNat)) 4)) [(0x200000, 4)] = true ∧
      (l.askWalks (placedJobOf 4).tenant.toNat 0 (codeBuf.pieces (ptrOff (o.codePtr l.core.pipe.pc.toNat)) 4)).2 = false ∧
      l.portHeld codeBuf (ptrOff (o.codePtr l.core.pipe.pc.toNat)) 4 [(0x200000, 4)] = false ∧ l.coreBad 0 [(0x200000, 4)] = false ∧
      l.codeBad [(0x200000, 4)] = false ∧
      okIs (decodeBundle [x]) [(0, i)] = true ∧ l.badIndexes [x] = []) :
    Fetches (at1 w) 0 i (found w i) := by
  obtain ⟨h1, h2, h3, h4, h5, h6, h7, h8, h9, h10, h11, h12, h13, h14, h15, h16, h17, h18, h19, h20, h21⟩ := h
  exact ⟨_, _, _, [x], placedJobOf 4, codeBuf, _, [(0x200000, 4)], h1, rfl, rfl, rfl, h2, h3, h4, .inr h5, .inr h6, h7, h8, h9, h10, h11,
    h12, h13, rfl, is_ok h14, by decide, is_ok h15, h16, h17, h18, h19, is_ok h20, h21, rfl⟩
/-- An ADD: its own effect, no check failing. -/
theorem wit_step : Fetches (at1 0x02003105) 0 (.add h0 3 4 5) (found 0x02003105 (.add h0 3 4 5)) ∧
    ∃ y, exec (.add h0 3 4 5) (found 0x02003105 (.add h0 3 4 5)) = .next y ∧
      decide (y.core.id = 0 ∧ y.core.pipe.fails = [] ∧ Instr.whole (.add h0 3 4 5) = false ∧ y.core.pipe.status = .ok) = true :=
  ⟨fetches_of _ _ 0x82003105 (by decide +kernel), next_some (by decide +kernel)⟩
/-- A RET with no entry in the return-address store: its check fails. -/
theorem wit_stepTraps : Fetches (at1 0x00500000) 0 (.ret h0) (found 0x00500000 (.ret h0)) ∧
    ∃ y, exec (.ret h0) (found 0x00500000 (.ret h0)) = .next y ∧ decide (y.core.id = 0 ∧ y.core.pipe.fails ≠ []) = true :=
  ⟨fetches_of _ _ 0x80500000 (by decide +kernel), next_some (by decide +kernel)⟩
/-- A WTK of token 6 for the threshold 1: it waits. -/
theorem wit_stepWaits : Fetches (at1 0x00B0C001) 0 (.wtk h0 6 1) (found 0x00B0C001 (.wtk h0 6 1)) ∧
    ∃ y, exec (.wtk h0 6 1) (found 0x00B0C001 (.wtk h0 6 1)) = .next y ∧
      decide (y.core.id = 0 ∧ y.core.pipe.fails = [] ∧ y.core.pipe.status = .stalled) = true :=
  ⟨fetches_of _ _ 0x80B0C001 (by decide +kernel), next_some (by decide +kernel)⟩
/-- A YIELD: it acts after every other slot. -/
theorem wit_stepWhole : Fetches (at1 0x00600000) 0 (.yield h0 0) (found 0x00600000 (.yield h0 0)) ∧
    ∃ y, exec (.yield h0 0) (found 0x00600000 (.yield h0 0)) = .next y ∧ (decide (y.core.id = 0 ∧ y.core.pipe.fails = [] ∧
      Instr.whole (.yield h0 0) = true ∧ y.core.pipe.status ≠ .stalled) &&
      nextIs (exec (.yield h0 0) (((found 0x00600000 (.yield h0 0)).commit.countBundle).setPipe
        { ((found 0x00600000 (.yield h0 0)).commit.countBundle).core.pipe with slot := 0, status := .ok, fails := [] }))
        fun y' => decide (y'.core.pipe.fails = [] ∧ y'.core.pipe.status ≠ .stalled)) = true :=
  ⟨fetches_of _ _ 0x80600000 (by decide +kernel), next_some (by decide +kernel)⟩
/-- An EXIT with a failing result in flight, for which its bundle traps. -/
theorem wit_stepAwaits :
    let t := found 0x00900000 (.exit h0)
    let t := t.setPipe { t.core.pipe with land := [⟨t.core.pipe.now + 9, .s 5 9, [], some 7⟩] }
    nextIs (exec (.exit h0) t) (fun y => decide (t.awaited y ≠ [])) = true := by decide +kernel
/-- Turns: none, an operation in flight, and an event of the device. -/
theorem wit_turns :
    let r : State := { z with host := { z.host with ready := true, lpz := true, phase := 5 } }
    r.tock.turn = none ∧ z.tock.turn = some (.event .reset) ∧ r.host.ready = true ∧ r.host.fatal = false := by decide +kernel
theorem wit_invariant : Memory.wf z.mem = true ∧ ∃ t, step z = .next t := by
  refine ⟨by decide +kernel, ?_⟩
  obtain ⟨t, h, -⟩ := next_some (o := step z) (p := fun _ => true) (by decide +kernel)
  exact ⟨t, h⟩

/-! #### The life of a continuation -/

/-- A device that has powered up, with nothing to do. -/
def up : State := { z with host := { z.host with ready := true, lpz := true, phase := 5 } }
theorem wit_agenda :
    let s := up.push (.coreRetire 3)
    s.tock.turn = some (.agenda 0) ∧ s.agenda[0]? = some (.coreRetire 3) ∧ s.host.ready = true ∧ s.host.fatal = false ∧ 0 < s.agenda.length ∧
      nextIs (runEvent (.coreRetire 3) { s.tock with agenda := s.agenda.eraseIdx 0 }) (fun _ => true) = true := by decide +kernel
theorem wit_memory : Memory.wf world.mem = true ∧ Memory.wf z.mem = true := by decide +kernel
/-- A link of FP32 that counts n, the tail of its chain, and its chain instance on chain number 5. -/
def link0 (n : Nat) : Link := ⟨0, 1, 0, 2, 0, true, n, n, 0, false, false, 0, 0, 0, [], 0⟩
def chain0 (n : Nat) : Chain := ⟨0, 5, 9, 7, [9 * 2 ^ 48 + 1, BitVec.ofNat 64 (0x7F * 2 ^ 43 + n)], 0, [link0 n], [], [], []⟩
def chained (c : Chain) : State :=
  let s := { world with units := { world.units with chains := [c] } }
  s.setPipe { s.core.pipe with cur := [(5, 9)] }
/-- The front end: a stretch at its run, one short of it, a link open for longer than MOLC, and a result that is due. -/
theorem wit_frontEnd :
    let s := (chained (chain0 1)).setCont { z.core.cont with run := 1, cycles := 1 }
    let l := z.setPipe { z.core.pipe with land := [⟨0, .s 5 9, [], none⟩] }
    let v := (trapping none).startBundle
    let h := (inH z).startBundle
    (z.core.cont.handler = false ∧ z.core.cont.run ≤ z.core.cont.stretch) ∧
    (s.core.cont.handler = false ∧ s.core.cont.stretch < s.core.cont.run ∧ s.core.cont.gsize = 0 ∧ s.molcDue s.core.id = true) ∧
    (inH z).core.cont.handler = true ∧
    (l.core.pipe.land = [⟨0, .s 5 9, [], none⟩] ∧ 0 ≤ l.core.pipe.now ∧ l.core.pipe.posts = [] ∧ l.core.pipe.soft = []) ∧
    (v.core.cont.handler = false ∧ v.core.cont.run ≤ v.core.cont.stretch ∧ v.overrun.core.pipe.status ≠ .ok) ∧
    h.core.cont.handler = true ∧ h.badLandings = [] ∧
    (let b := (h.setPipe { h.core.pipe with land := [⟨0, .s 5 9, [], some 7⟩] })
     b.badLandings ≠ [] ∧ (b.landingTrap false b.badLandings).core.pipe.status ≠ .ok) := by decide +kernel

/-- A job on cluster 0 with the code object of handle 0, and its one READY record at 0x9000. -/
def job1 : Job := { job0 with objs := [(0, 0, hobj0)] }
def rec1 : Rec := ⟨0x9000, 0x0002000000000000, 0, 0x8000, 0, 0, 0, [], [], false, false, false, [], []⟩
def ready1 (w0 w2 : Nat) : State :=
  let s := (world.wr 0x9000 8 w0).wr 0x9010 8 w2
  { s with
    host := up.host
    sched := { s.sched with jobs := [job1], recs := [rec1] } }
theorem wit_dispatch :
    let s := ready1 (2 ^ 60 + 0x40) (0x7FF * 2 ^ 5)
    s.owner? (0 / 24) = some job1 ∧ (s.candidates (0 / 24)).map Rec.pa = [0x9000] ∧ s.gsizeOf 0x9000 = 0 ∧ (s.coreOf 0).phase = .idle ∧
    (s.usable (0 / 24)).contains 0 = true ∧ s.choose job1 0 = some (rec1, [0]) ∧ s.job? rec1.job = some job1 ∧ s.recordOk job1 rec1 = true ∧
    s.dispatchObj job1 (s.fieldOf rec1.pa 0 47 32) = (s, hobj0) ∧ s.gsizeOf rec1.pa = 0 ∧ Memory.wf s.mem = true ∧
    s.fieldOf rec1.pa 0x10 15 5 = 0x7FF ∧ s.owner? (24 / 24) = none := by decide +kernel
/-- A gang of two. -/
theorem wit_gangDispatch :
    let s := ready1 (2 ^ 60 + 2 ^ 54 + 0x40) (0x7FF * 2 ^ 5 + 2)
    s.rec? rec1.pa = some rec1 ∧ s.job? rec1.job = some job1 ∧ s.idle rec1.cluster = 0 :: (s.idle rec1.cluster).drop 1 ∧
    s.choose job1 0 = some (rec1, [0, 1]) := by decide +kernel

/-- A yield that gives its core up: to the record at the head, whose run fits the slice as its own does not, and to a gang of 24
that lacks cores. -/
def givingUp (w2 : Nat) : State :=
  let s := ready1 (2 ^ 60 + (if w2 % 32 = 0 then 0 else 2 ^ 54) + 0x40) (0x7FF * 2 ^ 5 + w2)
  let k := { yielding.core.cont with recPa := 0x9100, obj := { yielding.core.cont.obj with yields := [⟨0, 7, 0xFFFF⟩] } }
  { s with core := { yielding.core with phase := .running, cont := k } }
theorem wit_yieldsGiveUp : ∀ g ∈ [0, 24],
    let s := givingUp g
    let u := s.yieldPoint 0 ⟨0, 7, 0xFFFF⟩
    let fits (r : Rec) : Bool := decide ((u.runOf r.pa : Int) ≤ max 0 u.core.acct)
    s.core.cont.handler = false ∧ Acts s h0 {} ∧ s.core.cont.obj.yields[(0 : BitVec 16).toNat]? = some ⟨0, 7, 0xFFFF⟩ ∧ s.core.pipe.pc.toNat = 0 ∧
    u.core.cont.prq = false ∧ (∀ id ∈ u.core.members, id ∉ u.sched.retire) ∧ u.pinned = false ∧ u.core.cont.gsize = 0 ∧ u.core.id / 24 = 0 ∧
    u.drainsFor 0 = (if g = 24 then some rec1 else none) ∧ u.effRank u.core.cont.recPa ≤ u.effRank rec1.pa ∧
    (g = 0 → (((u.candidates 0).filter fun r => r.free && decide (u.gsizeOf r.pa = 0)).find? fits) = some rec1) ∧
    max 0 u.core.acct < (7 : Nat) ∧ Memory.wf u.mem = true := by decide +kernel
/-- Waits: on a token at count 0, which a first threshold of 0 meets and one of 1 does not; of a free continuation
and of a gang, in a cluster with cores and in one without; and of a launch that is cancelled. -/
theorem wit_waits : ∀ n ∈ [0, 1], ∀ g ∈ [0, 2], ∀ off ∈ [0, 2 ^ 48 - 1],
    let s := (ready1 (3 * 2 ^ 60 + g * 2 ^ 53) g).wr 0x9028 8 (2 ^ 62 + n * 2 ^ 32)
    let s : State := { s with sched := { s.sched with offClusters := BitVec.ofNat 48 off } }
    s.rec? rec1.pa = some rec1 ∧ s.job? rec1.job = some job1 ∧ rec1.retired = false ∧ s.recState rec1.pa = csWaiting ∧
    Memory.wf s.mem = true ∧ s.waitMet job1 rec1 = decide (n = 0) ∧ s.creq rec1.launch = false ∧ s.gsizeOf rec1.pa = g ∧
    ((off = 0 ∨ g = 0) ↔ (s.gsizeOf rec1.pa ≤ (s.usable rec1.cluster).length)) ∧
    (∀ c ∈ rec1.cluster :: job1.owned, off ≠ 0 → (s.usable c).length = 0) ∧
    (s.wr 0x8000 8 (2 ^ 55)).creq rec1.launch = true ∧ rec1.launch + 8 ≤ rec1.pa := by decide +kernel
/-- Drains: with nothing in flight, with a posting, and with a cancel still to come. -/
theorem wit_drains :
    let s : State := { z with core := { z.core with phase := .draining } }
    let t := (s.newPost 6 []).1
    s.core.phase = .draining ∧ s.drained = true ∧ t.core.phase = .draining ∧ t.drained = false ∧
    .cancelStop s.core.id ∉ s.agenda ∧ .cancelStop s.core.id ∈ (s.push (.cancelStop 0)).agenda ∧
    (s.push (.cancelStop 0)).drained = true := by decide +kernel
/-- Retirements: settled, and with a store that has not ripened. -/
theorem wit_retirements : ∀ o ∈ [[], [(3, 100)]],
    let r := { rec1 with retired := true, owed := o }
    let s := { waits [(100, 0)] [] 100 with sched := { z.sched with recs := [r] } }
    s.sched.recs.find? (fun q => decide (q.pa = r.pa) && q.retired) = some r ∧
    (s.cancelTriggers r.pa).settled r = decide (o = []) := by decide +kernel
theorem wit_cancelStops : ∀ p ∈ [Phase.running, .draining],
    let s : State := { z with core := { z.core with phase := p } }
    z.core.phase = .idle ∧ s.core.phase ≠ .idle ∧ s.core.cont.gsize = 0 ∧ s.creq s.core.cont.launch = false ∧
      (s.wr 0 8 (2 ^ 55)).creq s.core.cont.launch = true := by decide +kernel
/-- SPAWN's record: not yet due, into a slot in use, into a FREE slot of a running launch and of a cancelled one. -/
def spawn1 (n : Nat) : SpawnOp := ⟨0, 0, 0, 0x8000, 0x0002000000000040, 0, 0, 0, 0, 0, 0, 0, false, false, [(0, n)], 0, 0, none⟩
theorem key_some {r : State × Except Fail Nat} {k : Nat} (h : keyIs r k = true) : ∃ t, r = (t, .ok k) := by
  obtain ⟨t, _ | x⟩ := r
  · cases h
  · exact ⟨t, congrArg (fun x => (t, Except.ok x)) (of_decide_eq_true h)⟩
theorem wit_spawns : ∀ q ∈ [(2, 0), (0, 0), (5, 0), (5, 1), (0, 1)],
    let s := (((ready1 0 0).wr 0x120040 8 (q.1 * 2 ^ 60)).wr 0x8000 8 (q.2 * 2 ^ 55))
    s.job? (spawn1 9).job = some job1 ∧ s.spawnReady (spawn1 9) = true ∧
      keyIs (s.recordKey job1 (spawn1 9).slotPtr 64) 0x120040 = true ∧ s.recState 0x120040 = q.1 ∧ s.rec? 0x120040 = none ∧
      s.creq 0x8000 = decide (q.2 = 1) ∧ Memory.wf s.mem = true := by decide +kernel
/-- An ordinary record: a frame in the same buffer, the object of the spawner and its entry. -/
theorem wit_spawnRecord : ∀ st ∈ [0, 5],
    let s := ((ready1 0 0).wr 0x120040 8 (st * 2 ^ 60)).wr 0x120048 8 0x0002000000001000
    let p := spawn1 9
    (match s.recordKey job1 p.slotPtr 64 with
      | (t, .ok pa) => decide (pa = 0x120040 ∧ t.rec? pa = none ∧ t.creq p.launch = false ∧ Memory.wf t.mem = true) &&
          (match (t.setField p.launch 0 31 0 (t.fieldOf p.launch 0 31 0 + 1)).resolve job1 needL
              (ptrAdd (BitVec.ofNat 64 (t.word pa 8)) 0x88) 8 with
            | (u, .ok ks) => decide (u = t.setField p.launch 0 31 0 (t.fieldOf p.launch 0 31 0 + 1) ∧ ks = [(0x121088, 8)])
            | _ => false)
      | _ => false) = true ∧ p.launch + 8 ≤ 0x120040 ∧ 0x120040 + 64 ≤ 0x121088 ∧
    job1.objs.find? (fun q => decide (q.1 = p.cobj.toNat)) = some (0, 0, hobj0) ∧
    hobj0.entries[p.entry]? = some ⟨0x40, 5, 1, 0xFFFF⟩ := by decide +kernel
theorem wit_spawnWaits :
    let s : State := { z with units := { z.units with agents := [⟨0, 0, 100, [(3, 2)], [], []⟩] } }
    s.spawnReady (spawn1 3) = false ∧ s.spawnReady (spawn1 2) = true := by decide +kernel
/-- A completion for a continuation off its core, first of its token and behind another posting of it. -/
theorem wit_remoteCompletions : ∀ n ∈ [1, 2],
    let s := (ready1 (3 * 2 ^ 60) 0).wr 0x9008 8 0x0002000000000000
    let p : Posting := ⟨4, 6, BitVec.ofNat 16 n, [⟨0, 5⟩], true, [.s 5 9], none, [], none⟩
    let q : Posting := { p with id := 3, ready := false }
    let r := { rec1 with posts := [(0, p)] }
    let s := { s with sched := { s.sched with recs := [r] } }
    s.rec? 0x9000 = some r ∧ r.posts.find? (fun q => decide (q.2.id = 4)) = some (0, p) ∧ s.job? r.job = some job1 ∧ p.tok < 32 ∧
      p.ready = true ∧ p.image = none ∧ r.firstPost 0 p.tok = some p ∧
      ({ r with posts := [(0, q), (0, p)] } : Rec).firstPost 0 p.tok = some q ∧
      keyIs (s.rdPtr job1 needL (ptrAdd (BitVec.ofNat 64 (s.word r.pa 8)) (1024 + 114688 * 0 + (0x3340 + 16 * p.tok))) 16) 0 = true ∧
      ((Token.ofWords 0 0).count + 1 = p.cover ↔ n = 1) := by decide +kernel

/-! #### The X unit -/

/-- A hop table of one link, the tail, FP32, with COUNT 1, in A-space from offset 0, named by s3; the instance that it describes. -/
def hopTab : List Word := [9 * 2 ^ 48 + 1, 0x7F * 2 ^ 43 + 1]
def tabled (cs : List Chain) : State :=
  let s := scal world [(3, 0xFFF0000000000000)]
  let s := s.setCont { s.core.cont with obj := { s.core.cont.obj with molc := 9 } }
  let s := s.setStore { s.core.store with a := Cells.write [] 0 16 (9 * 2 ^ 48 + 1 + 2 ^ 64 * (0x7F * 2 ^ 43 + 1)) }
  { s with units := { s.units with chains := cs } }
/-- The instance of that table in a state, its link, if bound, in a state. -/
def inst0 (st : Nat) (l : List Nat) : Chain := { newChain 0 5 hopTab with state := st, links := l.map fun x => { link0 1 with state := x } }
/-- The binding's header: chain number 5, index 0. -/
abbrev hb : Hdr := hx [0x1400]
def inrIs (r : State ⊕ (State × Chain)) (p : State → Chain → Bool) : Bool := match r with | .inr (u, n) => p u n | .inl _ => false
theorem inr_some {r : State ⊕ (State × Chain)} {p : State → Chain → Bool} (h : inrIs r p = true) :
    ∃ u n, r = .inr (u, n) ∧ p u n = true := by
  obtain t | ⟨u, n⟩ := r
  · cases h
  · exact ⟨u, n, rfl, h⟩
/-- What a state with a hop table knows of its instance. -/
def knows (u : State) (n : Chain) (q : Option (Nat × Bool × List Nat)) : Bool :=
  decide ((u.chain? n.job n.ch n.inst).map (fun c => (c.state, decide (c.digest = n.digest ∧ c.arbDev = u.devnum),
    (c.link? (Hdr.j hb)).toList.map Link.state)) = q)
/-- Bindings: unknown, bound already, known but not bound, ended; splices of a FAULTED and of a LOST link. -/
theorem wit_bindings : ∀ q ∈ [([], none), ([inst0 0 [1]], some (0, true, [1])), ([inst0 0 []], some (0, true, [])), ([inst0 2 [6]], some (2, true, [6])),
      ([inst0 1 [4]], some (1, true, [4])), ([inst0 1 [5]], some (1, true, [5]))],
    let s := if q.1 = [inst0 0 [1]] then (tabled [inst0 0 [1]]) else tabled q.1
    Acts s hb { s := [3] } ∧ s.core.cont.handler = false ∧ s.core.cont.obj.molc ≠ 0 ∧ inrIs (s.hopTable hb 0 3) (fun u n => knows u n q.2 &&
      decide (u.units.hopPort = [] ∧ ∀ c ∈ u.units.chains, c.held = [])) = true ∧ world.core.cont.obj.molc = 0 ∧ Acts world hb { s := [3] } := by
  decide +kernel
/-- The same table with another digest known, and the instance of another INST open elsewhere. -/
theorem wit_otherInstances :
    let c := { inst0 0 [] with digest := 7 }
    let d := { inst0 0 [1] with inst := 8, links := [{ link0 1 with core := 3 }] }
    inrIs ((tabled [c]).hopTable hb 0 3) (fun u n => knows u n (some (0, false, []))) = true ∧
    inrIs ((tabled [d]).hopTable hb 0 3) (fun u n => u.units.chains.all fun c => decide (c.job = n.job ∧ c.ch = n.ch ∧ c.inst ≠ n.inst) &&
      c.links.all fun l => l.isOpen && decide (l.core ≠ u.core.id)) = true := by decide +kernel
/-- Control slots of an unknown and of the current instance, ACTIVE, FROZEN with and without a link in the way, and ended. -/
theorem wit_chainControl :
    (world.current 5 = none ∧ Acts world h0 {} ∧ Acts world h0 { ds := [4] } ∧ Acts (scal world [(3, 5)]) h0 { s := [3], ds := [4] } ∧
      (5 : BitVec 10) = ((scal world [(3, 5)]).s! (3 : BitVec 6)).setWidth 10) ∧
    (∀ st ∈ [0, 1, 2, 3], ∀ l ∈ [1, 4],
      let q := { chain0 1 with state := st, links := [{ link0 1 with state := l }] }
      (chained q).current 5 = some q ∧ q.arbDev = (chained q).devnum ∧ Acts (chained q) h0 {} ∧ Acts (chained q) h0 { ds := [4] } ∧
      (q.thawBlock = none ↔ l = 1)) ∧ (chain0 1).nlink ≤ 1 ∧
    -- a query of a link that is not the tail, of one of another device, and of the tail with their flags
    (let q : Chain := ⟨0, 5, 9, 7, [9 * 2 ^ 48 + 2, 2 ^ 43 + 1, 0x7F * 2 ^ 43 + 1], 0, [{ link0 1 with idx := 1 }], [], [], [(0, 2 ^ 59 + 2 ^ 43)]⟩
     let s (j : Nat) := scal (chained q) [(3, BitVec.ofNat 64 (5 + j * 2 ^ 16))]
     (∀ j ∈ [0, 1], (s j).current (((s j).s! (3 : BitVec 6)).setWidth 10) = some q ∧ bits ((s j).s! (3 : BitVec 6)).toNat 21 16 = j ∧
       Acts (s j) h0 { s := [3], ds := [4] }) ∧ q.nlink = 2 ∧ q.link? 0 = none ∧ 0 ≠ q.tail ∧ 1 = q.tail ∧
     (∃ p ∈ q.words, q.link? p.1 = none ∧ p.2.getLsbD (42 + 1) = true) ∧ (¬ ∃ p ∈ q.links, p.flags.getLsbD 1 = true)) ∧
    (let q : Chain := ⟨0, 5, 9, 7, [9 * 2 ^ 48 + 2, 2 ^ 43 + 1, 0x7F * 2 ^ 43 + 1], 0, [link0 1], [], [], []⟩
     let s := scal (chained q) [(3, 5)]
     s.current ((s.s! (3 : BitVec 6)).setWidth 10) = some q ∧ bits (s.s! (3 : BitVec 6)).toNat 21 16 = 0 ∧ 0 < q.nlink ∧
     q.link? 0 = some (link0 1) ∧ 0 ≠ q.tail ∧ Acts s h0 { s := [3], ds := [4] }) := by decide +kernel
/-- X slots: a contribution within COUNT and past it, starting values, snapshots and closes, with room in the queue. -/
theorem wit_queued :
    let s := chained (chain0 1)
    let t := chained { chain0 1 with links := [link0 0] }
    let g := scal t [(3, 0), (4, 0)]
    let f : BankFmt := ⟨0, 0xFEDCBA9876543210⟩
    s.room? (Hdr.tok h0) = true ∧ s.pOn h0 = true ∧ s.xLink 2 = some (chain0 1, link0 1) ∧ Free s { s := [3, 4], w := [bits h0.c 3 0] } ∧
    hopCount ((chain0 1).hop 0) ≤ (link0 1).issued ∧ (link0 0).issued < hopCount ((chain0 1).hop 0) ∧
    (∀ r ∈ matrixSlots, okIs (g.core.regs.matrixCheck r.2 (hx [0]) (g.s! (3 : BitVec 6)) (g.s! (4 : BitVec 6))) (f, f) = true) ∧
    t.xLink 2 = some ({ chain0 1 with links := [link0 0] }, link0 0) ∧ t.core.pipe.xq.length < 16 ∧
    (chain0 1).mayStart (link0 0) = true ∧ tileFits (Hdr.transferIx (hx [0])) (lo32 (g.s! (3 : BitVec 6))) ((chain0 1).width 0) = true ∧
    Free t { s := [3], w := [bits h0.c 11 8] } ∧ Free t {} ∧ Free t { s := [3], ds := [4] } ∧ Free t { s := [3, 4], dw := [bits (hx [0]).c 9 6] } ∧
    hopSucc ((chain0 1).hop 0) = 0x7F ∧ lo32 (g.s! (3 : BitVec 6)) < spaceLen (Hdr.closeIx (hx [0]) % 2) ∧
    g.core.regs.tileFmt true (Hdr.closeIx (hx [0])) 0 (cut 0 0 (closeBytes 0 (g.core.regs.fmtAt 0xFFF0 0).code)) = some f ∧
    closeFits (hx [0]) f (g.s! (3 : BitVec 6)) (g.s! (4 : BitVec 6)) = true ∧ g.roomFor (1216 + g.core.id / 24) = true := by
  decide +kernel
/-- Entries of the X queue of core 0 for the link in slot 2. -/
def xent (i : Instr) (fs : List BankFmt) : XEntry := ⟨0, i, 0, 0, 1, 1, fs, 0, none, [], 0, 5, 9, 0, 0, 0, 0⟩
def xqueue (c : Chain) (es : List XEntry) : State := let s := chained c; s.setPipe { s.core.pipe with xq := es }
theorem wit_xqFull :
    let e := xent (.mxa h0 2 3 4) []
    let f := xent (.chc h0 2 3 4) []
    let c : Chain := { chain0 1 with links := [link0 0] }
    let s := xqueue c (List.replicate 16 e)
    let t := xqueue { c with state := 1 } (List.replicate 16 f)
    16 ≤ s.core.pipe.xq.length ∧ s.frozenHead = none ∧ s.xLink 2 = some (c, link0 0) ∧ t.frozenHead = some 5 := by decide +kernel
/-- Heads: a contribution of each form, a starting value, with good and with failing operands, and a lost link. -/
theorem wit_heads :
    let f : BankFmt := ⟨0, 0xFEDCBA9876543210⟩
    let good (s : State) (e : XEntry) : Option (Option Cause) := (s.operandState 0 e 4).map fun b => b.map XFault.cause
    (∀ r ∈ matrixSlots, matrixForm (r.1 h0 2 3 4) = some (r.2, h0)) ∧
    (∀ i ∈ [Instr.mxa h0 2 3 4, .mxg h0 2 3 4, .mxt h0 2 3 4, .lkld h0 2 3, .lkz h0 2, .lkrd h0 5 2 3, .chc h0 2 3 4],
      let e := xent i [f, f]
      let s := xqueue (chain0 1) [e]
      AtHead s 0 e [] (chain0 1) (link0 1) ∧ (link0 1).arrivals = [] ∧ (chain0 1).width 0 = 4 ∧ good s e = some none ∧
        s.observe (some 0) e.wi = .ok) := by
  refine ⟨by decide +kernel, ?_⟩
  intro i hi
  simp only [List.mem_cons, List.not_mem_nil, or_false] at hi
  rcases hi with rfl | rfl | rfl | rfl | rfl | rfl | rfl <;>
    exact ⟨⟨rfl, is_ok (by decide +kernel)⟩, rfl, rfl, by decide +kernel, by decide +kernel⟩
/-- A link at the head that has advanced already keeps its tile. -/
theorem wit_lateStart : ∀ st ∈ [2, 3],
    let e := xent (.lkz h0 2) []
    let c := { chain0 0 with links := [{ link0 0 with state := st }] }
    (match (xqueue c [e]).headLink 0 e with | .ok (_, l) => decide (l.state = st) | .error _ => false) = true := by decide +kernel
theorem wit_badHead :
    let f : BankFmt := ⟨0, 0xFEDCBA9876543210⟩
    let e := xent (.mxa h0 2 3 4) [f, f]
    let s := xqueue (chain0 1) [e]
    let b := s.setStore { s.core.store with bad := [.scratch 0 0 0] }
    let l := xqueue { chain0 1 with links := [{ link0 1 with state := 5 }] } [e]
    ((b.operandState 0 e 4).map fun b => b.map XFault.cause) = some (some Cause.eccUncorr) ∧
    (match l.headLink 0 e with | .error k => decide (k = Cause.chainFrozen) | .ok _ => false) = true := by decide +kernel
/-- Closes: complete on an ACTIVE chain, and not complete. -/
theorem wit_closes :
    let f : BankFmt := ⟨0, 0xFEDCBA9876543210⟩
    let e := xent (.chc (hx [0]) 2 3 4) [f]
    let s := xqueue (chain0 1) [e]
    (chain0 1).state = 0 ∧ (link0 1).state = 1 ∧ (chain0 1).complete (link0 1) = true ∧ (chain0 1).complete (link0 0) = false ∧
    isLb f.code = false ∧ f.code ≤ 8 ∧ s.operandBad 0 e 4 = false ∧ Store.wf (s.coreOf 0).store = true ∧
    closeFits (hx [0]) f e.a e.b = true ∧ tileFits (Hdr.transferIx (hx [0])) (lo32 e.a) 4 = true ∧ elemWidth f.code / 8 = 4 := by
  decide +kernel
/-- A message of instance 9 of chain number 5 to index 1 of a chain of two links, the second the tail, and the
instance with that link in a state. -/
def msg0 (apos : Nat) : ChainMsg := ⟨0, 5, 9, 7, 0, 1, apos, false, List.replicate 1536 0⟩
def hopped (st : Nat) (l : Link) : Chain := ⟨0, 5, 9, 7, [9 * 2 ^ 48 + 2, 2 ^ 43, 0x7F * 2 ^ 43 + 1], st, [{ l with idx := 1 }], [], [], []⟩
/-- Messages: of an unknown instance, of a known one with its digest and with another, in each state of the instance and of its link. -/
theorem wit_messages :
    let m := msg0 0
    world.chainFor m = none ∧
    (∀ st ∈ [0, 1, 2, 3], ∀ ls ∈ [1, 2, 3, 4, 5, 6],
      let q := hopped st { link0 1 with state := ls }
      let s := chained q
      s.chainFor m = some q ∧ q.digest = m.digest ∧ q.digest ≠ { m with digest := 8 }.digest ∧ s.chainFor { m with digest := 8 } = some q ∧
      q.state = st ∧ q.link? 255 = none ∧ q.link? m.target = some { link0 1 with idx := 1, state := ls } ∧ q.arbDev = s.devnum) ∧
    (let q := { hopped 0 (link0 1) with words := [(0, 2 ^ 59)] }
     q.link? m.sender = none ∧ (∃ p ∈ q.words, p.1 = m.sender) ∧ (hopped 0 (link0 1)).words = [] ∧
     ∀ v ∈ [[], [5]], (chained q).chainFor { m with vals := v } = some q ∧ q.digest = { m with vals := v }.digest) ∧
    (hopped 0 (link0 1)).link? (msg0 0).sender = none ∧ ({ hopped 1 (link0 1) with links := [] } : Chain).link? m.target = none ∧
    (link0 1).arrivals = [] ∧ (link0 1).applied = hopCount ((hopped 0 (link0 1)).hop 1) ∧ (link0 1).arrived = m.apos ∧ m.vals.length = 1536 ∧
    (msg0 0).apos < ({ link0 1 with arrived := 1 } : Link).arrived ∧ m.apos ≠ 1 ∧ (msg0 1).apos = 1 := by decide +kernel
/-- A link with its next arrival, and one that is complete, both due; the queue before them empty. -/
def dueChain (n arrived : Nat) (xs : List (Nat × Bool × List Word)) : Chain :=
  ⟨0, 5, 9, 7, [9 * 2 ^ 48 + 3, 2 ^ 43 + 1, 2 * 2 ^ 43 + 1, 0x7F * 2 ^ 43 + 1], 0,
    [{ link0 n with idx := 1, arrived := arrived, arrivals := xs }], [], [], []⟩
theorem wit_due :
    let next := dueChain 1 0 [(0, false, List.replicate 1536 0x3F800000)]
    let done := dueChain 1 1 []
    ∀ q ∈ [(next, true), (done, false)], let s := chained q.1
      (s.coreOf 0).pipe.xq = [] ∧ s.chain? 0 5 9 = some q.1 ∧
      (s.dueLink 0).map (fun x => (x.1.state, x.2)) = (q.1.link? 1).map (fun l => (0, l)) ∧
      (q.1.link? 1).map (fun l => (l.core, q.1.mayAdd l, l.arrivals.map fun a => (a.1, a.2.2.length))) =
        some (0, q.2, if q.2 = true then [(0, 1536)] else []) := by decide +kernel
/-- Another device's instance: the chain of a message whose arbiter is not this device. -/
theorem wit_remoteArbiter :
    let q := hopped 0 { link0 1 with state := 2 }
    ({ chained q with devnum := 1 } : State).chainFor (msg0 0) = some q ∧ q.arbDev ≠ 1 := by decide +kernel
/-- Requests to the arbiter of an instance, of each kind and in each state of the instance and of its link, and a reply. -/
theorem wit_arbiters :
    let r (k : ArbKind) : ArbReq := ⟨0, 5, 9, 7, k, 0, 0, 2, 1, none⟩
    (∀ st ∈ [0, 1, 2, 3], ∀ ls ∈ [1, 4, 5],
      let q := { chain0 1 with state := st, links := [{ link0 1 with state := ls }] }
      ∀ k ∈ [ArbKind.freeze .linkLost none, .freeze .linkLost (some (0, 5)), .note 3, .cancel, .thaw, .splice 0 2 0],
        (r k).reply = none ∧ askedFor (chained q) (r k) = some q ∧ q.digest = (r k).digest ∧ q.state = st ∧ q.stateOf (r k).idx = ls ∧
          (q.thawBlock = none ↔ ls = 1)) ∧
    askedFor world (r .thaw) = none ∧ (chain0 1).digest ≠ ({ r .cancel with digest := 8 } : ArbReq).digest ∧
    ({ r .thaw with reply := some 1 } : ArbReq).reply = some 1 ∧
    -- an accepted splice comes back: awaited in a FROZEN and in an ended instance, and not awaited any more
    ∀ st ∈ [1, 2, 3], let q := { chain0 1 with state := st, links := [{ link0 1 with state := 4 }] }
      let s := chained q
      let w := s.setPipe { s.core.pipe with reply := [(1, none)] }
      s.chain? 0 5 9 = some q ∧ w.chain? 0 5 9 = some q ∧ q.link? 0 = some { link0 1 with state := 4 } ∧
      s.awaiting 2 1 = false ∧ w.awaiting 0 1 = true := by decide +kernel

/-! #### Engines -/

/-- A descriptor or record in A-space, named by s3. -/
def descS (l : List Nat) : State :=
  let s := scal world [(3, 0xFFF0000000000000), (4, 64)]
  s.setStore { s.core.store with a := Cells.write [] 0 64 (wordsNat l) }
def syncIs (r : Sync) (p : State → Nat → Bool) : Bool := match r with | .ok u x => p u x | _ => false
theorem sync_some {r : Sync} {p : State → Nat → Bool} (h : syncIs r p = true) : ∃ u x, r = .ok u x ∧ p u x = true := by
  cases r with
  | ok u x => exact ⟨u, x, rfl, h⟩
  | stall t => cases h
  | fail t c d => cases h
/-- A copy of two rows of 8 bytes from offset 0x100 of buffer 0 to offset 0x2000 of it; with a bad ROWS in the second. -/
def copyDesc : List Nat := [0x100, 0x2000, 8 * 2 ^ 32 + 2, 8, 8, 0x7FF * 2 ^ 53 + 0x7FF * 2 ^ 42, 0]
def badDesc : List Nat := [0x100, 0x2000, 8 * 2 ^ 32, 8, 8, 0x7FF * 2 ^ 53 + 0x7FF * 2 ^ 42, 0]
/-- Source-free on token 8, token 9 and w1. -/
abbrev he : Hdr := hx [0x4C040, 0x44000]
theorem wit_copySlots : ∀ k ∈ [1, 2],
    let s := descS copyDesc
    let p := s.s! (3 : BitVec 6)
    s.core.id < 1152 ∧ s.room? (Hdr.tok he) = true ∧ s.room? (tokOf he.c2) = true ∧ (s.engine (0 / 288 * 16 + 2)).queue.length < 32 ∧
    (s.engine 2).holder = none ∧ Acts s he { s := [3], w := [bits he.c 13 10], dw := [bits he.c 9 6] } ∧ Acts s he { s := [3, 4], w := [bits he.c 13 10], dw := [bits he.c 9 6] } ∧
    Acts s he { s := [3, 4] } ∧
    s.roomTwo (Hdr.tok he) (tokOf he.c2) = true ∧ s.roomTwo (some 8) (some 8) = true ∧
    syncIs (s.syncRead needRW 64 p 64 0 false) (fun u x => decide (u.job! = some job0 ∧ u.descCheck job0 (k = 2) ((wordsOf x 64).take 7) = none) &&
      syncIs (u.syncWrite needRW 8 (ptrAdd p 0x38) 8 (0xFF * 2 ^ 56) 1 false) fun _ _ => true) = true ∧
    syncIs ((descS badDesc).syncRead needRW 64 p 64 0 false) (fun u x => decide (u.job! = some job0) &&
      (u.descCheck job0 (k = 2) ((wordsOf x 64).take 7)).isSome) = true := by decide +kernel
/-- A loop-nest record of two ranks: all-reduce of FP32 sums, 2 elements a chunk, rank 0, PEER the lease of buffer 3; and one of one rank. -/
def loopDesc (ranks : Nat) : List Nat :=
  [9 * 2 ^ 48 + 5 * 2 ^ 32 + (ranks - 1) * 2 ^ 6, 0x100, 3 * 2 ^ 48, 0, 2 * 2 ^ 48 + 2 ^ 32 + 2 ^ 16, 4 * 2 ^ 32, 8]
theorem wit_collSlots : ∀ n ∈ [1, 2, 64],
    let s := descS (loopDesc n)
    let p := s.s! (3 : BitVec 6)
    syncIs (s.syncRead needRW 64 p 64 0 false) (fun u x => decide (u.job! = some job0 ∧
        (u.loopCheck job0 ((wordsOf x 64).take 7)).isNone = decide (n ≠ 1)) &&
      syncIs (u.syncWrite needRW 8 (ptrAdd p 0x38) 8 (0xFF * 2 ^ 56) 1 false) fun v _ => decide (v.units.messages = [])) = true := by decide +kernel
/-- Triggers: a misaligned word, one in HBM, one of a lease, and one of no buffer; and a status read. -/
def bufIs (r : Except Cause Place) (p : Buf → Bool) : Bool := match r with | .ok (.buf q) => p q | _ => false
theorem wit_arms :
    let at' (x : Nat) : State := scal world [(3, BitVec.ofNat 64 x)]
    let p (x : Nat) : Word := (at' x).s! (3 : BitVec 6)
    let ck (x : Nat) : Except Cause Place := (at' x).check job0 (at' x).osize needR true (ptrIx (p x)) (ptrOff (p x)) 8
    ptrOff (p 4) % 8 ≠ 0 ∧ bufIs (ck 8) (fun q => decide (q.tier ≤ 1)) = true ∧ ptrOff (p 8) % 8 = 0 ∧
    bufIs (ck (3 * 2 ^ 48)) (fun q => decide (2 ≤ q.tier)) = true ∧ (ck (9 * 2 ^ 48)).isOk = false ∧
    (∀ ix ∈ [0xFFF0, 0xFFF3, 0xFFF4, 0xFFF5], okIs (ck (ix * 2 ^ 48)) (.core ix) = true) ∧ (at' 8).job! = some job0 ∧
    Acts (at' 8) h0 { s := [3, 4] } ∧ world.postRoom (31 : BitVec 5).toNat = true ∧ Acts world h0 { ds := [4] } := by decide +kernel
/-- A full and a held engine. -/
def cmd0 (kind : Nat) (desc : List Nat) (freed : Bool) : Cmd :=
  ⟨0, kind, 0, 0, 0, 0, 0, 0, desc.map (BitVec.ofNat 64), 0xFFF0000000000000, 0, 0, 0, 0, 0, none, none, none, none, freed, false, 0, [], []⟩
def busy (g : Engine) : State := { world with units := { world.units with engines := world.units.engines.setIfInBounds 2 g } }
theorem wit_engineStalls :
    32 ≤ ((busy ⟨List.replicate 32 (cmd0 1 copyDesc false), none, [], [], none, false, []⟩).engine 2).queue.length ∧
    ((busy ⟨[], some 3, [], [], none, false, []⟩).engine 2).holder ≠ none := by decide +kernel

/-- What a step of a copy finds: its piece, and places that can be read or written without waiting. -/
def placesIs (r : List EPlace × Option EngFail) : Bool :=
  r.2.isNone && r.1.all fun p => match p with | .peer .. => false | _ => true
theorem places_some {r : List EPlace × Option EngFail} (h : placesIs r = true) : ∃ ps, r = (ps, none) ∧ NoPeer ps := by
  obtain ⟨ps, _ | f⟩ := r
  · refine ⟨ps, rfl, fun p hp l o e => ?_⟩
    subst e
    simpa using List.all_eq_true.mp (Bool.and_eq_true_iff.mp h).2 _ hp
  · cases h
def pieceIs (r : Except EngFail (Nat × (Nat → Nat → Nat → Nat × Nat × Flags))) (p : Nat → (Nat → Nat → Nat → Nat × Nat × Flags) → Bool) : Bool :=
  match r with | .ok (n, f) => p n f | .error _ => false
theorem piece_some {r : Except EngFail (Nat × (Nat → Nat → Nat → Nat × Nat × Flags))}
    {p : Nat → (Nat → Nat → Nat → Nat × Nat × Flags) → Bool} (h : pieceIs r p = true) : ∃ n f, r = .ok (n, f) ∧ p n f = true := by
  cases r with
  | error e => cases h
  | ok q => exact ⟨q.1, q.2, rfl, h⟩
/-- The bytes of k that the source and the destination of a copy share. -/
def sharedAt (u : State) (c : Cmd) (sx so dx d k : Nat) : Bool :=
  sharePlace (okBytes (fun i => u.engByte job0 (descCore c 63 53) needR sx (so + i)) k 0).1
    (okBytes (fun i => u.engDest job0 (descCore c 52 42) dx (d + i) c.shd) k 0).1
/-- Copies and reducing copies: before the source, before the old destination, before the result, and before source-free. -/
theorem wit_copies : ∀ q ∈ [(1, []), (1, [5]), (2, []), (2, [5]), (2, [5, 6])],
    let c := cmd0 q.1 copyDesc false
    let s := busy ⟨[c], none, [], q.2, some BankFmt.zero, false, []⟩
    let u := s.setHead 2 c q.2
    HeadCmd s 2 c job0 ∧ c.kind = q.1 ∧ (c.freed = true ∨ c.col + 8 < c.rowlen ∨ c.row + 1 < c.rows) ∧
    c.srcRow + c.col = 0x100 ∧ c.dstRow + c.dcol = 0x2000 ∧ (u.destFmt (descCore c 52 42) 0 0x2000).getD BankFmt.zero = BankFmt.zero ∧
    pieceIs (c.piece BankFmt.zero (sharedAt u c 0 0x100 0 0x2000)) (fun n f =>
      decide (n = 8 ∧ (f n 5 6).1 = n ∧ n % (elemWidth (bits (c.w 5) 37 34) / 8) = 0)) = true ∧
    placesIs (okBytes (fun i => u.engSource job0 (descCore c 63 53) 0 (0x100 + i)) 8 0) = true ∧
    placesIs (okBytes (fun i => u.oldAt job0 (descCore c 52 42) 0 (0x2000 + i) c.srd) 8 0) = true ∧
    placesIs (okBytes (fun i => u.engDest job0 (descCore c 52 42) 0 (0x2000 + i) c.shd) 8 0) = true ∧
    u.engWait job0 0 0x100 8 = (u, false) ∧ u.engWait job0 0 0x2000 8 = (u, false) ∧ (s.engine 2).vals = q.2 ∧
    (s.engine 2).fmt = some BankFmt.zero ∧ c.was = [] := by decide +kernel
/-- The last piece, source-free not yet reached; and a conversion into a bank whose format its row does not fit. -/
theorem wit_copyEnds :
    let c := { cmd0 1 copyDesc false with row := 1 }
    let d := cmd0 1 [0x100, 0xFFF0000000000000, 63 * 2 ^ 32 + 2, 64, 64, 0x7FF * 2 ^ 53 + 0x7FF * 2 ^ 42, 0] false
    let s := busy ⟨[d], none, [], [], none, false, []⟩
    let s := s.setRegs { s.core.regs with fmt := s.core.regs.fmt.setIfInBounds 0 ⟨0x110, 0xFEDCBA9876543210⟩ }
    let u := s.setHead 2 d []
    ¬ (c.freed = true ∨ c.col + 8 < c.rowlen ∨ c.row + 1 < c.rows) ∧
    (d.piece ((u.destFmt (descCore d 52 42) 0xFFF0 0).getD BankFmt.zero) (sharedAt u d 0 0x100 0xFFF0 0)).isOk = false ∧ HeadCmd s 2 d job0 := by decide +kernel
/-- A device whose lease 0 is valid. -/
def lent (s : State) : State := { s with mem := { s.mem with cells := Cells.write s.mem.cells 0 16 (2 ^ 63 + 2 ^ 32 + 2 ^ 16) } }
/-- How word 0x38 of a command could be written. -/
def wroteAs (w : Wrote) : Nat := match w with | .ok _ => 0 | .asked _ => 1 | .fail .. => 2 | .wait _ => 3
/-- Source-free and delivery, before and after; words 0x38 of this device, of a lender and of no buffer, and a trigger's. -/
theorem wit_engineEvents : ∀ f ∈ [false, true], ∀ w ∈ [false, true], ∀ d ∈ [(0xFFF0, 0), (3, 1), (9, 2)],
    let c := { cmd0 1 copyDesc f with written := w, descPtr := BitVec.ofNat 64 (d.1 * 2 ^ 48) }
    let s := lent (busy ⟨[c], none, [], [], none, false, []⟩)
    2 < 64 ∧ s.engHead 2 = some c ∧ c.freed = f ∧ c.written = w ∧ s.cmdStore c = 0 ∧ c.kind ≤ 3 ∧
      wroteAs (s.wrStatus (c.done 2) (c.status 0)) = d.2 ∧ 3 < (cmd0 4 [0x100, 0] f).kind := by decide +kernel
/-- Triggers whose word has and has not reached its value; met ones that may and may not be left. -/
theorem wit_triggers : ∀ v ∈ [0, 1],
    let c := cmd0 4 [0x100, v] false
    let s := busy ⟨[c], none, [], [], none, false, []⟩
    let u := s.setHead 2 c []
    let m := { cmd0 4 [0x100, v] true with wi := [ent 100 3] }
    let w := { waits [(100, v)] [] 100 with units := { (waits (if v = 0 then [] else [(100, 0)]) [] 100).units with engines := (busy ⟨[m], none, [], [], none, false, []⟩).units.engines } }
    HeadCmd s 2 c job0 ∧ c.kind = 4 ∧ c.freed = false ∧ placesIs (okBytes (fun i => u.engSource job0 c.core 0 (0x100 + i)) 8 0) = true ∧
    u.engWait job0 0 0x100 8 = (u, false) ∧
    (v = 0 ↔ (s.getBytes (okBytes (fun i => u.engSource job0 c.core 0 (0x100 + i)) 8 0).1 + 2 ^ 64 - c.w 1) % 2 ^ 64 < 2 ^ 63) ∧
    w.engHead 2 = some m ∧ m.kind = 4 ∧ m.freed = true ∧ (w.observe none m.wi = .wait ↔ v = 1) := by
  decide +kernel
/-- A publish of one segment of a buffer whose shadow is buffer 1: before its read, and before its write. -/
def shadowed (vals : List Nat) : State :=
  let s := busy ⟨[cmd0 5 [0x100, 64] false], none, [], vals, none, false, []⟩
  { s with mem := { s.mem with cells := Cells.write s.mem.cells 0x1000 32 ((2 ^ 63 + 28 * 2 ^ 55) + 0x10000 * 2 ^ 64 + (2 ^ 52 + 2 ^ 38 + 2 ^ 16) * 2 ^ 128) } }
theorem wit_publishes : ∀ vals ∈ [[], [7]],
    let c := cmd0 5 [0x100, 64] false
    let s := shadowed vals
    let u := s.setHead 2 c vals
    HeadCmd s 2 c job0 ∧ c.kind = 5 ∧ (0x100 + 64 * c.row) % 64 = 0 ∧ c.w 1 % 64 = 0 ∧ 64 * c.row < c.w 1 ∧
    c.w 1 ≤ 64 * ({ c with row := 1 } : Cmd).row ∧
    (match u.publishCheck job0 0 0x100 (c.w 1) with | .ok sh => decide (sh = 1) | .error _ => false) = true ∧
    placesIs (okBytes (fun i => u.engByte job0 c.core needW 0 (0x100 + i)) 64 0) = true ∧
    placesIs (okBytes (fun i => u.engSource job0 c.core 1 (0x100 + i)) 64 0) = true ∧
    u.engWait job0 1 0x100 64 = (u, false) ∧ u.engWait job0 0 0x100 64 = (u, false) ∧ (s.engine 2).vals = vals := by decide +kernel
/-- Lost packets: of a run and of a link that has sent. -/
def run0 (stage : Nat) (sent : Bool) : Run := ⟨0, 2, 0, 9, 5, (loopDesc 2).map (BitVec.ofNat 64), 7, stage, 0, sent, false, []⟩
def running (r : Run) (m : CidMark) : State :=
  let s := busy ⟨[cmd0 3 (loopDesc 2) false], none, [], [], none, false, []⟩
  { s with units := { s.units with runs := [r], cids := [m] } }
def mark0 : CidMark := ⟨0, 9, some 4, false, false, some 1, 0, false, [], none⟩
theorem wit_retries :
    let m : ChainMsg := ⟨0, 5, 9, 7, 0, 1, 0, false, []⟩
    let q := { chain0 1 with links := [{ link0 1 with state := 2 }] }
    let r : ArbReq := ⟨0, 5, 9, 7, .freeze .linkLost none, 0, 0, 2, 1, none⟩
    (running (run0 1 false) mark0).run? 0 9 5 = some (run0 1 false) ∧ (running (run0 1 false) mark0).run? 0 9 6 = none ∧
    (chained q).chainFor m = some q ∧ q.link? m.sender = some { link0 1 with state := 2 } ∧ q.state = 0 ∧
    r.key ≠ noKey ∧ (chained q).chain? r.job r.ch r.inst = some q ∧ ({ r with key := noKey, kind := .cancel } : ArbReq).key = noKey := by
  decide +kernel

/-! #### Trees and collectives -/

/-- A tree of two nodes of this device, the root on core 3, its child on core 4, with lane-wise sums of one UINT32. -/
def tree0 : TreeDesc := ⟨9, 0, 8, 0, 0, [⟨0, 3, 0x3F, 0⟩, ⟨0, 4, 0, 0⟩]⟩
/-- Its description in A-space: op 0, format 7 (INT32), one element, TMO 100. -/
def treeWords : List Nat := [9 * 2 ^ 48 + 7 * 2 ^ 40 + 100 * 2 ^ 16 + 2, 3 * 2 ^ 39 + 0x3F * 2 ^ 33, 4 * 2 ^ 39]
def treed (dev : BitVec 14) : State := { descS treeWords with devnum := dev }
def treeIs (r : State ⊕ (State × TreeDesc × BitVec 64)) (p : State → TreeDesc → Bool) : Bool :=
  match r with | .inr (u, d, _) => p u d | .inl _ => false
theorem tree_some {r : State ⊕ (State × TreeDesc × BitVec 64)} {p : State → TreeDesc → Bool} (h : treeIs r p = true) :
    ∃ u d g, r = .inr (u, d, g) ∧ p u d = true := by
  obtain t | ⟨u, d, g⟩ := r
  · cases h
  · exact ⟨u, d, g, rfl, h⟩
/-- RPSND and RPRCV: on the device of the tree and on another. -/
theorem wit_trees : ∀ dev ∈ [(0 : BitVec 14), 1],
    let s := treed dev
    Room s (hx tk) false ∧ Acts s (hx tk) { s := [3], v := [5] } ∧ Acts s (hx tk) { s := [3], dv := [5], ds := [6] } ∧ (5 : BitVec 6).toNat < 48 ∧
    treeIs (s.readTree (s.s! (3 : BitVec 6))) (fun u d => decide ((1 : BitVec 6).toNat < d.nodes.length ∧ d.nodes = tree0.nodes ∧
      ((treeNode d 1).dev = u.devnum ↔ dev = 0) ∧ ((treeNode d (treeRoot d)).dev = u.devnum ↔ dev = 0) ∧
      (u.router 4 d.tid).cur = none ∧ (u.router 4 d.tid).queue = [])) = true := by
  simp only [List.mem_cons, List.not_mem_nil, or_false, forall_eq_or_imp, forall_eq]
  decide +kernel
def contrib (n : Nat) : Contribution := ⟨tree0, 7, n, [3], ⟨0, 0, none, [], none⟩⟩
/-- Routers: a leaf's and the root's, with the round of the root open. -/
theorem wit_routers :
    let r : Router := ⟨3, 9, 5, some (contrib 0), [], [], []⟩
    let s : State := { z with units := { z.units with routers := [r] } }
    (∀ n ∈ [0, 1], let c := contrib n
      let core := (treeNode c.desc c.node).core
      (z.router core c.desc.tid).cur = none ∧ (z.router core c.desc.tid).inputs = [] ∧ (z.router core c.desc.tid).queue = [] ∧
      (treeChildren c.desc c.node = [] ↔ n = 1) ∧ ((treeNode c.desc c.node).parent ≠ 0x3F ↔ n = 1)) ∧
    (let p : TreePacket := ⟨9, 7, r.round, 0, 1, 3, [4], 0⟩
     s.router p.core p.tid = r ∧ tree0.tid = p.tid ∧ p.core = (treeNode tree0 (contrib 0).node).core ∧ r.core = p.core ∧ r.tid = p.tid ∧
     r.cur = some (contrib 0) ∧ treeChildren tree0 (contrib 0).node = [1] ∧ (treeNode tree0 (contrib 0).node).parent = 0x3F ∧
     p.digest = (contrib 0).digest ∧ 2 ^ 15 ≤ ((r.round + 2 ^ 15) + 2 ^ 16 - r.round) % 2 ^ 16) := by decide +kernel
/-- Receives: one before another, and one with a result. -/
theorem wit_receives :
    let r : Receive := ⟨3, 9, 1, 7, 5, 6, ⟨0, 0, none, [], none⟩⟩
    let q : Router := ⟨3, 9, 5, none, [], [], [(6, tree0, [7], 0)]⟩
    let o : Router := ⟨4, 9, 5, none, [], [], [(8, tree0, [9], 0)]⟩
    let s : State := { z with units := { z.units with routers := [o, q] } }
    (z.push (.roundResultReceive { r with order := 2 })).receiveBefore r.tid r.order = true ∧ s.receiveBefore r.tid r.order = false ∧
    z.receiveBefore r.tid r.order = false ∧ (∀ p ∈ z.units.routers, p.tid = r.tid → p.results = []) ∧
    s.firstResult r.tid = some q ∧ q.results = [(6, tree0, [7], 0)] := by
  decide +kernel
theorem wit_treeOps : (3 : Nat) < 2 ^ elemWidth tree0.fmt ∧ (tree0.fmt = 7 ∨ tree0.fmt = 8) ∧ tree0.op = 0 ∧ { tree0 with fmt := 0 }.fmt = 0 := by
  decide +kernel

/-- Runs at the head: past, marked, fresh, and at a step, with its chunk readable and its lease good. -/
theorem wit_runs : ∀ q ∈ [((5 : Nat), false), (4, true), (4, false)],
    let m : CidMark := { mark0 with last := some (BitVec.ofNat 16 q.1), marked := q.2 }
    let r := run0 0 false
    let s := running r m
    let met (d : BitVec 64) : Run := { run0 1 false with met := [(0, d)] }
    (s.headRun 2).map (fun x => (x.1, x.2.wi)) = some (r, []) ∧ s.job? r.job = some job0 ∧ (s.stepFailed 2).isNone = true ∧ r.stage = 0 ∧
    s.cidOf r.job r.cid = some m ∧ m.awaits = false ∧ m.past r.seq = decide (q.1 = 5) ∧ loopPrs r.desc = false ∧
    (running r { m with awaits := true }).cidOf r.job r.cid = some { m with awaits := true } ∧
    ((running (met 7) m).headRun 2).map (fun x => x.1) = some (met 7) ∧ (met 7).stage = 1 ∧ (met 7).metAll = true ∧
    ((met 7).met.all fun q => decide (q.2 = (met 7).digest)) = true ∧ ∃ q ∈ (met 8).met, q.2 ≠ (met 8).digest := by decide +kernel
def leased (r : Run) : State := lent (running r mark0)
def elemsOk (r : Except EngFail (List Nat)) : Bool := match r with | .ok _ => true | .error _ => false
theorem wit_steps :
    let r := run0 2 false
    let t := leased r
    let s := t.setHead 2 (cmd0 3 (loopDesc 2) false) []
    let ptrs := chunkPtrs r.desc (r.desc.getD 1 0) (sendChunk r.desc (loopRank r.desc) r.step)
    let w := elemWidth (loopFmt r.desc) / 8
    (t.headRun 2).map (fun x => (x.1, x.2.wi)) = some (r, []) ∧ (t.stepFailed 2).isNone = true ∧
    r.stage = 2 ∧ r.sent = false ∧ w = 4 ∧ ptrs.length = 2 ∧ s.elemsWait job0 ptrs w (loopPrs r.desc) = (s, false) ∧
    elemsOk (s.readElems job0 w (loopPrs r.desc) ptrs) = true ∧
    ((chunkPtrs r.desc (r.desc.getD 2 0) (sendChunk r.desc (loopRank r.desc) r.step)).all fun p =>
      (s.check job0 0 needW true (ptrIx p) (ptrOff p) w).isOk) = true ∧
    (s.buf? job0 (ptrIx (r.desc.getD 2 0))).map Buf.lease = some 0 ∧ (s.lease? 0).isSome = true := by decide +kernel
/-- Arrivals: of a SEQ that has ended, of a digest, and of a step with and without a grant. -/
theorem wit_arrivals :
    let p : RingPacket := ⟨1, 2, 0, 0, 0, 0, 9, 4, 7, none, [], []⟩
    let s := running (run0 1 false) mark0
    s.run? p.tenant p.cid p.seq = none ∧ s.cid? p.tenant p.cid = some mark0 ∧ mark0.past p.seq = true ∧
    s.run? 0 9 6 = none ∧ mark0.past 6 = false ∧ ((run0 1 false).met.all fun q => decide (q.1 ≠ p.src)) = true ∧ p.src ≠ loopNdev (run0 1 false).desc ∧
    s.run? 0 9 5 = some (run0 1 false) ∧ (s.headRun 2).map (fun x => x.1.cmd) = some 0 ∧ (run0 1 false).stage = 1 ∧
    -- after an abort decision, and steps held until the run has come to them
    (let a : CollMsg := ⟨0, 9, 6, 1, 1, false, 0, none, 0, false⟩
     let h : State := { s with units := { s.units with messages := [.abortDecision a] } }
     h.run? 0 9 6 = none ∧ h.abortHeld 0 9 6 = true ∧ s.abortHeld 0 9 6 = false) ∧
    (∀ st ∈ [0, 1, 2], ((running (run0 st true) mark0).headRun 2).map (fun x => x.1.cmd) = some 0 ∧ (run0 st true).stage = st) ∧
    ({ p with step := some 1 } : RingPacket).step ≠ some (run0 2 true).step ∧ ({ p with src := 1 } : RingPacket).src ≠ loopPdev (run0 2 true).desc := by decide +kernel
theorem wit_stepArrives :
    let r := run0 2 true
    let p : RingPacket := ⟨0, 2, 0, 0, 0, 0, 9, 5, 7, some 0, [0, 4], List.replicate 8 0⟩
    let s := running r mark0
    let g := s.wr 0 8 (2 ^ 63 + 2 ^ 57)
    let h : State := { g with mem := { g.mem with refresh := [0] } }
    let w := elemWidth (loopFmt r.desc) / 8
    let ptrs := chunkPtrs r.desc (r.desc.getD 1 0) (sendChunk r.desc ((loopRank r.desc + loopN r.desc - 1) % loopN r.desc) r.step)
    s.run? p.tenant p.cid p.seq = some r ∧ p.digest = r.digest ∧ ({ p with digest := 8 } : RingPacket).digest ≠ r.digest ∧ (s.headRun r.eng).map (fun x => x.1.cmd) = some r.cmd ∧ p.step = some r.step ∧ r.stage = 2 ∧ r.sent = true ∧ p.src = loopPdev r.desc ∧
    (s.stepAdmits p w matches some (.error _)) ∧ (g.stepAdmits p w matches some (.ok _)) ∧ (h.stepAdmits p w).isNone = true ∧ g.elemsWait job0 ptrs w (loopPrs r.desc) = (g, false) ∧
    elemsOk (g.readElems job0 w (loopPrs r.desc) ptrs) = true ∧
    (g.writeElems job0 (g.runEntry r) w (loopPrs r.desc) (ptrs.map fun p => (p, 1))).2.isNone = true := by decide +kernel
/-- Commits of a run that is not and that is complete, aborts at and beside rank 0, and decisions. -/
theorem wit_commits : ∀ st ∈ [2, 3], ∀ rank ∈ [0, 1],
    let r := { run0 st false with desc := ((loopDesc 2).set 0 (9 * 2 ^ 48 + 5 * 2 ^ 32 + 2 ^ 6 + rank)).map (BitVec.ofNat 64) }
    let s := running r { mark0 with rank := rank }
    s.run? 0 9 5 = some r ∧ s.run? 0 9 6 = none ∧ loopRank r.desc = rank ∧ ({ mark0 with rank := rank } : CidMark).past 6 = false ∧
    ({ mark0 with last := some 6 } : CidMark).past 6 = true ∧ (running r { mark0 with last := some 6 }).cid? 0 9 = some { mark0 with last := some 6 } := by
  decide +kernel
/-- A committed run at the head, with and without PRS. -/
theorem wit_committed : ∀ prs ∈ [0, 1],
    let r := { run0 4 false with desc := ((loopDesc 2).set 0 (9 * 2 ^ 48 + 5 * 2 ^ 32 + prs * 2 ^ 19 + 2 ^ 6)).map (BitVec.ofNat 64) }
    let s : State := { running r mark0 with mem := (shadowed []).mem }
    let c := cmd0 3 (loopDesc 2) false
    let u := s.setHead 2 c []
    let w := elemWidth (loopFmt r.desc) / 8
    let ptrs := allPtrs r.desc
    (s.headRun 2).map (fun x => (x.1, x.2.wi)) = some (r, []) ∧ s.job? r.job = some job0 ∧ (s.stepFailed 2).isNone = true ∧ r.stage = 4 ∧
    loopPrs r.desc = decide (prs = 1) ∧ 0xFFF0 ≤ ptrIx (ptrAdd c.descPtr 0x38) ∧ u.elemsWait job0 ptrs w true = (u, false) ∧
    elemsOk (u.readElems job0 w true ptrs) = true ∧
    (u.writeElems job0 c.wo w false (ptrs.map fun p => (p, 1))).2.isNone = true := by decide +kernel
/-- Aborts, decisions and mismatches: of a CID not accepted, of one at and beside rank 0, with runs, with none yet and with none any more. -/
theorem wit_decisions : ∀ rank ∈ [0, 1], ∀ q ∈ [((5 : Nat), false), (6, false), (4, true)],
    let m : CollMsg := ⟨0, 9, BitVec.ofNat 16 q.1, 1, 1, false, 0, none, 0, false⟩
    let k := { mark0 with rank := rank }
    let s := running (run0 2 false) k
    z.accepted? m = none ∧ s.accepted? m = some (k, 1) ∧ k.past m.seq = q.2 ∧ (s.runsTo k.job m.cid m.seq = [] ↔ q.2 = true) ∧
    (busy ⟨[], none, [], [], none, false, []⟩).runsTo k.job m.cid m.seq = [] ∧ m.origin ≠ s.devnum ∧ m.noted = false ∧
    ({ m with origin := 0, pass := 2 } : CollMsg).origin = s.devnum := by decide +kernel
theorem wit_aborts :
    let s := descS (loopDesc 2)
    Room s (hx tk) false ∧ Acts s (hx tk) { s := [3], ds := [5] } ∧ syncIs (s.syncRead needR 64 (s.s! (3 : BitVec 6)) 64 0) (fun _ _ => true) = true ∧
    (0 : BitVec 14) = s.devnum ∧ (1 : BitVec 14) ≠ s.devnum := by decide +kernel

/-! #### The device around its cores -/

/-- A device whose submission ring holds one entry, of an operation, for the job record at 0x40. -/
def ring1 (op : Nat) (rec : Nat) : State :=
  let s := ((world.wr (3 * 2 ^ 52) 16 (op * 2 ^ 60 + 0x40 + (256 * 2 ^ 32) * 2 ^ 64)).wr 0x40 8 rec).wr 0x60 8 (2 ^ 17)
  { s with
    host := { up.host with sqtail := 1, sqsize := 3 }
    sched := { s.sched with jobs := if op = 2 then [{ job0 with pa := 0x40 }] else [job0] } }
/-- Entries: of an unknown operation, of a bad record, one whose cluster is owned, disabled or free, a CANCEL of a job and of none. -/
theorem wit_submits :
    let ok := 4 * 2 ^ 60
    let s := ring1 1 ok
    let off : State := { s with sched := { s.sched with offClusters := 2 } }
    let own : State := { s with sched := { s.sched with jobs := [{ job0 with clusters := 2 }] } }
    z.submission = false ∧ (ring1 3 ok).submission = true ∧ bits ((ring1 3 ok).sqWord 0) 63 60 = 3 ∧
    (ring1 1 0).jobRecordOk 0x40 = false ∧
    (let w0 := s.sqWord 0
     let w1 := s.sqWord 1
     bits w0 63 60 = 1 ∧ bits w0 59 48 = 0 ∧ bits w1 26 16 = 0 ∧ bits w0 47 0 = 0x40 ∧ 0x40 % 64 = 0 ∧ 256 ≤ bits w1 63 32 ∧ bits w1 31 27 ≤ 23) ∧
    s.jobRecordOk 0x40 = true ∧ s.fieldOf 0x40 0x20 63 16 = 2 ∧
    lowestCluster 2 (fun c => off.sched.offClusters.getLsbD c) = some 1 ∧ lowestCluster 2 (fun c => s.sched.offClusters.getLsbD c) = none ∧
    lowestCluster 2 (fun c => (own.owner? c).isSome) = some 1 ∧ lowestCluster 2 (fun c => (s.owner? c).isSome) = none ∧
    bits ((ring1 2 ok).sqWord 0) 63 60 = 2 ∧ ((ring1 2 ok).job? 0x40).isSome = true ∧ (s.job? 0x40).isNone = true := by decide +kernel
/-- Responses: with room in the ring, and with none; the ring registers with READY clear, with empty rings, and with an entry. -/
theorem wit_responses :
    let s (n : Nat) : State := { up with
      host := { up.host with sqsize := BitVec.ofNat 16 n }, sched := { up.sched with responses := [(1, 2)] } }
    let h (n : Nat) : HostRegs := (s n).host
    Memory.wf (s 0).mem = true ∧ BitVec.ofNat 16 (((h 0).rqtail.toNat + 1) % ((h 0).sqsize.toNat + 1)) = (h 0).rqhead ∧
    BitVec.ofNat 16 (((h 1).rqtail.toNat + 1) % ((h 1).sqsize.toNat + 1)) ≠ (h 1).rqhead ∧
    z.host.ready = false ∧ up.host.ready = true ∧ up.host.sqhead = up.host.sqtail ∧ up.host.rqhead = up.host.rqtail ∧
    (ring1 1 0).host.sqhead ≠ (ring1 1 0).host.sqtail ∧ ((1 : Word).setWidth 16 : BitVec 16).toNat ≤ (h 1).sqsize.toNat ∧
    (h 1).sqsize.toNat < ((2 : Word).setWidth 16 : BitVec 16).toNat := by decide +kernel
/-- Forced pre-emption of the launch of the core and of another; a FROZEN record and one that is not. -/
theorem wit_companion :
    let v (n : Nat) : Word := BitVec.ofNat 64 (2 ^ 63 + n)
    let s : State := { up with core := { up.core with phase := .running } }
    let f := (ready1 (4 * 2 ^ 60) 0)
    up.host.prqGo = false ∧ (1 : Word).getLsbD 63 = false ∧ (v 0).getLsbD 63 = true ∧ s.core.phase ≠ .idle ∧ s.core.cont.launch = bits (v 0).toNat 47 0 ∧
    s.core.cont.launch ≠ bits (v 64).toNat 47 0 ∧ z.host.ready = false ∧
    f.rec? (bits (0x9000 : Word).toNat 47 0) = some rec1 ∧ Memory.wf f.mem = true ∧ f.recState rec1.pa = csFrozen ∧ f.host.fatal = false ∧
    rec1.retired = false ∧ f.creq rec1.launch = false ∧ rec1.launch + 8 ≤ rec1.pa ∧ f.gsizeOf rec1.pa = 0 ∧
    s.lpWaits 0x9007 = false ∧ (ready1 (2 ^ 60) 0).lpWaits 0x9000 = false ∧
    (ready1 (2 ^ 60) 0).recState rec1.pa ≠ csFrozen ∧ (ready1 (2 ^ 60) 0).recState rec1.pa = csReady ∧
    (ready1 (2 ^ 60) 0).sched.recs.find? (fun r => !r.spawning && decide (r.pa ≤ 0x9000) && decide (0x9000 < r.pa + 64)) = some rec1 ∧
    up.sched.jobs = [] ∧ f.sched.jobs = [job1] ∧ f.host.ready = true ∧ up.offMap < 2 ^ 96 := by decide +kernel
/-- LCANCEL of the running job itself and of a record of no kind. -/
theorem wit_lcancels : ∀ k ∈ [0, 4],
    let s := (ready1 0 0).wr 0 8 (k * 2 ^ 60 + 2 * 2 ^ 56)
    (s.belongs job1 4 (bits (0 : Word).toNat 47 0)).2 = decide (k = 4) := by decide +kernel
/-- Slot-table writes: the first entry and MODE of each die. -/
theorem wit_slotTables : ∀ d ∈ [0, 1, 2, 3],
    slotOffset (0x1000 + 0x400 * d) = some (d, 0) ∧ slotOffset (0x1000 + 0x400 * d + 0x200) = some (d, 64) ∧
    z.slots.entries.length = 4 ∧ z.slots.modes.length = 4 ∧ (z.slots.entries.all fun e => decide (e.length = 64)) = true := by decide +kernel
/-- Maintenance: a running and an idle core, with and without the spare; channels held, retired and neither; failing places. -/
theorem wit_maintenance :
    let s : State := { up with core := { up.core with phase := .running } }
    let p : State := { up with sched := { up.sched with spares := [0] } }
    let c : State := { up with mem := { up.mem with chanHeld := [(3, 95)] } }
    (s.coreOf 0).phase ≠ .idle ∧ (up.coreOf 1151).phase = .idle ∧ 1151 ∉ up.sched.offCores ∧ 1151 / 24 ∉ up.sched.spares ∧
    0 / 24 ∈ p.sched.spares ∧ p.owner? (0 / 24) = none ∧ up.host.retpc.length = 12 ∧ up.channelOff 11 95 = false ∧ (11, 95) ∉ up.mem.chanHeld ∧
    (3, 95) ∈ c.mem.chanHeld ∧ 11 < up.mem.rhb.length ∧
    (chained (chain0 1)).openLink 0 2 = some (chain0 1, link0 1) ∧ (chained (chain0 1)).chain? 0 5 9 = some (chain0 1) ∧
    (chain0 1).link? 0 = some (link0 1) ∧ (link0 1).state = 1 ∧ (chain0 1).state = 0 := by decide +kernel
/-- A stream over W-space, one over HBM and one over no buffer, each at its first element. -/
theorem wit_streams : ∀ x ∈ [0xFFF1, 0x0000, 0x0009],
    let b : Stream := ⟨[BitVec.ofNat 64 (x * 2 ^ 48), 2 * 2 ^ 32 + 1, 256, 0], 0, 0, [], none⟩
    let s := world.setRegs { world.core.regs with q := world.core.regs.q.setIfInBounds 3 (some b) }
    let s : State := { s with core := { s.core with phase := .running } }
    s.core.regs.q[3]?.getD none = some b ∧ s.core.phase = .running ∧ b.next < b.total ∧ s.job? s.core.cont.job = some job0 ∧
    ptrOff (b.ptr 0) % 4 = 0 ∧ s.core.store.bad = [] ∧ s.core.cont.handler = false ∧
    ((s.check job0 s.core.cont.obj.osize needR true (ptrIx (b.ptr 0)) (ptrOff (b.ptr 0)) 256).isOk = decide (x ≠ 9)) ∧
    (let d : Buf := ⟨0, 28, 0, 0, 0x10000, 1, 0, 1, 0, false, 0, 0⟩
     (x = 0 → okIs (s.check job0 s.core.cont.obj.osize needR true (ptrIx (b.ptr 0)) (ptrOff (b.ptr 0)) 256) (.buf d) = true) ∧
     d.tier ≠ 3 ∧ okIs (s.pureKeys job0.tenant.toNat d.tier (d.pieces 0 256)) [(2 ^ 20, 256)] = true ∧
     (s.askWalks job0.tenant.toNat d.tier (d.pieces 0 256)).2 = false ∧ s.portHeld d 0 256 [(2 ^ 20, 256)] = false ∧
     s.coreBad 0 [(2 ^ 20, 256)] = false) := by decide +kernel
/-- Power-up in each phase, the LP tier at its first, its last and past its last region, and a dump that is due. -/
theorem wit_tiers : Config.cxlBoard = true ∨ Config.cxlBoard = false := by cases Config.cxlBoard <;> simp
theorem wit_dumpPlace (s : State) (h : s.host.lpz = true) (n : Nat) : s.lpWaits (s.dumpKey + n) = false := by
  simp [State.lpWaits, h]
theorem wit_powerUp :
    let at' (p : Nat) : State := { z with host := { z.host with phase := BitVec.ofNat 3 p } }
    let lp (n : Nat) : State := { at' 4 with mem := { z.mem with lpZeroed := n } }
    let d : State := { up with host := { up.host with fatal := true, dumplen := 4096, dumpbase := 1 } }
    (∀ p ∈ [1, 2, 3, 4, 5], (at' p).host.phase = BitVec.ofNat 3 p ∧ (at' p).host.failcode = 0 ∧ (at' p).host.fatal = false ∧ (at' p).host.ready = false) ∧
    (∀ n ∈ [0, 732421, 732422], 4 ≤ (lp n).host.phase.toNat ∧ (lp n).host.lpz = false ∧ Memory.wf (lp n).mem = true ∧
      (n = 732422 ↔ 732422 ≤ (lp n).mem.lpZeroed)) ∧
    (∀ r ∈ [2, 3, 4], (true && (decide ((BitVec.ofNat 3 r) ≠ (1 : BitVec 3)) || false)) = true) ∧ d.host.lpz = true ∧
    z.host.fatal = false ∧ d.host.fatal = true ∧ z.dumpDue = false ∧ d.dumpDue = true ∧ Memory.wf d.mem = true := by decide +kernel

/-! #### Encoding -/

theorem wit_encoding : Instr.wf (.add h0 3 4 5) = true ∧ takeBundle 8 [0x82003105] = some [0x82003105] ∧
    decode [0x82003105] = some (.add h0 3 4 5) := by decide +kernel

end Sys2Proof.Tests
end

section
/-!
# What a write of memory reads back as (00 R9)
-/
namespace Sys2Proof.Machine

/-- A read of the bytes just written gives the number that they hold (00 R9). -/
theorem Cells.read_write_same {cs : List Host.Cell} (a n x : Nat) (h : Cells.wf cs = true) :
    Cells.read (Cells.write cs a n x) a n = x % 256 ^ n := by
  induction n generalizing cs a x with
  | zero => simp [Cells.read, Nat.mod_one]
  | succ n ih =>
    have rest : Cells.read (Cells.write cs a (n + 1) x) (a + 1) n = x / 256 % 256 ^ n :=
      ih (a + 1) (x / 256) (Cells.wf_set a (BitVec.ofNat 8 x) h)
    have first : Cells.get (Cells.write cs a (n + 1) x) a = BitVec.ofNat 8 x := by
      simpa using Cells.get_write_inside x h n.succ_pos
    rw [Cells.read, first, rest, Nat.pow_succ', Nat.mod_mul, BitVec.toNat_ofNat]

end Sys2Proof.Machine
end

section
/-!
# Acts that keep memory canonical (log 3), and that go on (00 R9)

A function of the model that answers a state either leaves memory as it was (`State.f_mem`) or keeps it
canonical (`Memory.wf_f`); one that answers an outcome goes on, and to a state with memory canonical where it
was so (`f_goes`). One such lemma per function, in the order of the model, from those of the functions that it
calls; `step_goes` is the last. A pair is read by its first part, an option by the state that stands for `none`,
and the other answers by the state they carry (`Sync.state` and the like).
-/
namespace Sys2Proof.Machine

/-- What leaves memory as it was leaves it canonical. -/
theorem Memory.wf_of_eq {s t : State} (hm : t.mem = s.mem) (h : Memory.wf s.mem = true) :
    Memory.wf t.mem = true := by
  rwa [hm]

/-- Acts that each leave memory leave it together. -/
theorem State.foldl_mem {α : Type} {f : State → α → State} (hf : ∀ s a, (f s a).mem = s.mem) (l : List α)
    (s : State) : (l.foldl f s).mem = s.mem := by
  induction l generalizing s with
  | nil => rfl
  | cons a l ih => rw [List.foldl_cons, ih, hf]

theorem Memory.wf_foldl {α : Type} {f : State → α → State}
    (hf : ∀ s a, Memory.wf s.mem = true → Memory.wf (f s a).mem = true) (l : List α)
    {s : State} (h : Memory.wf s.mem = true) : Memory.wf (l.foldl f s).mem = true := by
  induction l generalizing s with
  | nil => exact h
  | cons a l ih => exact ih (hf s a h)

theorem State.onCore_mem {s : State} (id : Nat) {f : State → State} (hf : ∀ t : State, (f t).mem = t.mem) :
    (s.onCore id f).mem = s.mem := by
  unfold State.onCore
  rw [State.focus_mem, hf, State.focus_mem]

theorem Memory.wf_onCore {s : State} (id : Nat) {f : State → State}
    (hf : ∀ t : State, Memory.wf t.mem = true → Memory.wf (f t).mem = true) (h : Memory.wf s.mem = true) :
    Memory.wf (s.onCore id f).mem = true := by
  unfold State.onCore
  rw [State.focus_mem]
  exact hf _ (by rwa [State.focus_mem])

/-- The state that a bundle's own access leaves. -/
def Sync.state : Sync → State
  | .stall t | .fail t .. | .ok t _ => t

/-- The state that a read or write of a piece leaves. -/
def Moved.state : Moved → State
  | .wait t | .fail t _ | .ok t _ => t

/-- The state that the write of word 0x38 leaves. -/
def Wrote.state : Wrote → State
  | .wait t | .asked t | .fail t _ | .ok t => t

/-- The state in which a part waits; any other leaves the state it was tried in. -/
def Ready.state (s : State) : Ready → State
  | .wait t => t
  | _ => s

/-- The state that a request to an arbiter leaves; one that is lost leaves the state it was made in. -/
def Asked.state (s : State) : Asked → State
  | .stall t | .reply t _ => t
  | .lost => s

/-- An act goes on, and leaves memory canonical where it found it so. -/
def Goes (s : State) (o : Out) : Prop := ∃ t, o = .next t ∧ (Memory.wf s.mem = true → Memory.wf t.mem = true)

@[simp] theorem goes_next {s t : State} : Goes s (.next t) ↔
    (Memory.wf s.mem = true → Memory.wf t.mem = true) := by
  simp [Goes]

/-- No slot of a bundle tried alone stops the machine, and a state that holds the bundle keeps memory canonical. -/
def Probe.Keeps (s : State) : Probe → Prop
  | .hold t => Memory.wf s.mem = true → Memory.wf t.mem = true
  | .stop _ => False
  | _ => True

/-- Writing bytes one after another keeps the canonical form. -/
theorem Cells.wf_foldl_set {α : Type} (key : α → Nat) (val : α → Byte) (l : List α) {cs : List Host.Cell}
    (h : Cells.wf cs = true) : Cells.wf (l.foldl (fun cs b => Cells.set cs (key b) (val b)) cs) = true := by
  induction l generalizing cs with
  | nil => exact h
  | cons b l ih => exact ih (Cells.wf_set _ _ h)

/-- Acts on a state that carries a value, and each leave memory, leave it together. -/
theorem State.foldl_fst_mem {α β : Type} {f : State × β → α → State × β}
    (hf : ∀ r a, (f r a).1.mem = r.1.mem) (l : List α) (r : State × β) : (l.foldl f r).1.mem = r.1.mem := by
  induction l generalizing r with
  | nil => rfl
  | cons a l ih => rw [List.foldl_cons, ih, hf]

theorem Memory.wf_foldl_fst {α β : Type} {f : State × β → α → State × β}
    (hf : ∀ r a, Memory.wf r.1.mem = true → Memory.wf (f r a).1.mem = true) (l : List α) {r : State × β}
    (h : Memory.wf r.1.mem = true) : Memory.wf (l.foldl f r).1.mem = true := by
  induction l generalizing r with
  | nil => exact h
  | cons a l ih => exact ih (hf r a h)

/-- What goes on from a state that keeps memory canonical goes on from where that state came from. -/
theorem Goes.after {s t : State} {o : Out} (ht : Memory.wf s.mem = true → Memory.wf t.mem = true) (h : Goes t o) :
    Goes s o := by
  obtain ⟨u, rfl, hu⟩ := h
  exact ⟨u, rfl, fun h => hu (ht h)⟩

/-- Whether an act goes on looks at the memory alone of the state it is found in. -/
theorem Goes.congr {s t : State} {o : Out} (hm : t.mem = s.mem) (h : Goes t o) : Goes s o :=
  h.after fun hs => by rwa [hm]

end Sys2Proof.Machine
end

section
/-!
# Memory, objects, registers, witnesses and chains: memory stays canonical
-/
namespace Sys2Proof.Machine

/-! ### Channel interleave (08 R163, R164) -/

theorem Memory.wf_mustWait {s : State} (h : Memory.wf s.mem = true) : Memory.wf s.mustWait.mem = true := h

theorem Memory.wf_unlessWaits {s t : State} (h : Memory.wf s.mem = true) (ht : Memory.wf t.mem = true) :
    Memory.wf (s.unlessWaits t).mem = true := by
  unfold State.unlessWaits
  split <;> assumption

/-! ### Writes to memory -/

theorem Memory.wf_noteOld {s : State} (but : List Nat) (as : List Nat) (h : Memory.wf s.mem = true) :
    Memory.wf (s.noteOld but as).mem = true := by
  unfold State.noteOld; split <;> exact h

theorem Memory.wf_stamp {s : State} (ks : List (Nat × Nat)) (e : Word) (h : Memory.wf s.mem = true) :
    Memory.wf (s.stamp ks e).mem = true :=
  h

theorem Memory.wf_install {s : State} (tenant tier va key size : Nat) (h : Memory.wf s.mem = true) :
    Memory.wf (s.install tenant tier va key size).mem = true :=
  h

theorem Memory.wf_waitAt {s : State} (job : Nat) (p : Word) (n key : Nat) (h : Memory.wf s.mem = true) :
    Memory.wf (s.waitAt job p n key).mem = true := by
  fun_cases State.waitAt s job p n key <;> grind [Memory.wf_waitFor]

/-! ### Objects -/

theorem Memory.wf_validateAt {s : State} (j : Job) (p : Word) (h : Memory.wf s.mem = true) :
    Memory.wf (s.validateAt j p).1.mem = true := by
  fun_cases State.validateAt s j p <;> grind [Memory.wf_rdPtr]

@[simp] theorem State.setJob_mem (s : State) (j : Job) : (s.setJob j).mem = s.mem := rfl

theorem Memory.wf_objPtr {s : State} (j : Job) (handle : Nat) (h : Memory.wf s.mem = true) :
    Memory.wf (s.objPtr j handle).1.mem = true := by
  fun_cases State.objPtr s j handle <;> grind [Memory.wf_rdPtr]

theorem Memory.wf_validate {s : State} (j : Job) (handle : Nat) (h : Memory.wf s.mem = true) :
    Memory.wf (s.validate j handle).1.mem = true := by
  fun_cases State.validate s j handle <;> grind [Memory.wf_objPtr, Memory.wf_validateAt, State.setJob_mem]

theorem Memory.wf_dispatchObj {s : State} (j : Job) (handle : Nat) (h : Memory.wf s.mem = true) :
    Memory.wf (s.dispatchObj j handle).1.mem = true := by
  fun_cases State.dispatchObj s j handle <;> grind [Memory.wf_validate]

theorem Memory.wf_handlerObj {s : State} (j : Job) (h : Memory.wf s.mem = true) :
    Memory.wf (s.handlerObj j).1.mem = true := by
  fun_cases State.handlerObj s j <;> grind [Memory.wf_objPtr, State.setJob_mem, Memory.wf_validateAt]

/-! ### Landing (04 R89, R90; 05 R112) -/

@[simp] theorem State.results_mem (s : State) (k : Nat) (ws : List Write) : (s.results k ws).mem = s.mem :=
  State.foldl_mem (fun _ _ => State.result_mem ..) _ _

/-! ### Tokens and postings (05 R106 to R112) -/

@[simp] theorem State.newPost_mem (s : State) (t : Nat) (dst : List Dst) : (s.newPost t dst).1.mem = s.mem := rfl

@[simp] theorem State.imageTok_mem (s : State) (t : Nat) (k : Token) : (s.imageTok t k).mem = s.mem := rfl

@[simp] theorem State.postOnce_mem (s : State) (t : Nat) : (s.postOnce t).mem = s.mem := rfl

/-! ### Agents (12 R261, R265) -/

@[simp] theorem State.tellPeers_mem (s : State) (a : Nat) : (s.tellPeers a).mem = s.mem :=
  State.foldl_mem (fun _ _ => by split <;> simp) _ _

@[simp] theorem State.number_mem (s : State) (a : Nat) : (s.number a).1.mem = s.mem := by simp [State.number]

@[simp] theorem State.agentReported_mem (s : State) (r : Ripe) : (s.agentReported r).mem = s.mem := rfl

/-! ### Visibility (12 R263, R267, R268; 08 R179) -/

theorem Memory.wf_dropStaleIn {s : State} (cl : Option Nat) (h : Memory.wf s.mem = true) :
    Memory.wf (s.dropStaleIn cl).mem = true :=
  h

theorem Memory.wf_dropStale {s : State} (h : Memory.wf s.mem = true) : Memory.wf s.dropStale.mem = true :=
  Memory.wf_dropStaleIn _ h

theorem Memory.wf_wrBytes {s : State} (seen : List Nat) (bs : List L1Byte) (h : Memory.wf s.mem = true) :
    Memory.wf (s.wrBytes seen bs).mem = true :=
  Cells.wf_foldl_set L1Byte.key L1Byte.val bs (Memory.wf_noteOld seen _ h)

theorem Memory.wf_noteCluster {s : State} (id : Nat) (bs : List L1Byte) (h : Memory.wf s.mem = true) :
    Memory.wf (s.noteCluster id bs).mem = true := by
  unfold State.noteCluster; split <;> exact h

theorem Memory.wf_writeBack {s : State} (scope id key n : Nat) (h : Memory.wf s.mem = true) :
    Memory.wf (s.writeBack scope id key n).mem = true := by
  simp only [State.writeBack, State.setCore_mem, Memory.wf]
  split
  · exact Memory.wf_noteCluster _ _ h
  · exact Memory.wf_wrBytes _ _ (Memory.wf_wrBytes _ _ h)

@[simp] theorem State.reached_mem (s : State) (a n level : Nat) : (s.reached a n level).mem = s.mem := rfl

theorem Memory.wf_visible {s : State} (a n : Nat) (h : Memory.wf s.mem = true) :
    Memory.wf (s.visible a n).mem = true := by
  fun_cases State.visible s a n
  grind [State.setAgent_mem, State.tellPeers_mem, Memory.wf_dropStale]

@[simp] theorem State.storeFailed_mem (s : State) (a n : Nat) : (s.storeFailed a n).mem = s.mem := by
  simp [State.storeFailed]

/-! ### Markers (12 R271) -/

@[simp] theorem State.noteSeen_mem (s : State) (core recPa id : Nat) (es : List Word) :
    (s.noteSeen core recPa id es).mem = s.mem := by
  fun_cases State.noteSeen s core recPa id es <;> grind [State.setAgent_mem, State.setCore_mem]

@[simp] theorem State.marker_mem (s : State) (id scope : Nat) (es : List Word) :
    (s.marker id scope es).1.mem = s.mem := by
  simp [State.marker]

@[simp] theorem State.leaveMarker_mem (s : State) : s.leaveMarker.mem = s.mem := by simp [State.leaveMarker]

/-! ### Faults -/

@[simp] theorem State.deliver_mem (s : State) (c : Completion) : (s.deliver c).mem = s.mem := rfl

/-! ### Chains -/

@[simp] theorem State.tellChain_mem (s : State) (c : Chain) (i : Event) : (s.tellChain c i).mem = s.mem :=
  State.foldl_mem (fun _ _ => by split <;> simp) _ _

@[simp] theorem State.lowerOpenk_mem (s : State) (l : Link) : (s.lowerOpenk l).mem = s.mem := by
  fun_cases State.lowerOpenk s l <;> simp

@[simp] theorem State.releaseLink_mem (s : State) (c : Chain) (l : Link) (state : Nat) :
    (s.releaseLink c l state).mem = s.mem := by
  simp [State.releaseLink]

@[simp] theorem State.retireLinks_mem (s : State) (c : Chain) (state : Nat) :
    (s.retireLinks c state).mem = s.mem := by
  rw [State.retireLinks, State.foldl_mem (fun _ _ => State.releaseLink_mem ..), State.setChain_mem]

@[simp] theorem State.cancelHere_mem (s : State) (c : Chain) : (s.cancelHere c).mem = s.mem := by
  fun_cases State.cancelHere s c <;> simp

@[simp] theorem State.tellArbiter_mem (s : State) (c : Chain) (kind : ArbKind) (j core : Nat) :
    (s.tellArbiter c kind j core).mem = s.mem := by
  simp [State.tellArbiter]

@[simp] theorem State.cancelChain_mem (s : State) (c : Chain) : (s.cancelChain c).mem = s.mem := by
  fun_cases State.cancelChain s c <;> simp

@[simp] theorem State.abandonLinks_mem (s : State) (core recPa : Nat) : (s.abandonLinks core recPa).mem = s.mem :=
  State.foldl_mem (fun _ _ => by split <;> simp) _ _

@[simp] theorem State.cancelChains_mem (s : State) (core recPa : Nat) :
    (s.cancelChains core recPa).mem = s.mem := by
  rw [State.cancelChains, State.abandonLinks_mem, State.foldl_mem fun _ _ => by split <;> simp]

@[simp] theorem State.freezeHere_mem (s : State) (c : Chain) : (s.freezeHere c).mem = s.mem := by
  fun_cases State.freezeHere s c <;> simp

theorem Memory.wf_freezeChain {s : State} (c : Chain) (cause : Cause) (j : Nat) (note : Option Nat) (rec : Word)
    (agent : Nat) (h : Memory.wf s.mem = true) :
    Memory.wf (s.freezeChain c cause j note rec agent).mem = true := by
  fun_cases State.freezeChain s c cause j note rec agent <;>
    grind [Memory.wf_faultRecord, State.setChain_mem, State.tellChain_mem, State.freezeHere_mem,
      State.tellArbiter_mem]

theorem Memory.wf_loseLink {s : State} (c : Chain) (l : Link) (rec : Word) (h : Memory.wf s.mem = true) :
    Memory.wf (s.loseLink c l rec).mem = true := by
  fun_cases State.loseLink s c l rec <;> grind [State.releaseLink_mem, Memory.wf_freezeChain]

end Sys2Proof.Machine
end

section
/-!
# Levels, records, save frames and the scheduler: memory stays canonical
-/
namespace Sys2Proof.Machine

/-! ### Levels -/

theorem Memory.wf_wrRec {s : State} (pa off n x : Nat) (h : Memory.wf s.mem = true) :
    Memory.wf (s.wrRec pa off n x).mem = true := by
  fun_cases State.wrRec s pa off n x
  grind [Memory.wf_wr, Memory.wf_waitAt]

theorem Memory.wf_setField {s : State} (pa off hi lo v : Nat) (h : Memory.wf s.mem = true) :
    Memory.wf (s.setField pa off hi lo v).mem = true :=
  Memory.wf_wrRec _ _ _ _ h

@[simp] theorem State.dropLevel_mem (s : State) (pa : Nat) : (s.dropLevel pa).mem = s.mem := rfl

theorem Memory.wf_levelFault {s : State} (job : Nat) (f : Fail) (record addr : Word)
    (h : Memory.wf s.mem = true) :
    Memory.wf (s.levelFault job f record addr).mem = true :=
  Memory.wf_faultRecord _ _ h

theorem Memory.wf_recordKey {s : State} (j : Job) (p : Word) (n : Nat) (h : Memory.wf s.mem = true) :
    Memory.wf (s.recordKey j p n).1.mem = true := by
  fun_cases State.recordKey s j p n <;> grind [Memory.wf_resolve]

/-! ### Continuation records (01 R20) -/

theorem Memory.wf_retireRec {s : State} (pa rstat cause : Nat) (h : Memory.wf s.mem = true) :
    Memory.wf (s.retireRec pa rstat cause).mem = true := by
  fun_cases State.retireRec s pa rstat cause <;> grind [Memory.wf_wrRec, State.push_mem, State.setRec_mem]

/-! ### What is still to be done while levels start and end -/

theorem Memory.wf_recordKeys {s : State} (j : Job) (n : Nat) (l : List Word) (h : Memory.wf s.mem = true) :
    Memory.wf (s.recordKeys j n l).1.mem = true := by
  fun_induction State.recordKeys s j n l <;> grind [Memory.wf_recordKey]

theorem Memory.wf_parentOk {s : State} (j : Job) (pa parent : Nat) (h : Memory.wf s.mem = true) :
    Memory.wf (s.parentOk j pa parent).1.mem = true := by
  fun_cases State.parentOk s j pa parent <;> grind [Memory.wf_recordKey]

theorem Memory.wf_startPhase {s : State} (p : Word) (job : Nat) (holder : Word) (h : Memory.wf s.mem = true) :
    Memory.wf (s.startPhase p job holder).1.mem = true := by
  fun_cases State.startPhase s p job holder <;>
    grind [Memory.wf_recordKey, Memory.wf_levelFault, State.setLevel_mem, Memory.wf_setField, Memory.wf_parentOk,
      Memory.wf_recordKeys]

theorem Memory.wf_startGraph {s : State} (pa : Nat) (ptr : Word) (phase index : Nat)
    (h : Memory.wf s.mem = true) :
    Memory.wf (s.startGraph pa ptr phase index).1.mem = true := by
  unfold State.startGraph
  split
  · exact h
  next ph _ =>
    split
    · exact h
    next j _ =>
      extract_lets l s₁ n ne bad ltab
      have levelled : Memory.wf s₁.mem = true := h
      clear_value l s₁ n ne ltab
      have failed (u : State) (f : Fail) (a : Word) (hu : Memory.wf u.mem = true) :
          Memory.wf (bad u f a).1.mem = true := by
        change Memory.wf (u.levelFault ph.job f ptr a).mem = true
        exact Memory.wf_levelFault _ _ _ _ hu
      split
      · exact levelled
      · have parent := Memory.wf_parentOk j pa phase levelled
        split
        next eq => rw [eq] at parent; exact failed _ _ _ parent
        next s₂ eq =>
          rw [eq] at parent
          split
          · exact parent
          · have keys := Memory.wf_recordKeys j 64 (recordPtrs ltab n) parent
            split
            next eq => rw [eq] at keys; exact failed _ _ _ keys
            next s₃ ks eq =>
              rw [eq] at keys
              have read := Memory.wf_rdPtr j needR (BitVec.ofNat 64 (l.w 0x20)) (4 * ne) keys
              have edges : Memory.wf (if ne = 0 then (s₃, .ok 0) else
                  s₃.rdPtr j needR (BitVec.ofNat 64 (l.w 0x20)) (4 * ne) :
                    State × Except Fail Nat).1.mem = true := by
                split
                · exact keys
                · exact read
              split
              next eq => rw [eq] at edges; exact failed _ _ _ edges
              next eq =>
                rw [eq] at edges
                extract_lets es preds kis s₄ s₅
                split
                · exact edges
                · exact Memory.wf_of_eq (State.foldl_mem (fun _ _ => State.setLevel_mem ..) _ _) edges

theorem Memory.wf_runGraph {s : State} (pa : Nat) (h : Memory.wf s.mem = true) :
    Memory.wf (s.runGraph pa).1.mem = true := by
  fun_cases State.runGraph s pa <;> grind [Memory.wf_setField]

theorem Memory.wf_createRec {s : State} (j : Job) (l : Level) (o : ObjInfo) (e : Entry) (crec : Word)
    (pa licPa i : Nat) (h : Memory.wf s.mem = true) :
    Memory.wf (s.createRec j l o e crec pa licPa i).mem = true := by
  fun_cases State.createRec s j l o e crec pa licPa i
  grind [Memory.wf_wr]

theorem Memory.wf_createRecs {s : State} (j : Job) (l : Level) (o : ObjInfo) (e : Entry) (crec : Word) (i : Nat)
    (l2 : List (Nat × Nat)) (h : Memory.wf s.mem = true) :
    Memory.wf (s.createRecs j l o e crec i l2).mem = true := by
  fun_induction State.createRecs s j l o e crec i l2 <;> grind [Memory.wf_createRec]

theorem Memory.wf_frameKeys {s : State} (j : Job) (size : Nat) (l : List Word) (h : Memory.wf s.mem = true) :
    Memory.wf (s.frameKeys j size l).1.mem = true := by
  fun_induction State.frameKeys s j size l <;> grind [Memory.wf_resolve]

theorem Memory.wf_queueLaunch {s : State} (pa : Nat) (h : Memory.wf s.mem = true) :
    Memory.wf (s.queueLaunch pa).1.mem = true := by
  fun_cases State.queueLaunch s pa <;> grind [State.setLevel_mem, Memory.wf_setField]

theorem Memory.wf_placeLaunch {s : State} (pa : Nat) (h : Memory.wf s.mem = true) :
    Memory.wf (s.placeLaunch pa).1.mem = true := by
  fun_cases State.placeLaunch s pa <;>
    grind [Memory.wf_validate, Memory.wf_setField, Memory.wf_levelFault, Memory.wf_parentOk, Memory.wf_recordKeys,
      Memory.wf_frameKeys, Memory.wf_createRecs]

@[simp] theorem State.endJob_mem (s : State) (j : Job) : (s.endJob j).mem = s.mem := rfl

theorem Memory.wf_succs {s : State} (g : Level) (ix : Nat) (isDone : Bool) (l : List (Nat × Nat))
    (h : Memory.wf s.mem = true) :
    Memory.wf (s.succs g ix isDone l).1.mem = true := by
  fun_induction State.succs s g ix isDone l <;> grind [Memory.wf_setField, State.setLevel_mem]

theorem Memory.wf_finish {s : State} (pa : Nat) (atStart : Option Nat) (h : Memory.wf s.mem = true) :
    Memory.wf (s.finish pa atStart).1.mem = true := by
  have dropped (t : State) (ls : List Level) : (ls.foldl (fun s c => s.dropLevel c.pa) t).mem = t.mem :=
    State.foldl_mem (fun _ _ => State.dropLevel_mem ..) _ _
  fun_cases State.finish s pa atStart <;>
    grind [Memory.wf_wrRec, !Memory.wf_resolve, Memory.wf_levelFault, Memory.wf_wrSpans, State.endJob_mem,
      State.dropLevel_mem, State.setLevel_mem, Memory.wf_setField, !Memory.wf_succs]

theorem Memory.wf_childEnded {s : State} (pa : Nat) (ok : Bool) (h : Memory.wf s.mem = true) :
    Memory.wf (s.childEnded pa ok).1.mem = true := by
  fun_cases State.childEnded s pa ok <;> grind [State.setLevel_mem, Memory.wf_setField]

theorem Memory.wf_cancelRec {s : State} (r : Rec) (h : Memory.wf s.mem = true) :
    Memory.wf (s.cancelRec r).mem = true := by
  fun_cases State.cancelRec s r <;> grind [Memory.wf_retireRec, State.push_mem]

theorem Memory.wf_cancelLevel {s : State} (pa : Nat) (h : Memory.wf s.mem = true) :
    Memory.wf (s.cancelLevel pa).1.mem = true := by
  have recs (rs : List Rec) {t : State} (ht : Memory.wf t.mem = true) :
      Memory.wf (rs.foldl State.cancelRec t).mem = true := Memory.wf_foldl (fun _ _ => Memory.wf_cancelRec _) _ ht
  fun_cases State.cancelLevel s pa <;> grind [Memory.wf_setField]

theorem Memory.wf_todo {s : State} (t : Todo) (h : Memory.wf s.mem = true) :
    Memory.wf (s.todo t).1.mem = true := by
  fun_cases State.todo s t <;>
    grind [Memory.wf_startPhase, Memory.wf_startGraph, Memory.wf_runGraph, Memory.wf_queueLaunch,
      Memory.wf_placeLaunch, Memory.wf_finish, Memory.wf_childEnded, Memory.wf_cancelLevel]

theorem Memory.wf_todos {s : State} (n : Nat) (l : List Todo) (h : Memory.wf s.mem = true) :
    Memory.wf (State.todos n s l).mem = true := by
  fun_induction State.todos n s l <;> grind [Memory.wf_todo]

theorem Memory.wf_doTodos {s : State} (ts : List Todo) (h : Memory.wf s.mem = true) :
    Memory.wf (s.doTodos ts).mem = true :=
  Memory.wf_todos _ _ h

/-! ### The save frame (14 R315, R316) -/

theorem Memory.wf_wrFrame {s : State} (j : Job) (frame : Word) (ws : List (Nat × Nat × Nat)) (at' : Nat)
    (h : Memory.wf s.mem = true) :
    Memory.wf (s.wrFrame j frame ws at').mem = true := by
  unfold State.wrFrame
  induction ws generalizing s with
  | nil => exact h
  | cons w ws ih => rw [List.foldl_cons]; exact ih (Memory.wf_wrPtr _ _ _ _ _ h)

theorem Memory.wf_saveFrame {s : State} (lix : Nat) (h : Memory.wf s.mem = true) :
    Memory.wf (s.saveFrame lix).mem = true := by
  unfold State.saveFrame
  dsimp only
  split
  · exact h
  · exact Memory.wf_foldl (fun _ _ => Memory.wf_wrFrame _ _ _ _) _ (Memory.wf_wrFrame _ _ _ _ h)

/-! ### Leaving a core (14 R313, R318) -/

theorem Memory.wf_drainXq {s : State} (id : Nat) (h : Memory.wf s.mem = true) :
    Memory.wf (s.drainXq id).mem = true := by
  unfold State.drainXq
  refine Memory.wf_foldl (fun t e ht => ?_) _ (by rwa [State.setCore_mem])
  dsimp only
  split
  · split <;> simpa using ht
  · rw [State.setCore_mem]
    refine Memory.wf_faultRecord _ _ ?_
    split <;> simpa using ht

theorem Memory.wf_quiesce {s : State} (h : Memory.wf s.mem = true) : Memory.wf s.quiesce.mem = true := by
  refine Memory.wf_foldl (fun t id ht => ?_) _ h
  refine Memory.wf_onCore _ (fun u hu => by rwa [State.leaveMarker_mem]) ?_
  rw [State.setCore_mem]
  exact Memory.wf_drainXq _ ht

theorem Memory.wf_wrRecord {s : State} (img : Nat) (h : Memory.wf s.mem = true) :
    Memory.wf (s.wrRecord img).mem = true :=
  Memory.wf_wrRec _ _ _ _ h

@[simp] theorem State.owe_mem (s : State) (recPa : Nat) (o : Nat × Nat) : (s.owe recPa o).mem = s.mem := by
  fun_cases State.owe s recPa o <;> simp

@[simp] theorem State.park_mem (s : State) : s.park.mem = s.mem := by
  fun_cases State.park s <;> simp

@[simp] theorem State.vacate_mem (s : State) : s.vacate.mem = s.mem :=
  State.foldl_mem (fun _ _ => State.setCore_mem ..) _ _

@[simp] theorem State.left_mem (s : State) : s.left.mem = s.mem := rfl

theorem Memory.wf_switchOut {s : State} (st pc run lix wait : Nat) (h : Memory.wf s.mem = true) :
    Memory.wf (s.switchOut st pc run lix wait).mem = true := by
  unfold State.switchOut
  extract_lets s₁ s₂ img s₃
  rw [State.left_mem, State.vacate_mem, State.park_mem]
  exact Memory.wf_wrRecord _ (Memory.wf_saveFrame _ (Memory.wf_quiesce h))

theorem Memory.wf_saveWit {s : State} (a : Nat) (h : Memory.wf s.mem = true) :
    Memory.wf (s.saveWit a).mem = true := by
  fun_cases State.saveWit s a <;> grind [State.setRec_mem, Memory.wf_wrFrame]

theorem Memory.wf_freezeBy {s : State} (agent : Nat) (xl : Option (Nat × Word)) (cause : Nat) (fmask : BitVec 8)
    (tval : Word) (pc : Pc) (hreason : Nat) (at' : Pc) (h : Memory.wf s.mem = true) :
    Memory.wf (s.freezeBy agent xl cause fmask tval pc hreason at').mem = true := by
  unfold State.freezeBy
  dsimp only
  rw [State.left_mem, State.vacate_mem, State.park_mem]
  refine Memory.wf_setField _ _ _ _ _ (Memory.wf_wrRecord _ (Memory.wf_faultRecord _ _ ?_))
  refine Memory.wf_saveFrame _ (Memory.wf_quiesce ?_)
  rwa [State.foldl_mem fun _ _ => State.cancelChains_mem ..]

theorem Memory.wf_freeze {s : State} (cause : Nat) (fmask : BitVec 8) (tval : Word) (pc : Pc) (hreason : Nat)
    (at' : Pc) (h : Memory.wf s.mem = true) :
    Memory.wf (s.freeze cause fmask tval pc hreason at').mem = true :=
  Memory.wf_freezeBy _ _ _ _ _ _ _ _ h

/-! ### Retirement of a running continuation (06 R123, 14 R310, 15 R330, R331) -/

@[simp] theorem State.beginDrain_mem (s : State) (rstat cause : Nat) :
    (s.beginDrain rstat cause).mem = s.mem := by
  rw [State.beginDrain, State.left_mem, State.push_mem, State.foldl_mem fun _ _ => State.setCore_mem ..]

theorem Memory.wf_loseLinks {s : State} (ids : List Nat) (h : Memory.wf s.mem = true) :
    Memory.wf (s.loseLinks ids).mem = true :=
  Memory.wf_foldl (fun _ _ => Memory.wf_foldl (fun _ _ h => by split <;> simp [Memory.wf_loseLink, h]) _) _ h

theorem Memory.wf_retireNow {s : State} (h : Memory.wf s.mem = true) : Memory.wf s.retireNow.mem = true := by
  fun_cases State.retireNow s
  grind [Memory.wf_quiesce, Memory.wf_loseLinks, Memory.wf_wrRecord, State.vacate_mem, Memory.wf_retireRec,
    State.park_mem]

/-! ### The cluster scheduler (03 R61 to R67) -/

theorem Memory.wf_age {s : State} (cl pa : Nat) (h : Memory.wf s.mem = true) :
    Memory.wf (s.age cl pa).mem = true := by
  refine Memory.wf_setField _ _ _ _ _ (Memory.wf_foldl (fun _ _ h => ?_) _ h)
  split
  · exact h
  · exact Memory.wf_setField _ _ _ _ _ h

@[simp] theorem State.load_mem (s : State) (j : Job) (r : Rec) (o : ObjInfo) (h : Option ObjInfo)
    (cores : List Nat) (d id : Nat) :
    (s.load j r o h cores d id).mem = s.mem := by
  simp [State.load]

theorem Memory.wf_rejectRec {s : State} (r : Rec) (h : Memory.wf s.mem = true) :
    Memory.wf (s.rejectRec r).mem = true := by
  fun_cases State.rejectRec s r
  grind [Memory.wf_faultRecord, Memory.wf_setField, Memory.wf_wrRec]

theorem Memory.wf_dispatchOn {s : State} (r : Rec) (cores : List Nat) (h : Memory.wf s.mem = true) :
    Memory.wf (s.dispatchOn r cores).mem = true := by
  unfold State.dispatchOn
  split
  · exact h
  · next j _ =>
    split
    · exact Memory.wf_rejectRec _ h
    · have found := Memory.wf_dispatchObj j (s.fieldOf r.pa 0 47 32) h
      split
      next t o eq =>
        rw [eq] at found
        extract_lets hd s₁ s₂ s₃ s₄ s₅
        have loaded : s₁.mem = t.mem := State.foldl_mem (fun _ _ => State.load_mem ..) _ _
        have running : Memory.wf s₅.mem = true :=
          Memory.wf_setField _ _ _ _ _ (Memory.wf_setField _ _ _ _ _ (Memory.wf_setField _ _ _ _ _
            (Memory.wf_age _ _ (by rwa [loaded]))))
        split
        · exact Memory.wf_of_eq (State.setRec_mem ..) running
        · exact running

theorem Memory.wf_replace {s : State} (j : Job) (r : Rec) (h : Memory.wf s.mem = true) :
    Memory.wf (s.replace j r).mem = true := by
  fun_cases State.replace s j r <;> grind [State.setRec_mem, Memory.wf_setField, Memory.wf_wrRec]

theorem Memory.wf_takeNext {s : State} (core : Nat) (h : Memory.wf s.mem = true) :
    Memory.wf (s.takeNext core).mem = true := by
  unfold State.takeNext
  split
  · exact h
  next j _ =>
    have placed := Memory.wf_foldl (f := fun s r => s.replace j r) (fun _ _ => Memory.wf_replace _ _)
      ((s.candidates (core / 24)).filter fun r => decide (s.gsizeOf r.pa ≠ 0)) h
    dsimp only
    split
    · exact placed
    · split
      · exact placed
      · exact Memory.wf_dispatchOn _ _ placed

/-! ### Ops -/

theorem Memory.wf_enterHandler {s : State} (o : ObjInfo) (cause : Nat) (fmask : BitVec 8) (tval : Word)
    (frec : BitVec 48) (epc : Pc) (hreason : BitVec 2) (gmask : BitVec 24) (h : Memory.wf s.mem = true) :
    Memory.wf (s.enterHandler o cause fmask tval frec epc hreason gmask).mem = true := by
  unfold State.enterHandler
  rw [State.foldl_mem fun _ _ => State.setCore_mem ..]
  split
  · exact h
  · exact Memory.wf_wrRecord _ h

theorem Memory.wf_handler {s : State} (h : Memory.wf s.mem = true) : Memory.wf s.handler.1.mem = true := by
  fun_cases State.handler s <;> grind [Memory.wf_handlerObj]

@[simp] theorem State.setTval_mem (s : State) (tval : Word) : (s.setTval tval).mem = s.mem :=
  State.foldl_mem (fun _ _ => State.setCore_mem ..) _ _

theorem Memory.wf_trap {s : State} (cause : Cause) (fmask : BitVec 8) (tval : Word) (frec : BitVec 48)
    (epc : Pc) (gmask : BitVec 24) (h : Memory.wf s.mem = true) :
    Memory.wf (s.trap cause fmask tval frec epc gmask).mem = true := by
  fun_cases State.trap s cause fmask tval frec epc gmask <;>
    grind [State.focus_mem, State.setPipe_mem, Memory.wf_freezeBy, State.setTval_mem, Memory.wf_handler,
      Memory.wf_enterHandler]

theorem Memory.wf_fail {s : State} (cause : Cause) (tval : Word) (frec : BitVec 48) (h : Memory.wf s.mem = true) :
    Memory.wf (s.fail cause tval frec).mem = true :=
  Memory.wf_trap _ _ _ _ _ _ h

theorem Memory.wf_overrun {s : State} (h : Memory.wf s.mem = true) : Memory.wf s.overrun.mem = true :=
  Memory.wf_trap _ _ _ _ _ _ h

theorem Memory.wf_illegal {s : State} (h : Memory.wf s.mem = true) : Memory.wf s.illegal.mem = true :=
  Memory.wf_fail _ _ _ h

theorem Memory.wf_failAt {s : State} (cause : Cause) (p : Word) (h : Memory.wf s.mem = true) :
    Memory.wf (s.failAt cause p).mem = true :=
  Memory.wf_fail _ _ _ h

theorem Memory.wf_failXl {s : State} (cause : Cause) (p : Word) (detail : Nat) (h : Memory.wf s.mem = true) :
    Memory.wf (s.failXl cause p detail).mem = true :=
  Memory.wf_failAt _ _ h

/-! ### Yields (03 R62 to R64, 06 R120) -/

@[simp] theorem State.charge_mem (s : State) (n : Nat) : (s.charge n).mem = s.mem := by
  unfold State.charge
  split
  · rfl
  · exact State.foldl_mem (fun _ _ => State.setCore_mem ..) _ _

@[simp] theorem State.raiseTo_mem (s : State) (lic : Nat) : (s.raiseTo lic).mem = s.mem :=
  State.foldl_mem (fun _ _ => State.setCore_mem ..) _ _

@[simp] theorem State.raiseLic_mem (s : State) : s.raiseLic.mem = s.mem :=
  State.foldl_mem (fun _ _ => State.setCore_mem ..) _ _

@[simp] theorem State.keep_mem (s : State) (run : Nat) : (s.keep run).mem = s.mem :=
  State.foldl_mem (fun _ _ => State.setCore_mem ..) _ _

@[simp] theorem State.setAcct_mem (s : State) (a : Int) : (s.setAcct a).mem = s.mem :=
  State.foldl_mem (fun _ _ => State.setCore_mem ..) _ _

theorem Memory.wf_onYield {s : State} (run lix : Nat) (h : Memory.wf s.mem = true) :
    Memory.wf (s.onYield run lix).mem = true := by
  unfold State.onYield
  extract_lets t c cl me rem cands rank gangHead must slice go stay others run' t' others' pick act
  have lost : Memory.wf t.mem = true := Memory.wf_loseLinks _ h
  have kept : Memory.wf (t.keep run).mem = true := by rwa [State.keep_mem]
  clear_value t
  have gone (u : State) (hu : Memory.wf u.mem = true) : Memory.wf (go u).mem = true :=
    Memory.wf_switchOut _ _ _ _ _ hu
  have stays (u : State) (hu : Memory.wf u.mem = true) : Memory.wf (stay u).mem = true := by
    rw [State.keep_mem]
    exact Memory.wf_age _ _ hu
  have given (u : State) (r : Rec) (hu : Memory.wf u.mem = true) :
      Memory.wf ((go u).dispatchOn r [c.id]).left.mem = true := by
    rw [State.left_mem]
    exact Memory.wf_dispatchOn _ _ (gone u hu)
  have renewed : Memory.wf (t.setAcct slice).mem = true := by rwa [State.setAcct_mem]
  clear_value go stay others
  split
  · exact kept
  split
  · exact kept
  split
  · exact gone _ lost
  split
  · split
    · exact given _ _ lost
    · split
      · exact stays _ renewed
      split
      · exact given _ _ renewed
      · exact gone _ renewed
  · have acts (u : State) (p : Option Rec) (hu : Memory.wf u.mem = true) : Memory.wf (act u p).mem = true := by
      cases p with
      | none => exact stays u hu
      | some r => exact given u r hu
    clear_value act
    split
    · exact acts _ _ lost
    · exact acts _ _ renewed

end Sys2Proof.Machine
end

section
/-!
# Operands, tiles and accesses: memory stays canonical
-/
namespace Sys2Proof.Machine

/-! ### Operands -/

theorem Memory.wf_streamBlocked {s : State} (q : Nat) (h : Memory.wf s.mem = true) :
    Memory.wf ((s.streamBlocked q).getD s).mem = true := by
  fun_cases State.streamBlocked s q <;>
    grind [Memory.wf_illegal, Memory.wf_failAt, State.stall_mem, State.push_mem, Memory.wf_faultRecord,
      Memory.wf_failXl]

theorem Memory.wf_streamsBlocked {s : State} (l : List (BitVec 6)) (h : Memory.wf s.mem = true) :
    Memory.wf ((s.streamsBlocked l).getD s).mem = true := by
  fun_induction State.streamsBlocked s l with
  | case1 => exact h
  | case2 r rs on ih => exact ih
  | case3 r rs on t eq =>
    have := Memory.wf_streamBlocked (r.toNat % 8) h
    rwa [eq] at this
  | case4 r rs on eq ih => exact ih

theorem Memory.wf_blocked {s : State} (u : Uses) (h : Memory.wf s.mem = true) :
    Memory.wf ((s.blocked u).getD s).mem = true := by
  fun_cases State.blocked s u <;> grind [Memory.wf_fail, Memory.wf_streamsBlocked]

@[simp] theorem State.pops_mem (s : State) (vs : List (BitVec 6)) : (s.pops vs).mem = s.mem :=
  State.foldl_mem (fun _ _ => by split <;> simp) _ _

theorem State.guarded_goes {s : State} (hd : Hdr) (u : Uses) {f : State → State}
    (hf : Memory.wf s.mem = true → Memory.wf (f s).mem = true) :
    Goes s (s.guarded hd u f) := by
  unfold State.guarded
  simp only [goes_next]
  grind [!Memory.wf_blocked]

@[simp] theorem State.sResult_mem (s : State) (k : Nat) (d : BitVec 6) (v : Word) :
    (s.sResult k d v).mem = s.mem :=
  rfl

theorem State.alu2_goes (s : State) (hd : Hdr) (k : Nat) (d a b : BitVec 6) (f : Word → Word → Word) :
    Goes s (s.alu2 hd k d a b f) :=
  State.guarded_goes _ _ (by simp)

theorem State.alu1_goes (s : State) (hd : Hdr) (k : Nat) (d a : BitVec 6) (f : Word → Word) :
    Goes s (s.alu1 hd k d a f) :=
  State.guarded_goes _ _ (by simp)

@[simp] theorem State.post?_mem (s : State) (t : Option Nat) (dst : List Dst) :
    (s.post? t dst).1.mem = s.mem := by
  fun_cases State.post? s t dst <;> grind [State.newPost_mem]

@[simp] theorem State.postOnce?_mem (s : State) (t : Option Nat) : (s.postOnce? t).mem = s.mem := by
  fun_cases State.postOnce? s t <;> simp

@[simp] theorem State.emptyWit_mem (s : State) (w : Nat) : (s.emptyWit w).mem = s.mem := rfl

@[simp] theorem State.giveWit_mem (s : State) (w : Nat) (e : Word) : (s.giveWit w e).mem = s.mem := rfl

@[simp] theorem State.afterSlots_mem (s : State) : s.afterSlots.mem = s.mem := rfl

/-! ### Conditions of the tiers (08 R171, R177; 15 R337) -/

@[simp] theorem State.askWalks_mem (s : State) (tenant tier : Nat) (ps : List (Nat × Nat)) :
    (s.askWalks tenant tier ps).1.mem = s.mem := by
  unfold State.askWalks
  refine State.foldl_fst_mem (fun r p => ?_) ps (s, false)
  dsimp only
  split
  · rfl
  · dsimp only; split <;> rfl

@[simp] theorem execPageWalk_goes (tenant tier va : Nat) (s : State) :
    Goes s (execPageWalk tenant tier va s) := by
  fun_cases execPageWalk tenant tier va s
  grind [State.push_mem, Memory.wf_install, goes_next]

@[simp] theorem execPageZeroing_goes (tenant tier va : Nat) (s : State) :
    Goes s (execPageZeroing tenant tier va s) := by
  fun_cases execPageZeroing tenant tier va s
  grind [State.push_mem, Memory.wf_dropStale, Memory.wf_zeroPage, Memory.wf_install, goes_next]

/-! ### The link store and core-local reads (01 R32, 05 R102, 10 R234) -/

theorem Memory.wf_healLines {s : State} (rs : List (Nat × Nat)) (h : Memory.wf s.mem = true) :
    Memory.wf (s.healLines rs).mem = true :=
  h

/-! ### Leases: the borrower's side (08 R173, R175) -/

theorem Memory.wf_wrLease {s : State} (a x : Nat) (h : Memory.wf s.mem = true) :
    Memory.wf (s.wrLease a x).mem = true :=
  Memory.wf_wr _ _ _ h

theorem Memory.wf_leaseRefused {s : State} (ix : Nat) (state : Option Nat) (h : Memory.wf s.mem = true) :
    Memory.wf (s.leaseRefused ix state).mem = true := by
  fun_cases State.leaseRefused s ix state <;> grind [Memory.wf_wrLease]

@[simp] theorem State.toLender_mem (s : State) (lease : Nat) (j : Job) (kind : PeerKind)
    (pieces : List (Nat × Nat × Nat)) (who : PeerWho) (batch : Option (BatchKey × Nat × Option Nat)) :
    ((s.toLender lease j kind pieces who batch).getD s).mem = s.mem := by
  fun_cases State.toLender s lease j kind pieces who batch <;> simp

/-! ### The tokened path (09 R196, R197, R201; 13 R294) -/

theorem Memory.wf_endAccess {s : State} (a : Access) (h : Memory.wf s.mem = true) :
    Memory.wf (s.endAccess a).mem = true := by
  fun_cases State.endAccess s a <;>
    grind [Memory.wf_faultRecord, State.storeFailed_mem, State.push_mem, State.deliver_mem]

@[simp] theorem State.setL1_mem (s : State) (core : Nat) (f : List L1Byte → List L1Byte) :
    (s.setL1 core f).mem = s.mem := by
  simp [State.setL1]

theorem Memory.wf_clusterRead {s : State} (cl : Nat) (keys : List Nat) (h : Memory.wf s.mem = true) :
    Memory.wf (s.clusterRead cl keys).mem = true :=
  h

theorem Memory.wf_coreGet {s : State} (core : Nat) (ks : List (Nat × Nat)) (h : Memory.wf s.mem = true) :
    Memory.wf (s.coreGet core ks).1.mem = true := by
  fun_cases State.coreGet s core ks
  grind [Memory.wf_clusterRead, State.setL1_mem]

theorem Memory.wf_coreLoad {s : State} (core recPa id : Nat) (ks : List (Nat × Nat))
    (h : Memory.wf s.mem = true) :
    Memory.wf (s.coreLoad core recPa id ks).1.mem = true := by
  fun_cases State.coreLoad s core recPa id ks
  grind [Memory.wf_coreGet, State.noteSeen_mem]

theorem Memory.wf_noteOwn {s : State} (core : Nat) (ks : List (Nat × Nat)) (h : Memory.wf s.mem = true) :
    Memory.wf (s.noteOwn core ks).mem = true := by
  unfold State.noteOwn; split <;> exact h

theorem Memory.wf_memPart {s : State} (a : Access) (p : Part) (ks : List (Nat × Nat))
    (h : Memory.wf s.mem = true) :
    Memory.wf (s.memPart a p ks).1.mem = true := by
  fun_cases State.memPart s a p ks
  · rw [State.setL1_mem]; exact Memory.wf_noteOwn _ _ h
  · next scope inv _ ls t =>
    have back : Memory.wf t.mem = true := by
      dsimp only [t]
      split
      · exact Memory.wf_foldl (fun _ _ => Memory.wf_writeBack _ _ _ _) _ h
      · exact h
    dsimp only
    split
    · rwa [State.setL1_mem]
    · exact back
  · exact Memory.wf_coreLoad _ _ _ _ h

theorem Memory.wf_localPart {s : State} (a : Access) (p : Part) (h : Memory.wf s.mem = true) :
    Memory.wf (s.localPart a p).1.mem = true := by
  fun_cases State.localPart s a p <;> grind [Memory.wf_stamp, State.setCore_mem, State.noteSeen_mem]

@[simp] theorem State.ready_mem (s : State) (a : Access) (j : Job) (p : Part) :
    ((s.ready a j p).state s).mem = s.mem := by
  fun_cases State.ready s a j p <;> grind [State.askWalks_mem, Ready.state]

@[simp] theorem State.readyAll_mem (s : State) (a : Access) (j : Job) (l : List Part)
    (l2 : List (Part × List (Nat × Nat) × Bool)) :
    (Sum.elim (Ready.state s) (fun _ => s) (s.readyAll a j l l2)).mem = s.mem := by
  fun_induction State.readyAll s a j l l2 with
  | case1 => rfl
  | case2 p ps acc ks eq ih => exact ih
  | case3 p ps acc eq ih => exact ih
  | case4 p ps acc hgo hloc => exact State.ready_mem s a j p

theorem Memory.wf_performParts {s : State} (a : Access) (l : List (Part × List (Nat × Nat) × Bool))
    (h : Memory.wf s.mem = true) :
    Memory.wf (s.performParts a l).1.mem = true := by
  fun_induction State.performParts s a l <;> grind [Memory.wf_localPart, Memory.wf_memPart]

@[simp] theorem State.again_mem (s : State) (a : Access) : (s.again a).mem = s.mem := rfl

@[simp] theorem State.toPort_mem (s : State) (a : Access) : (s.toPort a).mem = s.mem := by
  fun_cases State.toPort s a <;> simp

theorem Memory.wf_nextParts {s : State} (a : Access) (j : Job) (h : Memory.wf s.mem = true) :
    Memory.wf (s.nextParts a j).mem = true := by
  unfold State.nextParts
  extract_lets a' unit stored
  have failed (u : State) (c : Cause) (d n k : Nat) (f : Access) (hu : Memory.wf u.mem = true) :
      Memory.wf (if a'.whole then u.endAccess (a'.failAll c d n k) else u.again f).mem = true := by
    split
    · exact Memory.wf_endAccess _ hu
    · rwa [State.again_mem]
  split
  · exact Memory.wf_endAccess _ h
  split
  · rwa [State.again_mem]
  have tried := State.readyAll_mem s a' j unit []
  split
  next eq =>
    rw [eq] at tried
    exact Memory.wf_of_eq ((State.again_mem ..).trans tried) h
  next c d _ => exact failed _ _ _ _ _ _ h
  next lease _ =>
    split
    · rwa [State.again_mem]
    · have lent := State.toLender_mem s lease j a'.op.peer (unit.map fun p => (ptrOff p.ptr, p.size, p.data))
        (.access a'.id) (a'.key.map fun k => (k, a'.id, s.frontier k.launch))
      split
      next eq =>
        rw [eq] at lent
        exact Memory.wf_of_eq ((State.again_mem ..).trans lent) h
      · exact failed _ _ _ _ _ _ (Memory.wf_leaseRefused _ _ h)
  · rwa [State.again_mem]
  next rs _ =>
    split
    · rwa [State.toPort_mem]
    · extract_lets r loc c u
      have performed : Memory.wf r.1.mem = true := Memory.wf_performParts _ _ h
      have healed : Memory.wf u.mem = true := by
        unfold u
        split
        · rwa [State.setCore_mem]
        split
        · rwa [State.setL1_mem]
        · exact performed
      split
      · exact Memory.wf_endAccess _ healed
      · rwa [State.again_mem]

theorem Memory.wf_clusterFill {s : State} (cl : Nat) (ks : List (Nat × Nat)) (h : Memory.wf s.mem = true) :
    Memory.wf (s.clusterFill cl ks).mem = true :=
  h

theorem Memory.wf_prefetch {s : State} (a : Access) (level : Nat) (h : Memory.wf s.mem = true) :
    Memory.wf (s.prefetch a level).mem = true := by
  fun_cases State.prefetch s a level <;>
    grind [State.push_mem, State.askWalks_mem, Memory.wf_coreGet, Memory.wf_clusterFill]

theorem Memory.wf_bareOp {s : State} (a : Access) (h : Memory.wf s.mem = true) :
    Memory.wf ((s.bareOp a).getD s).mem = true := by
  fun_cases State.bareOp s a <;>
    grind [Memory.wf_prefetch, State.again_mem, Memory.wf_faultRecord, State.deliver_mem, State.marker_mem]

@[simp] theorem execMemoryPortAccess_goes (a : Access) (s : State) : Goes s (execMemoryPortAccess a s) := by
  fun_cases execMemoryPortAccess a s
  grind [Memory.wf_bareOp, State.again_mem, Memory.wf_endAccess, Memory.wf_nextParts, goes_next]

/-! ### Atomics at the port (12 R274, R276; 13 R293) -/

theorem Memory.wf_actAtomic {s : State} (a : Access) (p : Part) (ks : List (Nat × Nat))
    (h : Memory.wf s.mem = true) :
    Memory.wf (s.actAtomic a p ks).mem = true := by
  have back (ks : List (Nat × Nat)) :
      Memory.wf (ks.foldl (fun s k => s.writeBack 2 a.core k.1 k.2) s).mem = true :=
    Memory.wf_foldl (fun _ _ => Memory.wf_writeBack _ _ _ _) _ h
  fun_cases State.actAtomic s a p ks <;>
    grind [State.noteSeen_mem, Memory.wf_stamp, Memory.wf_wrSpans, State.setL1_mem, Memory.wf_endAccess,
      Memory.wf_dropStale]

theorem Memory.wf_performAtomic {s : State} (a : Access) (again : Access → Event) (h : Memory.wf s.mem = true) :
    Memory.wf (s.performAtomic a again).mem = true := by
  fun_cases State.performAtomic s a again <;>
    grind [State.ready_mem, Ready.state, Memory.wf_actAtomic, State.push_mem, Memory.wf_endAccess,
      State.again_mem]

@[simp] theorem execAtomicPerform_goes (a : Access) (s : State) : Goes s (execAtomicPerform a s) :=
  goes_next.mpr fun h => Memory.wf_performAtomic _ _ h

@[simp] theorem execBatchPerform_goes (a : Access) (s : State) : Goes s (execBatchPerform a s) := by
  fun_cases execBatchPerform a s
  grind [Memory.wf_performAtomic, State.push_mem, goes_next]

/-! ### Ripening (12 R267, R268, R271) -/

theorem Memory.wf_goesOn {s : State} (r : Ripe) (h : Memory.wf s.mem = true) :
    Memory.wf (s.goesOn r).1.mem = true := by
  have back (scope : Nat) (ks : List (Nat × Nat)) :
      Memory.wf (ks.foldl (fun s k => s.writeBack scope r.core k.1 k.2) s).mem = true :=
    Memory.wf_foldl (fun _ _ => Memory.wf_writeBack _ _ _ _) _ h
  have toCluster := back 1 (memRanges r)
  have toMemory := back 2 (s.coverBytes r)
  fun_cases State.goesOn s r <;> grind [State.deliver_mem, Memory.wf_dropStaleIn, Memory.wf_dropStale]

theorem Memory.wf_settleEntry {s : State} (r : Ripe) (h : Memory.wf s.mem = true) :
    Memory.wf (s.settleEntry r).mem = true := by
  fun_cases State.settleEntry s r <;> grind [Memory.wf_visible, State.reached_mem, State.push_mem]

@[simp] theorem execEntryRipens_goes (r : Ripe) (s : State) : Goes s (execEntryRipens r s) := by
  fun_cases execEntryRipens r s
  grind [State.agentReported_mem, Memory.wf_settleEntry, Memory.wf_goesOn, goes_next]

/-! ### Leases: the lender's side (08 R174, R175) and the response -/

theorem Memory.wf_lentSpans {s : State} (j : Job) (lbuf loff need : Nat) (kind : PeerKind)
    (l : List (Nat × Nat × Nat)) (h : Memory.wf s.mem = true) :
    Memory.wf (s.lentSpans j lbuf loff need kind l).1.mem = true := by
  fun_induction State.lentSpans s j lbuf loff need kind l <;> grind [Memory.wf_bufSpans]

theorem Memory.wf_lendPiece {s : State} (kind : PeerKind) (ks : List (Nat × Nat)) (n data : Nat)
    (h : Memory.wf s.mem = true) :
    Memory.wf (s.lendPiece kind ks n data).1.mem = true := by
  fun_cases State.lendPiece s kind ks n data <;> grind [Memory.wf_wrSpans]

theorem Memory.wf_lend {s : State} (kind : PeerKind) (l : List ((Nat × Nat × Nat) × List (Nat × Nat)))
    (h : Memory.wf s.mem = true) :
    Memory.wf (s.lend kind l).1.mem = true := by
  fun_induction State.lend s kind l <;> grind [Memory.wf_lendPiece]

theorem Memory.wf_answerPeer {s : State} (p : PeerReq) (h : Memory.wf s.mem = true) :
    Memory.wf (s.answerPeer p).1.mem = true := by
  fun_cases State.answerPeer s p <;>
    grind [Memory.wf_lentSpans, Memory.wf_lend, Memory.wf_healLines, Memory.wf_dropStale]

@[simp] theorem State.noteFront_mem (s : State) (src : BitVec 14) (launch : Nat) (f : Option Nat) :
    (s.noteFront src launch f).mem = s.mem :=
  rfl

@[simp] theorem execPeerAccess_goes (p : PeerReq) (s : State) : Goes s (execPeerAccess p s) := by
  fun_cases execPeerAccess p s
  grind [State.noteFront_mem, State.push_mem, Memory.wf_answerPeer, State.send_mem, goes_next]

@[simp] theorem State.dropAccess_mem (s : State) (a : Access) : (s.dropAccess a).mem = s.mem := rfl

theorem Memory.wf_accessAnswered {s : State} (a : Access) (r : Except (Cause × Nat) (List Nat))
    (h : Memory.wf s.mem = true) :
    Memory.wf (s.accessAnswered a r).mem = true := by
  fun_cases State.accessAnswered s a r <;> grind [Memory.wf_endAccess, State.again_mem]

@[simp] theorem State.answerStall_mem (s : State) (core key : Nat) (ws : List Nat) :
    (s.answerStall core key ws).mem = s.mem := by
  simp [State.answerStall]

@[simp] theorem State.pushEngine_mem (s : State) (e : Nat) : (s.pushEngine e).mem = s.mem := by
  fun_cases State.pushEngine s e <;> simp

theorem Memory.wf_peerAnswered {s : State} (p : PeerResp) (h : Memory.wf s.mem = true) :
    Memory.wf (s.peerAnswered p).mem = true := by
  fun_cases State.peerAnswered s p <;>
    grind [Memory.wf_accessAnswered, State.dropAccess_mem, State.pushEngine_mem, State.setEngine_mem,
      State.answerStall_mem, State.push_mem]

@[simp] theorem execPeerResponse_goes (p : PeerResp) (s : State) : Goes s (execPeerResponse p s) := by
  fun_cases execPeerResponse p s
  grind [Memory.wf_peerAnswered, Memory.wf_leaseRefused, goes_next]

/-! ### Reads and writes that a bundle waits for (09 R202, R207, R208; 10 R224; 13 R296) -/

@[simp] theorem State.awaits_mem (s : State) (key : Nat) : (s.awaits key).mem = s.mem := rfl

theorem Memory.wf_peerRecord {s : State} (c : Cause) (p : Word) (h : Memory.wf s.mem = true) :
    Memory.wf (s.peerRecord c p).mem = true :=
  Memory.wf_faultRecord _ _ h

theorem Memory.wf_syncPeer {s : State} (j : Job) (lease : Nat) (kind : PeerKind) (p : Word) (n x k : Nat)
    (h : Memory.wf s.mem = true) :
    Memory.wf (s.syncPeer j lease kind p n x k).state.mem = true := by
  fun_cases State.syncPeer s j lease kind p n x k <;>
    grind [Memory.wf_peerRecord, State.stall_mem, State.toLender_mem, State.awaits_mem, Memory.wf_leaseRefused,
      Sync.state]

theorem Memory.wf_syncMem {s : State} (j : Job) (b : Buf) (p : Word) (off n : Nat)
    {act : State → List (Nat × Nat) → Sync} (hf : ∀ ks, Memory.wf (act s ks).state.mem = true)
    (h : Memory.wf s.mem = true) :
    Memory.wf (s.syncMem j b p off n act).state.mem = true := by
  fun_cases State.syncMem s j b p off n act <;> grind [Sync.state, State.stall_mem, !State.askWalks_mem]

theorem Memory.wf_syncAt {s : State} (need align : Nat) (p : Word) (n : Nat) {peer : Job → Nat → Sync}
    {act : State → List (Nat × Nat) → Sync} {loc : State → Sync} (view : Bool)
    (hp : ∀ j l, Memory.wf (peer j l).state.mem = true) (ha : ∀ ks, Memory.wf (act s ks).state.mem = true)
    (hl : Memory.wf (loc s).state.mem = true) (h : Memory.wf s.mem = true) :
    Memory.wf (s.syncAt need align p n peer act loc view).state.mem = true := by
  fun_cases State.syncAt s need align p n peer act loc view <;>
    grind [Sync.state, State.stall_mem, Memory.wf_syncMem]

theorem Memory.wf_syncRead {s : State} (need align : Nat) (p : Word) (n k : Nat) (view : Bool)
    (h : Memory.wf s.mem = true) :
    Memory.wf (s.syncRead need align p n k view).state.mem = true := by
  fun_cases State.syncRead s need align p n k view
  grind [Memory.wf_syncAt, Sync.state, Memory.wf_syncPeer, Memory.wf_coreLoad, State.stall_mem,
    State.noteSeen_mem]

theorem Memory.wf_wrThrough {s : State} (ks : List (Nat × Nat)) (x : Nat) (h : Memory.wf s.mem = true) :
    Memory.wf (s.wrThrough ks x).mem = true :=
  Memory.wf_dropStale (Memory.wf_wrSpans _ _ (Memory.wf_noteOwn _ _ (by simpa [Memory.wf] using h)))

theorem Memory.wf_syncWrite {s : State} (need align : Nat) (p : Word) (n x k : Nat) (view : Bool)
    (h : Memory.wf s.mem = true) :
    Memory.wf (s.syncWrite need align p n x k view).state.mem = true := by
  fun_cases State.syncWrite s need align p n x k view
  grind [Memory.wf_syncAt, Sync.state, Memory.wf_syncPeer, Memory.wf_wrThrough, State.stall_mem,
    State.setStore_mem]

end Sys2Proof.Machine
end

section
/-!
# Control, scalar, vector and memory slots: memory stays canonical
-/
namespace Sys2Proof.Machine

/-! ### Control -/

@[simp] theorem State.jump_mem (s : State) (pc : Pc) : (s.jump pc).mem = s.mem := rfl

@[simp] theorem State.pushRet_mem (s : State) : s.pushRet.mem = s.mem := rfl

@[simp] theorem execCall_goes (hd : Hdr) (_h : BitVec 1) (o : BitVec 17) (s : State) :
    Goes s (execCall hd _h o s) := by
  fun_cases execCall hd _h o s
  grind [State.guarded_goes, Memory.wf_fail, State.jump_mem, State.pushRet_mem]

@[simp] theorem execBdnz_goes (hd : Hdr) (_h : BitVec 1) (c : BitVec 6) (o : BitVec 11) (s : State) :
    Goes s (execBdnz hd _h c o s) := by
  fun_cases execBdnz hd _h c o s <;>
    grind [Memory.wf_illegal, State.guarded_goes, State.sResult_mem, State.jump_mem, goes_next]

@[simp] theorem execBri_goes (hd : Hdr) (a : BitVec 6) (s : State) : Goes s (execBri hd a s) := by
  fun_cases execBri hd a s
  grind [State.guarded_goes, Memory.wf_fail, State.jump_mem]

@[simp] theorem execCalli_goes (hd : Hdr) (a : BitVec 6) (s : State) : Goes s (execCalli hd a s) := by
  fun_cases execCalli hd a s
  grind [State.guarded_goes, Memory.wf_fail, State.jump_mem, State.pushRet_mem]

@[simp] theorem execRet_goes (hd : Hdr) (s : State) : Goes s (execRet hd s) := by
  fun_cases execRet hd s
  grind [State.guarded_goes, Memory.wf_fail, State.jump_mem, State.setRegs_mem]

@[simp] theorem State.setYield_mem (s : State) (y : BitVec 16) (e : Yield) : (s.setYield y e).mem = s.mem :=
  State.foldl_mem (fun _ _ => State.setCore_mem ..) _ _

@[simp] theorem State.yieldPoint_mem (s : State) (y : BitVec 16) (e : Yield) :
    (s.yieldPoint y e).mem = s.mem := by
  simp [State.yieldPoint]

theorem Memory.wf_schedule {s : State} (e : Yield) (h : Memory.wf s.mem = true) :
    Memory.wf (s.schedule e).mem = true := by
  unfold State.schedule
  split
  · extract_lets t
    have forced : Memory.wf t.handler.1.mem = true :=
      Memory.wf_handler (Memory.wf_of_eq (State.foldl_mem (fun _ _ => State.setCore_mem ..) _ _) h)
    split
    next eq =>
      rw [eq] at forced
      exact Memory.wf_enterHandler _ _ _ _ _ _ _ _ forced
    next eq =>
      rw [eq] at forced
      exact Memory.wf_freeze _ _ _ _ _ _ forced
  · exact Memory.wf_onYield _ _ h

@[simp] theorem execYield_goes (hd : Hdr) (y : BitVec 16) (s : State) : Goes s (execYield hd y s) := by
  fun_cases execYield hd y s <;>
    grind [State.guarded_goes, Memory.wf_illegal, Memory.wf_schedule, State.yieldPoint_mem, goes_next]

@[simp] theorem execSusp_goes (hd : Hdr) (y : BitVec 16) (s : State) : Goes s (execSusp hd y s) := by
  fun_cases execSusp hd y s <;>
    grind [State.guarded_goes, Memory.wf_illegal, State.yieldPoint_mem, Memory.wf_schedule, Memory.wf_switchOut,
      goes_next]

@[simp] theorem execDly_goes (hd : Hdr) (n : BitVec 16) (s : State) : Goes s (execDly hd n s) := by
  fun_cases execDly hd n s <;>
    grind [Memory.wf_illegal, State.guarded_goes, Memory.wf_overrun, State.setPipe_mem, goes_next]

@[simp] theorem State.issueSpawn_mem (s : State) (hd : Hdr) (a b : BitVec 6) (t : BitVec 5) :
    (s.issueSpawn hd a b t).mem = s.mem :=
  rfl

@[simp] theorem execSpawn_goes (hd : Hdr) (a b : BitVec 6) (t : BitVec 5) (s : State) :
    Goes s (execSpawn hd a b t s) := by
  fun_cases execSpawn hd a b t s <;>
    grind [Memory.wf_illegal, State.stall_mem, State.postOnce_mem, State.guarded_goes, Memory.wf_failAt,
      State.issueSpawn_mem, goes_next]

theorem Memory.wf_waitOn {s : State} (t : BitVec 5) (thr : BitVec 16) (h : Memory.wf s.mem = true) :
    Memory.wf (s.waitOn t thr).mem = true := by
  fun_cases State.waitOn s t thr <;> grind [State.setPipe_mem, Memory.wf_fail, State.raiseLic_mem]

theorem Memory.wf_stallingWait {s : State} (t : BitVec 5) (thr : BitVec 16) (h : Memory.wf s.mem = true) :
    Memory.wf (s.stallingWait t thr).mem = true := by
  fun_cases State.stallingWait s t thr <;> grind [Memory.wf_waitOn, State.stall_mem, State.raiseLic_mem]

theorem Memory.wf_suspend {s : State} (wait : Nat) (h : Memory.wf s.mem = true) :
    Memory.wf (s.suspend wait).mem = true := by
  fun_cases State.suspend s wait
  grind [State.push_mem, Memory.wf_switchOut]

theorem Memory.wf_suspendingWait {s : State} (t : BitVec 5) (thr : BitVec 16) (h : Memory.wf s.mem = true) :
    Memory.wf (s.suspendingWait t thr).mem = true := by
  fun_cases State.suspendingWait s t thr <;>
    grind [Memory.wf_illegal, Memory.wf_waitOn, State.stall_mem, State.raiseLic_mem, Memory.wf_suspend]

@[simp] theorem execWtk_goes (hd : Hdr) (t : BitVec 5) (h : BitVec 12) (s : State) :
    Goes s (execWtk hd t h s) := by
  fun_cases execWtk hd t h s
  grind [State.guarded_goes, Memory.wf_stallingWait]

@[simp] theorem execWtkRf1_goes (hd : Hdr) (t : BitVec 5) (a : BitVec 6) (s : State) :
    Goes s (execWtkRf1 hd t a s) := by
  fun_cases execWtkRf1 hd t a s
  grind [State.guarded_goes, Memory.wf_stallingWait]

@[simp] theorem execWtks_goes (hd : Hdr) (t : BitVec 5) (h : BitVec 12) (s : State) :
    Goes s (execWtks hd t h s) := by
  fun_cases execWtks hd t h s
  grind [State.guarded_goes, Memory.wf_suspendingWait]

@[simp] theorem execWtksRf1_goes (hd : Hdr) (t : BitVec 5) (a : BitVec 6) (s : State) :
    Goes s (execWtksRf1 hd t a s) := by
  fun_cases execWtksRf1 hd t a s
  grind [State.guarded_goes, Memory.wf_suspendingWait]

@[simp] theorem execSync_goes (hd : Hdr) (s : State) : Goes s (execSync hd s) := by
  fun_cases execSync hd s
  grind [State.guarded_goes, State.raiseLic_mem, State.stall_mem, State.push_mem]

@[simp] theorem execSwtrap_goes (hd : Hdr) (c : BitVec 16) (s : State) : Goes s (execSwtrap hd c s) := by
  fun_cases execSwtrap hd c s
  grind [State.guarded_goes, State.charge_mem, State.afterSlots_mem, Memory.wf_trap]

@[simp] theorem execBrk_goes (_hd : Hdr) (t : BitVec 18) (s : State) : Goes s (execBrk _hd t s) := by
  fun_cases execBrk _hd t s
  grind [Memory.wf_fail, Memory.wf_illegal, goes_next]

/-! ### Tiles -/

@[simp] theorem State.setTile_mem (s : State) (core slot w : Nat) (xs : List Nat) :
    (s.setTile core slot w xs).mem = s.mem := by
  simp [State.setTile]

/-! ### Advance (10 R227, R228) -/

@[simp] theorem State.addArrival_mem (s : State) (c : Chain) (l : Link) : (s.addArrival c l).1.mem = s.mem := by
  fun_cases State.addArrival s c l <;> simp

@[simp] theorem State.sendHop_mem (s : State) (c : Chain) (l : Link) : (s.sendHop c l).mem = s.mem := by
  simp [State.sendHop]

@[simp] theorem State.progress_mem (s : State) (core : Nat) : (s.progress core).mem = s.mem := by
  fun_cases State.progress s core <;> grind [State.addArrival_mem, State.setChain_mem, State.sendHop_mem]

@[simp] theorem State.wake_mem (s : State) (core : Nat) : (s.wake core).mem = s.mem := by
  fun_cases State.wake s core <;> simp

@[simp] theorem State.settle_mem (s : State) (job : Nat) (ch : BitVec 10) (inst : BitVec 16) (j : Nat) :
    (s.settle job ch inst j).mem = s.mem := by
  fun_cases State.settle s job ch inst j <;> simp

@[simp] theorem State.settleAll_mem (s : State) (c : Chain) : (s.settleAll c).mem = s.mem :=
  State.foldl_mem (fun _ _ => State.settle_mem ..) _ _

/-! ### Messages (10 R224, R225, R227) -/

theorem Memory.wf_freezeIf {s : State} (c : Chain) (cause : Cause) (rec : Word) (agent : Nat)
    (h : Memory.wf s.mem = true) :
    Memory.wf (s.freezeIf c cause rec agent).mem = true := by
  fun_cases State.freezeIf s c cause rec agent <;> grind [Memory.wf_freezeChain]

theorem Memory.wf_onMessage {s : State} (m : ChainMsg) (e : Event) {f : Chain → State}
    (hf : ∀ c, Memory.wf (f c).mem = true) (h : Memory.wf s.mem = true) :
    Memory.wf (s.onMessage m e f).mem = true := by
  fun_cases State.onMessage s m e f <;> grind [Memory.wf_freezeIf]

@[simp] theorem execAnnouncement_goes (m : ChainMsg) (s : State) : Goes s (execAnnouncement m s) := by
  fun_cases execAnnouncement m s
  grind [Memory.wf_onMessage, State.putChain_mem, goes_next]

@[simp] theorem State.acknowledge_mem (s : State) (c : Chain) (m : ChainMsg) :
    (s.acknowledge c m).mem = s.mem := by
  simp [State.acknowledge]

@[simp] theorem execHopArrival_goes (m : ChainMsg) (s : State) : Goes s (execHopArrival m s) := by
  fun_cases execHopArrival m s
  grind [Memory.wf_onMessage, State.setChain_mem, State.acknowledge_mem, State.settle_mem, goes_next]

@[simp] theorem execAcknowledgement_goes (m : ChainMsg) (s : State) : Goes s (execAcknowledgement m s) := by
  fun_cases execAcknowledgement m s
  grind [Memory.wf_onMessage, State.setChain_mem, goes_next]

/-! ### Thaw (10 R239) -/

@[simp] theorem State.thawHere_mem (s : State) (c : Chain) (spliced : List Nat) :
    (s.thawHere c spliced).mem = s.mem := by
  unfold State.thawHere
  extract_lets c s₁ s₂
  have sent : s₂.mem = s.mem := by
    refine (State.foldl_mem (fun t l => ?_) c.links s₁).trans (State.setChain_mem ..)
    extract_lets e again
    split
    · split
      · rw [State.sendHop_mem, State.setChain_mem]
      · rfl
    · rfl
  split
  · rw [State.settleAll_mem, State.setChain_mem, sent]
  · exact sent

@[simp] theorem State.thaw_mem (s : State) (c : Chain) : (s.thaw c).1.mem = s.mem := by
  fun_cases State.thaw s c <;> simp

@[simp] theorem execChainFreezeMessage_goes (m : ChainMsg) (s : State) : Goes s (execChainFreezeMessage m s) := by
  fun_cases execChainFreezeMessage m s
  grind [Memory.wf_onMessage, State.thawHere_mem, State.freezeHere_mem, goes_next]

@[simp] theorem execChainCancelMessage_goes (m : ChainMsg) (s : State) : Goes s (execChainCancelMessage m s) := by
  fun_cases execChainCancelMessage m s
  grind [Memory.wf_onMessage, State.retireLinks_mem, State.cancelHere_mem, goes_next]

/-! ### The arbiter (11 R242) -/

@[simp] theorem State.spliceLink_mem (s : State) (c : Chain) (j core slot recPa now : Nat) :
    (s.spliceLink c j core slot recPa now).mem = s.mem := by
  fun_cases State.spliceLink s c j core slot recPa now <;>
    grind [State.releaseLink_mem, State.setTile_mem, State.setChain_mem]

theorem Memory.wf_arbitrate {s : State} (c : Chain) (r : ArbReq) (h : Memory.wf s.mem = true) :
    Memory.wf (s.arbitrate c r).1.mem = true := by
  fun_cases State.arbitrate s c r <;>
    grind [Memory.wf_freezeIf, State.setChain_mem, State.tellChain_mem, State.freezeHere_mem,
      State.cancelHere_mem, State.thaw_mem]

@[simp] theorem State.setCurrent_mem (s : State) (c : Chain) : (s.setCurrent c).mem = s.mem := rfl

@[simp] theorem State.raiseOpenk_mem (s : State) : s.raiseOpenk.mem = s.mem := rfl

@[simp] theorem State.announce_mem (s : State) (c : Chain) (j : Nat) : (s.announce c j).mem = s.mem :=
  State.foldl_mem (fun _ _ => by dsimp only; split <;> simp) _ _

@[simp] theorem State.bindSplice_mem (s : State) (c : Chain) (j core slot recPa : Nat) :
    (s.bindSplice c j core slot recPa).mem = s.mem := by
  unfold State.bindSplice
  split
  · rfl
  · refine (State.onCore_mem _ fun t => ?_).trans (State.spliceLink_mem ..)
    dsimp only
    split <;> simp

@[simp] theorem State.arbiterAnswer_mem (s : State) (r : ArbReq) (w : Nat) :
    (s.arbiterAnswer r w).mem = s.mem := by
  fun_cases State.arbiterAnswer s r w
  grind [State.bindSplice_mem, State.tellArbiter_mem, State.answerStall_mem]

@[simp] theorem execArbiterRequest_goes (r : ArbReq) (s : State) : Goes s (execArbiterRequest r s) := by
  fun_cases execArbiterRequest r s
  grind [State.arbiterAnswer_mem, Memory.wf_arbitrate, State.send_mem, goes_next]

theorem Memory.wf_chainEvent {s : State} (e : Event) (h : Memory.wf s.mem = true) :
    Memory.wf (s.chainEvent e).mem = true := by
  have goes {o : Out} : Goes s o → Memory.wf (match o with | .next t => t | _ => s : State).mem = true := by
    rintro ⟨t, rfl, ht⟩
    exact ht h
  cases e with
  | announcement m => exact goes (execAnnouncement_goes m s)
  | hopArrival m => exact goes (execHopArrival_goes m s)
  | acknowledgement m => exact goes (execAcknowledgement_goes m s)
  | chainFreezeMessage m => exact goes (execChainFreezeMessage_goes m s)
  | chainCancelMessage m => exact goes (execChainCancelMessage_goes m s)
  | arbiterRequest r => exact goes (execArbiterRequest_goes r s)
  | _ => exact h

/-! ### Failures of links (10 R235) -/

@[simp] theorem State.noteLink_mem (s : State) (c : Chain) (j st : Nat) : (s.noteLink c j st).mem = s.mem := by
  fun_cases State.noteLink s c j st <;> simp

theorem Memory.wf_linkFails {s : State} (core k : Nat) (h : Memory.wf s.mem = true) :
    Memory.wf (s.linkFails core k).mem = true := by
  fun_cases State.linkFails s core k <;>
    grind [State.setCore_mem, Memory.wf_freezeChain, State.setChain_mem, Memory.wf_faultRecord,
      State.noteLink_mem]

theorem Memory.wf_hopLost {s : State} (m : ChainMsg) (h : Memory.wf s.mem = true) :
    Memory.wf (s.hopLost m).mem = true := by
  fun_cases State.hopLost s m <;> grind [Memory.wf_freezeChain]

theorem Memory.wf_linksUnreachable {s : State} (c : Chain) (dev : BitVec 14) (h : Memory.wf s.mem = true) :
    Memory.wf (s.linksUnreachable c dev).mem = true := by
  unfold State.linksUnreachable
  dsimp only
  split
  · rw [State.freezeHere_mem]
    exact Memory.wf_faultRecord _ _ (by rwa [State.setChain_mem])
  · refine Memory.wf_freezeChain _ _ _ _ _ _ ?_
    rwa [State.foldl_mem fun _ _ => State.noteLink_mem .., State.setChain_mem]

theorem Memory.wf_deviceLost {s : State} (dev : BitVec 14) (h : Memory.wf s.mem = true) :
    Memory.wf (s.deviceLost dev).mem = true := by
  refine Memory.wf_foldl (fun s q h => ?_) _ h
  split
  · split
    · exact Memory.wf_linksUnreachable _ _ h
    · exact h
  · exact h

@[simp] theorem State.arbiterLost_mem (s : State) (r : ArbReq) : (s.arbiterLost r).mem = s.mem := by
  fun_cases State.arbiterLost s r <;> simp

/-! ### Division (06 R130) -/

theorem State.divide_goes (s : State) (hd : Hdr) (d a b : BitVec 6) (f : Word → Word → Word) :
    Goes s (s.divide hd d a b f) := by
  fun_cases State.divide s hd d a b f
  grind [State.stall_mem, State.postOnce_mem, Memory.wf_blocked, State.newPost_mem, State.deliver_mem, goes_next]

/-! ### Selection, pointers and bit fields (06 R131 to R134) -/

@[simp] theorem execSel_goes (hd : Hdr) (d a b : BitVec 6) (s : State) : Goes s (execSel hd d a b s) := by
  fun_cases execSel hd d a b s
  grind [Memory.wf_blocked, State.sResult_mem, goes_next]

@[simp] theorem execBpadd_goes (hd : Hdr) (d a b : BitVec 6) (s : State) : Goes s (execBpadd hd d a b s) := by
  fun_cases execBpadd hd d a b s <;> grind [State.alu2_goes, State.alu1_goes]

@[simp] theorem State.pair_mem (s : State) (k : Nat) (pr : BitVec 2) (c : Bool) : (s.pair k pr c).mem = s.mem :=
  rfl

/-! ### Compares and predicates (06 R135 to R137) -/

@[simp] theorem execPlog_goes (hd : Hdr) (d a b : BitVec 3) (f : BitVec 4) (s : State) :
    Goes s (execPlog hd d a b f s) := by
  fun_cases execPlog hd d a b f s
  grind [State.guarded_goes, State.result_mem]

/-! ### Scalar floating point (06 R138 to R142) -/

theorem State.fp2_goes (s : State) (hd : Hdr) (t : FFmt) (d a b : BitVec 6) (f : Nat → Nat → Nat × Flags) :
    Goes s (s.fp2 hd t d a b f) := by
  simp [State.fp2, State.guarded_goes]

theorem State.fp3_goes (s : State) (hd : Hdr) (t : FFmt) (d a b : BitVec 6) : Goes s (s.fp3 hd t d a b) := by
  simp [State.fp3, State.guarded_goes]

/-! ### Elements and masks (05 R98) -/

theorem State.vslot_goes {s : State} (hd : Hdr) (u : Uses) {f : State → State}
    (hf : Memory.wf s.mem = true → Memory.wf (f s).mem = true) :
    Goes s (s.vslot hd u f) := by
  unfold State.vslot
  simp only [goes_next]
  grind [!Memory.wf_blocked, State.pops_mem]

@[simp] theorem State.vresult_mem (s : State) (k w : Nat) (d : BitVec 6) (m : BitVec 64) (f : Nat → Nat × Flags) :
    (s.vresult k w d m f).mem = s.mem := by
  simp [State.vresult]

theorem State.vec2_goes (s : State) (hd : Hdr) (k w : Nat) (d a b : BitVec 6) (f : Nat → Nat → Nat × Flags) :
    Goes s (s.vec2 hd k w d a b f) := by
  simp [State.vec2, State.vslot_goes]

theorem State.vec1_goes (s : State) (hd : Hdr) (k w : Nat) (d a : BitVec 6) (f : Nat → Nat × Flags) :
    Goes s (s.vec1 hd k w d a f) := by
  simp [State.vec1, State.vslot_goes]

/-! ### Integer and logic (07 R146) -/

theorem State.vint_goes (s : State) (hd : Hdr) (k : Nat) (d a b : BitVec 6)
    (f : BitVec 32 → BitVec 32 → BitVec 32) :
    Goes s (s.vint hd k d a b f) := by
  simp [State.vint, State.vec2_goes]

theorem State.vshift_goes (s : State) (hd : Hdr) (d a b : BitVec 6) (f : BitVec 32 → Nat → BitVec 32) :
    Goes s (s.vshift hd d a b f) := by
  fun_cases State.vshift s hd d a b f <;> grind [State.vint_goes, State.vec1_goes]

/-! ### FP arithmetic with the modifier slot (07 R145, R146, R147) -/

theorem State.vfp2_goes (s : State) (hd : Hdr) (t : FFmt) (d a b : BitVec 6)
    (f : Bool → Nat → Nat → Nat × Flags) :
    Goes s (s.vfp2 hd t d a b f) := by
  simp [State.vfp2, State.vec2_goes]

theorem State.vfma_goes (s : State) (hd : Hdr) (t : FFmt) (d a b : BitVec 6) : Goes s (s.vfma hd t d a b) := by
  simp [State.vfma, State.vslot_goes]

/-! ### Compares (07 R148) -/

@[simp] theorem State.maskPair_mem (s : State) (pr : BitVec 2) (m : BitVec 64) (w : Nat)
    (f : Nat → Bool × Flags) :
    (s.maskPair pr m w f).mem = s.mem := by
  simp [State.maskPair]

theorem State.vcmp_goes (s : State) (hd : Hdr) (p : BitVec 2) (w : Nat) (a b : BitVec 6)
    (f : Nat → Nat → Bool × Flags) :
    Goes s (s.vcmp hd p w a b f) := by
  simp [State.vcmp, State.vslot_goes]

/-! ### Conversions (07 R149) -/

@[simp] theorem execVcvt_goes (hd : Hdr) (d a : BitVec 6) (s : State) : Goes s (execVcvt hd d a s) := by
  simp [execVcvt, State.vslot_goes]

/-! ### Masks, selection and movement (07 R150 to R154) -/

@[simp] theorem execVmmovFroms_goes (hd : Hdr) (d a : BitVec 6) (s : State) :
    Goes s (execVmmovFroms hd d a s) := by
  fun_cases execVmmovFroms hd d a s
  grind [State.guarded_goes, State.result_mem]

@[simp] theorem State.lanes_mem (s : State) (k : Nat) (d : BitVec 6) (m : BitVec 64) (f : Nat → Nat) :
    (s.lanes k d m f).mem = s.mem := by
  simp [State.lanes]

@[simp] theorem execVsel_goes (hd : Hdr) (d a b : BitVec 6) (s : State) : Goes s (execVsel hd d a b s) := by
  fun_cases execVsel hd d a b s
  grind [Memory.wf_blocked, State.pops_mem, State.lanes_mem, goes_next]

@[simp] theorem execVext_goes (hd : Hdr) (d a i : BitVec 6) (s : State) : Goes s (execVext hd d a i s) := by
  fun_cases execVext hd d a i s
  grind [Memory.wf_blocked, State.pops_mem, State.sResult_mem, goes_next]

/-! ### Reductions and scans (07 R155 to R157) -/

theorem State.vreduce_goes (s : State) (hd : Hdr) (d a : BitVec 6) (f : VReg → BitVec 64 → Word × Flags) :
    Goes s (s.vreduce hd d a f) := by
  simp [State.vreduce, State.vslot_goes]

theorem State.vextreme_goes (s : State) (hd : Hdr) (d a : BitVec 6) (f : BitVec 4) (u n : BitVec 1)
    (isMax : Bool) :
    Goes s (s.vextreme hd d a f u n isMax) := by
  simp [State.vextreme, State.vreduce_goes]

/-! ### Block quantise, dequantise and random numbers (07 R159 to R161) -/

theorem State.tabled_goes {s : State} (hd : Hdr) (d a b : BitVec 6) {f : State → Nat → State}
    (hf : ∀ p, Memory.wf s.mem = true → Memory.wf (f s p).mem = true) :
    Goes s (s.tabled hd d a b f) := by
  unfold State.tabled
  simp only [goes_next]
  grind [!Memory.wf_blocked, State.pops_mem, Memory.wf_illegal]

/-! ### MemInstr -/

theorem State.tokSlot_goes {s : State} (hd : Hdr) (on store : Bool) (u : Uses) {f : State → State}
    (hf : Memory.wf s.mem = true → Memory.wf (f s).mem = true) :
    Goes s (s.tokSlot hd on store u f) := by
  unfold State.tokSlot
  simp only [goes_next]
  grind [!Memory.wf_blocked, State.postOnce?_mem, State.stall_mem, State.emptyWit_mem]

@[simp] theorem State.issueAccess_mem (s : State) (hd : Hdr) (op : AccOp) (whole : Bool) (parts : List Part)
    (dst : Nat) (dsts : List Dst) (seq : Nat) (key : Option BatchKey) :
    (s.issueAccess hd op whole parts dst dsts seq key).mem = s.mem := by
  simp [State.issueAccess]

@[simp] theorem State.giveStore_mem (s : State) (hd : Hdr) : (s.giveStore hd).1.mem = s.mem := by
  simp [State.giveStore]

@[simp] theorem State.tokStore_mem (s : State) (hd : Hdr) (whole : Bool) (parts : List Part) :
    (s.tokStore hd whole parts).mem = s.mem := by
  simp [State.tokStore]

/-! ### The local path (09 R196, R197) -/

theorem Memory.wf_localBlocked {s : State} (hd : Hdr) (need : Nat) (parts : List Part)
    (h : Memory.wf s.mem = true) :
    Memory.wf ((s.localBlocked hd need parts).getD s).mem = true := by
  fun_cases State.localBlocked s hd need parts <;>
    grind [Memory.wf_illegal, Memory.wf_failAt, Memory.wf_fail, State.stall_mem]

theorem Memory.wf_localGet {s : State} (p : Part) (h : Memory.wf s.mem = true) :
    Memory.wf (s.localGet p).state.mem = true := by
  fun_cases State.localGet s p <;> grind [Memory.wf_syncMem, Sync.state, Memory.wf_coreLoad, State.noteSeen_mem]

theorem Memory.wf_localGets {s : State} (l : List Part) (h : Memory.wf s.mem = true) :
    Memory.wf (Sum.elim id Prod.fst (s.localGets l)).mem = true := by
  fun_induction State.localGets s l <;> grind [Memory.wf_localGet, Sync.state, Memory.wf_failXl]

@[simp] theorem State.resultBad_mem (s : State) (k : Nat) (w : Write) (bad : Option Word) :
    (s.resultBad k w bad).mem = s.mem :=
  rfl

theorem Memory.wf_localLoad {s : State} (hd : Hdr) (parts : List Part) (f : List (Nat × Nat) → Write)
    (h : Memory.wf s.mem = true) :
    Memory.wf (s.localLoad hd parts f).mem = true := by
  fun_cases State.localLoad s hd parts f <;>
    grind [Memory.wf_localBlocked, Memory.wf_localGets, State.resultBad_mem]

theorem Memory.wf_localStore {s : State} (hd : Hdr) (parts : List Part) (h : Memory.wf s.mem = true) :
    Memory.wf (s.localStore hd parts).mem = true := by
  have blocked := Memory.wf_localBlocked hd needW parts h
  fun_cases State.localStore s hd parts <;>
    grind [State.giveStore_mem, State.setStore_mem, State.push_mem, Memory.wf_stamp]

/-! ### LD, ST and the vector forms (09 R199, R200) -/

@[simp] theorem execLd_goes (hd : Hdr) (d a : BitVec 6) (sz : BitVec 3) (s : State) :
    Goes s (execLd hd d a sz s) := by
  fun_cases execLd hd d a sz s <;>
    grind [Memory.wf_illegal, State.tokSlot_goes, State.issueAccess_mem, Memory.wf_localLoad, goes_next]

@[simp] theorem execSt_goes (hd : Hdr) (d a : BitVec 6) (sz : BitVec 2) (s : State) :
    Goes s (execSt hd d a sz s) := by
  fun_cases execSt hd d a sz s
  grind [State.tokSlot_goes, State.tokStore_mem, Memory.wf_localStore]

theorem State.vecMem_goes (s : State) (hd : Hdr) (store whole : Bool) (u : Uses) (d : BitVec 6)
    (parts : State → List Part) :
    Goes s (s.vecMem hd store whole u d parts) := by
  fun_cases State.vecMem s hd store whole u d parts <;>
    grind [Memory.wf_streamsBlocked, State.tokSlot_goes, State.pops_mem, State.tokStore_mem, Memory.wf_localStore,
      State.issueAccess_mem, Memory.wf_localLoad, goes_next]

/-! ### Bank formats and the view (09 R203, R204) -/

@[simp] theorem execFmt_goes (hd : Hdr) (k a b : BitVec 6) (s : State) : Goes s (execFmt hd k a b s) := by
  fun_cases execFmt hd k a b s <;> grind [Memory.wf_illegal, State.guarded_goes, State.later_mem, goes_next]

@[simp] theorem execVjoin_goes (hd : Hdr) (w : BitVec 4) (s : State) : Goes s (execVjoin hd w s) := by
  fun_cases execVjoin hd w s
  grind [State.guarded_goes, Memory.wf_fail, State.later_mem]

/-! ### Cache operations (09 R205, R206) -/

@[simp] theorem execPref_goes (hd : Hdr) (n a : BitVec 6) (v : BitVec 2) (s : State) :
    Goes s (execPref hd n a v s) := by
  fun_cases execPref hd n a v s <;> grind [Memory.wf_illegal, State.guarded_goes, State.push_mem, goes_next]

/-! ### Streams (09 R207) -/

@[simp] theorem execSbind_goes (hd : Hdr) (q : BitVec 3) (a : BitVec 6) (w : BitVec 4) (s : State) :
    Goes s (execSbind hd q a w s) := by
  fun_cases execSbind hd q a w s
  grind [State.guarded_goes, Memory.wf_fail, State.stall_mem, Memory.wf_syncRead, Sync.state, Memory.wf_failXl,
    Memory.wf_failAt, State.later_mem, State.push_mem]

/-! ### Saved tokens (09 R202, 05 R110) -/

theorem Memory.wf_failTok {s : State} (t : BitVec 5) (c : Cause) (p : Word) (detail : Nat)
    (h : Memory.wf s.mem = true) :
    Memory.wf (s.failTok t c p detail).mem = true :=
  Memory.wf_failAt _ _ h

@[simp] theorem execTksv_goes (hd : Hdr) (t : BitVec 5) (a : BitVec 6) (s : State) :
    Goes s (execTksv hd t a s) := by
  fun_cases execTksv hd t a s
  grind [State.guarded_goes, State.stall_mem, Memory.wf_syncWrite, Sync.state, Memory.wf_failTok]

@[simp] theorem execTkld_goes (hd : Hdr) (t : BitVec 5) (a : BitVec 6) (s : State) :
    Goes s (execTkld hd t a s) := by
  fun_cases execTkld hd t a s
  grind [State.guarded_goes, State.stall_mem, Memory.wf_syncRead, Sync.state, Memory.wf_failTok,
    State.imageTok_mem]

/-! ### Streams fetched ahead (08 R187) -/

theorem Memory.wf_fetchMem {s : State} (core : Nat) (j : Job) (d : Buf) (off n : Nat)
    (h : Memory.wf s.mem = true) :
    Memory.wf (s.fetchMem core j d off n).1.mem = true := by
  fun_cases State.fetchMem s core j d off n <;> grind [State.askWalks_mem, Memory.wf_coreLoad]

theorem Memory.wf_fetchPeer {s : State} (core : Nat) (j : Job) (d : Buf) (off : Nat) (asked : Option Nat)
    (h : Memory.wf s.mem = true) :
    Memory.wf (s.fetchPeer core j d off asked).1.mem = true := by
  unfold State.fetchPeer
  split
  · exact h
  · exact h
  · exact h
  · extract_lets key
    have lent := State.toLender_mem s d.lease j .read [(off, 256, 0)] (.stalled core key) none
    split
    · exact Memory.wf_leaseRefused _ _ h
    next eq =>
      rw [eq] at lent
      exact Memory.wf_of_eq (State.setCore_mem ..) (Memory.wf_of_eq (s := s) lent h)

theorem Memory.wf_fetchElem {s : State} (core : Nat) (b : Stream) (e : Nat) (h : Memory.wf s.mem = true) :
    Memory.wf (s.fetchElem core b e).1.mem = true := by
  fun_cases State.fetchElem s core b e <;> grind [Memory.wf_fetchMem, State.noteSeen_mem, Memory.wf_fetchPeer]

@[simp] theorem execStreamElementFetch_goes (core q : Nat) (s : State) :
    Goes s (execStreamElementFetch core q s) := by
  fun_cases execStreamElementFetch core q s
  grind [State.setCore_mem, State.push_mem, Memory.wf_fetchElem, goes_next]

end Sys2Proof.Machine
end

section
/-!
# Matrix contributions and chains: memory stays canonical
-/
namespace Sys2Proof.Machine

/-! ### The X queue (10 R219, R220) -/

@[simp] theorem State.pushHead_mem (s : State) (core : Nat) : (s.pushHead core).mem = s.mem := by
  fun_cases State.pushHead s core <;> simp

theorem State.xSlot_goes {s : State} (hd : Hdr) (u : Uses) {f : State → State}
    (hf : Memory.wf s.mem = true → Memory.wf (f s).mem = true) :
    Goes s (s.xSlot hd u f) := by
  unfold State.xSlot
  simp only [goes_next]
  grind [!Memory.wf_blocked, State.postOnce?_mem, State.stall_mem]

@[simp] theorem State.enqueue_mem (s : State) (hd : Hdr) (i : Instr) (a b : Word) (x : BitVec 48)
    (y : BitVec 32) (fmts : List BankFmt) (dsts : List Dst) (wi : List Word) (seq : Nat) (c : Chain) (l : Link) :
    (s.enqueue hd i a b x y fmts dsts wi seq c l).mem = s.mem := by
  fun_cases State.enqueue s hd i a b x y fmts dsts wi seq c l <;>
    grind [State.post?_mem, State.setPipe_mem, State.pushHead_mem]

theorem Memory.wf_queueFull {s : State} (h : Memory.wf s.mem = true) :
    Memory.wf (s.queueFull.getD s).mem = true := by
  fun_cases State.queueFull s <;> grind [Memory.wf_fail, State.stall_mem]

/-! ### Issue of matrix contributions (11 R245 to R248) -/

theorem State.contribute_goes (s : State) (f : LeftForm) (i : Instr) (hd : Hdr) (k : BitVec 4) (a b : BitVec 6) :
    Goes s (s.contribute f i hd k a b) := by
  fun_cases State.contribute s f i hd k a b
  grind [State.xSlot_goes, Memory.wf_illegal, Memory.wf_fail, Memory.wf_queueFull, State.enqueue_mem,
    State.setChain_mem]

/-! ### At the head (10 R228, R236; 11 R246, R249) -/

@[simp] theorem State.dequeue_mem (s : State) (core : Nat) : (s.dequeue core).mem = s.mem := by
  simp [State.dequeue]

theorem Memory.wf_xFault {s : State} (core : Nat) (e : XEntry) (f : XFault) (h : Memory.wf s.mem = true) :
    Memory.wf (s.xFault core e f).1.mem = true :=
  Memory.wf_faultRecord _ _ h

@[simp] theorem State.xPost_mem (s : State) (core : Nat) (e : XEntry) (ws : List Write) (f : Option PFault) :
    (s.xPost core e ws f).mem = s.mem := by
  fun_cases State.xPost s core e ws f <;> simp

theorem Memory.wf_discard {s : State} (core : Nat) (e : XEntry) (cause : Cause) (h : Memory.wf s.mem = true) :
    Memory.wf (s.discard core e cause).mem = true := by
  fun_cases State.discard s core e cause <;> grind [State.dequeue_mem, Memory.wf_xFault, State.xPost_mem]

theorem Memory.wf_applyHead {s : State} (core : Nat) (h : Memory.wf s.mem = true) :
    Memory.wf (s.applyHead core).mem = true := by
  fun_cases State.applyHead s core <;>
    grind [State.progress_mem, Memory.wf_discard, State.push_mem, State.setTile_mem, State.setChain_mem,
      Memory.wf_xFault, State.xPost_mem, State.dequeue_mem]

@[simp] theorem execContributionApply_goes (core : Nat) (s : State) : Goes s (execContributionApply core s) := by
  fun_cases execContributionApply core s
  grind [State.wake_mem, Memory.wf_applyHead, goes_next]

/-! ### Starting values and snapshots (11 R254, R255) -/

@[simp] theorem execLkld_goes (hd : Hdr) (k : BitVec 4) (a : BitVec 6) (s : State) :
    Goes s (execLkld hd k a s) := by
  fun_cases execLkld hd k a s
  grind [State.xSlot_goes, Memory.wf_illegal, Memory.wf_failAt, Memory.wf_queueFull, State.enqueue_mem]

@[simp] theorem execLkz_goes (hd : Hdr) (k : BitVec 4) (s : State) : Goes s (execLkz hd k s) := by
  fun_cases execLkz hd k s
  grind [State.xSlot_goes, Memory.wf_illegal, Memory.wf_queueFull, State.enqueue_mem]

theorem Memory.wf_startWith {s : State} (core : Nat) (e : XEntry) (c : Chain) (l : Link) (xs : List Nat)
    (bad : Option XFault) (h : Memory.wf s.mem = true) :
    Memory.wf (s.startWith core e c l xs bad).mem = true := by
  fun_cases State.startWith s core e c l xs bad
  grind [State.setChain_mem, State.setTile_mem, Memory.wf_xFault, State.settle_mem, State.xPost_mem,
    State.dequeue_mem]

@[simp] theorem execStartingValueLoad_goes (core : Nat) (s : State) : Goes s (execStartingValueLoad core s) := by
  refine goes_next.mpr fun h => ?_
  dsimp only
  repeat' split
  all_goals grind [Memory.wf_discard, State.push_mem, Memory.wf_startWith]

@[simp] theorem execStartingValueZero_goes (core : Nat) (s : State) : Goes s (execStartingValueZero core s) := by
  fun_cases execStartingValueZero core s
  grind [Memory.wf_discard, Memory.wf_startWith, goes_next]

@[simp] theorem execLkrd_goes (hd : Hdr) (d : BitVec 6) (k : BitVec 4) (a : BitVec 6) (s : State) :
    Goes s (execLkrd hd d k a s) := by
  fun_cases execLkrd hd d k a s
  grind [State.xSlot_goes, Memory.wf_illegal, Memory.wf_failAt, Memory.wf_queueFull, State.enqueue_mem]

@[simp] theorem execLinkSnapshot_goes (core : Nat) (s : State) : Goes s (execLinkSnapshot core s) := by
  refine goes_next.mpr fun h => ?_
  dsimp only
  repeat' split
  all_goals grind [Memory.wf_discard, State.setCore_mem, State.xPost_mem, State.dequeue_mem]

/-! ### Close (10 R231, 11 R257) -/

@[simp] theorem execChc_goes (hd : Hdr) (k : BitVec 4) (a b : BitVec 6) (s : State) :
    Goes s (execChc hd k a b s) := by
  refine goes_next.mpr fun h => ?_
  dsimp only
  repeat' split
  all_goals grind [State.stall_mem, State.emptyWit_mem, State.postOnce?_mem, !Memory.wf_blocked,
    Memory.wf_illegal, Memory.wf_failAt, !Memory.wf_queueFull, !State.number_mem, State.giveWit_mem,
    State.owe_mem, State.setCont_mem, State.enqueue_mem]

@[simp] theorem State.closeChain_mem (s : State) (c : Chain) : (s.closeChain c).mem = s.mem := by
  simp [State.closeChain]

@[simp] theorem execChainClose_goes (core : Nat) (s : State) : Goes s (execChainClose core s) := by
  refine goes_next.mpr fun h => ?_
  dsimp only
  repeat' split
  all_goals grind [Memory.wf_discard, State.storeFailed_mem, State.push_mem, State.setCore_mem,
    State.closeChain_mem, State.setChain_mem, !Memory.wf_xFault, State.xPost_mem, State.dequeue_mem]

/-! ### Edge masks (11 R251) -/

@[simp] theorem State.edgeMask_mem (s : State) (y : BitVec 1) (n : BitVec 2) (m : Word) :
    (s.edgeMask y n m).mem = s.mem := by
  fun_cases State.edgeMask s y n m <;> simp

/-! ### Hop tables (10 R223, R224) -/

theorem Memory.wf_hopTable {s : State} (hd : Hdr) (k : BitVec 4) (a : BitVec 6) (h : Memory.wf s.mem = true) :
    Memory.wf (Sum.elim id Prod.fst (s.hopTable hd k a)).mem = true := by
  fun_cases State.hopTable s hd k a <;>
    grind [Memory.wf_syncRead, Sync.state, Memory.wf_failXl, Memory.wf_illegal]

/-! ### CHB (10 R224, R225; 11 R252) -/

theorem Memory.wf_releaseHeld {s : State} (c : Chain) (j : Nat) (h : Memory.wf s.mem = true) :
    Memory.wf (s.releaseHeld c j).mem = true := by
  refine Memory.wf_foldl (fun _ _ => Memory.wf_chainEvent _) _ ?_
  rwa [State.setChain_mem]

theorem Memory.wf_openSlot {s : State} (c : Chain) (j k : Nat) (h : Memory.wf s.mem = true) :
    Memory.wf (s.openSlot c j k).mem = true := by
  fun_cases State.openSlot s c j k
  grind [State.setTile_mem, Memory.wf_releaseHeld, State.announce_mem, State.setCurrent_mem, State.raiseOpenk_mem,
    State.setChain_mem]

@[simp] theorem execChb_goes (hd : Hdr) (k : BitVec 4) (a : BitVec 6) (s : State) :
    Goes s (execChb hd k a s) := by
  fun_cases execChb hd k a s
  grind [State.guarded_goes, Memory.wf_illegal, Memory.wf_hopTable, Memory.wf_openSlot, Memory.wf_freezeIf,
    State.setCurrent_mem]

@[simp] theorem State.countLinks_mem (s : State) (core : Nat) : (s.countLinks core).mem = s.mem :=
  State.foldl_mem (fun _ _ => State.foldl_mem (fun _ _ => by split <;> simp) _ _) _ _

/-! ### Requests to the arbiter (11 R242) -/

theorem Memory.wf_ask {s : State} (c : Chain) (kind : ArbKind) (j : Nat) (h : Memory.wf s.mem = true) :
    Memory.wf ((s.ask c kind j).state s).mem = true := by
  fun_cases State.ask s c kind j <;>
    grind [Memory.wf_arbitrate, State.awaits_mem, State.send_mem, State.stall_mem, Asked.state]

@[simp] theorem execChs_goes (hd : Hdr) (k : BitVec 4) (a : BitVec 6) (s : State) :
    Goes s (execChs hd k a s) := by
  refine State.guarded_goes _ _ fun h => ?_
  dsimp only
  repeat' split
  all_goals grind [Memory.wf_illegal, !Memory.wf_hopTable, !Memory.wf_ask, Asked.state, Memory.wf_fail,
    State.bindSplice_mem, Memory.wf_releaseHeld]

@[simp] theorem execChf_goes (hd : Hdr) (c : BitVec 10) (s : State) : Goes s (execChf hd c s) := by
  fun_cases execChf hd c s
  grind [State.guarded_goes, Memory.wf_illegal, Memory.wf_faultRecord, Memory.wf_ask, Asked.state,
    State.freezeHere_mem]

@[simp] theorem execChx_goes (hd : Hdr) (c : BitVec 10) (s : State) : Goes s (execChx hd c s) := by
  fun_cases execChx hd c s
  grind [State.guarded_goes, Memory.wf_illegal, Memory.wf_ask, Asked.state, State.tellChain_mem,
    State.cancelHere_mem]

@[simp] theorem execCht_goes (hd : Hdr) (d : BitVec 6) (c : BitVec 10) (s : State) :
    Goes s (execCht hd d c s) := by
  fun_cases execCht hd d c s
  grind [State.guarded_goes, Memory.wf_illegal, Memory.wf_ask, Asked.state, Memory.wf_fail, State.sResult_mem]

/-! ### CHQ (10 R237, 11 R256) -/

@[simp] theorem execChq_goes (hd : Hdr) (d a : BitVec 6) (s : State) : Goes s (execChq hd d a s) := by
  fun_cases execChq hd d a s
  grind [State.guarded_goes, Memory.wf_illegal, State.sResult_mem]

end Sys2Proof.Machine
end

section
/-!
# Copy engines, reductions and collectives: memory stays canonical
-/
namespace Sys2Proof.Machine

/-! ### The engines of a die (00 R7; 08 R188) -/

@[simp] theorem State.setHead_mem (s : State) (e : Nat) (c : Cmd) (vals : List Nat) :
    (s.setHead e c vals).mem = s.mem :=
  rfl

@[simp] theorem State.popEngine_mem (s : State) (e : Nat) : (s.popEngine e).mem = s.mem := by
  simp [State.popEngine]

/-! ### Bytes that an engine reaches -/

theorem Memory.wf_putBytes {s : State} (who : Word) (ps : List EPlace) (x : Nat) (h : Memory.wf s.mem = true) :
    Memory.wf (s.putBytes who ps x).mem = true := by
  fun_cases State.putBytes s who ps x <;>
    grind [Memory.wf_dropStale, Memory.wf_stamp, Memory.wf_wrSpans, State.setCore_mem]

@[simp] theorem State.engWait_mem (s : State) (j : Job) (ix off n : Nat) :
    (s.engWait j ix off n).1.mem = s.mem := by
  fun_cases State.engWait s j ix off n <;> grind [State.askWalks_mem]

theorem Memory.wf_engPeer {s : State} (e : Nat) (j : Job) (lease : Nat) (kind : PeerKind) (ix off n x : Nat)
    (h : Memory.wf s.mem = true) :
    Memory.wf (s.engPeer e j lease kind ix off n x).state.mem = true := by
  fun_cases State.engPeer s e j lease kind ix off n x <;>
    grind [State.setEngine_mem, State.toLender_mem, Memory.wf_leaseRefused, Moved.state]

theorem Memory.wf_engRead {s : State} (e : Nat) (j : Job) (c : Option Cmd) (ix off : Nat) (ps : List EPlace)
    (h : Memory.wf s.mem = true) :
    Memory.wf (s.engRead e j c ix off ps).state.mem = true := by
  fun_cases State.engRead s e j c ix off ps <;>
    grind [Memory.wf_engPeer, Moved.state, State.engWait_mem, State.pushEngine_mem]

theorem Memory.wf_engWrite {s : State} (e : Nat) (j : Job) (who : Word) (ix off : Nat) (ps : List EPlace)
    (x : Nat) (h : Memory.wf s.mem = true) :
    Memory.wf (s.engWrite e j who ix off ps x).state.mem = true := by
  fun_cases State.engWrite s e j who ix off ps x <;>
    grind [Memory.wf_engPeer, Moved.state, State.engWait_mem, State.pushEngine_mem, Memory.wf_putBytes]

/-! ### Ends of commands (09 R213, R214) -/

@[simp] theorem State.cmdPost_mem (s : State) (c : Cmd) (post : Option Nat) (f : Option PFault) :
    (s.cmdPost c post f).mem = s.mem := by
  fun_cases State.cmdPost s c post f <;> simp

theorem Memory.wf_wrStatus {s : State} (g : Ending) (w : Nat) (h : Memory.wf s.mem = true) :
    Memory.wf (s.wrStatus g w).state.mem = true := by
  -- opaque reads, so that the kernel does not evaluate a check in comparing branches
  unfold State.wrStatus
  have waited := State.engWait_mem s
  obtain ⟨check, hcheck⟩ : ∃ check, s.check = check := ⟨_, rfl⟩
  obtain ⟨wait, hwait⟩ : ∃ wait, s.engWait = wait := ⟨_, rfl⟩
  obtain ⟨keys, hkeys⟩ : ∃ keys, s.pureKeys = keys := ⟨_, rfl⟩
  rw [hcheck, hwait, hkeys]
  rw [hwait] at waited
  extract_lets c p ix bad
  split
  · exact h
  · exact h
  · exact h
  · exact h
  · split
    · exact h
    · split
      · exact Memory.wf_of_eq (State.setCore_mem ..) h
      · split
        · exact h
        next j _ =>
          split
          · exact h
          · exact h
          next b _ =>
            split
            · have refused := Memory.wf_leaseRefused b.lease none h
              have lent := State.toLender_mem s b.lease j .write [(ptrOff p, 8, w)] (.ending g.eng c.id) none
              split
              next eq => rw [eq] at lent; exact Memory.wf_of_eq lent h
              · exact refused
            · split
              · exact h
              next ks _ =>
                have waited := Memory.wf_of_eq (waited j ix (ptrOff p) 8) h
                extract_lets t
                split
                · exact waited
                · exact Memory.wf_dropStale (Memory.wf_wrSpans _ _ waited)

theorem Memory.wf_failEffects {s : State} (e : Nat) (c : Cmd) (f : EngFail) (h : Memory.wf s.mem = true) :
    Memory.wf (s.failEffects e c f).mem = true := by
  fun_cases State.failEffects s e c f
  grind [Memory.wf_faultRecord, State.storeFailed_mem, State.cmdPost_mem]

theorem Memory.wf_doneEffects {s : State} (c : Cmd) (h : Memory.wf s.mem = true) :
    Memory.wf (s.doneEffects c).mem = true := by
  fun_cases State.doneEffects s c
  grind [Memory.wf_visible, State.cmdPost_mem]

theorem Memory.wf_endEffects {s : State} (g : Ending) (h : Option EngFail) (hs : Memory.wf s.mem = true) :
    Memory.wf (s.endEffects g h).mem = true := by
  fun_cases State.endEffects s g h <;> grind [Memory.wf_doneEffects, Memory.wf_failEffects, Memory.wf_faultRecord]

theorem Memory.wf_endCommand {s : State} (g : Ending) (h : Memory.wf s.mem = true) :
    Memory.wf (s.endCommand g).mem = true := by
  fun_cases State.endCommand s g <;> grind [Memory.wf_wrStatus, Wrote.state, Memory.wf_endEffects, State.push_mem]

@[simp] theorem State.removeCmd_mem (s : State) (e id : Nat) : (s.removeCmd e id).mem = s.mem := by
  fun_cases State.removeCmd s e id <;> simp

theorem Memory.wf_endRest {s : State} (g : Ending) (h : Memory.wf s.mem = true) :
    Memory.wf (s.endRest g).mem = true :=
  Memory.wf_endCommand _ h

theorem Memory.wf_failCmd {s : State} (e : Nat) (c : Cmd) (f : EngFail) (h : Memory.wf s.mem = true) :
    Memory.wf (s.failCmd e c f).mem = true := by
  fun_cases State.failCmd s e c f
  grind [State.popEngine_mem, Memory.wf_endCommand]

@[simp] theorem execDelivered_goes (eng : Nat) (s : State) : Goes s (execDelivered eng s) := by
  fun_cases execDelivered eng s
  grind [State.pushEngine_mem, Memory.wf_endRest, State.popEngine_mem, Memory.wf_endCommand, goes_next]

@[simp] theorem execSourceFree_goes (eng : Nat) (s : State) : Goes s (execSourceFree eng s) := by
  fun_cases execSourceFree eng s
  grind [State.pushEngine_mem, State.setHead_mem, State.cmdPost_mem, goes_next]

/-! ### Copies (09 R211, R212) -/

theorem Memory.wf_copyPiece {s : State} (e : Nat) (c : Cmd) (j : Job) (h : Memory.wf s.mem = true) :
    Memory.wf (s.copyPiece e c j).mem = true := by
  fun_cases State.copyPiece s e c j <;>
    grind [State.pushEngine_mem, State.setHead_mem, Memory.wf_failCmd, Memory.wf_engRead, Moved.state,
      State.setEngine_mem, State.push_mem, Memory.wf_engWrite]

theorem Memory.wf_cmdObserve {s : State} (e : Nat) (c : Cmd) {act : State → Cmd → State}
    (hf : ∀ (t : State) d, Memory.wf t.mem = true → Memory.wf (act t d).mem = true) (h : Memory.wf s.mem = true) :
    Memory.wf (s.cmdObserve e c act).mem = true := by
  fun_cases State.cmdObserve s e c act <;> grind [State.push_mem, Memory.wf_failCmd, State.setHead_mem]

theorem Memory.wf_copyStep {s : State} (e : Nat) (kind : Nat) (h : Memory.wf s.mem = true) :
    Memory.wf (s.copyStep e kind).mem = true := by
  fun_cases State.copyStep s e kind <;> grind [Memory.wf_cmdObserve, Memory.wf_copyPiece]

@[simp] theorem execCopyPerform_goes (eng : Nat) (s : State) : Goes s (execCopyPerform eng s) :=
  goes_next.mpr fun h => Memory.wf_copyStep _ _ h

@[simp] theorem execReduceCopyPerform_goes (eng : Nat) (s : State) : Goes s (execReduceCopyPerform eng s) :=
  goes_next.mpr fun h => Memory.wf_copyStep _ _ h

/-! ### PUB (08 R191, 09 R216) -/

theorem Memory.wf_publishPiece {s : State} (e : Nat) (c : Cmd) (j : Job) (h : Memory.wf s.mem = true) :
    Memory.wf (s.publishPiece e c j).mem = true := by
  fun_cases State.publishPiece s e c j <;>
    grind [Memory.wf_failCmd, State.push_mem, State.setHead_mem, Memory.wf_engRead, Moved.state,
      State.pushEngine_mem, Memory.wf_engWrite]

@[simp] theorem execPublishPerform_goes (eng : Nat) (s : State) : Goes s (execPublishPerform eng s) := by
  fun_cases execPublishPerform eng s
  grind [Memory.wf_cmdObserve, Memory.wf_publishPiece, goes_next]

/-! ### ARM (09 R215) -/

@[simp] theorem execTriggerMet_goes (eng : Nat) (s : State) : Goes s (execTriggerMet eng s) := by
  fun_cases execTriggerMet eng s
  grind [State.push_mem, State.popEngine_mem, Memory.wf_cmdObserve, Memory.wf_failCmd, State.engWait_mem,
    State.setHead_mem, State.cmdPost_mem, goes_next]

/-! ### Entering commands (09 R208 to R210, R218) -/

theorem State.engSlot_goes {s : State} (hd : Hdr) (eng : BitVec 4) (store : Bool) (tsf : Option Nat) (u : Uses)
    {f : State → Nat → State} (hf : ∀ e, Memory.wf s.mem = true → Memory.wf (f s e).mem = true) :
    Goes s (s.engSlot hd eng store tsf u f) := by
  unfold State.engSlot
  simp only [goes_next]
  grind [!Memory.wf_blocked, State.postOnce?_mem, State.stall_mem, State.emptyWit_mem]

@[simp] theorem State.enter_mem (s : State) (hd : Hdr) (e kind : Nat) (desc : List Word) (descPtr : Word)
    (tsf : Option Nat) (store : Bool) :
    (s.enter hd e kind desc descPtr tsf store).mem = s.mem := by
  fun_cases State.enter s hd e kind desc descPtr tsf store <;>
    grind [State.post?_mem, State.number_mem, State.giveWit_mem, State.setEngine_mem, State.pushEngine_mem]

theorem State.copySlot_goes (s : State) (hd : Hdr) (eng : BitVec 4) (a : BitVec 6) (kind : Nat) :
    Goes s (s.copySlot hd eng a kind) := by
  unfold State.copySlot
  dsimp only
  refine State.engSlot_goes _ _ _ _ _ fun e h => ?_
  have read := Memory.wf_syncRead needRW 64 (s.s! a) 64 0 false h
  split
  next eq => rw [eq] at read; exact read
  next eq => rw [eq] at read; exact Memory.wf_failXl _ _ _ read
  next t x eq =>
    rw [eq] at read
    split
    · exact Memory.wf_illegal read
    next j _ =>
      split
      · exact Memory.wf_failAt _ _ read
      · have write := Memory.wf_syncWrite needRW 8 (ptrAdd (s.s! a) 0x38) 8 (0xFF * 2 ^ 56) 1 false read
        dsimp only [Sync.state] at write
        split
        next eq => rw [eq] at write; exact write
        next eq => rw [eq] at write; exact Memory.wf_failXl _ _ _ write
        next eq => rw [eq] at write; rwa [State.enter_mem]

@[simp] theorem execArm_goes (hd : Hdr) (e : BitVec 4) (a b : BitVec 6) (s : State) :
    Goes s (execArm hd e a b s) := by
  fun_cases execArm hd e a b s
  grind [State.engSlot_goes, Memory.wf_illegal, Memory.wf_failAt, State.enter_mem]

@[simp] theorem execEst_goes (hd : Hdr) (d : BitVec 6) (e : BitVec 4) (t : BitVec 5) (s : State) :
    Goes s (execEst hd d e t s) := by
  fun_cases execEst hd d e t s
  grind [State.stall_mem, State.postOnce_mem, Memory.wf_blocked, State.newPost_mem, State.push_mem, goes_next]

/-! ### Tree descriptions (12 R279) -/

theorem Memory.wf_readTree {s : State} (p : Word) (h : Memory.wf s.mem = true) :
    Memory.wf (Sum.elim id Prod.fst (s.readTree p)).mem = true := by
  fun_cases State.readTree s p <;>
    grind [Memory.wf_syncRead, Sync.state, Memory.wf_failXl, Memory.wf_fail, State.stall_mem, Memory.wf_illegal]

/-! ### Routers (12 R280, R281; 13 R298) -/

@[simp] theorem State.sendRound_mem (s : State) (r : Router) (c : Contribution) :
    (s.sendRound r c).mem = s.mem := by
  fun_cases State.sendRound s r c <;> grind [State.push_mem, State.setRouter_mem, State.send_mem]

@[simp] theorem State.tryRound_mem (s : State) (r : Router) : (s.tryRound r).mem = s.mem := by
  fun_cases State.tryRound s r <;> simp

theorem Memory.wf_dropForeign {s : State} (r : Router) (c : Contribution) (h : Memory.wf s.mem = true) :
    Memory.wf (s.dropForeign r c).1.mem = true :=
  Memory.wf_foldl (fun _ _ => Memory.wf_faultRecord _ _) _ h

@[simp] theorem State.contributeTo_mem (s : State) (c : Contribution) : (s.contributeTo c).mem = s.mem := by
  fun_cases State.contributeTo s c <;> grind [State.setRouter_mem, State.push_mem]

@[simp] theorem execRouterTakesContribution_goes (c : Contribution) (s : State) :
    Goes s (execRouterTakesContribution c s) := by
  fun_cases execRouterTakesContribution c s
  grind [State.setRouter_mem, State.push_mem, State.deliver_mem, Memory.wf_dropForeign, State.tryRound_mem,
    goes_next]

@[simp] theorem execReductionPacket_goes (p : TreePacket) (s : State) : Goes s (execReductionPacket p s) := by
  fun_cases execReductionPacket p s
  grind [State.setRouter_mem, Memory.wf_dropForeign, State.tryRound_mem, goes_next]

@[simp] theorem execTreeTimeout_goes (tid node round : Nat) (s : State) :
    Goes s (execTreeTimeout tid node round s) := by
  fun_cases execTreeTimeout tid node round s
  grind [State.sendRound_mem, goes_next]

/-! ### RPSND and RPRCV (13 R296, R297) -/

@[simp] theorem execRpsnd_goes (hd : Hdr) (j a b : BitVec 6) (s : State) : Goes s (execRpsnd hd j a b s) := by
  fun_cases execRpsnd hd j a b s
  grind [State.tokSlot_goes, Memory.wf_readTree, Memory.wf_illegal, State.post?_mem, State.pops_mem,
    State.contributeTo_mem]

@[simp] theorem execRprcv_goes (hd : Hdr) (d a b : BitVec 6) (s : State) : Goes s (execRprcv hd d a b s) := by
  fun_cases execRprcv hd d a b s
  grind [State.tokSlot_goes, Memory.wf_readTree, Memory.wf_illegal, State.post?_mem, State.push_mem]

@[simp] theorem execRoundResultReceive_goes (r : Receive) (s : State) : Goes s (execRoundResultReceive r s) := by
  fun_cases execRoundResultReceive r s
  grind [State.push_mem, State.deliver_mem, State.setRouter_mem, goes_next]

/-! ### What a device remembers of a CID -/

@[simp] theorem State.releasePackets_mem (s : State) (tenant cid seq : BitVec 16) :
    (s.releasePackets tenant cid seq).mem = s.mem :=
  State.foldl_mem (fun _ _ => State.push_mem ..) _ _

/-! ### The end of a run (13 R300, R301) -/

@[simp] theorem State.sendAbort_mem (s : State) (tenant : BitVec 16) (d : List Word)
    (waiter : Option Completion) (dst : Nat) :
    (s.sendAbort tenant d waiter dst).mem = s.mem := by
  fun_cases State.sendAbort s tenant d waiter dst <;> simp

theorem Memory.wf_endHere {s : State} (r : Run) (code : Nat) (f : EngFail) (h : Memory.wf s.mem = true) :
    Memory.wf (s.endHere r code f).mem = true := by
  fun_cases State.endHere s r code f
  grind [State.setCid_mem, Memory.wf_endCommand, State.removeCmd_mem]

theorem Memory.wf_abortHere {s : State} (m : CidMark) (seq : BitVec 16) (h : Memory.wf s.mem = true) :
    Memory.wf (s.abortHere m seq).1.mem = true :=
  Memory.wf_foldl (fun _ _ => Memory.wf_endHere _ _ _) _ (by rwa [State.setCid_mem])

theorem Memory.wf_decideAbort {s : State} (c : CidMark) (m : CollMsg) (h : Memory.wf s.mem = true) :
    Memory.wf (s.decideAbort c m).mem = true := by
  fun_cases State.decideAbort s c m <;> grind [Memory.wf_abortHere, State.send_mem]

theorem Memory.wf_endRun {s : State} (r : Run) (code : Nat) (f : EngFail) (h : Memory.wf s.mem = true) :
    Memory.wf (s.endRun r code f).mem = true := by
  fun_cases State.endRun s r code f <;> grind [Memory.wf_endHere, Memory.wf_decideAbort, State.sendAbort_mem]

theorem Memory.wf_endRunWith {s : State} (r : Run) (code : Nat) (h : Memory.wf s.mem = true) :
    Memory.wf (s.endRunWith r code).mem = true :=
  Memory.wf_endRun _ _ _ h

/-! ### Elements (12 R282 to R284; 13 R300) -/

@[simp] theorem State.elemsWait_mem (s : State) (j : Job) (ps : List Word) (w : Nat) (shadow : Bool) :
    (s.elemsWait j ps w shadow).1.mem = s.mem := by
  unfold State.elemsWait
  refine State.foldl_fst_mem (fun r p => ?_) ps (s, false)
  dsimp only
  split
  · split <;> simp
  · simp

theorem Memory.wf_writeElems {s : State} (j : Job) (who : Word) (w : Nat) (shadow : Bool)
    (l : List (Word × Nat)) (h : Memory.wf s.mem = true) :
    Memory.wf (s.writeElems j who w shadow l).1.mem = true := by
  fun_induction State.writeElems s j who w shadow l <;> grind [Memory.wf_putBytes]

theorem Memory.wf_copyElems {s : State} (j : Job) (who : Word) (d : List Word) (publish : Bool)
    (h : Memory.wf s.mem = true) :
    Memory.wf (s.copyElems j who d publish).1.mem = true := by
  fun_cases State.copyElems s j who d publish <;> grind [Memory.wf_writeElems]

/-! ### The run at the head (13 R300) -/

@[simp] theorem State.sendDigest_mem (s : State) (r : Run) : (s.sendDigest r).mem = s.mem := by
  fun_cases State.sendDigest s r <;> grind [State.send_mem]

theorem Memory.wf_startRun {s : State} (r : Run) (j : Job) (h : Memory.wf s.mem = true) :
    Memory.wf (s.startRun r j).mem = true := by
  fun_cases State.startRun s r j <;>
    grind [State.push_mem, Memory.wf_endRunWith, Memory.wf_endRun, State.setCid_mem, State.releasePackets_mem,
      State.sendDigest_mem, State.setRun_mem]

theorem Memory.wf_mismatch {s : State} (r : Run) (h : Memory.wf s.mem = true) :
    Memory.wf (s.mismatch r).mem = true := by
  fun_cases State.mismatch s r
  grind [State.send_mem, Memory.wf_endRunWith]

theorem Memory.wf_digestsMet {s : State} (r : Run) (j : Job) (h : Memory.wf s.mem = true) :
    Memory.wf (s.digestsMet r j).mem = true := by
  fun_cases State.digestsMet s r j <;>
    grind [Memory.wf_mismatch, State.releasePackets_mem, State.elemsWait_mem, State.push_mem, Memory.wf_copyElems,
      Memory.wf_endRun, State.setRun_mem]

theorem Memory.wf_sendStep {s : State} (r : Run) (j : Job) (h : Memory.wf s.mem = true) :
    Memory.wf (s.sendStep r j).mem = true := by
  fun_cases State.sendStep s r j <;>
    grind [State.elemsWait_mem, State.push_mem, Memory.wf_endRun, Memory.wf_leaseRefused,
      State.releasePackets_mem, State.send_mem, State.setRun_mem]

@[simp] theorem State.stepFailed_mem (s : State) (e : Nat) : ((s.stepFailed e).elim s Prod.fst).mem = s.mem := by
  fun_cases State.stepFailed s e <;> grind [State.setEngine_mem]

@[simp] theorem State.holdMsg_mem (s : State) (e : Event) : (s.holdMsg e).mem = s.mem := rfl

@[simp] theorem State.releaseCommits_mem (s : State) (tenant cid : BitVec 16) :
    (s.releaseCommits tenant cid).mem = s.mem :=
  State.foldl_mem State.push_mem _ _

theorem Memory.wf_commitHere {s : State} (r : Run) (j : Job) (h : Memory.wf s.mem = true) :
    Memory.wf (s.commitHere r j).mem = true := by
  fun_cases State.commitHere s r j <;>
    grind [State.elemsWait_mem, State.push_mem, Memory.wf_copyElems, Memory.wf_endRun]

@[simp] theorem execCollectiveRun_goes (eng : Nat) (s : State) : Goes s (execCollectiveRun eng s) := by
  fun_cases execCollectiveRun eng s
  grind [State.stepFailed_mem, Memory.wf_endRun, State.push_mem, State.setHead_mem, Memory.wf_startRun,
    Memory.wf_digestsMet, State.releasePackets_mem, Memory.wf_sendStep, State.releaseCommits_mem,
    Memory.wf_commitHere, goes_next]

/-! ### Arrivals (12 R283, R284) -/

theorem Memory.wf_takeStep {s : State} (r : Run) (j : Job) (p : RingPacket) (h : Memory.wf s.mem = true) :
    Memory.wf (s.takeStep r j p).mem = true := by
  fun_cases State.takeStep s r j p <;>
    grind [State.elemsWait_mem, State.push_mem, Memory.wf_endRun, Memory.wf_writeElems, State.setRun_mem,
      State.send_mem, State.releaseCommits_mem]

@[simp] theorem State.takeDigest_mem (s : State) (r : Run) (p : RingPacket) : (s.takeDigest r p).mem = s.mem := by
  fun_cases State.takeDigest s r p <;> grind [State.push_mem, State.setRun_mem, State.send_mem]

@[simp] theorem execCollectiveStep_goes (p : RingPacket) (s : State) : Goes s (execCollectiveStep p s) := by
  refine goes_next.mpr fun h => ?_
  dsimp only
  repeat' split
  all_goals grind [State.takeDigest_mem, Memory.wf_mismatch, State.push_mem, State.send_mem, Memory.wf_takeStep]

/-! ### Commit (12 R284) -/

@[simp] theorem State.decideCommit_mem (s : State) (r : Run) : (s.decideCommit r).mem = s.mem := by
  fun_cases State.decideCommit s r
  grind [State.setCid_mem, State.push_mem, State.setRun_mem]

@[simp] theorem execCommit_goes (m : CollMsg) (s : State) : Goes s (execCommit m s) := by
  fun_cases execCommit m s
  grind [State.holdMsg_mem, State.decideCommit_mem, State.send_mem, goes_next]

/-! ### Abort and mismatch (12 R283, R285, R286; 13 R302) -/

@[simp] theorem State.answerAbort_mem (s : State) (m : CollMsg) (code : Nat) :
    (s.answerAbort m code).mem = s.mem := by
  fun_cases State.answerAbort s m code <;> simp

theorem Memory.wf_abortRequest {s : State} (m : CollMsg) (h : Memory.wf s.mem = true) :
    Memory.wf (s.abortRequest m).mem = true := by
  fun_cases State.abortRequest s m <;>
    grind [State.holdMsg_mem, State.send_mem, State.answerAbort_mem, Memory.wf_decideAbort]

@[simp] theorem execAbortRequest_goes (m : CollMsg) (s : State) : Goes s (execAbortRequest m s) :=
  goes_next.mpr fun h => Memory.wf_abortRequest _ h

@[simp] theorem State.noteDecision_mem (s : State) (m : CollMsg) : (s.noteDecision m).mem = s.mem := by
  fun_cases State.noteDecision s m <;> grind [State.holdMsg_mem]

theorem Memory.wf_abortDecision {s : State} (m : CollMsg) (h : Memory.wf s.mem = true) :
    Memory.wf (s.abortDecision m).mem = true := by
  fun_cases State.abortDecision s m <;>
    grind [State.deliver_mem, State.noteDecision_mem, State.send_mem, State.setCid_mem, Memory.wf_abortHere]

@[simp] theorem execAbortDecision_goes (m : CollMsg) (s : State) : Goes s (execAbortDecision m s) :=
  goes_next.mpr fun h => Memory.wf_abortDecision _ h

theorem Memory.wf_mismatchNotice {s : State} (m : CollMsg) (h : Memory.wf s.mem = true) :
    Memory.wf (s.mismatchNotice m).mem = true := by
  fun_cases State.mismatchNotice s m <;>
    grind [State.holdMsg_mem, State.setCid_mem, Memory.wf_endRunWith, State.send_mem]

@[simp] theorem execMismatchNotice_goes (m : CollMsg) (s : State) : Goes s (execMismatchNotice m s) :=
  goes_next.mpr fun h => Memory.wf_mismatchNotice _ h

theorem Memory.wf_takeMsgs {s : State} (tenant cid : BitVec 16) (h : Memory.wf s.mem = true) :
    Memory.wf (s.takeMsgs tenant cid).mem = true := by
  refine Memory.wf_foldl (fun t e ht => ?_) _ h
  split
  · exact Memory.wf_abortRequest _ ht
  · exact Memory.wf_abortDecision _ ht
  · exact Memory.wf_mismatchNotice _ ht
  · exact ht

/-! ### COLL and ABRT (13 R299, R302) -/

@[simp] theorem State.countHeld_mem (s : State) (tenant cid : BitVec 16) (c : CidMark) :
    (s.countHeld tenant cid c).1.mem = s.mem :=
  rfl

theorem Memory.wf_acceptRun {s : State} (e : Nat) (d : List Word) (h : Memory.wf s.mem = true) :
    Memory.wf (s.acceptRun e d).mem = true :=
  Memory.wf_takeMsgs _ _ h

@[simp] theorem execColl_goes (hd : Hdr) (e : BitVec 4) (a : BitVec 6) (s : State) :
    Goes s (execColl hd e a s) := by
  refine State.engSlot_goes _ _ _ _ _ fun e h => ?_
  dsimp only
  repeat' split
  all_goals grind [!Memory.wf_syncRead, Sync.state, Memory.wf_failXl, Memory.wf_illegal, Memory.wf_failAt,
    !Memory.wf_syncWrite, Memory.wf_acceptRun, State.enter_mem]

@[simp] theorem execAbrt_goes (hd : Hdr) (d a : BitVec 6) (s : State) : Goes s (execAbrt hd d a s) := by
  fun_cases execAbrt hd d a s
  grind [State.tokSlot_goes, Memory.wf_syncRead, Sync.state, Memory.wf_failXl, State.post?_mem,
    State.sendAbort_mem]

end Sys2Proof.Machine
end

section
/-!
# System registers, queue images and caches: memory stays canonical
-/
namespace Sys2Proof.Machine

/-! ### System registers (14 R328) -/

@[simp] theorem State.srTok_mem (s : State) (t : Nat) (v : Word) : (s.srTok t v).mem = s.mem := by
  fun_cases State.srTok s t v <;> simp

@[simp] theorem State.setSysReg_mem (s : State) (r : Nat) (v : Word) : (s.setSysReg r v).mem = s.mem := by
  fun_cases State.setSysReg s r v <;> simp

@[simp] theorem execSrrd_goes (hd : Hdr) (d : BitVec 6) (r : BitVec 10) (s : State) :
    Goes s (execSrrd hd d r s) := by
  fun_cases execSrrd hd d r s <;> grind [Memory.wf_illegal, State.guarded_goes, State.sResult_mem, goes_next]

@[simp] theorem execSrwr_goes (hd : Hdr) (r : BitVec 10) (a : BitVec 6) (s : State) :
    Goes s (execSrwr hd r a s) := by
  fun_cases execSrwr hd r a s <;> grind [Memory.wf_illegal, State.guarded_goes, State.setSysReg_mem, goes_next]

/-! ### Held engines (14 R319, R320) -/

@[simp] theorem State.releaseEngine_mem (s : State) (e : Nat) : (s.releaseEngine e).mem = s.mem := by
  simp [State.releaseEngine]

@[simp] theorem State.releaseEngines_mem (s : State) : s.releaseEngines.mem = s.mem :=
  State.foldl_mem (fun _ _ => by split <;> simp) _ _

@[simp] theorem execEqrd_goes (hd : Hdr) (d : BitVec 6) (e : BitVec 4) (a : BitVec 6) (s : State) :
    Goes s (execEqrd hd d e a s) := by
  fun_cases execEqrd hd d e a s
  grind [State.guarded_goes, Memory.wf_illegal, State.stall_mem, State.setEngine_mem, Memory.wf_syncAt,
    Sync.state, Memory.wf_syncPeer, Memory.wf_wrThrough, State.setStore_mem, Memory.wf_failXl, State.sResult_mem]

/-! ### Rebuilding a queue (14 R321) -/

@[simp] theorem State.givePost_mem (s : State) (pa member : Nat) (q : Posting) :
    (s.givePost pa member q).mem = s.mem := by
  fun_cases State.givePost s pa member q <;> simp

@[simp] theorem State.takePost_mem (s : State) (id old : Nat) : (s.takePost id old).1.mem = s.mem := by
  fun_cases State.takePost s id old <;> simp

@[simp] theorem State.rePost_mem (s : State) (what : Option (Nat × BitVec 16)) (post : Option Nat)
    (old new : Nat) (anew : Bool) :
    (s.rePost what post old new anew).1.mem = s.mem := by
  fun_cases State.rePost s what post old new anew <;> grind [State.takePost_mem, State.givePost_mem]

@[simp] theorem State.toRecord_mem (s : State) (c : Cmd) (ptr : Word) (pa : Nat) (anew : Bool) :
    (s.toRecord c ptr pa anew).1.mem = s.mem := by
  fun_cases State.toRecord s c ptr pa anew
  grind [State.rePost_mem]

theorem Memory.wf_recordsOf {s : State} (j : Job) (l : List (Nat × Cmd)) (h : Memory.wf s.mem = true) :
    Memory.wf (s.recordsOf j l).1.mem = true := by
  fun_induction State.recordsOf s j l <;> grind [Memory.wf_recordKey]

theorem Memory.wf_imagesOf {s : State} (j : Job) (xs : List Nat) (h : Memory.wf s.mem = true) :
    Memory.wf (s.imagesOf j xs).1.mem = true := by
  fun_cases State.imagesOf s j xs <;> grind [Memory.wf_recordsOf]

theorem Memory.wf_cancelCmd {s : State} (e : Nat) (c : Cmd) (h : Memory.wf s.mem = true) :
    Memory.wf (s.cancelCmd e c).mem = true := by
  fun_cases State.cancelCmd s e c <;> grind [Memory.wf_endRun, Memory.wf_endCommand]

@[simp] theorem State.resumeRun_mem (s : State) (e : Nat) (c : Cmd) (prog : Nat) :
    (s.resumeRun e c prog).mem = s.mem := by
  fun_cases State.resumeRun s e c prog <;> simp

theorem Memory.wf_rebuild {s : State} (e : Nat) (cs : List (Nat × Cmd × Word × Nat))
    (h : Memory.wf s.mem = true) :
    Memory.wf (s.rebuild e cs).mem = true := by
  unfold State.rebuild
  extract_lets job copies r s₁ others gone s₂ s₃
  have rebuilt : r.1.mem = s.mem := by
    refine State.foldl_fst_mem (fun a d => ?_) cs _
    exact State.toRecord_mem a.1 d.2.1 d.2.2.1 d.2.2.2 _
  rw [State.releaseEngine_mem, State.foldl_mem fun _ _ => State.resumeRun_mem .., State.setEngine_mem]
  exact Memory.wf_foldl (fun _ _ => Memory.wf_cancelCmd _ _) _ (by rwa [rebuilt])

@[simp] theorem execEqwr_goes (hd : Hdr) (e : BitVec 4) (a b : BitVec 6) (s : State) :
    Goes s (execEqwr hd e a b s) := by
  fun_cases execEqwr hd e a b s
  grind [State.guarded_goes, Memory.wf_illegal, Memory.wf_failAt, Memory.wf_syncRead, Sync.state,
    Memory.wf_failXl, Memory.wf_imagesOf, Memory.wf_fail, Memory.wf_rebuild]

/-! ### Leaving the handler (14 R310) -/

@[simp] theorem State.leaveHandler_mem (s : State) : s.leaveHandler.mem = s.mem :=
  State.foldl_mem (fun _ _ => State.setCore_mem ..) _ _

theorem Memory.wf_eretResume {s : State} (sub : Bool) (h : Memory.wf s.mem = true) :
    Memory.wf (s.eretResume sub).mem = true := by
  fun_cases State.eretResume s sub <;> grind [State.leaveHandler_mem, State.setSys_mem, Memory.wf_onYield]

theorem Memory.wf_eret {s : State} (sub : Bool) (h : Memory.wf s.mem = true) :
    Memory.wf (s.eret sub).mem = true := by
  have landed (t : State) (ids : List Nat) :
      (ids.foldl (fun s id => s.setCore ((s.coreOf id).landAll s.tick)) t).mem = t.mem :=
    State.foldl_mem (fun _ _ => State.setCore_mem ..) _ _
  fun_cases State.eret s sub <;>
    grind [Memory.wf_illegal, State.stall_mem, State.afterSlots_mem, State.setCore_mem, State.releaseEngines_mem,
      Memory.wf_eretResume, State.leaveHandler_mem, Memory.wf_switchOut, Memory.wf_freeze, State.raiseTo_mem,
      State.beginDrain_mem, State.setPipe_mem]

@[simp] theorem execEret_goes (hd : Hdr) (s : State) : Goes s (execEret hd s) := by
  fun_cases execEret hd s
  grind [State.guarded_goes, Memory.wf_eret]

@[simp] theorem execEretS_goes (hd : Hdr) (s : State) : Goes s (execEretS hd s) := by
  fun_cases execEretS hd s
  grind [State.guarded_goes, Memory.wf_eret]

/-! ### Dropping what caches and ports hold (14 R326) -/

theorem Memory.wf_dropCode {s : State} (scope : Nat) (ks : List (Nat × Nat)) (h : Memory.wf s.mem = true) :
    Memory.wf (s.dropCode scope ks).mem = true :=
  h

@[simp] theorem execIcinv_goes (hd : Hdr) (c : BitVec 2) (a b : BitVec 6) (s : State) :
    Goes s (execIcinv hd c a b s) := by
  fun_cases execIcinv hd c a b s <;>
    grind [Memory.wf_illegal, State.guarded_goes, Memory.wf_failAt, State.stall_mem, Memory.wf_dropCode,
      goes_next]

theorem Memory.wf_putInterleave {s : State} (key : Nat) (f : Nat × Nat × Nat) (h : Memory.wf s.mem = true) :
    Memory.wf (s.putInterleave key f).mem = true :=
  Memory.wf_wr _ _ _ h

theorem Memory.wf_reinterleave {s : State} (j : Job) (ix : Nat) (n : Nat) (h : Memory.wf s.mem = true) :
    Memory.wf (s.reinterleave j ix n).mem = true := by
  fun_induction State.reinterleave s j ix n <;> grind [Memory.wf_putInterleave]

@[simp] theorem State.moveAccesses_mem (s : State) : s.moveAccesses.mem = s.mem := rfl

theorem Memory.wf_reinterleaveJob {s : State} (j : Job) (h : Memory.wf s.mem = true) :
    Memory.wf (s.reinterleaveJob j).mem = true := by
  unfold State.reinterleaveJob
  split
  · exact h
  · exact Memory.wf_foldl (fun _ _ => Memory.wf_reinterleave _ _ _) _ h

@[simp] theorem execBtinv_goes (hd : Hdr) (s : State) : Goes s (execBtinv hd s) := by
  refine State.guarded_goes _ _ fun h => ?_
  dsimp only
  repeat' split
  all_goals grind [Memory.wf_illegal, State.stall_mem, Memory.wf_reinterleaveJob, Memory.wf]

theorem Memory.wf_renewTables {s : State} (tenant va n : Nat) (h : Memory.wf s.mem = true) :
    Memory.wf (s.renewTables tenant va n).mem = true :=
  h

@[simp] theorem execTlbinv_goes (hd : Hdr) (a b : BitVec 6) (s : State) : Goes s (execTlbinv hd a b s) := by
  refine State.guarded_goes _ _ fun h => ?_
  dsimp only
  repeat' split
  all_goals grind [Memory.wf_illegal, Memory.wf_renewTables, Memory.wf]

@[simp] theorem execImm_goes (_val : BitVec 20) (s : State) : Goes s (execImm _val s) :=
  goes_next.mpr fun h => Memory.wf_fail _ _ _ h

end Sys2Proof.Machine
end

section
/-!
# Issue, the life of a continuation, and the events of the device: memory stays canonical
-/
namespace Sys2Proof.Machine

/-! ### The checks before the slots issue (04 R85) -/

theorem Memory.wf_bundleTrap {s : State} (cause : Cause) (slot : Nat) (mask : BitVec 8) (tval : Word)
    (xl : Option (Nat × Word)) (h : Memory.wf s.mem = true) :
    Memory.wf (s.bundleTrap cause slot mask tval xl).mem = true :=
  Memory.wf_trap _ _ _ _ _ _ h

@[simp] theorem execRunOverrun_goes (s : State) : Goes s (execRunOverrun s) := by
  fun_cases execRunOverrun s
  grind [Memory.wf_overrun, goes_next]

@[simp] theorem execMolcExpiry_goes (s : State) : Goes s (execMolcExpiry s) := by
  refine goes_next.mpr fun h => ?_
  split
  · refine Memory.wf_overrun ?_
    rwa [State.foldl_mem fun _ _ => State.cancelChains_mem ..]
  · exact h

@[simp] theorem execResultLanding_goes (s : State) : Goes s (execResultLanding s) := by simp [execResultLanding]

theorem Memory.wf_decodeAt {s : State} (ws : List SlotWord) (h : Memory.wf s.mem = true) :
    Memory.wf (s.decodeAt ws).mem = true := by
  fun_cases State.decodeAt s ws <;> grind [Memory.wf_bundleTrap, State.setPipe_mem]

theorem Memory.wf_fetchThrough {s : State} (o : ObjInfo) (pc n : Nat) {go : State → State}
    (hf : Memory.wf (go s).mem = true) (h : Memory.wf s.mem = true) :
    Memory.wf (s.fetchThrough o pc n go).mem = true := by
  fun_cases State.fetchThrough s o pc n go <;> grind [Memory.wf_bundleTrap, !State.askWalks_mem, State.stall_mem]

theorem Memory.wf_fetchBundle {s : State} (h : Memory.wf s.mem = true) : Memory.wf s.fetchBundle.mem = true := by
  fun_cases State.fetchBundle s <;>
    grind [Memory.wf_bundleTrap, Memory.wf_overrun, Memory.wf_fetchThrough, Memory.wf_decodeAt]

theorem Memory.wf_landingTrap {s : State} (off : Bool) (fs : List (Nat × Word)) (h : Memory.wf s.mem = true) :
    Memory.wf (s.landingTrap off fs).mem = true := by
  unfold State.landingTrap
  split
  · exact h
  · refine Memory.wf_trap _ _ _ _ _ _ ?_
    rwa [State.focus_mem, State.foldl_mem fun _ _ => State.setCore_mem .., State.setPipe_mem]

@[simp] theorem State.startBundle_mem (s : State) : s.startBundle.mem = s.mem := rfl

theorem Memory.wf_unlessTrapped {s : State} {f : State → Out} (hf : Goes s (f s)) (h : Memory.wf s.mem = true) :
    Memory.wf (s.unlessTrapped f).mem = true := by
  obtain ⟨t, ht, hw⟩ := hf
  unfold State.unlessTrapped
  split
  · rw [ht]; exact hw h
  · exact h

@[simp] theorem execBundleIssue_goes (s : State) : Goes s (execBundleIssue s) := by
  fun_cases execBundleIssue s
  grind [State.startBundle_mem, Memory.wf_unlessTrapped, execRunOverrun_goes, execMolcExpiry_goes,
    Memory.wf_landingTrap, execResultLanding_goes, Memory.wf_fetchBundle, goes_next]

/-! ### The slots of a bundle (04 R84, R85; 14 R304) -/

theorem State.slot_goes {run : Runs} (hr : ∀ i t, Goes t (run i t)) (s : State) (q : Nat × Instr) :
    Goes s (s.slot run q) := by
  have := hr q.2 (s.setPipe { s.core.pipe with slot := q.1, status := .ok, fails := [], xl := none })
  exact this.congr (State.setPipe_mem ..)

@[simp] theorem State.marked_mem (s : State) (ms : List Later) : (s.marked ms).mem = s.mem := rfl

theorem State.probe_keeps {run : Runs} (hr : ∀ i t, Goes t (run i t)) (s : State) (id : Nat) (ms : List Later)
    (qs : List (Nat × Instr)) :
    (s.probe run id ms qs).Keeps s := by
  induction qs generalizing ms with
  | nil => trivial
  | cons q qs ih =>
    obtain ⟨t, eq, ht⟩ := (State.slot_goes hr ((s.focus id).marked ms) q).congr (s := s)
      (by rw [State.marked_mem, State.focus_mem])
    unfold State.probe
    simp only [eq]
    split
    next failed =>
      have rest := ih ms
      split
      · trivial
      next eq => rwa [eq] at rest
      · trivial
    next sound =>
      have rest := ih (if (t.coreOf id).pipe.fails = [] then
        marksOf (ms ++ (t.coreOf id).pipe.later).eraseDups else ms)
      split
      · split
        · exact ht
        · exact ht
        · exact rest
      · exact rest

@[simp] theorem State.held_mem (s : State) (cap : Nat) : (s.held cap).mem = s.mem := by
  rw [State.held, State.foldl_mem fun _ _ => State.setCore_mem .., State.focus_mem]

theorem State.trapBy_goes {run : Runs} (hr : ∀ i t, Goes t (run i t)) (s : State)
    (fs : List (Nat × List ((Nat × Instr) × List Later))) :
    Goes s (s.trapBy run fs) := by
  unfold State.trapBy
  split
  · exact (State.slot_goes hr _ _).congr (by rw [State.setPipe_mem, State.focus_mem])
  · simp

theorem State.runSlots_goes {run : Runs} (hr : ∀ i t, Goes t (run i t)) (s : State) (qs : List (Nat × Instr)) :
    Goes s (s.runSlots run qs) := by
  induction qs generalizing s with
  | nil => simp [State.runSlots]
  | cons q qs ih =>
    obtain ⟨t, eq, ht⟩ := State.slot_goes hr s q
    rw [State.runSlots]
    simp only [eq]
    split
    · exact goes_next.mpr ht
    · exact (ih t).after ht

theorem State.runMembers_goes {run : Runs} (hr : ∀ i t, Goes t (run i t)) (s : State) (ids : List Nat) :
    Goes s (s.runMembers run ids) := by
  induction ids generalizing s with
  | nil => simp [State.runMembers]
  | cons id ids ih =>
    obtain ⟨t, eq, ht⟩ := (State.runSlots_goes hr (s.focus id)
      ((s.slotsOf id).filter fun q => !Instr.whole q.2)).congr (State.focus_mem s id)
    rw [State.runMembers]
    simp only [eq]
    split
    · exact goes_next.mpr ht
    · exact ((ih (t.focus s.core.id)).congr (State.focus_mem t _)).after ht

/-! ### The end of a bundle -/

@[simp] theorem State.commit_mem (s : State) : s.commit.mem = s.mem :=
  State.foldl_mem (fun _ _ => State.setCore_mem ..) _ _

@[simp] theorem State.advance_mem (s : State) (n : Nat) : (s.advance n).mem = s.mem :=
  State.foldl_mem (fun _ _ => State.setCore_mem ..) _ _

@[simp] theorem State.disarm_mem (s : State) : s.disarm.mem = s.mem := rfl

theorem Memory.wf_endBundle {s : State} (handler : Bool) (h : Memory.wf s.mem = true) :
    Memory.wf (s.endBundle handler).mem = true := by
  fun_cases State.endBundle s handler <;>
    grind [State.charge_mem, State.advance_mem, State.disarm_mem, Memory.wf_trap, State.setPipe_mem]

@[simp] theorem State.countBundle_mem (s : State) : s.countBundle.mem = s.mem :=
  State.foldl_mem State.countLinks_mem _ _

theorem State.issueSlots_goes {run : Runs} (hr : ∀ i t, Goes t (run i t)) (s : State) :
    Goes s (s.issueSlots run) := by
  unfold State.issueSlots
  extract_lets cap handler ps
  split
  · exact goes_next.mpr (Memory.wf_bundleTrap _ _ _ _ _)
  · have probed : ∀ p ∈ ps, p.2.Keeps s := by
      intro p hp
      obtain ⟨id, -, rfl⟩ := List.mem_map.mp hp
      exact State.probe_keeps hr s id [] _
    clear_value ps
    split
    next o eq =>
      obtain ⟨p, hp, stops⟩ := List.exists_of_findSome?_eq_some eq
      have kept := probed p hp
      split at stops
      next eq => rw [eq] at kept; exact kept.elim
      · cases stops
    · split
      · exact State.trapBy_goes hr s _
      · split
        next t eq =>
          obtain ⟨p, hp, holds⟩ := List.exists_of_findSome?_eq_some eq
          have kept := probed p hp
          split at holds
          next eq =>
            rw [eq] at kept
            obtain rfl := Option.some.inj holds
            rw [goes_next, State.held_mem]
            exact kept
          · cases holds
        · obtain ⟨t, eq, ht⟩ := State.runMembers_goes hr s s.core.members
          rw [eq]
          dsimp only
          split
          · exact goes_next.mpr fun h => h
          · have counted : Memory.wf s.mem = true → Memory.wf (if handler then (t.focus cap).commit
                else (t.focus cap).commit.countBundle).mem = true := by
              intro h
              split <;> simpa using ht h
            obtain ⟨u, eq, hu⟩ := (State.runSlots_goes hr _
              (s.core.pipe.bundle.filter fun q => Instr.whole q.2)).after counted
            rw [eq]
            dsimp only
            split
            · exact goes_next.mpr fun h => h
            split
            · exact goes_next.mpr hu
            split
            · exact goes_next.mpr (Memory.wf_landingTrap _ _)
            · exact goes_next.mpr fun h => Memory.wf_endBundle _ (hu h)

theorem State.issue_goes {run : Runs} (hr : ∀ i t, Goes t (run i t)) (s : State) : Goes s (s.issue run) := by
  unfold State.issue
  obtain ⟨t, eq, ht⟩ := execBundleIssue_goes s
  simp only [eq]
  split
  · exact goes_next.mpr ht
  · refine (State.issueSlots_goes hr _).after fun h => ?_
    refine Memory.wf_foldl (fun _ _ => Memory.wf_onCore _ fun v hv => ?_) _
      (Memory.wf_foldl (fun _ _ => Memory.wf_onCore _ fun v hv => ?_) _ (ht h))
    · rwa [State.setPipe_mem]
    · exact Memory.wf_of_eq (State.startBundle_mem v) hv

/-! ### Completions (05 R107, R108; 14 R314) -/

@[simp] theorem State.noteRemote_mem (s : State) (c : Completion) : (s.noteRemote c).mem = s.mem := by
  fun_cases State.noteRemote s c <;> simp

@[simp] theorem execTokenedOperationComplete_goes (c : Completion) (s : State) :
    Goes s (execTokenedOperationComplete c s) := by
  fun_cases execTokenedOperationComplete c s
  grind [State.setCore_mem, State.noteRemote_mem, goes_next]

theorem Memory.wf_landFrame {s : State} (j : Job) (frame : Word) (at' : Nat) (w : Write)
    (h : Memory.wf s.mem = true) :
    Memory.wf (s.landFrame j frame at' w).mem = true := by
  fun_cases State.landFrame s j frame at' w <;> grind [Memory.wf_wrFrame]

theorem Memory.wf_endRemote {s : State} (r : Rec) (member : Nat) (p : Posting) (h : Memory.wf s.mem = true) :
    Memory.wf (s.endRemote r member p).mem = true := by
  fun_cases State.endRemote s r member p <;> grind [State.setRec_mem, State.push_mem, Memory.wf_retireRec]

theorem Memory.wf_landRemote {s : State} (j : Job) (r : Rec) (member : Nat) (p : Posting) (frame : Word)
    (h : Memory.wf s.mem = true) :
    Memory.wf (s.landRemote j r member p frame).1.mem = true :=
  Memory.wf_foldl (fun _ _ => Memory.wf_landFrame _ _ _ _) _ h

@[simp] theorem execRemoteCompletion_goes (c : Completion) (s : State) : Goes s (execRemoteCompletion c s) := by
  unfold execRemoteCompletion
  rw [goes_next]
  intro h
  split
  · next r id _ _ =>
    split
    next d p j _ _ =>
      extract_lets frame a off
      have read := Memory.wf_rdPtr j needL (ptrAdd frame (a + off)) 16 h
      split
      · exact h
      · split
        · exact Memory.wf_endRemote _ _ _ h
        · split
          next eq => rw [eq] at read; exact Memory.wf_endRemote _ _ _ read
          next eq =>
            rw [eq] at read
            exact Memory.wf_endRemote _ _ _ (Memory.wf_wrFrame _ _ _ _ (Memory.wf_landRemote _ _ _ _ _ read))
    · exact h
  · exact h

/-! ### Dispatch (03 R61 to R67) -/

@[simp] theorem execDispatch_goes (core : Nat) (s : State) : Goes s (execDispatch core s) :=
  goes_next.mpr fun h => Memory.wf_takeNext _ h

@[simp] theorem execGangDispatch_goes (recPa : Nat) (s : State) : Goes s (execGangDispatch recPa s) := by
  fun_cases execGangDispatch recPa s
  grind [Memory.wf_dispatchOn, goes_next]

/-! ### Waits (06 R125, R126; 12 R278; 13 R292) -/

@[simp] theorem execSuspendedWaitSatisfied_goes (recPa : Nat) (s : State) :
    Goes s (execSuspendedWaitSatisfied recPa s) := by
  fun_cases execSuspendedWaitSatisfied recPa s
  grind [Memory.wf_retireRec, State.setRec_mem, Memory.wf_setField, Memory.wf_replace, State.push_mem, goes_next]

@[simp] theorem execGangSyncRelease_goes (core : Nat) (s : State) : Goes s (execGangSyncRelease core s) := by
  refine goes_next.mpr fun h => ?_
  dsimp only
  split
  · exact h
  · rwa [State.foldl_mem fun _ _ => State.setCore_mem ..]

/-! ### Drains and retirement (06 R123; 15 R330, R331) -/

@[simp] theorem execExitDrainComplete_goes (core : Nat) (s : State) : Goes s (execExitDrainComplete core s) := by
  fun_cases execExitDrainComplete core s
  grind [Memory.wf_onCore, Memory.wf_retireNow, State.push_mem, goes_next]

theorem Memory.wf_cancelEntry {s : State} (e : Nat) (c : Cmd) (h : Memory.wf s.mem = true) :
    Memory.wf (s.cancelEntry e c).mem = true := by
  fun_cases State.cancelEntry s e c
  grind [State.removeCmd_mem, Memory.wf_cancelCmd]

theorem Memory.wf_cancelEntries {s : State} (pa : Nat) (h : Memory.wf s.mem = true) :
    Memory.wf (s.cancelEntries pa).1.mem = true := by
  unfold State.cancelEntries
  exact Memory.wf_foldl_fst (fun r _ => Memory.wf_foldl (fun _ _ => Memory.wf_cancelEntry _ _) _) _ h

@[simp] theorem execCancelStop_goes (core : Nat) (s : State) : Goes s (execCancelStop core s) := by
  unfold execCancelStop
  rw [goes_next]
  refine Memory.wf_onCore _ fun s h => ?_
  extract_lets c s₁ s₂ s₃ s₄
  split
  · exact h
  · have stopped : s₃.mem = s.mem := by
      rw [State.foldl_mem fun _ _ => State.setCore_mem .., State.releaseEngines_mem]
      exact State.foldl_mem (fun t id => State.cancelChains_mem t id c.cont.recPa) _ _
    have raised : s₄.mem = s.mem := by
      unfold s₄
      split
      · exact stopped
      · rw [State.raiseTo_mem, stopped]
    have ended := Memory.wf_cancelEntries c.cont.recPa (Memory.wf_of_eq raised h)
    split <;> next eq => rw [eq] at ended; simpa using ended

theorem Memory.wf_cancelTriggers {s : State} (pa : Nat) (h : Memory.wf s.mem = true) :
    Memory.wf (s.cancelTriggers pa).mem = true := by
  refine Memory.wf_foldl (fun t e ht => ?_) _ h
  dsimp only
  split
  · exact ht
  · exact Memory.wf_foldl (fun _ _ => Memory.wf_cancelEntry _ _) _ ht

@[simp] theorem execRetirementDecrement_goes (recPa : Nat) (s : State) :
    Goes s (execRetirementDecrement recPa s) := by
  fun_cases execRetirementDecrement recPa s
  grind [Memory.wf_cancelTriggers, Memory.wf_doTodos, State.push_mem, goes_next]

/-! ### The record of a SPAWN (06 R124) -/

@[simp] theorem State.dropSpawn_mem (s : State) (p : SpawnOp) : (s.dropSpawn p).mem = s.mem := rfl

theorem Memory.wf_endSpawn {s : State} (p : SpawnOp) (f : Option (Cause × Word × Nat))
    (h : Memory.wf s.mem = true) :
    Memory.wf (s.endSpawn p f).mem = true := by
  fun_cases State.endSpawn s p f <;> grind [State.deliver_mem, Memory.wf_faultRecord, State.dropSpawn_mem]

theorem Memory.wf_writeSpawn {s : State} (p : SpawnOp) (j : Job) (pa : Nat) (h : Memory.wf s.mem = true) :
    Memory.wf (s.writeSpawn p j pa).mem = true := by
  fun_cases State.writeSpawn s p j pa <;>
    grind [Memory.wf_endSpawn, State.dropSpawn_mem, Memory.wf_wrRec, Memory.wf_setField, Memory.wf_resolve,
      Memory.wf_wrSpans, Memory.wf_wr]

@[simp] theorem execSpawnRecordWrite_goes (p : SpawnOp) (s : State) : Goes s (execSpawnRecordWrite p s) := by
  fun_cases execSpawnRecordWrite p s
  grind [State.dropSpawn_mem, State.push_mem, Memory.wf_recordKey, Memory.wf_endSpawn, Memory.wf_writeSpawn,
    goes_next]

/-! ### Device -/

@[simp] theorem State.refuse_mem (s : State) : s.refuse.mem = s.mem := rfl

/-! ### The rings (03 R52 to R54) -/

@[simp] theorem State.respond_mem (s : State) (result cluster : Nat) : (s.respond result cluster).mem = s.mem :=
  rfl

theorem Memory.wf_acceptJob {s : State} (pa slice gres : Nat) (h : Memory.wf s.mem = true) :
    Memory.wf (s.acceptJob pa slice gres).mem = true :=
  Memory.wf_doTodos _ (Memory.wf_setField _ _ _ _ _ h)

@[simp] theorem execSubmit_goes (s : State) : Goes s (execSubmit s) := by
  fun_cases execSubmit s
  grind [State.respond_mem, Memory.wf_acceptJob, goes_next]

@[simp] theorem execCancel_goes (s : State) : Goes s (execCancel s) := by
  fun_cases execCancel s
  grind [State.respond_mem, Memory.wf_doTodos, goes_next]

@[simp] theorem execResponseWrite_goes (s : State) : Goes s (execResponseWrite s) := by
  fun_cases execResponseWrite s
  grind [Memory.wf_wr, State.setSched_mem, State.setHost_mem, goes_next]

@[simp] theorem execSqsize_goes (v : Word) (s : State) : Goes s (execSqsize v s) := by
  fun_cases execSqsize v s
  grind [State.refuse_mem, State.setHost_mem, goes_next]

/-! ### Forced pre-emption, resumption, cancels by record (14 R312, R318; 15 R331) -/

@[simp] theorem State.endPrq_mem (s : State) : s.endPrq.mem = s.mem := by
  fun_cases State.endPrq s <;> simp

@[simp] theorem execPrq_goes (v : Word) (s : State) : Goes s (execPrq v s) := by
  fun_cases execPrq v s
  grind [State.setHost_mem, goes_next]

@[simp] theorem execResume_goes (v : Word) (s : State) : Goes s (execResume v s) := by
  fun_cases execResume v s
  grind [Memory.wf_setField, State.setRec_mem, Memory.wf_replace, goes_next]

theorem Memory.wf_belongs {s : State} (j : Job) (n : Nat) (m : Nat) (h : Memory.wf s.mem = true) :
    Memory.wf (s.belongs j n m).1.mem = true := by
  fun_induction State.belongs s j n m <;> grind [Memory.wf_recordKey]

@[simp] theorem execLcancel_goes (v : Word) (s : State) : Goes s (execLcancel v s) := by
  unfold execLcancel
  rw [goes_next]
  intro h
  extract_lets pa r
  split
  · exact h
  · have found : Memory.wf r.1.mem = true := by
      refine Memory.wf_foldl_fst (fun r j hr => ?_) _ h
      split
      · exact hr
      · exact Memory.wf_belongs _ _ _ hr
    split
    · exact Memory.wf_doTodos _ found
    · rwa [State.refuse_mem]

/-! ### Attestation (15 R339) -/

@[simp] theorem execAttreq_goes (v : Word) (s : State) : Goes s (execAttreq v s) := by
  unfold execAttreq
  rw [goes_next]
  intro h
  split
  · exact h
  · exact Memory.wf_dropStale (Memory.wf_wr _ _ _ h)

/-! ### Host registers without behaviour of their own (03 R52; 08 R165, R192; 15 R329) -/

@[simp] theorem State.hostIf_mem (s : State) (ok : Bool) (h : HostRegs) : (s.hostIf ok h).mem = s.mem := by
  fun_cases State.hostIf s ok h <;> simp

theorem Memory.wf_keepRoots {s : State} (h : Memory.wf s.mem = true) : Memory.wf s.keepRoots.mem = true := by
  unfold State.keepRoots; split <;> exact h

@[simp] theorem execHostRegisterWrite_goes (off : Nat) (v : Word) (s : State) :
    Goes s (execHostRegisterWrite off v s) := by
  fun_cases execHostRegisterWrite off v s <;>
    grind [State.setHost_mem, State.refuse_mem, execSqsize_goes, execPrq_goes, execResume_goes, execLcancel_goes,
      State.hostIf_mem, execAttreq_goes, Memory.wf_keepRoots, goes_next]

@[simp] theorem execSlotTableFrameStart_goes (die : Nat) (s : State) :
    Goes s (execSlotTableFrameStart die s) := by
  simp [execSlotTableFrameStart]

/-! ### Companion writes (01 R23) -/

theorem Memory.wf_companionWrite {s : State} (found : State) (a : Nat) (l : List Byte)
    (h : Memory.wf s.mem = true) :
    Memory.wf (s.companionWrite found a l).1.mem = true := by
  fun_induction State.companionWrite s found a l <;> grind [Memory.wf_wr]

@[simp] theorem execOnlimirWrite_goes (addr : Nat) (data : List Byte) (s : State) :
    Goes s (execOnlimirWrite addr data s) := by
  fun_cases execOnlimirWrite addr data s
  grind [Memory.wf_mustWait, Memory.wf_companionWrite, State.refuse_mem, Memory.wf_healLines, Memory.wf_dropStale,
    goes_next]

/-! ### Firmware's retirements (03 R68, R70; 08 R177, R178) -/

theorem Memory.wf_retireCore {s : State} (core : Nat) (h : Memory.wf s.mem = true) :
    Memory.wf (s.retireCore core).mem = true := by
  have placed (j : Job) (rs : List Rec) {t : State} (ht : Memory.wf t.mem = true) :
      Memory.wf (rs.foldl (fun s r => s.replace j r) t).mem = true :=
    Memory.wf_foldl (fun _ _ => Memory.wf_replace _ _) _ ht
  unfold State.retireCore
  dsimp only
  split
  · exact h
  · split
    · split
      · exact h
      · exact placed _ _ h
    · exact h

@[simp] theorem execCoreRetire_goes (core : Nat) (s : State) : Goes s (execCoreRetire core s) := by
  fun_cases execCoreRetire core s
  grind [Memory.wf_retireCore, State.setSched_mem, State.push_mem, goes_next]

@[simp] theorem execChannelRetireHold_goes (stack chan : Nat) (s : State) :
    Goes s (execChannelRetireHold stack chan s) := by
  unfold execChannelRetireHold
  rw [goes_next]
  intro h
  split
  · exact h
  · exact Memory.wf_of_eq (State.push_mem ..) h

@[simp] theorem State.setRetpc_mem (s : State) (stack chan : Nat) : (s.setRetpc stack chan).mem = s.mem := rfl

@[simp] theorem execChannelMigration_goes (stack chan : Nat) (s : State) :
    Goes s (execChannelMigration stack chan s) := by
  unfold execChannelMigration
  rw [goes_next]
  intro h
  extract_lets s₁ s₂
  split
  · exact h
  · have moved : Memory.wf s₂.mem = true := by
      rw [State.numberPorts_mem, State.moveAccesses_mem]
      exact Memory.wf_foldl (fun _ _ => Memory.wf_reinterleaveJob _) _ (by rwa [State.setRetpc_mem])
    exact moved

/-! ### Events of the memory (08 R171, R172, R176; 15 R333, R341) -/

@[simp] theorem execSelfRefreshEnter_goes (stack : Nat) (s : State) : Goes s (execSelfRefreshEnter stack s) := by
  unfold execSelfRefreshEnter
  rw [goes_next]
  intro h
  split <;> exact h

@[simp] theorem execSelfRefreshExit_goes (stack : Nat) (s : State) : Goes s (execSelfRefreshExit stack s) :=
  goes_next.mpr id

@[simp] theorem execRowBackOff_goes (stack : Nat) (s : State) : Goes s (execRowBackOff stack s) :=
  goes_next.mpr id

theorem Memory.wf_peerLost {s : State} (who : PeerWho) (lease : Nat) (h : Memory.wf s.mem = true) :
    Memory.wf (s.peerLost who lease).mem = true := by
  fun_cases State.peerLost s who lease <;>
    grind [Memory.wf_leaseRefused, Memory.wf_accessAnswered, State.dropAccess_mem, Memory.wf_peerAnswered,
      State.answerStall_mem]

@[simp] theorem execRetryLimit_goes (p : LostPacket) (s : State) : Goes s (execRetryLimit p s) := by
  fun_cases execRetryLimit p s
  grind [Memory.wf_peerLost, Memory.wf_hopLost, Memory.wf_endRunWith, State.arbiterLost_mem, Memory.wf_deviceLost,
    goes_next]

theorem Memory.wf_poisonLine {s : State} (l : Nat) (h : Memory.wf s.mem = true) :
    Memory.wf (s.poisonLine l).mem = true :=
  h

theorem Memory.wf_engineBad {s : State} (e : Nat) (h : Memory.wf s.mem = true) :
    Memory.wf (s.engineBad e).mem = true := by
  fun_cases State.engineBad s e <;> grind [Memory.wf_endRunWith, Memory.wf_failCmd]

@[simp] theorem execCheckValueFailure_goes (w : BadPlace) (s : State) : Goes s (execCheckValueFailure w s) := by
  unfold execCheckValueFailure
  rw [goes_next]
  intro h
  cases w with
  | line | shared => exact h
  | cached => exact Memory.wf_poisonLine _ (Memory.wf_of_eq (State.setL1_mem ..) h)
  | engine | egress =>
    dsimp only
    split
    · rwa [State.push_mem]
    · exact Memory.wf_engineBad _ h
  | code | scratch | reg => exact Memory.wf_of_eq (State.setCore_mem ..) h
  | flight id =>
    dsimp only
    split
    · split
      · exact Memory.wf_accessAnswered _ _ h
      · exact h
    · exact h
  | slot | arrival => exact Memory.wf_linkFails _ _ h

/-! ### Power, power-up, fatal errors and the dump (14 R323; 15 R334 to R338, R343) -/

@[simp] theorem execPnowApproachingCap_goes (pnow : BitVec 16) (s : State) :
    Goes s (execPnowApproachingCap pnow s) := by
  simp [execPnowApproachingCap]

@[simp] theorem execThermalStall_goes (_core : Nat) (s : State) : Goes s (execThermalStall _core s) := by
  simp [execThermalStall]

@[simp] theorem execReset_goes (s : State) : Goes s (execReset s) := goes_next.mpr fun h => h

theorem Memory.wf_phaseEnds {s : State} (phase : BitVec 3) (ok : Bool) {f : State → State}
    (hf : Memory.wf (f s).mem = true) (h : Memory.wf s.mem = true) :
    Memory.wf (s.phaseEnds phase ok f).mem = true := by
  fun_cases State.phaseEnds s phase ok f <;> grind [State.setHost_mem]

@[simp] theorem execFirmwareSignatureVerify_goes (ok : Bool) (s : State) :
    Goes s (execFirmwareSignatureVerify ok s) := by
  fun_cases execFirmwareSignatureVerify ok s
  grind [Memory.wf_phaseEnds, goes_next]

@[simp] theorem execSelfCalibration_goes (ok : Bool) (s : State) : Goes s (execSelfCalibration ok s) := by
  fun_cases execSelfCalibration ok s
  grind [Memory.wf_phaseEnds, goes_next]

@[simp] theorem execMemoryInitialisation_goes (ok : Bool) (s : State) :
    Goes s (execMemoryInitialisation ok s) := by
  refine goes_next.mpr fun h => Memory.wf_phaseEnds _ _ ?_ h
  rw [State.setSched_mem]
  refine Memory.wf_foldl (fun _ _ => Memory.wf_retireCore _) _ ?_
  rwa [State.foldl_mem fun _ _ => State.setRetpc_mem ..]

@[simp] theorem execHbmZeroing_goes (ok : Bool) (s : State) : Goes s (execHbmZeroing ok s) := by
  fun_cases execHbmZeroing ok s
  grind [Memory.wf_phaseEnds, Memory.wf_zeroRange, goes_next]

@[simp] theorem execSchedulerClear_goes (s : State) : Goes s (execSchedulerClear s) := by
  fun_cases execSchedulerClear s
  grind [State.setSched_mem, goes_next]

@[simp] theorem execLpRegionZeroed_goes (s : State) : Goes s (execLpRegionZeroed s) := by
  unfold execLpRegionZeroed
  rw [goes_next]
  intro h
  split
  · exact h
  · exact Memory.wf_zeroRange _ _ h

@[simp] theorem execLpTierZeroingComplete_goes (s : State) : Goes s (execLpTierZeroingComplete s) := by
  simp [execLpTierZeroingComplete]

@[simp] theorem execFatalError_goes (code : Nat) (s : State) : Goes s (execFatalError code s) := by
  fun_cases execFatalError code s
  grind [State.setHost_mem, goes_next]

@[simp] theorem execDump_goes (s : State) : Goes s (execDump s) := by
  refine goes_next.mpr fun h => ?_
  dsimp only
  repeat' split
  all_goals grind [Memory.wf_mustWait, Memory.wf_wr, State.setHost_mem]

/-! ### Witness registers (13 R289 to R292) -/

theorem State.witSlot_goes {s : State} (hd : Hdr) (d : Nat) (u : Uses) {f : State → State}
    (hf : Memory.wf s.mem = true → Memory.wf (f s).mem = true) :
    Goes s (s.witSlot hd d u f) := by
  unfold State.witSlot
  simp only [goes_next]
  grind [!Memory.wf_blocked, State.emptyWit_mem]

@[simp] theorem execWmov_goes (hd : Hdr) (d a : BitVec 6) (s : State) : Goes s (execWmov hd d a s) := by
  fun_cases execWmov hd d a s
  grind [State.witSlot_goes, State.result_mem]

@[simp] theorem execWmovTow_goes (hd : Hdr) (d a : BitVec 6) (e : BitVec 1) (s : State) :
    Goes s (execWmovTow hd d a e s) := by
  fun_cases execWmovTow hd d a e s
  grind [State.witSlot_goes, State.result_mem]

@[simp] theorem execWmrg_goes (hd : Hdr) (d a b : BitVec 6) (s : State) : Goes s (execWmrg hd d a b s) := by
  fun_cases execWmrg hd d a b s <;>
    grind [State.stall_mem, State.emptyWit_mem, State.postOnce?_mem, Memory.wf_blocked, Memory.wf_fail,
      State.result_mem, State.post?_mem, State.deliver_mem, State.issueAccess_mem, State.setCont_mem, goes_next]

theorem Memory.wf_witWait {s : State} (a : BitVec 6) {wait : State → State} (hf : Memory.wf (wait s).mem = true)
    (h : Memory.wf s.mem = true) :
    Memory.wf (s.witWait a wait).mem = true := by
  fun_cases State.witWait s a wait <;> grind [Memory.wf_fail]

@[simp] theorem execWwait_goes (hd : Hdr) (a : BitVec 6) (s : State) : Goes s (execWwait hd a s) := by
  fun_cases execWwait hd a s
  grind [State.guarded_goes, Memory.wf_witWait, State.stall_mem]

@[simp] theorem execWwaitS_goes (hd : Hdr) (a : BitVec 6) (s : State) : Goes s (execWwaitS hd a s) := by
  fun_cases execWwaitS hd a s
  grind [State.guarded_goes, Memory.wf_illegal, Memory.wf_witWait, State.stall_mem, Memory.wf_saveWit,
    Memory.wf_suspend]

/-! ### Atomics (12 R274 to R276; 13 R293, R294) -/

theorem State.atomic_goes (s : State) (op : AtomOp) (hd : Hdr) (d a b : BitVec 6) :
    Goes s (s.atomic op hd d a b) := by
  simp [State.atomic, State.tokSlot_goes]

/-! ### Dispatch -/

theorem exec_goes (i : Instr) (s : State) : Goes s (exec i s) := by
  cases i with
  | br | exit | movi | bpchk | cmp | cmpi | pmovTos | pmovFroms | wmovTos | fcmp | fcvt | vjoinClr | sbindU |
  vmmovTos | ems | emsN =>
    unfold exec; exact State.guarded_goes _ _ (by simp)
  | add | sub | mul | mulh | mulhu | and_ | or_ | xor_ | shl | shr | sra | min | max | minu | maxu | adds | subs
  | bptr | bfi =>
    unfold exec; exact State.alu2_goes ..
  | addi | andi | ori | xori | shli | shri | srai | clz | popc | bfx | bfxu | fcls =>
    unfold exec; exact State.alu1_goes ..
  | div | divu | rem | remu => unfold exec; exact State.divide_goes ..
  | wnull => unfold exec; exact State.witSlot_goes _ _ _ (by simp)
  | faddF32 | faddF64 | fsubF32 | fsubF64 | fmulF32 | fmulF64 | fminF32 | fminF64 | fmaxF32 | fmaxF64 =>
    unfold exec; exact State.fp2_goes ..
  | ffmaF32 | ffmaF64 => unfold exec; exact State.fp3_goes ..
  | vld | vst | vlds | vsts | vgth | vsct => unfold exec; exact State.vecMem_goes ..
  | cflush | wchk => unfold exec; exact State.tokSlot_goes _ _ _ _ (by simp)
  | aadd | aand | aor | axor | amin | amax | aminu | amaxu | aswp | acas | aaddf | amaxf | aminf =>
    unfold exec; exact State.atomic_goes ..
  | vaddI32 | vsubI32 | vmulI32 | vminI32 | vmaxI32 | vminu | vmaxu | vand | vor | vxor | vaddsI32 =>
    unfold exec; exact State.vint_goes ..
  | vshl | vshr | vsra => unfold exec; exact State.vshift_goes ..
  | vcmpI32 | vcmpu | vcmpF32 | vcmpF64 => unfold exec; exact State.vcmp_goes ..
  | vaddF32 | vsubF32 | vmulF32 | vaddF64 | vsubF64 | vmulF64 | vaddBf16 | vmulBf16 | vaddF16 | vmulF16 =>
    unfold exec; exact State.vfp2_goes ..
  | vfmaF32 | vfmaF64 | vfmaBf16 | vfmaF16 => unfold exec; exact State.vfma_goes ..
  | vminF32 | vmaxF32 | vminF64 | vmaxF64 => unfold exec; exact State.vec2_goes ..
  | vmlog | vperm | vshuf | vbcst | vins | vmov | vidx | vscanF32 | vrnd =>
    unfold exec; exact State.vslot_goes _ _ (by simp)
  | vrsumF32 | vrsumF64 | vrsumI32 => unfold exec; exact State.vreduce_goes ..
  | vrmax | vrmin => unfold exec; exact State.vextreme_goes ..
  | vrcp | vrsq | vexp2 | vlog2 => unfold exec; exact State.vec1_goes ..
  | vqnt | vdqt => unfold exec; exact State.tabled_goes _ _ _ _ (by simp)
  | mxa | mxg | mxt => unfold exec; exact State.contribute_goes ..
  | cpy | cpyr => unfold exec; exact State.copySlot_goes ..
  | pub => unfold exec; exact State.engSlot_goes _ _ _ _ _ fun _ h => by simpa using h
  | _ => unfold exec; simp

/-! ### Step -/

theorem runEvent_goes (e : Event) (s : State) : Goes s (runEvent e s) := by
  cases e <;> (unfold runEvent; simp)

theorem State.act_goes (s : State) (x : Turn) : Goes s (s.act x) := by
  cases x with
  | agenda n =>
    unfold State.act
    dsimp only
    split
    · exact (runEvent_goes _ _).congr rfl
    · simp
  | bundle core => exact (State.issue_goes exec_goes _).congr (State.focus_mem s core)
  | event e => exact runEvent_goes e s
  | input =>
    unfold State.act
    dsimp only
    split
    · split
      · simp
      · exact (runEvent_goes _ _).congr rfl
    · simp

theorem step_goes (s : State) : Goes s (step s) := by
  unfold step
  dsimp only
  split
  · exact goes_next.mpr id
  next k _ =>
    obtain ⟨t, eq, ht⟩ := State.act_goes s.tock k
    simp only [eq]
    rw [goes_next, State.endPrq_mem]
    exact fun h => Memory.wf_unlessWaits h (ht h)

end Sys2Proof.Machine
end

section
/-!
# The statements of scope
-/
open Sys2Proof Sys2Proof.Machine

/-- Settles O39: every act of a turn keeps memory canonical, and time leaves it alone. -/
theorem stepKeepsMemoryCanonical : Obligations.StepKeepsMemoryCanonical := by
  intro s t h eq
  obtain ⟨u, hu, keeps⟩ := step_goes s
  obtain rfl : u = t := Host.Outcome.next.inj (hu.symm.trans eq)
  exact keeps h

/-- Settles O38: no slot and no event answers a fault or a refusal. -/
theorem everyStepContinues : Obligations.EveryStepContinues := by
  intro s
  obtain ⟨t, ht, -⟩ := step_goes s
  exact ⟨t, ht⟩

/-- Settles O40: the bytes of a range are those just written, least significant first. -/
theorem memoryReadsGiveTheBytesLastWritten : Obligations.MemoryReadsGiveTheBytesLastWritten := by
  intro s key n x h
  obtain ⟨hcore, -, -, hunits, hhost, -⟩ := State.wr_frame s key n x
  rw [State.rd, State.wr_cells]
  exact ⟨Cells.read_write_same key n x h, fun _ hy => Cells.get_write_outside x h hy,
    fun _ hi => Cells.get_write_inside x h hi, hcore, hunits, hhost⟩
end

section
/-!
# Rounding to a format, and NaN operands (02 R35 to R39)

A finite value is `(-1)^neg * m * 2^e`. Rounding it takes the nearest multiple of `2^q`, where `q` is the
exponent of the grid of the value's binade; the finite values of the format are the multiples of `2^q` and,
below the binade, finer ones. The file states the first for `rne`, the second for `FFmt.decode`, and puts the
two together for `FFmt.round`.
-/
open Sys2Proof Sys2Proof.Machine

namespace Sys2Proof.Claims

/-! ### Finite values as rationals -/

/-- A magnitude with its sign. -/
def signed (neg : Bool) (x : ℚ) : ℚ := if neg then -x else x

theorem value_fin (neg : Bool) (m : Nat) (e : Int) :
    value (.fin neg m e) = signed neg (m * (2 : ℚ) ^ e) := by
  have scale : (if 0 ≤ e then (m : ℚ) * 2 ^ e.toNat else (m : ℚ) / 2 ^ (-e).toNat) = m * (2 : ℚ) ^ e := by
    split
    next h => rw [← zpow_natCast, Int.toNat_of_nonneg h]
    next h => rw [← zpow_natCast, Int.toNat_of_nonneg (by omega), zpow_neg, div_inv_eq_mul]
  simp only [value, signed, scale]

theorem gap_eq_abs (x y : ℚ) : gap x y = |x - y| := by
  unfold gap
  split
  next h => rw [abs_sub_comm, abs_of_nonneg (sub_nonneg.mpr h)]
  next h => rw [abs_of_nonneg (by linarith)]

theorem signed_inj (neg : Bool) (x y : ℚ) : signed neg x = signed neg y ↔ x = y := by
  cases neg <;> simp [signed]

theorem gap_signed_same (neg : Bool) (x y : ℚ) : gap (signed neg x) (signed neg y) = |x - y| := by
  rw [gap_eq_abs]
  cases neg
  · rfl
  · simp only [signed, if_true, neg_sub_neg, abs_sub_comm]

theorem abs_signed (neg : Bool) (x : ℚ) : |signed neg x| = |x| := by
  cases neg
  · rfl
  · exact abs_neg x

/-- Two values are at least as far apart as their magnitudes. -/
theorem abs_sub_le_gap_signed (n n' : Bool) {x y : ℚ} (hx : 0 ≤ x) (hy : 0 ≤ y) :
    |x - y| ≤ gap (signed n x) (signed n' y) := by
  have := abs_abs_sub_abs_le (signed n x) (signed n' y)
  rwa [abs_signed, abs_signed, abs_of_nonneg hx, abs_of_nonneg hy, ← gap_eq_abs (signed n x)] at this

theorem mul_zpow_eq_of_le (m : Nat) {q e : Int} (h : q ≤ e) :
    (m : ℚ) * 2 ^ e = ((m * 2 ^ (e - q).toNat : Nat) : ℚ) * 2 ^ q := by
  have unit : (2 : ℚ) ^ e = 2 ^ (e - q).toNat * 2 ^ q := by
    rw [← zpow_natCast, Int.toNat_of_nonneg (by omega), ← zpow_add₀ two_ne_zero, sub_add_cancel]
  rw [unit]
  push_cast
  ring

end Sys2Proof.Claims

namespace Sys2Proof.Machine

/-! ### Rounding to a multiple of a power of two -/

/-- A quotient to nearest with ties to even: what `rne` takes below the grid's unit (`rne_of_lt`). -/
def roundedQuotient (m d : Nat) : Nat :=
  if d < 2 * (m % d) ∨ (2 * (m % d) = d ∧ m / d % 2 = 1) then m / d + 1 else m / d

/-- No other multiple of the divisor is nearer than that of the rounded quotient. -/
theorem roundedQuotient_nearest (m : Nat) {d : Nat} (hd : 0 < d) (j : Nat) :
    |(roundedQuotient m d : ℤ) * d - m| ≤ |(j : ℤ) * d - m| := by
  have hm : (m : ℤ) = d * (m / d : Nat) + (m % d : Nat) := by exact_mod_cast (Nat.div_add_mod m d).symm
  have hr := Nat.mod_lt m hd
  unfold roundedQuotient
  generalize m / d = k at *
  generalize m % d = r at *
  have away : (r : ℤ) ≤ |(j : ℤ) * d - m| ∨ (d : ℤ) - r ≤ |(j : ℤ) * d - m| := by
    rcases Nat.lt_or_ge k j with hj | hj
    · right
      have : ((k : ℤ) + 1) * d ≤ j * d := by gcongr; exact_mod_cast hj
      exact le_trans (by linarith) (le_abs_self _)
    · left
      have : (j : ℤ) * d ≤ k * d := by gcongr
      exact le_trans (by linarith) (neg_le_abs _)
  split
  next up =>
    have : ((k + 1 : Nat) : ℤ) * d - m = d - r := by rw [hm]; push_cast; ring
    rw [this, abs_of_nonneg (by omega)]
    omega
  next down =>
    have : (k : ℤ) * d - m = -r := by rw [hm]; ring
    rw [this, abs_neg, Nat.abs_cast]
    omega

/-- A rounded quotient is exact just when nothing remains. -/
theorem roundedQuotient_exact_iff (m : Nat) {d : Nat} (hd : 0 < d) :
    m % d = 0 ↔ roundedQuotient m d * d = m := by
  constructor
  · intro h
    rw [roundedQuotient, if_neg (by omega)]
    exact Nat.div_mul_cancel (Nat.dvd_of_mod_eq_zero h)
  · intro h
    exact Nat.mod_eq_zero_of_dvd ⟨_, (Nat.mul_comm .. ▸ h).symm⟩

theorem rne_of_le (m : Nat) {e q : Int} (h : q ≤ e) : rne m e q = (m * 2 ^ (e - q).toNat, true) := by
  rw [rne, if_pos h]

theorem rne_of_lt (m : Nat) {e q : Int} (h : e < q) :
    rne m e q = (roundedQuotient m (2 ^ (q - e).toNat), decide (m % 2 ^ (q - e).toNat = 0)) := by
  rw [rne, if_neg (by omega)]
  rfl

/-- The unit of a coarser grid in that of a finer one. -/
theorem two_zpow_of_lt {e q : Int} (h : e < q) : (2 : ℚ) ^ q = (2 ^ (q - e).toNat : Nat) * 2 ^ e := by
  simpa using Claims.mul_zpow_eq_of_le 1 h.le

/-- 02 R39: no multiple of the grid's unit is nearer to `m * 2^e` than the one that `rne` takes. -/
theorem rne_nearest (m : Nat) (e q : Int) (j : Nat) :
    |((rne m e q).1 : ℚ) * 2 ^ q - m * 2 ^ e| ≤ |(j : ℚ) * 2 ^ q - m * 2 ^ e| := by
  rcases Int.lt_or_le e q with h | h
  · have inUnits (k : Nat) : |(k : ℚ) * 2 ^ q - m * 2 ^ e| =
        ((|(k : ℤ) * (2 ^ (q - e).toNat : Nat) - m| : ℤ) : ℚ) * 2 ^ e := by
      rw [two_zpow_of_lt h, ← mul_assoc, ← sub_mul, abs_mul, abs_zpow, abs_two]
      push_cast
      rfl
    rw [inUnits, inUnits, rne_of_lt m h]
    exact mul_le_mul_of_nonneg_right
      (Int.cast_le.mpr (roundedQuotient_nearest m (Nat.two_pow_pos _) j)) (zpow_nonneg two_pos.le e)
  · rw [rne_of_le m h, Claims.mul_zpow_eq_of_le m h, sub_self, abs_zero]
    exact abs_nonneg _

theorem rne_exact_iff (m : Nat) (e q : Int) :
    (rne m e q).2 = true ↔ ((rne m e q).1 : ℚ) * 2 ^ q = m * 2 ^ e := by
  rcases Int.lt_or_le e q with h | h
  · rw [rne_of_lt m h, two_zpow_of_lt h, ← mul_assoc, mul_left_inj' (zpow_pos two_pos e).ne',
      ← Nat.cast_mul, Nat.cast_inj]
    exact decide_eq_true_iff.trans (roundedQuotient_exact_iff m (Nat.two_pow_pos _))
  · simp only [rne_of_le m h, Claims.mul_zpow_eq_of_le m h]

/-- Rounding does not pass a multiple of the unit that the value does not pass. -/
theorem rne_le {m j : Nat} {e q : Int} (h : (m : ℚ) * 2 ^ e ≤ j * 2 ^ q) : (rne m e q).1 ≤ j := by
  by_contra beyond
  have unit : (0 : ℚ) < 2 ^ q := zpow_pos two_pos q
  have : (j : ℚ) * 2 ^ q < (rne m e q).1 * 2 ^ q := by gcongr; omega
  have near := rne_nearest m e q j
  rw [abs_of_nonneg (by linarith), abs_of_nonneg (by linarith)] at near
  linarith

theorem le_rne {m j : Nat} {e q : Int} (h : (j : ℚ) * 2 ^ q ≤ m * 2 ^ e) : j ≤ (rne m e q).1 := by
  by_contra beyond
  have unit : (0 : ℚ) < 2 ^ q := zpow_pos two_pos q
  have : ((rne m e q).1 : ℚ) * 2 ^ q < j * 2 ^ q := by gcongr; omega
  have near := rne_nearest m e q j
  rw [abs_of_nonpos (by linarith), abs_of_nonpos (by linarith)] at near
  linarith

/-! ### The finite values of a format (02 R35, R36) -/

/-- A word has a sign bit, the exponent field's codes and the fraction's. -/
theorem FFmt.two_pow_width {t : FFmt} (ht : t.f + 1 < t.w) :
    2 ^ (t.w - 1) = 2 ^ t.f * (t.emax + 1) ∧ 2 ^ t.w = 2 * (2 ^ t.f * (t.emax + 1)) ∧ 1 ≤ t.emax := by
  obtain ⟨x, hx⟩ := Nat.exists_eq_add_of_lt ht
  have hemax : t.emax + 1 = 2 ^ (x + 1) := by
    have := Nat.two_pow_pos (x + 1)
    rw [FFmt.emax, show t.w - 1 - t.f = x + 1 by omega]
    omega
  have := Nat.one_lt_two_pow (n := x + 1) (by omega)
  refine ⟨?_, ?_, by omega⟩
  · rw [hemax, ← pow_add, show t.w - 1 = t.f + (x + 1) by omega]
  · rw [hemax, ← pow_add, ← pow_succ', show t.w = t.f + (x + 1) + 1 by omega]

/-- Up to the largest finite value no code is that of an infinity or a NaN. -/
theorem FFmt.finite_of_le_largest {t : FFmt} (ht : t.f + 1 < t.w) {c : Nat} (h : c ≤ t.largest) :
    c / 2 ^ t.f ≤ t.emax ∧
      ¬ (c / 2 ^ t.f = t.emax ∧ (t.hasInf = true ∨ c % 2 ^ t.f = 2 ^ t.f - 1)) := by
  obtain ⟨hw, -, he⟩ := FFmt.two_pow_width ht
  have hP := Nat.two_pow_pos t.f
  have hc := Nat.div_add_mod c (2 ^ t.f)
  unfold FFmt.largest at h
  split at h
  next =>
    have : c / 2 ^ t.f < t.emax := by
      rw [Nat.div_lt_iff_lt_mul hP]
      have : 0 < t.emax * 2 ^ t.f := Nat.mul_pos he hP
      unfold FFmt.inf at h
      omega
    omega
  next noInf =>
    rw [FFmt.nan, hw, Nat.mul_succ] at h
    have : 0 < 2 ^ t.f * t.emax := Nat.mul_pos hP he
    constructor
    · refine Nat.le_of_lt_succ ((Nat.div_lt_iff_lt_mul hP).mpr ?_)
      rw [Nat.succ_mul, Nat.mul_comm]
      omega
    · rintro ⟨top, hf⟩
      rw [top] at hc
      have := hf.resolve_left noInf
      omega

@[simp] theorem FFmt.sign_false (t : FFmt) : t.sign false = 0 := rfl
@[simp] theorem FFmt.sign_true (t : FFmt) : t.sign true = 2 ^ (t.w - 1) := rfl

/-- Reading the word of a sign and a finite code (02 R36). -/
theorem FFmt.decode_sign_add {t : FFmt} (ht : t.f + 1 < t.w) (neg : Bool) {c : Nat} (h : c ≤ t.largest) :
    t.decode (t.sign neg + c) =
      if c / 2 ^ t.f = 0 then .fin neg (c % 2 ^ t.f) t.qmin
      else .fin neg (2 ^ t.f + c % 2 ^ t.f) (t.qmin + (c / 2 ^ t.f : Nat) - 1) := by
  obtain ⟨hw, hw2, he⟩ := FFmt.two_pow_width ht
  obtain ⟨hexp, hfin⟩ := FFmt.finite_of_le_largest ht h
  have hP := Nat.two_pow_pos t.f
  have hc : c < 2 ^ t.f * (t.emax + 1) := by
    rw [Nat.mul_comm, ← Nat.div_lt_iff_lt_mul hP]
    omega
  have word : (t.sign neg + c) % 2 ^ t.w = t.sign neg + c := by
    refine Nat.mod_eq_of_lt ?_
    rw [hw2]
    cases neg
    · rw [FFmt.sign_false]; omega
    · rw [FFmt.sign_true, hw]; omega
  have signBit : decide (2 ^ (t.w - 1) ≤ t.sign neg + c) = neg := by
    cases neg
    · simpa [hw] using hc
    · simp
  have field : (t.sign neg + c) / 2 ^ t.f % (t.emax + 1) = c / 2 ^ t.f := by
    cases neg
    · rw [FFmt.sign_false, Nat.zero_add, Nat.mod_eq_of_lt (by omega)]
    · rw [FFmt.sign_true, hw, Nat.mul_add_div hP, Nat.add_mod_left, Nat.mod_eq_of_lt (by omega)]
  have fraction : (t.sign neg + c) % 2 ^ t.f = c % 2 ^ t.f := by
    cases neg
    · rw [FFmt.sign_false, Nat.zero_add]
    · rw [FFmt.sign_true, hw, Nat.mul_add_mod]
  simp only [FFmt.decode, word, signBit, field, fraction, if_neg hfin]

/-- The codes of a format count its values: `k` units above the start of grid `g` lies `k * 2^(qmin + g)`. -/
theorem FFmt.value_decode {t : FFmt} (ht : t.f + 1 < t.w) (neg : Bool) {g k : Nat}
    (hfin : g * 2 ^ t.f + k ≤ t.largest) (hlow : g = 0 ∨ 2 ^ t.f ≤ k) (hhigh : k ≤ 2 ^ (t.f + 1)) :
    ∃ m e, t.decode (t.sign neg + (g * 2 ^ t.f + k)) = .fin neg m e ∧
      (m : ℚ) * 2 ^ e = k * 2 ^ (t.qmin + g) := by
  have hP := Nat.two_pow_pos t.f
  rw [FFmt.decode_sign_add ht neg hfin, Nat.mul_comm g, Nat.mul_add_div hP, Nat.mul_add_mod]
  rw [pow_succ] at hhigh
  rcases Nat.lt_or_ge k (2 ^ t.f) with subnormal | hk
  · obtain rfl : g = 0 := by omega
    rw [Nat.div_eq_of_lt subnormal, Nat.mod_eq_of_lt subnormal, if_pos rfl]
    exact ⟨_, _, rfl, by simp⟩
  obtain ⟨r, rfl⟩ := Nat.exists_eq_add_of_le hk
  rw [Nat.add_div_left _ hP, Nat.add_mod_left, ← Nat.add_assoc, if_neg (Nat.succ_ne_zero _)]
  refine ⟨_, _, rfl, ?_⟩
  rcases Nat.lt_or_ge r (2 ^ t.f) with normal | carry
  · rw [Nat.div_eq_of_lt normal, Nat.mod_eq_of_lt normal]
    congr 2
    push_cast
    ring
  · obtain rfl : r = 2 ^ t.f := by omega
    rw [Nat.div_self hP, Nat.mod_self, show t.qmin + ((g + 1 + 1 : Nat) : ℤ) - 1 = t.qmin + g + 1 by
      push_cast; ring, zpow_add_one₀ two_ne_zero]
    push_cast
    ring

/-- A finite value of a format: at most `f + 1` bits on a grid no finer than the subnormals'. -/
theorem FFmt.decode_fin_bounds {t : FFmt} {y : Nat} {n : Bool} {k : Nat} {q : Int}
    (h : t.decode y = .fin n k q) : k < 2 ^ (t.f + 1) ∧ t.qmin ≤ q := by
  have hfrac := Nat.mod_lt (y % 2 ^ t.w) (Nat.two_pow_pos t.f)
  rw [pow_succ]
  unfold FFmt.decode at h
  dsimp only at h
  split at h
  · split at h <;> cases h
  split at h
  · cases h
    omega
  · cases h
    omega

/-! ### Rounding to a format (02 R39, R42) -/

/-- The exponent of the grid that a value `m * 2^e` is rounded on: that of its binade, or of the subnormals. -/
def FFmt.grid (t : FFmt) (m : Nat) (e : Int) : Int := max ((Nat.log2 m : Int) + e - t.f) t.qmin

/-- The code of a rounded magnitude. -/
def FFmt.roundedCode (t : FFmt) (m : Nat) (e : Int) : Nat :=
  (t.grid m e - t.qmin).toNat * 2 ^ t.f + (rne m e (t.grid m e)).1

theorem FFmt.round_zero (t : FFmt) (neg : Bool) (e : Int) :
    t.round false (.fin neg 0 e) = (t.sign neg, 0) := by
  simp [FFmt.round]

/-- What rounding a non-zero value gives: an overflow, or the rounded code with the flags of an inexact result. -/
theorem FFmt.round_nonzero (t : FFmt) (neg : Bool) {m : Nat} (e : Int) (hm : m ≠ 0) :
    ∃ tiny : Bool, t.round false (.fin neg m e) =
      if t.largest < t.roundedCode m e then
        (t.sign neg + (if t.hasInf then t.inf else t.largest), fOF ||| fNX)
      else (t.sign neg + t.roundedCode m e,
        flagIf (!(rne m e (t.grid m e)).2) fNX ||| flagIf (tiny && !(rne m e (t.grid m e)).2) fUF) :=
  ⟨_, by rw [FFmt.round, if_neg hm]; rfl⟩

/-- The flags of a result without overflow hold Inexact just when it is not exact. -/
theorem inexactFlags_nx (tiny exact : Bool) :
    (flagIf (!exact) fNX ||| flagIf (tiny && !exact) fUF) &&& fNX = 0 ↔ exact = true := by
  revert tiny exact
  decide

/-- Without overflow a non-zero value becomes its sign and rounded code, inexact as `rne` says. -/
theorem FFmt.round_of_no_overflow {t : FFmt} {neg : Bool} {m : Nat} {e : Int} (hm : m ≠ 0)
    (hof : (t.round false (.fin neg m e)).2 &&& fOF = 0) :
    t.roundedCode m e ≤ t.largest ∧
      (t.round false (.fin neg m e)).1 = t.sign neg + t.roundedCode m e ∧
      ((t.round false (.fin neg m e)).2 &&& fNX = 0 ↔ (rne m e (t.grid m e)).2 = true) := by
  obtain ⟨tiny, eq⟩ := t.round_nonzero neg e hm
  rw [eq] at hof ⊢
  split at hof
  next =>
    have overflows : (fOF ||| fNX) &&& fOF ≠ 0 := by decide
    exact absurd hof overflows
  next fits =>
    rw [if_neg fits]
    exact ⟨Nat.le_of_not_lt fits, rfl, inexactFlags_nx _ _⟩

/-- A value has at most `f + 1` bits on its grid. -/
theorem FFmt.lt_grid (t : FFmt) (m : Nat) (e : Int) :
    (m : ℚ) * 2 ^ e < (2 ^ (t.f + 1) : Nat) * 2 ^ t.grid m e := by
  have top : (m : ℚ) < 2 ^ ((Nat.log2 m : ℤ) + 1) := by exact_mod_cast Nat.lt_log2_self
  calc (m : ℚ) * 2 ^ e < 2 ^ ((Nat.log2 m : ℤ) + 1) * 2 ^ e := by gcongr
    _ = 2 ^ ((Nat.log2 m : ℤ) + 1 + e) := (zpow_add₀ two_ne_zero _ _).symm
    _ ≤ 2 ^ (((t.f + 1 : Nat) : ℤ) + t.grid m e) := by
      apply zpow_le_zpow_right₀ one_le_two
      unfold FFmt.grid
      omega
    _ = _ := by rw [zpow_add₀ two_ne_zero, zpow_natCast]; push_cast; rfl

/-- A non-zero value on a grid coarser than the subnormals' has all `f + 1` bits there. -/
theorem FFmt.grid_le (t : FFmt) {m : Nat} (e : Int) (hm : m ≠ 0) (h : t.qmin < t.grid m e) :
    ((2 ^ t.f : Nat) : ℚ) * 2 ^ t.grid m e ≤ m * 2 ^ e := by
  have bottom : (2 : ℚ) ^ (Nat.log2 m : ℤ) ≤ m := by exact_mod_cast Nat.log2_self_le hm
  calc ((2 ^ t.f : Nat) : ℚ) * 2 ^ t.grid m e = 2 ^ ((t.f : ℤ) + t.grid m e) := by
        rw [zpow_add₀ two_ne_zero, zpow_natCast]; push_cast; rfl
    _ = 2 ^ (Nat.log2 m : ℤ) * 2 ^ e := by
      rw [← zpow_add₀ two_ne_zero]
      congr 1
      unfold FFmt.grid at h ⊢
      omega
    _ ≤ m * 2 ^ e := by gcongr

/-- Without overflow the rounded code reads as the rounded magnitude. -/
theorem FFmt.value_decode_roundedCode {t : FFmt} (ht : t.f + 1 < t.w) (neg : Bool) {m : Nat} {e : Int}
    (hm : m ≠ 0) (hfin : t.roundedCode m e ≤ t.largest) :
    ∃ n k, t.decode (t.sign neg + t.roundedCode m e) = .fin neg n k ∧
      (n : ℚ) * 2 ^ k = (rne m e (t.grid m e)).1 * 2 ^ t.grid m e := by
  have above : t.qmin ≤ t.grid m e := le_max_right _ _
  obtain ⟨n, k, eq, hv⟩ := FFmt.value_decode ht neg hfin
    ((Int.le_iff_lt_or_eq.mp above).symm.imp (fun h => by omega) fun h => le_rne (t.grid_le e hm h))
    (rne_le (t.lt_grid m e).le)
  refine ⟨n, k, eq, hv.trans ?_⟩
  rw [Int.toNat_of_nonneg (by omega), add_sub_cancel]

/-- No magnitude of the format is nearer to `m * 2^e` than the rounded one: it is a multiple of the grid's unit, or
lies below the value's binade, whose start is such a multiple. -/
theorem FFmt.rne_grid_nearest (t : FFmt) {m k : Nat} (e : Int) {q : Int} (hm : m ≠ 0) (hk : k < 2 ^ (t.f + 1))
    (hq : t.qmin ≤ q) :
    |((rne m e (t.grid m e)).1 : ℚ) * 2 ^ t.grid m e - m * 2 ^ e| ≤ |(k : ℚ) * 2 ^ q - m * 2 ^ e| := by
  rcases Int.lt_or_le q (t.grid m e) with finer | coarser
  · have start := t.grid_le e hm (hq.trans_lt finer)
    have below : (k : ℚ) * 2 ^ q ≤ (2 ^ t.f : Nat) * 2 ^ t.grid m e := by
      calc (k : ℚ) * 2 ^ q ≤ (2 ^ (t.f + 1) : Nat) * 2 ^ q := by gcongr
        _ = (2 ^ t.f : Nat) * 2 ^ (q + 1) := by rw [zpow_add_one₀ two_ne_zero]; push_cast; ring
        _ ≤ _ := by gcongr; exacts [one_le_two, finer]
    refine (rne_nearest m e _ (2 ^ t.f)).trans ?_
    rw [abs_of_nonpos (sub_nonpos.mpr start), abs_of_nonpos (by linarith)]
    linarith
  · rw [Claims.mul_zpow_eq_of_le k coarser]
    exact rne_nearest m e _ _

/-! ### NaN operands (02 R37) -/

@[simp] theorem FFmt.isNan_decodeFlush (t : FFmt) (fz : Bool) (x : Nat) :
    (t.decodeFlush fz x).isNan = (t.decode x).isNan := by
  unfold FFmt.decodeFlush
  split
  next eq => rw [eq]; split <;> rfl
  next => rfl

@[simp] theorem FFmt.isSnan_decodeFlush (t : FFmt) (fz : Bool) (x : Nat) :
    (t.decodeFlush fz x).isSnan = (t.decode x).isSnan := by
  unfold FFmt.decodeFlush
  split
  next eq => rw [eq]; split <;> rfl
  next => rfl

theorem FVal.sum_of_isNan {x y : FVal} (h : x.isNan = true ∨ y.isNan = true) :
    FVal.sum [x, y] = (.nan false, snan [x, y]) := by
  rw [FVal.sum, if_pos (by simpa using h)]

theorem FVal.mul_of_isNan {x y : FVal} (h : x.isNan = true ∨ y.isNan = true) :
    x.mul y = (.nan false, snan [x, y]) := by
  unfold FVal.mul
  rw [if_pos (by simpa using h)]

theorem FFmt.done_nan (t : FFmt) (fz : Bool) (fl : Flags) : t.done fz (.nan false, fl) = (t.nan, fl) := by
  simp [FFmt.done, FFmt.round, flagIf]

theorem snan_pair (x y : FVal) : snan [x, y] = if x.isSnan = true ∨ y.isSnan = true then fNV else 0 := by
  simp [snan, flagIf]

section
variable (t : FFmt) (fz : Bool) {a b : Nat} (c : Nat) (h : (t.decode a).isNan = true ∨ (t.decode b).isNan = true)
include h

theorem FFmt.add_of_isNan :
    t.add fz a b = (t.nan, if (t.decode a).isSnan ∨ (t.decode b).isSnan then fNV else 0) := by
  rw [FFmt.add, FVal.sum_of_isNan (by simpa using h), FFmt.done_nan, snan_pair]
  simp

theorem FFmt.mul_of_isNan : (t.mul fz a b).1 = t.nan := by
  rw [FFmt.mul, FVal.mul_of_isNan (by simpa using h), FFmt.done_nan]

/-- A NaN factor makes the product a NaN, and so the sum. -/
theorem FFmt.fma_of_isNan_factor : (t.fma fz a b c).1 = t.nan := by
  rw [FFmt.fma, FVal.mul_of_isNan (by simpa using h), FVal.sum_of_isNan (.inl rfl), FFmt.done_nan]

/-- A NaN second factor or addend does too. -/
theorem FFmt.fma_of_isNan_addend : (t.fma fz c a b).1 = t.nan := by
  rw [FFmt.fma, FVal.sum_of_isNan, FFmt.done_nan]
  refine h.imp (fun ha => ?_) (fun hb => by simpa using hb)
  rw [FVal.mul_of_isNan (.inr (by simpa using ha))]
  rfl

end

end Sys2Proof.Machine

namespace Sys2Proof.Claims

/-- Every format has an exponent field beside its sign and fraction (02 R35). -/
theorem formats_have_exponents : ∀ t ∈ [F32, F64, F16, BF16, E4M3, E5M2], t.f + 1 < t.w := by decide

theorem roundingGivesANearestValueOfTheFormat : RoundingGivesANearestValueOfTheFormat := by
  rintro t mem neg m e _ rfl hof
  have ht := formats_have_exponents t mem
  rcases eq_or_ne m 0 with rfl | hm
  · obtain ⟨n, k, eq, hv⟩ :=
      FFmt.value_decode ht neg (g := 0) (k := 0) (by simp) (.inl rfl) (Nat.zero_le _)
    rw [Nat.cast_zero, zero_mul] at hv
    simp only [FFmt.round_zero, Nat.zero_mul, Nat.add_zero] at eq ⊢
    rw [eq, value_fin, value_fin, hv, Nat.cast_zero, zero_mul]
    refine ⟨⟨_, _, _, rfl⟩, by simp, fun y n k q _ => ?_⟩
    rw [gap_signed_same, sub_self, abs_zero, gap_eq_abs]
    exact abs_nonneg _
  · obtain ⟨hfin, hbits, hnx⟩ := FFmt.round_of_no_overflow hm hof
    obtain ⟨n, k, eq, hv⟩ := FFmt.value_decode_roundedCode ht neg hm hfin
    rw [hbits, hnx, rne_exact_iff, eq, value_fin, value_fin, hv, signed_inj]
    refine ⟨⟨_, _, _, rfl⟩, Iff.rfl, fun y n k q hy => ?_⟩
    obtain ⟨hk, hq⟩ := FFmt.decode_fin_bounds hy
    rw [value_fin, gap_signed_same]
    exact (t.rne_grid_nearest e hm hk hq).trans (abs_sub_le_gap_signed _ _ (by positivity) (by positivity))

theorem nanOperandsGiveTheCanonicalNan : NanOperandsGiveTheCanonicalNan := by
  intro t _ fz a b c h
  rw [FFmt.add_of_isNan t fz h]
  exact ⟨rfl, t.mul_of_isNan fz h, t.fma_of_isNan_factor fz c h, t.fma_of_isNan_addend fz c h, rfl⟩

end Sys2Proof.Claims

/-- Settles O6: the rounded magnitude is a nearest multiple of the grid's unit, the format's other magnitudes are
such multiples or lie below the value's binade, and a NaN operand reaches the canonical NaN unflushed. -/
theorem roundingIsNearestAndNansAreCanonical : Obligations.RoundingIsNearestAndNansAreCanonical :=
  ⟨Claims.roundingGivesANearestValueOfTheFormat, Claims.nanOperandsGiveTheCanonicalNan⟩
end

section
/-!
# The state after reset (03 R52; 05 R95 to R97; 14 R328; 15 R336)
-/
namespace Sys2Proof.Machine

/-- Every token is zero, one outside the file too (05 R97). -/
@[simp] theorem Regs.reset_tok (t : Nat) : Regs.reset.tok t = Token.zero := by
  by_cases h : t < 34 <;> simp [Regs.tok, Regs.reset, h]

theorem Regs.reset_q {n : Nat} (h : n < 8) : Regs.reset.q[n]? = some none := by
  simp [Regs.reset, h]

theorem Regs.reset_fmt {n : Nat} (h : n < 48) : Regs.reset.fmt[n]? = some BankFmt.zero := by
  simp [Regs.reset, h]

theorem Regs.reset_s {n : Nat} (h : n < 72) : Regs.reset.s[n]? = some 0 := by
  simp [Regs.reset, h]

end Sys2Proof.Machine

open Sys2Proof Sys2Proof.Machine

/-- Settles O41: the register files hold one value throughout, and the rest is the reset state's own fields. -/
theorem resetStateHoldsTheStatedValues : Obligations.ResetStateHoldsTheStatedValues :=
  ⟨Memory.wf_reset, rfl, rfl, rfl, rfl, rfl, rfl, rfl, rfl, fun t _ => Regs.reset_tok t, fun _ => Regs.reset_q,
    fun _ => Regs.reset_fmt, fun _ => Regs.reset_s, rfl, rfl, rfl, rfl, rfl, rfl, rfl, rfl, rfl, rfl, rfl⟩
end

section
/-!
# The rings and their registers (03 R52 to R54; 15 R331)
-/
namespace Sys2Proof.Machine

/-! ### SUBMIT: the checks of 03 R54 in their order -/

/-- The entry at SQHEAD passes check 1 of 03 R54 as a SUBMIT. -/
def State.EntryOk (s : State) : Prop :=
  bits (s.sqWord 0) 63 60 = 1 ∧ bits (s.sqWord 0) 59 48 = 0 ∧ bits (s.sqWord 1) 26 16 = 0 ∧
    bits (s.sqWord 0) 47 0 % 64 = 0 ∧ 256 ≤ bits (s.sqWord 1) 63 32 ∧ bits (s.sqWord 1) 31 27 ≤ 23

section
variable {s : State} {c pa : Nat}

theorem State.submitResult_of_not_entryOk (hop : bits (s.sqWord 0) 63 60 ≠ 2) (h : ¬ s.EntryOk) :
    s.submitResult = (1, 0) := by
  refine if_pos ?_
  unfold State.EntryOk at h
  omega

variable (ok : s.EntryOk) (hpa : pa = bits (s.sqWord 0) 47 0)
include ok hpa

/-- With check 1 passed, the result is that of the job record and its clusters. -/
theorem State.submitResult_of_entryOk : s.submitResult =
    if !s.jobRecordOk pa then (2, 0)
    else match lowestCluster (s.fieldOf pa 0x20 63 16) fun c => s.sched.offClusters.getLsbD c with
      | some c => (5, c)
      | none => match lowestCluster (s.fieldOf pa 0x20 63 16) fun c => (s.owner? c).isSome with
        | some c => (3, c)
        | none => (0, 0) := by
  subst hpa
  obtain ⟨op, res0, res1, aligned, slice, gres⟩ := ok
  exact if_neg (by omega)

theorem State.submitResult_of_bad_record (h : s.jobRecordOk pa = false) : s.submitResult = (2, 0) := by
  rw [State.submitResult_of_entryOk ok hpa, h]
  rfl

variable (hrec : s.jobRecordOk pa = true)
include hrec

theorem State.submitResult_of_disabled
    (h : lowestCluster (s.fieldOf pa 0x20 63 16) (fun c => s.sched.offClusters.getLsbD c) = some c) :
    s.submitResult = (5, c) := by
  rw [State.submitResult_of_entryOk ok hpa, hrec, h]
  rfl

variable (on : lowestCluster (s.fieldOf pa 0x20 63 16) (fun c => s.sched.offClusters.getLsbD c) = none)
include on

theorem State.submitResult_of_owned
    (h : lowestCluster (s.fieldOf pa 0x20 63 16) (fun c => (s.owner? c).isSome) = some c) :
    s.submitResult = (3, c) := by
  rw [State.submitResult_of_entryOk ok hpa, hrec, on, h]
  rfl

theorem State.submitResult_of_free
    (h : lowestCluster (s.fieldOf pa 0x20 63 16) (fun c => (s.owner? c).isSome) = none) :
    s.submitResult = (0, 0) := by
  rw [State.submitResult_of_entryOk ok hpa, hrec, on, h]
  rfl

end

/-! ### What SUBMIT and CANCEL do with the entry -/

theorem exec_submit (s : State) : exec .submit s = execSubmit s := rfl
theorem exec_cancel (s : State) : exec .cancel s = execCancel s := rfl

section
variable {s : State}

theorem exec_submit_of_no_submission (h : s.submission = false) : exec .submit s = .next s :=
  congrArg Host.Outcome.next (if_pos (.inl (by simp [h])))

theorem exec_cancel_of_no_submission (h : s.submission = false) : exec .cancel s = .next s :=
  congrArg Host.Outcome.next (if_pos (.inl (by simp [h])))

variable (sub : s.submission = true)
include sub

/-- An entry that a check refuses is answered, and nothing else happens. -/
theorem exec_submit_of_refused (hop : bits (s.sqWord 0) 63 60 ≠ 2) {result cluster : Nat}
    (h : s.submitResult = (result, cluster)) (refused : result ≠ 0) :
    exec .submit s = .next (s.respond result cluster) := by
  simp [exec_submit, execSubmit, sub, hop, h, refused]

theorem exec_submit_of_accepted (hop : bits (s.sqWord 0) 63 60 ≠ 2) (h : s.submitResult = (0, 0)) :
    exec .submit s = .next ((s.respond 0 0).acceptJob (bits (s.sqWord 0) 47 0)
      (bits (s.sqWord 1) 63 32) (bits (s.sqWord 1) 31 27)) := by
  simp [exec_submit, execSubmit, sub, hop, h]

variable (hop : bits (s.sqWord 0) 63 60 = 2)
include hop

theorem exec_cancel_of_no_job (h : s.job? (bits (s.sqWord 0) 47 0) = none) :
    exec .cancel s = .next (s.respond 4 0) := by
  simp [exec_cancel, execCancel, sub, hop, h]

theorem exec_cancel_of_job {j : Job} (h : s.job? (bits (s.sqWord 0) 47 0) = some j) :
    exec .cancel s = .next ((s.respond 0 0).doTodos [.cancel (bits (s.sqWord 0) 47 0)]) := by
  simp [exec_cancel, execCancel, sub, hop, h]

end

/-! ### The response ring -/

theorem exec_responseWrite (s : State) : exec .responseWrite s = execResponseWrite s := rfl

/-- The response at the head of those to be written goes to the entry at RQTAIL, and both indices advance. -/
def State.writeResponse (s : State) (r : Word × Word) (rs : List (Word × Word)) : State :=
  let t := s.wr (tierKey 3 (s.host.rqbase.toNat * 4096 + 16 * s.host.rqtail.toNat)) 16 (r.1.toNat + r.2.toNat * 2 ^ 64)
  (t.setSched { t.sched with responses := rs }).setHost
    { s.host with rqtail := s.host.after s.host.rqtail, sqhead := s.host.after s.host.sqhead }

section
variable {s : State} {r : Word × Word} {rs : List (Word × Word)} (hr : s.sched.responses = r :: rs)
include hr

theorem exec_responseWrite_of_full (full : s.host.after s.host.rqtail = s.host.rqhead) :
    exec .responseWrite s = .next s := by
  simp [exec_responseWrite, execResponseWrite, hr, full]

theorem exec_responseWrite_of_room (room : s.host.after s.host.rqtail ≠ s.host.rqhead) :
    exec .responseWrite s = .next (s.writeResponse r rs) := by
  simp only [exec_responseWrite, execResponseWrite, hr, room, if_false, State.writeResponse]

end

/-- The entry at RQTAIL, in companion memory (log 8), holds both words of the response. -/
theorem State.writeResponse_rd {s : State} (r : Word × Word) (rs : List (Word × Word))
    (h : Memory.wf s.mem = true) :
    (s.writeResponse r rs).rd (3 * 2 ^ 52 + s.host.rqbase.toNat * 4096 + 16 * s.host.rqtail.toNat) 16 =
      r.1.toNat + r.2.toNat * 2 ^ 64 := by
  have place : 3 * 2 ^ 52 + s.host.rqbase.toNat * 4096 + 16 * s.host.rqtail.toNat =
      tierKey 3 (s.host.rqbase.toNat * 4096 + 16 * s.host.rqtail.toNat) := Nat.add_assoc ..
  have fits : r.1.toNat + r.2.toNat * 2 ^ 64 < 256 ^ 16 := by
    have := r.1.isLt
    have := r.2.isLt
    omega
  simp only [State.writeResponse]
  rw [place, State.rd, State.setHost_mem, State.setSched_mem, State.wr_cells, Cells.read_write_same _ _ _ h,
    Nat.mod_eq_of_lt fits]

/-! ### The ring registers -/

theorem HostRegs.empty_iff (h : HostRegs) : h.empty = true ↔ h.sqhead = h.sqtail ∧ h.rqhead = h.rqtail := by
  simp [HostRegs.empty]

/-- A write of a size or base: it needs READY, and is refused unless both rings are empty (03 R52). -/
def State.writeIfEmpty (s : State) (h : HostRegs) : State :=
  if !s.host.ready then s else if s.host.empty then s.setHost h else s.refuse

/-- A write of an index: it needs READY, and is refused unless the index lies in the ring (03 R52). -/
def State.writeIndex (s : State) (v : Word) (h : HostRegs) : State :=
  if !s.host.ready then s else if (v.setWidth 16).toNat < s.host.ring then s.setHost h else s.refuse

theorem exec_sqsize (v : Word) (s : State) : exec (.sqsize v) s = .next (s.writeIfEmpty
    { s.host with sqsize := v.setWidth 16, sqhead := 0, sqtail := 0, rqhead := 0, rqtail := 0 }) := by
  change execSqsize v s = _
  simp only [execSqsize, State.writeIfEmpty]
  split
  · rfl
  · cases s.host.empty <;> rfl

theorem exec_hostRegisterWrite_sqbase (v : Word) (s : State) : exec (.hostRegisterWrite 0x000 v) s =
    .next (s.writeIfEmpty { s.host with sqbase := v.extractLsb' 12 52 }) := rfl

theorem exec_hostRegisterWrite_rqbase (v : Word) (s : State) : exec (.hostRegisterWrite 0x020 v) s =
    .next (s.writeIfEmpty { s.host with rqbase := v.extractLsb' 12 52 }) := rfl

theorem exec_hostRegisterWrite_sqtail (v : Word) (s : State) : exec (.hostRegisterWrite 0x010 v) s =
    .next (s.writeIndex v { s.host with sqtail := v.setWidth 16 }) := rfl

theorem exec_hostRegisterWrite_rqhead (v : Word) (s : State) : exec (.hostRegisterWrite 0x030 v) s =
    .next (s.writeIndex v { s.host with rqhead := v.setWidth 16 }) := rfl

section
variable {s : State} (h : HostRegs)

theorem State.writeIfEmpty_of_not_ready (hr : s.host.ready = false) : s.writeIfEmpty h = s := by
  simp [State.writeIfEmpty, hr]

theorem State.writeIndex_of_not_ready (v : Word) (hr : s.host.ready = false) : s.writeIndex v h = s := by
  simp [State.writeIndex, hr]

variable (hr : s.host.ready = true)
include hr

theorem State.writeIfEmpty_of_empty (hs : s.host.sqhead = s.host.sqtail) (hq : s.host.rqhead = s.host.rqtail) :
    s.writeIfEmpty h = s.setHost h := by
  simp [State.writeIfEmpty, hr, s.host.empty_iff.mpr ⟨hs, hq⟩]

theorem State.writeIfEmpty_of_entries (he : s.host.sqhead ≠ s.host.sqtail ∨ s.host.rqhead ≠ s.host.rqtail) :
    s.writeIfEmpty h = s.refuse := by
  have full : s.host.empty = false := by
    rw [← Bool.not_eq_true, HostRegs.empty_iff]
    tauto
  simp [State.writeIfEmpty, hr, full]

theorem State.writeIndex_of_inside {v : Word} (hv : (v.setWidth 16).toNat ≤ s.host.sqsize.toNat) :
    s.writeIndex v h = s.setHost h := by
  have inside : (v.setWidth 16).toNat < s.host.ring := Nat.lt_succ_of_le hv
  simp only [State.writeIndex, hr, inside, Bool.not_true, Bool.false_eq_true, if_true, if_false]

theorem State.writeIndex_of_outside {v : Word} (hv : s.host.sqsize.toNat < (v.setWidth 16).toNat) :
    s.writeIndex v h = s.refuse := by
  have outside : ¬ (v.setWidth 16).toNat < s.host.ring := Nat.not_lt_of_le hv
  simp only [State.writeIndex, hr, outside, Bool.not_true, Bool.false_eq_true, if_false]

end

end Sys2Proof.Machine

open Sys2Proof Sys2Proof.Machine

/-- Settles O55: the checks of a SUBMIT one by one, the two answers of a CANCEL, the response ring with and without
room, and the ring registers with READY clear and set. -/
theorem ringsTakeEntriesAndWriteResponses : Obligations.RingsTakeEntriesAndWriteResponses := by
  refine ⟨fun s none => ⟨exec_submit_of_no_submission none, exec_cancel_of_no_submission none⟩, ?_, ?_, ?_⟩
  · rintro s pa sub rfl
    dsimp only
    refine ⟨fun hop => ⟨fun bad => ?_, fun h1 h2 h3 h4 h5 h6 => ?_⟩,
      fun hop => ⟨exec_cancel_of_no_job sub hop, fun _ => exec_cancel_of_job sub hop⟩⟩
    · refine exec_submit_of_refused sub hop (State.submitResult_of_not_entryOk hop ?_) one_ne_zero
      rintro ⟨h1, h2, h3, h4, h5, h6⟩
      omega
    · have ok : s.EntryOk := ⟨h1, h2, h3, h4, h5, h6⟩
      refine ⟨fun hrec => ?_, ?_⟩
      · exact exec_submit_of_refused sub hop (State.submitResult_of_bad_record ok rfl hrec) two_ne_zero
      · rintro hrec cl rfl
        refine ⟨fun c off => ?_, fun on => ⟨fun c owned => ?_, fun free => ?_⟩⟩
        · exact exec_submit_of_refused sub hop (State.submitResult_of_disabled ok rfl hrec off) (by decide)
        · exact exec_submit_of_refused sub hop (State.submitResult_of_owned ok rfl hrec on owned) three_ne_zero
        · exact exec_submit_of_accepted sub hop (State.submitResult_of_free ok rfl hrec on free)
  · rintro s r rs h wf hr rfl
    exact ⟨exec_responseWrite_of_full hr, fun room => ⟨s.writeResponse r rs, exec_responseWrite_of_room hr room,
      State.writeResponse_rd r rs wf, rfl, rfl⟩⟩
  · rintro s v h rfl
    simp only [Claims.Gives, List.forall_mem_cons, exec_sqsize, exec_hostRegisterWrite_sqbase,
      exec_hostRegisterWrite_rqbase, exec_hostRegisterWrite_sqtail, exec_hostRegisterWrite_rqhead]
    refine ⟨fun hr => ?_, fun hr => ⟨fun hs hq => ?_, fun he => ?_, fun hv => ?_, fun hv => ?_⟩⟩
    · simp only [State.writeIfEmpty_of_not_ready _ hr, State.writeIndex_of_not_ready _ _ hr, and_self]
    · simp only [State.writeIfEmpty_of_empty _ hr hs hq]
      exact ⟨rfl, rfl, rfl⟩
    · simp only [State.writeIfEmpty_of_entries _ hr he]
      exact ⟨rfl, rfl, rfl, by simp⟩
    · simp only [State.writeIndex_of_inside _ hr hv]
      exact ⟨rfl, rfl⟩
    · rw [State.writeIndex_of_outside _ hr hv]
      rfl
end

section
/-!
# The fields that the decoder reads (04 R78, R79, R91)

A slot that an opcode, the common fields and OPERANDS decode to has that opcode, those common fields and those
operands: no bit is dropped, and a reserved bit that is set decodes to nothing. The opcodes fall into those that no
slot has, those whose slot has no reserved bit, and those that look at reserved bits.
-/
namespace Sys2Proof

/-- The waits on a token, where RF decides which IMM slots are accepted (06 R117). -/
def isWait (opc : BitVec 8) : Bool := decide (opc = 0x0B#8 ∨ opc = 0x0C#8)

/-- A part of the decoder drops nothing that it reads: the slot that it gives has the opcode, the common fields and the
operands, and takes as many IMM slots as `n` says, but for the waits. -/
def Reads (opc : BitVec 8) (hd : Hdr) (n : Nat × Nat) (f : BitVec 18 → Option Instr) : Prop :=
  ∀ o i, f o = some i → i.opc = opc ∧ i.hdr = hd ∧ i.ops = o ∧ (isWait opc = false → i.immRange = n)

/-- What an opcode decodes to drops nothing, and an opcode that some operands decode under decodes with operands 0. -/
def ReadsAll (opc : BitVec 8) (hd : Hdr) (f : BitVec 18 → Option Instr) : Prop :=
  ∃ n, Reads opc hd n f ∧ (f 0 = none → ∀ o, f o = none)

/-- A field under a mask holds what the masked operands hold there. -/
theorem field_of_and {w lo n : Nat} {o m v : BitVec w} {x : BitVec n} (h : o &&& m = v)
    (hm : m.extractLsb' lo n = BitVec.allOnes n) (hv : v.extractLsb' lo n = x) : x = o.extractLsb' lo n := by
  rw [← hv, ← h, BitVec.extractLsb'_and, hm, BitVec.and_allOnes]

/-- Two neighbouring fields joined are one field. -/
theorem append_field {w lo k n : Nat} {x : BitVec k} {y : BitVec n} {o : BitVec w}
    (h : x = o.extractLsb' (lo + n) k) (h' : y = o.extractLsb' lo n) : x ++ y = o.extractLsb' lo (k + n) := by
  rw [h, h', BitVec.extractLsb'_append_extractLsb'_eq_extractLsb' rfl]

section
variable {opc : BitVec 8} {hd : Hdr} {n : Nat × Nat} {m v : BitVec 18} {g : BitVec 18 → Instr}
  {f : BitVec 18 → Option Instr}

theorem Reads.never : Reads opc hd n fun _ => none := fun _ _ h => (Option.some_ne_none _ h.symm).elim

theorem Reads.onMask (ho : ∀ o, (g o).opc = opc) (hh : ∀ o, (g o).hdr = hd)
    (hr : ∀ o, isWait opc = false → (g o).immRange = n) (hf : ∀ o, o &&& m = v → (g o).ops = o.extractLsb' 0 18)
    (rest : Reads opc hd n f) : Reads opc hd n fun o => if o &&& m = v then some (g o) else f o := by
  intro o i h
  dsimp only at h
  split at h
  case isTrue c =>
    cases Option.some.inj h
    exact ⟨ho o, hh o, (hf o c).trans BitVec.extractLsb'_eq_self, hr o⟩
  case isFalse => exact rest o i h

theorem ReadsAll.never : ReadsAll opc hd fun _ => none := ⟨(0, 0), Reads.never, fun _ _ => rfl⟩

theorem ReadsAll.always (ho : ∀ o, (g o).opc = opc) (hh : ∀ o, (g o).hdr = hd)
    (hr : ∀ o, (g o).immRange = (g 0).immRange) (hf : ∀ o, (g o).ops = o.extractLsb' 0 18) :
    ReadsAll opc hd fun o => some (g o) := by
  refine ⟨(g 0).immRange, fun o i h => ?_, fun h => (Option.some_ne_none _ h).elim⟩
  cases Option.some.inj h
  exact ⟨ho o, hh o, (hf o).trans BitVec.extractLsb'_eq_self, fun _ => hr o⟩

theorem ReadsAll.onMask (ho : ∀ o, (g o).opc = opc) (hh : ∀ o, (g o).hdr = hd)
    (hr : ∀ o, (g o).immRange = (g 0).immRange) (hf : ∀ o, o &&& m = 0#18 → (g o).ops = o.extractLsb' 0 18)
    (rest : Reads opc hd (g 0).immRange f) : ReadsAll opc hd fun o => if o &&& m = 0#18 then some (g o) else f o :=
  ⟨(g 0).immRange, Reads.onMask ho hh (fun o _ => hr o) hf rest,
    fun h => (Option.some_ne_none _ ((if_pos BitVec.zero_and).symm.trans h)).elim⟩

end

/-- The opcodes that no slot has, IMM's among them (04 R82, R91). -/
def opcsUnassigned : List Nat := [
  0x00, 0x11, 0x12, 0x13, 0x14, 0x15, 0x16, 0x17, 0x18, 0x19, 0x1A, 0x1B, 0x1C, 0x1D, 0x1E, 0x1F, 0x4D, 0x4E, 0x4F,
  0x5F, 0x7C, 0x7D, 0x9F, 0xBD, 0xBE, 0xBF, 0xCE, 0xCF, 0xD0, 0xD1, 0xD2, 0xD3, 0xD4, 0xD5, 0xD6, 0xD7, 0xD8, 0xD9,
  0xDA, 0xDB, 0xDC, 0xDD, 0xDE, 0xDF, 0xE9, 0xEA, 0xEB, 0xEC, 0xED, 0xEE, 0xEF, 0xF8, 0xF9, 0xFA, 0xFB, 0xFC, 0xFD,
  0xFE, 0xFF]

/-- The opcodes whose slot has no reserved bit. -/
def opcsWithoutReserved : List Nat := [
  0x01, 0x03, 0x0F, 0x10, 0x20, 0x21, 0x22, 0x23, 0x24, 0x25, 0x26, 0x27, 0x28, 0x29, 0x2A, 0x2B, 0x2C, 0x2D, 0x2E,
  0x2F, 0x30, 0x31, 0x32, 0x33, 0x34, 0x35, 0x36, 0x37, 0x38, 0x39, 0x3A, 0x3B, 0x3E, 0x3F, 0x40, 0x41, 0x45, 0x46,
  0x47, 0x4A, 0x50, 0x51, 0x52, 0x53, 0x54, 0x55, 0x56, 0x57, 0x58, 0x59, 0x5A, 0x5B, 0x5C, 0x64, 0x65, 0x66, 0x67,
  0x68, 0x6F, 0x70, 0x71, 0x72, 0x73, 0x74, 0x75, 0x76, 0x77, 0x78, 0x79, 0x7A, 0x7B, 0x80, 0x81, 0x82, 0x83, 0x84,
  0x85, 0x86, 0x87, 0x88, 0x89, 0x8A, 0x8B, 0x8C, 0x8D, 0x8E, 0x8F, 0x90, 0x91, 0x92, 0x93, 0x94, 0x95, 0x96, 0x98,
  0x99, 0x9A, 0x9B, 0x9C, 0x9D, 0x9E, 0xA0, 0xA1, 0xA2, 0xA3, 0xA4, 0xA5, 0xA8, 0xA9, 0xAA, 0xAC, 0xAD, 0xAF, 0xB3,
  0xB4, 0xBA, 0xBB, 0xBC, 0xE6, 0xE7]

/-- The opcodes that decode by the bits outside their operand fields. -/
def opcsWithReserved : List Nat := [
  0x02, 0x04, 0x05, 0x06, 0x07, 0x08, 0x09, 0x0A, 0x0B, 0x0C, 0x0D, 0x0E, 0x3C, 0x3D, 0x42, 0x43, 0x44, 0x48, 0x49,
  0x4B, 0x4C, 0x5D, 0x5E, 0x60, 0x61, 0x62, 0x63, 0x69, 0x6A, 0x6B, 0x6C, 0x6D, 0x6E, 0x7E, 0x7F, 0x97, 0xA6, 0xA7,
  0xAB, 0xAE, 0xB0, 0xB1, 0xB2, 0xB5, 0xB6, 0xB7, 0xB8, 0xB9, 0xC0, 0xC1, 0xC2, 0xC3, 0xC4, 0xC5, 0xC6, 0xC7, 0xC8,
  0xC9, 0xCA, 0xCB, 0xCC, 0xCD, 0xE0, 0xE1, 0xE2, 0xE3, 0xE4, 0xE5, 0xE8, 0xF0, 0xF1, 0xF2, 0xF3, 0xF4, 0xF5, 0xF6,
  0xF7]

theorem readsAll_of_unassigned {n : Nat} (h : n ∈ opcsUnassigned) (hd : Hdr) :
    ReadsAll (BitVec.ofNat 8 n) hd (decodeOps (BitVec.ofNat 8 n) hd) := by
  unfold opcsUnassigned at h
  fin_cases h
  all_goals exact ReadsAll.never

theorem readsAll_of_withoutReserved {n : Nat} (h : n ∈ opcsWithoutReserved) (hd : Hdr) :
    ReadsAll (BitVec.ofNat 8 n) hd (decodeOps (BitVec.ofNat 8 n) hd) := by
  unfold opcsWithoutReserved at h
  fin_cases h
  all_goals
    refine ReadsAll.always (fun _ => rfl) (fun _ => rfl) (fun _ => rfl) (fun o => ?_)
    repeat' refine append_field ?_ ?_
  all_goals rfl

theorem readsAll_of_withReserved {n : Nat} (h : n ∈ opcsWithReserved) (hd : Hdr) :
    ReadsAll (BitVec.ofNat 8 n) hd (decodeOps (BitVec.ofNat 8 n) hd) := by
  unfold opcsWithReserved at h
  fin_cases h
  all_goals
    refine ReadsAll.onMask (fun _ => rfl) (fun _ => rfl) (fun _ => rfl) (fun o c => ?_) ?_
  all_goals
    repeat' first
      | exact Reads.never
      | refine Reads.onMask (fun _ => rfl) (fun _ => rfl) (fun _ _ => rfl) (fun o c => ?_) ?_
      | refine Reads.onMask (fun _ => rfl) (fun _ => rfl) (fun _ h => nomatch h) (fun o c => ?_) ?_
  all_goals
    repeat' refine append_field ?_ ?_
  all_goals first | rfl | exact field_of_and c rfl rfl

theorem readsAll_decodeOps (opc : BitVec 8) (hd : Hdr) : ReadsAll opc hd (decodeOps opc hd) := by
  have split : ∀ opc : BitVec 8, opc.toNat ∈ opcsUnassigned ∨ opc.toNat ∈ opcsWithoutReserved ∨
      opc.toNat ∈ opcsWithReserved := by decide +kernel
  have here : BitVec.ofNat 8 opc.toNat = opc := by simp
  rw [← here]
  rcases split opc with h | h | h
  · exact readsAll_of_unassigned h hd
  · exact readsAll_of_withoutReserved h hd
  · exact readsAll_of_withReserved h hd

/-! ### Decoding and encoding agree on the fields of a slot -/

/-- A slot decodes from its own opcode, common fields and operands. -/
theorem decodeOps_ops (i : Instr) (h : i.opc ≠ 0xFE) (h' : i.opc ≠ 0xFF) : decodeOps i.opc i.hdr i.ops = some i :=
  Instr.casesOn (motive := Laws.Decoding.Statement) i
    Laws.Decoding.br Laws.Decoding.bri Laws.Decoding.call Laws.Decoding.calli Laws.Decoding.ret Laws.Decoding.yield
    Laws.Decoding.dly Laws.Decoding.susp Laws.Decoding.exit Laws.Decoding.spawn Laws.Decoding.wtk Laws.Decoding.wtkRf1
    Laws.Decoding.wtks Laws.Decoding.wtksRf1 Laws.Decoding.sync Laws.Decoding.swtrap Laws.Decoding.brk
    Laws.Decoding.bdnz Laws.Decoding.add Laws.Decoding.addi Laws.Decoding.sub Laws.Decoding.mul Laws.Decoding.mulh
    Laws.Decoding.mulhu Laws.Decoding.div Laws.Decoding.divu Laws.Decoding.rem Laws.Decoding.remu Laws.Decoding.and_
    Laws.Decoding.andi Laws.Decoding.or_ Laws.Decoding.ori Laws.Decoding.xor_ Laws.Decoding.xori Laws.Decoding.shl
    Laws.Decoding.shli Laws.Decoding.shr Laws.Decoding.shri Laws.Decoding.sra Laws.Decoding.srai Laws.Decoding.min
    Laws.Decoding.max Laws.Decoding.minu Laws.Decoding.maxu Laws.Decoding.adds Laws.Decoding.subs Laws.Decoding.clz
    Laws.Decoding.popc Laws.Decoding.movi Laws.Decoding.sel Laws.Decoding.bptr Laws.Decoding.bpadd Laws.Decoding.bpchk
    Laws.Decoding.bfx Laws.Decoding.bfxu Laws.Decoding.bfi Laws.Decoding.cmp Laws.Decoding.cmpi Laws.Decoding.plog
    Laws.Decoding.pmovTos Laws.Decoding.pmovFroms Laws.Decoding.wmrg Laws.Decoding.wmovTow Laws.Decoding.wmovTos
    Laws.Decoding.wmov Laws.Decoding.wnull Laws.Decoding.faddF32 Laws.Decoding.faddF64 Laws.Decoding.fsubF32
    Laws.Decoding.fsubF64 Laws.Decoding.fmulF32 Laws.Decoding.fmulF64 Laws.Decoding.ffmaF32 Laws.Decoding.ffmaF64
    Laws.Decoding.fminF32 Laws.Decoding.fminF64 Laws.Decoding.fmaxF32 Laws.Decoding.fmaxF64 Laws.Decoding.fcmp
    Laws.Decoding.fcvt Laws.Decoding.fcls Laws.Decoding.ld Laws.Decoding.st Laws.Decoding.vld Laws.Decoding.vst
    Laws.Decoding.vlds Laws.Decoding.vsts Laws.Decoding.vgth Laws.Decoding.vsct Laws.Decoding.fmt Laws.Decoding.vjoin
    Laws.Decoding.vjoinClr Laws.Decoding.cflush Laws.Decoding.pref Laws.Decoding.sbind Laws.Decoding.sbindU
    Laws.Decoding.tksv Laws.Decoding.tkld Laws.Decoding.aadd Laws.Decoding.aand Laws.Decoding.aor Laws.Decoding.axor
    Laws.Decoding.amin Laws.Decoding.amax Laws.Decoding.aminu Laws.Decoding.amaxu Laws.Decoding.aswp
    Laws.Decoding.acas Laws.Decoding.aaddf Laws.Decoding.amaxf Laws.Decoding.aminf Laws.Decoding.wchk
    Laws.Decoding.wwait Laws.Decoding.wwaitS Laws.Decoding.vaddI32 Laws.Decoding.vsubI32 Laws.Decoding.vmulI32
    Laws.Decoding.vminI32 Laws.Decoding.vmaxI32 Laws.Decoding.vminu Laws.Decoding.vmaxu Laws.Decoding.vand
    Laws.Decoding.vor Laws.Decoding.vxor Laws.Decoding.vshl Laws.Decoding.vshr Laws.Decoding.vsra
    Laws.Decoding.vcmpI32 Laws.Decoding.vcmpu Laws.Decoding.vaddsI32 Laws.Decoding.vaddF32 Laws.Decoding.vsubF32
    Laws.Decoding.vmulF32 Laws.Decoding.vfmaF32 Laws.Decoding.vminF32 Laws.Decoding.vmaxF32 Laws.Decoding.vcmpF32
    Laws.Decoding.vcvt Laws.Decoding.vaddF64 Laws.Decoding.vsubF64 Laws.Decoding.vmulF64 Laws.Decoding.vfmaF64
    Laws.Decoding.vminF64 Laws.Decoding.vmaxF64 Laws.Decoding.vcmpF64 Laws.Decoding.vaddBf16 Laws.Decoding.vmulBf16
    Laws.Decoding.vfmaBf16 Laws.Decoding.vaddF16 Laws.Decoding.vmulF16 Laws.Decoding.vfmaF16 Laws.Decoding.vmlog
    Laws.Decoding.vmmovTos Laws.Decoding.vmmovFroms Laws.Decoding.vsel Laws.Decoding.vperm Laws.Decoding.vshuf
    Laws.Decoding.vbcst Laws.Decoding.vext Laws.Decoding.vins Laws.Decoding.vmov Laws.Decoding.vidx
    Laws.Decoding.vrsumF32 Laws.Decoding.vrsumF64 Laws.Decoding.vrsumI32 Laws.Decoding.vrmax Laws.Decoding.vrmin
    Laws.Decoding.vscanF32 Laws.Decoding.vrcp Laws.Decoding.vrsq Laws.Decoding.vexp2 Laws.Decoding.vlog2
    Laws.Decoding.vqnt Laws.Decoding.vdqt Laws.Decoding.vrnd Laws.Decoding.mxa Laws.Decoding.mxg Laws.Decoding.mxt
    Laws.Decoding.chb Laws.Decoding.chc Laws.Decoding.chq Laws.Decoding.chs Laws.Decoding.chf Laws.Decoding.cht
    Laws.Decoding.chx Laws.Decoding.lkrd Laws.Decoding.lkld Laws.Decoding.lkz Laws.Decoding.ems Laws.Decoding.emsN
    Laws.Decoding.cpy Laws.Decoding.cpyr Laws.Decoding.coll Laws.Decoding.abrt Laws.Decoding.arm Laws.Decoding.pub
    Laws.Decoding.rpsnd Laws.Decoding.rprcv Laws.Decoding.est Laws.Decoding.srrd Laws.Decoding.srwr Laws.Decoding.eret
    Laws.Decoding.eretS Laws.Decoding.icinv Laws.Decoding.eqrd Laws.Decoding.eqwr Laws.Decoding.btinv
    Laws.Decoding.tlbinv Laws.Decoding.imm Laws.Decoding.bundleIssue Laws.Decoding.runOverrun Laws.Decoding.molcExpiry
    Laws.Decoding.resultLanding Laws.Decoding.remoteCompletion Laws.Decoding.dispatch Laws.Decoding.gangDispatch
    Laws.Decoding.suspendedWaitSatisfied Laws.Decoding.gangSyncRelease Laws.Decoding.exitDrainComplete
    Laws.Decoding.retirementDecrement Laws.Decoding.spawnRecordWrite Laws.Decoding.tokenedOperationComplete
    Laws.Decoding.entryRipens Laws.Decoding.memoryPortAccess Laws.Decoding.pageWalk Laws.Decoding.pageZeroing
    Laws.Decoding.atomicPerform Laws.Decoding.batchPerform Laws.Decoding.streamElementFetch
    Laws.Decoding.selfRefreshEnter Laws.Decoding.selfRefreshExit Laws.Decoding.rowBackOff Laws.Decoding.peerAccess
    Laws.Decoding.peerResponse Laws.Decoding.retryLimit Laws.Decoding.copyPerform Laws.Decoding.reduceCopyPerform
    Laws.Decoding.publishPerform Laws.Decoding.triggerMet Laws.Decoding.sourceFree Laws.Decoding.delivered
    Laws.Decoding.collectiveRun Laws.Decoding.collectiveStep Laws.Decoding.commit Laws.Decoding.abortRequest
    Laws.Decoding.abortDecision Laws.Decoding.mismatchNotice Laws.Decoding.announcement Laws.Decoding.hopArrival
    Laws.Decoding.acknowledgement Laws.Decoding.contributionApply Laws.Decoding.chainClose Laws.Decoding.linkSnapshot
    Laws.Decoding.startingValueLoad Laws.Decoding.startingValueZero Laws.Decoding.arbiterRequest
    Laws.Decoding.chainFreezeMessage Laws.Decoding.chainCancelMessage Laws.Decoding.routerTakesContribution
    Laws.Decoding.reductionPacket Laws.Decoding.treeTimeout Laws.Decoding.roundResultReceive
    Laws.Decoding.checkValueFailure Laws.Decoding.cancelStop Laws.Decoding.submit Laws.Decoding.cancel
    Laws.Decoding.responseWrite Laws.Decoding.sqsize Laws.Decoding.hostRegisterWrite Laws.Decoding.prq
    Laws.Decoding.resume Laws.Decoding.lcancel Laws.Decoding.attreq Laws.Decoding.onlimirWrite
    Laws.Decoding.slotTableFrameStart Laws.Decoding.coreRetire Laws.Decoding.channelRetireHold
    Laws.Decoding.channelMigration Laws.Decoding.reset Laws.Decoding.firmwareSignatureVerify
    Laws.Decoding.selfCalibration Laws.Decoding.memoryInitialisation Laws.Decoding.hbmZeroing
    Laws.Decoding.schedulerClear Laws.Decoding.lpRegionZeroed Laws.Decoding.lpTierZeroingComplete
    Laws.Decoding.fatalError Laws.Decoding.dump Laws.Decoding.pnowApproachingCap Laws.Decoding.thermalStall
    h h'

/-- The slot that is decoded has the opcode, the common fields and the operands that were read. -/
theorem decodeOps_fields {opc : BitVec 8} {hd : Hdr} {o : BitVec 18} {i : Instr} (h : decodeOps opc hd o = some i) :
    i.opc = opc ∧ i.hdr = hd ∧ i.ops = o := by
  obtain ⟨n, reads, -⟩ := readsAll_decodeOps opc hd
  obtain ⟨ho, hh, hops, -⟩ := reads o i h
  exact ⟨ho, hh, hops⟩

/-- An opcode whose form RF decides: masked to RF, the operands decode to the form that they have. -/
theorem immRange_of_forms {opc : BitVec 8} {hd : Hdr} {o : BitVec 18} {i : Instr} {f g : BitVec 18 → Instr}
    (hdec : ∀ o, decodeOps opc hd o = if o &&& 0x01000#18 = 0x00000#18 then some (f o)
      else if o &&& 0x0103F#18 = 0x01000#18 then some (g o) else none)
    (hf : ∀ o o', (f o).immRange = (f o').immRange) (hg : ∀ o o', (g o).immRange = (g o').immRange)
    (h : decodeOps opc hd o = some i) :
    ∃ j, decodeOps opc hd (o &&& 0x01000#18) = some j ∧ j.immRange = i.immRange := by
  rw [hdec] at h
  by_cases rf : o &&& 0x01000#18 = 0#18
  · rw [if_pos rf] at h
    cases Option.some.inj h
    exact ⟨_, by rw [hdec, rf]; rfl, hf _ _⟩
  · rw [if_neg rf] at h
    split at h
    case isTrue c =>
      have set : o &&& 0x01000#18 = 0x01000#18 := by
        have := congrArg (· &&& 0x01000#18) c
        rwa [BitVec.and_assoc] at this
      cases Option.some.inj h
      exact ⟨_, by rw [hdec, set]; rfl, hg _ _⟩
    case isFalse => exact (Option.some_ne_none _ h.symm).elim

/-- RF of a wait decides both its form and the IMM slots that it accepts (06 R117, R125). -/
theorem immRange_of_isWait {opc : BitVec 8} {hd : Hdr} {o : BitVec 18} {i : Instr} (hw : isWait opc = true)
    (h : decodeOps opc hd o = some i) :
    ∃ j, decodeOps opc hd (o &&& 0x01000#18) = some j ∧ j.immRange = i.immRange := by
  obtain rfl | rfl : opc = 0x0B#8 ∨ opc = 0x0C#8 := by simpa [isWait] using hw
  · exact immRange_of_forms (f := fun o => .wtk hd (o.extractLsb' 13 5) (o.extractLsb' 0 12))
      (g := fun o => .wtkRf1 hd (o.extractLsb' 13 5) (o.extractLsb' 6 6))
      (fun _ => rfl) (fun _ _ => rfl) (fun _ _ => rfl) h
  · exact immRange_of_forms (f := fun o => .wtks hd (o.extractLsb' 13 5) (o.extractLsb' 0 12))
      (g := fun o => .wtksRf1 hd (o.extractLsb' 13 5) (o.extractLsb' 6 6))
      (fun _ => rfl) (fun _ _ => rfl) (fun _ _ => rfl) h

/-- A slot accepts the IMM slots of the instruction that it decodes to. -/
theorem RawSlot.immRange_of_instr? {r : RawSlot} {i : Instr} (h : r.instr? = some i) : r.immRange = i.immRange := by
  have found : ∃ j, decodeOps r.raw.opc ⟨r.raw.g, r.raw.l, r.x⟩ (if r.raw.opc = 0x0B#8 ∨ r.raw.opc = 0x0C#8
      then r.raw.ops &&& 0x01000#18 else 0#18) = some j ∧ j.immRange = i.immRange := by
    cases hw : isWait r.raw.opc with
    | true =>
      rw [if_pos (by simpa [isWait] using hw)]
      exact immRange_of_isWait hw h
    | false =>
      rw [if_neg (by simpa [isWait] using hw)]
      obtain ⟨n, reads, zero⟩ := readsAll_decodeOps r.raw.opc ⟨r.raw.g, r.raw.l, r.x⟩
      obtain ⟨j, hj⟩ := Option.ne_none_iff_exists'.mp fun none => Option.some_ne_none i (h.symm.trans (zero none _))
      obtain ⟨-, -, -, hi⟩ := reads _ i h
      obtain ⟨-, -, -, hn⟩ := reads _ j hj
      exact ⟨j, hj, (hn hw).trans (hi hw).symm⟩
  obtain ⟨j, hj, hn⟩ := found
  unfold RawSlot.immRange
  dsimp only
  rw [hj]
  exact hn

/-- The M slots that read the vector file, by their opcodes (09 R194). -/
theorem Instr.readsVectorM_eq (i : Instr) : i.readsVectorM = decide (i.opc.toNat ∈ [0x63, 0x65, 0x66, 0x67]) := by
  cases i <;> rfl

theorem Instr.wf_eq {i : Instr} (h : i.opc ≠ 0xFF) : i.wf = (decide (i.opc ≠ 0xFE) &&
    decide (i.immRange.1 ≤ i.hdr.x.length) && decide (i.hdr.x.length ≤ i.immRange.2) && decide (i.hdr.l ≠ 3) &&
    !(decide (i.hdr.l = 2) && (decide (unitOf i.opc.toNat = .v) || i.readsVectorM)) && i.legal) := by
  unfold Instr.wf
  split
  · exact absurd rfl h
  · rfl

theorem encode_eq {i : Instr} (h : i.opc ≠ 0xFF) :
    encode i = Raw.word ⟨i.hdr.g, i.opc, i.hdr.l, i.ops⟩ i.hdr.x.isEmpty :: immWords i.hdr.x := by
  unfold encode
  split
  · exact absurd rfl h
  · rfl

/-- IMM alone has the opcode of IMM. -/
theorem Instr.eq_imm_of_opc {i : Instr} (h : i.opc = 0xFF) : ∃ v, i = .imm v := by
  have his : decide (i.opc = 0xFF) = true := decide_eq_true h
  clear h
  cases i
  case imm v => exact ⟨v, rfl⟩
  all_goals exact (Bool.false_ne_true his).elim

end Sys2Proof
end

section
/-!
# A bundle of one slot and its words (04 R73, R77, R78, R82, R85)

A slot word is its stop bit and its fields, and an IMM slot its stop bit and IMMVAL. A bundle of one slot is the slot's
word followed by its IMM slots; it decodes just where the slot is well formed, since the checks of a bundle that
compare slots with each other find nothing to compare.
-/
namespace Sys2Proof
open Laws (appendHi appendLo)

/-! ### Slot words (04 R78, R82) -/

@[simp] theorem Raw.ofWord_word (r : Raw) (stop : Bool) : Raw.ofWord (r.word stop) = r := by
  have guard : (r.word stop).extractLsb' 28 3 = r.g := (appendHi _ _ (by decide)).trans
    ((appendHi _ _ (by decide)).trans ((appendHi _ _ (by decide)).trans ((appendLo _ _ (by decide)).trans
      BitVec.extractLsb'_eq_self)))
  have opcode : (r.word stop).extractLsb' 20 8 = r.opc := (appendHi _ _ (by decide)).trans
    ((appendHi _ _ (by decide)).trans ((appendLo _ _ (by decide)).trans BitVec.extractLsb'_eq_self))
  have lane : (r.word stop).extractLsb' 18 2 = r.l := (appendHi _ _ (by decide)).trans
    ((appendLo _ _ (by decide)).trans BitVec.extractLsb'_eq_self)
  have operands : (r.word stop).extractLsb' 0 18 = r.ops :=
    (appendLo _ _ (by decide)).trans BitVec.extractLsb'_eq_self
  rw [Raw.ofWord, guard, opcode, lane, operands]

@[simp] theorem isImm_word (r : Raw) (stop : Bool) : isImm (r.word stop) = decide (r.opc = 0xFF#8) := by
  have opcode : (r.word stop).extractLsb' 20 8 = r.opc := congrArg Raw.opc (r.ofWord_word stop)
  rw [isImm, opcode]

theorem ofBool_stopBit (w : SlotWord) : BitVec.ofBool (stopBit w) = w.extractLsb' 31 1 := by
  have one : ∀ b : BitVec 1, BitVec.ofBool (b == 1#1) = b := by decide
  rw [stopBit, BitVec.getLsbD_eq_extractLsb', one]

/-- A slot word is its stop bit and its fields. -/
theorem word_ofWord (w : SlotWord) : (Raw.ofWord w).word (stopBit w) = w := by
  have whole : (Raw.ofWord w).word (stopBit w) = w.extractLsb' 0 32 :=
    append_field (append_field (append_field (append_field (ofBool_stopBit w) rfl) rfl) rfl) rfl
  rw [whole, BitVec.extractLsb'_eq_self]

@[simp] theorem isImm_immWord (v : BitVec 20) (stop : Bool) : isImm (immWord v stop) = true :=
  decide_eq_true ((appendHi _ _ (by decide)).trans ((appendLo _ _ (by decide)).trans BitVec.extractLsb'_eq_self))

@[simp] theorem immVal_immWord (v : BitVec 20) (stop : Bool) : immVal (immWord v stop) = v :=
  (appendLo _ _ (by decide)).trans BitVec.extractLsb'_eq_self

@[simp] theorem guard_immWord (v : BitVec 20) (stop : Bool) : (immWord v stop).extractLsb' 28 3 = 0#3 :=
  (appendHi _ _ (by decide)).trans ((appendHi _ _ (by decide)).trans ((appendLo _ _ (by decide)).trans
    BitVec.extractLsb'_eq_self))

/-- An IMM slot without a guard is its stop bit and its IMMVAL. -/
theorem immWord_immVal {w : SlotWord} (hw : isImm w = true) (hg : w.extractLsb' 28 3 = 0#3) :
    immWord (immVal w) (stopBit w) = w := by
  have opcode : 0xFF#8 = w.extractLsb' 20 8 := (of_decide_eq_true hw).symm
  have whole : immWord (immVal w) (stopBit w) = w.extractLsb' 0 32 :=
    append_field (append_field (append_field (ofBool_stopBit w) hg.symm) opcode) rfl
  rw [whole, BitVec.extractLsb'_eq_self]

/-! ### IMM slots after their owner -/

theorem immWords_cons (v : BitVec 20) (vs : List (BitVec 20)) :
    immWords (v :: vs) = immWord v vs.isEmpty :: immWords vs := by
  cases vs <;> rfl

theorem mem_immWords {w : SlotWord} {vs : List (BitVec 20)} (h : w ∈ immWords vs) : ∃ v stop, w = immWord v stop := by
  induction vs with
  | nil => cases h
  | cons v vs ih =>
    rw [immWords_cons] at h
    rcases List.mem_cons.mp h with rfl | h
    · exact ⟨v, _, rfl⟩
    · exact ih h

theorem map_immVal_immWords (vs : List (BitVec 20)) : (immWords vs).map immVal = vs := by
  induction vs with
  | nil => rfl
  | cons v vs ih => rw [immWords_cons, List.map_cons, ih, immVal_immWord]

/-- Words that are all IMM slots stand together. -/
theorem spanImm_of_all {ws : List SlotWord} (h : ∀ w ∈ ws, isImm w = true) : spanImm ws = (ws, []) := by
  induction ws with
  | nil => rfl
  | cons w ws ih =>
    obtain ⟨hw, rest⟩ := List.forall_mem_cons.mp h
    rw [spanImm, if_pos hw, ih rest]

theorem spanImm_fst_all (ws : List SlotWord) : ∀ w ∈ (spanImm ws).1, isImm w = true := by
  induction ws with
  | nil => nofun
  | cons w ws ih =>
    rw [spanImm]
    split
    case isTrue hw => exact List.forall_mem_cons.mpr ⟨hw, ih⟩
    case isFalse => nofun

theorem spanImm_append (ws : List SlotWord) : (spanImm ws).1 ++ (spanImm ws).2 = ws := by
  induction ws with
  | nil => rfl
  | cons w ws ih =>
    rw [spanImm]
    split
    · exact congrArg (w :: ·) ih
    · rfl

/-- No IMM slot is guarded where every guard field is zero. -/
theorem guardedImms_eq_nil {pos : Nat} {ws : List SlotWord} :
    guardedImms pos ws = [] ↔ ∀ w ∈ ws, w.extractLsb' 28 3 = 0#3 := by
  have words : (ws.zipIdx pos).map (·.1) = ws := List.zipIdx_map_fst ..
  constructor
  · intro h w hw
    rw [← words] at hw
    obtain ⟨p, hp, rfl⟩ := List.mem_map.mp hw
    have none := List.filter_eq_nil_iff.mp (List.map_eq_nil_iff.mp h) p hp
    simpa using none
  · intro h
    refine List.map_eq_nil_iff.mpr (List.filter_eq_nil_iff.mpr fun p hp => ?_)
    have hw : p.1 ∈ ws := words ▸ List.mem_map_of_mem hp
    simp [h _ hw]

/-- A word and the IMM slots after it are one slot. -/
theorem groupSlots_of_imms {n pos : Nat} {w : SlotWord} {ws : List SlotWord} (h : ∀ x ∈ ws, isImm x = true) :
    groupSlots (n + 1) pos (w :: ws) = [⟨pos, Raw.ofWord w, ws.map immVal, guardedImms (pos + 1) ws⟩] := by
  rw [groupSlots, spanImm_of_all h]
  cases n <;> rfl

/-- A bundle of one slot has only IMM slots after its first word. -/
theorem imms_of_groupSlots {n pos : Nat} {w : SlotWord} {ws : List SlotWord} {r : RawSlot} (hn : ws.length ≤ n)
    (h : groupSlots (n + 1) pos (w :: ws) = [r]) : ∀ x ∈ ws, isImm x = true := by
  rw [groupSlots] at h
  obtain ⟨-, rest⟩ := List.cons_eq_cons.mp h
  have after : (spanImm ws).2 = [] := by
    cases n with
    | zero =>
      rw [List.eq_nil_of_length_eq_zero (Nat.le_zero.mp hn)]
      rfl
    | succ n =>
      match hs : (spanImm ws).2 with
      | [] => rfl
      | x :: xs => rw [hs] at rest; cases rest
  have all := spanImm_append ws
  rw [after, List.append_nil] at all
  rw [← all]
  exact spanImm_fst_all ws

/-- The stop bit stands on the last word of a bundle (04 R73). -/
theorem stopBit_of_takeBundle {n : Nat} {w : SlotWord} {ws : List SlotWord}
    (h : takeBundle n (w :: ws) = some (w :: ws)) :
    stopBit w = ws.isEmpty ∧ (ws ≠ [] → ∃ k, takeBundle k ws = some ws) := by
  cases n with
  | zero => cases h
  | succ n =>
    rw [takeBundle] at h
    split at h
    case isTrue stop =>
      cases Option.some.inj h
      exact ⟨stop, fun h => absurd rfl h⟩
    case isFalse stop =>
      obtain ⟨us, hus, he⟩ := Option.map_eq_some_iff.mp h
      obtain rfl : us = ws := (List.cons_eq_cons.mp he).2
      have more : us ≠ [] := by
        rintro rfl
        cases n <;> cases hus
      refine ⟨?_, fun _ => ⟨n, hus⟩⟩
      rw [Bool.eq_false_iff.mpr stop, List.isEmpty_eq_false_iff.mpr more]

/-- The IMM slots at the end of a bundle are the words of their values (04 R73, R82). -/
theorem immWords_of_takeBundle {ws : List SlotWord} (h : ws ≠ [] → ∃ n, takeBundle n ws = some ws)
    (hi : ∀ w ∈ ws, isImm w = true) (hg : ∀ w ∈ ws, w.extractLsb' 28 3 = 0#3) : immWords (ws.map immVal) = ws := by
  induction ws with
  | nil => rfl
  | cons w ws ih =>
    obtain ⟨n, hn⟩ := h (List.cons_ne_nil w ws)
    obtain ⟨stop, rest⟩ := stopBit_of_takeBundle hn
    obtain ⟨iw, iws⟩ := List.forall_mem_cons.mp hi
    obtain ⟨gw, gws⟩ := List.forall_mem_cons.mp hg
    rw [List.map_cons, immWords_cons, ih rest iws gws, List.isEmpty_map, ← stop, immWord_immVal iw gw]

/-! ### The checks of a bundle (04 R77, R85) -/

/-- The slots of a bundle (04 R82). -/
def slotsOf (ws : List SlotWord) : List RawSlot := groupSlots ws.length 0 ws

/-- The checks of framing and decode that a list of slots passes (04 R77 cases 2 to 7, R85 order 4). -/
structure Passes (rs : List RawSlot) : Prop where
  count : overUnit rs = none
  order : outOfOrder rs = none
  surplus : surplusImm rs = none
  missing : missingImm rs = none
  ports : clashing rs = []
  lanes : laneTwo rs = []
  brk : ¬ (2 ≤ (brks rs).length ∧ (rs.all fun r => decide (r.raw.opc = 0x0F#8) || r.decodes) = true)
  decodes : rs.all RawSlot.decodes = true

/-- A bundle decodes to its slots where its first word is no IMM slot and its slots pass every check. -/
theorem decodeBundle_ok_iff {ws : List SlotWord} {l : List (Nat × Instr)} : decodeBundle ws = .ok l ↔
    (ws.head?.map isImm).getD true = false ∧ Passes (slotsOf ws) ∧
      l = (slotsOf ws).filterMap fun r => r.instr?.map fun i => (r.pos, i) := by
  unfold decodeBundle slotsOf
  dsimp only
  generalize groupSlots ws.length 0 ws = rs
  constructor
  · intro h
    iterate 8
      split at h
      · cases h
    rename_i _ count _ order _ place _ missing ports lanes brk decodes
    split at place
    · cases place
    rename_i head
    exact ⟨Bool.eq_false_iff.mpr head, ⟨count, order, place, missing, not_not.mp ports, not_not.mp lanes, brk,
      Bool.eq_true_of_not_eq_false decodes⟩, (Except.ok.inj h).symm⟩
  · rintro ⟨head, p, rfl⟩
    simp only [head, p.count, p.order, p.surplus, p.missing, p.ports, p.lanes, p.decodes, if_neg p.brk]
    simp

/-! ### A bundle of one slot -/

theorem overUnit_single (r : RawSlot) : overUnit [r] = none := by
  have room : unitMax r.unit ≠ 0 := by cases r.unit <;> decide
  simp [overUnit, room]

theorem outOfOrder_single (r : RawSlot) : outOfOrder [r] = none := by simp [outOfOrder]

theorem clashing_single (r : RawSlot) : clashing [r] = [] := by simp [clashing]

theorem brks_single (r : RawSlot) : (brks [r]).length ≤ 1 := by
  rw [brks, List.length_map]
  exact List.length_filter_le ..

theorem surplusImm_single (r : RawSlot) : surplusImm [r] = none ↔ r.x.length ≤ r.immRange.2 := by
  simp [surplusImm]

theorem missingImm_single (r : RawSlot) : missingImm [r] = none ↔ r.immRange.1 ≤ r.x.length := by
  simp [missingImm]

theorem laneTwo_single (r : RawSlot) : laneTwo [r] = [] ↔
    (decide (r.raw.l = 2#2) &&
      (decide (r.unit = .v) || decide (r.raw.opc.toNat ∈ [0x63, 0x65, 0x66, 0x67]))) = false := by
  rw [laneTwo, List.map_eq_nil_iff, List.filter_eq_nil_iff]
  simp only [List.forall_mem_singleton, Bool.not_eq_true]

/-- A slot alone passes the checks of its bundle where it is well formed and its IMM slots bear no guard. -/
theorem passes_single {r : RawSlot} {i : Instr} (h : r.instr? = some i) :
    Passes [r] ↔ r.guarded = [] ∧ i.wf = true := by
  obtain ⟨ho, hh, -⟩ := decodeOps_fields h
  have slot : i.opc ≠ 0xFE ∧ i.opc ≠ 0xFF := by
    unfold RawSlot.instr? at h
    rw [← ho] at h
    constructor <;> intro he <;> rw [he] at h <;> cases h
  have hg : i.hdr.l = r.raw.l := congrArg Hdr.l hh
  have hx : i.hdr.x = r.x := congrArg Hdr.x hh
  have sound : r.sound = (decide (i.hdr.l ≠ 3) && i.legal) := by rw [RawSlot.sound, h, hg]; rfl
  have lane : laneTwo [r] = [] ↔
      (decide (i.hdr.l = 2) && (decide (unitOf i.opc.toNat = .v) || i.readsVectorM)) = false := by
    rw [laneTwo_single, i.readsVectorM_eq, RawSlot.unit, hg, ho]
    rfl
  have alone : Passes [r] ↔ r.x.length ≤ r.immRange.2 ∧ r.immRange.1 ≤ r.x.length ∧ laneTwo [r] = [] ∧
      r.guarded = [] ∧ r.sound = true := by
    constructor
    · rintro ⟨-, -, surplus, missing, -, lanes, -, decodes⟩
      exact ⟨(surplusImm_single r).mp surplus, (missingImm_single r).mp missing, lanes,
        by simpa [RawSlot.decodes] using decodes⟩
    · rintro ⟨surplus, missing, lanes, decodes⟩
      exact ⟨overUnit_single r, outOfOrder_single r, (surplusImm_single r).mpr surplus,
        (missingImm_single r).mpr missing, clashing_single r, lanes, fun h => by have := brks_single r; omega,
        by simpa [RawSlot.decodes] using decodes⟩
  rw [alone, lane, sound, RawSlot.immRange_of_instr? h, ← hx, Instr.wf_eq slot.2, decide_eq_true slot.1]
  simp only [Bool.true_and, Bool.and_eq_true, decide_eq_true_eq, Bool.not_eq_true']
  tauto

/-- What decodes as a bundle decodes as a slot. -/
theorem decode_of_decodeBundle {ws : List SlotWord} {p : Nat} {i : Instr} (h : decodeBundle ws = .ok [(p, i)]) :
    decode ws = some i := by
  obtain ⟨head, -, -⟩ := decodeBundle_ok_iff.mp h
  unfold decode
  split
  case h_1 w =>
    have hw : isImm w = false := head
    rw [if_neg (by simp [hw]), h]
  case h_2 => rw [h]

/-- What decodes as a slot is an IMM slot alone, or a bundle of that slot. -/
theorem decode_cases {ws : List SlotWord} {i : Instr} (h : decode ws = some i) :
    (∃ w, ws = [w] ∧ isImm w = true ∧ w.extractLsb' 28 3 = 0#3 ∧ i = .imm (immVal w)) ∨
      ∃ p, decodeBundle ws = .ok [(p, i)] := by
  have bundle : ∀ {o : Except (DecodeErr × BitVec 8) (List (Nat × Instr))},
      (match o with | .ok [(_, i)] => some i | _ => none) = some i → ∃ p, o = .ok [(p, i)] := by
    intro o h
    split at h
    · cases Option.some.inj h
      exact ⟨_, rfl⟩
    · cases h
  unfold decode at h
  split at h
  case h_1 w =>
    split at h
    case isTrue hw => exact .inl ⟨w, rfl, hw.1, hw.2, (Option.some.inj h).symm⟩
    case isFalse => exact .inr (bundle h)
  case h_2 => exact .inr (bundle h)

/-- The slots of a bundle of one slot: its own word and its IMM slots. -/
theorem slotsOf_word (r : Raw) (stop : Bool) (x : List (BitVec 20)) :
    slotsOf (r.word stop :: immWords x) = [⟨0, r, x, []⟩] := by
  have imms : ∀ w ∈ immWords x, isImm w = true := by
    intro w hw
    obtain ⟨v, stop, rfl⟩ := mem_immWords hw
    exact isImm_immWord v stop
  have guards : guardedImms 1 (immWords x) = [] := guardedImms_eq_nil.mpr <| by
    intro w hw
    obtain ⟨v, stop, rfl⟩ := mem_immWords hw
    exact guard_immWord v stop
  rw [slotsOf, List.length_cons, groupSlots_of_imms imms, Raw.ofWord_word, map_immVal_immWords, guards]

/-- A well-formed slot's words are a bundle that decodes to it. -/
theorem decodeBundle_encode {i : Instr} (h : i.wf = true) (himm : i.opc ≠ 0xFF) :
    decodeBundle (encode i) = .ok [(0, i)] := by
  have event : i.opc ≠ 0xFE := by
    rw [Instr.wf_eq himm] at h
    intro he
    simp [he] at h
  have hi : RawSlot.instr? ⟨0, ⟨i.hdr.g, i.opc, i.hdr.l, i.ops⟩, i.hdr.x, []⟩ = some i := decodeOps_ops i event himm
  rw [encode_eq himm, decodeBundle_ok_iff, slotsOf_word]
  refine ⟨?_, (passes_single hi).mpr ⟨rfl, h⟩, ?_⟩
  · simpa using himm
  · rw [List.filterMap_cons_some (b := (0, i)) (by rw [hi]; rfl)]
    rfl

/-- A bundle that decodes to one slot alone has one slot, and it decodes to that. -/
theorem slotsOf_of_single {ws : List SlotWord} {p : Nat} {i : Instr} (h : decodeBundle ws = .ok [(p, i)]) :
    ∃ r, slotsOf ws = [r] ∧ r.instr? = some i := by
  obtain ⟨-, passes, hl⟩ := decodeBundle_ok_iff.mp h
  have all : ∀ r ∈ slotsOf ws, ∃ j, r.instr? = some j := by
    intro r hr
    have hd := List.all_eq_true.mp passes.decodes r hr
    simp only [RawSlot.decodes, RawSlot.sound, Bool.and_eq_true] at hd
    match hi : r.instr? with
    | some j => exact ⟨j, rfl⟩
    | none => rw [hi] at hd; exact absurd hd.2.2 Bool.false_ne_true
  match hs : slotsOf ws with
  | [] => rw [hs] at hl; cases hl
  | r :: rs =>
    rw [hs] at hl all
    obtain ⟨j, hj⟩ := all r List.mem_cons_self
    rw [List.filterMap_cons_some (by rw [hj]; rfl)] at hl
    obtain ⟨hij, hr⟩ := List.cons_eq_cons.mp hl
    cases rs with
    | nil => exact ⟨r, rfl, hj.trans (congrArg (some ·.2) hij).symm⟩
    | cons q rs =>
      obtain ⟨k, hk⟩ := all q (List.mem_cons_of_mem _ List.mem_cons_self)
      rw [List.filterMap_cons_some (by rw [hk]; rfl)] at hr
      cases hr

/-- A bundle that decodes to one slot is that slot's words. -/
theorem encode_of_decodeBundle {ws : List SlotWord} {p : Nat} {i : Instr} (ht : takeBundle 8 ws = some ws)
    (h : decodeBundle ws = .ok [(p, i)]) : i.wf = true ∧ encode i = ws := by
  obtain ⟨r, hs, hi⟩ := slotsOf_of_single h
  obtain ⟨head, passes, -⟩ := decodeBundle_ok_iff.mp h
  rw [hs] at passes
  obtain ⟨guards, wf⟩ := (passes_single hi).mp passes
  cases ws with
  | nil => cases hs
  | cons w ws =>
    have imms := imms_of_groupSlots le_rfl hs
    rw [slotsOf, List.length_cons, groupSlots_of_imms imms] at hs
    obtain rfl := (List.cons_eq_cons.mp hs).1
    obtain ⟨stop, rest⟩ := stopBit_of_takeBundle ht
    obtain ⟨ho, hh, hops⟩ := decodeOps_fields hi
    have himm : i.opc ≠ 0xFF := by
      rw [ho]
      exact of_decide_eq_false head
    refine ⟨wf, ?_⟩
    have fields : (⟨i.hdr.g, i.opc, i.hdr.l, i.ops⟩ : Raw) = Raw.ofWord w := by rw [hh, ho, hops]
    have values : i.hdr.x = ws.map immVal := congrArg Hdr.x hh
    rw [encode_eq himm, fields, values, List.isEmpty_map, ← stop, word_ofWord,
      immWords_of_takeBundle (fun h => ⟨_, (rest h).choose_spec⟩) imms (guardedImms_eq_nil.mp guards)]

end Sys2Proof

open Sys2Proof

/-- Settles O59: an IMM slot alone is read whole; any other well-formed slot is the only slot of its bundle, and its
opcode, common fields and operands decode to it. -/
theorem decodingTheEncodedSlotGivesItBack : Obligations.DecodingTheEncodedSlotGivesItBack := by
  intro i h
  by_cases himm : i.opc = 0xFF
  · obtain ⟨v, rfl⟩ := Instr.eq_imm_of_opc himm
    show decode [immWord v true] = _
    rw [decode, if_pos ⟨isImm_immWord v true, guard_immWord v true⟩, immVal_immWord]
  · exact decode_of_decodeBundle (decodeBundle_encode h himm)

/-- Settles O60: an IMM slot alone, or one slot that passes the checks of its bundle; no field of either is lost. -/
theorem decodedWordsAreTheSlotsOwn : Obligations.DecodedWordsAreTheSlotsOwn := by
  intro ws i ht h
  rcases decode_cases h with ⟨w, rfl, hw, hg, rfl⟩ | ⟨p, h⟩
  · obtain ⟨stop, -⟩ := stopBit_of_takeBundle ht
    refine ⟨rfl, ?_⟩
    show [immWord (immVal w) true] = [w]
    rw [← immWord_immVal hw hg, immVal_immWord, stop]
    rfl
  · exact encode_of_decodeBundle ht h
end

section
/-!
# What a register slot issues

A register slot does one of four things: nothing, when its guard is false; the trap or the wait that its
registers force; nothing but its pops, for an empty result; or its results. One lemma says so of every register
slot at once (04 R81, R84, R89, R90; 07 R144).
-/
namespace Sys2Proof.Machine

open Sys2Proof.Claims

/-! ### Results and pops -/

/-- Two states that differ in at most n further results in flight and in further pops of streams. -/
def State.Issues (n : Nat) (s t : State) : Prop :=
  ∃ (new : List Landing) (ls : List Later), new.length ≤ n ∧
    (∀ l ∈ ls, l ∈ s.core.pipe.later ∨ ∃ q, l = .pop q) ∧
    t = s.setPipe { s.core.pipe with fresh := s.core.pipe.fresh ++ new, later := ls }

theorem State.Issues.refl (n : Nat) (s : State) : s.Issues n s :=
  ⟨[], s.core.pipe.later, Nat.zero_le n, fun _ h => .inl h, by rw [List.append_nil]; rfl⟩

theorem State.Issues.mono {m n : Nat} {s t : State} (h : s.Issues m t) (k : m ≤ n) : s.Issues n t := by
  obtain ⟨new, ls, hn, hl, e⟩ := h
  exact ⟨new, ls, hn.trans k, hl, e⟩

theorem State.Issues.trans {m n : Nat} {s t u : State} (h : s.Issues m t) (k : t.Issues n u) :
    s.Issues (m + n) u := by
  obtain ⟨new, ls, hn, hl, rfl⟩ := h
  obtain ⟨new', ls', hn', hl', rfl⟩ := k
  refine ⟨new ++ new', ls', by rw [List.length_append]; omega, fun l h => ?_, ?_⟩
  · exact (hl' l h).elim (hl l) .inr
  · rw [← List.append_assoc]
    rfl

theorem State.issues_result (s : State) (k : Nat) (w : Write) : s.Issues 1 (s.result k w) :=
  ⟨[_], s.core.pipe.later, Nat.le_refl 1, fun _ h => .inl h, rfl⟩

theorem State.issues_results {n : Nat} (s : State) (k : Nat) {ws : List Write} (h : ws.length ≤ n) :
    s.Issues n (s.results k ws) := by
  have hf : ∀ (ws : List Write) (s : State), s.Issues ws.length (ws.foldl (·.result k ·) s) := by
    intro ws
    induction ws with
    | nil => exact fun s => .refl 0 s
    | cons w ws ih => exact fun s => ((s.issues_result k w).trans (ih _)).mono (by simp [Nat.add_comm])
  exact (hf (ws.filter Write.any) s).mono ((List.length_filter_le _ _).trans h)

/-- The effect of noting a pop: it is the only further one. -/
theorem State.issues_later_pop (s : State) (q : Nat) : s.Issues 0 (s.later (.pop q)) := by
  unfold State.later
  dsimp only
  split
  · exact .refl 0 s
  · refine ⟨[], .pop q :: s.core.pipe.later, Nat.le_refl 0, fun l h => ?_, by rw [List.append_nil]⟩
    exact (List.mem_cons.mp h).elim (fun e => .inr ⟨q, e⟩) .inl

theorem State.issues_pops (s : State) (vs : List (BitVec 6)) : s.Issues 0 (s.pops vs) := by
  unfold State.pops
  induction vs generalizing s with
  | nil => exact .refl 0 s
  | cons v vs ih =>
    rw [List.foldl_cons]
    split
    · exact (s.issues_later_pop _).trans (ih _)
    · exact ih s

theorem State.issues_pair (s : State) (k : Nat) (pr : BitVec 2) (c : Bool) : s.Issues 2 (s.pair k pr c) :=
  s.issues_results k (by simp)

theorem State.issues_vresult (s : State) (k w : Nat) (d : BitVec 6) (m : BitVec 64) (f : Nat → Nat × Flags) :
    s.Issues 2 (s.vresult k w d m f) := s.issues_results k (by simp)

theorem State.issues_lanes (s : State) (k : Nat) (d : BitVec 6) (m : BitVec 64) (f : Nat → Nat) :
    s.Issues 1 (s.lanes k d m f) := s.issues_results k (by simp)

theorem State.Issues.onlyIssued {n : Nat} {s t : State} (h : s.Issues n t) : OnlyIssued s t := by
  obtain ⟨new, ls, hn, hl, rfl⟩ := h
  rfl

/-! ### One shape for every register slot -/

/-- A slot's meaning has the shape of a register slot's: with a false P guard nothing; else what its registers
in force stand for, or results and pops alone. -/
def RunsAs (e : State → Out) (hd : Hdr) (g : Bool) (v : State → Uses) : Prop :=
  ∃ f : State → State, (∀ s : State, s.Issues 6 (f s)) ∧
    ∀ s, e s = .next (if g = true ∧ s.pOn hd = false then s else (s.blocked (v s)).getD (f s))

theorem guarded_runsAs {e : State → Out} {hd : Hdr} {u : Uses} {f : State → State}
    (he : ∀ s, e s = s.guarded hd u f) (hf : ∀ s : State, s.Issues 6 (f s)) : RunsAs e hd true fun _ => u := by
  refine ⟨f, hf, fun s => (he s).trans (congrArg Host.Outcome.next ?_)⟩
  cases s.pOn hd <;> cases s.blocked u <;> rfl

/-- The registers in force of a slot under a mask, as the statements write them. -/
abbrev underMask (hd : Hdr) (u : State → Uses) (s : State) : Uses :=
  if false = false ∧ s.mOn hd = 0 then { u s with dv := [] } else u s

theorem underMask_eq (hd : Hdr) (u : State → Uses) (s : State) :
    underMask hd u s = if s.mOn hd = 0 then { u s with dv := [] } else u s := by simp [underMask]

theorem vslot_runsAs {e : State → Out} {hd : Hdr} {u : State → Uses} {f : State → State}
    (he : ∀ s, e s = s.vslot hd (u s) f) (hf : ∀ s : State, s.Issues 6 (f s)) :
    RunsAs e hd false (underMask hd u) := by
  refine ⟨fun s => (f s).pops (underMask hd u s).v, fun s => (hf s).trans (State.issues_pops _ _), fun s => ?_⟩
  refine (he s).trans (congrArg Host.Outcome.next ?_)
  change (match s.blocked (if s.mOn hd = 0 then { u s with dv := [] } else u s) with
    | some t => t
    | none => (f s).pops (if s.mOn hd = 0 then { u s with dv := [] } else u s).v) = _
  rw [← underMask_eq]
  cases s.blocked (underMask hd u s) <;> rfl

theorem alu2_runsAs {e : State → Out} {hd : Hdr} {k : Nat} {d a b : BitVec 6} {f : Word → Word → Word}
    (he : ∀ s, e s = s.alu2 hd k d a b f) : RunsAs e hd true fun _ => { s := [a, b], ds := [d] } :=
  guarded_runsAs he fun s => (s.issues_result k _).mono (by decide)

theorem alu1_runsAs {e : State → Out} {hd : Hdr} {k : Nat} {d a : BitVec 6} {f : Word → Word}
    (he : ∀ s, e s = s.alu1 hd k d a f) : RunsAs e hd true fun _ => { s := [a], ds := [d] } :=
  guarded_runsAs he fun s => (s.issues_result k _).mono (by decide)

theorem fp2_runsAs {e : State → Out} {hd : Hdr} {t : FFmt} {d a b : BitVec 6} {f : Nat → Nat → Nat × Flags}
    (he : ∀ s, e s = s.fp2 hd t d a b f) : RunsAs e hd true fun _ => { s := [a, b], ds := [d] } :=
  guarded_runsAs he fun s => s.issues_results _ (by simp)

theorem fp3_runsAs {e : State → Out} {hd : Hdr} {t : FFmt} {d a b : BitVec 6}
    (he : ∀ s, e s = s.fp3 hd t d a b) : RunsAs e hd true fun _ => { s := [a, b, d], ds := [d] } :=
  guarded_runsAs he fun s => s.issues_results _ (by simp)

/-- A slot that gives one scalar result. -/
theorem sResult_runsAs {e : State → Out} {hd : Hdr} {u : Uses} {k : Nat} {d : BitVec 6} {v : State → Word}
    (he : ∀ s, e s = s.guarded hd u fun s => s.sResult k d (v s)) : RunsAs e hd true fun _ => u :=
  guarded_runsAs he fun s => (s.issues_result k _).mono (by decide)

/-- A slot that writes a predicate pair. -/
theorem pair_runsAs {e : State → Out} {hd : Hdr} {u : Uses} {k : Nat} {p : BitVec 2} {c : State → Bool}
    (he : ∀ s, e s = s.guarded hd u fun s => s.pair k p (c s)) : RunsAs e hd true fun _ => u :=
  guarded_runsAs he fun s => (s.issues_pair k p _).mono (by decide)

theorem vec2_runsAs {e : State → Out} {hd : Hdr} {k w : Nat} {d a b : BitVec 6} {f : Nat → Nat → Nat × Flags}
    (he : ∀ s, e s = s.vec2 hd k w d a b f) : RunsAs e hd false (underMask hd fun _ => { v := [a, b], dv := [d] }) :=
  vslot_runsAs he fun s => (s.issues_vresult ..).mono (by decide)

theorem vec1_runsAs {e : State → Out} {hd : Hdr} {k w : Nat} {d a : BitVec 6} {f : Nat → Nat × Flags}
    (he : ∀ s, e s = s.vec1 hd k w d a f) : RunsAs e hd false (underMask hd fun _ => { v := [a], dv := [d] }) :=
  vslot_runsAs he fun s => (s.issues_vresult ..).mono (by decide)

theorem vint_runsAs {e : State → Out} {hd : Hdr} {k : Nat} {d a b : BitVec 6}
    {f : BitVec 32 → BitVec 32 → BitVec 32} (he : ∀ s, e s = s.vint hd k d a b f) :
    RunsAs e hd false (underMask hd fun _ => { v := [a, b], dv := [d] }) := vec2_runsAs he

theorem vfp2_runsAs {e : State → Out} {hd : Hdr} {t : FFmt} {d a b : BitVec 6}
    {f : Bool → Nat → Nat → Nat × Flags} (he : ∀ s, e s = s.vfp2 hd t d a b f) :
    RunsAs e hd false (underMask hd fun _ => { v := [a, b], dv := [d] }) := vec2_runsAs he

theorem vfma_runsAs {e : State → Out} {hd : Hdr} {t : FFmt} {d a b : BitVec 6}
    (he : ∀ s, e s = s.vfma hd t d a b) : RunsAs e hd false (underMask hd fun _ => { v := [a, b, d], dv := [d] }) :=
  vslot_runsAs he fun s => (s.issues_vresult ..).mono (by decide)

theorem vcmp_runsAs {e : State → Out} {hd : Hdr} {p : BitVec 2} {w : Nat} {a b : BitVec 6}
    {f : Nat → Nat → Bool × Flags} (he : ∀ s, e s = s.vcmp hd p w a b f) :
    RunsAs e hd false (underMask hd fun _ => { v := [a, b] }) :=
  vslot_runsAs he fun s => s.issues_results 5 (by simp)

theorem vreduce_runsAs {e : State → Out} {hd : Hdr} {d a : BitVec 6} {f : VReg → BitVec 64 → Word × Flags}
    (he : ∀ s, e s = s.vreduce hd d a f) : RunsAs e hd false (underMask hd fun _ => { v := [a], ds := [d] }) :=
  vslot_runsAs he fun s => s.issues_results 10 (by simp)

theorem vextreme_runsAs {e : State → Out} {hd : Hdr} {d a : BitVec 6} {f : BitVec 4} {u n : BitVec 1} {x : Bool}
    (he : ∀ s, e s = s.vextreme hd d a f u n x) :
    RunsAs e hd false (underMask hd fun _ => { v := [a], ds := [d] }) := vreduce_runsAs he

/-- A slot that writes whole lanes. -/
theorem lanes_runsAs {e : State → Out} {hd : Hdr} {u : Uses} {k : Nat} {d : BitVec 6} {f : State → Nat → Nat}
    (he : ∀ s, e s = s.vslot hd u fun s => s.lanes k d (s.mOn hd) (f s)) :
    RunsAs e hd false (underMask hd fun _ => u) :=
  vslot_runsAs he fun s => (s.issues_lanes ..).mono (by decide)

/-- A slot with a second source or an immediate in its place. -/
theorem vshift_runsAs {e : State → Out} {hd : Hdr} {d a b : BitVec 6} {f : BitVec 32 → Nat → BitVec 32}
    (he : ∀ s, e s = s.vshift hd d a b f) :
    RunsAs e hd false (underMask hd fun _ => { v := if hd.x = [] then [a, b] else [a], dv := [d] }) := by
  by_cases hx : hd.x = []
  · rw [if_pos hx]
    exact vec2_runsAs fun s => (he s).trans (if_pos (List.isEmpty_iff.mpr hx))
  · rw [if_neg hx]
    exact vec1_runsAs fun s => (he s).trans (if_neg fun h => hx (List.isEmpty_iff.mp h))

theorem execBpadd_runsAs (hd : Hdr) (d a b : BitVec 6) :
    RunsAs (execBpadd hd d a b) hd true fun _ => { s := if hd.x = [] then [a, b] else [a], ds := [d] } := by
  by_cases hx : hd.x = []
  · rw [if_pos hx]
    exact alu2_runsAs fun s => if_pos (List.isEmpty_iff.mpr hx)
  · rw [if_neg hx]
    exact alu1_runsAs fun s => if_neg fun h => hx (List.isEmpty_iff.mp h)

theorem execBpchk_runsAs (hd : Hdr) (p x : BitVec 2) (a b : BitVec 6) :
    RunsAs (execBpchk hd p x a b) hd true fun _ => { s := if hd.x = [] then [a, b] else [a] } := by
  have hx : (if hd.x.isEmpty then [a, b] else [a]) = if hd.x = [] then [a, b] else [a] := by simp
  rw [← hx]
  exact pair_runsAs fun _ => rfl

/-- VINS writes its destination where the bit of its lane is set, which it never is under a clear mask. -/
theorem execVins_runsAs (hd : Hdr) (d a i : BitVec 6) :
    RunsAs (execVins hd d a i) hd false fun s =>
      if (s.mOn hd).getLsbD i.toNat = true then { s := [a], dv := [d] } else { s := [a], dv := [] } := by
  have hr := vslot_runsAs (e := execVins hd d a i) (hd := hd) (fun _ => rfl)
    fun s => s.issues_results 9 (by simp)
  convert hr using 2 with s
  rw [underMask_eq]
  by_cases h : s.mOn hd = 0
  · simp [h]
  · simp only [if_neg h]
    split <;> rfl

theorem execVext_runsAs (hd : Hdr) (d a i : BitVec 6) :
    RunsAs (execVext hd d a i) hd true fun _ => { v := [a], ds := [d] } := by
  exact guarded_runsAs (fun _ => rfl) fun s =>
    ((s.issues_result 9 _).trans (State.issues_pops _ [a])).mono (by decide)

/-- SEL runs whatever its guard field selects; it has no vector destination for a mask to keep. -/
theorem execSel_runsAs (hd : Hdr) (d a b : BitVec 6) :
    RunsAs (execSel hd d a b) hd false (underMask hd fun _ => { s := [a, b], ds := [d] }) := by
  have hu (s : State) : underMask hd (fun _ => { s := [a, b], ds := [d] }) s = { s := [a, b], ds := [d] } := ite_self _
  refine ⟨fun s => s.sResult 0 d (if s.p! hd.g then s.s! a else s.s! b),
    fun s => (s.issues_result 0 _).mono (by decide), fun s => congrArg Host.Outcome.next ?_⟩
  rw [hu]
  cases s.blocked { s := [a, b], ds := [d] } <;> rfl

/-- VSEL runs whatever its guard field selects, and writes every lane. -/
theorem execVsel_runsAs (hd : Hdr) (d a b : BitVec 6) :
    RunsAs (execVsel hd d a b) hd false fun _ => { v := [a, b], dv := [d] } := by
  refine ⟨fun s => (s.lanes 5 d (BitVec.allOnes 64) fun n =>
    if (s.m! hd.g).getLsbD n then elem (s.v! a) 32 n else elem (s.v! b) 32 n).pops [a, b],
    fun s => ((s.issues_lanes 5 d _ _).trans (State.issues_pops _ [a, b])).mono (by decide),
    fun s => congrArg Host.Outcome.next ?_⟩
  cases s.blocked { v := [a, b], dv := [d] } with
  | some t => rfl
  | none => rw [Option.getD_none]; rfl

/-- VCVT gives one vector result and its flags. -/
theorem execVcvt_runsAs (hd : Hdr) (d a : BitVec 6) :
    RunsAs (execVcvt hd d a) hd false (underMask hd fun _ => { v := [a], dv := [d] }) := by
  refine vslot_runsAs (fun _ => rfl) fun s => ?_
  exact s.issues_results (ite _ _ _) (by simp)

/-! ### The register slots -/

/-- Reads off a slot's class in the list of the register slots. -/
theorem of_registerSlot {i : Instr} {hd hd' : Hdr} {g g' : Bool} {u u' : Uses}
    (hr : registerSlot i = some (hd, g, u)) (h : RunsAs (exec i) hd g fun s => inForce s i hd g u)
    (hs : registerSlot i = some (hd', g', u')) : RunsAs (exec i) hd' g' fun s => inForce s i hd' g' u' := by
  obtain ⟨rfl, rfl, rfl⟩ : hd = hd' ∧ g = g' ∧ u = u' := by simpa using hr.symm.trans hs
  exact h

theorem registerSlot_runsAs {i : Instr} {hd : Hdr} {g : Bool} {u : Uses}
    (h : registerSlot i = some (hd, g, u)) : RunsAs (exec i) hd g fun s => inForce s i hd g u := by
  cases i with
  | add | sub | mul | mulh | mulhu | and_ | or_ | xor_ | shl | shr | sra | min | max | minu | maxu | adds | subs
  | bptr | bfi =>
    exact of_registerSlot rfl (by delta exec; exact alu2_runsAs fun _ => rfl) h
  | addi | andi | ori | xori | shli | shri | srai | clz | popc | bfx | bfxu | fcls =>
    exact of_registerSlot rfl (by delta exec; exact alu1_runsAs fun _ => rfl) h
  | faddF32 | faddF64 | fsubF32 | fsubF64 | fmulF32 | fmulF64 | fminF32 | fminF64 | fmaxF32 | fmaxF64 =>
    exact of_registerSlot rfl (by delta exec; exact fp2_runsAs fun _ => rfl) h
  | ffmaF32 | ffmaF64 =>
    exact of_registerSlot rfl (by delta exec; exact fp3_runsAs fun _ => rfl) h
  | movi | pmovTos | vmmovTos | wmovTos =>
    exact of_registerSlot rfl (by delta exec; exact sResult_runsAs fun _ => rfl) h
  | cmp | cmpi =>
    exact of_registerSlot rfl (by delta exec; exact pair_runsAs fun _ => rfl) h
  | fcmp hd p =>
    refine of_registerSlot rfl ?_ h
    delta exec
    exact guarded_runsAs (fun _ => rfl) fun s =>
      ((s.issues_pair 4 p _).trans (State.issues_result _ 4 _)).mono (by decide)
  | fcvt =>
    refine of_registerSlot rfl ?_ h
    delta exec
    exact guarded_runsAs (fun _ => rfl) fun s => s.issues_results 4 (by simp)
  | pmovFroms =>
    refine of_registerSlot rfl ?_ h
    delta exec
    exact guarded_runsAs (fun _ => rfl) fun s => s.issues_results 0 (by simp)
  | plog | vmmovFroms =>
    refine of_registerSlot rfl ?_ h
    delta exec
    exact guarded_runsAs (fun _ => rfl) fun s => (s.issues_result _ _).mono (by decide)
  | bpadd hd d a b => exact of_registerSlot rfl (execBpadd_runsAs hd d a b) h
  | bpchk hd p x a b => exact of_registerSlot rfl (execBpchk_runsAs hd p x a b) h
  | sel hd d a b => exact of_registerSlot rfl (execSel_runsAs hd d a b) h
  | vaddI32 | vsubI32 | vmulI32 | vminI32 | vmaxI32 | vminu | vmaxu | vand | vor | vxor | vaddsI32 =>
    exact of_registerSlot rfl (by delta exec; exact vint_runsAs fun _ => rfl) h
  | vaddF32 | vsubF32 | vmulF32 | vaddF64 | vsubF64 | vmulF64 | vaddBf16 | vmulBf16 | vaddF16 | vmulF16 =>
    exact of_registerSlot rfl (by delta exec; exact vfp2_runsAs fun _ => rfl) h
  | vminF32 | vmaxF32 | vminF64 | vmaxF64 =>
    exact of_registerSlot rfl (by delta exec; exact vec2_runsAs fun _ => rfl) h
  | vrcp | vrsq | vexp2 | vlog2 =>
    exact of_registerSlot rfl (by delta exec; exact vec1_runsAs fun _ => rfl) h
  | vshl | vshr | vsra =>
    exact of_registerSlot rfl (by delta exec; exact vshift_runsAs fun _ => rfl) h
  | vfmaF32 | vfmaF64 | vfmaBf16 | vfmaF16 =>
    exact of_registerSlot rfl (by delta exec; exact vfma_runsAs fun _ => rfl) h
  | vcmpI32 | vcmpu | vcmpF32 | vcmpF64 =>
    exact of_registerSlot rfl (by delta exec; exact vcmp_runsAs fun _ => rfl) h
  | vrmax | vrmin =>
    exact of_registerSlot rfl (by delta exec; exact vextreme_runsAs fun _ => rfl) h
  | vrsumF32 | vrsumF64 | vrsumI32 =>
    exact of_registerSlot rfl (by delta exec; exact vreduce_runsAs fun _ => rfl) h
  | vperm | vshuf | vmov | vidx | vrnd =>
    exact of_registerSlot rfl (by delta exec; exact lanes_runsAs fun _ => rfl) h
  | vcvt hd d a => exact of_registerSlot rfl (execVcvt_runsAs hd d a) h
  | vmlog | vbcst | vscanF32 =>
    exact of_registerSlot rfl (by delta exec; exact vslot_runsAs (fun _ => rfl) fun s => s.issues_results _ (by simp)) h
  | vsel hd d a b => exact of_registerSlot rfl (execVsel_runsAs hd d a b) h
  | vext hd d a i => exact of_registerSlot rfl (execVext_runsAs hd d a i) h
  | vins hd d a i => exact of_registerSlot rfl (execVins_runsAs hd d a i) h
  | _ => exact absurd h (Option.some_ne_none _).symm

end Sys2Proof.Machine
end

section
/-!
# Register slots only issue results (04 R84, R89, R90)

Registers that may be used may be used without the vector destinations that a clear mask leaves unwritten, so a
register slot whose registers may be used gives its results and pops.
-/
namespace Sys2Proof.Machine

open Sys2Proof.Claims

/-- The checks of a slot that finds nothing in its way. -/
theorem State.blocked_eq_none_iff (s : State) (u : Uses) :
    s.blocked u = none ↔
      (∀ d ∈ u.reads s.core ++ u.writes s.core, (s.core.regs.marks.any fun k => decide (k.dst = d)) = false ∧
        (d ∈ u.writes s.core → (s.core.pipe.later.any fun l =>
          match l with | .mark k => decide (k.dst = d) | _ => false) = false)) ∧
      ((u.reads s.core).find? fun d => s.core.store.bad.contains (.reg s.core.id d.file d.reg)) = none ∧
      s.streamsBlocked u.v = none := by
  unfold State.blocked
  dsimp only
  split
  next d hd =>
    refine iff_of_false nofun fun h => ?_
    have hm := List.find?_some hd
    obtain ⟨hk, hl⟩ := h.1 d (List.mem_of_find?_eq_some hd)
    rw [hk, Bool.false_or, Bool.and_eq_true, List.contains_iff_mem] at hm
    exact Bool.false_ne_true ((hl hm.1).symm.trans hm.2)
  next hn =>
    have hk : ∀ d ∈ u.reads s.core ++ u.writes s.core,
        (s.core.regs.marks.any fun k => decide (k.dst = d)) = false ∧ (d ∈ u.writes s.core →
          (s.core.pipe.later.any fun l => match l with | .mark k => decide (k.dst = d) | _ => false) = false) := by
      intro d hd
      have := List.find?_eq_none.mp hn d hd
      rw [Bool.or_eq_true, not_or, Bool.and_eq_true, not_and, List.contains_iff_mem] at this
      exact ⟨Bool.eq_false_iff.mpr this.1, fun hw => Bool.eq_false_iff.mpr (this.2 hw)⟩
    split
    next d hd => exact iff_of_false nofun fun h => Option.some_ne_none d (hd.symm.trans h.2.1)
    next hb => exact ⟨fun hs => ⟨hk, hb, hs⟩, fun h => h.2.2⟩

/-- Without its vector destinations a slot checks no more. -/
theorem State.blocked_noVector {s : State} {u : Uses} (h : s.blocked u = none) :
    s.blocked { u with dv := [] } = none := by
  rw [State.blocked_eq_none_iff] at h ⊢
  obtain ⟨hk, hb, hs⟩ := h
  have hw : ∀ d ∈ Uses.writes { u with dv := [] } s.core, d ∈ u.writes s.core := by
    intro d
    simp only [Uses.writes, List.map_nil, List.append_nil, List.mem_append]
    exact Or.imp_left .inl
  have ha : ∀ d ∈ Uses.reads { u with dv := [] } s.core ++ Uses.writes { u with dv := [] } s.core,
      d ∈ u.reads s.core ++ u.writes s.core := by
    intro d hd
    exact List.mem_append.mpr ((List.mem_append.mp hd).imp_right (hw d))
  exact ⟨fun d hd => ⟨(hk d (ha d hd)).1, fun h => (hk d (ha d hd)).2 (hw d h)⟩, hb, hs⟩

/-- The registers in force are all of a slot's or all but its vector destinations. -/
theorem inForce_cases (s : State) (i : Instr) (hd : Hdr) (g : Bool) (u : Uses) :
    inForce s i hd g u = u ∨ inForce s i hd g u = { u with dv := [] } := by
  unfold inForce
  split
  · exact .inl rfl
  · exact (ite_eq_or_eq _ _ _)
  · exact (ite_eq_or_eq _ _ _).symm

/-- Registers that may be used may be used as far as they are in force. -/
theorem blocked_inForce {s : State} {u : Uses} (h : Free s u) (i : Instr) (hd : Hdr) (g : Bool) :
    s.blocked (inForce s i hd g u) = none := by
  obtain e | e := inForce_cases s i hd g u <;> rw [e]
  · exact h
  · exact State.blocked_noVector h

theorem registerSlot_issues {i : Instr} {hd : Hdr} {g : Bool} {u : Uses} {s t : State}
    (hr : registerSlot i = some (hd, g, u)) (hf : Free s u) (h : Gives i s t) : s.Issues 6 t := by
  obtain ⟨f, hi, he⟩ := registerSlot_runsAs hr
  rw [Gives, he, Host.Outcome.next.injEq] at h
  beta_reduce at h
  rw [blocked_inForce hf] at h
  split at h
  · exact h ▸ .refl 6 s
  · exact h ▸ hi s

end Sys2Proof.Machine

open Sys2Proof Sys2Proof.Machine Sys2Proof.Claims

/-- Settles O12: every register slot has one shape, and what it does when nothing is in its way issues results
and pops alone. -/
theorem registerSlotsOnlyIssueResults : Obligations.RegisterSlotsOnlyIssueResults := by
  intro i hd g u s t hr hf h
  have hi := registerSlot_issues hr hf h
  refine ⟨hi.onlyIssued, ?_⟩
  obtain ⟨new, ls, hn, hl, rfl⟩ := hi
  exact ⟨⟨new, rfl, hn⟩, hl⟩

end

section
/-!
# False guards and marked registers (04 R81; 05 R107, R111)

A false guard makes each family of slots do the same little: its token's post, and its empty witness where it has
a witness destination. A marked register stops every register slot, since all of them make one check.
-/
namespace Sys2Proof.Machine

open Sys2Proof.Claims

/-! ### False guards -/

theorem registerSlot_off {i : Instr} {hd : Hdr} {u : Uses} {s : State}
    (hr : registerSlot i = some (hd, true, u)) (hp : s.pOn hd = false) : Gives i s s := by
  obtain ⟨f, -, he⟩ := registerSlot_runsAs hr
  exact (he s).trans (congrArg _ (if_pos ⟨rfl, hp⟩))

theorem postsOnce_postOnce? (s : State) (t : Option Nat) : PostsOnce s (s.postOnce? t) t := by
  cases t with
  | none => rfl
  | some k => exact ⟨_, rfl, rfl, rfl, rfl, rfl, rfl⟩

@[simp] theorem State.postOnce?_status (s : State) (t : Option Nat) :
    (s.postOnce? t).core.pipe.status = s.core.pipe.status := by cases t <;> rfl

/-- A slot with a token, its guard false: the posting, and the empty witness of a store. -/
theorem State.tokSlot_off {s : State} {hd : Hdr} (hr : s.room? (Hdr.tok hd) = true) (store : Bool) (u : Uses)
    (f : State → State) :
    s.tokSlot hd false store u f = .next (if store then (s.postOnce? (Hdr.tok hd)).emptyWit (Hdr.wo hd)
      else s.postOnce? (Hdr.tok hd)) := by
  simp [State.tokSlot, hr]

theorem State.xSlot_off {s : State} {hd : Hdr} (hp : s.pOn hd = false) (hr : s.room? (Hdr.tok hd) = true) (u : Uses)
    (f : State → State) : s.xSlot hd u f = .next (s.postOnce? (Hdr.tok hd)) := by
  simp [State.xSlot, hr, hp]

/-- A slot that enters a command, its guard false: its postings, the source-free one first, and the empty witness
of a command that gives one. -/
theorem State.engSlot_off {s : State} {hd : Hdr} {tsf : Option Nat} (hp : s.pOn hd = false)
    (hr : s.room? (Hdr.tok hd) = true) (ht : s.room? tsf = true) (h2 : s.roomTwo (Hdr.tok hd) tsf = true)
    (eng : BitVec 4) (store : Bool) (u : Uses) (f : State → Nat → State) :
    s.engSlot hd eng store tsf u f = .next (if store then
      ((s.postOnce? tsf).postOnce? (Hdr.tok hd)).emptyWit (Hdr.wo hd)
      else (s.postOnce? tsf).postOnce? (Hdr.tok hd)) := by
  simp [State.engSlot, hp, hr, ht, h2]

theorem State.roomTwo_none (s : State) (t : Option Nat) : s.roomTwo t none = true := by cases t <;> rfl

/-- A vector memory slot under a wholly clear mask acts as a slot whose guard is false, and pops its sources. -/
theorem State.vecMem_off {s : State} {hd : Hdr} {u : Uses} (hm : s.mOn hd = 0) (hr : s.room? (Hdr.tok hd) = true)
    (hs : s.streamsBlocked u.v = none) (store whole : Bool) (d : BitVec 6) (parts : State → List Part) :
    s.vecMem hd store whole u d parts = .next ((if store then (s.postOnce? (Hdr.tok hd)).emptyWit (Hdr.wo hd)
      else s.postOnce? (Hdr.tok hd)).pops u.v) := by
  simp only [State.vecMem, if_pos hm, hs, State.tokSlot_off hr]
  refine congrArg _ (if_pos ?_)
  cases store <;> exact s.postOnce?_status (Hdr.tok hd)

/-- A division, its guard false: its posting. -/
theorem State.divide_off {s : State} {hd : Hdr} (hp : s.pOn hd = false) (hr : s.postRoom (bits hd.c 4 0) = true)
    (d a b : BitVec 6) (f : Word → Word → Word) :
    s.divide hd d a b f = .next (s.postOnce? (some (bits hd.c 4 0))) := by
  simp [State.divide, hp, hr, State.postOnce?]

theorem State.contribute_off {s : State} {hd : Hdr} (hp : s.pOn hd = false) (hr : s.room? (Hdr.tok hd) = true)
    (f : LeftForm) (i : Instr) (k : BitVec 4) (a b : BitVec 6) :
    s.contribute f i hd k a b = .next (s.postOnce? (Hdr.tok hd)) := State.xSlot_off hp hr ..

theorem State.atomic_off {s : State} {hd : Hdr} (hp : s.pOn hd = false) (hr : s.room? (Hdr.tok hd) = true)
    (op : AtomOp) (d a b : BitVec 6) :
    s.atomic op hd d a b = .next ((s.postOnce? (Hdr.tok hd)).emptyWit (Hdr.wo hd)) := by
  unfold State.atomic
  dsimp only
  rw [hp]
  exact State.tokSlot_off hr true _ _

theorem State.copySlot_off {s : State} {hd : Hdr} (hp : s.pOn hd = false) (hr : s.room? (Hdr.tok hd) = true)
    (ht : s.room? (tokOf hd.c2) = true) (h2 : s.roomTwo (Hdr.tok hd) (tokOf hd.c2) = true) (e : BitVec 4)
    (a : BitVec 6) (kind : Nat) :
    s.copySlot hd e a kind =
      .next (((s.postOnce? (tokOf hd.c2)).postOnce? (Hdr.tok hd)).emptyWit (Hdr.wo hd)) := by
  unfold State.copySlot
  exact State.engSlot_off hp hr ht h2 e true _ _

theorem execChc_off {s : State} {hd : Hdr} (hp : s.pOn hd = false) (hr : s.room? (Hdr.tok hd) = true) (k : BitVec 4)
    (a b : BitVec 6) : execChc hd k a b s = .next ((s.postOnce? (Hdr.tok hd)).emptyWit (Hdr.wo hd)) := by
  simp only [execChc, hr, hp, Bool.not_true, Bool.not_false, Bool.false_eq_true, if_false, if_true]

theorem execWmrg_off {s : State} {hd : Hdr} (hp : s.pOn hd = false) (hr : s.room? (Hdr.tok hd) = true)
    (d a b : BitVec 6) : execWmrg hd d a b s = .next ((s.postOnce? (Hdr.tok hd)).emptyWit d.toNat) := by
  simp only [execWmrg, hr, hp, Bool.not_true, Bool.not_false, Bool.false_eq_true, if_false, if_true]

theorem execEst_off {s : State} {hd : Hdr} {t : BitVec 5} (hp : s.pOn hd = false) (hr : s.postRoom t.toNat = true)
    (d : BitVec 6) (e : BitVec 4) : execEst hd d e t s = .next (s.postOnce? (some t.toNat)) := by
  simp only [execEst, hr, hp, Bool.not_true, Bool.not_false, Bool.false_eq_true, if_false, if_true, State.postOnce?]

theorem execSpawn_off {s : State} {hd : Hdr} {t : BitVec 5} (hp : s.pOn hd = false) (hr : s.postRoom t.toNat = true)
    (he : bits hd.imm 15 0 < s.core.object.entries.length) (a b : BitVec 6) :
    execSpawn hd a b t s = .next (s.postOnce? (some t.toNat)) := by
  have hn : ¬ s.core.object.entries.length ≤ bits hd.imm 15 0 := Nat.not_le.mpr he
  rw [Core.object] at hn
  simp only [execSpawn, hn, hr, hp, Bool.and_false, Bool.not_true, Bool.not_false, Bool.false_eq_true, if_false,
    if_true, State.postOnce?]

theorem State.witSlot_off {s : State} {hd : Hdr} (hp : s.pOn hd = false) (d : Nat) (u : Uses) (f : State → State) :
    s.witSlot hd d u f = .next (s.emptyWit d) := by simp [State.witSlot, hp]

theorem exec_atomics {r : Three × AtomOp} (h : r ∈ atomics) (hd : Hdr) (d a b : BitVec 6) (s : State) :
    exec (r.1 hd d a b) s = s.atomic r.2 hd d a b := by
  simp only [atomics, List.mem_cons, List.not_mem_nil, or_false] at h
  rcases h with rfl | rfl | rfl | rfl | rfl | rfl | rfl | rfl | rfl | rfl | rfl | rfl | rfl <;> rfl

theorem exec_divisions {r : Three × (Int → Int → Nat → Nat → Word)} (h : r ∈ divisions) :
    ∃ f, ∀ (hd : Hdr) (d a b : BitVec 6) (s : State), exec (r.1 hd d a b) s = s.divide hd d a b f := by
  simp only [divisions, List.mem_cons, List.not_mem_nil, or_false] at h
  rcases h with rfl | rfl | rfl | rfl
  exacts [⟨divS, fun _ _ _ _ _ => rfl⟩, ⟨divU, fun _ _ _ _ _ => rfl⟩, ⟨remS, fun _ _ _ _ _ => rfl⟩,
    ⟨remU, fun _ _ _ _ _ => rfl⟩]

/-! ### Marked registers -/

/-- A marked register among those that a slot uses stops it, by the first one that counts as marked. -/
theorem State.blocked_of_marked {s : State} {u : Uses} {d : Dst}
    (h : (u.reads s.core ++ u.writes s.core).find?
      (fun d => s.core.regs.marks.any fun k => decide (k.dst = d)) = some d) :
    (∃ e ∈ u.reads s.core ++ u.writes s.core, ((∃ k ∈ s.core.regs.marks, k.dst = e) ∨
        (e ∈ u.writes s.core ∧ ∃ k, Later.mark k ∈ s.core.pipe.later ∧ k.dst = e)) ∧
        s.blocked u = some (s.fail .underwait e.tval 0)) ∧
      ((∀ k, Later.mark k ∉ s.core.pipe.later) → s.blocked u = some (s.fail .underwait d.tval 0)) := by
  unfold State.blocked
  dsimp only
  have hd := List.find?_some h
  have hr := List.mem_of_find?_eq_some h
  split
  next e he =>
    refine ⟨⟨e, List.mem_of_find?_eq_some he, ?_, rfl⟩, fun hn => ?_⟩
    · have hm := List.find?_some he
      simp only [Bool.or_eq_true, Bool.and_eq_true, List.any_eq_true, List.contains_iff_mem, decide_eq_true_eq] at hm
      refine hm.imp_right fun ⟨hw, l, hl, hk⟩ => ⟨hw, ?_⟩
      cases l with
      | mark k => exact ⟨k, hl, of_decide_eq_true hk⟩
      | _ => exact absurd hk Bool.false_ne_true
    · refine congrArg (fun d => some (s.fail .underwait (Dst.tval d) 0))
        (Option.some.inj (he.symm.trans (.trans ?_ h)))
      refine congrArg (List.find? · _) (funext fun d => ?_)
      have hl {f : Later → Bool} (hf : ∀ l, f l = true → ∃ k, l = .mark k) : s.core.pipe.later.any f = false :=
        List.any_eq_false.mpr fun l hl hm => by
          obtain ⟨k, rfl⟩ := hf l hm
          exact hn k hl
      rw [hl fun l hm => ?_, Bool.and_false, Bool.or_false]
      cases l with
      | mark k => exact ⟨k, rfl⟩
      | _ => exact absurd hm Bool.false_ne_true
  next hno => exact absurd (Bool.or_eq_true_iff.mpr (.inl hd)) (List.find?_eq_none.mp hno d hr)
/-! ### The clauses -/

theorem falseGuardHasNoEffect : FalseGuardHasNoEffect := by
  refine ⟨fun i hd u s hr hp => registerSlot_off hr hp, fun s hd h o o' a n hp => ?_⟩
  have hoff (u : Uses) (f : State → State) : s.guarded hd u f = .next s := State.guarded_off hp
  delta Gives exec
  exact ⟨hoff _ _, hoff _ _, hoff _ _, hoff _ _, hoff _ _, fun ha => (if_neg ha).trans (hoff _ _), hoff _ _, hoff _ _,
    hoff _ _, fun hn => (if_neg hn).trans (hoff _ _)⟩

theorem markedRegistersTrapUnderwait : MarkedRegistersTrapUnderwait := by
  intro i hd g u s d hr hg rs tval hfind
  obtain ⟨f, -, he⟩ := registerSlot_runsAs hr
  have hn : ¬ (g = true ∧ s.pOn hd = false) := fun h => Bool.false_ne_true (h.2.symm.trans (hg h.1))
  have hgives {t : State} (hb : s.blocked (inForce s i hd g u) = some t) : Gives i s t := by
    refine (he s).trans (congrArg _ ?_)
    rw [if_neg hn, hb, Option.getD_some]
  obtain ⟨⟨e, he, hk, hb⟩, hl⟩ := State.blocked_of_marked hfind
  exact ⟨⟨e, he, hk, hgives hb⟩, fun h => hgives (hl h)⟩

theorem falseGuardsPostTheirTokenOnce : FalseGuardsPostTheirTokenOnce := by
  refine ⟨fun s hd d a b k e sz v hp => ⟨fun hr => ⟨_, postsOnce_postOnce? s _, ?_⟩,
    fun hr ht h2 => ⟨_, _, postsOnce_postOnce? s _, postsOnce_postOnce? _ _, ?_⟩,
    fun hr => ⟨_, postsOnce_postOnce? s _, ?_⟩, fun t hr => ⟨_, postsOnce_postOnce? s _, ?_⟩, ?_⟩,
    fun s hd d a b hm hr => ⟨_, postsOnce_postOnce? s _, ?_⟩⟩
  · have htok (store : Bool) (u : Uses) (f : State → State) := State.tokSlot_off hr store u f
    have heng (eng : BitVec 4) (store : Bool) (u : Uses) (f : State → Nat → State) :=
      State.engSlot_off hp hr rfl (s.roomTwo_none _) eng store u f
    have hx (u : Uses) (f : State → State) := State.xSlot_off hp hr u f
    have hc := State.contribute_off hp hr
    have ha {r : Three × AtomOp} (h : r ∈ atomics) :=
      (exec_atomics h hd d a b s).trans (State.atomic_off hp hr r.2 d a b)
    rw [← hp] at htok
    delta Gives
    refine ⟨?_, ?_, ?_, ?_, ?_, ?_, ?_, ?_, ?_, ?_, ?_, ?_, ?_, ?_, fun r h => ha h, ?_⟩ <;> delta exec
    exacts [fun h => (if_neg h).trans (htok ..), htok .., htok .., htok .., htok .., hc .., hc .., hc .., hx .., hx ..,
      hx .., heng .., htok .., htok .., ⟨execChc_off hp hr .., heng .., heng .., execWmrg_off hp hr ..⟩]
  · delta Gives exec
    exact ⟨State.copySlot_off hp hr ht h2 .., State.copySlot_off hp hr ht h2 ..⟩
  · intro r h
    obtain ⟨f, hf⟩ := exec_divisions h
    exact (hf ..).trans (State.divide_off hp hr ..)
  · delta Gives exec
    exact ⟨execEst_off hp hr .., fun he => execSpawn_off hp hr he ..⟩
  · delta Gives exec
    exact ⟨State.witSlot_off hp .., State.witSlot_off hp .., State.witSlot_off hp ..⟩
  · delta Gives exec
    exact ⟨State.vecMem_off hm hr rfl .., State.vecMem_off hm hr rfl .., fun hs => State.vecMem_off hm hr hs ..,
      fun hs => ⟨State.vecMem_off hm hr hs .., State.vecMem_off hm hr hs ..⟩,
      fun hs => State.vecMem_off hm hr hs ..⟩

end Sys2Proof.Machine

open Sys2Proof Sys2Proof.Machine Sys2Proof.Claims

/-- Settles O13: a false guard by the one lemma of each family of slots, a marked register by the check that every
register slot makes. -/
theorem falseGuardsAndMarkedRegistersKeepSlotsFromActing :
    Obligations.FalseGuardsAndMarkedRegistersKeepSlotsFromActing :=
  ⟨falseGuardHasNoEffect, markedRegistersTrapUnderwait, falseGuardsPostTheirTokenOnce⟩

end

section
/-!
# Results land alone and reads see them (04 R89, R90; 05 R96, R112)

Byte by byte a register that is read while results are in flight holds its old byte or that byte of one of them,
since the byte of a mixture is what one pick leaves of the byte that it mixes.
-/
namespace Sys2Proof.Machine

open Sys2Proof.Claims

/-! ### Landing -/

theorem getLsbD_merge {n : Nat} (mask new old : BitVec n) (k : Nat) :
    (merge mask new old).getLsbD k = if mask.getLsbD k = true then new.getLsbD k else old.getLsbD k := by
  simp only [merge, BitVec.getLsbD_or, BitVec.getLsbD_and, BitVec.getLsbD_not]
  by_cases hk : k < n
  · cases mask.getLsbD k <;> simp [hk]
  · simp [BitVec.getLsbD_of_ge _ k (Nat.not_lt.mp hk)]

/-- A predicate's result: the bit of its predicate, but for the two fixed ones. -/
theorem Regs.apply_p_bits (g : Regs) {n : Nat} (b : Bool) (hn : n < 10) :
    ∃ p, g.apply (.p n b) = { g with p := p } ∧
      ∀ k < 10, p.getLsbD k = if k = n ∧ 2 ≤ n then b else g.p.getLsbD k := by
  by_cases h : n < 2
  · exact ⟨g.p, if_pos h, fun k _ => by rw [if_neg fun e => Nat.not_le.mpr h e.2]⟩
  · refine ⟨_, if_neg h, fun k hk => ?_⟩
    have hbit : (1#10 <<< n).getLsbD k = decide (k = n) := by
      simp only [BitVec.getLsbD_shiftLeft, BitVec.getLsbD_one]
      rw [Bool.eq_iff_iff]
      simp only [Bool.and_eq_true, Bool.not_eq_true', decide_eq_true_eq, decide_eq_false_iff_not]
      omega
    rw [getLsbD_merge, hbit]
    by_cases e : k = n
    · simp only [e, decide_true, if_true, Nat.not_lt.mp h, and_self]
      cases b <;> simp [hn]
    · simp [e]

theorem resultsLandInTheirDestinationAlone : ResultsLandInTheirDestinationAlone :=
  ⟨fun _ _ _ => ⟨_, rfl, rfl, rfl, rfl⟩, fun _ _ _ => rfl, fun _ _ _ _ => ⟨_, rfl, getLsbD_merge _ _ _⟩,
    fun g _ b hn => g.apply_p_bits b hn, fun _ _ _ _ hn => ⟨_, if_neg hn, getLsbD_merge _ _ _⟩,
    fun _ _ _ _ hn => ⟨_, if_neg hn, getLsbD_merge _ _ _⟩, fun _ _ _ _ _ => ⟨rfl, rfl⟩, fun _ _ => rfl⟩

/-! ### Reads while results are in flight -/

/-- Byte b of a number and of the results that are mixed into it. -/
def byteOf (b : Nat) (cs : List (Nat × Nat)) : List (Nat × Nat) := cs.map fun c => (c.1 / 256 ^ b, c.2 / 256 ^ b)

theorem oneOf_lt (base : Nat) (cs : List (Nat × Nat)) (i : Nat) : oneOf base cs i < 256 := by
  unfold oneOf
  split <;> exact Nat.mod_lt _ (by decide)

/-- Byte b of a mixture is what one pick leaves of the byte. -/
theorem mix_byte (tick : Nat) {b n : Nat} (h : b < n) (key base : Nat) (cs : List (Nat × Nat)) :
    ∃ i, mix tick key base cs n / 256 ^ b % 256 = oneOf (base / 256 ^ b) (byteOf b cs) i := by
  induction n generalizing b key base cs with
  | zero => exact absurd h (Nat.not_lt_zero b)
  | succ n ih =>
    rw [mix]
    cases b with
    | zero =>
      refine ⟨pickIn tick key (cs.length + 1), ?_⟩
      have := oneOf_lt base cs (pickIn tick key (cs.length + 1))
      simp only [byteOf, pow_zero, Nat.div_one, Prod.mk.eta, List.map_id']
      omega
    | succ b =>
      obtain ⟨i, hi⟩ := ih (Nat.lt_of_succ_lt_succ h) (key + 1) (base / 256)
        (cs.map fun c => (c.1 / 256, c.2 / 256))
      refine ⟨i, ?_⟩
      have hlt := oneOf_lt base cs (pickIn tick key (cs.length + 1))
      rw [Nat.pow_succ', ← Nat.div_div_eq_div_mul, ← Nat.div_div_eq_div_mul, Nat.add_mul_div_left _ _ (by decide),
        Nat.div_eq_of_lt hlt, Nat.zero_add, hi]
      simp only [byteOf, List.map_map, Function.comp_def, Nat.pow_succ', ← Nat.div_div_eq_div_mul]

/-- A byte of a whole result: that result's byte; else the old one. -/
theorem oneOf_whole {base i : Nat} {cs : List (Nat × Nat)} (h : ∀ c ∈ cs, c.1 % 256 = 255) :
    oneOf base cs i = base % 256 ∨ ∃ c ∈ cs, oneOf base cs i = c.2 % 256 := by
  unfold oneOf
  split
  next m v hi =>
    refine .inr ⟨(m, v), List.mem_of_getElem? hi, ?_⟩
    have hm : m % 256 = 255 := h _ (List.mem_of_getElem? hi)
    have h255 : ∀ x : Nat, x % 256 = x &&& 255 := fun x => (Nat.and_two_pow_sub_one_eq_mod x 8).symm
    rw [hm, Nat.sub_self, Nat.and_zero, Nat.zero_or]
    rw [h255, Nat.and_assoc, ← h255 m, hm, ← h255]
  next => exact .inl rfl

/-- The results in flight that a scalar register waits for, as they are mixed into it. -/
theorem mem_pending_toS {p : Pipe} {ix : Nat} {c : Nat × Nat} (h : c ∈ p.pending (Write.toS ix)) :
    ∃ v : Word, c = (2 ^ 64 - 1, v.toNat) ∧
      ((∃ l ∈ p.land, l.write = .s ix v) ∨ ∃ r ∈ p.soft, .s ix v ∈ r.writes) := by
  have hw {w : Write} (h : Write.toS ix w = some c) : ∃ v : Word, c = (2 ^ 64 - 1, v.toNat) ∧ w = .s ix v := by
    cases w with
    | s j v =>
      simp only [Write.toS, Option.ite_none_right_eq_some, Option.some.injEq] at h
      exact ⟨v, h.2.symm, by rw [h.1]⟩
    | _ => exact absurd h nofun
  simp only [Pipe.pending, List.mem_append, List.mem_filterMap, List.mem_flatMap] at h
  obtain ⟨l, hl, h⟩ | ⟨r, hr, w, hm, h⟩ := h
  · obtain ⟨v, hc, hv⟩ := hw h
    exact ⟨v, hc, .inl ⟨l, hl, hv⟩⟩
  · obtain ⟨v, hc, rfl⟩ := hw h
    exact ⟨v, hc, .inr ⟨r, hr, hm⟩⟩

theorem Core.sVal_of_pending_nil {c : Core} {ix : Nat} (tick : Nat) (h : ix ≠ 0)
    (hp : c.pipe.pending (Write.toS ix) = []) : c.sVal tick ix = c.regs.s[ix]?.getD 0 := by
  simp [Core.sVal, h, Core.value, hp]

theorem extractLsb'_byte (x : Word) (b : Nat) : (x.extractLsb' (8 * b) 8).toNat = x.toNat / 256 ^ b % 256 := by
  rw [BitVec.extractLsb'_toNat, Nat.shiftRight_eq_div_pow, Nat.pow_mul]

theorem byte_mod_word (x : Nat) {b : Nat} (h : b < 8) : x % 2 ^ 64 / 256 ^ b % 256 = x / 256 ^ b % 256 := by
  interval_cases b <;> omega

theorem byte_allOnes {b : Nat} (h : b < 8) : (2 ^ 64 - 1) / 256 ^ b % 256 = 255 := by interval_cases b <;> rfl

theorem Core.sVal_byte (c : Core) (tick : Nat) {ix b : Nat} (h : ix ≠ 0) (hb : b < 8) :
    (c.sVal tick ix).extractLsb' (8 * b) 8 = (c.regs.s[ix]?.getD 0).extractLsb' (8 * b) 8 ∨
      ∃ v : Word, (c.sVal tick ix).extractLsb' (8 * b) 8 = v.extractLsb' (8 * b) 8 ∧
        ((∃ l ∈ c.pipe.land, l.write = .s ix v) ∨ ∃ r ∈ c.pipe.soft, .s ix v ∈ r.writes) := by
  by_cases hp : c.pipe.pending (Write.toS ix) = []
  · exact .inl (by rw [Core.sVal_of_pending_nil tick h hp])
  · have hv : c.value tick 0 ix (c.regs.s[ix]?.getD 0).toNat 8 (Write.toS ix) =
        mix tick (c.key 0 ix) (c.regs.s[ix]?.getD 0).toNat (c.pipe.pending (Write.toS ix)) 8 := by
      unfold Core.value
      split
      · contradiction
      · rfl
    have hbyte : ((c.sVal tick ix).extractLsb' (8 * b) 8).toNat =
        mix tick (c.key 0 ix) (c.regs.s[ix]?.getD 0).toNat (c.pipe.pending (Write.toS ix)) 8 / 256 ^ b % 256 := by
      rw [extractLsb'_byte, Core.sVal, if_neg h, hv, BitVec.toNat_ofNat, byte_mod_word _ hb]
    obtain ⟨i, hi⟩ := mix_byte tick hb (c.key 0 ix) (c.regs.s[ix]?.getD 0).toNat (c.pipe.pending (Write.toS ix))
    have hm : ∀ x ∈ byteOf b (c.pipe.pending (Write.toS ix)), x.1 % 256 = 255 := by
      intro x hx
      obtain ⟨y, hy, rfl⟩ := List.mem_map.mp hx
      obtain ⟨v, rfl, -⟩ := mem_pending_toS hy
      exact byte_allOnes hb
    obtain ho | ⟨x, hx, ho⟩ := oneOf_whole (base := (c.regs.s[ix]?.getD 0).toNat / 256 ^ b) (i := i) hm
    · exact .inl (BitVec.eq_of_toNat_eq (by rw [hbyte, hi, ho, extractLsb'_byte]))
    · obtain ⟨y, hy, rfl⟩ := List.mem_map.mp hx
      obtain ⟨v, rfl, hw⟩ := mem_pending_toS hy
      exact .inr ⟨v, BitVec.eq_of_toNat_eq (by rw [hbyte, hi, ho, extractLsb'_byte]), hw⟩

theorem pendingReadsGiveOldOrNewBytes : PendingReadsGiveOldOrNewBytes := by
  refine fun c tick ix h => ⟨fun hl hr => Core.sVal_of_pending_nil tick h ?_, fun b hb => c.sVal_byte tick h hb⟩
  refine List.eq_nil_iff_forall_not_mem.mpr fun x hx => ?_
  obtain ⟨v, -, ⟨l, hm, hw⟩ | ⟨r, hm, hw⟩⟩ := mem_pending_toS hx
  · exact hl l hm v hw
  · exact hr r hm v hw

theorem fixedRegistersReadTheirConstants : FixedRegistersReadTheirConstants :=
  fun _ _ => ⟨rfl, rfl, rfl, rfl, rfl, rfl, rfl⟩

end Sys2Proof.Machine

open Sys2Proof Sys2Proof.Machine Sys2Proof.Claims

/-- Settles O14: a result is merged into its register under its mask, and each byte of a read is picked among the
old byte and those of the results in flight. -/
theorem resultsLandAloneAndReadsSeeThem : Obligations.ResultsLandAloneAndReadsSeeThem :=
  ⟨resultsLandInTheirDestinationAlone, pendingReadsGiveOldOrNewBytes, fixedRegistersReadTheirConstants⟩

end

section
/-!
# The front end of a bundle (04 R85, R90; 10 R233; 14 R322)

Landing leaves a core as it was but for its registers, its failed check values, and in its pipe the results in
flight and what is noted of the tokened ones. The parts of the front end follow one another while the bundle has not
trapped.
-/
namespace Sys2Proof.Machine

/-! ### Landing -/

/-- Two cores that differ at most in what the landing of results changes. -/
def Core.Lands (c d : Core) : Prop :=
  d = { c with
    regs := d.regs
    store := d.store
    pipe := { c.pipe with land := d.pipe.land, posts := d.pipe.posts, soft := d.pipe.soft } }

theorem Core.Lands.trans {c d e : Core} (h : c.Lands d) (k : d.Lands e) : c.Lands e := by
  unfold Core.Lands at *
  rw [k, h]

/-- What is in flight of results but for the parts that are noted as unordered. -/
def Landing.fixed (l : Landing) : Nat × Write × Option Word := (l.due, l.write, l.bad)

theorem Core.landOne_lands (c : Core) (tick : Nat) (l : Landing) : c.Lands (c.landOne tick l) := by
  unfold Core.landOne Pipe.noteClash
  cases l.bad with
  | some _ => rfl
  | none => cases l.write.dst <;> rfl

theorem Core.landOne_fixed (c : Core) (tick : Nat) (l : Landing) :
    (c.landOne tick l).pipe.land.map Landing.fixed = c.pipe.land.map Landing.fixed := by
  unfold Core.landOne Pipe.noteClash
  cases l.bad with
  | some _ => rfl
  | none =>
    cases l.write.dst with
    | none => rfl
    | some d =>
      dsimp only [Core.mend]
      rw [List.map_map]
      refine List.map_congr_left fun k _ => ?_
      rw [Function.comp_apply]
      split <;> rfl

theorem Core.landList_lands (tick : Nat) (ls : List Landing) (c : Core) : c.Lands (c.landList tick ls) := by
  induction ls generalizing c with
  | nil => rfl
  | cons l ls ih => exact (c.landOne_lands tick l).trans (ih _)

theorem Core.landList_fixed (tick : Nat) (ls : List Landing) (c : Core) :
    (c.landList tick ls).pipe.land.map Landing.fixed = c.pipe.land.map Landing.fixed := by
  induction ls generalizing c with
  | nil => rfl
  | cons l ls ih => exact (ih _).trans (c.landOne_fixed tick l)

theorem Core.landDue_lands (c : Core) (tick : Nat) : c.Lands (c.landDue tick) :=
  Core.Lands.trans
    (d := { c with pipe := { c.pipe with land := c.pipe.land.filter fun l => !decide (l.due ≤ c.pipe.now) } })
    rfl (Core.landList_lands tick _ _)

/-- The results that are not yet due stay in flight. -/
theorem Core.landDue_fixed (c : Core) (tick : Nat) : (c.landDue tick).pipe.land.map Landing.fixed =
    (c.pipe.land.filter fun l => decide (c.pipe.now < l.due)).map Landing.fixed := by
  refine (Core.landList_fixed tick _ _).trans (congrArg _ (List.filter_congr fun l _ => ?_))
  rw [← decide_not]
  exact decide_eq_decide.mpr Nat.not_le

/-- A result alone in flight is merged into its register when it is due. -/
theorem Core.landDue_regs {c : Core} {l : Landing} (tick : Nat) (h : c.pipe.land = [l]) (hd : l.due ≤ c.pipe.now)
    (hb : l.bad = none) (ha : l.amb = []) : (c.landDue tick).regs = c.regs.apply l.write := by
  have hs : c.landDue tick = ({ c with pipe := { c.pipe with land := [] } } : Core).landOne tick l := by
    simp [Core.landDue, Core.landSome, h, hd, sortBy, insertBy, Core.landList]
  rw [hs]
  unfold Core.landOne
  rw [hb, ha]
  cases l.write.dst <;> rfl

@[simp] theorem Core.landDue_cont (c : Core) (tick : Nat) : (c.landDue tick).cont = c.cont := by
  rw [c.landDue_lands tick]
@[simp] theorem Core.landDue_status (c : Core) (tick : Nat) : (c.landDue tick).pipe.status = c.pipe.status := by
  rw [c.landDue_lands tick]

/-! ### The parts of the front end -/

theorem Core.members_free {c : Core} (h : c.cont.gsize = 0) : c.members = [c.id] := if_pos h

theorem execRunOverrun_of_due {s : State} (hh : s.core.cont.handler = false)
    (h : s.core.cont.run ≤ s.core.cont.stretch) : execRunOverrun s = .next s.overrun := by
  simp [execRunOverrun, hh, h]

theorem execRunOverrun_of_not_due {s : State}
    (h : s.core.cont.handler = true ∨ s.core.cont.stretch < s.core.cont.run) : execRunOverrun s = .next s := by
  refine congrArg Host.Outcome.next (if_neg ?_)
  obtain h | h := h <;> simp [h]

theorem execMolcExpiry_of_due {s : State} (hh : s.core.cont.handler = false) (hg : s.core.cont.gsize = 0)
    (h : s.molcDue s.core.id = true) :
    execMolcExpiry s = .next (s.cancelChains s.core.id s.core.cont.recPa).overrun := by
  simp [execMolcExpiry, hh, Core.members_free hg, h]

theorem execMolcExpiry_of_handler {s : State} (h : s.core.cont.handler = true) : execMolcExpiry s = .next s := by
  simp [execMolcExpiry, h]

theorem execMolcExpiry_of_not_due {s : State} (hg : s.core.cont.gsize = 0)
    (h : s.core.cont.handler = true ∨ s.molcDue s.core.id = false) : execMolcExpiry s = .next s := by
  refine congrArg Host.Outcome.next (if_neg ?_)
  obtain h | h := h <;> simp [h, Core.members_free hg]

theorem State.unlessTrapped_ok {s t : State} {f : State → Out} (hs : s.core.pipe.status = .ok) (h : f s = .next t) :
    s.unlessTrapped f = t := by simp [State.unlessTrapped, hs, h]

theorem State.unlessTrapped_trapped {s : State} (hs : s.core.pipe.status ≠ .ok) (f : State → Out) :
    s.unlessTrapped f = s := if_neg hs

/-- The front end once neither the run nor a link stands in the way: the results that fail, else the fetch. -/
theorem execBundleIssue_of_passed {s : State} (hr : execRunOverrun s.startBundle = .next s.startBundle)
    (hm : execMolcExpiry s.startBundle = .next s.startBundle) :
    (s.startBundle.badLandings = [] → execBundleIssue s =
      .next ({ s.startBundle with core := s.startBundle.core.landDue s.startBundle.tick } : State).fetchBundle) ∧
    (s.startBundle.badLandings ≠ [] →
      (s.startBundle.landingTrap false s.startBundle.badLandings).core.pipe.status ≠ .ok →
      execBundleIssue s = .next (s.startBundle.landingTrap false s.startBundle.badLandings)) := by
  have hs : s.startBundle.core.pipe.status = .ok := rfl
  unfold execBundleIssue
  dsimp only
  rw [State.unlessTrapped_ok hs hr, State.unlessTrapped_ok hs hm]
  refine ⟨fun hb => congrArg _ ?_, fun hb ht => congrArg _ ?_⟩
  · rw [State.unlessTrapped_ok hs ((if_neg (not_not.mpr hb)).trans rfl)]
    exact State.unlessTrapped_ok ((Core.landDue_status _ _).trans hs) rfl
  · rw [State.unlessTrapped_ok hs (if_pos hb), State.unlessTrapped_trapped ht]

/-- The front end of a stretch that has reached its run. -/
theorem execBundleIssue_of_overrun {s : State} (hr : execRunOverrun s.startBundle = .next s.startBundle.overrun)
    (ht : s.startBundle.overrun.core.pipe.status ≠ .ok) : execBundleIssue s = .next s.startBundle.overrun := by
  have hs : s.startBundle.core.pipe.status = .ok := rfl
  unfold execBundleIssue
  dsimp only
  rw [State.unlessTrapped_ok hs hr, State.unlessTrapped_trapped ht, State.unlessTrapped_trapped ht,
    State.unlessTrapped_trapped ht]

end Sys2Proof.Machine

open Sys2Proof Sys2Proof.Machine Sys2Proof.Claims

/-- Settles O42: each part of the front end by its own lemma, the whole by the parts that a trap leaves out. -/
theorem theFrontEndChecksInOrder : Obligations.TheFrontEndChecksInOrder := by
  intro s
  delta Gives exec
  refine ⟨execRunOverrun_of_due, execRunOverrun_of_not_due, execMolcExpiry_of_due, execMolcExpiry_of_handler,
    ⟨_, rfl, rfl, s.core.landDue_fixed s.tick,
      fun l h hd hb ha _ _ => Core.landDue_regs s.tick h hd hb ha⟩, ?_, ?_⟩
  · rintro t v rfl hh hr ht
    have hb := execBundleIssue_of_overrun (execRunOverrun_of_due hh hr) ht
    exact ⟨fun h => (Host.Outcome.next.inj (hb.symm.trans h)).symm, fun h => h ▸ hb⟩
  · rintro v rfl hh
    exact execBundleIssue_of_passed (execRunOverrun_of_not_due (.inl hh)) (execMolcExpiry_of_handler hh)

end

section
/-!
# The step of a bundle of one slot (04 R73 to R90; 14 R304)

The front end gives the bundle of the one slot that the words decode to; its slot is tried once, and what the trial
shows decides whether the bundle traps, waits, or acts and ends.
-/
namespace Sys2Proof.Machine

open Sys2Proof.Claims

/-! ### The front end of a bundle that is fetched -/

/-- The device as the one slot of a free continuation's bundle finds it. -/
structure State.Alone (t : State) (id : Nat) (i : Instr) : Prop where
  id : t.core.id = id
  gsize : t.core.cont.gsize = 0
  member : t.core.cont.member = 0
  bundle : t.core.pipe.bundle = [(0, i)]
  later : t.core.pipe.later = []
  slot : t.core.pipe.slot = 0
  status : t.core.pipe.status = .ok
  fails : t.core.pipe.fails = []
  xl : t.core.pipe.xl = none

/-- Words that decode to one slot become the bundle in turn. -/
theorem State.decodeAt_single {s : State} {ws : List SlotWord} {i : Instr} (h : decodeBundle ws = .ok [(0, i)])
    (hx : s.badIndexes ws = []) : s.decodeAt ws = s.setPipe { s.core.pipe with
      bundle := [(0, i)], npc := s.core.pipe.pc + BitVec.ofNat 32 (4 * ws.length) } := by
  unfold State.decodeAt
  dsimp only
  rw [h, hx]
  by_cases hb : i.opc = 0x0F#8 <;> simp [hb]

/-- A fetch in whose way nothing stands goes on with the words. -/
theorem State.fetchThrough_ok {s : State} {o : ObjInfo} {pc n : Nat} {go : State → State} {j : Job} {b : Buf}
    {ks : List (Nat × Nat)} (hj : s.job! = some j)
    (hc : s.check j o.osize needX true (ptrIx (o.codePtr pc)) (ptrOff (o.codePtr pc)) (4 * n) = .ok (.buf b))
    (ht : b.tier ≠ 3)
    (hk : s.pureKeys j.tenant.toNat b.tier (b.pieces (ptrOff (o.codePtr pc)) (4 * n)) = .ok ks)
    (hw : (s.askWalks j.tenant.toNat b.tier (b.pieces (ptrOff (o.codePtr pc)) (4 * n))).2 = false)
    (hp : s.portHeld b (ptrOff (o.codePtr pc)) (4 * n) ks = false) (hb : s.coreBad s.core.id ks = false)
    (hcb : s.codeBad ks = false) : s.fetchThrough o pc n go = go s := by
  fun_cases State.fetchThrough s o pc n go with
  | case9 => rfl
  | _ => grind

/-- A bundle that is framed and fetched is decoded. -/
theorem State.fetchBundle_ok {s : State} {ws : List SlotWord} (ha : s.core.pipe.pc.toNat % 4 = 0)
    (hl : s.core.pipe.pc.toNat < s.core.object.codelen) (hs : s.core.sys.armed = none)
    (hf : takeBundle 8 (s.fetchWords s.core.object s.core.pipe.pc.toNat) = some ws) (hd : s.dlyOverrun ws = false)
    (hg : ∀ go : State → State, s.fetchThrough s.core.object s.core.pipe.pc.toNat ws.length go = go s) :
    s.fetchBundle = s.decodeAt ws := by
  unfold State.fetchBundle
  dsimp only
  rw [if_neg (not_or.mpr ⟨not_not.mpr ha, Nat.not_le.mpr hl⟩), hs]
  simp only [hf, Option.isNone_some, Bool.false_eq_true, false_and, if_false, Option.getD_some, hd, hg]

/-- The landing of results leaves what the start of a bundle has set. -/
theorem State.startBundle_landed (s : State) : ∃ g st la po so,
    s.startBundle.core.landDue s.startBundle.tick = { s.startBundle.core with
      regs := g
      store := st
      pipe := { s.startBundle.core.pipe with land := la, posts := po, soft := so } } :=
  ⟨_, _, _, _, _, Core.landDue_lands _ _⟩

theorem fetches_issues {s t : State} {id : Nat} {i : Instr} (h : Fetches s id i t) :
    execBundleIssue (s.tock.focus id) = .next t ∧ t.Alone id i := by
  obtain ⟨v, l, o, ws, j, b, p, ks, -, rfl, rfl, rfl, hid, hg, hm, hrun, hmolc, hbad, ha, hl, hs, hf, hd, hj, rfl, hc,
    htier, hk, hw, hp, hcb, hib, hdec, hx, rfl⟩ := h
  obtain ⟨g, st, la, po, so, hland⟩ := (s.tock.focus id).startBundle_landed
  have hmolc' : (s.tock.focus id).startBundle.core.cont.handler = true ∨
      (s.tock.focus id).startBundle.molcDue (s.tock.focus id).startBundle.core.id = false := by
    rw [hid]
    exact hmolc
  have hid' : ((s.tock.focus id).startBundle.core.landDue (s.tock.focus id).startBundle.tick).id = id := by
    rw [hland]
    exact hid
  refine ⟨?_, ?_⟩
  · rw [(execBundleIssue_of_passed (execRunOverrun_of_not_due hrun)
      (execMolcExpiry_of_not_due hg hmolc')).1 hbad]
    rw [State.fetchBundle_ok ha hl hs hf hd fun go =>
      State.fetchThrough_ok hj hc htier hk hw hp (hid'.symm ▸ hcb) hib, State.decodeAt_single hdec hx]
    simp only [hland]
    rfl
  · exact ⟨hid', (congrArg (·.cont.gsize) hland).trans hg, (congrArg (·.cont.member) hland).trans hm, rfl,
      congrArg (·.pipe.later) hland, rfl, rfl, rfl, congrArg (·.pipe.xl) hland⟩

/-! ### What the end of a bundle leaves -/

/-- How a core stands after a slot: its status, its failing slots, its mode. -/
def Core.standing (c : Core) : Status × List (Nat × Cause × Word × BitVec 48) × Bool :=
  (c.pipe.status, c.pipe.fails, c.cont.handler)

theorem foldl_keeps {α β γ : Type} {f : β → α → β} {g : β → γ} (h : ∀ b a, g (f b a) = g b)
    (l : List α) (b : β) : g (l.foldl f b) = g b := by
  induction l generalizing b with
  | nil => rfl
  | cons a l ih => exact (ih _).trans (h b a)

theorem State.setCore_standing {s : State} {c : Core} {id : Nat} (hid : c.id = id)
    (h : c.standing = (s.coreOf id).standing) : (s.setCore c).core.standing = s.core.standing := by
  unfold State.setCore
  split
  next e => rw [h, ← hid, ← e, State.coreOf_self]
  next => rfl

theorem State.commit_standing (s : State) : s.commit.core.standing = s.core.standing := by
  refine foldl_keeps (g := fun s : State => s.core.standing) (fun s id => ?_) _ _
  exact State.setCore_standing (s.coreOf_id id) rfl

@[simp] theorem State.settle_core (s : State) (job : Nat) (ch : BitVec 10) (inst : BitVec 16) (j : Nat) :
    (s.settle job ch inst j).core = s.core := by
  unfold State.settle State.wake
  split
  · rfl
  · split <;> rfl

theorem State.countBundle_core (s : State) : s.countBundle.core = s.core := by
  refine foldl_keeps (g := State.core) (fun s id => ?_) _ _
  refine foldl_keeps (g := State.core) (fun s c => ?_) _ _
  refine foldl_keeps (g := State.core) (fun s l => ?_) _ _
  split
  · rw [State.settle_core, State.setChain_core]
  · rfl

/-- The effects of a bundle hold, and outside the handler the links count it. -/
def State.committed (s : State) (handler : Bool) : State :=
  if handler = true then s.commit else s.commit.countBundle

theorem State.committed_standing (s : State) (handler : Bool) :
    (s.committed handler).core.standing = s.core.standing := by
  unfold State.committed
  split
  · exact s.commit_standing
  · rw [State.countBundle_core, s.commit_standing]

/-- A bundle that leaves its core in the mode in which it found it waits for no result. -/
theorem State.awaited_nil {s t : State} (hs : t.core.pipe.status ≠ .left)
    (hh : t.core.cont.handler = s.core.cont.handler) : s.awaited t = [] := by
  simp [State.awaited, hs, hh]

/-! ### The trial of the slot -/

namespace State.Alone

variable {t y : State} {id : Nat} {i : Instr} (h : t.Alone id i)
include h

theorem members : t.core.members = [id] := by rw [Core.members_free h.gsize, h.id]

theorem focus : t.focus id = t := by rw [← h.id, State.focus_self]

theorem coreOf : t.coreOf id = t.core := by rw [← h.id, State.coreOf_self]

/-- The slot finds the pipe as it stands. -/
theorem slot_eq (run : Runs) : t.slot run (0, i) = run i t := by
  have hp : { t.core.pipe with slot := 0, status := .ok, fails := [], xl := none } = t.core.pipe := by
    rw [← h.slot, ← h.status, ← h.fails, ← h.xl]
  unfold State.slot
  dsimp only
  rw [hp]
  rfl

theorem marked_nil : t.marked [] = t := by
  unfold State.marked
  rw [← h.later]
  rfl

theorem slotsOf : t.slotsOf id = [(0, i)] := by
  simp [State.slotsOf, h.bundle, h.coreOf, h.member]

/-- No member's branch goes another way than the captain's: there is one member. -/
theorem desync : t.desync = none := by
  have hs : (t.takes id).any (fun q => !(t.takes id).contains q) = false := by simp
  unfold State.desync
  dsimp only
  rw [h.members, h.id]
  simp only [List.zip_cons_cons, List.range, List.range.loop, List.zip_nil_left, List.findSome?_cons, hs,
    Bool.false_eq_true, if_false, List.findSome?_nil]

/-- The trial of the slot, by the state in which its meaning leaves the core. -/
theorem probe (he : exec i t = .next y) (hy : y.core.id = id) :
    t.probe exec id [] [(0, i)] =
      if y.core.pipe.fails ≠ [] then .fail [((0, i), [])]
      else if y.core.pipe.status = .stalled ∨ (y.core.pipe.status = .left ∧ Instr.suspends i) then .hold y
      else .go := by
  have hc : y.coreOf id = y.core := by rw [← hy, State.coreOf_self]
  simp only [State.probe, h.focus, h.marked_nil, h.slot_eq, he, hc]

/-- A trap by the one slot: it acts with no other failing slot noted, the one member marked. -/
theorem trapBy_eq (run : Runs) :
    t.trapBy run [(id, [((0, i), [])])] = run i (t.setPipe { t.core.pipe with also := 0, alsoG := 1 }) := by
  have ht : (t.setPipe { t.core.pipe with also := 0, alsoG := 1 }).Alone id i := { h with }
  rw [← ht.slot_eq run]
  unfold State.trapBy
  dsimp only [List.foldl_cons, List.foldl_nil, List.map_nil]
  rw [h.focus, h.coreOf, h.member, ← h.later]
  rfl

/-- A bundle whose slot fails its trial traps by it. -/
theorem issueSlots_fail {l : List ((Nat × Instr) × List Later)} (hp : t.probe exec id [] [(0, i)] = .fail l) :
    t.issueSlots exec = t.trapBy exec [(id, l)] := by
  unfold State.issueSlots
  dsimp only
  rw [h.desync, h.members]
  simp only [List.map_cons, List.map_nil, h.slotsOf, hp, List.findSome?_cons, List.findSome?_nil, failing, ne_eq,
    reduceCtorEq, not_false_eq_true, if_true]

/-- A bundle whose slot waits has no effect and issues again. -/
theorem issueSlots_hold (hp : t.probe exec id [] [(0, i)] = .hold y) :
    t.issueSlots exec = .next (y.held id) := by
  unfold State.issueSlots
  dsimp only
  rw [h.desync, h.members]
  simp only [List.map_cons, List.map_nil, h.slotsOf, hp, List.findSome?_cons, List.findSome?_nil, failing, ne_eq,
    not_true_eq_false, if_false, h.id]

/-- The bundle once its trial lets it go: what acts before the end of the bundle, then what follows every other
slot. -/
theorem issueSlots_go {u w : State} (hp : t.probe exec id [] [(0, i)] = .go)
    (hm : t.runMembers exec [id] = .next u) (hu : u.core.id = id) (hus : u.core.pipe.status ≠ .stalled)
    (huf : u.core.pipe.fails = [])
    (hw : (u.committed t.core.cont.handler).runSlots exec ([(0, i)].filter fun q => Instr.whole q.2) = .next w)
    (hws : w.core.pipe.status ≠ .stalled) (hwf : w.core.pipe.fails = []) :
    t.issueSlots exec = .next (if t.awaited w = [] then w.endBundle t.core.cont.handler
      else t.landingTrap true (t.awaited w)) := by
  have huc : u.focus id = u := by rw [← hu, State.focus_self]
  rw [State.committed] at hw
  unfold State.issueSlots
  dsimp only
  rw [h.desync, h.members]
  simp only [List.map_cons, List.map_nil, h.slotsOf, hp, List.findSome?_cons, List.findSome?_nil, failing, ne_eq,
    not_true_eq_false, if_false, hm, h.id, hus, huf, huc, h.bundle, hw, hws, hwf, or_self]
  by_cases ha : t.awaited w = [] <;> simp [ha]

/-- A bundle of an ordinary slot: the slot acts, its effects hold, and the bundle ends. -/
theorem issueSlots_ordinary (he : exec i t = .next y) (hy : y.core.id = id) (hf : y.core.pipe.fails = [])
    (hw : Instr.whole i = false) (hs : y.core.pipe.status = .ok)
    (hh : y.core.cont.handler = t.core.cont.handler) :
    t.issueSlots exec = .next (ended y t.core.cont.handler) := by
  have hp : t.probe exec id [] [(0, i)] = .go := by simp [h.probe he hy, hf, hs]
  have hm : t.runMembers exec [id] = .next y := by
    have hyf : y.focus id = y := by rw [← hy, State.focus_self]
    simp [State.runMembers, h.focus, h.slotsOf, hw, State.runSlots, h.slot_eq, he, hf, hs, h.id, hyf]
  obtain ⟨hws, hwf, hwh⟩ : (y.committed t.core.cont.handler).core.pipe.status = .ok ∧
      (y.committed t.core.cont.handler).core.pipe.fails = [] ∧
      (y.committed t.core.cont.handler).core.cont.handler = t.core.cont.handler := by
    have := y.committed_standing t.core.cont.handler
    simpa only [Core.standing, hs, hf, hh, Prod.mk.injEq] using this
  rw [h.issueSlots_go hp hm hy (by simp [hs]) hf (w := y.committed t.core.cont.handler) (by simp [hw, State.runSlots])
    (by simp [hws]) hwf, if_pos (State.awaited_nil (by simp [hws]) hwh)]
  rfl

/-- A bundle of a slot that acts after every other: it acts once the effects of the bundle hold. -/
theorem issueSlots_whole {y' : State} (he : exec i t = .next y) (hy : y.core.id = id) (hf : y.core.pipe.fails = [])
    (hw : Instr.whole i = true) (hs : y.core.pipe.status ≠ .stalled)
    (he' : (t.committed t.core.cont.handler).slot exec (0, i) = .next y')
    (hf' : y'.core.pipe.fails = []) (hs' : y'.core.pipe.status ≠ .stalled) :
    t.issueSlots exec = .next (if t.awaited y' = [] then y'.endBundle t.core.cont.handler
      else t.landingTrap true (t.awaited y')) := by
  have hsus : Instr.suspends i = false := by
    cases i with
    | wtks | wtksRf1 | wwaitS => exact absurd hw Bool.false_ne_true
    | _ => rfl
  have hp : t.probe exec id [] [(0, i)] = .go := by simp [h.probe he hy, hf, hs, hsus]
  have hm : t.runMembers exec [id] = .next t := by
    simp [State.runMembers, h.focus, h.slotsOf, hw, State.runSlots, h.id, h.status, h.fails]
  exact h.issueSlots_go hp hm h.id (by simp [h.status]) h.fails
    (by simp [hw, State.runSlots, he', hf', hs']) hs' hf'

end State.Alone

/-! ### The step -/

/-- The bundle of a free continuation issues the slots that the front end has found. -/
theorem fetches_step {s t u : State} {id : Nat} {i : Instr} (h : Fetches s id i t)
    (hu : t.issueSlots exec = .next u) : step s = .next (stepped s u) := by
  obtain ⟨hb, ht⟩ := fetches_issues h
  have hi : (s.tock.focus id).issue exec = .next u := by
    unfold State.issue
    rw [hb]
    simp [ht.status, ht.members, ht.id, hu]
  obtain ⟨v, l, o, ws, j, b, p, ks, hturn, -⟩ := h
  unfold Machine.step
  dsimp only
  rw [hturn]
  simp only [State.act, hi]

end Sys2Proof.Machine

open Sys2Proof Sys2Proof.Machine Sys2Proof.Claims

/-- Settles O36: the front end gives the one slot of the bundle, and its trial says which of the four ways the bundle
goes. -/
theorem stepRunsTheDecodedInstruction : Obligations.StepRunsTheDecodedInstruction := by
  intro s t id i h
  have ha : t.Alone id i := (fetches_issues h).2
  refine ⟨fun y he hy hf hw hs hh => fetches_step h (ha.issueSlots_ordinary he hy hf hw hs hh),
    fun y y' he hy hf he' => ?_, fun y he hy hf hs => fetches_step h (ha.issueSlots_hold ?_),
    fun y y' w he hy hf hw hs hww he' hf' hs' => ?_⟩
  · have hp : t.probe exec id [] [(0, i)] = .fail [((0, i), [])] := by rw [ha.probe he hy, if_pos hf]
    exact fetches_step h ((ha.issueSlots_fail hp).trans ((ha.trapBy_eq exec).trans he'))
  · rw [ha.probe he hy, if_neg (not_not.mpr hf), if_pos (.inl hs)]
  · subst hww
    have := ha.issueSlots_whole he hy hf hw hs he' hf' hs'
    exact ⟨fun hn => fetches_step h (by rw [this, if_pos hn]), fun hn => fetches_step h (by rw [this, if_neg hn])⟩

end

section
/-!
# Completions post in issue order (05 R107, R108)

One pass over the postings in flight makes those that are ready and keeps the others; what it has kept holds back
every later posting to the same tokens.
-/
namespace Sys2Proof.Machine

/-! ### The tokens of the file (05 R106) -/

theorem Regs.tok_setTok_same (g : Regs) {t : Nat} (k : Token) (h : t < 34) : (g.setTok t k).tok t = k := by
  simp [Regs.tok, Regs.setTok, h]

theorem Regs.tok_setTok_ne (g : Regs) {t n : Nat} (k : Token) (h : n ≠ t) : (g.setTok t k).tok n = g.tok n := by
  simp [Regs.tok, Regs.setTok, Vector.getElem?_setIfInBounds_ne h.symm]

/-- The registers after some postings have taken effect one after another. -/
def Regs.postAll (g : Regs) (ps : List Posting) : Regs := ps.foldl (fun g p => g.setTok p.tok (p.act (g.tok p.tok))) g

/-- Postings to one token act on it in their order. -/
theorem Regs.postAll_tok_same {t : Nat} (ht : t < 34) {ps : List Posting} (h : ∀ p ∈ ps, p.tok = t) (g : Regs) :
    (g.postAll ps).tok t = ps.foldl (fun k p => p.act k) (g.tok t) := by
  induction ps generalizing g with
  | nil => rfl
  | cons p ps ih =>
    obtain ⟨rfl, hps⟩ := List.forall_mem_cons.mp h
    rw [Regs.postAll, List.foldl_cons, List.foldl_cons]
    refine (ih hps _).trans ?_
    rw [g.tok_setTok_same _ ht]

/-- Postings to other tokens leave a token as it is. -/
theorem Regs.postAll_tok_ne {t : Nat} {ps : List Posting} (h : ∀ p ∈ ps, p.tok ≠ t) (g : Regs) :
    (g.postAll ps).tok t = g.tok t := by
  induction ps generalizing g with
  | nil => rfl
  | cons p ps ih =>
    obtain ⟨hp, hps⟩ := List.forall_mem_cons.mp h
    exact (ih hps _).trans (g.tok_setTok_ne _ hp.symm)

/-! ### One pass over the postings -/

/-- The tokens that postings hold back after some have been kept. -/
def heldBy (b : List Nat) (kept : List Posting) : List Nat := (kept.map Posting.tok).reverse ++ b

@[simp] theorem mem_heldBy {t : Nat} {b : List Nat} {ps : List Posting} :
    t ∈ heldBy b ps ↔ (∃ p ∈ ps, p.tok = t) ∨ t ∈ b := by
  simp [heldBy]

/-- A pass goes over a list part by part. -/
theorem flushPosts_append (ps qs : List Posting) (g : Regs) (b : List Nat) :
    flushPosts g b (ps ++ qs) =
      ((flushPosts (flushPosts g b ps).1 (heldBy b (flushPosts g b ps).2) qs).1,
        (flushPosts g b ps).2 ++ (flushPosts (flushPosts g b ps).1 (heldBy b (flushPosts g b ps).2) qs).2) := by
  induction ps generalizing g b with
  | nil => rfl
  | cons p ps ih =>
    rw [List.cons_append, flushPosts, flushPosts]
    split
    · exact ih _ _
    · simp [ih, heldBy]

/-- Postings that are not ready, or whose token is held back, are kept. -/
theorem flushPosts_kept {ps : List Posting} {b : List Nat} (h : ∀ p ∈ ps, p.ready = false ∨ p.tok ∈ b) (g : Regs) :
    flushPosts g b ps = (g, ps) := by
  induction ps generalizing b with
  | nil => rfl
  | cons p ps ih =>
    obtain ⟨hp, hps⟩ := List.forall_mem_cons.mp h
    have hno : ¬ (p.ready && !b.contains p.tok) = true := by
      rcases hp with hp | hp <;> simp [hp]
    rw [flushPosts, if_neg hno, ih fun q hq => (hps q hq).imp_right (List.mem_cons_of_mem _)]

/-- Postings that are ready and not held back all take effect. -/
theorem flushPosts_made {ps : List Posting} {b : List Nat} (h : ∀ p ∈ ps, p.ready = true ∧ p.tok ∉ b) (g : Regs) :
    flushPosts g b ps = (g.postAll ps, []) := by
  induction ps generalizing g with
  | nil => rfl
  | cons p ps ih =>
    obtain ⟨⟨hr, hb⟩, hps⟩ := List.forall_mem_cons.mp h
    rw [flushPosts, if_pos (by simp [hr, hb]), ih hps]
    rfl

/-- Every posting that a pass keeps was in flight before it. -/
theorem mem_of_mem_flushPosts {p : Posting} {ps : List Posting} {g : Regs} {b : List Nat}
    (h : p ∈ (flushPosts g b ps).2) : p ∈ ps := by
  induction ps generalizing g b with
  | nil => exact h
  | cons q ps ih =>
    rw [flushPosts] at h
    split at h
    · exact List.mem_cons_of_mem _ (ih h)
    · exact (List.mem_cons.mp h).elim (fun e => e ▸ List.mem_cons_self) fun h => List.mem_cons_of_mem _ (ih h)

/-! ### A completion finds its posting -/

/-- A posting whose operation has ended is ready, with the fault of a failed one. -/
def Posting.done (p : Posting) (f : Option PFault) : Posting := { p with ready := true, fault := f }

/-- What a completion adds to the results that no wait covers yet: nothing where the operation failed. -/
def addedSoft (c : Completion) (p : Posting) : List Soft :=
  if c.fault ≠ none ∨ c.writes = [] then [] else [⟨p.tok, p.cover, p.dst, c.writes, p.clash⟩]

/-- The one posting of a number is the first of that number. -/
theorem find?_posting {ps qs : List Posting} {p : Posting} {id : Nat} (hp : p.id = id) (hps : ∀ q ∈ ps, q.id ≠ id) :
    (ps ++ p :: qs).find? (fun q => decide (q.id = id)) = some p := by
  have hno : ps.find? (fun q => decide (q.id = id)) = none := List.find?_eq_none.mpr (by simpa using hps)
  simp [List.find?_append, hno, hp]

/-- Marking the posting of a number as done leaves the others. -/
theorem map_done {ps qs : List Posting} {p : Posting} {id : Nat} (f : Option PFault) (hp : p.id = id)
    (hps : ∀ q ∈ ps, q.id ≠ id) (hqs : ∀ q ∈ qs, q.id ≠ id) :
    (ps ++ p :: qs).map (fun q => if q.id = id then { q with ready := true, fault := f } else q) =
      ps ++ p.done f :: qs := by
  have same {l : List Posting} (hl : ∀ q ∈ l, q.id ≠ id) :
      l.map (fun q => if q.id = id then { q with ready := true, fault := f } else q) = l :=
    (List.map_congr_left fun q hq => if_neg (hl q hq)).trans (List.map_id' l)
  rw [List.map_append, List.map_cons, same hps, same hqs, if_pos hp]
  rfl

/-- What the core of a posting is after its operation completes: the posting is done, its result has landed, and
one pass makes what can be made. -/
theorem Core.complete_eq {k : Core} {c : Completion} {p : Posting} {ps qs : List Posting} {id : Nat}
    (hc : c.post = some id) (hk : k.pipe.posts = ps ++ p :: qs) (hp : p.id = id) (hps : ∀ q ∈ ps, q.id ≠ id)
    (hqs : ∀ q ∈ qs, q.id ≠ id) :
    k.complete c = ({ k with pipe := { k.pipe with
      posts := ps ++ p.done c.fault :: qs, soft := k.pipe.soft ++ addedSoft c p } } : Core).flush := by
  unfold Core.complete addedSoft
  simp only [hc, hk, find?_posting hp hps, map_done c.fault hp hps hqs]
  cases c.fault <;> by_cases hw : c.writes = [] <;> simp [hw]

/-- The oldest posting to its token is made with its completion, and those to the token that were ready behind it
after it. -/
theorem Core.complete_first {k : Core} {c : Completion} {p : Posting} {ps qs rs : List Posting} {id : Nat}
    (hc : c.post = some id) (hk : k.pipe.posts = ps ++ p :: (qs ++ rs)) (hp : p.id = id)
    (hwait : ∀ q ∈ ps ++ rs, q.ready = false ∧ q.id ≠ id) (hps : ∀ q ∈ ps, q.tok ≠ p.tok)
    (hqs : ∀ q ∈ qs, q.ready = true ∧ q.id ≠ id ∧ q.tok = p.tok) :
    k.complete c = { k with
      regs := k.regs.postAll (p.done c.fault :: qs)
      pipe := { k.pipe with posts := ps ++ rs, soft := k.pipe.soft ++ addedSoft c p } } := by
  obtain ⟨hpsw, hrsw⟩ := List.forall_mem_append.mp hwait
  have hmade : ∀ q ∈ p.done c.fault :: qs, q.ready = true ∧ q.tok ∉ heldBy [] ps := by
    have hno : p.tok ∉ heldBy [] ps := by simpa using hps
    exact List.forall_mem_cons.mpr ⟨⟨rfl, hno⟩, fun q hq => ⟨(hqs q hq).1, (hqs q hq).2.2 ▸ hno⟩⟩
  have hflush : flushPosts k.regs [] (ps ++ p.done c.fault :: (qs ++ rs)) =
      (k.regs.postAll (p.done c.fault :: qs), ps ++ rs) := by
    rw [flushPosts_append, flushPosts_kept fun q hq => .inl (hpsw q hq).1, ← List.cons_append, flushPosts_append,
      flushPosts_made hmade, flushPosts_kept fun q hq => .inl (hrsw q hq).1, List.nil_append]
  rw [Core.complete_eq hc hk hp (fun q hq => (hpsw q hq).2) (List.forall_mem_append.mpr
    ⟨fun q hq => (hqs q hq).2.1, fun q hq => (hrsw q hq).2⟩)]
  simp only [Core.flush, hflush]

/-- A posting behind an earlier one to its token stays in flight, ready. -/
theorem Core.complete_behind {k : Core} {c : Completion} {p : Posting} {ps qs : List Posting} {id : Nat}
    (hc : c.post = some id) (hk : k.pipe.posts = ps ++ p :: qs) (hp : p.id = id)
    (hwait : ∀ q ∈ ps ++ qs, q.ready = false ∧ q.id ≠ id) (hearly : ∃ q ∈ ps, q.tok = p.tok) :
    k.complete c = { k with pipe := { k.pipe with
      posts := ps ++ p.done c.fault :: qs, soft := k.pipe.soft ++ addedSoft c p } } := by
  obtain ⟨hpsw, hqsw⟩ := List.forall_mem_append.mp hwait
  have hbehind : ∀ q ∈ p.done c.fault :: qs, q.ready = false ∨ q.tok ∈ heldBy [] ps :=
    List.forall_mem_cons.mpr ⟨.inr (mem_heldBy.mpr (.inl hearly)), fun q hq => .inl (hqsw q hq).1⟩
  have hflush : flushPosts k.regs [] (ps ++ p.done c.fault :: qs) = (k.regs, ps ++ p.done c.fault :: qs) := by
    rw [flushPosts_append, flushPosts_kept fun q hq => .inl (hpsw q hq).1, flushPosts_kept hbehind]
  rw [Core.complete_eq hc hk hp (fun q hq => (hpsw q hq).2) fun q hq => (hqsw q hq).2]
  simp only [Core.flush, hflush]

/-- A completion whose posting is in flight on the core in turn acts on that core alone. -/
theorem execTokenedOperationComplete_here {s : State} {c : Completion} {p : Posting} {id : Nat}
    (hc : c.post = some id) (hp : p ∈ s.core.pipe.posts) (hi : p.id = id) :
    execTokenedOperationComplete c s = .next { s with core := s.core.complete c } := by
  have hfind : s.posting? id = some s.core := by
    have : (s.core.pipe.posts.any fun p => decide (p.id = id)) = true := List.any_eq_true.mpr ⟨p, hp, by simpa using hi⟩
    simp [State.posting?, this]
  have hid : (s.core.complete c).id = s.core.id := by
    unfold Core.complete
    cases c.post with
    | none => rfl
    | some n => dsimp only; split <;> rfl
  simp [execTokenedOperationComplete, hc, hfind, State.setCore, hid]

/-! ### What posts to a token leave -/

theorem Token.post_none (k : Token) : k.post none = { k with count := k.count + 1 } := rfl

/-- The first fault since the token was clear is noted, with its place in the count (05 R108). -/
theorem Token.post_some (k : Token) (e : PFault) : k.post (some e) =
    if k.f = true then { k with count := k.count + 1 }
    else ⟨k.count + 1, k.count + 1, decide (e.cause = .xlate), true, e.frec⟩ := rfl

@[simp] theorem Token.post_count (k : Token) (f : Option PFault) : (k.post f).count = k.count + 1 := by
  cases f with
  | none => rfl
  | some e => rw [Token.post_some]; split <;> rfl

theorem Token.count_foldl_post (qs : List Posting) (k : Token) :
    (qs.foldl (fun k q => k.post q.fault) k).count = k.count + BitVec.ofNat 16 qs.length := by
  induction qs generalizing k with
  | nil => simp
  | cons q qs ih =>
    rw [List.foldl_cons, ih, Token.post_count, List.length_cons, BitVec.ofNat_add, BitVec.add_assoc]
    congr 1
    exact BitVec.add_comm ..

theorem Posting.act_post {p : Posting} (h : p.image = none) (k : Token) : p.act k = k.post p.fault := by
  rw [Posting.act, h, Option.getD_none]

end Sys2Proof.Machine

open Sys2Proof Sys2Proof.Machine Sys2Proof.Claims

/-- Settles O26: the pass over the postings keeps those before the completed one, makes it and those ready behind
it, and keeps the rest; behind an earlier posting to its token it keeps the completed one too. -/
theorem completionsPostInIssueOrder : Obligations.CompletionsPostInIssueOrder := by
  refine ⟨fun s c p ps qs rs id hc hposts hid himg htok hwait hps hqs => ?_,
    fun k => ⟨k.post_none, k.post_some⟩, fun s c p ps qs id hc hposts hid hwait hearly => ?_⟩
  · have hcore := Core.complete_first hc hposts hid hwait hps fun q hq =>
      ⟨(hqs q hq).1, (hqs q hq).2.1, (hqs q hq).2.2.1⟩
    have hone : ∀ q ∈ p.done c.fault :: qs, q.tok = p.tok :=
      List.forall_mem_cons.mpr ⟨rfl, fun q hq => (hqs q hq).2.2.1⟩
    have hfold : (s.core.regs.postAll (p.done c.fault :: qs)).tok p.tok =
        qs.foldl (fun k q => k.post q.fault) ((s.core.regs.tok p.tok).post c.fault) := by
      rw [Regs.postAll_tok_same htok hone, List.foldl_cons, Posting.act_post (p := p.done c.fault) himg]
      exact List.foldl_ext _ _ _ fun k q hq => Posting.act_post (hqs q hq).2.2.2 k
    refine ⟨_, execTokenedOperationComplete_here (p := p) hc (by simp [hposts]) hid, ?_⟩
    rw [hcore]
    refine ⟨rfl, hfold, ?_, rfl, rfl, fun k hk => Regs.postAll_tok_ne (fun q hq => (hone q hq).trans_ne hk.symm) _⟩
    exact (congrArg Token.count hfold).trans (by rw [Token.count_foldl_post, Token.post_count])
  · refine ⟨_, execTokenedOperationComplete_here (p := p) hc (by simp [hposts]) hid, ?_⟩
    rw [Core.complete_behind hc hposts hid hwait hearly]
    exact ⟨rfl, rfl⟩

end

section
/-!
# Saved tokens, reports and merges (05 R106, R110; 09 R202, R217; 13 R290, R291)
-/
namespace Sys2Proof.Machine

open Sys2Proof.Claims

/-! ### The image of a token (05 R106) -/

theorem toNat_append_add {m n : Nat} (a : BitVec m) (b : BitVec n) :
    (a ++ b).toNat = a.toNat * 2 ^ n + b.toNat := by
  rw [BitVec.toNat_append, ← Nat.shiftLeft_add_eq_or_of_lt b.isLt, Nat.shiftLeft_eq]

theorem testBit_eq_of_toNat {x n : Nat} {b : Bool} (h : x / 2 ^ n % 2 = b.toNat) : x.testBit n = b := by
  rw [Nat.testBit_eq_decide_div_mod_eq, h]
  cases b <;> rfl

/-- The image of a token as one number of 16 bytes. -/
theorem Token.words_toNat (k : Token) : k.word0.toNat + k.word1.toNat * 2 ^ 64 =
    k.count.toNat * 2 ^ 48 + k.fcnt.toNat * 2 ^ 32 + k.xl.toNat * 2 + k.f.toNat + k.frec.toNat * 2 ^ 64 := by
  have h0 : k.word0.toNat = (((k.count.toNat * 2 ^ 16 + k.fcnt.toNat) * 2 ^ 30 + (0#30).toNat) * 2 ^ 1 +
      k.xl.toNat) * 2 ^ 1 + k.f.toNat := by
    simp only [← BitVec.toNat_ofBool, ← toNat_append_add]
    rfl
  have h1 : k.word1.toNat = (0#16).toNat * 2 ^ 48 + k.frec.toNat := toNat_append_add 0#16 k.frec
  rw [BitVec.toNat_zero] at h0 h1
  omega

/-- The token of an image, field by field; FREC names a line of 64 bytes. -/
theorem Token.ofWords_ofNat (x : Nat) : Token.ofWords (BitVec.ofNat 64 x) (BitVec.ofNat 64 (x / 2 ^ 64)) =
    ⟨BitVec.ofNat 16 (x / 2 ^ 48), BitVec.ofNat 16 (x / 2 ^ 32), x.testBit 1, x.testBit 0,
      BitVec.ofNat 48 (x / 2 ^ 70 * 64)⟩ := by
  have hfield (lo : Nat) (h : lo + 16 ≤ 64) :
      (BitVec.ofNat 64 x).extractLsb' lo 16 = BitVec.ofNat 16 (x / 2 ^ lo) := by
    refine BitVec.eq_of_getLsbD_eq fun i hi => ?_
    have hlt : lo + i < 64 := by omega
    simp only [BitVec.getLsbD_extractLsb', BitVec.getLsbD_ofNat, hi, hlt, decide_true, Bool.true_and,
      Nat.testBit_div_two_pow, Nat.add_comm]
  have hbit (n : Nat) (h : n < 64) : (BitVec.ofNat 64 x).getLsbD n = x.testBit n := by
    rw [BitVec.getLsbD_ofNat, decide_eq_true h, Bool.true_and]
  have hfrec : (BitVec.ofNat 64 (x / 2 ^ 64)).extractLsb' 6 42 ++ 0#6 = BitVec.ofNat 48 (x / 2 ^ 70 * 64) := by
    apply BitVec.eq_of_toNat_eq
    rw [toNat_append_add]
    simp only [BitVec.extractLsb'_toNat, BitVec.toNat_ofNat, Nat.shiftRight_eq_div_pow]
    omega
  exact (Token.mk.injEq ..).mpr
    ⟨hfield 48 (by decide), hfield 32 (by decide), hbit 1 (by decide), hbit 0 (by decide), hfrec⟩

/-- The token of a token's own image is the token, where FREC names a line of 64 bytes. -/
theorem Token.ofWords_words {k : Token} (h : k.frec.toNat % 64 = 0) : Token.ofWords k.word0 k.word1 = k := by
  obtain ⟨x, hx⟩ : ∃ x, x = k.word0.toNat + k.word1.toNat * 2 ^ 64 := ⟨_, rfl⟩
  have h0 : k.word0 = BitVec.ofNat 64 x := BitVec.eq_of_toNat_eq (by simp only [BitVec.toNat_ofNat]; omega)
  have h1 : k.word1 = BitVec.ofNat 64 (x / 2 ^ 64) :=
    BitVec.eq_of_toNat_eq (by simp only [BitVec.toNat_ofNat]; omega)
  rw [h0, h1, Token.ofWords_ofNat]
  rw [k.words_toNat] at hx
  have hxl := k.xl.toNat_lt
  have hf := k.f.toNat_lt
  refine (Token.mk.injEq ..).mpr ⟨?_, ?_, ?_, ?_, ?_⟩
  · exact BitVec.eq_of_toNat_eq (by simp only [BitVec.toNat_ofNat]; omega)
  · exact BitVec.eq_of_toNat_eq (by simp only [BitVec.toNat_ofNat]; omega)
  · exact testBit_eq_of_toNat (by omega)
  · exact testBit_eq_of_toNat (by omega)
  · exact BitVec.eq_of_toNat_eq (by simp only [BitVec.toNat_ofNat]; omega)

/-- An image written to a token none of whose postings is in flight is the token's after the bundle (05 R110). -/
theorem State.imageTok_finishLater_tok (s : State) {t : Nat} (k : Token) (ht : t < 34)
    (h : ∀ p ∈ s.core.pipe.posts, p.tok ≠ t) : ((s.imageTok t k).finishLater).core.regs.tok t = k := by
  obtain ⟨p, hp, htok, hact⟩ : ∃ p : Posting, (s.imageTok t k).core.pipe.posts = s.core.pipe.posts ++ [p] ∧
      (p.ready = true ∧ p.tok = t) ∧ ∀ old, p.act old = k := ⟨_, rfl, ⟨rfl, rfl⟩, fun _ => rfl⟩
  obtain ⟨hready, rfl⟩ := htok
  have hfree (g : Regs) : ∀ q ∈ [p], q.ready = true ∧ q.tok ∉ heldBy [] (flushPosts g [] s.core.pipe.posts).2 := by
    simpa [hready] using fun q hq => h q (mem_of_mem_flushPosts hq)
  change (flushPosts _ [] (s.imageTok p.tok k).core.pipe.posts).1.tok p.tok = k
  rw [hp, flushPosts_append, flushPosts_made (hfree _), Regs.postAll_tok_same ht (by simp)]
  exact hact _

/-! ### TKSV and TKLD (09 R202) -/

section
variable {s : State} {hd : Hdr} {t : BitVec 5} {a : BitVec 6}

theorem tksv_gives_stall (ha : Acts s hd { s := [a] }) (hb : s.tokBusy (s.core.tIx t.toNat) = true) :
    Gives (.tksv hd t a) s s.stall :=
  ((rfl : _ = execTksv hd t a s).trans (State.guarded_on ha.1 ha.2)).trans (congrArg _ (if_pos hb))

theorem tkld_gives_stall (ha : Acts s hd { s := [a] }) (hb : s.tokBusy (s.core.tIx t.toNat) = true) :
    Gives (.tkld hd t a) s s.stall :=
  ((rfl : _ = execTkld hd t a s).trans (State.guarded_on ha.1 ha.2)).trans (congrArg _ (if_pos hb))

/-- TKSV writes the words of the token. -/
theorem tksv_gives {u : State} {x : Nat} (ha : Acts s hd { s := [a] })
    (hb : s.tokBusy (s.core.tIx t.toNat) = false)
    (hw : s.syncWrite needW 16 (ptrBy (s.s! a) (offOf hd.c)) 16
      ((s.core.regs.tok (s.core.tIx t.toNat)).word0.toNat +
        (s.core.regs.tok (s.core.tIx t.toNat)).word1.toNat * 2 ^ 64) 0 = .ok u x) :
    Gives (.tksv hd t a) s u := by
  refine ((rfl : _ = execTksv hd t a s).trans (State.guarded_on ha.1 ha.2)).trans (congrArg _ ?_)
  simp only [hb, Bool.false_eq_true, if_false, hw]

/-- TKLD writes the token of the words that it reads. -/
theorem tkld_gives {u : State} {x : Nat} (ha : Acts s hd { s := [a] })
    (hb : s.tokBusy (s.core.tIx t.toNat) = false)
    (hr : s.syncRead needR 16 (ptrBy (s.s! a) (offOf hd.c)) 16 0 = .ok u x) :
    Gives (.tkld hd t a) s (u.imageTok (s.core.tIx t.toNat)
      (Token.ofWords (BitVec.ofNat 64 x) (BitVec.ofNat 64 (x / 2 ^ 64)))) := by
  refine ((rfl : _ = execTkld hd t a s).trans (State.guarded_on ha.1 ha.2)).trans (congrArg _ ?_)
  simp only [hb, Bool.false_eq_true, if_false, hr]

end

theorem savedTokensReadBackExactly : SavedTokensReadBackExactly := by
  refine ⟨fun s hd t a ha => ⟨fun hb => ⟨tksv_gives_stall ha hb, tkld_gives_stall ha hb⟩, fun hb =>
      ⟨fun u x hw => ?_, fun u x hr => ?_⟩⟩, fun s t k => s.imageTok_finishLater_tok k, fun k => Token.ofWords_words⟩
  · rw [← Token.words_toNat] at hw
    exact tksv_gives ha hb hw
  · rw [← Token.ofWords_ofNat]
    exact tkld_gives ha hb hr

/-! ### Tokened operations in flight (09 R196) -/

/-- A tokened access that is issued is in flight with its posting, where it names a token. -/
theorem issues_issueAccess (s : State) (hd : Hdr) (op : AccOp) (whole : Bool) (parts : List Part) (dst : Nat)
    (dsts : List Dst) (seq : Nat) (key : Option BatchKey) :
    Issues s (s.issueAccess hd op whole parts dst dsts seq key) hd op whole parts dst dsts seq key := by
  have htok : Hdr.tok hd = if teSet hd.c = true then some (bits hd.c 19 15) else none := rfl
  cases ht : teSet hd.c with
  | false =>
    rw [ht, if_neg Bool.false_ne_true] at htok
    rw [State.issueAccess, htok]
    refine ⟨_, rfl, ?_⟩
    simp [State.post?, ht, Hdr.sc, Hdr.wi]
  | true =>
    rw [ht, if_pos rfl] at htok
    rw [State.issueAccess, htok]
    refine ⟨_, rfl, ?_⟩
    simp [State.post?, State.newPost, ht, Hdr.sc, Hdr.wi]

/-- The scopes that a continuation's core has stored at are no part of an issue (12 R271). -/
theorem issues_setCont {s t : State} {hd : Hdr} {op : AccOp} {whole : Bool} {parts : List Part} {dst : Nat}
    {dsts : List Dst} {seq : Nat} {key : Option BatchKey} (h : Issues s t hd op whole parts dst dsts seq key)
    (k : Cont) : Issues s (t.setCont k) hd op whole parts dst dsts seq key := h

/-- A slot with a token that may issue has its effect. -/
theorem State.tokSlot_on {s : State} {hd : Hdr} {u : Uses} (hr : s.room? (Hdr.tok hd) = true) (hu : s.blocked u = none)
    (f : State → State) : s.tokSlot hd true false u f = .next (f s) := by
  cases u
  simp [State.tokSlot, hr, hu]

/-! ### Merges (13 R290) -/

theorem witOfEntries_fits {es : List Word} (h : es.length ≤ 2) :
    witOfEntries es = some (mkWit (es.getD 0 0) (es.getD 1 0)) := by
  match es, h with
  | [], _ | [_], _ | [_, _], _ => rfl

theorem witOfEntries_overflows {es : List Word} (h : 2 < es.length) : witOfEntries es = none := by
  match es, h with
  | _ :: _ :: _ :: _, _ => rfl

section
variable {s : State} {hd : Hdr} {d a b : BitVec 6} {t : Nat} {es : List Word}
variable (hr : s.room? (Hdr.tok hd) = true) (ha : Acts s hd { w := [a.toNat, b.toNat], dw := [d.toNat] })
  (ht : Hdr.tok hd = some t) (hes : es = mergeEntries ((entriesOf (s.w! a) ++ entriesOf (s.w! b)).map s.copyEntry))
include hr ha ht hes

/-- A merge that names a token and overflows goes in flight with the entries beyond the first. -/
theorem wmrg_gives_overflow (h : 2 < es.length) :
    let u := s.issueAccess hd (.merge (es.headD 0) (es.drop 1)) true [] d.toNat (dstW d) 0 none
    Gives (.wmrg hd d a b) s (u.setCont { u.core.cont with wsc := max u.core.cont.wsc (widest (es.drop 1)) }) := by
  obtain ⟨hp, hb⟩ := ha
  have hw := witOfEntries_overflows h
  subst hes
  refine (rfl : _ = execWmrg hd d a b s).trans ?_
  rw [execWmrg, hr, hp, hb, ht]
  simp only [hw]
  rfl

/-- A merge that names a token and fits delivers its witness with its post. -/
theorem wmrg_gives_fit (h : es.length ≤ 2) : Gives (.wmrg hd d a b) s
    ((s.newPost (s.core.tIx t) (dstW d)).1.deliver ⟨s.core.id, s.core.cont.recPa,
      some (s.newPost (s.core.tIx t) (dstW d)).2,
      [.w d.toNat (BitVec.allOnes 128) (mkWit (es.getD 0 0) (es.getD 1 0))], none⟩) := by
  obtain ⟨hp, hb⟩ := ha
  have hw := witOfEntries_fits h
  subst hes
  refine (rfl : _ = execWmrg hd d a b s).trans ?_
  rw [execWmrg, hr, hp, hb, ht]
  simp only [hw]
  rfl

end

/-! ### Reports (09 R217; 13 R291) -/

/-- An operation that touches no memory ends at its port. -/
theorem memoryPortAccess_gives_of_bareOp {s t : State} {a : Access} (h : s.bareOp a = some t) :
    Gives (.memoryPortAccess a) s t := by
  refine (rfl : _ = execMemoryPortAccess a s).trans ?_
  rw [execMemoryPortAccess, h]

/-- Bits 5 to 0 of EST are those of the number of entries in use (09 R217). -/
theorem State.estValue_low (s : State) (e : Nat) : (s.estValue e).toNat % 64 = (s.engine e).queue.length % 64 := by
  have hlow (n free : Nat) (head : Bool) : (n + (if head = true then 64 else 0) + free * 128) % 64 = n % 64 := by
    split <;> omega
  unfold State.estValue State.engine
  dsimp only
  rw [BitVec.toNat_ofNat, Nat.mod_mod_of_dvd _ (by decide : 64 ∣ 2 ^ 64)]
  exact hlow _ _ _

theorem tokenedReportsAndMergesGoInFlight : TokenedReportsAndMergesGoInFlight := by
  refine ⟨fun s hd d a hr ha => ?_, fun s hd d a b es hr ht ha hes => ?_, fun s a _ => ⟨fun e0 e1 h => ?_, fun e h => ?_⟩⟩
  · refine ⟨_, ?_, issues_issueAccess ..⟩
    refine (rfl : _ = execWchk hd d a s).trans ?_
    rw [execWchk, ha.1]
    exact State.tokSlot_on hr.1 ha.2 _
  · have htok : Hdr.tok hd = some (bits hd.c 19 15) := if_pos ht
    exact ⟨fun h => ⟨_, wmrg_gives_overflow hr.1 ha htok hes h, issues_setCont (issues_issueAccess ..) _⟩,
      wmrg_gives_fit hr.1 ha htok hes⟩
  · apply memoryPortAccess_gives_of_bareOp
    rw [State.bareOp, h]
    rfl
  · refine ⟨s.estValue e, s.estValue_low e, memoryPortAccess_gives_of_bareOp ?_⟩
    rw [State.bareOp, h]

end Sys2Proof.Machine

open Sys2Proof Sys2Proof.Machine Sys2Proof.Claims

/-- Settles O21: the image of a token is one number whose parts are its fields, a token written after the bundle
stands last among the postings, and a report or a merge that overflows is a tokened access with nothing to reach. -/
theorem tokenImagesReportsAndMergesAreExact : Obligations.TokenImagesReportsAndMergesAreExact :=
  ⟨savedTokensReadBackExactly, tokenedReportsAndMergesGoInFlight⟩

end

section
/-!
# Branches and calls (05 R114; 06 R118, R119)
-/
namespace Sys2Proof.Machine

open Sys2Proof.Claims

/-- The target of a direct branch is the bundle's PC plus a signed count of slots of 4 bytes. -/
theorem State.target_eq {k : Nat} (s : State) (o : BitVec k) :
    s.target o = BitVec.ofInt 32 (s.core.pipe.pc.toNat + 4 * o.toInt) := by
  rw [State.target, BitVec.ofInt_add, BitVec.ofInt_mul, BitVec.ofInt_natCast, BitVec.ofNat_toNat,
    BitVec.setWidth_eq]
  rfl

/-- A call with room in the return-address store pushes the next bundle's PC and jumps. -/
theorem State.pushRet_jump (s : State) (pc : Pc) : s.pushRet.jump pc = (s.setRegs { s.core.regs with
      ras := s.core.regs.ras.setIfInBounds s.core.regs.rascnt s.core.pipe.npc
      rascnt := s.core.regs.rascnt + 1 }).setPipe { s.core.pipe with npc := pc } := rfl

section
variable {s : State} {hd : Hdr}

/-! ### Direct branches -/

theorem br_gives (ha : Acts s hd {}) (h : BitVec 1) (o : BitVec 17) : Gives (.br hd h o) s (s.setPipe
    { s.core.pipe with npc := BitVec.ofInt 32 (s.core.pipe.pc.toNat + 4 * o.toInt) }) :=
  s.target_eq o ▸ (rfl : _ = execBr hd h o s).trans (State.guarded_on ha.1 ha.2)

theorem call_gives (ha : Acts s hd {}) (h : BitVec 1) (o : BitVec 17) : Gives (.call hd h o) s
    (if 32 ≤ s.core.regs.rascnt then s.fail .rasFull 0 0 else s.pushRet.jump (s.target o)) :=
  (rfl : _ = execCall hd h o s).trans (State.guarded_on ha.1 ha.2)

theorem ret_gives (ha : Acts s hd {}) : Gives (.ret hd) s
    (if s.core.regs.rascnt = 0 then s.fail .rasEmpty 0 0
      else (s.setRegs { s.core.regs with rascnt := s.core.regs.rascnt - 1 }).jump
        (s.core.regs.ras[s.core.regs.rascnt - 1]?.getD 0)) :=
  (rfl : _ = execRet hd s).trans (State.guarded_on ha.1 ha.2)

theorem bdnz_gives {c : BitVec 6} (hc : c ≠ 0) (ha : Acts s hd { s := [c], ds := [c] }) (h : BitVec 1)
    (o : BitVec 11) : Gives (.bdnz hd h c o) s
      (if s.s! c - 1 ≠ 0 then (s.sResult 0 c (s.s! c - 1)).jump (s.target o)
        else s.sResult 0 c (s.s! c - 1)) :=
  (if_neg hc).trans (State.guarded_on ha.1 ha.2)

/-! ### Branches to a scalar -/

theorem bri_gives {a : BitVec 6} (ha : Acts s hd { s := [a] }) : Gives (.bri hd a) s
    (if 2 ^ 32 ≤ (s.s! a).toNat then s.fail .fetchBounds (s.s! a) 0 else s.jump ((s.s! a).setWidth 32)) :=
  (rfl : _ = execBri hd a s).trans (State.guarded_on ha.1 ha.2)

theorem calli_gives {a : BitVec 6} (ha : Acts s hd { s := [a] }) : Gives (.calli hd a) s
    (if 2 ^ 32 ≤ (s.s! a).toNat then s.fail .fetchBounds (s.s! a) 0
      else if 32 ≤ s.core.regs.rascnt then s.fail .rasFull 0 0
      else s.pushRet.jump ((s.s! a).setWidth 32)) :=
  (rfl : _ = execCalli hd a s).trans (State.guarded_on ha.1 ha.2)

end

end Sys2Proof.Machine

open Sys2Proof Sys2Proof.Machine Sys2Proof.Claims

/-- Settles O28: each slot's effect by its own lemma; what is left is which branch of it the state takes, and the
arithmetic of a target. -/
theorem branchesAndCallsChangeTheNextPc : Obligations.BranchesAndCallsChangeTheNextPc := by
  refine ⟨fun s hd h o ha => ?_, fun s hd h c o hc ha => ?_, fun s hd a ha => ⟨fun hx => ?_, fun hx => ?_⟩⟩
  · have hcall := call_gives ha h o
    have hret := ret_gives ha
    rw [State.pushRet_jump, State.target_eq] at hcall
    refine ⟨br_gives ha h o, fun hr => ?_, fun hr => ?_, fun x hr hx => ?_, fun hr => ?_⟩
    · rwa [if_neg (Nat.not_le.mpr hr)] at hcall
    · rwa [if_pos hr] at hcall
    · rwa [if_neg (Nat.pos_iff_ne_zero.mp hr), hx] at hret
    · rwa [if_pos hr] at hret
  · have hb := bdnz_gives hc ha h o
    simp only [ne_eq, sub_eq_zero, ite_not, State.target_eq] at hb
    exact hb
  · have hbri := bri_gives ha
    have hcalli := calli_gives ha
    rw [if_neg (Nat.not_le.mpr hx), ← BitVec.ofNat_toNat] at hbri hcalli
    refine ⟨hbri, fun hr => ?_, fun hr => ?_⟩
    · rwa [if_neg (Nat.not_le.mpr hr)] at hcalli
    · rwa [if_pos hr] at hcalli
  · exact ⟨(bri_gives ha).trans (congrArg _ (if_pos hx)), (calli_gives ha).trans (congrArg _ (if_pos hx))⟩

end

section
/-!
# Scalar slots (06 R128 to R134)
-/
namespace Sys2Proof.Machine

open Sys2Proof.Claims

/-! ### The words of the two-source rows (06 R128, R132) -/

theorem word_sub_eq_ofInt (x y : Word) : x - y = BitVec.ofInt 64 (x.toInt - y.toInt) := by
  rw [Int.sub_eq_add_neg, BitVec.ofInt_add, BitVec.ofInt_neg, BitVec.ofInt_toInt, BitVec.ofInt_toInt,
    BitVec.sub_eq_add_neg]

theorem word_mul_eq_ofNat (x y : Word) : x * y = BitVec.ofNat 64 (x.toNat * y.toNat) := by
  rw [BitVec.ofNat_mul, BitVec.ofNat_toNat, BitVec.ofNat_toNat, BitVec.setWidth_eq, BitVec.setWidth_eq]

theorem word_shiftLeft_eq_ofNat (x : Word) (n : Nat) : x <<< n = BitVec.ofNat 64 (x.toNat * 2 ^ n) := by
  apply BitVec.eq_of_toNat_eq
  rw [BitVec.toNat_shiftLeft, BitVec.toNat_ofNat, Nat.shiftLeft_eq]

theorem word_ushiftRight_eq_ofNat (x : Word) (n : Nat) : x >>> n = BitVec.ofNat 64 (x.toNat / 2 ^ n) := by
  apply BitVec.eq_of_toNat_eq
  rw [BitVec.toNat_ushiftRight, BitVec.toNat_ofNat, Nat.shiftRight_eq_div_pow,
    Nat.mod_eq_of_lt ((Nat.div_le_self _ _).trans_lt x.isLt)]

theorem word_sshiftRight_eq_ofInt (x : Word) (n : Nat) : x.sshiftRight n = BitVec.ofInt 64 (x.toInt / 2 ^ n) := by
  rw [BitVec.sshiftRight, Int.shiftRight_eq_div_pow]
  norm_cast

/-- The smaller and the larger by a comparison of keys that determine the word (06 R128). -/
theorem pick_eq_min {α : Type} [LinearOrder α] {key : Word → α} {mk : α → Word} (h : ∀ x, mk (key x) = x) (x y : Word) :
    pick (fun x y => decide (key x < key y)) x y = mk (min (key x) (key y)) := by
  simp only [pick, min_def_lt, apply_ite mk, h, decide_eq_true_eq]

theorem pick_eq_max {α : Type} [LinearOrder α] {key : Word → α} {mk : α → Word} (h : ∀ x, mk (key x) = x) (x y : Word) :
    pick (fun x y => decide (key y < key x)) x y = mk (max (key x) (key y)) := by
  simp only [pick, max_def_lt', apply_ite mk, h, decide_eq_true_eq]

theorem word_ofNat_toNat (x : Word) : BitVec.ofNat 64 x.toNat = x := by rw [BitVec.ofNat_toNat, BitVec.setWidth_eq]

/-! ### The words of the one-source rows (06 R128, R129) -/

/-- The leading zeros of a number below 2^n end at its highest set bit. -/
theorem leading_eq (x : Word) {n : Nat} (h : x.toNat < 2 ^ n) :
    leading x n = if x = 0 then n else n - 1 - Nat.log2 x.toNat := by
  induction n with
  | zero => 
    have h0 : x = 0 := BitVec.eq_of_toNat_eq (by simpa using h)
    rw [if_pos h0]; rfl
  | succ n ih =>
    rw [leading]
    by_cases hb : x.getLsbD n = true
    · have hge : 2 ^ n ≤ x.toNat := Nat.ge_two_pow_of_testBit hb
      have hne : x ≠ 0 := fun h0 => by simp [h0] at hb
      have hlog : Nat.log2 x.toNat = n := Nat.log2_eq_iff (by have := Nat.two_pow_pos n; omega) |>.mpr ⟨hge, h⟩
      rw [if_pos hb, if_neg hne, hlog]
      omega
    · have hlt : x.toNat < 2 ^ n := by
        by_contra hge
        exact hb (Nat.testBit_of_two_pow_le_and_two_pow_add_one_gt (not_lt.mp hge) h)
      rw [if_neg hb, ih hlt]
      by_cases h0 : x = 0
      · rw [if_pos h0, if_pos h0, Nat.add_comm]
      · have hpos : x.toNat ≠ 0 := fun hz => h0 (BitVec.eq_of_toNat_eq hz)
        have hlog : Nat.log2 x.toNat < n := (Nat.log2_lt hpos).mpr hlt
        rw [if_neg h0, if_neg h0]
        omega

theorem leading_64 (x : Word) : leading x 64 = if x = 0 then 64 else 63 - Nat.log2 x.toNat := leading_eq x x.isLt

theorem popcount_eq (x n : Nat) : popcount x n = ((List.range n).filter fun k => x.testBit k).length := by
  induction n with
  | zero => rfl
  | succ n ih =>
    rw [popcount, ih, List.range_succ, List.filter_append, List.length_append, Nat.add_comm]
    congr 1
    cases hb : x.testBit n <;> simp [Nat.testBit_eq_decide_div_mod_eq] at hb <;>
      simp [Nat.testBit_eq_decide_div_mod_eq, hb]

theorem word_popcount (x : Word) : BitVec.ofNat 64 (popcount x.toNat 64) =
    BitVec.ofNat 64 ((List.range 64).filter fun n => x.getLsbD n).length := by
  rw [popcount_eq]
  rfl

/-! ### The tables -/

/-- A row of the two-source table holds of every state and operands. -/
def RowOfTwo (r : Three × Nat × (Hdr → Word → Word → Word)) : Prop :=
  ∀ (s : State) (hd : Hdr) (d a b : BitVec 6), Acts s hd { s := [a, b], ds := [d] } →
    Gives (r.1 hd d a b) s (s.sResult r.2.1 d (r.2.2 hd (s.s! a) (s.s! b)))

/-- A row of the one-source table holds of every state and operands. -/
def RowOfOne (r : Three × Nat × (Hdr → BitVec 6 → Word → Word)) : Prop :=
  ∀ (s : State) (hd : Hdr) (d a i : BitVec 6), Acts s hd { s := [a], ds := [d] } →
    Gives (r.1 hd d a i) s (s.sResult r.2.1 d (r.2.2 hd i (s.s! a)))

theorem State.alu2_on {s : State} {hd : Hdr} {d a b : BitVec 6} (k : Nat) (f : Word → Word → Word)
    (ha : Acts s hd { s := [a, b], ds := [d] }) :
    s.alu2 hd k d a b f = .next (s.sResult k d (f (s.s! a) (s.s! b))) := State.guarded_on ha.1 ha.2

theorem State.alu1_on {s : State} {hd : Hdr} {d a : BitVec 6} (k : Nat) (f : Word → Word)
    (ha : Acts s hd { s := [a], ds := [d] }) :
    s.alu1 hd k d a f = .next (s.sResult k d (f (s.s! a))) := State.guarded_on ha.1 ha.2

theorem rowOfTwo {i : Three} {k : Nat} {f : Word → Word → Word} {g : Hdr → Word → Word → Word}
    (he : ∀ hd d a b s, exec (i hd d a b) s = s.alu2 hd k d a b f) (hf : ∀ hd x y, f x y = g hd x y) :
    RowOfTwo (i, k, g) := fun s hd d a b ha => by
  change exec (i hd d a b) s = .next (s.sResult k d (g hd (s.s! a) (s.s! b)))
  rw [he, State.alu2_on k f ha, hf hd]

theorem rowOfTwo_self {i : Three} {k : Nat} {f : Word → Word → Word}
    (he : ∀ hd d a b s, exec (i hd d a b) s = s.alu2 hd k d a b f) : RowOfTwo (i, k, fun _ => f) :=
  rowOfTwo he fun _ _ _ => rfl

theorem rowOfOne {i : Three} {k : Nat} {f g : Hdr → BitVec 6 → Word → Word}
    (he : ∀ hd d a n s, exec (i hd d a n) s = s.alu1 hd k d a (f hd n)) (hf : ∀ hd n x, f hd n x = g hd n x) :
    RowOfOne (i, k, g) := fun s hd d a n ha => by
  change exec (i hd d a n) s = .next (s.sResult k d (g hd n (s.s! a)))
  rw [he, State.alu1_on k (f hd n) ha, hf]

theorem twoSourceScalarSlotsIssueTheirTableResult : TwoSourceScalarSlotsIssueTheirTableResult := by
  change ∀ r ∈ scalarTwo, RowOfTwo r
  simp only [scalarTwo, List.forall_mem_cons]
  exact ⟨
    rowOfTwo (fun _ _ _ _ _ => rfl) fun _ => BitVec.add_def,
    rowOfTwo (fun _ _ _ _ _ => rfl) fun _ => word_sub_eq_ofInt,
    rowOfTwo (fun _ _ _ _ _ => rfl) fun _ => word_mul_eq_ofNat,
    rowOfTwo_self fun _ _ _ _ _ => rfl, rowOfTwo_self fun _ _ _ _ _ => rfl,
    rowOfTwo_self fun _ _ _ _ _ => rfl, rowOfTwo_self fun _ _ _ _ _ => rfl, rowOfTwo_self fun _ _ _ _ _ => rfl,
    rowOfTwo (fun _ _ _ _ _ => rfl) fun _ x y => word_shiftLeft_eq_ofNat x (sh y),
    rowOfTwo (fun _ _ _ _ _ => rfl) fun _ x y => word_ushiftRight_eq_ofNat x (sh y),
    rowOfTwo (fun _ _ _ _ _ => rfl) fun _ x y => word_sshiftRight_eq_ofInt x (sh y),
    rowOfTwo (fun _ _ _ _ _ => rfl) fun _ => pick_eq_min (key := BitVec.toInt) fun _ => BitVec.ofInt_toInt,
    rowOfTwo (fun _ _ _ _ _ => rfl) fun _ => pick_eq_max (key := BitVec.toInt) fun _ => BitVec.ofInt_toInt,
    rowOfTwo (fun _ _ _ _ _ => rfl) fun _ => pick_eq_min (key := BitVec.toNat) word_ofNat_toNat,
    rowOfTwo (fun _ _ _ _ _ => rfl) fun _ => pick_eq_max (key := BitVec.toNat) word_ofNat_toNat,
    rowOfTwo_self fun _ _ _ _ _ => rfl, rowOfTwo_self fun _ _ _ _ _ => rfl,
    rowOfTwo_self fun _ _ _ _ _ => rfl,
    List.forall_mem_nil _⟩

theorem oneSourceScalarSlotsIssueTheirTableResult : OneSourceScalarSlotsIssueTheirTableResult := by
  refine ⟨?_, fun s hd d i ha => (rfl : _ = execMovi hd d i s).trans (State.guarded_on ha.1 ha.2)⟩
  change ∀ r ∈ scalarOne, RowOfOne r
  simp only [scalarOne, List.forall_mem_cons]
  have add (hd : Hdr) (n : BitVec 6) (x : Word) : x + hd.sImm n = BitVec.ofInt 64 (x.toInt + (hd.sImm n).toInt) := by
    rw [BitVec.ofInt_add, BitVec.ofInt_toInt, BitVec.ofInt_toInt]
  exact ⟨
    rowOfOne (fun _ _ _ _ _ => rfl) add,
    rowOfOne (fun _ _ _ _ _ => rfl) fun _ _ _ => rfl,
    rowOfOne (fun _ _ _ _ _ => rfl) fun _ _ _ => rfl,
    rowOfOne (fun _ _ _ _ _ => rfl) fun _ _ _ => rfl,
    rowOfOne (fun _ _ _ _ _ => rfl) fun _ n x => word_shiftLeft_eq_ofNat x n.toNat,
    rowOfOne (fun _ _ _ _ _ => rfl) fun _ n x => word_ushiftRight_eq_ofNat x n.toNat,
    rowOfOne (fun _ _ _ _ _ => rfl) fun _ n x => word_sshiftRight_eq_ofInt x n.toNat,
    rowOfOne (fun _ _ _ _ _ => rfl) fun _ _ x => congrArg _ (leading_64 x),
    rowOfOne (f := fun _ _ x => BitVec.ofNat 64 (popcount x.toNat 64)) (fun hd d a _ s => (rfl : _ = execPopc hd d a s))
      fun _ _ => word_popcount,
    List.forall_mem_nil _⟩

end Sys2Proof.Machine

open Sys2Proof Sys2Proof.Machine Sys2Proof.Claims

/-- Settles O1: every row runs one word function, and the table's arithmetic is that function's value. -/
theorem scalarSlotsIssueTheirTableResult : Obligations.ScalarSlotsIssueTheirTableResult :=
  ⟨twoSourceScalarSlotsIssueTheirTableResult, oneSourceScalarSlotsIssueTheirTableResult⟩

end

section
/-!
# Divisions (06 R130)
-/
namespace Sys2Proof.Machine

open Sys2Proof.Claims

/-! ### The result for every operand pair -/

theorem divS_eq (a b : Word) : divS a b =
    if b.toInt = 0 then BitVec.ofInt 64 (-1)
    else if a.toInt = -(2 ^ 63) ∧ b.toInt = -1 then BitVec.ofInt 64 (-(2 ^ 63))
    else BitVec.ofInt 64 (Int.tdiv a.toInt b.toInt) := by
  have hzero : b = 0 ↔ b.toInt = 0 := BitVec.toInt_inj.symm
  by_cases h0 : b.toInt = 0
  · rw [divS, if_pos (hzero.mpr h0), if_pos h0]
    rfl
  · rw [divS, if_neg (mt hzero.mp h0), if_neg h0]
    split
    next ho => 
      rw [ho.1, ho.2]
      rfl
    next => rfl

theorem divU_eq (a b : Word) : divU a b =
    if b.toNat = 0 then BitVec.ofNat 64 (2 ^ 64 - 1) else BitVec.ofNat 64 (a.toNat / b.toNat) :=
  ite_congr (propext BitVec.toNat_inj.symm) (fun _ => rfl) fun _ => rfl

theorem remS_eq (a b : Word) : remS a b =
    if b.toInt = 0 then BitVec.ofInt 64 a.toInt
    else if a.toInt = -(2 ^ 63) ∧ b.toInt = -1 then 0
    else BitVec.ofInt 64 (a.toInt - b.toInt * Int.tdiv a.toInt b.toInt) := by
  have hzero : b = 0 ↔ b.toInt = 0 := BitVec.toInt_inj.symm
  rw [BitVec.ofInt_toInt, ← Int.tmod_def]
  by_cases h0 : b.toInt = 0
  · rw [remS, if_pos (hzero.mpr h0), if_pos h0]
  · rw [remS, if_neg (mt hzero.mp h0), if_neg h0]
    split
    next ho =>
      rw [ho.1, ho.2]
      rfl
    next => rfl

theorem remU_eq (a b : Word) : remU a b =
    if b.toNat = 0 then BitVec.ofNat 64 a.toNat else BitVec.ofNat 64 (a.toNat - b.toNat * (a.toNat / b.toNat)) := by
  rw [← Nat.mod_def, word_ofNat_toNat]
  exact ite_congr (propext BitVec.toNat_inj.symm) (fun _ => rfl) fun _ => rfl

/-! ### The posting -/

/-- A division that may issue delivers its result under the posting that it issues. -/
theorem State.divide_on {s : State} {hd : Hdr} {d a b : BitVec 6} (f : Word → Word → Word)
    (hr : s.postRoom (bits hd.c 4 0) = true) (ha : Acts s hd { s := [a, b], ds := [d] }) :
    s.divide hd d a b f = .next (
      let p := s.newPost (s.core.tIx (bits hd.c 4 0)) (s.dstS d)
      p.1.deliver (s.completion (some p.2) [.s (s.sDst d) (f (s.s! a) (s.s! b))])) := by
  obtain ⟨hp, hb⟩ := ha
  simp only [State.divide, hr, hp, hb, Bool.not_true, Bool.false_eq_true, if_false]

/-- A row of the divisions holds of every state and operands. -/
def RowOfDivisions (r : Three × (Int → Int → Nat → Nat → Word)) : Prop :=
  ∀ (s : State) (hd : Hdr) (d a b : BitVec 6) (t : Nat), t = hd.c % 32 →
    s.postRoom t = true → Acts s hd { s := [a, b], ds := [d] } →
    Gives (r.1 hd d a b) s (
      let p := s.newPost (s.core.tIx t) (if d = 0 then [] else [⟨0, s.sDst d⟩])
      let v := r.2 (s.s! a).toInt (s.s! b).toInt (s.s! a).toNat (s.s! b).toNat
      p.1.deliver ⟨s.core.id, s.core.cont.recPa, some p.2, [.s (s.sDst d) v], none⟩)

theorem rowOfDivisions {i : Three} {f : Word → Word → Word} {g : Int → Int → Nat → Nat → Word}
    (he : ∀ hd d a b s, exec (i hd d a b) s = s.divide hd d a b f)
    (hf : ∀ x y : Word, f x y = g x.toInt y.toInt x.toNat y.toNat) : RowOfDivisions (i, g) := by
  intro s hd d a b t ht hr ha
  have htok : bits hd.c 4 0 = t := by simp [bits, ht]
  subst htok
  exact ((he hd d a b s).trans (State.divide_on f hr ha)).trans (by rw [hf]; rfl)

end Sys2Proof.Machine

open Sys2Proof Sys2Proof.Machine Sys2Proof.Claims

/-- Settles O2: each division is one function of its operand words, and the four functions agree with their rows
for every pair, the zero divisor and the overflow among them. -/
theorem divisionsPostTheirResultForEveryOperandPair :
    Obligations.DivisionsPostTheirResultForEveryOperandPair := by
  change ∀ r ∈ divisions, RowOfDivisions r
  simp only [divisions, List.forall_mem_cons]
  exact ⟨rowOfDivisions (fun _ _ _ _ _ => rfl) divS_eq, rowOfDivisions (fun _ _ _ _ _ => rfl) divU_eq,
    rowOfDivisions (fun _ _ _ _ _ => rfl) remS_eq, rowOfDivisions (fun _ _ _ _ _ => rfl) remU_eq,
    List.forall_mem_nil _⟩

end

section
/-!
# Bit fields, selection and pointers (06 R131 to R134)
-/
namespace Sys2Proof.Machine

open Sys2Proof.Claims

/-! ### Bit fields (06 R134) -/

theorem sint_eq_toInt (n x : Nat) : sint n x = (BitVec.ofNat n x).toInt := by
  rw [BitVec.toInt_eq_toNat_cond, BitVec.toNat_ofNat]
  simp [sint]

/-- The field of a word, as a number of its own width. -/
theorem word_div_eq_field (x : Word) (lo width : Nat) :
    BitVec.ofNat width (x.toNat / 2 ^ lo) = x.extractLsb' lo width := by
  apply BitVec.eq_of_toNat_eq
  rw [BitVec.toNat_ofNat, BitVec.extractLsb'_toNat, Nat.shiftRight_eq_div_pow]

theorem getLsbD_signedField (x : Word) {lo width n : Nat} (hw : 1 ≤ width) (hn : n < 64) :
    (BitVec.ofInt 64 (sint width (x.toNat / 2 ^ lo))).getLsbD n =
      x.getLsbD (if n < width then lo + n else lo + width - 1) := by
  rw [sint_eq_toInt, word_div_eq_field]
  change ((x.extractLsb' lo width).signExtend 64).getLsbD n = _
  rw [BitVec.getLsbD_signExtend, decide_eq_true hn, Bool.true_and]
  by_cases h : n < width
  · rw [if_pos h, if_pos h, BitVec.getLsbD_extractLsb', decide_eq_true h, Bool.true_and]
  · have hlast : width - 1 < width := by omega
    rw [if_neg h, if_neg h, BitVec.msb_eq_getLsbD_last, BitVec.getLsbD_extractLsb', decide_eq_true hlast,
      Bool.true_and, Nat.add_sub_assoc hw]

theorem getLsbD_unsignedField (x : Word) {lo width n : Nat} (hn : n < 64) :
    (BitVec.ofNat 64 (x.toNat / 2 ^ lo % 2 ^ width)).getLsbD n = (decide (n < width) && x.getLsbD (lo + n)) := by
  rw [BitVec.getLsbD_ofNat, decide_eq_true hn, Bool.true_and, Nat.testBit_mod_two_pow, Nat.testBit_div_two_pow,
    Nat.add_comm]
  rfl

/-- The mask of a field has the field's bits. -/
theorem getLsbD_fieldMask {lo width n : Nat} (hn : n < 64) :
    (BitVec.ofNat 64 ((2 ^ width - 1) * 2 ^ lo)).getLsbD n = decide (lo ≤ n ∧ n < lo + width) := by
  rw [BitVec.getLsbD_ofNat, decide_eq_true hn, Bool.true_and, ← Nat.shiftLeft_eq, Nat.testBit_shiftLeft,
    Nat.testBit_two_pow_sub_one, ← Bool.decide_and]
  exact decide_eq_decide.mpr (by omega)

theorem getLsbD_insertedField (x y : Word) {lo width n : Nat} (hn : n < 64) :
    let m : Word := BitVec.ofNat 64 ((2 ^ width - 1) * 2 ^ lo)
    ((y &&& ~~~m) ||| ((x <<< lo) &&& m)).getLsbD n =
      if lo ≤ n ∧ n < lo + width then x.getLsbD (n - lo) else y.getLsbD n := by
  simp only [BitVec.getLsbD_or, BitVec.getLsbD_and, BitVec.getLsbD_not, BitVec.getLsbD_shiftLeft,
    getLsbD_fieldMask hn, decide_eq_true hn, Bool.true_and]
  by_cases h : lo ≤ n ∧ n < lo + width
  · have hlo : ¬ n < lo := by omega
    simp [h, hlo]
  · simp [h]

theorem bitFieldSlotsExtractAndInsertTheField : BitFieldSlotsExtractAndInsertTheField := by
  intro s hd d a b lo width hlo hwidth hw _
  subst hlo hwidth
  refine ⟨fun ha => ?_, fun ha => ?_⟩
  · exact ⟨_, _, (rfl : _ = execBfx hd d a s).trans (State.alu1_on 0 _ ha),
      (rfl : _ = execBfxu hd d a s).trans (State.alu1_on 0 _ ha),
      fun n hn => ⟨getLsbD_signedField _ hw hn, getLsbD_unsignedField _ hn⟩⟩
  · exact ⟨_, (rfl : _ = execBfi hd d a b s).trans (State.alu2_on 0 _ ha), fun n hn => getLsbD_insertedField _ _ hn⟩

/-! ### Pointers (06 R132, R133) -/

theorem ptrIx_eq (p : Word) : ptrIx p = p.toNat / 2 ^ 48 := by
  have := p.isLt
  simp only [ptrIx, bits]
  omega

theorem ptrOff_eq (p : Word) : ptrOff p = p.toNat % 2 ^ 48 := by
  simp [ptrOff, bits]

theorem ptrMove_eq (p v : Word) :
    ptrMove p v = BitVec.ofNat 64 (p.toNat / 2 ^ 48 * 2 ^ 48 + (p.toNat + v.toNat) % 2 ^ 48) := by
  have := p.isLt
  rw [ptrMove, mkPtr, ptrIx_eq, ptrOff_eq, Nat.mod_add_mod, Nat.mod_eq_of_lt (a := p.toNat / 2 ^ 48) (by omega)]

theorem chkNeed_eq (x : BitVec 2) : chkNeed x = ([needR, needW, needRWA, needX])[x.toNat]?.getD 0 := by
  have cases4 : ∀ x : BitVec 2, x = 0 ∨ x = 1 ∨ x = 2 ∨ x = 3 := by decide
  rcases cases4 x with rfl | rfl | rfl | rfl <;> rfl

theorem sel_gives {s : State} {d a b : BitVec 6} (hd : Hdr) (hf : Free s { s := [a, b], ds := [d] }) :
    Gives (.sel hd d a b) s (s.sResult 0 d (if s.p! hd.g = true then s.s! a else s.s! b)) := by
  refine (rfl : _ = execSel hd d a b s).trans ?_
  rw [execSel, hf]

/-- BPADD moves the pointer by its operand, a register or an immediate. -/
theorem bpadd_gives {s : State} {hd : Hdr} {d a b : BitVec 6} {y : Word}
    (hr : hd.x = [] → Acts s hd { s := [a, b], ds := [d] } ∧ y = s.s! b)
    (hi : hd.x ≠ [] → Acts s hd { s := [a], ds := [d] } ∧ y = hd.sImm b) :
    Gives (.bpadd hd d a b) s (s.sResult 0 d (ptrMove (s.s! a) y)) := by
  refine (rfl : _ = execBpadd hd d a b s).trans ?_
  by_cases hx : hd.x = []
  · obtain ⟨ha, rfl⟩ := hr hx
    exact (if_pos (List.isEmpty_iff.mpr hx)).trans (State.alu2_on 0 _ ha)
  · obtain ⟨ha, rfl⟩ := hi hx
    exact (if_neg (mt List.isEmpty_iff.mp hx)).trans (State.alu1_on 0 _ ha)

/-- BPCHK tells whether the checks pass, for a size in a register or an immediate. -/
theorem bpchk_gives {s : State} {hd : Hdr} {p x : BitVec 2} {a b : BitVec 6} {j : Job} {size : Nat}
    (hj : s.job? s.core.cont.job = some j)
    (hr : hd.x = [] → Acts s hd { s := [a, b] } ∧ size = (s.s! b).toNat)
    (hi : hd.x ≠ [] → Acts s hd { s := [a] } ∧ size = (hd.uImm b).toNat) :
    Gives (.bpchk hd p x a b) s
      (s.pair 0 p (s.check j s.osize (chkNeed x) true (ptrIx (s.s! a)) (ptrOff (s.s! a)) size).isOk) := by
  have hjob : s.job! = some j := hj
  refine (rfl : _ = execBpchk hd p x a b s).trans ?_
  by_cases hx : hd.x = []
  · obtain ⟨ha, rfl⟩ := hr hx
    simp only [execBpchk, hx, List.isEmpty_nil, if_true, State.guarded_on ha.1 ha.2, hjob]
    generalize s.check .. = r
    cases r <;> rfl
  · obtain ⟨ha, rfl⟩ := hi hx
    have he : hd.x.isEmpty = false := by simpa using hx
    simp only [execBpchk, he, Bool.false_eq_true, if_false, State.guarded_on ha.1 ha.2, hjob]
    generalize s.check .. = r
    cases r <;> rfl

theorem selectionAndPointerSlotsIssueTheirResult : SelectionAndPointerSlotsIssueTheirResult := by
  refine ⟨fun s hd d a b hf => sel_gives hd hf, fun s hd d a b y hr hi => ?_,
    fun s hd p x a b j size hj hr hi => ?_⟩
  · rw [← ptrMove_eq]
    exact bpadd_gives hr hi
  · rw [← chkNeed_eq, ← ptrIx_eq, ← ptrOff_eq]
    exact bpchk_gives hj hr hi

end Sys2Proof.Machine

open Sys2Proof Sys2Proof.Machine Sys2Proof.Claims

/-- Settles O3: a field's bits are read off its own bit vector, and the pointer slots off the two parts of a
pointer. -/
theorem bitFieldSelectionAndPointerSlotsIssueTheirResult :
    Obligations.BitFieldSelectionAndPointerSlotsIssueTheirResult :=
  ⟨bitFieldSlotsExtractAndInsertTheField, selectionAndPointerSlotsIssueTheirResult⟩

end

section
/-!
# Predicates (06 R135 to R137)
-/
namespace Sys2Proof.Machine

open Sys2Proof.Claims

/-! ### Compares (06 R135) -/

/-- Each condition of the table is the code's own. -/
theorem cond_eq {r : BitVec 4 × (Word → Word → Bool)} (h : r ∈ conditions) (x y : Word) : cond r.1 x y = r.2 x y := by
  simp only [conditions, List.mem_cons, List.not_mem_nil, or_false] at h
  rcases h with rfl | rfl | rfl | rfl | rfl | rfl
  · exact decide_eq_decide.mpr BitVec.toNat_inj.symm
  · rfl
  · rfl
  · rfl
  · rfl
  · exact decide_eq_decide.mpr (not_congr (by rw [← BitVec.toNat_inj, BitVec.toNat_and]; rfl))

/-! ### The predicate file as a byte (06 R137) -/

/-- The number whose bits are given, lowest first. -/
theorem testBit_sum_bits (f : Nat → Bool) (k n : Nat) :
    (((List.range k).map fun i => (f i).toNat * 2 ^ i).sum).testBit n = (decide (n < k) && f n) ∧
      ((List.range k).map fun i => (f i).toNat * 2 ^ i).sum < 2 ^ k := by
  induction k with
  | zero => simp
  | succ k ih =>
    obtain ⟨hbit, hlt⟩ := ih
    rw [List.range_succ, List.map_append, List.sum_append, List.map_singleton, List.sum_singleton, Nat.add_comm,
      Nat.mul_comm]
    refine ⟨?_, ?_⟩
    · rw [Nat.testBit_two_pow_mul_add _ hlt, hbit, Nat.testBit_bool_toNat]
      rcases lt_trichotomy n k with h | rfl | h
      · simp [h, h.trans (Nat.lt_succ_self k)]
      · simp
      · have h1 : ¬ n < k + 1 := by omega
        have h0 : n - k ≠ 0 := by omega
        simp [h1, h0, h.not_gt]
    · have := Nat.mul_le_mul_left (2 ^ k) (f k).toNat_le
      rw [Nat.pow_succ]
      omega

end Sys2Proof.Machine

open Sys2Proof Sys2Proof.Machine Sys2Proof.Claims

/-- Settles O4: each slot's result is the table's, the byte of PMOV being the number of its eight bits. -/
theorem predicateSlotsIssueTheirResult : Obligations.PredicateSlotsIssueTheirResult := by
  refine ⟨fun r hr s hd p a b => ⟨fun ha => ?_, fun ha => ?_⟩, fun s hd d a b f ha => ?_, fun s hd d ha => ?_,
    fun s hd a ha => ?_⟩
  · rw [← cond_eq hr]
    exact (rfl : _ = execCmp hd p r.1 a b s).trans (State.guarded_on ha.1 ha.2)
  · rw [← cond_eq hr]
    exact (rfl : _ = execCmpi hd p r.1 a b s).trans (State.guarded_on ha.1 ha.2)
  · exact (rfl : _ = execPlog hd d a b f s).trans (State.guarded_on ha.1 ha.2)
  · refine ⟨_, (rfl : _ = execPmovTos hd d s).trans (State.guarded_on ha.1 ha.2), fun n hn => ?_⟩
    rw [BitVec.getLsbD_ofNat, decide_eq_true hn, Bool.true_and]
    exact (testBit_sum_bits (fun n => s.p! (BitVec.ofNat 3 n)) 8 n).1
  · exact (rfl : _ = execPmovFroms hd a s).trans (State.guarded_on ha.1 ha.2)

end

section
/-!
# Scalar floating point (06 R138 to R142)
-/
namespace Sys2Proof.Machine

open Sys2Proof.Claims

/-! ### Operands without a flush (02 R40) -/

@[simp] theorem FFmt.decodeFlush_false (t : FFmt) (x : Nat) : t.decodeFlush false x = t.decode x := by
  unfold FFmt.decodeFlush
  split <;> simp_all

/-- A code that decodes to a zero is the zero of its sign. -/
theorem FFmt.eq_sign_of_decode_zero {t : FFmt} (ht : t.f + 1 < t.w) {x : Nat} {n : Bool} {e : Int}
    (h : t.decode x = .fin n 0 e) : x % 2 ^ t.w = t.sign n := by
  obtain ⟨hw, hw2, -⟩ := FFmt.two_pow_width ht
  have hP := Nat.two_pow_pos t.f
  have hlt := Nat.mod_lt x (Nat.two_pow_pos t.w)
  unfold FFmt.decode at h
  generalize x % 2 ^ t.w = y at h hlt ⊢
  have hy := Nat.div_add_mod y (2 ^ t.f)
  have hq : y / 2 ^ t.f < 2 * (t.emax + 1) := by
    rw [Nat.div_lt_iff_lt_mul hP]
    linarith
  have he := Nat.div_add_mod (y / 2 ^ t.f) (t.emax + 1)
  dsimp only at h
  split at h
  next => split at h <;> cases h
  next =>
    split at h
    next hexp =>
      obtain ⟨rfl, hfrac, -⟩ := (FVal.fin.injEq ..).mp h
      rw [hexp, Nat.add_zero] at he
      rw [hfrac, Nat.add_zero, ← he] at hy
      have hk : (y / 2 ^ t.f) / (t.emax + 1) < 2 := by
        rw [Nat.div_lt_iff_lt_mul (Nat.succ_pos _)]
        exact hq
      rw [FFmt.sign, hw, ← hy]
      generalize y / 2 ^ t.f / (t.emax + 1) = k at hk
      interval_cases k <;> simp
    next =>
      have hfrac := ((FVal.fin.injEq ..).mp h).2.1
      omega

/-- Without a flush an operand is returned as it stands. -/
theorem FFmt.self_false {t : FFmt} (ht : t.f + 1 < t.w) (x : Nat) : t.self false x = x % 2 ^ t.w := by
  rw [FFmt.self, FFmt.decodeFlush_false]
  split
  next h => exact (FFmt.eq_sign_of_decode_zero ht h).symm
  next => rfl

/-! ### Minimum and maximum (06 R139) -/

theorem FFmt.minmax_eq_picked {t : FFmt} (ht : t.f + 1 < t.w) (larger : Bool) (a b : Nat) :
    t.minmax false false larger a b =
      (picked t larger a b, if (t.decode a).isSnan ∨ (t.decode b).isSnan then fNV else 0) := by
  rw [← snan_pair]
  simp only [FFmt.minmax, picked, FFmt.decodeFlush_false, FFmt.self_false ht]
  cases ha : (t.decode a).isNan <;> cases hb : (t.decode b).isNan <;> cases larger <;>
    simp [apply_ite (· % 2 ^ t.w)]

/-! ### Two and three sources -/

theorem State.fp2_on {s : State} {hd : Hdr} {d a b : BitVec 6} (t : FFmt) (f : Nat → Nat → Nat × Flags)
    (ha : Acts s hd { s := [a, b], ds := [d] }) :
    s.fp2 hd t d a b f = .next (floatResult s t d (f (s.s! a).toNat (s.s! b).toNat)) := State.guarded_on ha.1 ha.2

/-- A row of the two-source float table holds of every state and operands. -/
def RowOfFloatTwo (r : Three × FFmt × (FVal → FVal → FVal × Flags)) : Prop :=
  ∀ (s : State) (hd : Hdr) (d a b : BitVec 6), Acts s hd { s := [a, b], ds := [d] } →
    Gives (r.1 hd d a b) s (floatResult s r.2.1 d
      (r.2.1.done false (r.2.2 (r.2.1.decode (s.s! a).toNat) (r.2.1.decode (s.s! b).toNat))))

theorem rowOfFloatTwo {i : Three} {t : FFmt} {f : Nat → Nat → Nat × Flags} {g : FVal → FVal → FVal × Flags}
    (he : ∀ hd d a b s, exec (i hd d a b) s = s.fp2 hd t d a b f)
    (hf : ∀ x y, f x y = t.done false (g (t.decode x) (t.decode y))) : RowOfFloatTwo (i, t, g) := by
  intro s hd d a b ha
  change exec (i hd d a b) s = _
  rw [he, State.fp2_on t f ha, hf]

theorem FFmt.add_eq (t : FFmt) (x y : Nat) : t.add false x y = t.done false (FVal.sum [t.decode x, t.decode y]) := by
  simp only [FFmt.add, FFmt.decodeFlush_false]

theorem FFmt.sub_eq (t : FFmt) (x y : Nat) : t.sub false x y = t.done false (FVal.diff (t.decode x) (t.decode y)) := by
  simp only [FFmt.sub, FFmt.decodeFlush_false]

theorem FFmt.mul_eq (t : FFmt) (x y : Nat) : t.mul false x y = t.done false ((t.decode x).mul (t.decode y)) := by
  simp only [FFmt.mul, FFmt.decodeFlush_false]

theorem rowsOfFloatTwo : ∀ r ∈ floatTwo, RowOfFloatTwo r := by
  simp only [floatTwo, List.forall_mem_cons]
  exact ⟨rowOfFloatTwo (fun _ _ _ _ _ => rfl) F32.add_eq, rowOfFloatTwo (fun _ _ _ _ _ => rfl) F64.add_eq,
    rowOfFloatTwo (fun _ _ _ _ _ => rfl) F32.sub_eq, rowOfFloatTwo (fun _ _ _ _ _ => rfl) F64.sub_eq,
    rowOfFloatTwo (fun _ _ _ _ _ => rfl) F32.mul_eq, rowOfFloatTwo (fun _ _ _ _ _ => rfl) F64.mul_eq,
    List.forall_mem_nil _⟩

theorem State.fp3_on {s : State} {hd : Hdr} {d a b : BitVec 6} (t : FFmt)
    (ha : Acts s hd { s := [a, b, d], ds := [d] }) :
    s.fp3 hd t d a b = .next (floatResult s t d (t.fma false (s.s! a).toNat (s.s! b).toNat (s.s! d).toNat)) :=
  State.guarded_on ha.1 ha.2

theorem FFmt.fma_eq (t : FFmt) (x y z : Nat) : t.fma false x y z =
    let p := (t.decode x).mul (t.decode y)
    let e := FVal.sum [p.1, t.decode z]
    t.done false (e.1, p.2 ||| e.2) := by
  simp only [FFmt.fma, FFmt.decodeFlush_false]

/-- Both fused multiply-adds run on their format. -/
theorem exec_ffma {r : Three × FFmt} (h : r ∈ [(Instr.ffmaF32, F32), (Instr.ffmaF64, F64)]) (hd : Hdr)
    (d a b : BitVec 6) (s : State) : exec (r.1 hd d a b) s = s.fp3 hd r.2 d a b := by
  simp only [List.mem_cons, List.not_mem_nil, or_false] at h
  rcases h with rfl | rfl <;> rfl

/-- Each minimum and maximum runs on its format. -/
theorem exec_floatPick {r : Three × FFmt × Bool} (h : r ∈ floatPick) (hd : Hdr) (d a b : BitVec 6) (s : State) :
    exec (r.1 hd d a b) s = s.fp2 hd r.2.1 d a b (r.2.1.minmax false false r.2.2) := by
  simp only [floatPick, List.mem_cons, List.not_mem_nil, or_false] at h
  rcases h with rfl | rfl | rfl | rfl <;> rfl

theorem floatPick_format {r : Three × FFmt × Bool} (h : r ∈ floatPick) : r.2.1.f + 1 < r.2.1.w := by
  simp only [floatPick, List.mem_cons, List.not_mem_nil, or_false] at h
  rcases h with rfl | rfl | rfl | rfl <;> decide

/-! ### Conversion and class (06 R141, R142) -/

theorem bit_lt_two (x n : Nat) : bits x n n < 2 := by
  rw [bits, Nat.add_sub_cancel_left]
  exact Nat.mod_lt _ (by decide)

/-- The reading of a converted integer, by the bit that tells it unsigned. -/
theorem extendTo_bit (dst x : Nat) {u : Nat} (hu : u < 2) : extendTo dst (decide (u = 1)) x =
    if 6 ≤ dst ∧ dst ≤ 8 ∧ u = 0 then BitVec.ofInt 64 (sint (intWidth dst) x) else BitVec.ofNat 64 x := by
  have hsigned : (isIntFmt dst && !decide (u = 1)) = decide (6 ≤ dst ∧ dst ≤ 8 ∧ u = 0) := by
    have hzero : ¬ u = 1 ↔ u = 0 := by omega
    rw [isIntFmt, ← decide_not, ← Bool.decide_and]
    exact decide_eq_decide.mpr (by rw [hzero, and_assoc])
  rw [extendTo, hsigned]
  simp only [decide_eq_true_eq]

/-- The number of the class of a value (06 R142). -/
def FFmt.classIndex (t : FFmt) : FVal → Nat
  | .nan sig => if sig then 8 else 9
  | .inf n => if n then 0 else 7
  | .fin n m _ =>
    let k := if m = 0 then 4 else if m < 2 ^ t.f then 5 else 6
    if n then 7 - k else k

theorem FFmt.classOf_eq (t : FFmt) (x : Nat) : t.classOf x = 2 ^ t.classIndex (t.decode x) := by
  unfold FFmt.classOf FFmt.classIndex
  split <;> split <;> simp_all

theorem FFmt.classIndex_spec (t : FFmt) (v : FVal) : t.classIndex v < 10 ∧
    (t.classIndex v = 9 ↔ v = .nan false) ∧ (t.classIndex v = 8 ↔ v = .nan true) ∧
    (t.classIndex v = 7 ↔ v = .inf false) ∧ (t.classIndex v = 0 ↔ v = .inf true) ∧
    (t.classIndex v = 3 ↔ v.isZero = true ∧ v.neg = true) ∧
    (t.classIndex v = 4 ↔ v.isZero = true ∧ v.neg = false) := by
  cases v with
  | nan sig => cases sig <;> simp [FFmt.classIndex, FVal.isZero]
  | inf n => cases n <;> simp [FFmt.classIndex, FVal.isZero]
  | fin n m e =>
    rcases Nat.eq_zero_or_pos m with rfl | hm
    · cases n <;> simp [FFmt.classIndex, FVal.isZero, FVal.neg]
    · have h0 : m ≠ 0 := by omega
      by_cases hs : m < 2 ^ t.f <;> cases n <;> simp [FFmt.classIndex, FVal.isZero, h0, hs]

end Sys2Proof.Machine

open Sys2Proof Sys2Proof.Machine Sys2Proof.Claims

/-- Settles O5: without a flush the slots' operations are the exact ones rounded once, a picked operand is returned as
it stands, and the class word has one bit set, that of its value's class. -/
theorem scalarFloatSlotsIssueTheirResultAndFlags : Obligations.ScalarFloatSlotsIssueTheirResultAndFlags := by
  refine ⟨rowsOfFloatTwo, fun r hr s hd d a b ha => ?_, fun r hr s hd d a b ha => ?_,
    fun s hd p c f a b ha => ?_, fun s hd d a ha => ?_, fun s hd d a f ha => ?_⟩
  · refine ((exec_ffma hr hd d a b s).trans (State.fp3_on r.2 ha)).trans ?_
    rw [FFmt.fma_eq]
    rfl
  · refine ((exec_floatPick hr hd d a b s).trans (State.fp2_on _ _ ha)).trans ?_
    rw [FFmt.minmax_eq_picked (floatPick_format hr)]
  · exact (rfl : _ = execFcmp hd p c f a b s).trans (State.guarded_on ha.1 ha.2)
  · refine ((rfl : _ = execFcvt hd d a s).trans (State.guarded_on ha.1 ha.2)).trans ?_
    dsimp only
    rw [extendTo_bit _ _ (bit_lt_two ..)]
  · obtain ⟨hlt, hk⟩ := (fmtBit f).classIndex_spec ((fmtBit f).decode (s.s! a).toNat)
    refine ⟨_, hlt, ?_, fun v hv => hv ▸ hk⟩
    rw [← FFmt.classOf_eq]
    exact (rfl : _ = execFcls hd d a f s).trans (State.alu1_on 4 _ ha)

end

section
/-!
# Waits and software traps (05 R109; 06 R125, R127; 13 R292; 14 R324)
-/
namespace Sys2Proof.Machine

open Sys2Proof.Claims

/-! ### Waits on a token (05 R109; 06 R125) -/

section
variable {s : State} {t : BitVec 5} {thr : BitVec 16} {k : Token}

theorem State.waitOn_of_no_fault (hk : k = s.core.regs.tok (s.core.tIx t.toNat))
    (hf : k.f = true → 2 ^ 15 ≤ (thr - k.fcnt).toNat) :
    s.waitOn t thr = ({ s with core := s.core.waitDone s.tick (s.core.tIx t.toNat) thr } : State).raiseLic := by
  subst hk
  refine if_neg fun h => ?_
  obtain ⟨hfault, hcovers⟩ := (Bool.and_eq_true ..).mp h
  exact absurd (of_decide_eq_true hcovers) (not_lt.mpr (hf hfault))

theorem State.waitOn_of_fault (hk : k = s.core.regs.tok (s.core.tIx t.toNat)) (hf : k.f = true)
    (hc : (thr - k.fcnt).toNat < 2 ^ 15) :
    s.waitOn t thr =
      (if k.xl = true then s.setPipe { s.core.pipe with xl := s.faultXl s.core.cont.job k.frec } else s).fail
        (if k.xl = true then .xlate else .tokenFault) (t.setWidth 64) k.frec := by
  subst hk
  exact if_pos ((Bool.and_eq_true ..).mpr ⟨hf, decide_eq_true hc⟩)

theorem satisfied_iff (k : Token) (thr : BitVec 16) : satisfied k thr = true ↔ (k.count - thr).toNat < 2 ^ 15 :=
  decide_eq_true_iff

theorem State.stallingWait_of_met (h : satisfied (s.tokVal t) thr = true) :
    s.stallingWait t thr = s.waitOn t thr := if_pos h

theorem State.stallingWait_of_not_met (h : ¬ satisfied (s.tokVal t) thr = true) :
    s.stallingWait t thr = s.raiseLic.stall := if_neg h

theorem State.suspendingWait_of_handler (hh : s.core.cont.handler = true) : s.suspendingWait t thr = s.illegal :=
  if_pos hh

theorem State.suspendingWait_of_met (hh : s.core.cont.handler = false) (h : satisfied (s.tokVal t) thr = true) :
    s.suspendingWait t thr = s.waitOn t thr := by
  rw [State.suspendingWait, if_neg (by simp [hh]), if_pos h]

/-- A suspending wait that is not met, outside the handler. -/
theorem State.suspendingWait_of_not_met (hh : s.core.cont.handler = false)
    (h : ¬ satisfied (s.tokVal t) thr = true) :
    s.suspendingWait t thr = if s.pinned = true ∨ s.core.cont.member ≠ 0 then s.raiseLic.stall
      else s.suspend (waitWord 1 0 t.toNat thr.toNat) := by
  rw [State.suspendingWait, if_neg (by simp [hh]), if_neg h]
  simp only [Bool.or_eq_true, decide_eq_true_eq]

end

/-- Both forms of a token wait run on the threshold that their slot gives. -/
theorem tokenWaits_run {s : State} {hd : Hdr} {t : BitVec 5} {h : BitVec 12} {a : BitVec 6} {thr : BitVec 16}
    {i i' : Instr}
    (hi : (i = .wtk hd t h ∧ i' = .wtks hd t h ∧ Acts s hd {} ∧
          thr = (if hd.x = [] then h.setWidth 16 else BitVec.ofNat 16 hd.c)) ∨
        (i = .wtkRf1 hd t a ∧ i' = .wtksRf1 hd t a ∧ Acts s hd { s := [a] } ∧ thr = (s.s! a).setWidth 16)) :
    Gives i s (s.stallingWait t thr) ∧ Gives i' s (s.suspendingWait t thr) := by
  rcases hi with ⟨rfl, rfl, ⟨hp, hb⟩, rfl⟩ | ⟨rfl, rfl, ⟨hp, hb⟩, rfl⟩
  · have hthr : Hdr.thr hd h = if hd.x = [] then h.setWidth 16 else BitVec.ofNat 16 hd.c := by
      simp only [Hdr.thr, List.isEmpty_iff]
    rw [← hthr]
    exact ⟨(rfl : _ = execWtk hd t h s).trans (State.guarded_on hp hb),
      (rfl : _ = execWtks hd t h s).trans (State.guarded_on hp hb)⟩
  · exact ⟨(rfl : _ = execWtkRf1 hd t a s).trans (State.guarded_on hp hb),
      (rfl : _ = execWtksRf1 hd t a s).trans (State.guarded_on hp hb)⟩

theorem tokenWaitsCompleteTrapStallOrSuspend : TokenWaitsCompleteTrapStallOrSuspend := by
  intro s hd t h a thr k hk i i' hi
  obtain ⟨hstalling, hsuspending⟩ := tokenWaits_run hi
  have hmet : satisfied (s.tokVal t) thr = true ↔ (k.count - thr).toNat < 2 ^ 15 := hk ▸ satisfied_iff _ _
  refine ⟨fun hc hf => ?_, fun hc hf hcov u hu => ?_, fun hc => ?_, fun hh => ?_⟩
  · rw [← State.waitOn_of_no_fault hk hf]
    rw [State.stallingWait_of_met (hmet.mpr hc)] at hstalling
    exact ⟨hstalling, fun hh => by rwa [State.suspendingWait_of_met hh (hmet.mpr hc)] at hsuspending⟩
  · rw [hu, ← State.waitOn_of_fault hk hf hcov]
    rw [State.stallingWait_of_met (hmet.mpr hc)] at hstalling
    exact ⟨hstalling, fun hh => by rwa [State.suspendingWait_of_met hh (hmet.mpr hc)] at hsuspending⟩
  · have hnot : ¬ satisfied (s.tokVal t) thr = true := mt hmet.mp (not_lt.mpr hc)
    rw [State.stallingWait_of_not_met hnot] at hstalling
    refine ⟨hstalling, fun hh hstays => ?_, fun hh hpin hcap => ?_⟩
    · rwa [State.suspendingWait_of_not_met hh hnot, if_pos hstays] at hsuspending
    · rwa [State.suspendingWait_of_not_met hh hnot, if_neg (by simp [hpin, hcap])] at hsuspending
  · rwa [State.suspendingWait_of_handler hh] at hsuspending

/-! ### Waits on a witness register (13 R292) -/

section
variable {s : State} {v : Option Nat} {es : List Word} {e : Word}

theorem State.find?_judge_none {x : EntryState} (h : ∀ e ∈ es, s.judge v e ≠ x) :
    es.find? (fun e => decide (s.judge v e = x)) = none :=
  List.find?_eq_none.mpr fun e he => by simpa using h e he

theorem State.observe_of_poisoned (h : es.find? (fun e => decide (s.judge v e = .poisoned)) = some e) :
    s.observe v es = .bad .witPoison e := by rw [State.observe, h]

theorem State.observe_of_future (hp : ∀ e ∈ es, s.judge v e ≠ .poisoned)
    (h : es.find? (fun e => decide (s.judge v e = .future)) = some e) : s.observe v es = .bad .witFuture e := by
  rw [State.observe, State.find?_judge_none hp]
  simp only [h]

/-- Where no entry is poisoned or future, an unripe one waits. -/
theorem State.observe_of_others (hp : ∀ e ∈ es, s.judge v e ≠ .poisoned ∧ s.judge v e ≠ .future) :
    s.observe v es = if ∃ e ∈ es, s.judge v e = .unripe then .wait else .ok := by
  rw [State.observe, State.find?_judge_none fun e he => (hp e he).1]
  simp only [State.find?_judge_none fun e he => (hp e he).2, List.any_eq_true, decide_eq_true_eq]

end

section
variable {s : State} {a : BitVec 6}

theorem State.witWait_of_ok (h : s.observe (some s.core.id) (entriesOf (s.w! a)) = .ok) (w : State → State) :
    s.witWait a w = s := by rw [State.witWait, h]

theorem State.witWait_of_wait (h : s.observe (some s.core.id) (entriesOf (s.w! a)) = .wait) (w : State → State) :
    s.witWait a w = w s := by rw [State.witWait, h]

theorem State.witWait_of_bad {c : Cause} {e : Word}
    (h : s.observe (some s.core.id) (entriesOf (s.w! a)) = .bad c e) (w : State → State) :
    s.witWait a w = s.fail c e 0 := by rw [State.witWait, h]

end

section
variable {s : State} {hd : Hdr} {a : BitVec 6} (ha : Acts s hd { w := [a.toNat] })
include ha

theorem wwait_gives : Gives (.wwait hd a) s (s.witWait a State.stall) :=
  (rfl : _ = execWwait hd a s).trans (State.guarded_on ha.1 ha.2)

theorem wwaitS_gives : Gives (.wwaitS hd a) s (if s.core.cont.handler = true then s.illegal
    else s.witWait a fun s => if s.pinned = true ∨ s.core.cont.gsize ≠ 0 then s.stall
      else (s.suspend (waitWord 2 a.toNat 0 0)).saveWit a.toNat) := by
  refine ((rfl : _ = execWwaitS hd a s).trans (State.guarded_on ha.1 ha.2)).trans ?_
  simp only [Bool.or_eq_true, decide_eq_true_eq]

/-- Both forms of a witness wait that need not wait. -/
theorem witnessWaits_give {t : State} (h : ∀ w : State → State, s.witWait a w = t) :
    Gives (.wwait hd a) s t ∧ (s.core.cont.handler = false → Gives (.wwaitS hd a) s t) := by
  refine ⟨(wwait_gives ha).trans (congrArg _ (h _)), fun hh => (wwaitS_gives ha).trans (congrArg _ ?_)⟩
  rw [if_neg (by simp [hh]), h]

end

theorem witnessWaitsCompleteTrapStallOrSuspend : WitnessWaitsCompleteTrapStallOrSuspend := by
  intro s hd a ha es how
  refine ⟨fun hripe => ?_, fun e he => ?_, fun e hp he => ?_, fun hp hu => ?_, fun hh => ?_⟩
  · have hsafe : ∀ e ∈ es, how e ≠ .poisoned ∧ how e ≠ .future := fun e he => by simp [hripe e he]
    have hnone : ¬ ∃ e ∈ es, how e = .unripe := fun ⟨e, he, h⟩ => by simp [hripe e he] at h
    exact witnessWaits_give ha (State.witWait_of_ok ((State.observe_of_others hsafe).trans (if_neg hnone)))
  · exact witnessWaits_give ha (State.witWait_of_bad (State.observe_of_poisoned he))
  · exact witnessWaits_give ha (State.witWait_of_bad (State.observe_of_future hp he))
  · have hwait := State.witWait_of_wait ((State.observe_of_others hp).trans (if_pos hu))
    have hs := wwaitS_gives ha
    rw [hwait] at hs
    refine ⟨(wwait_gives ha).trans (congrArg _ (hwait _)), fun hh hstays => ?_, fun hh hpin hfree => ?_⟩
    · rwa [if_neg (by simp [hh]), if_pos hstays] at hs
    · rwa [if_neg (by simp [hh]), if_neg (not_or.mpr ⟨by simp [hpin], not_not.mpr hfree⟩)] at hs
  · exact (wwaitS_gives ha).trans (congrArg _ (if_pos hh))

end Sys2Proof.Machine

open Sys2Proof Sys2Proof.Machine Sys2Proof.Claims

/-- Settles O17: every wait is a threshold or a list of entries judged once, and each outcome one branch of it. -/
theorem waitsCompleteTrapStallOrSuspend : Obligations.WaitsCompleteTrapStallOrSuspend :=
  ⟨tokenWaitsCompleteTrapStallOrSuspend, witnessWaitsCompleteTrapStallOrSuspend⟩

/-- Settles O30: SWTRAP runs on the state that the other slots leave, and a failed check is a trap on the state
that they have not changed. -/
theorem softwareTrapsTakeTheirTrap : Obligations.SoftwareTrapsTakeTheirTrap := by
  refine ⟨fun s hd c ha => ⟨_, rfl, (rfl : _ = execSwtrap hd c s).trans (State.guarded_on ha.1 ha.2)⟩,
    fun s hd t => ⟨fun hdebug => ?_, fun hdebug => ?_⟩, fun s v => rfl, fun s c tval frec => rfl⟩
  · exact (rfl : _ = execBrk hd t s).trans (congrArg _ (if_pos hdebug))
  · exact (rfl : _ = execBrk hd t s).trans (congrArg _ (if_neg (by simp [hdebug])))

end

section
/-!
# Fields of records in memory (01 R20, R28)
-/
namespace Sys2Proof.Machine

/-! ### Bit ranges of a number -/

theorem testBit_bits (x hi lo i : Nat) :
    (bits x hi lo).testBit i = (decide (i < hi + 1 - lo) && x.testBit (lo + i)) := by
  rw [bits, Nat.testBit_mod_two_pow, Nat.testBit_div_two_pow, Nat.add_comm i lo]

/-- A number is what stands above a range, the range and what stands below it. -/
theorem eq_above_add_bits_add_below (x : Nat) {hi lo : Nat} (h : lo ≤ hi) :
    x = 2 ^ (hi + 1) * (x / 2 ^ (hi + 1)) + bits x hi lo * 2 ^ lo + x % 2 ^ lo := by
  have hsplit : 2 ^ (hi + 1) = 2 ^ lo * 2 ^ (hi + 1 - lo) := by rw [← Nat.pow_add]; congr 1; omega
  have hlow := Nat.div_add_mod x (2 ^ lo)
  have hmid := Nat.div_add_mod (x / 2 ^ lo) (2 ^ (hi + 1 - lo))
  rw [bits, hsplit, ← Nat.div_div_eq_div_mul, Nat.mul_assoc, Nat.mul_comm _ (2 ^ lo), ← Nat.mul_add, hmid, hlow]

/-- The bits of a number one of whose ranges is replaced. -/
theorem testBit_setBits (x v i : Nat) {hi lo : Nat} (h : lo ≤ hi) : (setBits x hi lo v).testBit i =
    if lo ≤ i ∧ i ≤ hi then v.testBit (i - lo) else x.testBit i := by
  have hlow := Nat.mod_lt x (Nat.two_pow_pos lo)
  have hv := Nat.mod_lt v (Nat.two_pow_pos (hi + 1 - lo))
  have hx := eq_above_add_bits_add_below x h
  have hset : setBits x hi lo v =
      2 ^ lo * (2 ^ (hi + 1 - lo) * (x / 2 ^ (hi + 1)) + v % 2 ^ (hi + 1 - lo)) + x % 2 ^ lo := by
    have hsplit : 2 ^ (hi + 1) = 2 ^ lo * 2 ^ (hi + 1 - lo) := by rw [← Nat.pow_add]; congr 1; omega
    rw [Nat.mul_add, ← Nat.mul_assoc, ← hsplit, setBits, Nat.mul_comm (2 ^ lo) (v % _)]
    omega
  rw [hset, Nat.testBit_two_pow_mul_add _ hlow, Nat.testBit_two_pow_mul_add _ hv]
  by_cases h1 : i < lo
  · rw [if_pos h1, if_neg (by omega), Nat.testBit_mod_two_pow, decide_eq_true h1, Bool.true_and]
  · by_cases h2 : i ≤ hi
    · have hin : i - lo < hi + 1 - lo := by omega
      rw [if_neg h1, if_pos hin, if_pos (by omega), Nat.testBit_mod_two_pow, decide_eq_true hin, Bool.true_and]
    · have hout : i - lo - (hi + 1 - lo) + (hi + 1) = i := by omega
      rw [if_neg h1, if_neg (by omega), if_neg (by omega), Nat.testBit_div_two_pow, hout]

theorem bits_setBits_same (x v : Nat) {hi lo : Nat} (h : lo ≤ hi) :
    bits (setBits x hi lo v) hi lo = v % 2 ^ (hi + 1 - lo) := by
  refine Nat.eq_of_testBit_eq fun i => ?_
  rw [testBit_bits, testBit_setBits _ _ _ h, Nat.testBit_mod_two_pow]
  by_cases hi' : i < hi + 1 - lo
  · rw [if_pos (by omega), Nat.add_sub_cancel_left]
  · simp [hi']

/-- A range keeps its bits where another is replaced. -/
theorem bits_setBits_disjoint (x v : Nat) {hi lo hi' lo' : Nat} (h : lo ≤ hi) (hd : hi < lo' ∨ hi' < lo) :
    bits (setBits x hi lo v) hi' lo' = bits x hi' lo' := by
  refine Nat.eq_of_testBit_eq fun i => ?_
  rw [testBit_bits, testBit_bits, testBit_setBits _ _ _ h]
  by_cases hi' : i < hi' + 1 - lo'
  · rw [if_neg (by omega)]
  · simp [hi']

theorem setBits_lt {x hi lo n : Nat} (v : Nat) (h : lo ≤ hi) (hn : hi < n) (hx : x < 2 ^ n) :
    setBits x hi lo v < 2 ^ n := by
  refine Nat.lt_pow_two_of_testBit _ fun i hi' => ?_
  rw [testBit_setBits _ _ _ h, if_neg (by omega)]
  exact Nat.testBit_lt_two_pow (hx.trans_le (Nat.pow_le_pow_right (by decide) hi'))

/-! ### Reading what a write leaves -/

/-- A read inside a written range gives the number's bytes there. -/
theorem Cells.read_write_inside {cs : List Host.Cell} {a n i m : Nat} (x : Nat) (h : Cells.wf cs = true)
    (hi : i + m ≤ n) : Cells.read (Cells.write cs a n x) (a + i) m = x / 256 ^ i % 256 ^ m := by
  induction m generalizing i with
  | zero => simp [Cells.read, Nat.mod_one]
  | succ m ih =>
    rw [Cells.read, Cells.get_write_inside x h (by omega), Nat.add_assoc, ih (by omega), BitVec.toNat_ofNat,
      Nat.pow_succ 256 i, ← Nat.div_div_eq_div_mul, Nat.pow_succ' (n := m), Nat.mod_mul]

@[simp] theorem State.waitAt_cells (s : State) (job : Nat) (p : Word) (n key : Nat) :
    (s.waitAt job p n key).mem.cells = s.mem.cells := by
  unfold State.waitAt
  split
  · rfl
  · split
    · rfl
    · exact State.waitFor_cells ..

@[simp] theorem State.wrRec_cells (s : State) (pa off n x : Nat) :
    (s.wrRec pa off n x).mem.cells = Cells.write s.mem.cells (pa + off) n x := by
  unfold State.wrRec
  rw [State.wr_cells]
  split <;> simp

/-- A write of a record changes memory only. -/
theorem State.wrRec_only (s : State) (pa off n x : Nat) :
    s.wrRec pa off n x = { s with mem := (s.wrRec pa off n x).mem } := by
  have hwait (job : Nat) (p : Word) (n key : Nat) :
      s.waitAt job p n key = { s with mem := (s.waitAt job p n key).mem } := by
    unfold State.waitAt State.waitFor
    cases s.job? job with
    | none => rfl
    | some j =>
      dsimp only
      cases s.buf? j (ptrIx p) with
      | none => rfl
      | some b => dsimp only; split <;> rfl
  unfold State.wrRec
  cases s.recordPtr pa with
  | none => exact s.wr_only ..
  | some p =>
    dsimp only
    rw [State.wr_only, hwait]

@[simp] theorem State.wrRec_core (s : State) (pa off n x : Nat) : (s.wrRec pa off n x).core = s.core := by
  rw [State.wrRec_only]
@[simp] theorem State.wrRec_sched (s : State) (pa off n x : Nat) : (s.wrRec pa off n x).sched = s.sched := by
  rw [State.wrRec_only]
@[simp] theorem State.setField_sched (s : State) (pa off hi lo v : Nat) : (s.setField pa off hi lo v).sched = s.sched :=
  State.wrRec_sched ..

theorem State.word_lt (s : State) (pa off : Nat) : s.word pa off < 2 ^ 64 :=
  (Cells.read_lt _ _ 8).trans_le (by norm_num)

/-- A word of a record reads the same in states of the same cells. -/
theorem State.word_congr {s t : State} (h : t.mem.cells = s.mem.cells) (pa off : Nat) : t.word pa off = s.word pa off :=
  congrArg (fun cs => Cells.read cs (pa + off) 8) h

theorem State.fieldOf_congr {s t : State} {pa off : Nat} (h : t.word pa off = s.word pa off) (hi lo : Nat) :
    t.fieldOf pa off hi lo = s.fieldOf pa off hi lo := congrArg (bits · hi lo) h

section
variable {s : State} {pa off n x : Nat} (hwf : Memory.wf s.mem = true)
include hwf

theorem State.word_wrRec_same (h : x < 2 ^ 64) : (s.wrRec pa off 8 x).word pa off = x := by
  rw [State.word, State.rd, State.wrRec_cells, Cells.read_write_same _ _ _ hwf]
  exact Nat.mod_eq_of_lt (by simpa using h)

theorem State.word_wrRec_other {pa' off' : Nat} (hd : pa' + off' + 8 ≤ pa + off ∨ pa + off + n ≤ pa' + off') :
    (s.wrRec pa off n x).word pa' off' = s.word pa' off' := by
  rw [State.word, State.rd, State.wrRec_cells, Cells.read_write_outside _ hwf hd]
  rfl

theorem State.word_setField_same {hi lo v : Nat} (h : lo ≤ hi) (h64 : hi < 64) :
    (s.setField pa off hi lo v).word pa off = setBits (s.word pa off) hi lo v :=
  State.word_wrRec_same hwf (setBits_lt v h h64 (s.word_lt pa off))

theorem State.fieldOf_setField_same {hi lo v : Nat} (h : lo ≤ hi) (h64 : hi < 64) :
    (s.setField pa off hi lo v).fieldOf pa off hi lo = v % 2 ^ (hi + 1 - lo) := by
  rw [State.fieldOf, State.word_setField_same hwf h h64, bits_setBits_same _ _ h]

theorem State.word_setField_other {hi lo v pa' off' : Nat}
    (hd : pa' + off' + 8 ≤ pa + off ∨ pa + off + 8 ≤ pa' + off') :
    (s.setField pa off hi lo v).word pa' off' = s.word pa' off' := State.word_wrRec_other hwf hd

end

end Sys2Proof.Machine
end

section
/-!
# Waits, drains and retirements end (06 R123, R125; 15 R330, R331)
-/
namespace Sys2Proof.Machine

open Sys2Proof.Claims

/-! ### A gang without its cores (03 R70) -/

theorem State.usable_congr {s t : State} (h : t.sched.offClusters = s.sched.offClusters ∧
    t.sched.offCores = s.sched.offCores) (c : Nat) : t.usable c = s.usable c := by
  rw [State.usable, State.usable, h.1, h.2]

theorem State.replace_of_room {s : State} {r : Rec} (j : Job) (h : s.gsizeOf r.pa ≤ (s.usable r.cluster).length) :
    s.replace j r = s := if_pos h

/-- A gang that no owned cluster can hold freezes with its launch. -/
theorem State.replace_of_no_room {s : State} {j : Job} {r : Rec}
    (h : ∀ c, c = r.cluster ∨ c ∈ j.owned → (s.usable c).length < s.gsizeOf r.pa) :
    s.replace j r =
      ((s.setField r.pa 0 63 60 csFrozen).wrRec r.pa 0x38 8 0).setField r.launch 0 59 56 stPlaceUnsat := by
  have hnone : j.owned.find? (fun c => decide (s.gsizeOf r.pa ≤ (s.usable c).length)) = none :=
    List.find?_eq_none.mpr fun c hc => by simpa using h c (.inr hc)
  unfold State.replace
  rw [if_neg (not_le.mpr (h _ (.inl rfl))), hnone]

/-! ### Suspended waits (06 R125) -/

/-- The record of a wait that is met, READY since now. -/
def State.readied (s : State) (r : Rec) : State := (s.setField r.pa 0 63 60 csReady).setRec { r with since := s.tick }

section
variable {s : State} {r : Rec} {j : Job} (hr : s.rec? r.pa = some r) (hj : s.job? r.job = some j)
  (hret : r.retired = false) (hst : s.recState r.pa = csWaiting)
include hr hj hret hst

/-- What the wait of a WAITING record comes to. -/
theorem suspendedWaitSatisfied_gives : Gives (.suspendedWaitSatisfied r.pa) s
    (if s.creq r.launch = true then (if r.posts = [] then s.retireRec r.pa 4 0x14 else s)
      else if s.waitMet j r = true then
        (if (s.readied r).gsizeOf r.pa = 0 then s.readied r else (s.readied r).replace j { r with since := s.tick })
      else s.push (.suspendedWaitSatisfied r.pa)) := by
  refine (rfl : _ = execSuspendedWaitSatisfied r.pa s).trans ?_
  unfold execSuspendedWaitSatisfied
  rw [hr]
  dsimp only
  rw [if_neg (by simp [hret, hst]), hj]
  rfl

end

theorem State.readied_word {s : State} (r : Rec) (pa off : Nat) :
    (s.readied r).word pa off = (s.setField r.pa 0 63 60 csReady).word pa off := State.word_congr rfl pa off

theorem State.readied_usable {s : State} (r : Rec) (c : Nat) : (s.readied r).usable c = s.usable c :=
  State.usable_congr ⟨by simp [State.readied, State.setRec], by simp [State.readied, State.setRec]⟩ c

section
variable {s : State} (r : Rec) (hwf : Memory.wf s.mem = true)
include hwf

theorem State.readied_wf : Memory.wf (s.readied r).mem = true := Memory.wf_setField _ _ _ _ _ hwf

theorem State.readied_recState : (s.readied r).recState r.pa = csReady := by
  rw [State.recState, State.fieldOf, State.readied_word]
  exact State.fieldOf_setField_same hwf (by decide) (by decide)

theorem State.readied_gsizeOf : (s.readied r).gsizeOf r.pa = s.gsizeOf r.pa := by
  rw [State.gsizeOf, State.fieldOf, State.readied_word, State.word_setField_other hwf (.inr (by omega))]
  rfl

end

/-! ### Drains (06 R123) -/

theorem exitDrainComplete_gives {s : State} (h : s.core.phase = .draining) :
    Gives (.exitDrainComplete s.core.id) s ((if s.drained = true ∧ .cancelStop s.core.id ∉ s.agenda then s.retireNow
      else s.push (.exitDrainComplete s.core.id)).focus s.core.id) := by
  refine (rfl : _ = execExitDrainComplete s.core.id s).trans ?_
  simp [execExitDrainComplete, State.onCore, h]

theorem retirementDecrement_gives {s : State} {r : Rec}
    (h : s.sched.recs.find? (fun q => decide (q.pa = r.pa) && q.retired) = some r) :
    Gives (.retirementDecrement r.pa) s (if (s.cancelTriggers r.pa).settled r = true then
      ({ s.cancelTriggers r.pa with sched := { (s.cancelTriggers r.pa).sched with
        recs := (s.cancelTriggers r.pa).sched.recs.filter
          fun q => !(decide (q.pa = r.pa) && q.retired) } } : State).doTodos [.childEnded r.launch r.done]
      else (s.cancelTriggers r.pa).push (.retirementDecrement r.pa)) := by
  refine (rfl : _ = execRetirementDecrement r.pa s).trans ?_
  unfold execRetirementDecrement
  rw [h]

/-! ### Cancels (15 R331) -/

theorem cancelStop_gives_idle {s : State} (h : s.core.phase = .idle ∨ s.creq s.core.cont.launch = false) :
    Gives (.cancelStop s.core.id) s s := by
  refine (rfl : _ = execCancelStop s.core.id s).trans ?_
  simp only [execCancelStop, State.onCore, State.focus_self, Bool.not_eq_true', if_pos h]

end Sys2Proof.Machine
end

section
/-!
# What the units leave of the core in turn
-/
namespace Sys2Proof.Machine

/-- What the units and the memory leave of a core: its number, its phase and its continuation, but for the count
of open links. -/
def Core.seat (c : Core) : Nat × Phase × Cont := (c.id, c.phase, { c.cont with openk := 0 })

theorem Core.seat_eq_iff {c d : Core} : c.seat = d.seat ↔
    c.id = d.id ∧ c.phase = d.phase ∧ { c.cont with openk := 0 } = { d.cont with openk := 0 } := by
  simp only [Core.seat, Prod.mk.injEq]

/-- A property of the continuation that does not speak of its open links. -/
theorem Core.cont_of_seat {α : Type} {c d : Core} (f : Cont → α) (hf : ∀ k : Cont, f { k with openk := 0 } = f k)
    (h : c.seat = d.seat) : f c.cont = f d.cont := by
  rw [← hf, ← hf d.cont, (Core.seat_eq_iff.mp h).2.2]

/-- The core in turn has the same seat in both states. -/
def State.SameSeat (s t : State) : Prop := t.core.seat = s.core.seat

theorem State.SameSeat.refl (s : State) : s.SameSeat s := rfl
theorem State.SameSeat.trans {s t u : State} (h : s.SameSeat t) (k : t.SameSeat u) : s.SameSeat u := Eq.trans k h
theorem State.SameSeat.of_core {s t : State} (h : t.core = s.core) : s.SameSeat t := congrArg Core.seat h

section
variable {s t : State} (h : s.SameSeat t)
include h

theorem State.SameSeat.id : t.core.id = s.core.id := (Core.seat_eq_iff.mp h).1
theorem State.SameSeat.phase : t.core.phase = s.core.phase := (Core.seat_eq_iff.mp h).2.1
theorem State.SameSeat.gsize : t.core.cont.gsize = s.core.cont.gsize := Core.cont_of_seat Cont.gsize (fun _ => rfl) h
theorem State.SameSeat.recPa : t.core.cont.recPa = s.core.cont.recPa := Core.cont_of_seat Cont.recPa (fun _ => rfl) h
theorem State.SameSeat.rstat : t.core.cont.rstat = s.core.cont.rstat := Core.cont_of_seat Cont.rstat (fun _ => rfl) h
theorem State.SameSeat.rcause : t.core.cont.rcause = s.core.cont.rcause :=
  Core.cont_of_seat Cont.rcause (fun _ => rfl) h
theorem State.SameSeat.handler : t.core.cont.handler = s.core.cont.handler :=
  Core.cont_of_seat Cont.handler (fun _ => rfl) h
theorem State.SameSeat.members : t.core.members = s.core.members := by
  rw [Core.members, Core.members, h.gsize, h.id, Core.cont_of_seat Cont.gang (fun _ => rfl) h]

end

theorem State.SameSeat.foldl {α : Type} {f : State → α → State}
    (hf : ∀ (s : State) (a : α), s.SameSeat (f s a)) (l : List α)
    (s : State) : s.SameSeat (l.foldl f s) := foldl_keeps (g := fun s : State => s.core.seat) hf l s

theorem State.SameSeat.foldl_fst {α β : Type} {f : State × β → α → State × β}
    (hf : ∀ (r : State × β) (a : α), r.1.SameSeat (f r a).1)
    (l : List α) (r : State × β) : r.1.SameSeat (l.foldl f r).1 :=
  foldl_keeps (g := fun r : State × β => r.1.core.seat) hf l r

/-- Replacing a core by one of the same seat. -/
theorem State.SameSeat.setCore {s : State} {c : Core} {id : Nat} (h : c.seat = (s.coreOf id).seat) :
    s.SameSeat (s.setCore c) := by
  have hid : c.id = id := (Core.seat_eq_iff.mp h).1.trans (s.coreOf_id id)
  unfold State.SameSeat State.setCore
  split
  next e => rw [h, ← hid, ← e, State.coreOf_self]
  next => rfl

/-! ### Memory and faults -/

theorem State.MemUnitsOnly.sameSeat {s t : State} (h : s.MemUnitsOnly t) : s.SameSeat t := by
  unfold State.MemUnitsOnly at h
  rw [h]
  rfl

theorem State.sameSeat_waitFor (s : State) (b : Buf) (off n : Nat) (ks : List (Nat × Nat)) :
    s.SameSeat (s.waitFor b off n ks) := by
  unfold State.waitFor
  split <;> exact .refl s

theorem State.sameSeat_bufSpans (s : State) (j : Job) (b : Buf) (off n : Nat) :
    s.SameSeat (s.bufSpans j b off n).1 := (State.spans_memUnits _ _ _ s).sameSeat

theorem State.sameSeat_putFault (s : State) (job : Nat) (f : FaultInfo) : s.SameSeat (s.putFault job f).1 := by
  have spans := State.sameSeat_bufSpans
  have waits := State.sameSeat_waitFor
  have writes := fun (s : State) ks w => (State.wrSpans_memUnits s ks w).sameSeat
  unfold State.SameSeat at *
  fun_cases State.putFault s job f <;> grind

theorem State.sameSeat_faultRecord (s : State) (job : Nat) (f : FaultInfo) : s.SameSeat (s.faultRecord job f).1 := by
  have h := s.sameSeat_putFault job f
  unfold State.faultRecord
  split
  next heq =>
    rw [heq] at h
    split
    · exact h.trans (.of_core rfl)
    · exact h

/-! ### Agents -/

@[simp] theorem State.tellPeers_core (s : State) (a : Nat) : (s.tellPeers a).core = s.core := by
  refine foldl_keeps (g := State.core) (fun s d => ?_) _ _
  split
  · rfl
  · exact State.send_core ..

@[simp] theorem State.number_core (s : State) (a : Nat) : (s.number a).1.core = s.core := by simp [State.number]

@[simp] theorem State.storeFailed_core (s : State) (a n : Nat) : (s.storeFailed a n).core = s.core := by
  simp [State.storeFailed]

theorem State.sameSeat_dropStale (s : State) : s.SameSeat s.dropStale := by
  unfold State.SameSeat State.dropStale State.dropStaleIn
  dsimp only
  split <;> rfl

theorem State.sameSeat_visible (s : State) (a n : Nat) : s.SameSeat (s.visible a n) :=
  ((State.SameSeat.of_core rfl).trans (State.sameSeat_dropStale _)).trans (.of_core (State.tellPeers_core ..))

theorem State.sameSeat_setRegs (s : State) (g : Regs) : s.SameSeat (s.setRegs g) := rfl

@[simp] theorem State.marker_core (s : State) (id scope : Nat) (es : List Word) :
    (s.marker id scope es).1.core = s.core :=
  State.number_core s id

theorem State.sameSeat_leaveMarker (s : State) : s.SameSeat s.leaveMarker := by
  unfold State.leaveMarker
  exact (State.SameSeat.of_core (State.marker_core ..)).trans (State.sameSeat_setRegs _ _)

/-! ### Chains -/

@[simp] theorem State.tellChain_core (s : State) (c : Chain) (i : Event) : (s.tellChain c i).core = s.core := by
  refine foldl_keeps (g := State.core) (fun s d => ?_) _ _
  split
  · rfl
  · exact State.send_core ..

theorem State.sameSeat_lowerOpenk (s : State) (l : Link) : s.SameSeat (s.lowerOpenk l) := by
  unfold State.lowerOpenk
  dsimp only
  split
  · exact .setCore (id := l.core) rfl
  · exact .refl s

theorem State.sameSeat_releaseLink (s : State) (c : Chain) (l : Link) (state : Nat) :
    s.SameSeat (s.releaseLink c l state) :=
  (s.sameSeat_lowerOpenk l).trans (.of_core (State.setChain_core ..))

theorem State.sameSeat_retireLinks (s : State) (c : Chain) (state : Nat) : s.SameSeat (s.retireLinks c state) :=
  (State.SameSeat.of_core (State.setChain_core ..)).trans
    (.foldl (fun s l => s.sameSeat_releaseLink { c with state := state } l 6) _ _)

theorem State.sameSeat_cancelHere (s : State) (c : Chain) : s.SameSeat (s.cancelHere c) := by
  unfold State.cancelHere
  split
  · split
    · exact s.sameSeat_retireLinks ..
    · exact .refl s
  · exact .refl s

theorem State.sameSeat_cancelChain (s : State) (c : Chain) : s.SameSeat (s.cancelChain c) := by
  unfold State.cancelChain
  split
  · split
    · exact (s.sameSeat_cancelHere c).trans (.of_core (State.tellChain_core ..))
    · exact .of_core (State.send_core ..)
  · exact .refl s

theorem State.sameSeat_abandonLinks (s : State) (core recPa : Nat) : s.SameSeat (s.abandonLinks core recPa) := by
  refine .foldl (fun s p => ?_) _ _
  split
  · exact (s.sameSeat_lowerOpenk _).trans (.of_core (State.setChain_core ..))
  · exact .refl s

theorem State.sameSeat_cancelChains (s : State) (core recPa : Nat) : s.SameSeat (s.cancelChains core recPa) := by
  refine State.SameSeat.trans (.foldl (fun s p => ?_) _ _) (State.sameSeat_abandonLinks ..)
  split
  · exact s.sameSeat_cancelChain _
  · exact .refl s

/-! ### Engines -/

@[simp] theorem State.pushEngine_core (s : State) (e : Nat) : (s.pushEngine e).core = s.core := by
  unfold State.pushEngine
  split
  · split <;> rfl
  · rfl

@[simp] theorem State.popEngine_core (s : State) (e : Nat) : (s.popEngine e).core = s.core := State.pushEngine_core ..

@[simp] theorem State.removeCmd_core (s : State) (e id : Nat) : (s.removeCmd e id).core = s.core := by
  unfold State.removeCmd
  dsimp only
  split
  · split
    · exact State.popEngine_core ..
    · rfl
  · rfl

@[simp] theorem State.releaseEngines_core (s : State) : s.releaseEngines.core = s.core := by
  refine foldl_keeps (g := State.core) (fun s e => ?_) _ _
  split
  · exact State.pushEngine_core ..
  · rfl

@[simp] theorem State.cmdPost_core (s : State) (c : Cmd) (post : Option Nat) (f : Option PFault) :
    (s.cmdPost c post f).core = s.core := by
  unfold State.cmdPost
  split <;> rfl

@[simp] theorem State.leaseRefused_core (s : State) (ix : Nat) (state : Option Nat) :
    (s.leaseRefused ix state).core = s.core := by
  have hlease (s : State) (a x : Nat) : (s.wrLease a x).core = s.core := (s.wr_frame a 8 x).1
  unfold State.leaseRefused
  split
  · rfl
  · dsimp only
    rw [hlease]
    split
    · exact hlease ..
    · rfl

@[simp] theorem State.askWalks_core (s : State) (tenant tier : Nat) (ps : List (Nat × Nat)) :
    (s.askWalks tenant tier ps).1.core = s.core := by
  unfold State.askWalks
  refine foldl_keeps (g := fun r : State × Bool => r.1.core) (fun r p => ?_) ps (s, false)
  dsimp only
  split
  · rfl
  · dsimp only; split <;> rfl

@[simp] theorem State.engWait_core (s : State) (j : Job) (ix off n : Nat) : (s.engWait j ix off n).1.core = s.core := by
  unfold State.engWait
  split
  · rfl
  · cases s.buf? j ix with
    | none => rfl
    | some b =>
      dsimp only
      split
      · rfl
      · cases s.pureKeys j.tenant.toNat b.tier (b.pieces off n) with
        | error _ => rfl
        | ok ks => exact State.askWalks_core ..

/-- A request to a lender is an event of the lender's device. -/
theorem State.toLender_core {s t : State} {lease : Nat} {j : Job} {kind : PeerKind} {cells : List (Nat × Nat × Nat)}
    {who : PeerWho} {batch : Option (BatchKey × Nat × Option Nat)}
    (h : s.toLender lease j kind cells who batch = some t) : t.core = s.core := by
  unfold State.toLender at h
  split at h
  next => cases h
  next => cases h; exact State.send_core ..

/-- Writing a core's storage. -/
theorem State.sameSeat_setStore (s : State) (id : Nat) (m : Store) :
    s.SameSeat (s.setCore { s.coreOf id with store := m }) := .setCore (id := id) rfl

/-- The state of a write of word 0x38. -/
theorem State.sameSeat_wrStatus (s : State) (g : Ending) (w : Nat) : s.SameSeat (s.wrStatus g w).state := by
  unfold State.wrStatus
  have waited := State.engWait_core s
  have stored := s.sameSeat_setStore g.cmd.core
  have refused := fun l => State.SameSeat.of_core (State.leaseRefused_core s l none)
  obtain ⟨check, hcheck⟩ : ∃ check, s.check = check := ⟨_, rfl⟩
  obtain ⟨wait, hwait⟩ : ∃ wait, s.engWait = wait := ⟨_, rfl⟩
  obtain ⟨keys, hkeys⟩ : ∃ keys, s.pureKeys = keys := ⟨_, rfl⟩
  rw [hcheck, hwait, hkeys]
  rw [hwait] at waited
  extract_lets c p ix bad
  split
  · exact .refl s
  · exact .refl s
  · exact .refl s
  · exact .refl s
  · split
    · exact .refl s
    · split
      · exact stored _
      · split
        · exact .refl s
        next j _ =>
          split
          · exact .refl s
          · exact .refl s
          next b _ =>
            split
            · split
              next eq => exact .of_core (State.toLender_core eq)
              · exact refused b.lease
            · split
              · exact .refl s
              next ks _ =>
                have waited := State.SameSeat.of_core (waited j ix (ptrOff p) 8)
                extract_lets t
                split
                · exact waited
                · exact (waited.trans (State.wrSpans_memUnits _ _ _).sameSeat).trans (State.sameSeat_dropStale _)

theorem State.sameSeat_failEffects (s : State) (e : Nat) (c : Cmd) (f : EngFail) :
    s.SameSeat (s.failEffects e c f) := by
  have h := s.sameSeat_faultRecord c.job (cmdFault e c f)
  refine h.trans (.of_core ?_)
  unfold State.failEffects
  dsimp only
  rw [State.cmdPost_core]
  split
  · split <;> simp
  · rw [State.cmdPost_core]; split <;> simp

theorem State.sameSeat_doneEffects (s : State) (c : Cmd) : s.SameSeat (s.doneEffects c) := by
  unfold State.doneEffects
  dsimp only
  refine State.SameSeat.trans ?_ (.of_core (State.cmdPost_core ..))
  split
  · exact .refl s
  · exact s.sameSeat_visible ..

theorem State.sameSeat_endEffects (s : State) (g : Ending) (h : Option EngFail) : s.SameSeat (s.endEffects g h) := by
  unfold State.endEffects
  split
  · exact s.sameSeat_doneEffects _
  · exact s.sameSeat_failEffects ..
  · exact s.sameSeat_failEffects ..
  · exact (s.sameSeat_faultRecord ..).trans (State.sameSeat_failEffects ..)

theorem State.sameSeat_endCommand (s : State) (g : Ending) : s.SameSeat (s.endCommand g) := by
  have ends := State.sameSeat_endEffects
  have status := s.sameSeat_wrStatus g
  unfold State.SameSeat at *
  fun_cases State.endCommand s g <;> grind [Wrote.state, State.push_core]

/-! ### Runs and cancelled entries -/

theorem State.sameSeat_endHere (s : State) (r : Run) (code : Nat) (f : EngFail) : s.SameSeat (s.endHere r code f) := by
  have ends := State.sameSeat_endCommand
  unfold State.SameSeat at *
  fun_cases State.endHere s r code f
  grind [State.setCid_core, State.removeCmd_core]

theorem State.sameSeat_abortHere (s : State) (m : CidMark) (seq : BitVec 16) : s.SameSeat (s.abortHere m seq).1 :=
  (State.SameSeat.of_core rfl).trans (.foldl (fun s r => s.sameSeat_endHere r _ _) _ _)

theorem State.sameSeat_decideAbort (s : State) (c : CidMark) (m : CollMsg) : s.SameSeat (s.decideAbort c m) := by
  have aborts := State.sameSeat_abortHere
  unfold State.SameSeat at *
  fun_cases State.decideAbort s c m <;> grind [State.send_core]

theorem State.sameSeat_endRun (s : State) (r : Run) (code : Nat) (f : EngFail) : s.SameSeat (s.endRun r code f) := by
  have ends := State.sameSeat_endHere
  have aborts := State.sameSeat_decideAbort
  unfold State.SameSeat at *
  fun_cases State.endRun s r code f <;> grind [State.sendAbort, State.send_core, State.push_core]

theorem State.sameSeat_cancelEntry (s : State) (e : Nat) (c : Cmd) : s.SameSeat (s.cancelEntry e c) := by
  refine State.SameSeat.trans ?_ (.of_core (State.removeCmd_core ..))
  unfold State.cancelCmd
  dsimp only
  split
  · exact s.sameSeat_endRun ..
  · exact s.sameSeat_endCommand _

theorem State.sameSeat_cancelList (s : State) (e : Nat) (cs : List (Cmd × Nat)) :
    s.SameSeat (cs.foldl (fun s c => s.cancelEntry e c.1) s) := by
  induction cs generalizing s with
  | nil => exact .refl s
  | cons c cs ih => exact (s.sameSeat_cancelEntry e c.1).trans (ih _)

theorem State.sameSeat_cancelEntries (s : State) (pa : Nat) : s.SameSeat (s.cancelEntries pa).1 := by
  have list := State.sameSeat_cancelList
  unfold State.cancelEntries
  generalize hs : ({ s with units := _ } : State) = t
  have ht : s.SameSeat t := hs ▸ .of_core rfl
  exact ht.trans (.foldl_fst (fun r e => list ..) (List.range 64) (t, false))

end Sys2Proof.Machine
end

section
/-!
# Changes of every member of a continuation (03 R65)
-/
namespace Sys2Proof.Machine

/-! ### The members of the continuation in turn (03 R65) -/

/-- Changes the core of every listed number. -/
def State.mapCores (s : State) (f : Core → Core) (ids : List Nat) : State :=
  ids.foldl (fun s id => s.setCore (f (s.coreOf id))) s

section
variable (s : State) (f : Core → Core) (ids : List Nat)

/-- A change of cores leaves everything else of the state. -/
theorem State.mapCores_only :
    s.mapCores f ids = { s with core := (s.mapCores f ids).core, parked := (s.mapCores f ids).parked } := by
  obtain ⟨c, hc⟩ : ∃ c, c = (s.mapCores f ids).core := ⟨_, rfl⟩
  obtain ⟨cs, hcs⟩ : ∃ cs, cs = (s.mapCores f ids).parked := ⟨_, rfl⟩
  have h : ({ s.mapCores f ids with core := c, parked := cs } : State) = { s with core := c, parked := cs } := by
    refine foldl_keeps (g := fun s : State => { s with core := c, parked := cs }) (fun s id => ?_) ids s
    unfold State.setCore
    split <;> rfl
  rw [← hc, ← hcs, ← h, hc, hcs]

theorem State.mapCores_core_id : (s.mapCores f ids).core.id = s.core.id := by
  refine foldl_keeps (g := fun s : State => s.core.id) (fun s id => ?_) _ _
  unfold State.setCore
  split
  next e => exact e.symm
  next => rfl

variable (hf : ∀ c, (f c).id = c.id)
include hf

/-- A property that the change keeps. -/
theorem State.mapCores_keeps {P : Core → Prop} (hP : ∀ c, P c → P (f c)) {k : Nat} (h : P (s.coreOf k)) :
    P ((s.mapCores f ids).coreOf k) := by
  induction ids generalizing s with
  | nil => exact h
  | cons id ids ih =>
    refine ih _ ?_
    rw [State.coreOf_setCore, (hf _).trans (s.coreOf_id id)]
    split
    next hk => exact hP _ (hk ▸ h)
    next => exact h

/-- A property that the change gives. -/
theorem State.mapCores_gives {P : Core → Prop} (hP : ∀ c, P (f c)) {k : Nat} (h : k ∈ ids) :
    P ((s.mapCores f ids).coreOf k) := by
  induction ids generalizing s with
  | nil => exact absurd h List.not_mem_nil
  | cons id ids ih =>
    obtain rfl | h := List.mem_cons.mp h
    · refine State.mapCores_keeps _ f ids hf (fun c _ => hP c) ?_
      rw [State.coreOf_setCore, if_pos ((hf _).trans (s.coreOf_id k)).symm]
      exact hP _
    · exact ih _ h

/-- The members of the continuation in turn stay, where the change leaves them. -/
theorem State.mapCores_members (hm : ∀ c, (f c).members = c.members) :
    (s.mapCores f ids).core.members = s.core.members := by
  refine foldl_keeps (g := fun s : State => s.core.members) (fun s id => ?_) _ _
  unfold State.setCore
  split
  next e =>
    have hid : s.core.id = id := e.trans ((hf _).trans (s.coreOf_id id))
    show (f (s.coreOf id)).members = _
    rw [hm, ← hid, State.coreOf_self]
  next => rfl

end

/-- A fold over the members of a free continuation acts on its core alone. -/
theorem State.foldl_members_free {s : State} (hg : s.core.cont.gsize = 0) (f : State → Core → Core)
    (hf : ∀ t c, (f t c).id = c.id) :
    s.core.members.foldl (fun t id => t.setCore (f t (t.coreOf id))) s = { s with core := f s s.core } := by
  rw [Core.members_free hg, List.foldl_cons, List.foldl_nil, State.coreOf_self]
  exact if_pos (hf s s.core).symm

/-- The one member of a free continuation. -/
theorem State.mapCores_free {s : State} {f : Core → Core} (hf : ∀ c, (f c).id = c.id) (hg : s.core.cont.gsize = 0) :
    s.mapCores f s.core.members = { s with core := f s.core } := State.foldl_members_free hg (fun _ => f) fun _ => hf

/-! ### What the parts of a slot do to a core -/

/-- A core that is charged cycles. -/
def Core.charged (n : Nat) (c : Core) : Core :=
  { c with
    acct := c.acct - n
    cont := { c.cont with
      stretch := c.cont.stretch + n
      lic := max (c.cont.lic + n) c.cont.rise
      cycles := c.cont.cycles + n, rise := 0 } }

/-- A core whose LIC rises above a count. -/
def Core.raisedTo (lic : Nat) (c : Core) : Core := { c with cont := { c.cont with lic := raise lic } }

/-- A core whose continuation drains. -/
def Core.drains (rstat cause : Nat) (c : Core) : Core :=
  { c with phase := .draining, cont := { c.cont with rstat := rstat, rcause := cause } }

theorem State.charge_eq (s : State) (n : Nat) :
    s.charge n = if s.core.cont.handler = true then s else s.mapCores (Core.charged n) s.core.members := rfl

theorem State.raiseTo_eq (s : State) (lic : Nat) : s.raiseTo lic = s.mapCores (Core.raisedTo lic) s.core.members := rfl

theorem State.beginDrain_eq (s : State) (rstat cause : Nat) : s.beginDrain rstat cause =
    ((s.mapCores (Core.drains rstat cause) s.core.members).push
      (.exitDrainComplete (s.mapCores (Core.drains rstat cause) s.core.members).core.id)).left := rfl

end Sys2Proof.Machine
end

section
/-!
# Cancels of a running continuation (15 R331)
-/
namespace Sys2Proof.Machine

open Sys2Proof.Claims

/-- A free continuation that is cancelled drains: the core in turn, its number given. -/
structure State.CancelDrains (s : State) (id : Nat) : Prop where
  id : s.core.id = id
  free : s.core.cont.gsize = 0
  phase : s.core.phase = .draining
  rstat : s.core.cont.rstat = 4
  rcause : s.core.cont.rcause = 0x14
  handler : s.core.cont.handler = false

theorem State.CancelDrains.sameSeat {s t : State} {id : Nat} (h : s.CancelDrains id) (k : s.SameSeat t) :
    t.CancelDrains id :=
  ⟨k.id.trans h.id, k.gsize.trans h.free, k.phase.trans h.phase, k.rstat.trans h.rstat, k.rcause.trans h.rcause,
    k.handler.trans h.handler⟩

theorem State.CancelDrains.focus {s : State} {id : Nat} (h : s.CancelDrains id) : s.focus id = s := if_pos h.id

theorem Core.landAll_lands (c : Core) (tick : Nat) : c.Lands (c.landAll tick) :=
  Core.Lands.trans
    (d := { c with pipe := { c.pipe with land := c.pipe.land.filter fun _ => !true } })
    rfl (Core.landList_lands tick _ _)

/-- What a cancel makes of a core: its results landed, its drain with the cause of the cancel. -/
def Core.cancelled (tick : Nat) (c : Core) : Core :=
  { c.landAll tick with
    phase := .draining
    cont := { (c.landAll tick).cont with handler := false, rstat := 4, rcause := 0x14 } }

theorem Core.cancelled_id (tick : Nat) (c : Core) : (c.cancelled tick).id = c.id := by
  rw [Core.cancelled, c.landAll_lands tick]

theorem State.cancelDrains_cancelled {s : State} (hg : s.core.cont.gsize = 0) :
    ({ s with core := s.core.cancelled s.tick } : State).CancelDrains s.core.id :=
  ⟨s.core.cancelled_id s.tick, (congrArg (·.cont.gsize) (s.core.landAll_lands s.tick)).trans hg, rfl, rfl, rfl, rfl⟩

theorem State.CancelDrains.raiseTo {s : State} {id : Nat} (h : s.CancelDrains id) (lic : Nat) :
    (s.raiseTo lic).CancelDrains id := by
  rw [State.raiseTo_eq, State.mapCores_free (f := Core.raisedTo lic) (fun _ => rfl) h.free]
  exact ⟨h.id, h.free, h.phase, h.rstat, h.rcause, h.handler⟩

theorem State.CancelDrains.beginDrain {s : State} {id : Nat} (h : s.CancelDrains id) :
    (s.beginDrain 4 0x14).CancelDrains id := by
  rw [State.beginDrain_eq, State.mapCores_free (f := Core.drains 4 0x14) (fun _ => rfl) h.free]
  exact ⟨h.id, h.free, rfl, rfl, rfl, h.handler⟩

/-- The state that a cancel leaves drains. -/
theorem cancelStop_gives_drain {s : State} (hp : s.core.phase ≠ .idle) (hg : s.core.cont.gsize = 0)
    (hc : s.creq s.core.cont.launch = true) :
    ∃ t, Gives (.cancelStop s.core.id) s t ∧ t.CancelDrains s.core.id := by
  -- the chains are cancelled and the engines released
  obtain ⟨a, ha⟩ : ∃ a, a = (s.cancelChains s.core.id s.core.cont.recPa).releaseEngines := ⟨_, rfl⟩
  have hsa : s.SameSeat a := by
    rw [ha]
    exact (s.sameSeat_cancelChains ..).trans (.of_core (State.releaseEngines_core _))
  -- the results land and the drain is noted, and LIC rises
  obtain ⟨b, hb⟩ : ∃ b, b = if s.core.phase = .draining then ({ a with core := a.core.cancelled a.tick } : State)
      else ({ a with core := a.core.cancelled a.tick } : State).raiseTo s.core.cont.lic := ⟨_, rfl⟩
  have hdb : b.CancelDrains s.core.id := by
    have h := State.cancelDrains_cancelled (hsa.gsize.trans hg)
    rw [hsa.id] at h
    rw [hb]
    split
    · exact h
    · exact h.raiseTo _
  have hfold := State.foldl_members_free (hsa.gsize.trans hg) (fun t c => c.cancelled t.tick)
    fun t c => c.cancelled_id t.tick
  unfold Core.cancelled at hfold hb
  -- the entries end; with one left, the cancel acts again
  have hdc := hdb.sameSeat (b.sameSeat_cancelEntries s.core.cont.recPa)
  obtain ⟨u, rest, he⟩ : ∃ u rest, b.cancelEntries s.core.cont.recPa = (u, rest) := ⟨_, _, rfl⟩
  rw [he] at hdc
  have run : execCancelStop s.core.id s =
      .next ((if rest then u.push (.cancelStop s.core.id) else u.beginDrain 4 0x14).focus s.core.id) := by
    simp only [execCancelStop, State.onCore, State.focus_self, hp, hc, Bool.not_true, Bool.false_eq_true, or_self,
      if_false, Core.members_free hg, List.foldl_cons, List.foldl_nil, ← ha, hfold, ← hb, he]
    cases rest <;> rfl
  cases rest with
  | true =>
    have hd : (u.push (.cancelStop s.core.id)).CancelDrains s.core.id := hdc.sameSeat (.of_core rfl)
    rw [if_pos rfl, hd.focus] at run
    exact ⟨_, run, hd⟩
  | false =>
    have hd := hdc.beginDrain
    rw [if_neg Bool.false_ne_true, hd.focus] at run
    exact ⟨_, run, hd⟩

end Sys2Proof.Machine

open Sys2Proof Sys2Proof.Machine Sys2Proof.Claims

/-- Settles O44: a wait that is met writes one field of the record, so its state reads READY, or FROZEN where no
cluster can hold the gang; the drain and the retirement are their arms; the units and the chains leave the seat of the
core in turn, so that a cancel leaves it draining with its cause. -/
theorem waitsDrainsAndRetirementsEnd : Obligations.WaitsDrainsAndRetirementsEnd := by
  refine ⟨fun s r j hr hj hret hst hwf => ?_, fun s hp => ?_, fun s r hr => ?_,
    fun s h => cancelStop_gives_idle (.inl h), fun s h => cancelStop_gives_idle (.inr h), fun s hp hg hc => ?_⟩
  · have gives := suspendedWaitSatisfied_gives hr hj hret hst
    refine ⟨fun hc hm hfit => ?_, fun hc hm hg hno hsep => ?_, fun hc hm => ?_, fun hc => ?_⟩
    · rw [if_neg (by simp [hc]), if_pos hm] at gives
      refine ⟨_, gives, ?_⟩
      have hready := State.readied_recState r hwf
      split
      · exact hready
      next hg =>
        have hroom : (s.readied r).gsizeOf r.pa ≤ ((s.readied r).usable r.cluster).length := by
          rw [State.readied_gsizeOf r hwf] at hg ⊢
          rw [State.readied_usable r]
          exact hfit.resolve_left hg
        rw [State.replace_of_room (r := { r with since := s.tick }) j hroom]
        exact hready
    · rw [if_neg (by simp [hc]), if_pos hm, if_neg (by rwa [State.readied_gsizeOf r hwf])] at gives
      refine ⟨_, gives, ?_⟩
      have hnone : ∀ c, c = r.cluster ∨ c ∈ j.owned →
          ((s.readied r).usable c).length < (s.readied r).gsizeOf r.pa := fun c h => by
        rw [State.readied_gsizeOf r hwf, State.readied_usable r]
        exact hno c h
      rw [State.replace_of_no_room (r := { r with since := s.tick }) hnone]
      dsimp only
      have hfrozen := Memory.wf_setField (pa := r.pa) 0 63 60 csFrozen (State.readied_wf r hwf)
      have hcause := Memory.wf_wrRec (pa := r.pa) 0x38 8 0 hfrozen
      rw [State.recState, State.fieldOf_congr (State.word_setField_other hcause (by omega)),
        State.fieldOf_congr (State.word_wrRec_other hfrozen (by omega)),
        State.fieldOf_setField_same (State.readied_wf r hwf) (by decide) (by decide)]
      rfl
    · rwa [if_neg (by simp [hc]), if_neg (by simp [hm])] at gives
    · rwa [if_pos hc] at gives
  · have gives := exitDrainComplete_gives hp
    refine ⟨fun hd ha => ?_, fun h => ?_⟩
    · rwa [if_pos ⟨hd, ha⟩] at gives
    · rwa [if_neg fun ⟨hd, ha⟩ => h.elim (by simp [hd]) (· |> ha)] at gives
  · have gives := retirementDecrement_gives hr
    refine ⟨fun h => ?_, fun h u hu => ?_⟩
    · rwa [h, if_neg Bool.false_ne_true] at gives
    · rw [h, if_pos rfl] at gives
      rw [hu]
      exact gives
  · obtain ⟨t, ht, hdrain⟩ := cancelStop_gives_drain hp hg hc
    exact ⟨t, ht, hdrain.phase, hdrain.rstat, hdrain.rcause, hdrain.handler⟩
end

section
/-!
# Spawned records and remote completions (06 R124; 05 R107; 14 R314)
-/
namespace Sys2Proof.Machine

open Sys2Proof.Claims

/-! ### The words of a number -/

theorem ofDigits_div_pow_mod {b : Nat} {l : List Nat} (h : ∀ x ∈ l, x < b) (i : Nat) :
    Nat.ofDigits b l / b ^ i % b = l.getD i 0 := by
  induction l generalizing i with
  | nil => simp
  | cons x l ih =>
    have hx : x < b := h x List.mem_cons_self
    rw [Nat.ofDigits_cons]
    cases i with
    | zero => rw [pow_zero, Nat.div_one, Nat.add_mul_mod_self_left, Nat.mod_eq_of_lt hx]; rfl
    | succ i =>
      rw [pow_succ', ← Nat.div_div_eq_div_mul, Nat.add_mul_div_left _ _ (by omega), Nat.div_eq_of_lt hx, zero_add]
      exact ih (fun y hy => h y (List.mem_cons_of_mem _ hy)) i

theorem eight_words_eq_ofDigits (a b c d e f g h : Nat) :
    a + b * 2 ^ 64 + c * 2 ^ 128 + d * 2 ^ 192 + e * 2 ^ 256 + f * 2 ^ 320 + g * 2 ^ 384 + h * 2 ^ 448 =
      Nat.ofDigits (2 ^ 64) [a, b, c, d, e, f, g, h] := by
  have hp (n : Nat) : 2 ^ (64 * n) = (2 ^ 64) ^ n := Nat.pow_mul 2 64 n
  rw [show 128 = 64 * 2 from rfl, show 192 = 64 * 3 from rfl, show 256 = 64 * 4 from rfl, show 320 = 64 * 5 from rfl,
    show 384 = 64 * 6 from rfl, show 448 = 64 * 7 from rfl, hp, hp, hp, hp, hp, hp]
  generalize 2 ^ 64 = B
  simp only [Nat.ofDigits_cons, Nat.ofDigits_nil]
  ring

/-! ### Memory after a write -/

section
variable {s : State} {key n x : Nat} (hwf : Memory.wf s.mem = true)
include hwf

theorem State.rd_wr_same : (s.wr key n x).rd key n = x % 256 ^ n := by
  rw [State.rd, State.wr_cells, Cells.read_write_same _ _ _ hwf]

theorem State.rd_wr_other {k m : Nat} (hd : k + m ≤ key ∨ key + n ≤ k) : (s.wr key n x).rd k m = s.rd k m := by
  rw [State.rd, State.wr_cells, Cells.read_write_outside _ hwf hd]
  rfl

theorem State.word_wr_other {pa off : Nat} (hd : pa + off + 8 ≤ key ∨ key + n ≤ pa + off) :
    (s.wr key n x).word pa off = s.word pa off := State.rd_wr_other hwf hd

/-- A word of a record that is written whole, word by word. -/
theorem State.word_wr_words {l : List Nat} (hl : ∀ x ∈ l, x < 2 ^ 64) {i : Nat} (hi : i < 8) :
    (s.wr key 64 (Nat.ofDigits (2 ^ 64) l)).word key (8 * i) = l.getD i 0 := by
  rw [State.word, State.rd, State.wr_cells, Cells.read_write_inside _ hwf (by omega),
    show (256 : Nat) = 2 ^ 8 by norm_num, ← Nat.pow_mul, ← Nat.pow_mul, show 8 * (8 * i) = 64 * i by omega,
    Nat.pow_mul 2 64, ofDigits_div_pow_mod hl]

end

/-! ### The image of a new record (01 R20) -/

/-- Word 0 of a new record of a free continuation: READY, with its flags, its object and its PC. -/
def newWord0 (strict dbg spwn : Bool) (cobj pc : Nat) : Nat :=
  csReady * 2 ^ 60 + strict.toNat * 2 ^ 53 + dbg.toNat * 2 ^ 52 + spwn.toNat * 2 ^ 51 + cobj % 2 ^ 16 * 2 ^ 32 +
    pc % 2 ^ 32

section
variable (strict dbg spwn : Bool) (cobj pc : Nat)

theorem newWord0_lt : newWord0 strict dbg spwn cobj pc < 2 ^ 64 := by
  have hs := strict.toNat_lt
  have hd := dbg.toNat_lt
  have hp := spwn.toNat_lt
  unfold newWord0 csReady
  omega

/-- The fields of word 0 of a new record. -/
theorem newWord0_fields :
    bits (newWord0 strict dbg spwn cobj pc) 63 60 = csReady ∧ bits (newWord0 strict dbg spwn cobj pc) 55 54 = 0 ∧
    bits (newWord0 strict dbg spwn cobj pc) 53 53 = strict.toNat ∧
    bits (newWord0 strict dbg spwn cobj pc) 52 52 = dbg.toNat ∧
    bits (newWord0 strict dbg spwn cobj pc) 51 51 = spwn.toNat ∧
    bits (newWord0 strict dbg spwn cobj pc) 47 32 = cobj % 2 ^ 16 ∧
    bits (newWord0 strict dbg spwn cobj pc) 31 0 = pc % 2 ^ 32 := by
  have hs := strict.toNat_lt
  have hd := dbg.toNat_lt
  have hp := spwn.toNat_lt
  unfold newWord0 bits csReady
  refine ⟨?_, ?_, ?_, ?_, ?_, ?_, ?_⟩ <;> omega

end

/-- The fields of word 0x10 of a new record. -/
theorem newWord2_fields (unit launch : Nat) :
    bits (unit % 2 ^ 32 * 2 ^ 32 + launch % 2 ^ 16 * 2 ^ 16 + 0x7FF * 2 ^ 5) 63 32 = unit % 2 ^ 32 ∧
    bits (unit % 2 ^ 32 * 2 ^ 32 + launch % 2 ^ 16 * 2 ^ 16 + 0x7FF * 2 ^ 5) 31 16 = launch % 2 ^ 16 ∧
    bits (unit % 2 ^ 32 * 2 ^ 32 + launch % 2 ^ 16 * 2 ^ 16 + 0x7FF * 2 ^ 5) 15 5 = 0x7FF ∧
    bits (unit % 2 ^ 32 * 2 ^ 32 + launch % 2 ^ 16 * 2 ^ 16 + 0x7FF * 2 ^ 5) 4 0 = 0 := by
  unfold bits
  refine ⟨?_, ?_, ?_, ?_⟩ <;> omega

/-- LIX of a new record. -/
theorem newWord5_lix (lix : Nat) : bits (lix % 2 ^ 16 * 2 ^ 16 + 0xFFFF) 31 16 = lix % 2 ^ 16 := by
  unfold bits
  omega

/-- The rank and the run of a new record. -/
theorem newWord6_fields (rank run : Nat) :
    bits (rank % 16 * 2 ^ 60 + run % 2 ^ 32) 63 60 = rank % 16 ∧
    bits (rank % 16 * 2 ^ 60 + run % 2 ^ 32) 31 0 = run % 2 ^ 32 := by
  unfold bits
  constructor <;> omega

/-- The words of a new record of a free continuation. -/
def newWords (strict dbg spwn : Bool) (cobj pc : Nat) (frame : Word) (unit launch : Nat) (arg0 arg1 : Word)
    (lix rank run : Nat) : List Nat :=
  [newWord0 strict dbg spwn cobj pc, frame.toNat, unit % 2 ^ 32 * 2 ^ 32 + launch % 2 ^ 16 * 2 ^ 16 + 0x7FF * 2 ^ 5,
    arg0.toNat, arg1.toNat, lix % 2 ^ 16 * 2 ^ 16 + 0xFFFF, rank % 16 * 2 ^ 60 + run % 2 ^ 32, 0]

section
variable (strict dbg spwn : Bool) (cobj pc : Nat) (frame : Word) (unit launch : Nat) (arg0 arg1 : Word)
  (lix rank run : Nat)

theorem newWords_lt :
    ∀ x ∈ newWords strict dbg spwn cobj pc frame unit launch arg0 arg1 lix rank run, x < 2 ^ 64 := by
  have h0 := newWord0_lt strict dbg spwn cobj pc
  have hf := frame.isLt
  have h3 := arg0.isLt
  have h4 := arg1.isLt
  simp only [newWords, List.forall_mem_cons, List.not_mem_nil, false_implies, implies_true, and_true]
  refine ⟨h0, hf, ?_, h3, h4, ?_, ?_, ?_⟩ <;> omega

theorem newRecord_eq_ofDigits : newRecord strict dbg spwn cobj pc frame unit launch 0 arg0 arg1 lix rank run =
    Nat.ofDigits (2 ^ 64) (newWords strict dbg spwn cobj pc frame unit launch arg0 arg1 lix rank run) := by
  have flag (b : Bool) (n : Nat) : (if b then 2 ^ n else 0) = b.toNat * 2 ^ n := by cases b <;> simp
  rw [newWords, ← eight_words_eq_ofDigits]
  unfold newRecord newWord0
  simp only [flag]
  rw [if_neg (not_not_intro rfl), Nat.zero_mod 32, Nat.zero_mul, Nat.add_zero, Nat.add_zero, Nat.add_zero]
  exact (Nat.add_zero _).symm

end

/-! ### The record of a SPAWN (06 R124) -/

section
variable {s t : State} {p : SpawnOp} {j : Job} {pa : Nat} (hj : s.job? p.job = some j)
include hj

theorem spawnRecordWrite_gives_wait (h : s.spawnReady p = false) :
    Gives (.spawnRecordWrite p) s (s.push (.spawnRecordWrite p)) := by
  refine (rfl : _ = execSpawnRecordWrite p s).trans ?_
  simp [execSpawnRecordWrite, hj, h]

/-- A SPAWN whose slot is found. -/
theorem spawnRecordWrite_gives (h : s.spawnReady p = true) (hk : s.recordKey j p.slotPtr 64 = (t, .ok pa)) :
    Gives (.spawnRecordWrite p) s (if t.recState pa ≠ 0 ∧ t.recState pa ≠ csRetired then
      t.endSpawn p (some (.bufRights, p.slotPtr, 0))
      else if (t.rec? pa).isSome then t.push (.spawnRecordWrite p) else t.writeSpawn p j pa) := by
  refine (rfl : _ = execSpawnRecordWrite p s).trans ?_
  simp [execSpawnRecordWrite, hj, h, hk]

end

/-- The record of a launch whose cancel is requested is written RETIRED, and the token posts. -/
theorem State.writeSpawn_cancelled {t : State} {p : SpawnOp} (j : Job) (pa : Nat) (h : t.creq p.launch = true) :
    t.writeSpawn p j pa =
      ((t.wrRec pa 0 8 (setBits (setBits (t.word pa 0) 63 60 csRetired) 59 56 4)).dropSpawn p).deliver
        ⟨p.core, p.recPa, p.post, [], none⟩ := by
  fun_cases State.writeSpawn t p j pa
  case case1 => rfl
  case case2 => exact absurd h ‹¬t.creq p.launch = true›
  case case3 => exact absurd h ‹¬t.creq p.launch = true›

/-- A spawned record stands in its slot, LIC in its frame, and the token posts. -/
def State.spawned (u : State) (p : SpawnOp) (k pa img : Nat) : State :=
  let w := ((u.wr k 8 (256 * (p.interval + 1))).wr pa 64 img).dropSpawn p
  ({ w with sched := { w.sched with recs := w.sched.recs ++
    [(⟨pa, p.slotPtr, p.job, p.launch, p.core / 24, w.tick, 256 * (p.interval + 1), [], [], false, false, false,
      [], []⟩ : Rec)] } } : State).deliver ⟨p.core, p.recPa, p.post, [], none⟩

theorem State.writeSpawn_live {t u : State} {p : SpawnOp} {j : Job} {pa k h x : Nat} {o : ObjInfo} {e : Entry}
    (hc : t.creq p.launch = false) (hu : u = t.setField p.launch 0 31 0 (t.fieldOf p.launch 0 31 0 + 1))
    (hk : u.resolve j needL (ptrAdd (BitVec.ofNat 64 (u.word pa 8)) 0x88) 8 = (u, .ok [(k, 8)]))
    (ho : j.objs.find? (fun q => decide (q.1 = p.cobj.toNat)) = some (h, x, o)) (he : o.entries[p.entry]? = some e) :
    t.writeSpawn p j pa = u.spawned p k pa (newRecord p.strict p.debug true p.cobj.toNat e.pc
      (BitVec.ofNat 64 (u.word pa 8)) p.unit p.launchIx.toNat 0 p.arg0 0 e.lix p.rank e.run) := by
  fun_cases State.writeSpawn t p j pa
  case case1 h => rw [hc] at h; cases h
  case case2 n _ s' frame w f hx =>
    have hx' : s'.resolve j needL (ptrAdd (BitVec.ofNat 64 (s'.word pa 8)) 0x88) 8 = (w, .error f) := hx
    rw [show s' = u from hu.symm, hk] at hx'
    cases hx'
  case case3 n _ s' frame w ks hx v o' e' a b =>
    have hs : s' = u := hu.symm
    have hx' : s'.resolve j needL (ptrAdd (BitVec.ofNat 64 (s'.word pa 8)) 0x88) 8 = (w, .ok ks) := hx
    rw [hs, hk] at hx'
    obtain ⟨rfl, hks⟩ := Prod.mk.inj hx'
    cases hks
    have he' : e' = e := by
      simp only [e', o', ho, Option.map_some, Option.getD_some, List.getD_eq_getElem?_getD, he]
    simp only [a, b, v, he', frame, hs]
    rfl

theorem State.spawned_mem (u : State) (p : SpawnOp) (k pa img : Nat) :
    (u.spawned p k pa img).mem = ((u.wr k 8 (256 * (p.interval + 1))).wr pa 64 img).mem := rfl

/-- What a spawned record holds, and what stands beside it. -/
theorem State.spawned_reads {u : State} (hwf : Memory.wf u.mem = true) (p : SpawnOp) {k pa : Nat}
    (hk : k + 8 ≤ pa ∨ pa + 64 ≤ k) {l : List Nat} (hl : ∀ x ∈ l, x < 2 ^ 64) :
    (∀ a, a + 8 ≤ pa ∨ pa + 64 ≤ a → a + 8 ≤ k ∨ k + 8 ≤ a →
      (u.spawned p k pa (Nat.ofDigits (2 ^ 64) l)).word a 0 = u.word a 0) ∧
    (u.spawned p k pa (Nat.ofDigits (2 ^ 64) l)).rd k 8 = 256 * (p.interval + 1) % 2 ^ 64 ∧
    ∀ i < 8, (u.spawned p k pa (Nat.ofDigits (2 ^ 64) l)).word pa (8 * i) = l.getD i 0 := by
  have hwf' := Memory.wf_wr (s := u) k 8 (256 * (p.interval + 1)) hwf
  have hmem := congrArg (·.cells) (u.spawned_mem p k pa (Nat.ofDigits (2 ^ 64) l))
  refine ⟨fun a ha hak => ?_, ?_, fun i hi => ?_⟩
  · rw [State.word_congr hmem]
    exact (State.word_wr_other hwf' (by omega)).trans (State.word_wr_other hwf (by omega))
  · rw [State.rd, hmem]
    exact (State.rd_wr_other hwf' hk).trans (State.rd_wr_same hwf)
  · rw [State.word_congr hmem]
    exact State.word_wr_words hwf' hl hi

/-- What a spawn adds to the agenda and to the live records. -/
theorem State.spawned_adds (u : State) (p : SpawnOp) (k pa img : Nat) :
    .tokenedOperationComplete ⟨p.core, p.recPa, p.post, [], none⟩ ∈ (u.spawned p k pa img).agenda ∧
    ∃ q ∈ (u.spawned p k pa img).sched.recs,
      q.pa = pa ∧ q.launch = p.launch ∧ q.cluster = p.core / 24 ∧ q.retired = false :=
  ⟨List.mem_append_right _ List.mem_cons_self, _, List.mem_append_right _ List.mem_cons_self, rfl, rfl, rfl, rfl⟩

theorem State.word_dropSpawn_deliver (s : State) (p : SpawnOp) (c : Completion) (pa off : Nat) :
    ((s.dropSpawn p).deliver c).word pa off = s.word pa off := State.word_congr rfl pa off

/-- A SPAWN into a launch that is to be cancelled. -/
theorem State.writeSpawn_cancelled_reads {t : State} {p : SpawnOp} (j : Job) (pa : Nat)
    (h : t.creq p.launch = true) (hwf : Memory.wf t.mem = true) :
    (t.writeSpawn p j pa).recState pa = csRetired ∧ (t.writeSpawn p j pa).fieldOf pa 0 59 56 = 4 ∧
    .tokenedOperationComplete ⟨p.core, p.recPa, p.post, [], none⟩ ∈ (t.writeSpawn p j pa).agenda := by
  rw [State.writeSpawn_cancelled j pa h]
  have hlt : setBits (setBits (t.word pa 0) 63 60 csRetired) 59 56 4 < 2 ^ 64 :=
    setBits_lt _ (by decide) (by decide) (setBits_lt _ (by decide) (by decide) (t.word_lt pa 0))
  refine ⟨?_, ?_, List.mem_append_right _ List.mem_cons_self⟩
  · rw [State.recState, State.fieldOf, State.word_dropSpawn_deliver, State.word_wrRec_same hwf hlt,
      bits_setBits_disjoint _ _ (by decide) (by decide), bits_setBits_same _ _ (by decide)]
    rfl
  · rw [State.fieldOf, State.word_dropSpawn_deliver, State.word_wrRec_same hwf hlt, bits_setBits_same _ _ (by decide)]
    rfl

theorem spawnWritesItsRecordOnce : SpawnWritesItsRecordOnce := by
  intro s t p j pa hj
  refine ⟨spawnRecordWrite_gives_wait hj, fun hr hk => ⟨fun h0 h5 => ?_, fun hst hrec => ?_⟩⟩
  · have gives := spawnRecordWrite_gives hj hr hk
    rwa [if_pos ⟨h0, h5⟩] at gives
  · have gives := spawnRecordWrite_gives hj hr hk
    rw [if_neg (by tauto), hrec, Option.isSome_none, if_neg Bool.false_ne_true] at gives
    refine ⟨gives, State.writeSpawn_cancelled_reads j pa, ?_⟩
    intro u k h x o e hc hwf hu hres hkpa hlpa hlk ho he
    have hwfu : Memory.wf u.mem = true := hu ▸ Memory.wf_setField p.launch 0 31 0 _ hwf
    have hframe : u.word pa 8 = t.word pa 8 := by
      rw [hu]
      exact State.word_setField_other hwf (by omega)
    rw [← hframe] at hres
    rw [State.writeSpawn_live hc hu hres ho he, newRecord_eq_ofDigits] at gives
    refine ⟨_, gives, ?_⟩
    obtain ⟨hother, hlic, hword⟩ := State.spawned_reads hwfu p hkpa (newWords_lt p.strict p.debug true p.cobj.toNat e.pc
      (BitVec.ofNat 64 (u.word pa 8)) p.unit p.launchIx.toNat p.arg0 0 e.lix p.rank e.run)
    have hadds := State.spawned_adds u p k pa (Nat.ofDigits (2 ^ 64) (newWords p.strict p.debug true p.cobj.toNat e.pc
      (BitVec.ofNat 64 (u.word pa 8)) p.unit p.launchIx.toNat p.arg0 0 e.lix p.rank e.run))
    generalize u.spawned p k pa _ = v at hother hlic hword hadds ⊢
    have h0 := hword 0 (by decide)
    have h1 := hword 1 (by decide)
    have h2 := hword 2 (by decide)
    have h3 := hword 3 (by decide)
    have h5 := hword 5 (by decide)
    have h6 := hword 6 (by decide)
    obtain ⟨hstate, hzero, hstrict, hdebug, hspwn, hcobj, hpc⟩ :=
      newWord0_fields p.strict p.debug true p.cobj.toNat e.pc
    simp only [newWords, List.getD_cons_zero, List.getD_cons_succ, Nat.mul_zero] at h0 h1 h2 h3 h5 h6
    obtain ⟨hunit, hlaunch, hseg, hgsize⟩ := newWord2_fields p.unit p.launchIx.toNat
    obtain ⟨hrank, hrun⟩ := newWord6_fields p.rank e.run
    have hcount : bits (v.word p.launch 0) 31 0 = (bits (t.word p.launch 0) 31 0 + 1) % 2 ^ 32 := by
      rw [hother _ hlpa hlk, hu]
      exact State.fieldOf_setField_same hwf (by decide) (by decide)
    unfold State.recState State.gsizeOf State.runOf State.fieldOf
    rw [h0, h2, h5, h6]
    refine ⟨hcount, hlic, hstate, hzero, hstrict, hdebug, hspwn, hcobj.trans (Nat.mod_eq_of_lt p.cobj.isLt), hpc, ?_,
      hunit, hlaunch.trans (Nat.mod_eq_of_lt p.launchIx.isLt), hseg, hgsize, h3, newWord5_lix _, hrank, hrun, hadds⟩
    rw [h1, hframe, BitVec.toNat_ofNat, Nat.mod_eq_of_lt (t.word_lt pa 8)]

theorem State.wrFrame_single (s : State) (j : Job) (frame : Word) (off n x at' : Nat) :
    s.wrFrame j frame [(off, n, x)] at' = s.wrPtr j needL (ptrAdd frame (at' + off)) n x := by
  rw [State.wrFrame, List.foldl_cons, List.foldl_nil]

/-! ### Completions off the core (05 R107; 14 R314) -/

section
variable {s t : State} {c : Completion} {r : Rec} {id d : Nat} {p : Posting} {j : Job} (hr : s.rec? c.recPa = some r)
  (hid : c.post = some id) (hp : r.posts.find? (fun q => decide (q.2.id = id)) = some (d, p))
include hr hid hp

/-- A posting whose turn has not come changes nothing. -/
theorem remoteCompletion_gives_wait (h : p.ready = false ∨ ∃ q, r.firstPost d p.tok = some q ∧ q.id ≠ id) :
    Gives (.remoteCompletion c) s s := by
  refine (rfl : _ = execRemoteCompletion c s).trans (congrArg Host.Outcome.next ?_)
  split
  next r' id' hr' hid' =>
    obtain rfl := Option.some.inj (hr.symm.trans hr')
    obtain rfl := Option.some.inj (hid.symm.trans hid')
    split
    next d' p' j' hp' _ =>
      cases hp.symm.trans hp'
      refine if_pos ?_
      obtain h | ⟨q, hq, hne⟩ := h
      · simp [h]
      · simp [hq, hne]
    next => rfl
  next => rfl

/-- The oldest posting of a token lands its result and posts in the frame. -/
theorem remoteCompletion_gives_post (hj : s.job? r.job = some j) (ht : p.tok < 32)
    (hready : p.ready = true) (hfirst : r.firstPost d p.tok = some p)
    {x : Nat} (hx : s.rdPtr j needL (ptrAdd (BitVec.ofNat 64 (s.word r.pa 8)) (areaAt d + (0x3340 + 16 * p.tok))) 16 =
      (t, .ok x)) {u : State} {q : Rec} {k : Token}
    (hk : k = p.act (Token.ofWords (BitVec.ofNat 64 x) (BitVec.ofNat 64 (x / 2 ^ 64))))
    (hu : t.landRemote j r d p (BitVec.ofNat 64 (s.word r.pa 8)) = (u, q)) :
    Gives (.remoteCompletion c) s ((u.wrPtr j needL
      (ptrAdd (BitVec.ofNat 64 (s.word r.pa 8)) (areaAt d + (0x3340 + 16 * p.tok))) 16
      (k.word0.toNat + k.word1.toNat * 2 ^ 64)).endRemote q d p) := by
  have hpid : p.id = id := by simpa using List.find?_some hp
  refine (rfl : _ = execRemoteCompletion c s).trans (congrArg Host.Outcome.next ?_)
  split
  next r' id' hr' hid' =>
    obtain rfl := Option.some.inj (hr.symm.trans hr')
    obtain rfl := Option.some.inj (hid.symm.trans hid')
    split
    next d' p' j' hp' hj' =>
      cases hp.symm.trans hp'
      obtain rfl := Option.some.inj (hj.symm.trans hj')
      refine (if_neg (by simp [hready, hfirst, hpid])).trans ((if_neg (by omega)).trans ?_)
      split
      next hx' => cases hx.symm.trans hx'
      next hx' =>
        cases hx.symm.trans hx'
        extract_lets k' v
        rw [show v = (u, q) from hu, show k' = k from hk.symm]
        exact congrArg (State.endRemote · q d p) (State.wrFrame_single ..)
    next hno => exact (hno _ _ _ hp hj).elim
  next hno => exact (hno _ _ hr hid).elim

end

theorem remoteCompletionsLandInTheFrame : RemoteCompletionsLandInTheFrame := by
  intro s t c r id d p j x hr hid hp hj ht frame at' off k
  exact ⟨remoteCompletion_gives_wait hr hid hp, fun hready hfirst himage hx u q hu =>
    remoteCompletion_gives_post hr hid hp hj ht hready hfirst hx (Posting.act_post himage _).symm hu⟩

end Sys2Proof.Machine

open Sys2Proof Sys2Proof.Machine Sys2Proof.Claims

/-- Settles O45: a spawn's writes are at separate places, so each is read back as it was written; a completion off its
core is its arm, taken in the order of the token's postings. -/
theorem spawnsAndRemoteCompletionsReachMemory : Obligations.SpawnsAndRemoteCompletionsReachMemory :=
  ⟨spawnWritesItsRecordOnce, remoteCompletionsLandInTheFrame⟩
end

section
/-!
# EXIT, SPAWN and SYNC (06 R123, R124, R126)
-/
namespace Sys2Proof.Machine

open Sys2Proof.Claims

/-! ### EXIT (06 R123) -/

theorem State.charge_only (s : State) (n : Nat) :
    s.charge n = { s with core := (s.charge n).core, parked := (s.charge n).parked } := by
  rw [State.charge_eq]
  split
  · rfl
  · exact s.mapCores_only _ _

theorem State.charge_members (s : State) (n : Nat) : (s.charge n).core.members = s.core.members := by
  rw [State.charge_eq]
  split
  · rfl
  · exact s.mapCores_members (Core.charged n) _ (fun _ => rfl) fun _ => rfl

theorem State.charge_core_id (s : State) (n : Nat) : (s.charge n).core.id = s.core.id := by
  rw [State.charge_eq]
  split
  · rfl
  · exact s.mapCores_core_id _ _

/-- The state after an EXIT, its other slots in effect. -/
def State.exited (s : State) (lic cause : Nat) : State := ((s.charge 1).raiseTo lic).beginDrain 1 cause

theorem State.coreOf_left (s : State) (k : Nat) : (s.left.coreOf k).phase = (s.coreOf k).phase ∧
    (s.left.coreOf k).cont = (s.coreOf k).cont := by
  unfold State.coreOf State.left State.setPipe
  split <;> exact ⟨rfl, rfl⟩

section
variable (s : State) (lic cause : Nat)

/-- Every member drains, and LIC has risen. -/
theorem State.exited_member {id : Nat} (h : id ∈ s.core.members) :
    ((s.exited lic cause).coreOf id).phase = .draining ∧ ((s.exited lic cause).coreOf id).cont.rstat = 1 ∧
    ((s.exited lic cause).coreOf id).cont.rcause = cause ∧ ((s.exited lic cause).coreOf id).cont.lic = raise lic := by
  have hc : id ∈ (s.charge 1).core.members := (s.charge_members 1).symm ▸ h
  have hr : id ∈ ((s.charge 1).raiseTo lic).core.members := by
    rwa [State.raiseTo_eq, State.mapCores_members _ (Core.raisedTo lic) _ (fun _ => rfl) fun _ => rfl]
  have hlic : (((s.charge 1).raiseTo lic).coreOf id).cont.lic = raise lic :=
    State.mapCores_gives (P := fun c => c.cont.lic = raise lic) _ (Core.raisedTo lic) _ (fun _ => rfl) (fun _ => rfl) hc
  unfold State.exited
  rw [State.beginDrain_eq]
  generalize (s.charge 1).raiseTo lic = t at hr hlic ⊢
  obtain ⟨hphase, hcont⟩ := State.coreOf_left ((t.mapCores (Core.drains 1 cause) t.core.members).push
    (.exitDrainComplete (t.mapCores (Core.drains 1 cause) t.core.members).core.id)) id
  obtain ⟨hdraining, hrstat, hrcause⟩ := State.mapCores_gives
    (P := fun c => c.phase = .draining ∧ c.cont.rstat = 1 ∧ c.cont.rcause = cause)
    t (Core.drains 1 cause) _ (fun _ => rfl) (fun _ => ⟨rfl, rfl, rfl⟩) hr
  have hkept := State.mapCores_keeps (P := fun c => c.cont.lic = raise lic)
    t (Core.drains 1 cause) t.core.members (fun _ => rfl) (fun _ h => h) hlic
  rw [hphase, hcont]
  exact ⟨hdraining, hrstat, hrcause, hkept⟩

/-- What else an EXIT leaves. -/
theorem State.exited_rest : (s.exited lic cause).core.pipe.status = .left ∧
    (s.exited lic cause).agenda = s.agenda ++ [.exitDrainComplete s.core.id] ∧
    (s.exited lic cause).mem = s.mem ∧ (s.exited lic cause).units = s.units ∧ (s.exited lic cause).sched = s.sched := by
  obtain ⟨t, ht⟩ : ∃ t, t = (s.charge 1).raiseTo lic := ⟨_, rfl⟩
  have hid : t.core.id = s.core.id := by
    rw [ht, State.raiseTo_eq, State.mapCores_core_id, State.charge_core_id]
  have hrest : (t.agenda, t.mem, t.units, t.sched) = (s.agenda, s.mem, s.units, s.sched) := by
    rw [ht, State.raiseTo_eq, State.mapCores_only, State.charge_only]
  obtain ⟨hagenda, hmem, hunits, hsched⟩ : t.agenda = s.agenda ∧ t.mem = s.mem ∧ t.units = s.units ∧
    t.sched = s.sched := by simpa only [Prod.mk.injEq] using hrest
  unfold State.exited
  rw [← ht, State.beginDrain_eq, State.mapCores_core_id, State.mapCores_only, ← hagenda, ← hmem, ← hunits, ← hsched,
    ← hid]
  exact ⟨rfl, rfl, rfl, rfl, rfl⟩

end

theorem exit_gives {s : State} {hd : Hdr} (h : Acts s hd {}) :
    Gives (.exit hd) s (s.finishLater.exited s.core.cont.lic (s.fieldOf s.core.cont.recPa 0x38 63 58)) :=
  (rfl : _ = execExit hd s).trans (State.guarded_on h.1 h.2)

/-! ### SPAWN (06 R124) -/

/-- What issuing a SPAWN adds. -/
theorem State.issueSpawn_adds (s : State) (hd : Hdr) (a b : BitVec 6) (t : BitVec 5) :
    ∃ op : SpawnOp, (s.issueSpawn hd a b t).agenda = s.agenda ++ [.spawnRecordWrite op] ∧
      op.slotPtr = s.s! a ∧ op.arg0 = s.s! b ∧ op.entry = bits hd.imm 15 0 ∧ op.rank = bits hd.imm 19 16 ∧
      op.unit = bits hd.imm 39 20 ∧ op.launch = s.core.cont.launch ∧ op.interval = s.core.cont.lic / 256 ∧
      op.post = some s.nextId ∧
      (∃ p ∈ (s.issueSpawn hd a b t).core.pipe.posts, p.id = s.nextId ∧ p.tok = s.core.tIx t.toNat) ∧
      (s.issueSpawn hd a b t).mem = s.mem ∧ (s.issueSpawn hd a b t).core.regs = s.core.regs :=
  ⟨_, rfl, rfl, rfl, rfl, rfl, rfl, rfl, rfl, rfl,
    ⟨_, List.mem_append_right s.core.pipe.posts List.mem_cons_self, rfl, rfl⟩, rfl, rfl⟩

theorem spawn_gives {s : State} {hd : Hdr} {a b : BitVec 6} {t : BitVec 5} {j : Job} {x : Place}
    (hh : s.core.cont.handler = false) (hentry : bits hd.imm 15 0 < s.core.cont.obj.entries.length)
    (hroom : s.postRoom t.toNat = true) (h : Acts s hd { s := [a, b] }) (hj : s.job! = some j)
    (hcheck : s.check j s.core.cont.obj.osize needL true (ptrIx (s.s! a)) (ptrOff (s.s! a)) 64 = .ok x)
    (halign : ptrOff (s.s! a) % 64 = 0) : Gives (.spawn hd a b t) s (s.issueSpawn hd a b t) := by
  refine (rfl : _ = execSpawn hd a b t s).trans ?_
  unfold execSpawn
  simp only [hh, Bool.false_eq_true, if_false, Bool.false_and, hroom, Bool.not_true, h.1, if_neg (not_le.mpr hentry)]
  rw [State.guarded_on h.1 h.2, hj]
  dsimp only
  rw [hcheck]
  dsimp only
  rw [if_neg (not_not_intro halign)]

/-! ### SYNC (06 R126; 12 R278) -/

theorem sync_gives {s : State} {hd : Hdr} (h : Acts s hd {}) :
    Gives (.sync hd) s (if s.core.cont.gsize = 0 then s.raiseLic
      else match s.core.pipe.reply.find? fun r => decide (r.1 = syncKey) with
        | some (_, some _) => s.raiseLic
        | _ => (if s.agenda.contains (.gangSyncRelease (s.core.cont.gang.headD s.core.id)) then
            ({ s with core := { s.core with phase := .sync } } : State)
          else ({ s with core := { s.core with phase := .sync } } : State).push
            (.gangSyncRelease (s.core.cont.gang.headD s.core.id))).stall) :=
  (rfl : _ = execSync hd s).trans (State.guarded_on h.1 h.2)

/-- A member of a gang that is to wait does so in its segment. -/
theorem State.stall_in_segment (s : State) (e : Event) {t : State}
    (ht : t = (if s.agenda.contains e then ({ s with core := { s.core with phase := .sync } } : State)
      else ({ s with core := { s.core with phase := .sync } } : State).push e).stall) :
    t.core.phase = .sync ∧ t.core.pipe.status = .stalled ∧ e ∈ t.agenda := by
  subst ht
  split
  next h => exact ⟨rfl, rfl, List.contains_iff_mem.mp h⟩
  next => exact ⟨rfl, rfl, List.mem_append_right _ List.mem_cons_self⟩

/-- A member whose gang is released runs on. -/
def Core.released (c : Core) : Core :=
  { c with phase := .running, pipe := { c.pipe with reply := (syncKey, some []) :: c.pipe.reply } }

theorem gangSyncRelease_gives (s : State) (core : Nat) :
    Gives (.gangSyncRelease core) s (if (s.coreOf core).phase ≠ .sync then s
      else s.mapCores Core.released (s.coreOf core).members) :=
  (rfl : _ = execGangSyncRelease core s)

theorem exitSpawnAndSyncBeginTheirWait : ExitSpawnAndSyncBeginTheirWait := by
  refine ⟨fun s hd _ _ ha => ?_, fun s hd a b t j x hh hentry hroom ha hj hcheck halign => ?_, fun s hd ha => ?_,
    fun s core => ?_⟩
  · refine ⟨_, exit_gives ha, fun id hid => State.exited_member s.finishLater _ _ hid, ?_⟩
    exact State.exited_rest s.finishLater _ _
  · obtain ⟨op, hop⟩ := s.issueSpawn_adds hd a b t
    exact ⟨_, op, spawn_gives hh hentry hroom ha hj hcheck halign, hop⟩
  · have gives := sync_gives ha
    refine ⟨fun hg => ?_, fun hg hr => ?_, fun k ws hg hr => ?_⟩
    · rwa [if_pos hg] at gives
    · rw [if_neg hg, hr] at gives
      exact ⟨_, gives, State.stall_in_segment s _ rfl⟩
    · rwa [if_neg hg, hr] at gives
  · have gives := gangSyncRelease_gives s core
    refine ⟨fun h => ?_, fun h => ?_⟩
    · rwa [if_pos h] at gives
    · rw [if_neg (not_not_intro h)] at gives
      refine ⟨_, gives, by rw [State.mapCores_only], fun id hid => ?_⟩
      exact State.mapCores_gives (P := fun c => c.phase = .running ∧
        c.pipe.reply.find? (fun r => decide (r.1 = syncKey)) = some (syncKey, some []))
        s Core.released _ (fun _ => rfl) (fun _ => ⟨rfl, rfl⟩) hid

end Sys2Proof.Machine
end

section
/-!
# Yields (03 R62, R63, R66, R67; 06 R120 to R122; 14 R312, R313)
-/
namespace Sys2Proof.Machine

open Sys2Proof.Claims

/-! ### What a switch leaves of the core -/

theorem Core.Lands.seat {c d : Core} (h : c.Lands d) : d.seat = c.seat := by
  rw [h]
  rfl

theorem Core.complete_seat (c : Core) (d : Completion) : (c.complete d).seat = c.seat := by
  unfold Core.complete
  split
  · rfl
  · split <;> rfl

theorem Core.settle_seat (c : Core) (tick : Nat) (r : Soft) : (c.settle tick r).seat = c.seat := rfl

theorem Core.settleAll_seat (c : Core) (tick : Nat) (p : Soft → Bool) : (c.settleAll tick p).seat = c.seat := by
  unfold Core.settleAll
  exact (foldl_keeps (g := Core.seat) (fun d r => Core.settle_seat d tick r) _ _).trans rfl

theorem State.sameSeat_drainXq (s : State) (id : Nat) : s.SameSeat (s.drainXq id) := by
  unfold State.drainXq
  dsimp only
  have hset : s.SameSeat (s.setCore { s.coreOf id with pipe := { (s.coreOf id).pipe with xq := [] } }) :=
    .setCore (id := id) rfl
  refine hset.trans (.foldl (fun t e => ?_) _ _)
  have hfailed (v : State) : v.SameSeat (if e.seq = 0 then v else v.storeFailed (1216 + id / 24) e.seq) := by
    split
    · exact .refl v
    · exact .of_core (State.storeFailed_core ..)
  split
  · exact hfailed t
  · exact ((hfailed t).trans (State.sameSeat_faultRecord ..)).trans (.setCore (id := id) (Core.complete_seat ..))

/-- A free continuation settles on its one core. -/
theorem State.sameSeat_quiesce {s : State} (hg : s.core.cont.gsize = 0) : s.SameSeat s.quiesce := by
  unfold State.quiesce
  rw [Core.members_free hg, List.foldl_cons, List.foldl_nil]
  have hdrain := s.sameSeat_drainXq s.core.id
  generalize s.drainXq s.core.id = t at hdrain ⊢
  have hland : t.SameSeat (t.setCore (((t.coreOf s.core.id).landAll t.tick).settleAll t.tick fun _ => true)) :=
    .setCore (id := s.core.id) ((Core.settleAll_seat ..).trans (Core.landAll_lands ..).seat)
  dsimp only
  generalize t.setCore _ = u at hland ⊢
  have hu := hdrain.trans hland
  have hmark := hu.trans u.sameSeat_leaveMarker
  unfold State.onCore
  rw [← hu.id, State.focus_self, ← (State.sameSeat_leaveMarker u).id, State.focus_self]
  exact hmark

theorem State.sameSeat_wrFrame (s : State) (j : Job) (frame : Word) (ws : List (Nat × Nat × Nat)) (at' : Nat) :
    s.SameSeat (s.wrFrame j frame ws at') :=
  .foldl (fun t _ => (t.wrPtr_memUnits ..).sameSeat) ws s

theorem State.sameSeat_saveFrame (s : State) (lix : Nat) : s.SameSeat (s.saveFrame lix) := by
  unfold State.saveFrame
  dsimp only
  split
  · exact .refl s
  · exact (s.sameSeat_wrFrame ..).trans (.foldl (fun t _ => t.sameSeat_wrFrame ..) _ _)

/-! ### The record that a switch writes (01 R20; 14 R313) -/

/-- A word of a record that is written whole, word by word. -/
theorem State.word_wrRec_words {s : State} {pa : Nat} (hwf : Memory.wf s.mem = true) {l : List Nat}
    (hl : ∀ x ∈ l, x < 2 ^ 64) {i : Nat} (hi : i < 8) :
    (s.wrRec pa 0 64 (Nat.ofDigits (2 ^ 64) l)).word pa (8 * i) = l.getD i 0 := by
  rw [← State.word_wr_words hwf hl hi]
  exact State.word_congr (by rw [State.wrRec_cells, State.wr_cells, Nat.add_zero]) pa (8 * i)

/-- The words of the record of a switch. -/
def State.recordWords (s : State) (st pc run lix yix : Nat) : List Nat :=
  let pa := s.core.cont.recPa
  let pin := s.core.members.any fun id => decide (0 < (s.coreOf id).cont.openk)
  let openk := (s.core.members.map fun id => (s.coreOf id).cont.openk).sum
  [setBits (setBits (setBits (s.word pa 0) 63 60 st) 55 55 pin.toNat) 31 0 pc, s.word pa 8,
    setBits (s.word pa 0x10) 15 5 s.core.id, s.word pa 0x18, s.word pa 0x20,
    setBits (setBits (setBits (s.word pa 0x28) 63 32 0) 31 16 lix) 15 0 yix,
    setBits (setBits (setBits (s.word pa 0x30) 47 40 s.core.regs.rasn.toNat) 39 32 (min 16 openk)) 31 0 run,
    s.word pa 0x38]

section
variable (s : State) (st pc run lix yix : Nat)

theorem State.recordImage_eq_ofDigits :
    s.recordImage st pc run lix yix = Nat.ofDigits (2 ^ 64) (s.recordWords st pc run lix yix) := by
  unfold State.recordImage State.recordWords
  exact eight_words_eq_ofDigits ..

theorem State.recordWords_lt : ∀ x ∈ s.recordWords st pc run lix yix, x < 2 ^ 64 := by
  have hset {x : Nat} (v : Nat) {hi lo : Nat} (h : lo ≤ hi ∧ hi < 64) (hx : x < 2 ^ 64) : setBits x hi lo v < 2 ^ 64 :=
    setBits_lt v h.1 h.2 hx
  have hw := s.word_lt s.core.cont.recPa
  simp only [State.recordWords, List.forall_mem_cons, List.not_mem_nil, false_implies, implies_true, and_true]
  exact ⟨hset _ (by decide) (hset _ (by decide) (hset _ (by decide) (hw 0))), hw 8, hset _ (by decide) (hw 0x10),
    hw 0x18, hw 0x20, hset _ (by decide) (hset _ (by decide) (hset _ (by decide) (hw 0x28))),
    hset _ (by decide) (hset _ (by decide) (hset _ (by decide) (hw 0x30))), hw 0x38⟩

/-- STATE, PC and RUN of the record of a switch. -/
theorem State.wrRecord_fields (hwf : Memory.wf s.mem = true) {t : State}
    (ht : t.mem.cells = (s.wrRecord (s.recordImage st pc run lix yix)).mem.cells) :
    t.fieldOf s.core.cont.recPa 0 63 60 = st % 2 ^ 4 ∧ t.fieldOf s.core.cont.recPa 0 31 0 = pc % 2 ^ 32 ∧
    t.fieldOf s.core.cont.recPa 0x30 31 0 = run % 2 ^ 32 := by
  have hwords {i : Nat} (hi : i < 8) :
      t.word s.core.cont.recPa (8 * i) = (s.recordWords st pc run lix yix).getD i 0 := by
    rw [State.word_congr ht, State.wrRecord, State.recordImage_eq_ofDigits]
    exact State.word_wrRec_words hwf (s.recordWords_lt st pc run lix yix) hi
  have h0 := hwords (i := 0) (by decide)
  have h6 := hwords (i := 6) (by decide)
  simp only [State.recordWords, List.getD_cons_zero, List.getD_cons_succ, Nat.mul_zero] at h0 h6
  refine ⟨?_, ?_, ?_⟩
  · rw [State.fieldOf, h0, bits_setBits_disjoint _ _ (by decide) (by decide),
      bits_setBits_disjoint _ _ (by decide) (by decide), bits_setBits_same _ _ (by decide)]
  · rw [State.fieldOf, h0, bits_setBits_same _ _ (by decide)]
  · rw [State.fieldOf, h6, bits_setBits_same _ _ (by decide)]

end

/-! ### A switch (14 R313) -/

theorem State.park_core (s : State) : s.park.core = s.core := by
  unfold State.park
  dsimp only
  split <;> rfl

/-- A core that its continuation has left. -/
def Core.vacated (c : Core) : Core :=
  { c with
    phase := .idle
    cont := { c.cont with handler := false, openk := 0, prq := false }
    pipe := c.pipe.clear
    regs := { c.regs with marks := [] }
    sys := { c.sys with armed := none } }

theorem State.vacate_eq (s : State) : s.vacate = s.mapCores Core.vacated s.core.members := rfl

/-- A free continuation that gives its core up: its record is READY with the PC and the run that it states, and
its core idle. -/
theorem State.switchOut_free {s : State} (hwf : Memory.wf s.mem = true) (hg : s.core.cont.gsize = 0)
    (st pc run lix : Nat) {t : State} (ht : t = s.switchOut st pc run lix 0) :
    t.fieldOf s.core.cont.recPa 0 63 60 = st % 2 ^ 4 ∧ t.fieldOf s.core.cont.recPa 0 31 0 = pc % 2 ^ 32 ∧
    t.fieldOf s.core.cont.recPa 0x30 31 0 = run % 2 ^ 32 ∧ t.core.phase = .idle := by
  obtain ⟨u, hu⟩ : ∃ u, u = s.quiesce.saveFrame lix := ⟨_, rfl⟩
  have hwfu : Memory.wf u.mem = true := hu ▸ Memory.wf_saveFrame lix (Memory.wf_quiesce hwf)
  have hseat : s.SameSeat u := hu ▸ (State.sameSeat_quiesce hg).trans (State.sameSeat_saveFrame ..)
  obtain ⟨v, hv⟩ : ∃ v, v = u.wrRecord (u.recordImage st pc run lix u.core.cont.yix) := ⟨_, rfl⟩
  have ht' : t = v.park.vacate.left := by
    rw [ht, State.switchOut, ← hu, Nat.zero_mul, Nat.add_zero, ← hv]
  have hcells : t.mem.cells = v.mem.cells := by rw [ht', State.left_mem, State.vacate_mem, State.park_mem]
  obtain ⟨hstate, hpc, hrun⟩ := u.wrRecord_fields st pc run lix u.core.cont.yix hwfu (hcells.trans (hv ▸ rfl))
  rw [hseat.recPa] at hstate hpc hrun
  refine ⟨hstate, hpc, hrun, ?_⟩
  have hgv : v.park.core.cont.gsize = 0 := by
    rw [State.park_core, hv, State.wrRecord, State.wrRec_core, hseat.gsize, hg]
  rw [ht', State.vacate_eq, State.mapCores_free (f := Core.vacated) (fun _ => rfl) hgv]
  rfl

/-! ### The point of a yield (06 R120; 12 R275) -/

/-- A core whose LIC is to rise with the cycle of its bundle. -/
def Core.lifted (c : Core) : Core :=
  { c with cont := { c.cont with rise := if c.cont.handler then 0 else raise c.cont.lic } }

/-- A core whose continuation has recorded a yield. -/
def Core.yields (y : BitVec 16) (e : Yield) (c : Core) : Core :=
  { c with cont := { c.cont with yix := y.toNat, lix := e.lix } }

/-- A free continuation's yield changes its one core. -/
theorem State.yieldPoint_free {s : State} (y : BitVec 16) (e : Yield) (hh : s.core.cont.handler = false)
    (hg : s.core.cont.gsize = 0) : s.yieldPoint y e =
      { s with core := ((s.core.finishLater.lifted).charged 1).yields y e } := by
  have hraise : s.finishLater.raiseLic = { s with core := s.core.finishLater.lifted } :=
    State.mapCores_free (f := Core.lifted) (fun _ => rfl) (s := s.finishLater) hg
  have hcharge : ({ s with core := s.core.finishLater.lifted } : State).charge 1 =
      { s with core := (s.core.finishLater.lifted).charged 1 } := by
    rw [State.charge_eq, if_neg (by simp [Core.lifted, Core.finishLater, Core.flush, hh])]
    exact State.mapCores_free (f := Core.charged 1) (fun _ => rfl) hg
  unfold State.yieldPoint State.afterSlots
  rw [hraise, hcharge]
  exact State.mapCores_free (f := Core.yields y e) (fun _ => rfl) hg

theorem State.yieldPoint_records {s : State} (y : BitVec 16) (e : Yield) (hh : s.core.cont.handler = false)
    (hg : s.core.cont.gsize = 0) :
    (s.yieldPoint y e).core.cont.yix = y.toNat ∧ (s.yieldPoint y e).core.cont.lix = e.lix ∧
    (s.yieldPoint y e).core.cont.lic = (s.core.cont.lic / 256 + 1) * 256 ∧
    (s.yieldPoint y e).core.pipe.land = s.core.pipe.land ++ s.core.pipe.fresh ∧ (s.yieldPoint y e).mem = s.mem := by
  rw [State.yieldPoint_free y e hh hg]
  refine ⟨rfl, rfl, ?_, rfl, rfl⟩
  have hrise : max (s.core.cont.lic + 1) (if s.core.cont.handler then 0 else raise s.core.cont.lic) =
      (s.core.cont.lic / 256 + 1) * 256 := by
    rw [hh, if_neg Bool.false_ne_true, raise]
    omega
  exact hrise

/-! ### What comes of a yield (03 R62 to R67) -/

section
variable {u : State} {run lix : Nat} (hret : ∀ id ∈ u.core.members, id ∉ u.sched.retire)
include hret

theorem State.no_retired_member : u.core.members.any u.sched.retire.contains = false := by
  rw [List.any_eq_false]
  exact fun id h => by simpa using hret id h

/-- No member's core is to be retired, so no link is lost. -/
theorem State.loseLinks_of_kept : u.loseLinks (u.core.members.filter u.sched.retire.contains) = u := by
  rw [List.filter_eq_nil_iff.mpr fun id h => by simpa using hret id h]
  rfl

/-- A pinned continuation keeps its core, and so does one whose run its slice covers with no other READY. -/
theorem State.onYield_keeps
    (h : u.pinned = true ∨ ((run : Int) ≤ max 0 u.core.acct ∧ u.candidates (u.core.id / 24) = [])) :
    u.onYield run lix = u.keep run := by
  unfold State.onYield
  rw [State.loseLinks_of_kept hret]
  extract_lets s c cl me rem cands rank gangHead must slice
  by_cases hp : u.pinned = true
  · exact if_pos hp
  · obtain ⟨hrun, hcands⟩ := h.resolve_left hp
    refine (if_neg hp).trans (if_pos ?_)
    have hmust : must = false := State.no_retired_member hret
    have hhead : gangHead = false := by
      simp only [gangHead, State.drainsFor, cl, s, c, hcands, Option.any_none]
    simp only [hmust, hhead, cands, rem, c, s, cl, hcands, hrun, List.any_nil, Bool.not_false, decide_true,
      Bool.and_self]

variable (hp : u.pinned = false)
include hp

/-- A gang of at least its rank heads the order and lacks cores. -/
theorem State.onYield_for_gang {h : Rec} (hd : u.drainsFor (u.core.id / 24) = some h)
    (hr : u.effRank u.core.cont.recPa ≤ u.effRank h.pa) :
    u.onYield run lix = u.switchOut csReady u.core.pipe.npc.toNat run lix 0 := by
  unfold State.onYield
  rw [State.loseLinks_of_kept hret]
  extract_lets s c cl me rem cands rank gangHead must slice
  have hhead : gangHead = true := by
    simp only [gangHead, s, cl, c, hd, Option.any_some, rank, me, hr, decide_true]
  refine (if_neg (by simp [s, hp])).trans ((if_neg (by simp [hhead])).trans ?_)
  exact if_pos (by simp [hhead])

/-- A free continuation gives its core to the first free record that fits the slice. -/
theorem State.onYield_to {r : Rec} (hg : u.core.cont.gsize = 0) (hd : u.drainsFor (u.core.id / 24) = none)
    (hr : ((u.candidates (u.core.id / 24)).filter fun r => r.free && decide (u.gsizeOf r.pa = 0)).find?
      (fun r => decide ((u.runOf r.pa : Int) ≤ max 0 u.core.acct)) = some r)
    (hgo : max 0 u.core.acct < run ∨ ((∃ q ∈ u.candidates (u.core.id / 24),
      u.effRank u.core.cont.recPa < u.effRank q.pa) ∧ u.aheadOf r = false)) :
    u.onYield run lix = ((u.switchOut csReady u.core.pipe.npc.toNat run lix 0).dispatchOn r [u.core.id]).left := by
  have hother : (decide ((run : Int) ≤ max 0 u.core.acct) && u.aheadOf r) = false := by
    obtain h | ⟨_, h⟩ := hgo
    · simp [not_le.mpr h]
    · simp [h]
  unfold State.onYield
  rw [State.loseLinks_of_kept hret]
  extract_lets s c cl me rem cands rank gangHead must slice go stay _ _ _ others pick act
  have hhead : gangHead = false := by
    simp only [gangHead, s, cl, c, hd, Option.any_none]
  have hmust : must = false := State.no_retired_member hret
  have hstay : ¬ (!must && decide ((run : Int) ≤ rem) && !gangHead &&
      !(cands.any fun r => decide (rank < s.effRank r.pa))) = true := by
    obtain h | ⟨⟨q, hq, hlt⟩, _⟩ := hgo
    · rw [decide_eq_false (not_le.mpr h), Bool.and_false, Bool.false_and, Bool.false_and]
      exact Bool.false_ne_true
    · rw [List.any_eq_true.mpr ⟨q, hq, decide_eq_true hlt⟩, Bool.not_true, Bool.and_false]
      exact Bool.false_ne_true
  refine (if_neg (by simp [s, hp])).trans ((if_neg hstay).trans ?_)
  refine (if_neg (by simp [hhead, hmust])).trans ((if_neg (not_not_intro hg)).trans ?_)
  have hpick : pick (fun n => decide ((n : Int) ≤ rem)) = some (some r) := by
    have hfind : others.find? (fun r => decide ((s.runOf r.pa : Int) ≤ rem)) = some r := hr
    simp only [pick, hfind]
    exact if_neg (ne_true_of_eq_false hother)
  rw [hpick]

end

/-! ### The slots of a yield (06 R120 to R122) -/

section
variable {s : State} {hd : Hdr} {y : BitVec 16}

theorem yield_gives_illegal (hh : s.core.cont.handler = true) (ha : Acts s hd {}) :
    Gives (.yield hd y) s s.illegal ∧ Gives (.susp hd y) s s.illegal :=
  ⟨(rfl : _ = execYield hd y s).trans ((if_pos hh).trans (State.guarded_on ha.1 ha.2)),
    (rfl : _ = execSusp hd y s).trans ((if_pos hh).trans (State.guarded_on ha.1 ha.2))⟩

section
variable {e : Yield} (hh : s.core.cont.handler = false) (ha : Acts s hd {})
  (he : s.core.cont.obj.yields[y.toNat]? = some e) (hoff : e.off = s.core.pipe.pc.toNat)

include he hoff in
theorem State.yieldEntry_eq : s.yieldEntry y = some e := by
  unfold State.yieldEntry
  rw [he]
  exact if_pos hoff

include hh ha he hoff

theorem yield_gives (hprq : (s.yieldPoint y e).core.cont.prq = false) :
    Gives (.yield hd y) s ((s.yieldPoint y e).onYield e.run e.lix) := by
  refine (rfl : _ = execYield hd y s).trans ?_
  unfold execYield
  rw [if_neg (by simp [hh]), State.yieldEntry_eq he hoff]
  refine (State.guarded_on ha.1 ha.2).trans (congrArg _ (if_neg ?_))
  simp [hprq]

theorem susp_gives (hp : (s.yieldPoint y e).pinned = false) :
    Gives (.susp hd y) s
      ((s.yieldPoint y e).switchOut csReady (s.yieldPoint y e).core.pipe.npc.toNat e.run e.lix 0) := by
  refine (rfl : _ = execSusp hd y s).trans ?_
  unfold execSusp
  rw [if_neg (by simp [hh]), State.yieldEntry_eq he hoff]
  refine (State.guarded_on ha.1 ha.2).trans (congrArg _ (if_neg ?_))
  simp [hp]

end

theorem dly_gives {n : BitVec 16} (hn : n ≠ 0) (ha : Acts s hd {}) : Gives (.dly hd n) s
    (if !s.core.cont.handler && decide (s.core.cont.run ≤ s.core.cont.stretch + n.toNat) then s.overrun
      else s.setPipe { s.core.pipe with extra := n.toNat }) :=
  (rfl : _ = execDly hd n s).trans ((if_neg hn).trans (State.guarded_on ha.1 ha.2))

end

theorem yieldsKeepOrGiveUpTheCore : YieldsKeepOrGiveUpTheCore := by
  refine ⟨fun s u hd y e hh ha he hoff hu hprq => ?_, fun s y e hh hg => State.yieldPoint_records y e hh hg,
    fun s hd y hh ha => yield_gives_illegal hh ha, fun s hd n hn ha => ?_⟩
  · subst hu
    have gives := yield_gives hh ha he hoff hprq
    refine ⟨fun hret h => ?_, susp_gives hh ha he hoff, fun hret hp hg => ⟨fun h hd hr => ?_, fun r hd hr hgo => ?_,
      fun hwf => ?_⟩⟩
    · rwa [State.onYield_keeps hret h] at gives
    · rwa [State.onYield_for_gang hret hp hd hr] at gives
    · rwa [State.onYield_to hret hp hg hd hr hgo] at gives
    · obtain ⟨hstate, hpc, hrun, hidle⟩ := State.switchOut_free hwf hg csReady
        (s.yieldPoint y e).core.pipe.npc.toNat e.run e.lix rfl
      exact ⟨hstate, hpc.trans (Nat.mod_eq_of_lt (s.yieldPoint y e).core.pipe.npc.isLt), hrun, hidle⟩
  · have gives := dly_gives hn ha
    refine ⟨fun h => ?_, fun hh hrun => ?_⟩
    · rwa [if_neg] at gives
      obtain h | h := h
      · simp [h]
      · simp [h]
    · rwa [if_pos (by simp [hh, hrun])] at gives

end Sys2Proof.Machine

open Sys2Proof Sys2Proof.Machine Sys2Proof.Claims

/-- Settles O29: a yield, an EXIT and a release change every member by one function of its core; a switch writes the
record whole, so its fields are read back, and the parts of a switch leave the seat of the core. -/
theorem yieldsExitsSpawnsAndSyncsHaveTheirEffect : Obligations.YieldsExitsSpawnsAndSyncsHaveTheirEffect :=
  ⟨yieldsKeepOrGiveUpTheCore, exitSpawnAndSyncBeginTheirWait⟩
end

section
/-!
# Vector results, element by element (05 R98; 07 R144)

A register is packed from its elements, so each element of a result reads back as it was computed, and the flags
of a result are those of the elements written.
-/
namespace Sys2Proof.Machine

open Sys2Proof.Claims

/-! ### Packed elements (05 R98) -/

theorem pack_eq_ofDigits (w : Nat) (xs : List Nat) : pack w xs = Nat.ofDigits (2 ^ w) (xs.map (· % 2 ^ w)) := by
  induction xs with
  | nil => rfl
  | cons x xs ih => rw [pack, List.map_cons, Nat.ofDigits_cons, ih]

theorem pack_digit (w : Nat) (xs : List Nat) (e : Nat) : pack w xs / 2 ^ (w * e) % 2 ^ w = xs.getD e 0 % 2 ^ w := by
  have hlt : ∀ x ∈ xs.map (· % 2 ^ w), x < 2 ^ w := by
    simp only [List.mem_map]
    rintro _ ⟨x, -, rfl⟩
    exact Nat.mod_lt x (Nat.two_pow_pos w)
  rw [pack_eq_ofDigits, pow_mul, ofDigits_div_pow_mod hlt e, List.getD_eq_getElem?_getD, List.getD_eq_getElem?_getD,
    List.getElem?_map]
  cases xs[e]? <;> simp

theorem testBit_pack (xs : List Nat) {w : Nat} (hw : 0 < w) (n : Nat) :
    (pack w xs).testBit n = (xs.getD (n / w) 0).testBit (n % w) := by
  have h := congrArg (Nat.testBit · (n % w)) (pack_digit w xs (n / w))
  simpa [Nat.testBit_mod_two_pow, Nat.testBit_div_two_pow, Nat.mod_lt n hw, Nat.div_add_mod, Nat.mod_add_div] using h

theorem elem_lt (v : VReg) (w e : Nat) : elem v w e < 2 ^ w := Nat.mod_lt _ (Nat.two_pow_pos w)

/-- What holds of every word of w bits holds of every number below 2^w. -/
theorem forall_toNat {w : Nat} {P : Nat → Prop} (h : ∀ x : BitVec w, P x.toNat) : ∀ x < 2 ^ w, P x :=
  fun x hx => BitVec.toNat_ofNatLT x hx ▸ h (BitVec.ofNatLT x hx)

theorem sint_toNat {w : Nat} (x : BitVec w) : sint w x.toNat = x.toInt := by
  rw [sint_eq_toInt, BitVec.ofNat_toNat, BitVec.setWidth_eq]

theorem elem_end {w e : Nat} (he : e < 2048 / w) : w * e + w ≤ 2048 := by
  have := Nat.mul_le_of_le_div _ _ _ (Nat.succ_le_of_lt he)
  rwa [Nat.mul_comm, Nat.mul_succ] at this

theorem mod_two_pow_digit (x : Nat) {n k w : Nat} (h : k + w ≤ n) :
    x % 2 ^ n / 2 ^ k % 2 ^ w = x / 2 ^ k % 2 ^ w := by
  obtain ⟨c, rfl⟩ := Nat.exists_eq_add_of_le h
  rw [Nat.add_assoc, pow_add 2 k, Nat.mod_mul_right_div_self,
    Nat.mod_mod_of_dvd _ (Nat.pow_dvd_pow 2 (Nat.le_add_right w c))]

theorem toNat_ofNat_digit (x : Nat) {n k w : Nat} (h : k + w ≤ n) :
    (BitVec.ofNat n x).toNat / 2 ^ k % 2 ^ w = x / 2 ^ k % 2 ^ w := by
  rw [BitVec.toNat_ofNat, mod_two_pow_digit x h]

/-- An element of a number that is cut to a register. -/
theorem elem_ofNat (x : Nat) {w e : Nat} (he : e < 2048 / w) :
    elem (BitVec.ofNat 2048 x) w e = x / 2 ^ (w * e) % 2 ^ w := toNat_ofNat_digit x (elem_end he)

theorem elem_vreg (xs : List Nat) {w e : Nat} (he : e < 2048 / w) : elem (vreg w xs) w e = xs.getD e 0 % 2 ^ w := by
  rw [vreg, elem_ofNat _ he, pack_digit]

theorem getD_map_range (f : Nat → Nat) {e n : Nat} (he : e < n) : ((List.range n).map f).getD e 0 = f e := by
  simp [List.getD_eq_getElem?_getD, he]

theorem elem_vreg_map (f : Nat → Nat) {w e : Nat} (he : e < 2048 / w) :
    elem (vreg w ((List.range (2048 / w)).map f)) w e = f e % 2 ^ w := by
  rw [elem_vreg _ he, getD_map_range f he]

/-! ### The mask and the flags of a result (07 R144) -/

/-- The mask of one element: all ones where it is selected. -/
theorem ones_mod (c : Bool) (w : Nat) :
    (if c = true then 2 ^ w - 1 else 0) % 2 ^ w = if c = true then 2 ^ w - 1 else 0 := by
  have := Nat.two_pow_pos w
  cases c
  · exact Nat.zero_mod _
  · exact Nat.mod_eq_of_lt (by rw [if_pos rfl]; omega)

/-- A selection is what it selects among the elements of the register. -/
theorem elements_congr_sel {w : Nat} {mask val : VReg} {p q : Nat → Bool} {f : Nat → Nat}
    (h : Elements w mask val p f) (hpq : ∀ e < 2048 / w, p e = q e) : Elements w mask val q f :=
  fun e he => hpq e he ▸ h e he

/-- A packed result whose mask selects elements whole. -/
theorem elements_vreg {w : Nat} {p : Nat → Bool} {x y f : Nat → Nat}
    (hx : ∀ e < 2048 / w, x e = if p e = true then 2 ^ w - 1 else 0)
    (hy : ∀ e < 2048 / w, p e = true → y e % 2 ^ w = f e % 2 ^ w) :
    Elements w (vreg w ((List.range (2048 / w)).map x)) (vreg w ((List.range (2048 / w)).map y)) p f := by
  intro e he
  rw [elem_vreg_map x he, elem_vreg_map y he, hx e he, ones_mod]
  exact ⟨rfl, hy e he⟩

/-- The lanes of a result under a lane mask. -/
theorem elements_elemMask (m : BitVec 64) {w : Nat} {y f : Nat → Nat}
    (hy : ∀ e < 2048 / w, sel m w e = true → y e % 2 ^ w = f e % 2 ^ w) :
    Elements w (elemMask m w) (vreg w ((List.range (2048 / w)).map y)) (on m w) f :=
  elements_vreg (fun _ _ => rfl) hy

theorem getLsbD_foldl_or (fs : List Flags) (a : Flags) (k : Nat) :
    (fs.foldl (· ||| ·) a).getLsbD k = true ↔ a.getLsbD k = true ∨ ∃ f ∈ fs, f.getLsbD k = true := by
  induction fs generalizing a with
  | nil => simp
  | cons f fs ih => simp [ih, or_assoc]

theorem getLsbD_orFlags (fs : List Flags) (k : Nat) :
    (orFlags fs).getLsbD k = true ↔ ∃ f ∈ fs, f.getLsbD k = true := by
  simp [orFlags, getLsbD_foldl_or]

/-- The flags of a result are those of the elements that are selected. -/
theorem flagsOf_orFlags {n : Nat} {p : Nat → Bool} {g f : Nat → Flags}
    (hg : ∀ e, g e = if p e = true then f e else 0) : FlagsOf (orFlags ((List.range n).map g)) n p f := by
  intro k _
  simp only [getLsbD_orFlags, List.mem_map, List.mem_range, exists_exists_and_eq_and, hg]
  refine exists_congr fun e => and_congr_right fun _ => ?_
  cases p e <;> simp

/-! ### The shape of a V slot (07 R144) -/

section
variable {s : State} {hd : Hdr} {i : Instr} {d a b : BitVec 6}

/-- A V slot whose registers may be used has its effect and pops its streams. -/
theorem State.vslot_on {u : Uses} {f : State → State} (h : Free s u) :
    s.vslot hd u f = .next ((f s).pops u.v) := by
  unfold State.vslot
  by_cases hm : s.mOn hd = 0
  · simp only [if_pos hm, State.blocked_noVector h]
  · simp only [if_neg hm, show s.blocked u = none from h]

theorem State.vresult_issues (k w : Nat) (m : BitVec 64) (srcs : List (BitVec 6)) {f g : Nat → Nat × Flags}
    (hi : exec i s = .next ((s.vresult k w d m f).pops srcs))
    (hfg : ∀ e < 2048 / w, (f e).1 % 2 ^ w = (g e).1 % 2 ^ w) (hfl : ∀ e, (f e).2 = (g e).2) :
    IssuesElements i s k w d srcs (on m w) g := by
  refine ⟨_, _, _, hi, ?_, ?_⟩
  · rw [List.map_map]
    refine elements_elemMask m fun e he hs => ?_
    rw [Function.comp_apply, if_pos hs, hfg e he]
  · rw [List.map_map]
    refine flagsOf_orFlags fun e => ?_
    rw [Function.comp_apply, ← hfl, apply_ite Prod.snd]
    rfl

theorem State.vec2_issues {k w : Nat} {f g : Nat → Nat → Nat × Flags} (hi : exec i s = s.vec2 hd k w d a b f)
    (h : Free s { v := [a, b], dv := [d] })
    (hfg : ∀ x < 2 ^ w, ∀ y < 2 ^ w, (f x y).1 % 2 ^ w = (g x y).1 % 2 ^ w ∧ (f x y).2 = (g x y).2) :
    IssuesElements i s k w d [a, b] (on (s.mOn hd) w) fun e => g (elem (s.v! a) w e) (elem (s.v! b) w e) :=
  State.vresult_issues k w _ _ (hi.trans (State.vslot_on h)) (fun _ _ => (hfg _ (elem_lt ..) _ (elem_lt ..)).1)
    fun _ => (hfg _ (elem_lt ..) _ (elem_lt ..)).2

theorem State.vec1_issues {k w : Nat} {f g : Nat → Nat × Flags} (hi : exec i s = s.vec1 hd k w d a f)
    (h : Free s { v := [a], dv := [d] })
    (hfg : ∀ x < 2 ^ w, (f x).1 % 2 ^ w = (g x).1 % 2 ^ w ∧ (f x).2 = (g x).2) :
    IssuesElements i s k w d [a] (on (s.mOn hd) w) fun e => g (elem (s.v! a) w e) :=
  State.vresult_issues k w _ _ (hi.trans (State.vslot_on h)) (fun _ _ => (hfg _ (elem_lt ..)).1)
    fun _ => (hfg _ (elem_lt ..)).2

/-- A slot that computes mask, value and flags of each element together. -/
theorem State.written_issues {u : Uses} {k w : Nat} {rs : State → Nat → Nat × Nat × Flags} {p : Nat → Bool}
    {f : Nat → Nat × Flags} (h : Free s u)
    (hi : exec i s = s.vslot hd u fun s =>
      let l := (List.range (2048 / w)).map (rs s)
      s.results k [.v d.toNat (vreg w (l.map fun r => r.1)) (vreg w (l.map fun r => r.2.1)),
        .fpst (orFlags (l.map fun r => r.2.2))])
    (hrs : ∀ e, rs s e = if p e = true then (2 ^ w - 1, f e) else (0, 0, 0)) : IssuesElements i s k w d u.v p f := by
  refine ⟨_, _, _, hi.trans (State.vslot_on h), ?_, ?_⟩
  · rw [List.map_map, List.map_map]
    refine elements_vreg (fun e _ => ?_) fun e _ hp => ?_
    · rw [Function.comp_apply, hrs, apply_ite Prod.fst]
    · rw [Function.comp_apply, hrs, if_pos hp]
  · rw [List.map_map]
    refine flagsOf_orFlags fun e => ?_
    rw [Function.comp_apply, hrs, apply_ite (fun r : Nat × Nat × Flags => r.2.2)]

/-- A slot that writes the lanes of a mask. -/
theorem State.lanes_issues (k : Nat) (m : BitVec 64) (srcs : List (BitVec 6)) {f : Nat → Nat}
    (hi : exec i s = .next ((s.lanes k d m f).pops srcs)) : IssuesLanes i s k 32 d srcs (on m 32) f :=
  ⟨_, _, hi, elements_elemMask m fun _ _ _ => rfl⟩

end

end Sys2Proof.Machine
end

section
/-!
# Vector floating point (07 R145 to R147)
-/
namespace Sys2Proof.Machine

open Sys2Proof.Claims

/-! ### The modifier slot (07 R145) -/

/-- Operand b under the NB of the modifier slot. -/
theorem FFmt.negate_nb (t : FFmt) (hd : Hdr) (y : Nat) :
    t.negate (Hdr.nb hd) y = if bits hd.c 1 1 = 1 then y ^^^ 2 ^ (t.w - 1) else y := by
  simp only [FFmt.negate, Hdr.nb, decide_eq_true_eq]

/-! ### Rows of the table (07 R146) -/

/-- The element that an arithmetic row computes: the exact operation on the operands as FZ and NB have them read,
rounded once. -/
def vectorFloatElement (hd : Hdr) (t : FFmt) (op : FVal → FVal → FVal × Flags) (x y : Nat) : Nat × Flags :=
  t.done (Hdr.fz hd) (op (t.decodeFlush (Hdr.fz hd) x)
    (t.decodeFlush (Hdr.fz hd) (if bits hd.c 1 1 = 1 then y ^^^ 2 ^ (t.w - 1) else y)))

/-- A row of the two-source table holds of every state and operands. -/
def RowOfVectorFloat (r : Three × FFmt × (FVal → FVal → FVal × Flags)) : Prop :=
  ∀ (s : State) (hd : Hdr) (d a b : BitVec 6), Free s { v := [a, b], dv := [d] } →
    IssuesElements (r.1 hd d a b) s (vfpClass r.2.1) r.2.1.w d [a, b] (on (s.mOn hd) r.2.1.w) fun e =>
      vectorFloatElement hd r.2.1 r.2.2 (elem (s.v! a) r.2.1.w e) (elem (s.v! b) r.2.1.w e)

theorem rowOfVectorFloat {i : Three} {t : FFmt} {f : Bool → Nat → Nat → Nat × Flags} {op : FVal → FVal → FVal × Flags}
    (he : ∀ hd d a b s, exec (i hd d a b) s = s.vfp2 hd t d a b f)
    (hf : ∀ fz x y, f fz x y = t.done fz (op (t.decodeFlush fz x) (t.decodeFlush fz y))) :
    RowOfVectorFloat (i, t, op) := fun s hd d a b h =>
  State.vec2_issues (g := vectorFloatElement hd t op) (he hd d a b s) h fun x _ y _ => by
    rw [hf, FFmt.negate_nb]
    exact ⟨rfl, rfl⟩

theorem rowsOfVectorFloat : ∀ r ∈ vectorFloat, RowOfVectorFloat r := by
  have sum (i : Three) (t : FFmt) (he : ∀ hd d a b s, exec (i hd d a b) s = s.vfp2 hd t d a b t.add) :
      RowOfVectorFloat (i, t, fun x y => FVal.sum [x, y]) := rowOfVectorFloat he fun _ _ _ => rfl
  have diff (i : Three) (t : FFmt) (he : ∀ hd d a b s, exec (i hd d a b) s = s.vfp2 hd t d a b t.sub) :
      RowOfVectorFloat (i, t, FVal.diff) := rowOfVectorFloat he fun _ _ _ => rfl
  have mul (i : Three) (t : FFmt) (he : ∀ hd d a b s, exec (i hd d a b) s = s.vfp2 hd t d a b t.mul) :
      RowOfVectorFloat (i, t, FVal.mul) := rowOfVectorFloat he fun _ _ _ => rfl
  simp only [vectorFloat, List.forall_mem_cons]
  exact ⟨sum _ _ fun _ _ _ _ _ => rfl, diff _ _ fun _ _ _ _ _ => rfl, mul _ _ fun _ _ _ _ _ => rfl,
    sum _ _ fun _ _ _ _ _ => rfl, diff _ _ fun _ _ _ _ _ => rfl, mul _ _ fun _ _ _ _ _ => rfl,
    sum _ _ fun _ _ _ _ _ => rfl, mul _ _ fun _ _ _ _ _ => rfl,
    sum _ _ fun _ _ _ _ _ => rfl, mul _ _ fun _ _ _ _ _ => rfl, List.forall_mem_nil _⟩

/-- Each fused multiply-add runs on its format. -/
theorem exec_vectorFma {r : Three × FFmt} (h : r ∈ vectorFma) (hd : Hdr) (d a b : BitVec 6) (s : State) :
    exec (r.1 hd d a b) s = s.vfma hd r.2 d a b := by
  simp only [vectorFma, List.mem_cons, List.not_mem_nil, or_false] at h
  rcases h with rfl | rfl | rfl | rfl <;> rfl

/-- Each minimum and maximum runs on its format. -/
theorem exec_vectorPick {r : Three × FFmt × Bool} (h : r ∈ vectorPick) (hd : Hdr) (d a b : BitVec 6) (s : State) :
    exec (r.1 hd d a b) s =
      s.vec2 hd (vfpClass r.2.1) r.2.1.w d a b (r.2.1.minmax (Hdr.fz hd) (Hdr.np hd) r.2.2) := by
  simp only [vectorPick, List.mem_cons, List.not_mem_nil, or_false] at h
  rcases h with rfl | rfl | rfl | rfl <;> rfl

end Sys2Proof.Machine

open Sys2Proof Sys2Proof.Machine Sys2Proof.Claims

/-- Settles O7: each row runs one operation of its format on every element, and the modifier slot changes how that
operation reads its operands. -/
theorem vectorFloatSlotsIssueTheirElements : Obligations.VectorFloatSlotsIssueTheirElements := by
  refine ⟨rowsOfVectorFloat, fun r hr s hd d a b h => ?_, fun r hr s hd d a b h => ?_⟩
  · refine State.vresult_issues _ _ _ _ ((exec_vectorFma hr hd d a b s).trans (State.vslot_on h))
      (fun e _ => ?_) fun e => ?_
    all_goals rw [FFmt.negate_nb]; rfl
  · exact State.vec2_issues (exec_vectorPick hr hd d a b s) h fun _ _ _ _ => ⟨rfl, rfl⟩

end

section
/-!
# Vector compares and conversions (07 R148, R149; 05 R99)
-/
namespace Sys2Proof.Machine

open Sys2Proof.Claims

/-! ### The masks of a pair (05 R99) -/

/-- A mask that holds each element's bit in every lane of the element: c lanes to an element. -/
theorem getLsbD_laneMask (g : Nat → Bool) {c n : Nat} (hc : 0 < c) (hn : n < 64) {k : Nat} (hk : n / c < k) :
    (BitVec.ofNat 64 (pack c ((List.range k).map fun e => if g e = true then 2 ^ c - 1 else 0))).getLsbD n =
      g (n / c) := by
  rw [BitVec.getLsbD_ofNat, decide_eq_true hn, Bool.true_and, testBit_pack _ hc, getD_map_range _ hk]
  cases g (n / c)
  · simp
  · simp [Nat.testBit_two_pow_sub_one, Nat.mod_lt n hc]

/-- The element of a lane, for elements of c whole lanes. -/
theorem lane_element {c n : Nat} (hc : 0 < c) (hd : c ∣ 64) (hn : n < 64) :
    n * 32 / (32 * c) = n / c ∧ n / c < 2048 / (32 * c) := by
  obtain ⟨k, hk⟩ := hd
  rw [Nat.mul_comm n, Nat.mul_div_mul_left _ _ (by decide), show 2048 = 32 * 64 from rfl,
    Nat.mul_div_mul_left _ _ (by decide), Nat.div_lt_iff_lt_mul hc, hk, Nat.mul_div_cancel_left _ hc, Nat.mul_comm k,
    ← hk]
  exact ⟨rfl, hn⟩

/-- What a vector compare of elements of width w is to do. -/
def ComparesTo (i : Instr) (s : State) (p : BitVec 2) (a b : BitVec 6) (m : BitVec 64) (w : Nat)
    (f : Nat → Bool × Flags) : Prop :=
  ∃ (sel val : BitVec 64) (fl : Flags),
    Gives i s ((s.results 5 [.m (2 * p.toNat) sel val, .m (2 * p.toNat + 1) sel (~~~val), .fpst fl]).pops [a, b]) ∧
    (∀ n < 64, sel.getLsbD n = on m w (n * 32 / w) ∧
      (sel.getLsbD n = true → val.getLsbD n = (f (n * 32 / w)).1)) ∧
    FlagsOf fl (2048 / w) (on m w) fun e => (f e).2

theorem State.vcmp_compares {s : State} {hd : Hdr} {i : Instr} {p : BitVec 2} {a b : BitVec 6} {w c : Nat}
    {f g : Nat → Nat → Bool × Flags} (hw : w = 32 * c) (hc : 0 < c) (hdvd : c ∣ 64)
    (hi : exec i s = s.vcmp hd p w a b f) (hfg : ∀ x < 2 ^ w, ∀ y < 2 ^ w, f x y = g x y)
    (h : Free s { v := [a, b] }) :
    ComparesTo i s p a b (s.mOn hd) w fun e => g (elem (s.v! a) w e) (elem (s.v! b) w e) := by
  subst hw
  have hsame : (fun e => f (elem (s.v! a) (32 * c) e) (elem (s.v! b) (32 * c) e)) =
      fun e => g (elem (s.v! a) (32 * c) e) (elem (s.v! b) (32 * c) e) :=
    funext fun e => hfg _ (elem_lt ..) _ (elem_lt ..)
  rw [← hsame]
  refine ⟨_, _, _, hi.trans (State.vslot_on h), fun n hn => ?_, ?_⟩
  · obtain ⟨hlane, hlt⟩ := lane_element hc hdvd hn
    rw [hlane, Nat.mul_div_cancel_left _ (by decide : 0 < 32), List.map_map, getLsbD_laneMask _ hc hn hlt]
    refine ⟨rfl, fun hs => ?_⟩
    rw [Function.comp_def, getLsbD_laneMask _ hc hn hlt, if_pos hs]
  · rw [List.map_map]
    exact flagsOf_orFlags fun e => apply_ite Prod.snd ..

/-! ### The conditions (07 R148) -/

/-- A row of the compares holds of every state and operands. -/
def RowOfCompare (r : (Hdr → BitVec 2 → BitVec 4 → BitVec 6 → BitVec 6 → Instr) × Nat × Nat ×
    (Nat → Nat → Bool × Flags)) : Prop :=
  ∀ (s : State) (hd : Hdr) (p : BitVec 2) (a b : BitVec 6), Free s { v := [a, b] } →
    ComparesTo (r.1 hd p (BitVec.ofNat 4 r.2.2.1) a b) s p a b (s.mOn hd) r.2.1 fun e =>
      r.2.2.2 (elem (s.v! a) r.2.1 e) (elem (s.v! b) r.2.1 e)

section
variable {i : Hdr → BitVec 2 → BitVec 4 → BitVec 6 → BitVec 6 → Instr}

/-- An integer compare, by the value of its condition on words. -/
theorem rowOfCompare_int {u : Bool} {code : Nat} {g : Nat → Nat → Bool}
    (he : ∀ hd p c a b s, exec (i hd p c a b) s = s.vcmp hd p 32 a b fun x y => (vcond u c x y, 0))
    (hg : ∀ x y : BitVec 32, vcond u (BitVec.ofNat 4 code) x.toNat y.toNat = g x.toNat y.toNat) :
    RowOfCompare (i, 32, code, fun x y => (g x y, 0)) := fun s hd p a b h =>
  State.vcmp_compares (c := 1) rfl (by decide) (by decide) (he hd p _ a b s)
    (forall_toNat fun x => forall_toNat fun y => Prod.ext (hg x y) rfl) h

/-- A float compare, by its format. -/
theorem rowOfCompare_float {t : FFmt} {k code : Nat} (hw : t.w = 32 * k) (hk : 0 < k) (hdvd : k ∣ 64)
    (hcode : code < 16) (he : ∀ hd p c a b s, exec (i hd p c a b) s = s.vcmp hd p t.w a b (t.compare c.toNat)) :
    RowOfCompare (i, t.w, code, t.compare code) := fun s hd p a b h =>
  State.vcmp_compares hw hk hdvd (he hd p _ a b s)
    (fun _ _ _ _ => by rw [BitVec.toNat_ofNat, Nat.mod_eq_of_lt hcode]) h

end

theorem rowsOfCompare : ∀ r ∈ vectorCompare, RowOfCompare r := by
  have test (u : Bool) (x y : BitVec 32) :
      vcond u 3 x.toNat y.toNat = decide (x.toNat &&& y.toNat ≠ 0) := by
    simp [vcond, ← BitVec.toNat_inj]
  have equal (u : Bool) (x y : BitVec 32) : vcond u 0 x.toNat y.toNat = decide (x.toNat = y.toNat) := by
    simp [vcond, BitVec.toNat_inj]
  have signed (code : Nat) (g : Nat → Nat → Bool)
      (h : ∀ x y : BitVec 32, vcond false (BitVec.ofNat 4 code) x.toNat y.toNat = g x.toNat y.toNat) :
      RowOfCompare (.vcmpI32, 32, code, fun x y => (g x y, 0)) := rowOfCompare_int (fun _ _ _ _ _ _ => rfl) h
  have unsigned (code : Nat) (g : Nat → Nat → Bool)
      (h : ∀ x y : BitVec 32, vcond true (BitVec.ofNat 4 code) x.toNat y.toNat = g x.toNat y.toNat) :
      RowOfCompare (.vcmpu, 32, code, fun x y => (g x y, 0)) := rowOfCompare_int (fun _ _ _ _ _ _ => rfl) h
  have single (code : Nat) (h : code < 16) : RowOfCompare (.vcmpF32, 32, code, F32.compare code) :=
    rowOfCompare_float (k := 1) rfl (by decide) (by decide) h fun _ _ _ _ _ _ => rfl
  have double (code : Nat) (h : code < 16) : RowOfCompare (.vcmpF64, 64, code, F64.compare code) :=
    rowOfCompare_float (k := 2) rfl (by decide) (by decide) h fun _ _ _ _ _ _ => rfl
  simp only [vectorCompare, List.forall_mem_cons]
  exact ⟨
    signed 0 _ (equal false),
    signed 1 _ fun x y => by simp [vcond, BitVec.slt, sint_toNat],
    signed 2 _ fun x y => by simp [vcond, BitVec.sle, sint_toNat],
    signed 3 _ (test false),
    unsigned 0 _ (equal true),
    unsigned 1 _ fun x y => by simp [vcond, BitVec.ult],
    unsigned 2 _ fun x y => by simp [vcond, BitVec.ule],
    unsigned 3 _ (test true),
    single 0 (by decide), single 1 (by decide), single 2 (by decide), single 3 (by decide),
    double 0 (by decide), double 1 (by decide), double 2 (by decide), double 3 (by decide),
    List.forall_mem_nil _⟩

/-! ### Conversions (07 R149) -/

/-- Whether a conversion writes a destination element, and from which source element: one that narrows writes its
PART, one that widens reads it. -/
def convertsFrom (ws wd n part e : Nat) : Option Nat :=
  if wd < ws then (if n * part ≤ e ∧ e < n * part + n then some (e - n * part) else none)
  else if ws < wd then some (e + part * n) else some e

/-- Mask, value and flags that a conversion gives a destination element. -/
def convertedElement (hd : Hdr) (m : BitVec 64) (x : VReg) (e : Nat) : Nat × Nat × Flags :=
  let src := bits hd.c 3 0
  let dst := bits hd.c 7 4
  let ws := elemWidth src
  let wd := elemWidth dst
  match (if on m wd e then convertsFrom ws wd (2048 / max ws wd) (bits hd.c 13 11) e else none) with
  | some i => (2 ^ wd - 1, convert src dst (decide (bits hd.c 8 8 = 1)) (decide (bits hd.c 9 9 = 1))
      (decide (bits hd.c 10 10 = 1)) (elem x ws i))
  | none => (0, 0, 0)

theorem exec_vcvt (hd : Hdr) (d a : BitVec 6) (s : State) :
    exec (.vcvt hd d a) s = s.vslot hd { v := [a], dv := [d] } fun s =>
      let ws := elemWidth (bits hd.c 3 0)
      let wd := elemWidth (bits hd.c 7 4)
      let l := (List.range (2048 / wd)).map (convertedElement hd (s.mOn hd) (s.v! a))
      s.results (if ws = 64 ∨ wd = 64 then 8 else 7) [.v d.toNat (vreg wd (l.map fun r => r.1))
        (vreg wd (l.map fun r => r.2.1)), .fpst (orFlags (l.map fun r => r.2.2))] := rfl

theorem convertedElement_eq (hd : Hdr) (m : BitVec 64) (x : VReg) (e : Nat) {src dst part ws wd n : Nat}
    (hsrc : src = bits hd.c 3 0) (hdst : dst = bits hd.c 7 4) (hpart : part = bits hd.c 13 11)
    (hws : ws = elemWidth src) (hwd : wd = elemWidth dst) (hn : n = 2048 / max ws wd) :
    convertedElement hd m x e =
      if (on m wd e && (!decide (wd < ws) || decide (n * part ≤ e ∧ e < n * part + n))) = true then
        (2 ^ wd - 1, convert src dst (bits hd.c 8 8 = 1) (bits hd.c 9 9 = 1) (bits hd.c 10 10 = 1)
          (elem x ws (if wd < ws then e - n * part else if ws < wd then e + part * n else e)))
      else (0, 0, 0) := by
  simp only [convertedElement, ← hsrc, ← hdst, ← hpart, ← hws, ← hwd, ← hn]
  cases on m wd e
  · rfl
  unfold convertsFrom
  by_cases hnarrow : wd < ws
  · by_cases hin : n * part ≤ e ∧ e < n * part + n <;> simp [hnarrow, hin]
  · by_cases hwide : ws < wd <;> simp [hnarrow, hwide]

theorem vectorConversionWritesTheElementsOfItsPart : VectorConversionWritesTheElementsOfItsPart := by
  intro s hd d a src dst part ws wd n h hsrc hdst hpart hws hwd _ _ hn _
  have helem (e : Nat) := convertedElement_eq hd (s.mOn hd) (s.v! a) e hsrc hdst hpart hws hwd hn
  subst hsrc hdst hws hwd
  exact State.written_issues h (exec_vcvt hd d a s) helem

end Sys2Proof.Machine

open Sys2Proof Sys2Proof.Machine Sys2Proof.Claims

/-- Settles O8: each condition's value on words is its row's, and a conversion's elements are those that its PART
names. -/
theorem vectorComparesAndConversionsIssueTheirElements :
    Obligations.VectorComparesAndConversionsIssueTheirElements :=
  ⟨rowsOfCompare, vectorConversionWritesTheElementsOfItsPart⟩

end

section
/-!
# Vector integer slots (07 R146)
-/
namespace Sys2Proof.Machine

open Sys2Proof.Claims

/-- A row of the integer table holds of every state and operands. -/
def RowOfVectorInt (r : Three × Nat × (Nat → Nat → Nat)) : Prop :=
  ∀ (s : State) (hd : Hdr) (d a b : BitVec 6), Free s { v := [a, b], dv := [d] } →
    IssuesElements (r.1 hd d a b) s r.2.1 32 d [a, b] (on (s.mOn hd) 32) fun e =>
      (r.2.2 (elem (s.v! a) 32 e) (elem (s.v! b) 32 e), 0)

/-- A slot on words of 32 bits issues what its word function gives. -/
theorem State.vint_issues {s : State} {hd : Hdr} {i : Instr} {k : Nat} {d a b : BitVec 6}
    {f : BitVec 32 → BitVec 32 → BitVec 32} {g : Nat → Nat → Nat} (hi : exec i s = s.vint hd k d a b f)
    (hf : ∀ x y : BitVec 32, (f x y).toNat = g x.toNat y.toNat % 2 ^ 32) (h : Free s { v := [a, b], dv := [d] }) :
    IssuesElements i s k 32 d [a, b] (on (s.mOn hd) 32) fun e => (g (elem (s.v! a) 32 e) (elem (s.v! b) 32 e), 0) :=
  State.vec2_issues (g := fun x y => (g x y, 0)) hi h <| forall_toNat fun x => forall_toNat fun y => by
    rw [BitVec.ofNat_toNat, BitVec.ofNat_toNat, BitVec.setWidth_eq, BitVec.setWidth_eq, hf, Nat.mod_mod]
    exact ⟨rfl, rfl⟩

theorem rowOfVectorInt {i : Three} {k : Nat} {f : BitVec 32 → BitVec 32 → BitVec 32} {g : Nat → Nat → Nat}
    (he : ∀ hd d a b s, exec (i hd d a b) s = s.vint hd k d a b f)
    (hf : ∀ x y : BitVec 32, (f x y).toNat = g x.toNat y.toNat % 2 ^ 32) : RowOfVectorInt (i, k, g) :=
  fun s hd d a b h => State.vint_issues (he hd d a b s) hf h

/-! ### The words of the rows -/

theorem toNat_mod (x : BitVec 32) : x.toNat % 2 ^ 32 = x.toNat := Nat.mod_eq_of_lt x.isLt

theorem wrapInt_eq_toNat (n : Nat) (i : Int) : wrapInt n i = (BitVec.ofInt n i).toNat := by
  rw [BitVec.toNat_ofInt, wrapInt]
  norm_cast

/-- A row that chooses one of its two words. -/
theorem rowOfVectorInt_choice {i : Three} {k : Nat} {g : Nat → Nat → Nat} (p : BitVec 32 → BitVec 32 → Bool)
    (he : ∀ hd d a b s, exec (i hd d a b) s = s.vint hd k d a b fun x y => if p x y then x else y)
    (hg : ∀ x y : BitVec 32, (if p x y = true then x.toNat else y.toNat) = g x.toNat y.toNat) :
    RowOfVectorInt (i, k, g) :=
  rowOfVectorInt he fun x y => by rw [← hg, ← apply_ite BitVec.toNat, toNat_mod]

/-- The larger of two words, whichever is asked about first. -/
theorem larger_eq (x y : BitVec 32) : (if y.toInt < x.toInt then x.toNat else y.toNat) =
    if x.toInt < y.toInt then y.toNat else x.toNat := by
  rcases lt_trichotomy x.toInt y.toInt with h | h | h
  · rw [if_neg h.not_gt, if_pos h]
  · rw [BitVec.toInt_inj.mp h, ite_self]
  · rw [if_pos h, if_neg h.not_gt]

theorem rowsOfVectorInt : ∀ r ∈ vectorInt, RowOfVectorInt r := by
  simp only [vectorInt, List.forall_mem_cons]
  exact ⟨
    rowOfVectorInt (fun _ _ _ _ _ => rfl) BitVec.toNat_add,
    rowOfVectorInt (fun _ _ _ _ _ => rfl) fun x y => by
      have := y.isLt
      rw [BitVec.toNat_sub]
      omega,
    rowOfVectorInt (fun _ _ _ _ _ => rfl) BitVec.toNat_mul,
    rowOfVectorInt_choice BitVec.slt (fun _ _ _ _ _ => rfl) fun x y => by
      simp only [BitVec.slt, decide_eq_true_eq, sint_toNat],
    rowOfVectorInt_choice (fun x y => y.slt x) (fun _ _ _ _ _ => rfl) fun x y => by
      simp only [BitVec.slt, decide_eq_true_eq, sint_toNat, larger_eq],
    rowOfVectorInt_choice BitVec.ult (fun _ _ _ _ _ => rfl) fun x y => by
      simp only [BitVec.ult, decide_eq_true_eq, min_def_lt],
    rowOfVectorInt_choice (fun x y => y.ult x) (fun _ _ _ _ _ => rfl) fun x y => by
      simp only [BitVec.ult, decide_eq_true_eq, max_def_lt'],
    rowOfVectorInt (fun _ _ _ _ _ => rfl) fun x y => (toNat_mod (x &&& y)).symm,
    rowOfVectorInt (fun _ _ _ _ _ => rfl) fun x y => (toNat_mod (x ||| y)).symm,
    rowOfVectorInt (fun _ _ _ _ _ => rfl) fun x y => (toNat_mod (x ^^^ y)).symm,
    rowOfVectorInt (f := fun x y => clamp32 (x.toInt + y.toInt)) (fun _ _ _ _ _ => rfl) fun x y => by
      rw [wrapInt_eq_toNat, toNat_mod, sint_toNat, sint_toNat, clamp32],
    List.forall_mem_nil _⟩

/-! ### Shifts -/

/-- A row of the shifts holds of every state and operands, with its amount in a register or an IMM slot. -/
def RowOfVectorShift (r : Three × (Nat → Nat → Nat)) : Prop :=
  ∀ (s : State) (hd : Hdr) (d a b : BitVec 6),
    (hd.x = [] → Free s { v := [a, b], dv := [d] } →
      IssuesElements (r.1 hd d a b) s 5 32 d [a, b] (on (s.mOn hd) 32) fun e =>
        (r.2 (elem (s.v! a) 32 e) (elem (s.v! b) 32 e % 32), 0)) ∧
    (hd.x ≠ [] → Free s { v := [a], dv := [d] } →
      IssuesElements (r.1 hd d a b) s 5 32 d [a] (on (s.mOn hd) 32) fun e =>
        (r.2 (elem (s.v! a) 32 e) (hd.c % 32), 0))

theorem rowOfVectorShift {i : Three} {f : BitVec 32 → Nat → BitVec 32} {g : Nat → Nat → Nat}
    (he : ∀ hd d a b s, exec (i hd d a b) s = s.vshift hd d a b f)
    (hf : ∀ (x : BitVec 32) (n : Nat), (f x n).toNat = g x.toNat n % 2 ^ 32) : RowOfVectorShift (i, g) := by
  refine fun s hd d a b => ⟨fun hx h => ?_, fun hx h => ?_⟩
  · exact State.vint_issues (g := fun x y => g x (y % 32))
      ((he hd d a b s).trans (if_pos (List.isEmpty_iff.mpr hx))) (fun x y => hf x _) h
  · have hamount : bits hd.c 4 0 = hd.c % 32 := by simp [bits]
    rw [← hamount]
    refine State.vec1_issues (g := fun x => (g x (bits hd.c 4 0), 0))
      ((he hd d a b s).trans (if_neg (mt List.isEmpty_iff.mp hx))) h (forall_toNat fun x => ⟨?_, rfl⟩)
    rw [BitVec.ofNat_toNat, BitVec.setWidth_eq, hf, Nat.mod_mod]

theorem rowsOfVectorShift : ∀ r ∈ vectorShift, RowOfVectorShift r := by
  simp only [vectorShift, List.forall_mem_cons]
  exact ⟨
    rowOfVectorShift (fun _ _ _ _ _ => rfl) fun x n => by rw [BitVec.toNat_shiftLeft, Nat.shiftLeft_eq],
    rowOfVectorShift (fun _ _ _ _ _ => rfl) fun x n => by
      rw [BitVec.toNat_ushiftRight, Nat.shiftRight_eq_div_pow,
        Nat.mod_eq_of_lt ((Nat.div_le_self _ _).trans_lt x.isLt)],
    rowOfVectorShift (fun _ _ _ _ _ => rfl) fun x n => by
      rw [wrapInt_eq_toNat, toNat_mod, sint_toNat, BitVec.sshiftRight, Int.shiftRight_eq_div_pow]
      norm_cast,
    List.forall_mem_nil _⟩

end Sys2Proof.Machine
end

section
/-!
# Masks, selection and movement (07 R150 to R154)
-/
namespace Sys2Proof.Machine

open Sys2Proof.Claims

variable {s : State} {hd : Hdr} {d a b : BitVec 6}

/-! ### Masks (07 R150) -/

/-- A mask of 64 bits by its bits. -/
theorem getLsbD_packedBits (g : Nat → Bool) {n : Nat} (hn : n < 64) :
    (BitVec.ofNat 64 (pack 1 ((List.range 64).map fun n => (g n).toNat))).getLsbD n = g n := by
  rw [BitVec.getLsbD_ofNat, decide_eq_true hn, Bool.true_and, testBit_pack _ one_pos, Nat.div_one, Nat.mod_one,
    getD_map_range _ hn]
  cases g n <;> rfl

theorem vmlog_issues {d a b : BitVec 3} (f : BitVec 4) (h : Free s {}) : ∃ v : BitVec 64,
    Gives (.vmlog hd d a b f) s (s.results 5 [.m d.toNat (s.mOn hd) v]) ∧
    ∀ n < 64, v.getLsbD n = f.getLsbD (2 * ((s.m! a).getLsbD n).toNat + ((s.m! b).getLsbD n).toNat) :=
  ⟨_, (rfl : _ = execVmlog hd d a b f s).trans (State.vslot_on h), fun _ hn => getLsbD_packedBits _ hn⟩

/-! ### Lanes (07 R152 to R154) -/

/-- VSEL writes every lane, whatever its guard field selects (07 R152). -/
theorem vsel_issues (h : Free s { v := [a, b], dv := [d] }) :
    IssuesLanes (.vsel hd d a b) s 5 32 d [a, b] (fun _ => true) fun n =>
      if (s.m! hd.g).getLsbD n = true then elem (s.v! a) 32 n else elem (s.v! b) 32 n := by
  have gives : exec (.vsel hd d a b) s = .next ((s.lanes 5 d (BitVec.allOnes 64) fun n =>
      if (s.m! hd.g).getLsbD n then elem (s.v! a) 32 n else elem (s.v! b) 32 n).pops [a, b]) := by
    refine (rfl : _ = execVsel hd d a b s).trans ?_
    unfold execVsel
    rw [show s.blocked { v := [a, b], dv := [d] } = none from h]
  refine ⟨_, _, gives, elements_congr_sel (elements_elemMask _ fun _ _ _ => rfl) fun e he => ?_⟩
  have hlt : e < 64 := he
  rw [on, if_neg (by decide), Nat.mul_div_cancel _ (by decide), BitVec.getLsbD_allOnes, decide_eq_true hlt]

/-- The lane that VSHUF takes, by the row of its OP (07 R154). -/
theorem shufLane_eq {r : Nat × (Nat → Nat → Nat)} (h : r ∈ shuffles) (rot n : Nat) :
    shufLane r.1 rot n = r.2 rot n := by
  simp only [shuffles, List.mem_cons, List.not_mem_nil, or_false] at h
  rcases h with rfl | rfl | rfl | rfl | rfl <;> rfl

theorem vshuf_issues {r : Nat × (Nat → Nat → Nat)} (hr : r ∈ shuffles) (hop : bits hd.c 3 0 = r.1)
    (h : Free s { v := [a, b], dv := [d] }) :
    IssuesLanes (.vshuf hd d a b) s 9 32 d [a, b] (on (s.mOn hd) 32) fun n =>
      let j := r.2 (bits hd.c 10 5) n
      if j < 64 then elem (s.v! a) 32 j else elem (s.v! b) 32 (j - 64) := by
  simp only [← shufLane_eq hr, ← hop]
  exact State.lanes_issues 9 _ _ ((rfl : _ = execVshuf hd d a b s).trans (State.vslot_on h))

/-- VBCST gives every element of its width the same value (07 R153). -/
theorem vbcst_issues (b : BitVec 1) (h : Free s { s := [a], dv := [d] }) :
    IssuesLanes (.vbcst hd d a b) s 9 (if b = 1 then 64 else 32) d []
      (on (s.mOn hd) (if b = 1 then 64 else 32)) fun _ => (s.s! a).toNat := by
  refine ⟨_, _, (rfl : _ = execVbcst hd d a b s).trans (State.vslot_on h), ?_⟩
  rw [← List.length_range (n := 2048 / if b = 1 then 64 else 32), ← List.map_const']
  exact elements_elemMask _ fun _ _ _ => rfl

/-! ### Single lanes (07 R153) -/

/-- W64 of the IMM slot is its lowest bit. -/
theorem Hdr.w64_eq (hd : Hdr) : Hdr.w64 hd = decide (hd.c % 2 = 1) := by simp [Hdr.w64, bits]

/-- A lane of a number that is shifted up to begin at lane i. -/
theorem elem_shifted (x : Nat) {i n : Nat} (hn : n < 64) :
    elem (BitVec.ofNat 2048 (x * 2 ^ (32 * i))) 32 n = if i ≤ n then x / 2 ^ (32 * (n - i)) % 2 ^ 32 else 0 := by
  rw [elem_ofNat _ hn]
  split
  next h =>
    obtain ⟨c, rfl⟩ := Nat.exists_eq_add_of_le h
    rw [Nat.mul_add, pow_add, Nat.mul_comm x, Nat.mul_div_mul_left _ _ (Nat.two_pow_pos _), Nat.add_sub_cancel_left]
  next h =>
    obtain ⟨c, rfl⟩ := Nat.exists_eq_add_of_lt (not_le.mp h)
    rw [show 32 * (n + c + 1) = 32 * n + (32 + 32 * c) by ring, pow_add, pow_add, Nat.mul_left_comm,
      Nat.mul_div_cancel_left _ (Nat.two_pow_pos _), Nat.mul_left_comm, Nat.mul_mod_right]

/-- The lanes of the all-ones value of one lane or of two. -/
theorem ones_lane {w : Nat} (hw : w = 32 ∨ w = 64) (k : Nat) :
    (2 ^ w - 1) / 2 ^ (32 * k) % 2 ^ 32 = if k = 0 ∨ (w = 64 ∧ k = 1) then 2 ^ 32 - 1 else 0 := by
  match k with
  | 0 => rcases hw with rfl | rfl <;> rfl
  | 1 => rcases hw with rfl | rfl <;> rfl
  | k + 2 =>
    have hlow : (2 : Nat) ^ w ≤ 2 ^ (32 * (k + 2)) := Nat.pow_le_pow_right (by decide) (by omega)
    have hlt : 2 ^ w - 1 < 2 ^ (32 * (k + 2)) := by
      have := Nat.two_pow_pos w
      omega
    rw [Nat.div_eq_of_lt hlt, if_neg (by omega), Nat.zero_mod]

/-- VINS writes one lane, or two under W64, where the bit of its lane is set (07 R153). -/
theorem vins_issues {i : BitVec 6} (h : Free s { s := [a], dv := [d] }) :
    IssuesLanes (.vins hd d a i) s 9 32 d []
      (fun n => (s.mOn hd).getLsbD i.toNat && (decide (n = i.toNat) || decide (hd.c % 2 = 1 ∧ n = i.toNat + 1)))
      fun n => (s.s! a).toNat / 2 ^ (32 * (n - i.toNat)) := by
  have free : Free s { s := [a], dv := if (s.mOn hd).getLsbD i.toNat then [d] else [] } := by
    cases (s.mOn hd).getLsbD i.toNat
    · exact State.blocked_noVector h
    · exact h
  refine ⟨_, _, (rfl : _ = execVins hd d a i s).trans (State.vslot_on free), fun n hn => ?_⟩
  obtain ⟨w, hw, hwide⟩ : ∃ w, (if Hdr.w64 hd = true then 64 else 32) = w ∧
      ((w = 64 ∧ hd.c % 2 = 1) ∨ (w = 32 ∧ ¬ hd.c % 2 = 1)) := by
    rw [Hdr.w64_eq]
    by_cases hc : hd.c % 2 = 1 <;> simp [hc]
  rw [hw, elem_shifted _ hn]
  constructor
  · cases (s.mOn hd).getLsbD i.toNat
    · rw [if_neg Bool.false_ne_true, elem_ofNat 0 hn, Nat.zero_div]
      rfl
    · rw [if_pos rfl, elem_shifted _ hn, ones_lane (by omega), ← ite_and]
      refine if_congr ?_ rfl rfl
      simp only [Bool.true_and, Bool.or_eq_true, decide_eq_true_eq]
      omega
  · simp only [Bool.and_eq_true, Bool.or_eq_true, decide_eq_true_eq]
    rintro ⟨-, hlane⟩
    rw [if_pos (by omega), mod_two_pow_digit _ (by omega)]

/-- Two neighbouring lanes as one element of 64 bits. -/
theorem lanes_eq_double (x i : Nat) : x / 2 ^ (32 * i) % 2 ^ 64 =
    x / 2 ^ (32 * i) % 2 ^ 32 + 2 ^ 32 * (x / 2 ^ (32 * (i + 1)) % 2 ^ 32) := by
  rw [show 2 ^ 64 = 2 ^ 32 * 2 ^ 32 from rfl, Nat.mod_mul, Nat.div_div_eq_div_mul, ← pow_add, Nat.mul_succ]

/-- The value of VEXT is one lane, or two under W64 (07 R153). -/
theorem vext_value (hd : Hdr) (x : VReg) (i : Nat) :
    x.toNat / 2 ^ (32 * i) % 2 ^ (if Hdr.w64 hd = true then 64 else 32) =
    elem x 32 i + if hd.c % 2 = 1 then 2 ^ 32 * elem x 32 (i + 1) else 0 := by
  rw [Hdr.w64_eq, elem, elem]
  by_cases hw : hd.c % 2 = 1
  · rw [if_pos hw, if_pos (decide_eq_true hw), lanes_eq_double]
  · rw [if_neg hw, if_neg (by simpa using hw), Nat.add_zero]

theorem vext_gives {i : BitVec 6} (h : Acts s hd { v := [a], ds := [d] }) :
    Gives (.vext hd d a i) s ((s.sResult 9 d (BitVec.ofNat 64 (elem (s.v! a) 32 i.toNat +
      if hd.c % 2 = 1 then 2 ^ 32 * elem (s.v! a) 32 (i.toNat + 1) else 0))).pops [a]) := by
  obtain ⟨hp, hb⟩ := h
  rw [← vext_value]
  refine (rfl : _ = execVext hd d a i s).trans ?_
  rw [execVext, hp, show s.blocked { v := [a], ds := [d] } = none from hb]
  rfl

theorem vectorMovementSlotsIssueTheirLanes : VectorMovementSlotsIssueTheirLanes := by
  refine ⟨fun s hd d a b f h => vmlog_issues f h,
    fun s hd d a ha => (rfl : _ = execVmmovTos hd d a s).trans (State.guarded_on ha.1 ha.2),
    fun s hd d a ha => (rfl : _ = execVmmovFroms hd d a s).trans (State.guarded_on ha.1 ha.2),
    fun s hd d a b h => ⟨vsel_issues h, ?_, fun r hr hop => vshuf_issues hr hop h⟩,
    fun s hd d a h => ?_, fun s hd d a i h => ⟨?_, fun b => vbcst_issues b h, fun _ => vins_issues h⟩,
    fun s hd d a i ha _ => vext_gives ha⟩
  · exact State.lanes_issues 9 _ _ ((rfl : _ = execVperm hd d a b s).trans (State.vslot_on h))
  · exact State.lanes_issues 5 _ _ ((rfl : _ = execVmov hd d a s).trans (State.vslot_on h))
  · exact State.lanes_issues 5 _ _ ((rfl : _ = execVidx hd d a i s).trans (State.vslot_on h))

end Sys2Proof.Machine

open Sys2Proof Sys2Proof.Machine Sys2Proof.Claims

/-- Settles O9: each integer row is a function of words, and each other slot packs lanes that read back as its row
states. -/
theorem vectorIntegerAndMovementSlotsIssueTheirLanes : Obligations.VectorIntegerAndMovementSlotsIssueTheirLanes :=
  ⟨⟨rowsOfVectorInt, rowsOfVectorShift⟩, vectorMovementSlotsIssueTheirLanes⟩

end

section
/-!
# Sums over a vector (07 R155, R157)

The model sums the tree level by level, and the statement node by node. With the nodes of level l as its values, what
is left of the levels gives the node at the top, and the flags that it adds are those above level l.
-/
namespace Sys2Proof.Machine

open Sys2Proof.Claims

/-! ### The union of flags -/

theorem flags_or_zero (f : Flags) : f ||| 0 = f := BitVec.or_zero

theorem orFlags_cons (f : Flags) (fs : List Flags) : orFlags (f :: fs) = f ||| orFlags fs := by
  rw [orFlags, List.foldl_cons, BitVec.or_comm]
  exact List.foldl_assoc

theorem orFlags_range_succ (f : Nat → Flags) (n : Nat) :
    orFlags ((List.range (n + 1)).map f) = orFlags ((List.range n).map f) ||| f n := by
  rw [List.range_succ, List.map_append, orFlags, List.foldl_append]
  rfl

/-- The flags of pairs and of their two sides. -/
theorem orFlags_pairs (f g : Nat → Flags) (n : Nat) :
    orFlags ((List.range n).map fun i => f i ||| (g (2 * i) ||| g (2 * i + 1))) =
      orFlags ((List.range n).map f) ||| orFlags ((List.range (2 * n)).map g) := by
  induction n with
  | zero => exact (flags_or_zero 0).symm
  | succ n ih =>
    rw [orFlags_range_succ, orFlags_range_succ, Nat.mul_succ, orFlags_range_succ, orFlags_range_succ, ih]
    ac_rfl

/-! ### The pairwise tree (07 R155) -/

/-- One level of the tree adds neighbours. -/
theorem treeLevel_map (t : FFmt) (x : Nat → Nat) (n : Nat) : treeLevel t ((List.range (2 * n)).map x) =
    ((List.range n).map fun i => (t.add false (x (2 * i)) (x (2 * i + 1))).1,
      orFlags ((List.range n).map fun i => (t.add false (x (2 * i)) (x (2 * i + 1))).2)) := by
  induction n generalizing x with
  | zero => rfl
  | succ n ih =>
    have htail := ih fun i => x (i + 1 + 1)
    simp only [Nat.mul_succ, List.range_succ_eq_map, List.map_cons, List.map_map, Function.comp_def,
      Nat.succ_eq_add_one, treeLevel, orFlags_cons] at htail ⊢
    rw [htail]

/-- The flags that the additions of level l + 1 raise. -/
def levelFlags (t : FFmt) (x : Nat → Nat) (l n : Nat) : Flags :=
  orFlags ((List.range n).map fun i => (t.add false (sumNode t x l (2 * i)).1 (sumNode t x l (2 * i + 1)).1).2)

/-- One level of the tree makes the nodes of the next. -/
theorem treeLevel_nodes (t : FFmt) (x : Nat → Nat) (l n : Nat) :
    treeLevel t ((List.range (2 * n)).map fun i => (sumNode t x l i).1) =
      ((List.range n).map fun i => (sumNode t x (l + 1) i).1, levelFlags t x l n) := treeLevel_map ..

/-- The flags of the nodes of a level are those of its additions and of the nodes below. -/
theorem orFlags_nodes (t : FFmt) (x : Nat → Nat) (l n : Nat) :
    orFlags ((List.range n).map fun i => (sumNode t x (l + 1) i).2) =
      levelFlags t x l n ||| orFlags ((List.range (2 * n)).map fun i => (sumNode t x l i).2) :=
  orFlags_pairs (fun i => (t.add false (sumNode t x l (2 * i)).1 (sumNode t x l (2 * i + 1)).1).2)
    (fun i => (sumNode t x l i).2) n

/-- The levels above level l, on the nodes of that level. -/
theorem treeSum_nodes (t : FFmt) (x : Nat → Nat) (n l : Nat) :
    ∃ fl, treeSum t n ((List.range (2 ^ n)).map fun i => (sumNode t x l i).1) = ([(sumNode t x (l + n) 0).1], fl) ∧
      fl ||| orFlags ((List.range (2 ^ n)).map fun i => (sumNode t x l i).2) = (sumNode t x (l + n) 0).2 := by
  induction n generalizing l with
  | zero => exact ⟨0, rfl, BitVec.zero_or.trans BitVec.zero_or⟩
  | succ n ih =>
    obtain ⟨fl, hsum, hfl⟩ := ih (l + 1)
    rw [Nat.add_right_comm, orFlags_nodes] at hfl
    rw [Nat.add_right_comm] at hsum
    rw [pow_succ', treeSum, treeLevel_nodes]
    refine ⟨levelFlags t x l (2 ^ n) ||| fl, ?_, ?_⟩
    · dsimp only
      rw [hsum]
      rfl
    · rw [← Nat.add_assoc, ← hfl]
      ac_rfl

theorem treeSum_eq_sumNode (t : FFmt) (x : Nat → Nat) (n : Nat) :
    treeSum t n ((List.range (2 ^ n)).map x) = ([(sumNode t x n 0).1], (sumNode t x n 0).2) := by
  obtain ⟨fl, hsum, hfl⟩ := treeSum_nodes t x n 0
  have hzero (k : Nat) : orFlags ((List.range k).map fun i => (sumNode t x 0 i).2) = 0 := by
    induction k with
    | zero => rfl
    | succ k ih =>
      rw [orFlags_range_succ, ih]
      exact flags_or_zero 0
  rw [Nat.zero_add] at hsum hfl
  rw [hzero, flags_or_zero] at hfl
  rw [← hfl]
  exact hsum

/-! ### Running sums (07 R157) -/

/-- The sums after element k, from the sum up to it. -/
theorem scan_from (x : Nat → Nat) (n k : Nat) :
    ∃ fl, scan (prefixSum x k).1 ((List.range' (k + 1) n).map x) =
        ((List.range' (k + 1) n).map fun i => (prefixSum x i).1, fl) ∧
      (prefixSum x k).2 ||| fl = (prefixSum x (k + n)).2 := by
  induction n generalizing k with
  | zero => exact ⟨0, rfl, flags_or_zero _⟩
  | succ n ih =>
    obtain ⟨fl, hscan, hfl⟩ := ih (k + 1)
    refine ⟨(F32.add false (prefixSum x k).1 (x (k + 1))).2 ||| fl, ?_, ?_⟩
    · have hstep : (F32.add false (prefixSum x k).1 (x (k + 1))).1 = (prefixSum x (k + 1)).1 := rfl
      rw [List.range'_succ, List.map_cons, List.map_cons, scan, hstep, hscan]
    · rw [← BitVec.or_assoc, ← Nat.add_assoc, Nat.add_right_comm, ← hfl]
      rfl

theorem scan_eq_prefixSum (x : Nat → Nat) (n : Nat) :
    scan (F32.sign true) ((List.range (n + 1)).map x) =
      ((List.range (n + 1)).map fun i => (prefixSum x i).1, (prefixSum x n).2) := by
  obtain ⟨fl, hscan, hfl⟩ := scan_from x n 0
  have hfirst : F32.add false (F32.sign true) (x 0) = prefixSum x 0 := rfl
  rw [Nat.zero_add] at hscan hfl
  rw [List.range_eq_range', List.range'_succ, List.map_cons, List.map_cons, scan, hfirst, hscan, ← hfl]

/-! ### The slots -/

section
variable {s : State} {hd : Hdr} {i : Instr} {d a : BitVec 6}

/-- A reduction of its source's elements, the others taken as an identity. -/
theorem State.vreduce_gives {f : VReg → BitVec 64 → Word × Flags} {v : Word} {fl : Flags}
    (hi : exec i s = s.vreduce hd d a f) (hf : f (s.v! a) (s.mOn hd) = (v, fl)) (h : Free s { v := [a], ds := [d] }) :
    Gives i s ((s.results 10 [.s (s.sDst d) v, .fpst fl]).pops [a]) := by
  refine (hi.trans (State.vslot_on h)).trans ?_
  dsimp only
  rw [hf]

/-- A float sum of 2^n elements (07 R155). -/
theorem vrsumF_eq (t : FFmt) {n : Nat} (hn : 2048 / t.w = 2 ^ n) (x : VReg) (m : BitVec 64) :
    vrsumF t n x m =
      (BitVec.ofNat 64 (sumNode t (fun e => if on m t.w e = true then elem x t.w e else t.sign true) n 0).1,
        (sumNode t (fun e => if on m t.w e = true then elem x t.w e else t.sign true) n 0).2) := by
  have hsum := treeSum_eq_sumNode t (fun e => if on m t.w e = true then elem x t.w e else t.sign true) n
  rw [← hn] at hsum
  rw [vrsumF, show orElse x m t.w (t.sign true) = _ from rfl]
  exact congrArg (fun r : List Nat × Flags => (BitVec.ofNat 64 (r.1.headD 0), r.2)) hsum

theorem vrsumF_gives {r : (Hdr → BitVec 6 → BitVec 6 → Instr) × FFmt × Nat}
    (hr : r ∈ [(Instr.vrsumF32, F32, 6), (Instr.vrsumF64, F64, 5)]) (h : Free s { v := [a], ds := [d] }) :
    let t := r.2.1
    let x := sumNode t (fun e => if on (s.mOn hd) t.w e = true then elem (s.v! a) t.w e else t.sign true) r.2.2 0
    Gives (r.1 hd d a) s ((s.results 10 [.s (s.sDst d) (BitVec.ofNat 64 x.1), .fpst x.2]).pops [a]) := by
  simp only [List.mem_cons, List.not_mem_nil, or_false] at hr
  rcases hr with rfl | rfl
  · exact State.vreduce_gives rfl (vrsumF_eq F32 rfl _ _) h
  · exact State.vreduce_gives rfl (vrsumF_eq F64 rfl _ _) h

theorem map_sint_orElse (x : VReg) (m : BitVec 64) : (orElse x m 32 0).map (sint 32) =
    (List.range 64).map fun e => if on m 32 e = true then sint 32 (elem x 32 e) else 0 := by
  rw [orElse, List.map_map]
  refine List.map_congr_left fun e _ => ?_
  rw [Function.comp_apply, apply_ite (sint 32)]
  rfl

theorem vrsumI32_gives (h : Free s { v := [a], ds := [d] }) :
    Gives (.vrsumI32 hd d a) s ((s.results 10 [.s (s.sDst d) (BitVec.ofInt 64 ((List.range 64).map fun e =>
      if on (s.mOn hd) 32 e = true then sint 32 (elem (s.v! a) 32 e) else 0).sum), .fpst 0]).pops [a]) := by
  have runs : exec (.vrsumI32 hd d a) s =
      s.vreduce hd d a fun x m => (BitVec.ofInt 64 ((orElse x m 32 0).map (sint 32)).sum, 0) := rfl
  refine State.vreduce_gives runs ?_ h
  rw [map_sint_orElse]

theorem vscanF32_gives (h : Free s { v := [a], dv := [d] }) :
    let x (e : Nat) : Nat := if on (s.mOn hd) 32 e = true then elem (s.v! a) 32 e else F32.sign true
    ∃ mask val, Gives (.vscanF32 hd d a) s
        ((s.results 10 [.v d.toNat mask val, .fpst (prefixSum x 63).2]).pops [a]) ∧
      Elements 32 mask val (on (s.mOn hd) 32) fun e => (prefixSum x e).1 := by
  intro x
  have hscan : scan (F32.sign true) (orElse (s.v! a) (s.mOn hd) 32 (F32.sign true)) = _ := scan_eq_prefixSum x 63
  refine ⟨elemMask (s.mOn hd) 32, vreg 32 ((List.range 64).map fun e => (prefixSum x e).1), ?_,
    elements_elemMask _ fun _ _ _ => rfl⟩
  refine ((rfl : _ = execVscanF32 hd d a s).trans (State.vslot_on h)).trans ?_
  dsimp only
  rw [hscan]

end

end Sys2Proof.Machine
end

section
/-!
# Extremes over a vector (07 R156)

An extreme is a fold that keeps one of two elements, neither before the one kept. Floating-point values that are no
NaN are ordered by a rank: infinities outside the finite values, these by their value, and a zero by its sign.
-/
namespace Sys2Proof.Machine

open Sys2Proof.Claims

/-! ### Folds that keep one of two -/

/-- A fold that keeps one of two elements, at least as far under R as both, gives one at least as far as all. -/
theorem foldl_keeps_extreme {α : Type} {R : α → α → Prop} {P : α → Prop} {pick : α → α → α} (refl : ∀ x, R x x)
    (trans : ∀ x y z, R x y → R y z → R x z)
    (hpick : ∀ r x, P r → P x → (pick r x = r ∨ pick r x = x) ∧ R r (pick r x) ∧ R x (pick r x))
    {l : List α} {r : α} (h : ∀ x ∈ r :: l, P x) :
    l.foldl pick r ∈ r :: l ∧ ∀ x ∈ r :: l, R x (l.foldl pick r) := by
  induction l generalizing r with
  | nil => simp [refl]
  | cons y l ih =>
    have hr : P r := h r List.mem_cons_self
    have hy : P y := h y (List.mem_cons_of_mem _ List.mem_cons_self)
    obtain ⟨hmem, hfar, hfary⟩ := hpick r y hr hy
    have hP : ∀ x ∈ pick r y :: l, P x := by
      intro x hx
      rcases List.mem_cons.mp hx with rfl | hx
      · rcases hmem with e | e <;> rw [e] <;> assumption
      · exact h x (List.mem_cons_of_mem _ (List.mem_cons_of_mem _ hx))
    obtain ⟨hin, hall⟩ := ih hP
    have hlast := hall _ List.mem_cons_self
    rw [List.foldl_cons]
    constructor
    · rcases List.mem_cons.mp hin with e | hin
      · rw [e]
        rcases hmem with e | e <;> simp [e]
      · exact List.mem_cons_of_mem _ (List.mem_cons_of_mem _ hin)
    · intro x hx
      rcases List.mem_cons.mp hx with rfl | hx
      · exact trans _ _ _ hfar hlast
      · rcases List.mem_cons.mp hx with rfl | hx
        · exact trans _ _ _ hfary hlast
        · exact hall x (List.mem_cons_of_mem _ hx)

/-- One value is at least as far as another toward the extreme that is asked for. -/
def AsFar {α : Type} [Preorder α] (isMax : Bool) (x y : α) : Prop := if isMax then x ≤ y else y ≤ x

theorem AsFar.refl {α : Type} [Preorder α] (isMax : Bool) (x : α) : AsFar isMax x x := by
  cases isMax <;> exact le_rfl

theorem AsFar.trans {α : Type} [Preorder α] {isMax : Bool} {x y z : α} (h : AsFar isMax x y) (k : AsFar isMax y z) :
    AsFar isMax x z := by
  cases isMax
  · exact le_trans (α := α) k h
  · exact le_trans (α := α) h k

/-! ### The selected elements -/

section
variable {m : BitVec 64} {w : Nat} {x : VReg}

/-- The elements of width w that a mask selects, from lane 0 upward. -/
def selected (m : BitVec 64) (w : Nat) (x : VReg) : List Nat :=
  ((List.range (2048 / w)).filter fun e => sel m w e).map (elem x w)

theorem mem_selected {y : Nat} : y ∈ selected m w x ↔ ∃ e < 2048 / w, on m w e = true ∧ elem x w e = y := by
  simp only [selected, List.mem_map, List.mem_filter, List.mem_range, and_assoc]
  rfl

theorem forall_selected {P : Nat → Prop} :
    (∀ y ∈ selected m w x, P y) ↔ ∀ e < 2048 / w, on m w e = true → P (elem x w e) := by
  simp only [mem_selected]
  exact ⟨fun h e he hm => h _ ⟨e, he, hm, rfl⟩, fun h _ ⟨e, he, hm, hy⟩ => hy ▸ h e he hm⟩

theorem exists_selected {P : Nat → Prop} :
    (∃ y ∈ selected m w x, P y) ↔ ∃ e < 2048 / w, on m w e = true ∧ P (elem x w e) := by
  simp only [mem_selected]
  exact ⟨fun ⟨_, ⟨e, he, hm, hy⟩, hP⟩ => ⟨e, he, hm, hy ▸ hP⟩, fun ⟨e, he, hm, hP⟩ => ⟨_, ⟨e, he, hm, rfl⟩, hP⟩⟩

theorem selected_lt : ∀ y ∈ selected m w x, y < 2 ^ w := forall_selected.mpr fun _ _ _ => elem_lt ..

theorem selected_eq_nil : selected m w x = [] ↔ ∀ e < 2048 / w, on m w e = false := by
  simp only [selected, List.map_eq_nil_iff, List.filter_eq_nil_iff, List.mem_range, Bool.not_eq_true]
  rfl

theorem selected_ne_nil (h : ∃ e < 2048 / w, on m w e = true) : selected m w x ≠ [] := by
  obtain ⟨e, he, hm⟩ := h
  exact List.ne_nil_of_mem (mem_selected.mpr ⟨e, he, hm, rfl⟩)

end

/-! ### Integers -/

/-- The reading of an element of 32 bits, unsigned or signed. -/
def intReading (u : Bool) (y : Nat) : Int := if u then (y : Int) else sint 32 y

/-- The result for no element (07 R156). -/
def intNone (u isMax : Bool) : Int :=
  if isMax then (if u then 0 else -(2 ^ 31)) else (if u then 2 ^ 32 - 1 else 2 ^ 31 - 1)

/-- The extreme of a list of elements of 32 bits. -/
def intExtreme (u isMax : Bool) (xs : List Nat) : Int :=
  (xs.map (intReading u)).foldl (fun r x => if isMax then max r x else min r x) (intNone u isMax)

theorem extremeI_eq (u isMax : Bool) (xs : List Nat) :
    extremeI u isMax xs = BitVec.ofInt 64 (intExtreme u isMax xs) :=
  rfl

/-- No element lies beyond the result for none. -/
theorem intReading_within (u : Bool) {y : Nat} (h : y < 2 ^ 32) :
    intNone u true ≤ intReading u y ∧ intReading u y ≤ intNone u false := by
  cases u
  · have hlow : -(2 ^ 31) ≤ sint 32 y ∧ sint 32 y ≤ 2 ^ 31 - 1 := by
      rw [sint, Nat.mod_eq_of_lt h]
      split <;> omega
    exact hlow
  · have hhigh : (0 : Int) ≤ y ∧ (y : Int) ≤ 2 ^ 32 - 1 := by omega
    exact hhigh

theorem intExtreme_spec (u isMax : Bool) {xs : List Nat} (hlt : ∀ y ∈ xs, y < 2 ^ 32) (hne : xs ≠ []) :
    (∃ y ∈ xs, intExtreme u isMax xs = intReading u y) ∧
      ∀ y ∈ xs, AsFar isMax (intReading u y) (intExtreme u isMax xs) := by
  have hpick (r x : Int) : ((if isMax then max r x else min r x) = r ∨ (if isMax then max r x else min r x) = x) ∧
      AsFar isMax r (if isMax then max r x else min r x) ∧ AsFar isMax x (if isMax then max r x else min r x) := by
    cases isMax
    · exact ⟨min_choice r x, min_le_left r x, min_le_right r x⟩
    · exact ⟨max_choice r x, le_max_left r x, le_max_right r x⟩
  obtain ⟨hmem, hfar⟩ := foldl_keeps_extreme (P := fun _ => True) (l := xs.map (intReading u)) (r := intNone u isMax)
    (AsFar.refl isMax) (fun _ _ _ => AsFar.trans) (fun r x _ _ => hpick r x) fun _ _ => trivial
  have hall : ∀ y ∈ xs, AsFar isMax (intReading u y) (intExtreme u isMax xs) := fun y hy =>
    hfar _ (List.mem_cons_of_mem _ (List.mem_map_of_mem hy))
  refine ⟨?_, hall⟩
  rcases List.mem_cons.mp hmem with hnone | hin
  · obtain ⟨y, hy⟩ := List.exists_mem_of_ne_nil xs hne
    have hwithin := intReading_within u (hlt y hy)
    have hbeyond := hall y hy
    refine ⟨y, hy, hnone.trans ?_⟩
    rw [show intExtreme u isMax xs = intNone u isMax from hnone] at hbeyond
    cases isMax
    · exact le_antisymm hbeyond hwithin.2
    · exact le_antisymm hwithin.1 hbeyond
  · obtain ⟨y, hy, heq⟩ := List.mem_map.mp hin
    exact ⟨y, hy, heq.symm⟩

/-! ### The order of floating-point values (06 R139) -/

/-- The rank of a value that is no NaN. -/
def FVal.rank : FVal → Int ×ₗ ℚ ×ₗ Bool
  | .nan _ => toLex (0, toLex (0, false))
  | .inf n => toLex (if n then -1 else 1, toLex (0, false))
  | .fin n m e => toLex (0, toLex (value (.fin n m e), !n))

theorem value_scaled (n : Bool) (m : Nat) {e q : Int} (h : q ≤ e) : value (.fin n m e) = scaled n m e q * 2 ^ q := by
  rw [value_fin, mul_zpow_eq_of_le m h, scaled, signed]
  cases n
  · simp
  · simp

theorem FVal.lt_fin (n n' : Bool) (m m' : Nat) (e e' : Int) :
    FVal.lt (.fin n m e) (.fin n' m' e') = decide (value (.fin n m e) < value (.fin n' m' e')) := by
  rw [value_scaled n m (min_le_left e e'), value_scaled n' m' (min_le_right e e')]
  refine decide_eq_decide.mpr ?_
  rw [mul_lt_mul_iff_of_pos_right (by positivity)]
  exact Int.cast_lt.symm

/-- Values of opposite signs are equal only as zeros. -/
theorem value_eq_of_opposite (m m' : Nat) (e e' : Int) :
    value (.fin true m e) = value (.fin false m' e') ↔ m = 0 ∧ m' = 0 := by
  have hpos : (0 : ℚ) < 2 ^ e ∧ (0 : ℚ) < 2 ^ e' := ⟨by positivity, by positivity⟩
  have hm : (0 : ℚ) ≤ m * 2 ^ e ∧ (0 : ℚ) ≤ m' * 2 ^ e' := ⟨by positivity, by positivity⟩
  rw [value_fin, value_fin]
  constructor
  · intro h
    have h : -((m : ℚ) * 2 ^ e) = m' * 2 ^ e' := h
    have hz : (m : ℚ) * 2 ^ e = 0 ∧ (m' : ℚ) * 2 ^ e' = 0 := ⟨by linarith, by linarith⟩
    simpa [hpos.1.ne', hpos.2.ne'] using hz
  · rintro ⟨rfl, rfl⟩
    simp [signed]

theorem FVal.before_iff {x y : FVal} (hx : x.isNan = false) (hy : y.isNan = false) :
    x.before y = true ↔ x.rank < y.rank := by
  cases x with
  | nan => cases hx
  | inf n =>
    cases y with
    | nan => cases hy
    | inf n' => cases n <;> cases n' <;> simp [FVal.before, FVal.lt, FVal.isZero, FVal.rank, Prod.Lex.toLex_lt_toLex]
    | fin n' m' e' => cases n <;> simp [FVal.before, FVal.lt, FVal.isZero, FVal.rank, Prod.Lex.toLex_lt_toLex]
  | fin n m e =>
    cases y with
    | nan => cases hy
    | inf n' => cases n' <;> simp [FVal.before, FVal.lt, FVal.isZero, FVal.rank, Prod.Lex.toLex_lt_toLex]
    | fin n' m' e' =>
      rw [FVal.before, FVal.lt_fin]
      simp only [FVal.rank, Prod.Lex.toLex_lt_toLex, lt_irrefl, false_or, true_and, Bool.or_eq_true,
        decide_eq_true_eq]
      refine or_congr_right ?_
      cases n <;> cases n' <;> simp [FVal.isZero, FVal.neg, value_eq_of_opposite]

/-! ### Floating-point extremes -/

/-- One element's value is at least as far as another's. -/
def FFmt.AsFar (t : FFmt) (isMax : Bool) (x y : Nat) : Prop :=
  Machine.AsFar isMax (t.decode x).rank (t.decode y).rank

section
variable {t : FFmt} (ht : t.f + 1 < t.w)

/-- An element at least as far as another is not ordered behind it. -/
theorem FFmt.AsFar.not_behind {isMax : Bool} {y r : Nat} (hy : (t.decode y).isNan = false)
    (hr : (t.decode r).isNan = false) (h : t.AsFar isMax y r) :
    (if isMax = true then (t.decode r).before (t.decode y) else (t.decode y).before (t.decode r)) = false := by
  cases isMax
  · exact Bool.eq_false_iff.mpr fun hb => not_lt_of_ge h ((FVal.before_iff hy hr).mp hb)
  · exact Bool.eq_false_iff.mpr fun hb => not_lt_of_ge h ((FVal.before_iff hr hy).mp hb)

include ht

/-- The one of two numbers that VRMAX and VRMIN keep. -/
theorem FFmt.minmax_keeps (np isMax : Bool) {r x : Nat} (hr : r < 2 ^ t.w ∧ (t.decode r).isNan = false)
    (hx : x < 2 ^ t.w ∧ (t.decode x).isNan = false) :
    ((t.minmax false np isMax r x).1 = r ∨ (t.minmax false np isMax r x).1 = x) ∧
      t.AsFar isMax r (t.minmax false np isMax r x).1 ∧ t.AsFar isMax x (t.minmax false np isMax r x).1 := by
  obtain ⟨hr, hrn⟩ := hr
  obtain ⟨hx, hxn⟩ := hx
  have hkept : (t.minmax false np isMax r x).1 =
      if (if isMax then (t.decode x).before (t.decode r) else (t.decode r).before (t.decode x)) = true
      then r else x := by
    simp only [FFmt.minmax, FFmt.decodeFlush_false, hrn, hxn, FFmt.self_false ht]
    simp [apply_ite (· % 2 ^ t.w), Nat.mod_eq_of_lt hr, Nat.mod_eq_of_lt hx]
  rw [hkept]
  cases isMax
  · by_cases hb : (t.decode r).before (t.decode x) = true
    · simp only [Bool.false_eq_true, if_false, if_pos hb]
      exact ⟨.inl trivial, .refl .., ((FVal.before_iff hrn hxn).mp hb).le⟩
    · simp only [Bool.false_eq_true, if_false, if_neg hb]
      exact ⟨.inr trivial, not_lt.mp fun h => hb ((FVal.before_iff hrn hxn).mpr h), .refl ..⟩
  · by_cases hb : (t.decode x).before (t.decode r) = true
    · simp only [if_true, if_pos hb]
      exact ⟨.inl trivial, .refl .., ((FVal.before_iff hxn hrn).mp hb).le⟩
    · simp only [if_true, if_neg hb]
      exact ⟨.inr trivial, not_lt.mp fun h => hb ((FVal.before_iff hxn hrn).mpr h), .refl ..⟩

end

/-- The elements of a list that are no NaN. -/
def numbers (t : FFmt) (xs : List Nat) : List Nat := xs.filter fun x => !(t.decode x).isNan

theorem mem_numbers {t : FFmt} {xs : List Nat} {y : Nat} :
    y ∈ numbers t xs ↔ y ∈ xs ∧ (t.decode y).isNan = false := by
  rw [numbers, List.mem_filter, Bool.not_eq_true']

theorem numbers_length_lt {t : FFmt} {xs : List Nat} :
    (numbers t xs).length < xs.length ↔ ∃ y ∈ xs, (t.decode y).isNan = true := by
  rw [numbers, List.length_filter_lt_length_iff_exists]
  simp

theorem extremeF_flags (t : FFmt) (np isMax : Bool) (l : List Nat) :
    (extremeF t np isMax l).2 = if ∃ y ∈ l, (t.decode y).isSnan = true then fNV else 0 := by
  have hsnan : snan (l.map t.decode) = if ∃ y ∈ l, (t.decode y).isSnan = true then fNV else 0 := by
    simp only [snan, flagIf, List.any_map, List.any_eq_true, Function.comp_apply]
  rw [← hsnan]
  unfold extremeF
  dsimp only
  split
  · rfl
  · rfl
  · split <;> rfl

theorem extremeF_of_numbers_nil {t : FFmt} {np isMax : Bool} {l : List Nat} (hne : l ≠ []) (h : numbers t l = []) :
    (extremeF t np isMax l).1 = t.nan := by
  cases l with
  | nil => exact absurd rfl hne
  | cons x l =>
    unfold numbers at h
    simp only [extremeF, h]

theorem extremeF_of_numbers_cons {t : FFmt} {np isMax : Bool} {l ys : List Nat} {y : Nat}
    (h : numbers t l = y :: ys) :
    (extremeF t np isMax l).1 = if np = true ∧ ∃ z ∈ l, (t.decode z).isNan = true then t.nan
      else ys.foldl (fun r x => (t.minmax false np isMax r x).1) y := by
  simp only [← numbers_length_lt, h]
  cases l with
  | nil => cases h
  | cons x l =>
    unfold numbers at h
    simp only [extremeF, h, Bool.and_eq_true, decide_eq_true_eq, apply_ite Prod.fst]

/-- With elements of which none is a number, or a NaN that NP lets through, the result is the canonical NaN. -/
theorem extremeF_nan {t : FFmt} {np isMax : Bool} {l : List Nat} (hne : l ≠ [])
    (h : (∀ y ∈ l, (t.decode y).isNan = true) ∨ (np = true ∧ ∃ y ∈ l, (t.decode y).isNan = true)) :
    (extremeF t np isMax l).1 = t.nan := by
  cases hnums : numbers t l with
  | nil => exact extremeF_of_numbers_nil hne hnums
  | cons y ys =>
    have hy : y ∈ numbers t l := hnums ▸ List.mem_cons_self
    obtain ⟨hyl, hyn⟩ := mem_numbers.mp hy
    have hnp := h.resolve_left fun hall => Bool.false_ne_true (hyn.symm.trans (hall y hyl))
    rw [extremeF_of_numbers_cons hnums, if_pos hnp]

/-- With a number among the elements and no NaN that NP lets through, the result is the extreme of the numbers. -/
theorem extremeF_number {t : FFmt} (ht : t.f + 1 < t.w) {np isMax : Bool} {l : List Nat} (hlt : ∀ y ∈ l, y < 2 ^ t.w)
    (hnum : ∃ y ∈ l, (t.decode y).isNan = false) (hnp : np = true → ∀ y ∈ l, (t.decode y).isNan = false) :
    (extremeF t np isMax l).1 ∈ numbers t l ∧ ∀ y ∈ numbers t l, t.AsFar isMax y (extremeF t np isMax l).1 := by
  have hnumber : ∀ y ∈ numbers t l, y < 2 ^ t.w ∧ (t.decode y).isNan = false := fun y hy =>
    (mem_numbers.mp hy).imp_left (hlt y)
  obtain ⟨y, hy⟩ : ∃ y, y ∈ numbers t l := hnum.imp fun _ => mem_numbers.mpr
  obtain ⟨z, ys, hnums⟩ := List.exists_cons_of_ne_nil (List.ne_nil_of_mem hy)
  have hpasses : ¬ (np = true ∧ ∃ z ∈ l, (t.decode z).isNan = true) := by
    rintro ⟨h, z, hz, hzn⟩
    exact Bool.false_ne_true ((hnp h z hz).symm.trans hzn)
  rw [extremeF_of_numbers_cons hnums, if_neg hpasses]
  rw [hnums] at hnumber ⊢
  exact foldl_keeps_extreme (R := t.AsFar isMax) (fun _ => AsFar.refl ..) (fun _ _ _ => AsFar.trans)
    (fun r x hr hx => FFmt.minmax_keeps ht np isMax hr hx) hnumber

/-! ### The slots -/

/-- The slots of the extremes and whether each gives the larger. -/
def extremeSlots : List ((Hdr → BitVec 6 → BitVec 6 → BitVec 4 → BitVec 1 → BitVec 1 → Instr) × Bool) :=
  [(Instr.vrmax, true), (Instr.vrmin, false)]

section
variable {s : State} {hd : Hdr} {d a : BitVec 6}
  {r : (Hdr → BitVec 6 → BitVec 6 → BitVec 4 → BitVec 1 → BitVec 1 → Instr) × Bool}

theorem exec_extreme (hr : r ∈ extremeSlots) (hd : Hdr) (d a : BitVec 6) (f : BitVec 4) (u n : BitVec 1) (s : State) :
    exec (r.1 hd d a f u n) s = s.vextreme hd d a f u n r.2 := by
  simp only [extremeSlots, List.mem_cons, List.not_mem_nil, or_false] at hr
  rcases hr with rfl | rfl <;> rfl

theorem extremeI_gives (hr : r ∈ extremeSlots) (u n : BitVec 1) (h : Free s { v := [a], ds := [d] }) :
    Gives (r.1 hd d a 7 u n) s ((s.results 10 [.s (s.sDst d)
      (BitVec.ofInt 64 (intExtreme (decide (u = 1)) r.2 (selected (s.mOn hd) 32 (s.v! a)))), .fpst 0]).pops [a]) :=
  State.vreduce_gives (exec_extreme hr hd d a 7 u n s) (Prod.ext (extremeI_eq ..) rfl) h

theorem extremeF_gives (hr : r ∈ extremeSlots) {c : BitVec 4 × FFmt} (hc : c ∈ [((0 : BitVec 4), F32), (1, F64)])
    (u n : BitVec 1) (h : Free s { v := [a], ds := [d] }) :
    let x := extremeF c.2 (decide (n = 1)) r.2 (selected (s.mOn hd) c.2.w (s.v! a))
    Gives (r.1 hd d a c.1 u n) s ((s.results 10 [.s (s.sDst d) (BitVec.ofNat 64 x.1), .fpst x.2]).pops [a]) := by
  simp only [List.mem_cons, List.not_mem_nil, or_false] at hc
  rcases hc with rfl | rfl
  · exact State.vreduce_gives (exec_extreme hr hd d a 0 u n s) rfl h
  · exact State.vreduce_gives (exec_extreme hr hd d a 1 u n s) rfl h

/-- What the two slots give for integers (07 R156). -/
theorem integerExtremes (u n : BitVec 1) (h : Free s { v := [a], ds := [d] }) :
    let m := on (s.mOn hd) 32
    let x := elem (s.v! a) 32
    let val (y : Nat) : Int := if u = 1 then (y : Int) else sint 32 y
    ∃ hi lo : Int,
      Gives (.vrmax hd d a 7 u n) s ((s.results 10 [.s (s.sDst d) (BitVec.ofInt 64 hi), .fpst 0]).pops [a]) ∧
      Gives (.vrmin hd d a 7 u n) s ((s.results 10 [.s (s.sDst d) (BitVec.ofInt 64 lo), .fpst 0]).pops [a]) ∧
      ((∀ e < 64, m e = false) →
        hi = (if u = 1 then 0 else -(2 ^ 31)) ∧ lo = (if u = 1 then 2 ^ 32 - 1 else 2 ^ 31 - 1)) ∧
      ((∃ e < 64, m e = true) → (∃ e < 64, m e = true ∧ hi = val (x e)) ∧ (∃ e < 64, m e = true ∧ lo = val (x e)) ∧
        ∀ e < 64, m e = true → val (x e) ≤ hi ∧ lo ≤ val (x e)) := by
  intro m x val
  have hval (y : Nat) : intReading (decide (u = 1)) y = val y := by
    simp only [intReading, decide_eq_true_eq, val]
  refine ⟨_, _, extremeI_gives (r := (.vrmax, true)) (by simp [extremeSlots]) u n h,
    extremeI_gives (r := (.vrmin, false)) (by simp [extremeSlots]) u n h, fun hnone => ?_, ?_⟩
  · rw [selected_eq_nil.mpr hnone]
    simp [intExtreme, intNone]
  · intro hsome
    have hne := selected_ne_nil (w := 32) (x := s.v! a) hsome
    obtain ⟨hhi, hup⟩ := intExtreme_spec (decide (u = 1)) true selected_lt hne
    obtain ⟨hlo, hdown⟩ := intExtreme_spec (decide (u = 1)) false selected_lt hne
    simp only [hval] at hhi hup hlo hdown
    exact ⟨exists_selected.mp hhi, exists_selected.mp hlo, fun e he hm =>
      ⟨forall_selected.mp hup e he hm, forall_selected.mp hdown e he hm⟩⟩

/-- What the two slots give for a float format (07 R156). -/
theorem floatExtremes {c : BitVec 4 × FFmt} (hc : c ∈ [((0 : BitVec 4), F32), (1, F64)]) (hr : r ∈ extremeSlots)
    (u n : BitVec 1) (h : Free s { v := [a], ds := [d] }) :
    let t := c.2
    let m := on (s.mOn hd) t.w
    let x := elem (s.v! a) t.w
    let nan (e : Nat) : Bool := (t.decode (x e)).isNan
    let k := 2048 / t.w
    ∃ res fl, Gives (r.1 hd d a c.1 u n) s ((s.results 10 [.s (s.sDst d) (BitVec.ofNat 64 res), .fpst fl]).pops [a]) ∧
      (fl = if (∃ e < k, m e = true ∧ (t.decode (x e)).isSnan = true) then fNV else 0) ∧
      ((∀ e < k, m e = false) → res = t.sign r.2 + t.inf) ∧
      ((∃ e < k, m e = true) → (∀ e < k, m e = true → nan e = true) ∨ (n = 1 ∧ ∃ e < k, m e = true ∧ nan e = true) →
        res = t.nan) ∧
      ((∃ e < k, m e = true ∧ nan e = false) → (n = 1 → ∀ e < k, m e = true → nan e = false) →
        Extreme k (fun e => m e && !nan e) x (fun y z =>
          if r.2 = true then (t.decode z).before (t.decode y) else (t.decode y).before (t.decode z)) res) := by
  intro t m x nan k
  have ht : t.f + 1 < t.w := by
    simp only [List.mem_cons, List.not_mem_nil, or_false] at hc
    rcases hc with rfl | rfl <;> decide
  refine ⟨_, _, extremeF_gives hr hc u n h, ?_, fun hnone => ?_, fun hsome hnan => ?_, fun hnum hnp => ?_⟩
  · simp only [extremeF_flags, exists_selected]
    rfl
  · rw [selected_eq_nil.mpr hnone]
    rfl
  · refine extremeF_nan (selected_ne_nil hsome) ?_
    rw [forall_selected, exists_selected, decide_eq_true_eq]
    exact hnan
  · obtain ⟨hmem, hfar⟩ := extremeF_number (np := decide (n = 1)) (isMax := r.2) ht (selected_lt (x := s.v! a))
      (exists_selected.mpr hnum) fun hn => forall_selected.mpr (hnp (of_decide_eq_true hn))
    obtain ⟨hsel, hres⟩ := mem_numbers.mp hmem
    obtain ⟨e, he, hm, hx⟩ := mem_selected.mp hsel
    have hnumber (i : Nat) : (m i && !nan i) = true ↔ m i = true ∧ nan i = false := by
      rw [Bool.and_eq_true, Bool.not_eq_true']
    refine ⟨⟨e, he, (hnumber e).mpr ⟨hm, ?_⟩, hx.symm⟩, fun i hi hmi => ?_⟩
    · rwa [← hx] at hres
    · obtain ⟨hmi, hni⟩ := (hnumber i).mp hmi
      exact FFmt.AsFar.not_behind hni hres (hfar _ (mem_numbers.mpr ⟨mem_selected.mpr ⟨i, hi, hmi, rfl⟩, hni⟩))

end

end Sys2Proof.Machine

open Sys2Proof Sys2Proof.Machine Sys2Proof.Claims

/-- Settles O10: the levels of the tree and the steps of the scan are the nodes and running sums of the statement,
and an extreme is a fold that keeps the farther of two elements. -/
theorem vectorReductionsIssueTheirResult : Obligations.VectorReductionsIssueTheirResult :=
  ⟨fun _ hr _ _ _ _ h => vrsumF_gives hr h, fun _ _ _ _ h => vrsumI32_gives h,
    fun _ _ _ _ u n h => integerExtremes u n h, fun _ hc _ hr _ _ _ _ u n h => floatExtremes hc hr u n h,
    fun _ _ _ _ h => vscanF32_gives h⟩

end

section
/-!
# Walks and the zeroing of pages (08 R166 to R171, R177; 15 R337)

A walk ends in a fault, a wait or a leaf, and the walk event and the zeroing event have one answer for each. A page is
zeroed in the cells alone, beside the entry that loses its Z.
-/
namespace Sys2Proof.Machine

open Sys2Proof.Claims

/-! ### Clearing Z (08 R169) -/

theorem clearZ_lt {e : Nat} (h : e < 256 ^ 8) : clearZ e < 256 ^ 8 := by
  unfold clearZ
  split <;> omega

theorem bits_clearZ (e : Nat) : bits (clearZ e) 61 61 = 0 := by
  unfold clearZ bits
  split <;> omega

/-! ### What zeroing a page leaves -/

/-- A page is zeroed by clearing its cells and writing its entry with Z clear. -/
theorem State.zeroPage_cells (s : State) (key size entry : Nat) :
    (s.zeroPage key size entry).mem.cells = Cells.write (Cells.zero s.mem.cells key size) entry 8
      (clearZ (Cells.read (Cells.zero s.mem.cells key size) entry 8)) := by
  rw [State.zeroPage, State.numberPorts_mem]
  exact State.wr_cells ..

theorem State.zeroPage_tlb (s : State) (key size entry : Nat) : (s.zeroPage key size entry).mem.tlb = s.mem.tlb := by
  rw [State.zeroPage, State.numberPorts_mem]
  obtain ⟨-, -, -, -, -, -, -, h⟩ := State.wr_frame { s with mem := { s.mem with
    cells := Cells.zero s.mem.cells key size
    who := s.mem.who.filter fun c => !inRanges [(key, size)] c.1
    poison := s.mem.poison.filter fun l => !wholeLine key size l } } entry 8
      (clearZ (Cells.read (Cells.zero s.mem.cells key size) entry 8))
  exact h

/-- The state in which a zeroed page's translation is installed. -/
def State.zeroed (s : State) (tenant tier va key size entry : Nat) : State :=
  ((s.zeroPage key size entry).dropStale).install tenant tier va key size

section
variable {s : State} {key size entry : Nat} (hwf : Memory.wf s.mem = true)
include hwf

theorem State.zeroPage_get {x : Nat} (hx : x < entry ∨ entry + 8 ≤ x) :
    Cells.get (s.zeroPage key size entry).mem.cells x =
      if key ≤ x ∧ x < key + size then 0 else Cells.get s.mem.cells x := by
  rw [State.zeroPage_cells, Cells.get_write_outside _ (Cells.wf_zero _ _ hwf) hx, Cells.get_zero _ _ _ hwf]

theorem State.zeroPage_entry : bits ((s.zeroPage key size entry).rd entry 8) 61 61 = 0 := by
  rw [State.rd, State.zeroPage_cells, Cells.read_write_same _ _ _ (Cells.wf_zero _ _ hwf),
    Nat.mod_eq_of_lt (clearZ_lt (Cells.read_lt ..)), bits_clearZ]

end

/-! ### The two events -/

section
variable {s : State} {tenant tier va : Nat}

theorem pageZeroing_gives_of_fault {l : Nat} (hw : s.walk tenant tier va = .fault l) :
    Gives (.pageZeroing tenant tier va) s s := by
  refine (rfl : _ = execPageZeroing tenant tier va s).trans ?_
  rw [execPageZeroing, hw]

theorem pageZeroing_gives_of_wait (hw : s.walk tenant tier va = .wait) :
    Gives (.pageZeroing tenant tier va) s (s.push (.pageZeroing tenant tier va)) := by
  refine (rfl : _ = execPageZeroing tenant tier va s).trans ?_
  rw [execPageZeroing, hw]

section
variable {key size entry : Nat} (hw : s.walk tenant tier va = .leaf key size true entry)
include hw

theorem pageZeroing_gives_of_held (hh : s.pageHeld tenant tier va key size = true) :
    Gives (.pageZeroing tenant tier va) s (s.push (.pageZeroing tenant tier va)) := by
  refine (rfl : _ = execPageZeroing tenant tier va s).trans ?_
  rw [execPageZeroing, hw]
  dsimp only
  rw [hh]
  rfl

theorem pageZeroing_gives (hh : s.pageHeld tenant tier va key size = false) (h : s.tlb? tenant tier va = none) :
    Gives (.pageZeroing tenant tier va) s (s.zeroed tenant tier va key size entry) := by
  refine (rfl : _ = execPageZeroing tenant tier va s).trans ?_
  have htlb : (s.zeroPage key size entry).dropStale.tlb? tenant tier va = none := by
    rw [← h]
    exact congrArg (List.find? _) (s.zeroPage_tlb key size entry)
  rw [execPageZeroing, hw]
  dsimp only
  rw [hh, Bool.and_false, if_neg Bool.false_ne_true, if_pos rfl, htlb]
  rfl

end

section
variable (h : s.tlb? tenant tier va = none)
include h

theorem pageWalk_gives_of_fault {l : Nat} (hw : s.walk tenant tier va = .fault l) :
    Gives (.pageWalk tenant tier va) s s := by
  refine (rfl : _ = execPageWalk tenant tier va s).trans ?_
  rw [execPageWalk, h, hw]

theorem pageWalk_gives_of_wait (hw : s.walk tenant tier va = .wait) :
    Gives (.pageWalk tenant tier va) s (s.push (.pageWalk tenant tier va)) := by
  refine (rfl : _ = execPageWalk tenant tier va s).trans ?_
  rw [execPageWalk, h, hw]

theorem pageWalk_gives_of_leaf {key size entry : Nat} (hw : s.walk tenant tier va = .leaf key size false entry) :
    Gives (.pageWalk tenant tier va) s (s.install tenant tier va key size) := by
  refine (rfl : _ = execPageWalk tenant tier va s).trans ?_
  rw [execPageWalk, h, hw]
  rfl

theorem pageWalk_gives_of_zero {key size entry : Nat} (hw : s.walk tenant tier va = .leaf key size true entry) :
    Gives (.pageWalk tenant tier va) s (s.push (.pageZeroing tenant tier va)) := by
  refine (rfl : _ = execPageWalk tenant tier va s).trans ?_
  rw [execPageWalk, h, hw]
  rfl

end

/-- An installed translation is found for the address that was walked. -/
theorem State.install_tlb {key size : Nat} (hsize : 0 < size) :
    (s.install tenant tier va key size).tlb? tenant tier va = some ⟨tenant, tier, va / size * size, size, key⟩ := by
  have hlo : va / size * size ≤ va := Nat.div_mul_le_self va size
  have hhi : va < va / size * size + size := by
    rw [Nat.mul_comm]
    exact Nat.lt_mul_div_succ va hsize
  exact List.find?_cons_of_pos (by simp [hlo, hhi])

end

end Sys2Proof.Machine

open Sys2Proof Sys2Proof.Machine

/-- Settles O25: each end of a walk has its answer, and zeroing clears the cells of the page and the Z of its entry
alone. -/
theorem walksInstallAndZeroPages : Obligations.WalksInstallAndZeroPages := by
  intro s tenant tier va h
  refine ⟨fun l hw => ⟨pageWalk_gives_of_fault h hw, pageZeroing_gives_of_fault hw⟩,
    fun hw => ⟨pageWalk_gives_of_wait h hw, pageZeroing_gives_of_wait hw⟩, fun key size z entry hw => ⟨?_, ?_⟩⟩
  · rintro rfl
    exact ⟨_, pageWalk_gives_of_leaf h hw, rfl, State.install_tlb⟩
  · rintro rfl
    refine ⟨pageWalk_gives_of_zero h hw, pageZeroing_gives_of_held hw, fun hh hwf hd =>
      ⟨_, pageZeroing_gives hw hh h, fun x hlo hhi => ?_, State.zeroPage_entry hwf, fun x hpage hentry => ?_⟩⟩
    · exact (State.zeroPage_get hwf (by omega)).trans (if_pos ⟨hlo, hhi⟩)
    · exact (State.zeroPage_get hwf hentry).trans (if_neg (by omega))
end

section
/-!
# What fault records and store agents leave (12 R265, R267, R269; 14 R311)

A fault record changes memory, the scheduler and the store numbers of the ports; a store that is numbered, has failed
or is visible changes its agent, of which the other devices are told.
-/
namespace Sys2Proof.Machine

/-! ### What a fault record may change (14 R311) -/

/-- A device without its memory, its scheduler and its store agents. -/
def State.withoutRecords (s : State) : State :=
  { s with mem := State.reset.mem, sched := State.reset.sched, units := { s.units with agents := [] } }

/-- One state differs from another in memory, the scheduler and the store agents at most. -/
def State.RecordsOnly (s t : State) : Prop := t.withoutRecords = s.withoutRecords

theorem State.RecordsOnly.refl (s : State) : s.RecordsOnly s := rfl

theorem State.RecordsOnly.trans {s t u : State} (h : s.RecordsOnly t) (k : t.RecordsOnly u) : s.RecordsOnly u :=
  Eq.trans k h

section
variable {s t : State} (h : s.RecordsOnly t)
include h

theorem State.RecordsOnly.core : t.core = s.core := (congrArg State.core h :)
theorem State.RecordsOnly.devnum : t.devnum = s.devnum := (congrArg State.devnum h :)
theorem State.RecordsOnly.chains : t.units.chains = s.units.chains := (congrArg (fun s => s.units.chains) h :)

end

theorem State.recordsOnly_wr (s : State) (key n x : Nat) : s.RecordsOnly (s.wr key n x) := by
  rw [State.wr_only]
  exact .refl s

theorem State.recordsOnly_wrSpans (s : State) (ks : List (Nat × Nat)) (x : Nat) : s.RecordsOnly (s.wrSpans ks x) := by
  rw [State.wrSpans_only]
  exact .refl s

theorem State.recordsOnly_waitFor (s : State) (b : Buf) (off n : Nat) (ks : List (Nat × Nat)) :
    s.RecordsOnly (s.waitFor b off n ks) := by
  unfold State.waitFor
  split <;> exact .refl s

theorem State.recordsOnly_numberPorts (s : State) (tier : Nat) : s.RecordsOnly (s.numberPorts tier) := by
  unfold State.RecordsOnly State.numberPorts
  generalize portAgents tier = as
  induction as generalizing s with
  | nil => rfl
  | cons a as ih => exact (ih _).trans rfl

theorem State.recordsOnly_zeroPage (s : State) (key size entry : Nat) : s.RecordsOnly (s.zeroPage key size entry) := by
  have hmem (t : State) (m : Mem) : t.RecordsOnly { t with mem := m } := rfl
  unfold State.zeroPage
  exact (((hmem s _).trans (State.recordsOnly_wr _ entry 8 _)).trans (hmem _ _)).trans
    (State.recordsOnly_numberPorts _ _)

theorem State.recordsOnly_translate (s : State) (tenant tier va : Nat) :
    s.RecordsOnly (s.translate tenant tier va).1 := by
  have zeroed := s.recordsOnly_zeroPage
  unfold State.RecordsOnly at *
  unfold State.translate
  split
  · rfl
  · split
    · rfl
    · rfl
    · split
      · rfl
      · split
        · rfl
        · exact zeroed ..

theorem State.recordsOnly_spans (tenant tier : Nat) (ps : List (Nat × Nat)) (s : State) :
    s.RecordsOnly (s.spans tenant tier ps).1 := by
  induction ps generalizing s with
  | nil => exact .refl s
  | cons p ps ih =>
    have first := s.recordsOnly_translate tenant tier (p.1 % 2 ^ 48)
    rw [State.spans]
    match hp : s.translate tenant tier (p.1 % 2 ^ 48) with
    | (t, .error _) =>
      rw [hp] at first
      exact first
    | (t, .ok k) =>
      rw [hp] at first
      have rest := first.trans (ih t)
      dsimp only
      match hq : t.spans tenant tier ps with
      | (u, .error _) | (u, .ok _) =>
        rw [hq] at rest
        exact rest

theorem State.recordsOnly_bufSpans (s : State) (j : Job) (b : Buf) (off n : Nat) :
    s.RecordsOnly (s.bufSpans j b off n).1 := State.recordsOnly_spans _ _ _ s

theorem State.recordsOnly_putFault (s : State) (job : Nat) (f : FaultInfo) : s.RecordsOnly (s.putFault job f).1 := by
  have found := State.recordsOnly_bufSpans
  have waits := State.recordsOnly_waitFor
  have writes := State.recordsOnly_wrSpans
  have counted (s : State) (n : BitVec 64) : s.RecordsOnly { s with sched := { s.sched with faultSeq := n } } := rfl
  unfold State.RecordsOnly at *
  fun_cases State.putFault s job f <;> grind

theorem State.recordsOnly_faultRecord (s : State) (job : Nat) (f : FaultInfo) :
    s.RecordsOnly (s.faultRecord job f).1 := by
  have h := s.recordsOnly_putFault job f
  unfold State.faultRecord
  split
  next heq =>
    rw [heq] at h
    split
    · exact h.trans rfl
    · exact h

/-! ### Other devices are told of an agent (12 R265) -/

@[simp] theorem State.tellPeers_units (s : State) (a : Nat) : (s.tellPeers a).units = s.units := by
  refine foldl_keeps (g := State.units) (fun s d => ?_) _ _
  split
  · rfl
  · exact State.send_units ..

@[simp] theorem State.tellPeers_devnum (s : State) (a : Nat) : (s.tellPeers a).devnum = s.devnum := by
  refine foldl_keeps (g := State.devnum) (fun s d => ?_) _ _
  split
  · rfl
  · exact State.send_devnum ..

/-! ### The agent of a store (12 R265 to R269) -/

theorem State.agentOf_congr {s t : State} (h : t.units.agents = s.units.agents) : t.agentOf = s.agentOf := by
  funext dev a
  rw [State.agentOf, State.agentOf, h]

/-- An agent bears the device and the number by which it is named. -/
theorem State.agentOf_named (s : State) (dev : BitVec 14) (a : Nat) :
    (s.agentOf dev a).dev = dev ∧ (s.agentOf dev a).agent = a := by
  unfold State.agentOf
  cases h : s.units.agents.find? fun q => decide (q.dev = dev ∧ q.agent = a) with
  | none => exact ⟨rfl, rfl⟩
  | some q => exact of_decide_eq_true (List.find?_some h :)

/-- An agent that has been replaced is named as before. -/
theorem State.agentOf_setAgent {s : State} {q : Agent} {dev : BitVec 14} {a : Nat}
    (h : q.dev = dev ∧ q.agent = a) : (s.setAgent q).agentOf dev a = q := by
  unfold State.agentOf State.setAgent
  rw [List.find?_cons_of_pos (by exact decide_eq_true h)]
  rfl

@[simp] theorem State.agentOf_tellPeers (s : State) (a : Nat) : (s.tellPeers a).agentOf = s.agentOf :=
  State.agentOf_congr (congrArg Units.agents (s.tellPeers_units a))

/-- The number that a store takes is the last that its agent has issued (12 R265). -/
theorem State.number_issued (s : State) (a : Nat) : ((s.number a).1.agentOf s.devnum a).issued = (s.number a).2 := by
  rw [State.number, State.agentOf_tellPeers, State.agentOf_setAgent]
  exact s.agentOf_named s.devnum a

/-- A store that has failed is known as failed by its agent (12 R269). -/
theorem State.mem_failed_storeFailed (s : State) (a n : Nat) :
    n ∈ ((s.storeFailed a n).agentOf s.devnum a).failed := by
  rw [State.storeFailed, State.agentOf_tellPeers, State.agentOf_setAgent]
  · exact List.mem_cons_self
  · exact s.agentOf_named s.devnum a

/-- A store that is visible holds up no entry (12 R267). -/
theorem State.visible_pend (s : State) (a n : Nat) :
    ∀ p ∈ ((s.visible a n).agentOf s.devnum a).pend, p.1 ≠ n := by
  rw [State.visible, State.agentOf_tellPeers]
  rw [show ∀ u : State, u.dropStale.agentOf = u.agentOf from fun u => State.agentOf_congr rfl,
    State.agentOf_setAgent]
  · intro p hp
    simpa using (List.mem_filter.mp hp).2
  · exact s.agentOf_named s.devnum a

end Sys2Proof.Machine
end

section
/-!
# Lanes and failing lanes of an access (09 R200, R201)

The lanes of a vector load lie side by side in the result, so each reads back as it was loaded; the failing lanes are
the bits of the fault record's mask, and the lowest of them names its fault.
-/
namespace Sys2Proof.Machine

open Sys2Proof.Claims

/-! ### Values side by side -/

theorem ofDigits_range (B n : Nat) (g : Nat → Nat) :
    Nat.ofDigits B ((List.range n).map g) = ∑ e ∈ Finset.range n, g e * B ^ e := by
  induction n with
  | zero => rfl
  | succ n ih =>
    rw [List.range_succ, List.map_append, Nat.ofDigits_append, ih, Finset.sum_range_succ, List.length_map,
      List.length_range, List.map_singleton, Nat.ofDigits_singleton, Nat.mul_comm]

section
variable {α : Type} {lane : α → Nat} {f : α → Nat}

/-- Values at places of a number: each digit is the sum of the values at its place. -/
theorem sum_places_eq_ofDigits (B : Nat) {n : Nat} {l : List α} (h : ∀ a ∈ l, lane a < n) :
    (l.map fun a => f a * B ^ lane a).sum =
      Nat.ofDigits B ((List.range n).map fun e => (l.map fun a => if lane a = e then f a else 0).sum) := by
  rw [ofDigits_range]
  induction l with
  | nil => simp
  | cons a l ih =>
    have ha : lane a ∈ Finset.range n := Finset.mem_range.mpr (h a List.mem_cons_self)
    simp only [List.map_cons, List.sum_cons, add_mul, Finset.sum_add_distrib, ite_mul, zero_mul,
      Finset.sum_ite_eq, if_pos ha, ih fun b hb => h b (List.mem_cons_of_mem a hb)]

/-- Of values at different places, the sum of those at one place is the value there. -/
theorem sum_at_place {l : List α} (h : (l.map lane).Nodup) (e : Nat) :
    (l.map fun a => if lane a = e then f a else 0).sum = ((l.find? fun a => decide (lane a = e)).map f).getD 0 := by
  induction l with
  | nil => rfl
  | cons a l ih =>
    obtain ⟨hnot, hrest⟩ := List.nodup_cons.mp h
    rw [List.map_cons, List.sum_cons, ih hrest]
    by_cases ha : lane a = e
    · have hnone : l.find? (fun b => decide (lane b = e)) = none :=
        List.find?_eq_none.mpr fun b hb he => hnot (List.mem_map.mpr ⟨b, hb, (of_decide_eq_true he).trans ha.symm⟩)
      rw [List.find?_cons_of_pos (by exact decide_eq_true ha), hnone, if_pos ha]
      rfl
    · rw [List.find?_cons_of_neg (by simpa using ha), if_neg ha, Nat.zero_add]

/-- A value at one of different places reads back. -/
theorem digit_of_places {B n : Nat} {l : List α} (hB : 0 < B) (hf : ∀ a, f a < B) (hlt : ∀ a ∈ l, lane a < n)
    (hnd : (l.map lane).Nodup) {e : Nat} (he : e < n) :
    (l.map fun a => f a * B ^ lane a).sum / B ^ e % B = ((l.find? fun a => decide (lane a = e)).map f).getD 0 := by
  have hdigit (e : Nat) : ((l.find? fun a => decide (lane a = e)).map f).getD 0 < B := by
    cases l.find? fun a => decide (lane a = e) with
    | none => exact hB
    | some a => exact hf a
  simp only [sum_places_eq_ofDigits B hlt, sum_at_place hnd]
  rw [ofDigits_div_pow_mod, getD_map_range _ he]
  simp only [List.mem_map, List.mem_range]
  rintro _ ⟨e, -, rfl⟩
  exact hdigit e

end

/-- The result of a vector load, lane by lane (09 R200). -/
theorem elements_laneWrites {got : List (Nat × Nat)} (hlt : ∀ g ∈ got, g.1 < 64) (hnd : (got.map Prod.fst).Nodup)
    (d : Nat) : ∃ mask val, laneWrites d got = .v d mask val ∧
      Elements 32 mask val (fun n => got.any fun g => decide (g.1 = n))
        fun n => ((got.find? fun g => decide (g.1 = n)).map Prod.snd).getD 0 := by
  refine ⟨_, _, rfl, fun e he => ?_⟩
  have hfound : ((got.find? fun g => decide (g.1 = e)).isSome = true) ↔ (got.any fun g => decide (g.1 = e)) = true := by
    rw [List.find?_isSome, List.any_eq_true]
  rw [elem_ofNat _ he, elem_ofNat _ he]
  simp only [pow_mul]
  rw [digit_of_places (by decide) (fun _ => by decide) hlt hnd he,
    digit_of_places (by decide) (fun _ => Nat.mod_lt _ (by decide)) hlt hnd he]
  cases hg : got.find? fun g => decide (g.1 = e) with
  | none =>
    rw [hg] at hfound
    rw [if_neg (mt hfound.mpr Bool.false_ne_true)]
    exact ⟨rfl, fun hany => absurd (hfound.mpr hany) Bool.false_ne_true⟩
  | some g =>
    rw [hg] at hfound
    rw [if_pos (hfound.mp rfl)]
    exact ⟨rfl, fun _ => rfl⟩

/-! ### The failing lanes (09 R201; 14 R311) -/

theorem nodup_eraseDups (l : List Nat) : l.eraseDups.Nodup := by
  match l with
  | [] => exact List.nodup_nil
  | a :: l =>
    rw [List.eraseDups_cons, List.nodup_cons, List.mem_eraseDups]
    exact ⟨by simp, nodup_eraseDups (l.filter fun b => !b == a)⟩
termination_by l.length
decreasing_by exact Nat.lt_succ_of_le (List.length_filter_le _ l)

/-- The mask of separate lanes that failed has their bits. -/
theorem testBit_laneMask {a : Access} (hw : a.whole = false) (n : Nat) :
    a.laneMask.testBit n = true ↔ ∃ g ∈ a.bad, g.lane = n := by
  have hsum : a.laneMask = ∑ i ∈ (a.bad.map Failing.lane).eraseDups.toFinset, 2 ^ i := by
    rw [List.sum_toFinset _ (nodup_eraseDups _), Access.laneMask, if_neg (by simp [hw])]
  rw [hsum, ← Nat.mem_bitIndices, ← List.mem_toFinset, Finset.toFinset_bitIndices_sum_two_pow, List.mem_toFinset,
    List.mem_eraseDups, List.mem_map]

/-- One more failing lane is the lowest where it lies below the others. -/
theorem lowest_concat (a : Access) (l : List Failing) (g : Failing) :
    ({ a with bad := l ++ [g] } : Access).lowest =
      some ((({ a with bad := l } : Access).lowest.map fun f => if g.lane < f.lane then g else f).getD g) := by
  simp only [Access.lowest, List.foldl_append]
  generalize l.foldl _ none = m
  cases m <;> rfl

theorem bad_of_lowest_none {a : Access} {l : List Failing} (h : ({ a with bad := l } : Access).lowest = none) :
    l = [] := by
  rcases List.eq_nil_or_concat l with rfl | ⟨l, g, rfl⟩
  · rfl
  · rw [List.concat_eq_append, lowest_concat] at h
    cases h

/-- The lowest failing lane is one that failed, and none that failed lies below it. -/
theorem lowest_spec {a : Access} {f : Failing} (h : a.lowest = some f) : f ∈ a.bad ∧ ∀ g ∈ a.bad, f.lane ≤ g.lane := by
  suffices hl : ∀ (l : List Failing) (f : Failing), ({ a with bad := l } : Access).lowest = some f →
      f ∈ l ∧ ∀ g ∈ l, f.lane ≤ g.lane from hl a.bad f h
  intro l
  induction l using List.reverseRecOn with
  | nil => exact fun f h => nomatch h
  | append_singleton l g ih =>
    intro f h
    rw [lowest_concat, Option.some_inj] at h
    cases hm : ({ a with bad := l } : Access).lowest with
    | none =>
      obtain rfl := bad_of_lowest_none hm
      obtain rfl : g = f := h
      simp
    | some m =>
      obtain ⟨hmem, hle⟩ := ih m hm
      rw [hm, Option.map_some, Option.getD_some] at h
      by_cases hg : g.lane < m.lane
      · obtain rfl : g = f := (if_pos hg).symm.trans h
        simp only [List.mem_append, List.mem_singleton, or_true, true_and]
        rintro k (hk | rfl)
        · exact hg.le.trans (hle k hk)
        · exact le_rfl
      · obtain rfl : m = f := (if_neg hg).symm.trans h
        refine ⟨List.mem_append_left _ hmem, fun k hk => ?_⟩
        rcases List.mem_append.mp hk with hk | hk
        · exact hle k hk
        · rw [List.mem_singleton.mp hk]
          exact not_lt.mp hg

end Sys2Proof.Machine
end

section
/-!
# What a core reads and leaves at a port (08 R179, R180; 12 R266)

A core whose caches hold what memory holds reads what memory holds, and its read keeps them so.
-/
namespace Sys2Proof.Machine

open Sys2Proof.Claims

/-! ### The storage of a core -/

theorem State.setCore_regs {s : State} {c : Core} (h : c.regs = (s.coreOf c.id).regs) :
    (s.setCore c).core.regs = s.core.regs := by
  unfold State.setCore
  split
  next e => rw [h, ← e, State.coreOf_self]
  next => rfl

theorem State.coreOf_setCore_store {s : State} {c : Core} (h : c.store = (s.coreOf c.id).store) (k : Nat) :
    ((s.setCore c).coreOf k).store = (s.coreOf k).store := by
  rw [State.coreOf_setCore]
  split
  next e => rw [h, e]
  next => rfl

@[simp] theorem State.setL1_devnum (s : State) (core : Nat) (f : List L1Byte → List L1Byte) :
    (s.setL1 core f).devnum = s.devnum := State.setCore_devnum ..

theorem State.setL1_regs (s : State) (core : Nat) (f : List L1Byte → List L1Byte) :
    (s.setL1 core f).core.regs = s.core.regs := State.setCore_regs (by rw [State.coreOf_id])

/-- A change of the L1 of a core is a change of its lines. -/
theorem State.setL1_l1 (s : State) (core : Nat) (f : List L1Byte → List L1Byte) :
    ((s.setL1 core f).coreOf core).store.l1 = f (s.coreOf core).store.l1 := by
  rw [State.setL1, State.coreOf_setCore, if_pos (s.coreOf_id core).symm]

/-- What a load notes of the stores it has returned leaves the storage of every core (12 R266). -/
theorem State.noteSeen_store (s : State) (core recPa id : Nat) (es : List Word) (k : Nat) :
    ((s.noteSeen core recPa id es).coreOf k).store = (s.coreOf k).store := by
  unfold State.noteSeen
  split
  · rfl
  · dsimp only
    split
    · exact State.coreOf_setCore_store (by rw [State.coreOf_id]) k
    · rfl

theorem State.noteSeen_regs (s : State) (core recPa id : Nat) (es : List Word) :
    (s.noteSeen core recPa id es).core.regs = s.core.regs := by
  unfold State.noteSeen
  split
  · rfl
  · dsimp only
    split
    · exact State.setCore_regs (by rw [State.coreOf_id])
    · rfl

/-! ### A load (08 R179; 12 R266) -/

section
variable (s : State) (core recPa id : Nat) (ks : List (Nat × Nat))

/-- A load changes of memory what the cluster's cache holds. -/
theorem State.coreLoad_mem : (s.coreLoad core recPa id ks).1.mem =
    { s.mem with cc := (s.coreLoad core recPa id ks).1.mem.cc } := by
  simp [State.coreLoad, State.coreGet, State.clusterRead]

theorem State.coreLoad_regs : (s.coreLoad core recPa id ks).1.core.regs = s.core.regs :=
  (State.noteSeen_regs ..).trans (State.setL1_regs ..)

end

/-! ### Coherent caches -/

theorem cacheGet_val {tick n : Nat} {l : List L1Byte} {below : Byte × Word} {key : Nat}
    (h : ∀ b ∈ l, b.key = key → b.val = below.1) : (cacheGet tick n l below key).1 = below.1 := by
  unfold cacheGet
  cases hb : l1Find l key with
  | none => rfl
  | some b =>
    have hval : b.val = below.1 := h b (List.mem_of_find?_eq_some hb) (of_decide_eq_true (List.find?_some hb :))
    dsimp only
    split
    · exact hval
    · rfl

/-- What a fill leaves in a cache was there or is what the read gives. -/
theorem mem_l1Fill {get : Nat → Byte × Word} {ks : List Nat} {l : List L1Byte} {b : L1Byte}
    (h : b ∈ l1Fill get l ks) : b ∈ l ∨ b.val = (get b.key).1 := by
  induction ks generalizing l with
  | nil => exact .inl h
  | cons k ks ih =>
    have hset (b' : L1Byte) (hb : b ∈ l1Set l b') : b = b' ∨ b ∈ l :=
      (List.mem_cons.mp hb).imp_right fun hb => (List.mem_filter.mp hb).1
    rcases ih h with hb | hb
    · split at hb
      next q _ =>
        split at hb
        · exact .inl hb
        · rcases hset _ hb with rfl | hb
          · exact .inr rfl
          · exact .inl hb
      next =>
        rcases hset _ hb with rfl | hb
        · exact .inr rfl
        · exact .inl hb
    · exact .inr hb

section
variable {s : State} {core : Nat} (h : Coherent s core)
include h

theorem State.clusterGet_coherent (key : Nat) :
    (s.clusterGet (core / 24) key).1 = Cells.get s.mem.cells key :=
  cacheGet_val fun b hb hk => by rw [h.2 b hb, hk]

theorem State.l1Get_coherent (key : Nat) :
    (s.l1Get (core / 24) (s.coreOf core).store.l1 key).1 = Cells.get s.mem.cells key :=
  (cacheGet_val fun b hb hk => by rw [h.1 b hb, hk, State.clusterGet_coherent h]).trans
    (State.clusterGet_coherent h key)

theorem State.l1Read_coherent (key n : Nat) :
    s.l1Read (core / 24) (s.coreOf core).store.l1 key n = s.rd key n := by
  induction n generalizing key with
  | zero => rfl
  | succ n ih => rw [State.l1Read, ih, State.l1Get_coherent h, State.rd, State.rd, Cells.read]

/-- A core whose caches hold what memory holds reads what memory holds (08 R179). -/
theorem State.coreRead_coherent (ks : List (Nat × Nat)) : s.coreRead core ks = s.rdSpans ks := by
  induction ks with
  | nil => rfl
  | cons k ks ih =>
    rw [State.coreRead, State.rdSpans, ih, State.l1Read_coherent h, pow_mul 2 8 k.2]
    rfl

/-- A load keeps the caches as memory holds them. -/
theorem State.coreLoad_coherent (recPa id : Nat) (ks : List (Nat × Nat)) :
    Coherent (s.coreLoad core recPa id ks).1 core := by
  have hcells : (s.coreLoad core recPa id ks).1.mem.cells = s.mem.cells := by rw [State.coreLoad_mem]
  unfold Coherent
  rw [hcells]
  constructor
  · intro b hb
    rw [State.coreLoad, State.noteSeen_store] at hb
    have hb : b ∈ ((s.setL1 core fun l => l1Fill (s.l1Get (core / 24) l) l (unitKeys ks)).coreOf core).store.l1 := hb
    rw [State.setL1_l1] at hb
    rcases mem_l1Fill hb with hb | hb
    · exact h.1 b hb
    · rw [hb, State.l1Get_coherent h]
  · intro b hb
    obtain ⟨c, hc, heq⟩ := List.mem_filterMap.mp hb
    have hmem : c ∈ s.mem.cc := by
      rw [State.coreLoad, State.noteSeen_mem] at hc
      have := (List.mem_filter.mp hc).1
      rwa [State.setL1_mem] at this
    exact h.2 b (List.mem_filterMap.mpr ⟨c, hmem, heq⟩)

end

/-! ### Stores and write-backs leave memory's cells (08 R179; 09 R205) -/

/-- A store notes of memory what the instruction caches may still hold (04 R75). -/
theorem State.noteOwn_mem (s : State) (core : Nat) (ks : List (Nat × Nat)) :
    (s.noteOwn core ks).mem = { s.mem with icOld := (s.noteOwn core ks).mem.icOld } := by
  unfold State.noteOwn
  split <;> rfl

theorem State.noteOwn_devnum (s : State) (core : Nat) (ks : List (Nat × Nat)) :
    (s.noteOwn core ks).devnum = s.devnum := by
  unfold State.noteOwn
  split <;> rfl

theorem State.noteCluster_cells (s : State) (id : Nat) (bs : List L1Byte) :
    (s.noteCluster id bs).mem.cells = s.mem.cells := by
  unfold State.noteCluster
  split <;> rfl

theorem State.noteCluster_devnum (s : State) (id : Nat) (bs : List L1Byte) :
    (s.noteCluster id bs).devnum = s.devnum := by
  unfold State.noteCluster
  split <;> rfl

/-- A write-back to the cluster's cache changes no byte of memory (08 R180). -/
theorem State.writeBack_cluster_cells (s : State) (id key n : Nat) :
    (s.writeBack 1 id key n).mem.cells = s.mem.cells := by
  simp only [State.writeBack, State.setCore_mem, if_pos]
  exact State.noteCluster_cells ..

theorem State.writeBack_devnum (s : State) (scope id key n : Nat) : (s.writeBack scope id key n).devnum = s.devnum := by
  have hnote (s : State) (but as : List Nat) : (s.noteOld but as).devnum = s.devnum := by
    unfold State.noteOld
    split <;> rfl
  simp only [State.writeBack, State.setCore_devnum]
  split
  · exact State.noteCluster_devnum ..
  · exact (hnote ..).trans (hnote ..)

end Sys2Proof.Machine
end

section
/-!
# What becomes of an access at its port (08 R162; 09 R199 to R201)

An access keeps the entries of its first check and goes on with its next parts, or ends with what failed. What it does
with parts that are ready is said once for each kind of access, and how an access ends once for each of its ends.
-/
namespace Sys2Proof.Machine

open Sys2Proof.Claims

/-! ### The entries that an access keeps (01 R33) -/

theorem State.keepEntries_eq (s : State) (a : Access) (j : Job) :
    ∃ es, s.keepEntries a j = { a with entries := es } := by
  unfold State.keepEntries
  split
  · exact ⟨_, rfl⟩
  · exact ⟨a.entries, rfl⟩

theorem State.entryWords_eq_nil {s : State} {j : Job} {ixs : List Nat} :
    s.entryWords j ixs = [] ↔ ∀ ix ∈ ixs, j.btn < ix := by
  simp [State.entryWords, List.filter_eq_nil_iff]

/-- The indices whose entries an access is checked by; index 0xFFF6 names the code object (01 R32). -/
def namedIndices (a : Access) : List Nat :=
  a.parts.map fun p => if ptrIx p.ptr = 0xFFF6 then ptrIx a.obj else ptrIx p.ptr

theorem State.keepEntries_of_none {s : State} {a : Access} {j : Job}
    (h : a.entries = [] → s.entryWords j (namedIndices a) = []) : s.keepEntries a j = a := by
  unfold State.keepEntries
  split
  next he =>
    obtain ⟨⟩ := a
    obtain rfl : _ = [] := he
    exact congrArg _ (h rfl)
  next => rfl

/-- An access with fewer parts goes on with the entries that it has kept. -/
theorem State.keepEntries_rest {s : State} {a : Access} {j : Job} {rest : List Part} (bad : List Failing)
    (h : ∀ q ∈ rest, q ∈ a.parts) :
    s.keepEntries { s.keepEntries a j with parts := rest, bad := bad } j =
      { s.keepEntries a j with parts := rest, bad := bad } := by
  refine State.keepEntries_of_none fun hnil => State.entryWords_eq_nil.mpr fun ix hix => ?_
  obtain ⟨q, hq, rfl⟩ := List.mem_map.mp hix
  by_cases he : a.entries = []
  · simp only [State.keepEntries, if_pos he] at hnil ⊢
    exact State.entryWords_eq_nil.mp hnil _ (List.mem_map.mpr ⟨q, h q hq, rfl⟩)
  · simp only [State.keepEntries, if_neg he] at hnil
    exact absurd hnil he

/-! ### How an access ends (09 R196, R197, R201; 12 R268, R269) -/

section
variable {s : State} {a : Access} (hbad : a.bad = [])
include hbad

theorem State.endAccess_of_load (hop : (∃ sz, a.op = .load sz) ∨ a.op = .vload) :
    s.endAccess a = s.deliver ⟨a.core, a.recPa, a.post, a.results, none⟩ := by
  have hlow : a.lowest = none := by rw [Access.lowest, hbad]; rfl
  rcases hop with ⟨sz, hop⟩ | hop <;> rw [State.endAccess, hlow, hop]

/-- How a store of some bytes that has been performed for its own core goes on. -/
def State.ripens (s : State) (a : Access) (ks : List (Nat × Nat)) : State :=
  if a.scope = 0 then (s.deliver ⟨a.core, a.recPa, a.post, [], none⟩).push
    (.entryRipens ⟨s.devnum, a.core, a.seq, a.core, ks, [], none, 0, 1, a.id⟩)
  else s.push (.entryRipens
    ⟨s.devnum, a.core, a.seq, a.core, ks, [], some ⟨a.core, a.recPa, a.post, [], none⟩, a.scope, 1, a.id⟩)

theorem State.endAccess_of_store (hop : a.op = .store ∨ ∃ scope inv, a.op = .flush scope inv) :
    s.endAccess a = s.ripens a a.got := by
  have hlow : a.lowest = none := by rw [Access.lowest, hbad]; rfl
  have hres : a.results = [] := by rcases hop with hop | ⟨_, _, hop⟩ <;> rw [Access.results, hop]
  have hend : s.endAccess a = if a.scope = 0
      then (s.deliver ⟨a.core, a.recPa, a.post, [], none⟩).push
        (.entryRipens ⟨s.devnum, a.core, a.seq, a.core, a.got, [], none, a.scope, 1, a.id⟩)
      else s.push (.entryRipens ⟨s.devnum, a.core, a.seq, a.core, a.got, [],
        some ⟨a.core, a.recPa, a.post, [], none⟩, a.scope, 1, a.id⟩) := by
    rcases hop with hop | ⟨_, _, hop⟩ <;> rw [State.endAccess, hlow, hres, hop]
  rw [hend, State.ripens]
  split
  next h0 => rw [h0]
  next => rfl

end

/-- An access that failed ends with its fault delivered and its store poisoned; what it has stored ripens. -/
theorem State.endAccess_of_fault {s : State} {a : Access} {f : Failing} {i : FaultInfo} (h : a.lowest = some f)
    (hi : accessFault a f = i) :
    let r := s.faultRecord a.job i
    (s.endAccess a).mem = r.1.mem ∧ (s.endAccess a).core.regs = s.core.regs ∧
      .tokenedOperationComplete ⟨a.core, a.recPa, a.post, [], some ⟨f.cause, r.2⟩⟩ ∈ (s.endAccess a).agenda ∧
      (a.seq ≠ 0 → a.seq ∈ ((s.endAccess a).agentOf s.devnum a.core).failed) ∧
      (a.op = .store → a.got ≠ [] → ∃ q : Ripe, .entryRipens q ∈ (s.endAccess a).agenda ∧ q.bytes = a.got ∧
        q.seq = a.seq ∧ q.post = none) := by
  subst hi
  intro r
  have recorded : s.RecordsOnly r.1 := s.recordsOnly_faultRecord _ _
  -- the store is poisoned, then what it has stored goes on its way
  obtain ⟨u, hu⟩ : ∃ u, u = if a.seq = 0 then r.1 else r.1.storeFailed a.core a.seq := ⟨_, rfl⟩
  obtain ⟨v, hv⟩ : ∃ v, v = if a.op = .store ∧ a.got ≠ []
      then u.push (.entryRipens ⟨s.devnum, a.core, a.seq, a.core, a.got, [], none, a.scope, 1, a.id⟩) else u := ⟨_, rfl⟩
  have hend : s.endAccess a = v.deliver ⟨a.core, a.recPa, a.post, [], some ⟨f.cause, r.2⟩⟩ := by
    rw [hv, hu, State.endAccess, h]
  have hmem : v.mem = r.1.mem := by
    rw [hv, hu]; split <;> split <;> simp
  have hcore : v.core = s.core := by
    rw [hv, hu, ← recorded.core]; split <;> split <;> simp
  rw [hend]
  refine ⟨hmem, congrArg Core.regs hcore, List.mem_append_right _ (List.mem_singleton.mpr rfl), fun hseq => ?_,
    fun hop hgot => ?_⟩
  · have hagents : v.agentOf = u.agentOf := by
      rw [hv]; split <;> rfl
    rw [show (v.deliver _).agentOf = v.agentOf from rfl, hagents, hu, if_neg hseq, ← recorded.devnum]
    exact State.mem_failed_storeFailed ..
  · rw [hv, if_pos ⟨hop, hgot⟩]
    exact ⟨_, List.mem_append_left _ (List.mem_append_right _ (List.mem_singleton.mpr rfl)), rfl, rfl, rfl⟩

/-! ### The next parts of an access (09 R200, R201) -/

theorem State.dropBadLanes_eq {s : State} {a : Access}
    (h : a.whole = true ∨ ∀ p ∈ a.parts, ptrIx p.ptr ≠ 0xFFF4) : s.dropBadLanes a = a := by
  have hkept : ∀ p ∈ a.parts, (!a.whole && decide (ptrIx p.ptr = 0xFFF4) &&
      s.localBad a.core a.recPa 0xFFF4 (ptrOff p.ptr) p.size) = false := by
    rintro p hp
    rcases h with h | h
    · rw [h]; rfl
    · rw [decide_eq_false (h p hp), Bool.and_false, Bool.false_and]
  unfold State.dropBadLanes
  dsimp only
  rw [List.filter_congr hkept, List.filter_congr fun p hp => congrArg not (hkept p hp)]
  simp

theorem Access.unit_of_whole {a : Access} (h : a.whole = true) : a.unit = a.parts := by simp [Access.unit, h]

/-- Of lanes that are separate accesses the first is performed next, where none reads the link store. -/
theorem Access.unit_of_lanes {a : Access} {p : Part} {rest : List Part} (hw : a.whole = false)
    (hp : a.parts = p :: rest) (hix : ptrIx p.ptr ≠ 0xFFF4) : a.unit = [p] := by
  simp [Access.unit, hw, hp, hix]

theorem State.readyAll_one {s : State} {a : Access} {j : Job} {p : Part} {ks : List (Nat × Nat)}
    (h : s.ready a j p = .go ks) : s.readyAll a j [p] [] = .inr [(p, ks, false)] := by
  rw [State.readyAll, h]; rfl

theorem State.readyAll_one_local {s : State} {a : Access} {j : Job} {p : Part} (h : s.ready a j p = .loc) :
    s.readyAll a j [p] [] = .inr [(p, [], true)] := by
  rw [State.readyAll, h]; rfl

theorem State.readyAll_memory {s : State} {a : Access} {j : Job} {ks : Part → List (Nat × Nat)} {ps : List Part}
    (h : ∀ p ∈ ps, s.ready a j p = .go (ks p)) (acc : List (Part × List (Nat × Nat) × Bool)) :
    s.readyAll a j ps acc = .inr (acc ++ ps.map fun p => (p, ks p, false)) := by
  induction ps generalizing acc with
  | nil => rw [List.map_nil, List.append_nil]; rfl
  | cons p ps ih =>
    rw [State.readyAll, h p List.mem_cons_self]
    dsimp only
    rw [ih (fun q hq => h q (List.mem_cons_of_mem p hq)), List.append_assoc]
    rfl

/-- An access of which parts have been performed ends, or goes on with the others. -/
def State.goOn (r : State × Access) : State := if r.2.parts = [] then r.1.endAccess r.2 else r.1.again r.2

section
variable {s : State} {a : Access} {j : Job} {ps : List Part} {rs : List (Part × List (Nat × Nat) × Bool)}
  (hdrop : s.dropBadLanes a = a) (hunit : a.unit = ps) (hne : ps ≠ [])
  (hearly : s.earlier a.recPa a.id (s.namedPlaces { a with parts := ps }) = false)
  (hready : s.readyAll a j ps [] = .inr rs)
include hdrop hunit hne hearly hready

theorem State.nextParts_of_atomic {op : AtomOp} {w64 nr np : Bool} {cmp : Word}
    (hop : a.op = .atomic op w64 nr np cmp) : s.nextParts a j = s.toPort a := by
  unfold State.nextParts
  simp only [hdrop, hunit, if_neg hne, hearly, hready]
  rw [hop]
  rfl

theorem State.nextParts_of_read (hstore : a.op ≠ .store)
    (hatomic : ∀ op w64 nr np cmp, a.op ≠ .atomic op w64 nr np cmp) :
    s.nextParts a j = State.goOn (s.performParts a rs) := by
  unfold State.nextParts
  simp only [hdrop, hunit, if_neg hne, hearly, hready, Bool.false_eq_true, if_false, decide_eq_false hstore,
    Bool.false_and]
  cases hop : a.op with
  | atomic op w64 nr np cmp => exact absurd hop (hatomic op w64 nr np cmp)
  | _ => rfl

/-- A store of one part to memory forms the check values of the lines that it covers (15 R333). -/
theorem State.nextParts_of_store {ks : List (Nat × Nat)} {p : Part} (hop : a.op = .store)
    (hrs : rs = [(p, ks, false)]) : s.nextParts a j =
      State.goOn (((s.performParts a rs).1.setL1 a.core (l1Heal ks)), (s.performParts a rs).2) := by
  have hks : (rs.flatMap fun r => r.2.1) = ks := by rw [hrs]; exact List.append_nil ks
  have hloc : (rs.any fun r => r.2.2) = false := by rw [hrs]; rfl
  unfold State.nextParts
  simp only [hdrop, hunit, if_neg hne, hearly, hready]
  rw [hop]
  simp only [hks, hloc]
  rfl

end

/-! ### An access that may proceed, and one that may not (01 R33; 08 R162; 09 R197 to R201) -/

/-- An access after its checks: what failed is no longer to be performed, of an access that is one nothing is. -/
def withFailures (a : Access) (bad : List Failing) : Access :=
  if bad = [] then a
  else if a.whole then { a with parts := [], bad := a.bad ++ bad }
  else { a with
    parts := a.parts.filter fun p => !(bad.any fun f => decide (f.lane = p.lane))
    bad := a.bad ++ bad }

/-- An access that has been checked: it ends with what failed, waits for what it observes, or goes on. -/
def State.afterChecks (s : State) (a : Access) (j : Job) : State :=
  if a.whole ∧ a.bad ≠ [] then s.endAccess a else
  match s.observe (some a.core) a.wi with
  | .wait => s.again a
  | .bad c e => s.endAccess (a.failAll c 0 e 1)
  | .ok => if a.parts = [] then s.endAccess { a with wi := [] } else s.nextParts { a with wi := [] } j

section
variable {s : State} {a : Access} {j : Job}

/-- Whether an access touches memory depends on its operation alone. -/
theorem State.bareOp_eq_none {b : Access} (hop : s.bareOp a = none) (h : b.op = a.op) : s.bareOp b = none := by
  unfold State.bareOp at hop ⊢
  rw [h]
  cases ha : a.op with
  | pref | merge | check | est => rw [ha] at hop; cases hop
  | _ => rfl

/-- An access that touches memory makes its checks by the entries that it keeps. -/
theorem exec_access (hsent : a.sent = false) (hj : s.job? a.job = some j) (hop : s.bareOp a = none) :
    exec (.memoryPortAccess a) s = .next (s.afterChecks (withFailures (s.keepEntries a j)
      ((s.keepEntries a j).parts.filterMap (s.partFails (s.keepEntries a j) j))) j) := by
  refine (rfl : _ = execMemoryPortAccess a s).trans ?_
  unfold execMemoryPortAccess
  rw [hop]
  dsimp only
  rw [hsent, if_neg Bool.false_ne_true, hj]
  rfl

/-- An access that has come to its port with nothing in its way goes on with its next parts. -/
theorem exec_access_cleared {first : List Part} (hc : Cleared s a j first) (hop : s.bareOp a = none)
    (hparts : a.parts ≠ []) (hbad : a.whole = true → a.bad = []) :
    exec (.memoryPortAccess a) s = .next (s.nextParts { s.keepEntries a j with wi := [] } j) := by
  obtain ⟨hsent, hj, hpass, hobs, -⟩ := hc
  rw [exec_access hsent hj hop]
  obtain ⟨es, hes⟩ := s.keepEntries_eq a j
  rw [hes] at hpass ⊢
  rw [List.filterMap_eq_nil_iff.mpr hpass, withFailures, if_pos rfl, State.afterChecks,
    if_neg fun h => h.2 (hbad h.1), hobs, if_neg hparts]

/-- An access that is one and of which a part fails ends. -/
theorem exec_access_failed {f : Failing} {p : Part} (hsent : a.sent = false) (hj : s.job? a.job = some j)
    (hop : s.bareOp a = none) (hparts : a.parts = [p]) (hw : a.whole = true) (hbad : a.bad = [])
    (hf : s.partFails (s.keepEntries a j) j p = some f) :
    exec (.memoryPortAccess a) s = .next (s.endAccess { s.keepEntries a j with parts := [], bad := [f] }) := by
  rw [exec_access hsent hj hop]
  obtain ⟨es, hes⟩ := s.keepEntries_eq a j
  rw [hes] at hf ⊢
  have hfails : a.parts.filterMap (s.partFails { a with entries := es } j) = [f] := by
    rw [hparts]
    exact List.filterMap_cons_some hf
  rw [hfails, withFailures, if_neg (List.cons_ne_nil f []), if_pos hw, hbad, State.afterChecks,
    if_pos ⟨hw, List.cons_ne_nil f []⟩]
  rfl

/-- A lane that fails its check fails alone: the access goes on with the others (09 R201). -/
theorem exec_access_lane_failed {f : Failing} {p : Part} {rest : List Part} (hsent : a.sent = false)
    (hj : s.job? a.job = some j) (hop : s.bareOp a = none) (hw : a.whole = false) (hparts : a.parts = p :: rest)
    (hlane : f.lane = p.lane) (hrest : ∀ q ∈ rest, q.lane ≠ p.lane)
    (hf : s.partFails (s.keepEntries a j) j p = some f)
    (hpass : ∀ q ∈ rest, s.partFails (s.keepEntries a j) j q = none) :
    exec (.memoryPortAccess a) s =
      exec (.memoryPortAccess { s.keepEntries a j with parts := rest, bad := a.bad ++ [f] }) s := by
  have hkept := s.keepEntries_rest (a := a) (j := j) (rest := rest) (a.bad ++ [f]) fun q hq => by
    rw [hparts]; exact List.mem_cons_of_mem p hq
  obtain ⟨es, hes⟩ := s.keepEntries_eq a j
  rw [exec_access hsent hj hop]
  rw [hes] at hf hpass hkept ⊢
  rw [exec_access (a := { a with entries := es, parts := rest, bad := a.bad ++ [f] }) (j := j) hsent hj
    (State.bareOp_eq_none hop rfl), hkept]
  have hfails : a.parts.filterMap (s.partFails { a with entries := es } j) = [f] := by
    rw [hparts]
    exact (List.filterMap_cons_some hf).trans (congrArg _ (List.filterMap_eq_nil_iff.mpr hpass))
  have hnone : rest.filterMap
      (s.partFails { a with entries := es, parts := rest, bad := a.bad ++ [f] } j) = [] :=
    List.filterMap_eq_nil_iff.mpr hpass
  have hothers : (a.parts.filter fun q => !([f].any fun g => decide (g.lane = q.lane))) = rest := by
    rw [hparts, List.filter_cons_of_neg (by simp [hlane]), List.filter_eq_self]
    intro q hq
    simpa [hlane] using (hrest q hq).symm
  rw [hfails, hnone, withFailures, if_neg (List.cons_ne_nil f []), if_neg (by simp [hw]), withFailures,
    if_pos rfl, hothers]

/-- Lanes of which none is left end (09 R201). -/
theorem exec_access_no_parts (hsent : a.sent = false) (hj : s.job? a.job = some j) (hop : s.bareOp a = none)
    (hw : a.whole = false) (hparts : a.parts = []) (hobs : s.observe (some a.core) a.wi = .ok) :
    exec (.memoryPortAccess a) s = .next (s.endAccess { a with wi := [] }) := by
  have hkept : s.keepEntries a j = a := State.keepEntries_of_none fun _ => by
    rw [namedIndices, hparts]
    exact State.entryWords_eq_nil.mpr (by simp)
  have hpass : a.parts.filterMap (s.partFails a j) = [] := by rw [hparts]; rfl
  rw [exec_access hsent hj hop, hkept, hpass, withFailures, if_pos rfl, State.afterChecks, if_neg (by simp [hw]), hobs,
    if_pos hparts]

end

end Sys2Proof.Machine
end

section
/-!
# Accesses at the port (08 R162; 09 R199 to R201, R205; 13 R290, R294)
-/
namespace Sys2Proof.Machine

open Sys2Proof.Claims

/-- An access at its port: it keeps its entries and has no witness left to wait for. -/
def State.atPort (s : State) (a : Access) (j : Job) : Access := { s.keepEntries a j with wi := [] }

theorem State.atPort_eq (s : State) (a : Access) (j : Job) :
    ∃ es, s.atPort a j = { a with entries := es, wi := [] } := by
  obtain ⟨es, hes⟩ := s.keepEntries_eq a j
  exact ⟨es, by rw [State.atPort, hes]⟩

section
variable {s : State} {a : Access} {j : Job} {p : Part} (h : AtPort s a j p)
include h

/-- An access of one part that has come to its port, with nothing in its way, goes on with that part. -/
theorem exec_access_atPort (hop : s.bareOp a = none) :
    exec (.memoryPortAccess a) s = .next (s.nextParts (s.atPort a j) j) := by
  obtain ⟨hclear, hparts, -, -, hbad⟩ := h
  exact exec_access_cleared hclear hop (by rw [hparts]; exact List.cons_ne_nil p []) fun _ => hbad

/-- What the part at the port needs to be performed: no lane is dropped, and it is the next one (09 R197, R200). -/
theorem atPort_unit : (s.atPort a j).parts = [p] ∧ (s.atPort a j).got = [] ∧
    s.dropBadLanes (s.atPort a j) = s.atPort a j ∧ (s.atPort a j).unit = [p] ∧
    s.earlier (s.atPort a j).recPa (s.atPort a j).id (s.namedPlaces { s.atPort a j with parts := [p] }) = false := by
  obtain ⟨⟨-, -, -, -, hearly⟩, hparts, hwhole, hgot, -⟩ := h
  have hearly : s.earlier a.recPa a.id (s.namedPlaces { s.atPort a j with parts := [p] }) = false := hearly
  obtain ⟨es, hes⟩ := s.atPort_eq a j
  rw [hes] at hearly ⊢
  exact ⟨hparts, hgot, State.dropBadLanes_eq (.inl hwhole), (Access.unit_of_whole hwhole).trans hparts, hearly⟩

end

/-- The last part of an access leaves it with no part. -/
theorem State.performParts_last {s : State} {b : Access} {p : Part} (hparts : b.parts = [p]) (hgot : b.got = [])
    (ks : List (Nat × Nat)) (loc : Bool) :
    s.performParts b [(p, ks, loc)] = ((if loc then s.localPart b p else s.memPart b p ks).1,
      { b with got := (if loc then s.localPart b p else s.memPart b p ks).2, parts := [] }) := by
  simp [State.performParts, hparts, hgot]

theorem State.goOn_nil {s : State} {b : Access} (h : b.parts = []) : State.goOn (s, b) = s.endAccess b := if_pos h

section
variable {s : State} {a : Access} {j : Job} {p : Part} (h : AtPort s a j p)
include h

/-- A load or a CFLUSH that is ready performs its part and ends. -/
theorem exec_read_atPort {ks : List (Nat × Nat)} {loc : Bool}
    (hop : (∃ sz, a.op = .load sz) ∨ ∃ scope inv, a.op = .flush scope inv)
    (hready : s.readyAll (s.atPort a j) j [p] [] = .inr [(p, ks, loc)]) :
    exec (.memoryPortAccess a) s = .next (
      let r := if loc then s.localPart (s.atPort a j) p else s.memPart (s.atPort a j) p ks
      r.1.endAccess { s.atPort a j with got := r.2, parts := [] }) := by
  obtain ⟨hparts, hgot, hdrop, hunit, hearly⟩ := atPort_unit h
  have hop' : s.bareOp a = none ∧ (s.atPort a j).op ≠ .store ∧
      ∀ op w64 nr np cmp, (s.atPort a j).op ≠ .atomic op w64 nr np cmp := by
    obtain ⟨es, hes⟩ := s.atPort_eq a j
    rw [hes, State.bareOp]
    rcases hop with ⟨_, hop⟩ | ⟨_, _, hop⟩ <;> simp [hop]
  obtain ⟨hbare, hstore, hatomic⟩ := hop'
  rw [exec_access_atPort h hbare, State.nextParts_of_read hdrop hunit (List.cons_ne_nil p []) hearly hready hstore
    hatomic, State.performParts_last hparts hgot, State.goOn_nil rfl]

/-- 09 R199: a load from memory delivers what its core reads. -/
theorem exec_load_memory {sz : Nat} {ks : List (Nat × Nat)} (hop : a.op = .load sz)
    (hready : s.ready (s.atPort a j) j p = .go ks) :
    exec (.memoryPortAccess a) s = .next ((s.coreLoad a.core a.recPa a.id ks).1.deliver
      ⟨a.core, a.recPa, a.post, [.s a.dst (extendLoad sz (s.coreRead a.core ks))], none⟩) := by
  rw [exec_read_atPort h (.inl ⟨sz, hop⟩) (State.readyAll_one hready)]
  obtain ⟨-, -, -, -, hbad⟩ := h
  obtain ⟨es, hes⟩ := s.atPort_eq a j
  rw [hes]
  dsimp only
  rw [State.endAccess_of_load ?_ (.inl ⟨sz, ?_⟩)]
  · simp only [Access.results, State.memPart, hop]
    rfl
  · exact hbad
  · exact hop

/-- 09 R199: a load from the core's own storage delivers what that storage holds. -/
theorem exec_load_local {sz : Nat} (hop : a.op = .load sz) (hready : s.ready (s.atPort a j) j p = .loc) :
    exec (.memoryPortAccess a) s = .next
      ((s.noteSeen a.core a.recPa a.id (s.whoAt (localRanges a.core (ptrIx p.ptr) (ptrOff p.ptr) p.size))).deliver
        ⟨a.core, a.recPa, a.post,
          [.s a.dst (extendLoad sz (s.localRead a.core a.recPa (ptrIx p.ptr) (ptrOff p.ptr) p.size))], none⟩) := by
  rw [exec_read_atPort h (.inl ⟨sz, hop⟩) (State.readyAll_one_local hready)]
  obtain ⟨-, -, -, -, hbad⟩ := h
  obtain ⟨es, hes⟩ := s.atPort_eq a j
  rw [hes]
  dsimp only
  rw [State.endAccess_of_load ?_ (.inl ⟨sz, ?_⟩)]
  · simp only [Access.results, State.localPart, hop]
    rfl
  · exact hbad
  · exact hop

/-- 08 R179; 09 R205: a store leaves its bytes in the L1, with their check values, and starts to ripen. -/
theorem exec_store_memory {ks : List (Nat × Nat)} (hop : a.op = .store)
    (hready : s.ready (s.atPort a j) j p = .go ks) :
    exec (.memoryPortAccess a) s = .next (State.ripens (((s.noteOwn a.core ks).setL1 a.core fun l =>
      overSpans (l1Write (s.partChan (s.atPort a j) p) (s.storeEntry a.scope a.core a.seq)) l ks
        p.data).setL1 a.core (l1Heal ks)) a ks) := by
  obtain ⟨hparts, hgot, hdrop, hunit, hearly⟩ := atPort_unit h
  have hop' : (s.atPort a j).op = .store := by
    obtain ⟨es, hes⟩ := s.atPort_eq a j
    rw [hes, hop]
  rw [exec_access_atPort h (by rw [State.bareOp, hop]), State.nextParts_of_store hdrop hunit (List.cons_ne_nil p [])
    hearly (State.readyAll_one hready) hop' rfl, State.performParts_last hparts hgot, State.goOn_nil rfl]
  obtain ⟨-, -, -, -, hbad⟩ := h
  obtain ⟨es, hes⟩ := s.atPort_eq a j
  rw [hes]
  dsimp only
  rw [State.endAccess_of_store ?_ (.inl ?_)]
  · simp only [State.memPart, hop]
    rfl
  · exact hbad
  · exact hop

/-- 12 R276: an atomic goes to its port, or to its batch. -/
theorem exec_atomic_memory {op : AtomOp} {w64 nr np : Bool} {cmp : Word} {ks : List (Nat × Nat)}
    (hop : a.op = .atomic op w64 nr np cmp) (hready : s.ready (s.atPort a j) j p = .go ks) :
    exec (.memoryPortAccess a) s = .next (s.toPort (s.atPort a j)) := by
  obtain ⟨-, -, hdrop, hunit, hearly⟩ := atPort_unit h
  have hop' : (s.atPort a j).op = .atomic op w64 nr np cmp := by
    obtain ⟨es, hes⟩ := s.atPort_eq a j
    rw [hes, hop]
  rw [exec_access_atPort h (by rw [State.bareOp, hop]),
    State.nextParts_of_atomic hdrop hunit (List.cons_ne_nil p []) hearly (State.readyAll_one hready) hop']

/-- The lines of a CFLUSH, written back to the scope. -/
def State.flushed (s : State) (core scope : Nat) (ks : List (Nat × Nat)) : State :=
  if scope ≠ 0 then (lineSpans ks).foldl (fun s k => s.writeBack scope core k.1 k.2) s else s

/-- The lines of a CFLUSH, dropped from the L1. -/
def State.dropped (s : State) (core : Nat) (inv : Bool) (ks : List (Nat × Nat)) : State :=
  if inv = true then s.setL1 core fun l => (lineSpans ks).foldl (fun l k => l1Drop l k.1 k.2) l else s

/-- 09 R205: a CFLUSH writes back the lines of its range, drops them where it says so, and ripens as a store of no
bytes. -/
theorem exec_flush_memory {scope : Nat} {inv : Bool} {ks : List (Nat × Nat)} (hop : a.op = .flush scope inv)
    (hready : s.ready (s.atPort a j) j p = .go ks) :
    exec (.memoryPortAccess a) s =
      .next (State.ripens ((s.flushed a.core scope ks).dropped a.core inv ks) a []) := by
  rw [exec_read_atPort h (.inr ⟨scope, inv, hop⟩) (State.readyAll_one hready)]
  obtain ⟨-, -, -, -, hbad⟩ := h
  obtain ⟨es, hes⟩ := s.atPort_eq a j
  rw [hes]
  dsimp only
  rw [State.endAccess_of_store ?_ (.inr ⟨scope, inv, ?_⟩)]
  · simp only [State.memPart, hop]
    rfl
  · exact hbad
  · exact hop

end

theorem State.flushed_devnum (s : State) (core scope : Nat) (ks : List (Nat × Nat)) :
    (s.flushed core scope ks).devnum = s.devnum := by
  unfold State.flushed
  split
  · induction lineSpans ks generalizing s with
    | nil => rfl
    | cons k ls ih => exact (ih _).trans (s.writeBack_devnum ..)
  · rfl

/-- A CFLUSH no wider than its cluster changes no byte of memory (08 R180). -/
theorem State.flushed_cells {s : State} {core scope : Nat} {ks : List (Nat × Nat)} (h : scope < 2) :
    (s.flushed core scope ks).mem.cells = s.mem.cells := by
  unfold State.flushed
  split
  next h0 =>
    obtain rfl : scope = 1 := by omega
    induction lineSpans ks generalizing s with
    | nil => rfl
    | cons k ls ih => exact ih.trans (s.writeBack_cluster_cells ..)
  next => rfl

theorem State.dropped_mem (s : State) (core : Nat) (inv : Bool) (ks : List (Nat × Nat)) :
    (s.dropped core inv ks).mem = s.mem := by
  unfold State.dropped
  split <;> simp

theorem State.dropped_devnum (s : State) (core : Nat) (inv : Bool) (ks : List (Nat × Nat)) :
    (s.dropped core inv ks).devnum = s.devnum := by
  unfold State.dropped
  split <;> simp

theorem State.ripens_mem (s : State) (a : Access) (ks : List (Nat × Nat)) : (s.ripens a ks).mem = s.mem := by
  unfold State.ripens
  split <;> simp

/-- A store that goes on from a state of the same device. -/
theorem State.ripens_eq {s u : State} (a : Access) (ks : List (Nat × Nat)) (h : u.devnum = s.devnum) :
    u.ripens a ks = if a.scope = 0 then (u.deliver ⟨a.core, a.recPa, a.post, [], none⟩).push
        (.entryRipens ⟨s.devnum, a.core, a.seq, a.core, ks, [], none, 0, 1, a.id⟩)
      else u.push (.entryRipens
        ⟨s.devnum, a.core, a.seq, a.core, ks, [], some ⟨a.core, a.recPa, a.post, [], none⟩, a.scope, 1, a.id⟩) := by
  rw [State.ripens, h]

theorem loadsAndStoresActAtTheirPort : LoadsAndStoresActAtTheirPort := by
  intro s a j p h done b ripens
  refine ⟨fun sz hop => ⟨fun ks hready =>
      ⟨_, exec_load_memory h hop hready, ?_, rfl, fun hc => State.coreRead_coherent hc ks⟩,
    fun hready => exec_load_local h hop hready⟩,
    fun ks hop hready => ⟨_, _, exec_store_memory h hop hready, rfl, ?_, ?_⟩,
    fun op w64 nr np cmp ks hop hready => ?_,
    fun scope inv ks hop hready => ⟨_, _, rfl, State.flushed_cells, rfl, State.dropped_mem .., ?_⟩⟩
  · exact State.coreLoad_mem ..
  · rw [State.ripens_mem, State.setL1_mem, State.setL1_mem]
    exact State.noteOwn_mem ..
  · exact State.ripens_eq a ks (by rw [State.setL1_devnum, State.setL1_devnum, State.noteOwn_devnum])
  · refine (exec_atomic_memory h hop hready).trans (congrArg _ ?_)
    have hkey : (s.atPort a j).key = a.key := by
      obtain ⟨es, hes⟩ := s.atPort_eq a j
      rw [hes]
    rw [State.toPort, hkey]
    split <;> rfl
  · have hdev := (State.dropped_devnum (s.flushed a.core scope ks) a.core inv ks).trans
      (s.flushed_devnum a.core scope ks)
    exact (exec_flush_memory h hop hready).trans (congrArg _ (State.ripens_eq a [] hdev))

end Sys2Proof.Machine
end

section
/-!
# Accesses that fail, lanes, and merges that overflow (09 R199 to R201; 12 R271; 13 R290, R294)
-/
namespace Sys2Proof.Machine

open Sys2Proof.Claims

theorem failedAccessesTouchNothing : FailedAccessesTouchNothing := by
  intro s a j p f hsent hj hparts hwhole hgot hbad hop hfails
  obtain ⟨i, hi⟩ : ∃ i, accessFault { a with bad := [f] } f = i := ⟨_, rfl⟩
  have hexec := exec_access_failed hsent hj hop hparts hwhole hbad hfails
  obtain ⟨es, hes⟩ := s.keepEntries_eq a j
  rw [hes] at hexec
  obtain ⟨hmem, hregs, hdone, hseq, -⟩ := State.endAccess_of_fault (s := s)
    (a := { a with entries := es, parts := [], bad := [f] }) (f := f) rfl hi
  rw [hi]
  exact ⟨_, _, hexec, rfl, hdone, hmem, hregs, hseq⟩

/-! ### Merges that overflow -/

theorem addEntry_length_le (e : Word) (l : List Word) : (addEntry e l).length ≤ l.length + 1 := by
  induction l with
  | nil => exact le_rfl
  | cons x xs ih =>
    unfold addEntry
    split
    · rw [List.length_cons, List.length_cons]
      exact Nat.le_succ _
    · split
      · rw [List.length_cons]
      · rw [List.length_cons, List.length_cons]
        exact Nat.succ_le_succ ih

/-- A merge has no more entries than it is given. -/
theorem mergeEntries_length_le (es : List Word) : (mergeEntries es).length ≤ es.length := by
  have hfold : ∀ l acc : List Word, (l.foldl (fun acc e => addEntry e acc) acc).length ≤ acc.length + l.length := by
    intro l
    induction l with
    | nil => exact fun acc => le_rfl
    | cons e l ih =>
      intro acc
      have := addEntry_length_le e acc
      refine (ih _).trans ?_
      rw [List.length_cons]
      dsimp only
      omega
  exact (hfold _ []).trans (by rw [List.length_nil, Nat.zero_add]; exact List.length_filter_le ..)

/-- 12 R271: a marker is a store of no bytes that its agent has issued last, and goes on once the entries that it
replaces are ripe. -/
theorem State.marker_spec (s : State) (id scope : Nat) (es : List Word) :
    (s.marker id scope es).2 = mkEntry 2 scope s.devnum.toNat id ((s.agentOf s.devnum id).issued + 1) ∧
      ((s.marker id scope es).1.agentOf s.devnum id).issued = (s.agentOf s.devnum id).issued + 1 ∧
      ∃ q : Ripe, .entryRipens q ∈ (s.marker id scope es).1.agenda ∧ q.agent = id ∧
        q.seq = (s.agentOf s.devnum id).issued + 1 ∧ q.wi = es ∧ q.bytes = [] ∧ q.scope = scope := by
  obtain ⟨r, hr⟩ : ∃ r, r = s.number id := ⟨_, rfl⟩
  have hissued : (r.1.agentOf s.devnum id).issued = r.2 := by rw [hr]; exact s.number_issued id
  have hnumber : r.2 = (s.agentOf s.devnum id).issued + 1 := by rw [hr, State.number]
  have hdev : r.1.devnum = s.devnum := by rw [hr, State.number, State.tellPeers_devnum]; rfl
  rw [State.marker, ← hr, ← hnumber]
  rw [← hdev] at hissued ⊢
  refine ⟨rfl, hissued, _, List.mem_append_right _ (List.mem_singleton.mpr rfl), rfl, rfl, rfl, rfl, rfl⟩

theorem overflowingMergesIssueAMarker : OverflowingMergesIssueAMarker := by
  intro s a keep rest hop
  refine ⟨fun h => memoryPortAccess_gives_of_bareOp ?_,
    fun c e h => ⟨_, _, memoryPortAccess_gives_of_bareOp ?_, rfl, rfl⟩, fun h hroom => ?_⟩
  · rw [State.bareOp, hop]
    simp only [h]
    rfl
  · rw [State.bareOp, hop]
    simp only [h]
  · obtain ⟨hentry, hissued, q, hq, hspec⟩ := s.marker_spec a.core (widest rest) rest
    have hmerge := witOfEntries_fits
      (mergeEntries_length_le [s.copyEntry keep, (s.marker a.core (widest rest) rest).2])
    obtain ⟨r, hr⟩ : ∃ r, r = s.marker a.core (widest rest) rest := ⟨_, rfl⟩
    rw [← hr] at hentry hissued hq hmerge
    have hgives : s.bareOp a = some (r.1.deliver ⟨a.core, a.recPa, a.post,
        [.w a.dst (BitVec.allOnes 128) ((witOfEntries (mergeEntries [s.copyEntry keep, r.2])).getD 0)], none⟩) := by
      rw [State.bareOp, hop]
      simp only [h, hroom, ← hr]
      rfl
    rw [hmerge] at hgives
    exact ⟨_, _, _, _, memoryPortAccess_gives_of_bareOp hgives, rfl, hissued, hentry, hmerge,
      List.mem_append_right _ (List.mem_singleton.mpr rfl), q, List.mem_append_left _ hq, hspec⟩

end Sys2Proof.Machine
end

section
/-!
# The lanes of a vector access (09 R200, R201; 12 R273; 15 R333)

Lanes that are one access are performed together, and what they read is what memory holds where the caches hold it too.
Lanes that are separate accesses are performed one by one, and one that fails is left out.
-/
namespace Sys2Proof.Machine

open Sys2Proof.Claims

theorem State.rdSpans_of_cells {s t : State} (h : t.mem.cells = s.mem.cells) (ks : List (Nat × Nat)) :
    t.rdSpans ks = s.rdSpans ks := by
  induction ks with
  | nil => rfl
  | cons k ks ih => rw [State.rdSpans, State.rdSpans, ih, State.rd, State.rd, h]

/-- Parts of a vector load that are performed together read what memory holds, and change neither memory nor a
register. -/
theorem State.performParts_vload (ks : Part → List (Nat × Nat)) (ps : List Part) {s : State} {b : Access}
    (hop : b.op = .vload) (hc : Coherent s b.core) :
    ∃ t, s.performParts b (ps.map fun p => (p, ks p, false)) = (t,
        { b with
          got := b.got ++ ps.map fun p => (p.lane, s.rdSpans (ks p))
          parts := b.parts.filter fun q => ps.all fun p => !decide (q.lane = p.lane) }) ∧
      t.mem.cells = s.mem.cells ∧ t.core.regs = s.core.regs := by
  induction ps generalizing s b with
  | nil => exact ⟨s, by simp [State.performParts], rfl, rfl⟩
  | cons p ps ih =>
    obtain ⟨u, hu⟩ : ∃ u, u = (s.coreLoad b.core b.recPa b.id (ks p)).1 := ⟨_, rfl⟩
    have hcells : u.mem.cells = s.mem.cells := by rw [hu, State.coreLoad_mem]
    have hregs : u.core.regs = s.core.regs := by rw [hu]; exact State.coreLoad_regs ..
    have hmem : s.memPart b p (ks p) = (u, [(p.lane, s.rdSpans (ks p))]) := by
      rw [State.memPart, hop, hu, ← State.coreRead_coherent hc]
      rfl
    have hcu : Coherent u b.core := hu ▸ State.coreLoad_coherent hc ..
    obtain ⟨t, ht, htc, htr⟩ := ih (s := u)
      (b := { b with
        got := b.got ++ [(p.lane, s.rdSpans (ks p))]
        parts := b.parts.filter fun q => !decide (q.lane = p.lane) }) hop hcu
    refine ⟨t, ?_, htc.trans hcells, htr.trans hregs⟩
    rw [List.map_cons, State.performParts, if_neg Bool.false_ne_true, hmem]
    dsimp only
    rw [ht]
    simp [State.rdSpans_of_cells hcells, List.filter_filter, Bool.and_comm]

/-- 09 R200; 12 R273: a vector load that is one access and whose parts are ready delivers every lane's word. -/
theorem State.nextParts_vload {s : State} {b : Access} {j : Job} {ks : Part → List (Nat × Nat)} (hop : b.op = .vload)
    (hwhole : b.whole = true) (hgot : b.got = []) (hbad : b.bad = []) (hne : b.parts ≠ []) (hc : Coherent s b.core)
    (hearly : s.earlier b.recPa b.id (s.namedPlaces b) = false) (hready : ∀ p ∈ b.parts, s.ready b j p = .go (ks p)) :
    ∃ t : State, s.nextParts b j = t.deliver ⟨b.core, b.recPa, b.post,
        [laneWrites b.dst (b.parts.map fun p => (p.lane, s.rdSpans (ks p)))], none⟩ ∧
      t.mem.cells = s.mem.cells ∧ t.core.regs = s.core.regs := by
  obtain ⟨t, ht, hcells, hregs⟩ := State.performParts_vload ks b.parts hop hc
  refine ⟨t, ?_, hcells, hregs⟩
  have hnone : (b.parts.filter fun q => b.parts.all fun p => !decide (q.lane = p.lane)) = [] :=
    List.filter_eq_nil_iff.mpr fun q hq => by
      rw [List.all_eq_true]
      exact fun h => by simpa using h q hq
  rw [State.nextParts_of_read (State.dropBadLanes_eq (.inl hwhole)) (Access.unit_of_whole hwhole) hne hearly
    (State.readyAll_memory hready []) (by simp [hop]) (by simp [hop]), List.nil_append, ht, State.goOn, if_pos hnone,
    State.endAccess_of_load ?_ (.inr ?_)]
  · simp only [Access.results, hop, hgot]
    rfl
  · exact hbad
  · exact hop

theorem exec_vload_whole {s : State} {a : Access} {j : Job} {ks : Part → List (Nat × Nat)}
    (hclear : Cleared s a j a.parts) (hop : a.op = .vload) (hwhole : a.whole = true) (hgot : a.got = [])
    (hbad : a.bad = []) (hne : a.parts ≠ []) (hc : Coherent s a.core)
    (hready : ∀ p ∈ a.parts, s.ready (s.atPort a j) j p = .go (ks p)) :
    ∃ t : State, exec (.memoryPortAccess a) s = .next (t.deliver ⟨a.core, a.recPa, a.post,
        [laneWrites a.dst (a.parts.map fun p => (p.lane, s.rdSpans (ks p)))], none⟩) ∧
      t.mem.cells = s.mem.cells ∧ t.core.regs = s.core.regs := by
  have hexec : exec (.memoryPortAccess a) s = .next (s.nextParts (s.atPort a j) j) :=
    exec_access_cleared hclear (by rw [State.bareOp, hop]) hne fun _ => hbad
  obtain ⟨-, -, -, -, hearly⟩ := hclear
  have hearly : s.earlier a.recPa a.id (s.namedPlaces { s.atPort a j with parts := a.parts }) = false := hearly
  obtain ⟨es, hes⟩ := s.atPort_eq a j
  rw [hes] at hexec hearly hready
  obtain ⟨t, ht, hkeeps⟩ := State.nextParts_vload (b := { a with entries := es, wi := [] }) hop hwhole hgot hbad hne hc
    hearly hready
  exact ⟨t, hexec.trans (congrArg _ ht), hkeeps⟩

/-- The result of a vector load by its parts. -/
theorem elements_laneWrites_parts {ps : List Part} (f : Part → Nat) (hlt : ∀ p ∈ ps, p.lane < 64)
    (hnd : (ps.map Part.lane).Nodup) (d : Nat) : ∃ mask val,
      laneWrites d (ps.map fun p => (p.lane, f p)) = .v d mask val ∧
      Elements 32 mask val (fun n => ps.any fun p => decide (p.lane = n))
        fun n => ((ps.find? fun p => decide (p.lane = n)).map f).getD 0 := by
  obtain ⟨mask, val, hwrite, helems⟩ := elements_laneWrites (got := ps.map fun p => (p.lane, f p)) (by simpa using hlt)
    (by rwa [List.map_map]) d
  simp only [List.any_map, List.find?_map, Option.map_map] at helems
  exact ⟨mask, val, hwrite, helems⟩

/-! ### Lanes that are separate accesses (09 R201) -/

section
variable {s : State} {b : Access} {j : Job} {p : Part} {rest : List Part} {ks : List (Nat × Nat)}
  (hwhole : b.whole = false) (hparts : b.parts = p :: rest) (hne : rest ≠ []) (hlanes : ∀ q ∈ rest, q.lane ≠ p.lane)
  (hix : ∀ q ∈ b.parts, ptrIx q.ptr ≠ 0xFFF4)
  (hearly : s.earlier b.recPa b.id (s.namedPlaces { b with parts := [p] }) = false) (hready : s.ready b j p = .go ks)

section
include hparts hlanes

theorem State.performParts_lane : s.performParts b [(p, ks, false)] =
    ((s.memPart b p ks).1, { b with got := b.got ++ (s.memPart b p ks).2, parts := rest }) := by
  have hrest : (b.parts.filter fun q => !decide (q.lane = p.lane)) = rest := by
    rw [hparts, List.filter_cons_of_neg (by simp), List.filter_eq_self]
    simpa using hlanes
  simp only [State.performParts, Bool.false_eq_true, if_false, hrest]

end

include hwhole hparts hne hlanes hix hearly hready

/-- The first of separate lanes is read, and the access goes on with the others. -/
theorem State.nextParts_vload_lane (hop : b.op = .vload) :
    s.nextParts b j = (s.coreLoad b.core b.recPa b.id ks).1.push (.memoryPortAccess
      { b with parts := rest, got := b.got ++ [(p.lane, s.coreRead b.core ks)] }) := by
  have hunit := Access.unit_of_lanes hwhole hparts (hix p (hparts ▸ List.mem_cons_self))
  rw [State.nextParts_of_read (State.dropBadLanes_eq (.inr hix)) hunit (List.cons_ne_nil p []) hearly
    (State.readyAll_one hready) (by simp [hop]) (by simp [hop]), State.performParts_lane hparts hlanes, State.goOn,
    if_neg hne]
  simp only [State.memPart, hop]
  rfl

/-- The first of separate lanes is stored, and the access goes on with the others. -/
theorem State.nextParts_store_lane (hop : b.op = .store) :
    s.nextParts b j = (((s.noteOwn b.core ks).setL1 b.core fun l =>
      overSpans (l1Write (s.partChan b p) (s.storeEntry b.scope b.core b.seq)) l ks p.data).setL1 b.core
        (l1Heal ks)).push (.memoryPortAccess { b with parts := rest, got := b.got ++ ks }) := by
  have hunit := Access.unit_of_lanes hwhole hparts (hix p (hparts ▸ List.mem_cons_self))
  rw [State.nextParts_of_store (State.dropBadLanes_eq (.inr hix)) hunit (List.cons_ne_nil p []) hearly
    (State.readyAll_one hready) hop rfl, State.performParts_lane hparts hlanes, State.goOn, if_neg hne]
  simp only [State.memPart, hop]
  rfl

end

/-- Of separate lanes the first is performed, and the access goes on with the others. -/
theorem exec_access_lane {s : State} {a : Access} {j : Job} {p : Part} {rest : List Part} {ks : List (Nat × Nat)}
    (hclear : Cleared s a j [p]) (hwhole : a.whole = false) (hparts : a.parts = p :: rest) (hne : rest ≠ [])
    (hlanes : ∀ q ∈ rest, q.lane ≠ p.lane) (hix : ∀ q ∈ a.parts, ptrIx q.ptr ≠ 0xFFF4)
    (hready : s.ready (s.atPort a j) j p = .go ks) :
    (a.op = .vload → exec (.memoryPortAccess a) s = .next ((s.coreLoad a.core a.recPa a.id ks).1.push (.memoryPortAccess
      { s.atPort a j with parts := rest, got := a.got ++ [(p.lane, s.coreRead a.core ks)] }))) ∧
    (a.op = .store → exec (.memoryPortAccess a) s = .next ((((s.noteOwn a.core ks).setL1 a.core fun l =>
      overSpans (l1Write (s.partChan (s.atPort a j) p) (s.storeEntry a.scope a.core a.seq)) l ks p.data).setL1 a.core
        (l1Heal ks)).push (.memoryPortAccess { s.atPort a j with parts := rest, got := a.got ++ ks }))) := by
  have hexec (hop : s.bareOp a = none) : exec (.memoryPortAccess a) s = .next (s.nextParts (s.atPort a j) j) :=
    exec_access_cleared hclear hop (by simp [hparts]) (by simp [hwhole])
  obtain ⟨-, -, -, -, hearly⟩ := hclear
  have hearly : s.earlier a.recPa a.id (s.namedPlaces { s.atPort a j with parts := [p] }) = false := hearly
  obtain ⟨es, hes⟩ := s.atPort_eq a j
  rw [hes] at hexec hearly hready ⊢
  exact ⟨fun hop => (hexec (by rw [State.bareOp, hop])).trans (congrArg _
      (State.nextParts_vload_lane (b := { a with entries := es, wi := [] }) hwhole hparts hne hlanes hix hearly hready
        hop)),
    fun hop => (hexec (by rw [State.bareOp, hop])).trans (congrArg _
      (State.nextParts_store_lane (b := { a with entries := es, wi := [] }) hwhole hparts hne hlanes hix hearly hready
        hop))⟩

theorem lanesActTogetherOrOneByOne : LanesActTogetherOrOneByOne := by
  refine ⟨?_, ?_, ?_, ?_⟩
  · intro s a j ks hclear hop hwhole hgot hbad hne hnd hc hready
    obtain ⟨t, hexec, hcells, hregs⟩ :=
      exec_vload_whole hclear hop hwhole hgot hbad hne hc fun p hp => (hready p hp).2
    obtain ⟨mask, val, hwrite, helems⟩ := elements_laneWrites_parts (fun p => s.rdSpans (ks p))
      (fun p hp => (hready p hp).1) hnd a.dst
    rw [hwrite] at hexec
    refine ⟨_, mask, val, hexec, hcells, hregs, List.mem_append_right _ (List.mem_singleton.mpr rfl), ?_⟩
    refine fun e he => (helems e he).imp_right fun hsel hany => (hsel hany).trans (congrArg (· % 2 ^ 32) ?_)
    dsimp only
    cases a.parts.find? fun p => decide (p.lane = e) <;> rfl
  · intro s a j p rest ks hclear hwhole hparts hne hlanes hix b hready
    exact exec_access_lane hclear hwhole hparts hne hlanes hix hready
  · intro s a j p rest f hsent hj hop hwhole hparts hlane hrest hf hpass
    exact exec_access_lane_failed hsent hj hop hwhole hparts hlane hrest hf hpass
  · intro s a j f hsent hj hop hwhole hparts hlow hobs
    obtain ⟨hmem, hle⟩ := lowest_spec hlow
    obtain ⟨-, hregs, hdone, hseq, hstore⟩ := State.endAccess_of_fault (s := s) (a := { a with wi := [] })
      (i := accessFault a f) hlow rfl
    exact ⟨hle, hmem, testBit_laneMask hwhole, rfl, _, exec_access_no_parts hsent hj hop hwhole hparts hobs, hregs,
      hdone, hseq, hstore⟩

end Sys2Proof.Machine
end

section
open Sys2Proof Sys2Proof.Machine

/-- Settles O22: what an access does at its port is said once for each kind of it, an access that fails ends with its
fault and touches nothing, lanes are performed together or one by one, and a merge that overflows issues a marker. -/
theorem portAccessesActOrTouchNothing : Obligations.PortAccessesActOrTouchNothing :=
  ⟨loadsAndStoresActAtTheirPort, failedAccessesTouchNothing, lanesActTogetherOrOneByOne, overflowingMergesIssueAMarker⟩

end

section
/-!
# The head command of an engine (08 R188; 09 R211)

An engine that has been replaced is what it was replaced by, and the head command of an engine goes on as the head until
it leaves its queue. What asks an engine to act changes no unit.
-/
namespace Sys2Proof.Machine

open Sys2Proof.Claims

/-! ### Engines and endings -/

section
variable {s t : State}

theorem State.engine_congr (h : t.units.engines = s.units.engines) : t.engine = s.engine := by
  funext e
  rw [State.engine, State.engine, h]

/-- The head of an engine's queue depends on the engines and on the endings alone. -/
theorem State.engHead_congr (h : t.units.engines = s.units.engines) (hend : t.units.endings = s.units.endings) :
    t.engHead = s.engHead := by
  funext e
  rw [State.engHead, State.engHead, hend, State.engine_congr h]

end

section
variable (s : State) (e : Nat)

@[simp] theorem State.pushEngine_units : (s.pushEngine e).units = s.units := by
  unfold State.pushEngine
  split
  · split <;> rfl
  · rfl

@[simp] theorem State.pushEngine_engine : (s.pushEngine e).engine = s.engine :=
  State.engine_congr (congrArg Units.engines (s.pushEngine_units e))

@[simp] theorem State.pushEngine_engHead : (s.pushEngine e).engHead = s.engHead :=
  State.engHead_congr (congrArg Units.engines (s.pushEngine_units e)) (congrArg Units.endings (s.pushEngine_units e))

theorem State.mem_agenda_pushEngine {x : Event} (h : x ∈ s.agenda) : x ∈ (s.pushEngine e).agenda := by
  unfold State.pushEngine
  split
  · split
    · exact h
    · exact List.mem_append_left _ h
  · exact h

@[simp] theorem State.cmdPost_units (c : Cmd) (post : Option Nat) (f : Option PFault) :
    (s.cmdPost c post f).units = s.units := by
  unfold State.cmdPost
  split <;> rfl

/-- A token that a command names posts. -/
theorem State.mem_agenda_cmdPost {c : Cmd} {post : Option Nat} {p : Nat} (f : Option PFault) (h : post = some p) :
    .tokenedOperationComplete ⟨c.core, c.recPa, some p, [], f⟩ ∈ (s.cmdPost c post f).agenda := by
  subst h
  exact List.mem_append_right _ (List.mem_singleton.mpr rfl)

end

section
variable {s : State} {e : Nat} (he : e < 64)
include he

theorem State.engine_setEngine (g : Engine) : (s.setEngine e g).engine e = g := by
  rw [State.engine, State.setEngine_units_engines]
  simp [he]

theorem State.engine_setHead (c : Cmd) (vals : List Nat) : (s.setHead e c vals).engine e =
    { s.engine e with
      queue := c :: (s.engine e).queue.drop 1
      vals := vals
      fmt := if vals = [] then none else (s.engine e).fmt } := State.engine_setEngine he _

theorem State.engine_popEngine : (s.popEngine e).engine e =
    { s.engine e with queue := (s.engine e).queue.drop 1, vals := [], fmt := none, asked := false, waiting := [] } := by
  rw [State.popEngine, State.pushEngine_engine]
  exact State.engine_setEngine he _

end

theorem State.engHead_eq_some {s : State} {e : Nat} {c : Cmd} : s.engHead e = some c ↔
    (∀ g ∈ s.units.endings, g.eng ≠ e) ∧ (s.engine e).holder = none ∧ ∃ cs, (s.engine e).queue = c :: cs := by
  unfold State.engHead
  split
  next h =>
    obtain ⟨g, hg, hge⟩ := List.any_eq_true.mp h
    exact iff_of_false nofun fun hnone => hnone.1 g hg (of_decide_eq_true hge)
  next h =>
    have hnone : ∀ g ∈ s.units.endings, g.eng ≠ e := by simpa using h
    split
    next c' cs hholder hqueue => simpa [hholder, hqueue] using fun _ => hnone
    next hnot => exact iff_of_false nofun fun ⟨_, hholder, cs, hqueue⟩ => hnot c cs hholder hqueue

/-- The head command that has been replaced is the head. -/
theorem State.engHead_setHead {s : State} {e : Nat} {c c' : Cmd} (he : e < 64) (h : s.engHead e = some c)
    (vals : List Nat) : (s.setHead e c' vals).engHead e = some c' := by
  obtain ⟨hend, hholder, -⟩ := State.engHead_eq_some.mp h
  rw [State.engHead_eq_some, State.engine_setHead he]
  exact ⟨hend, hholder, _, rfl⟩

/-- The format noted with the values of a piece leaves the head of the queue. -/
theorem State.engHead_setFmt {s : State} {e : Nat} {c : Cmd} (he : e < 64) (h : s.engHead e = some c)
    (f : Option BankFmt) : (s.setEngine e { s.engine e with fmt := f }).engHead e = some c := by
  obtain ⟨hend, hholder, hqueue⟩ := State.engHead_eq_some.mp h
  rw [State.engHead_eq_some, State.engine_setEngine he]
  exact ⟨hend, hholder, hqueue⟩

/-! ### The bytes of a piece (09 R211) -/

theorem okBytes_length {f : Nat → Except EngFail EPlace} {n i : Nat} {ps : List EPlace}
    (h : okBytes f n i = (ps, none)) : ps.length = n := by
  induction n generalizing i ps with
  | zero => cases h; rfl
  | succ n ih =>
    rw [okBytes] at h
    cases hf : f i with
    | error g => rw [hf] at h; cases h
    | ok p =>
      rw [hf] at h
      obtain ⟨qs, hqs⟩ : ∃ qs, okBytes f n (i + 1) = (qs, none) := ⟨_, Prod.ext rfl (congrArg Prod.snd h :)⟩
      rw [hqs] at h
      cases h
      exact congrArg (· + 1) (ih hqs)

theorem okBytes_take {f : Nat → Except EngFail EPlace} {n i : Nat} {ps : List EPlace}
    (h : okBytes f n i = (ps, none)) : ps.take n = ps := List.take_of_length_le (okBytes_length h).le

section
variable {s t : State}

/-- What lies at places depends on memory and on the storage of the cores. -/
theorem State.getBytes_congr (hmem : t.mem = s.mem) (hcore : t.coreOf = s.coreOf) (ps : List EPlace) :
    t.getBytes ps = s.getBytes ps := by
  induction ps with
  | nil => rfl
  | cons p ps ih =>
    cases p with
    | loc c ix o => rw [State.getBytes, State.getBytes, ih, hcore]
    | mem k => rw [State.getBytes, State.getBytes, ih, State.rd, State.rd, hmem]
    | peer l o => rw [State.getBytes, State.getBytes, ih]

@[simp] theorem State.getBytes_setHead (e : Nat) (c : Cmd) (vals : List Nat) (ps : List EPlace) :
    (s.setHead e c vals).getBytes ps = s.getBytes ps :=
  State.getBytes_congr (s := s) (t := s.setHead e c vals) rfl rfl ps

theorem State.getBytes_cons (p : EPlace) (ps : List EPlace) :
    s.getBytes (p :: ps) = s.getBytes [p] + 256 * s.getBytes ps := by
  cases p <;> simp [State.getBytes]

/-- A command that has overwritten nothing reads what lies at its source (09 R211). -/
theorem State.getSource_of_was_nil {c : Cmd} (h : c.was = []) (ps : List EPlace) :
    s.getSource c ps = s.getBytes ps := by
  induction ps with
  | nil => rfl
  | cons p ps ih =>
    rw [State.getSource, State.getBytes_cons p ps, ih, h]
    cases p.num <;> rfl

end

section
variable {s : State} {e : Nat} {j : Job} {ix off n : Nat} {ps : List EPlace} (hpeer : NoPeer ps) (hlen : ps.length = n)
  (hwait : s.engWait j ix off n = (s, false))
include hpeer hlen hwait

theorem State.engRead_source (c : Cmd) : s.engRead e j (some c) ix off ps = .ok s (s.getSource c ps) := by
  unfold State.engRead
  split
  next l o ps => exact (hpeer _ List.mem_cons_self l o rfl).elim
  next => rw [hlen, hwait]; rfl

theorem State.engRead_bytes : s.engRead e j none ix off ps = .ok s (s.getBytes ps) := by
  unfold State.engRead
  split
  next l o ps => exact (hpeer _ List.mem_cons_self l o rfl).elim
  next => rw [hlen, hwait]; rfl

theorem State.engWrite_bytes (who : Word) (x : Nat) : s.engWrite e j who ix off ps x = .ok (s.putBytes who ps x) 0 := by
  unfold State.engWrite
  split
  next l o ps => exact (hpeer _ List.mem_cons_self l o rfl).elim
  next => rw [hlen, hwait]; rfl

end

@[simp] theorem State.putBytes_units (s : State) (who : Word) (ps : List EPlace) (x : Nat) :
    (s.putBytes who ps x).units = s.units := by
  have hspans (ks : List (Nat × Nat)) (x : Nat) : (s.wrSpans ks x).units = s.units := by rw [State.wrSpans_only]
  unfold State.putBytes
  split
  · exact hspans ..
  · exact State.setCore_units ..
  · rfl

@[simp] theorem State.putBytes_engHead (s : State) (who : Word) (ps : List EPlace) (x : Nat) :
    (s.putBytes who ps x).engHead = s.engHead :=
  State.engHead_congr (congrArg Units.engines (s.putBytes_units who ps x))
    (congrArg Units.endings (s.putBytes_units who ps x))

end Sys2Proof.Machine
end

section
/-!
# Copies (08 R184, R189, R190; 09 R211 to R213)

What the head copy of an engine does with its next piece is said once for each stage of the piece: its source is read,
then for a CPYR the old destination, then their result is written.
-/
namespace Sys2Proof.Machine

open Sys2Proof.Claims

/-! ### The next piece of the head copy -/

/-- The place of a byte of a copy's source. -/
abbrev State.copySource (s : State) (c : Cmd) (j : Job) (i : Nat) : Except EngFail EPlace :=
  s.engSource j (descCore c 63 53) (bits (c.w 0) 63 48) (c.srcRow + c.col + i)

/-- The place of a byte of a copy's destination, with SHD in its backing. -/
abbrev State.copyDest (s : State) (c : Cmd) (j : Job) (i : Nat) : Except EngFail EPlace :=
  s.engDest j (descCore c 52 42) (bits (c.w 1) 63 48) (c.dstRow + c.dcol + i) c.shd

/-- The place of a byte of the old destination of a CPYR, with SRD in its backing. -/
abbrev State.copyOld (s : State) (c : Cmd) (j : Job) (i : Nat) : Except EngFail EPlace :=
  s.oldAt j (descCore c 52 42) (bits (c.w 1) 63 48) (c.dstRow + c.dcol + i) c.srd

/-- The bank format of a copy's destination. -/
abbrev State.copyFmt (s : State) (c : Cmd) : BankFmt :=
  (s.destFmt (descCore c 52 42) (bits (c.w 1) 63 48) (c.dstRow + c.dcol)).getD BankFmt.zero

/-- Some byte of the first so many of a copy's source is one of its destination. -/
abbrev State.copyShares (s : State) (c : Cmd) (j : Job) (k : Nat) : Bool :=
  sharePlace
    (okBytes (fun i => s.engByte j (descCore c 63 53) needR (bits (c.w 0) 63 48) (c.srcRow + c.col + i)) k 0).1
    (okBytes (s.copyDest c j) k 0).1

/-- The index of a copy's destination, or of its backing where a flag says so. -/
def State.copyIndex (s : State) (c : Cmd) (j : Job) (backed : Bool) : Nat :=
  if backed = true then (s.shadowOf j (bits (c.w 1) 63 48)).toOption.getD (bits (c.w 1) 63 48) else bits (c.w 1) 63 48

section
variable {s : State} {e : Nat} {c : Cmd} {j : Job}

/-- The format of a piece is that of its destination, as long as that has not changed since its source was read. -/
abbrev State.CopyFmtKept (s : State) (e : Nat) (c : Cmd) : Prop := (s.engine e).fmt.getD (s.copyFmt c) = s.copyFmt c

/-- A piece that no conversion fits ends the command (08 R184). -/
theorem State.copyPiece_of_misfit (hfmt : s.CopyFmtKept e c) {g : EngFail}
    (h : c.piece (s.copyFmt c) (s.copyShares c j) = .error g) : s.copyPiece e c j = s.failCmd e c g := by
  unfold State.copyPiece
  simp only [hfmt, h, ne_eq, not_true_eq_false, false_and, and_false, if_false]

/-- A piece that more follow, or whose command has posted source-free, is not the last one (09 R213). -/
theorem Cmd.last_eq_false {n : Nat} (h : c.freed = true ∨ c.col + n < c.rowlen ∨ c.row + 1 < c.rows) :
    (true && decide (c.rowlen ≤ c.col + n) && decide (c.rows ≤ c.row + 1) && !c.freed) = false := by
  rw [Bool.eq_false_iff]
  intro hlast
  simp only [Bool.and_eq_true, decide_eq_true_eq, Bool.not_eq_true'] at hlast
  obtain ⟨⟨⟨-, hcol⟩, hrow⟩, hfreed⟩ := hlast
  rcases h with h | h | h
  · rw [hfreed] at h
    cases h
  · omega
  · omega

/-- A piece of which all source bytes can be read. -/
structure CopyReady (s : State) (e : Nat) (c : Cmd) (j : Job) (n : Nat) (conv : Nat → Nat → Nat → Nat × Nat × Flags)
    (ps : List EPlace) : Prop where
  fmt : s.CopyFmtKept e c
  piece : c.piece (s.copyFmt c) (s.copyShares c j) = .ok (n, conv)
  some : n ≠ 0
  source : okBytes (s.copySource c j) n 0 = (ps, none)

section
variable {n : Nat} {conv : Nat → Nat → Nat → Nat × Nat × Flags} {ps : List EPlace} (h : CopyReady s e c j n conv ps)
include h

/-- A piece of which nothing has been read has its source read. -/
theorem State.copyPiece_source (hvals : (s.engine e).vals = []) (hpeer : NoPeer ps)
    (hwait : s.engWait j (bits (c.w 0) 63 48) (c.srcRow + c.col) n = (s, false)) :
    s.copyPiece e c j = ((s.setHead e c [s.getSource c ps]).setEngine e
      { (s.setHead e c [s.getSource c ps]).engine e with fmt := some (s.copyFmt c) }).pushEngine e := by
  have hread := State.engRead_source (e := e) hpeer (okBytes_length h.source) hwait c
  have htake := okBytes_take h.source
  obtain ⟨hfmt, hpiece, hn, hsource⟩ := h
  unfold State.copyPiece
  simp only [hfmt, hpiece, hsource, hvals, hn, htake, hread, ne_eq, not_true_eq_false, false_and, if_false,
    decide_true, if_true]

/-- A piece that has been read asks for the token of source-free when it is the last (09 R213). -/
theorem State.copyPiece_last {x : Nat} {xs : List Nat} (hvals : (s.engine e).vals = x :: xs)
    (hlast : ¬(c.freed = true ∨ c.col + n < c.rowlen ∨ c.row + 1 < c.rows)) :
    s.copyPiece e c j = s.push (.sourceFree e) := by
  obtain ⟨hfreed, hcol, hrow⟩ : c.freed = false ∧ c.rowlen ≤ c.col + n ∧ c.rows ≤ c.row + 1 := by simpa using hlast
  obtain ⟨hfmt, hpiece, hn, hsource⟩ := h
  unfold State.copyPiece
  simp only [hfmt, hpiece, hsource, hvals, hn, hfreed, hcol, hrow, ne_eq, not_true_eq_false, false_and, and_false,
    if_false, decide_true, if_true, Bool.and_self, Bool.not_false]

variable (hmore : c.freed = true ∨ c.col + n < c.rowlen ∨ c.row + 1 < c.rows)
include hmore

/-- A CPYR that has read its source reads the old destination (09 R212). -/
theorem State.copyPiece_old {x : Nat} {qs : List EPlace} (hkind : c.kind = 2) (hvals : (s.engine e).vals = [x])
    (hold : okBytes (s.copyOld c j) n 0 = (qs, none)) (hpeer : NoPeer qs)
    (hwait : s.engWait j (s.copyIndex c j c.srd) (c.dstRow + c.dcol) n = (s, false)) :
    s.copyPiece e c j = (s.setHead e c [x, s.getBytes qs]).pushEngine e := by
  have hread (ix : Nat) (hix : ix = s.copyIndex c j c.srd) :
      s.engRead e j none ix (c.dstRow + c.dcol) qs = .ok s (s.getBytes qs) :=
    State.engRead_bytes hpeer (okBytes_length hold) (hix ▸ hwait)
  have hlast := Cmd.last_eq_false hmore
  obtain ⟨hfmt, hpiece, hn, hsource⟩ := h
  unfold State.copyPiece
  simp only [hfmt, hpiece, hsource, hvals, hn, hlast, hkind, hold, ne_eq, not_true_eq_false, false_and, and_false,
    if_false, decide_true, if_true, Bool.false_eq_true]
  rw [hread]
  unfold State.copyIndex
  cases s.shadowOf j (bits (c.w 1) 63 48) <;> rfl

/-- A piece whose values have been read is written, and the command goes on (09 R211 to R213). -/
theorem State.copyPiece_result {x old m : Nat} {y : Nat × Flags} {qs : List EPlace}
    (hvals : (s.engine e).vals = if c.kind = 2 then [x, old] else [x]) (hold : c.kind ≠ 2 → old = 0)
    (hconv : conv n x old = (m, y)) (hm : m ≠ 0) (hunit : m / c.unit * c.unit = m) (hconv' : conv m x old = (m, y))
    (hdest : okBytes (s.copyDest c j) m 0 = (qs, none)) (hpeer : NoPeer qs)
    (hwait : s.engWait j (s.copyIndex c j c.shd) (c.dstRow + c.dcol) m = (s, false)) :
    s.copyPiece e c j = ((s.putBytes c.wo qs (y.1 % 256 ^ m)).setHead e
      ((s.keepWas c qs).advance n m y.2) []).pushEngine e := by
  have hwrite (ix : Nat) (hix : ix = s.copyIndex c j c.shd) : s.engWrite e j c.wo ix (c.dstRow + c.dcol) qs
      (y.1 % 256 ^ m) = .ok (s.putBytes c.wo qs (y.1 % 256 ^ m)) 0 :=
    State.engWrite_bytes hpeer (okBytes_length hdest) (hix ▸ hwait) ..
  have htake := okBytes_take hdest
  have hlen := okBytes_length hdest
  have hlast := Cmd.last_eq_false hmore
  have hnext : ∃ xs, (s.engine e).vals = x :: xs ∧ (if c.kind = 2 then xs else 0 :: xs) = [old] := by
    by_cases hk : c.kind = 2
    · exact ⟨[old], by rw [hvals, if_pos hk], if_pos hk⟩
    · exact ⟨[], by rw [hvals, if_neg hk], by rw [if_neg hk, hold hk]⟩
  obtain ⟨xs, hvals, hnext⟩ := hnext
  obtain ⟨hfmt, hpiece, hn, hsource⟩ := h
  unfold State.copyPiece
  simp only [hfmt, hpiece, hsource, hvals, hn, hlast, hnext, hconv, hdest, hlen, hunit, hm, hconv', htake, ne_eq,
    not_true_eq_false, false_and, and_false, if_false, decide_true, if_true, Bool.false_eq_true]
  rw [hwrite]
  · rfl
  · unfold State.copyIndex
    cases s.shadowOf j (bits (c.w 1) 63 48) <;> rfl

end

end

/-! ### The step of the head copy -/

/-- A command with nothing to observe acts at once (09 R211). -/
theorem State.cmdObserve_nil {s : State} {e : Nat} {c : Cmd} (h : c.wi = []) (act : State → Cmd → State) :
    s.cmdObserve e c act = act (s.setHead e c (s.engine e).vals) c := by
  have hc : { c with wi := [] } = c := by rw [← h]
  unfold State.cmdObserve
  rw [h, hc]
  rfl

/-- The head copy of an engine acts on its next piece. -/
theorem exec_copy_head {s : State} {e : Nat} {c : Cmd} {j : Job} {r : Nat × (Nat → Instr)}
    (hr : r ∈ [(1, Instr.copyPerform), (2, Instr.reduceCopyPerform)]) (h : HeadCmd s e c j) (hkind : c.kind = r.1) :
    exec (r.2 e) s = .next ((s.setHead e c (s.engine e).vals).copyPiece e c j) := by
  obtain ⟨-, hhead, hwi, hwritten, hj⟩ := h
  have hstep : exec (r.2 e) s = .next (s.copyStep e r.1) := by
    rcases List.mem_cons.mp hr with rfl | hr
    · rfl
    · rw [List.mem_singleton.mp hr]
      rfl
  have hgo : ¬(c.kind ≠ r.1 ∨ c.written = true) := by simp [hkind, hwritten]
  rw [hstep, State.copyStep, hhead]
  dsimp only
  rw [if_neg hgo, State.cmdObserve_nil hwi]
  rw [show (s.setHead e c (s.engine e).vals).job? c.job = s.job? c.job from rfl, hj]

/-- What a command comes to after a piece (09 R211). -/
theorem Cmd.advance_spec (c : Cmd) (n m : Nat) (fl : Flags) :
    (c.advance n m fl).bytes = c.bytes + m ∧ (c.advance n m fl).flags = c.flags ||| fl ∧
      (c.col + n < c.rowlen →
        (c.advance n m fl).col = c.col + n ∧ (c.advance n m fl).row = c.row ∧ (c.advance n m fl).written = c.written) ∧
      (c.rowlen ≤ c.col + n → (c.advance n m fl).col = 0 ∧ (c.advance n m fl).row = c.row + 1 ∧
        ((c.advance n m fl).written = true ↔ c.rows ≤ c.row + 1)) := by
  unfold Cmd.advance
  dsimp only
  split
  next h => exact ⟨rfl, rfl, fun _ => ⟨rfl, rfl, rfl⟩, fun h' => absurd h (by exact Nat.not_lt.mpr h')⟩
  next h => exact ⟨rfl, rfl, fun h' => absurd h' h, fun _ => ⟨rfl, rfl, decide_eq_true_iff⟩⟩

theorem copiesMoveTheirPieces : CopiesMoveTheirPieces := by
  intro r hr s u e c j f sh sx dx rx wx so d h hkind hsx hdx hso hd hu hf hfmt hrx hwx hsh
  subst hsx hdx hso hd hf
  obtain rfl : sh = u.copyShares c j := hsh
  have hexec : exec (r.2 e) s = .next (u.copyPiece e c j) := hu ▸ exec_copy_head hr h hkind
  obtain ⟨he, hhead, hwi, hwritten, hj⟩ := h
  -- the state in which the piece is moved
  have hengine := hu ▸ State.engine_setHead (s := s) he c (s.engine e).vals
  have hvals : (u.engine e).vals = (s.engine e).vals := by rw [hengine]
  have hheadu : u.engHead e = some c := hu ▸ State.engHead_setHead he hhead _
  have hbytes (ps : List EPlace) : u.getBytes ps = s.getBytes ps := hu ▸ State.getBytes_setHead ..
  have hmem : u.mem = s.mem := hu ▸ rfl
  have hcore : u.core = s.core := hu ▸ rfl
  have hkept : u.CopyFmtKept e c := by
    unfold State.CopyFmtKept
    rw [hengine]
    rcases hfmt with hnil | hsome
    · simp [hnil]
    · dsimp only
      split
      · rfl
      · rw [hsome, Option.getD_some]
  refine ⟨fun g hpiece => ?_, fun n conv ps hpiece hn more hmore hsource hpeer => ?_⟩
  · exact hexec.trans (congrArg _ (State.copyPiece_of_misfit hkept hpiece))
  · have ready : CopyReady u e c j n conv ps := ⟨hkept, hpiece, hn, hsource⟩
    refine ⟨fun hnil hwait => ?_, fun x xs hx hlast => ?_, fun x qs hr2 hx hm hold hqs hwait => ?_,
      fun x y old m qs hm h1 h2 hconv hm0 hmn hdest hqs hwait hconv' => ?_⟩
    · have hgo := hexec.trans (congrArg _ (State.copyPiece_source ready (hvals.trans hnil) hpeer hwait))
      refine ⟨_, hgo, ?_, ?_, fun hwas => (State.getSource_of_was_nil hwas ps).trans (hbytes ps), ?_, ?_, ?_⟩
      · rw [State.pushEngine_engHead]
        exact State.engHead_setFmt he (State.engHead_setHead he hheadu _) _
      · rw [State.pushEngine_engine, State.engine_setEngine he, State.engine_setHead he]
      · rw [State.pushEngine_engine, State.engine_setEngine he]
      · rw [State.pushEngine_mem]
        exact hmem
      · rw [State.pushEngine_core]
        exact hcore
    · exact hexec.trans (congrArg _ (State.copyPiece_last ready (hvals.trans hx) (hmore ▸ hlast)))
    · have hback : rx = u.copyIndex c j c.srd := hrx
      have hgo := hexec.trans (congrArg _ (State.copyPiece_old ready (hmore ▸ hm) (hkind.trans hr2) (hvals.trans hx)
        hold hqs (hback ▸ hwait)))
      rw [hbytes] at hgo
      refine ⟨_, hgo, ?_, ?_, ?_⟩
      · rw [State.pushEngine_engHead]
        exact State.engHead_setHead he hheadu _
      · rw [State.pushEngine_engine, State.engine_setHead he]
      · rw [State.pushEngine_mem]
        exact hmem
    · have hback : wx = u.copyIndex c j c.shd := hwx
      have hread : (u.engine e).vals = (if c.kind = 2 then [x, old] else [x]) ∧ (c.kind ≠ 2 → old = 0) ∧
          m / c.unit * c.unit = m := by
        rw [hvals, Cmd.unit, hkind]
        rcases List.mem_cons.mp hr with rfl | hr
        · obtain ⟨hx, hold⟩ := h1 rfl
          exact ⟨hx, fun _ => hold, by simp⟩
        · obtain rfl := List.mem_singleton.mp hr
          obtain ⟨hx, hdvd⟩ := h2 rfl
          exact ⟨hx, fun h => absurd rfl h, by rw [hmn rfl]; exact Nat.div_mul_cancel (Nat.dvd_of_mod_eq_zero hdvd)⟩
      obtain ⟨hread, hold, hunit⟩ := hread
      have hgo := hexec.trans (congrArg _ (State.copyPiece_result ready (hmore ▸ hm) hread hold hconv hm0 hunit hconv'
        hdest hqs (hback ▸ hwait)))
      obtain ⟨hbytes, hflags, hrow, hnext⟩ := (u.keepWas c qs).advance_spec n m y.2
      refine ⟨_, _, hgo, ?_, hbytes, hflags, ?_, ?_, fun hcol => ?_, hnext⟩
      · rw [State.pushEngine_engHead]
        refine State.engHead_setHead he (c := c) ?_ _
        rw [State.putBytes_engHead]
        exact hheadu
      · rw [State.pushEngine_engine, State.engine_setHead he]
      · rw [State.pushEngine_mem]
        rfl
      · obtain ⟨hcol', hrow', hwr⟩ := hrow hcol
        exact ⟨hcol', hrow', hwr.trans hwritten⟩

end Sys2Proof.Machine
end

section
/-!
# The ends of commands (09 R213, R214)

The write of word 0x38 changes no unit of the device, and a command that ends with DONE makes its store visible and
posts its token.
-/
namespace Sys2Proof.Machine

open Sys2Proof.Claims

/-! ### The write of word 0x38 (09 R210; 13 R300) -/

/-- A state has the units and the number of another. -/
def State.SameUnits (s t : State) : Prop := t.units = s.units ∧ t.devnum = s.devnum

theorem State.SameUnits.refl (s : State) : s.SameUnits s := ⟨rfl, rfl⟩

theorem State.SameUnits.trans {s t u : State} (h : s.SameUnits t) (k : t.SameUnits u) : s.SameUnits u :=
  ⟨k.1.trans h.1, k.2.trans h.2⟩

theorem State.sameUnits_engWait (s : State) (j : Job) (ix off n : Nat) : s.SameUnits (s.engWait j ix off n).1 := by
  have walks (tenant tier : Nat) (ps : List (Nat × Nat)) : s.SameUnits (s.askWalks tenant tier ps).1 := by
    unfold State.SameUnits State.askWalks
    rw [← Prod.mk.injEq]
    refine foldl_keeps (g := fun r : State × Bool => (r.1.units, r.1.devnum)) (fun r p => ?_) ps (s, false)
    dsimp only
    split
    · rfl
    · dsimp only; split <;> rfl
  unfold State.engWait
  split
  · exact .refl s
  · cases s.buf? j ix with
    | none => exact .refl s
    | some b =>
      dsimp only
      split
      · exact .refl s
      · cases s.pureKeys j.tenant.toNat b.tier (b.pieces off n) with
        | error _ => exact .refl s
        | ok ks => exact walks ..

/-- The outcome of a write of word 0x38 that has not failed keeps the units and the number of the device. -/
def Wrote.KeepsUnits (s : State) : Wrote → Prop
  | .wait t | .asked t | .ok t => s.SameUnits t
  | .fail .. => True

theorem State.wrStatus_keepsUnits (s : State) (g : Ending) (w : Nat) : (s.wrStatus g w).KeepsUnits s := by
  have sent {lease : Nat} {j : Job} {kind : PeerKind} {cells : List (Nat × Nat × Nat)} {who : PeerWho}
      {batch : Option (BatchKey × Nat × Option Nat)} {t : State}
      (h : s.toLender lease j kind cells who batch = some t) : s.SameUnits t := by
    unfold State.toLender at h
    split at h
    next => cases h
    next => cases h; exact ⟨State.send_units .., State.send_devnum ..⟩
  have waited := s.sameUnits_engWait
  -- opaque reads, so that the kernel does not evaluate a check in comparing branches
  obtain ⟨check, hcheck⟩ : ∃ check, s.check = check := ⟨_, rfl⟩
  obtain ⟨wait, hwait⟩ : ∃ wait, s.engWait = wait := ⟨_, rfl⟩
  obtain ⟨keys, hkeys⟩ : ∃ keys, s.pureKeys = keys := ⟨_, rfl⟩
  rw [hwait] at waited
  unfold State.wrStatus
  rw [hcheck, hwait, hkeys]
  extract_lets c p ix bad
  split
  · exact .refl s
  · trivial
  · trivial
  · trivial
  · split
    · exact .refl s
    · split
      · exact ⟨State.setCore_units .., State.setCore_devnum ..⟩
      · split
        · exact .refl s
        next j _ =>
          split
          · trivial
          · exact .refl s
          next b _ =>
            split
            · split
              next eq => exact sent eq
              · trivial
            · split
              · trivial
              next ks _ =>
                extract_lets t
                split
                · exact waited ..
                · refine (waited j ix (ptrOff p) 8).trans ?_
                  rw [State.wrSpans_only]
                  exact .refl _

/-! ### A command that ends with DONE (09 R213) -/

/-- A store that becomes visible leaves the engines and the endings, and every byte of memory. -/
theorem State.visible_keeps (s : State) (a n : Nat) : (s.visible a n).units.engines = s.units.engines ∧
    (s.visible a n).units.endings = s.units.endings ∧ (s.visible a n).mem.cells = s.mem.cells := by
  rw [State.visible, State.tellPeers_units, State.tellPeers_mem]
  exact ⟨rfl, rfl, rfl⟩

theorem State.doneEffects_keeps (s : State) (c : Cmd) : (s.doneEffects c).units.engines = s.units.engines ∧
    (s.doneEffects c).units.endings = s.units.endings ∧ (s.doneEffects c).mem.cells = s.mem.cells := by
  unfold State.doneEffects
  rw [State.cmdPost_units, State.cmdPost_mem]
  split
  · exact ⟨rfl, rfl, rfl⟩
  · exact s.visible_keeps ..

/-- The store of a command that ends with DONE holds up no entry. -/
theorem State.doneEffects_pend {s : State} {c : Cmd} (h : s.cmdStore c ≠ 0) :
    ∀ p ∈ ((s.doneEffects c).agentOf s.devnum (entAgent c.wo)).pend, p.1 ≠ s.cmdStore c := by
  unfold State.doneEffects
  rw [State.agentOf_congr (congrArg Units.agents (State.cmdPost_units ..)), if_neg h]
  exact s.visible_pend _ _

/-- A state with the units of another knows the stores of commands as that does. -/
theorem State.SameUnits.cmdStore {s t : State} (h : s.SameUnits t) (c : Cmd) : t.cmdStore c = s.cmdStore c := by
  rw [State.cmdStore, State.cmdStore, State.agentOf_congr (congrArg Units.agents h.1), h.2]

section
variable {s : State} {e : Nat} {c : Cmd}

/-- While a command is at the head of an engine, no command of the engine waits for its word 0x38. -/
theorem State.endings_find_none (h : s.engHead e = some c) :
    (s.units.endings.find? fun g => decide (g.eng = e) && (!g.sent || g.answer.isSome)) = none := by
  obtain ⟨hend, -⟩ := State.engHead_eq_some.mp h
  rw [List.find?_eq_none]
  intro g hg
  simp [hend g hg]

/-- 09 R213: source-free posts its token once. -/
theorem exec_sourceFree (h : s.engHead e = some c) : exec (.sourceFree e) s = .next (if c.freed = true then s
    else ((s.cmdPost c c.tsfPost none).setHead e { c with freed := true } (s.engine e).vals).pushEngine e) := by
  refine (rfl : _ = execSourceFree e s).trans ?_
  rw [execSourceFree, h]

/-- A command whose destination has accepted every byte ends. -/
theorem exec_delivered (h : s.engHead e = some c) : exec (.delivered e) s =
    .next (if c.written = true then (s.endCommand (c.done e)).popEngine e else s) := by
  refine (rfl : _ = execDelivered e s).trans ?_
  rw [execDelivered, State.endings_find_none h, h]

end

/-! ### The end of a delivered command -/

section
variable {s u : State} {g : Ending} {w : Nat}

theorem State.endCommand_of_none (hword : g.word = none) : s.endCommand g = s.endEffects g none := by
  unfold State.endCommand
  rw [hword]

variable (hword : g.word = some w)
include hword

theorem State.endCommand_of_ok (h : s.wrStatus g w = .ok u) : s.endCommand g = u.endEffects g none := by
  unfold State.endCommand
  rw [hword]
  dsimp only
  rw [h]

theorem State.endCommand_of_fail {f : EngFail} (h : s.wrStatus g w = .fail u f) :
    s.endCommand g = u.endEffects g (some f) := by
  unfold State.endCommand
  rw [hword]
  dsimp only
  rw [h]

/-- While a lender has the write of its word 0x38 a command waits among the endings. -/
theorem State.endCommand_of_asked (h : s.wrStatus g w = .asked u) : ∃ t, s.endCommand g = t ∧
    t.engine = u.engine ∧ t.mem = u.mem ∧ { g with sent := true } ∈ t.units.endings := by
  refine ⟨{ u with units := { u.units with endings := u.units.endings ++ [{ g with sent := true }] } }, ?_, rfl, rfl,
    List.mem_append_right _ (List.mem_singleton.mpr rfl)⟩
  unfold State.endCommand
  rw [hword]
  dsimp only
  rw [h]

end

theorem State.endEffects_done (s : State) (e : Nat) (c : Cmd) : s.endEffects (c.done e) none = s.doneEffects c := by
  rw [State.endEffects] <;> rfl

theorem State.endEffects_done_fail (s : State) (e : Nat) (c : Cmd) (f : EngFail) :
    s.endEffects (c.done e) (some f) = s.failEffects e c f := by
  rw [State.endEffects] <;> rfl

section
variable {s u : State} {e : Nat} {c : Cmd}

theorem Cmd.done_word (e : Nat) (h : c.kind ≤ 3) : (c.done e).word = some (c.status 0) := if_pos h

/-- A delivered command whose word 0x38 has been written, or that has none, makes its store visible and posts. -/
theorem State.endCommand_done
    (h : c.kind ≤ 3 ∧ s.wrStatus (c.done e) (c.status 0) = .ok u ∨ 3 < c.kind ∧ u = s) :
    s.endCommand (c.done e) = u.doneEffects c ∧ s.SameUnits u := by
  rcases h with ⟨hkind, hw⟩ | ⟨hkind, rfl⟩
  · have hkeeps := s.wrStatus_keepsUnits (c.done e) (c.status 0)
    rw [hw] at hkeeps
    exact ⟨(State.endCommand_of_ok (Cmd.done_word e hkind) hw).trans (u.endEffects_done e c), hkeeps⟩
  · have hword : (c.done e).word = none := if_neg (Nat.not_le.mpr hkind)
    exact ⟨(State.endCommand_of_none hword).trans (u.endEffects_done e c), .refl u⟩

end

theorem deliveredCommandsEnd : DeliveredCommandsEnd := by
  intro s e c he h
  refine ⟨fun hfreed => ?_, fun hfreed => ?_, fun hwritten => ?_, fun u f hwritten => ⟨?_, ?_, ?_⟩⟩
  · have hgo := exec_sourceFree h
    rw [if_neg (by simp [hfreed])] at hgo
    refine ⟨_, hgo, ?_, ?_, fun p hp => ?_⟩
    · rw [State.pushEngine_engHead]
      refine State.engHead_setHead he (c := c) ?_ _
      rwa [State.engHead_congr (congrArg Units.engines (State.cmdPost_units ..))
        (congrArg Units.endings (State.cmdPost_units ..))]
    · rw [State.pushEngine_mem, State.setHead_mem, State.cmdPost_mem]
    · exact State.mem_agenda_pushEngine _ _ (s.mem_agenda_cmdPost none hp)
  · exact (exec_sourceFree h).trans (congrArg _ (if_pos hfreed))
  · exact (exec_delivered h).trans (congrArg _ (if_neg (by simp [hwritten])))
  · intro hword
    obtain ⟨hend, hsame⟩ := State.endCommand_done hword
    obtain ⟨hengines, -, hcells⟩ := u.doneEffects_keeps c
    have hgo := (exec_delivered h).trans (congrArg _ (if_pos hwritten))
    rw [hend] at hgo
    refine ⟨_, hgo, ?_, ?_, fun p hp => ?_, fun hstore n b hpend => ?_⟩
    · rw [State.engine_popEngine he, State.engine_congr hengines, State.engine_congr (congrArg Units.engines hsame.1)]
    · rw [State.popEngine_mem, hcells]
    · exact State.mem_agenda_pushEngine _ _ (State.mem_agenda_cmdPost _ none hp)
    · rw [State.popEngine, State.agentOf_congr (congrArg Units.agents (State.pushEngine_units ..)), ← hsame.2] at hpend
      rw [← hsame.cmdStore] at hstore ⊢
      exact State.doneEffects_pend hstore _ hpend
  · intro hkind hword
    have hkeeps := s.wrStatus_keepsUnits (c.done e) (c.status 0)
    rw [hword] at hkeeps
    obtain ⟨t, hend, hengine, hmem, hending⟩ := State.endCommand_of_asked (Cmd.done_word e hkind) hword
    have hgo := (exec_delivered h).trans (congrArg _ (if_pos hwritten))
    rw [hend] at hgo
    refine ⟨_, hgo, ?_, ?_, ?_⟩
    · rw [State.engine_popEngine he, hengine, State.engine_congr (congrArg Units.engines hkeeps.1)]
    · rw [State.popEngine, State.pushEngine_units]
      exact hending
    · rw [State.popEngine_mem, hmem]
  · intro hkind hword
    rw [← State.endEffects_done_fail, ← State.endCommand_of_fail (Cmd.done_word e hkind) hword]
    exact (exec_delivered h).trans (congrArg _ (if_pos hwritten))

end Sys2Proof.Machine
end

section
/-!
# Triggers and publishes (08 R190, R191; 09 R215, R216)

A trigger at the head looks at its word; a publish at the head first reads a segment of the shadow and then writes it.
-/
namespace Sys2Proof.Machine

open Sys2Proof.Claims

/-! ### Triggers -/

section
variable {s u : State} {e : Nat} {c : Cmd} {j : Job} {ps : List EPlace}

/-- 09 R215: the trigger at the head looks at its word, posts once it is met and waits until then. -/
theorem exec_trigger_head (h : HeadCmd s e c j) (hkind : c.kind = 4) (hfreed : c.freed = false)
    (hu : u = s.setHead e c (s.engine e).vals) (hword : u.armBytes c j = (ps, none))
    (hwait : u.engWait j (bits (c.w 0) 63 48) (bits (c.w 0) 47 0) 8 = (u, false)) :
    exec (.triggerMet e) s = .next (if (u.getBytes ps + 2 ^ 64 - c.w 1) % 2 ^ 64 < 2 ^ 63
      then ((u.cmdPost c c.tokPost none).setHead e { c with freed := true, wi := u.unripeAt (numsOf ps) } []).push
        (.triggerMet e)
      else u.push (.triggerMet e)) := by
  obtain ⟨-, hhead, hwi, -, hj⟩ := h
  have hju : u.job? c.job = some j := hu ▸ hj
  refine (rfl : _ = execTriggerMet e s).trans ?_
  rw [execTriggerMet, hhead]
  dsimp only
  rw [if_neg (not_not_intro hkind), if_neg (by simp [hfreed]), State.cmdObserve_nil hwi, ← hu, hju]
  simp only [State.armMet, hword, hwait, decide_true, Bool.true_and, Bool.not_false, decide_eq_true_eq]

/-- 09 R215: the commands behind a trigger that has been met go on once its stores are ripe. -/
theorem exec_trigger_met (h : s.engHead e = some c) (hkind : c.kind = 4) (hfreed : c.freed = true) :
    exec (.triggerMet e) s =
      .next (if s.observe none c.wi = .wait then s.push (.triggerMet e) else s.popEngine e) := by
  refine (rfl : _ = execTriggerMet e s).trans ?_
  rw [execTriggerMet, h]
  dsimp only
  rw [if_neg (not_not_intro hkind), if_pos hfreed]

/-! ### Publishes -/

/-- The head publish of an engine acts on its next segment. -/
theorem exec_publish_head (h : HeadCmd s e c j) (hkind : c.kind = 5) (hu : u = s.setHead e c (s.engine e).vals) :
    exec (.publishPerform e) s = .next (u.publishPiece e c j) := by
  obtain ⟨-, hhead, hwi, hwritten, hj⟩ := h
  have hju : u.job? c.job = some j := hu ▸ hj
  have hgo : ¬(c.kind ≠ 5 ∨ c.written = true) := by simp [hkind, hwritten]
  refine (rfl : _ = execPublishPerform e s).trans ?_
  rw [execPublishPerform, hhead]
  dsimp only
  rw [if_neg hgo, State.cmdObserve_nil hwi, ← hu, hju]

section
variable {ix off sh : Nat} (hix : ix = bits (c.w 0) 63 48) (hoff : off = bits (c.w 0) 47 0)
  (hfit : (off + 64 * c.row) % 64 = 0) (hlen : c.w 1 % 64 = 0) (hcheck : s.publishCheck j ix off (c.w 1) = .ok sh)
include hix hoff hfit hlen hcheck

/-- A publish that has copied its last segment has been accepted. -/
theorem State.publishPiece_done (hend : c.w 1 ≤ 64 * c.row) :
    s.publishPiece e c j = (s.setHead e { c with written := true } []).push (.delivered e) := by
  subst hix hoff
  unfold State.publishPiece
  simp only [hfit, hlen, hcheck, hend, ne_eq, not_true_eq_false, or_self, if_false, if_true]

variable {o : Nat} {ps qs : List EPlace} (ho : o = off + 64 * c.row) (hmore : 64 * c.row < c.w 1)
  (hdest : okBytes (fun i => s.engByte j c.core needW ix (o + i)) 64 0 = (qs, none))
  (hsource : okBytes (fun i => s.engSource j c.core sh (o + i)) 64 0 = (ps, none))
include ho hmore hdest hsource

/-- A segment of a publish is read from the shadow. -/
theorem State.publishPiece_read (hvals : (s.engine e).vals = []) (hpeer : NoPeer ps)
    (hwait : s.engWait j sh o 64 = (s, false)) :
    s.publishPiece e c j = (s.setHead e c [s.getBytes ps]).pushEngine e := by
  have hread := State.engRead_bytes (e := e) hpeer (okBytes_length hsource) hwait
  subst hix hoff ho
  unfold State.publishPiece
  simp only [hfit, hlen, hcheck, Nat.not_le.mpr hmore, hdest, hsource, hvals, hread, ne_eq, not_true_eq_false, or_self,
    if_false]
  rfl

/-- A segment of a publish that has been read is written. -/
theorem State.publishPiece_write {x : Nat} (hvals : (s.engine e).vals = [x]) (hpeer : NoPeer qs)
    (hwait : s.engWait j ix o 64 = (s, false)) : s.publishPiece e c j =
      ((s.putBytes c.wo qs x).setHead e { c with row := c.row + 1, bytes := c.bytes + 64 } []).pushEngine e := by
  have hwrite := State.engWrite_bytes (e := e) hpeer (okBytes_length hdest) hwait c.wo x
  subst hix hoff ho
  unfold State.publishPiece
  simp only [hfit, hlen, hcheck, Nat.not_le.mpr hmore, hdest, hsource, hvals, hwrite, ne_eq, not_true_eq_false, or_self,
    if_false]
  rfl

end

end

theorem triggersAndPublishesAct : TriggersAndPublishesAct := by
  refine ⟨fun s u e c j ix off h hix hoff hu => ⟨?_, ?_⟩, fun s e c h hkind hfreed => ?_⟩
  · intro ps v hkind hfreed hword hwait hv
    have hword : u.armBytes c j = (ps, none) := by rw [State.armBytes, ← hix, ← hoff]; exact hword
    have hgo := exec_trigger_head h hkind hfreed hu hword (hix ▸ hoff ▸ hwait)
    obtain ⟨he, hhead, -⟩ := h
    have hbytes : u.getBytes ps = s.getBytes ps := hu ▸ State.getBytes_setHead ..
    rw [hbytes, ← hv] at hgo
    refine ⟨fun hmet => ?_, fun hunmet => ?_⟩
    · rw [if_pos hmet] at hgo
      refine ⟨_, { c with freed := true, wi := u.unripeAt (numsOf ps) }, hgo, ?_, rfl, ?_, rfl,
        List.mem_append_right _ (List.mem_singleton.mpr rfl), fun p hp => ?_⟩
      · refine State.engHead_setHead he (c := c) ?_ _
        rw [State.engHead_congr (congrArg Units.engines (State.cmdPost_units ..))
          (congrArg Units.endings (State.cmdPost_units ..)), hu]
        exact State.engHead_setHead he hhead _
      · rw [State.push_mem, State.setHead_mem, State.cmdPost_mem, hu]
        rfl
      · exact List.mem_append_left _ (u.mem_agenda_cmdPost none hp)
    · rw [if_neg (Nat.not_lt.mpr hunmet)] at hgo
      exact hgo
  · intro sh hkind hfit hlen hcheck
    have hexec := exec_publish_head h hkind hu
    obtain ⟨he, hhead, -⟩ := h
    have hengine := hu ▸ State.engine_setHead (s := s) he c (s.engine e).vals
    have hvals : (u.engine e).vals = (s.engine e).vals := by rw [hengine]
    have hheadu : u.engHead e = some c := hu ▸ State.engHead_setHead he hhead _
    refine ⟨fun hend => hexec.trans (congrArg _ (State.publishPiece_done hix hoff hfit hlen hcheck hend)),
      fun ps qs o ho hmore hdest hqs hsource hps hwaits hwaitd => ⟨fun hnil => ?_, fun x hx => ?_⟩⟩
    · refine ⟨_, hexec.trans (congrArg _ (State.publishPiece_read hix hoff hfit hlen hcheck ho hmore hdest hsource
        (hvals.trans hnil) hps hwaits)), ?_, ?_⟩
      · rw [State.pushEngine_engine, State.engine_setHead he, hu, State.getBytes_setHead]
      · rw [State.pushEngine_mem, hu]
        rfl
    · refine ⟨_, { c with row := c.row + 1, bytes := c.bytes + 64 },
        hexec.trans (congrArg _ (State.publishPiece_write hix hoff hfit hlen hcheck ho hmore hdest hsource
        (hvals.trans hx) hqs hwaitd)), ?_, rfl, rfl, ?_⟩
      · rw [State.pushEngine_engHead]
        refine State.engHead_setHead he (c := c) ?_ _
        rw [State.putBytes_engHead]
        exact hheadu
      · rw [State.pushEngine_mem]
        rfl
  · have hgo := exec_trigger_met h hkind hfreed
    exact ⟨fun hwait => hgo.trans (congrArg _ (if_pos hwait)), fun hgoes => hgo.trans (congrArg _ (if_neg hgoes))⟩

end Sys2Proof.Machine
end

section
/-!
# Packets that are lost (08 R176; 10 R235; 11 R242; 12 R285; 15 R341)

A lost hop freezes the instance of its chain, here or at its arbiter; the other losses answer who waits for them.
-/
namespace Sys2Proof.Machine

open Sys2Proof.Claims

/-! ### The instance of a message -/

/-- The first element that satisfies a condition is the first one that satisfies a narrower condition that holds of
it. -/
theorem find?_narrow {α : Type} {p q : α → Bool} {l : List α} {a : α} (h : l.find? p = some a)
    (hq : ∀ x, q x = true → p x = true) (ha : q a = true) : l.find? q = some a := by
  rw [List.find?_eq_some_iff_append] at h ⊢
  obtain ⟨-, as, bs, rfl, hbefore⟩ := h
  refine ⟨ha, as, bs, rfl, fun x hx => ?_⟩
  have hp := hbefore x hx
  cases hqx : q x with
  | false => rfl
  | true => rw [hq x hqx] at hp; exact hp

/-- The instance that a message is about is known by its own job, chain and number. -/
theorem State.chain?_of_chainFor {s : State} {m : ChainMsg} {c : Chain} (h : s.chainFor m = some c) :
    s.chain? c.job c.ch c.inst = some c := by
  unfold State.chainFor at h
  split at h
  next q hq =>
    obtain rfl := Option.some_inj.mp h
    obtain ⟨hjob, hch, hinst⟩ := of_decide_eq_true (List.find?_some hq :)
    rwa [hjob, hch, hinst]
  next hnone =>
    obtain ⟨hch, hinst⟩ := of_decide_eq_true (List.find?_some h :)
    refine find?_narrow h (fun x hx => ?_) (by simp)
    obtain ⟨-, hxch, hxinst⟩ := of_decide_eq_true hx
    exact decide_eq_true ⟨hxch.trans hch, hxinst.trans hinst⟩

theorem State.chain?_congr {s t : State} (h : t.units.chains = s.units.chains) : t.chain? = s.chain? := by
  funext job ch inst
  rw [State.chain?, State.chain?, h]

/-- An instance that has been replaced is what it was replaced by. -/
theorem State.chain?_setChain (s : State) (c : Chain) : (s.setChain c).chain? c.job c.ch c.inst = some c := by
  rw [State.chain?, State.setChain_units_chains]
  exact List.find?_cons_of_pos (by simp)

/-- A link that has been replaced is what it was replaced by. -/
theorem Chain.link?_setLink (c : Chain) (l : Link) : (c.setLink l).link? l.idx = some l :=
  List.find?_cons_of_pos (by simp)

/-! ### A lost hop (10 R235) -/

section
variable {s : State} {c : Chain} {cause : Cause} {j : Nat} {l : Link}

/-- The cause of a freeze is noted at the link concerned, beside the fault record (10 R235). -/
theorem State.freezeChain_noted (hc : s.chain? c.job c.ch c.inst = some c) (hl : c.link? j = some l)
    (note : Option Nat) (rec : Word) (agent : Nat) : ∃ t : State, t.devnum = s.devnum ∧
      t.chain? c.job c.ch c.inst = some (c.setLink { l with cause := cause.code }) ∧
      s.freezeChain c cause j note rec agent = if c.arbDev = t.devnum
        then (t.freezeHere c).tellChain c (.chainFreezeMessage (c.msg j))
        else t.tellArbiter c (.freeze cause (note.map fun st => (j, st))) j agent := by
  obtain ⟨r, hr⟩ : ∃ r, r = s.faultRecord c.job
    ⟨cause.code, 0, 3, 0, agent, 0, rec, 0, 0, c.ch.toNat, 0, 0, 0⟩ := ⟨_, rfl⟩
  have recorded : s.RecordsOnly r.1 := hr ▸ s.recordsOnly_faultRecord _ _
  have hcr : r.1.chain? c.job c.ch c.inst = some c := by rw [State.chain?_congr recorded.chains, hc]
  refine ⟨r.1.setChain (c.setLink { l with cause := cause.code }), ?_, State.chain?_setChain .., ?_⟩
  · rw [State.setChain_devnum, recorded.devnum]
  · rw [State.freezeChain, ← hr]
    simp only [hcr, hl]

/-- An instance that is frozen here is FROZEN, and the other devices are told. -/
theorem State.freezeHere_tellChain {c' : Chain} (hc : s.chain? c.job c.ch c.inst = some c') (hstate : c'.state = 0)
    (hid : c'.job = c.job ∧ c'.ch = c.ch ∧ c'.inst = c.inst) (i : Event) :
    ((s.freezeHere c).tellChain c i).chain? c.job c.ch c.inst = some { c' with state := 1 } := by
  obtain ⟨hjob, hch, hinst⟩ := hid
  rw [State.tellChain_eq, State.freezeHere, hc]
  dsimp only
  rw [if_pos hstate, ← hjob, ← hch, ← hinst]
  exact State.chain?_setChain s { c' with state := 1 }

/-- A message to another device is in the outbox, one to this device in the agenda (log 10). -/
theorem State.sent_send (s : State) (dev : BitVec 14) (i : Event) : Sent s (s.send dev i) dev i := by
  unfold State.send
  refine ⟨fun h => ?_, fun h => ?_⟩
  · rw [if_pos h]
    exact List.mem_append_right _ (List.mem_singleton.mpr rfl)
  · rw [if_neg h]
    exact List.mem_append_right _ (List.mem_singleton.mpr rfl)

/-- 10 R235, 11 R242: a lost hop freezes its instance, here or at the arbiter of another device. -/
theorem State.hopLost_freezes {m : ChainMsg} (hm : s.chainFor m = some c) (hl : c.link? m.sender = some l)
    (hstate : c.state = 0) (hsent : l.state = 2) : ∃ c', (s.hopLost m).chain? c.job c.ch c.inst = some c' ∧
      (c.arbDev = s.devnum → c'.state = 1) ∧ (∃ l', c'.link? m.sender = some l' ∧ l'.state = 2) ∧
      (c.arbDev ≠ s.devnum → ∃ r : ArbReq, Sent s (s.hopLost m) c.arbDev (.arbiterRequest r) ∧
        r.kind = .freeze .linkLost none ∧ r.ch = c.ch ∧ r.inst = c.inst) := by
  have hidx : l.idx = m.sender := of_decide_eq_true (List.find?_some hl :)
  have hlost : ∃ rec, s.hopLost m = s.freezeChain c .linkLost m.sender none rec l.core := by
    rw [State.hopLost, hm]
    dsimp only
    rw [hl]
    exact ⟨_, if_pos ⟨hstate, hsent⟩⟩
  obtain ⟨rec, hlost⟩ := hlost
  obtain ⟨t, hdev, hnoted, hfreeze⟩ :=
    State.freezeChain_noted (cause := .linkLost) (State.chain?_of_chainFor hm) hl none rec l.core
  have hlink : (c.setLink { l with cause := Cause.linkLost.code }).link? m.sender =
      some { l with cause := Cause.linkLost.code } := by
    rw [← hidx]
    exact c.link?_setLink { l with cause := Cause.linkLost.code }
  rw [hlost, hfreeze, hdev]
  by_cases hhere : c.arbDev = s.devnum
  · rw [if_pos hhere]
    exact ⟨_, State.freezeHere_tellChain hnoted hstate ⟨rfl, rfl, rfl⟩ _, fun _ => rfl, ⟨_, hlink, hsent⟩,
      fun h => absurd hhere h⟩
  · rw [if_neg hhere, State.tellArbiter]
    refine ⟨_, ?_, fun h => absurd h hhere, ⟨_, hlink, hsent⟩, fun _ =>
      ⟨⟨c.job, c.ch, c.inst, c.digest, .freeze .linkLost none, m.sender, l.core, noKey, t.devnum, none⟩, ?_, rfl, rfl,
        rfl⟩⟩
    · rw [State.chain?_congr (congrArg Units.chains (State.send_units ..))]
      exact hnoted
    · have hsend := t.sent_send c.arbDev (.arbiterRequest
        ⟨c.job, c.ch, c.inst, c.digest, .freeze .linkLost none, m.sender, l.core, noKey, t.devnum, none⟩)
      unfold Sent at hsend ⊢
      rwa [hdev] at hsend ⊢

end

/-! ### A lost request of an arbiter, and a lost run (11 R242; 12 R285) -/

theorem exec_retryLimit_arbiter (s : State) (r : ArbReq) :
    exec (.retryLimit (.arbiter r)) s = .next (s.arbiterLost r) := rfl

theorem State.arbiterLost_of_stalled {s : State} {r : ArbReq} (h : r.key ≠ noKey) :
    s.arbiterLost r = s.answerStall r.core r.key [2] := if_pos h

section
variable {s : State} {r : ArbReq} {c : Chain} (hkey : r.key = noKey) (hc : s.chain? r.job r.ch r.inst = some c)
include hkey hc

theorem State.arbiterLost_of_freeze {cause : Cause} {link : Option (Nat × Nat)} (h : r.kind = .freeze cause link) :
    s.arbiterLost r = s.freezeHere c := by
  rw [State.arbiterLost, if_neg (not_not_intro hkey), hc, h]

theorem State.arbiterLost_of_cancel (h : r.kind = .cancel) :
    s.arbiterLost r = (s.cancelHere c).tellChain c (.chainCancelMessage (c.msg 0)) := by
  rw [State.arbiterLost, if_neg (not_not_intro hkey), hc, h]

end

/-- A run whose packet is lost ends, when it is still there (12 R285). -/
theorem exec_retryLimit_ring {s : State} {tenant cid seq : BitVec 16} {o : Option Run} (h : s.run? tenant cid seq = o) :
    exec (.retryLimit (.ring tenant cid seq)) s = .next (o.elim s fun r => s.endRunWith r 0x12) := by
  refine (rfl : _ = execRetryLimit (.ring tenant cid seq) s).trans ?_
  rw [execRetryLimit, h]
  cases o <;> rfl

theorem lostPacketsReachTheirSender : LostPacketsReachTheirSender := by
  intro s l
  refine ⟨fun core key => rfl, fun r hkey => ?_, fun r c hkey hc => ⟨fun cause link hkind => ?_, fun hkind => ?_⟩,
    fun tenant cid seq r hr => exec_retryLimit_ring hr, fun tenant cid seq hr => exec_retryLimit_ring hr,
    fun dev => rfl,
    fun m c q hm hq hstate hsent => ⟨_, rfl, State.hopLost_freezes hm hq hstate hsent⟩⟩
  · exact (exec_retryLimit_arbiter s r).trans (congrArg _ (State.arbiterLost_of_stalled hkey))
  · exact (exec_retryLimit_arbiter s r).trans (congrArg _ (State.arbiterLost_of_freeze hkey hc hkind))
  · exact (exec_retryLimit_arbiter s r).trans (congrArg _ (State.arbiterLost_of_cancel hkey hc hkind))

end Sys2Proof.Machine
end

section
open Sys2Proof Sys2Proof.Machine

/-- Settles O52: the head copy goes through the stages of its pieces, a delivered command ends by the write of its
word 0x38, triggers and publishes act on their words and segments, and a lost packet answers who waits for it. -/
theorem enginesCarryOutTheirCommands : Obligations.EnginesCarryOutTheirCommands :=
  ⟨copiesMoveTheirPieces, deliveredCommandsEnd, triggersAndPublishesAct, lostPacketsReachTheirSender⟩

end
